-- ==== Sys2Proof/Word.lean ====
section
/-! DEFINITION. The word types of the machine and the finite table that every indexed part of the state is kept in. -/

namespace Sys2Proof

/-- A 32-bit register, scalar or instruction word (00_scope.md R6). -/
abbrev Word := BitVec 32

/-- One byte of memory (R6). -/
abbrev Byte := BitVec 8

/-- A 16-bit origin-tag mask: bit i set means party i (R13, R300). -/
abbrev Mask := BitVec 16

/-- One bit per lane of a warp, or per warp of a block. -/
abbrev LaneMask := BitVec 32

/-- A finite table from numbers to values, as a list of pairs. What an unlisted key stands for is said where the table is read. -/
structure Tab (α : Type) where
  cells : List (Nat × α)
  deriving DecidableEq, Repr

/-- A memory: listed bytes by address; an unlisted address reads as `Config.emptyByte`. -/
structure Mem where
  cells : List Host.Cell
  deriving DecidableEq, Repr

end Sys2Proof
end

