-- ==== Sys2Proof/Syntax.lean ====
section
/-! DEFINITION. The syntax of Turry edition 1: operands, modifiers, forms, and one constructor of `Instr` for each row
of the opcode table. A row that is a step of the part without an encoding carries what its rule leaves to the outside
world and which part of the machine acts. -/

namespace Sys2Proof

/-- The execution scope of R64. -/
inductive Scope where
  | lane | warp | gang | block
  deriving DecidableEq, Repr

/-- An operand code of R345. `bad` holds the codes 0xE0 to 0xFF, which raise ILLOPND. -/
inductive Operand where
  | v (n : BitVec 7)
  | s (n : BitVec 6)
  | p (n : BitVec 3)
  | a (n : BitVec 4)
  | zero
  | laneId | warpId | gangId | blockId | coreId | clusId
  | ones
  | bad (n : BitVec 5)
  deriving DecidableEq, Repr

/-- The guard field of R346: predicate number and negate flag. -/
structure Guard where
  p   : BitVec 3
  neg : Bool
  deriving DecidableEq, Repr

/-- The fields of word 0 that every instruction has (R342). `wslot` is 0 for none, j + 1 for wsj; 7 is illegal. -/
structure Head where
  scope : Scope
  stall : BitVec 3
  wslot : BitVec 3
  deriving DecidableEq, Repr

/-- Rounding modes (R185). -/
inductive RMode where
  | rne | rz | ru | rd
  deriving DecidableEq, Repr

/-- Conditions of ICMP and PCMP (R421, R448). -/
inductive Cond where
  | eq | ne | lt | le | gt | ge
  deriving DecidableEq, Repr

/-- Conditions of FCMP (R405). -/
inductive FCond where
  | eq | ne | lt | le | gt | ge | num | nan
  deriving DecidableEq, Repr

/-- The combining operation with a predicate (R405, R421). -/
inductive Bop where
  | none | and | or | xor
  deriving DecidableEq, Repr

/-- Saturation of IADD, ISUB (R419) and of PADD, PSUB (R448). -/
inductive SatMode where
  | none | signed | unsigned
  deriving DecidableEq, Repr

/-- Format codes 0 to 9 of R185. -/
inductive Fmt where
  | f32 | f16 | bf16 | e4m3 | e5m2 | i32 | i16 | i8 | i4 | o4
  deriving DecidableEq, Repr

/-- Sizes of the loads (R427). -/
inductive LoadSize where
  | b32 | b64 | b128 | u8 | s8 | u16 | s16
  deriving DecidableEq, Repr

/-- Sizes of the stores (R478). -/
inductive StoreSize where
  | b32 | b64 | b128 | b8 | b16
  deriving DecidableEq, Repr

/-- Memory scopes (R120). -/
inductive MScope where
  | blk | clu | dev | sys
  deriving DecidableEq, Repr

/-- Operations of ATOM (R373). -/
inductive AtomOp where
  | add | fadd | min | max | and | or | xor | xchg | incsat
  deriving DecidableEq, Repr

/-- Operations of REDW and SCANW (R460). -/
inductive RedOp where
  | add | minS | minU | maxS | maxU | and | or | xor | fadd | fmin | fmax
  deriving DecidableEq, Repr

/-- Modes of SHFL (R472). -/
inductive ShflMode where
  | idx | up | down | xor
  deriving DecidableEq, Repr

/-- Functions of VOTE (R488). -/
inductive VoteFn where
  | and | or | same | mask | count | lead
  deriving DecidableEq, Repr

/-- Kinds of MATCH (R437). -/
inductive MatchKind where
  | mask | first | count
  deriving DecidableEq, Repr

/-- Kinds of FENCE (R410). -/
inductive FenceKind where
  | posted | engine | sys
  deriving DecidableEq, Repr

/-- The seven special functions (R407). -/
inductive SpecialFn where
  | rcp | rsq | sqrt | exp2 | log2 | sin | cos
  deriving DecidableEq, Repr

/-- No modifier bit: [15:4] (or [14:4]) are zero. -/
structure NoMods where
  deriving DecidableEq, Repr

/-- IADD, ISUB (R419). -/
structure AddMods where
  ci  : Bool
  co  : Bool
  pc  : BitVec 3
  sat : SatMode
  deriving DecidableEq, Repr

/-- IMUL (R423). -/
structure MulMods where
  hi : Bool
  u  : Bool
  deriving DecidableEq, Repr

/-- IMAD (R423). -/
structure MadMods where
  sat : Bool
  u   : Bool
  deriving DecidableEq, Repr

/-- IMADW (R423). -/
structure MadwMods where
  u : Bool
  deriving DecidableEq, Repr

/-- IMIN, IMAX (R425). -/
structure MinMaxMods where
  u : Bool
  deriving DecidableEq, Repr

/-- IABS (R418). -/
structure AbsMods where
  sat : Bool
  deriving DecidableEq, Repr

/-- ICMP (R421). -/
structure IcmpMods where
  cond : Cond
  u    : Bool
  bop  : Bop
  deriving DecidableEq, Repr

/-- AND, OR, XOR (R371). -/
structure LogicMods where
  inv : Bool
  deriving DecidableEq, Repr

/-- SHL, SHR, SAR (R466). -/
structure ShiftMods where
  wrap : Bool
  deriving DecidableEq, Repr

/-- BFE (R382). -/
structure BfeMods where
  sx : Bool
  deriving DecidableEq, Repr

/-- LEA (R436). -/
structure LeaMods where
  sh : BitVec 2
  u  : Bool
  deriving DecidableEq, Repr

/-- MOV (R441): the range width is 2 to the power `rep`. -/
structure MovMods where
  rep : BitVec 2
  deriving DecidableEq, Repr

/-- MOVS (R444). -/
structure MovsMods where
  all : Bool
  deriving DecidableEq, Repr

/-- PADD, PSUB (R448); `h` selects INT16x2. -/
structure PaddMods where
  h   : Bool
  sat : SatMode
  deriving DecidableEq, Repr

/-- PMIN, PMAX (R448). -/
structure PminMods where
  h : Bool
  u : Bool
  deriving DecidableEq, Repr

/-- PCMP (R448). -/
structure PcmpMods where
  h    : Bool
  u    : Bool
  cond : Cond
  deriving DecidableEq, Repr

/-- PDOT4 (R450). -/
structure Pdot4Mods where
  au  : Bool
  bu  : Bool
  sat : Bool
  deriving DecidableEq, Repr

/-- The negate and absolute bits of one source (R400). -/
structure SrcMod where
  neg : Bool
  abs : Bool
  deriving DecidableEq, Repr

/-- FADD, FMUL (R401). -/
structure FaddMods where
  a    : SrcMod
  b    : SrcMod
  mode : RMode
  sat  : Bool
  deriving DecidableEq, Repr

/-- FFMA (R401). -/
structure FfmaMods where
  a    : SrcMod
  b    : SrcMod
  c    : SrcMod
  mode : RMode
  sat  : Bool
  deriving DecidableEq, Repr

/-- FMIN, FMAX (R401). -/
structure FminMods where
  a : SrcMod
  b : SrcMod
  deriving DecidableEq, Repr

/-- FCMP (R405). -/
structure FcmpMods where
  a    : SrcMod
  b    : SrcMod
  cond : FCond
  bop  : Bop
  deriving DecidableEq, Repr

/-- FRND (R401). -/
structure FrndMods where
  a    : SrcMod
  mode : RMode
  deriving DecidableEq, Repr

/-- HADD2, HMUL2, HFMA2, HMAX2 (R415). -/
structure HalfMods where
  bf   : Bool
  mode : RMode
  sat  : Bool
  na   : Bool
  nb   : Bool
  nc   : Bool
  min  : Bool
  deriving DecidableEq, Repr

/-- The special functions (R407). -/
structure SpecialMods where
  a : SrcMod
  deriving DecidableEq, Repr

/-- CVT (R394). -/
structure CvtMods where
  dfmt : Fmt
  sfmt : Fmt
  mode : RMode
  sat  : Bool
  u    : Bool
  deriving DecidableEq, Repr

/-- CVTQ (R396). -/
structure CvtqMods where
  dfmt : Fmt
  mode : RMode
  ovf  : Bool
  deriving DecidableEq, Repr

/-- HADQ (R417). -/
structure HadqMods where
  sc : Bool
  deriving DecidableEq, Repr

/-- SHFL (R472). -/
structure ShflMods where
  mode : ShflMode
  deriving DecidableEq, Repr

/-- VOTE (R488). -/
structure VoteMods where
  fn  : VoteFn
  not : Bool
  deriving DecidableEq, Repr

/-- REDW, SCANW (R460). -/
structure RedMods where
  op   : RedOp
  excl : Bool
  deriving DecidableEq, Repr

/-- MATCH (R437). -/
structure MatchMods where
  kind : MatchKind
  b64  : Bool
  deriving DecidableEq, Repr

/-- LD, LDS, LDL (R427). -/
structure LoadMods where
  size : LoadSize
  sh   : BitVec 2
  deriving DecidableEq, Repr

/-- ST, STS, STL (R478). -/
structure StoreMods where
  size : StoreSize
  sh   : BitVec 2
  deriving DecidableEq, Repr

/-- LDB (R434). -/
structure LdbMods where
  size : LoadSize
  deriving DecidableEq, Repr

/-- PREF (R454). -/
structure PrefMods where
  l2 : Bool
  sh : BitVec 2
  deriving DecidableEq, Repr

/-- ATOM (R373); `wide` and `unsigned` are bits 9 and 8 of TYPE. -/
structure AtomMods where
  op       : AtomOp
  wide     : Bool
  unsigned : Bool
  ms       : MScope
  ret      : Bool
  stamp    : Bool
  deriving DecidableEq, Repr

/-- CAS (R386). -/
structure CasMods where
  wide  : Bool
  ms    : MScope
  stamp : Bool
  deriving DecidableEq, Repr

/-- FENCE (R410). -/
structure FenceMods where
  kind : FenceKind
  deriving DecidableEq, Repr

/-- PRESS, PRESSR (R455). -/
structure PressMods where
  opc   : BitVec 6
  ms    : MScope
  stamp : Bool
  deriving DecidableEq, Repr

/-- The barrier instructions (R379). -/
structure BarrierMods where
  ext : Bool
  ms  : MScope
  deriving DecidableEq, Repr

/-- GANG (R413). -/
structure GangMods where
  blk : Bool
  deriving DecidableEq, Repr

/-- TDRAIN (R484), the bits of SRCC and of [15:4]. -/
structure DrainMods where
  fmt   : Fmt
  mode  : RMode
  sat   : Bool
  byp   : Bool
  nomem : Bool
  z     : Bool
  scp   : BitVec 2
  rel   : Bool
  acq   : Bool
  deriving DecidableEq, Repr

/-- Form A: one word, unguarded (R343). -/
structure FormA where
  h : Head
  d : Operand
  a : Operand
  deriving DecidableEq, Repr

/-- Form B: word 1 holds SRCB, SRCC, modifiers and the guard. -/
structure FormB (μ : Type) where
  h : Head
  d : Operand
  a : Operand
  b : Operand
  c : Operand
  m : μ
  g : Guard
  deriving DecidableEq, Repr

/-- Form C: word 1 holds IMM16, modifiers and the guard. -/
structure FormC (μ : Type) where
  h   : Head
  d   : Operand
  a   : Operand
  imm : BitVec 16
  m   : μ
  g   : Guard
  deriving DecidableEq, Repr

/-- Form D: word 1 holds a signed 24-bit word offset and the guard. -/
structure FormD where
  h   : Head
  off : BitVec 24
  g   : Guard
  deriving DecidableEq, Repr

/-- Form E: word 1 is IMM32 (`MOVI`). -/
structure FormE where
  h   : Head
  d   : Operand
  imm : Word
  deriving DecidableEq, Repr

/-- A press definition image: the header of R161 and its micro-operations, as they stand in memory. -/
structure PressImage where
  header : BitVec 64
  uops   : List (BitVec 16)
  deriving DecidableEq, Repr

/-- A press request from another module (R156): who asks, the context here that it is addressed to (R181), the opcode, the
carried image, the granule's physical address, the operand words, those of the further requests of a merged batch, whether a
value is to go back, and the handle it is sent back under (R293). -/
structure RemotePress where
  modid   : Nat
  ctx     : Nat
  opc     : BitVec 6
  image   : PressImage
  granule : Nat
  opnd    : List Word
  more    : List (List Word)
  ret     : Bool
  handle  : Word
  deriving DecidableEq, Repr

/-- A press request as an arrival (R181, R293): a local one names its opcode, a remote one carries its image. `more` are the
operands of the further requests of a remote batch; `va` and `core` are the virtual address and the core of a local request (the
model's own, log 84). -/
structure PressArrival where
  local_ : Bool
  ret    : Bool
  opc    : BitVec 6
  addr   : Nat
  modid  : Nat
  image  : PressImage
  opnd   : List Word
  more   : List (List Word)
  handle : Word
  va     : Nat
  core   : Nat
  deriving DecidableEq, Repr

/-- An arrival for a switched-out context (R293). KIND 1 to 4 are press requests, 5 a barrier arrival, 6 a count-down. -/
inductive Arrival where
  | press (p : PressArrival)
  | barrier (addr modid : Nat)
  | countDown (addr modid : Nat) (bytes : Word)
  deriving DecidableEq, Repr

/-- What a memory request from outside asks for: a read, a write, or a PCIe AtomicOp (R120, R308, R320). -/
inductive HostOp where
  | read (n : Nat)
  | write (data : List Byte)
  | fetchAdd (wide : Bool) (x : BitVec 64)
  | swap (wide : Bool) (x : BitVec 64)
  | cas (wide : Bool) (c x : BitVec 64)
  deriving DecidableEq, Repr

/-- A request of the host (`peer = false`) or of a PCIe peer through BAR 2 of function `fn` (R308, R321). -/
structure HostRequest where
  fn   : Nat
  peer : Bool
  off  : Nat
  op   : HostOp
  deriving DecidableEq, Repr

/-- A request of another module at a physical address of this one; `page` is the mask and seal of the page it names,
`trusted` says that this module lies in the reading launch's trust set (R130, R308). -/
structure PeerRequest where
  modid   : Nat
  pa      : Nat
  ctx     : Nat
  mask    : Mask
  sealed  : Bool
  trusted : Bool
  op      : HostOp
  deriving DecidableEq, Repr

/-- The header of a host-to-management message and its function (R330). -/
structure MboxHead where
  fn  : Nat
  seq : BitVec 16
  ack : BitVec 16
  deriving DecidableEq, Repr

/-- One frame that POOLADD adds: its physical address and the log2 of its size. -/
structure PoolFrame where
  pa   : Nat
  log2 : Nat
  deriving DecidableEq, Repr

/-- What the DEBUG command reads or writes in a held block (R332). -/
inductive DebugAccess where
  | readV (bid warp lane reg : Nat)
  | readS (bid warp reg : Nat)
  | readP (bid warp lane reg : Nat)
  | writeV (bid warp lane reg : Nat) (x : Word)
  | writeS (bid warp reg : Nat) (x : Word)
  | writeP (bid warp lane reg : Nat) (x : BitVec 4)
  deriving DecidableEq, Repr, Inhabited

/-- The arguments of a mailbox message, whichever of them its command has (R332). -/
structure MailArgs where
  ctx      : Nat
  fn       : Nat
  flag     : Bool
  base     : BitVec 48
  key      : BitVec 256
  frames   : List PoolFrame
  clusters : List Nat
  queues   : List Nat
  steps    : Nat
  access   : DebugAccess
  deriving DecidableEq, Repr, Inhabited

/-- A unit that a soft error makes uncorrectable (R506): 32 bytes of a memory tier or 64 bytes of scratchpad. -/
inductive ErrorUnit where
  | memory (unit : Nat)
  | scratchpad (bid unit : Nat)
  deriving DecidableEq, Repr

/-- The instructions and steps of spec/opcode_table.json, one constructor a row. -/
inductive Instr where
  /-- NOP (R445) -/
  | nop (i : FormA)
  /-- EXIT_FORM_A (R399) -/
  | exitA (i : FormA)
  /-- EXIT_FORM_B (R399) -/
  | exitB (i : FormB NoMods)
  /-- BRA (R384) -/
  | bra (i : FormD)
  /-- BRX_FORM_A (R384) -/
  | brxA (i : FormA)
  /-- BRX_FORM_B (R384) -/
  | brxB (i : FormB NoMods)
  /-- CALL (R384) -/
  | call (i : FormD)
  /-- CALLX_FORM_A (R384) -/
  | callxA (i : FormA)
  /-- CALLX_FORM_B (R384) -/
  | callxB (i : FormB NoMods)
  /-- RET_FORM_A (R465) -/
  | retA (i : FormA)
  /-- RET_FORM_B (R465) -/
  | retB (i : FormB NoMods)
  /-- WJOIN (R46) -/
  | wjoin (i : FormA)
  /-- YIELD (R45) -/
  | yield (i : FormA)
  /-- TRAP (R487) -/
  | trap (i : FormC NoMods)
  /-- SIGNAL_FORM_A (R475) -/
  | signalA (i : FormA)
  /-- SIGNAL_FORM_B (R475) -/
  | signalB (i : FormB NoMods)
  /-- SPAWN (R55) -/
  | spawn (i : FormB NoMods)
  /-- SPAWN_RETRY (R55) -/
  | spawnRetry (bid warp : Nat)
  /-- BIN_TIMER_EXPIRY (R56) -/
  | binTimerExpiry (core bin : Nat)
  /-- BROOD_WARP_LAUNCH (R58) -/
  | broodWarpLaunch (bid : Nat)
  /-- GANG_FORM_A (R414) -/
  | gangA (i : FormA)
  /-- GANG_FORM_B (R414) -/
  | gangB (i : FormB GangMods)
  /-- IADD_FORM_B (R420) -/
  | iaddB (i : FormB AddMods)
  /-- IADD_FORM_C (R420) -/
  | iaddC (i : FormC AddMods)
  /-- ISUB_FORM_B (R420) -/
  | isubB (i : FormB AddMods)
  /-- ISUB_FORM_C (R420) -/
  | isubC (i : FormC AddMods)
  /-- IMUL_FORM_B (R424) -/
  | imulB (i : FormB MulMods)
  /-- IMUL_FORM_C (R424) -/
  | imulC (i : FormC MulMods)
  /-- IMAD (R424) -/
  | imad (i : FormB MadMods)
  /-- IMADW (R424) -/
  | imadw (i : FormB MadwMods)
  /-- IMIN_FORM_B (R425) -/
  | iminB (i : FormB MinMaxMods)
  /-- IMIN_FORM_C (R425) -/
  | iminC (i : FormC MinMaxMods)
  /-- IMAX_FORM_B (R425) -/
  | imaxB (i : FormB MinMaxMods)
  /-- IMAX_FORM_C (R425) -/
  | imaxC (i : FormC MinMaxMods)
  /-- IABS_FORM_A (R418) -/
  | iabsA (i : FormA)
  /-- IABS_FORM_B (R418) -/
  | iabsB (i : FormB AbsMods)
  /-- ICMP_FORM_B (R422) -/
  | icmpB (i : FormB IcmpMods)
  /-- ICMP_FORM_C (R422) -/
  | icmpC (i : FormC IcmpMods)
  /-- ISEL (R426) -/
  | isel (i : FormB NoMods)
  /-- AND_FORM_B (R372) -/
  | andB (i : FormB LogicMods)
  /-- AND_FORM_C (R372) -/
  | andC (i : FormC LogicMods)
  /-- OR_FORM_B (R446) -/
  | orB (i : FormB LogicMods)
  /-- OR_FORM_C (R446) -/
  | orC (i : FormC LogicMods)
  /-- XOR_FORM_B (R491) -/
  | xorB (i : FormB LogicMods)
  /-- XOR_FORM_C (R491) -/
  | xorC (i : FormC LogicMods)
  /-- SHL_FORM_B (R467) -/
  | shlB (i : FormB ShiftMods)
  /-- SHL_FORM_C (R467) -/
  | shlC (i : FormC ShiftMods)
  /-- SHR_FORM_B (R467) -/
  | shrB (i : FormB ShiftMods)
  /-- SHR_FORM_C (R467) -/
  | shrC (i : FormC ShiftMods)
  /-- SAR_FORM_B (R467) -/
  | sarB (i : FormB ShiftMods)
  /-- SAR_FORM_C (R467) -/
  | sarC (i : FormC ShiftMods)
  /-- BFE_FORM_B (R382) -/
  | bfeB (i : FormB BfeMods)
  /-- BFE_FORM_C (R382) -/
  | bfeC (i : FormC BfeMods)
  /-- BFI (R382) -/
  | bfi (i : FormB NoMods)
  /-- POPC_FORM_A (R447) -/
  | popcA (i : FormA)
  /-- POPC_FORM_B (R447) -/
  | popcB (i : FormB NoMods)
  /-- CLZ_FORM_A (R385) -/
  | clzA (i : FormA)
  /-- CLZ_FORM_B (R385) -/
  | clzB (i : FormB NoMods)
  /-- BREV_FORM_A (R385) -/
  | brevA (i : FormA)
  /-- BREV_FORM_B (R385) -/
  | brevB (i : FormB NoMods)
  /-- LEA_FORM_B (R436) -/
  | leaB (i : FormB LeaMods)
  /-- LEA_FORM_C (R436) -/
  | leaC (i : FormC LeaMods)
  /-- MOV_FORM_A (R442) -/
  | movA (i : FormA)
  /-- MOV_FORM_B (R442) -/
  | movB (i : FormB MovMods)
  /-- MOVI (R443) -/
  | movi (i : FormE)
  /-- MOVS_FORM_A (R444) -/
  | movsA (i : FormA)
  /-- MOVS_FORM_B (R444) -/
  | movsB (i : FormB MovsMods)
  /-- TAGGET_FORM_A (R481) -/
  | taggetA (i : FormA)
  /-- TAGGET_FORM_B (R481) -/
  | taggetB (i : FormB NoMods)
  /-- PADD (R449) -/
  | padd (i : FormB PaddMods)
  /-- PSUB (R449) -/
  | psub (i : FormB PaddMods)
  /-- PMIN (R449) -/
  | pmin (i : FormB PminMods)
  /-- PMAX (R449) -/
  | pmax (i : FormB PminMods)
  /-- PCMP (R449) -/
  | pcmp (i : FormB PcmpMods)
  /-- PDOT4 (R450) -/
  | pdot4 (i : FormB Pdot4Mods)
  /-- FADD_FORM_B (R403) -/
  | faddB (i : FormB FaddMods)
  /-- FADD_FORM_C (R403) -/
  | faddC (i : FormC FaddMods)
  /-- FMUL_FORM_B (R403) -/
  | fmulB (i : FormB FaddMods)
  /-- FMUL_FORM_C (R403) -/
  | fmulC (i : FormC FaddMods)
  /-- FFMA (R403) -/
  | ffma (i : FormB FfmaMods)
  /-- FMIN_FORM_B (R403) -/
  | fminB (i : FormB FminMods)
  /-- FMIN_FORM_C (R403) -/
  | fminC (i : FormC FminMods)
  /-- FMAX_FORM_B (R403) -/
  | fmaxB (i : FormB FminMods)
  /-- FMAX_FORM_C (R403) -/
  | fmaxC (i : FormC FminMods)
  /-- FCMP_FORM_B (R406) -/
  | fcmpB (i : FormB FcmpMods)
  /-- FCMP_FORM_C (R406) -/
  | fcmpC (i : FormC FcmpMods)
  /-- FRND (R404) -/
  | frnd (i : FormB FrndMods)
  /-- HADD2 (R416) -/
  | hadd2 (i : FormB HalfMods)
  /-- HMUL2 (R416) -/
  | hmul2 (i : FormB HalfMods)
  /-- HFMA2 (R416) -/
  | hfma2 (i : FormB HalfMods)
  /-- HMAX2 (R416) -/
  | hmax2 (i : FormB HalfMods)
  /-- FRCP_FORM_A (R408) -/
  | frcpA (i : FormA)
  /-- FRCP_FORM_B (R408) -/
  | frcpB (i : FormB SpecialMods)
  /-- FRSQ_FORM_A (R408) -/
  | frsqA (i : FormA)
  /-- FRSQ_FORM_B (R408) -/
  | frsqB (i : FormB SpecialMods)
  /-- FSQRT_FORM_A (R408) -/
  | fsqrtA (i : FormA)
  /-- FSQRT_FORM_B (R408) -/
  | fsqrtB (i : FormB SpecialMods)
  /-- FEXP2_FORM_A (R408) -/
  | fexp2A (i : FormA)
  /-- FEXP2_FORM_B (R408) -/
  | fexp2B (i : FormB SpecialMods)
  /-- FLOG2_FORM_A (R408) -/
  | flog2A (i : FormA)
  /-- FLOG2_FORM_B (R408) -/
  | flog2B (i : FormB SpecialMods)
  /-- FSIN_FORM_A (R408) -/
  | fsinA (i : FormA)
  /-- FSIN_FORM_B (R408) -/
  | fsinB (i : FormB SpecialMods)
  /-- FCOS_FORM_A (R408) -/
  | fcosA (i : FormA)
  /-- FCOS_FORM_B (R408) -/
  | fcosB (i : FormB SpecialMods)
  /-- CVT (R395) -/
  | cvt (i : FormB CvtMods)
  /-- CVTQ (R397) -/
  | cvtq (i : FormB CvtqMods)
  /-- HADQ_FORM_A (R417) -/
  | hadqA (i : FormA)
  /-- HADQ_FORM_B (R417) -/
  | hadqB (i : FormB HadqMods)
  /-- SHFL_FORM_B (R473) -/
  | shflB (i : FormB ShflMods)
  /-- SHFL_FORM_C (R473) -/
  | shflC (i : FormC ShflMods)
  /-- VOTE (R489) -/
  | vote (i : FormB VoteMods)
  /-- REDW (R461) -/
  | redw (i : FormB RedMods)
  /-- SCANW (R461) -/
  | scanw (i : FormB RedMods)
  /-- MATCH (R438) -/
  | matchw (i : FormB MatchMods)
  /-- LD_FORM_B (R431) -/
  | ldB (i : FormB LoadMods)
  /-- LD_FORM_C (R431) -/
  | ldC (i : FormC LoadMods)
  /-- ST_FORM_B (R479) -/
  | stB (i : FormB StoreMods)
  /-- ST_FORM_C (R479) -/
  | stC (i : FormC StoreMods)
  /-- LDS_FORM_B (R431) -/
  | ldsB (i : FormB LoadMods)
  /-- LDS_FORM_C (R431) -/
  | ldsC (i : FormC LoadMods)
  /-- STS_FORM_B (R479) -/
  | stsB (i : FormB StoreMods)
  /-- STS_FORM_C (R479) -/
  | stsC (i : FormC StoreMods)
  /-- LDL_FORM_B (R431) -/
  | ldlB (i : FormB LoadMods)
  /-- LDL_FORM_C (R431) -/
  | ldlC (i : FormC LoadMods)
  /-- STL_FORM_B (R479) -/
  | stlB (i : FormB StoreMods)
  /-- STL_FORM_C (R479) -/
  | stlC (i : FormC StoreMods)
  /-- LDB (R435) -/
  | ldb (i : FormB LdbMods)
  /-- WRUNG_LOAD_PERFORM (R148) -/
  | wrungLoadPerform (id : Nat)
  /-- PREF_FORM_B (R454) -/
  | prefB (i : FormB PrefMods)
  /-- PREF_FORM_C (R454) -/
  | prefC (i : FormC PrefMods)
  /-- ATOM (R375) -/
  | atom (i : FormB AtomMods)
  /-- CAS (R387) -/
  | cas (i : FormB CasMods)
  /-- SBIN (R470) -/
  | sbin (i : FormB NoMods)
  /-- FENCE (R411) -/
  | fence (i : FormB FenceMods)
  /-- FENCE_COMPLETE (R131) -/
  | fenceComplete (bid warp : Nat)
  /-- PRESS (R457) -/
  | press (i : FormB PressMods)
  /-- PRESSR (R458) -/
  | pressr (i : FormB PressMods)
  /-- PDEF (R452) -/
  | pdef (i : FormB NoMods)
  /-- PDROP (R453) -/
  | pdrop (i : FormC NoMods)
  /-- PDROP_COMPLETE (R159) -/
  | pdropComplete (ctx opc : Nat)
  /-- BINIT (R379) -/
  | binit (i : FormB BarrierMods)
  /-- BARV (R379) -/
  | barv (i : FormB BarrierMods)
  /-- BWAIT (R380) -/
  | bwait (i : FormB BarrierMods)
  /-- BTEST (R379) -/
  | btest (i : FormB BarrierMods)
  /-- BEXP (R379) -/
  | bexp (i : FormB BarrierMods)
  /-- CKICK_FORM_A (R389) -/
  | ckickA (i : FormA)
  /-- CKICK_FORM_B (R389) -/
  | ckickB (i : FormB NoMods)
  /-- TIER_FORM_A (R486) -/
  | tierA (i : FormA)
  /-- TIER_FORM_B (R486) -/
  | tierB (i : FormB NoMods)
  /-- MMA_FORM_A (R440) -/
  | mmaA (i : FormA)
  /-- MMA_FORM_B (R440) -/
  | mmaB (i : FormB NoMods)
  /-- TALLOC (R207) -/
  | talloc (i : FormC NoMods)
  /-- TALLOC_GRANT (R207) -/
  | tallocGrant (core : Nat)
  /-- TFREE (R483) -/
  | tfree (i : FormA)
  /-- TFREE_RELEASE (R210) -/
  | tfreeRelease (core tile : Nat)
  /-- TDRAIN (R485) -/
  | tdrain (i : FormB DrainMods)
  /-- RELG (R463) -/
  | relg (i : FormB NoMods)
  /-- CSRD (R391) -/
  | csrd (i : FormC NoMods)
  /-- CSRW (R391) -/
  | csrw (i : FormC NoMods)
  /-- RENDEZVOUS_EXECUTE (R74) -/
  | rendezvousExecute (bid slot : Nat)
  /-- BLOCK_RETIREMENT (R61) -/
  | blockRetirement (bid : Nat)
  /-- LATENCY_V_RESULT (R352) -/
  | latencyVResult (bid warp id : Nat)
  /-- FUNCTION_RESET_COMPLETE (R327) -/
  | functionResetComplete (fn : Nat)
  /-- STAMP_TICK (R115) -/
  | stampTick (core : Nat)
  /-- PRESS_APPLICATION (R164) -/
  | pressApplication (id : Nat)
  /-- CHANNEL_PRESS_APPLICATION (R174) -/
  | channelPressApplication (id : Nat)
  /-- CHANNEL_ACK (R174) -/
  | channelAck (id : Nat)
  /-- COMBINE_ENTRY_TIMEOUT (R172) -/
  | combineEntryTimeout (cluster id : Nat)
  /-- REMOTE_PRESS_REQUEST (R156) -/
  | remotePressRequest (r : RemotePress)
  /-- TRACKER_AGE_DRAIN (R145) -/
  | trackerAgeDrain (holder line : Nat)
  /-- DRAIN_APPLY (R145) -/
  | drainApply (id : Nat)
  /-- UMON_INTERVAL of the module's one utility monitor (R107) -/
  | umonInterval (monitor : Unit)
  /-- MMA_COMMAND_START (R215) -/
  | mmaCommandStart (core : Nat)
  /-- MMA_COMPLETE (R218) -/
  | mmaComplete (core : Nat)
  /-- TDRAIN_EXECUTE (R226) -/
  | tdrainExecute (core : Nat)
  /-- COPY_COMMAND_START (R229) -/
  | copyCommandStart (core ctx chan : Nat)
  /-- COPY_COMPLETE (R236) -/
  | copyComplete (core ctx chan : Nat)
  /-- TIER_PAGE_MOVE (R240) -/
  | tierPageMove (core ctx chan : Nat)
  /-- LQ_RING_WRITE (R245) -/
  | lqRingWrite (queue : Nat) (value : BitVec 64)
  /-- LQ_WAKE (R246) -/
  | lqWake (queue : Nat) (value : Word)
  /-- LAUNCH_RECORD_READ (R249) -/
  | launchRecordRead (queue : Nat)
  /-- LAUNCH_DISPATCH (R256) -/
  | launchDispatch (launch : Nat)
  /-- BLOCK_PLACEMENT (R258) -/
  | blockPlacement (launch : Nat)
  /-- LAUNCH_BLOCKING (R260) -/
  | launchBlocking (launch : Nat)
  /-- PREEMPT_DEADLINE_EXPIRY (R267) -/
  | preemptDeadlineExpiry (ctx : Nat)
  /-- CONTEXT_SWITCH_OUT (R265) -/
  | contextSwitchOut (ctx : Nat)
  /-- WATCHDOG_INTERNAL (R270) -/
  | watchdogInternal (ctx : Nat)
  /-- WATCHDOG_EXTERNAL (R271) -/
  | watchdogExternal (ctx : Nat)
  /-- WDOG_WRITE (R285) -/
  | wdogWrite (ctx : Nat) (ext : Bool) (value : Word)
  /-- CORE_SPLIT_WRITE (R98) -/
  | coreSplitWrite (ctx : Nat) (value : Word)
  /-- WARP_SUSPEND_TIMEOUT (R278) -/
  | warpSuspendTimeout (bid warp : Nat)
  /-- FAULT_ENTRY_WRITE (R283) -/
  | faultEntryWrite (ctx : Nat)
  /-- RESUME (R286) -/
  | resume (ctx : Nat) (hold : BitVec 16)
  /-- DISCARD (R286) -/
  | discard (ctx : Nat) (hold : BitVec 16)
  /-- RESOLVE (R286) -/
  | resolve (ctx : Nat) (region : Word)
  /-- FAILPG (R286) -/
  | failpg (ctx : Nat) (region : Word)
  /-- ABORT (R286) -/
  | abort (ctx : Nat) (hold : BitVec 16)
  /-- RESET (R286) -/
  | reset (ctx : Nat)
  /-- TLB_INV (R291) -/
  | tlbInv (ctx : Nat) (value : BitVec 64)
  /-- TLB_INV_COMPLETE (R291) -/
  | tlbInvComplete (ctx : Nat)
  /-- BLOCK_SAVE (R292) -/
  | blockSave (bid : Nat)
  /-- ARRIVAL_LOG_APPEND (R293) -/
  | arrivalLogAppend (ctx : Nat) (a : Arrival)
  /-- LOG_REFUSAL_RETRY (R294) -/
  | logRefusalRetry (ctx sender : Nat)
  /-- RELEASE_GATE_PROCESS (R311) -/
  | releaseGateProcess
  /-- HOST_MEMORY_REQUEST (R308) -/
  | hostMemoryRequest (r : HostRequest)
  /-- PEER_MODULE_REQUEST (R130) -/
  | peerModuleRequest (r : PeerRequest)
  /-- IDE_COUNTER_LIMIT (R322) -/
  | ideCounterLimit (stream : Nat)
  /-- IDE_KEY_TIMEOUT (R322) -/
  | ideKeyTimeout (stream : Nat)
  /-- LOCK_INTERFACE (R323) -/
  | lockInterface (fn : Nat)
  /-- AUDIT_WALK (R323) -/
  | auditWalk (fn : Nat)
  /-- LOCKED_REGISTER_WRITE (R323) -/
  | lockedRegisterWrite (fn : Nat) (off : Nat) (value : BitVec 64)
  /-- FUNCTION_LEVEL_RESET (R324) -/
  | functionLevelReset (fn : Nat)
  /-- SCRUB_GRANULE (R324) -/
  | scrubGranule (granule : Nat)
  /-- LINK_PORT_FAILURE (R325) -/
  | linkPortFailure (port : Nat)
  /-- LINK_TARGET_TIMEOUT (R325) -/
  | linkTargetTimeout (modid : Nat)
  /-- ALERT_BACKOFF (R328) -/
  | alertBackoff (bank : Nat)
  /-- THROTTLE_STEP (R22) -/
  | throttleStep (lower : Bool)
  /-- STATUS (R332) -/
  | status (m : MboxHead)
  /-- PREEMPT (R265) -/
  | preempt (m : MboxHead) (ctx : Nat)
  /-- RESTORE (R182) -/
  | restore (m : MboxHead) (ctx : Nat)
  /-- POOLADD (R332) -/
  | pooladd (m : MboxHead) (ctx : Nat) (capacity : Bool) (frames : List PoolFrame)
  /-- SETAPER (R321) -/
  | setaper (m : MboxHead) (ctx : Nat) (base : BitVec 48)
  /-- CHECKPOINT (R242) -/
  | checkpoint (m : MboxHead)
  /-- SLEEP (R335) -/
  | sleep (m : MboxHead)
  /-- SLEEP_WAKE (R335) -/
  | sleepWake
  /-- KEYPROV (R332) -/
  | keyprov (m : MboxHead) (ctx : Nat) (key : BitVec 256)
  /-- ASSIGN (R332) -/
  | assign (m : MboxHead) (fn : Nat) (clusters queues : List Nat)
  /-- GRANT (R332) -/
  | grant (m : MboxHead) (fn : Nat) (allow : Bool)
  /-- POWERCAP (R332) -/
  | powercap (m : MboxHead) (steps : Nat)
  /-- DEBUG (R332) -/
  | debug (m : MboxHead) (a : DebugAccess)
  /-- DUMPRD (R332) -/
  | dumprd (m : MboxHead)
  /-- FATAL_ERROR (R333) -/
  | fatalError
  /-- SECURITY_ALARM (R334) -/
  | securityAlarm
  /-- L2_PROT_WRITE (R105) -/
  | l2ProtWrite (value : Word)
  /-- L2_UMON_WRITE (R106) -/
  | l2UmonWrite (value : Word)
  /-- QUOTA_WRITE (R178) -/
  | quotaWrite (device : Nat) (second : Bool) (value : Word)
  /-- REGISTER_WRITE (R8) -/
  | registerWrite (fn off : Nat) (value : BitVec 64)
  /-- CAPACITY_TIER_SUPPLY_LOSS (R24) -/
  | capacityTierSupplyLoss
  /-- POWER_UP (R334) -/
  | powerUp
  /-- DIE_RESET (R24) -/
  | dieReset (compute cache hbm : Bool)
  /-- LINK_TRAINING (R33) -/
  | linkTraining (port : Nat)
  /-- SYSTEM_CONFIGURATION (R32) -/
  | systemConfiguration (modid : BitVec 12)
  /-- MISSED_LINK_HEARTBEATS (R336) -/
  | missedLinkHeartbeats (modid : Nat)
  /-- IDE_KEY_SET_SELECTION (R322) -/
  | ideKeySetSelection (fn stream : Nat)
  /-- IDE_COUNTER_WARNING (R322) -/
  | ideCounterWarning (stream : Nat)
  /-- SPDM_SESSION_ESTABLISHMENT (R335) -/
  | spdmSessionEstablishment (fn : Nat)
  /-- CONTEXT_CREATION (R157) -/
  | contextCreation (ctx : Nat)
  /-- CONTEXT_DESTRUCTION (R41) -/
  | contextDestruction (ctx : Nat)
  /-- POSTED_WRITE_FAILURE (R281) -/
  | postedWriteFailure (id : Nat) (status : Nat)
  /-- SOFT_ERROR (R506) -/
  | softError (unit : ErrorUnit)
  deriving DecidableEq, Repr

end Sys2Proof
end

