-- ==== Sys2Proof/WellFormed.lean ====
section
/-! DEFINITION. Which instruction terms are well-formed: the modifier combinations that a reference entry defines, zero in
every operand field the instruction does not use (R344), a legal write slot (R342, R348); for a step without an encoding,
indices within the machine. -/

namespace Sys2Proof

/-- WSLOT: 7 is illegal; a control instruction (`ctl`: NOP and class 4 but SPAWN and GANG) names none (R348). -/
def Head.ok (ctl : Bool) (h : Head) : Bool := if ctl then h.wslot == 0 else h.wslot != 7

/-- An operand field that is unused holds 0x00 (R344). -/
def okField (used : Bool) (o : Operand) : Bool := used || o == .v 0

def okA (ctl ud ua : Bool) (i : FormA) : Bool := i.h.ok ctl && okField ud i.d && okField ua i.a

def okB {μ : Type} (ctl ud ua ub uc : Bool) (okM : μ → Bool) (i : FormB μ) : Bool :=
  i.h.ok ctl && okField ud i.d && okField ua i.a && okField ub i.b && okField uc i.c && okM i.m

def okC {μ : Type} (ctl ud ua : Bool) (okM : μ → Bool) (i : FormC μ) : Bool :=
  i.h.ok ctl && okField ud i.d && okField ua i.a && okM i.m

def NoMods.ok (_ : NoMods) : Bool := true
/-- R419. -/
def AddMods.ok (m : AddMods) : Bool := (m.co || m.pc == 0) && (m.sat == .none || (!m.ci && !m.co))
def AddMods.okC (m : AddMods) : Bool := m.ok && !m.ci
/-- R423. -/
def MulMods.ok (m : MulMods) : Bool := m.hi || !m.u
def MadMods.ok (m : MadMods) : Bool := m.sat || !m.u
def MadwMods.ok (_ : MadwMods) : Bool := true
def MinMaxMods.ok (_ : MinMaxMods) : Bool := true
def AbsMods.ok (_ : AbsMods) : Bool := true
def IcmpMods.ok (_ : IcmpMods) : Bool := true
/-- BOP in form B only (R421). -/
def IcmpMods.okC (m : IcmpMods) : Bool := m.bop == .none
def LogicMods.ok (_ : LogicMods) : Bool := true
def ShiftMods.ok (_ : ShiftMods) : Bool := true
def BfeMods.ok (_ : BfeMods) : Bool := true
def LeaMods.ok (_ : LeaMods) : Bool := true
def MovMods.ok (_ : MovMods) : Bool := true
def MovsMods.ok (_ : MovsMods) : Bool := true
def PaddMods.ok (_ : PaddMods) : Bool := true
def PminMods.ok (_ : PminMods) : Bool := true
def PcmpMods.ok (_ : PcmpMods) : Bool := true
def Pdot4Mods.ok (_ : Pdot4Mods) : Bool := true
def FaddMods.ok (_ : FaddMods) : Bool := true
def FfmaMods.ok (_ : FfmaMods) : Bool := true
def FminMods.ok (_ : FminMods) : Bool := true
def FcmpMods.ok (_ : FcmpMods) : Bool := true
/-- BOP in form B only (R405). -/
def FcmpMods.okC (m : FcmpMods) : Bool := m.bop == .none
def FrndMods.ok (_ : FrndMods) : Bool := true
/-- NC for HFMA2 only, MIN for HMAX2 only, no SAT or MODE for HMAX2 (R415). -/
def HalfMods.okHadd2 (m : HalfMods) : Bool := !m.nc && !m.min
def HalfMods.okHmul2 (m : HalfMods) : Bool := !m.nc && !m.min
def HalfMods.okHfma2 (m : HalfMods) : Bool := !m.min
def HalfMods.okHmax2 (m : HalfMods) : Bool := !m.nc && !m.sat && m.mode == .rne
def SpecialMods.ok (_ : SpecialMods) : Bool := true
/-- Formats 0 to 8 (R394). -/
def CvtMods.ok (m : CvtMods) : Bool := m.dfmt != .o4 && m.sfmt != .o4
/-- DFMT 3, 4, 7, 8 or 9 (R396). -/
def CvtqMods.ok (m : CvtqMods) : Bool :=
  match m.dfmt with
  | .e4m3 | .e5m2 | .i8 | .i4 | .o4 => true
  | .f32 | .f16 | .bf16 | .i32 | .i16 => false
def HadqMods.ok (_ : HadqMods) : Bool := true
def ShflMods.ok (_ : ShflMods) : Bool := true
def VoteMods.ok (_ : VoteMods) : Bool := true
/-- EXCL is SCANW's (R460). -/
def RedMods.okRedw (m : RedMods) : Bool := !m.excl
def RedMods.ok (_ : RedMods) : Bool := true
def MatchMods.ok (_ : MatchMods) : Bool := true
def LoadMods.ok (_ : LoadMods) : Bool := true
/-- SH in form B only (R427). -/
def LoadMods.okC (m : LoadMods) : Bool := m.sh == 0
def StoreMods.ok (_ : StoreMods) : Bool := true
def StoreMods.okC (m : StoreMods) : Bool := m.sh == 0
/-- Sizes B32, B64 and B128 (R434). -/
def LdbMods.ok (m : LdbMods) : Bool :=
  match m.size with
  | .b32 | .b64 | .b128 => true
  | .u8 | .s8 | .u16 | .s16 => false
def PrefMods.ok (_ : PrefMods) : Bool := true
def PrefMods.okC (m : PrefMods) : Bool := m.sh == 0
/-- The TYPE codes that each operation admits (R373). -/
def AtomMods.ok (m : AtomMods) : Bool :=
  match m.op with
  | .add | .min | .max => true
  | .fadd => !m.wide && !m.unsigned
  | .and | .or | .xor | .xchg => !m.unsigned
  | .incsat => !m.wide && m.unsigned
def CasMods.ok (_ : CasMods) : Bool := true
def FenceMods.ok (_ : FenceMods) : Bool := true
/-- `.DEV` or `.SYS`; STAMP for PRESSR only (R455). -/
def PressMods.ok (m : PressMods) : Bool := m.ms == .dev || m.ms == .sys
def PressMods.okPress (m : PressMods) : Bool := m.ok && !m.stamp
/-- `.CLU` is illegal; EXT for BINIT only (R379). -/
def BarrierMods.okBinit (m : BarrierMods) : Bool := m.ms != .clu
def BarrierMods.okBarv (m : BarrierMods) : Bool := m.ms != .clu && !m.ext
def BarrierMods.okBwait (m : BarrierMods) : Bool := m.ms != .clu && !m.ext
def BarrierMods.okBtest (m : BarrierMods) : Bool := m.ms != .clu && !m.ext
def BarrierMods.okBexp (m : BarrierMods) : Bool := m.ms != .clu && !m.ext
def GangMods.ok (_ : GangMods) : Bool := true
/-- R484: SRCC carries modifiers, so the operand field of the term is 0x00. -/
def DrainMods.ok (_ : DrainMods) : Bool := true

/-- Well-formedness of an instruction or step. -/
def Instr.wf (i : Instr) : Bool :=
  match i with
  | .nop i => okA true false false i
  | .exitA i => okA true false false i
  | .exitB i => okB true false false false false NoMods.ok i
  | .bra i => i.h.ok true
  | .brxA i => okA true false true i
  | .brxB i => okB true false true false false NoMods.ok i
  | .call i => i.h.ok true
  | .callxA i => okA true false true i
  | .callxB i => okB true false true false false NoMods.ok i
  | .retA i => okA true false false i
  | .retB i => okB true false false false false NoMods.ok i
  | .wjoin i => okA true false false i
  | .yield i => okA true false false i
  | .trap i => okC true false false NoMods.ok i
  | .signalA i => okA true false true i
  | .signalB i => okB true false true false false NoMods.ok i
  | .spawn i => okB false false true true true NoMods.ok i
  | .spawnRetry _ warp => decide (warp < 32)
  | .binTimerExpiry core bin => decide (core < 1024) && decide (bin < 64)
  | .broodWarpLaunch _ => true
  | .gangA i => okA false true false i
  | .gangB i => okB false true false false false GangMods.ok i
  | .iaddB i => okB false true true true i.m.ci AddMods.ok i
  | .iaddC i => okC false true true AddMods.okC i
  | .isubB i => okB false true true true i.m.ci AddMods.ok i
  | .isubC i => okC false true true AddMods.okC i
  | .imulB i => okB false true true true false MulMods.ok i
  | .imulC i => okC false true true MulMods.ok i
  | .imad i => okB false true true true true MadMods.ok i
  | .imadw i => okB false true true true true MadwMods.ok i
  | .iminB i => okB false true true true false MinMaxMods.ok i
  | .iminC i => okC false true true MinMaxMods.ok i
  | .imaxB i => okB false true true true false MinMaxMods.ok i
  | .imaxC i => okC false true true MinMaxMods.ok i
  | .iabsA i => okA false true true i
  | .iabsB i => okB false true true false false AbsMods.ok i
  | .icmpB i => okB false true true true (i.m.bop != .none) IcmpMods.ok i
  | .icmpC i => okC false true true IcmpMods.okC i
  | .isel i => okB false true true true true NoMods.ok i
  | .andB i => okB false true true true false LogicMods.ok i
  | .andC i => okC false true true LogicMods.ok i
  | .orB i => okB false true true true false LogicMods.ok i
  | .orC i => okC false true true LogicMods.ok i
  | .xorB i => okB false true true true false LogicMods.ok i
  | .xorC i => okC false true true LogicMods.ok i
  | .shlB i => okB false true true true false ShiftMods.ok i
  | .shlC i => okC false true true ShiftMods.ok i
  | .shrB i => okB false true true true false ShiftMods.ok i
  | .shrC i => okC false true true ShiftMods.ok i
  | .sarB i => okB false true true true false ShiftMods.ok i
  | .sarC i => okC false true true ShiftMods.ok i
  | .bfeB i => okB false true true true false BfeMods.ok i
  | .bfeC i => okC false true true BfeMods.ok i
  | .bfi i => okB false true true true true NoMods.ok i
  | .popcA i => okA false true true i
  | .popcB i => okB false true true false false NoMods.ok i
  | .clzA i => okA false true true i
  | .clzB i => okB false true true false false NoMods.ok i
  | .brevA i => okA false true true i
  | .brevB i => okB false true true false false NoMods.ok i
  | .leaB i => okB false true true true false LeaMods.ok i
  | .leaC i => okC false true true LeaMods.ok i
  | .movA i => okA false true true i
  | .movB i => okB false true true false false MovMods.ok i
  | .movi i => i.h.ok false
  | .movsA i => okA false true true i
  | .movsB i => okB false true true false false MovsMods.ok i
  | .taggetA i => okA false true true i
  | .taggetB i => okB false true true false false NoMods.ok i
  | .padd i => okB false true true true false PaddMods.ok i
  | .psub i => okB false true true true false PaddMods.ok i
  | .pmin i => okB false true true true false PminMods.ok i
  | .pmax i => okB false true true true false PminMods.ok i
  | .pcmp i => okB false true true true false PcmpMods.ok i
  | .pdot4 i => okB false true true true true Pdot4Mods.ok i
  | .faddB i => okB false true true true false FaddMods.ok i
  | .faddC i => okC false true true FaddMods.ok i
  | .fmulB i => okB false true true true false FaddMods.ok i
  | .fmulC i => okC false true true FaddMods.ok i
  | .ffma i => okB false true true true true FfmaMods.ok i
  | .fminB i => okB false true true true false FminMods.ok i
  | .fminC i => okC false true true FminMods.ok i
  | .fmaxB i => okB false true true true false FminMods.ok i
  | .fmaxC i => okC false true true FminMods.ok i
  | .fcmpB i => okB false true true true (i.m.bop != .none) FcmpMods.ok i
  | .fcmpC i => okC false true true FcmpMods.okC i
  | .frnd i => okB false true true false false FrndMods.ok i
  | .hadd2 i => okB false true true true false HalfMods.okHadd2 i
  | .hmul2 i => okB false true true true false HalfMods.okHmul2 i
  | .hfma2 i => okB false true true true true HalfMods.okHfma2 i
  | .hmax2 i => okB false true true true false HalfMods.okHmax2 i
  | .frcpA i => okA false true true i
  | .frcpB i => okB false true true false false SpecialMods.ok i
  | .frsqA i => okA false true true i
  | .frsqB i => okB false true true false false SpecialMods.ok i
  | .fsqrtA i => okA false true true i
  | .fsqrtB i => okB false true true false false SpecialMods.ok i
  | .fexp2A i => okA false true true i
  | .fexp2B i => okB false true true false false SpecialMods.ok i
  | .flog2A i => okA false true true i
  | .flog2B i => okB false true true false false SpecialMods.ok i
  | .fsinA i => okA false true true i
  | .fsinB i => okB false true true false false SpecialMods.ok i
  | .fcosA i => okA false true true i
  | .fcosB i => okB false true true false false SpecialMods.ok i
  | .cvt i => okB false true true false false CvtMods.ok i
  | .cvtq i => okB false true true true false CvtqMods.ok i
  | .hadqA i => okA false true true i
  | .hadqB i => okB false true true false false HadqMods.ok i
  | .shflB i => okB false true true true false ShflMods.ok i
  | .shflC i => okC false true true ShflMods.ok i
  | .vote i => okB false true true false false VoteMods.ok i
  | .redw i => okB false true true false false RedMods.okRedw i
  | .scanw i => okB false true true false false RedMods.ok i
  | .matchw i => okB false true true false false MatchMods.ok i
  | .ldB i => okB false true true true false LoadMods.ok i
  | .ldC i => okC false true true LoadMods.okC i
  | .stB i => okB false true true true false StoreMods.ok i
  | .stC i => okC false true true StoreMods.okC i
  | .ldsB i => okB false true true true false LoadMods.ok i
  | .ldsC i => okC false true true LoadMods.okC i
  | .stsB i => okB false true true true false StoreMods.ok i
  | .stsC i => okC false true true StoreMods.okC i
  | .ldlB i => okB false true true true false LoadMods.ok i
  | .ldlC i => okC false true true LoadMods.okC i
  | .stlB i => okB false true true true false StoreMods.ok i
  | .stlC i => okC false true true StoreMods.okC i
  | .ldb i => okB false true true true false LdbMods.ok i
  | .wrungLoadPerform _ => true
  | .prefB i => okB false false true true false PrefMods.ok i
  | .prefC i => okC false false true PrefMods.okC i
  | .atom i => okB false true true true false AtomMods.ok i
  | .cas i => okB false true true true true CasMods.ok i
  | .sbin i => okB false true true true true NoMods.ok i
  | .fence i => okB false true false false false FenceMods.ok i
  | .fenceComplete _ warp => decide (warp < 32)
  | .press i => okB false false true true false PressMods.okPress i
  | .pressr i => okB false true true true false PressMods.ok i
  | .pdef i => okB false true true true false NoMods.ok i
  | .pdrop i => okC false false false NoMods.ok i
  | .pdropComplete ctx opc => decide (ctx < 1024) && decide (opc < 64)
  | .binit i => okB false true true true false BarrierMods.okBinit i
  | .barv i => okB false true true false false BarrierMods.okBarv i
  | .bwait i => okB false false true true false BarrierMods.okBwait i
  | .btest i => okB false true true true false BarrierMods.okBtest i
  | .bexp i => okB false true true true false BarrierMods.okBexp i
  | .ckickA i => okA false false true i
  | .ckickB i => okB false false true false false NoMods.ok i
  | .tierA i => okA false false true i
  | .tierB i => okB false false true false false NoMods.ok i
  | .mmaA i => okA false false true i
  | .mmaB i => okB false false true false false NoMods.ok i
  | .talloc i => okC false true false NoMods.ok i
  | .tallocGrant core => decide (core < 1024)
  | .tfree i => okA false false true i
  | .tfreeRelease core tile => decide (core < 1024) && decide (tile < 16)
  | .tdrain i => okB false true true true false DrainMods.ok i
  | .relg i => okB false true true false false NoMods.ok i
  | .csrd i => okC false true false NoMods.ok i
  | .csrw i => okC false false true NoMods.ok i
  | .rendezvousExecute _ slot => decide (slot < 5)
  | .blockRetirement _ => true
  | .stampTick core => decide (core < 1024)
  | .pressApplication _ => true
  | .channelPressApplication _ => true
  | .channelAck _ => true
  | .combineEntryTimeout cluster _ => decide (cluster < 128)
  | .remotePressRequest _ => true
  | .trackerAgeDrain holder _ => decide (holder < 1152)
  | .drainApply _ => true
  | .umonInterval _ => true
  | .mmaCommandStart core => decide (core < 1024)
  | .mmaComplete core => decide (core < 1024)
  | .tdrainExecute core => decide (core < 1024)
  | .copyCommandStart core ctx chan => decide (core < 1024) && decide (ctx < 1024) && decide (chan < 8)
  | .copyComplete core ctx chan => decide (core < 1024) && decide (ctx < 1024) && decide (chan < 8)
  | .tierPageMove core ctx chan => decide (core < 1024) && decide (ctx < 1024) && decide (chan < 8)
  | .lqRingWrite queue _ => decide (queue < 512)
  | .lqWake queue _ => decide (queue < 512)
  | .launchRecordRead queue => decide (queue < 512)
  | .launchDispatch _ => true
  | .blockPlacement _ => true
  | .launchBlocking _ => true
  | .preemptDeadlineExpiry ctx => decide (ctx < 1024)
  | .contextSwitchOut ctx => decide (ctx < 1024)
  | .watchdogInternal ctx => decide (ctx < 1024)
  | .watchdogExternal ctx => decide (ctx < 1024)
  | .wdogWrite ctx _ _ => decide (ctx < 1024)
  | .coreSplitWrite ctx _ => decide (ctx < 1024)
  | .warpSuspendTimeout _ warp => decide (warp < 32)
  | .faultEntryWrite ctx => decide (ctx < 1024)
  | .resume ctx _ => decide (ctx < 1024)
  | .discard ctx _ => decide (ctx < 1024)
  | .resolve ctx _ => decide (ctx < 1024)
  | .failpg ctx _ => decide (ctx < 1024)
  | .abort ctx _ => decide (ctx < 1024)
  | .reset ctx => decide (ctx < 1024)
  | .tlbInv ctx _ => decide (ctx < 1024)
  | .tlbInvComplete ctx => decide (ctx < 1024)
  | .blockSave _ => true
  | .arrivalLogAppend ctx _ => decide (ctx < 1024)
  | .logRefusalRetry ctx _ => decide (ctx < 1024)
  | .releaseGateProcess => true
  | .hostMemoryRequest _ => true
  | .peerModuleRequest _ => true
  | .ideCounterLimit stream => decide (stream < 512)
  | .ideKeyTimeout stream => decide (stream < 512)
  | .lockInterface fn => decide (fn < 64)
  | .auditWalk fn => decide (fn < 64)
  | .lockedRegisterWrite fn _ _ => decide (fn < 64)
  | .functionLevelReset fn => decide (fn < 64)
  | .scrubGranule _ => true
  | .linkPortFailure port => decide (port < 36)
  | .linkTargetTimeout modid => decide (modid < 4096)
  | .alertBackoff _ => true
  | .throttleStep _ => true
  | .status m => decide (m.fn < 64)
  | .preempt m ctx => decide (m.fn < 64) && decide (ctx < 1024)
  | .restore m ctx => decide (m.fn < 64) && decide (ctx < 1024)
  | .pooladd m ctx _ _ => decide (m.fn < 64) && decide (ctx < 1024)
  | .setaper m ctx _ => decide (m.fn < 64) && decide (ctx < 1024)
  | .checkpoint m => decide (m.fn < 64)
  | .sleep m => decide (m.fn < 64)
  | .sleepWake => true
  | .keyprov m ctx _ => decide (m.fn < 64) && decide (ctx < 1024)
  | .assign m fn _ _ => decide (m.fn < 64) && decide (fn < 64)
  | .grant m fn _ => decide (m.fn < 64) && decide (fn < 64)
  | .powercap m _ => decide (m.fn < 64)
  | .debug m _ => decide (m.fn < 64)
  | .dumprd m => decide (m.fn < 64)
  | .fatalError => true
  | .securityAlarm => true
  | .l2ProtWrite _ => true
  | .l2UmonWrite _ => true
  | .quotaWrite device _ _ => decide (device < 64)
  | .registerWrite fn _ _ => decide (fn < 64)
  | .capacityTierSupplyLoss => true
  | .powerUp => true
  | .dieReset _ _ _ => true
  | .linkTraining port => decide (port < 36)
  | .systemConfiguration _ => true
  | .missedLinkHeartbeats modid => decide (modid < 4096)
  | .ideKeySetSelection fn stream => decide (fn < 64) && decide (stream < 512)
  | .ideCounterWarning stream => decide (stream < 512)
  | .spdmSessionEstablishment fn => decide (fn < 64)
  | .contextCreation ctx => decide (ctx < 1024)
  | .contextDestruction ctx => decide (ctx < 1024)
  | .latencyVResult _ warp _ => decide (warp < 32)
  | .postedWriteFailure _ _ => true
  | .softError _ => true
  | .functionResetComplete fn => decide (fn < 64)

end Sys2Proof
end

