-- ==== Sys2Proof/Decode.lean ====
section
/-! DEFINITION. Encoding and decoding of Turry words (15_instruction_encoding.md), written from its tables: operand
codes (R345), guard (R346), modifiers (each reference entry), forms (R343, R344), the opcode map (R347). The decoder is
total; every rejection has a name, and all of them are ILLINSTR with DETAIL 0 (R344, R348). -/

namespace Sys2Proof

/-! ## Fields -/

def bit (b : Bool) : BitVec 1 := BitVec.ofBool b

/-- The operand codes of R345. -/
def Operand.code : Operand → BitVec 8
  | .v n => 0#1 ++ n
  | .s n => 0b10#2 ++ n
  | .p n => 0b11000#5 ++ n
  | .a n => 0xC8#8 + n.setWidth 8
  | .zero => 0xD8#8
  | .laneId => 0xD9#8
  | .warpId => 0xDA#8
  | .gangId => 0xDB#8
  | .blockId => 0xDC#8
  | .coreId => 0xDD#8
  | .clusId => 0xDE#8
  | .ones => 0xDF#8
  | .bad n => 0b111#3 ++ n

def Operand.ofCode (c : BitVec 8) : Operand :=
  if c < 0x80#8 then .v (c.setWidth 7)
  else if c < 0xC0#8 then .s (c.setWidth 6)
  else if c < 0xC8#8 then .p (c.setWidth 3)
  else if c < 0xD8#8 then .a ((c - 0xC8#8).setWidth 4)
  else if c = 0xD8#8 then .zero
  else if c = 0xD9#8 then .laneId
  else if c = 0xDA#8 then .warpId
  else if c = 0xDB#8 then .gangId
  else if c = 0xDC#8 then .blockId
  else if c = 0xDD#8 then .coreId
  else if c = 0xDE#8 then .clusId
  else if c = 0xDF#8 then .ones
  else .bad (c.setWidth 5)

/-- The guard of R346: predicate in [3:1], negate in [0]. -/
def Guard.code (g : Guard) : BitVec 4 := g.p ++ bit g.neg
def Guard.ofCode (c : BitVec 4) : Guard := ⟨c.extractLsb' 1 3, c.getLsbD 0⟩

def Scope.code : Scope → BitVec 2
  | .lane => 0 | .warp => 1 | .gang => 2 | .block => 3
def Scope.ofCode (c : BitVec 2) : Scope :=
  if c = 0 then .lane else if c = 1 then .warp else if c = 2 then .gang else .block

def RMode.code : RMode → BitVec 2
  | .rne => 0 | .rz => 1 | .ru => 2 | .rd => 3
def RMode.ofCode (c : BitVec 2) : RMode :=
  if c = 0 then .rne else if c = 1 then .rz else if c = 2 then .ru else .rd

def Cond.code : Cond → BitVec 3
  | .eq => 0 | .ne => 1 | .lt => 2 | .le => 3 | .gt => 4 | .ge => 5
def Cond.ofCode (c : BitVec 3) : Option Cond :=
  if c = 0 then some .eq else if c = 1 then some .ne else if c = 2 then some .lt else if c = 3 then some .le
  else if c = 4 then some .gt else if c = 5 then some .ge else none

def FCond.code : FCond → BitVec 3
  | .eq => 0 | .ne => 1 | .lt => 2 | .le => 3 | .gt => 4 | .ge => 5 | .num => 6 | .nan => 7
def FCond.ofCode (c : BitVec 3) : FCond :=
  if c = 0 then .eq else if c = 1 then .ne else if c = 2 then .lt else if c = 3 then .le
  else if c = 4 then .gt else if c = 5 then .ge else if c = 6 then .num else .nan

def Bop.code : Bop → BitVec 2
  | .none => 0 | .and => 1 | .or => 2 | .xor => 3
def Bop.ofCode (c : BitVec 2) : Bop :=
  if c = 0 then .none else if c = 1 then .and else if c = 2 then .or else .xor

def SatMode.code : SatMode → BitVec 2
  | .none => 0 | .signed => 1 | .unsigned => 2
def SatMode.ofCode (c : BitVec 2) : Option SatMode :=
  if c = 0 then some .none else if c = 1 then some .signed else if c = 2 then some .unsigned else Option.none

/-- Format codes (R185). -/
def Fmt.code : Fmt → BitVec 4
  | .f32 => 0 | .f16 => 1 | .bf16 => 2 | .e4m3 => 3 | .e5m2 => 4 | .i32 => 5 | .i16 => 6 | .i8 => 7 | .i4 => 8 | .o4 => 9
def Fmt.ofCode (c : BitVec 4) : Option Fmt :=
  if c = 0 then some .f32 else if c = 1 then some .f16 else if c = 2 then some .bf16 else if c = 3 then some .e4m3
  else if c = 4 then some .e5m2 else if c = 5 then some .i32 else if c = 6 then some .i16 else if c = 7 then some .i8
  else if c = 8 then some .i4 else if c = 9 then some .o4 else none

def LoadSize.code : LoadSize → BitVec 3
  | .b32 => 0 | .b64 => 1 | .b128 => 2 | .u8 => 3 | .s8 => 4 | .u16 => 5 | .s16 => 6
def LoadSize.ofCode (c : BitVec 3) : Option LoadSize :=
  if c = 0 then some .b32 else if c = 1 then some .b64 else if c = 2 then some .b128 else if c = 3 then some .u8
  else if c = 4 then some .s8 else if c = 5 then some .u16 else if c = 6 then some .s16 else none

def StoreSize.code : StoreSize → BitVec 3
  | .b32 => 0 | .b64 => 1 | .b128 => 2 | .b8 => 3 | .b16 => 4
def StoreSize.ofCode (c : BitVec 3) : Option StoreSize :=
  if c = 0 then some .b32 else if c = 1 then some .b64 else if c = 2 then some .b128 else if c = 3 then some .b8
  else if c = 4 then some .b16 else none

def MScope.code : MScope → BitVec 2
  | .blk => 0 | .clu => 1 | .dev => 2 | .sys => 3
def MScope.ofCode (c : BitVec 2) : MScope :=
  if c = 0 then .blk else if c = 1 then .clu else if c = 2 then .dev else .sys

def AtomOp.code : AtomOp → BitVec 4
  | .add => 0 | .fadd => 1 | .min => 2 | .max => 3 | .and => 4 | .or => 5 | .xor => 6 | .xchg => 7 | .incsat => 8
def AtomOp.ofCode (c : BitVec 4) : Option AtomOp :=
  if c = 0 then some .add else if c = 1 then some .fadd else if c = 2 then some .min else if c = 3 then some .max
  else if c = 4 then some .and else if c = 5 then some .or else if c = 6 then some .xor else if c = 7 then some .xchg
  else if c = 8 then some .incsat else none

def RedOp.code : RedOp → BitVec 4
  | .add => 0 | .minS => 1 | .minU => 2 | .maxS => 3 | .maxU => 4 | .and => 5 | .or => 6 | .xor => 7 | .fadd => 8
  | .fmin => 9 | .fmax => 10
def RedOp.ofCode (c : BitVec 4) : Option RedOp :=
  if c = 0 then some .add else if c = 1 then some .minS else if c = 2 then some .minU else if c = 3 then some .maxS
  else if c = 4 then some .maxU else if c = 5 then some .and else if c = 6 then some .or else if c = 7 then some .xor
  else if c = 8 then some .fadd else if c = 9 then some .fmin else if c = 10 then some .fmax else none

def ShflMode.code : ShflMode → BitVec 2
  | .idx => 0 | .up => 1 | .down => 2 | .xor => 3
def ShflMode.ofCode (c : BitVec 2) : ShflMode :=
  if c = 0 then .idx else if c = 1 then .up else if c = 2 then .down else .xor

def VoteFn.code : VoteFn → BitVec 3
  | .and => 0 | .or => 1 | .same => 2 | .mask => 3 | .count => 4 | .lead => 5
def VoteFn.ofCode (c : BitVec 3) : Option VoteFn :=
  if c = 0 then some .and else if c = 1 then some .or else if c = 2 then some .same else if c = 3 then some .mask
  else if c = 4 then some .count else if c = 5 then some .lead else none

def MatchKind.code : MatchKind → BitVec 2
  | .mask => 0 | .first => 1 | .count => 2
def MatchKind.ofCode (c : BitVec 2) : Option MatchKind :=
  if c = 0 then some .mask else if c = 1 then some .first else if c = 2 then some .count else none

def FenceKind.code : FenceKind → BitVec 2
  | .posted => 0 | .engine => 1 | .sys => 2
def FenceKind.ofCode (c : BitVec 2) : Option FenceKind :=
  if c = 0 then some .posted else if c = 1 then some .engine else if c = 2 then some .sys else none

/-! ## Modifiers

`bits` writes [14:4] where the opcode admits forms B and C, and [15:4] where it has one two-word form (R344). `ofBits`
reads them without a look at the reserved bits, which `decodeWords` checks by encoding again. -/

def low11 (b : BitVec 12) : BitVec 11 := b.setWidth 11

def NoMods.bits (_ : NoMods) : BitVec 12 := 0
def NoMods.ofBits (_ : BitVec 12) : Option NoMods := some ⟨⟩
def NoMods.bitsC (_ : NoMods) : BitVec 11 := 0
def NoMods.ofBitsC (_ : BitVec 11) : Option NoMods := some ⟨⟩

/-- R419. -/
def AddMods.bits (m : AddMods) : BitVec 11 := 0#4 ++ m.sat.code ++ m.pc ++ bit m.co ++ bit m.ci
def AddMods.ofBits (b : BitVec 11) : Option AddMods :=
  (SatMode.ofCode (b.extractLsb' 5 2)).map fun sat => ⟨b.getLsbD 0, b.getLsbD 1, b.extractLsb' 2 3, sat⟩

/-- R423. -/
def MulMods.bits (m : MulMods) : BitVec 11 := 0#9 ++ bit m.u ++ bit m.hi
def MulMods.ofBits (b : BitVec 11) : Option MulMods := some ⟨b.getLsbD 0, b.getLsbD 1⟩
def MadMods.bits (m : MadMods) : BitVec 12 := 0#10 ++ bit m.u ++ bit m.sat
def MadMods.ofBits (b : BitVec 12) : Option MadMods := some ⟨b.getLsbD 0, b.getLsbD 1⟩
def MadwMods.bits (m : MadwMods) : BitVec 12 := 0#11 ++ bit m.u
def MadwMods.ofBits (b : BitVec 12) : Option MadwMods := some ⟨b.getLsbD 0⟩

/-- R425, R418, R421. -/
def MinMaxMods.bits (m : MinMaxMods) : BitVec 11 := 0#10 ++ bit m.u
def MinMaxMods.ofBits (b : BitVec 11) : Option MinMaxMods := some ⟨b.getLsbD 0⟩
def AbsMods.bits (m : AbsMods) : BitVec 12 := 0#11 ++ bit m.sat
def AbsMods.ofBits (b : BitVec 12) : Option AbsMods := some ⟨b.getLsbD 0⟩
def IcmpMods.bits (m : IcmpMods) : BitVec 11 := 0#5 ++ m.bop.code ++ bit m.u ++ m.cond.code
def IcmpMods.ofBits (b : BitVec 11) : Option IcmpMods :=
  (Cond.ofCode (b.extractLsb' 0 3)).map fun c => ⟨c, b.getLsbD 3, Bop.ofCode (b.extractLsb' 4 2)⟩

/-- R371, R466, R382, R436. -/
def LogicMods.bits (m : LogicMods) : BitVec 11 := 0#10 ++ bit m.inv
def LogicMods.ofBits (b : BitVec 11) : Option LogicMods := some ⟨b.getLsbD 0⟩
def ShiftMods.bits (m : ShiftMods) : BitVec 11 := 0#10 ++ bit m.wrap
def ShiftMods.ofBits (b : BitVec 11) : Option ShiftMods := some ⟨b.getLsbD 0⟩
def BfeMods.bits (m : BfeMods) : BitVec 11 := 0#10 ++ bit m.sx
def BfeMods.ofBits (b : BitVec 11) : Option BfeMods := some ⟨b.getLsbD 0⟩
def LeaMods.bits (m : LeaMods) : BitVec 11 := 0#8 ++ bit m.u ++ m.sh
def LeaMods.ofBits (b : BitVec 11) : Option LeaMods := some ⟨b.extractLsb' 0 2, b.getLsbD 2⟩

/-- R441, R444. -/
def MovMods.bits (m : MovMods) : BitVec 12 := 0#10 ++ m.rep
def MovMods.ofBits (b : BitVec 12) : Option MovMods := some ⟨b.extractLsb' 0 2⟩
def MovsMods.bits (m : MovsMods) : BitVec 12 := 0#11 ++ bit m.all
def MovsMods.ofBits (b : BitVec 12) : Option MovsMods := some ⟨b.getLsbD 0⟩

/-- R448, R450. -/
def PaddMods.bits (m : PaddMods) : BitVec 12 := 0#9 ++ m.sat.code ++ bit m.h
def PaddMods.ofBits (b : BitVec 12) : Option PaddMods :=
  (SatMode.ofCode (b.extractLsb' 1 2)).map fun sat => ⟨b.getLsbD 0, sat⟩
def PminMods.bits (m : PminMods) : BitVec 12 := 0#10 ++ bit m.u ++ bit m.h
def PminMods.ofBits (b : BitVec 12) : Option PminMods := some ⟨b.getLsbD 0, b.getLsbD 1⟩
def PcmpMods.bits (m : PcmpMods) : BitVec 12 := 0#6 ++ m.cond.code ++ 0#1 ++ bit m.u ++ bit m.h
def PcmpMods.ofBits (b : BitVec 12) : Option PcmpMods :=
  (Cond.ofCode (b.extractLsb' 3 3)).map fun c => ⟨b.getLsbD 0, b.getLsbD 1, c⟩
def Pdot4Mods.bits (m : Pdot4Mods) : BitVec 12 := 0#9 ++ bit m.sat ++ bit m.bu ++ bit m.au
def Pdot4Mods.ofBits (b : BitVec 12) : Option Pdot4Mods := some ⟨b.getLsbD 0, b.getLsbD 1, b.getLsbD 2⟩

/-- R401. -/
def SrcMod.bits (m : SrcMod) : BitVec 2 := bit m.abs ++ bit m.neg
def SrcMod.ofBits (b : BitVec 2) : SrcMod := ⟨b.getLsbD 0, b.getLsbD 1⟩
def FaddMods.bits (m : FaddMods) : BitVec 11 := 0#4 ++ bit m.sat ++ m.mode.code ++ m.b.bits ++ m.a.bits
def FaddMods.ofBits (b : BitVec 11) : Option FaddMods :=
  some ⟨SrcMod.ofBits (b.extractLsb' 0 2), SrcMod.ofBits (b.extractLsb' 2 2), RMode.ofCode (b.extractLsb' 4 2), b.getLsbD 6⟩
def FfmaMods.bits (m : FfmaMods) : BitVec 12 :=
  0#3 ++ bit m.sat ++ m.mode.code ++ m.c.bits ++ m.b.bits ++ m.a.bits
def FfmaMods.ofBits (b : BitVec 12) : Option FfmaMods :=
  some ⟨SrcMod.ofBits (b.extractLsb' 0 2), SrcMod.ofBits (b.extractLsb' 2 2), SrcMod.ofBits (b.extractLsb' 4 2),
    RMode.ofCode (b.extractLsb' 6 2), b.getLsbD 8⟩
def FminMods.bits (m : FminMods) : BitVec 11 := 0#7 ++ m.b.bits ++ m.a.bits
def FminMods.ofBits (b : BitVec 11) : Option FminMods :=
  some ⟨SrcMod.ofBits (b.extractLsb' 0 2), SrcMod.ofBits (b.extractLsb' 2 2)⟩
def FrndMods.bits (m : FrndMods) : BitVec 12 := 0#6 ++ m.mode.code ++ 0#2 ++ m.a.bits
def FrndMods.ofBits (b : BitVec 12) : Option FrndMods :=
  some ⟨SrcMod.ofBits (b.extractLsb' 0 2), RMode.ofCode (b.extractLsb' 4 2)⟩

/-- R405. -/
def FcmpMods.bits (m : FcmpMods) : BitVec 11 := 0#2 ++ m.bop.code ++ m.cond.code ++ m.b.bits ++ m.a.bits
def FcmpMods.ofBits (b : BitVec 11) : Option FcmpMods :=
  some ⟨SrcMod.ofBits (b.extractLsb' 0 2), SrcMod.ofBits (b.extractLsb' 2 2), FCond.ofCode (b.extractLsb' 4 3),
    Bop.ofCode (b.extractLsb' 7 2)⟩

/-- R415. -/
def HalfMods.bits (m : HalfMods) : BitVec 12 :=
  0#4 ++ bit m.min ++ bit m.nc ++ bit m.nb ++ bit m.na ++ bit m.sat ++ m.mode.code ++ bit m.bf
def HalfMods.ofBits (b : BitVec 12) : Option HalfMods :=
  some ⟨b.getLsbD 0, RMode.ofCode (b.extractLsb' 1 2), b.getLsbD 3, b.getLsbD 4, b.getLsbD 5, b.getLsbD 6, b.getLsbD 7⟩

/-- R407, R394, R396, R417. -/
def SpecialMods.bits (m : SpecialMods) : BitVec 12 := 0#10 ++ m.a.bits
def SpecialMods.ofBits (b : BitVec 12) : Option SpecialMods := some ⟨SrcMod.ofBits (b.extractLsb' 0 2)⟩
def CvtMods.bits (m : CvtMods) : BitVec 12 := bit m.u ++ bit m.sat ++ m.mode.code ++ m.sfmt.code ++ m.dfmt.code
def CvtMods.ofBits (b : BitVec 12) : Option CvtMods :=
  (Fmt.ofCode (b.extractLsb' 0 4)).bind fun d => (Fmt.ofCode (b.extractLsb' 4 4)).map fun s =>
    ⟨d, s, RMode.ofCode (b.extractLsb' 8 2), b.getLsbD 10, b.getLsbD 11⟩
def CvtqMods.bits (m : CvtqMods) : BitVec 12 := 0#5 ++ bit m.ovf ++ m.mode.code ++ m.dfmt.code
def CvtqMods.ofBits (b : BitVec 12) : Option CvtqMods :=
  (Fmt.ofCode (b.extractLsb' 0 4)).map fun d => ⟨d, RMode.ofCode (b.extractLsb' 4 2), b.getLsbD 6⟩
def HadqMods.bits (m : HadqMods) : BitVec 12 := 0#11 ++ bit m.sc
def HadqMods.ofBits (b : BitVec 12) : Option HadqMods := some ⟨b.getLsbD 0⟩

/-- R472, R488, R460, R437. -/
def ShflMods.bits (m : ShflMods) : BitVec 11 := 0#9 ++ m.mode.code
def ShflMods.ofBits (b : BitVec 11) : Option ShflMods := some ⟨ShflMode.ofCode (b.extractLsb' 0 2)⟩
def VoteMods.bits (m : VoteMods) : BitVec 12 := 0#8 ++ bit m.not ++ m.fn.code
def VoteMods.ofBits (b : BitVec 12) : Option VoteMods :=
  (VoteFn.ofCode (b.extractLsb' 0 3)).map fun f => ⟨f, b.getLsbD 3⟩
def RedMods.bits (m : RedMods) : BitVec 12 := 0#7 ++ bit m.excl ++ m.op.code
def RedMods.ofBits (b : BitVec 12) : Option RedMods :=
  (RedOp.ofCode (b.extractLsb' 0 4)).map fun o => ⟨o, b.getLsbD 4⟩
def MatchMods.bits (m : MatchMods) : BitVec 12 := 0#9 ++ bit m.b64 ++ m.kind.code
def MatchMods.ofBits (b : BitVec 12) : Option MatchMods :=
  (MatchKind.ofCode (b.extractLsb' 0 2)).map fun k => ⟨k, b.getLsbD 2⟩

/-- R427, R478, R434, R454. -/
def LoadMods.bits (m : LoadMods) : BitVec 11 := 0#5 ++ m.sh ++ 0#1 ++ m.size.code
def LoadMods.ofBits (b : BitVec 11) : Option LoadMods :=
  (LoadSize.ofCode (b.extractLsb' 0 3)).map fun z => ⟨z, b.extractLsb' 4 2⟩
def StoreMods.bits (m : StoreMods) : BitVec 11 := 0#5 ++ m.sh ++ 0#1 ++ m.size.code
def StoreMods.ofBits (b : BitVec 11) : Option StoreMods :=
  (StoreSize.ofCode (b.extractLsb' 0 3)).map fun z => ⟨z, b.extractLsb' 4 2⟩
def LdbMods.bits (m : LdbMods) : BitVec 12 := 0#9 ++ m.size.code
def LdbMods.ofBits (b : BitVec 12) : Option LdbMods := (LoadSize.ofCode (b.extractLsb' 0 3)).map fun z => ⟨z⟩
def PrefMods.bits (m : PrefMods) : BitVec 11 := 0#5 ++ m.sh ++ 0#3 ++ bit m.l2
def PrefMods.ofBits (b : BitVec 11) : Option PrefMods := some ⟨b.getLsbD 0, b.extractLsb' 4 2⟩

/-- R373, R386, R410. -/
def AtomMods.bits (m : AtomMods) : BitVec 12 :=
  0#2 ++ bit m.stamp ++ bit m.ret ++ m.ms.code ++ bit m.wide ++ bit m.unsigned ++ m.op.code
def AtomMods.ofBits (b : BitVec 12) : Option AtomMods :=
  (AtomOp.ofCode (b.extractLsb' 0 4)).map fun o =>
    ⟨o, b.getLsbD 5, b.getLsbD 4, MScope.ofCode (b.extractLsb' 6 2), b.getLsbD 8, b.getLsbD 9⟩
def CasMods.bits (m : CasMods) : BitVec 12 := 0#2 ++ bit m.stamp ++ 0#1 ++ m.ms.code ++ bit m.wide ++ 0#5
def CasMods.ofBits (b : BitVec 12) : Option CasMods :=
  some ⟨b.getLsbD 5, MScope.ofCode (b.extractLsb' 6 2), b.getLsbD 9⟩
def FenceMods.bits (m : FenceMods) : BitVec 12 := 0#10 ++ m.kind.code
def FenceMods.ofBits (b : BitVec 12) : Option FenceMods := (FenceKind.ofCode (b.extractLsb' 0 2)).map fun k => ⟨k⟩

/-- R455, R379, R413. -/
def PressMods.bits (m : PressMods) : BitVec 12 := 0#3 ++ bit m.stamp ++ m.ms.code ++ m.opc
def PressMods.ofBits (b : BitVec 12) : Option PressMods :=
  some ⟨b.extractLsb' 0 6, MScope.ofCode (b.extractLsb' 6 2), b.getLsbD 8⟩
def BarrierMods.bits (m : BarrierMods) : BitVec 12 := 0#4 ++ m.ms.code ++ 0#5 ++ bit m.ext
def BarrierMods.ofBits (b : BitVec 12) : Option BarrierMods :=
  some ⟨b.getLsbD 0, MScope.ofCode (b.extractLsb' 6 2)⟩
def GangMods.bits (m : GangMods) : BitVec 12 := 0#11 ++ bit m.blk
def GangMods.ofBits (b : BitVec 12) : Option GangMods := some ⟨b.getLsbD 0⟩

/-- R484: [23:16] and [15:4] of word 1. -/
def DrainMods.bitsC (m : DrainMods) : BitVec 8 := 0#4 ++ m.scp ++ bit m.rel ++ bit m.acq
def DrainMods.bits (m : DrainMods) : BitVec 12 :=
  m.fmt.code ++ m.mode.code ++ bit m.sat ++ bit m.byp ++ bit m.nomem ++ bit m.z ++ 0#2
def DrainMods.ofBits (c : BitVec 8) (b : BitVec 12) : Option DrainMods :=
  (Fmt.ofCode (b.extractLsb' 8 4)).map fun f =>
    ⟨f, RMode.ofCode (b.extractLsb' 6 2), b.getLsbD 5, b.getLsbD 4, b.getLsbD 3, b.getLsbD 2,
      c.extractLsb' 2 2, c.getLsbD 1, c.getLsbD 0⟩

/-! ## Encoding -/

/-- Word 0 (R342). -/
def encHead (op : BitVec 8) (h : Head) (d a : Operand) : Word :=
  op ++ h.scope.code ++ h.stall ++ h.wslot ++ d.code ++ a.code

def encA (op : BitVec 8) (i : FormA) : List Word := [encHead op i.h i.d i.a]
def encB {μ : Type} (op : BitVec 8) (mods : BitVec 12) (i : FormB μ) : List Word :=
  [encHead op i.h i.d i.a, i.b.code ++ i.c.code ++ mods ++ i.g.code]
def encC {μ : Type} (op : BitVec 8) (mods : BitVec 11) (i : FormC μ) : List Word :=
  [encHead op i.h i.d i.a, i.imm ++ 1#1 ++ mods ++ i.g.code]
def encD (op : BitVec 8) (i : FormD) : List Word := [encHead op i.h (.v 0) (.v 0), i.off ++ 0#4 ++ i.g.code]
def encE (op : BitVec 8) (i : FormE) : List Word := [encHead op i.h i.d (.v 0), i.imm]
def encDrain (op : BitVec 8) (i : FormB DrainMods) : List Word :=
  [encHead op i.h i.d i.a, i.b.code ++ i.m.bitsC ++ i.m.bits ++ i.g.code]

/-- The words of a well-formed instruction; a step without an encoding has none. -/
def encode (i : Instr) : List Word :=
  match i with
  | .nop i => encA 0x00 i
  | .exitA i => encA 0x01 i
  | .exitB i => encB 0x01 (NoMods.bits i.m) i
  | .bra i => encD 0x02 i
  | .brxA i => encA 0x03 i
  | .brxB i => encB 0x03 (NoMods.bits i.m) i
  | .call i => encD 0x04 i
  | .callxA i => encA 0x05 i
  | .callxB i => encB 0x05 (NoMods.bits i.m) i
  | .retA i => encA 0x06 i
  | .retB i => encB 0x06 (NoMods.bits i.m) i
  | .wjoin i => encA 0x07 i
  | .yield i => encA 0x08 i
  | .trap i => encC 0x09 (NoMods.bitsC i.m) i
  | .signalA i => encA 0x0A i
  | .signalB i => encB 0x0A (NoMods.bits i.m) i
  | .spawn i => encB 0x0B (NoMods.bits i.m) i
  | .gangA i => encA 0x0C i
  | .gangB i => encB 0x0C (GangMods.bits i.m) i
  | .iaddB i => encB 0x10 (0#1 ++ AddMods.bits i.m) i
  | .iaddC i => encC 0x10 (AddMods.bits i.m) i
  | .isubB i => encB 0x11 (0#1 ++ AddMods.bits i.m) i
  | .isubC i => encC 0x11 (AddMods.bits i.m) i
  | .imulB i => encB 0x12 (0#1 ++ MulMods.bits i.m) i
  | .imulC i => encC 0x12 (MulMods.bits i.m) i
  | .imad i => encB 0x13 (MadMods.bits i.m) i
  | .imadw i => encB 0x14 (MadwMods.bits i.m) i
  | .iminB i => encB 0x15 (0#1 ++ MinMaxMods.bits i.m) i
  | .iminC i => encC 0x15 (MinMaxMods.bits i.m) i
  | .imaxB i => encB 0x16 (0#1 ++ MinMaxMods.bits i.m) i
  | .imaxC i => encC 0x16 (MinMaxMods.bits i.m) i
  | .iabsA i => encA 0x17 i
  | .iabsB i => encB 0x17 (AbsMods.bits i.m) i
  | .icmpB i => encB 0x18 (0#1 ++ IcmpMods.bits i.m) i
  | .icmpC i => encC 0x18 (IcmpMods.bits i.m) i
  | .isel i => encB 0x19 (NoMods.bits i.m) i
  | .andB i => encB 0x1A (0#1 ++ LogicMods.bits i.m) i
  | .andC i => encC 0x1A (LogicMods.bits i.m) i
  | .orB i => encB 0x1B (0#1 ++ LogicMods.bits i.m) i
  | .orC i => encC 0x1B (LogicMods.bits i.m) i
  | .xorB i => encB 0x1C (0#1 ++ LogicMods.bits i.m) i
  | .xorC i => encC 0x1C (LogicMods.bits i.m) i
  | .shlB i => encB 0x1D (0#1 ++ ShiftMods.bits i.m) i
  | .shlC i => encC 0x1D (ShiftMods.bits i.m) i
  | .shrB i => encB 0x1E (0#1 ++ ShiftMods.bits i.m) i
  | .shrC i => encC 0x1E (ShiftMods.bits i.m) i
  | .sarB i => encB 0x1F (0#1 ++ ShiftMods.bits i.m) i
  | .sarC i => encC 0x1F (ShiftMods.bits i.m) i
  | .bfeB i => encB 0x20 (0#1 ++ BfeMods.bits i.m) i
  | .bfeC i => encC 0x20 (BfeMods.bits i.m) i
  | .bfi i => encB 0x21 (NoMods.bits i.m) i
  | .popcA i => encA 0x22 i
  | .popcB i => encB 0x22 (NoMods.bits i.m) i
  | .clzA i => encA 0x23 i
  | .clzB i => encB 0x23 (NoMods.bits i.m) i
  | .brevA i => encA 0x24 i
  | .brevB i => encB 0x24 (NoMods.bits i.m) i
  | .leaB i => encB 0x25 (0#1 ++ LeaMods.bits i.m) i
  | .leaC i => encC 0x25 (LeaMods.bits i.m) i
  | .movA i => encA 0x26 i
  | .movB i => encB 0x26 (MovMods.bits i.m) i
  | .movi i => encE 0x27 i
  | .movsA i => encA 0x28 i
  | .movsB i => encB 0x28 (MovsMods.bits i.m) i
  | .taggetA i => encA 0x29 i
  | .taggetB i => encB 0x29 (NoMods.bits i.m) i
  | .padd i => encB 0x30 (PaddMods.bits i.m) i
  | .psub i => encB 0x31 (PaddMods.bits i.m) i
  | .pmin i => encB 0x32 (PminMods.bits i.m) i
  | .pmax i => encB 0x33 (PminMods.bits i.m) i
  | .pcmp i => encB 0x34 (PcmpMods.bits i.m) i
  | .pdot4 i => encB 0x35 (Pdot4Mods.bits i.m) i
  | .faddB i => encB 0x40 (0#1 ++ FaddMods.bits i.m) i
  | .faddC i => encC 0x40 (FaddMods.bits i.m) i
  | .fmulB i => encB 0x41 (0#1 ++ FaddMods.bits i.m) i
  | .fmulC i => encC 0x41 (FaddMods.bits i.m) i
  | .ffma i => encB 0x42 (FfmaMods.bits i.m) i
  | .fminB i => encB 0x43 (0#1 ++ FminMods.bits i.m) i
  | .fminC i => encC 0x43 (FminMods.bits i.m) i
  | .fmaxB i => encB 0x44 (0#1 ++ FminMods.bits i.m) i
  | .fmaxC i => encC 0x44 (FminMods.bits i.m) i
  | .fcmpB i => encB 0x45 (0#1 ++ FcmpMods.bits i.m) i
  | .fcmpC i => encC 0x45 (FcmpMods.bits i.m) i
  | .frnd i => encB 0x46 (FrndMods.bits i.m) i
  | .hadd2 i => encB 0x47 (HalfMods.bits i.m) i
  | .hmul2 i => encB 0x48 (HalfMods.bits i.m) i
  | .hfma2 i => encB 0x49 (HalfMods.bits i.m) i
  | .hmax2 i => encB 0x4A (HalfMods.bits i.m) i
  | .frcpA i => encA 0x50 i
  | .frcpB i => encB 0x50 (SpecialMods.bits i.m) i
  | .frsqA i => encA 0x51 i
  | .frsqB i => encB 0x51 (SpecialMods.bits i.m) i
  | .fsqrtA i => encA 0x52 i
  | .fsqrtB i => encB 0x52 (SpecialMods.bits i.m) i
  | .fexp2A i => encA 0x53 i
  | .fexp2B i => encB 0x53 (SpecialMods.bits i.m) i
  | .flog2A i => encA 0x54 i
  | .flog2B i => encB 0x54 (SpecialMods.bits i.m) i
  | .fsinA i => encA 0x55 i
  | .fsinB i => encB 0x55 (SpecialMods.bits i.m) i
  | .fcosA i => encA 0x56 i
  | .fcosB i => encB 0x56 (SpecialMods.bits i.m) i
  | .cvt i => encB 0x57 (CvtMods.bits i.m) i
  | .cvtq i => encB 0x58 (CvtqMods.bits i.m) i
  | .hadqA i => encA 0x59 i
  | .hadqB i => encB 0x59 (HadqMods.bits i.m) i
  | .shflB i => encB 0x60 (0#1 ++ ShflMods.bits i.m) i
  | .shflC i => encC 0x60 (ShflMods.bits i.m) i
  | .vote i => encB 0x61 (VoteMods.bits i.m) i
  | .redw i => encB 0x62 (RedMods.bits i.m) i
  | .scanw i => encB 0x63 (RedMods.bits i.m) i
  | .matchw i => encB 0x64 (MatchMods.bits i.m) i
  | .ldB i => encB 0x70 (0#1 ++ LoadMods.bits i.m) i
  | .ldC i => encC 0x70 (LoadMods.bits i.m) i
  | .stB i => encB 0x71 (0#1 ++ StoreMods.bits i.m) i
  | .stC i => encC 0x71 (StoreMods.bits i.m) i
  | .ldsB i => encB 0x72 (0#1 ++ LoadMods.bits i.m) i
  | .ldsC i => encC 0x72 (LoadMods.bits i.m) i
  | .stsB i => encB 0x73 (0#1 ++ StoreMods.bits i.m) i
  | .stsC i => encC 0x73 (StoreMods.bits i.m) i
  | .ldlB i => encB 0x74 (0#1 ++ LoadMods.bits i.m) i
  | .ldlC i => encC 0x74 (LoadMods.bits i.m) i
  | .stlB i => encB 0x75 (0#1 ++ StoreMods.bits i.m) i
  | .stlC i => encC 0x75 (StoreMods.bits i.m) i
  | .ldb i => encB 0x76 (LdbMods.bits i.m) i
  | .prefB i => encB 0x77 (0#1 ++ PrefMods.bits i.m) i
  | .prefC i => encC 0x77 (PrefMods.bits i.m) i
  | .atom i => encB 0x78 (AtomMods.bits i.m) i
  | .cas i => encB 0x79 (CasMods.bits i.m) i
  | .sbin i => encB 0x7A (NoMods.bits i.m) i
  | .fence i => encB 0x7B (FenceMods.bits i.m) i
  | .press i => encB 0x80 (PressMods.bits i.m) i
  | .pressr i => encB 0x81 (PressMods.bits i.m) i
  | .pdef i => encB 0x82 (NoMods.bits i.m) i
  | .pdrop i => encC 0x83 (NoMods.bitsC i.m) i
  | .binit i => encB 0x84 (BarrierMods.bits i.m) i
  | .barv i => encB 0x85 (BarrierMods.bits i.m) i
  | .bwait i => encB 0x86 (BarrierMods.bits i.m) i
  | .btest i => encB 0x87 (BarrierMods.bits i.m) i
  | .bexp i => encB 0x88 (BarrierMods.bits i.m) i
  | .ckickA i => encA 0x89 i
  | .ckickB i => encB 0x89 (NoMods.bits i.m) i
  | .tierA i => encA 0x8A i
  | .tierB i => encB 0x8A (NoMods.bits i.m) i
  | .mmaA i => encA 0x8B i
  | .mmaB i => encB 0x8B (NoMods.bits i.m) i
  | .talloc i => encC 0x8C (NoMods.bitsC i.m) i
  | .tfree i => encA 0x8D i
  | .tdrain i => encDrain 0x8E i
  | .relg i => encB 0x8F (NoMods.bits i.m) i
  | .csrd i => encC 0x90 (NoMods.bitsC i.m) i
  | .csrw i => encC 0x91 (NoMods.bitsC i.m) i
  | .spawnRetry _ _ => []
  | .binTimerExpiry _ _ => []
  | .broodWarpLaunch _ => []
  | .wrungLoadPerform _ => []
  | .fenceComplete _ _ => []
  | .pdropComplete _ _ => []
  | .tallocGrant _ => []
  | .tfreeRelease _ _ => []
  | .rendezvousExecute _ _ => []
  | .blockRetirement _ => []
  | .stampTick _ => []
  | .pressApplication _ => []
  | .channelPressApplication _ => []
  | .channelAck _ => []
  | .combineEntryTimeout _ _ => []
  | .remotePressRequest _ => []
  | .trackerAgeDrain _ _ => []
  | .drainApply _ => []
  | .umonInterval _ => []
  | .mmaCommandStart _ => []
  | .mmaComplete _ => []
  | .tdrainExecute _ => []
  | .copyCommandStart _ _ _ => []
  | .copyComplete _ _ _ => []
  | .tierPageMove _ _ _ => []
  | .lqRingWrite _ _ => []
  | .lqWake _ _ => []
  | .launchRecordRead _ => []
  | .launchDispatch _ => []
  | .blockPlacement _ => []
  | .launchBlocking _ => []
  | .preemptDeadlineExpiry _ => []
  | .contextSwitchOut _ => []
  | .watchdogInternal _ => []
  | .watchdogExternal _ => []
  | .wdogWrite _ _ _ => []
  | .coreSplitWrite _ _ => []
  | .warpSuspendTimeout _ _ => []
  | .faultEntryWrite _ => []
  | .resume _ _ => []
  | .discard _ _ => []
  | .resolve _ _ => []
  | .failpg _ _ => []
  | .abort _ _ => []
  | .reset _ => []
  | .tlbInv _ _ => []
  | .tlbInvComplete _ => []
  | .blockSave _ => []
  | .arrivalLogAppend _ _ => []
  | .logRefusalRetry _ _ => []
  | .releaseGateProcess => []
  | .hostMemoryRequest _ => []
  | .peerModuleRequest _ => []
  | .ideCounterLimit _ => []
  | .ideKeyTimeout _ => []
  | .lockInterface _ => []
  | .auditWalk _ => []
  | .lockedRegisterWrite _ _ _ => []
  | .functionLevelReset _ => []
  | .scrubGranule _ => []
  | .linkPortFailure _ => []
  | .linkTargetTimeout _ => []
  | .alertBackoff _ => []
  | .throttleStep _ => []
  | .status _ => []
  | .preempt _ _ => []
  | .restore _ _ => []
  | .pooladd _ _ _ _ => []
  | .setaper _ _ _ => []
  | .checkpoint _ => []
  | .sleep _ => []
  | .sleepWake => []
  | .keyprov _ _ _ => []
  | .assign _ _ _ _ => []
  | .grant _ _ _ => []
  | .powercap _ _ => []
  | .debug _ _ => []
  | .dumprd _ => []
  | .fatalError => []
  | .securityAlarm => []
  | .l2ProtWrite _ => []
  | .l2UmonWrite _ => []
  | .quotaWrite _ _ _ => []
  | .registerWrite _ _ _ => []
  | .capacityTierSupplyLoss => []
  | .powerUp => []
  | .dieReset _ _ _ => []
  | .linkTraining _ => []
  | .systemConfiguration _ => []
  | .missedLinkHeartbeats _ => []
  | .ideKeySetSelection _ _ => []
  | .ideCounterWarning _ => []
  | .spdmSessionEstablishment _ => []
  | .contextCreation _ => []
  | .contextDestruction _ => []
  | .latencyVResult _ _ _ => []
  | .postedWriteFailure _ _ => []
  | .softError _ => []
  | .functionResetComplete _ => []

/-! ## Decoding -/

/-- Why words are no instruction. Every reason is ILLINSTR with DETAIL 0. -/
inductive Reject where
  /-- The opcode is reserved, or does not admit this word count (R344, R347). -/
  | opcode
  /-- A modifier value that the reference entry does not define (R344). -/
  | modifier
  /-- WSLOT 7 (R348). -/
  | wslot
  /-- A combination that the entry rules out, a non-zero unused operand field (R344), a write slot on NOP or on an
  instruction of class 4 other than SPAWN and GANG (R348). -/
  | combination
  /-- A non-zero reserved field (R9). -/
  | reservedField
  deriving DecidableEq, Repr

def decHead (w : Word) : Head := ⟨Scope.ofCode (w.extractLsb' 22 2), w.extractLsb' 19 3, w.extractLsb' 16 3⟩
def decDst (w : Word) : Operand := Operand.ofCode (w.extractLsb' 8 8)
def decSrcA (w : Word) : Operand := Operand.ofCode (w.extractLsb' 0 8)
def decGuard (w : Word) : Guard := Guard.ofCode (w.extractLsb' 0 4)

def decA (w0 : Word) : FormA := ⟨decHead w0, decDst w0, decSrcA w0⟩
def decB {μ : Type} (mods : BitVec 12 → Option μ) (w0 w1 : Word) : Option (FormB μ) :=
  (mods (w1.extractLsb' 4 12)).map fun m =>
    ⟨decHead w0, decDst w0, decSrcA w0, Operand.ofCode (w1.extractLsb' 24 8), Operand.ofCode (w1.extractLsb' 16 8), m,
      decGuard w1⟩
def decC {μ : Type} (mods : BitVec 11 → Option μ) (w0 w1 : Word) : Option (FormC μ) :=
  (mods (w1.extractLsb' 4 11)).map fun m =>
    ⟨decHead w0, decDst w0, decSrcA w0, w1.extractLsb' 16 16, m, decGuard w1⟩
def decD (w0 w1 : Word) : FormD := ⟨decHead w0, w1.extractLsb' 8 24, decGuard w1⟩
def decE (w0 w1 : Word) : FormE := ⟨decHead w0, decDst w0, w1⟩
def decDrain (w0 w1 : Word) : Option (FormB DrainMods) :=
  (DrainMods.ofBits (w1.extractLsb' 16 8) (w1.extractLsb' 4 12)).map fun m =>
    ⟨decHead w0, decDst w0, decSrcA w0, Operand.ofCode (w1.extractLsb' 24 8), .v 0, m, decGuard w1⟩

/-- The opcodes that admit form A (R347). -/
def oneWord : List (Nat × (FormA → Instr)) :=
  [ (0x00, .nop),
    (0x01, .exitA),
    (0x03, .brxA),
    (0x05, .callxA),
    (0x06, .retA),
    (0x07, .wjoin),
    (0x08, .yield),
    (0x0A, .signalA),
    (0x0C, .gangA),
    (0x17, .iabsA),
    (0x22, .popcA),
    (0x23, .clzA) ] ++
  [ (0x24, .brevA),
    (0x26, .movA),
    (0x28, .movsA),
    (0x29, .taggetA),
    (0x50, .frcpA),
    (0x51, .frsqA),
    (0x52, .fsqrtA),
    (0x53, .fexp2A),
    (0x54, .flog2A),
    (0x55, .fsinA),
    (0x56, .fcosA),
    (0x59, .hadqA) ] ++
  [ (0x89, .ckickA),
    (0x8A, .tierA),
    (0x8B, .mmaA),
    (0x8D, .tfree) ]

/-- The opcodes that admit a two-word form (R347); bit [15] of word 1 tells form C from form B (R344). -/
def twoWord : List (Nat × (Word → Word → Option Instr)) :=
  [ (0x01, fun w0 w1 => (decB NoMods.ofBits w0 w1).map .exitB),
    (0x02, fun w0 w1 => some (.bra (decD w0 w1))),
    (0x03, fun w0 w1 => (decB NoMods.ofBits w0 w1).map .brxB),
    (0x04, fun w0 w1 => some (.call (decD w0 w1))),
    (0x05, fun w0 w1 => (decB NoMods.ofBits w0 w1).map .callxB),
    (0x06, fun w0 w1 => (decB NoMods.ofBits w0 w1).map .retB),
    (0x09, fun w0 w1 => (decC NoMods.ofBitsC w0 w1).map .trap),
    (0x0A, fun w0 w1 => (decB NoMods.ofBits w0 w1).map .signalB),
    (0x0B, fun w0 w1 => (decB NoMods.ofBits w0 w1).map .spawn),
    (0x0C, fun w0 w1 => (decB GangMods.ofBits w0 w1).map .gangB),
    (0x10, fun w0 w1 => if w1.getLsbD 15 then (decC AddMods.ofBits w0 w1).map .iaddC else (decB (AddMods.ofBits ∘ low11) w0 w1).map .iaddB),
    (0x11, fun w0 w1 => if w1.getLsbD 15 then (decC AddMods.ofBits w0 w1).map .isubC else (decB (AddMods.ofBits ∘ low11) w0 w1).map .isubB) ] ++
  [ (0x12, fun w0 w1 => if w1.getLsbD 15 then (decC MulMods.ofBits w0 w1).map .imulC else (decB (MulMods.ofBits ∘ low11) w0 w1).map .imulB),
    (0x13, fun w0 w1 => (decB MadMods.ofBits w0 w1).map .imad),
    (0x14, fun w0 w1 => (decB MadwMods.ofBits w0 w1).map .imadw),
    (0x15, fun w0 w1 => if w1.getLsbD 15 then (decC MinMaxMods.ofBits w0 w1).map .iminC else (decB (MinMaxMods.ofBits ∘ low11) w0 w1).map .iminB),
    (0x16, fun w0 w1 => if w1.getLsbD 15 then (decC MinMaxMods.ofBits w0 w1).map .imaxC else (decB (MinMaxMods.ofBits ∘ low11) w0 w1).map .imaxB),
    (0x17, fun w0 w1 => (decB AbsMods.ofBits w0 w1).map .iabsB),
    (0x18, fun w0 w1 => if w1.getLsbD 15 then (decC IcmpMods.ofBits w0 w1).map .icmpC else (decB (IcmpMods.ofBits ∘ low11) w0 w1).map .icmpB),
    (0x19, fun w0 w1 => (decB NoMods.ofBits w0 w1).map .isel),
    (0x1A, fun w0 w1 => if w1.getLsbD 15 then (decC LogicMods.ofBits w0 w1).map .andC else (decB (LogicMods.ofBits ∘ low11) w0 w1).map .andB),
    (0x1B, fun w0 w1 => if w1.getLsbD 15 then (decC LogicMods.ofBits w0 w1).map .orC else (decB (LogicMods.ofBits ∘ low11) w0 w1).map .orB),
    (0x1C, fun w0 w1 => if w1.getLsbD 15 then (decC LogicMods.ofBits w0 w1).map .xorC else (decB (LogicMods.ofBits ∘ low11) w0 w1).map .xorB),
    (0x1D, fun w0 w1 => if w1.getLsbD 15 then (decC ShiftMods.ofBits w0 w1).map .shlC else (decB (ShiftMods.ofBits ∘ low11) w0 w1).map .shlB) ] ++
  [ (0x1E, fun w0 w1 => if w1.getLsbD 15 then (decC ShiftMods.ofBits w0 w1).map .shrC else (decB (ShiftMods.ofBits ∘ low11) w0 w1).map .shrB),
    (0x1F, fun w0 w1 => if w1.getLsbD 15 then (decC ShiftMods.ofBits w0 w1).map .sarC else (decB (ShiftMods.ofBits ∘ low11) w0 w1).map .sarB),
    (0x20, fun w0 w1 => if w1.getLsbD 15 then (decC BfeMods.ofBits w0 w1).map .bfeC else (decB (BfeMods.ofBits ∘ low11) w0 w1).map .bfeB),
    (0x21, fun w0 w1 => (decB NoMods.ofBits w0 w1).map .bfi),
    (0x22, fun w0 w1 => (decB NoMods.ofBits w0 w1).map .popcB),
    (0x23, fun w0 w1 => (decB NoMods.ofBits w0 w1).map .clzB),
    (0x24, fun w0 w1 => (decB NoMods.ofBits w0 w1).map .brevB),
    (0x25, fun w0 w1 => if w1.getLsbD 15 then (decC LeaMods.ofBits w0 w1).map .leaC else (decB (LeaMods.ofBits ∘ low11) w0 w1).map .leaB),
    (0x26, fun w0 w1 => (decB MovMods.ofBits w0 w1).map .movB),
    (0x27, fun w0 w1 => some (.movi (decE w0 w1))),
    (0x28, fun w0 w1 => (decB MovsMods.ofBits w0 w1).map .movsB),
    (0x29, fun w0 w1 => (decB NoMods.ofBits w0 w1).map .taggetB) ] ++
  [ (0x30, fun w0 w1 => (decB PaddMods.ofBits w0 w1).map .padd),
    (0x31, fun w0 w1 => (decB PaddMods.ofBits w0 w1).map .psub),
    (0x32, fun w0 w1 => (decB PminMods.ofBits w0 w1).map .pmin),
    (0x33, fun w0 w1 => (decB PminMods.ofBits w0 w1).map .pmax),
    (0x34, fun w0 w1 => (decB PcmpMods.ofBits w0 w1).map .pcmp),
    (0x35, fun w0 w1 => (decB Pdot4Mods.ofBits w0 w1).map .pdot4),
    (0x40, fun w0 w1 => if w1.getLsbD 15 then (decC FaddMods.ofBits w0 w1).map .faddC else (decB (FaddMods.ofBits ∘ low11) w0 w1).map .faddB),
    (0x41, fun w0 w1 => if w1.getLsbD 15 then (decC FaddMods.ofBits w0 w1).map .fmulC else (decB (FaddMods.ofBits ∘ low11) w0 w1).map .fmulB),
    (0x42, fun w0 w1 => (decB FfmaMods.ofBits w0 w1).map .ffma),
    (0x43, fun w0 w1 => if w1.getLsbD 15 then (decC FminMods.ofBits w0 w1).map .fminC else (decB (FminMods.ofBits ∘ low11) w0 w1).map .fminB),
    (0x44, fun w0 w1 => if w1.getLsbD 15 then (decC FminMods.ofBits w0 w1).map .fmaxC else (decB (FminMods.ofBits ∘ low11) w0 w1).map .fmaxB),
    (0x45, fun w0 w1 => if w1.getLsbD 15 then (decC FcmpMods.ofBits w0 w1).map .fcmpC else (decB (FcmpMods.ofBits ∘ low11) w0 w1).map .fcmpB) ] ++
  [ (0x46, fun w0 w1 => (decB FrndMods.ofBits w0 w1).map .frnd),
    (0x47, fun w0 w1 => (decB HalfMods.ofBits w0 w1).map .hadd2),
    (0x48, fun w0 w1 => (decB HalfMods.ofBits w0 w1).map .hmul2),
    (0x49, fun w0 w1 => (decB HalfMods.ofBits w0 w1).map .hfma2),
    (0x4A, fun w0 w1 => (decB HalfMods.ofBits w0 w1).map .hmax2),
    (0x50, fun w0 w1 => (decB SpecialMods.ofBits w0 w1).map .frcpB),
    (0x51, fun w0 w1 => (decB SpecialMods.ofBits w0 w1).map .frsqB),
    (0x52, fun w0 w1 => (decB SpecialMods.ofBits w0 w1).map .fsqrtB),
    (0x53, fun w0 w1 => (decB SpecialMods.ofBits w0 w1).map .fexp2B),
    (0x54, fun w0 w1 => (decB SpecialMods.ofBits w0 w1).map .flog2B),
    (0x55, fun w0 w1 => (decB SpecialMods.ofBits w0 w1).map .fsinB),
    (0x56, fun w0 w1 => (decB SpecialMods.ofBits w0 w1).map .fcosB) ] ++
  [ (0x57, fun w0 w1 => (decB CvtMods.ofBits w0 w1).map .cvt),
    (0x58, fun w0 w1 => (decB CvtqMods.ofBits w0 w1).map .cvtq),
    (0x59, fun w0 w1 => (decB HadqMods.ofBits w0 w1).map .hadqB),
    (0x60, fun w0 w1 => if w1.getLsbD 15 then (decC ShflMods.ofBits w0 w1).map .shflC else (decB (ShflMods.ofBits ∘ low11) w0 w1).map .shflB),
    (0x61, fun w0 w1 => (decB VoteMods.ofBits w0 w1).map .vote),
    (0x62, fun w0 w1 => (decB RedMods.ofBits w0 w1).map .redw),
    (0x63, fun w0 w1 => (decB RedMods.ofBits w0 w1).map .scanw),
    (0x64, fun w0 w1 => (decB MatchMods.ofBits w0 w1).map .matchw),
    (0x70, fun w0 w1 => if w1.getLsbD 15 then (decC LoadMods.ofBits w0 w1).map .ldC else (decB (LoadMods.ofBits ∘ low11) w0 w1).map .ldB),
    (0x71, fun w0 w1 => if w1.getLsbD 15 then (decC StoreMods.ofBits w0 w1).map .stC else (decB (StoreMods.ofBits ∘ low11) w0 w1).map .stB),
    (0x72, fun w0 w1 => if w1.getLsbD 15 then (decC LoadMods.ofBits w0 w1).map .ldsC else (decB (LoadMods.ofBits ∘ low11) w0 w1).map .ldsB),
    (0x73, fun w0 w1 => if w1.getLsbD 15 then (decC StoreMods.ofBits w0 w1).map .stsC else (decB (StoreMods.ofBits ∘ low11) w0 w1).map .stsB) ] ++
  [ (0x74, fun w0 w1 => if w1.getLsbD 15 then (decC LoadMods.ofBits w0 w1).map .ldlC else (decB (LoadMods.ofBits ∘ low11) w0 w1).map .ldlB),
    (0x75, fun w0 w1 => if w1.getLsbD 15 then (decC StoreMods.ofBits w0 w1).map .stlC else (decB (StoreMods.ofBits ∘ low11) w0 w1).map .stlB),
    (0x76, fun w0 w1 => (decB LdbMods.ofBits w0 w1).map .ldb),
    (0x77, fun w0 w1 => if w1.getLsbD 15 then (decC PrefMods.ofBits w0 w1).map .prefC else (decB (PrefMods.ofBits ∘ low11) w0 w1).map .prefB),
    (0x78, fun w0 w1 => (decB AtomMods.ofBits w0 w1).map .atom),
    (0x79, fun w0 w1 => (decB CasMods.ofBits w0 w1).map .cas),
    (0x7A, fun w0 w1 => (decB NoMods.ofBits w0 w1).map .sbin),
    (0x7B, fun w0 w1 => (decB FenceMods.ofBits w0 w1).map .fence),
    (0x80, fun w0 w1 => (decB PressMods.ofBits w0 w1).map .press),
    (0x81, fun w0 w1 => (decB PressMods.ofBits w0 w1).map .pressr),
    (0x82, fun w0 w1 => (decB NoMods.ofBits w0 w1).map .pdef),
    (0x83, fun w0 w1 => (decC NoMods.ofBitsC w0 w1).map .pdrop) ] ++
  [ (0x84, fun w0 w1 => (decB BarrierMods.ofBits w0 w1).map .binit),
    (0x85, fun w0 w1 => (decB BarrierMods.ofBits w0 w1).map .barv),
    (0x86, fun w0 w1 => (decB BarrierMods.ofBits w0 w1).map .bwait),
    (0x87, fun w0 w1 => (decB BarrierMods.ofBits w0 w1).map .btest),
    (0x88, fun w0 w1 => (decB BarrierMods.ofBits w0 w1).map .bexp),
    (0x89, fun w0 w1 => (decB NoMods.ofBits w0 w1).map .ckickB),
    (0x8A, fun w0 w1 => (decB NoMods.ofBits w0 w1).map .tierB),
    (0x8B, fun w0 w1 => (decB NoMods.ofBits w0 w1).map .mmaB),
    (0x8C, fun w0 w1 => (decC NoMods.ofBitsC w0 w1).map .talloc),
    (0x8E, fun w0 w1 => (decDrain w0 w1).map .tdrain),
    (0x8F, fun w0 w1 => (decB NoMods.ofBits w0 w1).map .relg),
    (0x90, fun w0 w1 => (decC NoMods.ofBitsC w0 w1).map .csrd) ] ++
  [ (0x91, fun w0 w1 => (decC NoMods.ofBitsC w0 w1).map .csrw) ]

def opcode (w0 : Word) : Nat := w0.toNat >>> 24

/-- The instruction that the fields of the words spell, reserved bits aside. -/
def candidate (w0 : Word) (w1 : Option Word) : Except Reject Instr :=
  match w1 with
  | none =>
    match oneWord.find? (·.1 == opcode w0) with
    | none => .error .opcode
    | some r => .ok (r.2 (decA w0))
  | some w =>
    match twoWord.find? (·.1 == opcode w0) with
    | none => .error .opcode
    | some r =>
      match r.2 w0 w with
      | none => .error .modifier
      | some i => .ok i

/-- The decoder: the words of one instruction, the second present when the header's EXT bit says so (R344). -/
def decodeWords (w0 : Word) (w1 : Option Word) : Except Reject Instr :=
  match candidate w0 w1 with
  | .error r => .error r
  | .ok i =>
    if w0.extractLsb' 16 3 = 7#3 then .error .wslot
    else if !i.wf then .error .combination
    else if encode i = w0 :: w1.toList then .ok i
    else .error .reservedField

/-- Little-endian word at the front of a list of bytes (R4). -/
def wordOfBytes (bs : List Byte) : Word :=
  (bs.getD 3 0) ++ (bs.getD 2 0) ++ (bs.getD 1 0) ++ (bs.getD 0 0)

/-- Total decoding of any bytes: one or two words, as their number says. -/
def decodeBytes (bs : List Byte) : Except Reject Instr :=
  decodeWords (wordOfBytes bs) (if bs.length ≤ 4 then none else some (wordOfBytes (bs.drop 4)))

/-- Whether an instruction of `nbits` table bits is one word: its opcode admits form A and the table gives one word. -/
def tableOneWord (nbits w : Nat) : Bool :=
  nbits ≤ 32 && (oneWord.find? (·.1 == (w / 2 ^ 24) % 256)).isSome

/-- The decoder on a row of the opcode table. -/
def decodeTableWord (nbits w : Nat) : Option Instr :=
  let w0 := BitVec.ofNat 32 w
  let w1 := if tableOneWord nbits w then none else some (BitVec.ofNat 32 (w / 2 ^ 32))
  match decodeWords w0 w1 with
  | .ok i => some i
  | .error _ => none

/-- The class of an opcode (R347): none for a reserved opcode; NOP (0x00) is legal in every class (R341). -/
def opClass (op : Nat) : Option Nat :=
  if op ≤ 0x0C then some 4
  else if 0x10 ≤ op && op ≤ 0x29 || 0x30 ≤ op && op ≤ 0x35 || 0x40 ≤ op && op ≤ 0x4A then some 0
  else if 0x50 ≤ op && op ≤ 0x59 || 0x60 ≤ op && op ≤ 0x64 then some 1
  else if 0x70 ≤ op && op ≤ 0x88 then some 2
  else if 0x89 ≤ op && op ≤ 0x8E then some 3
  else if 0x8F ≤ op && op ≤ 0x91 then some 5
  else none

end Sys2Proof
end

