-- ==== Sys2Proof/Config.lean ====
section
/-! DEFINITION. What the part fixes, the model's named choices, and the free values: constants without a body, so that
no proof can see what they are. -/

namespace Sys2Proof.Config

/-- DESIGN CHOICE, unsafe (log 1): what a byte of memory reads as while nothing has written it. -/
abbrev emptyByte : Byte := 0

/-- LEASE of R114. -/
abbrev lease : Nat := 16

/-- Whether an early read (R357) sees the written value (`true`) or the old one, for issue number `n`, lane and
position. A free value (log 3). -/
opaque earlyRead (n lane pos : Nat) : Bool

/-- What the part's special-function unit gives for a source pattern, before the bound of R408 is imposed.
A free value (log 4). -/
opaque specialRaw (f : SpecialFn) (x : Word) : Word

/-- The number the part would give to the next hold (R279). A free value (log 6); a number in use is not given. -/
opaque holdNumber (n : Nat) : BitVec 16

/-- The handle the key vault would give next (R332). A free value (log 6); a handle in use is not given. -/
opaque vaultHandle (n : Nat) : Word

/-- The arguments that the 56 bytes after a message's header carry, command by command: their layout is not stated. A free value
(log 14). -/
opaque mailArgs (cmd : Nat) (payload : BitVec 448) : MailArgs

/-- How far a stamp of another module's domain lies past the last one that it returned for the line (R119). A free value (log 7). -/
opaque remoteStamp (modid n : Nat) : Nat

/-- Whether a fetch of a word that a launch wrote after the start stamp returns the new value (R128). A free value (log 25). -/
opaque codeRace (n : Nat) : Bool

/-- The world key derived from a sealed key, the launch's sequence number and its start stamp (R314). A free value (log 8). -/
opaque worldKey (key : BitVec 256) (seq stamp : Nat) : BitVec 256

/-- Telemetry that STATUS returns: power and temperatures (R332). A free value (log 9). -/
opaque telemetry (n : Nat) : Word

/-- Whether a record is being read at the moment a queue's EN is cleared (R273). A free value (log 12). -/
opaque readCaught (n : Nat) : Bool

/-- INFO0 of the fatal entry of a forced reset that R281 gives no code (R323, R324, R334). A free value (log 13). -/
opaque fatalInfo (n : Nat) : Nat

/-- The completion status that BrynLink reports for a posted write that cannot be delivered (R281, R325). A free value (log 18). -/
opaque linkStatus (n : Nat) : Nat

/-- The line at which the fast tier begins. A free value (log 19). -/
opaque fastBase : Nat

/-- Whether a physical address of device memory lies in the fast tier, 1 TiB of it (R23, R24); the others lie in the capacity
tier. -/
def fastPa (pa : Nat) : Bool := decide (fastBase ≤ pa / 128) && decide (pa / 128 < fastBase + 2 ^ 33)

/-- The set of a line within its home slice, and the L1 copy that makes room for another (R100, R101). Free values (log 5). -/
opaque l2Set (line : Nat) : Nat
opaque l1Victim (core line cycle : Nat) : Nat

/-- The sets of a slice that the utility monitor samples for a device, 0 to 31 (R107). A free value (log 5). -/
opaque umonSet (dev slice i : Nat) : Nat

/-- The SHA-256 digests of a checkpoint image and of a fatal-error dump (R242, R333). Free values (log 8). -/
opaque imageDigest (cells : List (Nat × Byte)) : BitVec 256
opaque dumpDigest (n : Nat) : BitVec 256

/-- What the TDISP lock digest of a list of register values is (R323). A free value (log 8). -/
opaque lockDigest (values : List (BitVec 64)) : BitVec 256

/-- CAP.CORE (R27). -/
abbrev capCore : BitVec 64 := 0x08110C0200104041
/-- CAP.ATOM (R28). -/
abbrev capAtom : BitVec 32 := 0x00043556
/-- CAP.FMT (R29). -/
abbrev capFmt : BitVec 32 := 0x6EDC3FFF

/-- CAP.PRESS (R30), field by field from the most significant. -/
abbrev capPress : BitVec 64 :=
  (0 : BitVec 2) ++ (128 : BitVec 8) ++ (512 : BitVec 10) ++ (2048 : BitVec 12) ++ (4 : BitVec 4) ++
    (10 : BitVec 4) ++ (7 : BitVec 4) ++ (3 : BitVec 4) ++ (8 : BitVec 4) ++ (16 : BitVec 5) ++ (64 : BitVec 7)

/-- CAP.SYS (R31) with its two fields that are not fixed. -/
abbrev capSys (modid : BitVec 12) (lup : BitVec 6) : BitVec 64 :=
  (0 : BitVec 7) ++ (16 : BitVec 5) ++ (2048 : BitVec 12) ++ (8 : BitVec 4) ++ (128 : BitVec 8) ++ (8 : BitVec 4) ++
    lup ++ (36 : BitVec 6) ++ modid

end Sys2Proof.Config
end

