-- ==== Sys2Proof/Machine/Tab.lean ====
section
/-! DEFINITION. Reading and writing finite tables and memories. Both keep their cells in rising order of the key; a memory
lists no cell that equals what an unlisted address reads as, so that equal memories are equal data. -/

namespace Sys2Proof.Machine

/-! ## Tables -/

def cellsFind {α : Type} (k : Nat) : List (Nat × α) → Option α
  | [] => none
  | (j, x) :: r => if j = k then some x else cellsFind k r

def cellsSet {α : Type} (k : Nat) (x : α) : List (Nat × α) → List (Nat × α)
  | [] => [(k, x)]
  | (j, y) :: r => if k < j then (k, x) :: (j, y) :: r else if j = k then (k, x) :: r else (j, y) :: cellsSet k x r

def cellsErase {α : Type} (k : Nat) : List (Nat × α) → List (Nat × α)
  | [] => []
  | (j, y) :: r => if j = k then r else (j, y) :: cellsErase k r

def tabFind {α : Type} (t : Tab α) (k : Nat) : Option α := cellsFind k t.cells
def tabGet {α : Type} (t : Tab α) (k : Nat) (d : α) : α := (tabFind t k).getD d
def tabSet {α : Type} (t : Tab α) (k : Nat) (x : α) : Tab α := ⟨cellsSet k x t.cells⟩
def tabErase {α : Type} (t : Tab α) (k : Nat) : Tab α := ⟨cellsErase k t.cells⟩
def tabHas {α : Type} (t : Tab α) (k : Nat) : Bool := (tabFind t k).isSome
def tabKeys {α : Type} (t : Tab α) : List Nat := t.cells.map (·.1)
def tabVals {α : Type} (t : Tab α) : List α := t.cells.map (·.2)
def tabMap {α : Type} (f : α → α) (t : Tab α) : Tab α := ⟨t.cells.map fun c => (c.1, f c.2)⟩
def tabFilter {α : Type} (f : Nat → α → Bool) (t : Tab α) : Tab α := ⟨t.cells.filter fun c => f c.1 c.2⟩
/-- Change an entry that is there. -/
def tabMod {α : Type} (t : Tab α) (k : Nat) (f : α → α) : Tab α :=
  match tabFind t k with
  | none => t
  | some x => tabSet t k (f x)

/-- The lowest number below `n` that is not in the list, or none. -/
def lowestFree (n : Nat) (used : List Nat) : Option Nat := (List.range n).find? fun i => !used.contains i

/-! ## Memory -/

/-- The byte at an address (log 1 for one that was never written). -/
def memGet (m : Mem) (a : Nat) : Byte := (cellsFind a m.cells).getD Config.emptyByte

def memSet (m : Mem) (a : Nat) (b : Byte) : Mem :=
  if b = Config.emptyByte then ⟨cellsErase a m.cells⟩ else ⟨cellsSet a b m.cells⟩

/-- The canonical form: addresses strictly rising, no cell equal to the empty byte. -/
def cellsRising {α : Type} : List (Nat × α) → Bool
  | [] => true
  | [_] => true
  | a :: b :: r => decide (a.1 < b.1) && cellsRising (b :: r)

def Memory.wf (m : Mem) : Bool := cellsRising m.cells && m.cells.all fun c => c.2 != Config.emptyByte

def memRead (m : Mem) (a : Nat) : Nat → List Byte
  | 0 => []
  | n + 1 => memGet m a :: memRead m (a + 1) n

def memWrite (m : Mem) (a : Nat) : List Byte → Mem
  | [] => m
  | b :: bs => memWrite (memSet m a b) (a + 1) bs

/-! ## Numbers and bytes, little-endian (R4) -/

def natOfBytes : List Byte → Nat
  | [] => 0
  | b :: bs => b.toNat + 256 * natOfBytes bs

def bytesOfNat (x : Nat) : Nat → List Byte
  | 0 => []
  | n + 1 => BitVec.ofNat 8 x :: bytesOfNat (x / 256) n

def wordsOfBytes : List Byte → List Word
  | a :: b :: c :: d :: r => (d ++ c ++ b ++ a) :: wordsOfBytes r
  | [] => []
  | bs => [BitVec.ofNat 32 (natOfBytes bs)]

def bytesOfWord (w : Word) : List Byte := bytesOfNat w.toNat 4
def bytesOfWords (ws : List Word) : List Byte := ws.flatMap bytesOfWord

/-- Bits [hi:lo] of a number read from memory. -/
def field (x hi lo : Nat) : Nat := (x >>> lo) % 2 ^ (hi + 1 - lo)

/-- Lowest `n`-bit positions that are set, rising. -/
def bitsOf {w : Nat} (x : BitVec w) : List Nat := (List.range w).filter fun i => x.getLsbD i

def maskOf (l : List Nat) : LaneMask := l.foldl (fun m i => m ||| BitVec.twoPow 32 i) 0

def popcount {w : Nat} (x : BitVec w) : Nat := (bitsOf x).length

/-- The insertion of an element into a list sorted by `le`. -/
def insertBy {α : Type} (le : α → α → Bool) (x : α) : List α → List α
  | [] => [x]
  | y :: r => if le x y then x :: y :: r else y :: insertBy le x r

def sortBy {α : Type} (le : α → α → Bool) (l : List α) : List α := l.foldr (insertBy le) []

/-- No repeats, order of first appearance kept. -/
def dedup {α : Type} [BEq α] : List α → List α
  | [] => []
  | x :: r => x :: (dedup r).filter fun y => !(y == x)

end Sys2Proof.Machine
end

