-- ==== Sys2Proof/Machine/Cipher.lean ====
section
/-! DEFINITION. AES-256 in the counter mode of GCM, which turns the bytes of a sealed line into what memory holds (R316). -/

namespace Sys2Proof.Machine

/-! ## The field of 256 elements -/

/-- Twice an element, modulo x⁸ + x⁴ + x³ + x + 1. -/
def fieldDouble (a : Byte) : Byte := if a.msb then (a <<< 1) ^^^ 0x1B else a <<< 1

/-- The product, by the low `n` bits of its second factor, the highest of them first. -/
def fieldMul (a b : Byte) : Nat → Byte
  | 0 => 0
  | n + 1 => fieldDouble (fieldMul a (b >>> 1) n) ^^^ (if b.getLsbD 0 then a else 0)

def fieldSquare (a : Byte) : Byte := fieldMul a a 8

/-- a to the power 2ᵏ - 2: with k = 8 the inverse of a, and 0 of 0. -/
def fieldInverse (a : Byte) : Nat → Byte
  | 0 => 1
  | 1 => 1
  | k + 1 => fieldSquare (fieldMul (fieldInverse a k) a 8)

/-- The substitution of one byte. -/
def subByte (a : Byte) : Byte :=
  let i := fieldInverse a 8
  (List.range 4).foldl (fun t k => t ^^^ i.rotateLeft (k + 1)) (i ^^^ 0x63)

/-! ## Rounds, on columns of four bytes -/

/-- Each column holds four bytes, the upper row first. -/
abbrev Column := List Byte

def columnAdd (a b : Column) : Column := List.zipWith (· ^^^ ·) a b

/-- Row r of a column takes row r of the column r places to its right. -/
def shiftRows (cs : List Column) : List Column :=
  (List.range 4).map fun c => (List.range 4).map fun r => (cs.getD ((c + r) % 4) []).getD r 0

/-- A row becomes twice itself, three times the next row, and the two rows after that. -/
def mixColumn (c : Column) : Column :=
  (List.range 4).map fun r =>
    let row (k : Nat) : Byte := c.getD ((r + k) % 4) 0
    fieldDouble (row 0) ^^^ fieldDouble (row 1) ^^^ row 1 ^^^ row 2 ^^^ row 3

/-- The next column of the schedule, of which the newest comes first; `i` is its number and `rc` the round constant. -/
def nextColumn (i : Nat) (rc : Byte) (w : List Column) : Column :=
  let last := w.getD 0 []
  columnAdd (w.getD 7 []) <|
    if i % 8 = 0 then columnAdd (last.rotateLeft.map subByte) [rc, 0, 0, 0]
    else if i % 8 = 4 then last.map subByte else last

def expandKey (i : Nat) (rc : Byte) : Nat → List Column → List Column
  | 0, w => w.reverse
  | n + 1, w => expandKey (i + 1) (if i % 8 = 0 then fieldDouble rc else rc) n (nextColumn i rc w :: w)

def columnsOf : Nat → List Byte → List Column
  | 0, _ => []
  | n + 1, bs => bs.take 4 :: columnsOf n (bs.drop 4)

/-- Fourteen rounds, of which the last does not mix; `n` is the number that remain. -/
def cipherRounds : Nat → List Column → List Column → List Column
  | 0, _, s => s
  | n + 1, keys, s =>
    let t := shiftRows (s.map (·.map subByte))
    let t := if n = 0 then t else t.map mixColumn
    cipherRounds n (keys.drop 4) (List.zipWith columnAdd t keys)

/-- AES-256 of one block of 16 bytes under a key of 32. -/
def aes256 (key block : List Byte) : List Byte :=
  let keys := expandKey 8 1 52 (columnsOf 8 key).reverse
  (cipherRounds 14 (keys.drop 4) (List.zipWith columnAdd (columnsOf 4 block) keys)).flatten

/-! ## A byte of a sealed line -/

/-- The 96-bit nonce: bits [47:7] of the line's physical address, then its 55-bit version (R316). -/
def sealNonce (version pa : Nat) : BitVec 96 := BitVec.ofNat 41 (pa / 128) ++ BitVec.ofNat 55 version

/-- The counter block of a byte: GCM counts the blocks of the text from 2. -/
def counterBlock (version pa : Nat) : List Byte :=
  (bytesOfNat (sealNonce version pa ++ BitVec.ofNat 32 (2 + pa % 128 / 16)).toNat 16).reverse

/-- A byte of a sealed line as it stands outside its world: the byte itself added to its place in the key stream (R316). DESIGN CHOICE: key
and counter are written with their most significant byte first (log 8). -/
def cipherByte (key : BitVec 256) (version pa : Nat) (plain : Byte) : Byte :=
  plain ^^^ (aes256 (bytesOfNat key.toNat 32).reverse (counterBlock version pa)).getD (pa % 16) 0

end Sys2Proof.Machine
end

