-- ==== Sys2Proof/Machine/Float.lean ====
section
/-! DEFINITION. Number formats (08_number_formats.md): exact values, the one rounding of R191, saturation, conversion to
integers, and the FP32 operations that instructions, press units and the matrix unit share. A finite value is kept exactly,
as a sign, a magnitude and a power of two. -/

namespace Sys2Proof.Machine

/-- An exact value: (−1)^neg · m · 2^e, with signed zeros. -/
inductive FVal where
  | nan
  | inf (neg : Bool)
  | fin (neg : Bool) (m : Nat) (e : Int)
  deriving DecidableEq, Repr

/-- The parameters of R187: precision, least exponent, bias, exponent and fraction bits, and whether infinities exist. -/
structure FParams where
  p    : Nat
  emin : Int
  bias : Int
  ebits : Nat
  fbits : Nat
  hasInf : Bool
  deriving DecidableEq, Repr

def paramsF32 : FParams := ⟨24, -126, 127, 8, 23, true⟩
def paramsF16 : FParams := ⟨11, -14, 15, 5, 10, true⟩
def paramsBf16 : FParams := ⟨8, -126, 127, 8, 7, true⟩
def paramsE4m3 : FParams := ⟨4, -6, 7, 4, 3, false⟩
def paramsE5m2 : FParams := ⟨3, -14, 15, 5, 2, true⟩

/-- The parameters of a floating-point format; FP32's for an integer format, where they are not used. -/
def fmtParams : Fmt → FParams
  | .f16 => paramsF16 | .bf16 => paramsBf16 | .e4m3 => paramsE4m3 | .e5m2 => paramsE5m2
  | .f32 | .i32 | .i16 | .i8 | .i4 | .o4 => paramsF32

def fmtIsFloat : Fmt → Bool
  | .f32 | .f16 | .bf16 | .e4m3 | .e5m2 => true
  | .i32 | .i16 | .i8 | .i4 | .o4 => false

/-- Element width in bits (R185). -/
def fmtWidth : Fmt → Nat
  | .f32 | .i32 => 32 | .f16 | .bf16 | .i16 => 16 | .e4m3 | .e5m2 | .i8 => 8 | .i4 | .o4 => 4

def FParams.width (q : FParams) : Nat := 1 + q.ebits + q.fbits
def FParams.signBit (q : FParams) : Nat := 2 ^ (q.ebits + q.fbits)
/-- The pattern of infinity, where there is one: E all ones, F zero. -/
def FParams.infBits (q : FParams) : Nat := (2 ^ q.ebits - 1) * 2 ^ q.fbits
/-- The canonical NaN (R188). -/
def FParams.nanBits (q : FParams) : Nat := if q.hasInf then q.infBits + 2 ^ (q.fbits - 1) else 2 ^ (q.ebits + q.fbits) - 1
/-- The pattern of the largest finite value (R187). -/
def FParams.maxBits (q : FParams) : Nat := if q.hasInf then q.infBits - 1 else 2 ^ (q.ebits + q.fbits) - 2

/-- The value of a pattern (R187, R188). -/
def FParams.decode (q : FParams) (x : Nat) : FVal :=
  let neg := (x / q.signBit) % 2 == 1
  let e := (x / 2 ^ q.fbits) % 2 ^ q.ebits
  let f := x % 2 ^ q.fbits
  if q.hasInf && e == 2 ^ q.ebits - 1 then (if f = 0 then .inf neg else .nan)
  else if !q.hasInf && x % q.signBit == q.nanBits then .nan
  else if e = 0 then .fin neg f (q.emin - q.fbits)
  else .fin neg (2 ^ q.fbits + f) ((e : Int) - q.bias - q.fbits)

/-- ⌊m · 2^−s⌋ and what the mode does with the rest: the rounded magnitude (R191, RU and RD depend on the sign). -/
def roundShift (mode : RMode) (neg : Bool) (m s : Nat) : Nat :=
  let q := m >>> s
  let r := m % 2 ^ s
  let up : Bool :=
    match mode with
    | .rne => decide (2 * r > 2 ^ s) || (2 * r == 2 ^ s && q % 2 == 1)
    | .rz => false
    | .ru => r != 0 && !neg
    | .rd => r != 0 && neg
  if up then q + 1 else q

/-- Overflow (R191), and `.SAT` (R192). -/
def FParams.overflow (q : FParams) (mode : RMode) (sat neg : Bool) : Nat :=
  let s := if neg then q.signBit else 0
  let toMax : Bool :=
    sat || (match mode with | .rne => false | .rz => true | .ru => neg | .rd => !neg)
  if toMax then s + q.maxBits else if q.hasInf then s + q.infBits else q.nanBits

/-- `Round` of R191 into a format, with `.SAT` of R192 if `sat`: the pattern. What an infinite source becomes in E4M3, which has no
infinity, is not stated: DESIGN CHOICE (log 88), the canonical NaN. -/
def FParams.round (q : FParams) (mode : RMode) (sat : Bool) (v : FVal) : Nat :=
  match v with
  | .nan => q.nanBits
  | .inf neg => if sat then (if neg then q.signBit else 0) + q.maxBits
      else if q.hasInf then (if neg then q.signBit else 0) + q.infBits else q.nanBits
  | .fin neg m e =>
    let s := if neg then q.signBit else 0
    if m = 0 then s
    else
      let ex := max ((m.log2 : Int) + e) q.emin
      let qe := ex - q.p + 1
      let n := if e ≥ qe then m <<< (e - qe).toNat else roundShift mode neg m (qe - e).toNat
      let bits :=
        if n < 2 ^ (q.p - 1) then n
        else ((ex + q.bias).toNat) * 2 ^ q.fbits + (n - 2 ^ (q.p - 1))
      if bits > q.maxBits then q.overflow mode sat neg else s + bits

/-- The value rounded to an integer under a mode (R193); none for a NaN, and the infinities by sign. -/
def roundInt (mode : RMode) (neg : Bool) (m : Nat) (e : Int) : Int :=
  let n := if e ≥ 0 then m <<< e.toNat else roundShift mode neg m (-e).toNat
  if neg then -(n : Int) else n

def clampInt (lo hi x : Int) : Int := if x < lo then lo else if x > hi then hi else x

/-- Rounding to an integer range, always saturating (R193). -/
def FVal.toInt (mode : RMode) (lo hi : Int) : FVal → Int
  | .nan => 0
  | .inf neg => if neg then lo else hi
  | .fin neg m e => clampInt lo hi (roundInt mode neg m e)

def FVal.isNan : FVal → Bool
  | .nan => true
  | .inf _ => false
  | .fin _ _ _ => false

def FVal.isNeg : FVal → Bool
  | .nan => false
  | .inf n => n
  | .fin n _ _ => n

def FVal.isZero : FVal → Bool
  | .fin _ m _ => m == 0
  | .nan => false
  | .inf _ => false

/-- Exact product (R189). -/
def FVal.mul (a b : FVal) : FVal :=
  match a, b with
  | .nan, _ => .nan
  | _, .nan => .nan
  | .inf s, .inf t => .inf (s != t)
  | .inf s, .fin t m _ => if m = 0 then .nan else .inf (s != t)
  | .fin s m _, .inf t => if m = 0 then .nan else .inf (s != t)
  | .fin s m e, .fin t n f => .fin (s != t) (m * n) (e + f)

def FVal.negate : FVal → FVal
  | .nan => .nan
  | .inf s => .inf (!s)
  | .fin s m e => .fin (!s) m e

/-- The signed magnitude of a finite value at exponent `e0 ≤ e`. -/
def FVal.at (e0 : Int) : FVal → Int
  | .fin s m e => let k : Int := ((m <<< (e - e0).toNat : Nat) : Int); if s then -k else k
  | .nan => 0
  | .inf _ => 0

def FVal.expOf : FVal → Option Int
  | .fin _ _ e => some e
  | .nan => none
  | .inf _ => none

/-- The exact sum of a list of values (R189, R170, R216): NaN and infinities as IEEE 754; the sign of an exact zero is that
of the terms when they are all zeros of one sign, else + but in RD. -/
def FVal.sum (mode : RMode) (l : List FVal) : FVal :=
  if l.any FVal.isNan then .nan
  else
    let hasPos := l.any (· == .inf false)
    let hasNeg := l.any (· == .inf true)
    if hasPos && hasNeg then .nan
    else if hasPos then .inf false
    else if hasNeg then .inf true
    else
      let es := l.filterMap FVal.expOf
      let e0 := es.foldl min (es.headD 0)
      let t := l.foldl (fun (acc : Int) v => acc + v.at e0) 0
      if t = 0 then
        if l.all fun v => v.isZero && v.isNeg then .fin (!l.isEmpty) 0 0
        else if l.all fun v => v.isZero && !v.isNeg then .fin false 0 0
        else .fin (mode == .rd) 0 0
      else .fin (decide (t < 0)) t.natAbs e0

/-- Exact comparison of two values that are not NaN: −1, 0 or 1; zeros compare equal. -/
def FVal.cmp (a b : FVal) : Int :=
  match a, b with
  | .inf s, .inf t => if s = t then 0 else if s then -1 else 1
  | .inf s, _ => if s then -1 else 1
  | _, .inf t => if t then 1 else -1
  | _, _ =>
    let ea := a.expOf.getD 0
    let eb := b.expOf.getD 0
    let e0 := min ea eb
    let d := a.at e0 - b.at e0
    if d < 0 then -1 else if d > 0 then 1 else 0

/-- minimumNumber and maximumNumber (R190): a single NaN is dropped, −0 orders below +0. -/
def FVal.minNum (a b : FVal) : FVal :=
  if a.isNan then b else if b.isNan then a
  else if a.cmp b < 0 then a else if a.cmp b > 0 then b else if a.isNeg then a else b
def FVal.maxNum (a b : FVal) : FVal :=
  if a.isNan then b else if b.isNan then a
  else if a.cmp b > 0 then a else if a.cmp b < 0 then b else if a.isNeg then b else a

/-! ## FP32 -/

def f32 (x : Word) : FVal := paramsF32.decode x.toNat
def roundF32 (mode : RMode) (sat : Bool) (v : FVal) : Word := BitVec.ofNat 32 (paramsF32.round mode sat v)
def f32Nan : Word := 0x7FC00000

def f32Add (mode : RMode) (sat : Bool) (a b : Word) : Word := roundF32 mode sat (FVal.sum mode [f32 a, f32 b])
def f32Mul (mode : RMode) (sat : Bool) (a b : Word) : Word := roundF32 mode sat ((f32 a).mul (f32 b))
def f32Fma (mode : RMode) (sat : Bool) (a b c : Word) : Word :=
  roundF32 mode sat (FVal.sum mode [(f32 a).mul (f32 b), f32 c])
def f32Min (a b : Word) : Word := roundF32 .rne false ((f32 a).minNum (f32 b))
def f32Max (a b : Word) : Word := roundF32 .rne false ((f32 a).maxNum (f32 b))
def f32IsNan (a : Word) : Bool := (f32 a).isNan
def f32Lt (a b : Word) : Bool := !f32IsNan a && !f32IsNan b && decide ((f32 a).cmp (f32 b) < 0)

/-- Rounding to an integral value in FP32 (R404). -/
def f32Rnd (mode : RMode) (a : Word) : Word :=
  match f32 a with
  | .nan => f32Nan
  | .inf _ => a
  | .fin neg m e =>
    if e ≥ 0 then a
    else
      let n := roundShift mode neg m (-e).toNat
      roundF32 .rne false (.fin neg n 0)

/-- Source modifiers: ABS first, then NEG (R400). -/
def srcMod (s : SrcMod) (x : Word) : Word :=
  let y := if s.abs then x &&& 0x7FFFFFFF#32 else x
  if s.neg then y ^^^ 0x80000000#32 else y

/-! ## Any format -/

/-- The exact value of an element of `width` bits held in `x` (R187, R194); `u` reads integers unsigned. -/
def fmtValue (f : Fmt) (u : Bool) (x : Nat) : FVal :=
  if fmtIsFloat f then (fmtParams f).decode x
  else
    let w := fmtWidth f
    let y := x % 2 ^ w
    if !u && 2 ^ (w - 1) ≤ y then .fin true (2 ^ w - y) 0 else .fin false y 0

/-- The pattern of a converted element (R198): `Round` with `.SAT`, or rounding to an integer with saturation (R193). -/
def fmtConvert (f : Fmt) (mode : RMode) (sat u : Bool) (v : FVal) : Nat :=
  if fmtIsFloat f then (fmtParams f).round mode sat v
  else
    let w := fmtWidth f
    let (lo, hi) : Int × Int := if u then (0, 2 ^ w - 1) else (-(2 ^ (w - 1)), 2 ^ (w - 1) - 1)
    ((v.toInt mode lo hi) % (2 ^ w)).toNat

/-- Element `j` of width `w` in a packed number (R186). -/
def elemAt (w j x : Nat) : Nat := (x >>> (w * j)) % 2 ^ w

/-- A word packed from elements of width `w`, element 0 lowest. -/
def packElems (w : Nat) (l : List Nat) : Nat := l.foldr (fun x acc => x % 2 ^ w + acc * 2 ^ w) 0

end Sys2Proof.Machine
end

