-- ==== Sys2Proof/Machine/State.lean ====
section
/-! DEFINITION. The state of the module: every piece of state the spec names, as plain data, and the machine right
after reset. Tables (`Tab`) list what was written; each field says what an unlisted key stands for. -/

namespace Sys2Proof.Machine

/-- Why a step stops. -/
inductive Fault where
  /-- `exec` was called on an instruction form while no warp is issuing (`Mach.issue = none`): the model's own stop,
  raised by every meaning of an encoded instruction. Safe: `step` never raises it. -/
  | noIssuer
  deriving DecidableEq, Repr

/-- What has no meaning. -/
inductive Refusal where
  /-- An instruction that has no meaning yet. Raised by the arms of `exec`; safe. -/
  | notModelled (mnemonic : String)
  deriving DecidableEq, Repr

/-! ## Registers and lanes -/

/-- A 32-bit register with its origin tag (R83, R300). -/
structure Reg where
  val : Word
  tag : Mask
  deriving DecidableEq, Repr

/-- A predicate: four bits with its origin tag (R83). -/
structure Pred where
  val : BitVec 4
  tag : Mask
  deriving DecidableEq, Repr

/-- A program counter (R38). -/
structure Pc where
  clause : BitVec 48
  index  : Nat
  deriving DecidableEq, Repr

/-- The causes of a stop (R277), with the DETAIL of those that have one. -/
inductive Cause where
  | fetch (d : Nat) | illClause | illInstr (d : Nat) | illOpnd (pos : Nat) | illScope
  | stallShort (code : BitVec 8) | scopeMm (d : Nat) | trap (code : BitVec 8) | pundef (opc : Nat)
  | spRange | cwin | misalign | mtype | xlate (d : Nat) | perm | tag | data
  deriving DecidableEq, Repr

/-- A lane's fault record (R282). -/
structure FaultRec where
  cause : Cause
  scope : Scope
  lane  : Nat
  warp  : Nat
  index : Nat
  block : Nat
  pc    : BitVec 48
  core  : Nat
  widx  : Nat
  coal  : Bool
  addr  : BitVec 48
  bslot : Nat
  amask : LaneMask
  size  : Nat
  write : Bool
  /-- The cycle of parking, by which records of one lane are ordered (R282). -/
  time  : Nat
  deriving DecidableEq, Repr

/-- Where a barrier object lies (R378, R381). -/
inductive Place where
  | dev (pa : Nat) | host (a : Nat) | peer (modid pa : Nat) | spad (bid a : Nat)
  deriving DecidableEq, Repr

/-- What a waiting lane waits for (R41). -/
inductive Wait where
  /-- At a WJOIN (R46). -/
  | join
  /-- In rendezvous slot `slot` of its block: 0 to 3 the gangs, 4 the block (R73). -/
  | rendezvous (slot : Nat)
  /-- In BWAIT for the object to leave phase `token` (R380); `ext` when the object is marked external, `tags` the mask that
  F receives, `id` the instruction. -/
  | barrier (at_ : Place) (token : BitVec 7) (tags : Mask) (ext : Bool) (id : Nat)
  /-- In a refused SPAWN (R55). -/
  | spawn
  /-- In a waiting TALLOC (R207). -/
  | talloc
  deriving DecidableEq, Repr

/-- The state of a lane (R41). Suspension is the warp's (`Warp.suspended`). A parked lane without a record was parked
with the element set of a warp-scope instruction (R276). -/
inductive LaneState where
  | ready
  | waiting (w : Wait)
  | parked (r : Option FaultRec)
  | exited
  deriving DecidableEq, Repr

/-- One lane. Unlisted `v` read zero with an empty tag, and so do unlisted `p` (R53). -/
structure Lane where
  st      : LaneState
  pc      : Pc
  /-- The clause as it was fetched at entry (R339); empty before the entry. -/
  code    : List Word
  v       : Tab Reg
  p       : Tab Pred
  /-- On-chip return stack, newest first (R49). -/
  rstack  : List (BitVec 48)
  /-- Spill count k (R50). -/
  spill   : Nat
  /-- Program stamp (R113). -/
  pts     : Nat
  /-- The cycle at which the lane last became ready or issued (R43). -/
  ageBase : Nat
  /-- Greatest application stamp of posted presses not yet covered by a fence (R131); 0 for none. -/
  posted  : Nat
  deriving DecidableEq, Repr

/-- A register of a warp. -/
inductive RegName where
  | v (lane n : Nat)
  | p (lane n : Nat)
  | s (n : Nat)
  deriving DecidableEq, Repr

/-- A register write that has not taken effect (R350, R351): the value the register held before. -/
structure Pend where
  id   : Nat
  reg  : RegName
  old  : Reg
  /-- No later instruction has written the register (R354). -/
  live : Bool
  deriving DecidableEq, Repr

/-- An instruction in flight (R351, R352): the write slot it named, and the cycle of its completion when that is fixed. -/
structure Flight where
  id   : Nat
  slot : Option Nat
  due  : Option Nat
  /-- Its last result is written; it completes with the next LATENCY_V_RESULT naming it. An engine command or a fence
  in flight is not ready until the command or the wait ends. -/
  done : Bool
  deriving DecidableEq, Repr

/-- An outstanding FENCE (R411). -/
structure Fence where
  kind   : FenceKind
  lanes  : LaneMask
  flight : Nat
  dst    : Operand
  scope  : Scope
  /-- The mask of each active lane's result. -/
  tags   : List (Nat × Mask)
  /-- The commands of this warp that a `FENCE.ENGINE` waits for, and the posted stores that a `FENCE.SYS` waits for. -/
  waits  : List Nat
  deriving DecidableEq, Repr

/-- One spawn record on its way (R55). -/
structure SpawnRec where
  entry : BitVec 48
  key   : BitVec 16
  args  : List Word
  tag   : Mask
  pts   : Nat
  lane  : Nat
  deriving DecidableEq, Repr

/-- An outstanding SPAWN: the records of the lanes that have not filed (R55). -/
structure SpawnWait where
  recs   : List SpawnRec
  flight : Option Nat
  next   : Pc
  /-- Bins this instruction opened (R56, second paragraph). -/
  opened : List Nat
  deriving DecidableEq, Repr

/-- What the current issue knows of its instruction. -/
structure Issue where
  bid    : Nat
  warp   : Nat
  lanes  : LaneMask
  pc     : Pc
  widx   : Nat
  /-- Header fields of the clause (R337) and the address that follows the clause (R39). -/
  ninstr : Nat
  yield  : Bool
  next   : BitVec 48
  deriving DecidableEq, Repr

/-- What keeps a warp from issuing until it ends; not a lane state (R41). -/
inductive Blocker where
  /-- A load of a damp line that waits for wrings (R148). -/
  | wrung (id : Nat)
  /-- PRESSR requests whose results are owed (R112). -/
  | replies (ids : List Nat)
  deriving DecidableEq, Repr

/-- One warp. Unlisted `s` read zero with an empty tag. -/
structure Warp where
  lanes     : List Lane
  s         : Tab Reg
  /-- ws0 to ws5 (R351). -/
  ws        : List Nat
  /-- Flow mask F and exit mask E (R303). -/
  flow      : Mask
  exitm     : Mask
  /-- The chosen program-counter group (R42); zero before a selection. -/
  group     : LaneMask
  /-- First cycle at which the warp may issue again (R349). -/
  stall     : Nat
  /-- The cycle of its last issue, or of its placement (R262). -/
  lastIssue : Nat
  /-- First cycle at which the yield hint lets it issue while others can (R264). -/
  hintUntil : Nat
  /-- By write slot: the greatest completion stamp of an ACQ matrix command that named it (R218). -/
  slotAcq   : Tab Nat
  pend      : List Pend
  flights   : List Flight
  block     : Option Blocker
  fence     : Option Fence
  spawns    : List SpawnWait
  /-- `CSRW` instructions that have not completed (R393): number, CSR, value. -/
  csrw      : List (Nat × Nat × Word)
  suspended : Bool
  /-- The cycle at which the first lane parked (R278). -/
  parkedAt  : Option Nat
  /-- Warp slot on the core (R261). -/
  slot      : Nat
  /-- The brood slot of a brood warp (R58). -/
  brood     : Option Nat
  deriving DecidableEq, Repr

/-! ## Blocks -/

/-- A rendezvous slot (R72): idle is no slot. `arrived` holds the arrival masks of the members that have arrived, and
`groups` every lane of the groups that arrived in each member (R69). -/
structure Slot where
  executing : Bool
  clause    : BitVec 48
  widx      : Nat
  instr     : Instr
  issue     : Issue
  arrived   : Tab LaneMask
  groups    : Tab LaneMask
  /-- The scalars of each member as they stood at its arrival (R354). -/
  scal      : Tab (Tab Reg)
  /-- Each member's writes that were pending at its arrival (R354, R356); emptied when a held slot resumes. -/
  pend      : Tab (List Pend)
  /-- The cycle at which the instruction starts, once every member has arrived (R74). -/
  start     : Option Nat
  /-- The set is suspended with this slot executing (R80). -/
  held      : Bool
  /-- The execution under way: its instruction number, and the first cycle at which it can have completed (R72, R74). -/
  running   : Option (Nat × Nat)
  deriving DecidableEq, Repr

/-- Write stamp and lease end (R113). -/
structure Stamps where
  wts : Nat
  rts : Nat
  deriving DecidableEq, Repr

/-- Type of an accumulator tile (R205). -/
inductive TileType where
  | fp32 | int32 | either
  deriving DecidableEq, Repr

/-- An accumulator tile that is bound or being released (R205, R210). Unlisted words read zero; word 64 i + j is (i, j). -/
structure Tile where
  words : Tab Word
  type  : TileType
  valid : Bool
  tag   : Mask
  owner : Nat
  /-- A TFREE waits for the commands with these numbers (R210); its flights, by warp. -/
  free  : Option (List Nat × List (Nat × Nat))
  deriving DecidableEq, Repr

/-- The drain bypass (R227): element i, j at 64 i + j as a bit pattern of `fmt`. -/
structure Bypass where
  fmt   : Fmt
  words : Tab Word
  tag   : Mask
  owner : Nat
  deriving DecidableEq, Repr

/-- What an engine command does: its 64-byte block for MMA and the copy channels, the operands of a TDRAIN. -/
inductive EngineOp where
  | mma (block : BitVec 512) (blockTag : Mask)
  | drain (m : DrainMods) (dest stride : Nat)
  | copy (block : BitVec 512) (blockTag : Mask) (tier : Bool)
  deriving DecidableEq, Repr

/-- A command of a matrix queue or a copy channel (R211, R230). -/
structure Command where
  id     : Nat
  bid    : Nat
  warp   : Nat
  op     : EngineOp
  /-- The parameter or command block's scratchpad address (R223, R238). -/
  addr   : Nat
  /-- The tile taken at issue and the handle that named it (R211). -/
  tile   : Nat
  handle : Nat
  /-- The R69 masks of the issuing warp. -/
  tags   : Mask
  /-- The flight of the issuing instruction, which ends with the command. -/
  flight : Option Nat
  /-- Commands and presses that REL = 1 waits for (R126); earlier commands of the warp under `FENCE.ENGINE` (R132). -/
  waits  : List Nat
  /-- Progress: panel and row of a matrix command, or the stream offset not yet delivered and bytes counted (R221, R238). -/
  panel  : Nat
  row    : Nat
  offset : Nat
  begun  : Bool
  /-- Paused on translation of this address (R222, R238). -/
  fwait  : Option (BitVec 48)
  /-- Every row or byte is done; completion is owed. -/
  ready  : Bool
  /-- Greatest stamp of its writes (R126). -/
  stamp  : Nat
  deriving DecidableEq, Repr

/-- A waiting TALLOC (R207). -/
structure TileReq where
  bid    : Nat
  warp   : Nat
  n      : Nat
  dst    : Operand
  tags   : Mask
  /-- Every member warp with its waiting lanes and flight. -/
  lanes  : List (Nat × LaneMask × Option Nat)
  id     : Nat
  deriving DecidableEq, Repr

/-- A spawn bin that is not free (R54). -/
structure Bin where
  bid      : Nat
  entry    : BitVec 48
  key      : BitVec 16
  recs     : List SpawnRec
  opened   : Nat
  openedNo : Nat
  deadline : Option Nat
  /-- The cycle at which it ripened (R56). -/
  ripe     : Option Nat
  deriving DecidableEq, Repr

/-- One block (R36, R86). A retired block of a group whose scratchpad is still allocated is kept with `retired` (R95). -/
structure Block where
  launch    : Nat
  ctx       : Nat
  index     : Nat
  rank      : Nat
  /-- The block numbers of its cluster group, by rank. -/
  peers     : List Nat
  core      : Nat
  bslot     : Nat
  base      : Nat
  tlslot    : Nat
  resident  : Bool
  retired   : Bool
  warps     : Tab Warp
  spad      : Mem
  /-- Size S in bytes (R88). -/
  spadSize  : Nat
  /-- By 64-byte scratchpad block; unlisted: empty tag, the launch's start stamp, no poison. -/
  spadTags  : Tab Mask
  spadStamp : Tab Stamps
  spadBad   : List Nat
  start     : Nat
  /-- Bound handles: the tile of the core, or of `savedTiles`. -/
  handles   : Tab Nat
  slots     : Tab Slot
  /-- Commands removed and kept (R222, R238): matrix commands in order, and channel commands with their channel. -/
  keptMx    : List Command
  keptCh    : List (Nat × Command)
  savedTiles : Tab Tile
  savedByp  : Option Bypass
  /-- Bins of a saved block, each with its remaining time for a deadline (R57), and its waiting tile requests (R209). -/
  savedBins : List Bin
  savedReqs : List TileReq
  placedAt  : Nat
  /-- The saved state is sealed under the key of this world (R319); none while the block is on its core, or has no world. -/
  sealedIn  : Option Nat
  deriving DecidableEq, Repr

/-! ## Cores, clusters and holders -/

/-- A copy channel number of a context on a core (R231): its commands, the executing one first. -/
structure Chan where
  cmds : List Command
  deriving DecidableEq, Repr

/-- A copy of a line in an L1 (R113). -/
structure L1Copy where
  value : BitVec 1024
  wts   : Nat
  rts   : Nat
  /-- The page through which it was taken: none for an unsealed one, the world of a sealed one (R315, R316). -/
  view  : Option (Option Nat)
  deriving DecidableEq, Repr

/-- A completion stamp that an advance of `CH.WPTR` took under ACQ = 1, for observers in its scope (R126, R127). -/
structure WptrAcq where
  bid   : Nat
  scp   : Nat
  stamp : Nat
  deriving DecidableEq, Repr

/-- One core. -/
structure Core where
  /-- The split in effect (R99); none while the core is empty. -/
  split  : Option Nat
  tiles  : Tab Tile
  tileQ  : List TileReq
  mq     : List Command
  bypass : Option Bypass
  /-- By 8 · context + channel number. -/
  chans  : Tab Chan
  wptr   : Tab (BitVec 64)
  wacq   : Tab (List WptrAcq)
  /-- COPY.KICK (R232): written by CKICK and TIER, never read. -/
  kick   : Word
  l1     : Tab L1Copy
  bins   : Tab Bin
  /-- The cycle of the last stamp tick (R115); none before the first, whose phase is the core's own. -/
  ticked : Option Nat
  /-- By scheduler: the cycle in which it last issued (R262); unlisted, none yet. -/
  issued : Tab Nat
  deriving DecidableEq, Repr

/-- Who a press request answers to: the lane and its warp, or nobody. -/
structure PressLane where
  bid    : Nat
  warp   : Nat
  lane   : Nat
  deriving DecidableEq, Repr

/-- What a `PRESSR` is owed (R458): its destination, the stamp option, the mask, the instruction and the lanes written. -/
structure PressReply where
  bid   : Nat
  warp  : Nat
  lanes : LaneMask
  dst   : Operand
  stamp : Bool
  tag   : Mask
  id    : Nat
  /-- The instruction's issue and its clause, by which a lane parks when no answer comes (R325). -/
  issue : Issue
  code  : List Word
  scope : Scope
  deriving DecidableEq, Repr

/-- The outcome of an application: its stamp, the returned value, the status code of R458. -/
structure PressResult where
  stamp  : Nat
  ret    : BitVec 64
  status : Nat
  deriving DecidableEq, Repr

/-- A press request or batch (R155, R172). -/
structure PressReq where
  id      : Nat
  ctx     : Nat
  opc     : Nat
  image   : PressImage
  granule : Nat
  /-- The virtual address that the request named; 0 for one from outside. -/
  va      : Nat
  /-- Target module of a `.SYS` request, or none for this module; the module that asked, for a request from outside (R156). -/
  target  : Option Nat
  remote  : Option Nat
  /-- The combined operand (R170), and for FP32 additions the words of every request, so that their sum is exact. -/
  opnd    : List Word
  parts   : List (List Word)
  /-- Requests merged in it: their numbers, how many, the lanes that made them, and their cores. -/
  ids     : List Nat
  count   : Nat
  lanes   : List PressLane
  cores   : List Nat
  pts     : Nat
  reply   : Option PressReply
  /-- Cluster unit that still holds it as a combining entry, with the cycle it was taken (R172). -/
  comb    : Option (Nat × Nat)
  /-- The fast tier holds the granule; the page's view (R315); the granule is damp, and damp holders drain first (R141). -/
  fast    : Bool
  world   : Option (Option Nat)
  damp    : Bool
  wring   : Bool
  /-- To be applied at the channel (R154), decided at its arrival. -/
  chan    : Bool
  /-- Applied at the channel, the acknowledgement owed (R174). -/
  done    : Option PressResult
  /-- An unheld update of a damp line, applied at the home slice whatever the site (R140, R141, R143). -/
  home    : Bool
  /-- The handle under which another module waits for the value of its `PRESSR` (R156). -/
  wants   : Option Word
  /-- The first read of its granule will fail in transfer (R175): an input from outside. -/
  glitch  : Bool
  deriving DecidableEq, Repr

/-- A damp tracker (R142). The holder index of core c's L1 is c, of cluster unit k 1024 + k (R140). -/
structure Tracker where
  holder  : Nat
  line    : Nat
  vline   : Nat
  region  : Nat
  ctx     : Nat
  share   : Word
  /-- Held magnitude: FP32 bits, or the exact integer. -/
  mag     : Nat
  acc     : Tab Word
  tag     : Mask
  age     : Nat
  updated : Nat
  /-- The page's view of the line (R315). -/
  view    : Option (Option Nat)
  deriving DecidableEq, Repr

/-- A drain on its way home (R145). -/
structure Drain where
  id     : Nat
  holder : Nat
  line   : Nat
  ctx    : Nat
  int    : Bool
  share  : Word
  acc    : Tab Word
  view   : Option (Option Nat)
  deriving DecidableEq, Repr

/-- An entry of the share directory (R144). -/
structure Share where
  line   : Nat
  holder : Nat
  share  : Word
  int    : Bool
  deriving DecidableEq, Repr

/-- A load that waits for wrings (R148): the lines marked, the holders whose drains it waits for, and its instruction. -/
structure Wrung where
  id    : Nat
  issue : Issue
  instr : Instr
  wait  : List (Nat × Nat)
  /-- The lines that it marked as awaiting a wring. -/
  lines : List Nat
  /-- The rendezvous slot that executes it, at set-wide scope. -/
  slot  : Option Nat
  deriving DecidableEq, Repr

/-- A posted store to host or another module's memory (R129), with the lanes that made it; none for a write of the part's own. -/
structure Posted where
  id    : Nat
  lanes : List PressLane
  ctx   : Nat
  at_   : Place
  va    : BitVec 48
  bytes : List Byte
  /-- It is the completion word of this launch (queue, sequence), whose DONE waits for it (R255). -/
  after : Option (Nat × Nat)
  deriving DecidableEq, Repr

/-! ## Memory -/

/-- What a leaf entry says (R289). `log` is the log2 of the page size and `frame` the physical address of its first byte. -/
structure Leaf where
  w     : Bool
  x     : Bool
  damp  : Bool
  sealed : Bool
  tier  : Nat
  log   : Nat
  frame : Nat
  tag   : Mask
  /-- The physical address of its entry, for tier moves (R240). -/
  entry : Nat
  deriving DecidableEq, Repr

/-- A TLB copy of one page (R290): of core c (key c), matrix unit c (1024 + c), cluster unit k (2048 + k), cache die d (4096 + d);
`region` is the first 64 KiB region of the page. -/
structure TlbEntry where
  loc    : Nat
  ctx    : Nat
  region : Nat
  leaf   : Leaf
  deriving DecidableEq, Repr

/-- Side band of a sealed line (R316). While `mac` holds, memory keeps the plaintext of the line, sealed under `key`. Once the
MAC fails, `fresh` marks the bytes that the line's own world has written again (log 36). -/
structure Side where
  world   : Nat
  version : Nat
  mac     : Bool
  key     : BitVec 256
  fresh   : BitVec 128
  deriving DecidableEq, Repr

/-- A line resident in its home slice (R101, R104): the device that allocated it, whether it is dirty, its way, and the moment
of its last use (0 for one inserted as the next victim). -/
structure Resident where
  dev   : Nat
  dirty : Bool
  way   : Nat
  used  : Nat
  deriving DecidableEq, Repr

/-! ## Contexts and launches -/

/-- State of a context (R265). -/
inductive CtxRun where
  | running | draining | switchedOut
  deriving DecidableEq, Repr

/-- State of a press-table entry (R157); empty is no entry. -/
structure PressEntry where
  image    : PressImage
  tag      : Mask
  dropping : Bool
  /-- `PDROP` instructions in flight that end with the drop: block, warp, number (R453). -/
  waiters  : List (Nat × Nat × Nat)
  deriving DecidableEq, Repr

/-- An active damp region (R136, R138), with the launches that declared it. -/
structure Region where
  id      : Nat
  base    : Nat
  len     : Nat
  limit   : Word
  frac    : Nat
  int     : Bool
  holders : List Nat
  deriving DecidableEq, Repr

/-- A party slot or entry (R297): its 128 bytes as one number. -/
abbrev Party := BitVec 1024

/-- A record of the budget table (R311). -/
structure Budget where
  pid    : BitVec 64
  digest : BitVec 256
  bytes  : Nat
  deriving DecidableEq, Repr

/-- A hold (R279): its blocks and warps, and whether its entry was written in full. -/
structure Hold where
  num     : BitVec 16
  unit    : Scope
  bid     : Nat
  warps   : List Nat
  written : Bool
  /-- Begun by an engine error, which took the block's commands out of their queues (R222, R238). -/
  engine  : Bool
  deriving DecidableEq, Repr

/-- A fault-queue entry that is not written (R280, R283). -/
structure FqEntry where
  kind  : Nat
  info0 : BitVec 64
  info1 : BitVec 64
  info2 : BitVec 64
  /-- Records of 32 bytes. -/
  recs  : List (BitVec 256)
  /-- Parts already written (R283). -/
  parts : Nat
  /-- The hold, or the command, that is released once it is written. -/
  hold  : Option (BitVec 16)
  /-- The 64 KiB region of an XLATE entry. -/
  region : Option Nat
  /-- The launch (queue, sequence) whose DONE waits for the entry (R255). -/
  after : Option (Nat × Nat)
  deriving DecidableEq, Repr

/-- A world of a sealed launch (R314). -/
structure World where
  number : Nat
  key    : BitVec 256
  launch : Nat
  /-- The saved key can still be unwrapped (R319, R335). -/
  valid  : Bool
  deriving DecidableEq, Repr

/-- A TLB invalidation in progress (R291): the regions named, and the drains it waits for. -/
structure Inval where
  first  : Nat
  count  : Nat
  all    : Bool
  drains : List Nat
  deriving DecidableEq, Repr

/-- A context: its registers of R284 and R285, its tables, its state. -/
structure Ctx where
  run      : CtxRun
  binTimer : BitVec 18
  spadSet  : BitVec 4
  clamp    : Bool
  wdogInt  : Word
  wdogExt  : Word
  check    : Bool
  ptEn     : Bool
  ptRoot   : Nat
  fqLog    : BitVec 4
  fqHost   : Bool
  fqEn     : Bool
  fqBase   : Nat
  fqProd   : Word
  fqCons   : Word
  fqOvf    : Bool
  fqDrop   : Nat
  fqNote   : BitVec 22
  logLog   : BitVec 4
  logHost  : Bool
  logEn    : Bool
  logBase  : Nat
  logProd  : Word
  logCons  : Word
  /-- The log's own count of bytes of the ring already passed, and whether LOGHIGH was written (R293, R294). -/
  logHigh  : Bool
  /-- Arrivals refused to each sender that wait there (R294), oldest first, with the cycle of the retry. -/
  refused  : List (Nat × Nat × Arrival)
  /-- Appended arrivals that are not replayed, in order (their memory image is in the log). -/
  arrivals : List Arrival
  tlsLog   : BitVec 5
  tlsBase  : Nat
  /-- CTX.PEERn: MODID and EN (R326); unlisted: 0, not in use. -/
  peers    : Tab (BitVec 13)
  fq       : List FqEntry
  fqSeq    : Nat
  holds    : List Hold
  holdNo   : Nat
  unresolved : List Nat
  /-- Unresolved regions of which an entry has been written in full (R286). -/
  reported : List Nat
  inval    : Option Inval
  press    : Tab PressEntry
  regions  : List Region
  parties  : Tab Party
  budgets  : List Budget
  world    : Option World
  /-- Frames of the fast and the capacity pool: address and log2 of the size (R240). -/
  poolFast : List PoolFrame
  poolCap  : List PoolFrame
  /-- Deadline timer of a switch (R267): the reference tick of its expiry. -/
  deadline : Option Nat
  /-- Since when the stuck condition holds, in reference ticks, internal and external (R270, R271). -/
  stuckInt : Option Nat
  stuckExt : Option Nat
  deriving DecidableEq, Repr

/-- A dependence of a record (R252). -/
structure Dep where
  kind : Nat
  obj  : BitVec 48
  val  : Word
  met  : Bool
  /-- The first failed read of its barrier object was reported (R256). -/
  told : Bool
  deriving DecidableEq, Repr

/-- A launch record as read (R250). -/
structure LaunchRec where
  entry   : BitVec 48
  prio    : Nat
  fmode   : Nat
  grid    : Nat
  warps   : Nat
  brood   : Nat
  csize   : Nat
  regs    : Nat
  tguar   : Nat
  tmax    : Nat
  spill   : Nat
  scratch : Nat
  gangs   : List LaneMask
  args    : BitVec 48
  argtag  : Mask
  pimg    : BitVec 48
  npimg   : Nat
  dampt   : BitVec 48
  ndamp   : Nat
  partyt  : BitVec 48
  nparty  : Nat
  keyh    : Word
  deadl   : Nat
  deps    : List Dep
  cpla    : BitVec 48
  deriving DecidableEq, Repr

/-- Memory as code stands in it at a launch's start stamp (R128). -/
structure CodeImage where
  mem   : Mem
  side  : Tab Side
  scrub : List Nat
  deriving DecidableEq, Repr

/-- A launch that was read and has not completed (R256). -/
structure Launch where
  rec_     : LaunchRec
  queue    : Nat
  seq      : Nat
  ctx      : Nat
  /-- Dispatch order; none while pending. -/
  order    : Option Nat
  start    : Nat
  /-- Its code as it stood at its start stamp (R128); none while pending. -/
  code     : Option CodeImage
  next     : Nat
  retired  : Nat
  /-- Trust ranges of its party table (R296). -/
  trust    : List (Nat × Nat)
  world    : Option Nat
  /-- Since when it has an unplaced block with no higher launch waiting, in reference ticks; blocking (R260). -/
  waitFrom : Option Nat
  blocking : Bool
  deriving DecidableEq, Repr

/-- State of a launch queue (R247): active and idle are told apart by HEAD and TAIL. -/
inductive QueueState where
  | disabled | enabled | faulted
  deriving DecidableEq, Repr

/-- A launch queue (R244 to R249). -/
structure Queue where
  fn     : Nat
  ctx    : Option Nat
  base   : Nat
  log2n  : Nat
  host   : Bool
  en     : Bool
  tail   : BitVec 16
  head   : BitVec 16
  state  : QueueState
  fcause : Nat
  done   : Word
  rd     : Word
  /-- Sequence numbers of completed launches beyond DONE. -/
  beyond : List Nat
  /-- Woken and not yet idle again (R246). -/
  woken  : Bool
  deriving DecidableEq, Repr

/-- Resources that a retirement freed and that are still being offered (R259): the cores, the launch, its priority. -/
structure Offer where
  cores  : List Nat
  launch : Nat
  prio   : Nat
  deriving DecidableEq, Repr

/-- A request in the release gate's queue (R313). -/
structure GateReq where
  id     : Nat
  bid    : Nat
  warp   : Nat
  ctx    : Nat
  launch : Nat
  /-- The release block and its scratchpad tag (R309). -/
  block  : BitVec 512
  blockTag : Mask
  tags   : Mask
  dst    : Operand
  flight : Nat
  waits  : List Nat
  deriving DecidableEq, Repr

/-! ## The machine and its management -/

/-- What leaves the module other than memory writes: vectors of a function (R284, R329), the wake register of the
management core (R474), IDE event vectors (R322), what goes back to a request from outside: of another module's press
its value, status and stamp (R156), of a memory request whether it was accepted and the bytes read (R308). -/
inductive Signal where
  | msix (fn vec : Nat)
  | manager
  | ide (fn : Nat)
  | pressReply (modid : Nat) (handle : Option Word) (ret : BitVec 64) (status stamp : Nat)
  | hostReply (fn : Nat) (ok : Bool) (data : List Byte)
  | peerReply (modid : Nat) (ok : Bool) (data : List Byte)
  deriving DecidableEq, Repr

/-- An IDE stream (R320, R322): its function, the invocation counter, the reference tick at which it reached its limit with no
new key set selected, whether it is Insecure, whether it has warned, whether a key set is selected. -/
structure Ide where
  fn       : Nat
  counter  : Nat
  limitAt  : Option Nat
  insecure : Bool
  warned   : Bool
  keys     : Bool
  deriving DecidableEq, Repr

/-- Everything an instruction or an agent of the part works on, but for the management state of `Mgmt`. -/
structure Mach where
  cycle    : Nat
  /-- Periods of the 100 MHz reference clock since power-up, by which every timer of R20 counts. -/
  time     : Nat
  /-- CLK.REF TICKS (R392), the remainder of its division, and the core clock in MHz (R19, R22). -/
  refTicks : BitVec 64
  refRem   : Nat
  mhz      : Nat
  mem      : Mem
  hostMem  : Mem
  peerMem  : Tab Mem
  /-- Poisoned 32-byte units of other modules' memory (R156, R175), and whether the host answers AtomicOps with Unsupported Request
  (R120): as the outside has them. -/
  peerBad  : Tab (List Nat)
  hostUr   : Bool
  /-- The last stamp that another module returned for a line of it (R119), by 2^41 · module + line. -/
  farLast  : Tab Nat
  /-- The stamp of the last posted write of a requester from outside (R130): function f at f, module k at 4096 + k. -/
  outPts   : Tab Nat
  /-- By line: the stamp of the last write from outside (R128). -/
  outside  : Tab Nat
  /-- What PRESSRs are owed, by the number of the request, which is its reply handle (R293, R458). -/
  owed     : Tab PressReply
  /-- Corrected errors (R175). -/
  corrected : Nat
  /-- By line (address div 128); unlisted: 0, 0 (R113). -/
  stamps   : Tab Stamps
  /-- Poisoned 32-byte units of device memory (R506). -/
  bad      : List Nat
  lines    : Tab Resident
  /-- Requests to L2 so far, by which uses are ordered (R104). -/
  l2Uses   : Nat
  /-- Shadow tags of the utility monitor (R107): by 2^22 · device + 2048 · slice + set, lines by recency; and its counts, by
  32 · device + depth at which a line was found. -/
  shadow   : Tab (List Nat)
  hits     : Tab Nat
  /-- Lines held by a channel application (R174). -/
  heldBy   : Tab Nat
  /-- Claimed lines and their cluster units (R122). -/
  claims   : Tab Nat
  side     : Tab Side
  /-- Granules of 2 MiB that are not cleared yet (R324). -/
  scrub    : List Nat
  posted   : List Posted
  /-- A checkpoint has read the whole fast tier (R125): its unlisted lines have the stamps of that read. -/
  swept    : Bool
  maxStamp : Nat
  tlb      : List TlbEntry
  ctxs     : Tab Ctx
  cores    : Tab Core
  blocks   : Tab Block
  launches : Tab Launch
  queues   : Tab Queue
  /-- Dispatch order counter (R256). -/
  orders   : Nat
  offers   : List Offer
  trackers : List Tracker
  shares   : List Share
  drains   : List Drain
  wrung    : List Wrung
  presses  : List PressReq
  gate     : List GateReq
  /-- Cluster sets by function (R257). -/
  clusters : Tab (List Nat)
  signals  : List Signal
  /-- By stream; `linkStream` is link IDE (R320). -/
  ide      : Tab Ide
  /-- Completions held with their function's stream, in order (R322). -/
  heldReplies : List (Nat × Signal)
  /-- Functions whose DMA has stopped, their TDI being in ERROR (R323). -/
  dmaOff   : List Nat
  /-- Modules that have been unreachable for 10 ms (R325). -/
  unreach  : List Nat
  /-- Ranges of host addresses that belong to PCIe peers (R307, R310), by base and length: as the outside has them (log 16). -/
  busPeers : List (Nat × Nat)
  /-- The model's own: an access of the execution under way meets a stream that is held (R322), so that it waits. -/
  stalled  : Bool
  /-- The model's own: the issue being executed, the next free value, the next number of a request. -/
  issue    : Option Issue
  free     : Nat
  ids      : Nat
  deriving DecidableEq, Repr

/-- A virtual device's L2 masks, policies and quotas (R103). -/
structure L2Dev where
  masks : BitVec 64
  rdpol : BitVec 2
  wrpol : BitVec 2
  atpol : BitVec 2
  qmin  : Nat
  qinit : Nat
  qnow  : Nat
  umen  : Bool
  deriving DecidableEq, Repr

/-- TDI states (R323). -/
inductive Tdi where
  | unlocked | locked | run | error
  deriving DecidableEq, Repr

/-- A function (R320 to R324, R332). -/
structure Fn where
  expert   : Bool
  apBase   : BitVec 48
  apCtx    : Option Nat
  tdi      : Tdi
  digest   : BitVec 256
  /-- The reference tick of the lock or of the audit walker's last walk (R323). -/
  audit    : Nat
  gen      : BitVec 4
  resetting : Bool
  session  : Bool
  /-- Mailbox (R329 to R331): the SEQ expected next, the last one accepted, the next of its own, the next slot. -/
  inSeq    : BitVec 16
  lastIn   : BitVec 16
  outSeq   : BitVec 16
  outSlot  : BitVec 4
  rings    : Mem
  /-- Replies kept to the host's last 16 messages: SEQ and the reply's bytes (R331). -/
  kept     : List (BitVec 16 × BitVec 512)
  /-- Messages to the host that it has not acknowledged, oldest first (R331). -/
  sent     : List (BitVec 512)
  deriving DecidableEq, Repr

/-- A key in the vault (R314). -/
structure VaultKey where
  handle : Word
  ctx    : Nat
  key    : BitVec 256
  deriving DecidableEq, Repr

/-- The checkpoint image (R242). -/
structure Checkpoint where
  mem    : Mem
  side   : Tab Side
  bad    : List Nat
  stamp  : Nat
  digest : BitVec 256
  deriving DecidableEq, Repr

/-- Power state of the module (R334, R335). -/
inductive Power where
  | on | asleep
  deriving DecidableEq, Repr

/-- The quotas of a virtual device (R176, R177). -/
structure Quota where
  pdefs : Nat
  cbuf  : Nat
  trkl  : Nat
  trkc  : Nat
  bins  : Nat
  bwent : Nat
  chans : Nat
  deriving DecidableEq, Repr

/-- A mailbox command that was accepted and is not done: CHECKPOINT, SLEEP, or RESTORE of a context (R182, R242, R335). -/
inductive JobKind where
  | checkpoint | sleep
  | restore (ctx : Nat)
  deriving DecidableEq, Repr

structure Job where
  kind : JobKind
  fn   : Nat
  seq  : BitVec 16
  deriving DecidableEq, Repr

/-- The module-level control registers and the management core's state. -/
structure Mgmt where
  modid    : BitVec 12
  /-- Ports in use (R33). -/
  ports    : List Nat
  /-- Modules that were detected as failed and fenced (R336). -/
  fenced   : List Nat
  /-- PART.LIMIT (R97), L2.VDMASK and L2.VDPOL (R103) by device; unlisted: the reset values. -/
  spmax    : Tab (BitVec 4)
  l2       : Tab L2Dev
  pways    : BitVec 16
  plock    : Bool
  umonEn   : Bool
  umonErr  : Bool
  umonPer  : BitVec 24
  /-- The reference tick at which the monitor's interval began (R107). -/
  umonAt   : Nat
  /-- QUOTA.A and QUOTA.B of devices 0 to 63 (R176, R177). -/
  quotas   : List Quota
  quotaErr : Bool
  /-- SCHED.DL by priority; unlisted: 200,000 (R266). -/
  schedDl  : Tab (BitVec 24)
  fns      : Tab Fn
  vault    : List VaultKey
  vaultNo  : Nat
  worldNo  : BitVec 16
  sleepKey : Bool
  vaultWrapped : Bool
  power    : Power
  limitW   : Nat
  throttled : Bool
  alarm    : Bool
  alarmed  : Bool
  dump     : Option (BitVec 256)
  check    : Option Checkpoint
  jobs     : List Job
  uncorrected : Nat
  deriving DecidableEq, Repr

/-- One move of an agent or the outside world: the model's own (log 2). -/
inductive Move where
  /-- Scheduler `sched` of core `core` issues (R262). -/
  | issue (core sched : Nat)
  /-- A step of the part or an input from outside: a row of the opcode table that is not an instruction form. -/
  | event (e : Instr)
  /-- One cycle passes. -/
  | tick
  /-- Replacement in an L1 or the TLBs; a claim's eviction (R100, R122, R290). -/
  | l1Evict (core line : Nat)
  | tlbEvict
  | recall (line : Nat)
  /-- The oldest posted store to host or another module's memory arrives there (R129). -/
  | deliver
  /-- A unit of another module's memory becomes poisoned; the host begins or ends answering AtomicOps with Unsupported Request; the
  first read of a press request's granule fails in transfer (R120, R156, R175). -/
  | peerError (modid unit : Nat)
  | hostAtomics (ur : Bool)
  /-- A PCIe peer appears at these host addresses (R307, log 16). -/
  | busPeer (base n : Nat)
  | glitch (id : Nat)
  /-- The host driver binds a queue to a context of its function, or to none (R244, log 12). -/
  | bindQueue (queue : Nat) (ctx : Option Nat)
  /-- The management core goes on with the command it has under way (R182, R242, R335). -/
  | job
  deriving DecidableEq, Repr

structure State where
  mgmt   : Mgmt
  mach   : Mach
  /-- What acts next: the model's own (log 2). An empty agenda leaves the choice to `defaultMove`. -/
  agenda : List Move
  deriving DecidableEq, Repr

/-! ## After reset -/

def Quota.device0 : Quota :=
  { pdefs := 1024, cbuf := 128, trkl := 32, trkc := 64, bins := 64, bwent := 256, chans := 8 }

def Quota.zero : Quota :=
  { pdefs := 0, cbuf := 0, trkl := 0, trkc := 0, bins := 0, bwent := 0, chans := 0 }

def L2Dev.reset : L2Dev :=
  { masks := BitVec.allOnes 64, rdpol := 0, wrpol := 0, atpol := 0, qmin := 1, qinit := 4, qnow := 4, umen := false }

/-- DESIGN CHOICE (log 9): the reset values of R320 to R336 that have no Reset column. -/
def Fn.reset : Fn :=
  { expert := false, apBase := 0, apCtx := none, tdi := .unlocked, digest := 0, audit := 0, gen := 0, resetting := false,
    session := false, inSeq := 1, lastIn := 0, outSeq := 1, outSlot := 0, rings := ⟨[]⟩, kept := [], sent := [] }

def Queue.reset : Queue :=
  { fn := 0, ctx := none, base := 0, log2n := 0, host := false, en := false, tail := 0, head := 0, state := .disabled,
    fcause := 0, done := 0, rd := 0, beyond := [], woken := false }

def Core.reset : Core :=
  { split := none, tiles := ⟨[]⟩, tileQ := [], mq := [], bypass := none, chans := ⟨[]⟩, wptr := ⟨[]⟩, wacq := ⟨[]⟩, kick := 0,
    l1 := ⟨[]⟩, bins := ⟨[]⟩, ticked := none, issued := ⟨[]⟩ }

/-- A context at its creation (R57, R96, R272, R284, R326, R355, R430). -/
def Ctx.created : Ctx :=
  { run := .running, binTimer := 200, spadSet := 8, clamp := false, wdogInt := 10000000, wdogExt := 0, check := false,
    ptEn := false, ptRoot := 0, fqLog := 0, fqHost := false, fqEn := false, fqBase := 0, fqProd := 0, fqCons := 0,
    fqOvf := false, fqDrop := 0, fqNote := 0, logLog := 0, logHost := false, logEn := false, logBase := 0, logProd := 0,
    logCons := 0, logHigh := false, refused := [], arrivals := [], tlsLog := 0, tlsBase := 0, peers := ⟨[]⟩, fq := [],
    fqSeq := 1, holds := [], holdNo := 0, unresolved := [], reported := [], inval := none, press := ⟨[]⟩, regions := [], parties := ⟨[]⟩,
    budgets := [], world := none, poolFast := [], poolCap := [], deadline := none, stuckInt := none, stuckExt := none }

def Mach.reset : Mach :=
  { cycle := 0, time := 0, refTicks := 0, refRem := 0, mhz := 1900, mem := ⟨[]⟩, hostMem := ⟨[]⟩, peerMem := ⟨[]⟩, peerBad := ⟨[]⟩,
    hostUr := false, farLast := ⟨[]⟩, outPts := ⟨[]⟩, outside := ⟨[]⟩, owed := ⟨[]⟩, corrected := 0, stamps := ⟨[]⟩,
    bad := [], lines := ⟨[]⟩, l2Uses := 0, shadow := ⟨[]⟩, hits := ⟨[]⟩, heldBy := ⟨[]⟩, claims := ⟨[]⟩, side := ⟨[]⟩, scrub := [], posted := [], swept := false, maxStamp := 0,
    tlb := [], ctxs := ⟨[]⟩, cores := ⟨[]⟩, blocks := ⟨[]⟩, launches := ⟨[]⟩, queues := ⟨[]⟩, orders := 0, offers := [], trackers := [],
    shares := [], drains := [], wrung := [], presses := [], gate := [], clusters := ⟨[]⟩, signals := [],
    ide := ⟨[]⟩, heldReplies := [], dmaOff := [], unreach := [], busPeers := [], stalled := false, issue := none, free := 0, ids := 0 }

def Mgmt.reset : Mgmt :=
  { modid := 0, ports := [], fenced := [], spmax := ⟨[]⟩, l2 := ⟨[]⟩, pways := 0, plock := false,
    umonEn := false, umonErr := false, umonPer := 100000, quotas := Quota.device0 :: List.replicate 63 Quota.zero,
    quotaErr := false, schedDl := ⟨[]⟩, fns := ⟨[]⟩, vault := [], vaultNo := 0, worldNo := 0,
    sleepKey := false, vaultWrapped := false, power := .on, limitW := 15000, throttled := false, alarm := false,
    alarmed := false, dump := none, check := none, jobs := [], uncorrected := 0, umonAt := 0 }

/-- The machine right after reset: every register at the value its rule gives (R8), no context, no block. -/
def State.reset : State := { mgmt := Mgmt.reset, mach := Mach.reset, agenda := [] }

end Sys2Proof.Machine
end

