-- ==== Sys2Proof/Machine/Memory.lean ====
section
/-! DEFINITION. Memory: finding what the state holds, translation (R288 to R290), the total order by stamps (R110 to R122),
damp lines, trackers and drains (R136 to R152), sealed lines (R315 to R317), poison (R506), scrubbing (R324), residency in
L2 (R101, R102). -/

namespace Sys2Proof.Machine

/-! ## Finding things -/

def Mach.ctx (m : Mach) (c : Nat) : Ctx := tabGet m.ctxs c Ctx.created
def Mach.core (m : Mach) (c : Nat) : Core := tabGet m.cores c Core.reset
def Mach.block? (m : Mach) (b : Nat) : Option Block := tabFind m.blocks b
def Mach.launch? (m : Mach) (l : Nat) : Option Launch := tabFind m.launches l
def Mach.queue (m : Mach) (q : Nat) : Queue := tabGet m.queues q Queue.reset

def Mach.setCtx (m : Mach) (c : Nat) (x : Ctx) : Mach := { m with ctxs := tabSet m.ctxs c x }
def Mach.setCore (m : Mach) (c : Nat) (x : Core) : Mach := { m with cores := tabSet m.cores c x }
def Mach.setBlock (m : Mach) (b : Nat) (x : Block) : Mach := { m with blocks := tabSet m.blocks b x }
def Mach.setLaunch (m : Mach) (l : Nat) (x : Launch) : Mach := { m with launches := tabSet m.launches l x }
def Mach.setQueue (m : Mach) (q : Nat) (x : Queue) : Mach := { m with queues := tabSet m.queues q x }

def Mach.modCtx (m : Mach) (c : Nat) (f : Ctx → Ctx) : Mach := { m with ctxs := tabMod m.ctxs c f }
def Mach.modCore (m : Mach) (c : Nat) (f : Core → Core) : Mach := m.setCore c (f (m.core c))
def Mach.modBlock (m : Mach) (b : Nat) (f : Block → Block) : Mach := { m with blocks := tabMod m.blocks b f }
def Mach.modLaunch (m : Mach) (l : Nat) (f : Launch → Launch) : Mach := { m with launches := tabMod m.launches l f }
def Mach.modQueue (m : Mach) (q : Nat) (f : Queue → Queue) : Mach := m.setQueue q (f (m.queue q))
def Mach.modWarp (m : Mach) (b w : Nat) (f : Warp → Warp) : Mach :=
  m.modBlock b fun x => { x with warps := tabMod x.warps w f }

def Mach.warp? (m : Mach) (b w : Nat) : Option Warp := (m.block? b).bind fun x => tabFind x.warps w

/-- A number for a request, launch or block (log 2). -/
def Mach.freshId (m : Mach) : Nat × Mach := (m.ids, { m with ids := m.ids + 1 })

/-- The virtual device of a context (R103). -/
def deviceOf (ctx : Nat) : Nat := ctx / 16
/-- The cluster of a core (R16). -/
def clusterOf (core : Nat) : Nat := core / 8
/-- The reference time of R20's timers, in 10 ns units. -/
def Mach.now (m : Mach) : Nat := m.time

/-- The 16-bit mask of a page or register is a subset of another. -/
def subMask (a b : Mask) : Bool := a &&& ~~~b == 0

/-! ## Actors and locations -/

/-- Who makes an access: its context and launch, the core whose L1 and TLB it uses, and whether it is a lane or an engine. -/
structure Actor where
  ctx    : Nat
  launch : Nat
  core   : Nat
  lane   : Bool
  matrix : Bool
  deriving DecidableEq, Repr

/-- A translated piece of an access: where it lies, and what its page says. -/
structure Loc where
  place  : Place
  va     : Nat
  n      : Nat
  leaf   : Leaf
  deriving DecidableEq, Repr

/-- The world number of a launch, for sealed pages (R314, R315), and the key of a world (R314). -/
def Mach.worldOf (m : Mach) (launch : Nat) : Option Nat := (m.launch? launch).bind (·.world)
def Mach.keyOf (m : Mach) (world : Nat) : BitVec 256 :=
  (m.ctxs.cells.findSome? fun c => c.2.world.bind fun w => if w.number = world then some w.key else none).getD 0

/-! ## Stamps (R113, R114) -/

def Mach.lineStamps (m : Mach) (line : Nat) : Stamps :=
  tabGet m.stamps line (if m.swept && Config.fastPa (128 * line) then ⟨0, Config.lease⟩ else ⟨0, 0⟩)

def Mach.noteStamp (m : Mach) (s : Nat) : Mach := { m with maxStamp := max m.maxStamp s }

/-- A read at a line's ordering point: the lease is extended, the stamp answered. -/
def Mach.leaseLine (m : Mach) (line pts : Nat) : Nat × Mach :=
  let s := m.lineStamps line
  let rts := max s.rts (max (s.wts + Config.lease) (pts + Config.lease))
  let st := max pts s.wts
  (st, ({ m with stamps := tabSet m.stamps line ⟨s.wts, rts⟩ }).noteStamp st)

/-- A write or read-modify-write at a line's ordering point takes a stamp past every lease. -/
def Mach.stampLine (m : Mach) (line pts : Nat) : Nat × Mach :=
  let s := m.lineStamps line
  let st := max pts (s.rts + 1)
  (st, ({ m with stamps := tabSet m.stamps line ⟨st, st⟩ }).noteStamp st)

def blockStamps (b : Block) (i : Nat) : Stamps := tabGet b.spadStamp i ⟨b.start, b.start⟩

def Mach.leaseSpad (m : Mach) (bid i pts : Nat) : Nat × Mach :=
  match m.block? bid with
  | none => (pts, m)
  | some b =>
    let s := blockStamps b i
    let rts := max s.rts (max (s.wts + Config.lease) (pts + Config.lease))
    let st := max pts s.wts
    (st, (m.setBlock bid { b with spadStamp := tabSet b.spadStamp i ⟨s.wts, rts⟩ }).noteStamp st)

def Mach.stampSpad (m : Mach) (bid i pts : Nat) : Nat × Mach :=
  match m.block? bid with
  | none => (pts, m)
  | some b =>
    let st := max pts ((blockStamps b i).rts + 1)
    (st, (m.setBlock bid { b with spadStamp := tabSet b.spadStamp i ⟨st, st⟩ }).noteStamp st)

/-! ## Bytes of device memory: scrubbing and sealing -/

def granuleOf (pa : Nat) : Nat := pa / 2 ^ 21
def lineOf (pa : Nat) : Nat := pa / 128

/-- A byte of device memory as a reader sees it: `world` is the reader's world for a sealed page, none for an unsealed one.
A granule that is not cleared reads zero (R324); a line sealed in another world reads zero through a sealed page (R317) and
as ciphertext through any other (R316). -/
def Mach.viewByte (m : Mach) (world : Option (Option Nat)) (pa : Nat) : Byte :=
  if m.scrub.contains (granuleOf pa) then 0
  else
    let b := memGet m.mem pa
    match world, tabFind m.side (lineOf pa) with
    | none, none => b
    | none, some s => if s.mac || s.fresh.getLsbD (pa % 128) then cipherByte s.key s.version pa b else b
    | some _, none => 0
    | some w, some s => if w = some s.world then b else 0

def Mach.viewBytes (m : Mach) (world : Option (Option Nat)) (pa : Nat) : Nat → List Byte
  | 0 => []
  | n + 1 => m.viewByte world pa :: m.viewBytes world (pa + 1) n

/-- Clear a granule before its first write (R324). -/
def Mach.clearGranule (m : Mach) (g : Nat) : Mach :=
  if m.scrub.contains g then
    { m with mem := ⟨m.mem.cells.filter fun c => granuleOf c.1 != g⟩, scrub := m.scrub.filter (· != g),
             side := ⟨m.side.cells.filter fun c => c.1 / 2 ^ 14 != g⟩, bad := m.bad.filter fun u => u / 2 ^ 16 != g }
  else m

def zeros (n : Nat) : List Byte := List.replicate n 0

/-- Make a line ready for a write: a line sealed elsewhere becomes ciphertext with a broken MAC under an unsealed write,
and starts from zero under the world's own (R316, R317). -/
def Mach.openLine (m : Mach) (world : Option (Option Nat)) (line : Nat) : Mach :=
  match world, tabFind m.side line with
  | none, none => m
  | none, some s =>
    if s.mac || s.fresh != 0 then
      { m with mem := memWrite m.mem (128 * line) (m.viewBytes none (128 * line) 128)
               side := tabSet m.side line { s with mac := false, fresh := 0 } }
    else m
  | some w, some s =>
    if w = some s.world then { m with side := tabSet m.side line { s with version := s.version + 1 } }
    else { m with mem := memWrite m.mem (128 * line) (zeros 128)
                  side := tabSet m.side line ⟨w.getD 0, s.version + 1, true, m.keyOf (w.getD 0), 0⟩ }
  | some w, none =>
    { m with mem := memWrite m.mem (128 * line) (zeros 128)
             side := tabSet m.side line ⟨w.getD 0, 0, true, m.keyOf (w.getD 0), 0⟩ }

/-- Bytes of a line whose MAC fails that its own world has written: once it has written all of them the line is sealed anew. DESIGN
CHOICE (log 36). -/
def Side.wrote (s : Side) (from_ n : Nat) : Side :=
  if s.mac then s
  else
    let fresh := s.fresh ||| BitVec.ofNat 128 ((2 ^ n - 1) * 2 ^ from_)
    if fresh = BitVec.allOnes 128 then { s with mac := true, fresh := 0 } else { s with fresh := fresh }

/-- Write bytes that lie within one line. -/
def Mach.putBytes (m : Mach) (world : Option (Option Nat)) (pa : Nat) (bs : List Byte) : Mach :=
  let m := (m.clearGranule (granuleOf pa)).openLine world (lineOf pa)
  { m with mem := memWrite m.mem pa bs
           side := if world.isSome then tabMod m.side (lineOf pa) fun s => s.wrote (pa % 128) bs.length else m.side }

/-- The lines of a world in L2 are sealed, written back and invalidated (R318, R319). -/
def Mach.sealWorld (m : Mach) (world : Nat) : Mach :=
  { m with lines := tabFilter (fun k _ => match tabFind m.side k with
      | none => true
      | some s => s.world != world) m.lines }

/-- Uncorrectable data in a byte range (R506), or a MAC that fails (R317). -/
def Mach.badRange (m : Mach) (world : Option (Option Nat)) (pa n : Nat) : Bool :=
  (m.bad.any fun u => decide (32 * u < pa + n) && decide (pa < 32 * u + 32)) ||
    (match world with
     | none => false
     | some w => ((List.range (lineOf (pa + n - 1) + 1 - lineOf pa)).any fun i =>
         match tabFind m.side (lineOf pa + i) with
         | none => false
         | some s => !s.mac && w == some s.world))

/-! ## Residency in L2 (R101, R102) and claims (R122) -/

/-- Traffic classes (R102). -/
inductive Traffic where
  | thread | copy | matrix | atomic
  deriving DecidableEq, Repr

def Traffic.index : Traffic → Nat
  | .thread => 0 | .copy => 1 | .matrix => 2 | .atomic => 3

/-- The candidate ways of a request (R102): of a sealed page the protected ones. -/
def candWays (mg : Mgmt) (dev : Nat) (tc : Traffic) (sealed_ : Bool) : BitVec 16 :=
  if sealed_ then mg.pways else (tabGet mg.l2 dev L2Dev.reset).masks.extractLsb' (16 * tc.index) 16 &&& ~~~mg.pways

/-- The policy of a miss (R103): 0 and 3 insert as most recently used, 1 as next victim, 2 does not allocate. -/
def l2Policy (mg : Mgmt) (dev : Nat) (tc : Traffic) (write : Bool) : BitVec 2 :=
  let d := tabGet mg.l2 dev L2Dev.reset
  match tc with
  | .atomic => d.atpol
  | .thread | .copy | .matrix => if write then d.wrpol else d.rdpol

/-- Whether a miss of this device, class and kind leaves its line resident. -/
def allocates (mg : Mgmt) (dev : Nat) (tc : Traffic) (write sealed_ : Bool) : Bool :=
  candWays mg dev tc sealed_ != 0 && l2Policy mg dev tc write != 2

/-- The home slice of a line (R101), its hive, cache router and port. -/
def homeSlice (line : Nat) : Nat :=
  let pa := 128 * line
  ((field pa 17 7 ^^^ field pa 28 18) ^^^ field pa 39 29) ^^^ field pa 47 40
def sliceHive (slice : Nat) : Nat := slice / 256
def sliceRouter (slice : Nat) : Nat × Nat := (slice % 256 / 4 % 8, slice % 256 / 4 / 8)
def slicePort (slice : Nat) : Nat := slice % 4

/-- Two lines contend for the same 16 ways. -/
def sameSet (x y : Nat) : Bool := homeSlice x == homeSlice y && Config.l2Set x % 2048 == Config.l2Set y % 2048

/-- QNOW of a device, 16 for one that takes no part in the monitor (R104). -/
def quotaNow (mg : Mgmt) (dev : Nat) : Nat :=
  let d := tabGet mg.l2 dev L2Dev.reset
  if d.umen then d.qnow else 16

/-- The least recently used line of a list. -/
def leastUsed (l : List (Nat × Resident)) : Option (Nat × Resident) :=
  l.foldl (fun o x => match o with
    | none => some x
    | some y => if x.2.used < y.2.used then some x else some y) none

/-- The lines of a set that a device holds. -/
def ownLines (dev : Nat) (l : List (Nat × Resident)) : List (Nat × Resident) := l.filter fun x => x.2.dev == dev

/-- The way that a line of a device takes in a set that holds `here`, and the victim that makes room (R104): at its quota its own
line, or any of the candidates where it has none there; else a line of a device above its quota, or any. A way of the candidates
that holds nothing comes before a victim but for the first: DESIGN CHOICE (log 89). -/
def chooseWay (mg : Mgmt) (dev : Nat) (cand : BitVec 16) (here : List (Nat × Resident)) : Option (Nat × Option Nat) :=
  let inCand := here.filter fun x => cand.getLsbD x.2.way
  let full := decide ((ownLines dev here).length ≥ quotaNow mg dev)
  let own := if full then leastUsed (ownLines dev inCand) else none
  let above := if full then none
    else leastUsed (inCand.filter fun x => decide ((ownLines x.2.dev here).length > quotaNow mg x.2.dev))
  let victim (x : Nat × Resident) : Nat × Option Nat := (x.2.way, some x.1)
  match own with
  | some x => some (victim x)
  | none => match (bitsOf cand).find? fun w => !(here.any fun x => x.2.way == w) with
    | some w => some (w, none)
    | none => ((match above with
        | some x => some x
        | none => leastUsed inCand).map victim)

/-- A request finds its line among the shadow tags of its device: the depth is counted and the line comes first (R107). -/
def Mach.watchLine (m : Mach) (mg : Mgmt) (dev line : Nat) : Mach :=
  if !mg.umonEn || !(tabGet mg.l2 dev L2Dev.reset).umen then m
  else
    let slice := homeSlice line
    let set := Config.l2Set line % 2048
    if !((List.range 32).any fun i => Config.umonSet dev slice i % 2048 == set) then m
    else
      let key := 2 ^ 22 * dev + 2048 * slice + set
      let tags := tabGet m.shadow key []
      { m with
        shadow := tabSet m.shadow key ((line :: tags.filter (· != line)).take 16)
        hits := match tags.findIdx? (· == line) with
          | none => m.hits
          | some d => tabSet m.hits (32 * dev + d) (tabGet m.hits (32 * dev + d) 0 + 1) }

/-- A request of a device to a line (R102, R104): a hit is its latest use; a miss that allocates takes a way, whose line leaves
(a dirty one is written back: memory has its bytes). -/
def Mach.allocLine (m : Mach) (mg : Mgmt) (dev : Nat) (tc : Traffic) (write sealed_ : Bool) (line : Nat) : Mach :=
  let m := m.watchLine mg dev line
  let m := { m with l2Uses := m.l2Uses + 1 }
  match tabFind m.lines line with
  | some r => { m with lines := tabSet m.lines line { r with dirty := r.dirty || write, used := m.l2Uses } }
  | none =>
    if !allocates mg dev tc write sealed_ then m
    else
      match chooseWay mg dev (candWays mg dev tc sealed_) (m.lines.cells.filter fun x => sameSet line x.1) with
      | none => m
      | some (way, victim) =>
        let lines := match victim with
          | none => m.lines
          | some v => tabErase m.lines v
        { m with lines := tabSet lines line ⟨dev, write, way, if l2Policy mg dev tc write = 1 then 0 else m.l2Uses⟩ }

/-- An access to a line that a channel application holds waits for the acknowledgement, which releases every line of the
granule (R174). -/
def Mach.unhold (m : Mach) (line : Nat) : Mach :=
  match tabFind m.heldBy line with
  | none => m
  | some id => { m with heldBy := tabFilter (fun _ x => x != id) m.heldBy }

/-- What every access at an ordering point meets first: a held line, and a claim of another cluster, which it recalls (R122). -/
def Mach.recallFor (m : Mach) (cluster : Option Nat) (line : Nat) : Mach :=
  let m := m.unhold line
  match tabFind m.claims line with
  | none => m
  | some k => if cluster = some k then m else { m with claims := tabErase m.claims line }

/-! ## Translation (R288 to R290) -/

/-- A level of the page table: index shift and bits, alignment of its table, and the leaf it may hold. -/
structure Level where
  shift : Nat
  bits  : Nat
  align : Nat
  log   : Option (Nat × Nat)
  deriving DecidableEq, Repr

/-- Levels 3 to 0, with (SIZE, log2) of the leaf. -/
def levels : List Level :=
  [⟨39, 9, 12, none⟩, ⟨30, 9, 12, some (3, 30)⟩, ⟨25, 5, 8, some (2, 25)⟩, ⟨16, 9, 12, some (0, 16)⟩]

/-- A table read: a load with pts 0 at the ordering point, which recalls a claim (R122); none for uncorrectable data. -/
def Mach.readEntry (m : Mach) (pa : Nat) : Option Nat × Mach :=
  if m.badRange none pa 8 then (none, m)
  else (some (natOfBytes (m.viewBytes none pa 8)), ((m.recallFor none (lineOf pa)).leaseLine (lineOf pa) 0).2)

def leafOf (x entry log : Nat) : Leaf :=
  { w := x.testBit 1, x := x.testBit 2, damp := x.testBit 6, sealed := x.testBit 7, tier := field x 9 8, log := log,
    frame := field x 47 16 * 65536, tag := BitVec.ofNat 16 (field x 63 48), entry := entry }

/-- Whether the 32 entries of a 2 MiB group are identical (R288). -/
def Mach.groupSame (m : Mach) (x base : Nat) : Bool :=
  (List.range 32).all fun i => natOfBytes (m.viewBytes none (base + 8 * i) 8) == x

/-- A walk from a table: the XLATE detail (R277) or the leaf. -/
def Mach.walk (m : Mach) (table va : Nat) : List Level → Except Nat Leaf × Mach
  | [] => (.error 1, m)
  | lv :: rest =>
    if table % 2 ^ lv.align ≠ 0 then (.error 1, m)
    else
      let pa := table + 8 * ((va >>> lv.shift) % 2 ^ lv.bits)
      match m.readEntry pa with
      | (none, m) => (.error 2, m)
      | (some x, m) =>
        if !x.testBit 0 then (.error 0, m)
        else if x.testBit 3 then
          match lv.log with
          | none => (.error 1, m)
          | some (size, log) =>
            let big := decide (log = 16) && field x 5 4 == 1
            let log' := if big then 21 else log
            if (field x 5 4 ≠ size ∧ !big) ∨ field x 15 10 ≠ 0 ∨ (field x 47 16 * 65536) % 2 ^ log' ≠ 0 then (.error 1, m)
            else if big && m.badRange none (pa - pa % 256) 256 then (.error 2, m)
            else if big && !m.groupSame x (pa - pa % 256) then (.error 1, m)
            else (.ok (leafOf x pa log'), m)
        else if rest.isEmpty || x != (field x 47 8) * 256 + 1 then (.error 1, m)
        else m.walk (field x 47 8 * 256) va rest

/-- The TLBs on the way of an actor (R290). -/
def tlbPath (a : Actor) : List Nat :=
  [if a.matrix then 1024 + a.core else a.core, 2048 + clusterOf a.core, 4096 + a.core / 128]

/-- Entries a TLB holds (R290). -/
def tlbSize (loc : Nat) : Nat :=
  if loc < 1024 then 128 else if loc < 2048 then 32 else if loc < 4096 then 2048 else 16384

def tlbInsert (t : List TlbEntry) (e : TlbEntry) : List TlbEntry :=
  let (same, other) := t.partition (·.loc == e.loc)
  e :: (same.take (tlbSize e.loc - 1) ++ other)

/-- The copy holds the page of an address. -/
def TlbEntry.covers (e : TlbEntry) (va : Nat) : Bool :=
  decide (65536 * e.region ≤ va) && decide (va < 65536 * e.region + 2 ^ e.leaf.log)

/-- The copy of the page at an address. -/
def pageCopy (ctx va : Nat) (l : Leaf) (loc : Nat) : TlbEntry := ⟨loc, ctx, va / 2 ^ l.log * 2 ^ l.log / 65536, l⟩

/-- The translation of one address: a TLB copy on the way, or a walk that fills them; no TLB holds an entry of a context that is
switched out (R295). -/
def Mach.translate (m : Mach) (a : Actor) (va : Nat) : Except Nat Leaf × Mach :=
  let c := m.ctx a.ctx
  if !c.ptEn || va ≥ 2 ^ 48 then (.error 0, m)
  else
    match m.tlb.find? fun e => e.ctx == a.ctx && e.covers va && (tlbPath a).contains e.loc with
    | some e => (.ok e.leaf, m)
    | none =>
      match m.walk c.ptRoot va levels with
      | (.error d, m) => (.error d, m)
      | (.ok l, m) =>
        (.ok l, if c.run == .switchedOut then m
          else { m with tlb := (tlbPath a).foldl (fun t loc => tlbInsert t (pageCopy a.ctx va l loc)) m.tlb })

/-- Where a leaf puts an address: device memory, host memory, or a peer window (R289, R326). -/
def Mach.placeOf (m : Mach) (mg : Mgmt) (ctx : Nat) (l : Leaf) (va : Nat) : Except Nat Place :=
  let off := va % 2 ^ l.log
  if l.tier = 2 then .ok (.host (l.frame + off))
  else if l.tier = 3 then
    let w := tabGet (m.ctx ctx).peers (l.frame / 2 ^ 44) 0
    if !w.getLsbD 12 then .error 1
    else
      let pa := l.frame % 2 ^ 44 + off
      let modid := (w.extractLsb' 0 12).toNat
      if modid = mg.modid.toNat then .ok (.dev pa) else .ok (.peer modid pa)
  else .ok (.dev (l.frame + off))

/-- The pages that a byte range touches, as (address, length). -/
def pagePieces (va n : Nat) : List (Nat × Nat) :=
  let k := 65536 - va % 65536
  if n ≤ k then [(va, n)] else [(va, k), (va + k, n - k)]

/-- Pieces of at most `u` aligned bytes (R108): `fuel` bounds their number. -/
def unitPieces (u : Nat) : Nat → Nat → Nat → List (Nat × Nat)
  | 0, _, _ => []
  | fuel + 1, a, n =>
    if n = 0 then []
    else
      let k := min n (u - a % u)
      (a, k) :: unitPieces u fuel (a + k) (n - k)

/-! ## Damp lines (R136 to R152) -/

/-- The active region that makes a line damp for a context: it holds the whole line, and the page consents (R139). -/
def Mach.dampRegion (m : Mach) (ctx : Nat) (l : Loc) : Option Region :=
  if !l.leaf.damp then none
  else
    let v := l.va - l.va % 128
    (m.ctx ctx).regions.find? fun r => decide (r.base ≤ v) && decide (v + 128 ≤ r.base + r.len)

/-- FP32 addition of the damp rules: RU for magnitudes, RNE for contents (R143). -/
def addMag (int : Bool) (a : Nat) (b : Nat) : Nat :=
  if int then a + b else (f32Add .ru false (BitVec.ofNat 32 a) (BitVec.ofNat 32 b)).toNat
/-- a > b in the region's type. -/
def magGt (int : Bool) (a b : Nat) : Bool :=
  if int then decide (a > b) else f32Lt (BitVec.ofNat 32 b) (BitVec.ofNat 32 a)
def magOf (int : Bool) (x : Word) : Nat := if int then x.toInt.natAbs else (x &&& 0x7FFFFFFF#32).toNat
def dampSum (int : Bool) (a b : Word) : Word := if int then a + b else f32Add .rne false a b

/-- O: the sum of the outstanding shares of a line (R144). The rounding of an FP32 sum of shares is not stated: DESIGN CHOICE, up
(log 85). -/
def Mach.outstanding (m : Mach) (int : Bool) (line : Nat) : Nat :=
  (m.shares.filter (·.line == line)).foldl (fun acc s => addMag int acc s.share.toNat) 0

/-- Whether the line awaits a wring (R148). -/
def Mach.wringing (m : Mach) (line : Nat) : Bool := m.wrung.any fun w => w.lines.contains line

/-- The largest share L·f (R144). -/
def shareUnit (r : Region) : Nat :=
  if r.int then r.limit.toNat * (r.frac + 1) / 256
  else (roundF32 .rd false ((f32 r.limit).mul (.fin false (r.frac + 1) (-8)))).toNat

def isWordFinite (x : Word) : Bool :=
  match f32 x with
  | .fin _ _ _ => true
  | .nan => false
  | .inf _ => false

/-- SHARE_REQUEST: the home slice's grant to a holder, recorded (R144). -/
def Mach.requestShare (m : Mach) (r : Region) (line holder : Nat) : Nat × Mach :=
  let listed := dedup (m.shares.map (·.line))
  if m.wringing line || tabHas m.claims line || (listed.length ≥ 4096 && !listed.contains line) then (0, m)
  else
    let o := m.outstanding r.int line
    let left := if r.int then r.limit.toNat - o
      else
        let d := f32Add .rd false r.limit (BitVec.ofNat 32 o ^^^ 0x80000000#32)
        if d.getLsbD 31 then 0 else d.toNat
    let g := if magGt r.int (shareUnit r) left then left else shareUnit r
    if g = 0 then (0, m) else (g, { m with shares := m.shares ++ [⟨line, holder, BitVec.ofNat 32 g, r.int⟩] })

def Mach.releaseShare (m : Mach) (line holder : Nat) : Mach :=
  { m with shares := m.shares.eraseP fun s => s.line == line && s.holder == holder }

/-- A tracker's drain leaves for the home slice and the tracker is free (R145). -/
def Mach.drainTracker (m : Mach) (t : Tracker) (int : Bool) : Mach :=
  let (id, m) := m.freshId
  { m with trackers := m.trackers.filter fun x => !(x.holder == t.holder && x.line == t.line)
           drains := m.drains ++ [⟨id, t.holder, t.line, t.ctx, int, t.share, t.acc, t.view⟩] }

def Mach.regionInt (m : Mach) (ctx region : Nat) : Bool :=
  ((m.ctx ctx).regions.find? (·.id == region)).any (·.int)

def Mach.drainAll (m : Mach) (p : Tracker → Bool) : Mach :=
  (m.trackers.filter p).foldl (fun m t => m.drainTracker t (m.regionInt t.ctx t.region)) m

/-- What a data error says of its source (R281, DATAERR). -/
def dataErr (pa opc source count : Nat) : BitVec 64 × BitVec 64 × BitVec 64 :=
  (BitVec.ofNat 64 pa, BitVec.ofNat 64 (opc + source), BitVec.ofNat 64 count)

/-- A new entry of a context's fault queue (R280, R283): kinds 1 to 4 always wait, others are dropped when 32 are pending. -/
def Mach.fqPush (m : Mach) (ctx kind : Nat) (info : BitVec 64 × BitVec 64 × BitVec 64) (recs : List (BitVec 256))
    (hold : Option (BitVec 16)) (region : Option Nat) : Mach :=
  m.modCtx ctx fun c =>
    if c.fq.length ≥ 32 && kind > 4 then
      { c with fqSeq := (c.fqSeq + 1) % 2 ^ 32, fqOvf := true, fqDrop := min 65535 (c.fqDrop + 1) }
    else
      { c with fq := c.fq ++ [⟨kind, info.1, info.2.1, info.2.2, recs, 0, hold, region, none⟩] }

/-- The holder's mark in a data error: an L1 by its core, a cluster unit by its cluster (R146, R281). -/
def holderMark (h : Nat) : Nat := if h < 1024 then h * 256 else 2 ^ 18 + (h - 1024) * 256

/-- DRAIN_APPLY: one write at the home slice, which recalls a claim (R122), one stamp; the share is released (R145, R146). -/
def Mach.applyDrain (m : Mach) (d : Drain) : Mach :=
  let m := { m with drains := m.drains.filter (·.id != d.id) }
  let m := m.releaseShare d.line d.holder
  let pa := 128 * d.line
  if m.badRange d.view pa 128 then m.fqPush d.ctx 5 (dataErr pa 0x40 (holderMark d.holder) 1) [] none none
  else
    let m := ((m.recallFor none d.line).stampLine d.line 0).2
    d.acc.cells.foldl (fun m c =>
      let a := pa + 4 * c.1
      let old := BitVec.ofNat 32 (natOfBytes (m.viewBytes d.view a 4))
      m.putBytes d.view a (bytesOfWord (dampSum d.int old c.2))) m

def Mach.applyDrains (m : Mach) (p : Drain → Bool) : Mach := (m.drains.filter p).foldl Mach.applyDrain m

/-- WRING at once: every holder of the line drains, and the drains are applied (R141). -/
def Mach.wringNow (m : Mach) (line : Nat) : Mach := (m.drainAll (·.line == line)).applyDrains (·.line == line)

/-- Trackers of a holder that a device may have (R142, R176). -/
def trackerQuota (mg : Mgmt) (dev holder : Nat) : Nat :=
  let q := mg.quotas.getD dev Quota.zero
  if holder < 1024 then q.trkl else q.trkc

def addToTracker (t : Tracker) (int : Bool) (i : Nat) (x : Word) (tags : Mask) (now : Nat) : Tracker :=
  let sum := match tabFind t.acc i with
    | none => x
    | some a => dampSum int a x
  { t with mag := addMag int t.mag (magOf int x), acc := tabSet t.acc i sum, tag := (t.tag ||| tags), updated := now }

/-- The first tracker to drain for reuse: the least recently updated of the device's own (R142). -/
def oldestTracker (l : List Tracker) : Option Tracker :=
  l.foldl (fun o t => match o with | none => some t | some b => if t.updated < b.updated then some t else some b) none

/-- DAMP_UPDATE_ACCEPT (R143): add `x` to element `i` of a damp line at a holder. The answer says whether it is held; an
update that is not held goes to the home slice. The spec does not say what becomes of an update of a device whose tracker quota
is 0, which has no tracker of its own to drain: DESIGN CHOICE, it goes to the home slice (log 85). -/
def Mach.holdUpdate (m : Mach) (mg : Mgmt) (ctx : Nat) (r : Region) (line vline holder : Nat) (view : Option (Option Nat)) (i : Nat)
    (x : Word) (tags : Mask) : Bool × Mach :=
  if !r.int && !isWordFinite x then (false, m)
  else
    let here (m : Mach) := m.trackers.find? fun t => t.holder == holder && t.line == line
    let m := match here m with
      | some t => if magGt r.int (addMag r.int t.mag (magOf r.int x)) t.share.toNat
          then (m.drainTracker t r.int).applyDrains (·.line == line) else m
      | none => m
    match here m with
    | some t =>
      let t' := addToTracker t r.int i x tags m.cycle
      (true, { m with trackers := m.trackers.map fun u => if u.holder == holder && u.line == line then t' else u })
    | none =>
      let mine (m : Mach) := m.trackers.filter fun t => t.holder == holder && deviceOf t.ctx == deviceOf ctx
      let quota := trackerQuota mg (deviceOf ctx) holder
      if quota = 0 then (false, m)
      else
        let m := if (mine m).length < quota then m else
          match oldestTracker (mine m) with
          | none => m
          | some t => m.drainTracker t (m.regionInt t.ctx t.region)
        let (g, m) := m.requestShare r line holder
        if g = 0 then (false, m)
        else if magGt r.int (magOf r.int x) g then (false, m.releaseShare line holder)
        else
          let t : Tracker :=
            { holder := holder, line := line, vline := vline, region := r.id, ctx := ctx,
              share := BitVec.ofNat 32 g, mag := 0, acc := ⟨[]⟩, tag := 0, age := m.cycle, updated := m.cycle, view := view }
          (true, { m with trackers := m.trackers ++ [addToTracker t r.int i x tags m.cycle] })

/-! ## Performing parts (R108, R114) -/

def lineValue (m : Mach) (world : Option (Option Nat)) (line : Nat) : BitVec 1024 :=
  BitVec.ofNat 1024 (natOfBytes (m.viewBytes world (128 * line) 128))

def copyBytes (v : BitVec 1024) (off n : Nat) : List Byte := bytesOfNat (v.toNat >>> (8 * off)) n

/-- Lines that the L1 of a core holds (R100). -/
def l1Lines (c : Core) : Nat := 8 * (768 - 64 * c.split.getD 0)

/-- A copy enters an L1; where it is full another one leaves, which is not architectural (R100). -/
def Mach.setL1 (m : Mach) (core line : Nat) (c : L1Copy) : Mach :=
  m.modCore core fun x =>
    let others := (tabKeys x.l1).filter (· != line)
    let l1 := if others.length < l1Lines x then x.l1
      else tabErase x.l1 (others.getD (Config.l1Victim core line m.cycle % others.length) 0)
    { x with l1 := tabSet l1 line c }
def Mach.dropL1 (m : Mach) (core line : Nat) : Mach :=
  m.modCore core fun x => if tabHas x.l1 line then { x with l1 := tabErase x.l1 line } else x

/-- The view through which an actor sees a page (R315). -/
def Mach.viewOf (m : Mach) (a : Actor) (l : Leaf) : Option (Option Nat) :=
  if l.sealed then some (m.worldOf a.launch) else none

/-- A load part of a device line: a lane may be served by its L1 copy (R114), which stands for the line as a page of that
view shows it (R315, R316); a damp line is never copied (R141). -/
def Mach.loadDev (m : Mach) (mg : Mgmt) (a : Actor) (l : Leaf) (tc : Traffic) (damp : Bool) (pa n pts : Nat) :
    List Byte × Nat × Mach :=
  let line := lineOf pa
  let copy := if a.lane && !damp then tabFind (m.core a.core).l1 line else none
  match copy with
  | some c =>
    if c.rts ≥ pts && c.view == m.viewOf a l then
      let st := max pts c.wts
      (copyBytes c.value (pa % 128) n, st, m.noteStamp st)
    else
      let m := m.recallFor (some (clusterOf a.core)) line
      let (st, m) := m.leaseLine line pts
      let s := m.lineStamps line
      let m := m.setL1 a.core line ⟨lineValue m (m.viewOf a l) line, s.wts, s.rts, m.viewOf a l⟩
      (m.viewBytes (m.viewOf a l) pa n, st, m.allocLine mg (deviceOf a.ctx) tc false l.sealed line)
  | none =>
    let m := m.recallFor (some (clusterOf a.core)) line
    let (st, m) := m.leaseLine line pts
    let s := m.lineStamps line
    let bs := m.viewBytes (m.viewOf a l) pa n
    let m := m.allocLine mg (deviceOf a.ctx) tc false l.sealed line
    (bs, st, if a.lane && !damp then m.setL1 a.core line ⟨lineValue m (m.viewOf a l) line, s.wts, s.rts, m.viewOf a l⟩ else m)

/-- A store part of a device line: always at the ordering point; the issuing L1's copy is updated (R100, R114). -/
def Mach.storeDev (m : Mach) (mg : Mgmt) (a : Actor) (l : Leaf) (tc : Traffic) (pa : Nat) (bs : List Byte) (pts : Nat) :
    Nat × Mach :=
  let line := lineOf pa
  let m := m.recallFor (some (clusterOf a.core)) line
  let (st, m) := m.stampLine line pts
  let m := m.putBytes (m.viewOf a l) pa bs
  let m := m.allocLine mg (deviceOf a.ctx) tc true l.sealed line
  (st, if a.lane && tabHas (m.core a.core).l1 line
    then m.setL1 a.core line ⟨lineValue m (m.viewOf a l) line, st, st, m.viewOf a l⟩ else m)

/-- A read-modify-write of a device line; `claim` makes the cluster unit its ordering point (R122). -/
def Mach.rmwDev (m : Mach) (mg : Mgmt) (a : Actor) (l : Leaf) (claim : Bool) (pa n : Nat)
    (f : List Byte → Option (List Byte)) (pts : Nat) : List Byte × Nat × Mach :=
  let line := lineOf pa
  let m := m.recallFor (some (clusterOf a.core)) line
  let m := if claim then { m with claims := tabSet m.claims line (clusterOf a.core) } else m
  let old := m.viewBytes (m.viewOf a l) pa n
  let (st, m) := m.stampLine line pts
  let m := match f old with
    | none => m
    | some bs => m.putBytes (m.viewOf a l) pa bs
  let m := m.allocLine mg (deviceOf a.ctx) .atomic true l.sealed line
  (old, st, m.dropL1 a.core line)

/-! ### Scratchpad parts -/

def Mach.spadBytes (m : Mach) (bid a n : Nat) : List Byte :=
  match m.block? bid with
  | none => zeros n
  | some b => memRead b.spad a n

def Mach.loadSpad (m : Mach) (bid a n pts : Nat) : List Byte × Nat × Mach :=
  let (st, m) := m.leaseSpad bid (a / 64) pts
  (m.spadBytes bid a n, st, m)

/-- The tag rule of scratchpad stores (R304): a write of the whole 64-byte block replaces the mask. -/
def spadTagAfter (b : Block) (i : Nat) (whole : Bool) (tags : Mask) : Tab Mask :=
  tabSet b.spadTags i (if whole then tags else tabGet b.spadTags i 0 ||| tags)

def Mach.storeSpad (m : Mach) (bid a : Nat) (bs : List Byte) (tags : Mask) (pts : Nat) : Nat × Mach :=
  let (st, m) := m.stampSpad bid (a / 64) pts
  (st, m.modBlock bid fun b => { b with spad := memWrite b.spad a bs
                                        spadTags := spadTagAfter b (a / 64) (bs.length == 64) tags })

def Mach.rmwSpad (m : Mach) (bid a n : Nat) (f : List Byte → List Byte) (tags : Mask) (pts : Nat) :
    List Byte × Nat × Mach :=
  let old := m.spadBytes bid a n
  let (st, m) := m.storeSpad bid a (f old) tags pts
  (old, st, m)

/-- Tag of the scratchpad blocks that a range touches. -/
def spadTag (b : Block) (a n : Nat) : Mask :=
  (unitPieces 64 (n / 64 + 2) a n).foldl (fun t p => t ||| tabGet b.spadTags (p.1 / 64) 0) 0

def spadBadRange (b : Block) (a n : Nat) : Bool :=
  (unitPieces 64 (n / 64 + 2) a n).any fun p => b.spadBad.contains (p.1 / 64)

/-- Heal every poisoned unit that the listed writes cover together (R506). -/
def coveredBy (writes : List (Nat × Nat)) (a n : Nat) : Bool :=
  (List.range n).all fun i => writes.any fun w => decide (w.1 ≤ a + i) && decide (a + i < w.1 + w.2)

def Mach.healDev (m : Mach) (writes : List (Nat × Nat)) : Mach :=
  if m.bad.isEmpty then m else { m with bad := m.bad.filter fun u => !coveredBy writes (32 * u) 32 }
def healSpad (b : Block) (writes : List (Nat × Nat)) : Block :=
  if b.spadBad.isEmpty then b else { b with spadBad := b.spadBad.filter fun u => !coveredBy writes (64 * u) 64 }

/-! ### Host and other modules' memory (R129) -/

def sharesLane (a b : List PressLane) : Bool := a.any b.contains

/-- What lanes read: their own posted stores that have not arrived show. -/
def overlayPosted (lanes : List PressLane) (bs : List Byte) (at_ : Nat → Place) (posted : List Posted) : List Byte :=
  (List.range bs.length).map fun i =>
    posted.foldl (fun b p =>
      if sharesLane p.lanes lanes then
        (List.range p.bytes.length).foldl (fun b j =>
          let here : Bool := match p.at_ with
            | .host a => at_ i == .host (a + j)
            | .peer k a => at_ i == .peer k (a + j)
            | .dev _ => false
            | .spad _ _ => false
          if here then p.bytes.getD j 0 else b) b
      else b) (bs.getD i 0)

def placeAdd (p : Place) (i : Nat) : Place :=
  match p with
  | .dev a => .dev (a + i)
  | .host a => .host (a + i)
  | .peer k a => .peer k (a + i)
  | .spad b a => .spad b (a + i)

/-- Bytes of host memory or of another module. -/
def Mach.farRead (m : Mach) (p : Place) (n : Nat) : List Byte :=
  match p with
  | .host a => memRead m.hostMem a n
  | .peer k a => memRead (tabGet m.peerMem k ⟨[]⟩) a n
  | .dev _ => zeros n
  | .spad _ _ => zeros n

def Mach.farWrite (m : Mach) (p : Place) (bs : List Byte) : Mach :=
  match p with
  | .host a => { m with hostMem := memWrite m.hostMem a bs }
  | .peer k a => { m with peerMem := tabSet m.peerMem k (memWrite (tabGet m.peerMem k ⟨[]⟩) a bs) }
  | .dev _ => m
  | .spad _ _ => m

/-! ### IDE streams (R320, R322): a function's accesses to host memory use link IDE and every stream it owns (log 18) -/

/-- The number of link IDE; the other numbers are selective streams. -/
def linkStream : Nat := 256
def serves (k : Nat) (s : Ide) (fn : Nat) : Bool := k == linkStream || s.fn == fn
def Ide.held (s : Ide) : Bool := s.limitAt.isSome && !s.insecure
def Mach.hostHeld (m : Mach) (ctx : Nat) : Bool := m.ide.cells.any fun s => serves s.1 s.2 (deviceOf ctx) && s.2.held
/-- Nothing goes to the host any more: a stream is Insecure, or the function's DMA has stopped (R322, R323). -/
def Mach.hostDead (m : Mach) (ctx : Nat) : Bool :=
  (m.ide.cells.any fun s => serves s.1 s.2 (deviceOf ctx) && s.2.insecure) || m.dmaOff.contains (deviceOf ctx)

/-- An access of a lane to host memory: on a held stream the instruction is delayed before issue. -/
def Mach.touchHost (m : Mach) (ctx : Nat) : Mach := if m.hostHeld ctx then { m with stalled := true } else m

/-- The next stamp that another module returns for a line of it: a later write has a greater one (R119). -/
def Mach.farStamp (m : Mach) (k pa : Nat) : Nat × Mach :=
  let key := 2 ^ 41 * k + lineOf pa
  let st := tabGet m.farLast key 0 + 1 + Config.remoteStamp k m.ids
  (st, { m with farLast := tabSet m.farLast key st, ids := m.ids + 1 })

/-- Uncorrectable data in another module's memory (R156, R175). -/
def Mach.peerBadRange (m : Mach) (k pa n : Nat) : Bool :=
  (tabGet m.peerBad k []).any fun u => decide (32 * u < pa + n) && decide (pa < 32 * u + 32)

/-- PCIe's Completer Abort (log 18). -/
def completerAbort : Nat := 4

/-- A POSTERR entry for a posted store of lanes (R281); a write of the part's own has none (log 18). -/
def Mach.postError (m : Mach) (ctx : Nat) (own : Bool) (va : BitVec 48) (peer : Bool) (status : Nat) : Mach :=
  if own then m
  else m.fqPush ctx 11 (va.setWidth 64, if peer then 1 else 0, BitVec.ofNat 64 status) [] none none

/-- DONE is the longest prefix of completed launches (R247). -/
def Queue.advance (q : Queue) : Nat → Queue
  | 0 => q
  | n + 1 =>
    let next := (q.done.toNat + 1) % 2 ^ 32
    if q.beyond.contains next then
      Queue.advance { q with done := BitVec.ofNat 32 next, beyond := q.beyond.filter (· != next) } n
    else q

def Mach.countDone (m : Mach) (queue seq : Nat) : Mach :=
  m.modQueue queue fun q =>
    let q := { q with beyond := seq :: q.beyond }
    q.advance q.beyond.length

/-- The entry of a completion word that is not written: DONE waits for it, unless it is dropped (R255, R283). -/
def Mach.unwritten (m : Mach) (ctx queue seq : Nat) : Mach :=
  let n := (m.ctx ctx).fq.length
  let m := m.fqPush ctx 6 (BitVec.ofNat 64 queue, BitVec.ofNat 64 seq, 0xC0) [] none none
  if (m.ctx ctx).fq.length = n then m.countDone queue seq
  else m.modCtx ctx fun c =>
    { c with fq := c.fq.zipIdx.map fun e => if e.2 = n then { e.1 with after := some (queue, seq) } else e.1 }

/-- A write to host memory arrives, or fails (R255, R322). -/
def Mach.arriveHost (m : Mach) (x : Posted) : Mach :=
  match x.after, m.hostDead x.ctx with
  | none, true => m.postError x.ctx x.lanes.isEmpty x.va false completerAbort
  | none, false => m.farWrite x.at_ x.bytes
  | some d, true => m.unwritten x.ctx d.1 d.2
  | some d, false => (m.farWrite x.at_ x.bytes).countDone d.1 d.2

/-- A posted store reaches its memory, or fails (R129, R322, R325). -/
def Mach.arrivePosted (m : Mach) (x : Posted) : Mach :=
  match x.at_ with
  | .host _ => m.arriveHost x
  | .peer k _ =>
    if m.unreach.contains k then ({ m with free := m.free + 1 } : Mach).postError x.ctx x.lanes.isEmpty x.va true (Config.linkStatus m.free)
    else m.farWrite x.at_ x.bytes
  | .dev _ => m
  | .spad _ _ => m

/-- A posted store that has to stay: its stream is held. -/
def Mach.postHeld (m : Mach) (x : Posted) : Bool :=
  match x.at_ with
  | .host _ => m.hostHeld x.ctx
  | .peer _ _ => false
  | .dev _ => false
  | .spad _ _ => false

/-- A write of the part's own to host or another module's memory, for a context: held with its stream, or lost. -/
def Mach.sendFar (m : Mach) (ctx : Nat) (p : Place) (bs : List Byte) : Mach :=
  let (id, m') := m.freshId
  let x : Posted := ⟨id, [], ctx, p, 0, bs, none⟩
  if m.postHeld x then { m' with posted := m.posted ++ [x] } else m.arrivePosted x

end Sys2Proof.Machine
end

