-- ==== Sys2Proof/Machine/Lifecycle.lean ====
section
/-! DEFINITION. What happens to warps, blocks, launches and contexts as a whole: suspension and holds (R278, R279), fault
records (R282), convergence (R46), completion of a launch (R255), abort and forced reset (R268, R269). -/

namespace Sys2Proof.Machine

/-! ## Fault records (R282) -/

/-- Codes of R277. -/
def Cause.code : Cause → Nat
  | .fetch _ => 0x08 | .illClause => 0x01 | .illInstr _ => 0x02 | .illOpnd _ => 0x03 | .illScope => 0x04
  | .stallShort _ => 0x05 | .scopeMm _ => 0x06 | .trap _ => 0x07 | .pundef _ => 0x14 | .spRange => 0x10 | .cwin => 0x11
  | .misalign => 0x12 | .mtype => 0x13 | .xlate _ => 0x15 | .perm => 0x16 | .tag => 0x17 | .data => 0x18

/-- DETAIL of R277. -/
def Cause.detail : Cause → Nat
  | .fetch d => d | .illClause => 0 | .illInstr d => d | .illOpnd d => d | .illScope => 0
  | .stallShort c => c.toNat | .scopeMm d => d | .trap c => c.toNat | .pundef d => d | .spRange => 0 | .cwin => 0
  | .misalign => 0 | .mtype => 0 | .xlate d => d | .perm => 0 | .tag => 0 | .data => 0

/-- Priorities of R277: the lowest number is reported. -/
def Cause.priority : Cause → Nat
  | .fetch _ => 1 | .illClause => 2 | .illInstr _ => 3 | .illOpnd _ => 4 | .illScope => 5
  | .stallShort _ => 6 | .scopeMm _ => 7 | .trap _ => 8 | .pundef _ => 9 | .spRange => 10 | .cwin => 11
  | .misalign => 12 | .mtype => 13 | .xlate _ => 14 | .perm => 15 | .tag => 16 | .data => 17

def scopeNum : Scope → Nat
  | .lane => 0 | .warp => 1 | .gang => 2 | .block => 3

/-- The 32 bytes of a record, field by field (R282). -/
def FaultRec.pack (r : FaultRec) : BitVec 256 :=
  let put (x lo : Nat) : Nat := x <<< lo
  BitVec.ofNat 256 <|
    put (r.cause.code % 256) 0 + put (r.cause.detail % 256) 8 + put (scopeNum r.scope) 16 + put (r.lane % 32) 18 +
    put (r.warp % 32) 23 + put (r.index % 16) 28 + put (r.block % 2 ^ 32) 32 + put r.pc.toNat 64 +
    put (r.core % 1024) 112 + put (r.widx % 32) 122 + put (if r.coal then 1 else 0) 127 + put r.addr.toNat 128 +
    put (r.bslot % 16) 176 + put r.amask.toNat 192 + put (r.size % 16) 224 + put (if r.write then 1 else 0) 228

/-- What a stopping element reports besides its cause: the address, log2 of the size, whether it writes (R282). -/
structure Stop where
  cause : Cause
  addr  : Nat
  size  : Nat
  write : Bool
  deriving DecidableEq, Repr

def Stop.plain (c : Cause) : Stop := ⟨c, 0, 0, false⟩

/-! ## Warps and blocks -/

def Lane.live (l : Lane) : Bool := l.st != .exited
def Lane.isParked (l : Lane) : Bool :=
  match l.st with
  | .parked _ => true
  | .ready => false
  | .waiting _ => false
  | .exited => false
def Warp.ended (w : Warp) : Bool := w.lanes.all fun l => !l.live
def Lane.joining (l : Lane) : Bool := l.st == .waiting .join

/-- Number of declared warps, from the launch of a block. -/
def Mach.recOf (m : Mach) (b : Block) : Option LaunchRec := (m.launch? b.launch).map (·.rec_)
def Mach.declared (m : Mach) (b : Block) : Nat := ((m.recOf b).map (·.warps)).getD 0
def Mach.gangs (m : Mach) (b : Block) : List LaneMask := ((m.recOf b).map (·.gangs)).getD []

/-- The gang of a declared warp (R251): its index. -/
def gangOf (gangs : List LaneMask) (w : Nat) : Option Nat :=
  (List.range gangs.length).find? fun k => (gangs.getD k 0).getLsbD w

def Block.warpKeys (b : Block) : List Nat := tabKeys b.warps

def modLanes (w : Warp) (f : Nat → Lane → Lane) : Warp :=
  { w with lanes := (List.range w.lanes.length).zipWith (fun i l => f i l) w.lanes }

def laneAt (w : Warp) (i : Nat) : Option Lane := w.lanes[i]?

/-- Make a lane ready at a program counter, with its age restarted (R43, R74). At index 0 it enters a clause, which is fetched
then (R339). -/
def Lane.readyAt (l : Lane) (pc : Pc) (now : Nat) : Lane :=
  { l with st := .ready, pc := pc, ageBase := now, code := if pc.index = 0 then [] else l.code }

/-- The next instruction of a clause, or the clause that follows (R39). -/
def Issue.seqPc (q : Issue) : Pc := if q.pc.index + 1 < q.ninstr then ⟨q.pc.clause, q.pc.index + 1⟩ else ⟨q.next, 0⟩

/-! ## Convergence (R46) -/

/-- Header fields of a fetched clause (R337). -/
def headerN (h : Word) : Nat := (h.toNat >>> 28) % 16
def headerClass (h : Word) : Nat := (h.toNat >>> 25) % 8
def headerWait (h : Word) : Nat := (h.toNat >>> 19) % 64
def headerExt (h : Word) : Nat := (h.toNat >>> 4) % 2 ^ 15
def headerYield (h : Word) : Bool := h.getLsbD 3
/-- Words of the clause (R337). -/
def clauseWords (h : Word) : Nat := 1 + headerN h + popcount (BitVec.ofNat 15 (headerExt h))
/-- Word index of instruction i (R337). -/
def wordIndex (h : Word) (i : Nat) : Nat := 1 + i + popcount (BitVec.ofNat 15 (headerExt h % 2 ^ i))

/-- The program counter after a lane's current instruction, from its fetched clause. -/
def Lane.afterPc (l : Lane) : Pc :=
  let h := l.code.headD 0
  if l.pc.index + 1 < headerN h then ⟨l.pc.clause, l.pc.index + 1⟩
  else ⟨l.pc.clause + BitVec.ofNat 48 (4 * clauseWords h), 0⟩

/-- The oldest lane of a list of (index, lane): least age base, ties to the lowest number (R43). -/
def oldestLane (l : List (Nat × Lane)) : Option (Nat × Lane) :=
  l.foldl (fun o x => match o with
    | none => some x
    | some y => if x.2.ageBase < y.2.ageBase then some x else some y) none

def indexed {α : Type} (l : List α) : List (Nat × α) := (List.range l.length).zip l

/-- CONVERGENCE_RELEASE (R46, R303). -/
def Warp.converge (w : Warp) (now : Nat) : Warp :=
  let live := (indexed w.lanes).filter fun x => x.2.live && !x.2.isParked
  if w.suspended || live.isEmpty || !(live.all fun x => x.2.joining) then w
  else
    match oldestLane live with
    | none => w
    | some o =>
      let all := live.all fun x => x.2.pc == o.2.pc
      let full := all && w.lanes.all fun l => !l.isParked
      let w' := modLanes w fun _ l =>
        if l.joining && l.pc == o.2.pc then l.readyAt l.afterPc now else l
      { w' with flow := if full then w.exitm else w.flow, group := 0 }

/-! ## Suspension and holds (R278, R279) -/

/-- An unused hold number (log 6). -/
def pickHold (c : Ctx) : BitVec 16 :=
  let x := Config.holdNumber c.holdNo
  if c.holds.any (·.num == x) then BitVec.ofNat 16 ((lowestFree 65536 (c.holds.map (·.num.toNat))).getD 0) else x

/-- A lane's fault records in the order of R282: warp, lane, park time. -/
def warpRecs (b : Block) (warps : List Nat) : List FaultRec :=
  warps.flatMap fun w =>
    match tabFind b.warps w with
    | none => []
    | some x => x.lanes.filterMap fun l =>
        match l.st with
        | .parked r => r
        | .ready => none
        | .waiting _ => none
        | .exited => none

def launchInfo (m : Mach) (b : Block) : BitVec 64 :=
  match m.launch? b.launch with
  | none => 0
  | some l => BitVec.ofNat 64 (l.queue % 512 + (l.seq % 2 ^ 32) <<< 32)

/-- A hold begins: its number is taken and its entry raised (R279, R281). -/
def Mach.beginHold (m : Mach) (bid : Nat) (unit : Scope) (warps : List Nat) (recs : List FaultRec) : Mach :=
  match m.block? bid with
  | none => m
  | some b =>
    let num := pickHold (m.ctx b.ctx)
    let m := m.modCtx b.ctx fun c =>
      { c with holds := c.holds ++ [⟨num, unit, bid, warps, false, false⟩], holdNo := c.holdNo + 1 }
    m.fqPush b.ctx 1 (BitVec.ofNat 64 (num.toNat + (scopeNum unit) <<< 16), launchInfo m b, 0)
      (recs.map FaultRec.pack) (some num) none

def Mach.suspendWarps (m : Mach) (bid : Nat) (warps : List Nat) : Mach :=
  warps.foldl (fun m w => m.modWarp bid w fun x => { x with suspended := true, group := 0 }) m

/-- The hold that a warp is part of. -/
def Mach.held (m : Mach) (bid w : Nat) : Bool := ((m.warp? bid w).map (·.suspended)).getD false

/-! ## Completion of a launch (R255) -/

/-- The engine actor of a launch. -/
def engineOf (ctx launch core : Nat) : Actor := ⟨ctx, launch, core, false, false⟩

/-- Posted stores of a context reach their memories (R133). -/
def Mach.deliverAll (m : Mach) (p : Posted → Bool) : Mach :=
  let go (x : Posted) : Bool := p x && !m.postHeld x
  (m.posted.filter go).foldl Mach.arrivePosted { m with posted := m.posted.filter fun x => !go x }

/-- What becomes of a completion word: written, never written, or on its way in a held stream (R255, R322). -/
inductive WordFate where
  | written | never | later
  deriving DecidableEq, Repr

/-- The completion word at CPLA (R255). -/
def Mach.writeCompletion (m : Mach) (mg : Mgmt) (l : Launch) (launch : Nat) (word : Nat) : WordFate × Mach :=
  let a := engineOf l.ctx launch 0
  let va := l.rec_.cpla.toNat
  match m.translate a va with
  | (.error _, m) => (.never, m)
  | (.ok leaf, m) =>
    if !leaf.w || (leaf.sealed && (l.world.isNone)) then (.never, m)
    else
      match m.placeOf mg l.ctx leaf va with
      | .error _ => (.never, m)
      | .ok (.dev pa) =>
        if m.badRange (m.viewOf a leaf) pa 4 then (.never, m)
        else
          let m := m.wringNow (lineOf pa)
          (.written, (m.storeDev mg a leaf .thread pa (bytesOfNat word 4) (m.maxStamp + 1)).2)
      | .ok (.host h) =>
        let m := m.deliverAll fun x => x.ctx == l.ctx
        if m.hostDead l.ctx then (.never, m)
        else if m.hostHeld l.ctx then
          let (id, m) := m.freshId
          (.later, { m with posted := m.posted ++ [⟨id, [], l.ctx, .host h, 0, bytesOfNat word 4, some (l.queue, l.seq)⟩] })
        else (.written, m.farWrite (.host h) (bytesOfNat word 4))
      | .ok (.peer k pa) =>
        if m.unreach.contains k then (.never, m)
        else (.written, (m.deliverAll fun x => x.ctx == l.ctx).sendFar l.ctx (.peer k pa) (bytesOfNat word 4))
      | .ok (.spad _ _) => (.never, m)

/-- The regions of which a launch is the last holder are released: their lines drain first (R138). -/
def Mach.releaseRegions (m : Mach) (ctx launch : Nat) : Mach :=
  let last (r : Region) : Bool := r.holders == [launch]
  let gone := ((m.ctx ctx).regions.filter last).map (·.id)
  let m := m.drainAll fun t => t.ctx == ctx && gone.contains t.region
  let m := if gone.isEmpty then m else m.applyDrains fun d => d.ctx == ctx
  m.modCtx ctx fun c =>
    { c with regions := (c.regions.filter fun r => !last r).map fun r =>
        { r with holders := r.holders.filter (· != launch) } }

/-- SITE of a definition (R161). -/
def siteField (d : PressImage) : Nat := field d.header.toNat 6 5

/-- Whether an arriving request is applied at its channel (R154, R155). -/
def Mach.siteOf (m : Mach) (r : PressReq) : Bool :=
  !r.home && (siteField r.image == 1 || (siteField r.image == 2 && r.fast && r.world.isNone && !tabHas m.lines (lineOf r.granule)))

/-- The combining entries of a context are sent: each arrives as one batch, after what arrived before (R172, R318). -/
def Mach.sendCombined (m : Mach) (ctx : Nat) : Mach :=
  let mine (p : PressReq) : Bool := p.ctx == ctx && p.comb.isSome
  { m with presses := (m.presses.filter fun p => !mine p) ++
      (m.presses.filter mine).map fun (p : PressReq) => { p with comb := none, chan := m.siteOf p } }

/-- A world ends: its trackers drain, its combining entries are sent, its lines are sealed, written back and invalidated, its key
is erased (R318). -/
def Mach.endWorld (m : Mach) (ctx : Nat) : Mach :=
  match (m.ctx ctx).world with
  | none => m
  | some w =>
    let m := (m.drainAll (·.ctx == ctx)).applyDrains (·.ctx == ctx)
    ((m.sendCombined ctx).sealWorld w.number).modCtx ctx fun c => { c with world := none }

/-- LAUNCH_COMPLETION (R255) with a status and detail. -/
def Mach.completeLaunch (m : Mach) (mg : Mgmt) (launch status detail : Nat) : Mach :=
  match m.launch? launch with
  | none => m
  | some l =>
    let m := m.releaseRegions l.ctx launch
    let m := if l.world.isSome then m.endWorld l.ctx else m
    let noWord := l.rec_.cpla == 0 || l.rec_.cpla.toNat % 4 != 0
    let (fate, m) := if noWord then (.written, m) else m.writeCompletion mg l launch (status + detail * 256)
    let m := { m with launches := tabErase m.launches launch }
    match fate with
    | .written => m.countDone l.queue l.seq
    | .never => m.unwritten l.ctx l.queue l.seq
    | .later => m

/-! ## Stopping blocks (R268, R269) -/

def coreEmpty (m : Mach) (core : Nat) : Bool :=
  !(m.blocks.cells.any fun b => b.2.core == core && b.2.resident)

/-- What a block holds on its core is freed: tiles, queued commands, bins, the bypass (R61, R268). -/
def Core.freeBlock (c : Core) (bid : Nat) : Core :=
  { c with tiles := tabFilter (fun _ t => t.owner != bid) c.tiles
           tileQ := c.tileQ.filter (·.bid != bid)
           mq := c.mq.filter (·.bid != bid)
           chans := tabFilter (fun _ x => !x.cmds.isEmpty)
             (tabMap (fun x => { x with cmds := x.cmds.filter (·.bid != bid) }) c.chans)
           bypass := match c.bypass with
             | none => none
             | some b => if b.owner = bid then none else some b
           bins := tabFilter (fun _ b => b.bid != bid) c.bins }

/-- A block stops at once and is not saved; its holds end. -/
def Mach.stopBlock (m : Mach) (bid : Nat) : Mach :=
  match m.block? bid with
  | none => m
  | some b =>
    let m := m.modCore b.core fun c => c.freeBlock bid
    let m := { m with blocks := tabErase m.blocks bid
                      wrung := m.wrung.filter (·.issue.bid != bid)
                      gate := m.gate.filter (·.bid != bid) }
    let m := m.modCtx b.ctx fun c => { c with holds := c.holds.filter (·.bid != bid) }
    if coreEmpty m b.core then m.modCore b.core fun c => { c with split := none } else m

def Mach.blocksOf (m : Mach) (p : Block → Bool) : List Nat := (m.blocks.cells.filter fun b => p b.2).map (·.1)

/-- Fault mode ABORT, or the ABORT command: the launch ends with ABORTED (R269, R286). -/
def Mach.abortLaunch (m : Mach) (mg : Mgmt) (launch : Nat) : Mach :=
  let m := (m.blocksOf (·.launch == launch)).foldl Mach.stopBlock m
  m.completeLaunch mg launch 3 0

/-- A forced reset of a context (R268). `why` is INFO0 of its fatal entry (R281). A world's trackers drain and its combining
entries are sent first (R318); what else is open is discarded. -/
def Mach.forcedReset (m : Mach) (mg : Mgmt) (ctx : Nat) (why : Nat) : Mach :=
  let m := (m.blocksOf (·.ctx == ctx)).foldl Mach.stopBlock m
  let sent := if (m.ctx ctx).world.isSome then (m.presses.filter fun p => p.ctx == ctx && p.comb.isSome).map (·.id) else []
  let m := m.endWorld ctx
  let stays (p : PressReq) : Bool := p.ctx != ctx || p.remote.isSome || sent.contains p.id
  let m := { m with
    presses := m.presses.filter stays
    heldBy := tabFilter (fun _ id => m.presses.any fun p => p.id == id && stays p) m.heldBy
    shares := m.shares.filter fun s => !(m.trackers.any fun t => t.ctx == ctx && t.holder == s.holder && t.line == s.line)
      && !(m.drains.any fun d => d.ctx == ctx && d.holder == s.holder && d.line == s.line)
    trackers := m.trackers.filter (·.ctx != ctx)
    drains := m.drains.filter (·.ctx != ctx)
    claims := ⟨[]⟩ }
  let m := m.modCtx ctx fun c =>
    { c with press := ⟨[]⟩, regions := [], holds := [], deadline := none, stuckInt := none, stuckExt := none,
             run := if c.run == .switchedOut then .switchedOut else .running }
  let mine := (m.launches.cells.filter fun l => l.2.ctx == ctx).map (·.1)
  let m := mine.foldl (fun m l => m.completeLaunch mg l 4 0) m
  let m := m.fqPush ctx 10 (BitVec.ofNat 64 why, 0, 0) [] none none
  let qs := (m.queues.cells.filter fun q => q.2.ctx == some ctx).map (·.1)
  qs.foldl (fun m q =>
    let m := m.modQueue q fun x => { x with state := .faulted, fcause := 5, woken := false }
    m.fqPush ctx 7 (BitVec.ofNat 64 q, 5, BitVec.ofNat 64 (m.queue q).head.toNat) [] none none) m

/-- What the fault mode of a launch makes of an entry that names one of its blocks (R269, log 10). -/
def Mach.faultMode (m : Mach) (mg : Mgmt) (launch : Nat) : Mach :=
  match m.launch? launch with
  | none => m
  | some l =>
    if l.rec_.fmode = 1 then m.abortLaunch mg launch
    else if l.rec_.fmode = 2 then m.forcedReset mg l.ctx 3
    else m

/-- A warp suspends under R278 once no lane of it can run on: its hold begins and the fault mode applies. -/
def Mach.testSuspend (m : Mach) (mg : Mgmt) (bid w : Nat) : Mach :=
  match m.block? bid with
  | none => m
  | some b =>
    match tabFind b.warps w with
    | none => m
    | some x =>
      if x.suspended || !(x.lanes.any Lane.isParked) then m
      else if !(x.lanes.all fun l => !l.live || l.isParked || l.joining) then m
      else
        let m := (m.suspendWarps bid [w]).beginHold bid .warp [w] (warpRecs b [w])
        m.faultMode mg b.launch

/-- A set or block is suspended at once under R79. -/
def Mach.suspendSet (m : Mach) (mg : Mgmt) (bid : Nat) (unit : Scope) (warps : List Nat) : Mach :=
  match m.block? bid with
  | none => m
  | some b =>
    let m := (m.suspendWarps bid warps).beginHold bid unit warps (warpRecs b warps)
    m.faultMode mg b.launch

/-- Whether the context names the region of an XLATE already (R290): COAL, and the region becomes unresolved. -/
def Mach.noteRegion (m : Mach) (ctx va : Nat) : Bool × Mach :=
  let r := va / 65536
  if (m.ctx ctx).unresolved.contains r then (true, m)
  else (false, m.modCtx ctx fun c => { c with unresolved := r :: c.unresolved })

/-- Taking a trap or fault: one lane parks with its record (R275, R282). Saved are its program counter and what stopped it;
the lane's registers stay as they were. -/
def Mach.park (m : Mach) (q : Issue) (scope : Scope) (amask : LaneMask) (lane : Nat) (s : Stop) : Mach :=
  match m.block? q.bid with
  | none => m
  | some b =>
    let (coal, m) := match s.cause with
      | .xlate _ => m.noteRegion b.ctx s.addr
      | _ => (false, m)
    let r : FaultRec :=
      { cause := s.cause, scope := scope, lane := lane, warp := q.warp, index := q.pc.index, block := b.index,
        pc := q.pc.clause, core := b.core, widx := q.widx, coal := coal, addr := BitVec.ofNat 48 s.addr,
        bslot := b.bslot, amask := amask, size := s.size, write := s.write, time := m.cycle }
    m.modWarp q.bid q.warp fun w =>
      let w := modLanes w fun i l => if i = lane then { l with st := .parked (some r) } else l
      { w with parkedAt := some (w.parkedAt.getD m.cycle) }

/-- Lanes parked with the element set, without a record of their own (R276). -/
def Mach.parkBare (m : Mach) (bid w : Nat) (lanes : LaneMask) : Mach :=
  m.modWarp bid w fun x =>
    let x := modLanes x fun i l => if lanes.getLsbD i && !l.isParked then { l with st := .parked none } else l
    { x with parkedAt := some (x.parkedAt.getD m.cycle) }

end Sys2Proof.Machine
end

