-- ==== Sys2Proof/Machine/Operands.lean ====
section
/-! DEFINITION. Operands: which codes a position admits (R84, R345, R358, R368), what an element of an instruction reads
(R37, R68, R70, R83, R354, R357), and writing registers with their pending old values (R350, R351). -/

namespace Sys2Proof.Machine

/-! ## Admission (ILLOPND) -/

/-- What the operand checks know of the issuing warp: declared v registers, membership of a declared gang, and whether the
instruction stands above lane scope. -/
structure Owner where
  regs : Nat
  gang : Bool
  wide : Bool
  /-- Brood slots that the launch declares. -/
  brood : Nat
  deriving DecidableEq, Repr

/-- The kinds a position admits. -/
structure Kinds where
  v    : Bool := false
  s    : Bool := false
  p    : Bool := false
  a    : Bool := false
  spec : Bool := false
  zero : Bool := false
  ones : Bool := false
  deriving DecidableEq, Repr

/-- v register `i` exists (R84, R70). -/
def Owner.hasV (ow : Owner) (i : Nat) : Bool := decide (i < ow.regs) || (ow.gang && decide (120 ≤ i))

/-- An aligned range of `w` registers (R358). -/
def okRangeV (ow : Owner) (w i : Nat) : Bool :=
  i % w == 0 && decide (i + w ≤ 128) && (List.range w).all fun j => ow.hasV (i + j)
def okRangeS (w i : Nat) : Bool := i % w == 0 && decide (i + w ≤ 64)

/-- Whether a position that admits `k` at range width `w` admits this code. -/
def admits (ow : Owner) (k : Kinds) (w : Nat) : Operand → Bool
  | .v n => k.v && okRangeV ow w n.toNat
  | .s n => k.s && okRangeS w n.toNat
  | .p _ => k.p
  | .a _ => k.a
  | .zero => k.zero
  | .laneId => k.spec
  | .warpId => k.spec
  | .gangId => k.spec
  | .blockId => k.spec
  | .coreId => k.spec
  | .clusId => k.spec
  | .ones => k.ones
  | .bad _ => false

/-- Sources of the integer instructions: v, s, the special operands, zero and ones. -/
def srcInt : Kinds := { v := true, s := true, spec := true, zero := true, ones := true }
/-- Sources of the floating-point instructions (R402). -/
def srcFp : Kinds := { v := true, s := true, zero := true, ones := true }
def srcVS : Kinds := { v := true, s := true }
def srcVSZ : Kinds := { v := true, s := true, zero := true }
def srcP : Kinds := { p := true }
def onlyV : Kinds := { v := true }
def onlyZero : Kinds := { zero := true }
/-- A destination: v, zero, and s above lane scope (R368). -/
def dstVSZ (ow : Owner) : Kinds := { v := true, s := ow.wide, zero := true }
def dstVS (ow : Owner) : Kinds := { v := true, s := ow.wide }

def isP : Operand → Bool
  | .p _ => true
  | .v _ | .s _ | .a _ | .zero | .laneId | .warpId | .gangId | .blockId | .coreId | .clusId | .ones | .bad _ => false
def isS : Operand → Bool
  | .s _ => true
  | .v _ | .p _ | .a _ | .zero | .laneId | .warpId | .gangId | .blockId | .coreId | .clusId | .ones | .bad _ => false
def isZero : Operand → Bool
  | .zero => true
  | .v _ | .s _ | .p _ | .a _ | .laneId | .warpId | .gangId | .blockId | .coreId | .clusId | .ones | .bad _ => false

/-- The first position whose check fails, lowest position first. -/
def firstBad : List (Nat × Bool) → Option Nat
  | [] => none
  | (pos, ok) :: r => if ok then firstBad r else some pos

/-! ## Registers of a warp -/

def Warp.getReg (w : Warp) : RegName → Reg
  | .v lane n => match laneAt w lane with
    | none => ⟨0, 0⟩
    | some l => tabGet l.v n ⟨0, 0⟩
  | .p lane n => match laneAt w lane with
    | none => ⟨0, 0⟩
    | some l => ⟨(tabGet l.p n (Pred.mk 0 0)).val.setWidth 32, (tabGet l.p n (Pred.mk 0 0)).tag⟩
  | .s n => tabGet w.s n ⟨0, 0⟩

def modLane (w : Warp) (i : Nat) (f : Lane → Lane) : Warp := { w with lanes := w.lanes.modify i f }

def Warp.setReg (w : Warp) (r : RegName) (x : Reg) : Warp :=
  match r with
  | .v lane n => modLane w lane fun l => { l with v := tabSet l.v n x }
  | .p lane n => modLane w lane fun l => { l with p := tabSet l.p n ⟨x.val.setWidth 4, x.tag⟩ }
  | .s n => { w with s := tabSet w.s n x }

/-- A register write of instruction `id` whose result takes effect later: the value it held is kept (R350, R351). -/
def Warp.write (w : Warp) (id : Nat) (r : RegName) (x : Reg) : Warp :=
  let old := w.getReg r
  let w := { w with pend := (w.pend.map fun (p : Pend) => if p.reg = r then { p with live := false } else p) ++
                              [Pend.mk id r old true] }
  w.setReg r x

/-- A result that arrives later: written unless a younger write came first (R354). -/
def Warp.arriveReg (w : Warp) (id : Nat) (r : RegName) (x : Reg) : Warp :=
  if w.pend.any fun p => p.id == id && p.reg == r && p.live then w.setReg r x else w

/-- The end of an instruction in flight: its writes take effect, its slot falls (R351, R352). -/
def endFlight (w : Warp) (f : Flight) : Warp :=
  { w with
    flights := w.flights.filter (·.id != f.id)
    pend := w.pend.filter (·.id != f.id)
    ws := match f.slot with
      | none => w.ws
      | some j => w.ws.modify j (· - 1) }

def Warp.endId (w : Warp) (id : Nat) : Warp :=
  match w.flights.find? (·.id == id) with
  | none => w
  | some f => endFlight w f

/-- Flights whose cycle has come. -/
def Warp.settle (w : Warp) (now : Nat) : Warp :=
  (w.flights.filter fun f => match f.due with | none => false | some t => decide (t ≤ now)).foldl endFlight w

/-! ## What an element sees -/

/-- One element of an instruction at execution: its lane, its registers as of issue, and what R69 or R301 adds to every
result. -/
structure View where
  mg     : Mgmt
  q      : Issue
  scope  : Scope
  b      : Block
  warp   : Nat
  w      : Warp
  lane   : Nat
  l      : Lane
  rank   : Nat
  gang   : Option Nat
  /-- Number of members of the set, times 32 (R473). -/
  size   : Nat
  /-- The free-value number of this issue (log 3) and the number of the instruction. -/
  n      : Nat
  id     : Nat
  /-- Guard bits after negation. -/
  gbits  : BitVec 4
  base   : Mask
  /-- The greatest pts of the element set above lane scope, the lane's own at lane scope (R118). -/
  pts    : Nat
  /-- The lanes for which the access is made: the lane itself, or the element set. -/
  set    : List PressLane
  deriving Repr

/-- Element index (R66). -/
def View.idx (v : View) : Nat := 32 * v.rank + v.lane

/-- A register that pending writes cover, newest first: the written value or an older one, by the free value (R357). -/
def earlyValue (n lane pos : Nat) (cur : Reg) : List Pend → Reg
  | [] => cur
  | p :: r => if Config.earlyRead n lane pos then cur else earlyValue n lane (pos + 64) p.old r

def Warp.readReg (w : Warp) (n lane pos : Nat) (r : RegName) : Reg :=
  earlyValue n lane pos (w.getReg r) (w.pend.reverse.filter (·.reg == r))

/-- The register that an operand names for a lane, `k` registers into its range. p7, zero, ones and the special operands
name none. -/
def regOf (lane : Nat) (o : Operand) (k : Nat) : Option RegName :=
  match o with
  | .v n => some (.v lane (n.toNat + k))
  | .s n => some (.s (n.toNat + k))
  | .p n => if n = 7 then none else some (.p lane n.toNat)
  | .a _ => none
  | .zero => none
  | .laneId => none
  | .warpId => none
  | .gangId => none
  | .blockId => none
  | .coreId => none
  | .clusId => none
  | .ones => none
  | .bad _ => none

/-- What an operand that names no register reads (R37, R84, R345). -/
def View.const (v : View) (o : Operand) : Word :=
  match o with
  | .v _ => 0
  | .s _ => 0
  | .p _ => 15
  | .a _ => 0
  | .zero => 0
  | .laneId => BitVec.ofNat 32 v.lane
  | .warpId => BitVec.ofNat 32 v.warp
  | .gangId => match v.gang with
    | none => BitVec.allOnes 32
    | some g => BitVec.ofNat 32 g
  | .blockId => BitVec.ofNat 32 v.b.index
  | .coreId => BitVec.ofNat 32 v.b.core
  | .clusId => BitVec.ofNat 32 (clusterOf v.b.core)
  | .ones => BitVec.allOnes 32
  | .bad _ => 0

/-- A source read: operand position, operand, register `k` of its range. -/
def View.rd (v : View) (pos : Nat) (o : Operand) (k : Nat) : Reg :=
  match regOf v.lane o k with
  | some r => v.w.readReg v.n v.idx (8 * pos + k) r
  | none => ⟨v.const o, 0⟩

def View.val (v : View) (pos : Nat) (o : Operand) : Word := (v.rd pos o 0).val
/-- A 64-bit pair, low word first (R5). -/
def View.val64 (v : View) (pos : Nat) (o : Operand) : BitVec 64 := (v.rd pos o 1).val ++ (v.rd pos o 0).val
def View.vals (v : View) (pos : Nat) (o : Operand) (n : Nat) : List Word :=
  (List.range n).map fun k => (v.rd pos o k).val
/-- Predicate bits of an operand. -/
def View.pbits (v : View) (pos : Nat) (o : Operand) : BitVec 4 := (v.val pos o).setWidth 4
/-- Bit 0 of a predicate operand (R85). -/
def View.pbit (v : View) (pos : Nat) (o : Operand) : Bool := (v.pbits pos o).getLsbD 0

/-- A source operand: position, code, registers in its range. -/
structure Src where
  pos : Nat
  o   : Operand
  n   : Nat
  deriving DecidableEq, Repr

/-- The single registers that the sources name for a lane. -/
def srcRegs (lane : Nat) (l : List Src) : List RegName :=
  l.flatMap fun s => (List.range s.n).filterMap fun k => regOf lane s.o k

/-- The union of the tags of the sources. -/
def View.tags (v : View) (l : List Src) : Mask :=
  l.foldl (fun t s => (List.range s.n).foldl (fun t k => t ||| (v.rd s.pos s.o k).tag) t) 0

/-- Operand code of a register (R345), for DETAIL of STALLSHORT. -/
def RegName.code : RegName → BitVec 8
  | .v _ n => BitVec.ofNat 8 n
  | .s n => BitVec.ofNat 8 (0x80 + n)
  | .p _ n => BitVec.ofNat 8 (0xC0 + n)

/-- The first of these registers that has a pending write (R356). -/
def Warp.shortOf (w : Warp) (l : List RegName) : Option (BitVec 8) :=
  (l.find? fun r => w.pend.any (·.reg == r)).map RegName.code

/-! ## Guards (R346, R85) -/

def Warp.guardReg (w : Warp) (n lane : Nat) (g : Guard) (key : Nat) : Reg :=
  match regOf lane (.p g.p) 0 with
  | some r => w.readReg n key 32 r
  | none => ⟨15, 0⟩

/-- Guard bits after negation. -/
def guardBits (g : Guard) (x : Reg) : BitVec 4 :=
  let b := x.val.setWidth 4
  if g.neg then ~~~b else b

/-- A lane is active when the bit of any of its elements is set (R85, R416, R449). -/
def activeBits (width : Nat) (b : BitVec 4) : Bool :=
  if width = 8 then b != 0 else if width = 16 then b.getLsbD 0 || b.getLsbD 2 else b.getLsbD 0

/-- Predicate bits that element `j` of width `w` owns (R85). -/
def predBits (w j : Nat) : BitVec 4 := if w = 8 then BitVec.twoPow 4 j else if j = 0 then 0b0011 else 0b1100

/-- The guard bit of element `j` of width `w` (R85). -/
def elemGuard (g : BitVec 4) (w j : Nat) : Bool := if w = 8 then g.getLsbD j else g.getLsbD (2 * j)

/-- The bits of a word that element `j` of width `w` holds (R186). -/
def elemBits (w j : Nat) : Word := BitVec.ofNat 32 ((2 ^ w - 1) <<< (w * j))

/-- The bits of the active elements of a word, and of a predicate (R85, R416, R449). -/
def activeElems (w : Nat) (g : BitVec 4) : Word :=
  (List.range (32 / w)).foldl (fun m j => if elemGuard g w j then m ||| elemBits w j else m) 0
def activePreds (w : Nat) (g : BitVec 4) : BitVec 4 :=
  (List.range (32 / w)).foldl (fun p j => if elemGuard g w j then p ||| predBits w j else p) 0

/-- No guard: p7, not negated. -/
def always : Guard := ⟨7, false⟩

end Sys2Proof.Machine
end

