-- ==== Sys2Proof/Machine/Ops.lean ====
section
/-! DEFINITION. How an instruction is issued and executed: decode causes, scopes and active masks (R64 to R69, R81, R348),
the checking scoreboard (R356), precise stopping (R275 to R277), results and origin tags (R301 to R303), write slots
(R349 to R352), rendezvous (R71 to R82). Each instruction is an `Op`: what its reference entry adds to these rules. -/

namespace Sys2Proof.Machine

/-! ## What an instruction is -/

/-- Where an element goes after an instruction (R39, R41). `turn` is the next instruction after a group selection (R45). -/
inductive Next where
  | seq
  | turn
  | jump (target : BitVec 48)
  | exit
  | wait (w : Wait)
  deriving DecidableEq, Repr

/-- A register result: register `k` of the range at `dst`, the bits of it that are written, and a source mask that takes the
place of the instruction's. -/
structure Out where
  dst  : Operand
  k    : Nat := 0
  val  : Word
  bits : Word := BitVec.allOnes 32
  tag  : Option Mask := none
  deriving DecidableEq, Repr

/-- What an element writes of a result (R85, R416, R449): where elements are narrower than a word, those whose guard bit in its
lane is set; an inactive one keeps its value. -/
def View.part (width : Nat) (v : View) (o : Out) : Out :=
  if width = 32 then o
  else { o with bits := o.bits &&& (if isP o.dst then (activePreds width v.gbits).setWidth 32 else activeElems width v.gbits) }

/-- What an element does when it does not stop. -/
structure Done where
  outs   : List Out := []
  /-- Results that come later: the registers at these destinations have pending writes (R350). -/
  owed   : List (Operand × Nat) := []
  /-- The element's part in an instruction that ends later is over at once. -/
  closed : Bool := false
  /-- Masks besides those of the source registers (R302). -/
  tag    : Mask := 0
  next   : Next := .seq
  pts    : Option Nat := none
  /-- The return stack and spill count. -/
  stack  : Option (List (BitVec 48) × Nat) := none
  posted : Option Nat := none
  /-- What F receives besides the guard masks (R303). -/
  flow   : Mask := 0
  deriving DecidableEq, Repr

/-- When the results take effect and the slot falls (R350, R352): after L cycles, at a later moment of the part's own, at
issue, or when something the instruction started ends. -/
inductive Timing where
  | fixed (latency : Nat)
  | later
  | atIssue
  | open_
  deriving DecidableEq, Repr

/-- The scopes of R65. -/
structure Scopes where
  lane  : Bool := false
  warp  : Bool := false
  gang  : Bool := false
  block : Bool := false
  deriving DecidableEq, Repr

def allScopes : Scopes := ⟨true, true, true, true⟩
def laneOnly : Scopes := { lane := true }
def warpOnly : Scopes := { warp := true }
def wideScopes : Scopes := ⟨false, true, true, true⟩
def laneWarp : Scopes := { lane := true, warp := true }

abbrev Effect := Except Stop Done

/-- An instruction: what its entry says beyond the general rules. -/
structure Op where
  head   : Head
  guard  : Guard := always
  /-- Element width of the guard (R85). -/
  width  : Nat := 32
  /-- Held back by an outstanding FENCE (R411). -/
  fenced : Bool := false
  scopes : Scopes
  coll   : Bool := false
  /-- The operand position that raises ILLOPND as a decode cause. -/
  check  : Owner → Ctx → Option Nat
  srcs   : Ctx → List Src
  /-- Sources that the leader element alone reads, beside `srcs` (the base of a collective SBIN, R469). -/
  leads  : List Src := []
  timing : Timing
  /-- F gains the guard masks (R303); PREF changes no F (R454). -/
  flow   : Bool := true
  /-- Issue conditions of its own. -/
  ready  : List View → Mach → Bool := fun _ _ => true
  /-- Lines and holders that must drain before it can run (R148). -/
  wring  : List View → Mach → List (Nat × Nat) := fun _ _ => []
  /-- The effects, one for each element handed to it in ascending index: the active lanes at lane scope, the leader of a
  uniform instruction, every element of a collective one. -/
  run    : List View → Mach → List Effect × Mach

/-- An instruction that computes registers only, element by element. -/
def pureRun (f : View → List Out) : List View → Mach → List Effect × Mach :=
  fun vs m => (vs.map fun v => .ok { outs := f v }, m)

/-- Element after element, each seeing what the earlier ones did. -/
def eachRun (f : View → Mach → Effect × Mach) : List View → Mach → List Effect × Mach
  | [], m => ([], m)
  | v :: r, m =>
    let (e, m) := f v m
    let (es, m) := eachRun f r m
    (e :: es, m)

/-! ## Sets (R64 to R66) -/

/-- A member of the set: the lanes of its groups that issued, those active, and its registers as of issue. -/
structure Member where
  warp   : Nat
  rank   : Nat
  group  : LaneMask
  active : LaneMask
  w      : Warp
  deriving Repr

def isWide (s : Scope) : Bool := s != .lane
def isSet (s : Scope) : Bool := s == .gang || s == .block

/-- The slot number and member warps of the set that a warp would join (R66, R71). -/
def Mach.setOf (m : Mach) (b : Block) (s : Scope) (warp : Nat) : Option (Nat × List Nat) :=
  if decide (warp ≥ m.declared b) then none
  else match s with
    | .lane => none
    | .warp => none
    | .gang => (gangOf (m.gangs b) warp).map fun k => (k, bitsOf ((m.gangs b).getD k 0))
    | .block => some (4, List.range (m.declared b))

def permitted (s : Scopes) : Scope → Bool
  | .lane => s.lane
  | .warp => s.warp
  | .gang => s.gang
  | .block => s.block

/-- R65: a scope the instruction is not permitted at, gang scope outside a declared gang, a set-wide scope in a brood warp. -/
def Op.scopeOk (op : Op) (m : Mach) (b : Block) (warp : Nat) : Bool :=
  permitted op.scopes op.head.scope && (!isSet op.head.scope || (m.setOf b op.head.scope warp).isSome)

def Mach.owner (m : Mach) (b : Block) (warp : Nat) (s : Scope) : Owner :=
  { regs := ((m.recOf b).map (·.regs)).getD 0, gang := (m.setOf b .gang warp).isSome, wide := isWide s
    brood := ((m.recOf b).map (·.brood)).getD 0 }

/-- The guard register of a lane. -/
def Op.guardOf (op : Op) (n : Nat) (mem : Member) (lane : Nat) : Reg :=
  mem.w.guardReg n lane op.guard (32 * mem.rank + lane)

/-- Active lanes of a group (R81). -/
def Op.activeOf (op : Op) (n : Nat) (w : Warp) (rank : Nat) (group : LaneMask) : LaneMask :=
  maskOf <| (bitsOf group).filter fun i =>
    activeBits op.width (guardBits op.guard (w.guardReg n i op.guard (32 * rank + i)))

/-- Guard masks of every lane of the member's groups (R69, R303). -/
def Op.guardTags (op : Op) (n : Nat) (mem : Member) : Mask :=
  (bitsOf mem.group).foldl (fun t i => t ||| (op.guardOf n mem i).tag) 0

/-- The masks that R69 adds to the sources: guards and flow masks of every arrived member; one that has ended adds nothing. -/
def Op.setTags (op : Op) (n : Nat) (mems : List Member) : Mask :=
  mems.foldl (fun t x => if x.group = 0 then t else t ||| op.guardTags n x ||| x.w.flow) 0

/-- A member's registers with the scalars of the leader warp, which every element of a set reads (R68). -/
def Warp.withScalars (w lead : Warp) : Warp :=
  let scalar (p : Pend) : Bool := match p.reg with
    | .s _ => true
    | .v _ _ => false
    | .p _ _ => false
  { w with s := lead.s, pend := (w.pend.filter fun p => !scalar p) ++ lead.pend.filter scalar }

/-- The elements, in ascending index. -/
def Op.views (op : Op) (mg : Mgmt) (q : Issue) (b : Block) (gangs : List LaneMask) (n id : Nat) (mems : List Member) :
    List View :=
  let wide := isWide op.head.scope
  let tags := op.setTags n mems
  let lanes := mems.flatMap fun x => (bitsOf x.active).filterMap fun i => (laneAt x.w i).map fun l => (x, i, l)
  let top := lanes.foldl (fun t x => max t x.2.2.pts) 0
  let seen (x : Member) : Warp := if isSet op.head.scope then x.w.withScalars ((lanes.head?.map (·.1.w)).getD x.w) else x.w
  lanes.map fun (x, i, l) =>
    let g := op.guardOf n x i
    { mg := mg, q := q, scope := op.head.scope, b := b, warp := x.warp, w := seen x, lane := i, l := l, rank := x.rank,
      gang := if decide (x.warp < 32) then gangOf gangs x.warp else none, size := 32 * mems.length, n := n, id := id,
      gbits := guardBits op.guard g, base := if wide then tags else g.tag ||| x.w.flow, pts := if wide then top else l.pts
      set := if wide then lanes.map fun y => ⟨q.bid, y.1.warp, y.2.1⟩ else [⟨q.bid, x.warp, i⟩] }

/-! ## Commit -/

/-- Move a lane on (R39, R41). -/
def moveLane (q : Issue) (now : Nat) (nx : Next) (l : Lane) : Lane :=
  match nx with
  | .seq => l.readyAt q.seqPc now
  | .turn => l.readyAt q.seqPc now
  | .jump t => l.readyAt ⟨t, 0⟩ now
  | .exit => { l with st := .exited, rstack := [], spill := 0 }
  | .wait w => { l with st := .waiting w, ageBase := now }

def laneDone (q : Issue) (now : Nat) (d : Done) (l : Lane) : Lane :=
  let l := { l with
    pts := max l.pts (d.pts.getD 0)
    rstack := match d.stack with | none => l.rstack | some s => s.1
    spill := match d.stack with | none => l.spill | some s => s.2
    posted := max l.posted (d.posted.getD 0) }
  moveLane q now d.next l

/-- Write one result into the registers of a lane's warp: only the bits named, with the whole mask. -/
def writeOut (id lane : Nat) (tag base : Mask) (w : Warp) (o : Out) : Warp :=
  match regOf lane o.dst o.k with
  | none => w
  | some r =>
    let old := (w.getReg r).val
    w.write id r ⟨(old &&& ~~~o.bits) ||| (o.val &&& o.bits), (o.tag.getD tag) ||| base⟩

/-- A register that a result will reach later: the value it holds is kept, pending (R350). -/
def owe (id lane : Nat) (w : Warp) (o : Operand × Nat) : Warp :=
  match regOf lane o.1 o.2 with
  | none => w
  | some r => w.write id r (w.getReg r)

def exits (d : Done) : Bool :=
  match d.next with
  | .exit => true
  | .seq => false
  | .turn => false
  | .jump _ => false
  | .wait _ => false

/-- The result of one element for one lane: its registers, then where it goes. Scalars are written once a warp. -/
def commitLane (q : Issue) (now id lane : Nat) (tag base : Mask) (d : Done) (w : Warp) : Warp :=
  let w := (d.outs.filter fun o => !isS o.dst).foldl (writeOut id lane (tag ||| d.tag) base) w
  let w := (d.owed.filter fun o => !isS o.1).foldl (owe id lane) w
  let w := modLane w lane (laneDone q now d)
  let w := { w with flow := w.flow ||| d.flow }
  if exits d then { w with exitm := w.exitm ||| w.flow } else w

/-- The slot a write-slot field names (R342). -/
def slotOf (h : Head) : Option Nat := if h.wslot = 0 then none else some (h.wslot.toNat - 1)

/-- The instruction is in flight (R351). The spec does not say when the write slot of a set-wide instruction rises: DESIGN CHOICE
(log 87), when its execution starts. -/
def startFlight (op : Op) (now id : Nat) (writes closed : Bool) (w : Warp) : Warp :=
  let slot := slotOf op.head
  let add (f : Flight) : Warp :=
    { w with flights := w.flights ++ [f]
             ws := match slot with | none => w.ws | some j => w.ws.modify j (· + 1) }
  match op.timing with
  | .fixed n => if writes || slot.isSome then add ⟨id, slot, some (now + n), true⟩ else w
  | .later => if writes || slot.isSome then add ⟨id, slot, none, true⟩ else w
  | .atIssue => w
  | .open_ => if writes || slot.isSome || !closed then add ⟨id, slot, none, closed⟩ else w

/-- Lanes of the issuing group that stay in the chosen group (R42): those that go on to the next instruction of the clause. -/
def nextGroup (q : Issue) (w : Warp) (lanes : LaneMask) : LaneMask :=
  if q.seqPc.index = 0 then 0
  else maskOf <| (bitsOf lanes).filter fun i =>
    match laneAt w i with
    | none => false
    | some l => l.st == .ready && l.pc == q.seqPc

/-- What an issue costs the warp: its stall count, its turn, the free group (R349, R262). -/
def spend (op : Op) (q : Issue) (now : Nat) (turn : Bool) (w : Warp) : Warp :=
  let g := if turn then 0 else nextGroup q w q.lanes
  { w with stall := now + 1 + op.head.stall.toNat, lastIssue := now, group := g
           hintUntil := if q.yield && q.seqPc.index == 0 then now + 3 else w.hintUntil }

/-- The lanes whose guard is false go on (R39). -/
def advanceIdle (q : Issue) (now : Nat) (group active : LaneMask) (w : Warp) : Warp :=
  modLanes w fun i l => if group.getLsbD i && !active.getLsbD i then moveLane q now .seq l else l

/-- All that an execution without a stop does to one member warp: `res` lists its lanes with their masks and results, `lead`
the leader's result, from which scalars are written. -/
def commitMember (op : Op) (q : Issue) (now id : Nat) (flow : Mask) (mem : Member) (lead : Option (Mask × Mask × Done))
    (res : List (Nat × Mask × Mask × Done)) (w : Warp) : Warp :=
  let w := if op.flow then { w with flow := w.flow ||| flow } else w
  let w := advanceIdle q now mem.group mem.active w
  let w := match lead with
    | none => w
    | some (tag, base, d) =>
      if res.isEmpty then w
      else (d.owed.filter fun o => isS o.1).foldl (owe id 0)
        ((d.outs.filter fun o => isS o.dst).foldl (writeOut id 0 (tag ||| d.tag) base) w)
  let w := res.foldl (fun w r => commitLane q now id r.1 r.2.1 r.2.2.1 r.2.2.2 w) w
  if res.isEmpty then w else startFlight op now id (res.any fun r => !r.2.2.2.outs.isEmpty || !r.2.2.2.owed.isEmpty)
    (res.all fun r => r.2.2.2.closed) w

/-! ## Rendezvous slots -/

def Slot.gathering (s : Slot) : Bool := s.start.isNone

/-- Whether a member has arrived: an ended one counts, a suspended one does not (R73). -/
def memberArrived (b : Block) (s : Slot) (w : Nat) : Bool :=
  match tabFind b.warps w with
  | none => true
  | some x => x.ended || (tabHas s.arrived w && !x.suspended)

def slotFull (b : Block) (members : List Nat) (s : Slot) : Bool := members.all (memberArrived b s)

/-- The members of a slot of a block. -/
def Mach.slotMembers (m : Mach) (b : Block) (k : Nat) : List Nat :=
  if k = 4 then List.range (m.declared b) else bitsOf ((m.gangs b).getD k 0)

/-- The slots are tested again after an arrival, the end of a warp or a resumption (R73, R74). -/
def Mach.retestSlots (m : Mach) (bid : Nat) : Mach :=
  match m.block? bid with
  | none => m
  | some b =>
    let slots := ⟨b.slots.cells.map fun c =>
      if c.2.gathering && slotFull b (m.slotMembers b c.1) c.2
      then (c.1, { c.2 with executing := true, start := some (m.cycle + (if c.1 = 4 then 8 else 4)) }) else c⟩
    m.setBlock bid { b with slots := slots }

/-- A bin ripens (R56). -/
def ripen (now : Nat) (b : Bin) : Bin := if b.ripe.isSome then b else { b with ripe := some now, deadline := none }

/-- Every open bin of a block whose declared warps have all exited ripens, in opening order (R56). -/
def Mach.ripenAll (m : Mach) (bid : Nat) : Mach :=
  match m.block? bid with
  | none => m
  | some b =>
    let ended := (List.range (m.declared b)).all fun w => match tabFind b.warps w with
      | none => true
      | some x => x.ended
    if !ended then m
    else m.modCore b.core fun c =>
      { c with bins := tabMap (fun x => if x.bid = bid then ripen m.cycle x else x) c.bins }

/-- After anything that may end, park or free lanes of a warp: suspension (R278), which comes before a release (R48),
convergence (R46), rendezvous (R73), bins (R56). -/
def Mach.settleWarp (m : Mach) (mg : Mgmt) (bid warp : Nat) : Mach :=
  let m := m.testSuspend mg bid warp
  let m := m.modWarp bid warp fun w => w.converge m.cycle
  match m.warp? bid warp with
  | none => m
  | some w => if w.ended then (m.retestSlots bid).ripenAll bid else m

/-! ## Stops -/

/-- Lanes of a set-wide stop: the faulting lanes park, every other lane of every member is suspended (R78, R79). -/
def Mach.stopSet (m : Mach) (mg : Mgmt) (q : Issue) (scope : Scope) (mems : List Member) (members : List Nat)
    (stops : List (Nat × Nat × Stop)) : Mach :=
  let m := stops.foldl (fun m s =>
    let amask := ((mems.find? (·.warp == s.1)).map (·.active)).getD 0
    m.park { q with warp := s.1 } scope amask s.2.1 s.2.2) m
  m.suspendSet mg q.bid scope members

/-- A stop at warp scope: the faulting lanes park with their records, the rest of the element set without (R276). -/
def Mach.stopWarp (m : Mach) (q : Issue) (scope : Scope) (active : LaneMask) (stops : List (Nat × Stop)) : Mach :=
  let m := stops.foldl (fun m s => m.park q scope active s.1 s.2) m
  m.parkBare q.bid q.warp active

/-- A decode cause stops every lane of the issuing group; at set-wide scope the set is suspended (R79, R348). -/
def Mach.stopGroup (m : Mach) (mg : Mgmt) (q : Issue) (b : Block) (scope : Scope) (active : LaneMask) (s : Stop) : Mach :=
  let m' := (bitsOf q.lanes).foldl (fun m i => m.park q scope active i s) m
  let m' := m'.modWarp q.bid q.warp fun w => { w with group := 0, lastIssue := m.cycle, stall := m.cycle + 1 }
  match (if isSet scope then m.setOf b scope q.warp else none) with
  | some (_, members) => m'.suspendSet mg q.bid scope members
  | none => m'.settleWarp mg q.bid q.warp

def Op.decodeStop (op : Op) (mg : Mgmt) (q : Issue) (b : Block) (active : LaneMask) (c : Cause) (m : Mach) : Mach :=
  m.stopGroup mg q b op.head.scope active (Stop.plain c)

/-! ## Execution -/

/-- What STALLSHORT finds: a lane-scope instruction per lane, a uniform one in the leader's sources and in every guard of the
group, a collective one in every element (R356); nothing where no lane is active (R81). -/
def Op.shorts (op : Op) (c : Ctx) (vs : List View) (mems : List Member) : List (Nat × Nat × Stop) :=
  if !c.check || vs.isEmpty then []
  else
    let guard (x : Member) (i : Nat) : Option (BitVec 8) := x.w.shortOf ((regOf i (.p op.guard.p) 0).toList)
    let stop (code : BitVec 8) : Stop := Stop.plain (.stallShort code)
    let own (v : View) : Option (Nat × Nat × Stop) :=
      let alone := if (vs.head?.map (·.idx)) == some v.idx then op.leads else []
      (v.w.shortOf (srcRegs v.lane (alone ++ op.srcs c))).map fun code => (v.warp, v.lane, stop code)
    if op.head.scope = .lane then
      vs.filterMap fun v =>
        match v.w.shortOf ((regOf v.lane (.p op.guard.p) 0).toList) with
        | some code => some (v.warp, v.lane, stop code)
        | none => own v
    else
      let guards := mems.flatMap fun x => (bitsOf x.group).filterMap fun i => (guard x i).map fun code => (x.warp, i, stop code)
      let read := if op.coll then vs else vs.take 1
      guards ++ (read.filterMap own).filter fun s => !(guards.any fun g => g.1 == s.1 && g.2.1 == s.2.1)

/-- An effect as an element takes it. -/
def Op.taken (op : Op) (v : View) (e : Effect) : Effect :=
  match e with
  | .error s => .error s
  | .ok d => .ok { d with outs := d.outs.map (v.part op.width) }

/-- Pair each element with its effect; a uniform instruction's one effect holds for every element, and its stop is the
leader's (R67, R276). -/
def Op.spread (op : Op) (vs : List View) (es : List Effect) : List (View × Effect) :=
  (if op.head.scope = .lane || op.coll then vs.zip es
   else match es.head?, vs with
     | none, _ => []
     | some _, [] => []
     | some (.ok d), vs => vs.map fun v => (v, .ok d)
     | some (.error s), v :: r => (v, .error s) :: r.map fun v => (v, .ok {})).map fun x => (x.1, op.taken x.1 x.2)

/-- The stops among the effects. -/
def stopsOf (l : List (View × Effect)) : List (Nat × Nat × Stop) :=
  l.filterMap fun x => match x.2 with
    | .error s => some (x.1.warp, x.1.lane, s)
    | .ok _ => none

def donesOf (l : List (View × Effect)) : List (View × Done) :=
  l.filterMap fun x => match x.2 with
    | .error _ => none
    | .ok d => some (x.1, d)

/-- The source mask of each element's results: its own sources at lane scope, the leader's for a uniform instruction, the
union over all elements, and of what they met, for a collective one (R69, R301). -/
def Op.sourceTag (op : Op) (c : Ctx) (ds : List (View × Done)) (v : View) : Mask :=
  if op.head.scope = .lane then v.tags (op.srcs c)
  else if op.coll then ds.foldl (fun t x => t ||| x.1.tags (op.srcs c) ||| x.2.tag) 0
  else match ds.head? with
    | none => 0
    | some x => x.1.tags (op.srcs c)

def turnOf (ds : List (View × Done)) : Bool :=
  ds.any fun x => match x.2.next with
    | .turn => true
    | .seq => false
    | .jump _ => false
    | .exit => false
    | .wait _ => false

/-- A load that has to wait for wrings (R148): drains are sent, the lines are marked, the warp waits. -/
def Mach.startWring (m : Mach) (q : Issue) (i : Instr) (l : List (Nat × Nat)) (slot : Option Nat) : Mach :=
  let (id, m) := m.freshId
  let m := m.drainAll fun t => l.any fun x => x.1 == t.line && x.2 == t.holder
  let m := { m with wrung := m.wrung ++ [Wrung.mk id q i l (dedup (l.map Prod.fst)) slot] }
  m.modWarp q.bid q.warp fun w => { w with block := some (.wrung id) }

/-- The lanes of a member that took part in a rendezvous wait on until it completes for every member (R72, R74); their program
counters are those of the next instruction. -/
def holdLanes (k : Nat) (group : LaneMask) (w : Warp) : Warp :=
  modLanes w fun i l => if group.getLsbD i && l.st == .ready then { l with st := .waiting (.rendezvous k) } else l

/-- The results of an execution without a set-wide or warp-scope stop go to every member (R68). -/
def Op.commit (op : Op) (q : Issue) (c : Ctx) (n id : Nat) (mems : List Member) (flow : Mask) (slot : Option Nat)
    (ds : List (View × Done)) (m : Mach) : Mach :=
  let lane := op.head.scope == .lane
  let lead := if lane then none else ds.head?.map fun x => (op.sourceTag c ds x.1, x.1.base, x.2)
  mems.foldl (fun m mem =>
    let res := (ds.filter fun x => x.1.warp == mem.warp).map fun x => (x.1.lane, op.sourceTag c ds x.1, x.1.base, x.2)
    let gt := if lane then op.guardTags n mem else flow
    m.modWarp q.bid mem.warp fun w =>
      let w := commitMember op q m.cycle id gt mem lead res w
      match slot with
      | some k => holdLanes k mem.group w
      | none => spend op q m.cycle (turnOf ds) w) m

/-- A set-wide execution that stops takes no effect: the slot is held for the resumption (R78 to R80). -/
def Op.failSet (op : Op) (mg : Mgmt) (q : Issue) (mems : List Member) (slot : Nat × List Nat) (stops : List (Nat × Nat × Stop))
    (m : Mach) : Mach :=
  let m := m.modBlock q.bid fun b => { b with slots := tabMod b.slots slot.1 fun s => { s with held := true } }
  m.stopSet mg q op.head.scope mems slot.2 stops

/-- A warp-scope execution that stops takes no effect, on F neither; lanes whose guard is false go on (R276). -/
def Op.failWarp (op : Op) (q : Issue) (mems : List Member) (stops : List (Nat × Nat × Stop)) (m : Mach) : Mach :=
  let active := ((mems.head?).map (·.active)).getD 0
  let m := m.modWarp q.bid q.warp fun w => spend op q m.cycle false (advanceIdle q m.cycle q.lanes active w)
  m.stopWarp q op.head.scope active (stops.map (·.2))

/-- The first cycle at which an instruction that starts at `now` can have completed; with no active lane it completes at once
(R81, R350). -/
def Timing.ends (t : Timing) (now : Nat) (idle : Bool) : Nat :=
  match t with
  | .fixed n => if idle then now else now + n
  | .later => now
  | .atIssue => now
  | .open_ => now

/-- The rendezvous executes: the slot waits for the end of instruction `id`, at `t` at the earliest (R72). -/
def Mach.runSlot (m : Mach) (bid slot id t : Nat) : Mach :=
  m.modBlock bid fun b => { b with slots := tabMod b.slots slot fun s => { s with running := some (id, t) } }

/-- The elements that execute: at lane scope those that STALLSHORT does not stop; above it every element is checked for every
cause (R78). -/
def Op.live (op : Op) (vs : List View) (shorts : List (Nat × Nat × Stop)) : List View :=
  if op.head.scope == .lane then vs.filter fun v => !(shorts.any fun s => s.2.1 == v.lane) else vs

/-- An access of the execution uses a stream that is held (R322). -/
def Op.meetsHeld (op : Op) (live : List View) (m : Mach) : Bool :=
  (m.ide.cells.any fun s => s.2.held) && (op.run (if op.head.scope == .lane || op.coll then live else live.take 1) m).2.stalled

/-- The execution of an instruction for its members: `slot` is the rendezvous it comes from, with the set's warps. -/
def Op.perform (op : Op) (i : Instr) (mg : Mgmt) (q : Issue) (b : Block) (mems : List Member) (slot : Option (Nat × List Nat))
    (m : Mach) : Mach :=
  let c := m.ctx b.ctx
  let n := m.free
  let id := m.ids
  let vs := op.views mg q b (m.gangs b) n id mems
  let shorts := op.shorts c vs mems
  let lane := op.head.scope == .lane
  let live := op.live vs shorts
  let need := if lane || shorts.isEmpty then op.wring live m else []
  if !(op.ready live m) || op.meetsHeld live m then m
  else if !need.isEmpty then m.startWring q i need (slot.map (·.1))
  else
    let m1 := { m with free := n + 1, ids := id + 1 }
    let (es, m2) := op.run (if lane || op.coll then live else live.take 1) m1
    let pairs := op.spread live es
    let stops := shorts ++ (stopsOf pairs).filter fun s => !(shorts.any fun t => t.1 == s.1 && t.2.1 == s.2.1)
    let flow := op.setTags n mems
    let m3 :=
      if lane then
        stops.foldl (fun m s => m.park q op.head.scope (((mems.head?).map (·.active)).getD 0) s.2.1 s.2.2)
          (op.commit q c n id mems flow none (donesOf pairs) m2)
      else if stops.isEmpty then op.commit q c n id mems flow (slot.map (·.1)) (donesOf pairs) m2
      else match slot with
        | some s => op.failSet mg q mems s stops m1
        | none => op.failWarp q mems stops m1
    let m4 := match slot with
      | some s => if stops.isEmpty then m3.runSlot q.bid s.1 id (op.timing.ends m.cycle vs.isEmpty) else m3
      | none => m3
    mems.foldl (fun m x => m.settleWarp mg q.bid x.warp) m4

/-! ## Arrival (R71 to R77) -/

/-- Lanes of a group begin to wait in a slot. -/
def waitInSlot (q : Issue) (now slot : Nat) (w : Warp) : Warp :=
  let w := modLanes w fun i l => if q.lanes.getLsbD i then { l with st := .waiting (.rendezvous slot), ageBase := now } else l
  { w with group := 0, lastIssue := now, stall := max w.stall (now + 1)
           hintUntil := if q.yield && q.seqPc.index == 0 then now + 3 else w.hintUntil }

/-- R77: every declared warp that has not ended has a lane in a rendezvous, and no slot of the block can complete. -/
def deadlocked (m : Mach) (b : Block) : Bool :=
  let waits (w : Warp) : Bool := w.lanes.any fun l => match l.st with
    | .waiting (.rendezvous _) => true
    | .waiting .join => false
    | .waiting (.barrier _ _ _ _ _) => false
    | .waiting .spawn => false
    | .waiting .talloc => false
    | .ready => false
    | .parked _ => false
    | .exited => false
  ((List.range (m.declared b)).all fun k => match tabFind b.warps k with
    | none => true
    | some w => w.ended || waits w) && !(b.slots.cells.any fun s => !s.2.gathering)

/-- Whether record `x` stands before `y` in a HOLD entry: warp, then lane; of one lane the older (R282). -/
def FaultRec.before (x y : FaultRec) : Bool := x.warp < y.warp || (x.warp == y.warp && decide (x.lane < y.lane))

/-- SCOPE_MISMATCH (R76, R77): the active lanes of the issue park, those that `shorts` names with STALLSHORT, which comes first
(R277), and the set, or the whole block, is suspended. With an all-zero mask one record with LANE 0 and AMASK 0 goes into the
entry (R277). -/
def Mach.scopeMismatch (m : Mach) (mg : Mgmt) (q : Issue) (scope : Scope) (active : LaneMask)
    (shorts : List (Nat × Nat × Stop)) (detail : Nat) (unit : Scope) (warps : List Nat) : Mach :=
  let rest := (bitsOf active).filter fun i => !(shorts.any fun s => s.2.1 == i)
  let m' := rest.foldl (fun m i => m.park q scope active i (Stop.plain (.scopeMm detail)))
    (shorts.foldl (fun m s => m.park q scope active s.2.1 s.2.2) m)
  let m' := m'.suspendWarps q.bid warps
  match m'.block? q.bid with
  | none => m'
  | some b =>
    let bare : FaultRec :=
      { cause := .scopeMm detail, scope := scope, lane := 0, warp := q.warp, index := q.pc.index, block := b.index,
        pc := q.pc.clause, core := b.core, widx := q.widx, coal := false, addr := 0, bslot := b.bslot, amask := 0, size := 0,
        write := false, time := m.cycle }
    let recs := warpRecs b warps
    (m'.beginHold q.bid unit warps (if active = 0 then insertBy FaultRec.before bare recs else recs)).faultMode mg b.launch

/-- What STALLSHORT finds in a member that arrives where it raises a mismatch. -/
def Op.shortsAlone (op : Op) (mg : Mgmt) (q : Issue) (b : Block) (w : Warp) (members : List Nat) (active : LaneMask) (m : Mach) :
    List (Nat × Nat × Stop) :=
  let mems : List Member := [⟨q.warp, (members.findIdx? (· == q.warp)).getD 0, q.lanes, active, w⟩]
  op.shorts (m.ctx b.ctx) (op.views mg q b (m.gangs b) m.free m.ids mems) mems

/-- A group of a member warp issues a set-wide instruction (R73). -/
def Op.arrive (op : Op) (i : Instr) (mg : Mgmt) (q : Issue) (b : Block) (w : Warp) (slot : Nat) (members : List Nat)
    (active : LaneMask) (m : Mach) : Mach :=
  let scope := op.head.scope
  let old := tabFind b.slots slot
  match old with
  | some s =>
    if !s.gathering then m
    else if s.clause ≠ q.pc.clause ∨ s.widx ≠ q.widx then m.scopeMismatch mg q scope active (op.shortsAlone mg q b w members active m) 0 scope members
    else join (some s)
  | none => join none
where
  join (old : Option Slot) : Mach :=
    let s := old.getD
      { executing := false, clause := q.pc.clause, widx := q.widx, instr := i, issue := q, arrived := ⟨[]⟩, groups := ⟨[]⟩,
        scal := ⟨[]⟩, pend := ⟨[]⟩, start := none, held := false, running := none }
    let before := tabGet s.arrived q.warp 0
    let first := before = 0 || ((bitsOf active).headD 32 < (bitsOf before).headD 32)
    let mine := w.pend.filter fun p => match p.reg with
      | .v lane _ => q.lanes.getLsbD lane
      | .p lane _ => q.lanes.getLsbD lane
      | .s _ => first
    let kept := (tabGet s.pend q.warp []).filter fun p => match p.reg with
      | .s _ => !first
      | .v _ _ => true
      | .p _ _ => true
    let s' := { s with
      arrived := tabSet s.arrived q.warp (before ||| active)
      groups := tabSet s.groups q.warp (tabGet s.groups q.warp 0 ||| q.lanes)
      scal := if first then tabSet s.scal q.warp w.s else s.scal
      pend := tabSet s.pend q.warp (kept ++ mine) }
    let m' := m.modBlock q.bid fun b => { b with slots := tabSet b.slots slot s' }
    let m' := (m'.modWarp q.bid q.warp fun w => waitInSlot q m.cycle slot w).retestSlots q.bid
    match m'.block? q.bid with
    | none => m'
    | some b' =>
      if deadlocked m' b' then
        m.scopeMismatch mg q op.head.scope active (op.shortsAlone mg q b w members active m) 1 .block (tabKeys b.warps)
      else m'.settleWarp mg q.bid q.warp

/-- The members of a slot at execution, with their registers as of arrival (R354). DESIGN CHOICE (log 78): their flow masks are
those at execution. -/
def slotMems (b : Block) (members : List Nat) (s : Slot) : List Member :=
  (members.zipIdx).filterMap fun x => (tabFind b.warps x.1).map fun w =>
    { warp := x.1, rank := x.2, group := tabGet s.groups x.1 0, active := tabGet s.arrived x.1 0,
      w := { w with s := tabGet s.scal x.1 w.s, pend := tabGet s.pend x.1 [] } }

/-- RENDEZVOUS_EXECUTE for one slot (R74). -/
def Op.rendezvous (op : Op) (mg : Mgmt) (b : Block) (slot : Nat) (s : Slot) (m : Mach) : Mach :=
  let members := m.slotMembers b slot
  op.perform s.instr mg s.issue b (slotMems b members s) (some (slot, members)) m

/-! ## Issue -/

/-- A fence holds back class 2, 3 and 5 and SIGNAL (R411); a full write slot any instruction that names it (R351). -/
def Op.delayed (op : Op) (w : Warp) : Bool :=
  (op.fenced && w.fence.isSome) || (match slotOf op.head with
    | none => false
    | some j => decide (w.ws.getD j 0 ≥ 7))

/-- Whether an instruction can issue now (R262): its write slot and its queues have room, no fence holds it back, and the
slot of its set is not executing. A decode cause needs none of them. -/
def Op.canIssue (op : Op) (mg : Mgmt) (q : Issue) (m : Mach) : Bool :=
  match m.block? q.bid, m.warp? q.bid q.warp with
  | some b, some w =>
    if op.delayed w then false
    else if (op.check (m.owner b q.warp op.head.scope) (m.ctx b.ctx)).isSome || !op.scopeOk m b q.warp then true
    else match (if isSet op.head.scope then m.setOf b op.head.scope q.warp else none) with
      | some (slot, _) => match tabFind b.slots slot with
        | none => true
        | some s => s.gathering
      | none =>
        let mems : List Member := [⟨q.warp, 0, q.lanes, op.activeOf m.free w 0 q.lanes, w⟩]
        let vs := op.views mg q b (m.gangs b) m.free m.ids mems
        let live := op.live vs (op.shorts (m.ctx b.ctx) vs mems)
        op.ready live m && !op.meetsHeld live m
  | _, _ => false

/-- The issue of a decoded instruction by a group (R348). -/
def Op.issue (op : Op) (i : Instr) (mg : Mgmt) (q : Issue) (m : Mach) : Mach :=
  match m.block? q.bid, m.warp? q.bid q.warp with
  | some b, some w =>
    let rank := match m.setOf b op.head.scope q.warp with
      | none => 0
      | some (_, members) => (members.findIdx? (· == q.warp)).getD 0
    let active := op.activeOf m.free w rank q.lanes
    if op.delayed w then m
    else match op.check (m.owner b q.warp op.head.scope) (m.ctx b.ctx) with
      | some pos => op.decodeStop mg q b active (.illOpnd pos) m
      | none =>
        if !op.scopeOk m b q.warp then op.decodeStop mg q b active .illScope m
        else match (if isSet op.head.scope then m.setOf b op.head.scope q.warp else none) with
          | some (slot, members) => op.arrive i mg q b w slot members active m
          | none => op.perform i mg q b [⟨q.warp, 0, q.lanes, active, w⟩] none m
  | _, _ => m

/-- The form of every meaning of an encoded instruction. -/
def onIssue (f : Mgmt → Issue → Mach → Mach) (s : State) : Host.Outcome State Fault Refusal :=
  match s.mach.issue with
  | none => .fault .noIssuer
  | some q => .next { s with mach := f s.mgmt q s.mach }

def issueOp (i : Instr) (op : Op) (s : State) : Host.Outcome State Fault Refusal := onIssue (op.issue i) s

end Sys2Proof.Machine
end

