-- ==== Sys2Proof/Machine/Flags.lean ====
section
/-! DEFINITION. Predicate results (R85): comparisons (R406, R422, R449), the combining operation, carries (R420), and the
shapes that the arithmetic instructions share. -/

namespace Sys2Proof.Machine

/-- All four predicate bits from one result (R85). -/
def predAll (b : Bool) : Word := if b then 15 else 0

/-- Carry-out of a sum of two words and a carry-in (R420). -/
def carryOf (a b : Word) (cin : Bool) : Bool := decide (a.toNat + b.toNat + cin.toNat ≥ 2 ^ 32)

/-- The low word of that sum. -/
def sumOf (a b : Word) (cin : Bool) : Word := a + b + BitVec.ofNat 32 cin.toNat

/-- A value read as signed or, under U, unsigned. -/
def intOf {w : Nat} (u : Bool) (x : BitVec w) : Int := if u then (x.toNat : Int) else x.toInt

/-- ICMP and PCMP (R422, R449). -/
def condHolds (c : Cond) (x y : Int) : Bool :=
  match c with
  | .eq => decide (x = y)
  | .ne => decide (x ≠ y)
  | .lt => decide (x < y)
  | .le => decide (x ≤ y)
  | .gt => decide (x > y)
  | .ge => decide (x ≥ y)

/-- FCMP (R406). -/
def fcondHolds (c : FCond) (a b : FVal) : Bool :=
  let u := a.isNan || b.isNan
  let k := a.cmp b
  match c with
  | .eq => !u && decide (k = 0)
  | .ne => u || decide (k ≠ 0)
  | .lt => !u && decide (k < 0)
  | .le => !u && decide (k ≤ 0)
  | .gt => !u && decide (k > 0)
  | .ge => !u && decide (k ≥ 0)
  | .num => !u
  | .nan => u

/-- The combining operation with bit 0 of a predicate (R406). -/
def bopApply (o : Bop) (r p : Bool) : Bool :=
  match o with
  | .none => r
  | .and => r && p
  | .or => r || p
  | .xor => r != p

/-! ## Shapes -/

def satInt (lo hi x : Int) : Word := BitVec.ofInt 32 (clampInt lo hi x)
def satSigned (x : Int) : Word := satInt (-(2 ^ 31)) (2 ^ 31 - 1) x
def satUnsigned (x : Int) : Word := satInt 0 (2 ^ 32 - 1) x

/-- IMM16 widened (R346). -/
def sextImm (i : BitVec 16) : Word := i.signExtend 32
def zextImm (i : BitVec 16) : Word := i.zeroExtend 32
def bf16Imm (i : BitVec 16) : Word := i ++ 0#16

def outW (d : Operand) (x : Word) : List Out := [{ dst := d, val := x }]
def out64 (d : Operand) (x : BitVec 64) : List Out :=
  [{ dst := d, val := x.setWidth 32 }, { dst := d, k := 1, val := (x >>> 32).setWidth 32 }]

/-- An instruction of every scope that only computes registers. -/
def pureOp (h : Head) (g : Guard) (t : Timing) (check : Owner → List (Nat × Bool)) (srcs : List Src) (f : View → List Out) :
    Op :=
  { head := h, guard := g, scopes := allScopes, check := fun ow _ => firstBad (check ow), srcs := fun _ => srcs, timing := t,
    run := pureRun f }

/-- One word from a and b. -/
def binB {μ : Type} (i : FormB μ) (t : Timing) (k : Kinds) (f : Word → Word → Word) : Op :=
  pureOp i.h i.g t (fun ow => [(0, admits ow (dstVSZ ow) 1 i.d), (1, admits ow k 1 i.a), (2, admits ow k 1 i.b)])
    [⟨1, i.a, 1⟩, ⟨2, i.b, 1⟩] fun v => outW i.d (f (v.val 1 i.a) (v.val 2 i.b))

/-- One word from a and the immediate. -/
def binC {μ : Type} (i : FormC μ) (t : Timing) (k : Kinds) (imm : Word) (f : Word → Word → Word) : Op :=
  pureOp i.h i.g t (fun ow => [(0, admits ow (dstVSZ ow) 1 i.d), (1, admits ow k 1 i.a)]) [⟨1, i.a, 1⟩]
    fun v => outW i.d (f (v.val 1 i.a) imm)

/-- One word from a, b and c. -/
def triB {μ : Type} (i : FormB μ) (t : Timing) (k : Kinds) (f : Word → Word → Word → Word) : Op :=
  pureOp i.h i.g t
    (fun ow => [(0, admits ow (dstVSZ ow) 1 i.d), (1, admits ow k 1 i.a), (2, admits ow k 1 i.b), (3, admits ow k 1 i.c)])
    [⟨1, i.a, 1⟩, ⟨2, i.b, 1⟩, ⟨3, i.c, 1⟩] fun v => outW i.d (f (v.val 1 i.a) (v.val 2 i.b) (v.val 3 i.c))

/-- One word from a. -/
def unA (i : FormA) (t : Timing) (k : Kinds) (f : Word → Word) : Op :=
  pureOp i.h always t (fun ow => [(0, admits ow (dstVSZ ow) 1 i.d), (1, admits ow k 1 i.a)]) [⟨1, i.a, 1⟩]
    fun v => outW i.d (f (v.val 1 i.a))
def unB {μ : Type} (i : FormB μ) (t : Timing) (k : Kinds) (f : Word → Word) : Op :=
  pureOp i.h i.g t (fun ow => [(0, admits ow (dstVSZ ow) 1 i.d), (1, admits ow k 1 i.a)]) [⟨1, i.a, 1⟩]
    fun v => outW i.d (f (v.val 1 i.a))

end Sys2Proof.Machine
end

