-- ==== Sys2Proof/Machine/PressUnit.lean ====
section
/-! DEFINITION. Press units: definition images and their checks (R161 to R166, R171), applications (R164, R170, R174, R175),
combining and arrival (R167 to R169, R172), and the order of a lane's accesses with its own presses (R123). -/

namespace Sys2Proof.Machine

/-! ## Images -/

end Sys2Proof.Machine

namespace Sys2Proof
open Machine

def PressImage.nuop (d : PressImage) : Nat := field d.header.toNat 4 0
def PressImage.gran (d : PressImage) : Nat := field d.header.toNat 10 7
def PressImage.cls (d : PressImage) : Nat := field d.header.toNat 12 11
def PressImage.ckind (d : PressImage) : Nat := field d.header.toNat 15 13
def PressImage.rkind (d : PressImage) : Nat := field d.header.toNat 17 16
def PressImage.opnd (d : PressImage) : Nat := field d.header.toNat 20 18
def PressImage.fact (d : PressImage) : Nat := field d.header.toNat 22 21
/-- Granule in bytes. -/
def PressImage.size (d : PressImage) : Nat := 2 ^ d.gran

end Sys2Proof

namespace Sys2Proof.Machine

/-- Operand words (R161). -/
def opndWords (k : Nat) : Nat := if k = 5 then 16 else k

/-! ## Micro-operations (R162, R163) -/

def uCode (u : BitVec 16) : Nat := field u.toNat 15 11
def uD (u : BitVec 16) : Nat := field u.toNat 10 8
def uLow (u : BitVec 16) : Nat := field u.toNat 7 0
def uA (u : BitVec 16) : Nat := field u.toNat 7 5
def uB (u : BitVec 16) : Nat := field u.toNat 4 2
def uV (u : BitVec 16) : Nat := field u.toNat 1 0
def uN (u : BitVec 16) : Nat := field u.toNat 4 0
def uK (u : BitVec 16) : Nat := field u.toNat 3 0
def uCond (u : BitVec 16) : Nat := field u.toNat 7 6

def isEnd (u : BitVec 16) : Bool := uCode u == 0
def isSkip (u : BitVec 16) : Bool := uCode u == 0x16

/-- Legal code, variant and must-be-zero bits (R162, R163); RET needs an RKIND. -/
def uLegal (rkind : Nat) (u : BitVec 16) : Bool :=
  match uCode u with
  | 0x00 => uD u == 0 && uLow u == 0
  | 0x01 => true
  | 0x02 => true
  | 0x03 => field u.toNat 7 4 == 0
  | 0x04 => uV u != 3
  | 0x05 => uV u != 3
  | 0x06 => uV u == 0
  | 0x07 => true
  | 0x08 => true
  | 0x09 => uV u != 3
  | 0x0A => uV u != 3
  | 0x0B => uV u == 0
  | 0x0C => uV u == 0
  | 0x0D => uV u == 0
  | 0x0E => true
  | 0x0F => true
  | 0x10 => true
  | 0x11 => true
  | 0x12 => uV u == 0
  | 0x13 => true
  | 0x14 => true
  | 0x15 => uD u == 0 && uV u == 0 && rkind != 0 && (rkind == 2 || uB u == 0)
  | 0x16 => field u.toNat 5 4 == 0 && uCond u != 3
  | _ => false

/-- Temporaries that a micro-operation reads and writes. -/
def uReads (rkind : Nat) (u : BitVec 16) : List Nat :=
  match uCode u with
  | 0x02 => [uD u]
  | 0x08 => [uD u, uA u, uB u]
  | 0x0E => [uA u]
  | 0x0F => [uA u]
  | 0x10 => [uA u]
  | 0x12 => [uD u, uA u, uB u]
  | 0x13 => [uA u]
  | 0x14 => [uA u]
  | 0x15 => if rkind = 2 then [uA u, uB u] else [uA u]
  | 0x16 => if uCond u = 0 then [] else [uD u]
  | n => if 4 ≤ n ∧ n ≤ 0x11 then [uA u, uB u] else []

def uWrites (u : BitVec 16) : List Nat :=
  match uCode u with
  | 0x00 => []
  | 0x02 => []
  | 0x15 => []
  | 0x16 => []
  | _ => [uD u]

/-- Successors of micro-operation i (R165). -/
def uNext (i : Nat) (u : BitVec 16) : List Nat :=
  if isEnd u then []
  else if isSkip u then (if uCond u = 0 then [i + 1 + uK u] else [i + 1, i + 1 + uK u])
  else [i + 1]

/-- The temporaries, the working copy, the return value and whether an STF was performed. -/
structure UState where
  t   : List Word
  buf : List Word
  ret : BitVec 64
  stf : Bool
  deriving DecidableEq, Repr

def satInt32 (lo hi x : Int) : Word := BitVec.ofInt 32 (clampInt lo hi x)

def rmodeOf (v : Nat) : RMode := if v = 0 then .rne else if v = 1 then .rz else if v = 2 then .ru else .rd

def minWord (v : Nat) (a b : Word) : Word :=
  if v = 0 then (if b.slt a then b else a) else if v = 1 then (if b.ult a then b else a) else f32Min a b
def maxWord (v : Nat) (a b : Word) : Word :=
  if v = 0 then (if a.slt b then b else a) else if v = 1 then (if a.ult b then b else a) else f32Max a b
def addWord (v : Nat) (a b : Word) : Word :=
  if v = 0 then a + b else if v = 1 then BitVec.ofNat 32 (min (a.toNat + b.toNat) (2 ^ 32 - 1))
  else satInt32 (-(2 ^ 31)) (2 ^ 31 - 1) (a.toInt + b.toInt)
def subWord (v : Nat) (a b : Word) : Word :=
  if v = 0 then a - b else if v = 1 then BitVec.ofNat 32 (a.toNat - b.toNat)
  else satInt32 (-(2 ^ 31)) (2 ^ 31 - 1) (a.toInt - b.toInt)

/-- The effect of one micro-operation on the temporaries and the working copy (R163). -/
def uStep (rkind : Nat) (opnd : List Word) (u : BitVec 16) (s : UState) : UState :=
  let d := s.t.getD (uD u) 0
  let a := s.t.getD (uA u) 0
  let b := s.t.getD (uB u) 0
  let v := uV u
  let put (x : Word) : UState := { s with t := s.t.set (uD u) x }
  match uCode u with
  | 0x01 => put (s.buf.getD (uLow u) 0)
  | 0x02 => { s with buf := s.buf.set (uLow u) d, stf := true }
  | 0x03 => put (opnd.getD (uK u) 0)
  | 0x04 => put (addWord v a b)
  | 0x05 => put (subWord v a b)
  | 0x06 => put (a * b)
  | 0x07 => put (f32Add (rmodeOf v) false a b)
  | 0x08 => put (f32Fma (rmodeOf v) false a b d)
  | 0x09 => put (minWord v a b)
  | 0x0A => put (maxWord v a b)
  | 0x0B => put (a &&& b)
  | 0x0C => put (a ||| b)
  | 0x0D => put (a ^^^ b)
  | 0x0E => put (a <<< uN u)
  | 0x0F => put (a >>> uN u)
  | 0x10 => put (a.sshiftRight (uN u))
  | 0x11 => put (if (if v = 0 then a == b else if v = 1 then a.slt b else if v = 2 then a.ult b else f32Lt a b) then 1 else 0)
  | 0x12 => put (if d ≠ 0 then a else b)
  | 0x13 => put (BitVec.ofNat 32 (min a.toNat (2 ^ (uN u + 1) - 1)))
  | 0x14 => put (satInt32 (-(2 ^ uN u)) (2 ^ uN u - 1) a.toInt)
  | 0x15 => { s with ret := if rkind = 2 then b ++ a else a.setWidth 64 }
  | _ => s

/-- Whether a SKIP is taken. -/
def skipTaken (u : BitVec 16) (s : UState) : Bool :=
  let a := s.t.getD (uD u) 0
  isSkip u && (if uCond u = 0 then true else if uCond u = 1 then a == 0 else a != 0)

/-- Micro-operations from index i until END (R164); `fuel` bounds their number, since every successor stands later. -/
def uRun (d : PressImage) (opnd : List Word) : Nat → Nat → UState → UState
  | 0, _, s => s
  | fuel + 1, i, s =>
    match d.uops[i]? with
    | none => s
    | some u =>
      if isEnd u then s
      else uRun d opnd fuel (if skipTaken u s then i + 1 + uK u else i + 1) (uStep d.rkind opnd u s)

/-! ## Checks (R165, R166, R171) -/

/-- One group of a pure accumulate: the word, the operation with its variant, and whether a SATU follows. -/
structure AccGroup where
  word : Nat
  code : Nat
  v    : Nat
  satu : Bool
  uops : List (BitVec 16)
  deriving DecidableEq, Repr

/-- The groups of a list of micro-operations that ends with END (R171); `j` is the next group's number. -/
def accGroups (j : Nat) : Nat → List (BitVec 16) → Option (List AccGroup)
  | 0, _ => none
  | fuel + 1, l =>
    match l with
    | [e] => if isEnd e then some [] else none
    | f :: o :: op :: x :: rest =>
      let tx := uD f
      let ty := uD o
      let sat := uCode x == 0x13 && uCode op == 4 && uV op == 1
      let fine (st : BitVec 16) : Bool :=
        uCode f == 1 && uCode o == 3 && uK o == j && tx != ty && uD op == tx && uA op == tx && uB op == ty &&
          uCode st == 2 && uD st == tx && uLow st == uLow f
      let add (g : AccGroup) (r : List (BitVec 16)) : Option (List AccGroup) :=
        (accGroups (j + 1) fuel r).map fun gs => g :: gs
      if sat && uD x == tx && uA x == tx then
        match rest with
        | [] => none
        | st :: r => if fine st then add ⟨uLow f, uCode op, uV op, true, [f, o, op, x, st]⟩ r else none
      else if fine x then add ⟨uLow f, uCode op, uV op, false, [f, o, op, x]⟩ rest
      else none
    | _ => none

/-- OP matches CKIND. -/
def kindMatches (ckind : Nat) (g : AccGroup) : Bool :=
  match ckind with
  | 0 => g.code == 4 && g.v != 2
  | 1 => g.code == 7 && g.v == 0
  | 2 => g.code == 9
  | 3 => g.code == 0xA
  | 4 => g.code == 0xC
  | 5 => g.code == 0xB
  | _ => false

def distinct {α : Type} [BEq α] : List α → Bool
  | [] => true
  | x :: r => !r.contains x && distinct r

/-- Temporaries written on every path to each micro-operation; none where no path leads. -/
def flowMerge (ins : List (Option (List Nat))) (j : Nat) (out : List Nat) : List (Option (List Nat)) :=
  ins.modify j fun x => match x with
    | none => some out
    | some l => some (l.filter out.contains)

end Sys2Proof.Machine

namespace Sys2Proof
open Machine

def PressImage.groups (d : PressImage) : List AccGroup := (accGroups 0 17 d.uops).getD []

/-- PureAccumulate (R171). -/
def PressImage.pure (d : PressImage) : Bool :=
  match accGroups 0 17 d.uops with
  | none => false
  | some gs => d.rkind == 0 && decide (1 ≤ opndWords d.opnd) && gs.length == opndWords d.opnd &&
      gs.all (kindMatches d.ckind) && distinct (gs.map (·.word))

/-- The header's fields are legal (R161, R165). -/
def PressImage.headerOk (d : PressImage) : Bool :=
  siteField d != 3 && d.cls != 3 && decide (d.ckind ≤ 5) && d.rkind != 3 && decide (d.opnd ≤ 5) && d.fact != 3 &&
    field d.header.toNat 63 23 == 0 && decide (3 ≤ d.gran) && decide (d.gran ≤ 10) && (decide (d.gran ≤ 7) || siteField d == 1) &&
    (d.ckind == 0 || d.cls == 2)

/-- The encoding checks of one micro-operation, in the order of R165. -/
def PressImage.uopCheck (d : PressImage) (i : Nat) (u : BitVec 16) : Option (Nat × Nat) :=
  if !uLegal d.rkind u then some (3, i)
  else if (uCode u = 1 ∨ uCode u = 2) ∧ 4 * uLow u + 4 > d.size then some (5, i)
  else if uCode u = 3 ∧ uK u ≥ opndWords d.opnd then some (6, i)
  else if isSkip u && (uK u == 0 || decide (i + 1 + uK u > d.nuop - 1)) then some (4, i)
  else none

def PressImage.flowCheck (d : PressImage) : List (Nat × BitVec 16) → List (Option (List Nat)) → Option (Nat × Nat)
  | [], _ => none
  | (i, u) :: r, ins =>
    match ins.getD i none with
    | none => PressImage.flowCheck d r ins
    | some have_ =>
      if !((uReads d.rkind u).all have_.contains) then some (7, i)
      else if (uNext i u).contains d.nuop then some (8, i)
      else
        let out := have_ ++ uWrites u
        PressImage.flowCheck d r ((uNext i u).foldl (fun ins j => flowMerge ins j out) ins)

/-- R165 up to the checks on the table: a status code and index, or none. -/
def PressImage.check (d : PressImage) : Option (Nat × Nat) :=
  let us := indexed d.uops
  if d.nuop = 0 ∨ d.nuop > 16 then some (1, 0xFF)
  else if !d.headerOk then some (2, 0xFF)
  else match us.findSome? fun x => d.uopCheck x.1 x.2 with
    | some e => some e
    | none => match d.flowCheck us (some [] :: List.replicate d.nuop none) with
      | some e => some e
      | none => if d.cls = 2 ∧ !d.pure then some (9, 0xFF) else none

end Sys2Proof

namespace Sys2Proof.Machine

/-- Valid or dropping definitions of a device's switched-in contexts (R176). -/
def Mach.pdefsUsed (m : Mach) (dev : Nat) : Nat :=
  (m.ctxs.cells.filter fun c => deviceOf c.1 == dev && c.2.run != .switchedOut).foldl (fun n c => n + c.2.press.cells.length) 0

/-- The status of a PDEF for entry k (R165, R166). -/
def Mach.pdefStatus (m : Mach) (mg : Mgmt) (ctx k : Nat) (d : PressImage) : Nat :=
  match d.check with
  | some (c, i) => c + 256 * i
  | none =>
    if tabHas (m.ctx ctx).press k then 0xFF0A
    else if m.pdefsUsed (deviceOf ctx) ≥ (mg.quotas.getD (deviceOf ctx) Quota.zero).pdefs then 0xFF0B
    else 0

/-! ## Applications (R164, R170, R175) -/

/-- An FP32-add batch rounds once (R170). -/
def fpBatch (gs : List AccGroup) (parts : List (List Word)) (buf : List Word) : List Word :=
  (gs.zipIdx).foldl (fun b g =>
    b.set g.1.word (roundF32 .rne false (FVal.sum .rne (f32 (b.getD g.1.word 0) :: parts.map fun p => f32 (p.getD g.2 0))))) buf

/-- The new contents of a granule and the returned value; none when nothing is stored. -/
def applyImage (d : PressImage) (opnd : List Word) (parts : List (List Word)) (buf : List Word) :
    Option (List Word) × BitVec 64 :=
  if d.cls = 2 ∧ d.ckind = 1 then (some (fpBatch d.groups parts buf), 0)
  else
    let s := uRun d opnd 16 0 ⟨List.replicate 8 0, buf, 0, false⟩
    (if s.stf then some s.buf else none, s.ret)

/-- The combined operand of a batch, word by word (R170). -/
def combineWords (d : PressImage) (x y : List Word) : List Word :=
  (d.groups.zipIdx).map fun g =>
    let a := x.getD g.2 0
    let b := y.getD g.2 0
    match g.1.code with
    | 4 => addWord g.1.v a b
    | 9 => minWord g.1.v a b
    | 0xA => maxWord g.1.v a b
    | 0xB => a &&& b
    | 0xC => a ||| b
    | _ => a

/-- The lines of a granule. -/
def PressReq.lines (r : PressReq) : List Nat :=
  (List.range (lineOf (r.granule + r.image.size - 1) + 1 - lineOf r.granule)).map fun i => lineOf r.granule + i

/-- Write a granule's bytes, line by line. -/
def Mach.putGranule (m : Mach) (world : Option (Option Nat)) (pa : Nat) (bs : List Byte) : Mach :=
  ((unitPieces 128 9 pa bs.length).foldl (fun (m : Mach) x => m.putBytes world x.1 ((bs.drop (x.1 - pa)).take x.2)) m)

/-- Source and requests of a data error (R175, R281). -/
def PressReq.source (r : PressReq) : Nat :=
  match r.remote with
  | some k => 3 * 2 ^ 18 + k * 2 ^ 32
  | none => match dedup r.cores, dedup (r.cores.map clusterOf) with
    | [c], _ => c * 256
    | _, [k] => 2 ^ 18 + k * 256
    | _, _ => 2 * 2 ^ 18

/-- One stamp for every line of a granule, after every lease and not before the request's pts (R114, R174). -/
def Mach.stampGranule (m : Mach) (lines : List Nat) (pts : Nat) : Nat × Mach :=
  let st := lines.foldl (fun s l => max s ((m.lineStamps l).rts + 1)) pts
  (st, ({ m with stamps := lines.foldl (fun t l => tabSet t l ⟨st, st⟩) m.stamps }).noteStamp st)

/-- A read of a granule that writes nothing keeps a stamp as a read (R175). -/
def Mach.leaseGranule (m : Mach) (lines : List Nat) (pts : Nat) : Nat × Mach :=
  lines.foldl (fun (a : Nat × Mach) l =>
    let (st, m) := a.2.leaseLine l pts
    (max a.1 st, m)) (pts, m)

/-- The lines of a granule of this module leave the L1s of the cores that sent requests to it and of their lanes' cores, so that a
later access of such a lane meets the application (R100, R114, R123). -/
def Mach.dropCopies (m : Mach) (r : PressReq) : Mach :=
  if r.target.isSome then m
  else
    let here := r.lanes.filterMap fun l => (m.block? l.bid).map (·.core)
    (dedup (r.cores ++ here)).foldl (fun m c => r.lines.foldl (fun m l => m.dropL1 c l) m) m

/-- The request is over. -/
def Mach.closePress (m : Mach) (r : PressReq) : Mach :=
  { m with presses := m.presses.filter (·.id != r.id), heldBy := tabFilter (fun _ id => id != r.id) m.heldBy
           owed := tabErase m.owed r.id }

/-- What a request owes to its lanes once it is applied: the greatest stamp (R131), the registers of a `PRESSR` (R458). -/
def Mach.finishPress (m : Mach) (r : PressReq) (x : PressResult) : Mach :=
  let m := (m.dropCopies r).closePress r
  match r.reply with
  | none =>
    if r.target.isSome then m
    else match r.remote with
    | some k => { m with signals := m.signals ++ [.pressReply k r.wants x.ret x.status x.stamp] }
    | none => r.lanes.foldl (fun m l => m.modWarp l.bid l.warp fun w =>
      modLane w l.lane fun y => { y with posted := max y.posted x.stamp }) m
  | some p =>
    let remote := r.target.isSome
    let words := [x.ret.setWidth 32, (x.ret >>> 32).setWidth 32, BitVec.ofNat 32 (x.status + if remote then 256 else 0), 0] ++
      (if p.stamp then [BitVec.ofNat 32 x.stamp, BitVec.ofNat 32 (x.stamp / 2 ^ 32), 0, 0] else [])
    let lanes := if isS p.dst then [0] else bitsOf p.lanes
    m.modWarp p.bid p.warp fun w =>
      let w := lanes.foldl (fun w lane => (words.zipIdx).foldl (fun (w : Warp) y =>
        match regOf lane p.dst y.2 with
        | none => w
        | some n => w.arriveReg p.id n ⟨y.1, p.tag⟩) w) w
      let w := if remote then w else modLanes w fun i l => if p.lanes.getLsbD i then { l with pts := max l.pts x.stamp } else l
      match w.block with
      | some (.replies ids) =>
        if ids = [r.id] then
          { w with block := none
                   flights := w.flights.map fun (f : Flight) => if f.id = p.id then { f with done := true } else f }
        else { w with block := some (.replies (ids.filter (· != r.id))) }
      | some (.wrung _) => w
      | none => w

/-- FACT of R175: the data error entry, or the reset of the issuing context; for a remote request the status travels back. -/
def Mach.pressError (m : Mach) (mg : Mgmt) (r : PressReq) (stamp : Nat) : Mach :=
  if r.image.fact = 2 then
    let m := m.closePress r
    match r.remote with
    | some k => { m with signals := m.signals ++ [.pressReply k r.wants 0 2 stamp] }
    | none => m.forcedReset mg r.ctx 1
  else
    let m := m.fqPush r.ctx 5 (dataErr r.granule r.opc r.source r.count) [] none none
    m.finishPress r ⟨stamp, 0, 1⟩

/-- One application in this module's memory: the stamp and the value. -/
def Mach.applyHere (m : Mach) (r : PressReq) : PressResult × Mach :=
  let buf := wordsOfBytes (m.viewBytes r.world r.granule r.image.size)
  let (st, m) := m.stampGranule r.lines r.pts
  match applyImage r.image r.opnd r.parts buf with
  | (none, ret) => (⟨st, ret, 0⟩, m)
  | (some ws, ret) => (⟨st, ret, 0⟩, m.putGranule r.world r.granule (bytesOfWords ws))

/-- What an application brings about first at the lines of its granule: damp holders drain, claims are recalled (R141, R122). -/
def Mach.prepareLines (m : Mach) (r : PressReq) : Mach :=
  r.lines.foldl (fun m l => (if r.wring then m.wringNow l else m).recallFor none l) m

/-- A second read of the granule succeeds (R175): only a first read failed in transfer, and no line of it is dirty in L2. -/
def Mach.retryHelps (m : Mach) (r : PressReq) : Bool :=
  r.glitch && r.image.fact == 1 && !(r.lines.any fun l => (tabFind m.lines l).any (·.dirty))

/-- The site finds the granule's data uncorrectable, and stays with that: the stored copy is poisoned, or the read failed in transfer
and no second read helps (R175). -/
def Mach.granuleBad (m : Mach) (r : PressReq) : Bool :=
  m.badRange r.world r.granule r.image.size || (r.glitch && !m.retryHelps r)

/-- A read that succeeded the second time is counted as a corrected error (R175). -/
def Mach.countRetry (m : Mach) (r : PressReq) : Mach := if m.retryHelps r then { m with corrected := m.corrected + 1 } else m

def pressTraffic (r : PressReq) (mg : Mgmt) (m : Mach) : Mach :=
  r.lines.foldl (fun m l => m.allocLine mg (deviceOf r.ctx) .atomic true r.world.isSome l) m

/-- A posted press to another module that fails: an entry for each request merged in it. -/
def Mach.pressPostError (m : Mach) (r : PressReq) (status : Nat) : Mach :=
  (List.range r.count).foldl (fun (m : Mach) _ => m.postError r.ctx false (BitVec.ofNat 48 r.va) true status)
    { m with presses := m.presses.filter (·.id != r.id) }

/-- PRESS_APPLICATION (R164): at the home slice, or in another module's memory, whose status comes back: a request that met
uncorrectable data there was skipped, or resets its context (R156, R175); a posted one to a module that cannot be reached
fails (R325). -/
def Mach.applyPress (m : Mach) (mg : Mgmt) (r : PressReq) : Mach :=
  match r.target with
  | some k =>
    if m.unreach.contains k && r.reply.isNone then
      ({ m with free := m.free + 1 } : Mach).pressPostError r (Config.linkStatus m.free)
    else if m.peerBadRange k r.granule r.image.size then
      if r.image.fact = 2 then (m.closePress r).forcedReset mg r.ctx 1
      else
        let (st, m) := m.farStamp k r.granule
        m.finishPress r ⟨st, 0, 1⟩
    else
    let buf := wordsOfBytes (m.farRead (.peer k r.granule) r.image.size)
    let (ws, ret) := applyImage r.image r.opnd r.parts buf
    let m := match ws with
      | none => m
      | some ws => m.farWrite (.peer k r.granule) (bytesOfWords ws)
    let (st, m) := m.farStamp k r.granule
    m.finishPress r ⟨st, ret, 0⟩
  | none =>
    let m := m.prepareLines r
    if m.granuleBad r then
      let (st, m) := m.leaseGranule r.lines r.pts
      m.pressError mg r st
    else
      let m := pressTraffic r mg (m.countRetry r)
      let (x, m) := m.applyHere r
      m.finishPress r x

/-- CHANNEL_PRESS_APPLICATION (R174): the lines leave L2 and are held until the acknowledgement. -/
def Mach.applyChannel (m : Mach) (mg : Mgmt) (r : PressReq) : Mach :=
  let m := m.prepareLines { r with wring := true }
  let m := { m with lines := r.lines.foldl tabErase m.lines }
  if m.granuleBad r then
    let (st, m) := m.leaseGranule r.lines r.pts
    m.pressError mg r st
  else
    let (x, m) := (m.countRetry r).applyHere r
    { m with heldBy := r.lines.foldl (fun t l => tabSet t l r.id) m.heldBy
             presses := m.presses.map fun (p : PressReq) => if p.id = r.id then { p with done := some x } else p }

/-- CHANNEL_ACK (R174). -/
def Mach.channelAck (m : Mach) (r : PressReq) : Mach :=
  match r.done with
  | none => m
  | some x => m.finishPress r x

/-! ## Arrival and order -/

def PressReq.overlaps (r : PressReq) (target : Option Nat) (pa n : Nat) : Bool :=
  r.target == target && decide (pa < r.granule + r.image.size) && decide (r.granule < pa + n)

/-- Requests that stand before another: those to the same bytes that arrived earlier, when both are ordered (R167) or a lane
made both (R123, R168). -/
def PressReq.precedes (e r : PressReq) : Bool :=
  e.overlaps r.target r.granule r.image.size && ((e.image.cls == 0 && r.image.cls == 0) || sharesLane e.lanes r.lanes)

/-- Whether a request can be applied now: it has arrived, none that precedes it is open, and no other holds its lines. -/
def Mach.pressReady (m : Mach) (id : Nat) : Option PressReq :=
  match m.presses.find? (·.id == id) with
  | none => none
  | some r =>
    let before := m.presses.takeWhile (·.id != id)
    if r.comb.isSome || r.done.isSome || before.any (·.precedes r) ||
      (r.target.isNone && r.lines.any fun l => tabHas m.heldBy l) then none else some r

/-- Requests with one key merge: posted ones of one context, opcode, granule and definition, and of one module (R156, R169, R172). -/
def mergeable (a b : PressReq) : Bool :=
  a.image.cls == 2 && a.reply.isNone && b.reply.isNone && a.wants.isNone && b.wants.isNone && a.ctx == b.ctx && a.opc == b.opc &&
    a.image == b.image && a.target == b.target && a.remote == b.remote && a.granule == b.granule && !a.damp && !b.damp

def mergePress (a b : PressReq) : PressReq :=
  { a with ids := a.ids ++ b.ids, opnd := combineWords a.image a.opnd b.opnd, parts := a.parts ++ b.parts, count := a.count + b.count
           lanes := a.lanes ++ b.lanes, cores := dedup (a.cores ++ b.cores), pts := max a.pts b.pts }

/-- The waiting request that an arriving one merges into: one with its key that no later request of the same lane to those bytes
stands behind (R123, R172). -/
def mergeTarget (r : PressReq) : List PressReq → Option PressReq
  | [] => none
  | x :: rest =>
    if x.comb.isNone && x.done.isNone && mergeable x r &&
        !(rest.any fun y => y.overlaps r.target r.granule r.image.size && sharesLane y.lanes r.lanes) then some x
    else mergeTarget r rest

/-- A request or batch arrives at its slice: it merges into one that waits there, or waits itself (R172). -/
def Mach.arrivePress (m : Mach) (r : PressReq) : Mach :=
  let rest := m.presses.filter (·.id != r.id)
  match mergeTarget r rest with
  | none => { m with presses := rest ++ [{ r with comb := none, chan := m.siteOf r }] }
  | some x => { m with presses := rest.map fun (y : PressReq) => if y.id = x.id then mergePress y r else y }

/-- Combining entries that are sent (R172). -/
def Mach.sendEntries (m : Mach) (p : PressReq → Bool) : Mach :=
  (m.presses.filter fun r => r.comb.isSome && p r).foldl Mach.arrivePress m

/-- A lane's later access to a granule with its own outstanding presses: they are sent and applied first (R123, R172). -/
def Mach.settlePress (m : Mach) (mg : Mgmt) (lanes : List PressLane) (target : Option Nat) (pa n : Nat) : Mach :=
  if !(m.presses.any fun r => r.overlaps target pa n && sharesLane r.lanes lanes) then m
  else
    let m := m.sendEntries fun r => r.overlaps target pa n && sharesLane r.lanes lanes
    let due := m.presses.filter fun r => r.comb.isNone && m.presses.any fun x =>
      x.overlaps target pa n && sharesLane x.lanes lanes && r.overlaps target x.granule x.image.size
    due.foldl (fun m r =>
      if r.done.isSome then m.channelAck r
      else if r.chan then
        let m := m.applyChannel mg r
        match m.presses.find? (·.id == r.id) with
        | none => m
        | some r => m.channelAck r
      else m.applyPress mg r) m

end Sys2Proof.Machine
end

