-- ==== Sys2Proof/Machine/Access.lean ====
section
/-! DEFINITION. Memory accesses of lanes: addresses (R370, R429), translation in pieces and their causes (R109, R277), the
store check and the leave check (R305 to R307), performing loads, stores and read-modify-writes part by part (R108, R114,
R129), scratchpad and the cluster window (R88, R93). -/

namespace Sys2Proof.Machine

/-! ## Causes over pieces -/

/-- The reported cause: least priority number, then lowest address (R277, R282). -/
def worst (l : List (Nat × Cause)) : Option (Nat × Cause) :=
  l.foldl (fun o x => match o with
    | none => some x
    | some y => if x.2.priority < y.2.priority || (x.2.priority == y.2.priority && decide (x.1 < y.1)) then some x else some y) none

def log2Of (n : Nat) : Nat := if n ≤ 1 then 0 else n.log2

def stopAt (c : Cause) (a n : Nat) (write : Bool) : Stop := ⟨c, a % 2 ^ 48, log2Of n, write⟩

/-- A piece of an access: its address and length, and its translation or cause. -/
structure Piece where
  va  : Nat
  n   : Nat
  loc : Except Cause Loc

/-- Translation of one piece: the leaf, the world (R315) and the place. -/
def Mach.locate1 (m : Mach) (mg : Mgmt) (a : Actor) (va n : Nat) : Piece × Mach :=
  match m.translate a va with
  | (.error d, m) => (⟨va, n, .error (.xlate d)⟩, m)
  | (.ok l, m) =>
    if l.sealed && (m.worldOf a.launch).isNone then (⟨va, n, .error .mtype⟩, m)
    else match m.placeOf mg a.ctx l va with
      | .error d => (⟨va, n, .error (.xlate d)⟩, m)
      | .ok p => (⟨va, n, .ok ⟨p, va, n, l⟩⟩, m)

def Mach.locateAll (m : Mach) (mg : Mgmt) (a : Actor) : List (Nat × Nat) → List Piece × Mach
  | [] => ([], m)
  | (va, n) :: r =>
    let (p, m) := m.locate1 mg a va n
    let (ps, m) := m.locateAll mg a r
    (p :: ps, m)

/-- Every page piece of an access (R109). -/
def Mach.locate (m : Mach) (mg : Mgmt) (a : Actor) (va n : Nat) : List Piece × Mach := m.locateAll mg a (pagePieces va n)

def pieceCauses (l : List Piece) : List (Nat × Cause) :=
  l.filterMap fun p => match p.loc with
    | .error c => some (p.va, c)
    | .ok _ => none

def pieceLocs (l : List Piece) : List Loc :=
  l.filterMap fun p => match p.loc with
    | .error _ => none
    | .ok x => some x

/-- The parts of a location (R108): 32 bytes on the module and on other modules, 8 in host memory. -/
def partsOf (l : Loc) : List (Place × Nat × Nat) :=
  match l.place with
  | .dev pa => (unitPieces 32 (l.n / 32 + 2) pa l.n).map fun x => (.dev x.1, l.va + (x.1 - pa), x.2)
  | .host h => (unitPieces 8 (l.n / 8 + 2) h l.n).map fun x => (.host x.1, l.va + (x.1 - h), x.2)
  | .peer k pa => (unitPieces 32 (l.n / 32 + 2) pa l.n).map fun x => (.peer k x.1, l.va + (x.1 - pa), x.2)
  | .spad b a => [(.spad b a, l.va, l.n)]

/-! ## Store check and leave check -/

def Mach.party (m : Mach) (ctx i : Nat) : Party := tabGet (m.ctx ctx).parties i 0

/-- The module lies in the launch's trust set (R296). -/
def Mach.trusted (m : Mach) (launch modid : Nat) : Bool :=
  match m.launch? launch with
  | none => false
  | some l => l.trust.any fun r => decide (r.1 ≤ modid) && decide (modid ≤ r.2)

/-- A joint page needs the consent of every party that it names (R306). -/
def Mach.jointOk (m : Mach) (ctx : Nat) (page : Mask) : Bool :=
  decide (popcount page < 2) || (bitsOf page).all fun i => (m.party ctx i).getLsbD 515

/-- R305, R306. -/
def Mach.storeOk (m : Mach) (ctx : Nat) (page data : Mask) : Bool := subMask data page && m.jointOk ctx page

/-- R307: `flag` is the party's permission for the destination. -/
def Mach.leaveOk (m : Mach) (ctx : Nat) (data : Mask) (flag : Party → Bool) : Bool :=
  match bitsOf data with
  | [] => true
  | [i] => flag (m.party ctx i)
  | _ => false

def hostFlag (p : Party) : Bool := p.getLsbD 512
def peerFlag (p : Party) : Bool := p.getLsbD 513
def modFlag (k : Nat) (p : Party) : Bool :=
  p.getLsbD 514 && decide (field p.toNat 539 528 ≤ k) && decide (k ≤ field p.toNat 555 544)

/-- A host address that belongs to a PCIe peer (log 16). -/
def Mach.atBusPeer (m : Mach) (h : Nat) : Bool := m.busPeers.any fun r => decide (r.1 ≤ h) && decide (h < r.1 + r.2)

/-- The check that a write of data with this mask to a place makes. -/
def Mach.writeOk (m : Mach) (ctx launch : Nat) (l : Loc) (data : Mask) : Bool :=
  match l.place with
  | .dev _ => m.storeOk ctx l.leaf.tag data
  | .host h => m.leaveOk ctx data (if m.atBusPeer h then peerFlag else hostFlag)
  | .peer k _ => if m.trusted launch k then m.storeOk ctx l.leaf.tag data else m.leaveOk ctx data (modFlag k)
  | .spad _ _ => true

/-- Uncorrectable data, here or in another module, an Insecure stream, or a module that has been unreachable for 10 ms (R317, R322,
R325, R506). -/
def Mach.badPart (m : Mach) (_ : Mgmt) (a : Actor) (l : Leaf) (p : Place) (n : Nat) : Bool :=
  match p with
  | .dev pa => m.badRange (m.viewOf a l) pa n
  | .host _ => m.hostDead a.ctx
  | .peer k pa => m.unreach.contains k || m.peerBadRange k pa n
  | .spad b x => match m.block? b with
    | none => false
    | some blk => spadBadRange blk x n

def Mach.dataCauses (m : Mach) (mg : Mgmt) (a : Actor) (ls : List Loc) : List (Nat × Cause) :=
  ls.flatMap fun l => (partsOf l).filterMap fun x => if m.badPart mg a l.leaf x.1 x.2.2 then some (x.2.1, .data) else none

/-! ## Addresses -/

/-- Who a lane is. -/
def View.actor (v : View) : Actor := ⟨v.b.ctx, v.b.launch, v.b.core, true, false⟩

/-- A global address (R370, R429): the base pair and a signed offset. -/
def globalAddr (base : BitVec 64) (x : Int) (n : Nat) (write : Bool) : Except Stop Nat :=
  let a : Int := (base.toNat % 2 ^ 48 : Nat) + x
  if base.toNat / 2 ^ 48 ≠ 0 ∨ a < 0 ∨ a + n > 2 ^ 48 then .error (stopAt (.xlate 0) (a % 2 ^ 48).toNat n write)
  else .ok a.toNat

/-- The scratchpad form of R370: the block and the address in it. -/
def spadAddr (m : Mach) (v : View) (base : BitVec 64) (x : Int) (n : Nat) (write : Bool) : Except Stop (Nat × Nat) :=
  let b := base.toNat
  let win := b.testBit 31
  let q := field b 26 24
  let a : Int := (b % 2 ^ 20 : Nat) + x
  let stop (c : Cause) : Except Stop (Nat × Nat) := .error (stopAt c (a % 2 ^ 48).toNat n write)
  if field b 23 20 ≠ 0 ∨ field b 30 27 ≠ 0 ∨ field b 63 32 ≠ 0 ∨ (!win && q ≠ 0) then stop .spRange
  else
    let target := if win then v.b.peers[q]? else some v.q.bid
    match target with
    | none => stop .cwin
    | some bid =>
      match m.block? bid with
      | none => stop .cwin
      | some blk => if a < 0 ∨ a + n > blk.spadSize then stop (if win then .cwin else .spRange) else .ok (bid, a.toNat)

/-- The thread-local window of a lane (R429, R430). -/
def localAddr (m : Mach) (v : View) (lane : Nat) (off : Int) (n : Nat) (write : Bool) : Except Stop Nat :=
  let c := m.ctx v.b.ctx
  let log := c.tlsLog.toNat
  if log < 3 ∨ log > 20 ∨ off < 0 ∨ off + n > 2 ^ log then .error (stopAt (.xlate 0) (off % 2 ^ 48).toNat n write)
  else .ok (c.tlsBase + ((v.b.tlslot * 32 + v.warp) * 32 + lane) * 2 ^ log + off.toNat)

/-- A signed index shifted by SH (R429). -/
def indexOf (x : Word) (sh : BitVec 2) : Int := x.toInt * 2 ^ sh.toNat

/-! ## Loads -/

/-- What a load brings: its bytes, its stamp, the mask of what it read. -/
structure Loaded where
  bytes : List Byte
  stamp : Nat
  tag   : Mask
  deriving DecidableEq, Repr

/-- One part of a load. -/
def Mach.loadPart (m : Mach) (mg : Mgmt) (a : Actor) (l : Loc) (damp : Bool) (pts : Nat) (p : Place) (n : Nat) :
    List Byte × Nat × Mach :=
  match p with
  | .dev pa => m.loadDev mg a l.leaf .thread damp pa n pts
  | .host h => (m.farRead (.host h) n, pts, m.touchHost a.ctx)
  | .peer k pa => (m.farRead (.peer k pa) n, pts, m)
  | .spad b x => m.loadSpad b x n pts

/-- Parts one after another in address order, each with the stamp of the one before (R108, R110, R114). DESIGN CHOICE (log 62): in this
order, and within one move. -/
def Mach.loadParts (m : Mach) (mg : Mgmt) (a : Actor) (l : Loc) (damp : Bool) (pts : Nat) :
    List (Place × Nat × Nat) → List Byte × Nat × Mach
  | [] => ([], pts, m)
  | x :: r =>
    let (bs, st, m) := m.loadPart mg a l damp pts x.1 x.2.2
    let (bs', st', m) := m.loadParts mg a l damp st r
    (bs ++ bs', st', m)

def isDevPlace : Place → Bool
  | .dev _ => true
  | .host _ => false
  | .peer _ _ => false
  | .spad _ _ => false

/-- The load of every piece, in address order. -/
def Mach.loadLocs (m : Mach) (mg : Mgmt) (a : Actor) (pts : Nat) : List Loc → List Byte × Nat × Mach
  | [] => ([], pts, m)
  | l :: r =>
    let damp := isDevPlace l.place && (m.dampRegion a.ctx l).isSome
    let (bs, st, m) := m.loadParts mg a l damp pts (partsOf l)
    let (bs', st', m) := m.loadLocs mg a st r
    (bs ++ bs', st', m)

def tagOfLocs (l : List Loc) : Mask := l.foldl (fun t x => t ||| x.leaf.tag) 0

/-- A posted store of the lanes shows in their own later loads (R129). -/
def seePosted (m : Mach) (lanes : List PressLane) (l : Loc) (bs : List Byte) : List Byte :=
  match l.place with
  | .host a => overlayPosted lanes bs (fun i => .host (a + i)) m.posted
  | .peer k a => overlayPosted lanes bs (fun i => .peer k (a + i)) m.posted
  | .dev _ => bs
  | .spad _ _ => bs

def seeAll (m : Mach) (lanes : List PressLane) : List Loc → List Byte → List Byte
  | [], _ => []
  | l :: r, bs => seePosted m lanes l (bs.take l.n) ++ seeAll m lanes r (bs.drop l.n)

/-- The lane's own outstanding presses to the bytes of an access are applied first (R123). -/
def Mach.settleLoc (m : Mach) (v : View) (l : Loc) : Mach :=
  if m.presses.isEmpty then m
  else match l.place with
    | .dev pa => m.settlePress v.mg v.set none pa l.n
    | .peer k pa => m.settlePress v.mg v.set (some k) pa l.n
    | .host _ => m
    | .spad _ _ => m

def Mach.settleLocs (m : Mach) (v : View) (ls : List Loc) : Mach := ls.foldl (fun m l => m.settleLoc v l) m

/-- A load of n bytes at a virtual address: a cause, or what it brings (R431 to R433). -/
def Mach.loadVa (m : Mach) (mg : Mgmt) (v : View) (va n pts : Nat) : Except Stop Loaded × Mach :=
  let a := v.actor
  let (ps, m) := m.locate mg a va n
  match worst (pieceCauses ps) with
  | some (x, c) => (.error (stopAt c x n false), m)
  | none =>
    let ls := pieceLocs ps
    match worst (m.dataCauses mg a ls) with
    | some (x, c) => (.error (stopAt c x n false), m)
    | none =>
      let (bs, st, m) := (m.settleLocs v ls).loadLocs mg a pts ls
      (.ok ⟨seeAll m v.set ls bs, st, tagOfLocs ls⟩, m)

/-- A load of scratchpad. -/
def Mach.loadSp (m : Mach) (bid a n pts : Nat) : Except Stop Loaded × Mach :=
  match m.block? bid with
  | none => (.error (stopAt .spRange a n false), m)
  | some b =>
    let parts := unitPieces 64 (n / 64 + 2) a n
    match parts.find? fun x => spadBadRange b x.1 x.2 with
    | some x => (.error (stopAt .data x.1 n false), m)
    | none =>
      let (bs, st, m) := parts.foldl (fun (acc : List Byte × Nat × Mach) x =>
        let (bs, st, m) := acc.2.2.loadSpad bid x.1 x.2 acc.2.1
        (acc.1 ++ bs, st, m)) ([], pts, m)
      (.ok ⟨bs, st, spadTag b a n⟩, m)

/-! ### Damp lines and loads (R141, R147, R148) -/

/-- τ in the region's type: an exact value; a negative, NaN or −0.0 FP32 τ acts as 0. -/
def tolerance (r : Region) (tau : Word) : FVal :=
  if r.int then .fin false tau.toNat 0
  else match f32 tau with
    | .nan => .fin false 0 0
    | .inf neg => if neg then .fin false 0 0 else .inf false
    | .fin neg n e => if neg then .fin false 0 0 else .fin false n e

def shareVal (int : Bool) (x : Nat) : FVal := if int then .fin false x 0 else f32 (BitVec.ofNat 32 x)

/-- The shortest leading part of the list whose shares sum to at least the excess. -/
def leadingPart (int : Bool) (excess : FVal) : List Share → FVal → List Share
  | [], _ => []
  | s :: r, sum =>
    let sum := FVal.sum .rne [sum, shareVal int s.share.toNat]
    if sum.cmp excess ≥ 0 then [s] else s :: leadingPart int excess r sum

/-- The holders that a load of a line with tolerance τ wrings (R148). -/
def Mach.wringSet (m : Mach) (r : Region) (line : Nat) (tau : Word) : List (Nat × Nat) :=
  let o := shareVal r.int (m.outstanding r.int line)
  let t := tolerance r tau
  let here := m.shares.filter (·.line == line)
  if here.isEmpty || decide (o.cmp t ≤ 0) then []
  else
    let order := sortBy (fun (x y : Share) =>
      magGt r.int x.share.toNat y.share.toNat || (x.share == y.share && decide (x.holder ≤ y.holder))) here
    (leadingPart r.int (subVal' o t) order (.fin false 0 0)).map fun s => (line, s.holder)
where
  subVal' (a b : FVal) : FVal := FVal.sum .rne [a, b.negate]

/-- Lines that a range of a location covers. -/
def linesOf (pa n : Nat) : List Nat := (List.range (lineOf (pa + n - 1) + 1 - lineOf pa)).map fun i => lineOf pa + i

/-- The holders that a load at a virtual address must wait for. -/
def Mach.wringsOfLoad (m : Mach) (mg : Mgmt) (v : View) (va n : Nat) (tau : Word) : List (Nat × Nat) :=
  let (ps, m) := m.locate mg v.actor va n
  if !(pieceCauses ps).isEmpty then []
  else (pieceLocs ps).flatMap fun l => match l.place with
    | .dev pa => match m.dampRegion v.b.ctx l with
      | none => []
      | some r => (linesOf pa l.n).flatMap fun line => m.wringSet r line tau
    | .host _ => []
    | .peer _ _ => []
    | .spad _ _ => []

/-! ## Stores -/

/-- Damp lines of a store, an atomic or an engine access are wrung at once (R141). -/
def Mach.wringLoc (m : Mach) (ctx : Nat) (l : Loc) : Mach :=
  match l.place with
  | .dev pa => if (m.dampRegion ctx l).isSome then (linesOf pa l.n).foldl Mach.wringNow m else m
  | .host _ => m
  | .peer _ _ => m
  | .spad _ _ => m

/-- One part of a store. -/
def Mach.storePart (m : Mach) (mg : Mgmt) (v : View) (l : Loc) (va pts : Nat) (p : Place) (bs : List Byte) : Nat × Mach :=
  match p with
  | .dev pa => m.storeDev mg v.actor l.leaf .thread pa bs pts
  | .host h =>
    let (id, m) := (m.touchHost v.b.ctx).freshId
    (pts, { m with posted := m.posted ++ [⟨id, v.set, v.b.ctx, .host h, BitVec.ofNat 48 va, bs, none⟩] })
  | .peer k pa =>
    let (id, m) := m.freshId
    (pts, { m with posted := m.posted ++ [⟨id, v.set, v.b.ctx, .peer k pa, BitVec.ofNat 48 va, bs, none⟩] })
  | .spad _ _ => (pts, m)

def Mach.storeParts (m : Mach) (mg : Mgmt) (v : View) (l : Loc) (pts : Nat) :
    List (Place × Nat × Nat) → List Byte → Nat × Mach
  | [], _ => (pts, m)
  | x :: r, bs =>
    let (st, m) := m.storePart mg v l x.2.1 pts x.1 (bs.take x.2.2)
    let (st', m) := m.storeParts mg v l st r (bs.drop x.2.2)
    (st', m)

def Mach.storeLocs (m : Mach) (mg : Mgmt) (v : View) (pts : Nat) : List Loc → List Byte → Nat × Mach
  | [], _ => (pts, m)
  | l :: r, bs =>
    let m := m.wringLoc v.b.ctx l
    let (st, m) := m.storeParts mg v l pts (partsOf l) (bs.take l.n)
    let (st', m) := m.storeLocs mg v st r (bs.drop l.n)
    (st', m)

/-- An ordinary load made at once: the holders of its damp lines drain first (R141). -/
def Mach.loadNow (m : Mach) (mg : Mgmt) (v : View) (va n pts : Nat) : Except Stop Loaded × Mach :=
  let (ps, m) := m.locate mg v.actor va n
  ((pieceLocs ps).foldl (fun (m : Mach) l => m.wringLoc v.b.ctx l) m).loadVa mg v va n pts

/-- Causes of a write in the order MTYPE, XLATE, PERM, TAG (R480). -/
def Mach.writeCauses (m : Mach) (ctx launch : Nat) (ps : List Piece) (data : Mask) : List (Nat × Cause) :=
  ps.filterMap fun p => match p.loc with
    | .error c => some (p.va, c)
    | .ok l => if !l.leaf.w then some (p.va, .perm) else if m.writeOk ctx launch l data then none else some (p.va, .tag)

/-- Physical ranges that the pieces of a store cover on this module, for R506. -/
def devRanges (ls : List Loc) : List (Nat × Nat) :=
  ls.filterMap fun l => match l.place with
    | .dev pa => some (pa, l.n)
    | .host _ => none
    | .peer _ _ => none
    | .spad _ _ => none

/-- A store at a virtual address (R479, R480): a cause, or its stamp and the ranges it wrote. -/
def Mach.storeVa (m : Mach) (mg : Mgmt) (v : View) (va : Nat) (bs : List Byte) (data : Mask) (pts : Nat) :
    Except Stop (Nat × List (Nat × Nat)) × Mach :=
  let n := bs.length
  let (ps, m) := m.locate mg v.actor va n
  match worst (m.writeCauses v.b.ctx v.b.launch ps data) with
  | some (x, c) => (.error (stopAt c x n true), m)
  | none =>
    let ls := pieceLocs ps
    let (st, m) := (m.settleLocs v ls).storeLocs mg v pts ls bs
    (.ok (st, devRanges ls), m.healDev (devRanges ls))

/-- A store to scratchpad, part by part. -/
def Mach.storeSp (m : Mach) (bid a : Nat) (bs : List Byte) (data : Mask) (pts : Nat) : Nat × Mach :=
  let parts := unitPieces 64 (bs.length / 64 + 2) a bs.length
  let (st, m) := parts.foldl (fun (acc : Nat × Mach) x =>
    let (st, m) := acc.2.storeSpad bid x.1 ((bs.drop (x.1 - a)).take x.2) data acc.1
    (st, m)) (pts, m)
  (st, m.modBlock bid fun b => healSpad b [(a, bs.length)])

end Sys2Proof.Machine
end

