-- ==== Sys2Proof/Machine/LoadStore.lean ====
section
/-! DEFINITION. Loads and stores: LD, LDS, LDL (R427 to R433), LDB (R434, R435), ST, STS, STL (R478 to R480), PREF (R454). -/

namespace Sys2Proof.Machine

/-! ## Sizes -/

def loadBytes : LoadSize → Nat
  | .b32 => 4 | .b64 => 8 | .b128 => 16 | .u8 => 1 | .s8 => 1 | .u16 => 2 | .s16 => 2
def loadRegs : LoadSize → Nat
  | .b32 => 1 | .b64 => 2 | .b128 => 4 | .u8 => 1 | .s8 => 1 | .u16 => 1 | .s16 => 1
def storeBytes : StoreSize → Nat
  | .b32 => 4 | .b64 => 8 | .b128 => 16 | .b8 => 1 | .b16 => 2
def storeRegs : StoreSize → Nat
  | .b32 => 1 | .b64 => 2 | .b128 => 4 | .b8 => 1 | .b16 => 1

/-- The registers a load fills (R431). -/
def loadWords (z : LoadSize) (bs : List Byte) : List Word :=
  match z with
  | .b32 => wordsOfBytes bs
  | .b64 => wordsOfBytes bs
  | .b128 => wordsOfBytes bs
  | .u8 => [BitVec.ofNat 32 (natOfBytes bs)]
  | .u16 => [BitVec.ofNat 32 (natOfBytes bs)]
  | .s8 => [(BitVec.ofNat 8 (natOfBytes bs)).signExtend 32]
  | .s16 => [(BitVec.ofNat 16 (natOfBytes bs)).signExtend 32]

def outWords (d : Operand) (l : List Word) : List Out := (l.zipIdx).map fun x => { dst := d, k := x.2, val := x.1 }

/-- The result of a load for an element (R431, R432). -/
def loadEffect (d : Operand) (z : LoadSize) (r : Except Stop Loaded) : Effect :=
  match r with
  | .error s => .error s
  | .ok l => .ok { outs := outWords d (loadWords z l.bytes), tag := l.tag, pts := some l.stamp }

/-- The offset that an instruction adds to its base, with the checks and sources it needs. -/
structure Offset where
  of    : View → Int
  check : Owner → List (Nat × Bool)
  srcs  : List Src

/-- Form B: SRCB, shifted (R429). -/
def offB (b : Operand) (sh : BitVec 2) : Offset :=
  { of := fun v => indexOf (v.val 2 b) sh, check := fun ow => [(2, admits ow srcVSZ 1 b)], srcs := [⟨2, b, 1⟩] }
/-- Form C: IMM16. -/
def offC (imm : BitVec 16) : Offset := { of := fun _ => imm.toInt, check := fun _ => [], srcs := [] }
def offNone : Offset := { of := fun _ => 0, check := fun _ => [], srcs := [] }

/-! ## Loads -/

/-- Operand checks and sources that all loads share (R428). -/
def loadOp (h : Head) (g : Guard) (z : LoadSize) (d a : Operand) (x : Offset)
    (wring : List View → Mach → List (Nat × Nat)) (f : View → Mach → Except Stop Loaded × Mach) : Op :=
  { head := h, guard := g, fenced := true, scopes := allScopes, timing := .later
    check := fun ow _ => firstBad ([(0, admits ow (dstVSZ ow) (loadRegs z) d), (1, admits ow srcVS 2 a)] ++ x.check ow)
    srcs := fun _ => ⟨1, a, 2⟩ :: x.srcs
    wring := wring
    run := eachRun fun v m =>
      let (r, m) := f v m
      (loadEffect d z r, m) }

/-- A load of this size at an address that may not exist, in damp memory with a tolerance. -/
def loadAt (z : LoadSize) (addr : View → Mach → Except Stop Nat) (v : View) (m : Mach) : Except Stop Loaded × Mach :=
  match addr v m with
  | .error s => (.error s, m)
  | .ok va => m.loadVa v.mg v va (loadBytes z) v.pts

/-- The holders that the addresses of all elements need to drain first. -/
def wringAt (z : LoadSize) (h : Head) (addr : View → Mach → Except Stop Nat) (tau : View → Word) (vs : List View) (m : Mach) :
    List (Nat × Nat) :=
  dedup ((if h.scope = .lane then vs else vs.take 1).flatMap fun v =>
    match addr v m with
    | .error _ => []
    | .ok va => m.wringsOfLoad v.mg v va (loadBytes z) (tau v))

/-- The address of LD and PREF. -/
def globalOf (a : Operand) (x : Offset) (n : Nat) (write : Bool) (v : View) (_m : Mach) : Except Stop Nat :=
  globalAddr (v.val64 1 a) (x.of v) n write

/-- The address of LDL and STL: an unsigned 64-bit base and a signed offset. -/
def localOf (a : Operand) (x : Offset) (n : Nat) (write : Bool) (v : View) (m : Mach) : Except Stop Nat :=
  localAddr m v v.lane ((v.val64 1 a).toNat + x.of v) n write

def ldOp (h : Head) (g : Guard) (z : LoadSize) (d a : Operand) (x : Offset) : Op :=
  loadOp h g z d a x (wringAt z h (globalOf a x (loadBytes z) false) fun _ => 0) (loadAt z (globalOf a x (loadBytes z) false))

def ldlOp (h : Head) (g : Guard) (z : LoadSize) (d a : Operand) (x : Offset) : Op :=
  loadOp h g z d a x (wringAt z h (localOf a x (loadBytes z) false) fun _ => 0) (loadAt z (localOf a x (loadBytes z) false))

def ldsOp (h : Head) (g : Guard) (z : LoadSize) (d a : Operand) (x : Offset) : Op :=
  loadOp h g z d a x (fun _ _ => []) fun v m =>
    match spadAddr m v (v.val64 1 a) (x.of v) (loadBytes z) false with
    | .error s => (.error s, m)
    | .ok (bid, ad) => m.loadSp bid ad (loadBytes z) v.pts

def opLdB (i : FormB LoadMods) : Op := ldOp i.h i.g i.m.size i.d i.a (offB i.b i.m.sh)
def execLdB (i : FormB LoadMods) (s : State) : Host.Outcome State Fault Refusal := issueOp (.ldB i) (opLdB i) s
def opLdC (i : FormC LoadMods) : Op := ldOp i.h i.g i.m.size i.d i.a (offC i.imm)
def execLdC (i : FormC LoadMods) (s : State) : Host.Outcome State Fault Refusal := issueOp (.ldC i) (opLdC i) s
def opLdsB (i : FormB LoadMods) : Op := ldsOp i.h i.g i.m.size i.d i.a (offB i.b i.m.sh)
def execLdsB (i : FormB LoadMods) (s : State) : Host.Outcome State Fault Refusal := issueOp (.ldsB i) (opLdsB i) s
def opLdsC (i : FormC LoadMods) : Op := ldsOp i.h i.g i.m.size i.d i.a (offC i.imm)
def execLdsC (i : FormC LoadMods) (s : State) : Host.Outcome State Fault Refusal := issueOp (.ldsC i) (opLdsC i) s
def opLdlB (i : FormB LoadMods) : Op := ldlOp i.h i.g i.m.size i.d i.a (offB i.b i.m.sh)
def execLdlB (i : FormB LoadMods) (s : State) : Host.Outcome State Fault Refusal := issueOp (.ldlB i) (opLdlB i) s
def opLdlC (i : FormC LoadMods) : Op := ldlOp i.h i.g i.m.size i.d i.a (offC i.imm)
def execLdlC (i : FormC LoadMods) (s : State) : Host.Outcome State Fault Refusal := issueOp (.ldlC i) (opLdlC i) s

/-- LDB: the tolerance is in SRCB, and its mask joins the result (R435). -/
def opLdb (i : FormB LdbMods) : Op :=
  let tau : Offset := { of := fun _ => 0, check := fun ow => [(2, admits ow srcVSZ 1 i.b)], srcs := [⟨2, i.b, 1⟩] }
  loadOp i.h i.g i.m.size i.d i.a tau
    (wringAt i.m.size i.h (globalOf i.a tau (loadBytes i.m.size) false) fun v => v.val 2 i.b)
    (loadAt i.m.size (globalOf i.a tau (loadBytes i.m.size) false))
def execLdb (i : FormB LdbMods) (s : State) : Host.Outcome State Fault Refusal := issueOp (.ldb i) (opLdb i) s

/-! ## Stores -/

/-- A range that an instruction wrote in scratchpad: block, address, length and data mask. -/
structure SpadRange where
  bid  : Nat
  a    : Nat
  n    : Nat
  data : Mask
  deriving DecidableEq, Repr

/-- What a storing element did: its effect and the ranges it wrote on the module and in scratchpad. -/
structure Stored where
  effect : Effect
  dev    : List (Nat × Nat)
  spad   : List SpadRange

/-- A scratchpad block that the instruction's elements wrote whole takes the union of their masks and is healed (R304, R480,
R506). -/
def Mach.closeSpad (m : Mach) (bid : Nat) (rs : List SpadRange) : Mach :=
  let mine := rs.filter (·.bid == bid)
  let ranges := mine.map fun r => (r.a, r.n)
  let blocks := dedup (mine.flatMap fun r => (unitPieces 64 (r.n / 64 + 2) r.a r.n).map fun x => x.1 / 64)
  m.modBlock bid fun b =>
    let b := healSpad b ranges
    blocks.foldl (fun b i =>
      if coveredBy ranges (64 * i) 64 then
        let tag := mine.foldl (fun t r => if r.a < 64 * i + 64 ∧ 64 * i < r.a + r.n then t ||| r.data else t) 0
        { b with spadTags := tabSet b.spadTags i tag }
      else b) b

/-- Element after element; afterwards whole units written by the instruction are made good. -/
def storeRun (f : View → Mach → Stored × Mach) (vs : List View) (m : Mach) : List Effect × Mach :=
  let (es, dev, spad, m) := vs.foldl (fun (acc : List Effect × List (Nat × Nat) × List SpadRange × Mach) v =>
    let (r, m) := f v acc.2.2.2
    (acc.1 ++ [r.effect], acc.2.1 ++ r.dev, acc.2.2.1 ++ r.spad, m)) ([], [], [], m)
  let m := m.healDev dev
  (es, (dedup (spad.map (·.bid))).foldl (fun m bid => m.closeSpad bid spad) m)

/-- The store data: the low n bytes of the registers that DST names (R478). -/
def storeData (z : StoreSize) (d : Operand) (v : View) : List Byte :=
  (bytesOfWords (v.vals 0 d (storeRegs z))).take (storeBytes z)

def storeKinds (z : StoreSize) : Kinds :=
  match z with
  | .b32 => srcInt
  | .b8 => srcInt
  | .b16 => srcInt
  | .b64 => srcVSZ
  | .b128 => srcVSZ

def storeSrcs (z : StoreSize) (d a : Operand) (x : Offset) : List Src := ⟨0, d, storeRegs z⟩ :: ⟨1, a, 2⟩ :: x.srcs

def storeOp (h : Head) (g : Guard) (z : StoreSize) (d a : Operand) (x : Offset) (f : View → Mach → Stored × Mach) : Op :=
  { head := h, guard := g, fenced := true, scopes := allScopes, timing := .later
    check := fun ow _ => firstBad ([(0, admits ow (storeKinds z) (storeRegs z) d), (1, admits ow srcVS 2 a)] ++ x.check ow)
    srcs := fun _ => storeSrcs z d a x
    run := storeRun f }

/-- A store to a virtual address: the data mask is that of R305. -/
def storeVaOp (h : Head) (g : Guard) (z : StoreSize) (d a : Operand) (x : Offset) (addr : View → Mach → Except Stop Nat) : Op :=
  storeOp h g z d a x fun v m =>
    match addr v m with
    | .error s => (⟨.error s, [], []⟩, m)
    | .ok va =>
      match m.storeVa v.mg v va (storeData z d v) (v.tags (storeSrcs z d a x) ||| v.base) v.pts with
      | (.error s, m) => (⟨.error s, [], []⟩, m)
      | (.ok (st, dev), m) => (⟨.ok { pts := some st }, dev, []⟩, m)

def stOp (h : Head) (g : Guard) (z : StoreSize) (d a : Operand) (x : Offset) : Op :=
  storeVaOp h g z d a x (globalOf a x (storeBytes z) true)

def stlOp (h : Head) (g : Guard) (z : StoreSize) (d a : Operand) (x : Offset) : Op :=
  storeVaOp h g z d a x (localOf a x (storeBytes z) true)

def stsOp (h : Head) (g : Guard) (z : StoreSize) (d a : Operand) (x : Offset) : Op :=
  storeOp h g z d a x fun v m =>
    match spadAddr m v (v.val64 1 a) (x.of v) (storeBytes z) true with
    | .error s => (⟨.error s, [], []⟩, m)
    | .ok (bid, ad) =>
      let data := v.tags (storeSrcs z d a x) ||| v.base
      let (st, m) := m.storeSp bid ad (storeData z d v) data v.pts
      (⟨.ok { pts := some st }, [], [⟨bid, ad, storeBytes z, data⟩]⟩, m)

def opStB (i : FormB StoreMods) : Op := stOp i.h i.g i.m.size i.d i.a (offB i.b i.m.sh)
def execStB (i : FormB StoreMods) (s : State) : Host.Outcome State Fault Refusal := issueOp (.stB i) (opStB i) s
def opStC (i : FormC StoreMods) : Op := stOp i.h i.g i.m.size i.d i.a (offC i.imm)
def execStC (i : FormC StoreMods) (s : State) : Host.Outcome State Fault Refusal := issueOp (.stC i) (opStC i) s
def opStsB (i : FormB StoreMods) : Op := stsOp i.h i.g i.m.size i.d i.a (offB i.b i.m.sh)
def execStsB (i : FormB StoreMods) (s : State) : Host.Outcome State Fault Refusal := issueOp (.stsB i) (opStsB i) s
def opStsC (i : FormC StoreMods) : Op := stsOp i.h i.g i.m.size i.d i.a (offC i.imm)
def execStsC (i : FormC StoreMods) (s : State) : Host.Outcome State Fault Refusal := issueOp (.stsC i) (opStsC i) s
def opStlB (i : FormB StoreMods) : Op := stlOp i.h i.g i.m.size i.d i.a (offB i.b i.m.sh)
def execStlB (i : FormB StoreMods) (s : State) : Host.Outcome State Fault Refusal := issueOp (.stlB i) (opStlB i) s
def opStlC (i : FormC StoreMods) : Op := stlOp i.h i.g i.m.size i.d i.a (offC i.imm)
def execStlC (i : FormC StoreMods) (s : State) : Host.Outcome State Fault Refusal := issueOp (.stlC i) (opStlC i) s

/-! ## PREF -/

/-- R454: bring the line into its home slice and, unless L2 is set, into the L1 with the lease of a load of pts 0. -/
def prefetch (l2 : Bool) (v : View) (m : Mach) (va : Nat) : Mach :=
  let a := v.actor
  match m.locate1 v.mg a va 1 with
  | (p, m) => match p.loc with
    | .error _ => m
    | .ok l => match l.place with
      | .dev pa =>
        if (m.dampRegion v.b.ctx l).isSome || m.badRange (m.viewOf a l.leaf) pa 1 then m
        else
          let line := lineOf pa
          let m := m.allocLine v.mg (deviceOf v.b.ctx) .thread false l.leaf.sealed line
          if l2 then m
          else
            let (_, m) := m.leaseLine line 0
            let s := m.lineStamps line
            m.setL1 v.b.core line ⟨lineValue m (m.viewOf a l.leaf) line, s.wts, s.rts, m.viewOf a l.leaf⟩
      | .host _ => m
      | .peer _ _ => m
      | .spad _ _ => m

def prefOp (h : Head) (g : Guard) (l2 : Bool) (a : Operand) (x : Offset) : Op :=
  { head := h, guard := g, fenced := true, scopes := allScopes, timing := .atIssue, flow := false
    check := fun ow _ => firstBad ((1, admits ow srcVS 2 a) :: x.check ow)
    srcs := fun _ => ⟨1, a, 2⟩ :: x.srcs
    run := eachRun fun v m =>
      match globalOf a x 1 false v m with
      | .error _ => (.ok {}, m)
      | .ok va => (.ok {}, prefetch l2 v m va) }

def opPrefB (i : FormB PrefMods) : Op := prefOp i.h i.g i.m.l2 i.a (offB i.b i.m.sh)
def execPrefB (i : FormB PrefMods) (s : State) : Host.Outcome State Fault Refusal := issueOp (.prefB i) (opPrefB i) s
def opPrefC (i : FormC PrefMods) : Op := prefOp i.h i.g i.m.l2 i.a (offC i.imm)
def execPrefC (i : FormC PrefMods) (s : State) : Host.Outcome State Fault Refusal := issueOp (.prefC i) (opPrefC i) s

end Sys2Proof.Machine
end

