-- ==== Sys2Proof/Machine/Atomic.lean ====
section
/-! DEFINITION. Atomics: ATOM (R373 to R377) per lane and collective (R92), CAS (R386, R387), SBIN (R468 to R471), with held
additions to damp lines (R140, R143). -/

namespace Sys2Proof.Machine

/-! ## Operations -/

def atomBytes (wide : Bool) : Nat := if wide then 8 else 4

/-- The value stored (R373): operands and result in w bits. -/
def atomNew (op : AtomOp) (wide u : Bool) (old x : BitVec 64) : BitVec 64 :=
  let w := if wide then 64 else 32
  let cut (y : Nat) : BitVec 64 := BitVec.ofNat 64 (y % 2 ^ w)
  let val (y : BitVec 64) : Int := if wide then intOf u y else intOf u (y.setWidth 32)
  match op with
  | .add => cut (old.toNat + x.toNat)
  | .fadd => (f32Add .rne false (old.setWidth 32) (x.setWidth 32)).setWidth 64
  | .min => if val x < val old then cut x.toNat else old
  | .max => if val x > val old then cut x.toNat else old
  | .and => old &&& x
  | .or => old ||| x
  | .xor => cut (old ^^^ x).toNat
  | .xchg => cut x.toNat
  | .incsat => if old.toNat < x.toNat % 2 ^ 32 then cut (old.toNat + 1) else old

def wordOf (bs : List Byte) : BitVec 64 := BitVec.ofNat 64 (natOfBytes bs)

/-! ## Where an element's access goes -/

/-- A checked target: a place in memory or in scratchpad, with the page's leaf for a place in memory. -/
structure Target where
  place : Place
  loc   : Option Loc
  va    : Nat
  tag   : Mask

/-- What the memory scope accepts (R120, R376). `far` says whether the operation can be an AtomicOp that the host completes. -/
def scopeTakes (ms : MScope) (far : Bool) : Place → Bool
  | .dev _ => ms != .blk
  | .host _ => ms == .sys && far
  | .peer _ _ => ms == .sys
  | .spad _ _ => ms == .blk

/-- The target of a read-modify-write at a global address, in the order MISALIGN, MTYPE, XLATE, PERM, TAG, DATA (R377).
`write` is clear for a load of a barrier object, which needs neither W nor the store check. -/
def Mach.globalTarget (m : Mach) (v : View) (va n : Nat) (takes : Place → Bool) (write : Bool) (data : Mask) :
    Except Stop Target × Mach :=
  if va % n ≠ 0 then (.error (stopAt .misalign va n write), m)
  else
    let a := v.actor
    match m.locate1 v.mg a va n with
    | (p, m) => match p.loc with
      | .error c => (.error (stopAt c va n write), m)
      | .ok l =>
        let stop (c : Cause) : Except Stop Target × Mach := (.error (stopAt c va n write), m)
        if !takes l.place then stop .mtype
        else if write && !l.leaf.w then stop .perm
        else if write && !m.writeOk v.b.ctx v.b.launch l data then stop .tag
        else if m.badPart v.mg a l.leaf l.place n then stop .data
        else (.ok ⟨l.place, some l, va, l.leaf.tag⟩, m.settleLoc v l)

/-- The target in scratchpad: SPRANGE, CWIN, MISALIGN, DATA. -/
def Mach.spadTarget (m : Mach) (v : View) (base : BitVec 64) (n : Nat) (write : Bool) : Except Stop Target :=
  match spadAddr m v base 0 n write with
  | .error s => .error s
  | .ok (bid, a) =>
    if a % n ≠ 0 then .error (stopAt .misalign a n write)
    else match m.block? bid with
      | none => .error (stopAt .spRange a n write)
      | some b => if spadBadRange b a n then .error (stopAt .data a n write)
        else .ok ⟨.spad bid a, none, a, spadTag b a n⟩

/-- The target of an atomic with a base pair (R370). -/
def Mach.target (m : Mach) (v : View) (base : BitVec 64) (n : Nat) (ms : MScope) (far write : Bool) (data : Mask) :
    Except Stop Target × Mach :=
  if ms = .blk then (m.spadTarget v base n write, m)
  else if base.toNat % n ≠ 0 then (.error (stopAt .misalign base.toNat n write), m)
  else match globalAddr base 0 n write with
    | .error s => (.error s, m)
    | .ok va => m.globalTarget v va n (scopeTakes ms (far && !m.hostUr)) write data

/-- One read-modify-write at a target: the old bytes, the stamp (R114, R119, R122, R129). -/
def Mach.rmw (m : Mach) (v : View) (t : Target) (ms : MScope) (n : Nat) (f : List Byte → List Byte) (data : Mask) (pts : Nat) :
    List Byte × Nat × Mach :=
  match t.place, t.loc with
  | .dev pa, some l => m.rmwDev v.mg v.actor l.leaf (ms == .clu) pa n (fun bs => some (f bs)) pts
  | .spad bid a, _ => m.rmwSpad bid a n f data pts
  | .dev _, none => (zeros n, pts, m)
  | .host h, _ =>
    let m := m.deliverAll fun p => sharesLane p.lanes v.set
    let old := m.farRead (.host h) n
    (old, pts, (m.farWrite (.host h) (f old)).touchHost v.b.ctx)
  | .peer k pa, _ =>
    let m := m.deliverAll fun p => sharesLane p.lanes v.set
    let old := m.farRead (.peer k pa) n
    let (st, m) := (m.farWrite (.peer k pa) (f old)).farStamp k pa
    (old, st, m)

/-- The stamp that sets the lane's pts: another module's stamps are of its own domain (R119). -/
def ownStamp (t : Target) (st pts : Nat) : Nat :=
  match t.place with
  | .dev _ => st
  | .spad _ _ => st
  | .host _ => pts
  | .peer _ _ => pts

/-! ## ATOM -/

/-- Registers written: the old value, then the stamp (R374). -/
def atomOuts (ret stamp wide : Bool) (d : Operand) (old : BitVec 64) (st : Nat) : List Out :=
  let lo : Word := old.setWidth 32
  let hi : Word := if wide then (old >>> 32).setWidth 32 else 0
  let s0 : Word := BitVec.ofNat 32 st
  let s1 : Word := BitVec.ofNat 32 (st / 2 ^ 32)
  if ret && stamp then outWords d [lo, hi, s0, s1]
  else if stamp then outWords d [s0, s1]
  else if ret then outWords d (if wide then [lo, hi] else [lo])
  else []

/-- The region of a damp target, for the rules of R140 and R141. -/
def Mach.dampOf (m : Mach) (v : View) (t : Target) : Option (Region × Loc × Nat) :=
  match t.place, t.loc with
  | .dev pa, some l => (m.dampRegion v.b.ctx l).map fun r => (r, l, pa)
  | .dev _, none => none
  | .host _, _ => none
  | .peer _ _, _ => none
  | .spad _ _, _ => none

/-- An addition of the region's type without a result (R140, R141). -/
def plainAdd (mo : AtomMods) (r : Region) : Bool :=
  !mo.wide && !mo.ret && !mo.stamp && (if r.int then mo.op == .add else mo.op == .fadd)

/-- A type-correct `.SYS` addition without a return leaves the holders alone (R141). -/
def quietAdd (mo : AtomMods) (r : Region) : Bool :=
  mo.ms == .sys && !mo.wide && !mo.ret && (if r.int then mo.op == .add else mo.op == .fadd)

/-- Offer an addition to the L1 of the issuing core; the answer says whether it is held, with the masks of x, the guard and F (R143). -/
def Mach.offer (m : Mach) (v : View) (mo : AtomMods) (t : Target) (x : BitVec 64) (tags : Mask) : Bool × Mach :=
  match m.dampOf v t with
  | none => (false, m)
  | some (r, l, pa) =>
    if plainAdd mo r && mo.ms == .dev then
      m.holdUpdate v.mg v.b.ctx r (lineOf pa) (lineOf l.va) v.b.core (m.viewOf v.actor l.leaf) (pa % 128 / 4) (x.setWidth 32) tags
    else if quietAdd mo r then (false, m)
    else (false, m.wringNow (lineOf pa))

def atomF (mo : AtomMods) (x : BitVec 64) (bs : List Byte) : List Byte :=
  bytesOfNat (atomNew mo.op mo.wide mo.unsigned (wordOf bs) x).toNat (atomBytes mo.wide)

def atomSrcs (mo : AtomMods) (a b : Operand) : List Src := [⟨1, a, 2⟩, ⟨2, b, if mo.wide then 2 else 1⟩]

def atomX (mo : AtomMods) (b : Operand) (v : View) : BitVec 64 :=
  if mo.wide then v.val64 2 b else (v.val 2 b).setWidth 64

/-- ADD and XCHG without STAMP map to AtomicOps of the host (R376). -/
def atomFar (mo : AtomMods) : Bool := (mo.op == .add || mo.op == .xchg) && !mo.stamp

def atomTarget (mo : AtomMods) (a b : Operand) (v : View) (m : Mach) : Except Stop Target × Mach :=
  m.target v (v.val64 1 a) (atomBytes mo.wide) mo.ms (atomFar mo) true (v.tags (atomSrcs mo a b) ||| v.base)

/-- One lane's atomic (R375). -/
def atomLane (mo : AtomMods) (d a b : Operand) (v : View) (m : Mach) : Effect × Mach :=
  match atomTarget mo a b v m with
  | (.error s, m) => (.error s, m)
  | (.ok t, m) =>
    let data := v.tags (atomSrcs mo a b) ||| v.base
    let (held, m) := m.offer v mo t (atomX mo b v) (v.tags [⟨2, b, if mo.wide then 2 else 1⟩] ||| v.base)
    if held then (.ok { tag := t.tag }, m)
    else
      let (old, st, m) := m.rmw v t mo.ms (atomBytes mo.wide) (atomF mo (atomX mo b v)) data v.pts
      (.ok { outs := atomOuts mo.ret mo.stamp mo.wide d (wordOf old) st, tag := t.tag, pts := some (ownStamp t st v.pts) }, m)

/-- A key by which the collective form orders distinct addresses. -/
def targetKey (t : Target) : Nat :=
  match t.place with
  | .spad b a => b * 2 ^ 20 + a
  | .dev _ => t.va
  | .host _ => t.va
  | .peer _ _ => t.va

/-- The values that the elements at one address see before their own operation, and the final one. -/
def atomFold (mo : AtomMods) (old : BitVec 64) : List (Nat × BitVec 64) → List (Nat × BitVec 64) × BitVec 64
  | [] => ([], old)
  | (e, x) :: r =>
    let (l, last) := atomFold mo (atomNew mo.op mo.wide mo.unsigned old x) r
    ((e, old) :: l, last)

/-- The elements at one address: held ones drop out, the rest are folded into one access (R92, R375, R376), whose data mask is
that of these elements (R305). -/
def atomAddress (mo : AtomMods) (a b : Operand) (m : Mach) (pts : Nat) (l : List (View × Target)) :
    List (Nat × BitVec 64 × Nat) × Nat × Mach :=
  match l with
  | [] => ([], pts, m)
  | (v, t) :: _ =>
    let data := l.foldl (fun t x => t ||| x.1.tags (atomSrcs mo a b) ||| x.1.base) 0
    let (rest, m) := l.foldl (fun (acc : List (Nat × BitVec 64) × Mach) x =>
      let (held, m) := acc.2.offer x.1 mo x.2 (atomX mo b x.1) (x.1.tags [⟨2, b, if mo.wide then 2 else 1⟩] ||| x.1.base)
      (if held then acc.1 else acc.1 ++ [(x.1.idx, atomX mo b x.1)], m)) ([], m)
    if rest.isEmpty then ([], pts, m)
    else
      let n := atomBytes mo.wide
      let (old, st, m) := m.rmw v t mo.ms n (fun bs => bytesOfNat (atomFold mo (wordOf bs) rest).2.toNat n) data pts
      let seen := (atomFold mo (wordOf old) rest).1
      (seen.map fun x => (x.1, x.2, st), max pts (ownStamp t st pts), m)

/-- Every element's target, or its stop. -/
def resolveAll (f : View → Mach → Except Stop Target × Mach) : List View → Mach → List (View × Except Stop Target) × Mach
  | [], m => ([], m)
  | v :: r, m =>
    let (t, m) := f v m
    let (ts, m) := resolveAll f r m
    ((v, t) :: ts, m)

def targetsOf (l : List (View × Except Stop Target)) : List (View × Target) :=
  l.filterMap fun x => match x.2 with
    | .error _ => none
    | .ok t => some (x.1, t)

/-- The collective form (R375): every element is checked first, then one access for each distinct address, ascending. -/
def atomSet (mo : AtomMods) (d a b : Operand) (vs : List View) (m : Mach) : List Effect × Mach :=
  let (rs, m) := resolveAll (atomTarget mo a b) vs m
  let ts := targetsOf rs
  if ts.length < rs.length then
    (rs.map fun x => match x.2 with
      | .error s => .error s
      | .ok _ => .ok {}, m)
  else
    let keys := sortBy (fun x y => decide (x ≤ y)) (dedup (ts.map fun x => targetKey x.2))
    let (res, pts, m) := keys.foldl (fun (acc : List (Nat × BitVec 64 × Nat) × Nat × Mach) k =>
      let (r, pts, m) := atomAddress mo a b acc.2.2 acc.2.1 (ts.filter fun x => targetKey x.2 == k)
      (acc.1 ++ r, pts, m)) ([], ((vs.head?).map (·.pts)).getD 0, m)
    (ts.map fun x =>
      let (old, st) := match res.find? (·.1 == x.1.idx) with
        | none => (0, 0)
        | some r => r.2
      .ok { outs := atomOuts mo.ret mo.stamp mo.wide d old st, tag := x.2.tag, pts := some pts }, m)

/-- The destination of R374 and R386. -/
def atomDst (ow : Owner) (ret stamp wide : Bool) (d : Operand) : Bool :=
  if ret && stamp then admits ow (dstVS ow) 4 d
  else if stamp then admits ow (dstVS ow) 2 d
  else if ret then admits ow (dstVS ow) (if wide then 2 else 1) d
  else admits ow onlyZero 1 d

def opAtom (i : FormB AtomMods) : Op :=
  { head := i.h, guard := i.g, fenced := true, scopes := allScopes, coll := true, timing := .later
    check := fun ow _ => firstBad [(0, atomDst ow i.m.ret i.m.stamp i.m.wide i.d), (1, admits ow srcVS 2 i.a),
      (2, admits ow srcFp (if i.m.wide then 2 else 1) i.b)]
    srcs := fun _ => atomSrcs i.m i.a i.b
    run := if i.h.scope = .lane then eachRun (atomLane i.m i.d i.a i.b) else atomSet i.m i.d i.a i.b }
def execAtom (i : FormB AtomMods) (s : State) : Host.Outcome State Fault Refusal := issueOp (.atom i) (opAtom i) s

/-! ## CAS -/

def casSrcs (mo : CasMods) (a b c : Operand) : List Src :=
  let n := if mo.wide then 2 else 1
  [⟨1, a, 2⟩, ⟨2, b, n⟩, ⟨3, c, n⟩]

/-- A failed comparison writes the old value, and so takes a stamp (R387). -/
def casF (wide : Bool) (c n : BitVec 64) (bs : List Byte) : List Byte :=
  if wordOf bs = c then bytesOfNat n.toNat (atomBytes wide) else bs

def casLane (mo : CasMods) (d a b c : Operand) (v : View) (m : Mach) : Effect × Mach :=
  let get (pos : Nat) (o : Operand) : BitVec 64 := if mo.wide then v.val64 pos o else (v.val pos o).setWidth 64
  let data := v.tags (casSrcs mo a b c) ||| v.base
  match m.target v (v.val64 1 a) (atomBytes mo.wide) mo.ms (!mo.stamp) true data with
  | (.error s, m) => (.error s, m)
  | (.ok t, m) =>
    let m := match m.dampOf v t with
      | none => m
      | some (_, _, pa) => m.wringNow (lineOf pa)
    let (old, st, m) := m.rmw v t mo.ms (atomBytes mo.wide) (casF mo.wide (get 2 b) (get 3 c)) data v.pts
    (.ok { outs := atomOuts true mo.stamp mo.wide d (wordOf old) st, tag := t.tag, pts := some (ownStamp t st v.pts) }, m)

def opCas (i : FormB CasMods) : Op :=
  let n := if i.m.wide then 2 else 1
  { head := i.h, guard := i.g, fenced := true, scopes := allScopes, timing := .later
    check := fun ow _ => firstBad [(0, atomDst ow true i.m.stamp i.m.wide i.d), (1, admits ow srcVS 2 i.a),
      (2, admits ow srcFp n i.b), (3, admits ow srcFp n i.c)]
    srcs := fun _ => casSrcs i.m i.a i.b i.c
    run := eachRun (casLane i.m i.d i.a i.b i.c) }
def execCas (i : FormB CasMods) (s : State) : Host.Outcome State Fault Refusal := issueOp (.cas i) (opCas i) s

/-! ## SBIN -/

/-- The header of a bin table (R468). -/
structure BinTable where
  bid   : Nat
  t     : Nat
  nbins : Nat
  cap   : Nat
  doff  : Nat
  ovf   : Nat
  deriving DecidableEq, Repr

def readTable (m : Mach) (bid t : Nat) : BinTable × Nat :=
  let x := natOfBytes (m.spadBytes bid t 16)
  ({ bid := bid, t := t, nbins := field x 15 0, cap := field x 31 16, doff := field x 51 32, ovf := field x 95 64 },
   field x 63 52 + field x 127 96)

/-- The table at an address, in the order SPRANGE or CWIN, MISALIGN, DATA (R471, R506). -/
def sbinTable (a : Operand) (v : View) (m : Mach) : Except Stop BinTable :=
  let base := v.val64 1 a
  match spadAddr m v base 0 16 true with
  | .error s => .error s
  | .ok (bid, t) =>
    let (h, reserved) := readTable m bid t
    match m.block? bid with
    | none => .error (stopAt .spRange t 16 true)
    | some b =>
      if reserved ≠ 0 ∨ t + 16 + 4 * h.nbins > b.spadSize ∨ h.doff + 4 * (h.nbins * h.cap) > b.spadSize then
        .error (stopAt (if base.getLsbD 31 then .cwin else .spRange) t 16 true)
      else if t % 16 ≠ 0 ∨ h.doff % 4 ≠ 0 then .error (stopAt .misalign t 16 true)
      else if spadBadRange b t (16 + 4 * h.nbins) then .error (stopAt .data t 16 true)
      else .ok h

/-- The appends of the elements in order: results, records, changed counts, refusals (R470). -/
structure Appends where
  results : List Word
  records : List (Nat × Word)
  counts  : Tab Nat
  ovf     : Nat
  deriving DecidableEq, Repr

def appendOne (m : Mach) (h : BinTable) (s : Appends) (kv : Word × Word) : Appends :=
  let k := kv.1.toNat
  let full := 2 ^ 32 - 1
  if k ≥ h.nbins then { s with results := s.results ++ [0xFFFFFFFE], ovf := min (s.ovf + 1) full }
  else
    let c := (tabFind s.counts k).getD (natOfBytes (m.spadBytes h.bid (h.t + 16 + 4 * k) 4))
    let counts := tabSet s.counts k (min (c + 1) full)
    if c < h.cap then
      { s with results := s.results ++ [BitVec.ofNat 32 c], counts := counts
               records := s.records ++ [(h.doff + 4 * (k * h.cap + c), kv.2)] }
    else { s with results := s.results ++ [0xFFFFFFFF], counts := counts, ovf := min (s.ovf + 1) full }

/-- One table's appends by a list of elements, with the mask of all it read; each written word is one access, the records in
ascending address, then the counts, then OVF (R118, R470). -/
def sbinApply (h : BinTable) (kvs : List (Word × Word)) (tags : Mask) (pts : Nat) (m : Mach) : List Word × Mask × Nat × Mach :=
  let (st, m) := m.leaseSpad h.bid (h.t / 64) pts
  let s := kvs.foldl (appendOne m h) ⟨[], [], ⟨[]⟩, h.ovf⟩
  let blockTag (a : Nat) : Mask := match m.block? h.bid with
    | none => 0
    | some b => spadTag b a 4
  let keys := tabKeys s.counts
  let mask := keys.foldl (fun t k => t ||| blockTag (h.t + 16 + 4 * k)) (tags ||| blockTag h.t ||| blockTag (h.t + 8))
  let (st, m) := keys.foldl (fun (acc : Nat × Mach) k => acc.2.leaseSpad h.bid ((h.t + 16 + 4 * k) / 64) acc.1) (st, m)
  let put (acc : Nat × Mach) (a : Nat) (x : Word) : Nat × Mach := acc.2.storeSp h.bid a (bytesOfWord x) mask acc.1
  let acc := (sortBy (fun (x y : Nat × Word) => decide (x.1 ≤ y.1)) s.records).foldl (fun acc r => put acc r.1 r.2) (st, m)
  let changed := s.counts.cells.filter fun c => c.2 ≠ natOfBytes (m.spadBytes h.bid (h.t + 16 + 4 * c.1) 4)
  let acc := changed.foldl (fun acc c => put acc (h.t + 16 + 4 * c.1) (BitVec.ofNat 32 c.2)) acc
  let acc := if s.ovf = h.ovf then acc else put acc (h.t + 8) (BitVec.ofNat 32 s.ovf)
  (s.results, mask, acc.1, acc.2)

/-- Every element's own sources: the key and the value. -/
def keySrcs (b c : Operand) : List Src := [⟨2, b, 1⟩, ⟨3, c, 1⟩]
def sbinSrcs (a b c : Operand) : List Src := ⟨1, a, 2⟩ :: keySrcs b c

def sbinLane (d a b c : Operand) (v : View) (m : Mach) : Effect × Mach :=
  match sbinTable a v m with
  | .error s => (.error s, m)
  | .ok h =>
    let (r, mask, st, m) := sbinApply h [(v.val 2 b, v.val 3 c)] (v.tags (sbinSrcs a b c) ||| v.base) v.pts m
    (.ok { outs := outWords d r, tag := mask, pts := some st }, m)

/-- The collective form: every element uses the leader's table, so that a stop is every element's (R469, R471; log 75). -/
def sbinSet (d a b c : Operand) (vs : List View) (m : Mach) : List Effect × Mach :=
  match vs with
  | [] => ([], m)
  | v :: _ =>
    match sbinTable a v m with
    | .error s => (vs.map fun _ => .error s, m)
    | .ok h =>
      let tags := vs.foldl (fun t x => t ||| x.tags (keySrcs b c) ||| x.base) (v.tags [⟨1, a, 2⟩])
      let (r, mask, st, m) := sbinApply h (vs.map fun x => (x.val 2 b, x.val 3 c)) tags v.pts m
      ((vs.zip r).map fun x => .ok { outs := outWords d [x.2], tag := mask, pts := some st }, m)

def opSbin (i : FormB NoMods) : Op :=
  { head := i.h, guard := i.g, fenced := true, scopes := allScopes, coll := true, timing := .later
    check := fun ow _ => firstBad [(0, admits ow { v := true, zero := true } 1 i.d), (1, admits ow srcVS 2 i.a),
      (2, admits ow { v := true, s := true, spec := true, zero := true } 1 i.b), (3, admits ow srcFp 1 i.c)]
    srcs := fun _ => if i.h.scope = .lane then sbinSrcs i.a i.b i.c else keySrcs i.b i.c
    leads := if i.h.scope = .lane then [] else [⟨1, i.a, 2⟩]
    run := if i.h.scope = .lane then eachRun (sbinLane i.d i.a i.b i.c) else sbinSet i.d i.a i.b i.c }
def execSbin (i : FormB NoMods) (s : State) : Host.Outcome State Fault Refusal := issueOp (.sbin i) (opSbin i) s

end Sys2Proof.Machine
end

