-- ==== Sys2Proof/Machine/Barrier.lean ====
section
/-! DEFINITION. Barrier objects (R378): BINIT, BARV, BEXP, BTEST, BWAIT (R379 to R381), and the end of waits (R380). -/

namespace Sys2Proof.Machine

/-! ## Objects -/

/-- The fields of a barrier object (R378). -/
structure BarObj where
  pend  : BitVec 12
  count : BitVec 12
  ext   : Bool
  phase : BitVec 7
  bytes : Word
  deriving DecidableEq, Repr

def barOf (x : BitVec 64) : BarObj :=
  { pend := x.extractLsb' 0 12, count := x.extractLsb' 12 12, ext := x.getLsbD 24, phase := x.extractLsb' 25 7,
    bytes := x.extractLsb' 32 32 }

def BarObj.pack (o : BarObj) : BitVec 64 := o.bytes ++ o.phase ++ BitVec.ofBool o.ext ++ o.count ++ o.pend

/-- Settle: the phase completes once nothing is owed. -/
def BarObj.settle (o : BarObj) : BarObj :=
  if o.count ≠ 0 ∧ o.pend = 0 ∧ o.bytes = 0 then { o with phase := o.phase + 1, pend := o.count } else o

/-- Arrive. -/
def BarObj.arrive (o : BarObj) : BarObj :=
  if o.count = 0 then o else BarObj.settle (if o.pend = 0 then o else { o with pend := o.pend - 1 })

/-- CountDown. -/
def BarObj.countDown (o : BarObj) (n : Nat) : BarObj := BarObj.settle { o with bytes := o.bytes - BitVec.ofNat 32 n }

/-- What `BEXP` does: its bytes, then one arrival. -/
def BarObj.expect (o : BarObj) (n : Word) : BarObj := BarObj.arrive { o with bytes := o.bytes + n }

/-- What `BINIT` leaves. -/
def BarObj.init (o : BarObj) (c : BitVec 12) (ext : Bool) : BarObj :=
  { o with pend := c, count := c, ext := ext, bytes := 0 }

def tokenOf (o : BarObj) : Word := o.phase.setWidth 32
def barBytes (o : BarObj) : List Byte := bytesOfNat o.pack.toNat 8

/-! ## Updates -/

def barSrcs (a b : Operand) (n : Nat) : List Src := [⟨1, a, 2⟩, ⟨2, b, n⟩]

/-- One read-modify-write of the object at an element's address; the token of the phase before it. -/
def barUpdate (mo : BarrierMods) (d a : Operand) (srcs : List Src) (f : View → BarObj → BarObj) (v : View) (m : Mach) :
    Effect × Mach :=
  let data := v.tags srcs ||| v.base
  match m.target v (v.val64 1 a) 8 mo.ms false true data with
  | (.error s, m) => (.error s, m)
  | (.ok t, m) =>
    let m := match m.dampOf v t with
      | none => m
      | some (_, _, pa) => m.wringNow (lineOf pa)
    let (old, st, m) := m.rmw v t mo.ms 8 (fun bs => barBytes (f v (barOf (wordOf bs)))) data v.pts
    (.ok { outs := outW d (tokenOf (barOf (wordOf old))), tag := t.tag, pts := some (ownStamp t st v.pts) }, m)

def barOp (i : FormB BarrierMods) (n : Nat) (limit : Word → Bool) (f : View → BarObj → BarObj) : Op :=
  { head := i.h, guard := i.g, fenced := true, scopes := allScopes, timing := .later
    check := fun ow _ => firstBad [(0, admits ow (dstVSZ ow) 1 i.d), (1, admits ow srcVS 2 i.a), (2, n == 0 || admits ow srcVS 1 i.b)]
    srcs := fun _ => barSrcs i.a i.b n
    run := eachRun fun v m =>
      if n ≠ 0 && !limit (v.val 2 i.b) then (.error (Stop.plain (.illOpnd 2)), m)
      else barUpdate i.m i.d i.a (barSrcs i.a i.b n) f v m }

def opBinit (i : FormB BarrierMods) : Op :=
  barOp i 1 (fun c => decide (1 ≤ c.toNat) && decide (c.toNat ≤ 4095))
    fun v o => o.init ((v.val 2 i.b).setWidth 12) i.m.ext
def execBinit (i : FormB BarrierMods) (s : State) : Host.Outcome State Fault Refusal := issueOp (.binit i) (opBinit i) s

def opBarv (i : FormB BarrierMods) : Op := barOp i 0 (fun _ => true) fun _ o => o.arrive
def execBarv (i : FormB BarrierMods) (s : State) : Host.Outcome State Fault Refusal := issueOp (.barv i) (opBarv i) s

def opBexp (i : FormB BarrierMods) : Op := barOp i 1 (fun n => decide (n.toNat < 2 ^ 31)) fun v o => o.expect (v.val 2 i.b)
def execBexp (i : FormB BarrierMods) (s : State) : Host.Outcome State Fault Refusal := issueOp (.bexp i) (opBexp i) s

/-! ## Reads -/

/-- The object at a place, as it stands. -/
def Mach.peek (m : Mach) (world : Option (Option Nat)) (p : Place) : BitVec 64 :=
  wordOf <| match p with
    | .dev pa => m.viewBytes world pa 8
    | .host a => m.farRead (.host a) 8
    | .peer k a => m.farRead (.peer k a) 8
    | .spad b a => m.spadBytes b a 8

/-- BTEST: one load. -/
def btestLane (mo : BarrierMods) (d a b : Operand) (v : View) (m : Mach) : Effect × Mach :=
  match m.target v (v.val64 1 a) 8 mo.ms false false 0 with
  | (.error s, m) => (.error s, m)
  | (.ok t, m) =>
    let (bs, st, m) := match t.place, t.loc with
      | .dev pa, some l =>
        let damp := (m.dampRegion v.b.ctx l).isSome
        let m := if damp then m.wringNow (lineOf pa) else m
        m.loadDev v.mg v.actor l.leaf .thread damp pa 8 v.pts
      | .dev _, none => (zeros 8, v.pts, m)
      | .spad bid x, _ => m.loadSpad bid x 8 v.pts
      | .host h, _ => (m.farRead (.host h) 8, v.pts, m)
      | .peer k pa, _ =>
        let m := m.deliverAll fun p => sharesLane p.lanes v.set
        (m.farRead (.peer k pa) 8, v.pts, m)
    let passed := (barOf (wordOf bs)).phase != (v.val 2 b).setWidth 7
    (.ok { outs := [{ dst := d, val := predAll passed }], tag := t.tag, pts := some st }, m)

def opBtest (i : FormB BarrierMods) : Op :=
  { head := i.h, guard := i.g, fenced := true, scopes := allScopes, timing := .later
    check := fun ow _ => firstBad [(0, admits ow srcP 1 i.d), (1, admits ow srcVS 2 i.a), (2, admits ow srcVS 1 i.b)]
    srcs := fun _ => barSrcs i.a i.b 1
    run := eachRun (btestLane i.m i.d i.a i.b) }
def execBtest (i : FormB BarrierMods) (s : State) : Host.Outcome State Fault Refusal := issueOp (.btest i) (opBtest i) s

/-! ## BWAIT -/

/-- The load that finds a phase passed: at the ordering point, with its stamp; a claim of another cluster is recalled (R122, R380). -/
def Mach.observe (m : Mach) (core : Nat) (p : Place) (pts : Nat) : Nat × Mach :=
  match p with
  | .dev pa => (m.recallFor (some (clusterOf core)) (lineOf pa)).leaseLine (lineOf pa) pts
  | .spad b a => m.leaseSpad b (a / 64) pts
  | .host _ => (pts, m)
  | .peer _ _ => (pts, m)

def bwaitLane (mo : BarrierMods) (a b : Operand) (v : View) (m : Mach) : Effect × Mach :=
  match m.target v (v.val64 1 a) 8 mo.ms false false 0 with
  | (.error s, m) => (.error s, m)
  | (.ok t, m) =>
    let m := match m.dampOf v t with
      | none => m
      | some (_, _, pa) => m.wringNow (lineOf pa)
    let world := t.loc.bind fun l => m.viewOf v.actor l.leaf
    let o := barOf (m.peek world t.place)
    let token := (v.val 2 b).setWidth 7
    if o.phase ≠ token then
      let (st, m) := m.observe v.b.core t.place v.pts
      (.ok { pts := some st, flow := t.tag, closed := true }, m)
    else (.ok { next := .wait (.barrier t.place token t.tag o.ext v.id) }, m)

/-- The objects that a warp waits on (R380). -/
def waitPlaces (w : Warp) : List Place :=
  dedup (w.lanes.filterMap fun l => match l.st with
    | .waiting (.barrier p _ _ _ _) => some p
    | .waiting .join => none
    | .waiting (.rendezvous _) => none
    | .waiting .spawn => none
    | .waiting .talloc => none
    | .ready => none
    | .parked _ => none
    | .exited => none)

/-- Barrier-wait entries of a device on a core (R177). -/
def Mach.bwentUsed (m : Mach) (core dev : Nat) : Nat :=
  (m.blocks.cells.filter fun b => b.2.core == core && b.2.resident && deviceOf b.2.ctx == dev).foldl
    (fun n b => b.2.warps.cells.foldl (fun n w => n + (waitPlaces w.2).length) n) 0

/-- A BWAIT waits before issue while its device has too few entries (R179). -/
def bwaitReady (mo : BarrierMods) (a b : Operand) (wide : Bool) (vs : List View) (m : Mach) : Bool :=
  match vs with
  | [] => true
  | v0 :: _ =>
    let object (v : View) : Option Place :=
      match (m.target v (v.val64 1 a) 8 mo.ms false false 0).1 with
      | .error _ => none
      | .ok t =>
        let world := t.loc.bind fun l => m.viewOf v.actor l.leaf
        if (barOf (m.peek world t.place)).phase = (v.val 2 b).setWidth 7 then some t.place else none
    let new := dedup (vs.filterMap fun v =>
      match object (if wide then v0 else v) with
      | none => none
      | some p => if (waitPlaces v.w).contains p then none else some (v.warp, p))
    new.isEmpty || decide (m.bwentUsed v0.b.core (deviceOf v0.b.ctx) + new.length ≤
      (v0.mg.quotas.getD (deviceOf v0.b.ctx) Quota.zero).bwent)

def opBwait (i : FormB BarrierMods) : Op :=
  { head := i.h, guard := i.g, fenced := true, scopes := allScopes, timing := .open_
    check := fun ow _ => firstBad [(1, admits ow srcVS 2 i.a), (2, admits ow srcVS 1 i.b)]
    srcs := fun _ => barSrcs i.a i.b 1
    ready := bwaitReady i.m i.a i.b (isWide i.h.scope)
    run := eachRun (bwaitLane i.m i.a i.b) }
def execBwait (i : FormB BarrierMods) (s : State) : Host.Outcome State Fault Refusal := issueOp (.bwait i) (opBwait i) s

/-! ## The end of a wait -/

/-- The view through which a waiting launch sees the object's line: its own world's, where it is sealed (R315). -/
def Mach.waitView (m : Mach) (launch : Nat) (p : Place) : Option (Option Nat) :=
  match p with
  | .dev pa => match tabFind m.side (lineOf pa) with
    | none => none
    | some s => if some s.world = m.worldOf launch then some (some s.world) else none
  | .host _ => none
  | .peer _ _ => none
  | .spad _ _ => none

/-- The mask that F receives when a wait ends: for an object in scratchpad that of its block as it stands then (R302, R303). -/
def Mach.waitMask (m : Mach) (p : Place) (tags : Mask) : Mask :=
  match p with
  | .spad bid a => match m.block? bid with
    | none => tags
    | some b => spadTag b a 8
  | .dev _ => tags
  | .host _ => tags
  | .peer _ _ => tags

/-- A lane whose object has left the phase goes on (R380): its pts, and the mask that F receives. -/
def wakeLane (launch : Nat) (m : Mach) (l : Lane) : Option (Mask × Nat × Place × Nat) :=
  match l.st with
  | .waiting (.barrier p token tags _ id) => if (barOf (m.peek (m.waitView launch p) p)).phase ≠ token then some (m.waitMask p tags, id, p, l.pts)
    else none
  | .waiting .join => none
  | .waiting (.rendezvous _) => none
  | .waiting .spawn => none
  | .waiting .talloc => none
  | .ready => none
  | .parked _ => none
  | .exited => none

def waitsFor (id : Nat) (l : Lane) : Bool :=
  match l.st with
  | .waiting (.barrier _ _ _ _ j) => j == id
  | .waiting .join => false
  | .waiting (.rendezvous _) => false
  | .waiting .spawn => false
  | .waiting .talloc => false
  | .ready => false
  | .parked _ => false
  | .exited => false

def Mach.wakeWarp (m : Mach) (mg : Mgmt) (bid warp : Nat) : Mach :=
  match m.block? bid, m.warp? bid warp with
  | some b, some w =>
    let woken := (indexed w.lanes).filterMap fun x => (wakeLane b.launch m x.2).map fun y => (x.1, y)
    if woken.isEmpty then m
    else
      let m := woken.foldl (fun m x =>
        let (st, m) := m.observe b.core x.2.2.2.1 x.2.2.2.2
        m.modWarp bid warp fun w =>
          let w := modLane w x.1 fun l => { l.readyAt l.afterPc m.cycle with pts := max l.pts st }
          { w with flow := w.flow ||| x.2.1 }) m
      let m := m.modWarp bid warp fun w =>
        (dedup (woken.map fun x => x.2.2.1)).foldl (fun w id => if w.lanes.any (waitsFor id) then w else w.endId id) w
      m.settleWarp mg bid warp
  | _, _ => m

/-- BARRIER_PHASE_COMPLETE: after any update, every wait whose object has left its phase ends (R380). -/
def Mach.wakeBarriers (m : Mach) (mg : Mgmt) : Mach :=
  m.blocks.cells.foldl (fun m b =>
    if !b.2.resident then m else (tabKeys b.2.warps).foldl (fun m w => m.wakeWarp mg b.1 w) m) m

end Sys2Proof.Machine
end

