-- ==== Sys2Proof/Machine/Spawn.lean ====
section
/-! DEFINITION. Spawn bins and brood warps: SPAWN (R54, R55, R476, R477), ripening (R56), launching (R58). -/

namespace Sys2Proof.Machine

/-- An open bin whose timer has expired ripens at that instant (R56). -/
def dueBin (now : Nat) (b : Bin) : Bool :=
  b.ripe.isNone && match b.deadline with
    | none => false
    | some t => decide (t ≤ now)

/-- Every bin of a core whose timer has expired ripens; bins that expire together ripen together. -/
def Mach.ripenDue (m : Mach) (core : Nat) : Mach :=
  if (m.core core).bins.cells.any fun b => dueBin m.now b.2 then
    m.modCore core fun c => { c with bins := tabMap (fun b => if dueBin m.now b then ripen m.cycle b else b) c.bins }
  else m

/-- The open bin of (block, entry, key): its number. -/
def openBin (c : Core) (bid : Nat) (entry : BitVec 48) (key : BitVec 16) : Option Nat :=
  (c.bins.cells.find? fun b => b.2.bid == bid && b.2.ripe.isNone && b.2.entry == entry && b.2.key == key).map (·.1)

/-- Bins of a device on a core (R177). -/
def Mach.binsUsed (m : Mach) (core dev : Nat) : Nat :=
  ((m.core core).bins.cells.filter fun b => match m.block? b.2.bid with
    | none => false
    | some x => deviceOf x.ctx == dev).length

/-- The oldest open bin of a block, by opening (R55). -/
def oldestOpen (c : Core) (bid : Nat) : Option Nat :=
  (c.bins.cells.foldl (fun (o : Option (Nat × Bin)) b =>
    if b.2.bid != bid || b.2.ripe.isSome then o
    else match o with
      | none => some b
      | some x => if b.2.openedNo < x.2.openedNo then some b else o) none).map (·.1)

/-- A full bin ripens. -/
def addRecord (now : Nat) (r : SpawnRec) (b : Bin) : Bin :=
  let b := { b with recs := b.recs ++ [r] }
  if b.recs.length ≥ 32 then ripen now b else b

/-- File one record: whether it was filed, the bin opened for it. `fuel` bounds the flushes. DESIGN CHOICE (log 79): after a
flush the lane is retried at once, before the ripe bin can launch. -/
def Mach.fileRec (m : Mach) (mg : Mgmt) (b : Block) (bid : Nat) (r : SpawnRec) : Nat → Bool × Option Nat × Mach
  | 0 => (false, none, m)
  | fuel + 1 =>
    let c := m.core b.core
    match openBin c bid r.entry r.key with
    | some k => (true, none, m.modCore b.core fun c => { c with bins := tabMod c.bins k (addRecord m.cycle r) })
    | none =>
      let dev := deviceOf b.ctx
      let free := if m.binsUsed b.core dev < (mg.quotas.getD dev Quota.zero).bins then lowestFree 64 (tabKeys c.bins) else none
      match free with
      | some k =>
        let (no, m) := m.freshId
        let time := (m.ctx b.ctx).binTimer.toNat
        let bin : Bin :=
          { bid := bid, entry := r.entry, key := r.key, recs := [], opened := m.now, openedNo := no
            deadline := if time = 0 then none else some (m.now + time), ripe := none }
        (true, some no, m.modCore b.core fun c => { c with bins := tabSet c.bins k (addRecord m.cycle r bin) })
      | none => match oldestOpen c bid with
        | some k => Mach.fileRec (m.modCore b.core fun c => { c with bins := tabMod c.bins k (ripen m.cycle) }) mg b bid r fuel
        | none => (false, none, m)

/-- File records in order until one waits: the records left and the bins opened. -/
def Mach.fileAll (m : Mach) (mg : Mgmt) (b : Block) (bid : Nat) : List SpawnRec → List Nat → List SpawnRec × List Nat × Mach
  | [], opened => ([], opened, m)
  | r :: rest, opened =>
    match m.fileRec mg b bid r 66 with
    | (true, o, m) => m.fileAll mg b bid rest (opened ++ o.toList)
    | (false, _, m) => (r :: rest, opened, m)

/-- Bins that a SPAWN opened after every declared warp has exited ripen when it completes (R56). -/
def Mach.closeSpawn (m : Mach) (b : Block) (opened : List Nat) : Mach :=
  let ended := (List.range (m.declared b)).all fun w => match tabFind b.warps w with
    | none => true
    | some x => x.ended
  if !ended then m
  else m.modCore b.core fun c => { c with bins := tabMap (fun x => if opened.contains x.openedNo then ripen m.cycle x else x) c.bins }

/-! ## SPAWN -/

def spawnSrcs (a b c : Operand) : List Src := [⟨1, a, 2⟩, ⟨2, b, 1⟩, ⟨3, c, 4⟩]

/-- The record that a lane files. -/
def spawnRec (a b c : Operand) (v : View) : SpawnRec :=
  { entry := (v.val64 1 a).setWidth 48, key := (v.val 2 b).setWidth 16
    args := if isZero c then [0, 0, 0, 0] else v.vals 3 c 4
    tag := v.tags (spawnSrcs a b c) ||| v.base, pts := v.pts, lane := v.lane }

def spawnRun (a b c : Operand) (vs : List View) (m : Mach) : List Effect × Mach :=
  match vs with
  | [] => ([], m)
  | v0 :: _ =>
    if ((m.recOf v0.b).map (·.brood)).getD 0 = 0 then (vs.map fun _ => .error (Stop.plain (.illInstr 4)), m)
    else
      let bad (v : View) : Bool := (v.val64 1 a).toNat % 4 != 0
      let good := vs.filter fun v => !bad v
      let (left, opened, m) := (m.ripenDue v0.b.core).fileAll v0.mg v0.b v0.q.bid (good.map (spawnRec a b c)) []
      let m := if left.isEmpty then m.closeSpawn v0.b opened
        else m.modWarp v0.q.bid v0.warp fun w =>
          { w with spawns := w.spawns ++ [{ recs := left, flight := some v0.id, next := v0.q.seqPc, opened := opened }] }
      (vs.map fun v =>
        if bad v then .error (Stop.plain .misalign)
        else if left.any (·.lane == v.lane) then .ok { next := .wait .spawn, closed := left.isEmpty }
        else .ok { closed := left.isEmpty }, m)

def opSpawn (i : FormB NoMods) : Op :=
  { head := i.h, guard := i.g, scopes := laneOnly, timing := .open_
    check := fun ow _ => if ow.brood = 0 then none
      else firstBad [(1, admits ow srcVS 2 i.a), (2, admits ow { v := true, s := true, spec := true, zero := true } 1 i.b),
        (3, admits ow srcVSZ 4 i.c)]
    srcs := fun _ => spawnSrcs i.a i.b i.c
    run := spawnRun i.a i.b i.c }
def execSpawn (i : FormB NoMods) (s : State) : Host.Outcome State Fault Refusal := issueOp (.spawn i) (opSpawn i) s

/-- Lanes that a SPAWN kept waiting and that have filed now go on. -/
def releaseSpawn (now : Nat) (next : Pc) (lanes : List Nat) (w : Warp) : Warp :=
  lanes.foldl (fun w i => modLane w i fun l =>
    l.readyAt next now) w

/-- SPAWN_RETRY (R55): the waiting lanes of a warp are tried again in order, while its block is on its core and the warp is not
suspended (R41, R52). -/
def Mach.spawnRetry (m : Mach) (mg : Mgmt) (bid warp : Nat) : Mach :=
  match m.block? bid, m.warp? bid warp with
  | some b, some w =>
    if !b.resident || w.suspended then m
    else
    let (m, left) := w.spawns.foldl (fun (acc : Mach × List SpawnWait) s =>
      let (rest, opened, m) := acc.1.fileAll mg b bid s.recs s.opened
      let filed := (s.recs.take (s.recs.length - rest.length)).map (·.lane)
      let m := m.modWarp bid warp (releaseSpawn m.cycle s.next filed)
      if rest.isEmpty then
        let m := m.modWarp bid warp fun w => match s.flight with
          | none => w
          | some id => w.endId id
        (m.closeSpawn b opened, acc.2)
      else (m, acc.2 ++ [{ s with recs := rest, opened := opened }])) (m.ripenDue b.core, [])
    (m.modWarp bid warp fun w => { w with spawns := left }).settleWarp mg bid warp
  | _, _ => m

/-! ## Bins in time -/

/-- BIN_TIMER_EXPIRY (R56): the bin's timer has expired, and with it those of the core that expire at the same instant. -/
def Mach.binExpire (m : Mach) (core bin : Nat) : Mach :=
  match tabFind (m.core core).bins bin with
  | none => m
  | some b => if dueBin m.now b then m.ripenDue core else m

/-- A brood lane (R58). -/
def broodLane (now : Nat) (b : Bin) (j : Nat) : Lane :=
  let empty : Lane :=
    { st := .exited, pc := ⟨b.entry, 0⟩, code := [], v := ⟨[]⟩, p := ⟨[]⟩, rstack := [], spill := 0, pts := 0, ageBase := now
      posted := 0 }
  match b.recs[j]? with
  | none => empty
  | some r =>
    let regs := (indexed (r.args ++ [b.key.setWidth 32])).foldl (fun t x => tabSet t x.1 (Reg.mk x.2 r.tag)) ⟨[]⟩
    { empty with st := .ready, v := regs, pts := r.pts }

def freshWarp (now slot : Nat) (brood : Option Nat) (lanes : List Lane) : Warp :=
  { lanes := lanes, s := ⟨[]⟩, ws := List.replicate 6 0, flow := 0, exitm := 0, group := 0, stall := now, lastIssue := now
    hintUntil := 0, slotAcq := ⟨[]⟩, pend := [], flights := [], block := none, fence := none, spawns := [], csrw := [], suspended := false
    parkedAt := none, slot := slot, brood := brood }

/-- The ripe bin of a block that launches next: by ripening, then by opening (R56). -/
def nextRipe (c : Core) (bid : Nat) : Option (Nat × Bin) :=
  c.bins.cells.foldl (fun (o : Option (Nat × Bin)) b =>
    if b.2.bid != bid then o
    else match b.2.ripe with
      | none => o
      | some t => match o with
        | none => some b
        | some x =>
          let u := x.2.ripe.getD 0
          if t < u || (t == u && decide (b.2.openedNo < x.2.openedNo)) then some b else o) none

/-- Warp slots of a core in use: an ended warp's slot is free (R61, R261). -/
def Mach.warpSlots (m : Mach) (core : Nat) : List Nat :=
  m.blocks.cells.flatMap fun b =>
    if b.2.core == core && b.2.resident then ((tabVals b.2.warps).filter fun w => !w.ended).map (·.slot) else []

/-- BROOD_WARP_LAUNCH (R58): a ripe bin starts in the lowest free brood slot of its block. -/
def Mach.broodLaunch (m : Mach) (bid : Nat) : Mach :=
  match m.block? bid with
  | none => m
  | some b =>
    let m := m.ripenDue b.core
    let n := ((m.recOf b).map (·.brood)).getD 0
    let w := m.declared b
    let busy := b.warps.cells.filterMap fun x => if x.2.ended && x.2.flights.isEmpty then none else x.2.brood
    match lowestFree n busy, nextRipe (m.core b.core) bid with
    | some s, some (k, bin) =>
      if !b.resident || b.retired || ((m.ctx b.ctx).holds.any fun h => h.bid == bid && h.unit == .block) then m
      else
        let slot := (lowestFree 64 (m.warpSlots b.core)).getD 0
        let warp := freshWarp m.cycle slot (some s) ((List.range 32).map (broodLane m.cycle bin))
        let m := m.setBlock bid { b with warps := tabSet b.warps (w + s) warp }
        m.modCore b.core fun c => { c with bins := tabErase c.bins k }
    | _, _ => m

end Sys2Proof.Machine
end

