-- ==== Sys2Proof/Machine/Control.lean ====
section
/-! DEFINITION. Class 4: NOP (R445), EXIT (R398, R399), BRA, BRX, CALL, CALLX (R383, R384), RET (R464, R465), WJOIN and YIELD
(R490), TRAP (R487), SIGNAL (R474, R475), GANG (R413, R414), with the return stack of R49 to R51. -/

namespace Sys2Proof.Machine

/-- A class-4 instruction of lane scope without results. -/
def controlOp (h : Head) (g : Guard) (scopes : Scopes) (check : Owner → List (Nat × Bool)) (srcs : List Src)
    (f : View → Mach → Effect × Mach) : Op :=
  { head := h, guard := g, scopes := scopes, check := fun ow _ => firstBad (check ow), srcs := fun _ => srcs, timing := .atIssue
    run := eachRun f }

def nextOnly (n : Next) : View → Mach → Effect × Mach := fun _ m => (.ok { next := n }, m)

def opNop (i : FormA) : Op := controlOp i.h always allScopes (fun _ => []) [] (nextOnly .seq)
def execNop (i : FormA) (s : State) : Host.Outcome State Fault Refusal := issueOp (.nop i) (opNop i) s

def opExitA (i : FormA) : Op := controlOp i.h always laneOnly (fun _ => []) [] (nextOnly .exit)
def execExitA (i : FormA) (s : State) : Host.Outcome State Fault Refusal := issueOp (.exitA i) (opExitA i) s
def opExitB (i : FormB NoMods) : Op := controlOp i.h i.g laneOnly (fun _ => []) [] (nextOnly .exit)
def execExitB (i : FormB NoMods) (s : State) : Host.Outcome State Fault Refusal := issueOp (.exitB i) (opExitB i) s

def opWjoin (i : FormA) : Op := controlOp i.h always laneOnly (fun _ => []) [] (nextOnly (.wait .join))
def execWjoin (i : FormA) (s : State) : Host.Outcome State Fault Refusal := issueOp (.wjoin i) (opWjoin i) s
def opYield (i : FormA) : Op := controlOp i.h always laneOnly (fun _ => []) [] (nextOnly .turn)
def execYield (i : FormA) (s : State) : Host.Outcome State Fault Refusal := issueOp (.yield i) (opYield i) s

/-! ## Transfers -/

/-- The target of form D (R383). -/
def relTarget (q : Issue) (off : BitVec 24) : BitVec 48 := q.pc.clause + (off.signExtend 48 <<< 2)

def opBra (i : FormD) : Op :=
  controlOp i.h i.g laneOnly (fun _ => []) [] fun v m => (.ok { next := .jump (relTarget v.q i.off) }, m)
def execBra (i : FormD) (s : State) : Host.Outcome State Fault Refusal := issueOp (.bra i) (opBra i) s

/-- The target in a register pair; its bits [1:0] must be zero. -/
def regTarget (a : Operand) (v : View) : Except Stop (BitVec 48) :=
  let t := (v.val64 1 a).setWidth 48
  if t.toNat % 4 ≠ 0 then .error (Stop.plain .misalign) else .ok t

def brxRun (a : Operand) (v : View) (m : Mach) : Effect × Mach :=
  match regTarget a v with
  | .error s => (.error s, m)
  | .ok t => (.ok { next := .jump t, flow := v.tags [⟨1, a, 2⟩] }, m)

def brxOp (h : Head) (g : Guard) (a : Operand) : Op :=
  controlOp h g laneOnly (fun ow => [(1, admits ow srcVS 2 a)]) [⟨1, a, 2⟩] (brxRun a)

def opBrxA (i : FormA) : Op := brxOp i.h always i.a
def execBrxA (i : FormA) (s : State) : Host.Outcome State Fault Refusal := issueOp (.brxA i) (opBrxA i) s
def opBrxB (i : FormB NoMods) : Op := brxOp i.h i.g i.a
def execBrxB (i : FormB NoMods) (s : State) : Host.Outcome State Fault Refusal := issueOp (.brxB i) (opBrxB i) s

/-! ## Calls (R50, R51) -/

/-- A spill entry: the return address and VALID. -/
def spillEntry (ra : BitVec 48) : BitVec 64 := BitVec.ofNat 64 (2 ^ 63 + ra.toNat)

def spillDepth (m : Mach) (b : Block) : Nat := ((m.recOf b).map (·.spill)).getD 0

/-- Push the return address: the new stack, spill count and stamp with the ranges that the spill wrote, or why the call stops. -/
def pushReturn (v : View) (m : Mach) : Except Stop (List (BitVec 48) × Nat × Nat × List (Nat × Nat)) × Mach :=
  if v.l.rstack.length < 16 then (.ok (v.q.next :: v.l.rstack, v.l.spill, v.l.pts, []), m)
  else match localAddr m v v.lane (8 * v.l.spill) 8 true with
    | .error s => (.error s, m)
    | .ok va =>
      match m.storeVa v.mg v va (bytesOfNat (spillEntry (v.l.rstack.getLastD 0)).toNat 8) v.base v.pts with
      | (.error s, m) => (.error s, m)
      | (.ok (st, dev), m) => (.ok (v.q.next :: v.l.rstack.dropLast, v.l.spill + 1, st, dev), m)

def callRun (target : View → Except Stop (BitVec 48)) (flow : View → Mask) (v : View) (m : Mach) : Stored × Mach :=
  let stop (s : Stop) (m : Mach) : Stored × Mach := (⟨.error s, [], []⟩, m)
  if decide (v.l.rstack.length ≥ 16) && v.l.spill == spillDepth m v.b then stop (Stop.plain (.illInstr 1)) m
  else match target v with
    | .error s => stop s m
    | .ok t => match pushReturn v m with
      | (.error s, m) => stop s m
      | (.ok (stack, k, st, dev), m) =>
        (⟨.ok { next := .jump t, stack := some (stack, k), pts := some st, flow := flow v }, dev, []⟩, m)

/-- A call that may spill, as a store of the lane, and a return that reloads, as a load, wait for an outstanding fence (R50,
R411). -/
def stackFree (uses : View → Bool) (vs : List View) (_ : Mach) : Bool := vs.all fun v => v.w.fence.isNone || !uses v

/-- The shape of a call: what the spills of one instruction cover together is made good (R506). -/
def callOp (h : Head) (g : Guard) (check : Owner → List (Nat × Bool)) (srcs : List Src) (target : View → Except Stop (BitVec 48))
    (flow : View → Mask) : Op :=
  { head := h, guard := g, scopes := laneOnly, check := fun ow _ => firstBad (check ow), srcs := fun _ => srcs, timing := .atIssue
    ready := stackFree fun v => decide (v.l.rstack.length ≥ 16)
    run := storeRun (callRun target flow) }

def opCall (i : FormD) : Op := callOp i.h i.g (fun _ => []) [] (fun v => .ok (relTarget v.q i.off)) fun _ => 0
def execCall (i : FormD) (s : State) : Host.Outcome State Fault Refusal := issueOp (.call i) (opCall i) s

def callxOp (h : Head) (g : Guard) (a : Operand) : Op :=
  callOp h g (fun ow => [(1, admits ow srcVS 2 a)]) [⟨1, a, 2⟩] (regTarget a) fun v => v.tags [⟨1, a, 2⟩]

def opCallxA (i : FormA) : Op := callxOp i.h always i.a
def execCallxA (i : FormA) (s : State) : Host.Outcome State Fault Refusal := issueOp (.callxA i) (opCallxA i) s
def opCallxB (i : FormB NoMods) : Op := callxOp i.h i.g i.a
def execCallxB (i : FormB NoMods) (s : State) : Host.Outcome State Fault Refusal := issueOp (.callxB i) (opCallxB i) s

/-- Pop or reload a return address (R50). -/
def retRun (v : View) (m : Mach) : Effect × Mach :=
  match v.l.rstack with
  | t :: rest => (.ok { next := .jump t, stack := some (rest, v.l.spill) }, m)
  | [] =>
    if v.l.spill = 0 then (.error (Stop.plain (.illInstr 2)), m)
    else match localAddr m v v.lane (8 * (v.l.spill - 1 : Nat)) 8 false with
      | .error s => (.error s, m)
      | .ok va => match m.loadNow v.mg v va 8 v.pts with
        | (.error s, m) => (.error s, m)
        | (.ok x, m) =>
          let e := natOfBytes x.bytes
          if field e 63 63 = 0 ∨ field e 62 48 ≠ 0 ∨ field e 1 0 ≠ 0 then (.error (Stop.plain (.illInstr 3)), m)
          else (.ok { next := .jump (BitVec.ofNat 48 (field e 47 0)), stack := some ([], v.l.spill - 1), pts := some x.stamp,
                      flow := x.tag }, m)

def retOp (h : Head) (g : Guard) : Op :=
  { controlOp h g laneOnly (fun _ => []) [] retRun with ready := stackFree fun v => v.l.rstack.isEmpty }

def opRetA (i : FormA) : Op := retOp i.h always
def execRetA (i : FormA) (s : State) : Host.Outcome State Fault Refusal := issueOp (.retA i) (opRetA i) s
def opRetB (i : FormB NoMods) : Op := retOp i.h i.g
def execRetB (i : FormB NoMods) (s : State) : Host.Outcome State Fault Refusal := issueOp (.retB i) (opRetB i) s

/-! ## TRAP, SIGNAL, GANG -/

/-- Each active lane has the cause TRAP, at every scope (R287). -/
def opTrap (i : FormC NoMods) : Op :=
  { head := i.h, guard := i.g, scopes := allScopes, coll := true, timing := .atIssue
    check := fun _ _ => firstBad [(2, decide (i.imm.toNat < 256))]
    srcs := fun _ => []
    run := eachRun fun _ m => (.error (Stop.plain (.trap (i.imm.setWidth 8))), m) }
def execTrap (i : FormC NoMods) (s : State) : Host.Outcome State Fault Refusal := issueOp (.trap i) (opTrap i) s

/-- The queue takes wakes: enabled, and with slots (R245, R247). -/
def Queue.awake (q : Queue) : Bool := q.state == .enabled && q.log2n != 0

/-- SIGNAL to a target (R474, R475). -/
def Mach.signal (m : Mach) (ctx : Nat) (t : Word) : Mach :=
  let fn := deviceOf ctx
  if t = 0x3FF then { m with signals := m.signals ++ [.manager, .msix fn 1] }
  else if t.toNat < 512 && (m.queue t.toNat).fn == fn && tabHas m.queues t.toNat && (m.queue t.toNat).awake then
    m.modQueue t.toNat fun q => { q with woken := true }
  else m

def signalOp (h : Head) (g : Guard) (a : Operand) : Op :=
  { controlOp h g laneWarp (fun ow => [(1, admits ow srcVS 1 a)]) [⟨1, a, 1⟩]
      (fun v m => (.ok {}, m.signal v.b.ctx (v.val 1 a))) with fenced := true }

def opSignalA (i : FormA) : Op := signalOp i.h always i.a
def execSignalA (i : FormA) (s : State) : Host.Outcome State Fault Refusal := issueOp (.signalA i) (opSignalA i) s
def opSignalB (i : FormB NoMods) : Op := signalOp i.h i.g i.a
def execSignalB (i : FormB NoMods) (s : State) : Host.Outcome State Fault Refusal := issueOp (.signalB i) (opSignalB i) s

/-- Members that have arrived at a set's slot, ended members included; zero while it is idle (R414). -/
def arrivedMask (b : Block) (slot : Nat) (members : List Nat) : Word :=
  match tabFind b.slots slot with
  | none => 0
  | some s => maskOf (members.filter (memberArrived b s))

/-- The four words of GANG (R414). -/
def gangWords (m : Mach) (blk : Bool) (v : View) : List Word :=
  match m.setOf v.b (if blk then .block else .gang) v.warp with
  | none => [0, 0, 0x80000000, 0]
  | some (slot, members) =>
    let rank := (members.findIdx? (· == v.warp)).getD 0
    let st := match tabFind v.b.slots slot with
      | none => 0
      | some s => if s.executing then 2 else 1
    [maskOf members, arrivedMask v.b slot members, BitVec.ofNat 32 (rank + members.length * 32 + st * 2048), 0]

def gangOp (h : Head) (g : Guard) (blk : Bool) (d : Operand) : Op :=
  { head := h, guard := g, scopes := warpOnly, timing := .later
    check := fun ow _ => firstBad [(0, admits ow (dstVS ow) 4 d)]
    srcs := fun _ => []
    run := eachRun fun v m => (.ok { outs := (gangWords m blk v).zipIdx.map fun x => { dst := d, k := x.2, val := x.1 } }, m) }

def opGangA (i : FormA) : Op := gangOp i.h always false i.d
def execGangA (i : FormA) (s : State) : Host.Outcome State Fault Refusal := issueOp (.gangA i) (opGangA i) s
def opGangB (i : FormB GangMods) : Op := gangOp i.h i.g i.m.blk i.d
def execGangB (i : FormB GangMods) (s : State) : Host.Outcome State Fault Refusal := issueOp (.gangB i) (opGangB i) s

end Sys2Proof.Machine
end

