-- ==== Sys2Proof/Machine/Special.lean ====
section
/-! DEFINITION. The seven special functions (R407 to R409). The special values of R408 are exact; every other result is a
free value of the part (Config.specialRaw, log 4) when that lies within the bound of R408, and the correctly rounded value
when it does not. The bounds are tested against exact rationals, or against fixed-point enclosures of the irrational ones. -/

namespace Sys2Proof.Machine

/-- Integer square root, bit by bit. -/
def isqrtGo (n : Nat) : Nat → Nat → Nat
  | 0, r => r
  | k + 1, r => if (r + 2 ^ k) * (r + 2 ^ k) ≤ n then isqrtGo n k (r + 2 ^ k) else isqrtGo n k r

def isqrt (n : Nat) : Nat := isqrtGo n (n.log2 / 2 + 1) 0

/-- 2^e as an exact value. -/
def pow2 (e : Int) : FVal := .fin false 1 e

def absVal : FVal → FVal
  | .nan => .nan
  | .inf _ => .inf false
  | .fin _ m e => .fin false m e

def subVal (a b : FVal) : FVal := FVal.sum .rne [a, b.negate]

/-- |r − y| ≤ b, exactly. -/
def within (r y b : FVal) : Bool := decide ((absVal (subVal r y)).cmp b ≤ 0)

/-- The FP32 spacing at a value whose binary exponent is `e` (R191). -/
def ulpAt (e : Int) : FVal := pow2 (max e (-126) - 23)

/-- The part's value if it is finite and passes the test, else the rounded exact value. -/
def acceptRaw (f : SpecialFn) (x : Word) (test : FVal → Bool) (y : FVal) : Word :=
  let raw := Config.specialRaw f x
  match f32 raw with
  | .fin s m e => if test (.fin s m e) then raw else roundF32 .rne false y
  | .nan => roundF32 .rne false y
  | .inf _ => roundF32 .rne false y

/-- Square root of a positive value, to `k` bits with a sticky bit below. -/
def sqrtVal (m : Nat) (e : Int) (k : Nat) : FVal :=
  let s := 2 * k + (if (e - 2 * k) % 2 = 0 then 0 else 1)
  let n := m <<< s
  let r := isqrt n
  .fin false (2 * r + (if r * r = n then 0 else 1)) ((e - s) / 2 - 1)

/-- Reciprocal of m · 2^e to 64 bits beyond the divisor, with a sticky bit. -/
def recipVal (neg : Bool) (m : Nat) (e : Int) : FVal :=
  let k := m.log2 + 64
  .fin neg (2 * (2 ^ k / m) + (if 2 ^ k % m = 0 then 0 else 1)) (-e - k - 1)

def isPow2 (m : Nat) : Bool := m == 2 ^ m.log2

def spRcp (x : Word) : Word :=
  match f32 x with
  | .nan => f32Nan
  | .inf s => if s then 0x80000000#32 else 0#32
  | .fin s m e =>
    if m = 0 then (if s then 0xFF800000#32 else 0x7F800000#32)
    else
      let y := recipVal s m e
      let ey := -e - m.log2 - (if isPow2 m then 0 else 1)
      if isPow2 m || ey ≥ 128 then roundF32 .rne false y
      else
        let xv := FVal.fin false m e
        -- |r − 1/x| ≤ ulp, times |x|
        acceptRaw .rcp x (fun r => r.isNeg == s && within ((absVal r).mul xv) (pow2 0) ((ulpAt ey).mul xv)) y

def spRsq (x : Word) : Word :=
  match f32 x with
  | .nan => f32Nan
  | .inf s => if s then f32Nan else 0#32
  | .fin s m e =>
    if m = 0 then (if s then 0xFF800000#32 else 0x7F800000#32)
    else if s then f32Nan
    else
      let l : Int := m.log2 + e
      let ey := if l % 2 = 0 then (if isPow2 m then -(l / 2) else -(l / 2) - 1) else -((l - 1) / 2) - 1
      let b := (ulpAt ey).mul (pow2 1)
      let xv := FVal.fin false m e
      let y := match recipVal false m e with
        | .fin _ n f => sqrtVal n f 40
        | v => v
      let test (r : FVal) : Bool :=
        let lo := subVal r b
        let hi := FVal.sum .rne [r, b]
        !r.isNeg && (lo.isNeg || decide (((lo.mul lo).mul xv).cmp (pow2 0) ≤ 0)) && decide (((hi.mul hi).mul xv).cmp (pow2 0) ≥ 0)
      acceptRaw .rsq x test y

/-- The one special function that is correctly rounded. -/
def spSqrt (x : Word) : Word :=
  match f32 x with
  | .nan => f32Nan
  | .inf s => if s then f32Nan else x
  | .fin s m e => if m = 0 then x else if s then f32Nan else roundF32 .rne false (sqrtVal m e 30)

/-- Fixed-point scale of the enclosures: 96 fraction bits. -/
abbrev fix : Nat := 96

/-- 2^(f · 2^−96) with 96 fraction bits, for f below 2^96: the product of 2^(2^−k) over the set bits. -/
def exp2Go (f : Nat) : List Nat → Nat → Nat → Nat
  | [], _, acc => acc
  | k :: ks, root, acc =>
    let root' := isqrt (root <<< fix)
    exp2Go f ks root' (if f.testBit (fix - 1 - k) then (acc * root') >>> fix else acc)

def spExp2 (x : Word) : Word :=
  match f32 x with
  | .nan => f32Nan
  | .inf s => if s then 0#32 else x
  | .fin s m e =>
    let v := FVal.fin s m e
    if m = 0 then 0x3F800000#32
    else if v.cmp (.fin false 128 0) ≥ 0 then 0x7F800000#32
    else if v.cmp (.fin true 150 0) ≤ 0 then 0#32
    else
      -- x = i + f, with f in [0, 1) to 96 bits
      let t : Int := if e + fix ≥ 0 then ((m <<< (e + fix).toNat : Nat) : Int) else ((m >>> (-(e + fix)).toNat : Nat) : Int)
      let exact := decide (e ≥ 0) || m % 2 ^ (-e).toNat == 0
      let t' : Int := if s then -t else t
      let i := t' / (2 ^ fix)
      let f := (t' % (2 ^ fix)).toNat
      if exact then roundF32 .rne false (pow2 i)
      else
        let y := FVal.fin false (exp2Go f (List.range fix) (2 <<< fix) (1 <<< fix)) (i - fix)
        let b := FVal.sum .rne [(ulpAt i).mul (pow2 1), pow2 (i - 60)]
        acceptRaw .exp2 x (fun r => !r.isNeg && within r y b) y

/-- Fraction bits of log2 of z · 2^−96, z in [2^96, 2^97), by repeated squaring. -/
def log2Go : Nat → Nat → Nat → Nat
  | 0, _, acc => acc
  | k + 1, z, acc =>
    let q := (z * z) >>> fix
    if q ≥ 2 <<< fix then log2Go k (q / 2) (2 * acc + 1) else log2Go k q (2 * acc)

def spLog2 (x : Word) : Word :=
  match f32 x with
  | .nan => f32Nan
  | .inf s => if s then f32Nan else x
  | .fin s m e =>
    if m = 0 then 0xFF800000#32
    else if s then f32Nan
    else
      let n : Int := m.log2 + e
      if isPow2 m then roundF32 .rne false (.fin (decide (n < 0)) n.natAbs 0)
      else
        let frac := log2Go 64 (m <<< (fix - m.log2)) 0
        let t : Int := n * 2 ^ 64 + frac
        let y := FVal.fin (decide (t < 0)) t.natAbs (-64)
        let small := decide (n = 0) || decide (n = -1)
        let b := if small then pow2 (-22) else (ulpAt ((t.natAbs.log2 : Int) - 64)).mul (pow2 1)
        acceptRaw .log2 x (fun r => within r y (FVal.sum .rne [b, pow2 (-56)])) y

/-- π · 2^320, rounded down. -/
abbrev piFix : Nat := 0x3243f6a8885a308d313198a2e03707344a4093822299f31d0082efa98ec4e6c89452821e638d01377

/-- Σ (−1)^k t^(2k+o) / (2k+o)! on t · 2^−96: the sine for o = 1, the cosine for o = 0. -/
def taylorGo (t2 : Nat) (o : Nat) : List Nat → Int → Int → Int
  | [], _, acc => acc
  | k :: ks, term, acc =>
    let term' := -((term * t2) / (2 ^ fix * ((2 * k + 1 + o) * (2 * k + 2 + o))))
    taylorGo t2 o ks term' (acc + term')

def sinFix (t : Nat) : Int := taylorGo ((t * t) >>> fix) 1 (List.range 24) t t
def cosFix (t : Nat) : Int := taylorGo ((t * t) >>> fix) 0 (List.range 24) (2 ^ fix) (2 ^ fix)

/-- sin (turn = 0) or cos (turn = 1) of |x|: quarter turns are taken out exactly, then the series. -/
def trigVal (turn m : Nat) (e : Int) : Int :=
  let big := m <<< (e + 320).toNat
  let q := big / (piFix / 2)
  let t := (big % (piFix / 2)) >>> (320 - fix)
  let k := (q + turn) % 4
  if k = 0 then sinFix t else if k = 1 then cosFix t else if k = 2 then -sinFix t else -cosFix t

def spTrig (f : SpecialFn) (turn : Nat) (x : Word) : Word :=
  match f32 x with
  | .nan => f32Nan
  | .inf _ => f32Nan
  | .fin s m e =>
    if m = 0 then (if turn = 0 then x else 0x3F800000#32)
    else
      let v := trigVal turn m e
      let v := if s && turn == 0 then -v else v
      let y := FVal.fin (decide (v < 0)) v.natAbs (-96)
      acceptRaw f x (fun r => within r y (FVal.sum .rne [pow2 (-22), pow2 (-60)])) y

/-- The result of a special function on a pattern (R408). -/
def special (f : SpecialFn) (x : Word) : Word :=
  match f with
  | .rcp => spRcp x
  | .rsq => spRsq x
  | .sqrt => spSqrt x
  | .exp2 => spExp2 x
  | .log2 => spLog2 x
  | .sin => spTrig .sin 0 x
  | .cos => spTrig .cos 1 x

end Sys2Proof.Machine
end

