-- ==== Sys2Proof/Machine/FloatOps.lean ====
section
/-! DEFINITION. Floating point: FADD, FMUL, FFMA, FMIN, FMAX, FRND (R400 to R404), FCMP (R405, R406), HADD2, HMUL2, HFMA2,
HMAX2 (R415, R416), the special functions (R407, R408), CVT (R394, R395), CVTQ (R396, R397), HADQ (R202, R417). -/

namespace Sys2Proof.Machine

/-! ## FP32 arithmetic -/

def faddResult (m : FaddMods) (a b : Word) : Word := f32Add m.mode m.sat (srcMod m.a a) (srcMod m.b b)
def fmulResult (m : FaddMods) (a b : Word) : Word := f32Mul m.mode m.sat (srcMod m.a a) (srcMod m.b b)
def ffmaResult (m : FfmaMods) (a b c : Word) : Word := f32Fma m.mode m.sat (srcMod m.a a) (srcMod m.b b) (srcMod m.c c)
def fminResult (m : FminMods) (a b : Word) : Word := f32Min (srcMod m.a a) (srcMod m.b b)
def fmaxResult (m : FminMods) (a b : Word) : Word := f32Max (srcMod m.a a) (srcMod m.b b)
def frndResult (m : FrndMods) (a : Word) : Word := f32Rnd m.mode (srcMod m.a a)

def opFaddB (i : FormB FaddMods) : Op := binB i (.fixed 6) srcFp (faddResult i.m)
def execFaddB (i : FormB FaddMods) (s : State) : Host.Outcome State Fault Refusal := issueOp (.faddB i) (opFaddB i) s
def opFaddC (i : FormC FaddMods) : Op := binC i (.fixed 6) srcFp (bf16Imm i.imm) (faddResult i.m)
def execFaddC (i : FormC FaddMods) (s : State) : Host.Outcome State Fault Refusal := issueOp (.faddC i) (opFaddC i) s
def opFmulB (i : FormB FaddMods) : Op := binB i (.fixed 6) srcFp (fmulResult i.m)
def execFmulB (i : FormB FaddMods) (s : State) : Host.Outcome State Fault Refusal := issueOp (.fmulB i) (opFmulB i) s
def opFmulC (i : FormC FaddMods) : Op := binC i (.fixed 6) srcFp (bf16Imm i.imm) (fmulResult i.m)
def execFmulC (i : FormC FaddMods) (s : State) : Host.Outcome State Fault Refusal := issueOp (.fmulC i) (opFmulC i) s
def opFminB (i : FormB FminMods) : Op := binB i (.fixed 6) srcFp (fminResult i.m)
def execFminB (i : FormB FminMods) (s : State) : Host.Outcome State Fault Refusal := issueOp (.fminB i) (opFminB i) s
def opFminC (i : FormC FminMods) : Op := binC i (.fixed 6) srcFp (bf16Imm i.imm) (fminResult i.m)
def execFminC (i : FormC FminMods) (s : State) : Host.Outcome State Fault Refusal := issueOp (.fminC i) (opFminC i) s
def opFmaxB (i : FormB FminMods) : Op := binB i (.fixed 6) srcFp (fmaxResult i.m)
def execFmaxB (i : FormB FminMods) (s : State) : Host.Outcome State Fault Refusal := issueOp (.fmaxB i) (opFmaxB i) s
def opFmaxC (i : FormC FminMods) : Op := binC i (.fixed 6) srcFp (bf16Imm i.imm) (fmaxResult i.m)
def execFmaxC (i : FormC FminMods) (s : State) : Host.Outcome State Fault Refusal := issueOp (.fmaxC i) (opFmaxC i) s
def opFfma (i : FormB FfmaMods) : Op := triB i (.fixed 6) srcFp (ffmaResult i.m)
def execFfma (i : FormB FfmaMods) (s : State) : Host.Outcome State Fault Refusal := issueOp (.ffma i) (opFfma i) s
def opFrnd (i : FormB FrndMods) : Op := unB i (.fixed 6) srcFp (frndResult i.m)
def execFrnd (i : FormB FrndMods) (s : State) : Host.Outcome State Fault Refusal := issueOp (.frnd i) (opFrnd i) s

/-! ## FCMP -/

def fcmpResult (m : FcmpMods) (a b : Word) (p : Bool) : Word :=
  predAll (bopApply m.bop (fcondHolds m.cond (f32 (srcMod m.a a)) (f32 (srcMod m.b b))) p)

def opFcmpB (i : FormB FcmpMods) : Op :=
  let bop := i.m.bop != .none
  pureOp i.h i.g (.fixed 6)
    (fun ow => [(0, admits ow srcP 1 i.d), (1, admits ow srcFp 1 i.a), (2, admits ow srcFp 1 i.b),
      (3, !bop || admits ow srcP 1 i.c)])
    ([⟨1, i.a, 1⟩, ⟨2, i.b, 1⟩] ++ if bop then [⟨3, i.c, 1⟩] else [])
    fun v => outW i.d (fcmpResult i.m (v.val 1 i.a) (v.val 2 i.b) (v.pbit 3 i.c))
def execFcmpB (i : FormB FcmpMods) (s : State) : Host.Outcome State Fault Refusal := issueOp (.fcmpB i) (opFcmpB i) s
def opFcmpC (i : FormC FcmpMods) : Op :=
  pureOp i.h i.g (.fixed 6) (fun ow => [(0, admits ow srcP 1 i.d), (1, admits ow srcFp 1 i.a)]) [⟨1, i.a, 1⟩]
    fun v => outW i.d (fcmpResult i.m (v.val 1 i.a) (bf16Imm i.imm) false)
def execFcmpC (i : FormC FcmpMods) (s : State) : Host.Outcome State Fault Refusal := issueOp (.fcmpC i) (opFcmpC i) s

/-! ## Packed halves -/

/-- The exact value of half `h` of a word in FP16 or BF16, its sign flipped under `neg` (R416). -/
def halfVal (bf neg : Bool) (h : Nat) (x : Word) : FVal :=
  let v := (if bf then paramsBf16 else paramsF16).decode (elemAt 16 h x.toNat)
  if neg then v.negate else v

/-- Two results rounded into FP16 or BF16 (R197). -/
def halves (m : HalfMods) (f : Nat → FVal) : Word :=
  let q := if m.bf then paramsBf16 else paramsF16
  BitVec.ofNat 32 (packElems 16 [q.round m.mode m.sat (f 0), q.round m.mode m.sat (f 1)])

def hadd2Result (m : HalfMods) (a b : Word) : Word :=
  halves m fun h => FVal.sum m.mode [halfVal m.bf m.na h a, halfVal m.bf m.nb h b]
def hmul2Result (m : HalfMods) (a b : Word) : Word :=
  halves m fun h => (halfVal m.bf m.na h a).mul (halfVal m.bf m.nb h b)
def hfma2Result (m : HalfMods) (a b c : Word) : Word :=
  halves m fun h => FVal.sum m.mode [(halfVal m.bf m.na h a).mul (halfVal m.bf m.nb h b), halfVal m.bf m.nc h c]
def hmax2Result (m : HalfMods) (a b : Word) : Word :=
  halves m fun h =>
    let x := halfVal m.bf m.na h a
    let y := halfVal m.bf m.nb h b
    if m.min then x.minNum y else x.maxNum y

/-- The guard is read at 16-bit width, and an inactive half keeps its value (R416). -/
def halfOp (i : FormB HalfMods) (f : Word → Word → Word) : Op :=
  { pureOp i.h i.g (.fixed 6)
      (fun ow => [(0, admits ow (dstVSZ ow) 1 i.d), (1, admits ow srcFp 1 i.a), (2, admits ow srcFp 1 i.b)])
      [⟨1, i.a, 1⟩, ⟨2, i.b, 1⟩]
      (fun v => [{ dst := i.d, val := f (v.val 1 i.a) (v.val 2 i.b) }]) with
    width := 16 }

def opHadd2 (i : FormB HalfMods) : Op := halfOp i (hadd2Result i.m)
def execHadd2 (i : FormB HalfMods) (s : State) : Host.Outcome State Fault Refusal := issueOp (.hadd2 i) (opHadd2 i) s
def opHmul2 (i : FormB HalfMods) : Op := halfOp i (hmul2Result i.m)
def execHmul2 (i : FormB HalfMods) (s : State) : Host.Outcome State Fault Refusal := issueOp (.hmul2 i) (opHmul2 i) s
def opHmax2 (i : FormB HalfMods) : Op := halfOp i (hmax2Result i.m)
def execHmax2 (i : FormB HalfMods) (s : State) : Host.Outcome State Fault Refusal := issueOp (.hmax2 i) (opHmax2 i) s
def opHfma2 (i : FormB HalfMods) : Op :=
  { pureOp i.h i.g (.fixed 6)
      (fun ow => [(0, admits ow (dstVSZ ow) 1 i.d), (1, admits ow srcFp 1 i.a), (2, admits ow srcFp 1 i.b),
        (3, admits ow srcFp 1 i.c)])
      [⟨1, i.a, 1⟩, ⟨2, i.b, 1⟩, ⟨3, i.c, 1⟩]
      (fun v => [{ dst := i.d, val := hfma2Result i.m (v.val 1 i.a) (v.val 2 i.b) (v.val 3 i.c) }]) with
    width := 16 }
def execHfma2 (i : FormB HalfMods) (s : State) : Host.Outcome State Fault Refusal := issueOp (.hfma2 i) (opHfma2 i) s

/-! ## Special functions -/

def opFrcpA (i : FormA) : Op := unA i .later srcFp (special .rcp)
def execFrcpA (i : FormA) (s : State) : Host.Outcome State Fault Refusal := issueOp (.frcpA i) (opFrcpA i) s
def opFrcpB (i : FormB SpecialMods) : Op := unB i .later srcFp fun x => special .rcp (srcMod i.m.a x)
def execFrcpB (i : FormB SpecialMods) (s : State) : Host.Outcome State Fault Refusal := issueOp (.frcpB i) (opFrcpB i) s
def opFrsqA (i : FormA) : Op := unA i .later srcFp (special .rsq)
def execFrsqA (i : FormA) (s : State) : Host.Outcome State Fault Refusal := issueOp (.frsqA i) (opFrsqA i) s
def opFrsqB (i : FormB SpecialMods) : Op := unB i .later srcFp fun x => special .rsq (srcMod i.m.a x)
def execFrsqB (i : FormB SpecialMods) (s : State) : Host.Outcome State Fault Refusal := issueOp (.frsqB i) (opFrsqB i) s
def opFsqrtA (i : FormA) : Op := unA i .later srcFp (special .sqrt)
def execFsqrtA (i : FormA) (s : State) : Host.Outcome State Fault Refusal := issueOp (.fsqrtA i) (opFsqrtA i) s
def opFsqrtB (i : FormB SpecialMods) : Op := unB i .later srcFp fun x => special .sqrt (srcMod i.m.a x)
def execFsqrtB (i : FormB SpecialMods) (s : State) : Host.Outcome State Fault Refusal := issueOp (.fsqrtB i) (opFsqrtB i) s
def opFexp2A (i : FormA) : Op := unA i .later srcFp (special .exp2)
def execFexp2A (i : FormA) (s : State) : Host.Outcome State Fault Refusal := issueOp (.fexp2A i) (opFexp2A i) s
def opFexp2B (i : FormB SpecialMods) : Op := unB i .later srcFp fun x => special .exp2 (srcMod i.m.a x)
def execFexp2B (i : FormB SpecialMods) (s : State) : Host.Outcome State Fault Refusal := issueOp (.fexp2B i) (opFexp2B i) s
def opFlog2A (i : FormA) : Op := unA i .later srcFp (special .log2)
def execFlog2A (i : FormA) (s : State) : Host.Outcome State Fault Refusal := issueOp (.flog2A i) (opFlog2A i) s
def opFlog2B (i : FormB SpecialMods) : Op := unB i .later srcFp fun x => special .log2 (srcMod i.m.a x)
def execFlog2B (i : FormB SpecialMods) (s : State) : Host.Outcome State Fault Refusal := issueOp (.flog2B i) (opFlog2B i) s
def opFsinA (i : FormA) : Op := unA i .later srcFp (special .sin)
def execFsinA (i : FormA) (s : State) : Host.Outcome State Fault Refusal := issueOp (.fsinA i) (opFsinA i) s
def opFsinB (i : FormB SpecialMods) : Op := unB i .later srcFp fun x => special .sin (srcMod i.m.a x)
def execFsinB (i : FormB SpecialMods) (s : State) : Host.Outcome State Fault Refusal := issueOp (.fsinB i) (opFsinB i) s
def opFcosA (i : FormA) : Op := unA i .later srcFp (special .cos)
def execFcosA (i : FormA) (s : State) : Host.Outcome State Fault Refusal := issueOp (.fcosA i) (opFcosA i) s
def opFcosB (i : FormB SpecialMods) : Op := unB i .later srcFp fun x => special .cos (srcMod i.m.a x)
def execFcosB (i : FormB SpecialMods) (s : State) : Host.Outcome State Fault Refusal := issueOp (.fcosB i) (opFcosB i) s

/-! ## CVT -/

/-- Elements of a format per word (R395). -/
def perWord (f : Fmt) : Nat := 32 / fmtWidth f

/-- Registers on the source and the destination side. -/
def cvtSrcs (m : CvtMods) : Nat := max 1 (perWord m.dfmt / perWord m.sfmt)
def cvtDsts (m : CvtMods) : Nat := max 1 (perWord m.sfmt / perWord m.dfmt)

/-- The converted pattern of flattened element `j` of the source registers (R198). -/
def cvtElem (m : CvtMods) (src : List Word) (j : Nat) : Nat :=
  let ks := perWord m.sfmt
  let x := elemAt (fmtWidth m.sfmt) (j % ks) (src.getD (j / ks) 0).toNat
  fmtConvert m.dfmt m.mode m.sat m.u (fmtValue m.sfmt m.u x)

def cvtWords (m : CvtMods) (src : List Word) : List Word :=
  let kd := perWord m.dfmt
  (List.range (cvtDsts m)).map fun r =>
    BitVec.ofNat 32 (packElems (fmtWidth m.dfmt) ((List.range kd).map fun e => cvtElem m src (r * kd + e)))

def outList (d : Operand) (l : List Word) : List Out := (l.zipIdx).map fun x => { dst := d, k := x.2, val := x.1 }

def opCvt (i : FormB CvtMods) : Op :=
  pureOp i.h i.g .later
    (fun ow => [(0, admits ow (dstVS ow) (cvtDsts i.m) i.d), (1, admits ow srcVSZ (cvtSrcs i.m) i.a)])
    [⟨1, i.a, cvtSrcs i.m⟩] fun v => outList i.d (cvtWords i.m (v.vals 1 i.a (cvtSrcs i.m)))
def execCvt (i : FormB CvtMods) (s : State) : Host.Outcome State Fault Refusal := issueOp (.cvt i) (opCvt i) s

/-! ## CVTQ -/

/-- R199: code and overflow bit. -/
def quantise (f : Fmt) (mode : RMode) (x s : Word) : Nat × Bool :=
  let y := (f32 x).mul (f32 s)
  if y.isNan then (if fmtIsFloat f then (fmtParams f).nanBits else 0, true)
  else if fmtIsFloat f then
    let top := (fmtParams f).decode (fmtParams f).maxBits
    ((fmtParams f).round mode true y, decide ((absVal y).cmp top > 0))
  else
    let (lo, hi) : Int × Int := if f = .i8 then (-128, 127) else if f = .i4 then (-8, 7) else (-7, 7)
    let w := fmtWidth f
    match y with
    | .nan => (0, true)
    | .inf neg => (((if neg then lo else hi) % (2 ^ w)).toNat, true)
    | .fin neg m e =>
      let n := roundInt mode neg m e
      let c := clampInt lo hi n
      ((c % (2 ^ w)).toNat, decide (c ≠ n))

def cvtqCount (f : Fmt) : Nat := perWord f

def opCvtq (i : FormB CvtqMods) : Op :=
  let k := cvtqCount i.m.dfmt
  pureOp i.h i.g .later
    (fun ow => [(0, admits ow (dstVS ow) (if i.m.ovf then 2 else 1) i.d), (1, admits ow (dstVS ow) k i.a),
      (2, admits ow srcVSZ 1 i.b)])
    [⟨1, i.a, k⟩, ⟨2, i.b, 1⟩]
    fun v =>
      let r := (v.vals 1 i.a k).map fun x => quantise i.m.dfmt i.m.mode x (v.val 2 i.b)
      outList i.d (BitVec.ofNat 32 (packElems (fmtWidth i.m.dfmt) (r.map Prod.fst)) ::
        (if i.m.ovf then [BitVec.ofNat 32 (packElems 1 (r.map fun x => x.2.toNat))] else []))
def execCvtq (i : FormB CvtqMods) (s : State) : Host.Outcome State Fault Refusal := issueOp (.cvtq i) (opCvtq i) s

end Sys2Proof.Machine
end

