-- ==== Sys2Proof/Machine/Cross.lean ====
section
/-! DEFINITION. Collective instructions over the element set: SHFL (R472, R473), VOTE (R488, R489), REDW, SCANW (R460, R461),
MATCH (R437, R438), HADQ (R202, R417). -/

namespace Sys2Proof.Machine

/-- A collective instruction that only computes registers: `f` gives an element's results from the whole set. -/
def crossOp (h : Head) (g : Guard) (sc : Scopes) (check : Owner → List (Nat × Bool)) (srcs : List Src)
    (f : List View → View → List Out) : Op :=
  { head := h, guard := g, scopes := sc, coll := true, check := fun ow _ => firstBad (check ow), srcs := fun _ => srcs,
    timing := .later, run := fun vs m => (vs.map fun v => .ok { outs := f vs v }, m) }

/-- The element of an index. -/
def elemOf (vs : List View) (e : Int) : Option View := vs.find? fun v => decide ((v.idx : Int) = e)

/-! ## SHFL -/

/-- The source index (R473). -/
def shflIndex (m : ShflMode) (e : Nat) (b : Word) : Int :=
  match m with
  | .idx => b.toNat
  | .up => (e : Int) - b.toNat
  | .down => (e : Int) + b.toNat
  | .xor => ((e ^^^ b.toNat : Nat) : Int)

def shflOf (m : ShflMods) (a : Operand) (b : View → Word) (vs : List View) (v : View) : Word :=
  let s := shflIndex m.mode v.idx (b v)
  if s < 0 ∨ s ≥ v.size then v.val 1 a
  else match elemOf vs s with
    | none => v.val 1 a
    | some x => x.val 1 a

def opShflB (i : FormB ShflMods) : Op := 
  crossOp i.h i.g wideScopes
    (fun ow => [(0, admits ow onlyV 1 i.d), (1, admits ow srcInt 1 i.a), (2, admits ow srcInt 1 i.b)])
    [⟨1, i.a, 1⟩, ⟨2, i.b, 1⟩] fun vs v => outW i.d (shflOf i.m i.a (fun x => x.val 2 i.b) vs v)
def execShflB (i : FormB ShflMods) (s : State) : Host.Outcome State Fault Refusal := issueOp (.shflB i) (opShflB i) s
def opShflC (i : FormC ShflMods) : Op := 
  crossOp i.h i.g wideScopes (fun ow => [(0, admits ow onlyV 1 i.d), (1, admits ow srcInt 1 i.a)])
    [⟨1, i.a, 1⟩] fun vs v => outW i.d (shflOf i.m i.a (fun _ => zextImm i.imm) vs v)
def execShflC (i : FormC ShflMods) (s : State) : Host.Outcome State Fault Refusal := issueOp (.shflC i) (opShflC i) s

/-! ## VOTE -/

/-- The vote of an element. -/
def voteOf (m : VoteMods) (a : Operand) (v : View) : Bool := v.pbit 1 a != m.not

/-- A mask of the member's own elements for which `p` holds (R438, R489). -/
def memberMask (vs : List View) (rank : Nat) (p : View → Bool) : Word :=
  (vs.filter fun x => x.rank == rank && p x).foldl (fun w x => w ||| BitVec.twoPow 32 x.lane) 0

def voteResult (m : VoteMods) (a : Operand) (vs : List View) (v : View) : Word :=
  let x := voteOf m a
  match m.fn with
  | .and => predAll (vs.all x)
  | .or => predAll (vs.any x)
  | .same => predAll (vs.all x || !vs.any x)
  | .mask => memberMask vs v.rank x
  | .count => BitVec.ofNat 32 (vs.filter x).length
  | .lead => match vs.find? x with
    | none => BitVec.allOnes 32
    | some y => BitVec.ofNat 32 y.idx

def voteDst (ow : Owner) (f : VoteFn) : Kinds :=
  match f with
  | .and => srcP
  | .or => srcP
  | .same => srcP
  | .mask => { v := true, zero := true }
  | .count => dstVSZ ow
  | .lead => dstVSZ ow

def opVote (i : FormB VoteMods) : Op := 
  crossOp i.h i.g wideScopes (fun ow => [(0, admits ow (voteDst ow i.m.fn) 1 i.d), (1, admits ow srcP 1 i.a)])
    [⟨1, i.a, 1⟩] fun vs v => outW i.d (voteResult i.m i.a vs v)
def execVote (i : FormB VoteMods) (s : State) : Host.Outcome State Fault Refusal := issueOp (.vote i) (opVote i) s

/-! ## REDW, SCANW -/

def redOp (o : RedOp) (u x : Word) : Word :=
  match o with
  | .add => u + x
  | .minS => if x.toInt < u.toInt then x else u
  | .minU => if x.toNat < u.toNat then x else u
  | .maxS => if x.toInt > u.toInt then x else u
  | .maxU => if x.toNat > u.toNat then x else u
  | .and => u &&& x
  | .or => u ||| x
  | .xor => u ^^^ x
  | .fadd => f32Add .rne false u x
  | .fmin => f32Min u x
  | .fmax => f32Max u x

def redIdentity (o : RedOp) : Word :=
  match o with
  | .add => 0
  | .minS => 0x7FFFFFFF
  | .minU => 0xFFFFFFFF
  | .maxS => 0x80000000
  | .maxU => 0
  | .and => 0xFFFFFFFF
  | .or => 0
  | .xor => 0
  | .fadd => 0
  | .fmin => 0x7F800000
  | .fmax => 0xFF800000

/-- The fold of R461 over a list of values: none while it is empty. -/
def redFold (o : RedOp) (l : List Word) : Option Word :=
  l.foldl (fun acc x => match acc with | none => some x | some u => some (redOp o u x)) none

/-- The elements at or before an element, or strictly before it. -/
def scanResult (m : RedMods) (a : Operand) (vs : List View) (v : View) : Word :=
  let upto := vs.filter fun x => if m.excl then decide (x.idx < v.idx) else decide (x.idx ≤ v.idx)
  (redFold m.op (upto.map fun x => x.val 1 a)).getD (redIdentity m.op)

def opRedw (i : FormB RedMods) : Op := 
  crossOp i.h i.g wideScopes
    (fun ow => [(0, admits ow (dstVSZ ow) 1 i.d), (1, admits ow srcInt 1 i.a)])
    [⟨1, i.a, 1⟩] fun vs _ => outW i.d ((redFold i.m.op (vs.map fun x => x.val 1 i.a)).getD 0)
def execRedw (i : FormB RedMods) (s : State) : Host.Outcome State Fault Refusal := issueOp (.redw i) (opRedw i) s
def opScanw (i : FormB RedMods) : Op := 
  crossOp i.h i.g wideScopes (fun ow => [(0, admits ow onlyV 1 i.d), (1, admits ow srcInt 1 i.a)])
    [⟨1, i.a, 1⟩] fun vs v => outW i.d (scanResult i.m i.a vs v)
def execScanw (i : FormB RedMods) (s : State) : Host.Outcome State Fault Refusal := issueOp (.scanw i) (opScanw i) s

/-! ## MATCH -/

/-- Bitwise equality of two elements' values over 32 or 64 bits (R438). -/
def matchEq (b64 : Bool) (a : Operand) (x y : View) : Bool :=
  x.val 1 a == y.val 1 a && (!b64 || (x.rd 1 a 1).val == (y.rd 1 a 1).val)

def matchResult (m : MatchMods) (a : Operand) (vs : List View) (v : View) : Word :=
  let q := matchEq m.b64 a v
  match m.kind with
  | .mask => memberMask vs v.rank q
  | .first => match vs.find? q with
    | none => 0
    | some y => BitVec.ofNat 32 y.idx
  | .count => BitVec.ofNat 32 (vs.filter q).length

def opMatchw (i : FormB MatchMods) : Op := 
  crossOp i.h i.g wideScopes
    (fun ow => [(0, admits ow onlyV 1 i.d), (1, if i.m.b64 then admits ow srcVS 2 i.a else admits ow srcInt 1 i.a)])
    [⟨1, i.a, if i.m.b64 then 2 else 1⟩] fun vs v => outW i.d (matchResult i.m i.a vs v)
def execMatchw (i : FormB MatchMods) (s : State) : Host.Outcome State Fault Refusal := issueOp (.matchw i) (opMatchw i) s

/-! ## HADQ -/

/-- One stage of R202: pairs at distance h. -/
def hadStage (y : List Word) (h : Nat) : List Word :=
  (List.range 32).map fun l =>
    let a := y.getD (if l / h % 2 = 0 then l else l - h) 0
    let b := y.getD (if l / h % 2 = 0 then l + h else l) 0
    if l / h % 2 = 0 then f32Add .rne false a b else f32Add .rne false a (b ^^^ 0x80000000#32)

def hadTransform (scale : Bool) (x : List Word) : List Word :=
  let y := [1, 2, 4, 8, 16].foldl hadStage x
  if scale then y.map fun v => f32Mul .rne false v 0x3E3504F3 else y

/-- The inputs of all 32 lanes: +0.0 from an inactive one. -/
def hadInputs (a : Operand) (vs : List View) : List Word :=
  (List.range 32).map fun l => match vs.find? fun v => v.lane == l with
    | none => 0
    | some v => v.val 1 a

def hadqOp (h : Head) (g : Guard) (scale : Bool) (d a : Operand) : Op :=
  crossOp h g warpOnly (fun ow => [(0, admits ow onlyV 1 d), (1, admits ow onlyV 1 a)]) [⟨1, a, 1⟩]
    fun vs v => outW d ((hadTransform scale (hadInputs a vs)).getD v.lane 0)

def opHadqA (i : FormA) : Op := hadqOp i.h always false i.d i.a
def execHadqA (i : FormA) (s : State) : Host.Outcome State Fault Refusal := issueOp (.hadqA i) (opHadqA i) s
def opHadqB (i : FormB HadqMods) : Op := hadqOp i.h i.g i.m.sc i.d i.a
def execHadqB (i : FormB HadqMods) (s : State) : Host.Outcome State Fault Refusal := issueOp (.hadqB i) (opHadqB i) s

end Sys2Proof.Machine
end

