-- ==== Sys2Proof/Machine/Integer.lean ====
section
/-! DEFINITION. Integer arithmetic: IADD, ISUB (R419, R420), IMUL, IMAD, IMADW (R423, R424), IMIN, IMAX (R425), IABS (R418),
ICMP (R421, R422), ISEL (R426), PDOT4 and the packed integers (R195, R196, R448 to R450), LEA (R436). -/

namespace Sys2Proof.Machine

/-! ## IADD, ISUB -/

/-- R420 on the second source already inverted for ISUB; `cin` is the carry-in. -/
def addResult (sub : Bool) (m : AddMods) (a b : Word) (cin : Bool) : Word :=
  match m.sat with
  | .none => sumOf a (if sub then ~~~b else b) cin
  | .signed => satSigned (if sub then a.toInt - b.toInt else a.toInt + b.toInt)
  | .unsigned => satUnsigned (if sub then (a.toNat : Int) - b.toNat else (a.toNat : Int) + b.toNat)

/-- The result and, with CO, the carry predicate. -/
def addOuts (sub : Bool) (m : AddMods) (d : Operand) (a b : Word) (cin : Bool) : List Out :=
  outW d (addResult sub m a b cin) ++
    (if m.co then outW (.p m.pc) (predAll (carryOf a (if sub then ~~~b else b) cin)) else [])

def addB (sub : Bool) (i : FormB AddMods) : Op :=
  pureOp i.h i.g (.fixed 4)
    (fun ow => [(0, admits ow (dstVSZ ow) 1 i.d), (1, admits ow srcInt 1 i.a), (2, admits ow srcInt 1 i.b),
      (3, !i.m.ci || admits ow srcP 1 i.c)])
    ([⟨1, i.a, 1⟩, ⟨2, i.b, 1⟩] ++ if i.m.ci then [⟨3, i.c, 1⟩] else [])
    fun v => addOuts sub i.m i.d (v.val 1 i.a) (v.val 2 i.b) (if i.m.ci then v.pbit 3 i.c else sub)

def addC (sub : Bool) (i : FormC AddMods) : Op :=
  pureOp i.h i.g (.fixed 4) (fun ow => [(0, admits ow (dstVSZ ow) 1 i.d), (1, admits ow srcInt 1 i.a)]) [⟨1, i.a, 1⟩]
    fun v => addOuts sub i.m i.d (v.val 1 i.a) (sextImm i.imm) sub

def opIaddB (i : FormB AddMods) : Op := addB false i
def execIaddB (i : FormB AddMods) (s : State) : Host.Outcome State Fault Refusal := issueOp (.iaddB i) (opIaddB i) s
def opIaddC (i : FormC AddMods) : Op := addC false i
def execIaddC (i : FormC AddMods) (s : State) : Host.Outcome State Fault Refusal := issueOp (.iaddC i) (opIaddC i) s
def opIsubB (i : FormB AddMods) : Op := addB true i
def execIsubB (i : FormB AddMods) (s : State) : Host.Outcome State Fault Refusal := issueOp (.isubB i) (opIsubB i) s
def opIsubC (i : FormC AddMods) : Op := addC true i
def execIsubC (i : FormC AddMods) (s : State) : Host.Outcome State Fault Refusal := issueOp (.isubC i) (opIsubC i) s

/-! ## Multiplies -/

def mulResult (m : MulMods) (a b : Word) : Word :=
  let p := intOf m.u a * intOf m.u b
  if m.hi then BitVec.ofInt 32 (p / 2 ^ 32) else BitVec.ofInt 32 p

def opImulB (i : FormB MulMods) : Op := binB i (.fixed 6) srcInt (mulResult i.m)
def execImulB (i : FormB MulMods) (s : State) : Host.Outcome State Fault Refusal := issueOp (.imulB i) (opImulB i) s
def opImulC (i : FormC MulMods) : Op := binC i (.fixed 6) srcInt (sextImm i.imm) (mulResult i.m)
def execImulC (i : FormC MulMods) (s : State) : Host.Outcome State Fault Refusal := issueOp (.imulC i) (opImulC i) s

def madResult (m : MadMods) (a b c : Word) : Word :=
  let t := intOf m.u a * intOf m.u b + intOf m.u c
  if !m.sat then BitVec.ofInt 32 t else if m.u then satUnsigned t else satSigned t

def opImad (i : FormB MadMods) : Op := triB i (.fixed 6) srcInt (madResult i.m)
def execImad (i : FormB MadMods) (s : State) : Host.Outcome State Fault Refusal := issueOp (.imad i) (opImad i) s

def opImadw (i : FormB MadwMods) : Op :=
  pureOp i.h i.g (.fixed 6)
    (fun ow => [(0, admits ow (dstVSZ ow) 2 i.d), (1, admits ow srcInt 1 i.a), (2, admits ow srcInt 1 i.b),
      (3, admits ow srcVSZ 2 i.c)])
    [⟨1, i.a, 1⟩, ⟨2, i.b, 1⟩, ⟨3, i.c, 2⟩]
    fun v => out64 i.d (BitVec.ofInt 64 (intOf i.m.u (v.val 1 i.a) * intOf i.m.u (v.val 2 i.b)) + v.val64 3 i.c)
def execImadw (i : FormB MadwMods) (s : State) : Host.Outcome State Fault Refusal := issueOp (.imadw i) (opImadw i) s

/-! ## Minimum, maximum, absolute value -/

def minOf (u : Bool) (a b : Word) : Word := if intOf u a ≤ intOf u b then a else b
def maxOf (u : Bool) (a b : Word) : Word := if intOf u a ≥ intOf u b then a else b

def opIminB (i : FormB MinMaxMods) : Op := binB i (.fixed 4) srcInt (minOf i.m.u)
def execIminB (i : FormB MinMaxMods) (s : State) : Host.Outcome State Fault Refusal := issueOp (.iminB i) (opIminB i) s
def opIminC (i : FormC MinMaxMods) : Op := binC i (.fixed 4) srcInt (sextImm i.imm) (minOf i.m.u)
def execIminC (i : FormC MinMaxMods) (s : State) : Host.Outcome State Fault Refusal := issueOp (.iminC i) (opIminC i) s
def opImaxB (i : FormB MinMaxMods) : Op := binB i (.fixed 4) srcInt (maxOf i.m.u)
def execImaxB (i : FormB MinMaxMods) (s : State) : Host.Outcome State Fault Refusal := issueOp (.imaxB i) (opImaxB i) s
def opImaxC (i : FormC MinMaxMods) : Op := binC i (.fixed 4) srcInt (sextImm i.imm) (maxOf i.m.u)
def execImaxC (i : FormC MinMaxMods) (s : State) : Host.Outcome State Fault Refusal := issueOp (.imaxC i) (opImaxC i) s

def absResult (sat : Bool) (a : Word) : Word :=
  if sat then satInt 0 (2 ^ 31 - 1) (a.toInt.natAbs : Int) else BitVec.ofNat 32 a.toInt.natAbs

def opIabsA (i : FormA) : Op := unA i (.fixed 4) srcInt (absResult false)
def execIabsA (i : FormA) (s : State) : Host.Outcome State Fault Refusal := issueOp (.iabsA i) (opIabsA i) s
def opIabsB (i : FormB AbsMods) : Op := unB i (.fixed 4) srcInt (absResult i.m.sat)
def execIabsB (i : FormB AbsMods) (s : State) : Host.Outcome State Fault Refusal := issueOp (.iabsB i) (opIabsB i) s

/-! ## ICMP, ISEL -/

def icmpResult (m : IcmpMods) (a b : Word) (p : Bool) : Word :=
  predAll (bopApply m.bop (condHolds m.cond (intOf m.u a) (intOf m.u b)) p)

def opIcmpB (i : FormB IcmpMods) : Op :=
  let bop := i.m.bop != .none
  pureOp i.h i.g (.fixed 4)
    (fun ow => [(0, admits ow srcP 1 i.d), (1, admits ow srcInt 1 i.a), (2, admits ow srcInt 1 i.b),
      (3, !bop || admits ow srcP 1 i.c)])
    ([⟨1, i.a, 1⟩, ⟨2, i.b, 1⟩] ++ if bop then [⟨3, i.c, 1⟩] else [])
    fun v => outW i.d (icmpResult i.m (v.val 1 i.a) (v.val 2 i.b) (v.pbit 3 i.c))
def execIcmpB (i : FormB IcmpMods) (s : State) : Host.Outcome State Fault Refusal := issueOp (.icmpB i) (opIcmpB i) s
def opIcmpC (i : FormC IcmpMods) : Op :=
  pureOp i.h i.g (.fixed 4) (fun ow => [(0, admits ow srcP 1 i.d), (1, admits ow srcInt 1 i.a)]) [⟨1, i.a, 1⟩]
    fun v => outW i.d (icmpResult i.m (v.val 1 i.a) (sextImm i.imm) false)
def execIcmpC (i : FormC IcmpMods) (s : State) : Host.Outcome State Fault Refusal := issueOp (.icmpC i) (opIcmpC i) s

def opIsel (i : FormB NoMods) : Op :=
  pureOp i.h i.g (.fixed 4)
    (fun ow => [(0, admits ow (dstVSZ ow) 1 i.d), (1, admits ow srcInt 1 i.a), (2, admits ow srcInt 1 i.b),
      (3, admits ow srcP 1 i.c)])
    [⟨1, i.a, 1⟩, ⟨2, i.b, 1⟩, ⟨3, i.c, 1⟩]
    fun v => outW i.d (if v.pbit 3 i.c then v.val 1 i.a else v.val 2 i.b)
def execIsel (i : FormB NoMods) (s : State) : Host.Outcome State Fault Refusal := issueOp (.isel i) (opIsel i) s

/-! ## LEA -/

def leaResult (m : LeaMods) (a : BitVec 64) (b : Word) : BitVec 64 :=
  a + ((if m.u then b.zeroExtend 64 else b.signExtend 64) <<< m.sh.toNat)

def opLeaB (i : FormB LeaMods) : Op :=
  pureOp i.h i.g (.fixed 4)
    (fun ow => [(0, admits ow (dstVSZ ow) 2 i.d), (1, admits ow srcVSZ 2 i.a), (2, admits ow srcInt 1 i.b)])
    [⟨1, i.a, 2⟩, ⟨2, i.b, 1⟩] fun v => out64 i.d (leaResult i.m (v.val64 1 i.a) (v.val 2 i.b))
def execLeaB (i : FormB LeaMods) (s : State) : Host.Outcome State Fault Refusal := issueOp (.leaB i) (opLeaB i) s
def opLeaC (i : FormC LeaMods) : Op :=
  pureOp i.h i.g (.fixed 4) (fun ow => [(0, admits ow (dstVSZ ow) 2 i.d), (1, admits ow srcVSZ 2 i.a)]) [⟨1, i.a, 2⟩]
    fun v => out64 i.d (leaResult i.m (v.val64 1 i.a) (sextImm i.imm))
def execLeaC (i : FormC LeaMods) (s : State) : Host.Outcome State Fault Refusal := issueOp (.leaC i) (opLeaC i) s

/-! ## Packed integers -/

/-- Width and number of the elements of INT8x4 or INT16x2 (R186). -/
def packWidth (h : Bool) : Nat := if h then 16 else 8
def packCount (h : Bool) : Nat := if h then 2 else 4

/-- Element j of a word, signed or unsigned. -/
def elemInt (w : Nat) (u : Bool) (j : Nat) (x : Word) : Int :=
  let n := elemAt w j x.toNat
  if !u && 2 ^ (w - 1) ≤ n then (n : Int) - 2 ^ w else n

/-- A packed word from an element function. -/
def packWord (h : Bool) (f : Nat → Int) : Word :=
  BitVec.ofNat 32 (packElems (packWidth h) ((List.range (packCount h)).map fun j => ((f j) % (2 ^ packWidth h)).toNat))

/-- R195 for one element's exact result. -/
def packSat (w : Nat) (sat : SatMode) (x : Int) : Int :=
  match sat with
  | .none => x
  | .signed => clampInt (-(2 ^ (w - 1))) (2 ^ (w - 1) - 1) x
  | .unsigned => clampInt 0 (2 ^ w - 1) x

def packArith (sub : Bool) (m : PaddMods) (a b : Word) : Word :=
  let w := packWidth m.h
  let u := m.sat == .unsigned
  packWord m.h fun j =>
    let x := elemInt w u j a
    let y := elemInt w u j b
    packSat w m.sat (if sub then x - y else x + y)

def packMin (big : Bool) (m : PminMods) (a b : Word) : Word :=
  let w := packWidth m.h
  packWord m.h fun j =>
    let x := elemInt w m.u j a
    let y := elemInt w m.u j b
    if big then max x y else min x y

/-- The guard is read at the element width, and only active elements are written (R448, R449). -/
def packedOp {μ : Type} (i : FormB μ) (h : Bool) (f : Word → Word → Word) : Op :=
  { pureOp i.h i.g (.fixed 4)
      (fun ow => [(0, admits ow (dstVSZ ow) 1 i.d), (1, admits ow srcInt 1 i.a), (2, admits ow srcInt 1 i.b)])
      [⟨1, i.a, 1⟩, ⟨2, i.b, 1⟩]
      (fun v => [{ dst := i.d, val := f (v.val 1 i.a) (v.val 2 i.b) }]) with
    width := packWidth h }

def opPadd (i : FormB PaddMods) : Op := packedOp i i.m.h (packArith false i.m)
def execPadd (i : FormB PaddMods) (s : State) : Host.Outcome State Fault Refusal := issueOp (.padd i) (opPadd i) s
def opPsub (i : FormB PaddMods) : Op := packedOp i i.m.h (packArith true i.m)
def execPsub (i : FormB PaddMods) (s : State) : Host.Outcome State Fault Refusal := issueOp (.psub i) (opPsub i) s
def opPmin (i : FormB PminMods) : Op := packedOp i i.m.h (packMin false i.m)
def execPmin (i : FormB PminMods) (s : State) : Host.Outcome State Fault Refusal := issueOp (.pmin i) (opPmin i) s
def opPmax (i : FormB PminMods) : Op := packedOp i i.m.h (packMin true i.m)
def execPmax (i : FormB PminMods) (s : State) : Host.Outcome State Fault Refusal := issueOp (.pmax i) (opPmax i) s

/-- The predicate bits of the elements for which the comparison holds. -/
def pcmpBits (m : PcmpMods) (a b : Word) : BitVec 4 :=
  let w := packWidth m.h
  (List.range (packCount m.h)).foldl
    (fun p j => if condHolds m.cond (elemInt w m.u j a) (elemInt w m.u j b) then p ||| predBits w j else p) 0

def opPcmp (i : FormB PcmpMods) : Op :=
  { pureOp i.h i.g (.fixed 4)
      (fun ow => [(0, admits ow srcP 1 i.d), (1, admits ow srcInt 1 i.a), (2, admits ow srcInt 1 i.b)])
      [⟨1, i.a, 1⟩, ⟨2, i.b, 1⟩]
      (fun v => [{ dst := i.d, val := (pcmpBits i.m (v.val 1 i.a) (v.val 2 i.b)).setWidth 32 }]) with
    width := packWidth i.m.h }
def execPcmp (i : FormB PcmpMods) (s : State) : Host.Outcome State Fault Refusal := issueOp (.pcmp i) (opPcmp i) s

def dotResult (m : Pdot4Mods) (a b c : Word) : Word :=
  let s := (List.range 4).foldl (fun (t : Int) j => t + elemInt 8 m.au j a * elemInt 8 m.bu j b) c.toInt
  if m.sat then satSigned s else BitVec.ofInt 32 s

def opPdot4 (i : FormB Pdot4Mods) : Op := triB i (.fixed 6) srcInt (dotResult i.m)
def execPdot4 (i : FormB Pdot4Mods) (s : State) : Host.Outcome State Fault Refusal := issueOp (.pdot4 i) (opPdot4 i) s

end Sys2Proof.Machine
end

