-- ==== Sys2Proof/Machine/Logic.lean ====
section
/-! DEFINITION. Logic and bit fields: AND, OR, XOR on words and on predicates (R371, R372, R446, R491), SHL, SHR, SAR (R466,
R467), BFE, BFI (R382), POPC (R447), CLZ, BREV (R385). -/

namespace Sys2Proof.Machine

/-! ## AND, OR, XOR -/

/-- DST, SRCA and SRCB are all predicates or none is (R371). -/
def logicKinds (d : Operand) : Kinds := if isP d then srcP else srcInt

def logicB (i : FormB LogicMods) (f : Word → Word → Word) : Op :=
  pureOp i.h i.g (.fixed 4)
    (fun ow => [(0, admits ow { dstVSZ ow with p := true } 1 i.d), (1, admits ow (logicKinds i.d) 1 i.a),
      (2, admits ow (logicKinds i.d) 1 i.b)])
    [⟨1, i.a, 1⟩, ⟨2, i.b, 1⟩]
    fun v => outW i.d (f (v.val 1 i.a) (if i.m.inv then ~~~(v.val 2 i.b) else v.val 2 i.b))

def logicC (i : FormC LogicMods) (f : Word → Word → Word) : Op :=
  binC i (.fixed 4) srcInt (if i.m.inv then ~~~(zextImm i.imm) else zextImm i.imm) f

def opAndB (i : FormB LogicMods) : Op := logicB i (fun a b => a &&& b)
def execAndB (i : FormB LogicMods) (s : State) : Host.Outcome State Fault Refusal := issueOp (.andB i) (opAndB i) s
def opAndC (i : FormC LogicMods) : Op := logicC i (fun a b => a &&& b)
def execAndC (i : FormC LogicMods) (s : State) : Host.Outcome State Fault Refusal := issueOp (.andC i) (opAndC i) s
def opOrB (i : FormB LogicMods) : Op := logicB i (fun a b => a ||| b)
def execOrB (i : FormB LogicMods) (s : State) : Host.Outcome State Fault Refusal := issueOp (.orB i) (opOrB i) s
def opOrC (i : FormC LogicMods) : Op := logicC i (fun a b => a ||| b)
def execOrC (i : FormC LogicMods) (s : State) : Host.Outcome State Fault Refusal := issueOp (.orC i) (opOrC i) s
def opXorB (i : FormB LogicMods) : Op := logicB i (fun a b => a ^^^ b)
def execXorB (i : FormB LogicMods) (s : State) : Host.Outcome State Fault Refusal := issueOp (.xorB i) (opXorB i) s
def opXorC (i : FormC LogicMods) : Op := logicC i (fun a b => a ^^^ b)
def execXorC (i : FormC LogicMods) (s : State) : Host.Outcome State Fault Refusal := issueOp (.xorC i) (opXorC i) s

/-! ## Shifts -/

def shiftCount (wrap : Bool) (b : Word) : Nat := if wrap then b.toNat % 32 else b.toNat
def shlResult (wrap : Bool) (a b : Word) : Word := if shiftCount wrap b ≥ 32 then 0 else a <<< shiftCount wrap b
def shrResult (wrap : Bool) (a b : Word) : Word := if shiftCount wrap b ≥ 32 then 0 else a >>> shiftCount wrap b
def sarResult (wrap : Bool) (a b : Word) : Word := a.sshiftRight (min (shiftCount wrap b) 31)

def opShlB (i : FormB ShiftMods) : Op := binB i (.fixed 4) srcInt (shlResult i.m.wrap)
def execShlB (i : FormB ShiftMods) (s : State) : Host.Outcome State Fault Refusal := issueOp (.shlB i) (opShlB i) s
def opShlC (i : FormC ShiftMods) : Op := binC i (.fixed 4) srcInt (zextImm i.imm) (shlResult i.m.wrap)
def execShlC (i : FormC ShiftMods) (s : State) : Host.Outcome State Fault Refusal := issueOp (.shlC i) (opShlC i) s
def opShrB (i : FormB ShiftMods) : Op := binB i (.fixed 4) srcInt (shrResult i.m.wrap)
def execShrB (i : FormB ShiftMods) (s : State) : Host.Outcome State Fault Refusal := issueOp (.shrB i) (opShrB i) s
def opShrC (i : FormC ShiftMods) : Op := binC i (.fixed 4) srcInt (zextImm i.imm) (shrResult i.m.wrap)
def execShrC (i : FormC ShiftMods) (s : State) : Host.Outcome State Fault Refusal := issueOp (.shrC i) (opShrC i) s
def opSarB (i : FormB ShiftMods) : Op := binB i (.fixed 4) srcInt (sarResult i.m.wrap)
def execSarB (i : FormB ShiftMods) (s : State) : Host.Outcome State Fault Refusal := issueOp (.sarB i) (opSarB i) s
def opSarC (i : FormC ShiftMods) : Op := binC i (.fixed 4) srcInt (zextImm i.imm) (sarResult i.m.wrap)
def execSarC (i : FormC ShiftMods) (s : State) : Host.Outcome State Fault Refusal := issueOp (.sarC i) (opSarC i) s

/-! ## Bit fields -/

/-- R382: position c[7:0], length c[15:8]. -/
def bfeResult (sx : Bool) (a c : Word) : Word :=
  let p := c.toNat % 256
  let l := (c.toNat / 256) % 256
  if l = 0 then 0
  else
    let m := min l 32
    let x : Int := if sx then a.toInt else a.toNat
    let f := (x / 2 ^ p) % 2 ^ m
    BitVec.ofInt 32 (if sx && decide (f ≥ 2 ^ (m - 1)) then f - 2 ^ m else f)

def bfiResult (a b c : Word) : Word :=
  let p := c.toNat % 256
  let l := (c.toNat / 256) % 256
  let mask : Word := BitVec.ofNat 32 (((2 ^ min l 32 - 1) <<< min p 32) % 2 ^ 32)
  (b &&& ~~~mask) ||| ((a <<< min p 32) &&& mask)

def opBfeB (i : FormB BfeMods) : Op := binB i (.fixed 4) srcInt (bfeResult i.m.sx)
def execBfeB (i : FormB BfeMods) (s : State) : Host.Outcome State Fault Refusal := issueOp (.bfeB i) (opBfeB i) s
def opBfeC (i : FormC BfeMods) : Op := binC i (.fixed 4) srcInt (zextImm i.imm) (bfeResult i.m.sx)
def execBfeC (i : FormC BfeMods) (s : State) : Host.Outcome State Fault Refusal := issueOp (.bfeC i) (opBfeC i) s
def opBfi (i : FormB NoMods) : Op := triB i (.fixed 4) srcInt bfiResult
def execBfi (i : FormB NoMods) (s : State) : Host.Outcome State Fault Refusal := issueOp (.bfi i) (opBfi i) s

/-! ## Counts and reversal -/

def popcResult (a : Word) : Word := BitVec.ofNat 32 (popcount a)
def clzResult (a : Word) : Word := BitVec.ofNat 32 (if a = 0 then 32 else 31 - a.toNat.log2)
def brevResult (a : Word) : Word := a.reverse

def opPopcA (i : FormA) : Op := unA i (.fixed 4) srcInt popcResult
def execPopcA (i : FormA) (s : State) : Host.Outcome State Fault Refusal := issueOp (.popcA i) (opPopcA i) s
def opPopcB (i : FormB NoMods) : Op := unB i (.fixed 4) srcInt popcResult
def execPopcB (i : FormB NoMods) (s : State) : Host.Outcome State Fault Refusal := issueOp (.popcB i) (opPopcB i) s
def opClzA (i : FormA) : Op := unA i (.fixed 4) srcInt clzResult
def execClzA (i : FormA) (s : State) : Host.Outcome State Fault Refusal := issueOp (.clzA i) (opClzA i) s
def opClzB (i : FormB NoMods) : Op := unB i (.fixed 4) srcInt clzResult
def execClzB (i : FormB NoMods) (s : State) : Host.Outcome State Fault Refusal := issueOp (.clzB i) (opClzB i) s
def opBrevA (i : FormA) : Op := unA i (.fixed 4) srcInt brevResult
def execBrevA (i : FormA) (s : State) : Host.Outcome State Fault Refusal := issueOp (.brevA i) (opBrevA i) s
def opBrevB (i : FormB NoMods) : Op := unB i (.fixed 4) srcInt brevResult
def execBrevB (i : FormB NoMods) (s : State) : Host.Outcome State Fault Refusal := issueOp (.brevB i) (opBrevB i) s

end Sys2Proof.Machine
end

