-- ==== Sys2Proof/Machine/Move.lean ====
section
/-! DEFINITION. Moves: MOV with ranges and predicates (R441, R442), MOVI (R443), MOVS (R444), TAGGET (R481). -/

namespace Sys2Proof.Machine

/-- A copy of each register of a range, each with its own mask (R442). -/
def copyOuts (v : View) (d a : Operand) (n : Nat) : List Out :=
  (List.range n).map fun k => { dst := d, k := k, val := (v.rd 1 a k).val, tag := some (v.rd 1 a k).tag }

/-- Width 1 also moves predicates and reads the special operands; a wider range does not (R441). -/
def movOp (h : Head) (g : Guard) (d a : Operand) (n : Nat) : Op :=
  pureOp h g (.fixed 4)
    (fun ow =>
      if n = 1 then
        [(0, admits ow { dstVSZ ow with p := true } 1 d), (1, admits ow (if isP d then srcP else srcInt) 1 a)]
      else [(0, admits ow (dstVS ow) n d), (1, admits ow srcVSZ n a)])
    [⟨1, a, n⟩] fun v => copyOuts v d a n

def opMovA (i : FormA) : Op := movOp i.h always i.d i.a 1
def execMovA (i : FormA) (s : State) : Host.Outcome State Fault Refusal := issueOp (.movA i) (opMovA i) s
def opMovB (i : FormB MovMods) : Op := movOp i.h i.g i.d i.a (2 ^ i.m.rep.toNat)
def execMovB (i : FormB MovMods) (s : State) : Host.Outcome State Fault Refusal := issueOp (.movB i) (opMovB i) s

def opMovi (i : FormE) : Op := pureOp i.h always (.fixed 4) (fun ow => [(0, admits ow (dstVSZ ow) 1 i.d)]) [] fun _ => outW i.d i.imm
def execMovi (i : FormE) (s : State) : Host.Outcome State Fault Refusal := issueOp (.movi i) (opMovi i) s

/-! ## MOVS -/

/-- Exactly one of DST and SRCA is a predicate code, p0 under ALL (R444). -/
def movsCheck (all : Bool) (d a : Operand) (ow : Owner) : List (Nat × Bool) :=
  let p (o : Operand) : Bool := if all then o == .p 0 else isP o
  [(0, if isP d then p d && !isP a else admits ow (dstVS ow) 1 d && isP a),
   (1, if isP d then admits ow srcInt 1 a else p a)]

/-- Where MOVS.ALL reads pk: a position of its own, so that an early read of each is a choice of its own (R357). -/
def allPos (k : Nat) : Nat := 100 + k

/-- The four bits of each of p0 to p7, p0 lowest. -/
def packPreds (v : View) : Word :=
  (List.range 8).foldl (fun w k => w ||| ((v.val (allPos k) (.p (BitVec.ofNat 3 k)) &&& 15) <<< (4 * k))) 0

def movsOuts (all : Bool) (d a : Operand) (v : View) : List Out :=
  if isP d then
    if all then (List.range 7).map fun k => { dst := .p (BitVec.ofNat 3 k), val := (v.val 1 a >>> (4 * k)) &&& 15 }
    else outW d (v.val 1 a &&& 15)
  else if all then outW d (packPreds v)
  else outW d (v.val 1 a &&& 15)

def movsOp (h : Head) (g : Guard) (all : Bool) (d a : Operand) : Op :=
  pureOp h g (.fixed 4) (movsCheck all d a)
    (if all && isP a then (List.range 7).map fun k => ⟨allPos k, .p (BitVec.ofNat 3 k), 1⟩ else [⟨1, a, 1⟩])
    (movsOuts all d a)

def opMovsA (i : FormA) : Op := movsOp i.h always false i.d i.a
def execMovsA (i : FormA) (s : State) : Host.Outcome State Fault Refusal := issueOp (.movsA i) (opMovsA i) s
def opMovsB (i : FormB MovsMods) : Op := movsOp i.h i.g i.m.all i.d i.a
def execMovsB (i : FormB MovsMods) (s : State) : Host.Outcome State Fault Refusal := issueOp (.movsB i) (opMovsB i) s

/-! ## TAGGET -/

/-- The accumulator tile that a handle names: its index on the core and the tile (R205, R206). -/
def Mach.tileOf (m : Mach) (bid : Nat) (h : Nat) : Option (Nat × Tile) :=
  match m.block? bid with
  | none => none
  | some b => match tabFind b.handles h with
    | none => none
    | some t => (tabFind (m.core b.core).tiles t).map fun x => (t, x)

/-- The mask that a handle shows, which needs a bound one, or none for other operands. -/
def handleTag (m : Mach) (bid : Nat) (o : Operand) : Option (Option Mask) :=
  match o with
  | .a n => some ((m.tileOf bid n.toNat).map fun x => x.2.tag)
  | .v _ | .s _ | .p _ | .zero | .laneId | .warpId | .gangId | .blockId | .coreId | .clusId | .ones | .bad _ => none

def taggetOp (h : Head) (g : Guard) (d a : Operand) : Op :=
  { head := h, guard := g, scopes := allScopes, timing := .fixed 4
    check := fun ow _ => firstBad [(0, admits ow (dstVSZ ow) 1 d), (1, admits ow { srcInt with p := true, a := true } 1 a)]
    srcs := fun _ => [⟨1, a, 1⟩]
    run := eachRun fun v m =>
      match handleTag m v.q.bid a with
      | some none => (.error (Stop.plain (.illOpnd 1)), m)
      | some (some t) => (.ok { outs := outW d (t.setWidth 32), tag := t }, m)
      | none => (.ok { outs := outW d ((v.rd 1 a 0).tag.setWidth 32) }, m) }

def opTaggetA (i : FormA) : Op := taggetOp i.h always i.d i.a
def execTaggetA (i : FormA) (s : State) : Host.Outcome State Fault Refusal := issueOp (.taggetA i) (opTaggetA i) s
def opTaggetB (i : FormB NoMods) : Op := taggetOp i.h i.g i.d i.a
def execTaggetB (i : FormB NoMods) (s : State) : Host.Outcome State Fault Refusal := issueOp (.taggetB i) (opTaggetB i) s

end Sys2Proof.Machine
end

