-- ==== Sys2Proof/Machine/Press.lean ====
section
/-! DEFINITION. PRESS and PRESSR (R455 to R459), PDEF and PDROP (R451 to R453), held press additions (R140, R143). -/

namespace Sys2Proof.Machine

/-! ## Requests -/

/-- The valid entry of the context's press table (R157). -/
def pressEntry (c : Ctx) (k : Nat) : Option PressEntry :=
  match tabFind c.press k with
  | none => none
  | some e => if e.dropping then none else some e

/-- Registers of SRCB that are read, and its range (R456). -/
def opndRegs (e : Option PressEntry) : Nat × Nat :=
  match e with
  | none => (1, 1)
  | some e => match e.image.opnd with
    | 0 => (0, 1)
    | 1 => (1, 1)
    | 2 => (2, 2)
    | 3 => (3, 4)
    | 4 => (4, 4)
    | _ => (1, 1)

def opndOk (ow : Owner) (e : Option PressEntry) (b : Operand) : Bool :=
  admits ow (if (opndRegs e).2 = 1 then srcVSZ else srcVS) (opndRegs e).2 b

def pressSrcs (c : Ctx) (mo : PressMods) (a b : Operand) : List Src :=
  [⟨1, a, 2⟩, ⟨2, b, (opndRegs (pressEntry c mo.opc.toNat)).1⟩]

/-- The operand words, the mask of a vector operand and whether it is uncorrectable (R456, R459). -/
def pressWords (m : Mach) (v : View) (d : PressImage) (b : Operand) : Except Stop (List Word × Mask × Option Nat × Bool) :=
  if d.opnd ≠ 5 then .ok (v.vals 2 b (opndWords d.opnd), 0, none, false)
  else if isZero b then .ok (List.replicate 16 0, 0, none, false)
  else
    let x := (v.val 2 b).toNat
    let a := x % 2 ^ 20
    match m.block? v.q.bid with
    | none => .error (stopAt .spRange a 64 false)
    | some blk =>
      if x ≥ 2 ^ 20 ∨ a + 64 > blk.spadSize then .error (stopAt .spRange x 64 false)
      else if a % 64 ≠ 0 then .error (stopAt .misalign a 64 false)
      else .ok (wordsOfBytes (m.spadBytes v.q.bid a 64), spadTag blk a 64, some a, spadBadRange blk a 64)

/-- The tier and site rules of R120 and R155. -/
def pressTakes (ms : MScope) (d : PressImage) (l : Loc) : Bool :=
  match l.place with
  | .dev _ => !(siteField d == 1 && (l.leaf.tier == 1 || l.leaf.sealed))
  | .peer _ _ => ms == .sys && !(siteField d == 1 && l.leaf.sealed)
  | .host _ => false
  | .spad _ _ => false

def placeTarget : Place → Option Nat × Nat
  | .dev pa => (none, pa)
  | .peer k pa => (some k, pa)
  | .host a => (none, a)
  | .spad _ a => (none, a)

/-- A line of a granule is damp for the context (R139). -/
def Mach.dampGranule (m : Mach) (ctx : Nat) (l : Loc) : Bool :=
  isDevPlace l.place && (List.range (l.n / 128 + 1)).any fun i =>
    decide (i = 0 ∨ 128 * i < l.n) && (m.dampRegion ctx { l with va := l.va + 128 * i }).isSome

/-- What one lane sends, or its cause in the order of R459; the damp region of its granule's first line. A request to a damp
granule that is not held has the holders drain first (R141); the table names no `.SYS` request whose definition could be held:
DESIGN CHOICE, the holders drain (log 85). -/
def pressResolve (mo : PressMods) (a b : Operand) (returns : Bool) (v : View) (m : Mach) :
    Except Stop (PressReq × Option (Region × Loc) × Mask) × Mach :=
  let c := m.ctx v.b.ctx
  match pressEntry c mo.opc.toNat with
  | none => (.error (Stop.plain (.pundef mo.opc.toNat)), m)
  | some e =>
    let d := e.image
    let n := d.size
    let base := v.val64 1 a
    match pressWords m v d b with
    | .error s => (.error s, m)
    | .ok (words, vtag, vec, vbad) =>
      if base.toNat % n ≠ 0 then (.error (stopAt .misalign base.toNat n true), m)
      else match globalAddr base 0 n true with
        | .error s => (.error s, m)
        | .ok va =>
          let (p, m) := m.locate1 v.mg v.actor va n
          let data := e.tag ||| v.tags (pressSrcs c mo a b) ||| vtag ||| v.base
          let stop (k : Cause) : Except Stop (PressReq × Option (Region × Loc) × Mask) × Mach := (.error (stopAt k va n true), m)
          match p.loc with
          | .error k => stop k
          | .ok l =>
            if !pressTakes mo.ms d l then stop .mtype
            else if !l.leaf.w then stop .perm
            else if !m.writeOk v.b.ctx v.b.launch l data then stop .tag
            else if vbad then (.error (stopAt .data (vec.getD 0) 64 false), m)
            else if returns && (placeTarget l.place).1.any m.unreach.contains then stop .data
            else
              let (st, m) := match vec with
                | none => (v.pts, m)
                | some x => m.leaseSpad v.q.bid (x / 64) v.pts
              let (target, pa) := placeTarget l.place
              let reg := if target.isSome then none else m.dampRegion v.b.ctx l
              let damp := m.dampGranule v.b.ctx l
              (.ok ({ id := 0, ctx := v.b.ctx, opc := mo.opc.toNat, image := d, granule := pa, va := va, target := target,
                      remote := none, opnd := words, parts := [words], ids := [], count := 1, lanes := v.set, cores := [v.b.core],
                      pts := st, reply := none, comb := none, fast := l.leaf.tier == 0, world := m.viewOf v.actor l.leaf,
                      damp := damp, wring := damp, chan := false, done := none, home := false, wants := none, glitch := false },
                    reg.map fun r => (r, l), data ||| l.leaf.tag), m)

/-! ## Sending -/

def Mach.combUsed (m : Mach) (cluster dev : Nat) : Nat :=
  (m.presses.filter fun r => (match r.comb with
    | none => false
    | some x => x.1 == cluster) && deviceOf r.ctx == dev).length

def combQuota (mg : Mgmt) (dev : Nat) : Nat := (mg.quotas.getD dev Quota.zero).cbuf

/-- The combining entry of a cluster unit that a request merges into (R172). -/
def Mach.combEntry (m : Mach) (cluster : Nat) (r : PressReq) : Option PressReq :=
  m.presses.find? fun x => (match x.comb with
    | none => false
    | some y => y.1 == cluster) && mergeable x r

def combinable (r : PressReq) : Bool := r.image.cls == 2 && r.reply.isNone && !r.damp

/-- Whether a request waits in an entry of a cluster unit. -/
def heldAt (cluster : Nat) (r : PressReq) : Bool :=
  match r.comb with
  | none => false
  | some x => x.1 == cluster

/-- The oldest entry at a cluster unit among some is sent when its space is needed (R172). -/
def Mach.sendOldest (m : Mach) (cluster : Nat) (p : PressReq → Bool) : Mach :=
  match m.presses.find? fun r => heldAt cluster r && p r with
  | none => m
  | some r => m.arrivePress r

/-- Space for one more entry of a device: within its quota, and within the 128 entries of the unit (R172, R176). -/
def Mach.combRoom (m : Mach) (mg : Mgmt) (cluster dev : Nat) : Mach :=
  let m := if m.combUsed cluster dev ≥ combQuota mg dev then m.sendOldest cluster fun r => deviceOf r.ctx == dev else m
  if (m.presses.filter (heldAt cluster)).length ≥ 128 then m.sendOldest cluster fun _ => true else m

/-- A request leaves the issuing core, whose L1 drops its lines (R100, R172, R457). The spec leaves open the order in which requests
of different lanes arrive at a slice, and whether a lane's later request with the same key merges into its combining entry or
sends it: DESIGN CHOICE (log 86), one that is not combined arrives in the move that issues it, and one with the key merges. -/
def Mach.sendPress (m : Mach) (mg : Mgmt) (core : Nat) (r : PressReq) : Mach :=
  let (id, m) := m.freshId
  let r := { r with id := id, ids := [id] }
  let m := if r.target.isSome then m else r.lines.foldl (fun m l => m.dropL1 core l) m
  let m := m.sendEntries fun x => x.overlaps r.target r.granule r.image.size && sharesLane x.lanes r.lanes && !mergeable x r
  if !combinable r then m.arrivePress r
  else
    let k := clusterOf core
    match m.combEntry k r with
    | some x =>
      let y := mergePress x r
      if y.count ≥ 64 then m.arrivePress y
      else { m with presses := m.presses.map fun (z : PressReq) => if z.id = x.id then y else z }
    | none =>
      let m := m.combRoom mg k (deviceOf r.ctx)
      { m with presses := m.presses ++ [{ r with comb := some (k, m.cycle) }] }

/-- Whether a posted press is an addition that a cluster unit may hold (R140). -/
def holdable (mo : PressMods) (d : PressImage) (r : Region) : Bool :=
  mo.ms == .dev && siteField d != 1 && d.cls == 2 &&
    (if r.int then d.ckind == 0 && d.groups.all fun g => g.v == 0 && !g.satu else d.ckind == 1)

/-- A combinable integer addition that saturates is never held: it goes home whole (R140). -/
def goesHome (mo : PressMods) (d : PressImage) (r : Region) : Bool :=
  mo.ms == .dev && siteField d != 1 && d.cls == 2 && r.int && d.ckind == 0

/-- The request of one element of a held press that is applied alone at the home slice (R141, R143). -/
def elementReq (r : PressReq) (g : AccGroup) (x : Word) : PressReq :=
  { r with image := { r.image with uops := (g.uops.map fun u => if uCode u = 3 then u &&& 0xFFF0 else u) ++ [0] }
           opnd := [x], parts := [[x]], wring := false, home := true }

/-- The elements of a posted press to a damp line, in ascending index, offered to the cluster unit of a core; `tags` gives the masks of
an operand word, the guard and F (R143). -/
def Mach.offerElements (m : Mach) (mg : Mgmt) (core : Nat) (reg : Region) (l : Loc) (r : PressReq) (tags : Nat → Mask) : Mach :=
  let gs := sortBy (fun (x y : AccGroup × Nat) => decide (x.1.word ≤ y.1.word)) r.image.groups.zipIdx
  gs.foldl (fun m g =>
    let x := r.opnd.getD g.2 0
    let (held, m) := m.holdUpdate mg r.ctx reg (lineOf r.granule) (lineOf l.va) (1024 + clusterOf core) r.world
      (r.granule % 128 / 4 + g.1.word) x (tags g.2)
    if held then m else m.sendPress mg core (elementReq r g.1 x)) m

def Mach.offerPress (m : Mach) (mg : Mgmt) (v : View) (b : Operand) (reg : Region) (l : Loc) (r : PressReq) : Mach :=
  m.offerElements mg v.b.core reg l r fun k => (v.rd 2 b k).tag ||| v.base

/-- One lane of PRESS (R457). -/
def pressLane (mo : PressMods) (a b : Operand) (v : View) (m : Mach) : Effect × Mach :=
  match pressResolve mo a b false v m with
  | (.error s, m) => (.error s, m)
  | (.ok (r, reg, _), m) =>
    let m := match reg with
      | some (g, l) => if holdable mo r.image g then m.offerPress v.mg v b g l r
        else m.sendPress v.mg v.b.core { r with home := goesHome mo r.image g }
      | none => m.sendPress v.mg v.b.core r
    (.ok { pts := some r.pts }, m)

/-- A PRESS waits while its device has no combining entry left for a request that needs one (R179). -/
def pressReadyToGo (mo : PressMods) (a b : Operand) (vs : List View) (m : Mach) : Bool :=
  vs.all fun v => match (pressResolve mo a b false v m).1 with
    | .error _ => true
    | .ok (r, _, _) =>
      let k := clusterOf v.b.core
      !combinable r || (m.combEntry k r).isSome || decide (m.combUsed k (deviceOf r.ctx) < combQuota v.mg (deviceOf r.ctx))

def opPress (i : FormB PressMods) : Op :=
  { head := i.h, guard := i.g, fenced := true, scopes := laneWarp, timing := .atIssue
    check := fun ow c => firstBad [(1, admits ow srcVS 2 i.a), (2, opndOk ow (pressEntry c i.m.opc.toNat) i.b)]
    srcs := fun c => pressSrcs c i.m i.a i.b
    ready := fun vs m => pressReadyToGo i.m i.a i.b (if i.h.scope = .lane then vs else vs.take 1) m
    run := eachRun (pressLane i.m i.a i.b) }
def execPress (i : FormB PressMods) (s : State) : Host.Outcome State Fault Refusal := issueOp (.press i) (opPress i) s

/-! ## PRESSR -/

def pressrRegs (mo : PressMods) : Nat := if mo.stamp then 8 else 4

/-- The warp waits for the replies that it is owed, since PRESSR is in program order (R112). -/
def awaitReply (id : Nat) (w : Warp) : Warp :=
  { w with block := match w.block with
      | some (.replies l) => some (.replies (l ++ [id]))
      | _ => some (.replies [id]) }

def pressrLane (mo : PressMods) (d a b : Operand) (v : View) (m : Mach) : Effect × Mach :=
  match pressResolve mo a b true v m with
  | (.error s, m) => (.error s, m)
  | (.ok (r, _, tag), m) =>
    let lanes := maskOf (v.set.map (·.lane))
    let reply : PressReply :=
      { bid := v.q.bid, warp := v.warp, lanes := lanes, dst := d, stamp := mo.stamp, tag := tag, id := v.id
        issue := v.q, code := v.l.code, scope := v.scope }
    let id := m.ids
    let m := ({ m with owed := tabSet m.owed id reply } : Mach).sendPress v.mg v.b.core { r with reply := some reply }
    let m := m.modWarp v.q.bid v.warp (awaitReply id)
    (.ok { owed := (List.range (pressrRegs mo)).map fun k => (d, k), pts := some r.pts }, m)

def opPressr (i : FormB PressMods) : Op :=
  { head := i.h, guard := i.g, fenced := true, scopes := laneWarp, timing := .open_
    check := fun ow c => firstBad [(0, admits ow { v := true, s := ow.wide } (pressrRegs i.m) i.d), (1, admits ow srcVS 2 i.a),
      (2, opndOk ow (pressEntry c i.m.opc.toNat) i.b)]
    srcs := fun c => pressSrcs c i.m i.a i.b
    run := eachRun (pressrLane i.m i.d i.a i.b) }
def execPressr (i : FormB PressMods) (s : State) : Host.Outcome State Fault Refusal := issueOp (.pressr i) (opPressr i) s

/-! ## PDEF and PDROP -/

/-- The image at an address: the header, then the micro-operations when NUOP is legal (R165). -/
def readImage (v : View) (base : BitVec 64) (m : Mach) : Except Stop (PressImage × Nat × Mask) × Mach :=
  if base.toNat % 8 ≠ 0 then (.error (stopAt .misalign base.toNat 8 false), m)
  else match globalAddr base 0 8 false with
    | .error s => (.error s, m)
    | .ok va => match m.loadNow v.mg v va 8 v.pts with
      | (.error s, m) => (.error s, m)
      | (.ok h, m) =>
        let x := BitVec.ofNat 64 (natOfBytes h.bytes)
        let n := field x.toNat 4 0
        if n = 0 ∨ n > 16 then (.ok (⟨x, []⟩, h.stamp, h.tag), m)
        else match globalAddr base 8 (2 * n) false with
          | .error s => (.error s, m)
          | .ok vb => match m.loadNow v.mg v vb (2 * n) h.stamp with
            | (.error s, m) => (.error s, m)
            | (.ok u, m) =>
              let us := (List.range n).map fun i => BitVec.ofNat 16 (natOfBytes ((u.bytes.drop (2 * i)).take 2))
              (.ok (⟨x, us⟩, u.stamp, h.tag ||| u.tag), m)

def pdefRun (d a b : Operand) (v : View) (m : Mach) : Effect × Mach :=
  let k := (v.val 2 b).toNat
  if k > 63 then (.error (Stop.plain (.illOpnd 2)), m)
  else match readImage v (v.val64 1 a) m with
    | (.error s, m) => (.error s, m)
    | (.ok (img, st, tag), m) =>
      let status := m.pdefStatus v.mg v.b.ctx k img
      let entry : PressEntry := { image := img, tag := tag ||| v.tags [⟨1, a, 2⟩] ||| v.w.flow, dropping := false, waiters := [] }
      let m := if status = 0 then m.modCtx v.b.ctx fun c => { c with press := tabSet c.press k entry } else m
      (.ok { outs := outW d (BitVec.ofNat 32 status), tag := tag, pts := some st }, m)

def opPdef (i : FormB NoMods) : Op :=
  { head := i.h, guard := i.g, fenced := true, scopes := warpOnly, timing := .later
    check := fun ow _ => firstBad [(0, admits ow (dstVSZ ow) 1 i.d), (1, admits ow srcVS 2 i.a), (2, admits ow srcVSZ 1 i.b)]
    srcs := fun _ => [⟨1, i.a, 2⟩, ⟨2, i.b, 1⟩]
    run := eachRun (pdefRun i.d i.a i.b) }
def execPdef (i : FormB NoMods) (s : State) : Host.Outcome State Fault Refusal := issueOp (.pdef i) (opPdef i) s

def pdropRun (k : Nat) (v : View) (m : Mach) : Effect × Mach :=
  match tabFind (m.ctx v.b.ctx).press k with
  | none => (.ok { closed := true }, m)
  | some e => (.ok {}, m.modCtx v.b.ctx fun c =>
      { c with press := tabSet c.press k { e with dropping := true, waiters := e.waiters ++ [(v.q.bid, v.warp, v.id)] } })

def opPdrop (i : FormC NoMods) : Op :=
  { head := i.h, guard := i.g, fenced := true, scopes := warpOnly, timing := .open_
    check := fun _ _ => firstBad [(2, i.imm.toNat < 64)]
    srcs := fun _ => []
    run := eachRun (pdropRun i.imm.toNat) }
def execPdrop (i : FormC NoMods) (s : State) : Host.Outcome State Fault Refusal := issueOp (.pdrop i) (opPdrop i) s

end Sys2Proof.Machine
end

