-- ==== Sys2Proof/Machine/Fence.lean ====
section
/-! DEFINITION. FENCE (R410 to R412) and its end (R131 to R134). -/

namespace Sys2Proof.Machine

/-- Engine commands of a warp that have not completed (R132). -/
def Mach.commandsOf (m : Mach) (b : Block) (bid warp : Nat) : List Nat :=
  let c := m.core b.core
  let all := c.mq ++ c.chans.cells.flatMap (fun x => x.2.cmds) ++ b.keptMx ++ b.keptCh.map (·.2)
  (all.filter fun x => x.bid == bid && x.warp == warp).map (·.id)

def pressLanes (bid warp : Nat) (lanes : LaneMask) : List PressLane := (bitsOf lanes).map fun i => ⟨bid, warp, i⟩

def fenceRegs (k : FenceKind) (d : Operand) : List (Operand × Nat) :=
  match k with
  | .posted => if isZero d then [] else [(d, 0), (d, 1)]
  | .engine => []
  | .sys => []

/-- What the fence waits for, besides the posted presses of its lanes. -/
def fenceWaits (k : FenceKind) (m : Mach) (v : View) (lanes : LaneMask) : List Nat :=
  match k with
  | .posted => []
  | .engine => m.commandsOf v.b v.q.bid v.warp
  | .sys => (m.posted.filter fun p => sharesLane p.lanes (pressLanes v.q.bid v.warp lanes)).map (·.id)

def fenceRun (k : FenceKind) (d : Operand) (vs : List View) (m : Mach) : List Effect × Mach :=
  match vs with
  | [] => ([], m)
  | v :: _ =>
    let lanes := maskOf (vs.map (·.lane))
    let m := match k with
      | .posted => m.sendEntries fun r => sharesLane r.lanes (pressLanes v.q.bid v.warp lanes)
      | .engine => m
      | .sys => m
    let f : Fence :=
      { kind := k, lanes := lanes, flight := v.id, dst := d, scope := v.scope
        tags := vs.map fun x => (x.lane, x.base), waits := fenceWaits k m v lanes }
    (vs.map fun _ => .ok { owed := fenceRegs k d }, m.modWarp v.q.bid v.warp fun w => { w with fence := some f })

def opFence (i : FormB FenceMods) : Op :=
  { head := i.h, guard := i.g, fenced := true, scopes := laneWarp, coll := true, timing := .open_
    check := fun ow _ => firstBad [(0, isZero i.d || (i.m.kind == .posted && admits ow (dstVS ow) 2 i.d))]
    srcs := fun _ => []
    run := fenceRun i.m.kind i.d }
def execFence (i : FormB FenceMods) (s : State) : Host.Outcome State Fault Refusal := issueOp (.fence i) (opFence i) s

/-! ## The end of the wait -/

/-- The wait of R131, R132 or R133 is over. -/
def Mach.fenceOver (m : Mach) (b : Block) (bid warp : Nat) (f : Fence) : Bool :=
  match f.kind with
  | .posted => !(m.presses.any fun r => r.reply.isNone && sharesLane r.lanes (pressLanes bid warp f.lanes))
  | .engine => !(f.waits.any (m.commandsOf b bid warp).contains)
  | .sys => !(m.posted.any fun p => f.waits.contains p.id)

/-- The pts that each active lane takes (R131, R132, R412). -/
def fencePts (m : Mach) (w : Warp) (f : Fence) (l : Lane) : Nat :=
  match f.kind with
  | .posted => match f.scope with
    | .lane => max l.pts l.posted
    | .warp => (bitsOf f.lanes).foldl (fun t i => match laneAt w i with
      | none => t
      | some x => max t (max x.pts x.posted)) 0
    | .gang => max l.pts l.posted
    | .block => max l.pts l.posted
  | .engine => max l.pts m.maxStamp
  | .sys => l.pts

/-- FENCE_COMPLETE (R131). -/
def Mach.fenceComplete (m : Mach) (bid warp : Nat) : Mach :=
  match m.block? bid, m.warp? bid warp with
  | some b, some w => match w.fence with
    | none => m
    | some f =>
      if !m.fenceOver b bid warp f then m
      else m.modWarp bid warp fun w0 =>
        let w := modLanes w0 fun i l =>
          if f.lanes.getLsbD i then
            { l with pts := fencePts m w0 f l, posted := if f.kind = .posted then 0 else l.posted } else l
        let put (lane : Nat) (tag : Mask) (w : Warp) : Warp :=
          let x := match laneAt w0 (if isS f.dst then (bitsOf f.lanes).headD 0 else lane) with
            | none => 0
            | some l => fencePts m w0 f l
          (fenceRegs f.kind f.dst).foldl (fun w o => match regOf lane o.1 o.2 with
            | none => w
            | some r => w.arriveReg f.flight r ⟨BitVec.ofNat 32 (x / 2 ^ (32 * o.2)), tag⟩) w
        let w := if isS f.dst then (match f.tags.head? with
            | none => w
            | some t => put t.1 t.2 w)
          else f.tags.foldl (fun w t => put t.1 t.2 w) w
        { (w.endId f.flight) with fence := none }
  | _, _ => m

end Sys2Proof.Machine
end

