-- ==== Sys2Proof/Machine/Engine.lean ====
section
/-! DEFINITION. Class 3 and RELG at issue: CKICK and TIER (R228, R230 to R232, R388, R389, R486), MMA (R211 to R213, R439, R440),
TDRAIN (R484, R485), TALLOC and TFREE (R205 to R210, R482, R483), RELG (R309, R313, R462, R463). -/

namespace Sys2Proof.Machine

/-! ## The 64-byte blocks in scratchpad (R211, R230) -/

/-- What the issue reads: the address, the block as a number, its scratchpad tag, the new pts. -/
structure CmdBlock where
  addr : Nat
  bits : BitVec 512
  tag  : Mask
  pts  : Nat
  deriving DecidableEq, Repr

/-- One scratchpad load of 64 bytes at the address in SRCA. -/
def readCmdBlock (a : Operand) (v : View) (m : Mach) : Except Stop CmdBlock × Mach :=
  let x := (v.val 1 a).toNat
  match m.block? v.q.bid with
  | none => (.error (stopAt .spRange x 64 false), m)
  | some b =>
    if x ≥ 2 ^ 20 ∨ x + 64 > b.spadSize then (.error (stopAt .spRange x 64 false), m)
    else if x % 64 ≠ 0 then (.error (stopAt .misalign x 64 false), m)
    else if spadBadRange b x 64 then (.error (stopAt .data x 64 false), m)
    else
      let (bs, st, m) := m.loadSpad v.q.bid x 64 v.pts
      (.ok ⟨x, BitVec.ofNat 512 (natOfBytes bs), spadTag b x 64, st⟩, m)

/-! ## Engine commands -/

/-- Engine commands issued so far and not completed, with the blocks that issued them. -/
def Mach.allCommands (m : Mach) : List Command :=
  m.cores.cells.flatMap (fun c => c.2.mq ++ c.2.chans.cells.flatMap fun x => x.2.cmds) ++
    m.blocks.cells.flatMap fun b => b.2.keptMx ++ b.2.keptCh.map (·.2)

/-- What REL = 1 waits for (R126): the posted presses of the warp, and the earlier engine commands within the scope. -/
def Mach.relWaits (m : Mach) (v : View) (scp : Nat) : List Nat :=
  let mine (r : PressReq) : Bool := r.lanes.any fun l => l.bid == v.q.bid && l.warp == v.warp
  let near (c : Command) : Bool :=
    if scp = 0 then c.bid == v.q.bid
    else if scp = 1 then v.b.peers.contains c.bid
    else match m.block? c.bid with
      | none => false
      | some b => b.ctx == v.b.ctx
  (m.presses.filter fun r => r.reply.isNone && mine r).flatMap (·.ids) ++ (m.allCommands.filter near).map (·.id)

/-- A command of the issuing warp. -/
def newCommand (id : Nat) (v : View) (op : EngineOp) (addr tile handle : Nat) (tags : Mask) (waits : List Nat) : Command :=
  { id := id, bid := v.q.bid, warp := v.warp, op := op, addr := addr, tile := tile, handle := handle, tags := tags
    flight := some v.id, waits := waits, panel := 0, row := 0, offset := 0, begun := false, fwait := none, ready := false
    stamp := 0 }

def engineOp (h : Head) (g : Guard) (a : Operand) (ready : List View → Mach → Bool)
    (f : View → Mach → Effect × Mach) : Op :=
  { head := h, guard := g, fenced := true, scopes := warpOnly, timing := .open_
    check := fun ow _ => firstBad [(1, admits ow srcVS 1 a)]
    srcs := fun _ => [⟨1, a, 1⟩]
    ready := ready
    run := eachRun f }

/-! ### CKICK and TIER -/

def cmdField (x : BitVec 512) (hi lo : Nat) : Nat := field x.toNat hi lo

/-- Channel numbers of a device on a core that have commands (R177, R231). -/
def Mach.chansBound (m : Mach) (core dev : Nat) : Nat :=
  ((m.core core).chans.cells.filter fun x => !x.2.cmds.isEmpty && deviceOf (x.1 / 8) == dev).length

/-- A channel number takes one more command: it has room, or it can be bound within the quota (R231). -/
def Mach.chanRoom (m : Mach) (mg : Mgmt) (core key : Nat) : Bool :=
  let q := (tabGet (m.core core).chans key ⟨[]⟩).cmds
  let dev := deviceOf (key / 8)
  if q.isEmpty then decide (m.chansBound core dev < (mg.quotas.getD dev Quota.zero).chans) else decide (q.length < 8)

/-- The command can be queued: its channel number takes it, and no kept command of the block goes before it (R231, R238). -/
def kickReady (a : Operand) (vs : List View) (m : Mach) : Bool :=
  match vs with
  | [] => true
  | v :: _ => match (readCmdBlock a v m).1 with
    | .error _ => true
    | .ok c =>
      let n := cmdField c.bits 6 4
      m.chanRoom v.mg v.b.core (8 * v.b.ctx + n) && !(v.b.keptCh.any fun x => x.1 == n)

def kickRun (tier : Bool) (a : Operand) (v : View) (m : Mach) : Effect × Mach :=
  match readCmdBlock a v m with
  | (.error s, m) => (.error s, m)
  | (.ok c, m) =>
    let chan := cmdField c.bits 6 4
    let key := 8 * v.b.ctx + chan
    let waits := if cmdField c.bits 20 20 = 1 then m.relWaits v (cmdField c.bits 22 21) else []
    let (id, m) := m.freshId
    let cmd := newCommand id v (.copy c.bits c.tag tier) c.addr 0 0 (v.tags [⟨1, a, 1⟩] ||| v.base) waits
    let m := m.modCore v.b.core fun x =>
      { x with chans := tabSet x.chans key ⟨(tabGet x.chans key ⟨[]⟩).cmds ++ [cmd]⟩
               kick := BitVec.ofNat 32 (c.addr + chan * 2 ^ 20 + (if tier then 2 ^ 23 else 0)) }
    (.ok { pts := some c.pts }, m)

def opCkickA (i : FormA) : Op := engineOp i.h always i.a (kickReady i.a) (kickRun false i.a)
def execCkickA (i : FormA) (s : State) : Host.Outcome State Fault Refusal := issueOp (.ckickA i) (opCkickA i) s
def opCkickB (i : FormB NoMods) : Op := engineOp i.h i.g i.a (kickReady i.a) (kickRun false i.a)
def execCkickB (i : FormB NoMods) (s : State) : Host.Outcome State Fault Refusal := issueOp (.ckickB i) (opCkickB i) s
def opTierA (i : FormA) : Op := engineOp i.h always i.a (kickReady i.a) (kickRun true i.a)
def execTierA (i : FormA) (s : State) : Host.Outcome State Fault Refusal := issueOp (.tierA i) (opTierA i) s
def opTierB (i : FormB NoMods) : Op := engineOp i.h i.g i.a (kickReady i.a) (kickRun true i.a)
def execTierB (i : FormB NoMods) (s : State) : Host.Outcome State Fault Refusal := issueOp (.tierB i) (opTierB i) s

/-! ### MMA and TDRAIN -/

/-- The matrix queue has room (R212), and no kept command of the block goes before (R222). -/
def mxReady (vs : List View) (m : Mach) : Bool :=
  match vs with
  | [] => true
  | v :: _ => decide ((m.core v.b.core).mq.length < 16) && v.b.keptMx.isEmpty

def Mach.handleOf (m : Mach) (bid h : Nat) : Option Nat := (m.block? bid).bind fun b => tabFind b.handles h

def Mach.queueMx (m : Mach) (core : Nat) (c : Command) : Mach := m.modCore core fun x => { x with mq := x.mq ++ [c] }

def mmaRun (a : Operand) (v : View) (m : Mach) : Effect × Mach :=
  match readCmdBlock a v m with
  | (.error s, m) => (.error s, m)
  | (.ok c, m) =>
    let h := cmdField c.bits 17 14
    match m.handleOf v.q.bid h with
    | none => (.error (Stop.plain (.illOpnd 1)), m)
    | some t =>
      let waits := if cmdField c.bits 49 49 = 1 then m.relWaits v (cmdField c.bits 51 50) else []
      let (id, m) := m.freshId
      let cmd := newCommand id v (.mma c.bits c.tag) c.addr t h (v.tags [⟨1, a, 1⟩] ||| v.base) waits
      (.ok { pts := some c.pts }, m.queueMx v.b.core cmd)

def opMmaA (i : FormA) : Op := engineOp i.h always i.a mxReady (mmaRun i.a)
def execMmaA (i : FormA) (s : State) : Host.Outcome State Fault Refusal := issueOp (.mmaA i) (opMmaA i) s
def opMmaB (i : FormB NoMods) : Op := engineOp i.h i.g i.a mxReady (mmaRun i.a)
def execMmaB (i : FormB NoMods) (s : State) : Host.Outcome State Fault Refusal := issueOp (.mmaB i) (opMmaB i) s

/-- The handle that an operand names. -/
def handleNo : Operand → Option Nat
  | .a n => some n.toNat
  | .v _ | .s _ | .p _ | .zero | .laneId | .warpId | .gangId | .blockId | .coreId | .clusId | .ones | .bad _ => none

def onlyA : Kinds := { a := true }

def tdrainRun (mo : DrainMods) (d a b : Operand) (v : View) (m : Mach) : Effect × Mach :=
  match (handleNo d).bind fun h => (m.handleOf v.q.bid h).map fun t => (h, t) with
  | none => (.error (Stop.plain (.illOpnd 0)), m)
  | some (h, t) =>
    let waits := if mo.rel then m.relWaits v mo.scp.toNat else []
    let (id, m) := m.freshId
    let op := EngineOp.drain mo (v.val64 1 a).toNat (v.val 2 b).toNat
    let cmd := newCommand id v op 0 t h (v.tags [⟨1, a, 2⟩, ⟨2, b, 1⟩] ||| v.base) waits
    (.ok {}, m.queueMx v.b.core cmd)

def opTdrain (i : FormB DrainMods) : Op :=
  { head := i.h, guard := i.g, fenced := true, scopes := warpOnly, timing := .open_
    check := fun ow _ => firstBad [(0, admits ow onlyA 1 i.d), (1, admits ow { s := true, zero := i.m.nomem } 2 i.a),
      (2, admits ow { s := true, zero := i.m.nomem } 1 i.b)]
    srcs := fun _ => [⟨1, i.a, 2⟩, ⟨2, i.b, 1⟩]
    ready := mxReady
    run := eachRun (tdrainRun i.m i.d i.a i.b) }
def execTdrain (i : FormB DrainMods) (s : State) : Host.Outcome State Fault Refusal := issueOp (.tdrain i) (opTdrain i) s

/-! ## Tiles -/

def tileMax (m : Mach) (b : Block) : Nat := ((m.recOf b).map (·.tmax)).getD 0
def tileGuar (m : Mach) (b : Block) : Nat := ((m.recOf b).map (·.tguar)).getD 0
def freshTile (bid : Nat) : Tile :=
  { words := ⟨[]⟩, type := .either, valid := true, tag := 0, owner := bid, free := none }

/-- A status word of R208. -/
def tileStatus (code mask : Nat) : Word := BitVec.ofNat 32 (mask + code * 2 ^ 16)

/-- The lanes of the element set, warp by warp. -/
def setWarps (v : View) : List (Nat × LaneMask) :=
  (dedup (v.set.map (·.warp))).map fun w => (w, maskOf ((v.set.filter (·.warp == w)).map (·.lane)))

def tallocRun (n : Nat) (d : Operand) (v : View) (m : Mach) : Effect × Mach :=
  match m.block? v.q.bid with
  | none => (.ok {}, m)
  | some b =>
    if b.handles.cells.length + n > tileMax m b then (.ok { outs := outW d (tileStatus 2 0), closed := true }, m)
    else
      let r : TileReq :=
        { bid := v.q.bid, warp := v.warp, n := n, dst := d, tags := v.base
          lanes := (setWarps v).map fun x => (x.1, x.2, some v.id), id := v.id }
      (.ok { owed := if isZero d then [] else [(d, 0)], next := .wait .talloc },
       m.modCore b.core fun c => { c with tileQ := c.tileQ ++ [r] })

def opTalloc (i : FormC NoMods) : Op :=
  { head := i.h, guard := i.g, fenced := true, scopes := { warp := true, block := true }, timing := .open_
    check := fun ow _ => firstBad [(0, admits ow { s := ow.wide, zero := true } 1 i.d),
      (2, decide (1 ≤ i.imm.toNat) && decide (i.imm.toNat ≤ 16))]
    srcs := fun _ => []
    run := eachRun (tallocRun i.imm.toNat i.d) }
def execTalloc (i : FormC NoMods) (s : State) : Host.Outcome State Fault Refusal := issueOp (.talloc i) (opTalloc i) s

def releaseLanes (now : Nat) (lanes : LaneMask) (w : Warp) : Warp :=
  modLanes w fun i l => if lanes.getLsbD i && l.st == .waiting .talloc then l.readyAt l.afterPc now else l

/-- The answer to a waiting request: the status in every member's scalar, the lanes go on, the slot falls (R207, R482). -/
def Mach.answerTile (m : Mach) (mg : Mgmt) (core : Nat) (r : TileReq) (status : Word) : Mach :=
  let m := m.modCore core fun c => { c with tileQ := c.tileQ.filter (·.id != r.id) }
  r.lanes.foldl (fun m x =>
    let m := m.modWarp r.bid x.1 fun w =>
      let w := match regOf 0 r.dst 0 with
        | none => w
        | some n => w.arriveReg r.id n ⟨status, r.tags⟩
      (releaseLanes m.cycle x.2.1 w).endId r.id
    m.settleWarp mg r.bid x.1) m

/-- TALLOC_GRANT (R207). -/
def Mach.tallocGrant (m : Mach) (mg : Mgmt) (core : Nat) : Mach :=
  match (m.core core).tileQ with
  | [] => m
  | r :: _ =>
    match m.block? r.bid with
    | none => m.modCore core fun c => { c with tileQ := c.tileQ.drop 1 }
    | some b =>
      let freeT := (List.range 16).filter fun t => !tabHas (m.core core).tiles t
      let freeH := (List.range 16).filter fun h => !tabHas b.handles h
      if !b.resident || freeT.length < r.n || freeH.length < r.n then m
      else
        let pairs := (freeH.take r.n).zip (freeT.take r.n)
        let m := m.modCore core fun c => { c with tiles := pairs.foldl (fun t p => tabSet t p.2 (freshTile r.bid)) c.tiles }
        let m := m.setBlock r.bid { b with handles := pairs.foldl (fun t p => tabSet t p.1 p.2) b.handles }
        m.answerTile mg core r (tileStatus 0 ((maskOf (freeH.take r.n)).toNat))

/-- A lane that can issue (R41). -/
def readyLane (w : Warp) (l : Lane) : Bool := l.st == .ready && !w.suspended

/-- A block is stalled when no warp of it that has not ended has a ready lane (R209). -/
def Block.stalled (b : Block) : Bool := (tabVals b.warps).all fun w => !(w.lanes.any (readyLane w))

/-- The order of blocks (R209): dispatch order of the launch, then the block's index. -/
def Mach.blockOrder (m : Mach) (bid : Nat) : Nat × Nat :=
  match m.block? bid with
  | none => (0, 0)
  | some b => (((m.launch? b.launch).bind (·.order)).getD 0, b.index)

/-- TILE_ARBITER_FAIL (R209); `fuel` bounds the repetitions. The repeated test counts the blocks of the first one, so that a
failure whose block goes on ends it (the example of R210). -/
def Mach.tileArbiter (m : Mach) (mg : Mgmt) (core : Nat) : Nat → List Nat → Mach
  | 0, _ => m
  | fuel + 1, counted =>
    let q := (m.core core).tileQ
    let blocks := dedup (q.map (·.bid))
    let stalled (bid : Nat) : Bool := match m.block? bid with
      | none => false
      | some b => b.stalled
    if blocks.isEmpty || !((blocks ++ counted).all stalled) then m
    else
      let last := blocks.foldl (fun o b => match o with
        | none => some b
        | some x =>
          let p := m.blockOrder x
          let r := m.blockOrder b
          if p.1 < r.1 || (p.1 == r.1 && decide (p.2 < r.2)) then some b else some x) (none : Option Nat)
      match last.bind fun bid => (q.filter (·.bid == bid)).getLast? with
      | none => m
      | some r => Mach.tileArbiter (m.answerTile mg core r (tileStatus 1 0)) mg core fuel (blocks ++ counted)

def tfreeRun (a : Operand) (v : View) (m : Mach) : Effect × Mach :=
  match m.block? v.q.bid with
  | none => (.ok {}, m)
  | some b =>
    match (handleNo a).bind fun h => (tabFind b.handles h).map fun t => (h, t) with
    | none => (.error (Stop.plain (.illOpnd 1)), m)
    | some (h, t) =>
      if h < tileGuar m b then (.error (Stop.plain (.illOpnd 1)), m)
      else
        let waits := (((m.core b.core).mq ++ b.keptMx).filter fun c => c.bid == v.q.bid && c.tile == t).map (·.id)
        let flights := (setWarps v).map fun x => (x.1, v.id)
        let m := m.setBlock v.q.bid { b with handles := tabErase b.handles h }
        (.ok {}, m.modCore b.core fun c =>
          { c with tiles := tabMod c.tiles t fun x => { x with free := some (waits, flights) } })

def opTfree (i : FormA) : Op :=
  { head := i.h, fenced := true, scopes := { warp := true, block := true }, timing := .open_
    check := fun ow _ => firstBad [(1, admits ow onlyA 1 i.a)]
    srcs := fun _ => []
    run := eachRun (tfreeRun i.a) }
def execTfree (i : FormA) (s : State) : Host.Outcome State Fault Refusal := issueOp (.tfree i) (opTfree i) s

/-- TFREE_RELEASE (R210): no command queued before the TFREE names the tile any more. -/
def Mach.tfreeRelease (m : Mach) (core tile : Nat) : Mach :=
  match tabFind (m.core core).tiles tile with
  | none => m
  | some t => match t.free with
    | none => m
    | some (waits, flights) =>
      if m.allCommands.any fun c => waits.contains c.id then m
      else
        let m := m.modCore core fun c => { c with tiles := tabErase c.tiles tile }
        flights.foldl (fun m f => m.modWarp t.owner f.1 fun w => w.endId f.2) m

/-! ## RELG -/

def relgRun (d a : Operand) (v : View) (m : Mach) : Effect × Mach :=
  match readCmdBlock a v m with
  | (.error s, m) => (.error s, m)
  | (.ok c, m) =>
    let mine (r : PressReq) : Bool := r.reply.isNone && r.lanes.any fun l => l.bid == v.q.bid && l.warp == v.warp
    let (id, m) := m.freshId
    let g : GateReq :=
      { id := id, bid := v.q.bid, warp := v.warp, ctx := v.b.ctx, launch := v.b.launch, block := c.bits, blockTag := c.tag
        tags := v.tags [⟨1, a, 1⟩] ||| v.base, dst := d, flight := v.id
        waits := (m.presses.filter mine).flatMap (·.ids) }
    (.ok { owed := if isZero d then [] else [(d, 0)], pts := some c.pts }, { m with gate := m.gate ++ [g] })

def opRelg (i : FormB NoMods) : Op :=
  { head := i.h, guard := i.g, fenced := true, scopes := warpOnly, timing := .open_
    check := fun ow _ => firstBad [(0, admits ow { s := ow.wide, zero := true } 1 i.d), (1, admits ow srcVS 1 i.a)]
    srcs := fun _ => [⟨1, i.a, 1⟩]
    ready := fun vs m => vs.isEmpty || decide (m.gate.length < 64)
    run := eachRun (relgRun i.d i.a) }
def execRelg (i : FormB NoMods) (s : State) : Host.Outcome State Fault Refusal := issueOp (.relg i) (opRelg i) s

end Sys2Proof.Machine
end

