-- ==== Sys2Proof/Machine/System.lean ====
section
/-! DEFINITION. Control and status registers: CSRD and CSRW (R26 to R31, R390 to R393) and the registers they name. -/

namespace Sys2Proof.Machine

/-- Width in registers of a CSR that programs can read (R391). -/
def csrWords (n : Nat) : Option Nat :=
  if n = 0x100 ∨ n = 0x103 ∨ n = 0x104 ∨ n = 0x140 ∨ (0x130 ≤ n ∧ n ≤ 0x137) then some 2
  else if n = 0x101 ∨ n = 0x102 ∨ (0x110 ≤ n ∧ n ≤ 0x114) ∨ n = 0x120 ∨ (0x138 ≤ n ∧ n ≤ 0x13F) then some 1
  else none

/-- CSRs to which CSRW is not refused. -/
def csrWritable (n : Nat) : Bool := (csrWords n).isSome && !(decide (0x111 ≤ n) && decide (n ≤ 0x113))

/-- MX.PROG for a reading block (R221). -/
def mxProg (c : Core) (bid : Nat) : BitVec 64 :=
  match c.mq.head? with
  | none => 0
  | some x =>
    if x.bid ≠ bid ∨ !x.begun then 0
    else BitVec.ofNat 64 (x.panel + x.row * 2 ^ 16 + x.handle * 2 ^ 24 + 2 ^ 28 + (if x.fwait.isSome then 2 ^ 29 else 0))

/-- CH.STAT (R235). -/
def chStat (c : Core) (key : Nat) : BitVec 64 :=
  let q := (tabGet c.chans key ⟨[]⟩).cmds
  let head (f : Command → Bool) : Nat := match q.head? with
    | none => 0
    | some x => if f x then 1 else 0
  BitVec.ofNat 64 (q.length + head (fun x => x.begun || x.fwait.isSome) * 16 + head (·.fwait.isSome) * 32)

/-- CORE.SPLIT (R96). -/
def Ctx.splitWord (c : Ctx) : Nat := c.spadSet.toNat + (if c.clamp then 256 else 0)

/-- The value that a read returns. DESIGN CHOICE (log 91): every hive reads one count in CLK.REF, where R393 allows 2 ticks between
hives. -/
def csrValue (v : View) (m : Mach) (n : Nat) : BitVec 64 :=
  let c := m.ctx v.b.ctx
  let core := m.core v.b.core
  if n = 0x100 then Config.capCore
  else if n = 0x101 then Config.capAtom.setWidth 64
  else if n = 0x102 then Config.capFmt.setWidth 64
  else if n = 0x103 then Config.capPress
  else if n = 0x104 then Config.capSys v.mg.modid (BitVec.ofNat 6 v.mg.ports.length)
  else if n = 0x110 then c.binTimer.setWidth 64
  else if n = 0x111 then BitVec.ofNat 64 c.splitWord
  else if n = 0x112 then c.wdogInt.setWidth 64
  else if n = 0x113 then c.wdogExt.setWidth 64
  else if n = 0x114 then (if c.check then 1 else 0)
  else if n = 0x120 then mxProg core v.q.bid
  else if n < 0x138 then tabGet core.wptr (8 * v.b.ctx + (n - 0x130)) 0
  else if n < 0x140 then chStat core (8 * v.b.ctx + (n - 0x138))
  else m.refTicks

/-- A read of CH.WPTR observes the completions it covers, where the reader lies in their scope (R127, R393). -/
def wptrStamp (v : View) (m : Mach) (n : Nat) : Nat :=
  if n < 0x130 ∨ n > 0x137 then 0
  else (tabGet (m.core v.b.core).wacq (8 * v.b.ctx + (n - 0x130)) []).foldl (fun t x =>
    if x.scp ≥ 2 || x.bid == v.q.bid || (x.scp == 1 && v.b.peers.contains x.bid) then max t x.stamp else t) 0

def opCsrd (i : FormC NoMods) : Op :=
  let n := i.imm.toNat
  { head := i.h, guard := i.g, fenced := true, scopes := allScopes, timing := .later
    check := fun ow _ => firstBad [(0, admits ow (dstVS ow) ((csrWords n).getD 1) i.d), (2, (csrWords n).isSome)]
    srcs := fun _ => []
    run := eachRun fun v m =>
      let x := csrValue v m n
      (.ok { outs := if csrWords n = some 2 then out64 i.d x else outW i.d (x.setWidth 32), pts := some (wptrStamp v m n) }, m) }
def execCsrd (i : FormC NoMods) (s : State) : Host.Outcome State Fault Refusal := issueOp (.csrd i) (opCsrd i) s

/-- The value waits for the completion of the instruction (R393). -/
def opCsrw (i : FormC NoMods) : Op :=
  { head := i.h, guard := i.g, fenced := true, scopes := warpOnly, timing := .open_
    check := fun ow _ => firstBad [(1, admits ow srcVSZ 1 i.a), (2, csrWritable i.imm.toNat)]
    srcs := fun _ => [⟨1, i.a, 1⟩]
    run := eachRun fun v m =>
      (.ok {}, m.modWarp v.q.bid v.warp fun w => { w with csrw := w.csrw ++ [(v.id, i.imm.toNat, v.val 1 i.a)] }) }
def execCsrw (i : FormC NoMods) (s : State) : Host.Outcome State Fault Refusal := issueOp (.csrw i) (opCsrw i) s

/-- What a completed CSRW changes: BIN.TIMER (R57) and CORE.CHECK (R355); every other register ignores it. -/
def Ctx.csrWrite (c : Ctx) (n : Nat) (x : Word) : Ctx :=
  if n = 0x110 then { c with binTimer := x.setWidth 18 }
  else if n = 0x114 then { c with check := x.getLsbD 0 }
  else c

/-- LATENCY_V_RESULT (R352): the last result of an instruction takes effect, its slot falls. -/
def Mach.latencyResult (m : Mach) (bid warp id : Nat) : Mach :=
  match m.block? bid, m.warp? bid warp with
  | some b, some w => match w.flights.find? (·.id == id) with
    | none => m
    | some f =>
      match w.csrw.find? (·.1 == id) with
      | some x =>
        let m := m.modCtx b.ctx fun c => c.csrWrite x.2.1 x.2.2
        m.modWarp bid warp fun w => { (endFlight w f) with csrw := w.csrw.filter (·.1 != id) }
      | none => if f.done && f.due.isNone then m.modWarp bid warp fun w => endFlight w f else m
  | _, _ => m

end Sys2Proof.Machine
end

