-- ==== Sys2Proof/Machine/Operation.lean ====
section
/-! DEFINITION. The operation of each encoded instruction, for the steps that execute one after its issue: a rendezvous (R74)
and a load that waited for wrings (R148). -/

namespace Sys2Proof.Machine

/-- The operation of an instruction form; none for a step of the part. -/
def opOf (i : Instr) : Option Op :=
  match i with
  | .nop i => some (opNop i)
  | .exitA i => some (opExitA i)
  | .exitB i => some (opExitB i)
  | .bra i => some (opBra i)
  | .brxA i => some (opBrxA i)
  | .brxB i => some (opBrxB i)
  | .call i => some (opCall i)
  | .callxA i => some (opCallxA i)
  | .callxB i => some (opCallxB i)
  | .retA i => some (opRetA i)
  | .retB i => some (opRetB i)
  | .wjoin i => some (opWjoin i)
  | .yield i => some (opYield i)
  | .trap i => some (opTrap i)
  | .signalA i => some (opSignalA i)
  | .signalB i => some (opSignalB i)
  | .spawn i => some (opSpawn i)
  | .spawnRetry _ _ => none
  | .binTimerExpiry _ _ => none
  | .broodWarpLaunch _ => none
  | .gangA i => some (opGangA i)
  | .gangB i => some (opGangB i)
  | .iaddB i => some (opIaddB i)
  | .iaddC i => some (opIaddC i)
  | .isubB i => some (opIsubB i)
  | .isubC i => some (opIsubC i)
  | .imulB i => some (opImulB i)
  | .imulC i => some (opImulC i)
  | .imad i => some (opImad i)
  | .imadw i => some (opImadw i)
  | .iminB i => some (opIminB i)
  | .iminC i => some (opIminC i)
  | .imaxB i => some (opImaxB i)
  | .imaxC i => some (opImaxC i)
  | .iabsA i => some (opIabsA i)
  | .iabsB i => some (opIabsB i)
  | .icmpB i => some (opIcmpB i)
  | .icmpC i => some (opIcmpC i)
  | .isel i => some (opIsel i)
  | .andB i => some (opAndB i)
  | .andC i => some (opAndC i)
  | .orB i => some (opOrB i)
  | .orC i => some (opOrC i)
  | .xorB i => some (opXorB i)
  | .xorC i => some (opXorC i)
  | .shlB i => some (opShlB i)
  | .shlC i => some (opShlC i)
  | .shrB i => some (opShrB i)
  | .shrC i => some (opShrC i)
  | .sarB i => some (opSarB i)
  | .sarC i => some (opSarC i)
  | .bfeB i => some (opBfeB i)
  | .bfeC i => some (opBfeC i)
  | .bfi i => some (opBfi i)
  | .popcA i => some (opPopcA i)
  | .popcB i => some (opPopcB i)
  | .clzA i => some (opClzA i)
  | .clzB i => some (opClzB i)
  | .brevA i => some (opBrevA i)
  | .brevB i => some (opBrevB i)
  | .leaB i => some (opLeaB i)
  | .leaC i => some (opLeaC i)
  | .movA i => some (opMovA i)
  | .movB i => some (opMovB i)
  | .movi i => some (opMovi i)
  | .movsA i => some (opMovsA i)
  | .movsB i => some (opMovsB i)
  | .taggetA i => some (opTaggetA i)
  | .taggetB i => some (opTaggetB i)
  | .padd i => some (opPadd i)
  | .psub i => some (opPsub i)
  | .pmin i => some (opPmin i)
  | .pmax i => some (opPmax i)
  | .pcmp i => some (opPcmp i)
  | .pdot4 i => some (opPdot4 i)
  | .faddB i => some (opFaddB i)
  | .faddC i => some (opFaddC i)
  | .fmulB i => some (opFmulB i)
  | .fmulC i => some (opFmulC i)
  | .ffma i => some (opFfma i)
  | .fminB i => some (opFminB i)
  | .fminC i => some (opFminC i)
  | .fmaxB i => some (opFmaxB i)
  | .fmaxC i => some (opFmaxC i)
  | .fcmpB i => some (opFcmpB i)
  | .fcmpC i => some (opFcmpC i)
  | .frnd i => some (opFrnd i)
  | .hadd2 i => some (opHadd2 i)
  | .hmul2 i => some (opHmul2 i)
  | .hfma2 i => some (opHfma2 i)
  | .hmax2 i => some (opHmax2 i)
  | .frcpA i => some (opFrcpA i)
  | .frcpB i => some (opFrcpB i)
  | .frsqA i => some (opFrsqA i)
  | .frsqB i => some (opFrsqB i)
  | .fsqrtA i => some (opFsqrtA i)
  | .fsqrtB i => some (opFsqrtB i)
  | .fexp2A i => some (opFexp2A i)
  | .fexp2B i => some (opFexp2B i)
  | .flog2A i => some (opFlog2A i)
  | .flog2B i => some (opFlog2B i)
  | .fsinA i => some (opFsinA i)
  | .fsinB i => some (opFsinB i)
  | .fcosA i => some (opFcosA i)
  | .fcosB i => some (opFcosB i)
  | .cvt i => some (opCvt i)
  | .cvtq i => some (opCvtq i)
  | .hadqA i => some (opHadqA i)
  | .hadqB i => some (opHadqB i)
  | .shflB i => some (opShflB i)
  | .shflC i => some (opShflC i)
  | .vote i => some (opVote i)
  | .redw i => some (opRedw i)
  | .scanw i => some (opScanw i)
  | .matchw i => some (opMatchw i)
  | .ldB i => some (opLdB i)
  | .ldC i => some (opLdC i)
  | .stB i => some (opStB i)
  | .stC i => some (opStC i)
  | .ldsB i => some (opLdsB i)
  | .ldsC i => some (opLdsC i)
  | .stsB i => some (opStsB i)
  | .stsC i => some (opStsC i)
  | .ldlB i => some (opLdlB i)
  | .ldlC i => some (opLdlC i)
  | .stlB i => some (opStlB i)
  | .stlC i => some (opStlC i)
  | .ldb i => some (opLdb i)
  | .wrungLoadPerform _ => none
  | .prefB i => some (opPrefB i)
  | .prefC i => some (opPrefC i)
  | .atom i => some (opAtom i)
  | .cas i => some (opCas i)
  | .sbin i => some (opSbin i)
  | .fence i => some (opFence i)
  | .fenceComplete _ _ => none
  | .press i => some (opPress i)
  | .pressr i => some (opPressr i)
  | .pdef i => some (opPdef i)
  | .pdrop i => some (opPdrop i)
  | .pdropComplete _ _ => none
  | .binit i => some (opBinit i)
  | .barv i => some (opBarv i)
  | .bwait i => some (opBwait i)
  | .btest i => some (opBtest i)
  | .bexp i => some (opBexp i)
  | .ckickA i => some (opCkickA i)
  | .ckickB i => some (opCkickB i)
  | .tierA i => some (opTierA i)
  | .tierB i => some (opTierB i)
  | .mmaA i => some (opMmaA i)
  | .mmaB i => some (opMmaB i)
  | .talloc i => some (opTalloc i)
  | .tallocGrant _ => none
  | .tfree i => some (opTfree i)
  | .tfreeRelease _ _ => none
  | .tdrain i => some (opTdrain i)
  | .relg i => some (opRelg i)
  | .csrd i => some (opCsrd i)
  | .csrw i => some (opCsrw i)
  | .rendezvousExecute _ _ => none
  | .blockRetirement _ => none
  | .stampTick _ => none
  | .pressApplication _ => none
  | .channelPressApplication _ => none
  | .channelAck _ => none
  | .combineEntryTimeout _ _ => none
  | .remotePressRequest _ => none
  | .trackerAgeDrain _ _ => none
  | .drainApply _ => none
  | .umonInterval _ => none
  | .mmaCommandStart _ => none
  | .mmaComplete _ => none
  | .tdrainExecute _ => none
  | .copyCommandStart _ _ _ => none
  | .copyComplete _ _ _ => none
  | .tierPageMove _ _ _ => none
  | .lqRingWrite _ _ => none
  | .lqWake _ _ => none
  | .launchRecordRead _ => none
  | .launchDispatch _ => none
  | .blockPlacement _ => none
  | .launchBlocking _ => none
  | .preemptDeadlineExpiry _ => none
  | .contextSwitchOut _ => none
  | .watchdogInternal _ => none
  | .watchdogExternal _ => none
  | .wdogWrite _ _ _ => none
  | .coreSplitWrite _ _ => none
  | .warpSuspendTimeout _ _ => none
  | .faultEntryWrite _ => none
  | .resume _ _ => none
  | .discard _ _ => none
  | .resolve _ _ => none
  | .failpg _ _ => none
  | .abort _ _ => none
  | .reset _ => none
  | .tlbInv _ _ => none
  | .tlbInvComplete _ => none
  | .blockSave _ => none
  | .arrivalLogAppend _ _ => none
  | .logRefusalRetry _ _ => none
  | .releaseGateProcess => none
  | .hostMemoryRequest _ => none
  | .peerModuleRequest _ => none
  | .ideCounterLimit _ => none
  | .ideKeyTimeout _ => none
  | .lockInterface _ => none
  | .auditWalk _ => none
  | .lockedRegisterWrite _ _ _ => none
  | .functionLevelReset _ => none
  | .scrubGranule _ => none
  | .linkPortFailure _ => none
  | .linkTargetTimeout _ => none
  | .alertBackoff _ => none
  | .throttleStep _ => none
  | .status _ => none
  | .preempt _ _ => none
  | .restore _ _ => none
  | .pooladd _ _ _ _ => none
  | .setaper _ _ _ => none
  | .checkpoint _ => none
  | .sleep _ => none
  | .sleepWake => none
  | .keyprov _ _ _ => none
  | .assign _ _ _ _ => none
  | .grant _ _ _ => none
  | .powercap _ _ => none
  | .debug _ _ => none
  | .dumprd _ => none
  | .fatalError => none
  | .securityAlarm => none
  | .l2ProtWrite _ => none
  | .l2UmonWrite _ => none
  | .quotaWrite _ _ _ => none
  | .registerWrite _ _ _ => none
  | .capacityTierSupplyLoss => none
  | .powerUp => none
  | .dieReset _ _ _ => none
  | .linkTraining _ => none
  | .systemConfiguration _ => none
  | .missedLinkHeartbeats _ => none
  | .ideKeySetSelection _ _ => none
  | .ideCounterWarning _ => none
  | .spdmSessionEstablishment _ => none
  | .contextCreation _ => none
  | .contextDestruction _ => none
  | .latencyVResult _ _ _ => none
  | .postedWriteFailure _ _ => none
  | .softError _ => none
  | .functionResetComplete _ => none

end Sys2Proof.Machine
end

