-- ==== Sys2Proof/Machine/Issue.lean ====
section
/-! DEFINITION. How a scheduler chooses and readies an instruction: group selection (R42, R43), clause fetch and its check (R338,
R339), the wait mask (R353), decode (R341, R348), the choice among warps (R262, R264). -/

namespace Sys2Proof.Machine

/-! ## Group selection -/

def readyAtPc (w : Warp) : List (Nat × Lane) := if w.suspended then [] else (indexed w.lanes).filter fun x => x.2.st == .ready

/-- The group that holds the oldest ready lane, ties to the lowest lane (R43). -/
def Warp.pickGroup (w : Warp) : LaneMask :=
  let r := readyAtPc w
  match oldestLane r with
  | none => 0
  | some o => maskOf ((r.filter fun x => x.2.pc == o.2.pc).map (·.1))

/-- A group selection, where none holds (R42). -/
def Warp.select (w : Warp) : Warp := if w.group = 0 then { w with group := w.pickGroup } else w

/-- Selections fall due at once, whatever brings them about. -/
def Mach.selectAll (m : Mach) : Mach :=
  { m with blocks := tabMap (fun b => if b.resident then { b with warps := tabMap Warp.select b.warps } else b) m.blocks }

/-! ## Clause entry -/

/-- The code words of this module's memory at a physical address (R128): as they stood at the launch's start stamp; a word that a
launch has written since is the old or the new one (log 25). -/
def Mach.codeWords (m : Mach) (launch : Nat) (view : Option (Option Nat)) (pa : Nat) : Nat → List Byte × Mach
  | 0 => ([], m)
  | n + 1 =>
    let new := m.viewBytes view pa 4
    let (w, m) := match (m.launch? launch).bind fun l => l.code.map fun c => (l.start, c) with
      | none => (new, m)
      | some (start, c) =>
        let st := (m.lineStamps (lineOf pa)).wts
        let old := ({ m with mem := c.mem, side := c.side, scrub := c.scrub } : Mach).viewBytes view pa 4
        if st ≤ start then (new, m)
        else if old = new ∨ tabFind m.outside (lineOf pa) = some st then (old, m)
        else (if Config.codeRace m.free then new else old, { m with free := m.free + 1 })
    let (r, m) := m.codeWords launch view (pa + 4) n
    (w ++ r, m)

/-- Bytes of code at a virtual address, outside the total order (R128): the bytes, or the DETAIL of FETCH. -/
def Mach.fetchPiece (m : Mach) (mg : Mgmt) (a : Actor) (va n : Nat) : Except Nat (List Byte) × Mach :=
  match m.translate a va with
  | (.error _, m) => (.error 0, m)
  | (.ok l, m) =>
    match m.placeOf mg a.ctx l va with
    | .error _ => (.error 0, m)
    | .ok p =>
      if !l.x || (l.sealed && (m.worldOf a.launch).isNone) then (.error 1, m)
      else match p with
        | .dev pa =>
          if m.badRange (m.viewOf a l) pa n then (.error 2, m)
          else
            let (bs, m) := m.codeWords a.launch (m.viewOf a l) pa (n / 4)
            (.ok bs, m)
        | .host h => if m.hostDead a.ctx then (.error 2, m) else (.ok (m.farRead (.host h) n), m.touchHost a.ctx)
        | .peer k pa => if m.unreach.contains k || m.peerBadRange k pa n then (.error 2, m) else (.ok (m.farRead (.peer k pa) n), m)
        | .spad _ _ => (.error 0, m)

def Mach.fetchPieces (m : Mach) (mg : Mgmt) (a : Actor) : List (Nat × Nat) → Except Nat (List Byte) × Mach
  | [] => (.ok [], m)
  | (va, n) :: r => match m.fetchPiece mg a va n with
    | (.error d, m) => (.error d, m)
    | (.ok bs, m) => match m.fetchPieces mg a r with
      | (.error d, m) => (.error d, m)
      | (.ok cs, m) => (.ok (bs ++ cs), m)

/-- The header check of R338. -/
def headerOk (h : Word) : Bool :=
  headerN h != 0 && decide (headerClass h < 6) && h.extractLsb' 0 3 == 0 && decide (headerExt h < 2 ^ headerN h)

/-- The words of a clause, or the cause that its entry raises (R338, R339). -/
def Mach.fetchClause (m : Mach) (mg : Mgmt) (a : Actor) (va : Nat) : Except Cause (List Word) × Mach :=
  match m.fetchPieces mg a [(va, 4)] with
  | (.error d, m) => (.error (.fetch d), m)
  | (.ok bs, m) =>
    let h := wordOfBytes bs
    match m.fetchPieces mg a (pagePieces va (4 * clauseWords h)) with
    | (.error d, m) => (.error (.fetch d), m)
    | (.ok bs, m) => if headerOk h then (.ok (wordsOfBytes bs), m) else (.error .illClause, m)

/-- Who fetches. -/
def Block.fetcher (b : Block) : Actor := ⟨b.ctx, b.launch, b.core, true, false⟩

/-- A stop at clause entry: the access is the clause, reported against index 0 (R339). -/
def entryStop (c : Cause) (pc : BitVec 48) : Stop :=
  match c with
  | .fetch _ => ⟨c, pc.toNat, 2, false⟩
  | _ => Stop.plain c

/-- Give the fetched words to the lanes of the group. -/
def setCode (g : LaneMask) (ws : List Word) (w : Warp) : Warp :=
  modLanes w fun i l => if g.getLsbD i then { l with code := ws } else l

/-! ## The next instruction of a warp -/

/-- What a warp would issue. -/
inductive Turn where
  /-- Nothing can issue now. -/
  | wait
  /-- The group was stopped before any instruction could issue. -/
  | stopped
  | run (q : Issue) (i : Instr)
  deriving DecidableEq, Repr

/-- The issue of instruction `index` of a fetched clause. -/
def issueFor (bid warp : Nat) (g : LaneMask) (pc : Pc) (h : Word) : Issue :=
  { bid := bid, warp := warp, lanes := g, pc := pc, widx := wordIndex h pc.index, ninstr := headerN h, yield := headerYield h
    next := pc.clause + BitVec.ofNat 48 (4 * clauseWords h) }

/-- The words of instruction i: its second where EXT says so (R337). -/
def instrWords (code : List Word) (h : Word) (i : Nat) : Word × Option Word :=
  let k := wordIndex h i
  (code.getD k 0, if (headerExt h).testBit i then some (code.getD (k + 1) 0) else none)

/-- The class of the instruction is the clause's, or it is NOP (R341). -/
def classOk (h w0 : Word) : Bool :=
  let op := (w0.extractLsb' 24 8).toNat
  op == 0 || opClass op == some (headerClass h)

/-- The lanes whose guard is true, of words that need not decode: the guard field of a second word (R346). -/
def rawActive (m : Mach) (w : Warp) (rank : Nat) (g : LaneMask) (w1 : Option Word) : LaneMask :=
  match w1 with
  | none => g
  | some x =>
    let gd := Guard.ofCode (x.extractLsb' 0 4)
    maskOf <| (bitsOf g).filter fun i => activeBits 32 (guardBits gd (w.guardReg m.free i gd (32 * rank + i)))

/-- An instruction that does not decode, or is outside the clause's class, stops the group with ILLINSTR (R341, R348). -/
def Mach.rejectInstr (m : Mach) (mg : Mgmt) (q : Issue) (b : Block) (w : Warp) (w0 : Word) (w1 : Option Word) : Mach :=
  let scope := Scope.ofCode (w0.extractLsb' 22 2)
  let rank := match m.setOf b scope q.warp with
    | none => 0
    | some (_, members) => (members.findIdx? (· == q.warp)).getD 0
  let active := match decodeWords w0 w1 with
    | .error _ => rawActive m w rank q.lanes w1
    | .ok i => match opOf i with
      | none => rawActive m w rank q.lanes w1
      | some op => op.activeOf m.free w rank q.lanes
  m.stopGroup mg q b scope active (Stop.plain (.illInstr 0))

/-- Lanes that waited for a write slot observe the completions that it stands for (R127, R218). -/
def observeSlots (g : LaneMask) (h : Word) (w : Warp) : Warp :=
  let st := (List.range 6).foldl (fun t j => if (headerWait h).testBit j then max t (tabGet w.slotAcq j 0) else t) 0
  if st = 0 then w else modLanes w fun i l => if g.getLsbD i then { l with pts := max l.pts st } else l

/-- The turn of a warp with its chosen group, its clause fetched: the wait mask (R353), then decode. -/
def Mach.turnOfGroup (m : Mach) (mg : Mgmt) (bid warp : Nat) (b : Block) (w : Warp) (pc : Pc) (code : List Word) : Turn × Mach :=
  let h := code.headD 0
  let waits := pc.index == 0 && (List.range 6).any fun j => (headerWait h).testBit j && w.ws.getD j 0 != 0
  if waits then (.wait, m)
  else
    let q := issueFor bid warp w.group pc h
    let (w0, w1) := instrWords code h pc.index
    let reject : Turn × Mach := (.stopped, m.rejectInstr mg q b w w0 w1)
    if !classOk h w0 then reject
    else match decodeWords w0 w1 with
      | .error _ => reject
      | .ok i => match opOf i with
        | none => (.wait, m)
        | some op =>
          let m := if pc.index = 0 then m.modWarp bid warp (observeSlots w.group h) else m
          if op.canIssue mg q m then (.run q i, m) else (.wait, m)

/-- The turn of a warp: a group is selected, its clause is fetched at entry. -/
def Mach.turnOfWarp (m : Mach) (mg : Mgmt) (bid warp : Nat) : Turn × Mach :=
  let m := m.modWarp bid warp Warp.select
  match m.block? bid, m.warp? bid warp with
  | some b, some w =>
    match (bitsOf w.group).head?.bind (laneAt w) with
    | none => (.wait, m)
    | some l =>
      if l.pc.index ≠ 0 ∨ !l.code.isEmpty then m.turnOfGroup mg bid warp b w l.pc l.code
      else match m.fetchClause mg b.fetcher l.pc.clause.toNat with
        | (.error c, m') =>
          let m := { m' with stalled := false }
          let q : Issue :=
            { bid := bid, warp := warp, lanes := w.group, pc := l.pc, widx := 0, ninstr := 0, yield := false, next := l.pc.clause }
          (.stopped, m.stopGroup mg q b .lane w.group (entryStop c l.pc.clause))
        | (.ok ws, m') =>
          if m'.stalled then (.wait, m)
          else
          let m := m'
          let w' := setCode w.group ws w
          (m.modWarp bid warp (setCode w.group ws)).turnOfGroup mg bid warp b w' l.pc ws
  | _, _ => (.wait, m)

/-! ## The choice of a scheduler -/

/-- A warp that no stall, suspension or unfinished instruction keeps from issuing (R349, R265). -/
def Mach.mayIssue (m : Mach) (b : Block) (w : Warp) : Bool :=
  b.resident && !w.suspended && w.block.isNone && decide (w.stall ≤ m.cycle) && (m.ctx b.ctx).run != .switchedOut

/-- A scheduler issues one warp in a cycle (R262). -/
def Mach.hasIssued (m : Mach) (core sched : Nat) : Bool := tabFind (m.core core).issued sched == some m.cycle
def Mach.markIssued (m : Mach) (core sched : Nat) : Mach :=
  m.modCore core fun c => { c with issued := tabSet c.issued sched m.cycle }

/-- The warps of scheduler `sched` of a core that may issue, oldest first, ties to the lowest slot (R261, R262); those that a
yield hint holds back come after the others (R264); none once the scheduler has issued in this cycle. -/
def Mach.candidates (m : Mach) (core sched : Nat) : List (Nat × Nat × Warp) :=
  let all := m.blocks.cells.flatMap fun b =>
    if b.2.core ≠ core ∨ m.hasIssued core sched then []
    else b.2.warps.cells.filterMap fun w => if w.2.slot % 4 == sched && m.mayIssue b.2 w.2 then some (b.1, w.1, w.2) else none
  let held (w : Warp) : Bool := decide (m.cycle < w.hintUntil)
  sortBy (fun x y =>
    if held x.2.2 != held y.2.2 then held y.2.2
    else decide (x.2.2.lastIssue < y.2.2.lastIssue) || (x.2.2.lastIssue == y.2.2.lastIssue && decide (x.2.2.slot ≤ y.2.2.slot))) all

/-- The first warp of the list that can issue takes the turn. -/
def Mach.firstTurn (m : Mach) (mg : Mgmt) : List (Nat × Nat × Warp) → Turn × Mach
  | [] => (.wait, m)
  | x :: r => match m.turnOfWarp mg x.1 x.2.1 with
    | (.wait, m) => m.firstTurn mg r
    | (.stopped, m) => (.stopped, m)
    | (.run q i, m) => (.run q i, m)

/-- What a scheduler issues in this cycle, and the machine with that issue begun. -/
def Mach.schedule (m : Mach) (mg : Mgmt) (core sched : Nat) : Turn × Mach :=
  match m.firstTurn mg (m.candidates core sched) with
  | (.wait, m) => (.wait, m)
  | (.stopped, m) => (.stopped, m)
  | (.run q i, m) => (.run q i, m.markIssued core sched)

end Sys2Proof.Machine
end

