-- ==== Sys2Proof/Machine/Bench.lean ====
section
/-! DEFINITION. A machine in which one instruction stands where the next step fetches it: one context with an identity page, one
launch of one block of one warp whose 32 lanes are ready at a clause of that instruction (log 11). -/

namespace Sys2Proof.Machine

/-- Where the bench keeps its two page tables and its clause. -/
def benchRoot : Nat := 0x1000
def benchTable : Nat := 0x2000
def benchCode : BitVec 48 := 0x4000

/-- The clause header for one instruction: N = 1, its class, EXT when it has a second word (R337). -/
def benchHeader (two : Bool) (op : Nat) : Word := BitVec.ofNat 32 (2 ^ 28 + (opClass op).getD 0 * 2 ^ 25 + (if two then 16 else 0))

/-- The clause of a table word, little-endian. -/
def benchClause (nbits w : Nat) : List Byte :=
  let two := !tableOneWord nbits w
  bytesOfWords (benchHeader two ((w / 2 ^ 24) % 256) :: BitVec.ofNat 32 w :: (if two then [BitVec.ofNat 32 (w / 2 ^ 32)] else []))

/-- The launch record: one warp of one block, every v register, every tile handle. -/
def benchRec : LaunchRec :=
  { entry := benchCode, prio := 0, fmode := 0, grid := 1, warps := 1, brood := 0, csize := 1, regs := 128, tguar := 0, tmax := 16
    spill := 0, scratch := 0, gangs := [], args := 0, argtag := 0, pimg := 0, npimg := 0, dampt := 0, ndamp := 0, partyt := 0
    nparty := 0, keyh := 0, deadl := 0, deps := [], cpla := 0 }

def benchLaunch : Launch :=
  { rec_ := benchRec, queue := 0, seq := 1, ctx := 0, order := some 0, start := 0, code := none, next := 1, retired := 0, trust := [], world := none
    waitFrom := none, blocking := false }

def benchLane (now : Nat) : Lane :=
  { st := .ready, pc := ⟨benchCode, 0⟩, code := [], v := ⟨[]⟩, p := ⟨[]⟩, rstack := [], spill := 0, pts := 0, ageBase := now
    posted := 0 }

def benchWarp (now : Nat) : Warp :=
  { lanes := List.replicate 32 (benchLane now), s := ⟨[]⟩, ws := List.replicate 6 0, flow := 0, exitm := 0, group := 0, stall := now
    lastIssue := now, hintUntil := 0, slotAcq := ⟨[]⟩, pend := [], flights := [], block := none, fence := none, spawns := [], csrw := []
    suspended := false, parkedAt := none, slot := 0, brood := none }

def benchBlock (now : Nat) : Block :=
  { launch := 0, ctx := 0, index := 0, rank := 0, peers := [0], core := 0, bslot := 0, base := 0, tlslot := 0, resident := true
    retired := false, warps := ⟨[(0, benchWarp now)]⟩, spad := ⟨[]⟩, spadSize := 16384, spadTags := ⟨[]⟩, spadStamp := ⟨[]⟩
    spadBad := [], start := 0, handles := ⟨[]⟩, slots := ⟨[]⟩, keptMx := [], keptCh := [], savedTiles := ⟨[]⟩, savedByp := none
    savedBins := [], savedReqs := []
    placedAt := now, sealedIn := none }

/-- The bench: what fetching one instruction takes, over a machine that is otherwise unchanged. -/
def Mach.bench (m : Mach) (nbits w : Nat) : Mach :=
  let mem := memWrite m.mem benchRoot (bytesOfNat (benchTable + 1) 8)
  let mem := memWrite mem benchTable (bytesOfNat 0x3F 8)
  let mem := memWrite mem benchCode.toNat (benchClause nbits w)
  { m with
    mem := mem
    ctxs := tabSet m.ctxs 0 { m.ctx 0 with ptEn := true, ptRoot := benchRoot, run := .running }
    cores := tabSet m.cores 0 { m.core 0 with split := some 8 }
    launches := tabSet m.launches 0 benchLaunch
    blocks := tabSet m.blocks 0 (benchBlock m.cycle) }

end Sys2Proof.Machine
end

