-- ==== Sys2Proof/Machine/Steps.lean ====
section
/-! DEFINITION. Steps of the part that end or continue what instructions began: results (R352), fences (R131), rendezvous
(R74), wrings and drains (R145, R148), spawns and bins (R55 to R58), tiles (R207, R210), stamps (R115), press requests (R155 to
R175), dropping of definitions (R159). A step whose condition does not hold changes nothing. -/

namespace Sys2Proof.Machine

/-- The form of a step of the part that does not touch the module's management: nothing happens while the module sleeps (R335). -/
def onEvent (f : Mgmt → Mach → Mach) (s : State) : Host.Outcome State Fault Refusal :=
  .next (if s.mgmt.power = .on then { s with mach := f s.mgmt s.mach } else s)

/-! ## Results, fences, rendezvous -/

/-- A load that waits for wrings keeps the registers it was issued with: no earlier result arrives before it is performed. -/
def execLatencyVResult (bid warp id : Nat) (s : State) : Host.Outcome State Fault Refusal :=
  onEvent (fun _ m =>
    if m.wrung.any fun w => w.issue.bid == bid && w.issue.warp == warp then m else m.latencyResult bid warp id) s

def execFenceComplete (bid warp : Nat) (s : State) : Host.Outcome State Fault Refusal :=
  onEvent (fun _ m => m.fenceComplete bid warp) s

/-- RENDEZVOUS_EXECUTE (R74, R80): the slot's cycle has come, it is not held and not executing yet, no member is suspended, and
no wring of it is awaited. -/
def Mach.rendezvousExecute (m : Mach) (mg : Mgmt) (bid slot : Nat) : Mach :=
  match m.block? bid with
  | none => m
  | some b => match tabFind b.slots slot with
    | none => m
    | some s => match s.start, opOf s.instr with
      | some t, some op =>
        if m.cycle < t || s.held || s.running.isSome || !b.resident ||
            ((m.slotMembers b slot).any fun w => m.held bid w) || (m.wrung.any fun w => w.issue.bid == bid && w.slot == some slot) then m
        else op.rendezvous mg b slot s m
      | _, _ => m
def execRendezvousExecute (bid slot : Nat) (s : State) : Host.Outcome State Fault Refusal :=
  onEvent (fun mg m => m.rendezvousExecute mg bid slot) s

/-! ## Wrings and drains -/

def unblockWrung (id : Nat) (w : Warp) : Warp := if w.block = some (.wrung id) then { w with block := none } else w

/-- A load that has to wait again keeps the marks it has. -/
def Mach.keepMarks (m : Mach) (x : Wrung) : Mach :=
  { m with wrung := m.wrung.map fun (y : Wrung) =>
      if y.issue = x.issue ∧ y.slot = x.slot then { y with lines := dedup (x.lines ++ y.lines) } else y }

/-- WRUNG_LOAD_PERFORM (R148): every holder asked has drained, the marks are cleared, the load is performed. A line of the load that
was not marked may have been granted shares meanwhile: while O of any line is above the tolerance, its holders are wrung first
(R149). -/
def Mach.wrungPerform (m : Mach) (mg : Mgmt) (id : Nat) : Mach :=
  match m.wrung.find? (·.id == id) with
  | none => m
  | some x =>
    if m.drains.any fun d => x.wait.contains (d.line, d.holder) then m
    else
      let q := x.issue
      let m := { m with wrung := m.wrung.filter (·.id != id) }
      let m := m.modWarp q.bid q.warp (unblockWrung id)
      match m.block? q.bid, m.warp? q.bid q.warp, opOf x.instr with
      | some b, some w, some op =>
        match x.slot with
        | some k => match tabFind b.slots k with
          | none => m
          | some s => (op.rendezvous mg b k s m).keepMarks x
        | none => (op.perform x.instr mg q b [⟨q.warp, 0, q.lanes, op.activeOf m.free w 0 q.lanes, w⟩] none m).keepMarks x
      | _, _, _ => m
def execWrungLoadPerform (id : Nat) (s : State) : Host.Outcome State Fault Refusal :=
  onEvent (fun mg m => m.wrungPerform mg id) s

/-- TRACKER_AGE_DRAIN (R145): 65,536 cycles after the tracker was filled. -/
def Mach.trackerAge (m : Mach) (holder line : Nat) : Mach :=
  match m.trackers.find? fun t => t.holder == holder && t.line == line with
  | none => m
  | some t => if m.cycle < t.age + 65536 then m else m.drainTracker t (m.regionInt t.ctx t.region)
def execTrackerAgeDrain (holder line : Nat) (s : State) : Host.Outcome State Fault Refusal :=
  onEvent (fun _ m => m.trackerAge holder line) s

def Mach.drainApply (m : Mach) (id : Nat) : Mach :=
  match m.drains.find? (·.id == id) with
  | none => m
  | some d => m.applyDrain d
def execDrainApply (id : Nat) (s : State) : Host.Outcome State Fault Refusal := onEvent (fun _ m => m.drainApply id) s

/-! ## Spawns, tiles, stamps -/

def execSpawnRetry (bid warp : Nat) (s : State) : Host.Outcome State Fault Refusal :=
  onEvent (fun mg m => m.spawnRetry mg bid warp) s
def execBinTimerExpiry (core bin : Nat) (s : State) : Host.Outcome State Fault Refusal :=
  onEvent (fun _ m => m.binExpire core bin) s
def execBroodWarpLaunch (bid : Nat) (s : State) : Host.Outcome State Fault Refusal :=
  onEvent (fun _ m => m.broodLaunch bid) s
def execTallocGrant (core : Nat) (s : State) : Host.Outcome State Fault Refusal :=
  onEvent (fun mg m => m.tallocGrant mg core) s
def execTfreeRelease (core tile : Nat) (s : State) : Host.Outcome State Fault Refusal :=
  onEvent (fun _ m => m.tfreeRelease core tile) s

/-- STAMP_TICK (R115): every 64 cycles on a phase of the core's own. -/
def Mach.stampTick (m : Mach) (core : Nat) : Mach :=
  let c := m.core core
  let due : Bool := match c.ticked with
    | none => true
    | some t => decide (t + 64 ≤ m.cycle)
  if !due then m
  else
    let bump (l : Lane) : Lane := { l with pts := l.pts + 1 }
    let m := { m with blocks := tabMap (fun b =>
      if b.core = core ∧ b.resident then
        { b with warps := tabMap (fun w => { w with lanes := w.lanes.map bump }) b.warps } else b) m.blocks }
    m.setCore core { c with ticked := some (match c.ticked with
      | none => m.cycle
      | some t => t + 64) }
def execStampTick (core : Nat) (s : State) : Host.Outcome State Fault Refusal := onEvent (fun _ m => m.stampTick core) s

/-! ## Press requests -/

def Mach.pressApplication (m : Mach) (mg : Mgmt) (id : Nat) : Mach :=
  match m.pressReady id with
  | none => m
  | some r => if r.chan then m else m.applyPress mg r
def execPressApplication (id : Nat) (s : State) : Host.Outcome State Fault Refusal :=
  onEvent (fun mg m => m.pressApplication mg id) s

def Mach.channelPress (m : Mach) (mg : Mgmt) (id : Nat) : Mach :=
  match m.pressReady id with
  | none => m
  | some r => if r.chan then m.applyChannel mg r else m
def execChannelPressApplication (id : Nat) (s : State) : Host.Outcome State Fault Refusal :=
  onEvent (fun mg m => m.channelPress mg id) s

def Mach.ackChannel (m : Mach) (id : Nat) : Mach :=
  match m.presses.find? (·.id == id) with
  | none => m
  | some r => m.channelAck r
def execChannelAck (id : Nat) (s : State) : Host.Outcome State Fault Refusal := onEvent (fun _ m => m.ackChannel id) s

/-- COMBINE_ENTRY_TIMEOUT (R172): 256 cycles after the entry was taken. -/
def Mach.combineTimeout (m : Mach) (cluster id : Nat) : Mach :=
  match m.presses.find? (·.id == id) with
  | none => m
  | some r => match r.comb with
    | none => m
    | some (k, t) => if k ≠ cluster ∨ m.cycle < t + 256 then m else m.arrivePress r
def execCombineEntryTimeout (cluster id : Nat) (s : State) : Host.Outcome State Fault Refusal :=
  onEvent (fun _ m => m.combineTimeout cluster id) s

/-- PDROP_COMPLETE (R159, R453): every request that passed its issue check has been applied; the entry becomes empty. -/
def Mach.pdropComplete (m : Mach) (ctx opc : Nat) : Mach :=
  match tabFind (m.ctx ctx).press opc with
  | none => m
  | some e =>
    let open_ (r : PressReq) : Bool := r.ctx == ctx && r.opc == opc && r.remote.isNone && r.target.isNone
    let logged (a : Arrival) : Bool := match a with
      | .press p => p.local_ && p.opc.toNat == opc
      | .barrier _ _ => false
      | .countDown _ _ _ => false
    let c := m.ctx ctx
    if !e.dropping || m.presses.any open_ || c.arrivals.any logged || c.refused.any fun x => logged x.2.2 then m
    else
      let m := m.modCtx ctx fun c => { c with press := tabErase c.press opc }
      e.waiters.foldl (fun m w => m.modWarp w.1 w.2.1 fun x => x.endId w.2.2) m
def execPdropComplete (ctx opc : Nat) (s : State) : Host.Outcome State Fault Refusal :=
  onEvent (fun _ m => m.pdropComplete ctx opc) s

end Sys2Proof.Machine
end

