-- ==== Sys2Proof/Machine/Arrivals.lean ====
section
/-! DEFINITION. Arrivals for a context from outside it: press requests, barrier arrivals and count-downs (R156, R181, R182), and the
arrival log of a context that is switched out (R293, R294). -/

namespace Sys2Proof.Machine

/-! ## Writes of the part's own (R283, R293) -/

/-- Bytes written by the part to a ring or log: one store for each line, without a mask; `ctx` is the context they are made for. -/
def Mach.hwWrite (m : Mach) (ctx : Nat) (host : Bool) (a : Nat) (bs : List Byte) : Mach :=
  if host then m.sendFar ctx (.host a) bs
  else
    let m := (unitPieces 128 (bs.length / 128 + 2) a bs.length).foldl (fun (m : Mach) x =>
      let line := lineOf x.1
      let m := (m.wringNow line).recallFor none line
      let m := (m.stampLine line 0).2
      m.putBytes none x.1 ((bs.drop (x.1 - a)).take x.2)) m
    m.healDev [(a, bs.length)]

/-! ## Performing an arrival -/

/-- The request of an arrival (R156, R182): its pts is 0. Damp holders of its granule drain before it (R141); a granule of the fast
tier may go to its channel (R154). -/
def arrivedReq (id ctx : Nat) (img : PressImage) (a : PressArrival) : PressReq :=
  { id := id, ctx := ctx, opc := a.opc.toNat, image := img, granule := a.addr, va := a.va, target := none
    remote := if a.local_ then none else some a.modid
    opnd := a.more.foldl (combineWords img) a.opnd, parts := a.opnd :: a.more, ids := [id], count := 1 + a.more.length, lanes := []
    cores := if a.local_ then [a.core] else [], pts := 0, reply := none, comb := none
    fast := Config.fastPa a.addr, world := none, damp := false, wring := true, chan := false, done := none, home := false
    wants := if a.ret && !a.local_ then some a.handle else none, glitch := false }

/-- One read-modify-write of the barrier object at a physical address; nothing where its data is uncorrectable (log 15). -/
def Mach.updateObject (m : Mach) (pa : Nat) (f : BarObj → BarObj) : Mach :=
  if m.badRange none pa 8 then m
  else
    let m := (m.wringNow (lineOf pa)).recallFor none (lineOf pa)
    let o := barOf (BitVec.ofNat 64 (natOfBytes (m.viewBytes none pa 8)))
    ((m.stampLine (lineOf pa) 0).2).putBytes none pa (barBytes (f o))

/-- The definition a local request names: that of its entry, which a drop still keeps for requests that passed their issue check
before it (R159, R182). -/
def Mach.localImage (m : Mach) (ctx opc : Nat) : Option PressImage := (tabFind (m.ctx ctx).press opc).map (·.image)

/-- A local request as it is replayed (R182): damp where its line is (R139), with the reply that its `PRESSR` waits for. -/
def Mach.localReq (m : Mach) (mg : Mgmt) (id ctx : Nat) (img : PressImage) (a : PressArrival) : PressReq × Option (Region × Loc) × Mach :=
  let (p, m) := m.locate1 mg (engineOf ctx m.ids a.core) a.va img.size
  let r := { arrivedReq id ctx img a with reply := if a.ret then tabFind m.owed a.handle.toNat else none }
  match p.loc with
  | .error _ => (r, none, m)
  | .ok l =>
    if l.place ≠ .dev a.addr then (r, none, m)
    else
      let damp := m.dampGranule ctx l
      ({ r with damp := damp, fast := l.leaf.tier == 0 }, (m.dampRegion ctx l).map fun g => (g, l), m)

/-- A local request takes place: one that may be held is held or goes home as at issue (R143, R152, R182); the log keeps no masks
(log 84). -/
def Mach.performLocal (m : Mach) (mg : Mgmt) (ctx : Nat) (img : PressImage) (a : PressArrival) : Mach :=
  let (id, m) := m.freshId
  let (r, reg, m) := m.localReq mg id ctx img a
  match reg with
  | none => m.arrivePress r
  | some (g, l) =>
    let mo : PressMods := { ms := .dev, opc := a.opc, stamp := false }
    if !a.ret && holdable mo img g then m.offerElements mg a.core g l r fun _ => 0
    else m.arrivePress { r with home := !a.ret && goesHome mo img g }

/-- An arrival takes place (R182): a local request whose entry is empty is discarded with a PUNDEF entry. -/
def Mach.performArrival (m : Mach) (mg : Mgmt) (ctx : Nat) (a : Arrival) : Mach :=
  match a with
  | .press p =>
    if p.local_ then
      match m.localImage ctx p.opc.toNat with
      | none => m.fqPush ctx 9 (BitVec.ofNat 64 p.opc.toNat, BitVec.ofNat 64 p.addr, 0) [] none none
      | some d => m.performLocal mg ctx d p
    else
      let (id, m) := m.freshId
      m.arrivePress (arrivedReq id ctx p.image p)
  | .barrier pa _ => m.updateObject pa BarObj.arrive
  | .countDown pa _ n => m.updateObject pa fun o => o.countDown n.toNat

/-! ## The log (R293, R294) -/

def localSender : Nat := 4096

/-- Who waits when an arrival is refused: another module, or this one. -/
def senderOf (a : Arrival) : Nat :=
  match a with
  | .press p => if p.local_ then localSender else p.modid
  | .barrier _ k => k
  | .countDown _ k _ => k

/-- Bytes padded with zeros to whole units. -/
def padTo (n : Nat) (bs : List Byte) : List Byte := bs.take n ++ zeros (n - bs.length)

/-- The bytes of an entry (R293): its header, its operands, its image. -/
def arrivalBytes (a : Arrival) : List Byte :=
  let head (kind units opc pa k value : Nat) : List Byte :=
    bytesOfNat (kind + units * 2 ^ 8 + opc * 2 ^ 12 + pa % 2 ^ 48 * 2 ^ 32 + k % 4096 * 2 ^ 80 + value * 2 ^ 96) 16
  match a with
  | .press p =>
    let words := bytesOfWords (p.more.foldl (combineWords p.image) p.opnd)
    let data := if p.opnd.length ≤ 4 then padTo 16 words else padTo 64 words
    let image := if p.local_ then []
      else padTo 48 (bytesOfNat p.image.header.toNat 8 ++ p.image.uops.flatMap fun u => bytesOfNat u.toNat 2)
    let kind := if p.ret then (if p.local_ then 3 else 4) else (if p.local_ then 1 else 2)
    head kind (1 + (data.length + image.length) / 16) p.opc.toNat p.addr p.modid (if p.ret then p.handle.toNat else 0) ++ data ++ image
  | .barrier pa k => head 5 1 0 pa k 0
  | .countDown pa k n => head 6 1 0 pa k n.toNat

/-- Units of the log, and those in use. -/
def Ctx.logUnits (c : Ctx) : Nat := 2 ^ (c.logLog.toNat + 12)
def Ctx.logUsed (c : Ctx) : Nat := (c.logProd - c.logCons).toNat

/-- Padding units before an entry of `n` units, so that it does not wrap. -/
def Ctx.logPad (c : Ctx) (n : Nat) : Nat :=
  let p := c.logProd.toNat % c.logUnits
  if p + n > c.logUnits then c.logUnits - p else 0

/-- The entry fits (R294). -/
def Ctx.logFits (c : Ctx) (n : Nat) : Bool := c.logEn && decide (c.logUsed + c.logPad n + n ≤ c.logUnits)

/-- The entry can be appended: it fits, and a log in host memory can be written (R322, R323, log 84). -/
def Mach.logTakes (m : Mach) (ctx n : Nat) : Bool :=
  (m.ctx ctx).logFits n && !((m.ctx ctx).logHost && (m.hostHeld ctx || m.hostDead ctx))

/-- An entry is appended; the one that reaches three quarters raises LOGHIGH. -/
def Mach.appendLog (m : Mach) (ctx : Nat) (a : Arrival) : Mach :=
  let c := m.ctx ctx
  let bs := arrivalBytes a
  let n := bs.length / 16
  let pad := c.logPad n
  let at_ := c.logProd.toNat % c.logUnits
  let base := c.logBase
  let m := if pad = 0 then m else m.hwWrite ctx c.logHost (base + 16 * at_) (zeros (16 * pad))
  let m := m.hwWrite ctx c.logHost (base + 16 * ((at_ + pad) % c.logUnits)) bs
  let m := m.modCtx ctx fun c => { c with logProd := c.logProd + BitVec.ofNat 32 (pad + n), arrivals := c.arrivals ++ [a] }
  let c := m.ctx ctx
  if !c.logHigh && decide (4 * c.logUsed ≥ 3 * c.logUnits) then
    (m.modCtx ctx fun c => { c with logHigh := true }).fqPush ctx 12 (BitVec.ofNat 64 (16 * c.logUsed), 0, 0) [] none none
  else m

/-- 10 µs on the reference clock. -/
def retryTime : Nat := 1000

/-- ARRIVAL_LOG_APPEND (R181, R293, R294): an arrival is refused while an earlier one of its sender waits; else a context that is
not switched out takes it at once, and for one that is it is appended, or refused while it does not fit. -/
def Mach.arrival (m : Mach) (mg : Mgmt) (ctx : Nat) (a : Arrival) : Mach :=
  let c := m.ctx ctx
  let waits := c.refused.any (·.1 == senderOf a)
  if !tabHas m.ctxs ctx then m
  else if !waits && c.run != .switchedOut then m.performArrival mg ctx a
  else if !waits && m.logTakes ctx ((arrivalBytes a).length / 16) then m.appendLog ctx a
  else m.modCtx ctx fun c => { c with refused := c.refused ++ [(senderOf a, m.now + retryTime, a)] }
def execArrivalLogAppend (ctx : Nat) (a : Arrival) (s : State) : Host.Outcome State Fault Refusal :=
  onEvent (fun mg m => m.arrival mg ctx a) s

/-- LOG_REFUSAL_RETRY: the sender's oldest refused arrival is tried again, 10 µs after it was refused. -/
def Mach.retryArrival (m : Mach) (mg : Mgmt) (ctx sender : Nat) : Mach :=
  let c := m.ctx ctx
  match c.refused.find? (·.1 == sender) with
  | none => m
  | some (k, t, a) =>
    if decide (m.now < t) then m
    else if c.run != .switchedOut || m.logTakes ctx ((arrivalBytes a).length / 16) then
      let m := m.modCtx ctx fun c => { c with refused := c.refused.eraseP (·.1 == sender) }
      if c.run != .switchedOut then m.performArrival mg ctx a else m.appendLog ctx a
    else m.modCtx ctx fun c =>
      { c with refused := (c.refused.takeWhile (·.1 != sender)) ++ [(k, m.now + retryTime, a)] ++ (c.refused.dropWhile (·.1 != sender)).drop 1 }
def execLogRefusalRetry (ctx sender : Nat) (s : State) : Host.Outcome State Fault Refusal :=
  onEvent (fun mg m => m.retryArrival mg ctx sender) s

/-- The log is replayed in append order (R182). -/
def Mach.replay (m : Mach) (mg : Mgmt) (ctx : Nat) : Mach :=
  let as := (m.ctx ctx).arrivals
  let m := m.modCtx ctx fun c => { c with arrivals := [], logCons := c.logProd, logHigh := false }
  as.foldl (fun m a => m.performArrival mg ctx a) m

/-! ## Remote press requests (R156) -/

/-- The arrival that another module's press is: its own image, no entry of a press table. -/
def remoteArrival (r : RemotePress) : Arrival :=
  .press { local_ := false, ret := r.ret, opc := r.opc, addr := r.granule, modid := r.modid, image := r.image, opnd := r.opnd
           more := r.more, handle := r.handle, va := 0, core := 0 }

/-- REMOTE_PRESS_REQUEST: damp holders of the granule drain before it is applied (R141). -/
def Mach.remotePress (m : Mach) (mg : Mgmt) (r : RemotePress) : Mach :=
  if tabHas m.ctxs r.ctx then m.arrival mg r.ctx (remoteArrival r) else m.performArrival mg r.ctx (remoteArrival r)
def execRemotePressRequest (r : RemotePress) (s : State) : Host.Outcome State Fault Refusal :=
  onEvent (fun mg m => m.remotePress mg r) s

end Sys2Proof.Machine
end

