-- ==== Sys2Proof/Machine/EngineUnit.lean ====
section
/-! DEFINITION. What the matrix unit and the copy channels share: their accesses (R125, R219), pauses on translation (R222, R238),
errors that suspend the block (R222, R238), updates of barrier objects (R218, R236), when a command may start (R126). -/

namespace Sys2Proof.Machine

/-- Why an engine access cannot be made, with the virtual address that the record gives. -/
inductive EngErr where
  | xlate (va : Nat)
  | mtype (va : Nat)
  | perm (va : Nat)
  | tag (va : Nat)
  | data (va : Nat)
  /-- A cause of the command's own, by its code. -/
  | own (code va : Nat)
  deriving DecidableEq, Repr

def Block.engineActor (b : Block) (matrix : Bool) : Actor := ⟨b.ctx, b.launch, b.core, false, matrix⟩

/-! ## Accesses -/

/-- Ranges of at most 64 KiB pages. -/
def pageCuts (va n : Nat) : List (Nat × Nat) := unitPieces 65536 (n / 65536 + 2) va n

/-- What an engine access can be served by: the two tiers alone, for the matrix unit and the gate's reads (R222, R311); any memory, for
COPY and FILL (R126, R237, R307); what barrier objects can use (R381). -/
inductive Reach where
  | tiers | any | objects
  deriving DecidableEq, Repr

def Reach.takes (r : Reach) : Place → Bool
  | .dev _ => true
  | .host _ => r == .any
  | .peer _ _ => r != .tiers
  | .spad _ _ => false

/-- Translation of a range in address order; a place that does not serve is MTYPE (R222, R238). -/
def Mach.engLocate (m : Mach) (mg : Mgmt) (a : Actor) (reach : Reach) : List (Nat × Nat) → Except EngErr (List Loc) × Mach
  | [] => (.ok [], m)
  | (va, n) :: r =>
    let (p, m) := m.locate1 mg a va n
    match p.loc with
    | .error (.xlate _) => (.error (.xlate va), m)
    | .error _ => (.error (.mtype va), m)
    | .ok l =>
      if !reach.takes l.place then (.error (.mtype va), m)
      else match m.engLocate mg a reach r with
        | (.error e, m) => (.error e, m)
        | (.ok ls, m) => (.ok (l :: ls), m)

def badLoc (m : Mach) (mg : Mgmt) (a : Actor) (ls : List Loc) : Option Nat := (worst (m.dataCauses mg a ls)).map (·.1)

/-- The parts of an engine read, each at its ordering point with pts 0 (R125). -/
def Mach.engLoad (m : Mach) (mg : Mgmt) (a : Actor) (tc : Traffic) (l : Loc) : List Byte × Mach :=
  let m := m.wringLoc a.ctx l
  (partsOf l).foldl (fun (acc : List Byte × Mach) x => match x.1 with
    | .dev pa =>
      let (bs, _, m) := acc.2.loadDev mg a l.leaf tc false pa x.2.2 0
      (acc.1 ++ bs, m)
    | .host h => (acc.1 ++ acc.2.farRead (.host h) x.2.2, acc.2.touchHost a.ctx)
    | .peer k pa => (acc.1 ++ acc.2.farRead (.peer k pa) x.2.2, acc.2)
    | .spad _ _ => acc) ([], m)

/-- Bytes at a virtual address, and how many of them each page has, with its mask. -/
def Mach.engRuns (m : Mach) (mg : Mgmt) (a : Actor) (reach : Reach) (tc : Traffic) (va n : Nat) :
    Except EngErr (List Byte × List (Nat × Mask)) × Mach :=
  match m.engLocate mg a reach (pageCuts va n) with
  | (.error e, m) => (.error e, m)
  | (.ok ls, m) => match badLoc m mg a ls with
    | some x => (.error (.data x), m)
    | none =>
      let (bs, m) := ls.foldl (fun (acc : List Byte × Mach) l =>
        let (bs, m) := acc.2.engLoad mg a tc l
        (acc.1 ++ bs, m)) ([], m)
      (.ok (bs, ls.map fun l => (l.n, l.leaf.tag)), m)

/-- Bytes of the two tiers, with the union of the masks of their pages. -/
def Mach.engRead (m : Mach) (mg : Mgmt) (a : Actor) (tc : Traffic) (va n : Nat) : Except EngErr (List Byte × Mask) × Mach :=
  match m.engRuns mg a .tiers tc va n with
  | (.error e, m) => (.error e, m)
  | (.ok (bs, runs), m) => (.ok (bs, runs.foldl (fun t x => t ||| x.2) 0), m)

/-- The checks of an engine write: the W bit, then the store check or the leave check (R226, R237, R307). -/
def Mach.engChecks (m : Mach) (a : Actor) (data : Mask) (ls : List Loc) : Option EngErr :=
  ls.findSome? fun l =>
    if !l.leaf.w then some (.perm l.va) else if m.writeOk a.ctx a.launch l data then none else some (.tag l.va)

/-- The destination of an engine write, checked. -/
def Mach.engDest (m : Mach) (mg : Mgmt) (a : Actor) (reach : Reach) (data : Mask) (va n : Nat) : Except EngErr (List Loc) × Mach :=
  match m.engLocate mg a reach (pageCuts va n) with
  | (.error e, m) => (.error e, m)
  | (.ok ls, m) => match m.engChecks a data ls with
    | some e => (.error e, m)
    | none => (.ok ls, m)

/-- An engine's write to host or another module's memory: it arrives with its part, or fails as a posted one (R322, R325). DESIGN CHOICE
(log 86). -/
def Mach.engFar (m : Mach) (ctx : Nat) (p : Place) (va : Nat) (bs : List Byte) : Mach :=
  match p with
  | .host _ => if m.hostDead ctx then m.postError ctx false (BitVec.ofNat 48 va) false completerAbort else (m.farWrite p bs).touchHost ctx
  | .peer k _ =>
    if m.unreach.contains k then
      ({ m with free := m.free + 1 } : Mach).postError ctx false (BitVec.ofNat 48 va) true (Config.linkStatus m.free)
    else m.farWrite p bs
  | .dev _ => m
  | .spad _ _ => m

/-- The parts of an engine write, in address order; the greatest stamp (R125). -/
def Mach.engStore (m : Mach) (mg : Mgmt) (a : Actor) (tc : Traffic) (ls : List Loc) (bs : List Byte) : Nat × Mach :=
  let (st, _, m) := ls.foldl (fun (acc : Nat × List Byte × Mach) l =>
    let m := acc.2.2.wringLoc a.ctx l
    let (st, m) := (partsOf l).foldl (fun (ac : Nat × Mach) x =>
      let part := (acc.2.1.drop (x.2.1 - l.va)).take x.2.2
      match x.1 with
      | .dev pa =>
        let (st, m) := ac.2.storeDev mg a l.leaf tc pa part 0
        (max ac.1 st, m)
      | .host _ => (ac.1, ac.2.engFar a.ctx x.1 x.2.1 part)
      | .peer _ _ => (ac.1, ac.2.engFar a.ctx x.1 x.2.1 part)
      | .spad _ _ => ac) (acc.1, m)
    (st, acc.2.1.drop l.n, m)) (0, bs, m)
  (st, m.healDev (devRanges ls))

/-! ## Barrier objects -/

/-- Where a barrier object of an engine lies: translated, of a usable tier, writable (R218, R238); no tag check (R307). -/
def Mach.engBar (m : Mach) (mg : Mgmt) (a : Actor) (va : Nat) : Except EngErr Loc × Mach :=
  match m.engLocate mg a .objects [(va, 8)] with
  | (.error e, m) => (.error e, m)
  | (.ok ls, m) => match ls with
    | [l] => if l.leaf.w then (.ok l, m) else (.error (.perm va), m)
    | _ => (.error (.mtype va), m)

/-- An arrival or a count-down on an object in memory: one read-modify-write with at least the completion stamp. -/
def Mach.engBarUpdate (m : Mach) (mg : Mgmt) (a : Actor) (l : Loc) (f : BarObj → BarObj) (pts : Nat) : Except EngErr Unit × Mach :=
  match l.place with
  | .dev pa =>
    if m.badRange (m.viewOf a l.leaf) pa 8 then (.error (.data l.va), m)
    else
      let m := m.wringLoc a.ctx l
      let (_, _, m) := m.rmwDev mg a l.leaf false pa 8 (fun bs => some (barBytes (f (barOf (wordOf bs))))) pts
      (.ok (), m)
  | .peer k pa =>
    if m.unreach.contains k || m.peerBadRange k pa 8 then (.error (.data l.va), m)
    else (.ok (), ((m.farWrite (.peer k pa) (barBytes (f (barOf (wordOf (m.farRead (.peer k pa) 8)))))).farStamp k pa).2)
  | .host _ => (.error (.mtype l.va), m)
  | .spad _ _ => (.error (.mtype l.va), m)

/-- The object as it stands, before an update. -/
def Mach.engBarOld (m : Mach) (a : Actor) (l : Loc) : BarObj :=
  barOf (BitVec.ofNat 64 (natOfBytes <| match l.place with
    | .dev pa => m.viewBytes (m.viewOf a l.leaf) pa 8
    | .peer k pa => m.farRead (.peer k pa) 8
    | .host _ => zeros 8
    | .spad _ _ => zeros 8))

/-! ## Starting, pausing, ending -/

/-- REL = 1: the presses and commands waited for are over (R126). -/
def Mach.mayStart (m : Mach) (c : Command) : Bool :=
  c.waits.isEmpty || !((m.presses.any fun r => r.ids.any c.waits.contains) || m.allCommands.any fun x => c.waits.contains x.id)

/-- The hold of a block, for the entry of a pause (R281). -/
def holdOfBlock (c : Ctx) (bid : Nat) : Nat :=
  match c.holds.find? (·.bid == bid) with
  | none => 0xFFFF
  | some h => h.num.toNat

/-- The entry of a pause: none while the region is unresolved (R222, R238, R290). -/
def Mach.pauseEntry (m : Mach) (ctx bid va source : Nat) : Mach :=
  let (known, m) := m.noteRegion ctx va
  if known then m
  else m.fqPush ctx 2 (BitVec.ofNat 64 (va % 2 ^ 48), BitVec.ofNat 64 source, BitVec.ofNat 64 (holdOfBlock (m.ctx ctx) bid)) [] none
    (some (va / 65536))

/-- An error suspends the issuing block: its hold and the entry with the record, then the fault mode (R222, R238, R279). -/
def Mach.engineHold (m : Mach) (mg : Mgmt) (bid kind : Nat) (rec_ : BitVec 256) : Mach :=
  match m.block? bid with
  | none => m
  | some b =>
    let warps := tabKeys b.warps
    let m := m.suspendWarps bid warps
    let num := pickHold (m.ctx b.ctx)
    let m := m.modCtx b.ctx fun c =>
      { c with holds := c.holds ++ [⟨num, .block, bid, warps, false, true⟩], holdNo := c.holdNo + 1 }
    let m := m.fqPush b.ctx kind (BitVec.ofNat 64 num.toNat, 0, 0) [rec_] (some num) none
    m.faultMode mg b.launch

/-- The command ends: its write slot falls (R212). -/
def Mach.endCommand (m : Mach) (c : Command) : Mach :=
  match c.flight with
  | none => m
  | some id => m.modWarp c.bid c.warp fun w => w.endId id

end Sys2Proof.Machine
end

