-- ==== Sys2Proof/Machine/CopyUnit.lean ====
section
/-! DEFINITION. Copy channels: command blocks (R228, R229), delivery (R233 to R237), pauses and errors (R238), tier moves (R240). -/

namespace Sys2Proof.Machine

/-! ## Command blocks (R228, R229) -/

structure CopyParams where
  op    : Nat
  chan  : Nat
  mcast : BitVec 8
  ssp   : Bool
  dsp   : Bool
  barsp : Bool
  acq   : Bool
  scp   : Nat
  len   : Nat
  src   : Nat
  dst   : Nat
  rows  : Nat
  sstr  : Nat
  dstr  : Nat
  bar   : Nat
  pat   : Word
  rsvd  : Bool
  deriving DecidableEq, Repr

def copyParams (x : BitVec 512) : CopyParams :=
  let f := cmdField x
  { op := f 3 0, chan := f 6 4, mcast := x.extractLsb' 8 8, ssp := x.getLsbD 16, dsp := x.getLsbD 17, barsp := x.getLsbD 18
    acq := x.getLsbD 19, scp := f 22 21, len := f 63 32, src := f 111 64, dst := f 175 128, rows := f 207 192, sstr := f 255 224
    dstr := f 287 256, bar := f 335 288, pat := x.extractLsb' 352 32
    rsvd := f 7 7 != 0 || f 31 23 != 0 || f 127 112 != 0 || f 191 176 != 0 || f 223 208 != 0 || f 351 336 != 0 || f 511 384 != 0 }

def CopyParams.isTier (p : CopyParams) : Bool := p.op == 2 || p.op == 3
def CopyParams.total (p : CopyParams) : Nat := p.len * p.rows

/-- Rows RSVD, OP, LEN and ALIGN of R229, but for the pages of a tier move. -/
def CopyParams.cause1 (p : CopyParams) (tier : Bool) : Option Nat :=
  if p.rsvd || (p.op == 1 && p.src != 0) || ((p.op == 1 || p.isTier) && p.sstr != 0) ||
      (p.isTier && (p.dst != 0 || p.dstr != 0 || p.rows != 1)) || (p.op != 1 && p.pat != 0) then some 1
  else if p.op > 3 ∨ p.isTier ≠ tier then some 2
  else if p.len = 0 ∨ p.rows = 0 ∨ p.total ≥ 2 ^ 32 then some 3
  else if p.src % 16 ≠ 0 ∨ p.dst % 16 ≠ 0 ∨ p.len % 16 ≠ 0 ∨ p.sstr % 16 ≠ 0 ∨ p.dstr % 16 ≠ 0 ∨ p.bar % 8 ≠ 0 then some 4
  else none

/-- The blocks that receive: none stands for a virtual destination, or a rank whose block is gone. -/
def CopyParams.dests (p : CopyParams) (bid : Nat) (b : Block) : List (Option Nat) :=
  if p.mcast = 0 then [if p.dsp then some bid else none] else (bitsOf p.mcast).map fun q => b.peers[q]?

/-- The scratchpads that hold the barrier objects under BARSP. -/
def CopyParams.bars (p : CopyParams) (bid : Nat) (b : Block) : List (Option Nat) :=
  if p.mcast = 0 then [some bid] else p.dests bid b

/-- The last byte of `n` bytes at `a` lies in the scratchpad of the block. -/
def Mach.spadHas (m : Mach) (bid : Option Nat) (a n : Nat) : Bool :=
  match bid.bind m.block? with
  | none => false
  | some b => decide (a + n ≤ b.spadSize)

/-- Rows MCAST and RANGE of R229. -/
def Mach.copyCause2 (m : Mach) (p : CopyParams) (bid : Nat) (b : Block) : Option Nat :=
  let extent (a str : Nat) : Nat := a + (p.rows - 1) * str + p.len
  if (bitsOf p.mcast).any (fun q => decide (q ≥ b.peers.length)) || (p.mcast != 0 && (!p.dsp || (p.bar != 0 && !p.barsp))) ||
      (p.isTier && (p.ssp || p.dsp || p.barsp)) then some 5
  else if (p.op == 0 && p.ssp && !m.spadHas (some bid) (extent p.src p.sstr) 0) ||
      (p.dsp && (p.dests bid b).any fun d => !m.spadHas d (extent p.dst p.dstr) 0) ||
      (p.bar != 0 && p.barsp && (p.bars bid b).any fun d => !m.spadHas d p.bar 8) then some 6
  else none

/-! ## The command of a channel -/

def Mach.chanCmds (m : Mach) (core key : Nat) : List Command := (tabGet (m.core core).chans key ⟨[]⟩).cmds

def Mach.modChan (m : Mach) (core key : Nat) (f : List Command → List Command) : Mach :=
  m.modCore core fun c => { c with chans := tabMod c.chans key fun x => ⟨f x.cmds⟩ }

def Mach.modChanHead (m : Mach) (core key : Nat) (f : Command → Command) : Mach :=
  m.modChan core key fun l => match l with
    | [] => []
    | x :: r => f x :: r

def Mach.chanHead (m : Mach) (core key : Nat) : Option Command := (m.chanCmds core key).head?

/-- The record of R238. -/
def cpRecord (b : Block) (c : Command) (chan cause va : Nat) : BitVec 256 :=
  let tier := match c.op with
    | .mma _ _ => false
    | .drain _ _ _ => false
    | .copy x _ _ => (copyParams x).isTier
  BitVec.ofNat 256 (cause + chan * 2 ^ 8 + (if tier then 2 ^ 11 else 0) + b.index % 2 ^ 32 * 2 ^ 32 + c.addr * 2 ^ 64 +
    b.core % 2 ^ 16 * 2 ^ 112 + (if cause ≤ 6 then 0 else va % 2 ^ 48) * 2 ^ 128 + c.offset % 2 ^ 32 * 2 ^ 192)

def cpCause : EngErr → Nat × Nat
  | .xlate a => (0x8, a)
  | .mtype a => (0x7, a)
  | .perm a => (0xC, a)
  | .tag a => (0xA, a)
  | .data a => (0x9, a)
  | .own c a => (c, a)

/-- CH.WPTR of a channel counts what a command has delivered (R234); with ACQ the step has a completion stamp (R126). -/
def Mach.countStep (m : Mach) (core key : Nat) (p : CopyParams) (c : Command) : Mach :=
  if p.isTier || c.offset ≤ c.row then m
  else
    let st := c.stamp + 1
    let merge (l : List WptrAcq) : List WptrAcq :=
      if l.any fun x => x.bid == c.bid && x.scp == p.scp
      then l.map fun x => if x.bid == c.bid && x.scp == p.scp then { x with stamp := max x.stamp st } else x
      else l ++ [⟨c.bid, p.scp, st⟩]
    let m := m.modCore core fun x =>
      { x with wptr := tabSet x.wptr key (tabGet x.wptr key 0 + BitVec.ofNat 64 (c.offset - c.row))
               wacq := if p.acq then tabSet x.wacq key (merge (tabGet x.wacq key [])) else x.wacq }
    if p.acq then m.noteStamp st else m

/-- A step of the executing command. -/
def Mach.countWptr (m : Mach) (core key : Nat) (p : CopyParams) : Mach :=
  match m.chanHead core key with
  | none => m
  | some c => (m.countStep core key p c).modChanHead core key fun c => { c with row := c.offset }

/-- Commands of a block leave the channels of its core and are kept, in order (R238). -/
def Mach.keepChans (m : Mach) (core bid : Nat) : Mach :=
  let kept := (m.core core).chans.cells.flatMap fun x => (x.2.cmds.filter (·.bid == bid)).map fun c => (x.1 % 8, c)
  let m := m.modCore core fun c => { c with chans := tabMap (fun x => ⟨x.cmds.filter (·.bid != bid)⟩) c.chans }
  m.modBlock bid fun b => { b with keptCh := b.keptCh ++ kept }

/-- An error ends a command in a channel and suspends its block (R238). -/
def Mach.cpErrorOf (m : Mach) (mg : Mgmt) (core key : Nat) (p : CopyParams) (c : Command) (cause va : Nat) : Mach :=
  let m := ((m.countStep core key p c).endCommand c).modChan core key (·.erase c)
  match m.block? c.bid with
  | none => m
  | some b => (m.keepChans core c.bid).engineHold mg c.bid 4 (cpRecord b c (key % 8) cause va)

/-- An error of the executing command. -/
def Mach.cpError (m : Mach) (mg : Mgmt) (core key : Nat) (p : CopyParams) (cause va : Nat) : Mach :=
  match m.chanHead core key with
  | none => m
  | some c => m.cpErrorOf mg core key p c cause va

/-- COPY_CHANNEL_FAULT, or an error (R238). -/
def Mach.cpStop (m : Mach) (mg : Mgmt) (core key : Nat) (p : CopyParams) (c : Command) (b : Block) (e : EngErr) : Mach :=
  match e with
  | .xlate va =>
    let m := m.modChanHead core key fun x => { x with fwait := some (BitVec.ofNat 48 va) }
    m.pauseEntry b.ctx c.bid va (1 + key % 8 * 2 ^ 2 + core * 2 ^ 16)
  | .mtype _ => let (k, a) := cpCause e; m.cpError mg core key p k a
  | .perm _ => let (k, a) := cpCause e; m.cpError mg core key p k a
  | .tag _ => let (k, a) := cpCause e; m.cpError mg core key p k a
  | .data _ => let (k, a) := cpCause e; m.cpError mg core key p k a
  | .own _ _ => let (k, a) := cpCause e; m.cpError mg core key p k a

/-! ## Delivery (R233, R237) -/

/-- The union of the masks of `k` bytes from `off` on, in runs of bytes of one mask. -/
def runMask : List (Nat × Mask) → Nat → Nat → Mask
  | [], _, _ => 0
  | (n, t) :: r, off, k => (if off < n ∧ 0 < k then t else 0) ||| runMask r (off - n) (k - (n - off))

/-- An engine read of scratchpad: each 64-byte part at its ordering point with pts 0 (R125), with the mask of its block. -/
def Mach.engSpad (m : Mach) (bid a n : Nat) : Except EngErr (List Byte × List (Nat × Mask)) × Mach :=
  match m.block? bid with
  | none => (.error (.data a), m)
  | some b =>
    let parts := unitPieces 64 (n / 64 + 2) a n
    match parts.find? fun x => spadBadRange b x.1 x.2 with
    | some x => (.error (.data x.1), m)
    | none =>
      let (bs, m) := parts.foldl (fun (acc : List Byte × Mach) x =>
        let (bs, _, m) := acc.2.loadSpad bid x.1 x.2 0
        (acc.1 ++ bs, m)) ([], m)
      (.ok (bs, parts.map fun x => (x.2, spadTag b x.1 x.2)), m)

/-- Source bytes of a piece, and the masks of their runs. -/
def Mach.copySource (m : Mach) (mg : Mgmt) (a : Actor) (p : CopyParams) (bid o n : Nat) :
    Except EngErr (List Byte × List (Nat × Mask)) × Mach :=
  if p.op = 1 then (.ok ((List.range n).map fun i => p.pat.extractLsb' (8 * ((o + i) % 4)) 8, []), m)
  else
    let src := p.src + o / p.len * p.sstr + o % p.len
    if p.ssp then m.engSpad bid src n else m.engRuns mg a .any .copy src n

/-- The mask of the source of a whole row. -/
def Mach.rowMask (m : Mach) (mg : Mgmt) (a : Actor) (p : CopyParams) (b : Block) (r : Nat) : Except EngErr Mask × Mach :=
  let src := p.src + r * p.sstr
  if p.op = 1 then (.ok 0, m)
  else if p.ssp then (.ok (spadTag b src p.len), m)
  else match m.engLocate mg a .any (pageCuts src p.len) with
    | (.error e, m) => (.error e, m)
    | (.ok ls, m) => (.ok (tagOfLocs ls), m)

/-- The check before a row's first part: every destination page as a store of the row's union (R237). -/
def Mach.rowCheck (m : Mach) (mg : Mgmt) (a : Actor) (p : CopyParams) (b : Block) (tags : Mask) (r : Nat) : Except EngErr Unit × Mach :=
  if p.dsp then (.ok (), m)
  else match m.rowMask mg a p b r with
    | (.error e, m) => (.error e, m)
    | (.ok t, m) => match m.engDest mg a .any (t ||| tags) (p.dst + r * p.dstr) p.len with
      | (.error e, m) => (.error e, m)
      | (.ok _, m) => (.ok (), m)

/-- An engine write to scratchpad: each 64-byte part with pts 0 and the masks of its own bytes (R125, R237, R304); the greatest stamp. -/
def Mach.engStoreSpad (m : Mach) (bid a : Nat) (bs : List Byte) (runs : List (Nat × Mask)) (tags : Mask) : Nat × Mach :=
  let (st, m) := (unitPieces 64 (bs.length / 64 + 2) a bs.length).foldl (fun (acc : Nat × Mach) x =>
    let (st, m) := acc.2.storeSpad bid x.1 ((bs.drop (x.1 - a)).take x.2) (runMask runs (x.1 - a) x.2 ||| tags) 0
    (max acc.1 st, m)) (0, m)
  (st, m.modBlock bid fun b => healSpad b [(a, bs.length)])

/-- A piece reaches its destinations, one after another; the greatest stamp. -/
def Mach.copyDeliver (m : Mach) (mg : Mgmt) (a : Actor) (dst : Nat) (bs : List Byte) (runs : List (Nat × Mask)) (tags : Mask) :
    List (Option Nat) → Except EngErr Nat × Mach
  | [] => (.ok 0, m)
  | some bid :: r =>
    let (st, m) := m.engStoreSpad bid dst bs runs tags
    match m.copyDeliver mg a dst bs runs tags r with
    | (.error e, m) => (.error e, m)
    | (.ok u, m) => (.ok (max st u), m)
  | none :: r => match m.engDest mg a .any (runMask runs 0 bs.length ||| tags) dst bs.length with
    | (.error e, m) => (.error e, m)
    | (.ok ls, m) =>
      let (st, m) := m.engStore mg a .copy ls bs
      match m.copyDeliver mg a dst bs runs tags r with
      | (.error e, m) => (.error e, m)
      | (.ok u, m) => (.ok (max st u), m)

/-- The stream from offset `o` to `till`, row part by row part; `fuel` bounds the row parts. -/
def Mach.copyPieces (m : Mach) (mg : Mgmt) (a : Actor) (core key : Nat) (p : CopyParams) (c : Command) (b : Block) (blockTag : Mask)
    (till : Nat) : Nat → Nat → Except EngErr Unit × Mach
  | 0, _ => (.ok (), m)
  | fuel + 1, o =>
    if o ≥ till then (.ok (), m)
    else
      let r := o / p.len
      let n := min (p.len - o % p.len) (till - o)
      let tags := blockTag ||| c.tags
      let (chk, m) := if o % p.len = 0 then m.rowCheck mg a p b tags r else (.ok (), m)
      match chk with
      | .error e => (.error e, m)
      | .ok _ => match m.copySource mg a p c.bid o n with
        | (.error e, m) => (.error e, m)
        | (.ok (bs, runs), m) => match m.copyDeliver mg a (p.dst + r * p.dstr + o % p.len) bs runs tags (p.dests c.bid b) with
          | (.error e, m) => (.error e, m)
          | (.ok st, m) =>
            let m := m.modChanHead core key fun c => { c with offset := o + n, stamp := max c.stamp st }
            m.copyPieces mg a core key p c b blockTag till fuel (o + n)

/-! ## Count-downs (R236) -/

/-- One count-down of an object, one read-modify-write: with ACQ, the one that brings the bytes to zero has the completion stamp
(R236). -/
def Mach.countDownAt (m : Mach) (mg : Mgmt) (a : Actor) (p : CopyParams) (stamp n : Nat) (tags : Mask) (at_ : Option Nat) :
    Except EngErr Unit × Mach :=
  let pts (o : BarObj) : Nat := if p.acq && o.bytes == BitVec.ofNat 32 n then stamp else 0
  match at_ with
  | some bid =>
    if (m.block? bid).any fun b => spadBadRange b p.bar 8 then (.error (.data p.bar), m)
    else
      let o := barOf (wordOf (m.spadBytes bid p.bar 8))
      (.ok (), (m.rmwSpad bid p.bar 8 (fun bs => barBytes ((barOf (wordOf bs)).countDown n)) tags (pts o)).2.2)
  | none => match m.engBar mg a p.bar with
    | (.error e, m) => (.error e, m)
    | (.ok l, m) =>
      let m := m.wringLoc a.ctx l
      m.engBarUpdate mg a l (fun o => o.countDown n) (pts (m.engBarOld a l))

def Mach.countDownAll (m : Mach) (mg : Mgmt) (a : Actor) (p : CopyParams) (stamp n : Nat) (tags : Mask) :
    List (Option Nat) → Except EngErr Unit × Mach
  | [] => (.ok (), m)
  | d :: r => match m.countDownAt mg a p stamp n tags d with
    | (.error e, m) => (.error e, m)
    | (.ok _, m) => m.countDownAll mg a p stamp n tags r

/-- The run of at most 4,096 bytes that is owed is counted down. -/
def Mach.countOwed (m : Mach) (mg : Mgmt) (a : Actor) (core key : Nat) (p : CopyParams) (b : Block) (blockTag : Mask) :
    Except EngErr Unit × Mach :=
  match m.chanHead core key with
  | none => (.ok (), m)
  | some c =>
    let n := min 4096 (c.offset - c.panel)
    if p.bar = 0 ∨ n = 0 ∨ (n < 4096 ∧ c.offset < p.total) then (.ok (), m)
    else
      match m.countDownAll mg a p (c.stamp + 1) n (c.tags ||| blockTag) (if p.barsp then p.bars c.bid b else [none]) with
      | (.error e, m) => (.error e, m)
      | (.ok _, m) =>
        (.ok (), (if p.acq then m.noteStamp (c.stamp + 1) else m).modChanHead core key fun c => { c with panel := c.panel + n })

/-! ## Steps -/

/-- The page of a tier move: its leaf (R229, R240). -/
def Mach.tierLeaf (m : Mach) (a : Actor) (va : Nat) : Except EngErr Leaf × Mach :=
  match m.translate a va with
  | (.error _, m) => (.error (.xlate va), m)
  | (.ok l, m) => (.ok l, m)

/-- The last row of ALIGN in R229: the range is whole pages. -/
def Mach.tierAligned (m : Mach) (a : Actor) (p : CopyParams) : Except EngErr Unit × Mach :=
  match m.tierLeaf a p.src with
  | (.error e, m) => (.error e, m)
  | (.ok l, m) =>
    if p.src % 2 ^ l.log ≠ 0 then (.error (.own 4 0), m)
    else match m.tierLeaf a (p.src + p.len - 1) with
      | (.error e, m) => (.error e, m)
      | (.ok l, m) => if (p.src + p.len) % 2 ^ l.log ≠ 0 then (.error (.own 4 0), m) else (.ok (), m)

/-- A virtual barrier object is found before the first part. -/
def Mach.copyBar (m : Mach) (mg : Mgmt) (a : Actor) (p : CopyParams) : Except EngErr Unit × Mach :=
  if p.bar = 0 || p.barsp then (.ok (), m)
  else match m.engBar mg a p.bar with
    | (.error e, m) => (.error e, m)
    | (.ok _, m) => (.ok (), m)

/-- The checks of a command at the head of its channel (R229). -/
def Mach.copyChecks (m : Mach) (mg : Mgmt) (a : Actor) (p : CopyParams) (tier : Bool) (bid : Nat) (b : Block) :
    Except EngErr Unit × Mach :=
  match p.cause1 tier with
  | some k => (.error (.own k 0), m)
  | none =>
    let (r, m) := if tier then m.tierAligned a p else (.ok (), m)
    match r with
    | .error e => (.error e, m)
    | .ok _ => match m.copyCause2 p bid b with
      | some k => (.error (.own k 0), m)
      | none => m.copyBar mg a p

/-- One step of a COPY or FILL: what is owed is counted down, then the stream advances to the next multiple of 128 (R233 to R236). -/
def Mach.copyAdvance (m : Mach) (mg : Mgmt) (a : Actor) (core key : Nat) (p : CopyParams) (c : Command) (b : Block) (blockTag : Mask) :
    Mach :=
  match m.countOwed mg a core key p b blockTag with
  | (.error e, m) => m.cpStop mg core key p c b e
  | (.ok _, m) =>
    match m.copyPieces mg a core key p c b blockTag (min p.total (128 * (c.offset / 128 + 1))) 128 c.offset with
    | (.error e, m) => m.cpStop mg core key p c b e
    | (.ok _, m) =>
      match (m.countWptr core key p).countOwed mg a core key p b blockTag with
      | (.error e, m) => m.cpStop mg core key p c b e
      | (.ok _, m) => m.modChanHead core key fun c =>
        { c with ready := c.offset == p.total && (p.bar == 0 || c.panel == p.total) }

/-- A step whose host access meets a held stream is not made yet (R322). -/
def Mach.unlessHeld (after before : Mach) : Mach := if after.stalled then before else after

/-- COPY_COMMAND_START (R229, R233): the head command is checked; a COPY or FILL then delivers the next part of its stream. -/
def Mach.copyStart (m : Mach) (mg : Mgmt) (core key : Nat) : Mach :=
  match m.chanHead core key with
  | none => m
  | some c =>
    match c.op, m.block? c.bid with
    | .copy x blockTag tier, some b =>
      if c.ready || c.fwait.isSome || !m.mayStart c then m
      else
        let p := copyParams x
        let a := b.engineActor false
        let (r, m) := if c.begun then (.ok (), m) else m.copyChecks mg a p tier c.bid b
        match r with
        | .error e => m.cpStop mg core key p c b e
        | .ok _ =>
          let m := m.modChanHead core key fun c => { c with begun := true }
          if tier then m else m.copyAdvance mg a core key p c b blockTag
    | _, _ => m
def execCopyCommandStart (core ctx chan : Nat) (s : State) : Host.Outcome State Fault Refusal :=
  onEvent (fun mg m => if chan < 8 then (m.copyStart mg core (8 * ctx + chan)).unlessHeld m else m) s

/-- COPY_COMPLETE (R236): the command ends, its slot falls. -/
def Mach.copyComplete (m : Mach) (core key : Nat) : Mach :=
  match m.chanHead core key with
  | none => m
  | some c => if c.ready then (m.endCommand c).modChan core key (·.drop 1) else m
def execCopyComplete (core ctx chan : Nat) (s : State) : Host.Outcome State Fault Refusal :=
  onEvent (fun _ m => if chan < 8 then m.copyComplete core (8 * ctx + chan) else m) s

/-! ## Tier moves (R240, R241) -/

def inRange (base n x : Nat) : Bool := decide (base ≤ x) && decide (x < base + n)

/-- Whether something holds the page: a press on its way, a load that waits for wrings, a channel application. -/
def Mach.pageBusy (m : Mach) (frame n : Nat) : Bool :=
  (m.presses.any fun r => r.target.isNone && inRange frame n r.granule) ||
    (m.wrung.any fun w => w.lines.any fun l => inRange (frame / 128) (n / 128) l) ||
    (m.heldBy.cells.any fun c => inRange (frame / 128) (n / 128) c.1)

/-- Waits on barrier objects of a page follow it. -/
def movePlace (old new n : Nat) (p : Place) : Place :=
  match p with
  | .dev pa => if inRange old n pa then .dev (new + (pa - old)) else p
  | .host _ => p
  | .peer _ _ => p
  | .spad _ _ => p

def moveWait (old new n : Nat) (l : Lane) : Lane :=
  match l.st with
  | .waiting (.barrier p t x e i) => { l with st := .waiting (.barrier (movePlace old new n p) t x e i) }
  | .waiting .join => l
  | .waiting (.rendezvous _) => l
  | .waiting .spawn => l
  | .waiting .talloc => l
  | .ready => l
  | .parked _ => l
  | .exited => l

/-- The bytes of a frame in another frame; the old one keeps its bytes. The side bands of its lines likewise. -/
def moveBytes (old new n : Nat) (t : Mem) : Mem :=
  (t.cells.filter fun c => inRange old n c.1).foldl (fun (t : Mem) c => memSet t (new + (c.1 - old)) c.2)
    ⟨t.cells.filter fun c => !inRange new n c.1⟩
def moveSide (old new n : Nat) (t : Tab Side) : Tab Side :=
  (t.cells.filter fun c => inRange (old / 128) (n / 128) c.1).foldl
    (fun (t : Tab Side) c => tabSet t (new / 128 + (c.1 - old / 128)) c.2)
    ⟨t.cells.filter fun c => !inRange (new / 128) (n / 128) c.1⟩

/-- Bytes, poison and side band of a frame go to another frame, and with them the code that launches fetch there (R128). -/
def Mach.copyFrame (m : Mach) (old new n : Nat) : Mach :=
  let m := (m.scrub.filter fun g => inRange old n (g * 2 ^ 21) || inRange new n (g * 2 ^ 21) || g == old / 2 ^ 21 || g == new / 2 ^ 21).foldl
    Mach.clearGranule m
  let bad := (m.bad.filter fun u => !inRange (new / 32) (n / 32) u) ++
    (m.bad.filter fun u => inRange (old / 32) (n / 32) u).map fun u => new / 32 + (u - old / 32)
  let image (c : CodeImage) : CodeImage :=
    { c with mem := moveBytes old new n c.mem, side := moveSide old new n c.side, scrub := c.scrub.filter (· != new / 2 ^ 21) }
  { m with mem := moveBytes old new n m.mem, side := moveSide old new n m.side, bad := bad
           launches := tabMap (fun l => { l with code := l.code.map image }) m.launches }

/-- The stamp of the remap: past every lease of either frame and of the entry's line (R240). -/
def Mach.remapStamp (m : Mach) (old new n entry : Nat) : Nat :=
  1 + m.stamps.cells.foldl (fun t c =>
    if inRange (old / 128) (n / 128) c.1 || inRange (new / 128) (n / 128) c.1 || inRange (lineOf entry) 3 c.1 then max t c.2.rts else t) 0

/-- Every line of a range at one stamp. -/
def stampAll (st line : Nat) : Nat → Tab Stamps → Tab Stamps
  | 0, t => t
  | n + 1, t => stampAll st (line + 1) n (tabSet t line ⟨st, st⟩)

/-- The entries of a page take its new tier and frame: one, or the 32 of a 2 MiB group (R288). -/
def Mach.remapEntries (m : Mach) (l : Leaf) (tier frame : Nat) : Mach :=
  let group := decide (l.log = 21)
  let first := if group then l.entry - l.entry % 256 else l.entry
  (List.range (if group then 32 else 1)).foldl (fun m i =>
    let x := natOfBytes (m.viewBytes none (first + 8 * i) 8)
    let y := x - field x 9 8 * 2 ^ 8 - field x 47 16 * 2 ^ 16 + tier * 2 ^ 8 + frame
    m.putBytes none (first + 8 * i) (bytesOfNat y 8)) m

def takeFrame (log : Nat) : List PoolFrame → Option (PoolFrame × List PoolFrame)
  | [] => none
  | f :: r => if f.log2 = log then some (f, r) else (takeFrame log r).map fun x => (x.1, f :: x.2)

/-- The requests of a move to L2, of class TC1 (R102): each line of the old frame is read, and its line of the new frame written. -/
def Mach.tierTraffic (m : Mach) (mg : Mgmt) (dev : Nat) (sealed_ : Bool) (old new : Nat) : Nat → Mach
  | 0 => m
  | n + 1 => ((m.allocLine mg dev .copy false sealed_ old).allocLine mg dev .copy true sealed_ new).tierTraffic mg dev sealed_
      (old + 1) (new + 1) n

/-- What is noted of each line of a frame, in another one. -/
def moveMarks (old new n : Nat) (t : Tab Nat) : Tab Nat :=
  (t.cells.filter fun c => inRange old n c.1).foldl (fun (t : Tab Nat) c => tabSet t (new + (c.1 - old)) c.2)
    ⟨t.cells.filter fun c => !inRange new n c.1⟩

/-- The page moves to a frame of the target tier (0 fast, 1 capacity). -/
def Mach.movePage (m : Mach) (mg : Mgmt) (ctx : Nat) (l : Leaf) (tier : Nat) (f : PoolFrame) (rest : List PoolFrame) : Nat × Mach :=
  let n := 2 ^ l.log
  let old := l.frame
  let new := f.pa
  let inOld (line : Nat) : Bool := inRange (old / 128) (n / 128) line
  let inAny (line : Nat) : Bool := inOld line || inRange (new / 128) (n / 128) line
  let m := (m.drainAll fun t => inOld t.line).applyDrains fun d => inOld d.line
  let m := { m with
    claims := tabFilter (fun k _ => !inAny k) m.claims
    lines := ⟨m.lines.cells.map fun (c : Nat × Resident) => (c.1, if inOld c.1 then { c.2 with dirty := false } else c.2)⟩
    outside := moveMarks (old / 128) (new / 128) (n / 128) m.outside }
  let m := (m.copyFrame old new n).tierTraffic mg (deviceOf ctx) l.sealed (old / 128) (new / 128) (n / 128)
  let st := m.remapStamp old new n l.entry
  let m := m.remapEntries l tier new
  let m := ({ m with
    stamps := tabSet (stampAll st (new / 128) (n / 128) m.stamps) (lineOf l.entry) ⟨st, st⟩
    tlb := m.tlb.filter fun e => !(e.leaf.tier ≤ 1 && e.leaf.frame == old && e.leaf.log == l.log)
    cores := tabMap (fun c => { c with l1 := tabFilter (fun k _ => !inAny k) c.l1 }) m.cores
    blocks := tabMap (fun b => { b with warps := tabMap (fun w => { w with lanes := w.lanes.map (moveWait old new n) }) b.warps })
      m.blocks } : Mach).noteStamp st
  let back : PoolFrame := ⟨old, l.log⟩
  (st, m.modCtx ctx fun c =>
    if tier = 0 then { c with poolFast := rest, poolCap := c.poolCap ++ [back] }
    else { c with poolCap := rest, poolFast := c.poolFast ++ [back] })

/-- Count-downs of a page, in runs of 4,096 bytes. -/
def Mach.countPage (m : Mach) (mg : Mgmt) (a : Actor) (p : CopyParams) (stamp : Nat) (tags : Mask) : Nat → Except EngErr Unit × Mach
  | 0 => (.ok (), m)
  | k + 1 => match m.countDownAt mg a p stamp 4096 tags none with
    | (.error e, m) => (.error e, m)
    | (.ok _, m) => m.countPage mg a p stamp tags k

/-- TIER_PAGE_MOVE (R240): one page of the range is moved, or skipped. -/
def Mach.tierPage (m : Mach) (mg : Mgmt) (core key : Nat) : Mach :=
  match m.chanHead core key with
  | none => m
  | some c =>
    match c.op, m.block? c.bid with
    | .copy x blockTag true, some b =>
      if c.ready || !c.begun || c.fwait.isSome then m
      else
        let p := copyParams x
        let a := b.engineActor false
        let tier := if p.op = 2 then 0 else 1
        let va := p.src + c.offset
        match m.copyBar mg a p with
        | (.error e, m) => m.cpStop mg core key p c b e
        | (.ok _, m) => match m.tierLeaf a va with
          | (.error e, m) => m.cpStop mg core key p c b e
          | (.ok l, m) =>
            let n := 2 ^ l.log
            if l.tier ≥ 2 then m.cpError mg core key p 7 va
            else if l.tier ≠ tier && m.pageBusy l.frame n then m
            else
              let pool := if tier = 0 then (m.ctx b.ctx).poolFast else (m.ctx b.ctx).poolCap
              let (moved, m) : Option Nat × Mach := if l.tier = tier then (some 0, m)
                else match takeFrame l.log pool with
                  | none => (none, m)
                  | some (f, rest) => let (st, m) := m.movePage mg b.ctx l tier f rest; (some st, m)
              match moved with
              | none => m.cpError mg core key p 0xB va
              | some st =>
                let stamp := max c.stamp st
                let (r, m) := if p.bar = 0 then (.ok (), m)
                  else m.countPage mg a p (stamp + 1) (c.tags ||| blockTag) (n / 4096)
                match r with
                | .error e => m.cpStop mg core key p c b e
                | .ok _ => (if p.acq then m.noteStamp (stamp + 1) else m).modChanHead core key fun c =>
                    { c with offset := c.offset + n, stamp := stamp, ready := decide (c.offset + n ≥ p.len) }
    | _, _ => m
def execTierPageMove (core ctx chan : Nat) (s : State) : Host.Outcome State Fault Refusal :=
  onEvent (fun mg m => if chan < 8 then m.tierPage mg core (8 * ctx + chan) else m) s

end Sys2Proof.Machine
end

