-- ==== Sys2Proof/Machine/Crypto.lean ====
section
/-! DEFINITION. What the release gate and the party table compute with: SHA-256 (R310, R311) and ECDSA on P-256 (R297, R298, R310). -/

namespace Sys2Proof.Machine

/-! ## SHA-256: its constants are the fractions of roots of primes, its working variables two short histories -/

/-- The greatest number of `k` bits, above the bits already found, whose power does not pass a bound. -/
def rootBelow (power bound : Nat) : Nat → Nat → Nat
  | 0, found => found
  | k + 1, found => rootBelow power bound k (if (found + 2 ^ k) ^ power ≤ bound then found + 2 ^ k else found)

/-- The first 32 bits of the fraction of a root of a number below 512. -/
def rootFraction (power n : Nat) : Word := BitVec.ofNat 32 (rootBelow power (n * 2 ^ (32 * power)) 37 0)

/-- The primes up to the 64th. -/
def smallPrimes : List Nat := (List.range 312).filter fun n => decide (n > 1) && (List.range 18).all fun d => d < 2 || n ≤ d || n % d != 0

/-- Big-endian bytes of a number. -/
def beBytes (x n : Nat) : List Byte := (bytesOfNat x n).reverse
def beNat (bs : List Byte) : Nat := natOfBytes bs.reverse

/-- A message in whole blocks: a 1 bit, zeros, and its length in bits. -/
def shaPad (msg : List Byte) : List Byte :=
  let n := msg.length
  msg ++ [0x80] ++ List.replicate ((119 - n % 64) % 64) 0 ++ beBytes (8 * n) 8

def shaWords : Nat → List Byte → List Word
  | 0, _ => []
  | n + 1, bs => BitVec.ofNat 32 (beNat (bs.take 4)) :: shaWords n (bs.drop 4)

/-- The parity of rotations of a word. -/
def turns (rs : List Nat) (x : Word) : Word := rs.foldl (fun t r => t ^^^ x.rotateRight r) 0

/-- The word that follows in the message schedule, of which the newest comes first. -/
def nextWord (w : List Word) : Word :=
  let back (k : Nat) : Word := w.getD (k - 1) 0
  back 16 + back 7 + (turns [7, 18] (back 15) ^^^ (back 15 >>> 3)) + (turns [17, 19] (back 2) ^^^ (back 2 >>> 10))

def shaExtend : Nat → List Word → List Word
  | 0, w => w
  | n + 1, w => shaExtend n (nextWord w :: w)

/-- The last four values of the two working sequences, the newest first. -/
structure ShaState where
  up   : List Word
  down : List Word
  deriving DecidableEq, Repr

/-- One round takes a message word with its constant. -/
def ShaState.round (s : ShaState) (kw : Word) : ShaState :=
  let u (k : Nat) : Word := s.up.getD k 0
  let d (k : Nat) : Word := s.down.getD k 0
  let chosen := d 2 ^^^ (d 0 &&& (d 1 ^^^ d 2))
  let most := (u 0 &&& (u 1 ||| u 2)) ||| (u 1 &&& u 2)
  let t := kw + d 3 + chosen + turns [6, 11, 25] (d 0)
  ⟨(t + most + turns [2, 13, 22] (u 0)) :: s.up.take 3, (u 3 + t) :: s.down.take 3⟩

def ShaState.words (s : ShaState) : List Word := s.up ++ s.down

/-- The chaining value after one block. -/
def shaBlock (s : ShaState) (bs : List Byte) : ShaState :=
  let w := (shaExtend 48 (shaWords 16 bs).reverse).reverse
  let k := smallPrimes.map (rootFraction 3)
  let t := (List.zipWith (· + ·) k w).foldl ShaState.round s
  ⟨List.zipWith (· + ·) s.up t.up, List.zipWith (· + ·) s.down t.down⟩

def shaBlocks : Nat → ShaState → List Byte → ShaState
  | 0, s, _ => s
  | n + 1, s, bs => shaBlocks n (shaBlock s (bs.take 64)) (bs.drop 64)

def shaStart : ShaState :=
  ⟨(smallPrimes.take 4).map (rootFraction 2), ((smallPrimes.drop 4).take 4).map (rootFraction 2)⟩

/-- The digest as its 32 bytes. -/
def sha256 (msg : List Byte) : List Byte :=
  let p := shaPad msg
  (shaBlocks (p.length / 64) shaStart p).words.flatMap fun w => beBytes w.toNat 4

/-- The digest as it stands in memory, first byte lowest (R4). -/
def shaField (msg : List Byte) : BitVec 256 := BitVec.ofNat 256 (natOfBytes (sha256 msg))

/-! ## P-256 -/

def p256 : Nat := 0xffffffff00000001000000000000000000000000ffffffffffffffffffffffff
def p256b : Nat := 0x5ac635d8aa3a93e7b3ebbd55769886bc651d06b0cc53b0f63bce3c3e27d2604b
def p256n : Nat := 0xffffffff00000000ffffffffffffffffbce6faada7179e84f3b9cac2fc632551
def p256g : Nat × Nat :=
  (0x6b17d1f2e12c4247f8bce6e563a440f277037d812deb33a0f4a13945d898c296,
   0x4fe342e2fe1a7f9b8ee7eb4a7c0f9e162bce33576b315ececbb6406837bf51f5)

/-- x to the power e modulo n, over the lowest `k` bits of e. -/
def powMod (n : Nat) : Nat → Nat → Nat → Nat
  | 0, _, _ => 1 % n
  | k + 1, x, e =>
    let r := powMod n k (x * x % n) (e / 2)
    if e % 2 = 1 then x * r % n else r

/-- The inverse modulo a prime. -/
def invMod (n x : Nat) : Nat := powMod n 256 (x % n) (n - 2)

def subMod (n a b : Nat) : Nat := (a + (n - b % n)) % n

/-- The point lies on the curve, and its coordinates are below the prime (R298). -/
def onCurve (x y : Nat) : Bool :=
  decide (x < p256) && decide (y < p256) && y * y % p256 == (x * x * x + subMod p256 p256b (3 * x)) % p256

/-- Addition of points; none is the point at infinity. -/
def addPoint (a b : Option (Nat × Nat)) : Option (Nat × Nat) :=
  match a, b with
  | none, b => b
  | some a, none => some a
  | some (x1, y1), some (x2, y2) =>
    if x1 = x2 ∧ (y1 + y2) % p256 = 0 then none
    else
      let l := if x1 = x2 then (3 * x1 * x1 + (p256 - 3)) * invMod p256 (2 * y1) % p256
        else subMod p256 y2 y1 * invMod p256 (subMod p256 x2 x1) % p256
      let x3 := subMod p256 (l * l) (x1 + x2)
      some (x3, subMod p256 (l * subMod p256 x1 x3) y1)

/-- Multiple of a point, over the lowest `k` bits of the factor. -/
def mulPoint : Nat → Nat → Option (Nat × Nat) → Option (Nat × Nat)
  | 0, _, _ => none
  | k + 1, e, p =>
    if e = 0 then none
    else
      let r := mulPoint k (e / 2) (addPoint p p)
      if e % 2 = 1 then addPoint p r else r

/-- ECDSA with SHA-256: whether (r, s) signs the message under the key (R310). -/
def ecdsaOk (key : Nat × Nat) (msg : List Byte) (r s : Nat) : Bool :=
  if r = 0 ∨ r ≥ p256n ∨ s = 0 ∨ s ≥ p256n then false
  else
    let w := invMod p256n s
    let u := beNat (sha256 msg) * w % p256n
    let v := r * w % p256n
    match addPoint (mulPoint 256 u (some p256g)) (mulPoint 256 v (some key)) with
    | none => false
    | some (x, _) => x % p256n == r

end Sys2Proof.Machine
end

