-- ==== Sys2Proof/Machine/Gate.lean ====
section
/-! DEFINITION. The release gate (R309 to R313): the release block, the policy, the checks in their order, the release. -/

namespace Sys2Proof.Machine

/-! ## Release block and policy (R309, R310) -/

structure Release where
  src : Nat
  dst : Nat
  len : Nat
  pol : Nat
  bar : Nat
  bad : Bool
  deriving DecidableEq, Repr

def releaseOf (x : BitVec 512) : Release :=
  let f := cmdField x
  { src := f 47 0, dst := f 111 64, len := f 159 128, pol := f 239 192, bar := f 303 256
    bad := f 63 48 != 0 || f 127 112 != 0 || f 191 160 != 0 || f 255 240 != 0 || f 511 304 != 0 || f 47 0 % 16 != 0 ||
      f 111 64 % 16 != 0 || f 159 128 % 16 != 0 || decide (f 159 128 < 16) || decide (f 159 128 > 1048576) || f 239 192 % 64 != 0 }

structure Policy where
  ver   : Nat
  dhf   : Bool
  pmask : Mask
  dkind : Nat
  dlo   : Nat
  dhi   : Nat
  modid : Nat
  maxb  : Nat
  pid   : BitVec 64
  dh    : BitVec 256
  rsvd  : Bool
  deriving DecidableEq, Repr

def policyOf (x : Nat) : Policy :=
  { ver := field x 7 0, dhf := x.testBit 8, pmask := BitVec.ofNat 16 (field x 31 16), dkind := field x 33 32, dlo := field x 111 64
    dhi := field x 175 128, modid := field x 203 192, maxb := field x 255 224, pid := BitVec.ofNat 64 (field x 319 256)
    dh := BitVec.ofNat 256 (field x 767 512)
    rsvd := field x 15 9 != 0 || field x 63 34 != 0 || field x 127 112 != 0 || field x 191 176 != 0 || field x 223 204 != 0 ||
      field x 511 320 != 0 || field x 1023 768 != 0 }

/-- Codes of R312. -/
inductive GateCode where
  | ok | policy | party | sig | dest | digest | budget | full | xlate | data | mtype
  deriving DecidableEq, Repr

def GateCode.code : GateCode → Nat
  | .ok => 0 | .policy => 1 | .party => 2 | .sig => 3 | .dest => 4 | .digest => 5 | .budget => 6 | .full => 7 | .xlate => 8
  | .data => 9 | .mtype => 10

/-- Why a request fails: its code and index. -/
structure GateFail where
  code  : GateCode
  index : Nat
  deriving DecidableEq, Repr

/-- An engine access of the gate that fails: translation, memory type, uncorrectable data. -/
def gateErr : EngErr → GateFail
  | .xlate _ => ⟨.xlate, 0⟩
  | .mtype _ => ⟨.mtype, 0⟩
  | .perm _ => ⟨.dest, 0⟩
  | .tag _ => ⟨.dest, 0⟩
  | .data _ => ⟨.data, 0⟩
  | .own _ _ => ⟨.data, 0⟩

def Mach.gateRead (m : Mach) (mg : Mgmt) (a : Actor) (va n : Nat) : Except GateFail (List Byte × Mask) × Mach :=
  match m.engRead mg a .copy va n with
  | (.error e, m) => (.error (gateErr e), m)
  | (.ok x, m) => (.ok x, m)

/-! ## Checks in the order of R311 -/

/-- The destination: its pages, each of the policy's kind and writable. -/
def Mach.gateDest (m : Mach) (mg : Mgmt) (a : Actor) (p : Policy) : List (Nat × Nat) → Except GateFail (List (Place × Nat)) × Mach
  | [] => (.ok [], m)
  | (va, n) :: r =>
    match m.translate a va with
    | (.error _, m) => (.error ⟨.xlate, 0⟩, m)
    | (.ok l, m) => match m.placeOf mg a.ctx l va with
      | .error _ => (.error ⟨.xlate, 0⟩, m)
      | .ok place =>
        let kind : Bool := match place with
          | .host h => p.dkind == if m.atBusPeer h then 1 else 0
          | .peer k _ => p.dkind == 2 && k == p.modid
          | .dev _ => false
          | .spad _ _ => false
        if !kind || !l.w then (.error ⟨.dest, 0⟩, m)
        else match m.gateDest mg a p r with
          | (.error e, m) => (.error e, m)
          | (.ok ps, m) => (.ok ((place, n) :: ps), m)

/-- The first signature that does not verify, or cannot be read. -/
def Mach.gateSigs (m : Mach) (mg : Mgmt) (a : Actor) (pol : Nat) (body : List Byte) : Nat → List Nat → Except GateFail Unit × Mach
  | _, [] => (.ok (), m)
  | j, i :: r =>
    match m.gateRead mg a (pol + 128 + 64 * j) 64 with
    | (.error e, m) => (.error e, m)
    | (.ok (bs, _), m) =>
      let key := (m.party a.ctx i).toNat
      if ecdsaOk (field key 255 0, field key 511 256) body (natOfBytes (bs.take 32)) (natOfBytes (bs.drop 32))
      then m.gateSigs mg a pol body (j + 1) r
      else (.error ⟨.sig, i⟩, m)

/-- What a request that passes does: the destination, the buffer, the record. -/
structure Grant where
  dest   : List (Place × Nat)
  buffer : List Byte
  pid    : BitVec 64
  digest : BitVec 256
  deriving DecidableEq, Repr

/-- The budget table's answer (R311). -/
def budgetFail (bs : List Budget) (p : Policy) (digest : BitVec 256) (len : Nat) : Option GateFail :=
  match bs.find? (·.pid == p.pid) with
  | some b => if b.digest != digest then some ⟨.policy, 2⟩ else if b.bytes + len > p.maxb then some ⟨.budget, 0⟩ else none
  | none => if bs.length ≥ 64 then some ⟨.full, 0⟩ else if len > p.maxb then some ⟨.budget, 0⟩ else none

/-- The source and what follows it. -/
def Mach.gateSource (m : Mach) (mg : Mgmt) (a : Actor) (g : GateReq) (r : Release) (p : Policy) (digest : BitVec 256)
    (dest : List (Place × Nat)) : (Except GateFail Grant × Mask) × Mach :=
  let known := g.blockTag ||| g.tags
  match m.gateRead mg a r.src r.len with
  | (.error e, m) => ((.error e, known), m)
  | (.ok (buf, t), m) =>
    let d := t ||| known
    let fail (e : GateFail) : (Except GateFail Grant × Mask) × Mach := ((.error e, d), m)
    match bitsOf (d &&& ~~~p.pmask) with
    | i :: _ => fail ⟨.party, i⟩
    | [] =>
      if p.dhf && shaField buf != p.dh then fail ⟨.digest, 0⟩
      else match budgetFail (m.ctx a.ctx).budgets p digest r.len with
        | some e => fail e
        | none => ((.ok ⟨dest, buf, p.pid, digest⟩, d), m)

def policyBad (c : Ctx) (p : Policy) : Bool :=
  p.ver != 1 || p.rsvd || p.dkind == 3 || p.pmask == 0 || (bitsOf p.pmask).any (fun i => !tabHas c.parties i) || decide (p.dlo ≥ p.dhi)

/-- Every check of R311, in order; the mask is that of the status. -/
def Mach.gateChecks (m : Mach) (mg : Mgmt) (a : Actor) (g : GateReq) (r : Release) : (Except GateFail Grant × Mask) × Mach :=
  let known := g.blockTag ||| g.tags
  let fail (m : Mach) (e : GateFail) : (Except GateFail Grant × Mask) × Mach := ((.error e, known), m)
  if r.bad then fail m ⟨.policy, 0⟩
  else match m.gateRead mg a r.pol 128 with
    | (.error e, m) => fail m e
    | (.ok (body, _), m) =>
      let p := policyOf (natOfBytes body)
      if policyBad (m.ctx a.ctx) p then fail m ⟨.policy, 1⟩
      else if r.dst < p.dlo ∨ r.dst + r.len > p.dhi then fail m ⟨.dest, 0⟩
      else match m.gateDest mg a p (pageCuts r.dst r.len) with
        | (.error e, m) => fail m e
        | (.ok dest, m) =>
          if p.dkind == 2 && (m.trusted a.launch p.modid || p.modid == mg.modid.toNat) then fail m ⟨.dest, 0⟩
          else match m.gateSigs mg a r.pol body 0 (bitsOf p.pmask) with
            | (.error e, m) => fail m e
            | (.ok _, m) => m.gateSource mg a g r p (shaField body) dest

/-! ## The release -/

/-- The buffer goes to its destination; earlier posted stores of the context arrive first (R133). -/
def Mach.gateWrite (m : Mach) (ctx : Nat) : List (Place × Nat) → List Byte → Mach
  | [], _ => m
  | (p, n) :: r, bs => (m.sendFar ctx p (bs.take n)).gateWrite ctx r (bs.drop n)

def addBudget (pid : BitVec 64) (digest : BitVec 256) (len : Nat) (bs : List Budget) : List Budget :=
  if bs.any (·.pid == pid) then bs.map fun b => if b.pid == pid then { b with bytes := b.bytes + len } else b
  else bs ++ [⟨pid, digest, len⟩]

/-- The status word reaches its scalar, the write slot falls (R312, R313). -/
def Mach.gateAnswer (m : Mach) (g : GateReq) (status : Nat) (tag : Mask) : Mach :=
  m.modWarp g.bid g.warp fun w =>
    let w := match regOf 0 g.dst 0 with
      | none => w
      | some r => w.arriveReg g.flight r ⟨BitVec.ofNat 32 status, tag⟩
    w.endId g.flight

/-- BAR is counted down by LEN after the status; an object that cannot be updated keeps its value (log 16). -/
def Mach.gateBar (m : Mach) (mg : Mgmt) (a : Actor) (r : Release) : Mach :=
  if r.bar = 0 then m
  else match m.engBar mg a r.bar with
    | (.error _, m) => m
    | (.ok l, m) => (m.engBarUpdate mg a l (fun o => o.countDown r.len) 0).2

/-- RELEASE_GATE_PROCESS (R311): the oldest request, once the warp's posted presses have been applied (R313). -/
def Mach.gateProcess (m : Mach) (mg : Mgmt) : Mach :=
  match m.gate with
  | [] => m
  | g :: rest =>
    if m.presses.any fun r => r.ids.any g.waits.contains then m
    else
      let core := ((m.block? g.bid).map (·.core)).getD 0
      let a := engineOf g.ctx g.launch core
      let r := releaseOf g.block
      let ((res, tag), m) := ({ m with gate := rest } : Mach).gateChecks mg a g r
      match res with
      | .error e => m.gateAnswer g (e.code.code + 256 * e.index) (tag ||| g.tags)
      | .ok x =>
        let m := (m.deliverAll fun p => p.ctx == g.ctx).gateWrite g.ctx x.dest x.buffer
        let m := m.modCtx g.ctx fun c => { c with budgets := addBudget x.pid x.digest r.len c.budgets }
        (m.gateAnswer g 0 (tag ||| g.tags)).gateBar mg a r
def execReleaseGateProcess (s : State) : Host.Outcome State Fault Refusal := onEvent (fun mg m => m.gateProcess mg) s

end Sys2Proof.Machine
end

