-- ==== Sys2Proof/Machine/MatrixUnit.lean ====
section
/-! DEFINITION. The matrix unit of a core: parameter blocks (R213 to R215), panels and rows (R203, R214, R216, R217), completion
(R218, R220), pauses and errors (R222, R223), drains and the bypass (R225 to R227). -/

namespace Sys2Proof.Machine

/-! ## Parameter blocks (R213) -/

/-- The fields of a parameter block. -/
structure MmaParams where
  afmt : Nat
  bfmt : Nat
  asgn : Bool
  bsgn : Bool
  acc  : Bool
  ta   : Bool
  tb   : Bool
  byp  : Bool
  rows : Nat
  cols : Nat
  k    : Nat
  acq  : Bool
  aaddr : Nat
  baddr : Nat
  astr  : Nat
  bstr  : Nat
  ascl  : Nat
  bscl  : Nat
  bar   : Nat
  rsvd  : Bool
  deriving DecidableEq, Repr

def mmaParams (x : BitVec 512) : MmaParams :=
  let f := cmdField x
  { afmt := f 3 0, bfmt := f 7 4, asgn := x.getLsbD 8, bsgn := x.getLsbD 9, acc := x.getLsbD 10, ta := x.getLsbD 11
    tb := x.getLsbD 12, byp := x.getLsbD 13, rows := f 24 18, cols := f 31 25, k := f 47 32, acq := x.getLsbD 48
    aaddr := f 111 64, baddr := f 175 128, astr := f 223 192, bstr := f 255 224, ascl := f 303 256, bscl := f 367 320
    bar := f 431 384
    rsvd := f 63 52 != 0 || f 127 112 != 0 || f 191 176 != 0 || f 319 304 != 0 || f 383 368 != 0 || f 511 432 != 0 }

/-- The tile type and k_s of a format pair (R203). -/
def mmaPair (a b : Nat) : Option (TileType × Nat) :=
  if (a = 1 ∧ b = 1) ∨ (a = 2 ∧ b = 2) then some (.fp32, 1)
  else if (a = 3 ∨ a = 4) ∧ (b = 3 ∨ b = 4) then some (.fp32, 2)
  else if a = 7 ∧ b = 7 then some (.int32, 2)
  else if a = 8 ∧ b = 8 then some (.int32, 4)
  else if a = 9 ∧ b = 9 then some (.fp32, 4)
  else none

def MmaParams.ks (p : MmaParams) : Nat := ((mmaPair p.afmt p.bfmt).map (·.2)).getD 1
def MmaParams.type (p : MmaParams) : TileType := ((mmaPair p.afmt p.bfmt).map (·.1)).getD .either
/-- ASGN and BSGN are read for the integer formats. -/
def MmaParams.signChoice (p : MmaParams) : Bool := p.afmt == 7 || p.afmt == 8
def MmaParams.o4 (p : MmaParams) : Bool := p.afmt == 9
/-- Element width in bits. -/
def MmaParams.width (p : MmaParams) : Nat := if p.afmt ≤ 2 then 16 else if p.afmt ≥ 8 then 4 else 8
/-- Elements of K in one panel. -/
def MmaParams.depth (p : MmaParams) : Nat := 64 * p.ks
def MmaParams.panels (p : MmaParams) : Nat := (p.k + p.depth - 1) / p.depth

/-- The cause of an ill-formed block (R215), in the order of the table: `tile` is the tile taken at issue, `byp` the bypass. -/
def MmaParams.cause (p : MmaParams) (bid : Nat) (tile : Option Tile) (byp : Option Bypass) : Option Nat :=
  if p.rsvd then some 1
  else if (mmaPair p.afmt p.bfmt).isNone || ((p.asgn || p.bsgn) && !p.signChoice) then some 2
  else if p.rows = 0 ∨ p.cols = 0 ∨ p.k = 0 ∨ p.rows > 64 ∨ p.cols > 64 ∨ p.k % p.ks ≠ 0 ∨ (p.o4 ∧ p.k % 64 ≠ 0) then some 3
  else
    let al := if p.o4 then 32 else 16
    if p.aaddr % al ≠ 0 ∨ p.baddr % al ≠ 0 ∨ p.astr % al ≠ 0 ∨ p.bstr % al ≠ 0 ∨ p.ascl % 2 ≠ 0 ∨ p.bscl % 2 ≠ 0 ∨
        (!p.o4 ∧ (p.ascl ≠ 0 ∨ p.bscl ≠ 0)) then some 4
    else if p.o4 && (p.ta || !p.tb) then some 5
    else if p.acc && (match tile with
      | none => true
      | some t => !t.valid || (t.type != .either && t.type != p.type)) then some 6
    else if p.byp && (match byp with
      | none => true
      | some b => b.owner != bid || b.fmt.code.toNat != p.afmt || decide (p.k > 64) || p.aaddr != 0 || p.astr != 0) then some 7
    else none

/-! ## O4 groups (R200, R201) -/

/-- The bytes claimed as payloads; none for an ill-formed group. -/
def o4Claims (bs : List Byte) : List Nat → List Nat → Option (List Nat)
  | claimed, [] => some claimed
  | claimed, j :: r =>
    let b := (bs.getD j 0).toNat
    let lo := b % 16 == 8
    let hi := b / 16 == 8
    if claimed.contains j then o4Claims bs claimed r
    else if lo && hi then none
    else if lo || hi then
      let t := if j < 31 then j + 1 else 30
      let pay := (bs.getD t 0).toNat
      let marked (x : Nat) : Bool := x % 16 == 8 || x / 16 == 8
      if claimed.contains t || (t == 30 && marked pay) || pay == 0x7F || pay == 0xFF then none
      else o4Claims bs (t :: claimed) r
    else o4Claims bs claimed r

/-- The 64 element values of a group with its scale. -/
def o4Group (bs : List Byte) (scale : Nat) : Option (List FVal) :=
  let s := fmtValue .f16 false scale
  let bad := match s with
    | .nan => true
    | .inf _ => true
    | .fin _ _ _ => false
  if bad then none
  else (o4Claims bs [] (List.range 32)).map fun claimed =>
    (List.range 64).map fun e =>
      let j := e / 2
      let x := elemAt 4 (e % 2) (bs.getD j 0).toNat
      if claimed.contains j then .fin false 0 0
      else if x = 8 then (fmtValue .e4m3 false (bs.getD (if j < 31 then j + 1 else 30) 0).toNat).mul s
      else (fmtValue .i4 false x).mul s

/-! ## Operands (R214) -/

abbrev EngRes (α : Type) := Except EngErr α × Mach

/-- `n` consecutive elements that start at element `k` of a run at a base address. -/
def Mach.readRun (m : Mach) (mg : Mgmt) (a : Actor) (w base k n : Nat) : EngRes (List Nat × Mask) :=
  let bit := w * k
  let first := base + bit / 8
  let len := (bit % 8 + w * n + 7) / 8
  match m.engRead mg a .matrix first len with
  | (.error e, m) => (.error e, m)
  | (.ok (bs, t), m) =>
    let x := natOfBytes bs >>> (bit % 8)
    (.ok ((List.range n).map (fun i => elemAt w i x), t), m)

/-- O4 groups `g0` to `g0 + n − 1` of a run, with their scales. -/
def Mach.readGroups (m : Mach) (mg : Mgmt) (a : Actor) (base scl g0 : Nat) : Nat → EngRes (List FVal × Mask)
  | 0 => (.ok ([], 0), m)
  | n + 1 =>
    match m.engRead mg a .matrix (base + 32 * g0) 32 with
    | (.error e, m) => (.error e, m)
    | (.ok (bs, t), m) => match m.engRead mg a .matrix (scl + 2 * g0) 2 with
      | (.error e, m) => (.error e, m)
      | (.ok (sb, u), m) => match o4Group bs (natOfBytes sb) with
        | none => (.error (.own 8 (base + 32 * g0)), m)
        | some vs => match m.readGroups mg a base scl (g0 + 1) n with
          | (.error e, m) => (.error e, m)
          | (.ok (ws, x), m) => (.ok (vs ++ ws, t ||| u ||| x), m)

/-- One element of each of several runs: the runs start `str` apart. -/
def Mach.readColumn (m : Mach) (mg : Mgmt) (a : Actor) (w base str i : Nat) : List Nat → EngRes (List Nat × Mask)
  | [] => (.ok ([], 0), m)
  | k :: r => match m.readRun mg a w (base + k * str) i 1 with
    | (.error e, m) => (.error e, m)
    | (.ok (x, t), m) => match m.readColumn mg a w base str i r with
      | (.error e, m) => (.error e, m)
      | (.ok (y, u), m) => (.ok (x ++ y, t ||| u), m)

/-- Several runs of `n` elements from element `k`, one for each index. -/
def Mach.readRuns (m : Mach) (mg : Mgmt) (a : Actor) (w base str k n : Nat) : List Nat → EngRes (List (List Nat) × Mask)
  | [] => (.ok ([], 0), m)
  | i :: r => match m.readRun mg a w (base + i * str) k n with
    | (.error e, m) => (.error e, m)
    | (.ok (x, t), m) => match m.readRuns mg a w base str k n r with
      | (.error e, m) => (.error e, m)
      | (.ok (y, u), m) => (.ok (x :: y, t ||| u), m)

def Mach.readGroupRuns (m : Mach) (mg : Mgmt) (a : Actor) (base str scl per g0 n : Nat) : List Nat → EngRes (List (List FVal) × Mask)
  | [] => (.ok ([], 0), m)
  | i :: r =>
    match m.readGroups mg a (base + i * str) (scl + 2 * (i * per)) g0 n with
    | (.error e, m) => (.error e, m)
    | (.ok (x, t), m) => match m.readGroupRuns mg a base str scl per g0 n r with
      | (.error e, m) => (.error e, m)
      | (.ok (y, u), m) => (.ok (x :: y, t ||| u), m)

def MmaParams.value (p : MmaParams) (b : Bool) (x : Nat) : FVal :=
  let f := (Fmt.ofCode (BitVec.ofNat 4 (if b then p.bfmt else p.afmt))).getD .f32
  fmtValue f (!(if b then p.bsgn else p.asgn)) x

/-- Depth range of panel q. -/
def MmaParams.range (p : MmaParams) (q : Nat) : Nat × Nat := (p.depth * q, min (p.depth * (q + 1)) p.k)

/-- Panel q of B, by column. -/
def Mach.readPanel (m : Mach) (mg : Mgmt) (a : Actor) (p : MmaParams) (q : Nat) : EngRes (List (List FVal) × Mask) :=
  let (k0, k1) := p.range q
  if p.o4 then m.readGroupRuns mg a p.baddr p.bstr p.bscl (p.k / 64) (k0 / 64) ((k1 - k0) / 64) (List.range p.cols)
  else if p.tb then
    match m.readRuns mg a p.width p.baddr p.bstr k0 (k1 - k0) (List.range p.cols) with
    | (.error e, m) => (.error e, m)
    | (.ok (l, t), m) => (.ok (l.map (·.map (p.value true)), t), m)
  else
    match m.readRuns mg a p.width p.baddr p.bstr 0 p.cols ((List.range (k1 - k0)).map (k0 + ·)) with
    | (.error e, m) => (.error e, m)
    | (.ok (l, t), m) => (.ok ((List.range p.cols).map (fun j => l.map fun r => p.value true (r.getD j 0)), t), m)

/-- The bypass element that A(i, k) is (R227). -/
def bypassValue (p : MmaParams) (b : Bypass) (i k : Nat) : FVal :=
  p.value false (tabGet b.words (if p.ta then 64 * k + i else 64 * i + k) 0).toNat

/-- Row i of A in panel q. -/
def Mach.readRow (m : Mach) (mg : Mgmt) (a : Actor) (p : MmaParams) (byp : Option Bypass) (q i : Nat) : EngRes (List FVal × Mask) :=
  let (k0, k1) := p.range q
  let ks := (List.range (k1 - k0)).map (k0 + ·)
  if p.byp then
    match byp with
    | none => (.ok (ks.map fun _ => .fin false 0 0, 0), m)
    | some b => (.ok (ks.map (bypassValue p b i), b.tag), m)
  else if p.o4 then m.readGroups mg a (p.aaddr + i * p.astr) (p.ascl + 2 * (i * (p.k / 64))) (k0 / 64) ((k1 - k0) / 64)
  else if p.ta then
    match m.readColumn mg a p.width p.aaddr p.astr i ks with
    | (.error e, m) => (.error e, m)
    | (.ok (l, t), m) => (.ok (l.map (p.value false), t), m)
  else
    match m.readRun mg a p.width (p.aaddr + i * p.astr) k0 (k1 - k0) with
    | (.error e, m) => (.error e, m)
    | (.ok (l, t), m) => (.ok (l.map (p.value false), t), m)

/-! ## Arithmetic (R216) -/

/-- The exact integer of an integer element. -/
def exactInt : FVal → Int
  | .fin s n e => let k : Int := ((n * 2 ^ e.toNat : Nat) : Int); if s then -k else k
  | .nan => 0
  | .inf _ => 0

/-- Combine: prior, if any, and every product, rounded once. -/
def combine (type : TileType) (prior : Option Word) (xs ys : List FVal) : Word :=
  match type with
  | .int32 =>
    let s := (xs.zip ys).foldl (fun (t : Int) p => t + exactInt p.1 * exactInt p.2) 0
    BitVec.ofInt 32 (((prior.getD 0).toNat : Int) + s)
  | .fp32 => roundF32 .rne false (FVal.sum .rne ((prior.toList.map f32) ++ (xs.zip ys).map fun p => p.1.mul p.2))
  | .either => roundF32 .rne false (FVal.sum .rne ((prior.toList.map f32) ++ (xs.zip ys).map fun p => p.1.mul p.2))

/-- Add one row of A against the panel into the tile. -/
def addRow (p : MmaParams) (q i : Nat) (row : List FVal) (cols : List (List FVal)) (t : Tile) : Tile :=
  { t with words := (cols.zipIdx).foldl (fun w c =>
      let x := 64 * i + c.2
      tabSet w x (combine p.type (if q = 0 && !p.acc then none else some (tabGet w x 0)) row c.1)) t.words }

/-! ## Running a command -/

def Mach.modTile (m : Mach) (core t : Nat) (f : Tile → Tile) : Mach := m.modCore core fun c => { c with tiles := tabMod c.tiles t f }

/-- Change the executing command. -/
def Mach.modHead (m : Mach) (core : Nat) (f : Command → Command) : Mach :=
  m.modCore core fun c => match c.mq with
    | [] => c
    | x :: r => { c with mq := f x :: r }

/-- The record of R223. -/
def mxRecord (b : Block) (c : Command) (cause va : Nat) : BitVec 256 :=
  let drain := match c.op with
    | .mma _ _ => false
    | .drain _ _ _ => true
    | .copy _ _ _ => false
  BitVec.ofNat 256 (cause + c.handle * 2 ^ 8 + (if drain then 2 ^ 12 else 0) + b.index % 2 ^ 32 * 2 ^ 32 + c.addr * 2 ^ 64 +
    b.core % 2 ^ 16 * 2 ^ 112 + (if cause ≤ 7 then 0 else va % 2 ^ 48) * 2 ^ 128 + c.panel % 2 ^ 16 * 2 ^ 192 + c.row % 128 * 2 ^ 208)

def mxCause : EngErr → Nat × Nat
  | .xlate a => (0xB, a)
  | .mtype a => (0xA, a)
  | .perm a => (0xD, a)
  | .tag a => (0xC, a)
  | .data a => (0x9, a)
  | .own c a => (c, a)

/-- The tag of the tile that an MMA writes, once the command is over (R220). -/
def tileTag (p : MmaParams) (blockTag read : Mask) (t : Tile) : Mask := (if p.acc then t.tag else 0) ||| read ||| blockTag

/-- The tile of a command that ended with an error (R222): invalid, unless every row was written (R218); its tag is that of a command
that is over (R220). -/
def Command.spoil (c : Command) (t : Tile) : Tile :=
  if c.ready then t
  else { t with valid := false, tag := match c.op with
    | .mma x blockTag => tileTag (mmaParams x) blockTag c.tags t
    | .drain _ _ _ => t.tag
    | .copy _ _ _ => t.tag }

/-- MATRIX_ERROR_HALT (R222) of a command in the queue: it ends, its tile is spoiled, the block's other commands are kept, the block is
suspended. -/
def Mach.mxErrorOf (m : Mach) (mg : Mgmt) (core : Nat) (c : Command) (cause va : Nat) : Mach :=
  let rest := (m.core core).mq.erase c
  match m.block? c.bid with
  | none => m.modCore core fun x => { x with mq := rest }
  | some b =>
    let m := (m.modTile core c.tile c.spoil).endCommand c
    let m := m.modCore core fun x => { x with mq := rest.filter (·.bid != c.bid) }
    let m := m.modBlock c.bid fun b => { b with keptMx := b.keptMx ++ rest.filter (·.bid == c.bid) }
    m.engineHold mg c.bid 3 (mxRecord b c cause va)

/-- MATRIX_ERROR_HALT of the executing command. -/
def Mach.mxError (m : Mach) (mg : Mgmt) (core cause va : Nat) : Mach :=
  match (m.core core).mq with
  | [] => m
  | c :: _ => m.mxErrorOf mg core c cause va

/-- MMA_PIPE_FAULT, or an error (R222). -/
def Mach.mxStop (m : Mach) (mg : Mgmt) (core : Nat) (c : Command) (b : Block) (e : EngErr) : Mach :=
  match e with
  | .xlate va =>
    let m := m.modHead core fun x => { x with fwait := some (BitVec.ofNat 48 va) }
    m.pauseEntry b.ctx c.bid va (core * 2 ^ 16)
  | .mtype _ => let (k, a) := mxCause e; m.mxError mg core k a
  | .perm _ => let (k, a) := mxCause e; m.mxError mg core k a
  | .tag _ => let (k, a) := mxCause e; m.mxError mg core k a
  | .data _ => let (k, a) := mxCause e; m.mxError mg core k a
  | .own _ _ => let (k, a) := mxCause e; m.mxError mg core k a

/-- Rows `i` to M − 1 of panel q; `fuel` counts them. -/
def Mach.mmaRows (m : Mach) (mg : Mgmt) (a : Actor) (core : Nat) (p : MmaParams) (byp : Option Bypass) (tile q : Nat)
    (cols : List (List FVal)) : Nat → Nat → Except EngErr Unit × Mach
  | 0, _ => (.ok (), m)
  | fuel + 1, i =>
    match m.readRow mg a p byp q i with
    | (.error e, m) => (.error e, m)
    | (.ok (row, t), m) =>
      let m := m.modTile core tile (addRow p q i row cols)
      let m := m.modHead core fun c => { c with panel := q, row := i + 1, tags := c.tags ||| t }
      m.mmaRows mg a core p byp tile q cols fuel (i + 1)

/-- Panel q, from row `i` (R216). -/
def Mach.mmaPanel (m : Mach) (mg : Mgmt) (a : Actor) (core : Nat) (p : MmaParams) (byp : Option Bypass) (tile q i : Nat) :
    Except EngErr Unit × Mach :=
  match m.readPanel mg a p q with
  | (.error e, m) => (.error e, m)
  | (.ok (cols, t), m) =>
    let m := m.modHead core fun c => { c with tags := c.tags ||| t }
    m.mmaRows mg a core p byp tile q cols (p.rows - i) i

/-- The last row is written: the tile's type, validity and tag (R216, R220). -/
def Mach.mmaFinish (m : Mach) (core tile : Nat) (p : MmaParams) (blockTag : Mask) : Mach :=
  let tags := (((m.core core).mq.head?).map (·.tags)).getD 0
  let m := m.modTile core tile fun t =>
    { t with type := p.type, valid := true, tag := tileTag p blockTag tags t }
  m.modHead core fun c => { c with ready := true }

/-- MMA_COMMAND_START (R215, R218, R222): the command at the head is checked once, then streams one panel at a time; it goes on
from the panel and row of its pause. -/
def Mach.mmaStart (m : Mach) (mg : Mgmt) (core : Nat) : Mach :=
  match (m.core core).mq with
  | [] => m
  | c :: _ =>
    match c.op, m.block? c.bid with
    | .mma x blockTag, some b =>
      if c.ready || c.fwait.isSome || !m.mayStart c then m
      else
        let p := mmaParams x
        let byp := (m.core core).bypass
        let bad := if c.begun then none else p.cause c.bid (tabFind (m.core core).tiles c.tile) byp
        let m := m.modHead core fun c => { c with begun := true }
        match bad with
        | some k => m.mxError mg core k 0
        | none =>
          let a := b.engineActor true
          let (chk, m) : Except EngErr Unit × Mach := if p.bar = 0 ∨ c.panel ≠ 0 ∨ c.row ≠ 0 then (.ok (), m)
            else match m.engBar mg a p.bar with
              | (.error e, m) => (.error e, m)
              | (.ok _, m) => (.ok (), m)
          match chk with
          | .error e => m.mxStop mg core c b e
          | .ok _ => match m.mmaPanel mg a core p byp c.tile c.panel c.row with
            | (.error e, m) => m.mxStop mg core c b e
            | (.ok _, m) =>
              if c.panel + 1 < p.panels then m.modHead core fun x => { x with panel := c.panel + 1, row := 0 }
              else m.mmaFinish core c.tile p blockTag
    | _, _ => m
def execMmaCommandStart (core : Nat) (s : State) : Host.Outcome State Fault Refusal :=
  onEvent (fun mg m => m.mmaStart mg core) s

/-- The completion stamp (R126): greater than the stamp of every write the command covers. -/
def Mach.completionStamp (m : Mach) (c : Command) (acq : Bool) : Nat × Mach :=
  if acq then (c.stamp + 1, m.noteStamp (c.stamp + 1)) else (0, m)

/-- The write slot of the executing command falls, with its completion stamp for those who observe the slot (R218); the command may
stay for its arrival. -/
def Mach.mxFall (m : Mach) (core : Nat) (c : Command) (stamp : Nat) : Mach :=
  let slot := c.flight.bind fun id => (m.warp? c.bid c.warp).bind fun w => (w.flights.find? (·.id == id)).bind (·.slot)
  let m := m.modWarp c.bid c.warp fun w => match slot with
    | none => w
    | some j => { w with slotAcq := tabSet w.slotAcq j (max stamp (tabGet w.slotAcq j 0)) }
  (m.endCommand c).modHead core fun x => { x with flight := none }

/-- The executing command leaves the queue. -/
def Mach.mxLeave (m : Mach) (core : Nat) : Mach := m.modCore core fun x => { x with mq := x.mq.drop 1 }

/-- A matrix command ends well. -/
def Mach.mxDone (m : Mach) (core : Nat) (c : Command) (stamp : Nat) : Mach := (m.mxFall core c stamp).mxLeave core

/-- MMA_COMPLETE (R218): the completion stamp, the write slot, then the arrival, which may fail or pause. -/
def Mach.mmaComplete (m : Mach) (mg : Mgmt) (core : Nat) : Mach :=
  match (m.core core).mq with
  | [] => m
  | c :: _ =>
    match c.op, m.block? c.bid with
    | .mma x _, some b =>
      if !c.ready || c.fwait.isSome then m
      else
        let p := mmaParams x
        let a := b.engineActor true
        let (st, m) := m.completionStamp c p.acq
        let m := m.mxFall core c st
        let c := { c with flight := none }
        if p.bar = 0 then m.mxLeave core
        else match m.engBar mg a p.bar with
          | (.error e, m) => m.mxStop mg core c b e
          | (.ok l, m) => match m.engBarUpdate mg a l BarObj.arrive (if p.acq then st else 0) with
            | (.error e, m) => m.mxStop mg core c b e
            | (.ok _, m) => m.mxLeave core
    | _, _ => m
def execMmaComplete (core : Nat) (s : State) : Host.Outcome State Fault Refusal := onEvent (fun mg m => m.mmaComplete mg core) s

/-! ## Drains (R225, R226) -/

/-- Whether the tile's type admits the format, and the bypass (R225). -/
def drainOk (t : TileType) (f : Fmt) (byp : Bool) : Bool :=
  match f with
  | .f32 => t != .int32 && !byp
  | .f16 | .bf16 | .e4m3 | .e5m2 => t != .int32
  | .i32 => t != .fp32 && !byp
  | .i8 => t != .fp32
  | .i16 | .i4 | .o4 => false

/-- The pattern of one drained element. -/
def drainElem (f : Fmt) (mode : RMode) (sat : Bool) (x : Word) : Nat :=
  match f with
  | .f32 => x.toNat
  | .i32 => x.toNat
  | .f16 | .bf16 | .e4m3 | .e5m2 => fmtConvert f mode sat false (f32 x)
  | .i8 => fmtConvert .i8 .rne false false (fmtValue .i32 false x.toNat)
  | .i16 | .i4 | .o4 => 0

/-- Rows that a drain writes: the row number, its destination. -/
def Mach.drainDests (m : Mach) (mg : Mgmt) (a : Actor) (data : Mask) (dest stride len : Nat) :
    List Nat → Except EngErr (List (Nat × List Loc)) × Mach
  | [] => (.ok [], m)
  | i :: r => match m.engDest mg a .tiers data (dest + i * stride) len with
    | (.error e, m) => (.error e, m)
    | (.ok ls, m) => match m.drainDests mg a data dest stride len r with
      | (.error e, m) => (.error e, m)
      | (.ok rest, m) => (.ok ((i, ls) :: rest), m)

def drainRow (f : Fmt) (mode : RMode) (sat : Bool) (t : Tile) (i : Nat) : List Byte :=
  let w := fmtWidth f
  bytesOfNat (packElems w ((List.range 64).map fun j => drainElem f mode sat (tabGet t.words (64 * i + j) 0))) (8 * w)

/-- What follows the stores of a drain: the bypass, the zeroing, completion. -/
def Mach.drainEnd (m : Mach) (core : Nat) (c : Command) (mo : DrainMods) (t : Tile) : Mach :=
  let m := if mo.byp then
      let words := (List.range 4096).foldl (fun w i =>
        tabSet w i (BitVec.ofNat 32 (drainElem mo.fmt mo.mode mo.sat (tabGet t.words i 0)))) ⟨[]⟩
      m.modCore core fun x => { x with bypass := some ⟨mo.fmt, words, t.tag, c.bid⟩ }
    else m
  let m := if mo.z then m.modTile core c.tile fun t => { t with words := ⟨[]⟩, type := .either, tag := 0 } else m
  let c := (((m.core core).mq.head?)).getD c
  let (st, m) := m.completionStamp c mo.acq
  m.mxDone core c st

/-- TDRAIN_EXECUTE (R226): the checks of every destination page come before any row; a pause comes before the first of them. -/
def Mach.tdrainRun (m : Mach) (mg : Mgmt) (core : Nat) : Mach :=
  match (m.core core).mq with
  | [] => m
  | c :: _ =>
    match c.op, m.block? c.bid with
    | .drain mo dest stride, some b =>
      if c.fwait.isSome || !m.mayStart c then m
      else
        let m := m.modHead core fun c => { c with begun := true }
        match tabFind (m.core core).tiles c.tile with
        | none => m.mxError mg core 6 0
        | some t =>
          if !t.valid then m.mxError mg core 6 0
          else if !drainOk t.type mo.fmt mo.byp then m.mxError mg core 2 0
          else if mo.nomem then m.drainEnd core c mo t
          else if dest % 16 ≠ 0 ∨ stride % 16 ≠ 0 then m.mxError mg core 4 0
          else
            let a := b.engineActor true
            let len := 8 * fmtWidth mo.fmt
            match m.drainDests mg a (t.tag ||| c.tags) dest stride len ((List.range (64 - c.row)).map (c.row + ·)) with
            | (.error e, m) => m.mxStop mg core c b e
            | (.ok rows, m) =>
              let m := rows.foldl (fun m r =>
                let (st, m) := m.engStore mg a .matrix r.2 (drainRow mo.fmt mo.mode mo.sat t r.1)
                m.modHead core fun c => { c with row := r.1 + 1, stamp := max c.stamp st }) m
              m.drainEnd core c mo t
    | _, _ => m
def execTdrainExecute (core : Nat) (s : State) : Host.Outcome State Fault Refusal := onEvent (fun mg m => m.tdrainRun mg core) s

end Sys2Proof.Machine
end

