-- ==== Sys2Proof/Machine/Records.lean ====
section
/-! DEFINITION. What the distributor reads: launch records (R250 to R252), press images (R253), damp-region tables (R136, R137),
party tables (R296 to R298), and the rows of R254 that make a record ill-formed. -/

namespace Sys2Proof.Machine

/-! ## The launch record (R250 to R252) -/

/-- The dependence at bit `lo` of a record. -/
def depAt (x lo : Nat) : Dep :=
  { kind := field x (lo + 1) lo, obj := BitVec.ofNat 48 (field x (lo + 55) (lo + 8)), val := BitVec.ofNat 32 (field x (lo + 95) (lo + 64))
    met := field x (lo + 1) lo == 0, told := false }

def depLows : List Nat := [704, 832, 960, 1088]

def parseRec (x : Nat) : LaunchRec :=
  { entry := BitVec.ofNat 48 (field x 47 0), prio := field x 60 56, fmode := field x 62 61, grid := field x 95 64
    warps := field x 101 96, brood := field x 107 102, csize := field x 111 108, regs := field x 119 112, tguar := field x 124 120
    tmax := field x 132 128, spill := field x 145 136, scratch := field x 167 148
    gangs := [192, 224, 256, 288].map fun lo => BitVec.ofNat 32 (field x (lo + 31) lo)
    args := BitVec.ofNat 48 (field x 367 320), argtag := BitVec.ofNat 16 (field x 383 368), pimg := BitVec.ofNat 48 (field x 431 384)
    npimg := field x 438 432, dampt := BitVec.ofNat 48 (field x 495 448), ndamp := field x 502 496
    partyt := BitVec.ofNat 48 (field x 559 512), nparty := field x 564 560, keyh := BitVec.ofNat 32 (field x 607 576)
    deadl := field x 663 640, deps := depLows.map (depAt x), cpla := BitVec.ofNat 48 (field x 1263 1216) }

/-- A non-zero reserved field of R250 or R252. -/
def recReserved (x : Nat) : Bool :=
  [(55, 48), (63, 63), (127, 125), (135, 133), (147, 146), (191, 168), (447, 439), (511, 503), (575, 565), (639, 608), (703, 664),
    (2047, 1264)].any (fun r => field x r.1 r.2 != 0) ||
  depLows.any fun lo => field x (lo + 7) (lo + 2) != 0 || field x (lo + 63) (lo + 56) != 0 || field x (lo + 127) (lo + 96) != 0

/-- An OBJ or VAL that breaks R252; `bound` says whether a queue is bound to the same context. -/
def depBad (bound : Nat → Bool) (d : Dep) : Bool :=
  if d.kind = 0 then d.obj != 0 || d.val != 0
  else if d.kind = 1 then d.obj.toNat % 8 != 0 || decide (d.val.toNat ≥ 128)
  else if d.kind = 2 then decide (d.obj.toNat ≥ 512) || !bound d.obj.toNat
  else true

/-- The rules of R251. -/
def gangsOk (warps : Nat) (gangs : List LaneMask) : Bool :=
  let used := gangs.takeWhile (· != 0)
  gangs.all (fun g => g == 0 || (decide (2 ≤ popcount g) && decide (popcount g ≤ 8) && (bitsOf g).all fun i => decide (i < warps))) &&
    (gangs.drop used.length).all (· == 0) &&
    decide ((used.map popcount).foldl (· + ·) 0 = popcount (used.foldl (· ||| ·) (0 : LaneMask)))

/-- Rows 1 to 7 of R254: the first that holds. `vault` says whether the key vault holds a handle for the context. -/
def recRow (x : Nat) (bound : Nat → Bool) (vault : Word → Bool) : Option Nat :=
  let r := parseRec x
  if recReserved x || r.fmode == 3 || r.deps.any (depBad bound) then some 1
  else if r.entry.toNat % 4 ≠ 0 ∨ r.cpla.toNat % 4 ≠ 0 ∨ r.pimg.toNat % 8 ≠ 0 then some 2
  else if r.warps = 0 ∨ r.warps + r.brood > 32 ∨ r.csize = 0 ∨ r.csize > 8 ∨ r.grid = 0 ∨ r.grid % r.csize ≠ 0 then some 3
  else if r.regs % 8 ≠ 0 ∨ r.regs < 8 ∨ r.regs > 128 ∨ r.tguar > r.tmax ∨ r.tmax > 16 then some 4
  else if !gangsOk r.warps r.gangs then some 5
  else if r.npimg > 64 ∨ r.ndamp > 64 ∨ r.nparty > 16 ∨ r.argtag.toNat ≥ 2 ^ r.nparty then some 6
  else if r.keyh ≠ 0 ∧ !vault r.keyh then some 7
  else none

/-! ## Needs and supplies (R86, R87) -/

def LaunchRec.slots (r : LaunchRec) : Nat := r.warps + r.brood
/-- Register granules. -/
def LaunchRec.regNeed (r : LaunchRec) : Nat :=
  r.slots * r.regs / 8 + (if r.regs < 128 then (r.gangs.map popcount).foldl (· + ·) 0 else 0)
/-- Scratchpad granules. -/
def LaunchRec.spadNeed (r : LaunchRec) : Nat := (r.scratch + 2047) / 2048

/-- k of R87 for a split. -/
def LaunchRec.fits (r : LaunchRec) (split : Nat) : Nat :=
  let term (supply need : Nat) (k : Nat) : Nat := if need = 0 then k else min k (supply / need)
  term 64 r.slots (term 512 r.regNeed (term (32 * split) r.spadNeed (term 16 r.tguar 16)))

/-- The split in force for blocks placed now (R98). -/
def splitOf (mg : Mgmt) (c : Ctx) (ctx : Nat) : Nat := min c.spadSet.toNat (min 11 (tabGet mg.spmax (deviceOf ctx) 11).toNat)

/-! ## Tables (R136, R137, R253, R296 to R298) -/

/-- Slices of `n` bytes of a table, each as a number. -/
def tableEntries (n : Nat) : Nat → List Byte → List Nat
  | 0, _ => []
  | k + 1, bs => natOfBytes (bs.take n) :: tableEntries n k (bs.drop n)

/-- An entry of a damp-region table. -/
structure DampEntry where
  base  : Nat
  len   : Nat
  limit : Word
  frac  : Nat
  int   : Bool
  deriving DecidableEq, Repr

def dampEntry (x : Nat) : DampEntry :=
  ⟨field x 47 0, field x 103 64, BitVec.ofNat 32 (field x 159 128), field x 167 160, x.testBit 168⟩

/-- An FP32 value that is positive, finite and not subnormal. -/
def isLimit (x : Word) : Bool :=
  let e := field x.toNat 30 23
  !x.getLsbD 31 && e != 0 && e != 255

def dampBad (x : Nat) : Bool :=
  let d := dampEntry x
  field x 63 48 != 0 || field x 127 104 != 0 || field x 255 169 != 0 || d.base % 128 != 0 || d.len == 0 || d.len % 128 != 0 ||
    (if d.int then d.limit == 0 else !isLimit d.limit)

def overlaps (a n b k : Nat) : Bool := decide (a < b + k) && decide (b < a + n)

def dampClash : List DampEntry → Bool
  | [] => false
  | d :: r => r.any (fun e => overlaps d.base d.len e.base e.len) || dampClash r

/-- R137. -/
def dampTableBad (xs : List Nat) : Bool := xs.any dampBad || dampClash (xs.map dampEntry)

/-- A trust range of the header: LO, HI, in use (R296). -/
def trustRange (h i : Nat) : Nat × Nat × Bool :=
  let lo := 32 * i
  (field h (lo + 11) lo, field h (lo + 27) (lo + 16), h.testBit (lo + 31))

def trustRanges (h : Nat) : List (Nat × Nat) :=
  (List.range 4).filterMap fun i => let r := trustRange h i; if r.2.2 then some (r.1, r.2.1) else none

def headerBad (h : Nat) : Bool :=
  field h 511 128 != 0 || (List.range 4).any fun i =>
    let r := trustRange h i
    field h (32 * i + 15) (32 * i + 12) != 0 || field h (32 * i + 30) (32 * i + 28) != 0 || (r.2.2 && decide (r.1 > r.2.1))

def partyBad (x : Nat) : Bool :=
  field x 527 516 != 0 || field x 543 540 != 0 || field x 1023 556 != 0 || !onCurve (field x 255 0) (field x 511 256) ||
    (x.testBit 514 && decide (field x 539 528 > field x 555 544))

/-- R298; `slot` gives the installed party slots. -/
def partyTableBad (slot : Nat → Option Party) (h : Nat) (xs : List Nat) : Bool :=
  headerBad h || xs.any partyBad || !distinct' (xs.map fun x => field x 511 0) ||
    (xs.zipIdx).any fun x => match slot x.2 with
      | none => false
      | some p => p.toNat != x.1
where
  distinct' : List Nat → Bool
    | [] => true
    | x :: r => !r.contains x && distinct' r

/-- The definition of a press-image entry (R253): the header, and the micro-operations when NUOP is legal. -/
def pressDef (x : Nat) : PressImage :=
  let h := field x 127 64
  let n := field h 4 0
  ⟨BitVec.ofNat 64 h, if n = 0 ∨ n > 16 then [] else (List.range n).map fun i => BitVec.ofNat 16 (field x (143 + 16 * i) (128 + 16 * i))⟩

def pressEntryBad (x : Nat) : Bool :=
  let n := field x 68 64
  field x 63 6 != 0 || (decide (1 ≤ n) && decide (n ≤ 16) && field x 383 (128 + 16 * n) != 0)

/-- What step 1 of dispatch brings (R256). -/
structure Tables where
  damp    : List Nat
  header  : Nat
  parties : List Nat
  press   : List Nat
  /-- The masks of the press image's pages (R160). -/
  tag     : Mask
  deriving DecidableEq, Repr

/-- A table of `n` bytes; none when it cannot be read. Zero bytes need no read. -/
def Mach.readTable (m : Mach) (mg : Mgmt) (a : Actor) (va n : Nat) : Option (List Byte × Mask) × Mach :=
  if n = 0 then (some ([], 0), m)
  else match m.engRead mg a .thread va n with
    | (.error _, m) => (none, m)
    | (.ok x, m) => (some x, m)

/-- Step 1 of R256: the tables, or the row of R254 that holds, in table order. -/
def Mach.readTables (m : Mach) (mg : Mgmt) (ctx launch : Nat) (r : LaunchRec) (split : Nat) : Except Nat Tables × Mach :=
  let a := engineOf ctx launch 0
  let nparty := if r.nparty = 0 then 0 else 64 + 128 * r.nparty
  let (d, m) := m.readTable mg a r.dampt.toNat (32 * r.ndamp)
  let (p, m) := m.readTable mg a r.partyt.toNat nparty
  let (i, m) := m.readTable mg a r.pimg.toNat (48 * r.npimg)
  let damp := tableEntries 32 r.ndamp ((d.map (·.1)).getD [])
  let pbytes := (p.map (·.1)).getD []
  let header := natOfBytes (pbytes.take 64)
  let parties := tableEntries 128 r.nparty (pbytes.drop 64)
  let press := tableEntries 48 r.npimg ((i.map (·.1)).getD [])
  let bad8 := (d.isSome && dampTableBad damp) || (r.nparty != 0 && r.partyt.toNat % 64 != 0) ||
    (r.nparty != 0 && p.isSome && partyTableBad (fun k => tabFind (m.ctx ctx).parties k) header parties) ||
    (i.isSome && press.any pressEntryBad)
  if bad8 then (.error 8, m)
  else if r.spadNeed > 32 * split then (.error 9, m)
  else if r.fits split = 0 then (.error 10, m)
  else if d.isNone || p.isNone || i.isNone then (.error 11, m)
  else (.ok ⟨damp, header, parties, press, (i.map (·.2)).getD 0⟩, m)

end Sys2Proof.Machine
end

