-- ==== Sys2Proof/Machine/Queues.lean ====
section
/-! DEFINITION. Launch queues (R244 to R249, R273, R274) and dispatch (R254 to R256, R138, R165, R299, R314); what a locked
function's registers do with a write (R323). -/

namespace Sys2Proof.Machine

/-- The form of a step that may also change the module's management: nothing happens while the module sleeps (R335). -/
def onModule (f : Mgmt → Mach → Mgmt × Mach) (s : State) : Host.Outcome State Fault Refusal :=
  .next (if s.mgmt.power = .on then { s with mgmt := (f s.mgmt s.mach).1, mach := (f s.mgmt s.mach).2 } else s)

/-! ## Functions and their lock (R323) -/

def Mgmt.fn (mg : Mgmt) (f : Nat) : Fn := tabGet mg.fns f Fn.reset
def Mgmt.setFn (mg : Mgmt) (f : Nat) (x : Fn) : Mgmt := { mg with fns := tabSet mg.fns f x }
def Mgmt.modFn (mg : Mgmt) (f : Nat) (g : Fn → Fn) : Mgmt := mg.setFn f (g (mg.fn f))

def Mgmt.isLocked (mg : Mgmt) (f : Nat) : Bool := (mg.fn f).tdi == .locked || (mg.fn f).tdi == .run

/-- The contexts of a function. -/
def Mach.contextsOf (m : Mach) (f : Nat) : List Nat := (tabKeys m.ctxs).filter fun c => deviceOf c == f

/-- A forced reset whose fatal entry has no code of R281. -/
def Mach.resetOther (m : Mach) (mg : Mgmt) (ctx : Nat) : Mach :=
  ({ m with free := m.free + 1 } : Mach).forcedReset mg ctx (Config.fatalInfo m.free)

/-- The TDI enters ERROR: the function's DMA stops and every context of it is forced to reset (R323). -/
def tdiError (mg : Mgmt) (m : Mach) (f : Nat) : Mgmt × Mach :=
  (mg.modFn f fun x => { x with tdi := .error },
    (m.contextsOf f).foldl (fun m c => m.resetOther mg c) { m with dmaOff := dedup (f :: m.dmaOff) })

/-- A register write: on a locked function it is ignored and moves the TDI to ERROR; in ERROR, MMIO stops. -/
def lockedOr (f : Nat) (write : Mgmt → Mach → Mgmt × Mach) (mg : Mgmt) (m : Mach) : Mgmt × Mach :=
  if mg.isLocked f then tdiError mg m f else if (mg.fn f).tdi == .error then (mg, m) else write mg m

/-! ## LQ.RING and LQ.WAKE (R245 to R247, R273, R274) -/

def Queue.fields (q : Queue) (x : BitVec 64) : Queue :=
  { q with base := field x.toNat 47 0, log2n := field x.toNat 51 48, host := x.getLsbD 52, en := x.getLsbD 53 }

/-- The write changes nothing but EN. -/
def Queue.onlyEn (q : Queue) (x : BitVec 64) : Bool :=
  let r := q.fields x
  r.base == q.base && r.log2n == q.log2n && r.host == q.host

/-- A queue-fault entry (R281). -/
def Mach.queueFault (m : Mach) (queue cause : Nat) : Mach :=
  let m := m.modQueue queue fun q => { q with state := .faulted, fcause := cause, woken := false }
  let q := m.queue queue
  match q.ctx with
  | none => m
  | some c => m.fqPush c 7 (BitVec.ofNat 64 queue, BitVec.ofNat 64 cause, BitVec.ofNat 64 q.head.toNat) [] none none

/-- The queue could be reading a record: woken, active, its context running. -/
def Mach.queueActive (m : Mach) (q : Queue) : Bool :=
  q.en && q.awake && q.woken && q.head != q.tail && (match q.ctx with
    | none => false
    | some c => (m.ctx c).run == .running)

def Mach.ringWrite (m : Mach) (queue : Nat) (x : BitVec 64) : Mach :=
  let q := m.queue queue
  let n := q.fields x
  if q.en then
    if n.en then m
    else
      let caught := m.queueActive q && Config.readCaught m.free
      let m := { m with free := m.free + 1 }
      if caught then (m.setQueue queue n).queueFault queue 1
      else m.setQueue queue { n with state := if q.state == .faulted then .faulted else .disabled, woken := false }
  else if !n.en || n.log2n = 0 then m.setQueue queue n
  else match q.state with
    | .faulted => m.setQueue queue { n with state := .enabled, fcause := 0, woken := false }
    | .enabled => m.setQueue queue n
    | .disabled =>
      if q.done ≠ q.rd then m
      else m.setQueue queue { n with state := .enabled, head := 0, tail := 0, done := 0, rd := 0, fcause := 0, beyond := [], woken := false }

/-- LQ_RING_WRITE: on a locked function only EN may change (R323). -/
def ringWriteLocked (queue : Nat) (x : BitVec 64) (mg : Mgmt) (m : Mach) : Mgmt × Mach :=
  let q := m.queue queue
  if queue ≥ 512 then (mg, m)
  else if q.onlyEn x && mg.isLocked q.fn then (mg, m.ringWrite queue x)
  else lockedOr q.fn (fun mg m => (mg, m.ringWrite queue x)) mg m
def execLqRingWrite (queue : Nat) (value : BitVec 64) (s : State) : Host.Outcome State Fault Refusal :=
  onModule (ringWriteLocked queue value) s

/-- LQ_WAKE (R246): a disabled queue ignores it, a faulted one reads nothing. -/
def Mach.wake (m : Mach) (queue : Nat) (x : Word) : Mach :=
  m.modQueue queue fun q =>
    if q.state == .disabled || q.log2n == 0 then q
    else { q with tail := x.extractLsb' 0 16, woken := q.woken || q.state == .enabled }
def execLqWake (queue : Nat) (value : Word) (s : State) : Host.Outcome State Fault Refusal :=
  onModule (fun mg m => if queue ≥ 512 ∨ (mg.fn (m.queue queue).fn).tdi = .error then (mg, m) else (mg, m.wake queue value)) s

/-- The host driver binds a queue of the context's function to it (R244). -/
def Mach.bindQueue (m : Mach) (queue : Nat) (ctx : Option Nat) : Mach :=
  let q := m.queue queue
  let mine := match ctx with
    | none => true
    | some c => deviceOf c == q.fn
  if queue < 512 && mine then m.setQueue queue { q with ctx := ctx } else m

/-! ## Reading a record (R249) -/

/-- The bytes of a slot, or the cause of the fault that reading them raises. -/
def Mach.readSlot (m : Mach) (mg : Mgmt) (ctx : Nat) (q : Queue) : Except Nat (List Byte) × Mach :=
  let a := engineOf ctx 0 0
  let a := { a with launch := m.ids }
  let va := q.base + 256 * (q.head.toNat % 2 ^ q.log2n)
  let (b, m) := m.locate1 mg a q.base 1
  let (p, m) := m.locate1 mg a va 256
  match b.loc, p.loc with
  | .ok lb, .ok l =>
    if (lb.leaf.tier == 2) != q.host || (l.leaf.tier == 2) != q.host then (.error 2, m)
    else match l.place with
      | .dev _ =>
        if (badLoc m mg a [l]).isSome then (.error 3, m)
        else let (bs, m) := m.engLoad mg a .thread l; (.ok bs, m)
      | .host h => if m.hostDead ctx then (.error 3, m) else (.ok (m.farRead (.host h) 256), m)
      | .peer _ _ => (.error 2, m)
      | .spad _ _ => (.error 2, m)
  | _, _ => (.error 2, m)

/-- Launches of a queue that were read and have not completed. -/
def Mach.openLaunches (m : Mach) (queue : Nat) : Nat := (m.launches.cells.filter fun l => l.2.queue == queue).length

/-- An ill-formed launch completes at once (R254). -/
def Mach.illFormed (m : Mach) (mg : Mgmt) (launch row : Nat) : Mach :=
  match m.launch? launch with
  | none => m
  | some l =>
    (m.fqPush l.ctx 6 (BitVec.ofNat 64 l.queue, BitVec.ofNat 64 l.seq, BitVec.ofNat 64 row) [] none none).completeLaunch mg launch 1 row

def Mach.vaultHas (mg : Mgmt) (ctx : Nat) (h : Word) : Bool := mg.vault.any fun k => k.handle == h && k.ctx == ctx

/-- LAUNCH_RECORD_READ (R249). -/
def Mach.readRecord (m : Mach) (mg : Mgmt) (queue : Nat) : Mach :=
  let q := m.queue queue
  match q.ctx with
  | none => m
  | some ctx =>
    if !m.queueActive q || decide (m.openLaunches queue ≥ 16) || (q.host && m.hostHeld ctx) then m
    else if (q.tail - q.head).toNat > 2 ^ q.log2n then m.queueFault queue 4
    else match m.readSlot mg ctx q with
      | (.error c, m) => m.queueFault queue c
      | (.ok bs, m) =>
        let x := natOfBytes bs
        let bound (k : Nat) : Bool := (m.queue k).ctx == some ctx
        let row := recRow x bound (Mach.vaultHas mg ctx)
        let (id, m) := m.freshId
        let q := m.queue queue
        let head := q.head + 1
        let m := m.setQueue queue { q with head := head, rd := q.rd + 1, woken := head != q.tail }
        let m := m.setLaunch id
          { rec_ := parseRec x, queue := queue, seq := (q.rd + 1).toNat, ctx := ctx, order := none, start := 0, code := none, next := 0, retired := 0
            trust := [], world := none, waitFrom := none, blocking := false }
        match row with
        | none => m
        | some k => m.illFormed mg id k
def execLaunchRecordRead (queue : Nat) (s : State) : Host.Outcome State Fault Refusal :=
  onEvent (fun mg m => m.readRecord mg queue) s

/-! ## Dependences (R252, R256) -/

/-- The phase of a barrier object as the distributor reads it; none when it cannot be read. -/
def Mach.depPhase (m : Mach) (mg : Mgmt) (l : Launch) (launch : Nat) (d : Dep) : Option (BitVec 7) × Mach :=
  let a := engineOf l.ctx launch 0
  let (p, m) := m.locate1 mg a d.obj.toNat 8
  match p.loc with
  | .error _ => (none, m)
  | .ok loc => match loc.place with
    | .dev pa =>
      if (badLoc m mg a [loc]).isSome then (none, m)
      else
        let m := (m.wringLoc l.ctx loc).recallFor none (lineOf pa)
        let (_, m) := m.leaseLine (lineOf pa) 0
        (some (barOf (BitVec.ofNat 64 (natOfBytes (m.viewBytes (m.viewOf a loc.leaf) pa 8)))).phase, m)
    | .peer k pa => if m.unreach.contains k then (none, m)
      else (some (barOf (BitVec.ofNat 64 (natOfBytes (m.farRead (.peer k pa) 8)))).phase, m)
    | .host _ => (none, m)
    | .spad _ _ => (none, m)

/-- One test of dependence k: a met one stays met; the first failure of a read is reported. -/
def Mach.testDep (m : Mach) (mg : Mgmt) (l : Launch) (launch k : Nat) (d : Dep) : Dep × Mach :=
  if d.met then (d, m)
  else if d.kind = 2 then ({ d with met := decide (((m.queue d.obj.toNat).done - d.val).toNat < 2 ^ 31) }, m)
  else match m.depPhase mg l launch d with
    | (some p, m) => ({ d with met := p != d.val.setWidth 7 }, m)
    | (none, m) =>
      ({ d with told := true },
        if d.told then m
        else m.fqPush l.ctx 6 (BitVec.ofNat 64 l.queue, BitVec.ofNat 64 l.seq, BitVec.ofNat 64 (0x80 + k)) [] none none)

def Mach.testDeps (m : Mach) (mg : Mgmt) (l : Launch) (launch : Nat) : Nat → List Dep → List Dep × Mach
  | _, [] => ([], m)
  | k, d :: r =>
    let (d, m) := m.testDep mg l launch k d
    let (ds, m) := m.testDeps mg l launch (k + 1) r
    (d :: ds, m)

/-! ## Dispatch (R256) -/

def sameRegion (d : DampEntry) (r : Region) : Bool :=
  r.base == d.base && r.len == d.len && r.limit == d.limit && r.frac == d.frac && r.int == d.int

/-- Whether every entry can be handled now (R138). -/
def regionsOk (rs : List Region) (ds : List DampEntry) : Bool :=
  let new := ds.filter fun d => !(rs.any (sameRegion d))
  !(new.any fun d => rs.any fun r => overlaps d.base d.len r.base r.len) && decide (rs.length + new.length ≤ 64)

/-- The entries join or become active regions. -/
def Mach.addRegions (m : Mach) (ctx launch : Nat) (ds : List DampEntry) : Mach :=
  ds.foldl (fun m d =>
    if (m.ctx ctx).regions.any (sameRegion d) then
      m.modCtx ctx fun c =>
        { c with regions := c.regions.map fun r => if sameRegion d r then { r with holders := r.holders ++ [launch] } else r }
    else
      let (id, m) := m.freshId
      m.modCtx ctx fun c =>
        { c with regions := c.regions ++ [⟨id, d.base, d.len, d.limit, d.frac, d.int, [launch]⟩] }) m

/-- Press-image entries in order: the entries loaded, or the first status other than OK with those to remove. -/
def Mach.loadPress (m : Mach) (mg : Mgmt) (ctx : Nat) (tag : Mask) : List Nat → List Nat → (Nat × List Nat) × Mach
  | [], done => ((0, done), m)
  | x :: r, done =>
    let k := field x 5 0
    let img := pressDef x
    let same := match tabFind (m.ctx ctx).press k with
      | none => false
      | some e => !e.dropping && e.image == img
    if same then m.loadPress mg ctx tag r done
    else
      let st := m.pdefStatus mg ctx k img
      if st ≠ 0 then ((st, done), m)
      else (m.modCtx ctx fun c => { c with press := tabSet c.press k ⟨img, tag, false, []⟩ }).loadPress mg ctx tag r (k :: done)

def installParties (c : Ctx) (xs : List Nat) : Ctx :=
  { c with parties := (xs.zipIdx).foldl (fun t x => if tabHas t x.2 then t else tabSet t x.2 (BitVec.ofNat 1024 x.1)) c.parties }

/-- Lines that an earlier world of the same number sealed are stale: their MAC fails under the new key (R317). -/
def Mach.staleLines (m : Mach) (no : Nat) : Mach :=
  (m.side.cells.filter fun s => s.2.world == no).foldl (fun m s => m.openLine none s.1) m

/-- Step 4, and the world of a sealed launch (R117, R299, R314). -/
def startLaunch (mg : Mgmt) (m : Mach) (launch : Nat) (l : Launch) (t : Tables) : Mgmt × Mach :=
  let start := m.maxStamp
  let m := m.modCtx l.ctx fun c => installParties c t.parties
  let sealed := l.rec_.keyh != 0
  let key := ((mg.vault.find? fun k => k.handle == l.rec_.keyh && k.ctx == l.ctx).map (·.key)).getD 0
  let no := mg.worldNo.toNat
  let m := if sealed then (m.staleLines no).modCtx l.ctx fun c => { c with world := some ⟨no, Config.worldKey key l.seq start, launch, true⟩ } else m
  let m := m.setLaunch launch
    { l with order := some m.orders, start := start, code := some ⟨m.mem, m.side, m.scrub⟩, trust := trustRanges t.header, world := if sealed then some no else none }
  (if sealed then { mg with worldNo := mg.worldNo + 1 } else mg, { m with orders := m.orders + 1 })

/-- Steps 1 to 4 for a launch whose dependences are met. -/
def dispatchSteps (mg : Mgmt) (m : Mach) (launch : Nat) (l : Launch) : Mgmt × Mach :=
  let c := m.ctx l.ctx
  if l.rec_.keyh != 0 && c.world.isSome then (mg, m)
  else match m.readTables mg l.ctx launch l.rec_ (splitOf mg c l.ctx) with
    | (.error row, m) => (mg, m.illFormed mg launch row)
    | (.ok t, m) =>
      let ds := t.damp.map dampEntry
      if !regionsOk (m.ctx l.ctx).regions ds then (mg, m)
      else
        let m := m.addRegions l.ctx launch ds
        let ((st, loaded), m) := m.loadPress mg l.ctx t.tag t.press []
        if st ≠ 0 then
          let m := m.modCtx l.ctx fun c => { c with press := loaded.foldl tabErase c.press }
          (mg, m.completeLaunch mg launch 2 (st % 256))
        else startLaunch mg m launch l t

/-- LAUNCH_DISPATCH (R256): a pending launch is considered. -/
def considerLaunch (launch : Nat) (mg : Mgmt) (m : Mach) : Mgmt × Mach :=
  match m.launch? launch with
  | none => (mg, m)
  | some l =>
    if l.order.isSome || (m.ctx l.ctx).run != .running then (mg, m)
    else
      let (deps, m) := m.testDeps mg l launch 0 l.rec_.deps
      let l := { l with rec_ := { l.rec_ with deps := deps } }
      let m := m.setLaunch launch l
      if deps.all (·.met) then dispatchSteps mg m launch l else (mg, m)
def execLaunchDispatch (launch : Nat) (s : State) : Host.Outcome State Fault Refusal := onModule (considerLaunch launch) s

end Sys2Proof.Machine
end

