-- ==== Sys2Proof/Machine/Mailbox.lean ====
section
/-! DEFINITION. The mailbox (R329 to R332): messages, their numbers, kept replies, levels, and the commands that only set
configuration or read it. -/

namespace Sys2Proof.Machine

/-! ## Messages (R330) -/

/-- Codes of STATUS (R330). -/
inductive MbStatus where
  | ok | denied | badarg | gap | busy
  deriving DecidableEq, Repr

def MbStatus.code : MbStatus → Nat
  | .ok => 0 | .denied => 1 | .badarg => 2 | .gap => 3 | .busy => 4

/-- A reply before it is a message: its status and the words that follow the header (log 14). -/
structure Answer where
  status : MbStatus
  words  : List Word := []
  deriving DecidableEq, Repr

/-- The next sequence number, skipping 0. -/
def seqAfter (x : BitVec 16) : BitVec 16 := if x + 1 = 0 then 1 else x + 1

/-- A management-to-host message. -/
def mbMessage (seq ack : BitVec 16) (cmd : Nat) (a : Answer) : BitVec 512 :=
  BitVec.ofNat 512 (seq.toNat + ack.toNat * 2 ^ 16 + cmd % 256 * 2 ^ 32 + a.status.code * 2 ^ 40 + 2 ^ 48 +
    natOfBytes (bytesOfWords a.words) % 2 ^ 448 * 2 ^ 64)

def ringOut : Nat := 0x2400

/-- A message goes into the next slot of the ring of a function; vector 0 is raised (R329). -/
def writeMessage (mg : Mgmt) (m : Mach) (f : Nat) (msg : BitVec 512) : Mgmt × Mach :=
  (mg.modFn f fun x =>
      { x with rings := memWrite x.rings (ringOut + 64 * x.outSlot.toNat) (bytesOfNat msg.toNat 64), outSlot := x.outSlot + 1 },
    { m with signals := m.signals ++ [.msix f 0] })

/-- A message of the management core's own number. -/
def sendNew (mg : Mgmt) (m : Mach) (f cmd : Nat) (ack : BitVec 16) (a : Answer) : BitVec 512 × Mgmt × Mach :=
  let msg := mbMessage (mg.fn f).outSeq ack cmd a
  let (mg, m) := writeMessage mg m f msg
  (msg, mg.modFn f fun x => { x with outSeq := seqAfter x.outSeq, sent := x.sent ++ [msg] }, m)

/-- What is left once the other side has every message up to `ack` in order. -/
def afterAck (ack : BitVec 16) (l : List (BitVec 512)) : List (BitVec 512) :=
  match l.findIdx? fun x => x.extractLsb' 0 16 == ack with
  | none => l
  | some i => l.drop (i + 1)

/-- Everything after the host's ACK is sent again (R331). -/
def resend (mg : Mgmt) (m : Mach) (f : Nat) : Mgmt × Mach :=
  (mg.fn f).sent.foldl (fun p msg => writeMessage p.1 p.2 f msg) (mg, m)

/-- A reply, kept with those to the host's last 16 messages (R331). -/
def reply (mg : Mgmt) (m : Mach) (f cmd : Nat) (seq : BitVec 16) (a : Answer) : Mgmt × Mach :=
  let (msg, mg, m) := sendNew mg m f cmd (mg.fn f).lastIn a
  (mg.modFn f fun x => { x with kept := (x.kept ++ [(seq, msg)]).drop (x.kept.length + 1 - 16) }, m)

/-- What a command gives: an answer at once, or none while it is under way. -/
abbrev Command_ := Mgmt → Mach → Option Answer × Mgmt × Mach

/-- The mailbox answers while the module is on, to a function that exists and is not in ERROR (R323, R335). -/
def Mgmt.mailboxOn (mg : Mgmt) (f : Nat) : Bool := decide (f < 64) && mg.power == .on && (mg.fn f).tdi != .error

/-- A host-to-management message (R331): executed in order; a message already executed gets its kept reply again; any other is
answered GAP. -/
def receive (h : MboxHead) (cmd : Nat) (run : Command_) (mg : Mgmt) (m : Mach) : Mgmt × Mach :=
  if !mg.mailboxOn h.fn then (mg, m)
  else if (mg.fn h.fn).inSeq = h.seq then
    let mg := mg.modFn h.fn fun x => { x with inSeq := seqAfter h.seq, lastIn := h.seq, sent := afterAck h.ack x.sent }
    match run mg m with
    | (some a, mg, m) => reply mg m h.fn cmd h.seq a
    | (none, mg, m) => (mg, m)
  else if mg.jobs.any fun j => j.fn == h.fn && j.seq == h.seq then (mg, m)
  else match (mg.fn h.fn).kept.find? (·.1 == h.seq) with
    | some k => writeMessage mg m h.fn k.2
    | none => (sendNew mg m h.fn cmd (mg.fn h.fn).lastIn { status := .gap }).2

/-! ## Levels (R332) -/

/-- Whether a function may give a command: PF only, expert (the physical function has it). -/
def Mgmt.may (mg : Mgmt) (f : Nat) (pf expert : Bool) : Bool :=
  (!pf || f == 0) && (!expert || f == 0 || (mg.fn f).expert)

/-- A command with its level and the test of what it names. -/
def command (h : MboxHead) (pf expert : Bool) (named : Mgmt → Mach → Bool) (run : Command_) : Command_ := fun mg m =>
  if !mg.may h.fn pf expert then (some { status := .denied }, mg, m)
  else if !named mg m then (some { status := .badarg }, mg, m)
  else run mg m

def done_ (mg : Mgmt) (m : Mach) : Option Answer × Mgmt × Mach := (some { status := .ok }, mg, m)
def refuse (s : MbStatus) (mg : Mgmt) (m : Mach) : Option Answer × Mgmt × Mach := (some { status := s }, mg, m)

def Mach.owns (m : Mach) (f ctx : Nat) : Bool := tabHas m.ctxs ctx && deviceOf ctx == f

/-! ## STATUS, GRANT, POWERCAP -/

/-- STATUS: core clock, throttle state, power, temperature, corrected and uncorrected errors (log 9, log 14). -/
def statusRun (_ : MboxHead) : Command_ := fun mg m =>
  (some { status := .ok, words :=
      [BitVec.ofNat 32 m.mhz, if mg.throttled then 1 else 0, Config.telemetry m.free, Config.telemetry (m.free + 1),
        BitVec.ofNat 32 m.corrected, BitVec.ofNat 32 mg.uncorrected] },
    mg, { m with free := m.free + 2 })
def statusCmd (h : MboxHead) : Command_ := command h false false (fun _ _ => true) (statusRun h)
def execStatus (h : MboxHead) (s : State) : Host.Outcome State Fault Refusal := onModule (receive h 1 (statusCmd h)) s

def grantRun (fn : Nat) (allow : Bool) : Command_ := fun mg m => done_ (mg.modFn fn fun x => { x with expert := allow }) m
def grantCmd (h : MboxHead) (fn : Nat) (allow : Bool) : Command_ :=
  command h true true (fun _ _ => decide (1 ≤ fn) && decide (fn < 64)) (grantRun fn allow)
def execGrant (h : MboxHead) (fn : Nat) (allow : Bool) (s : State) : Host.Outcome State Fault Refusal :=
  onModule (receive h 17 (grantCmd h fn allow)) s

/-- The limit of R21. -/
def topWatts : Nat := 15000

def powercapRun (steps : Nat) : Command_ := fun mg m => done_ { mg with limitW := topWatts - 100 * steps } m
def powercapCmd (h : MboxHead) (steps : Nat) : Command_ :=
  command h false true (fun _ _ => decide (100 * steps ≤ topWatts)) (powercapRun steps)
def execPowercap (h : MboxHead) (steps : Nat) (s : State) : Host.Outcome State Fault Refusal :=
  onModule (receive h 18 (powercapCmd h steps)) s

/-! ## POOLADD, SETAPER, ASSIGN: refused for a locked function (R323) -/

def unlessLocked (fn : Nat) (run : Command_) : Command_ := fun mg m => if mg.isLocked fn then refuse .denied mg m else run mg m

/-- A frame has the size of a page and its alignment (R240). -/
def frameOk (f : PoolFrame) : Bool := [16, 21, 25, 30].contains f.log2 && f.pa % 2 ^ f.log2 == 0 && decide (f.pa < 2 ^ 48)

def pooladdRun (ctx : Nat) (capacity : Bool) (frames : List PoolFrame) : Command_ := fun mg m =>
  done_ mg (m.modCtx ctx fun c =>
    if capacity then { c with poolCap := c.poolCap ++ frames } else { c with poolFast := c.poolFast ++ frames })
def pooladdCmd (h : MboxHead) (ctx : Nat) (capacity : Bool) (frames : List PoolFrame) : Command_ :=
  command h false false (fun _ m => m.owns h.fn ctx && frames.all frameOk) (unlessLocked h.fn (pooladdRun ctx capacity frames))
def execPooladd (h : MboxHead) (ctx : Nat) (capacity : Bool) (frames : List PoolFrame) (s : State) : Host.Outcome State Fault Refusal :=
  onModule (receive h 4 (pooladdCmd h ctx capacity frames)) s

def setaperRun (fn ctx : Nat) (base : BitVec 48) : Command_ := fun mg m =>
  done_ (mg.modFn fn fun x => { x with apBase := base, apCtx := some ctx }) m
def setaperCmd (h : MboxHead) (ctx : Nat) (base : BitVec 48) : Command_ :=
  command h false false (fun _ m => m.owns h.fn ctx) (unlessLocked h.fn (setaperRun h.fn ctx base))
def execSetaper (h : MboxHead) (ctx : Nat) (base : BitVec 48) (s : State) : Host.Outcome State Fault Refusal :=
  onModule (receive h 5 (setaperCmd h ctx base)) s

/-- The clusters and queues exist and belong to no third function. -/
def assignNamed (fn : Nat) (clusters queues : List Nat) (_ : Mgmt) (m : Mach) : Bool :=
  decide (fn < 64) &&
    (clusters.all fun k => decide (k < 128) && !(m.clusters.cells.any fun c => c.1 != fn && c.1 != 0 && c.2.contains k)) &&
    queues.all fun q => decide (q < 512) && ((m.queue q).fn == fn || (m.queue q).fn == 0)

/-- The function has these clusters and queues, and no others; a queue that changes its function is bound to no context. -/
def assignRun (fn : Nat) (clusters queues : List Nat) : Command_ := fun mg m =>
  let others : Tab (List Nat) := tabMap (fun l => l.filter fun k => !clusters.contains k) (tabFilter (fun k _ => k != fn) m.clusters)
  let give (q : Queue) (f : Nat) : Queue := if q.fn = f then q else { q with fn := f, ctx := none }
  let m := { m with clusters := tabSet others fn (dedup clusters) }
  let m := (m.queues.cells.filter fun q => q.2.fn == fn && !queues.contains q.1).foldl (fun m q => m.setQueue q.1 (give q.2 0)) m
  done_ mg (queues.foldl (fun m q => m.modQueue q fun x => give x fn) m)

/-- The command would change a locked value (R323): of the function, or of the physical one, whose registers the queues that move leave
or join. -/
def assignLocked (mg : Mgmt) (m : Mach) (fn : Nat) (queues : List Nat) : Bool :=
  mg.isLocked fn || (mg.isLocked 0 && ((queues.any fun q => (m.queue q).fn != fn) ||
    m.queues.cells.any fun q => q.2.fn == fn && fn != 0 && !queues.contains q.1))

def assignCmd (h : MboxHead) (fn : Nat) (clusters queues : List Nat) : Command_ :=
  command h true true (assignNamed fn clusters queues) fun mg m =>
    if assignLocked mg m fn queues then refuse .denied mg m else assignRun fn clusters queues mg m
def execAssign (h : MboxHead) (fn : Nat) (clusters queues : List Nat) (s : State) : Host.Outcome State Fault Refusal :=
  onModule (receive h 16 (assignCmd h fn clusters queues)) s

/-! ## KEYPROV, DUMPRD -/

/-- An unused handle (log 6). -/
def pickHandle (mg : Mgmt) : Word :=
  let x := Config.vaultHandle mg.vaultNo
  if x == 0 || mg.vault.any (·.handle == x) then BitVec.ofNat 32 (1 + ((lowestFree 1025 (mg.vault.map fun k => k.handle.toNat - 1)).getD 0)) else x

/-- KEYPROV (R314, R332, R335): it needs an SPDM session; the vault holds 1,024 handles. -/
def keyprovRun (fn ctx : Nat) (key : BitVec 256) : Command_ := fun mg m =>
  if !(mg.fn fn).session then refuse .denied mg m
  else if mg.vault.length ≥ 1024 then refuse .busy mg m
  else
    let x := pickHandle mg
    (some { status := .ok, words := [x] }, { mg with vault := mg.vault ++ [⟨x, ctx, key⟩], vaultNo := mg.vaultNo + 1 }, m)
def keyprovCmd (h : MboxHead) (ctx : Nat) (key : BitVec 256) : Command_ :=
  command h false false (fun _ m => m.owns h.fn ctx) (keyprovRun h.fn ctx key)
def execKeyprov (h : MboxHead) (ctx : Nat) (key : BitVec 256) (s : State) : Host.Outcome State Fault Refusal :=
  onModule (receive h 8 (keyprovCmd h ctx key)) s

/-- DUMPRD (R333): the digest; the rest of the dump is not architectural. -/
def dumprdRun : Command_ := fun mg m => match mg.dump with
  | none => refuse .badarg mg m
  | some d => (some { status := .ok, words := (List.range 8).map fun i => d.extractLsb' (32 * i) 32 }, mg, m)
def dumprdCmd (h : MboxHead) : Command_ := command h true true (fun _ _ => true) dumprdRun
def execDumprd (h : MboxHead) (s : State) : Host.Outcome State Fault Refusal := onModule (receive h 20 (dumprdCmd h)) s

/-! ## DEBUG -/

/-- The block that a DEBUG access names, and its warp. -/
def debugPlace : DebugAccess → Nat × Nat
  | .readV b w _ _ => (b, w)
  | .readS b w _ => (b, w)
  | .readP b w _ _ => (b, w)
  | .writeV b w _ _ _ => (b, w)
  | .writeS b w _ _ => (b, w)
  | .writeP b w _ _ _ => (b, w)

def debugRegOk (has : Nat → Bool) : DebugAccess → Bool
  | .readV _ _ l r => decide (l < 32) && has r
  | .readS _ _ r => decide (r < 64)
  | .readP _ _ l r => decide (l < 32) && decide (r < 8)
  | .writeV _ _ l r _ => decide (l < 32) && has r
  | .writeS _ _ r _ => decide (r < 64)
  | .writeP _ _ l r _ => decide (l < 32) && decide (r < 7)

def debugReg : DebugAccess → RegName
  | .readV _ _ l r => .v l r
  | .readS _ _ r => .s r
  | .readP _ _ l r => .p l r
  | .writeV _ _ l r _ => .v l r
  | .writeS _ _ r _ => .s r
  | .writeP _ _ l r _ => .p l r

def debugValue : DebugAccess → Option Word
  | .readV _ _ _ _ => none
  | .readS _ _ _ => none
  | .readP _ _ _ _ => none
  | .writeV _ _ _ _ x => some x
  | .writeS _ _ _ x => some x
  | .writeP _ _ _ _ x => some (x.setWidth 32)

/-- The access names a register of a held block of the function (R286, R332). -/
def debugNamed (f : Nat) (a : DebugAccess) (_ : Mgmt) (m : Mach) : Bool :=
  match m.block? (debugPlace a).1, m.warp? (debugPlace a).1 (debugPlace a).2 with
  | some b, some _ => deviceOf b.ctx == f && ((m.ctx b.ctx).holds.any (·.bid == (debugPlace a).1)) && debugRegOk (fun r => decide (r < ((m.recOf b).map (·.regs)).getD 0) || (decide (120 ≤ r) && decide (r < 128) && (m.setOf b .gang (debugPlace a).2).isSome)) a
  | _, _ => false

/-- The value of a register; p7 reads all ones (R83). -/
def debugRead (w : Warp) (r : RegName) : Word := if (match r with | .p _ n => n == 7 | .v _ _ => false | .s _ => false) then 15 else (w.getReg r).val

/-- A write keeps the register's mask (log 14). -/
def debugRun (a : DebugAccess) : Command_ := fun mg m =>
  match m.warp? (debugPlace a).1 (debugPlace a).2 with
  | none => refuse .badarg mg m
  | some w => match (debugValue a) with
    | none => (some { status := .ok, words := [debugRead w (debugReg a)] }, mg, m)
    | some x => done_ mg (m.modWarp (debugPlace a).1 (debugPlace a).2 fun w => w.setReg (debugReg a) ⟨x, (w.getReg (debugReg a)).tag⟩)
def debugCmd (h : MboxHead) (a : DebugAccess) : Command_ := command h false true (debugNamed h.fn a) (debugRun a)
def execDebug (h : MboxHead) (a : DebugAccess) (s : State) : Host.Outcome State Fault Refusal := onModule (receive h 19 (debugCmd h a)) s

end Sys2Proof.Machine
end

