-- ==== Sys2Proof/Machine/Place.lean ====
section
/-! DEFINITION. Placement of blocks (R86, R99, R206, R257 to R261, R430), their retirement (R61, R95), blocking launches (R260). -/

namespace Sys2Proof.Machine

/-! ## Needs and supplies (R86) -/

/-- What a block takes of a core. -/
structure Need where
  slots    : Nat
  warps    : Nat
  regs     : Nat
  granules : Nat
  tiles    : Nat
  bins     : Nat
  bypass   : Bool
  deriving DecidableEq, Repr

def LaunchRec.need (r : LaunchRec) : Need := ⟨1, r.slots, r.regNeed, r.spadNeed, r.tguar, 0, false⟩

/-- A retired block of a group keeps its scratchpad only (R95). -/
def Need.kept (n : Need) : Need := ⟨0, 0, 0, n.granules, 0, 0, false⟩

/-- What a placed block takes, but for its tiles and bins, which the core lists. -/
def Mach.needOn (m : Mach) (b : Block) : Need :=
  let n := ((m.recOf b).map LaunchRec.need).getD ⟨0, 0, 0, 0, 0, 0, false⟩
  if b.retired then n.kept else { n with tiles := 0 }

/-- What a saved block takes again (R224, R265). -/
def Mach.needSaved (m : Mach) (b : Block) : Need :=
  let n := ((m.recOf b).map LaunchRec.need).getD ⟨0, 0, 0, 0, 0, 0, false⟩
  if b.retired then n.kept
  else { n with tiles := b.savedTiles.cells.length, bins := b.savedBins.length, bypass := b.savedByp.isSome }

def Mach.blocksOn (m : Mach) (core : Nat) : List (Nat × Block) := m.blocks.cells.filter fun b => b.2.core == core && b.2.resident

def Mach.sumOn (m : Mach) (core : Nat) (f : Need → Nat) : Nat := (m.blocksOn core).foldl (fun n b => n + f (m.needOn b.2)) 0

/-- The cluster set of a context (R257). -/
def Mach.clusterSet (m : Mach) (ctx : Nat) : List Nat := sortBy (fun a b => decide (a ≤ b)) (tabGet m.clusters (deviceOf ctx) [])

def coresOf (cluster : Nat) : List Nat := (List.range 8).map fun i => 8 * cluster + i

/-- Cores that a blocking launch reserves against another launch (R260). -/
def Mach.reserved (m : Mach) (l : Launch) (core : Nat) : Bool :=
  m.launches.cells.any fun k =>
    k.2.blocking && (m.clusterSet k.2.ctx).contains (clusterOf core) &&
      (decide (k.2.rec_.prio > l.rec_.prio) ||
        (k.2.rec_.prio == l.rec_.prio && decide (k.2.order.getD 0 < l.order.getD 0)))

/-- Granules of 256 words that the blocks on a core hold: first and number (R89). -/
def Mach.spadUsed (m : Mach) (core : Nat) : List (Nat × Nat) :=
  (m.blocksOn core).map fun b => (b.2.base / 256, b.2.spadSize / 2048)

/-- The lowest free run of granules of the scratchpad words, 0 to 8,192 · SPAD − 1 (R89); which one is not architectural. -/
def Mach.spadHole (m : Mach) (core split granules : Nat) : Option Nat :=
  (List.range (32 * split + 1 - granules)).find? fun g => (m.spadUsed core).all fun u => !overlaps g granules u.1 u.2

/-- A block fits on a core (R258); its scratchpad needs one run of words (R89, log 80). -/
def Mach.coreFits (m : Mach) (mg : Mgmt) (l : Launch) (core : Nat) (n : Need) : Bool :=
  let c := m.core core
  let split := splitOf mg (m.ctx l.ctx) l.ctx
  (coreEmpty m core || c.split == some split) &&
    decide (m.sumOn core (·.slots) + n.slots ≤ 16) &&
    decide (m.sumOn core (·.warps) + n.warps ≤ 64) &&
    decide (m.sumOn core (·.regs) + n.regs ≤ 512) &&
    decide (m.sumOn core (·.granules) + n.granules ≤ 32 * split) && (m.spadHole core split n.granules).isSome &&
    decide (c.tiles.cells.length + n.tiles ≤ 16) &&
    decide (c.bins.cells.length + n.bins ≤ 64) && !(n.bypass && c.bypass.isSome) && !m.reserved l core

/-- Each need in turn takes the lowest core of the list, past the last one taken, on which it fits. -/
def pickCores (fits : Nat → Need → Bool) : List Nat → List Need → Option (List Nat)
  | _, [] => some []
  | [], _ :: _ => none
  | c :: r, n :: ns => if fits c n then (pickCores fits r ns).map (c :: ·) else pickCores fits r (n :: ns)

/-! ## What comes next of a launch -/

/-- The saved group of a launch that is placed next, by rank (R265). -/
def Mach.savedGroup (m : Mach) (launch : Nat) : Option (List (Nat × Block)) :=
  ((m.blocks.cells.filter fun b => b.2.launch == launch && !b.2.resident).foldl (fun (o : Option (Nat × Block)) b => match o with
    | none => some b
    | some x => if b.2.index < x.2.index then some b else some x) none).map fun x =>
      x.2.peers.filterMap fun k => (m.block? k).map fun b => (k, b)

def Launch.unplaced (l : Launch) : Bool := l.order.isSome && decide (l.next < l.rec_.grid)

/-- Needs, by rank, of what is placed next. -/
def Mach.nextNeeds (m : Mach) (launch : Nat) (l : Launch) : List Need :=
  match m.savedGroup launch with
  | some g => g.map fun b => m.needSaved b.2
  | none => if l.unplaced then List.replicate l.rec_.csize l.rec_.need else []

/-- A thread-local slot for each new block (R430). -/
def Mach.tlFree (m : Mach) (ctx n : Nat) : Bool :=
  decide ((m.blocks.cells.filter fun b => b.2.ctx == ctx && !b.2.retired).length + n ≤ 32768)

/-- Where the next block or group of a launch goes (R258): its cores by rank. -/
def Mach.placeCores (m : Mach) (mg : Mgmt) (launch : Nat) (l : Launch) : Option (List Nat) :=
  let needs := m.nextNeeds launch l
  if needs.isEmpty || (m.ctx l.ctx).run != .running || !m.tlFree l.ctx needs.length then none
  else
    let fits := fun c n => m.coreFits mg l c n
    let set := m.clusterSet l.ctx
    if needs.length = 1 then pickCores fits (set.flatMap coresOf) needs
    else set.findSome? fun k => pickCores fits (coresOf k) needs

/-! ## The order of launches (R257, R259) -/

def launchBefore (a b : Nat × Launch) : Bool :=
  decide (a.2.rec_.prio > b.2.rec_.prio) || (a.2.rec_.prio == b.2.rec_.prio && decide (a.2.order.getD 0 ≤ b.2.order.getD 0))

def Mach.launchOrder (m : Mach) : List (Nat × Launch) := sortBy launchBefore (m.launches.cells.filter fun l => l.2.order.isSome)

/-- The order in which an offer goes round. -/
def Mach.offerOrder (m : Mach) (o : Offer) : List (Nat × Launch) :=
  let all := m.launchOrder
  (all.filter fun l => decide (l.2.rec_.prio > o.prio)) ++ (all.filter fun l => l.1 == o.launch) ++
    all.filter fun l => decide (l.2.rec_.prio ≤ o.prio) && l.1 != o.launch

/-- The launch that takes what an offer holds: it could be placed using one of the offered cores. -/
def Mach.takesOffer (m : Mach) (mg : Mgmt) (o : Offer) (l : Nat × Launch) : Bool :=
  match m.placeCores mg l.1 l.2 with
  | none => false
  | some _ =>
    let needs := m.nextNeeds l.1 l.2
    let fits := fun c n => m.coreFits mg l.2 c n
    if needs.length = 1 then needs.all fun n => o.cores.any fun c => (m.clusterSet l.2.ctx).contains (clusterOf c) && fits c n
    else (dedup (o.cores.map clusterOf)).any fun k =>
      (m.clusterSet l.2.ctx).contains k && (match pickCores fits (coresOf k) needs with
        | none => false
        | some cs => cs.any o.cores.contains)

/-- The launch whose block is placed now: the first that takes an offer, else the first that fits anywhere. -/
def Mach.nextLaunch (m : Mach) (mg : Mgmt) : Option (Nat × Launch) :=
  match m.offers.findSome? fun o => (m.offerOrder o).find? (m.takesOffer mg o) with
  | some l => some l
  | none => m.launchOrder.find? fun l => (m.placeCores mg l.1 l.2).isSome

/-- Offers that no launch takes are over. -/
def Mach.dropOffers (m : Mach) (mg : Mgmt) : Mach :=
  if m.offers.isEmpty then m
  else { m with offers := m.offers.filter fun o => (m.offerOrder o).any (m.takesOffer mg o) }

/-! ## Placing -/

/-- The first block on an empty core sets its split: the trackers of its L1 drain, L1 is emptied (R99). -/
def Mach.setSplit (m : Mach) (core split : Nat) : Mach :=
  if !coreEmpty m core then m
  else
    let m := (m.drainAll fun t => t.holder == core).applyDrains fun d => d.holder == core
    m.modCore core fun c => { c with split := some split, l1 := ⟨[]⟩ }

/-- The base of a new block, in words (R89). -/
def Mach.spadBase (m : Mach) (core split granules : Nat) : Nat := 256 * (m.spadHole core split granules).getD 0

/-- `n` lowest numbers under `top` that are not in use. -/
def takeFree (top n : Nat) (used : List Nat) : List Nat := ((List.range top).filter fun i => !used.contains i).take n

def placedLane (entry : BitVec 48) (start now : Nat) : Lane :=
  { st := .ready, pc := ⟨entry, 0⟩, code := [], v := ⟨[]⟩, p := ⟨[]⟩, rstack := [], spill := 0, pts := start, ageBase := now
    posted := 0 }

/-- A declared warp as it is created (R53, R261). -/
def placedWarp (r : LaunchRec) (start now slot : Nat) : Warp :=
  let s : Tab Reg := ⟨[(0, ⟨r.args.setWidth 32, r.argtag⟩), (1, ⟨(r.args >>> 32).setWidth 32, r.argtag⟩)]⟩
  { freshWarp now slot none (List.replicate 32 (placedLane r.entry start now)) with s := s, stall := now + 64 }

/-- One new block of a launch on a core. -/
def Mach.placeNew (m : Mach) (mg : Mgmt) (launch : Nat) (l : Launch) (bid rank : Nat) (peers : List Nat) (core : Nat) : Mach :=
  let m := m.setSplit core (splitOf mg (m.ctx l.ctx) l.ctx)
  let r := l.rec_
  let now := m.cycle + rank
  let live := (m.blocksOn core).filter fun b => !b.2.retired
  let slots := takeFree 64 r.warps (m.warpSlots core)
  let tiles := takeFree 16 r.tguar (tabKeys (m.core core).tiles)
  let b : Block :=
    { launch := launch, ctx := l.ctx, index := l.next + rank, rank := rank, peers := peers, core := core
      bslot := (lowestFree 16 (live.map (·.2.bslot))).getD 0, base := m.spadBase core (splitOf mg (m.ctx l.ctx) l.ctx) r.spadNeed
      tlslot := (lowestFree 32768 ((m.blocks.cells.filter fun b => b.2.ctx == l.ctx && !b.2.retired).map (·.2.tlslot))).getD 0
      resident := true, retired := false, warps := ⟨(indexed slots).map fun x => (x.1, placedWarp r l.start now x.2)⟩, spad := ⟨[]⟩
      spadSize := 2048 * r.spadNeed, spadTags := ⟨[]⟩, spadStamp := ⟨[]⟩, spadBad := [], start := l.start
      handles := ⟨indexed tiles⟩, slots := ⟨[]⟩, keptMx := [], keptCh := [], savedTiles := ⟨[]⟩, savedByp := none, savedBins := []
      savedReqs := [], placedAt := now, sealedIn := none }
  let tile : Tile := { words := ⟨[]⟩, type := .either, valid := true, tag := 0, owner := bid, free := none }
  (m.setBlock bid b).modCore core fun c => { c with tiles := tiles.foldl (fun t k => tabSet t k tile) c.tiles }

/-- Warp slots for the warps of a restored block that have not ended; warps that no hold suspends run on (R117, R261). -/
def restoreWarps (now stamp : Nat) : List (Nat × Warp) → List Nat → List (Nat × Warp)
  | [], _ => []
  | (k, w) :: r, free =>
    let w := if w.suspended then w else modLanes w fun _ l => if l.live then { l with pts := max l.pts stamp } else l
    if w.ended then (k, w) :: restoreWarps now stamp r free
    else (k, { w with slot := free.headD 0, stall := max w.stall (now + 64) }) :: restoreWarps now stamp r (free.drop 1)

/-- Kept channel commands that find room go back, in order; the others stay kept (R231). -/
def Mach.requeueCh (m : Mach) (mg : Mgmt) (core ctx : Nat) : List (Nat × Command) → List (Nat × Command) × Mach
  | [] => ([], m)
  | (n, k) :: r =>
    let key := 8 * ctx + n
    if m.chanRoom mg core key then
      (m.modCore core fun c => { c with chans := tabSet c.chans key ⟨(tabGet c.chans key ⟨[]⟩).cmds ++ [k]⟩ }).requeueCh mg core ctx r
    else
      let (left, m) := m.requeueCh mg core ctx r
      ((n, k) :: left, m)

/-- Commands kept with a block are queued again in their old order as the queues have room (R212, R231), unless the hold of an
engine error goes on (R222, R224, R238). -/
def Mach.requeue (m : Mach) (mg : Mgmt) (bid : Nat) : Mach :=
  match m.block? bid with
  | none => m
  | some b =>
    if !b.resident || (b.keptMx.isEmpty && b.keptCh.isEmpty) || (m.ctx b.ctx).holds.any fun h => h.bid == bid && h.engine then m
    else
      let room := 16 - (m.core b.core).mq.length
      let m := m.modCore b.core fun c => { c with mq := c.mq ++ b.keptMx.take room }
      let (left, m) := m.requeueCh mg b.core b.ctx b.keptCh
      m.modBlock bid fun b => { b with keptMx := b.keptMx.drop room, keptCh := left }

/-- Every block's kept commands go back once there is room for them. -/
def Mach.requeueAll (m : Mach) (mg : Mgmt) : Mach := m.blocks.cells.foldl (fun m b => m.requeue mg b.1) m

/-- A saved block is placed again (R265): its tiles, bins and tile requests return to the core. -/
def Mach.placeSaved (m : Mach) (mg : Mgmt) (bid core : Nat) : Mach :=
  match m.block? bid with
  | none => m
  | some b =>
    let m := m.setSplit core (splitOf mg (m.ctx b.ctx) b.ctx)
    let now := m.cycle + b.rank
    let live := (m.blocksOn core).filter fun x => !x.2.retired
    let free := (List.range 64).filter fun i => !(m.warpSlots core).contains i
    let tiles := b.savedTiles.cells.zip (takeFree 16 b.savedTiles.cells.length (tabKeys (m.core core).tiles))
    let bins := b.savedBins.zip (takeFree 64 b.savedBins.length (tabKeys (m.core core).bins))
    let tileOf (k : Nat) : Nat := ((tiles.find? fun x => x.1.1 == k).map (·.2)).getD 0
    let b' : Block :=
      { b with
        core := core, resident := true, base := m.spadBase core (splitOf mg (m.ctx b.ctx) b.ctx) (b.spadSize / 2048), placedAt := now
        bslot := if b.retired then b.bslot else (lowestFree 16 (live.map (·.2.bslot))).getD 0
        warps := ⟨restoreWarps now m.maxStamp b.warps.cells free⟩, handles := tabMap tileOf b.handles
        keptMx := b.keptMx.map fun c => { c with tile := tileOf c.tile }
        savedTiles := ⟨[]⟩, savedByp := none, savedBins := [], savedReqs := [], sealedIn := none }
    let m := (m.setBlock bid b').modCore core fun c =>
      { c with
        tiles := tiles.foldl (fun t x => tabSet t x.2 x.1.2) c.tiles
        bins := bins.foldl (fun t x => tabSet t x.2 { x.1 with deadline := x.1.deadline.map (· + m.now) }) c.bins
        tileQ := c.tileQ ++ b.savedReqs
        bypass := match b.savedByp with
          | none => c.bypass
          | some x => some x }
    m.requeue mg bid

/-- No block was placed on the die of a core in this cycle (R261). -/
def Mach.dieFree (m : Mach) (core : Nat) : Bool :=
  !(m.blocks.cells.any fun b => b.2.resident && b.2.core / 128 == core / 128 && decide (b.2.placedAt ≥ m.cycle))

/-- BLOCK_PLACEMENT (R257 to R261, R265): the next block or group of the launch whose turn it is. -/
def Mach.placement (m : Mach) (mg : Mgmt) (launch : Nat) : Mach :=
  match m.nextLaunch mg with
  | none => m
  | some (k, l) =>
    match (if k = launch then m.placeCores mg k l else none) with
    | none => m
    | some cores =>
      if !(cores.all m.dieFree) then m
      else match m.savedGroup k with
        | some g => (g.zip cores).foldl (fun m x => m.placeSaved mg x.1.1 x.2) m
        | none =>
          let ids := (List.range cores.length).map (m.ids + ·)
          let m := { m with ids := m.ids + cores.length }
          let m := (indexed (ids.zip cores)).foldl (fun m x => m.placeNew mg k l x.2.1 x.1 ids x.2.2) m
          m.modLaunch k fun l => { l with next := l.next + cores.length }
def execBlockPlacement (launch : Nat) (s : State) : Host.Outcome State Fault Refusal :=
  onEvent (fun mg m => m.placement mg launch) s

/-! ## Retirement (R61, R95) -/

/-- An inbound copy of R292: a COPY or FILL on any channel with a destination in the block's scratchpad, or its BAR object. -/
def Mach.inbound (m : Mach) (bid : Nat) : Bool :=
  m.cores.cells.any fun c => c.2.chans.cells.any fun x => x.2.cmds.any fun k => match k.op, m.block? k.bid with
    | .copy y _ false, some b =>
      let p := copyParams y
      (p.dsp && (p.dests k.bid b).contains (some bid)) || (p.bar != 0 && p.barsp && (p.bars k.bid b).contains (some bid))
    | _, _ => false

/-- Press requests that a lane of the block made. -/
def Mach.pressesOf (m : Mach) (bid : Nat) : Bool := m.presses.any fun r => r.lanes.any (·.bid == bid)

/-- Everything R61 asks of a block that retires; a hold keeps it resident (R62). -/
def Mach.retirable (m : Mach) (bid : Nat) (b : Block) : Bool :=
  let c := m.core b.core
  b.resident && !b.retired &&
    ((List.range (m.declared b)).all fun w => ((tabFind b.warps w).map Warp.ended).getD true) && b.warps.cells.all (·.2.ended) &&
    !(c.bins.cells.any (·.2.bid == bid)) && !(m.allCommands.any (·.bid == bid)) && b.keptMx.isEmpty && b.keptCh.isEmpty &&
    !(m.gate.any (·.bid == bid)) && !m.inbound bid && !m.pressesOf bid && !((m.ctx b.ctx).holds.any (·.bid == bid))

/-- CSRW instructions in flight complete (R393). -/
def Mach.finishCsrw (m : Mach) (b : Block) : Mach :=
  m.modCtx b.ctx fun c => (b.warps.cells.flatMap (·.2.csrw)).foldl (fun c x => c.csrWrite x.2.1 x.2.2) c

/-- The blocks of a group that still stand, without one of them. -/
def Mach.othersOpen (m : Mach) (b : Block) (bid : Nat) : Bool :=
  b.peers.any fun k => k != bid && (match m.block? k with
    | none => false
    | some x => !x.retired)

/-- BLOCK_RETIREMENT: what the block held is released; with the last of its group the scratchpads go too, and the offer is made;
with the last of its grid the launch completes. -/
def Mach.retirement (m : Mach) (mg : Mgmt) (bid : Nat) : Mach :=
  match m.block? bid with
  | none => m
  | some b =>
    if !m.retirable bid b then m
    else
      let m := (m.finishCsrw b).modCore b.core fun c => c.freeBlock bid
      let m :=
        if m.othersOpen b bid then
          m.setBlock bid { b with retired := true, warps := ⟨[]⟩, handles := ⟨[]⟩, slots := ⟨[]⟩ }
        else
          let prio := ((m.launch? b.launch).map (·.rec_.prio)).getD 0
          let offer : Offer := ⟨if b.peers.length = 1 then [b.core] else coresOf (clusterOf b.core), b.launch, prio⟩
          let cores := b.peers.filterMap fun k => (m.block? k).map (·.core)
          let m : Mach := { m with blocks := b.peers.foldl tabErase (tabErase m.blocks bid), offers := m.offers ++ [offer] }
          cores.foldl (fun m c => if coreEmpty m c then m.modCore c fun x => { x with split := none } else m) m
      let m := m.modLaunch b.launch fun l => { l with retired := l.retired + 1 }
      match m.launch? b.launch with
      | none => m
      | some l => if l.retired = l.rec_.grid then m.completeLaunch mg b.launch 0 0 else m
def execBlockRetirement (bid : Nat) (s : State) : Host.Outcome State Fault Refusal := onEvent (fun mg m => m.retirement mg bid) s

/-! ## Blocking launches (R260) -/

/-- 100 µs on the reference clock. -/
def blockingTime : Nat := 10000

/-- LAUNCH_BLOCKING. -/
def Mach.launchBlocks (m : Mach) (launch : Nat) : Mach :=
  m.modLaunch launch fun l => match l.waitFrom with
    | none => l
    | some t => if l.unplaced && decide (t + blockingTime ≤ m.now) then { l with blocking := true } else l
def execLaunchBlocking (launch : Nat) (s : State) : Host.Outcome State Fault Refusal := onEvent (fun _ m => m.launchBlocks launch) s

/-- A launch that has an unplaced block, of a context that is not switched out (DEDUCED, log 81). -/
def Mach.waits (m : Mach) (l : Launch) : Bool := l.unplaced && (m.ctx l.ctx).run != .switchedOut

/-- The waiting times of launches after any change: they begin, break, and end with the last block (R260). -/
def Mach.launchTimers (m : Mach) : Mach :=
  let one (l : Launch) : Launch :=
    if !m.waits l then { l with waitFrom := none, blocking := false }
    else if l.blocking then l
    else
      let set := m.clusterSet l.ctx
      let beaten := m.launches.cells.any fun k =>
        decide (k.2.rec_.prio > l.rec_.prio) && m.waits k.2 && (m.clusterSet k.2.ctx).any set.contains
      { l with waitFrom := if beaten then none else some (l.waitFrom.getD m.now) }
  { m with launches := tabMap one m.launches }

end Sys2Proof.Machine
end

