-- ==== Sys2Proof/Machine/Preempt.lean ====
section
/-! DEFINITION. Pre-emption (R152, R180, R265 to R267), saving of held blocks (R292), the watchdog (R270 to R272, R285), CORE.SPLIT
(R98), the suspension of a warp by time (R278). -/

namespace Sys2Proof.Machine

/-! ## Pre-emption -/

/-- The duration of the deadline timer (R267): none without a dispatched launch. -/
def Mach.deadlineOf (m : Mach) (mg : Mgmt) (ctx : Nat) : Option Nat :=
  (m.launches.cells.filter fun l => l.2.ctx == ctx && l.2.order.isSome).foldl (fun (o : Option Nat) l =>
    let r := l.2.rec_
    let t := if r.deadl = 0 then (tabGet mg.schedDl r.prio 200000).toNat else r.deadl
    match o with
    | none => some t
    | some u => some (min t u)) none

/-- Draining begins (R265). -/
def Mach.drainCtx (m : Mach) (mg : Mgmt) (ctx : Nat) : Mach :=
  let d := (m.deadlineOf mg ctx).map (m.now + ·)
  m.modCtx ctx fun c => if c.run == .running then { c with run := .draining, deadline := d } else c

def preemptRun (ctx : Nat) : Command_ := fun mg m => done_ mg (m.drainCtx mg ctx)
def preemptCmd (h : MboxHead) (ctx : Nat) : Command_ := command h false false (fun _ m => m.owns h.fn ctx) (preemptRun ctx)
def execPreempt (h : MboxHead) (ctx : Nat) (s : State) : Host.Outcome State Fault Refusal := onModule (receive h 2 (preemptCmd h ctx)) s

/-- PREEMPT_DEADLINE_EXPIRY (R267). -/
def Mach.deadlineExpiry (m : Mach) (mg : Mgmt) (ctx : Nat) : Mach :=
  let c := m.ctx ctx
  match c.deadline with
  | none => m
  | some t => if c.run == .draining && decide (t ≤ m.now) then m.forcedReset mg ctx 2 else m
def execPreemptDeadlineExpiry (ctx : Nat) (s : State) : Host.Outcome State Fault Refusal :=
  onEvent (fun mg m => m.deadlineExpiry mg ctx) s

/-- The entries that are dropping are saved as empty; their PDROPs end (R180). -/
def Mach.emptyDropping (m : Mach) (ctx : Nat) : Mach :=
  let gone := (tabVals (m.ctx ctx).press).filter (·.dropping)
  let m := gone.foldl (fun m e => e.waiters.foldl (fun m w => m.modWarp w.1 w.2.1 fun x => x.endId w.2.2) m) m
  m.modCtx ctx fun c => { c with press := tabFilter (fun _ e => !e.dropping) c.press }

/-- The lines of the context's world in L2 are sealed and written back (R319). -/
def Mach.sealLines (m : Mach) (ctx : Nat) : Mach :=
  match (m.ctx ctx).world with
  | none => m
  | some w => m.sealWorld w.number

/-- CONTEXT_SWITCH_OUT (R152, R180, R265): no block is resident; combining entries are sent, trackers drain, claims are recalled;
once every press request is applied the context is out. -/
def Mach.switchOut (m : Mach) (ctx : Nat) : Mach :=
  if (m.ctx ctx).run != .draining || (m.blocks.cells.any fun b => b.2.ctx == ctx && b.2.resident) then m
  else
    let m := (((m.sendEntries fun r => r.ctx == ctx).drainAll fun t => t.ctx == ctx).applyDrains fun d => d.ctx == ctx)
    let m := { m with claims := ⟨[]⟩ }
    if m.presses.any fun r => r.ctx == ctx then m
    else
      let m := (m.emptyDropping ctx).sealLines ctx
      let m := { m with tlb := m.tlb.filter fun e => e.ctx != ctx }
      m.modCtx ctx fun c => { c with run := .switchedOut, deadline := none }
def execContextSwitchOut (ctx : Nat) (s : State) : Host.Outcome State Fault Refusal := onEvent (fun _ m => m.switchOut ctx) s

/-! ## Commands that take time -/

def startJob (h : MboxHead) (k : JobKind) (mg : Mgmt) (m : Mach) : Option Answer × Mgmt × Mach :=
  (none, { mg with jobs := mg.jobs ++ [⟨k, h.fn, h.seq⟩] }, m)

/-- A job of the whole module is under way. -/
def Mgmt.quiescing (mg : Mgmt) : Bool := mg.jobs.any fun j => j.kind == .checkpoint || j.kind == .sleep

/-- Every context begins to drain. -/
def Mach.drainEvery (m : Mach) (mg : Mgmt) : Mach := (tabKeys m.ctxs).foldl (fun m c => m.drainCtx mg c) m

/-! ### RESTORE (R180 to R182, R319, R335) -/

/-- RESTORE of a context that is switched out; a context that holds a world needs an SPDM session of its function. -/
def restoreRun (h : MboxHead) (ctx : Nat) : Command_ := fun mg m =>
  let c := m.ctx ctx
  if c.run != .switchedOut || mg.quiescing || mg.jobs.any fun j => j.kind == .restore ctx then refuse .busy mg m
  else if c.world.isSome && !(mg.fn h.fn).session then refuse .denied mg m
  else startJob h (.restore ctx) mg m
def restoreCmd (h : MboxHead) (ctx : Nat) : Command_ := command h false false (fun _ m => m.owns h.fn ctx) (restoreRun h ctx)
def execRestore (h : MboxHead) (ctx : Nat) (s : State) : Host.Outcome State Fault Refusal := onModule (receive h 3 (restoreCmd h ctx)) s

/-! ### CHECKPOINT and SLEEP (R242, R335) -/

def quiesceRun (h : MboxHead) (k : JobKind) : Command_ := fun mg m =>
  if mg.quiescing then refuse .busy mg m else startJob h k mg (m.drainEvery mg)
def quiesceCmd (h : MboxHead) (k : JobKind) : Command_ := command h true false (fun _ _ => true) (quiesceRun h k)
def execCheckpoint (h : MboxHead) (s : State) : Host.Outcome State Fault Refusal :=
  onModule (receive h 6 (quiesceCmd h .checkpoint)) s
def execSleep (h : MboxHead) (s : State) : Host.Outcome State Fault Refusal :=
  onModule (receive h 7 (quiesceCmd h .sleep)) s

/-! ## Saving (R265, R292) -/

/-- Whether a block of a draining context can be saved: a hold keeps it, no inbound copy, press, wring or release is open. -/
def Mach.saveable (m : Mach) (bid : Nat) (b : Block) : Bool :=
  b.resident && (b.retired || (m.ctx b.ctx).holds.any (·.bid == bid)) && !m.inbound bid && !m.pressesOf bid &&
    !(m.wrung.any (·.issue.bid == bid)) && !(m.gate.any (·.bid == bid)) &&
    b.warps.cells.all fun w => match w.2.block with
      | none => true
      | some _ => false

/-- One block leaves its core with all that R52, R80, R224 and R239 name, sealed under the key of its world (R319). -/
def Mach.saveBlock (m : Mach) (bid : Nat) : Mach :=
  match m.block? bid with
  | none => m
  | some b =>
    let c := m.core b.core
    let chans := c.chans.cells.flatMap fun x => (x.2.cmds.filter (·.bid == bid)).map fun k => (x.1 % 8, k)
    let bins := (tabVals c.bins).filter (·.bid == bid)
    let b' : Block :=
      { b with
        resident := false
        keptMx := b.keptMx ++ c.mq.filter (·.bid == bid)
        keptCh := b.keptCh ++ chans
        savedTiles := tabFilter (fun _ t => t.owner == bid) c.tiles
        savedByp := match c.bypass with
          | none => none
          | some x => if x.owner = bid then some x else none
        savedBins := bins.map fun x => { x with deadline := x.deadline.map (· - m.now) }
        savedReqs := c.tileQ.filter (·.bid == bid)
        sealedIn := m.worldOf b.launch }
    let m := (m.setBlock bid b').modCore b.core fun c => c.freeBlock bid
    if coreEmpty m b.core then m.modCore b.core fun c => { c with split := none } else m

/-- BLOCK_SAVE: the blocks of a group are saved together. -/
def Mach.save (m : Mach) (bid : Nat) : Mach :=
  match m.block? bid with
  | none => m
  | some b =>
    let ok := (m.ctx b.ctx).run == .draining && b.peers.all fun k => match m.block? k with
      | none => true
      | some x => m.saveable k x
    if ok then b.peers.foldl Mach.saveBlock m else m
def execBlockSave (bid : Nat) (s : State) : Host.Outcome State Fault Refusal := onEvent (fun _ m => m.save bid) s

/-! ## The watchdog -/

/-- A lane that waits or is parked, or has exited. -/
def Lane.idle (l : Lane) : Bool :=
  match l.st with
  | .ready => false
  | .waiting _ => true
  | .parked _ => true
  | .exited => true

def Lane.external (l : Lane) : Bool :=
  match l.st with
  | .waiting (.barrier _ _ _ ext _) => ext
  | .waiting .join => false
  | .waiting (.rendezvous _) => false
  | .waiting .spawn => false
  | .waiting .talloc => false
  | .ready => false
  | .parked _ => false
  | .exited => false

/-- The warps of a context that are resident and have not ended. -/
def Mach.residentWarps (m : Mach) (ctx : Nat) : List Warp :=
  m.blocks.cells.flatMap fun b => if b.2.ctx == ctx && b.2.resident then (tabVals b.2.warps).filter fun w => !w.ended else []

/-- Every lane of a warp waits or is parked; of a suspended warp only parked ones count (R41). -/
def Warp.idle (w : Warp) : Bool := w.lanes.all fun l => if w.suspended then !l.live || l.isParked else l.idle

/-- Every lane of the context waits or is parked; whether one waits on an external object (R270, R271). -/
def Mach.allIdle (m : Mach) (ctx : Nat) : Option Bool :=
  let ws := m.residentWarps ctx
  if ws.isEmpty || !(ws.all Warp.idle) then none
  else some (ws.any fun w => w.lanes.any Lane.external)

/-- The stuck condition (R270); a hold of block scope suspends its block. -/
def Mach.stuck (m : Mach) (ctx : Nat) : Bool :=
  m.allIdle ctx == some false && !((m.ctx ctx).holds.any fun h => h.unit == .block) && !(m.allCommands.any fun c => ((m.block? c.bid).map (·.ctx)) == some ctx) &&
    !(m.presses.any fun r => r.ctx == ctx && r.remote.isNone) && !(m.launches.cells.any fun l => l.2.ctx == ctx && l.2.unplaced)

/-- Both timers restart whenever their conditions lapse (R271). -/
def Mach.watchTimers (m : Mach) : Mach :=
  { m with ctxs := ⟨m.ctxs.cells.map fun c =>
      (c.1, { c.2 with stuckInt := if m.stuck c.1 then some (c.2.stuckInt.getD m.now) else none
                       stuckExt := if m.allIdle c.1 == some true then some (c.2.stuckExt.getD m.now) else none })⟩ }

/-- The watchdog fires: its entry, then one hold of block scope for each resident block, with no record (R270). -/
def Mach.watchFire (m : Mach) (mg : Mgmt) (ctx ext : Nat) : Mach :=
  let m := m.fqPush ctx 8 (BitVec.ofNat 64 ext, 0, 0) [] none none
  let bs := m.blocks.cells.filter fun b => b.2.ctx == ctx && b.2.resident && !b.2.retired
  let m := bs.foldl (fun m b => (m.suspendWarps b.1 (tabKeys b.2.warps)).beginHold b.1 .block (tabKeys b.2.warps) []) m
  (dedup (bs.map (·.2.launch))).foldl (fun m l => m.faultMode mg l) m

def limitReached (since : Option Nat) (limit : Word) (now : Nat) : Bool :=
  match since with
  | none => false
  | some t => limit != 0 && decide (t + limit.toNat ≤ now)

def Mach.watchInternal (m : Mach) (mg : Mgmt) (ctx : Nat) : Mach :=
  let c := m.ctx ctx
  if m.stuck ctx && limitReached c.stuckInt c.wdogInt m.now then m.watchFire mg ctx 0 else m
def execWatchdogInternal (ctx : Nat) (s : State) : Host.Outcome State Fault Refusal :=
  onEvent (fun mg m => m.watchInternal mg ctx) s

def Mach.watchExternal (m : Mach) (mg : Mgmt) (ctx : Nat) : Mach :=
  let c := m.ctx ctx
  if m.allIdle ctx == some true && limitReached c.stuckExt c.wdogExt m.now then m.watchFire mg ctx 1 else m
def execWatchdogExternal (ctx : Nat) (s : State) : Host.Outcome State Fault Refusal :=
  onEvent (fun mg m => m.watchExternal mg ctx) s

/-! ## Registers of the context block (R98, R285) -/

/-- WDOG_WRITE: the timer restarts. -/
def Ctx.writeWdog (c : Ctx) (ext : Bool) (x : Word) : Ctx :=
  if ext then { c with wdogExt := x, stuckExt := none } else { c with wdogInt := x, stuckInt := none }
def execWdogWrite (ctx : Nat) (ext : Bool) (value : Word) (s : State) : Host.Outcome State Fault Refusal :=
  onModule (lockedOr (deviceOf ctx) fun mg m => (mg, m.modCtx ctx fun c => c.writeWdog ext value)) s

/-- CORE_SPLIT_WRITE (R98). -/
def Ctx.writeSplit (c : Ctx) (spmax : BitVec 4) (x : Word) : Ctx :=
  let w := field x.toNat 3 0
  let v := min w (min 11 spmax.toNat)
  { c with spadSet := BitVec.ofNat 4 v, clamp := decide (v < w) }
def execCoreSplitWrite (ctx : Nat) (value : Word) (s : State) : Host.Outcome State Fault Refusal :=
  onModule (lockedOr (deviceOf ctx) fun mg m =>
    (mg, m.modCtx ctx fun c => c.writeSplit (tabGet mg.spmax (deviceOf ctx) 11) value)) s

/-! ## Suspension by time (R278) -/

/-- WARP_SUSPEND_TIMEOUT: 65,536 cycles after the first lane parked, the lanes still running are suspended where they stand. -/
def Mach.suspendTimeout (m : Mach) (mg : Mgmt) (bid warp : Nat) : Mach :=
  match m.block? bid, m.warp? bid warp with
  | some b, some w => match w.parkedAt with
    | none => m
    | some t =>
      if w.suspended || !b.resident || !(w.lanes.any Lane.isParked) || decide (m.cycle < t + 65536) then m
      else ((m.suspendWarps bid [warp]).beginHold bid .warp [warp] (warpRecs b [warp])).faultMode mg b.launch
  | _, _ => m
def execWarpSuspendTimeout (bid warp : Nat) (s : State) : Host.Outcome State Fault Refusal :=
  onEvent (fun mg m => m.suspendTimeout mg bid warp) s

/-! ## The doorbell (R329 to R332) -/

/-- The command that a message asks for, its arguments read from the 56 bytes after the header (log 14). -/
def mailCommand (h : MboxHead) (cmd : Nat) (x : MailArgs) : Option Command_ :=
  match cmd with
  | 1 => some (statusCmd h)
  | 2 => some (preemptCmd h x.ctx)
  | 3 => some (restoreCmd h x.ctx)
  | 4 => some (pooladdCmd h x.ctx x.flag x.frames)
  | 5 => some (setaperCmd h x.ctx x.base)
  | 6 => some (quiesceCmd h .checkpoint)
  | 7 => some (quiesceCmd h .sleep)
  | 8 => some (keyprovCmd h x.ctx x.key)
  | 16 => some (assignCmd h x.fn x.clusters x.queues)
  | 17 => some (grantCmd h x.fn x.flag)
  | 18 => some (powercapCmd h x.steps)
  | 19 => some (debugCmd h x.access)
  | 20 => some (dumprdCmd h)
  | _ => none

/-- What an accepted message does: after a GAP everything past its ACK is sent again; a reply asks for nothing; a command that the
table does not have is BADARG (log 14). -/
def mailRun (h : MboxHead) (cmd : Nat) (gap isReply : Bool) (x : MailArgs) : Command_ := fun mg m =>
  let (mg, m) := if gap then resend mg m h.fn else (mg, m)
  if isReply then (none, mg, m)
  else match mailCommand h cmd x with
    | some run => run mg m
    | none => if gap then (none, mg, m) else refuse .badarg mg m

/-- A write of MB.DB (R8, R329): the message of the slot is taken. -/
def doorbell (fn slot : Nat) (mg : Mgmt) (m : Mach) : Mgmt × Mach :=
  let msg := natOfBytes (memRead (mg.fn fn).rings (0x2000 + 64 * slot) 64)
  let h : MboxHead := ⟨fn, BitVec.ofNat 16 (field msg 15 0), BitVec.ofNat 16 (field msg 31 16)⟩
  let cmd := field msg 39 32
  receive h cmd (mailRun h cmd (field msg 47 40 == 3) (msg.testBit 48) (Config.mailArgs cmd (BitVec.ofNat 448 (field msg 511 64)))) mg m

end Sys2Proof.Machine
end

