-- ==== Sys2Proof/Machine/Handler.lean ====
section
/-! DEFINITION. The context fault queue (R280 to R283), the handler's commands (R286, with R80, R222, R238), TLB invalidation
(R291). -/

namespace Sys2Proof.Machine

/-! ## Writing entries (R280, R283) -/

/-- Slots of the ring. -/
def Ctx.fqSlots (c : Ctx) : Nat := 2 ^ (c.fqLog.toNat + 8)
def Ctx.fqFree (c : Ctx) : Nat := c.fqSlots - (c.fqProd - c.fqCons).toNat

/-- The header slot of a part: its records, whether it continues, its number. -/
def FqEntry.header (e : FqEntry) (nrec : Nat) (cont : Bool) (seq : Nat) : BitVec 256 :=
  BitVec.ofNat 256 (e.kind % 256 + nrec * 2 ^ 8 + (if cont then 2 ^ 19 else 0) + seq % 2 ^ 32 * 2 ^ 32 + e.info0.toNat * 2 ^ 64 +
    e.info1.toNat * 2 ^ 128 + e.info2.toNat * 2 ^ 192)

/-- The records of the next part: what fits beside a header in the ring. -/
def FqEntry.part (e : FqEntry) (slots : Nat) : List (BitVec 256) := (e.recs.drop (e.parts * (slots - 1))).take (slots - 1)
def FqEntry.lastPart (e : FqEntry) (slots : Nat) : Bool := decide (e.recs.length ≤ (e.parts + 1) * (slots - 1))

/-- Slots are written in order, modulo the ring. -/
def Mach.writeSlots (m : Mach) (ctx : Nat) (c : Ctx) : Nat → List (BitVec 256) → Mach
  | _, [] => m
  | i, x :: r => (m.hwWrite ctx c.fqHost (c.fqBase + 32 * (i % c.fqSlots)) (bytesOfNat x.toNat 32)).writeSlots ctx c (i + 1) r

/-- Regions that an entry reports: its own, and those of the XLATE records in it (R282, R290). -/
def FqEntry.regions (e : FqEntry) : List Nat :=
  e.region.toList ++ (e.recs.filter fun r => field r.toNat 7 0 == 0x15 && e.kind == 1).map fun r => field r.toNat 175 128 / 65536

/-- An entry stands whole: its hold is outstanding, its regions are reported, the launch it held back counts (R255, R283, R286). -/
def Mach.entryDone (m : Mach) (ctx : Nat) (e : FqEntry) : Mach :=
  let m := m.modCtx ctx fun c =>
    { c with
      fq := c.fq.drop 1
      holds := c.holds.map fun (h : Hold) => if e.hold = some h.num then { h with written := true } else h
      reported := dedup (c.reported ++ e.regions.filter c.unresolved.contains) }
  match e.after with
  | none => m
  | some (q, seq) => m.countDone q seq

/-- FQ.NOTE: the vector, and the wake of a launch queue (R284). -/
def Mach.notify (m : Mach) (ctx : Nat) : Mach :=
  let n := (m.ctx ctx).fqNote
  let m := if n.getLsbD 11 then { m with signals := m.signals ++ [.msix (deviceOf ctx) (field n.toNat 10 0)] } else m
  if n.getLsbD 21 then m.signal ctx (BitVec.ofNat 32 (field n.toNat 20 12)) else m

/-- A ring in host memory cannot be written while the function's stream is held or Insecure, or its DMA has stopped (R322, R323). -/
def Mach.ringShut (m : Mach) (ctx : Nat) (host : Bool) : Bool := host && (m.hostHeld ctx || m.hostDead ctx)

/-- FAULT_ENTRY_WRITE (R283): the oldest pending entry, or its next part, once the ring has room and can be written. -/
def Mach.writeEntry (m : Mach) (ctx : Nat) : Mach :=
  let c := m.ctx ctx
  match c.fq with
  | [] => m
  | e :: rest =>
    let recs := e.part c.fqSlots
    if !c.fqEn || m.ringShut ctx c.fqHost || c.fqFree < 1 + recs.length then m
    else
      let m := m.writeSlots ctx c c.fqProd.toNat (e.header recs.length (e.parts != 0) c.fqSeq :: recs)
      let m := m.modCtx ctx fun c =>
        { c with fqProd := c.fqProd + BitVec.ofNat 32 (1 + recs.length), fqSeq := (c.fqSeq + 1) % 2 ^ 32
                 fq := { e with parts := e.parts + 1 } :: rest }
      (if e.lastPart c.fqSlots then m.entryDone ctx e else m).notify ctx
def execFaultEntryWrite (ctx : Nat) (s : State) : Host.Outcome State Fault Refusal := onEvent (fun _ m => m.writeEntry ctx) s

/-! ## RESUME and DISCARD (R80, R286) -/

/-- An outstanding hold. -/
def Ctx.hold? (c : Ctx) (num : BitVec 16) : Option Hold := c.holds.find? fun h => h.num == num && h.written

/-- Whether a lane is parked on TRAP. -/
def Lane.trapped (l : Lane) : Bool :=
  match l.st with
  | .parked (some r) => r.cause.code == 7
  | .parked none => false
  | .ready => false
  | .waiting _ => false
  | .exited => false

/-- The lane's own arrival at the instruction of a slot. -/
def Lane.atSlot (s : Slot) (l : Lane) : Bool := l.pc.clause == s.clause && wordIndex (l.code.headD 0) l.pc.index == s.widx

def Lane.inSlot (k : Nat) (l : Lane) : Bool := l.st == .waiting (.rendezvous k)

/-- A held slot of a TRAP is over: its lanes resume after it. -/
def Mach.slotTrapped (b : Block) (s : Slot) : Bool :=
  b.warps.cells.any fun w => (indexed w.2.lanes).any fun x =>
    (tabGet s.groups w.1 0).getLsbD x.1 && x.2.isParked && x.2.atSlot s && x.2.trapped

/-- Every lane that waits in a slot becomes ready: after its instruction, or at it. -/
def freeLanes (k : Nat) (after : Bool) (now : Nat) (w : Warp) : Warp :=
  modLanes w fun _ l => if l.inSlot k then l.readyAt (if after then l.afterPc else l.pc) now else l

/-- Lanes that the slot's execution parked wait in it again. -/
def returnLanes (k : Nat) (s : Slot) (key : Nat) (w : Warp) : Warp :=
  modLanes w fun i l =>
    if (tabGet s.groups key 0).getLsbD i && l.isParked && l.atSlot s then { l with st := .waiting (.rendezvous k) } else l

/-- One rendezvous of a resumed hold (R80): discarded, over after a TRAP, or executing once more; one that has taken its effect
goes on to its end. -/
def resumeSlot (discard : Bool) (now k : Nat) (b : Block) : Block :=
  match tabFind b.slots k with
  | none => b
  | some s =>
    if s.running.isSome then b
    else if discard then { b with slots := tabErase b.slots k, warps := tabMap (freeLanes k false now) b.warps }
    else if !s.held then b
    else if Mach.slotTrapped b s then { b with slots := tabErase b.slots k, warps := tabMap (freeLanes k true now) b.warps }
    else
      { b with slots := tabSet b.slots k { s with held := false, pend := ⟨[]⟩, start := some now }
               warps := ⟨b.warps.cells.map fun w => (w.1, returnLanes k s w.1 w.2)⟩ }

/-- The slots in which lanes of the hold's warps stand. -/
def holdSlots (b : Block) (warps : List Nat) : List Nat :=
  (tabKeys b.slots).filter fun k => match tabFind b.slots k with
    | none => false
    | some s => warps.any fun w => tabHas s.arrived w

/-- One warp of a resumed hold: its parked lanes, unless an earlier hold has them; its suspension, unless another hold goes on,
and the age of its ready lanes starts anew with it (R43). -/
def resumeWarp (now stamp : Nat) (first only : Bool) (w : Warp) : Warp :=
  let w := modLanes w fun _ l =>
    let l := if l.live then { l with pts := max l.pts stamp } else l
    let l := if only && l.st == .ready then { l with ageBase := now } else l
    if !first || !l.isParked then l else l.readyAt (if l.trapped then l.afterPc else l.pc) now
  { w with suspended := !only, group := 0, parkedAt := if first then none else w.parkedAt }

/-- RESUME, or DISCARD (R286): of a block on its core or saved. -/
def Mach.resumeHold (m : Mach) (mg : Mgmt) (ctx : Nat) (num : BitVec 16) (discard : Bool) : Mach :=
  match (m.ctx ctx).hold? num with
  | none => m
  | some h =>
    let before := ((m.ctx ctx).holds.takeWhile fun x => x.num != num).filter fun x => x.bid == h.bid
    let m := m.modCtx ctx fun c => { c with holds := c.holds.filter fun x => x.num != num }
    let left := (m.ctx ctx).holds.filter fun x => x.bid == h.bid
    match m.block? h.bid with
    | none => m
    | some b =>
      let b := (holdSlots b h.warps).foldl (fun b k => resumeSlot discard m.cycle k b) b
      let m := m.setBlock h.bid b
      let m := h.warps.foldl (fun m k => m.modWarp h.bid k
        (resumeWarp m.cycle m.maxStamp (!(before.any fun x => x.warps.contains k)) (!(left.any fun x => x.warps.contains k)))) m
      let m := m.requeue mg h.bid
      h.warps.foldl (fun m k => m.settleWarp mg h.bid k) (m.retestSlots h.bid)

/-- FQ.CMD is served while the TDI of the function is not in ERROR (R323). -/
def onCommand (ctx : Nat) (f : Mgmt → Mach → Mach) (s : State) : Host.Outcome State Fault Refusal :=
  onEvent (fun mg m => if (mg.fn (deviceOf ctx)).tdi == .error then m else f mg m) s

def execResume (ctx : Nat) (hold : BitVec 16) (s : State) : Host.Outcome State Fault Refusal :=
  onCommand ctx (fun mg m => m.resumeHold mg ctx hold false) s
def execDiscard (ctx : Nat) (hold : BitVec 16) (s : State) : Host.Outcome State Fault Refusal :=
  onCommand ctx (fun mg m => m.resumeHold mg ctx hold true) s

/-! ## ABORT, RESET -/

def Mach.abortHold (m : Mach) (mg : Mgmt) (ctx : Nat) (num : BitVec 16) : Mach :=
  match (m.ctx ctx).hold? num with
  | none => m
  | some h => match m.block? h.bid with
    | none => m
    | some b => m.abortLaunch mg b.launch
def execAbort (ctx : Nat) (hold : BitVec 16) (s : State) : Host.Outcome State Fault Refusal :=
  onCommand ctx (fun mg m => m.abortHold mg ctx hold) s

def execReset (ctx : Nat) (s : State) : Host.Outcome State Fault Refusal := onCommand ctx (fun mg m => m.forcedReset mg ctx 4) s

/-! ## RESOLVE, FAILPG -/

/-- A command of a context that is paused on a region. -/
def Mach.pausedOn (m : Mach) (ctx region : Nat) (c : Command) : Bool :=
  ((m.block? c.bid).map (·.ctx)) == some ctx && (match c.fwait with
    | none => false
    | some va => va.toNat / 65536 == region)

def Mach.mapCommands (m : Mach) (f : Command → Command) : Mach :=
  { m with
    cores := tabMap (fun c => { c with mq := c.mq.map f, chans := tabMap (fun x => ⟨x.cmds.map f⟩) c.chans }) m.cores
    blocks := tabMap (fun b => { b with keptMx := b.keptMx.map f, keptCh := b.keptCh.map fun x => (x.1, f x.2) }) m.blocks }

/-- A region that an entry has reported is settled. -/
def Mach.settleRegion (m : Mach) (ctx region : Nat) : Mach :=
  m.modCtx ctx fun c => { c with unresolved := c.unresolved.filter (· != region), reported := c.reported.filter (· != region) }

/-- RESOLVE: every command paused on the region retries its access. -/
def Mach.resolveRegion (m : Mach) (ctx region : Nat) : Mach :=
  if !((m.ctx ctx).reported.contains region) then m
  else (m.mapCommands fun c => if m.pausedOn ctx region c then { c with fwait := none } else c).settleRegion ctx region
def execResolve (ctx : Nat) (region : Word) (s : State) : Host.Outcome State Fault Refusal :=
  onCommand ctx (fun _ m => m.resolveRegion ctx region.toNat) s

def pausedVa (c : Command) : Nat := (c.fwait.map (·.toNat)).getD 0

/-- The kept commands of a block that are paused on the region end with XLATE: what was delivered is counted (R234). -/
def Mach.failKept (m : Mach) (mg : Mgmt) (ctx region bid : Nat) : Mach :=
  match m.block? bid with
  | none => m
  | some b =>
    let bad (c : Command) : Bool := m.pausedOn ctx region c
    let m := m.modBlock bid fun b => { b with keptMx := b.keptMx.filter fun c => !bad c, keptCh := b.keptCh.filter fun x => !bad x.2 }
    let m := (b.keptMx.filter bad).foldl (fun (m : Mach) c =>
      let m := (m.endCommand c).modBlock bid fun b => { b with savedTiles := tabMod b.savedTiles c.tile c.spoil }
      let m := if b.resident then m.modTile b.core c.tile c.spoil else m
      m.engineHold mg bid 3 (mxRecord b c 0xB (pausedVa c))) m
    (b.keptCh.filter fun x => bad x.2).foldl (fun (m : Mach) x =>
      let m := match x.2.op with
        | .copy y _ _ => m.countStep b.core (8 * b.ctx + x.1) (copyParams y) x.2
        | .mma _ _ => m
        | .drain _ _ _ => m
      (m.endCommand x.2).engineHold mg bid 4 (cpRecord b x.2 x.1 0x8 (pausedVa x.2))) m

/-- A paused matrix command, wherever it stands in its queue, ends with XLATE; one that an earlier error has moved is kept. -/
def Mach.failMx (m : Mach) (mg : Mgmt) (core : Nat) (c : Command) : Mach :=
  if (m.core core).mq.contains c then m.mxErrorOf mg core c 0xB (pausedVa c) else m

/-- A paused copy command, likewise. -/
def Mach.failCh (m : Mach) (mg : Mgmt) (core key : Nat) (c : Command) : Mach :=
  if (m.chanCmds core key).contains c then
    match c.op with
    | .copy y _ _ => m.cpErrorOf mg core key (copyParams y) c 0x8 (pausedVa c)
    | .mma _ _ => m
    | .drain _ _ _ => m
  else m

/-- FAILPG: every command paused on the region ends with cause XLATE (R222, R238). -/
def Mach.failRegion (m : Mach) (mg : Mgmt) (ctx region : Nat) : Mach :=
  if !((m.ctx ctx).reported.contains region) then m
  else
    let bad := m.pausedOn ctx region
    let mq := m.cores.cells.flatMap fun c => (c.2.mq.filter bad).map fun k => (c.1, k)
    let ch := m.cores.cells.flatMap fun c => c.2.chans.cells.flatMap fun x => (x.2.cmds.filter bad).map fun k => (c.1, x.1, k)
    let m := mq.foldl (fun m x => m.failMx mg x.1 x.2) m
    let m := ch.foldl (fun m x => m.failCh mg x.1 x.2.1 x.2.2) m
    let kept := m.blocksOf fun b => b.keptMx.any (m.pausedOn ctx region) || b.keptCh.any fun x => m.pausedOn ctx region x.2
    (kept.foldl (fun m k => m.failKept mg ctx region k) m).settleRegion ctx region
def execFailpg (ctx : Nat) (region : Word) (s : State) : Host.Outcome State Fault Refusal :=
  onCommand ctx (fun mg m => m.failRegion mg ctx region.toNat) s

/-- A value written to FQ.CMD (R286): a non-zero bit of [31:20] or any other OP is ignored. -/
def Mach.fqCmd (m : Mach) (mg : Mgmt) (ctx : Nat) (x : BitVec 64) : Mach :=
  let h : BitVec 16 := x.extractLsb' 4 16
  let r := field x.toNat 63 32
  if field x.toNat 31 20 ≠ 0 then m
  else match field x.toNat 3 0 with
    | 1 => m.resumeHold mg ctx h false
    | 2 => m.resumeHold mg ctx h true
    | 3 => m.resolveRegion ctx r
    | 4 => m.failRegion mg ctx r
    | 5 => m.abortHold mg ctx h
    | 6 => m.forcedReset mg ctx 4
    | _ => m

/-! ## TLB invalidation (R291) -/

def Inval.names (i : Inval) (region : Nat) : Bool := i.all || inRange i.first i.count region

/-- The copy is of a page that holds a region named. -/
def Inval.drops (i : Inval) (e : TlbEntry) : Bool :=
  i.all || (decide (i.first < e.region + 2 ^ e.leaf.log / 65536) && decide (e.region < i.first + i.count))

/-- The copies of pages in the regions named go. -/
def Mach.dropTlb (m : Mach) (ctx : Nat) (i : Inval) : Mach :=
  { m with tlb := m.tlb.filter fun e => e.ctx != ctx || !i.drops e }

/-- TLB_INV: BUSY is set, the copies go, the trackers of the regions drain. A second write while BUSY names every region. -/
def Mach.tlbInv (m : Mach) (ctx : Nat) (x : BitVec 64) : Mach :=
  let busy := (m.ctx ctx).inval
  let old := match busy with
    | none => []
    | some i => i.drains
  let i : Inval := ⟨field x.toNat 31 0, 2 ^ field x.toNat 37 32, x.getLsbD 38 || busy.isSome, []⟩
  if !tabHas m.ctxs ctx then m
  else
    let m := (m.dropTlb ctx i).drainAll fun t => t.ctx == ctx && i.names (t.vline / 512)
    let mine := (m.drains.filter fun d => d.ctx == ctx).map (·.id)
    m.modCtx ctx fun c => { c with inval := some { i with drains := dedup (old ++ mine) } }
def execTlbInv (ctx : Nat) (value : BitVec 64) (s : State) : Host.Outcome State Fault Refusal :=
  onCommand ctx (fun _ m => m.tlbInv ctx value) s

/-- What still uses an old translation: a drain the invalidation waits for, a posted press or store to the regions named. -/
def Mach.invalHeld (m : Mach) (ctx : Nat) (i : Inval) : Bool :=
  (m.drains.any fun d => i.drains.contains d.id) ||
    (m.presses.any fun r => r.ctx == ctx && r.remote.isNone && i.names (r.va / 65536)) ||
    m.posted.any fun x => x.ctx == ctx && !x.lanes.isEmpty && i.names (x.va.toNat / 65536)

/-- The dependences that could not be read are tested again (R256). -/
def Mach.retestDeps (m : Mach) (mg : Mgmt) (ctx : Nat) : Mach :=
  (m.launches.cells.filter fun x => x.2.ctx == ctx && x.2.order.isNone && x.2.rec_.deps.any fun d => d.told && !d.met).foldl (fun m x =>
    let (deps, m) := m.testDeps mg x.2 x.1 0 x.2.rec_.deps
    m.modLaunch x.1 fun l => { l with rec_ := { l.rec_ with deps := deps } }) m

/-- TLB_INV_COMPLETE: nothing uses the old translations, what walks fetched meanwhile is discarded, BUSY clears. -/
def Mach.tlbInvDone (m : Mach) (mg : Mgmt) (ctx : Nat) : Mach :=
  match (m.ctx ctx).inval with
  | none => m
  | some i =>
    if m.invalHeld ctx i then m
    else ((m.dropTlb ctx i).modCtx ctx fun c => { c with inval := none }).retestDeps mg ctx
def execTlbInvComplete (ctx : Nat) (s : State) : Host.Outcome State Fault Refusal := onEvent (fun mg m => m.tlbInvDone mg ctx) s

end Sys2Proof.Machine
end

