-- ==== Sys2Proof/Machine/Regs.lean ====
section
/-! DEFINITION. The registers of BAR 0 (R8, R321): where each lies, what a read returns, what a write does; the L2 control block
(R97, R103, R105 to R107), the quotas (R176 to R178), SCHED.DL (R266), the register blocks of contexts (R284, R285, R326, R430). -/

namespace Sys2Proof.Machine

/-! ## Where registers lie -/

/-- A register of BAR 0; `c` is the module's number of a context. -/
inductive BarReg where
  | mbDb | mbStat | mbIn (a : Nat) | mbOut (a : Nat)
  | prot | umon | vdmask (d : Nat) | vdpol (d : Nat) | partLimit (d : Nat)
  | quota (d : Nat) (second : Bool) | quotaStat | schedDl (p : Nat)
  | lqRing (q : Nat) | lqWake (q : Nat) | lqStat (q : Nat) | lqSeq (q : Nat)
  | ptbr (c : Nat) | fqRing (c : Nat) | fqProd (c : Nat) | fqCons (c : Nat) | fqStat (c : Nat) | fqNote (c : Nat) | fqCmd (c : Nat)
  | split (c : Nat) | wdog (c : Nat) (ext : Bool) | binTimer (c : Nat) | logRing (c : Nat) | logProd (c : Nat) | logCons (c : Nat)
  | tlbInv (c : Nat) | tlbStat (c : Nat) | tls (c : Nat) | check (c : Nat) | peer (c n : Nat)
  deriving DecidableEq, Repr

/-- The register block of a context (R284, R285, R326, R430). -/
def ctxReg (c off : Nat) : Option BarReg :=
  match off with
  | 0x000 => some (.ptbr c)
  | 0x010 => some (.fqRing c)
  | 0x018 => some (.fqProd c)
  | 0x01C => some (.fqCons c)
  | 0x020 => some (.fqStat c)
  | 0x024 => some (.fqNote c)
  | 0x028 => some (.fqCmd c)
  | 0x030 => some (.split c)
  | 0x034 => some (.wdog c false)
  | 0x038 => some (.wdog c true)
  | 0x03C => some (.binTimer c)
  | 0x040 => some (.logRing c)
  | 0x048 => some (.logProd c)
  | 0x04C => some (.logCons c)
  | 0x050 => some (.tlbInv c)
  | 0x058 => some (.tlbStat c)
  | 0x060 => some (.tls c)
  | 0x068 => some (.check c)
  | _ => if 0x080 ≤ off ∧ off < 0x100 ∧ off % 8 = 0 then some (.peer c ((off - 0x080) / 8)) else none

/-- The L2 control block, the quota block and SCHED.DL: of the physical function only. -/
def pfReg (off : Nat) : Option BarReg :=
  if off = 0x100000 then some .prot
  else if off = 0x100008 then some .umon
  else if 0x100100 ≤ off ∧ off < 0x100500 ∧ off % 8 = 0 then
    some (if off % 16 = 0 then .vdmask ((off - 0x100100) / 16) else .vdpol ((off - 0x100100) / 16))
  else if 0x100900 ≤ off ∧ off < 0x100B00 ∧ off % 8 = 0 then some (.partLimit ((off - 0x100900) / 8))
  else if 0x110000 ≤ off ∧ off < 0x110400 ∧ off % 8 = 0 then some (.quota ((off - 0x110000) / 16) (off % 16 == 8))
  else if off = 0x110800 then some .quotaStat
  else if 0x120000 ≤ off ∧ off < 0x120080 ∧ off % 4 = 0 then some (.schedDl ((off - 0x120000) / 4))
  else none

/-- The mailbox (R329): its rings as 8-byte words. -/
def mailboxReg (off : Nat) : Option BarReg :=
  if off = 0x1000 then some .mbDb
  else if off = 0x1008 then some .mbStat
  else if 0x2000 ≤ off ∧ off < 0x2400 ∧ off % 8 = 0 then some (.mbIn off)
  else if 0x2400 ≤ off ∧ off < 0x2800 ∧ off % 8 = 0 then some (.mbOut off)
  else none

/-- The registers of a launch queue (R245 to R248). -/
def queueReg (q off : Nat) : Option BarReg :=
  match off with
  | 0x00 => some (.lqRing q)
  | 0x08 => some (.lqWake q)
  | 0x10 => some (.lqStat q)
  | 0x18 => some (.lqSeq q)
  | _ => none

/-- The register at an offset of a function's BAR 0 (R321): queues of other functions and contexts that do not exist are absent. -/
def Mach.regAt (m : Mach) (fn off : Nat) : Option BarReg :=
  if off < 0x100000 then mailboxReg off
  else if off < 0x200000 then (if fn = 0 then pfReg off else none)
  else if off < 0x400000 then
    let q := (off - 0x200000) / 32
    if q < 512 ∧ (m.queue q).fn = fn then queueReg q (off % 32) else none
  else
    let c := (off - 0x400000) / 0x1000
    if c < 16 ∧ tabHas m.ctxs (16 * fn + c) then ctxReg (16 * fn + c) (off % 0x1000) else none

/-! ## Quotas (R176 to R178) -/

/-- The sum of a field over all devices. -/
def quotaSum (qs : List Quota) (f : Quota → Nat) : Nat := (qs.map f).foldl (· + ·) 0

/-- Every field's sum fits the capacity of its Effect column. -/
def quotasFit (qs : List Quota) : Bool :=
  decide (quotaSum qs (·.pdefs) ≤ 1024) && decide (quotaSum qs (·.cbuf) ≤ 128) && decide (quotaSum qs (·.trkl) ≤ 32) &&
    decide (quotaSum qs (·.trkc) ≤ 64) && decide (quotaSum qs (·.bins) ≤ 64) && decide (quotaSum qs (·.bwent) ≤ 256) &&
    decide (quotaSum qs (·.chans) ≤ 8)

def Quota.word (q : Quota) (second : Bool) : BitVec 64 :=
  if second then BitVec.ofNat 64 (q.bins + q.bwent * 2 ^ 7 + q.chans * 2 ^ 16)
  else BitVec.ofNat 64 (q.pdefs + q.cbuf * 2 ^ 11 + q.trkl * 2 ^ 19 + q.trkc * 2 ^ 25)

def Quota.write (q : Quota) (second : Bool) (x : Nat) : Quota :=
  if second then { q with bins := field x 6 0, bwent := field x 15 7, chans := field x 19 16 }
  else { q with pdefs := field x 10 0, cbuf := field x 18 11, trkl := field x 24 19, trkc := field x 31 25 }

def Mgmt.writeQuota (mg : Mgmt) (d : Nat) (second : Bool) (x : Nat) : Mgmt :=
  let qs := mg.quotas.modify d fun q => q.write second x
  if quotasFit qs then { mg with quotas := qs } else { mg with quotaErr := true }
def execQuotaWrite (device : Nat) (second : Bool) (value : Word) (s : State) : Host.Outcome State Fault Refusal :=
  onModule (lockedOr 0 fun mg m => (mg.writeQuota device second value.toNat, m)) s

/-! ## L2 control (R97, R103, R105 to R107) -/

def Mgmt.l2Dev (mg : Mgmt) (d : Nat) : L2Dev := tabGet mg.l2 d L2Dev.reset
def Mgmt.setL2 (mg : Mgmt) (d : Nat) (x : L2Dev) : Mgmt := { mg with l2 := tabSet mg.l2 d x }

def boolBit (b : Bool) : Nat := if b then 1 else 0

/-- L2.VDPOL; with its read-only QNOW, or with zero in its place. -/
def L2Dev.policy (d : L2Dev) (qnow : Bool) : BitVec 64 :=
  BitVec.ofNat 64 (d.rdpol.toNat + d.wrpol.toNat * 2 ^ 2 + d.atpol.toNat * 2 ^ 4 + d.qmin * 2 ^ 8 + d.qinit * 2 ^ 13 +
    (if qnow then d.qnow * 2 ^ 18 else 0) + boolBit d.umen * 2 ^ 23)

def L2Dev.writePolicy (d : L2Dev) (x : BitVec 64) : L2Dev :=
  { d with rdpol := x.extractLsb' 0 2, wrpol := x.extractLsb' 2 2, atpol := x.extractLsb' 4 2, qmin := field x.toNat 12 8
           qinit := field x.toNat 17 13, umen := x.getLsbD 23 }

/-- L2.PROT (R105): the lines in ways that join PWAYS are written back and invalidated, those in ways that leave it are scrubbed; memory
has their bytes. -/
def writeProt (mg : Mgmt) (m : Mach) (x : BitVec 64) : Mgmt × Mach :=
  if mg.plock then (mg, m)
  else
    let ways : BitVec 16 := x.extractLsb' 0 16
    ({ mg with pways := ways, plock := x.getLsbD 16 }, { m with lines := tabFilter (fun _ (r : Resident) => !(ways ^^^ mg.pways).getLsbD r.way) m.lines })
def execL2ProtWrite (value : Word) (s : State) : Host.Outcome State Fault Refusal :=
  onModule (lockedOr 0 fun mg m => writeProt mg m (value.setWidth 64)) s

/-- The devices of the utility monitor. -/
def Mgmt.monitored (mg : Mgmt) : List Nat := (List.range 64).filter fun d => (mg.l2Dev d).umen

/-- L2.UMON (R106): ERR is cleared by a one; EN = 1 is refused while the initial quotas do not fit. -/
def Mgmt.writeUmon (mg : Mgmt) (x : BitVec 64) (now : Nat) : Mgmt :=
  let mg := { mg with umonErr := mg.umonErr && !x.getLsbD 1, umonPer := x.extractLsb' 8 24 }
  if !x.getLsbD 0 then { mg with umonEn := false }
  else if mg.monitored.foldl (fun n d => n + (mg.l2Dev d).qinit) 0 > 16 - popcount mg.pways then
    { mg with umonEn := false, umonErr := true }
  else
    let mg := mg.monitored.foldl (fun mg d => mg.setL2 d { mg.l2Dev d with qnow := (mg.l2Dev d).qinit }) mg
    { mg with umonEn := true, umonAt := now }
def execL2UmonWrite (value : Word) (s : State) : Host.Outcome State Fault Refusal :=
  onModule (lockedOr 0 fun mg m => (mg.writeUmon (value.setWidth 64) m.now, m)) s

/-! ### The utility monitor (R107) -/

/-- H(d, q): what was found at a depth below q. -/
def hitsOf (hits : Tab Nat) (d q : Nat) : Int := ((List.range q).foldl (fun n p => n + tabGet hits (32 * d + p) 0) 0 : Nat)

def Mgmt.gain (mg : Mgmt) (hits : Tab Nat) (d : Nat) : Option Int :=
  let x := mg.l2Dev d
  if x.qnow + 1 ≤ popcount (x.masks.extractLsb' 0 16) then some (hitsOf hits d (x.qnow + 1) - hitsOf hits d x.qnow) else none

def Mgmt.loss (mg : Mgmt) (hits : Tab Nat) (d : Nat) : Option Int :=
  let x := mg.l2Dev d
  if x.qnow > x.qmin then some (hitsOf hits d x.qnow - hitsOf hits d (x.qnow - 1)) else none

/-- The device of greatest gain, ties to the lowest; of least loss, ties to the highest. -/
def Mgmt.gainer (mg : Mgmt) (hits : Tab Nat) : Option (Nat × Int) :=
  mg.monitored.foldl (fun (o : Option (Nat × Int)) d => match mg.gain hits d, o with
    | none, o => o
    | some g, none => some (d, g)
    | some g, some y => if g > y.2 then some (d, g) else some y) none

def Mgmt.loser (mg : Mgmt) (hits : Tab Nat) (a : Nat) : Option (Nat × Int) :=
  (mg.monitored.filter (· != a)).foldl (fun (o : Option (Nat × Int)) d => match mg.loss hits d, o with
    | none, o => o
    | some l, none => some (d, l)
    | some l, some y => if l ≤ y.2 then some (d, l) else some y) none

/-- The interval in force. -/
def Mgmt.umonTime (mg : Mgmt) : Nat := max 10000 mg.umonPer.toNat

/-- An interval of the monitor is over. -/
def Mgmt.umonDue (mg : Mgmt) (now : Nat) : Bool := mg.umonEn && decide (mg.umonAt + mg.umonTime ≤ now)

/-- The one move that is considered at the end of an interval. -/
def Mgmt.umonMove (mg : Mgmt) (hits : Tab Nat) (now : Nat) : Mgmt :=
  let mg := { mg with umonAt := now }
  match mg.gainer hits with
  | none => mg
  | some a => match mg.loser hits a.1 with
    | none => mg
    | some b =>
      if a.2 > b.2 then
        (mg.setL2 a.1 { mg.l2Dev a.1 with qnow := (mg.l2Dev a.1).qnow + 1 }).setL2 b.1 { mg.l2Dev b.1 with qnow := (mg.l2Dev b.1).qnow - 1 }
      else mg

/-- UMON_INTERVAL: the move, and all counts are cleared. -/
def umonEnd (mg : Mgmt) (m : Mach) : Mgmt × Mach :=
  if mg.umonDue m.now then (mg.umonMove m.hits m.now, { m with hits := ⟨[]⟩ }) else (mg, m)
def execUmonInterval (_ : Unit) (s : State) : Host.Outcome State Fault Refusal := onModule umonEnd s

/-! ## Reads (R8) -/

/-- LQ.RING; with EN, or with zero in its place. -/
def Queue.ringWord (q : Queue) (en : Bool) : BitVec 64 :=
  BitVec.ofNat 64 (q.base + q.log2n * 2 ^ 48 + boolBit q.host * 2 ^ 52 + (if en then boolBit q.en * 2 ^ 53 else 0))

/-- STATE of LQ.STAT (R245, R247). -/
def Queue.stateCode (q : Queue) : Nat :=
  if q.log2n = 0 then 3
  else match q.state with
    | .disabled => 3
    | .faulted => 2
    | .enabled => if q.head = q.tail then 0 else 1

def Queue.statWord (q : Queue) : BitVec 64 :=
  BitVec.ofNat 64 (q.head.toNat + q.stateCode * 2 ^ 16 + q.fcause * 2 ^ 24 + q.done.toNat * 2 ^ 32)

/-- The ring registers of a context: their three fields, LOG2, HOST and EN, and a 4 KiB-aligned base. -/
def ringBits (log : BitVec 4) (host en : Bool) (base : Nat) : BitVec 64 :=
  BitVec.ofNat 64 (log.toNat + boolBit host * 2 ^ 4 + boolBit en * 2 ^ 5 + base)

def Ctx.fqStatWord (c : Ctx) : BitVec 64 := BitVec.ofNat 64 (boolBit c.fqOvf + min 32 c.fq.length * 2 ^ 8 + c.fqDrop * 2 ^ 16)

/-- What a read of a context's register returns. -/
def Ctx.readReg (c : Ctx) (r : BarReg) : BitVec 64 :=
  match r with
  | .ptbr _ => BitVec.ofNat 64 (boolBit c.ptEn + c.ptRoot)
  | .fqRing _ => ringBits c.fqLog c.fqHost c.fqEn c.fqBase
  | .fqProd _ => c.fqProd.setWidth 64
  | .fqCons _ => c.fqCons.setWidth 64
  | .fqStat _ => c.fqStatWord
  | .fqNote _ => c.fqNote.setWidth 64
  | .split _ => BitVec.ofNat 64 c.splitWord
  | .wdog _ ext => (if ext then c.wdogExt else c.wdogInt).setWidth 64
  | .binTimer _ => c.binTimer.setWidth 64
  | .logRing _ => ringBits c.logLog c.logHost c.logEn c.logBase
  | .logProd _ => c.logProd.setWidth 64
  | .logCons _ => c.logCons.setWidth 64
  | .tlbStat _ => BitVec.ofNat 64 (boolBit c.inval.isSome)
  | .tls _ => BitVec.ofNat 64 (c.tlsLog.toNat + c.tlsBase)
  | .check _ => BitVec.ofNat 64 (boolBit c.check)
  | .peer _ n => (tabGet c.peers n 0).setWidth 64
  | _ => 0

/-- The context whose block holds a register. -/
def BarReg.ctx? : BarReg → Option Nat
  | .ptbr c | .fqRing c | .fqProd c | .fqCons c | .fqStat c | .fqNote c | .fqCmd c | .split c | .wdog c _ | .binTimer c | .logRing c
  | .logProd c | .logCons c | .tlbInv c | .tlbStat c | .tls c | .check c | .peer c _ => some c
  | .mbDb | .mbStat | .mbIn _ | .mbOut _ | .prot | .umon | .vdmask _ | .vdpol _ | .partLimit _ | .quota _ _ | .quotaStat | .schedDl _
  | .lqRing _ | .lqWake _ | .lqStat _ | .lqSeq _ => none

/-- What a read of a function's register returns (R8): a write-only register reads zero. -/
def readBar (mg : Mgmt) (m : Mach) (fn : Nat) (r : BarReg) : BitVec 64 :=
  match r.ctx? with
  | some c => (m.ctx c).readReg r
  | none => match r with
    | .mbStat => BitVec.ofNat 64 ((mg.fn fn).outSlot.toNat + boolBit mg.alarm * 2 ^ 4 + boolBit mg.dump.isSome * 2 ^ 5)
    | .mbIn a => BitVec.ofNat 64 (natOfBytes (memRead (mg.fn fn).rings a 8))
    | .mbOut a => BitVec.ofNat 64 (natOfBytes (memRead (mg.fn fn).rings a 8))
    | .prot => BitVec.ofNat 64 (mg.pways.toNat + boolBit mg.plock * 2 ^ 16)
    | .umon => BitVec.ofNat 64 (boolBit mg.umonEn + boolBit mg.umonErr * 2 + mg.umonPer.toNat * 2 ^ 8)
    | .vdmask d => (mg.l2Dev d).masks
    | .vdpol d => (mg.l2Dev d).policy true
    | .partLimit d => (tabGet mg.spmax d 11).setWidth 64
    | .quota d second => (mg.quotas.getD d Quota.zero).word second
    | .quotaStat => BitVec.ofNat 64 (boolBit mg.quotaErr)
    | .schedDl p => (tabGet mg.schedDl p 200000).setWidth 64
    | .lqRing q => (m.queue q).ringWord true
    | .lqStat q => (m.queue q).statWord
    | .lqSeq q => (m.queue q).rd.setWidth 64
    | _ => 0

/-! ## Writes (R8) -/

/-- A ring register keeps what it holds while EN is 1, unless the write also clears EN (R284). -/
def Ctx.writeFqRing (c : Ctx) (x : BitVec 64) : Ctx :=
  if c.fqEn && x.getLsbD 5 then c
  else { c with fqLog := x.extractLsb' 0 4, fqHost := x.getLsbD 4, fqEn := x.getLsbD 5, fqBase := field x.toNat 47 12 * 2 ^ 12 }

def Ctx.writeLogRing (c : Ctx) (x : BitVec 64) : Ctx :=
  if c.logEn && x.getLsbD 5 then c
  else { c with logLog := x.extractLsb' 0 4, logHost := x.getLsbD 4, logEn := x.getLsbD 5, logBase := field x.toNat 47 12 * 2 ^ 12 }

/-- FQ.STAT: OVF is cleared by a one, and DROP with it. -/
def Ctx.writeFqStat (c : Ctx) (x : BitVec 64) : Ctx := if x.getLsbD 0 then { c with fqOvf := false, fqDrop := 0 } else c

/-- CTX.TLS: ignored while a block of the context is resident or saved (R430). -/
def Mach.writeTls (m : Mach) (c : Nat) (x : BitVec 64) : Mach :=
  if m.blocks.cells.any fun b => b.2.ctx == c then m
  else m.modCtx c fun k => { k with tlsLog := x.extractLsb' 0 5, tlsBase := field x.toNat 47 12 * 2 ^ 12 }

/-- What a write of a register does; a read-only one ignores it. -/
def writeBar (mg : Mgmt) (m : Mach) (fn : Nat) (r : BarReg) (x : BitVec 64) : Mgmt × Mach :=
  match r with
  | .mbDb => doorbell fn (field x.toNat 3 0) mg m
  | .mbIn a => (mg.modFn fn fun f => { f with rings := memWrite f.rings a (bytesOfNat x.toNat 8) }, m)
  | .prot => writeProt mg m x
  | .umon => (mg.writeUmon x m.now, m)
  | .vdmask d => (mg.setL2 d { mg.l2Dev d with masks := x }, m)
  | .vdpol d => (mg.setL2 d ((mg.l2Dev d).writePolicy x), m)
  | .partLimit d => ({ mg with spmax := tabSet mg.spmax d (x.extractLsb' 0 4) }, m)
  | .quota d second => (mg.writeQuota d second x.toNat, m)
  | .quotaStat => (if x.getLsbD 0 then { mg with quotaErr := false } else mg, m)
  | .schedDl p => ({ mg with schedDl := tabSet mg.schedDl p (x.extractLsb' 0 24) }, m)
  | .lqRing q => (mg, m.ringWrite q x)
  | .lqWake q => (mg, m.wake q (x.setWidth 32))
  | .ptbr c => (mg, m.modCtx c fun k => { k with ptEn := x.getLsbD 0, ptRoot := field x.toNat 47 12 * 2 ^ 12 })
  | .fqRing c => (mg, m.modCtx c fun k => k.writeFqRing x)
  | .fqCons c => (mg, m.modCtx c fun k => { k with fqCons := x.setWidth 32 })
  | .fqStat c => (mg, m.modCtx c fun k => k.writeFqStat x)
  | .fqNote c => (mg, m.modCtx c fun k => { k with fqNote := x.setWidth 22 })
  | .fqCmd c => (mg, m.fqCmd mg c x)
  | .split c => (mg, m.modCtx c fun k => k.writeSplit (tabGet mg.spmax (deviceOf c) 11) (x.setWidth 32))
  | .wdog c ext => (mg, m.modCtx c fun k => k.writeWdog ext (x.setWidth 32))
  | .binTimer c => (mg, m.modCtx c fun k => k.csrWrite 0x110 (x.setWidth 32))
  | .logRing c => (mg, m.modCtx c fun k => k.writeLogRing x)
  | .tlbInv c => (mg, m.tlbInv c x)
  | .tls c => (mg, m.writeTls c x)
  | .check c => (mg, m.modCtx c fun k => k.csrWrite 0x114 (x.setWidth 32))
  | .peer c n => (mg, m.modCtx c fun k => { k with peers := tabSet k.peers n (x.setWidth 13) })
  | .mbStat | .mbOut _ | .lqStat _ | .lqSeq _ | .fqProd _ | .logProd _ | .logCons _ | .tlbStat _ => (mg, m)

/-! ## The lock (R323) -/

/-- Whether a lock covers a write of this value: not the exempt registers, not a write of LQ.RING that changes only EN, and not a
register that ignores every write. -/
def Mach.lockedWrite (m : Mach) (r : BarReg) (x : BitVec 64) : Bool :=
  match r with
  | .lqWake _ | .fqCons _ | .fqCmd _ | .tlbInv _ | .mbDb | .mbIn _ => false
  | .lqRing q => !(m.queue q).onlyEn x
  | .mbStat | .mbOut _ | .lqStat _ | .lqSeq _ | .fqProd _ | .logProd _ | .logCons _ | .tlbStat _ => false
  | .prot | .umon | .vdmask _ | .vdpol _ | .partLimit _ | .quota _ _ | .quotaStat | .schedDl _ | .ptbr _ | .fqRing _ | .fqStat _
  | .fqNote _ | .split _ | .wdog _ _ | .binTimer _ | .logRing _ | .tls _ | .check _ | .peer _ _ => true

/-- REGISTER_WRITE: where no register lies nothing happens; a TDI in ERROR serves no write. -/
def registerWrite (fn off : Nat) (x : BitVec 64) (mg : Mgmt) (m : Mach) : Mgmt × Mach :=
  match m.regAt fn off with
  | none => (mg, m)
  | some r =>
    if m.lockedWrite r x then lockedOr fn (fun mg m => writeBar mg m fn r x) mg m
    else if (mg.fn fn).tdi == .error then (mg, m) else writeBar mg m fn r x
def execRegisterWrite (fn off : Nat) (value : BitVec 64) (s : State) : Host.Outcome State Fault Refusal :=
  onModule (registerWrite fn off value) s

/-- LOCKED_REGISTER_WRITE: a write that a lock covers, to a function that is locked. -/
def lockedRegisterWrite (fn off : Nat) (x : BitVec 64) (mg : Mgmt) (m : Mach) : Mgmt × Mach :=
  match m.regAt fn off with
  | none => (mg, m)
  | some r => if mg.isLocked fn && m.lockedWrite r x then tdiError mg m fn else (mg, m)
def execLockedRegisterWrite (fn off : Nat) (value : BitVec 64) (s : State) : Host.Outcome State Fault Refusal :=
  onModule (lockedRegisterWrite fn off value) s

/-- The locked values of a context, in ascending offset. -/
def Ctx.lockedValues (c : Ctx) : List (BitVec 64) :=
  ([.ptbr 0, .fqRing 0, .fqNote 0] : List BarReg).map c.readReg ++ [c.spadSet.setWidth 64] ++
    (([.wdog 0 false, .wdog 0 true, .binTimer 0, .logRing 0, .tls 0, .check 0] : List BarReg).map c.readReg) ++
    (List.range 16).map fun n => c.readReg (.peer 0 n)

/-- The values that a lock of a function covers, in ascending offset, its aperture last (log 20). -/
def lockedValues (mg : Mgmt) (m : Mach) (fn : Nat) : List (BitVec 64) :=
  let read (r : BarReg) : BitVec 64 := readBar mg m fn r
  let pf : List (BitVec 64) :=
    if fn ≠ 0 then []
    else [read .prot, BitVec.ofNat 64 (boolBit mg.umonEn + mg.umonPer.toNat * 2 ^ 8)] ++
      ((List.range 64).flatMap fun d => [read (.vdmask d), (mg.l2Dev d).policy false]) ++ ((List.range 64).map fun d => read (.partLimit d)) ++
      ((List.range 64).flatMap fun d => [read (.quota d false), read (.quota d true)]) ++ (List.range 32).map fun p => read (.schedDl p)
  let queues := ((List.range 512).filter fun q => (m.queue q).fn == fn).map fun q => (m.queue q).ringWord false
  let ctxs := (List.range 16).flatMap fun c => (m.ctx (16 * fn + c)).lockedValues
  pf ++ queues ++ ctxs ++ [(mg.fn fn).apBase.setWidth 64, BitVec.ofNat 64 (match (mg.fn fn).apCtx with
    | none => 0
    | some c => c + 1)]

/-- LOCK_INTERFACE. -/
def lockFn (fn : Nat) (mg : Mgmt) (m : Mach) : Mgmt × Mach :=
  if fn < 64 ∧ (mg.fn fn).tdi = .unlocked then
    (mg.modFn fn fun f => { f with tdi := .locked, digest := Config.lockDigest (lockedValues mg m fn), audit := m.now }, m)
  else (mg, m)
def execLockInterface (fn : Nat) (s : State) : Host.Outcome State Fault Refusal := onModule (lockFn fn) s

/-- 1 ms on the reference clock. -/
def auditTime : Nat := 100000

/-- AUDIT_WALK. -/
def auditWalk (fn : Nat) (mg : Mgmt) (m : Mach) : Mgmt × Mach :=
  if !mg.isLocked fn || decide (m.now < (mg.fn fn).audit + auditTime) then (mg, m)
  else
    let mg := mg.modFn fn fun f => { f with audit := m.now }
    if Config.lockDigest (lockedValues mg m fn) = (mg.fn fn).digest then (mg, m) else tdiError mg m fn
def execAuditWalk (fn : Nat) (s : State) : Host.Outcome State Fault Refusal := onModule (auditWalk fn) s

end Sys2Proof.Machine
end

