-- ==== Sys2Proof/Machine/Links.lean ====
section
/-! DEFINITION. What comes over PCI Express and BrynLink: memory requests of the host, of PCIe peers and of other modules (R130, R308,
R320, R321), IDE streams (R322), ports and targets (R33, R325, R336), posted writes that fail (R281). -/

namespace Sys2Proof.Machine

/-! ## Requests to this module's memory (R130, R308) -/

def HostOp_bytes (o : HostOp) : Nat :=
  match o with
  | .read n => n
  | .write d => d.length
  | .fetchAdd w _ => if w then 8 else 4
  | .swap w _ => if w then 8 else 4
  | .cas w _ _ => if w then 8 else 4

/-- Whether the request returns data, and whether it writes. -/
def hostReads : HostOp → Bool
  | .write _ => false
  | .read _ => true
  | .fetchAdd _ _ => true
  | .swap _ _ => true
  | .cas _ _ _ => true
def hostWrites : HostOp → Bool
  | .read _ => false
  | .write _ => true
  | .fetchAdd _ _ => true
  | .swap _ _ => true
  | .cas _ _ _ => true

/-- The new value of a PCIe AtomicOp (R120, R320). -/
def hostAtomic (o : HostOp) (old : BitVec 64) : BitVec 64 :=
  match o with
  | .fetchAdd _ x => old + x
  | .swap _ x => x
  | .cas w c x => if old = (if w then c else (c.setWidth 32).setWidth 64) then x else old
  | .read _ => old
  | .write _ => old

/-- The page lets its data leave to a requester whose permission is `flag` (R308). -/
def Mach.mayLeave (m : Mach) (ctx : Nat) (page : Mask) (sealed_ : Bool) (flag : Party → Bool) : Bool :=
  !sealed_ && m.leaveOk ctx page flag

/-- A write from outside, part by part: posted writes of one requester stand in their arrival order (R130); their stamps are noted for
instruction fetch (R128). -/
def Mach.outsideWrite (m : Mach) (mg : Mgmt) (who : Nat) (a : Actor) (l : Leaf) (d : List Byte) (pa : Nat) : Mach :=
  ((unitPieces 32 (d.length / 32 + 2) pa d.length).foldl (fun (m : Mach) x =>
    let (st, m) := m.storeDev mg a l .thread x.1 ((d.drop (x.1 - pa)).take x.2) (tabGet m.outPts who 0)
    { m with outPts := tabSet m.outPts who st, outside := tabSet m.outside (lineOf x.1) st }) m).healDev [(pa, d.length)]

/-- A PCIe AtomicOp: one read-modify-write (R120, R130). -/
def Mach.outsideAtomic (m : Mach) (mg : Mgmt) (a : Actor) (l : Leaf) (o : HostOp) (wide : Bool) (pa : Nat) : List Byte × Mach :=
  let n := if wide then 8 else 4
  let (bs, st, m) := m.rmwDev mg a l false pa n (fun bs => some (bytesOfNat (hostAtomic o (BitVec.ofNat 64 (natOfBytes bs))).toNat n)) 0
  (bs, { m with outside := tabSet m.outside (lineOf pa) st })

/-- A request's parts at the home slices of one physical range, in address order: the bytes it read. -/
def Mach.outsideParts (m : Mach) (mg : Mgmt) (who : Nat) (a : Actor) (l : Leaf) (o : HostOp) (pa : Nat) : List Byte × Mach :=
  match o with
  | .read n =>
    (unitPieces 32 (n / 32 + 2) pa n).foldl (fun (acc : List Byte × Mach) x =>
      let (bs, _, m) := acc.2.loadDev mg a l .thread false x.1 x.2 0
      (acc.1 ++ bs, m)) ([], m)
  | .write d => ([], m.outsideWrite mg who a l d pa)
  | .fetchAdd w _ => m.outsideAtomic mg a l o w pa
  | .swap w _ => m.outsideAtomic mg a l o w pa
  | .cas w _ _ => m.outsideAtomic mg a l o w pa

/-- The lines of a range are brought to their ordering point: damp holders drain (R141). -/
def Mach.settleRange (m : Mach) (pa n : Nat) : Mach := (linesOf pa n).foldl Mach.wringNow m

/-- An answer to a function's requester: held while its stream is; none for a posted write, or on a stream that is Insecure (R322). -/
def Mach.answerHost (m : Mach) (fn : Nat) (o : HostOp) (ok : Bool) (bs : List Byte) : Mach :=
  if !hostReads o || m.hostDead (16 * fn) then m
  else if m.hostHeld (16 * fn) then { m with heldReplies := m.heldReplies ++ [(fn, .hostReply fn ok bs)] }
  else { m with signals := m.signals ++ [.hostReply fn ok bs] }

/-- The pieces of an aperture access, all of them in this module's memory, or none. -/
def devPieces : List Piece → Option (List (Nat × Loc))
  | [] => some []
  | p :: r => match p.loc with
    | .error _ => none
    | .ok l => match l.place with
      | .dev pa => (devPieces r).map fun x => (pa, l) :: x
      | .host _ => none
      | .peer _ _ => none
      | .spad _ _ => none

def opSlice (o : HostOp) (from_ n : Nat) : HostOp :=
  match o with
  | .read _ => .read n
  | .write d => .write ((d.drop from_).take n)
  | .fetchAdd w x => .fetchAdd w x
  | .swap w x => .swap w x
  | .cas w c x => .cas w c x

/-- Every piece in turn. -/
def Mach.outsideAll (m : Mach) (mg : Mgmt) (who : Nat) (a : Actor) (o : HostOp) (va : Nat) : List (Nat × Loc) → List Byte × Mach
  | [] => ([], m)
  | (pa, l) :: r =>
    let (bs, m) := (m.settleRange pa l.n).outsideParts mg who a l.leaf (opSlice o (l.va - va) l.n) pa
    let (cs, m) := m.outsideAll mg who a o va r
    (bs ++ cs, m)

/-- BAR 2 of a function: 64 GiB. -/
def apertureSize : Nat := 2 ^ 36

/-- HOST_MEMORY_REQUEST: translated through the context of the aperture, checked under R308, performed part by part. -/
def Mach.hostRequest (m : Mach) (mg : Mgmt) (r : HostRequest) : Mach :=
  let n := HostOp_bytes r.op
  match (mg.fn r.fn).apCtx with
    | none => m.answerHost r.fn r.op false []
    | some ctx =>
      if (mg.fn r.fn).tdi == .error || n == 0 || decide (r.off + n > apertureSize) then m.answerHost r.fn r.op false []
      else
        let a := engineOf ctx m.ids 0
        let va := (mg.fn r.fn).apBase.toNat + r.off
        let (ps, m) := m.locate mg a va n
        match devPieces ps with
        | none => m.answerHost r.fn r.op false []
        | some ls =>
          let leave := ls.all fun x => m.mayLeave ctx x.2.leaf.tag x.2.leaf.sealed (if r.peer then peerFlag else hostFlag)
          let bad := ls.any fun x => m.badRange none x.1 x.2.n
          let aligned := va % n == 0
          let ok := match r.op with
            | .read _ => leave && !bad
            | .write _ => ls.all fun x => !x.2.leaf.sealed && x.2.leaf.w
            | .fetchAdd _ _ => leave && !bad && aligned && ls.all fun x => x.2.leaf.w
            | .swap _ _ => leave && !bad && aligned && ls.all fun x => x.2.leaf.w
            | .cas _ _ _ => leave && !bad && aligned && ls.all fun x => x.2.leaf.w
          if !ok then m.answerHost r.fn r.op false []
          else
            let (bs, m) := m.outsideAll mg r.fn a r.op va ls
            m.answerHost r.fn r.op true bs
def execHostMemoryRequest (r : HostRequest) (s : State) : Host.Outcome State Fault Refusal := onEvent (fun mg m => m.hostRequest mg r) s

/-- A page as another module's request describes it (log 17). -/
def peerLeaf (r : PeerRequest) : Leaf :=
  { w := true, x := false, damp := false, sealed := r.sealed, tier := 0, log := 16, frame := 0, tag := r.mask, entry := 0 }

/-- PEER_MODULE_REQUEST: a physical address; a read is served to a module of the trust set, or where MOD permits (R130, R308). A
module that was fenced is not served (R336). -/
def Mach.peerRequest (m : Mach) (mg : Mgmt) (r : PeerRequest) : Mach :=
  let n := HostOp_bytes r.op
  let answer (m : Mach) (ok : Bool) (bs : List Byte) : Mach :=
    if hostReads r.op then { m with signals := m.signals ++ [.peerReply r.modid ok bs] } else m
  if mg.fenced.contains r.modid then m
  else if n = 0 then answer m false []
  else
    let leave := r.trusted && m.mayLeave r.ctx r.mask r.sealed (modFlag r.modid) && !m.badRange none r.pa n
    let ok := if hostReads r.op then leave else !r.sealed
    if !ok then answer m false []
    else
      let a := engineOf r.ctx m.ids 0
      let (bs, m) := (m.settleRange r.pa n).outsideParts mg (4096 + r.modid) a (peerLeaf r) r.op r.pa
      answer m true bs
def execPeerModuleRequest (r : PeerRequest) (s : State) : Host.Outcome State Fault Refusal := onEvent (fun mg m => m.peerRequest mg r) s

/-! ## IDE streams (R322) -/

def ideLimit : Nat := 2 ^ 60
def ideWarning : Nat := 2 ^ 60 - 2 ^ 24
/-- 1 ms on the reference clock. -/
def ideTime : Nat := 100000

/-- What a stream held is sent, or fails, in its original order: posted writes, then completions, of the functions it serves; a
completion on an Insecure stream is not sent. -/
def Mach.releasePosts (m : Mach) (k : Nat) (s : Ide) : Mach :=
  let m := m.deliverAll fun x => serves k s (deviceOf x.ctx) && (match x.at_ with
    | .host _ => true
    | .peer _ _ => false
    | .dev _ => false
    | .spad _ _ => false)
  let out := m.heldReplies.filter fun x => !m.hostHeld (16 * x.1)
  { m with heldReplies := m.heldReplies.filter fun x => m.hostHeld (16 * x.1)
           signals := m.signals ++ (out.filter fun x => !m.hostDead (16 * x.1)).map (·.2) }

/-- Every IDE key is discarded (R334, R335): what a stream holds fails as on an Insecure stream (log 18). -/
def Mach.dropStreams (m : Mach) : Mach :=
  let m := { m with ide := tabMap (fun s => if s.held then { s with insecure := true } else s) m.ide }
  let m := m.ide.cells.foldl (fun (m : Mach) s => m.releasePosts s.1 s.2) m
  { m with ide := ⟨[]⟩, heldReplies := [] }

/-- IDE_COUNTER_LIMIT: transactions are held, the event vector is raised. -/
def Mach.ideLimitReached (m : Mach) (k : Nat) : Mach :=
  match tabFind m.ide k with
  | none => m
  | some s =>
    if !s.keys || s.insecure || s.limitAt.isSome then m
    else { m with ide := tabSet m.ide k { s with counter := ideLimit, limitAt := some m.now }, signals := m.signals ++ [.ide s.fn] }
def execIdeCounterLimit (stream : Nat) (s : State) : Host.Outcome State Fault Refusal := onEvent (fun _ m => m.ideLimitReached stream) s

/-- IDE_COUNTER_WARNING: once. -/
def Mach.ideWarn (m : Mach) (k : Nat) : Mach :=
  match tabFind m.ide k with
  | none => m
  | some s =>
    if !s.keys || s.insecure || s.warned || decide (s.counter > ideWarning) then m
    else { m with ide := tabSet m.ide k { s with counter := ideWarning, warned := true }, signals := m.signals ++ [.ide s.fn] }
def execIdeCounterWarning (stream : Nat) (s : State) : Host.Outcome State Fault Refusal := onEvent (fun _ m => m.ideWarn stream) s

/-- IDE_KEY_TIMEOUT: the stream is Insecure; held posted writes fail. -/
def Mach.ideTimeout (m : Mach) (k : Nat) : Mach :=
  match tabFind m.ide k with
  | none => m
  | some s => match s.limitAt with
    | none => m
    | some t =>
      if s.insecure || decide (m.now < t + ideTime) then m
      else ({ m with ide := tabSet m.ide k { s with insecure := true } } : Mach).releasePosts k s
def execIdeKeyTimeout (stream : Nat) (s : State) : Host.Outcome State Fault Refusal := onEvent (fun _ m => m.ideTimeout stream) s

/-- Selective streams in use. -/
def Mach.selective (m : Mach) : Nat := (m.ide.cells.filter fun s => s.1 != linkStream).length

/-- IDE_KEY_SET_SELECTION: it takes an SPDM session (R320), for link IDE that of the physical function (log 18); a stream past its time
is Insecure first, and stays so. -/
def Mach.ideSelect (m : Mach) (mg : Mgmt) (fn k : Nat) : Mach :=
  let m := m.ideTimeout k
  let s : Ide := ⟨fn, 0, none, false, false, true⟩
  let mine : Bool := match tabFind m.ide k with
    | none => if k = linkStream then fn == 0 else decide (m.selective < 8)
    | some s => s.fn == fn && !s.insecure
  if !(mg.fn fn).session || !mine then m
  else ({ m with ide := tabSet m.ide k s } : Mach).releasePosts k s
def execIdeKeySetSelection (fn stream : Nat) (s : State) : Host.Outcome State Fault Refusal :=
  onEvent (fun mg m => m.ideSelect mg fn stream) s

/-- SPDM_SESSION_ESTABLISHMENT: the function's Insecure streams are set up anew (log 18); a held one waits on for its keys. -/
def newSession (fn : Nat) (mg : Mgmt) (m : Mach) : Mgmt × Mach :=
  (mg.modFn fn fun f => { f with session := true }, { m with ide := tabFilter (fun _ s => s.fn != fn || !s.insecure) m.ide })
def execSpdmSessionEstablishment (fn : Nat) (s : State) : Host.Outcome State Fault Refusal := onModule (newSession fn) s

/-! ## Posted writes that fail (R281) -/

def isPeer : Place → Bool
  | .peer _ _ => true
  | .host _ => false
  | .dev _ => false
  | .spad _ _ => false

/-- POSTED_WRITE_FAILURE of a posted store or press, with the completion status that it met. -/
def Mach.postedFailure (m : Mach) (id status : Nat) : Mach :=
  match m.posted.find? (·.id == id) with
  | some x => ({ m with posted := m.posted.filter (·.id != id) } : Mach).postError x.ctx x.lanes.isEmpty x.va (isPeer x.at_) status
  | none => match m.presses.find? (·.id == id) with
    | none => m
    | some r => if r.target.isSome && r.reply.isNone then m.pressPostError r status else m
def execPostedWriteFailure (id status : Nat) (s : State) : Host.Outcome State Fault Refusal := onEvent (fun _ m => m.postedFailure id status) s

/-! ## Ports and targets (R33, R325, R336) -/

/-- The ports of R31. -/
def portCount : Nat := 36

def portFailure (port : Nat) (mg : Mgmt) (m : Mach) : Mgmt × Mach := ({ mg with ports := mg.ports.filter (· != port) }, m)
def execLinkPortFailure (port : Nat) (s : State) : Host.Outcome State Fault Refusal := onModule (portFailure port) s

/-- LINK_TRAINING: the port is up; routes are set again, so that modules count as reachable until a target times out again. -/
def portTraining (port : Nat) (mg : Mgmt) (m : Mach) : Mgmt × Mach :=
  if port ≥ portCount then (mg, m)
  else ({ mg with ports := if mg.ports.contains port then mg.ports else mg.ports ++ [port], fenced := [] }, { m with unreach := [] })
def execLinkTraining (port : Nat) (s : State) : Host.Outcome State Fault Refusal := onModule (portTraining port) s

/-- A lane whose PRESSR gets no answer parks with DATA at that instruction (R325). -/
def noAnswer (lane : Nat) (q : Issue) (code : List Word) (w : Warp) : Warp :=
  modLanes w fun i l => if i = lane && l.live then { l with pc := q.pc, code := code } else l

/-- A request that waits for an answer ends: its destination keeps what it held, its lanes park. -/
def Mach.replyLost (m : Mach) (mg : Mgmt) (r : PressReq) (p : PressReply) : Mach :=
  let m := m.closePress r
  let stop := stopAt .data r.va r.image.size true
  let lanes := bitsOf p.lanes
  let m := m.modWarp p.bid p.warp fun w => lanes.foldl (fun w i => noAnswer i p.issue p.code w) w
  let m := (lanes.take 1).foldl (fun m i => m.park p.issue p.scope p.lanes i stop) m
  let m := if p.scope == .lane then (lanes.drop 1).foldl (fun m i => m.park p.issue p.scope p.lanes i stop) m
    else m.parkBare p.bid p.warp p.lanes
  let m := m.modWarp p.bid p.warp fun w => match w.block with
    | some (.replies ids) => if ids = [r.id] then { (w.endId p.id) with block := none, group := 0 } else { w with block := some (.replies (ids.filter (· != r.id))), group := 0 }
    | some (.wrung _) => w
    | none => w
  m.settleWarp mg p.bid p.warp

/-- Every outstanding request to a module ends (R325). -/
def Mach.endTarget (m : Mach) (mg : Mgmt) (k : Nat) : Mach :=
  let m := { m with unreach := if m.unreach.contains k then m.unreach else k :: m.unreach }
  let m := m.deliverAll fun x => match x.at_ with
    | .peer j _ => j == k
    | .host _ => false
    | .dev _ => false
    | .spad _ _ => false
  (m.presses.filter fun r => r.target == some k).foldl (fun (m : Mach) r => match r.reply with
    | none => ({ m with free := m.free + 1 } : Mach).pressPostError r (Config.linkStatus m.free)
    | some p => m.replyLost mg r p) m
def execLinkTargetTimeout (modid : Nat) (s : State) : Host.Outcome State Fault Refusal := onEvent (fun mg m => m.endTarget mg modid) s

/-- MISSED_LINK_HEARTBEATS: the failed module is fenced; requests to it end. The spare that takes its MODID is reached once links train
again (R336). -/
def fenceModule (k : Nat) (mg : Mgmt) (m : Mach) : Mgmt × Mach :=
  ({ mg with fenced := if mg.fenced.contains k then mg.fenced else k :: mg.fenced }, m.endTarget mg k)
def execMissedLinkHeartbeats (modid : Nat) (s : State) : Host.Outcome State Fault Refusal := onModule (fenceModule modid) s

/-- ALERT_BACKOFF: the owed refresh and the back-off window delay requests to the bank; only latency changes (R125, R328). -/
def alertBackoff (_ : Nat) (m : Mach) : Mach := m
def execAlertBackoff (bank : Nat) (s : State) : Host.Outcome State Fault Refusal := onEvent (fun _ m => alertBackoff bank m) s

/-! ## Soft errors (R506) -/

/-- A unit becomes poisoned; a granule that is not cleared yet reads zero all the same (R324). -/
def softError (u : ErrorUnit) (mg : Mgmt) (m : Mach) : Mgmt × Mach :=
  let mg := { mg with uncorrected := mg.uncorrected + 1 }
  match u with
  | .memory k => (mg, if m.bad.contains k || m.scrub.contains (k / 2 ^ 16) then m else { m with bad := k :: m.bad })
  | .scratchpad bid k => (mg, m.modBlock bid fun b => if b.spadBad.contains k || decide (64 * k ≥ b.spadSize) then b else { b with spadBad := k :: b.spadBad })
def execSoftError (unit : ErrorUnit) (s : State) : Host.Outcome State Fault Refusal := onModule (softError unit) s

end Sys2Proof.Machine
end

