-- ==== Sys2Proof/Machine/Power.lean ====
section
/-! DEFINITION. The management core and power: restoring a context (R180 to R182, R319), the module checkpoint (R242), sleep and wake
(R335), fatal errors and alarms (R333, R334), resets and supplies (R24), functions and contexts (R324, R327, R157), the clock (R22),
MODID (R32). -/

namespace Sys2Proof.Machine

/-! ## Commands that take time: RESTORE (R180 to R182, R319, R335) -/

/-- The quota can hold the saved entries (R180). -/
def Mach.restorable (m : Mach) (mg : Mgmt) (ctx : Nat) : Bool :=
  decide (m.pdefsUsed (deviceOf ctx) + (m.ctx ctx).press.cells.length ≤ (mg.quotas.getD (deviceOf ctx) Quota.zero).pdefs)

/-- The press table is reloaded, the log is replayed, lanes may run on; a world whose key is gone is a forced reset (R335). -/
def Mach.restoreCtx (m : Mach) (mg : Mgmt) (ctx : Nat) : Mach :=
  let lost : Bool := match (m.ctx ctx).world with
    | none => false
    | some w => !w.valid
  let m := (if lost then m.resetOther mg ctx else m).replay mg ctx
  m.modCtx ctx fun c => { c with run := .running, deadline := none, stuckInt := none, stuckExt := none }

/-! ### CHECKPOINT and SLEEP (R242, R335) -/

/-- Phases 1 and 2 are over, and every copy channel is idle. -/
def Mach.quiet (m : Mach) : Bool :=
  (tabVals m.ctxs).all (fun c => c.run == .switchedOut) && m.presses.isEmpty && m.drains.isEmpty && m.trackers.isEmpty &&
    m.gate.isEmpty && m.cores.cells.all fun c => c.2.chans.cells.all fun x => x.2.cmds.isEmpty

def onlyFast (mem : Mem) : Mem := ⟨mem.cells.filter fun c => Config.fastPa c.1⟩
def onlyCapacity (mem : Mem) : Mem := ⟨mem.cells.filter fun c => !Config.fastPa c.1⟩
def fastUnit (u : Nat) : Bool := Config.fastPa (32 * u)
def fastLine (l : Nat) : Bool := Config.fastPa (128 * l)

/-- What the image takes: the fast tier and every dirty L2 line, whichever tier is its home (R25). -/
def Mach.imaged (m : Mach) (line : Nat) : Bool :=
  (match tabFind m.lines line with
   | none => false
   | some r => r.dirty) || fastLine line

/-- The checkpoint reads every line of the fast tier at its ordering point with pts 0 (R114, R125). -/
def Mach.leaseFast (m : Mach) : Mach :=
  { m with
    swept := true
    stamps := ⟨m.stamps.cells.map fun c =>
      (c.1, if fastLine c.1 then { c.2 with rts := max c.2.rts (c.2.wts + Config.lease) } else c.2)⟩ }

/-- Phases 3 and 4: the fast tier and the dirty lines are copied with their poison and side band, dirty lines are clean then, the
header is written. -/
def takeCheckpoint (mg : Mgmt) (m : Mach) : Mgmt × Mach :=
  let mem : Mem := ⟨m.mem.cells.filter fun c => m.imaged (lineOf c.1)⟩
  ({ mg with check := some ⟨mem, tabFilter (fun l _ => m.imaged l) m.side, m.bad.filter (fun u => m.imaged (u / 4)), m.maxStamp,
       Config.imageDigest mem.cells⟩ },
    { m.leaseFast with claims := ⟨[]⟩, lines := tabMap (fun r => { r with dirty := false }) m.lines })

/-- The fast tier loses what it held (log 19). -/
def Mach.loseFast (m : Mach) : Mach :=
  { m with mem := onlyCapacity m.mem, side := tabFilter (fun l _ => !fastLine l) m.side, bad := m.bad.filter fun u => !fastUnit u }

/-- What loses power with the compute and cache dies: cores but for the saved CH.WPTR (R239, R295), caches, claims, TLBs. -/
def Mach.loseDies (m : Mach) : Mach :=
  { m with
    cores := tabMap (fun c => { Core.reset with wptr := c.wptr }) m.cores
    lines := ⟨[]⟩, heldBy := ⟨[]⟩, claims := ⟨[]⟩, tlb := [], trackers := [], shares := [], drains := [] }

/-- SLEEP after its checkpoint: the vault is wrapped, sessions and IDE keys are discarded, the module is powered down. -/
def fallAsleep (mg : Mgmt) (m : Mach) : Mgmt × Mach :=
  ({ mg with vaultWrapped := true, sleepKey := true, power := .asleep, fns := tabMap (fun f => { f with session := false }) mg.fns },
    m.dropStreams.loseFast.loseDies)

/-- The job at hand is done where it can be. -/
def finishJob (mg : Mgmt) (m : Mach) : Mgmt × Mach :=
  match mg.jobs with
  | [] => (mg, m)
  | j :: rest =>
    let next := { mg with jobs := rest }
    match j.kind with
    | .checkpoint =>
      if !m.quiet then (mg, m.drainEvery mg)
      else
        let (mg, m) := takeCheckpoint next m
        reply mg m j.fn 6 j.seq { status := .ok }
    | .sleep =>
      if !m.quiet then (mg, m.drainEvery mg)
      else
        let (mg, m) := takeCheckpoint next m
        let (mg, m) := reply mg m j.fn 7 j.seq { status := .ok }
        fallAsleep mg m
    | .restore ctx =>
      if m.restorable mg ctx then reply next (m.restoreCtx mg ctx) j.fn 3 j.seq { status := .ok }
      else ({ mg with jobs := rest ++ [j] }, m)

/-! ### Waking (R335) -/

/-- The fast tier as the image has it. -/
def Mach.loadImage (m : Mach) (c : Checkpoint) : Mach :=
  { m with
    mem := c.mem.cells.foldl (fun mem x => memSet mem x.1 x.2) m.mem
    side := c.side.cells.foldl (fun t x => tabSet t x.1 x.2) m.side
    bad := c.bad ++ m.bad, maxStamp := max m.maxStamp c.stamp }

/-- What the management core and the registers outside contexts come up with (log 21). -/
def Mgmt.wake (mg : Mgmt) : Mgmt :=
  { Mgmt.reset with
    modid := mg.modid, check := mg.check, dump := mg.dump, alarm := mg.alarmed, worldNo := mg.worldNo, vaultNo := mg.vaultNo
    vault := if mg.sleepKey then mg.vault else [] }

/-- A world survives only where the vault was unwrapped. -/
def Mach.dropWorlds (m : Mach) : Mach :=
  { m with ctxs := tabMap (fun c => { c with world := c.world.map fun w => { w with valid := false } }) m.ctxs }

/-- SLEEP_WAKE: the fast tier comes back from a complete image, the vault is unwrapped under the sleep key. -/
def sleepWake (mg : Mgmt) (m : Mach) : Mgmt × Mach :=
  if mg.power == .on then (mg, m)
  else
    let m := match mg.check with
      | none => m
      | some c => m.loadImage c
    let m := if mg.sleepKey then m else m.dropWorlds
    (mg.wake, { m with refTicks := 0, refRem := 0, mhz := 1900, dmaOff := [] })

/-- The form of a step that may come while the module sleeps. -/
def onPower (f : Mgmt → Mach → Mgmt × Mach) (s : State) : Host.Outcome State Fault Refusal :=
  .next { s with mgmt := (f s.mgmt s.mach).1, mach := (f s.mgmt s.mach).2 }
def execSleepWake (s : State) : Host.Outcome State Fault Refusal := onPower sleepWake s

/-! ## Errors and alarms (R333, R334) -/

/-- A context that is switched out: its saved state lies in the capacity tier (R24, R295). -/
def Mach.isOut (m : Mach) (ctx : Nat) : Bool := (m.ctx ctx).run == .switchedOut

/-- Every context that is not switched out stops and nothing of it is saved; what was saved before survives (R24). -/
def Mach.stopEvery (m : Mach) : Mach :=
  let m := (m.blocksOf fun b => !m.isOut b.ctx).foldl Mach.stopBlock m
  { m with
    presses := m.presses.filter (·.remote.isSome), heldBy := ⟨[]⟩, trackers := [], shares := [], drains := [], wrung := [], gate := []
    claims := ⟨[]⟩, launches := tabFilter (fun _ l => m.isOut l.ctx) m.launches, offers := []
    queues := tabMap (fun q => { q with woken := false }) m.queues
    ctxs := tabMap (fun c => if c.run == .switchedOut then c
      else { c with run := .switchedOut, holds := [], deadline := none }) m.ctxs }

/-- FATAL_ERROR: the dump holds a digest; the rest of it is not architectural. -/
def fatalError (mg : Mgmt) (m : Mach) : Mgmt × Mach :=
  ({ mg with dump := some (Config.dumpDigest m.free), jobs := [] }, { m.stopEvery with free := m.free + 1 })
def execFatalError (s : State) : Host.Outcome State Fault Refusal := onModule fatalError s

/-- Keys and regions that an alarm erases. -/
def Mgmt.erase (mg : Mgmt) : Mgmt :=
  { mg with
    vault := [], vaultWrapped := false, sleepKey := false, check := none, dump := none, alarmed := true, jobs := []
    fns := (List.range 64).foldl (fun t f => tabSet t f { tabGet t f Fn.reset with tdi := .error }) mg.fns }

/-- The sealed save areas are zeroed (R334): the blocks saved there are gone. -/
def Mach.eraseSealed (m : Mach) : Mach := (m.blocksOf fun b => b.sealedIn.isSome).foldl Mach.stopBlock m

/-- SECURITY_ALARM: every context is reset; in a sleeping module its worlds are lost, and it is reset when it is restored (R335). -/
def securityAlarm (mg : Mgmt) (m : Mach) : Mgmt × Mach :=
  let m := { m.dropStreams with dmaOff := List.range 64 }
  (mg.erase, if mg.power == .on then (tabKeys m.ctxs).foldl (fun (m : Mach) c => m.resetOther mg c) m else m.dropWorlds.eraseSealed)
def execSecurityAlarm (s : State) : Host.Outcome State Fault Refusal := onPower securityAlarm s

/-! ## Power, resets, supplies (R24, R334) -/

/-- POWER_UP: everything starts over but the capacity tier with its reserved regions, and what lies outside the module. -/
def powerUp (mg : Mgmt) (m : Mach) : Mgmt × Mach :=
  ({ Mgmt.reset with check := mg.check, dump := mg.dump, alarm := mg.alarmed },
    { Mach.reset with
      mem := onlyCapacity m.mem, side := tabFilter (fun l _ => !fastLine l) m.side, bad := m.bad.filter fun u => !fastUnit u
      scrub := m.scrub, hostMem := m.hostMem, peerMem := m.peerMem, peerBad := m.peerBad, hostUr := m.hostUr, busPeers := m.busPeers
      signals := m.signals, cycle := m.cycle, free := m.free, ids := m.ids })
def execPowerUp (s : State) : Host.Outcome State Fault Refusal := onPower powerUp s

/-- A core after a reset: the saved CH.WPTR of contexts that were switched out comes back to it (R239). -/
def Mach.coreAfter (m : Mach) (c : Core) : Core :=
  { Core.reset with wptr := tabFilter (fun k _ => m.isOut (k / 8)) c.wptr, wacq := tabFilter (fun k _ => m.isOut (k / 8)) c.wacq }

/-- A reset of the compute dies: what runs there is lost, CLK.REF starts over (R392). DESIGN CHOICE (log 82): the clock and the
throttle state, which the management core keeps (R22), stay as they are. -/
def Mach.resetCompute (m : Mach) : Mach :=
  { m.stopEvery with cores := tabMap m.coreAfter m.cores, tlb := [], refTicks := 0, refRem := 0 }

/-- A reset of the cache dies: claims and resident lines are lost, and what the fast tier held is (log 19); stamps, which never
decrease (R113), stay. DESIGN CHOICE (log 82): a capacity-tier line that L2 held dirty keeps the bytes that were written. -/
def Mach.resetCache (m : Mach) : Mach :=
  { m.stopEvery.loseFast with lines := ⟨[]⟩, tlb := [], cores := tabMap (fun c => { c with l1 := ⟨[]⟩ }) m.stopEvery.cores }

/-- What lay in the save areas is lost (R24): of a context that was switched out its blocks, launches and tables; its world can
no longer be unwrapped. -/
def Mach.loseSaved (m : Mach) : Mach :=
  let m' := (m.blocksOf fun b => m.isOut b.ctx).foldl Mach.stopBlock m
  { m' with
    launches := tabFilter (fun _ l => !m.isOut l.ctx) m'.launches
    ctxs := tabMap (fun c => if c.run != .switchedOut then c
      else { c with press := ⟨[]⟩, regions := [], holds := [], world := c.world.map fun w => { w with valid := false } }) m'.ctxs }

/-- DIE_RESET of the dies named. -/
def dieReset (compute cache hbm : Bool) (mg : Mgmt) (m : Mach) : Mgmt × Mach :=
  let m := if compute then m.resetCompute else m
  let (mg, m) := if cache then
      ({ mg with pways := 0, plock := false, l2 := ⟨[]⟩, spmax := ⟨[]⟩, umonEn := false, umonErr := false, umonPer := 100000, umonAt := 0 }, m.resetCache)
    else (mg, m)
  (mg, if hbm then m.stopEvery.loseFast else m)
def execDieReset (compute cache hbm : Bool) (s : State) : Host.Outcome State Fault Refusal := onModule (dieReset compute cache hbm) s

/-- CAPACITY_TIER_SUPPLY_LOSS: the capacity tier and its reserved regions, the save areas among them, lose what they held. -/
def capacityLoss (mg : Mgmt) (m : Mach) : Mgmt × Mach :=
  let m := m.loseSaved
  ({ mg with check := none, dump := none },
    { m with mem := onlyFast m.mem, side := tabFilter (fun l _ => fastLine l) m.side, bad := m.bad.filter fastUnit })
def execCapacityTierSupplyLoss (s : State) : Host.Outcome State Fault Refusal := onPower capacityLoss s

/-! ## Functions (R324, R327) -/

/-- Frames that the leaves of a page table name in this module's memory: address and log2 of the size. -/
def Mach.tableFrames (m : Mach) (table : Nat) : List Level → List PoolFrame
  | [] => []
  | lv :: rest =>
    (List.range (2 ^ lv.bits)).flatMap fun i =>
      let x := natOfBytes (m.viewBytes none (table + 8 * i) 8)
      if !x.testBit 0 then []
      else if x.testBit 3 then
        match lv.log with
        | none => []
        | some (_, log) => if field x 9 8 < 2 then [⟨field x 47 16 * 65536, if log = 16 && field x 5 4 == 1 then 21 else log⟩] else []
      else m.tableFrames (field x 47 8 * 256) rest

/-- The frames of a context: those of its pools and those that its tables map (log 22). -/
def Mach.framesOf (m : Mach) (ctx : Nat) : List PoolFrame :=
  let c := m.ctx ctx
  dedup (c.poolFast ++ c.poolCap ++ if c.ptEn then m.tableFrames c.ptRoot levels else [])

/-- A clearing write takes a stamp of its own past every lease of its line (R114, R324). -/
def Stamps.cleared (s : Stamps) : Stamps := ⟨s.rts + 1, s.rts + 1⟩

/-- A returned frame: whole granules enter the scrub bitmap, a frame smaller than one is cleared at once. Its clearing writes stand before
every access of the new owner, so their stamps are taken and copies of the lines go here; a line that nothing has accessed keeps 0. -/
def Mach.returnFrame (m : Mach) (f : PoolFrame) : Mach :=
  let n := 2 ^ f.log2
  let lines (l : Nat) : Bool := decide (f.pa ≤ 128 * l) && decide (128 * l < f.pa + n)
  let m := { m with
    bad := m.bad.filter fun u => !(decide (f.pa ≤ 32 * u) && decide (32 * u < f.pa + n))
    side := tabFilter (fun l _ => !lines l) m.side
    claims := tabFilter (fun l _ => !lines l) m.claims
    maxStamp := m.stamps.cells.foldl (fun (t : Nat) (c : Nat × Stamps) => if lines c.1 then max t (c.2.rts + 1) else t) m.maxStamp
    stamps := ⟨m.stamps.cells.map fun (c : Nat × Stamps) => (c.1, if lines c.1 then c.2.cleared else c.2)⟩
    cores := tabMap (fun c => { c with l1 := tabFilter (fun k _ => !lines k) c.l1 }) m.cores }
  if f.log2 < 21 then { m with mem := ⟨m.mem.cells.filter fun c => !(decide (f.pa ≤ c.1) && decide (c.1 < f.pa + n))⟩ }
  else { m with scrub := dedup (m.scrub ++ (List.range (n / 2 ^ 21)).map (f.pa / 2 ^ 21 + ·)) }

/-- FUNCTION_LEVEL_RESET of a virtual function: contexts are reset, packets of the old generation are dropped, frames return. -/
def functionReset (fn : Nat) (mg : Mgmt) (m : Mach) : Mgmt × Mach :=
  if fn = 0 ∨ fn ≥ 64 then (mg, m)
  else
    let cs := m.contextsOf fn
    let frames := dedup (cs.flatMap m.framesOf)
    let m := cs.foldl (fun (m : Mach) c => m.resetOther mg c) m
    let m := cs.foldl (fun (m : Mach) c => m.modCtx c fun x => { x with poolFast := [], poolCap := [] }) m
    let m := { m with
      posted := m.posted.filter fun x => deviceOf x.ctx != fn
      presses := m.presses.filter fun r => deviceOf r.ctx != fn
      tlb := m.tlb.filter fun e => deviceOf e.ctx != fn }
    (mg.modFn fn fun f => { f with gen := f.gen + 1, resetting := true }, frames.foldl Mach.returnFrame m)
def execFunctionLevelReset (fn : Nat) (s : State) : Host.Outcome State Fault Refusal := onModule (functionReset fn) s

/-- FUNCTION_RESET_COMPLETE: no packet of an older generation remains. -/
def functionResetDone (fn : Nat) (mg : Mgmt) (m : Mach) : Mgmt × Mach :=
  if !(mg.fn fn).resetting then (mg, m) else (mg.modFn fn fun f => { f with resetting := false }, m)
def execFunctionResetComplete (fn : Nat) (s : State) : Host.Outcome State Fault Refusal := onModule (functionResetDone fn) s

/-- SCRUB_GRANULE. -/
def execScrubGranule (granule : Nat) (s : State) : Host.Outcome State Fault Refusal := onEvent (fun _ m => m.clearGranule granule) s

/-! ## Contexts (R32, R41, R157) -/

/-- CONTEXT_CREATION: 16 contexts of each of 64 functions. -/
def Mach.createCtx (m : Mach) (ctx : Nat) : Mach :=
  if ctx < 1024 ∧ !tabHas m.ctxs ctx then m.setCtx ctx Ctx.created else m
def execContextCreation (ctx : Nat) (s : State) : Host.Outcome State Fault Refusal := onEvent (fun _ m => m.createCtx ctx) s

/-- CONTEXT_DESTRUCTION: its launches end as under a forced reset; its queues are bound to no context, its keys are erased (log 23). -/
def destroyCtx (ctx : Nat) (mg : Mgmt) (m : Mach) : Mgmt × Mach :=
  if !tabHas m.ctxs ctx then (mg, m)
  else
    let m := m.resetOther mg ctx
    let m := { m with
      ctxs := tabErase m.ctxs ctx
      queues := tabMap (fun q => if q.ctx = some ctx then { q with ctx := none } else q) m.queues
      tlb := m.tlb.filter fun e => e.ctx != ctx
      presses := m.presses.filter fun r => r.ctx != ctx || r.remote.isSome }
    ({ mg with vault := mg.vault.filter fun k => k.ctx != ctx
               fns := tabMap (fun f => if f.apCtx = some ctx then { f with apCtx := none } else f) mg.fns
               jobs := mg.jobs.filter fun j => j.kind != .restore ctx }, m)
def execContextDestruction (ctx : Nat) (s : State) : Host.Outcome State Fault Refusal := onModule (destroyCtx ctx) s

/-! ## Clock and configuration (R22, R32) -/

/-- THROTTLE_STEP: 50 MHz, between 50 and 1,900; the part of a reference period that has passed stays (R20). -/
def throttle (lower : Bool) (mg : Mgmt) (m : Mach) : Mgmt × Mach :=
  let f := if lower then (if m.mhz > 50 then m.mhz - 50 else m.mhz) else min 1900 (m.mhz + 50)
  ({ mg with throttled := decide (f < 1900) }, { m with mhz := f, refRem := m.refRem * f / m.mhz })
def execThrottleStep (lower : Bool) (s : State) : Host.Outcome State Fault Refusal := onModule (throttle lower) s

/-- SYSTEM_CONFIGURATION: MODID does not change while a context exists. -/
def configure (modid : BitVec 12) (mg : Mgmt) (m : Mach) : Mgmt × Mach :=
  if m.ctxs.cells.isEmpty then ({ mg with modid := modid }, m) else (mg, m)
def execSystemConfiguration (modid : BitVec 12) (s : State) : Host.Outcome State Fault Refusal := onModule (configure modid) s

end Sys2Proof.Machine
end

