-- ==== Sys2Proof/Machine/Dispatch.lean ====
section
/-! DEFINITION. The meaning of every row of the opcode table: one arm per constructor of Instr. -/

namespace Sys2Proof.Machine

def exec (i : Instr) (s : State) : Host.Outcome State Fault Refusal :=
  match i with
  | .nop f => Sys2Proof.Machine.execNop f s
  | .exitA f => Sys2Proof.Machine.execExitA f s
  | .exitB f => Sys2Proof.Machine.execExitB f s
  | .bra f => Sys2Proof.Machine.execBra f s
  | .brxA f => Sys2Proof.Machine.execBrxA f s
  | .brxB f => Sys2Proof.Machine.execBrxB f s
  | .call f => Sys2Proof.Machine.execCall f s
  | .callxA f => Sys2Proof.Machine.execCallxA f s
  | .callxB f => Sys2Proof.Machine.execCallxB f s
  | .retA f => Sys2Proof.Machine.execRetA f s
  | .retB f => Sys2Proof.Machine.execRetB f s
  | .wjoin f => Sys2Proof.Machine.execWjoin f s
  | .yield f => Sys2Proof.Machine.execYield f s
  | .trap f => Sys2Proof.Machine.execTrap f s
  | .signalA f => Sys2Proof.Machine.execSignalA f s
  | .signalB f => Sys2Proof.Machine.execSignalB f s
  | .spawn f => Sys2Proof.Machine.execSpawn f s
  | .spawnRetry bid warp => Sys2Proof.Machine.execSpawnRetry bid warp s
  | .binTimerExpiry core bin => Sys2Proof.Machine.execBinTimerExpiry core bin s
  | .broodWarpLaunch bid => Sys2Proof.Machine.execBroodWarpLaunch bid s
  | .gangA f => Sys2Proof.Machine.execGangA f s
  | .gangB f => Sys2Proof.Machine.execGangB f s
  | .iaddB f => Sys2Proof.Machine.execIaddB f s
  | .iaddC f => Sys2Proof.Machine.execIaddC f s
  | .isubB f => Sys2Proof.Machine.execIsubB f s
  | .isubC f => Sys2Proof.Machine.execIsubC f s
  | .imulB f => Sys2Proof.Machine.execImulB f s
  | .imulC f => Sys2Proof.Machine.execImulC f s
  | .imad f => Sys2Proof.Machine.execImad f s
  | .imadw f => Sys2Proof.Machine.execImadw f s
  | .iminB f => Sys2Proof.Machine.execIminB f s
  | .iminC f => Sys2Proof.Machine.execIminC f s
  | .imaxB f => Sys2Proof.Machine.execImaxB f s
  | .imaxC f => Sys2Proof.Machine.execImaxC f s
  | .iabsA f => Sys2Proof.Machine.execIabsA f s
  | .iabsB f => Sys2Proof.Machine.execIabsB f s
  | .icmpB f => Sys2Proof.Machine.execIcmpB f s
  | .icmpC f => Sys2Proof.Machine.execIcmpC f s
  | .isel f => Sys2Proof.Machine.execIsel f s
  | .andB f => Sys2Proof.Machine.execAndB f s
  | .andC f => Sys2Proof.Machine.execAndC f s
  | .orB f => Sys2Proof.Machine.execOrB f s
  | .orC f => Sys2Proof.Machine.execOrC f s
  | .xorB f => Sys2Proof.Machine.execXorB f s
  | .xorC f => Sys2Proof.Machine.execXorC f s
  | .shlB f => Sys2Proof.Machine.execShlB f s
  | .shlC f => Sys2Proof.Machine.execShlC f s
  | .shrB f => Sys2Proof.Machine.execShrB f s
  | .shrC f => Sys2Proof.Machine.execShrC f s
  | .sarB f => Sys2Proof.Machine.execSarB f s
  | .sarC f => Sys2Proof.Machine.execSarC f s
  | .bfeB f => Sys2Proof.Machine.execBfeB f s
  | .bfeC f => Sys2Proof.Machine.execBfeC f s
  | .bfi f => Sys2Proof.Machine.execBfi f s
  | .popcA f => Sys2Proof.Machine.execPopcA f s
  | .popcB f => Sys2Proof.Machine.execPopcB f s
  | .clzA f => Sys2Proof.Machine.execClzA f s
  | .clzB f => Sys2Proof.Machine.execClzB f s
  | .brevA f => Sys2Proof.Machine.execBrevA f s
  | .brevB f => Sys2Proof.Machine.execBrevB f s
  | .leaB f => Sys2Proof.Machine.execLeaB f s
  | .leaC f => Sys2Proof.Machine.execLeaC f s
  | .movA f => Sys2Proof.Machine.execMovA f s
  | .movB f => Sys2Proof.Machine.execMovB f s
  | .movi f => Sys2Proof.Machine.execMovi f s
  | .movsA f => Sys2Proof.Machine.execMovsA f s
  | .movsB f => Sys2Proof.Machine.execMovsB f s
  | .taggetA f => Sys2Proof.Machine.execTaggetA f s
  | .taggetB f => Sys2Proof.Machine.execTaggetB f s
  | .padd f => Sys2Proof.Machine.execPadd f s
  | .psub f => Sys2Proof.Machine.execPsub f s
  | .pmin f => Sys2Proof.Machine.execPmin f s
  | .pmax f => Sys2Proof.Machine.execPmax f s
  | .pcmp f => Sys2Proof.Machine.execPcmp f s
  | .pdot4 f => Sys2Proof.Machine.execPdot4 f s
  | .faddB f => Sys2Proof.Machine.execFaddB f s
  | .faddC f => Sys2Proof.Machine.execFaddC f s
  | .fmulB f => Sys2Proof.Machine.execFmulB f s
  | .fmulC f => Sys2Proof.Machine.execFmulC f s
  | .ffma f => Sys2Proof.Machine.execFfma f s
  | .fminB f => Sys2Proof.Machine.execFminB f s
  | .fminC f => Sys2Proof.Machine.execFminC f s
  | .fmaxB f => Sys2Proof.Machine.execFmaxB f s
  | .fmaxC f => Sys2Proof.Machine.execFmaxC f s
  | .fcmpB f => Sys2Proof.Machine.execFcmpB f s
  | .fcmpC f => Sys2Proof.Machine.execFcmpC f s
  | .frnd f => Sys2Proof.Machine.execFrnd f s
  | .hadd2 f => Sys2Proof.Machine.execHadd2 f s
  | .hmul2 f => Sys2Proof.Machine.execHmul2 f s
  | .hfma2 f => Sys2Proof.Machine.execHfma2 f s
  | .hmax2 f => Sys2Proof.Machine.execHmax2 f s
  | .frcpA f => Sys2Proof.Machine.execFrcpA f s
  | .frcpB f => Sys2Proof.Machine.execFrcpB f s
  | .frsqA f => Sys2Proof.Machine.execFrsqA f s
  | .frsqB f => Sys2Proof.Machine.execFrsqB f s
  | .fsqrtA f => Sys2Proof.Machine.execFsqrtA f s
  | .fsqrtB f => Sys2Proof.Machine.execFsqrtB f s
  | .fexp2A f => Sys2Proof.Machine.execFexp2A f s
  | .fexp2B f => Sys2Proof.Machine.execFexp2B f s
  | .flog2A f => Sys2Proof.Machine.execFlog2A f s
  | .flog2B f => Sys2Proof.Machine.execFlog2B f s
  | .fsinA f => Sys2Proof.Machine.execFsinA f s
  | .fsinB f => Sys2Proof.Machine.execFsinB f s
  | .fcosA f => Sys2Proof.Machine.execFcosA f s
  | .fcosB f => Sys2Proof.Machine.execFcosB f s
  | .cvt f => Sys2Proof.Machine.execCvt f s
  | .cvtq f => Sys2Proof.Machine.execCvtq f s
  | .hadqA f => Sys2Proof.Machine.execHadqA f s
  | .hadqB f => Sys2Proof.Machine.execHadqB f s
  | .shflB f => Sys2Proof.Machine.execShflB f s
  | .shflC f => Sys2Proof.Machine.execShflC f s
  | .vote f => Sys2Proof.Machine.execVote f s
  | .redw f => Sys2Proof.Machine.execRedw f s
  | .scanw f => Sys2Proof.Machine.execScanw f s
  | .matchw f => Sys2Proof.Machine.execMatchw f s
  | .ldB f => Sys2Proof.Machine.execLdB f s
  | .ldC f => Sys2Proof.Machine.execLdC f s
  | .stB f => Sys2Proof.Machine.execStB f s
  | .stC f => Sys2Proof.Machine.execStC f s
  | .ldsB f => Sys2Proof.Machine.execLdsB f s
  | .ldsC f => Sys2Proof.Machine.execLdsC f s
  | .stsB f => Sys2Proof.Machine.execStsB f s
  | .stsC f => Sys2Proof.Machine.execStsC f s
  | .ldlB f => Sys2Proof.Machine.execLdlB f s
  | .ldlC f => Sys2Proof.Machine.execLdlC f s
  | .stlB f => Sys2Proof.Machine.execStlB f s
  | .stlC f => Sys2Proof.Machine.execStlC f s
  | .ldb f => Sys2Proof.Machine.execLdb f s
  | .wrungLoadPerform id => Sys2Proof.Machine.execWrungLoadPerform id s
  | .prefB f => Sys2Proof.Machine.execPrefB f s
  | .prefC f => Sys2Proof.Machine.execPrefC f s
  | .atom f => Sys2Proof.Machine.execAtom f s
  | .cas f => Sys2Proof.Machine.execCas f s
  | .sbin f => Sys2Proof.Machine.execSbin f s
  | .fence f => Sys2Proof.Machine.execFence f s
  | .fenceComplete bid warp => Sys2Proof.Machine.execFenceComplete bid warp s
  | .press f => Sys2Proof.Machine.execPress f s
  | .pressr f => Sys2Proof.Machine.execPressr f s
  | .pdef f => Sys2Proof.Machine.execPdef f s
  | .pdrop f => Sys2Proof.Machine.execPdrop f s
  | .pdropComplete ctx opc => Sys2Proof.Machine.execPdropComplete ctx opc s
  | .binit f => Sys2Proof.Machine.execBinit f s
  | .barv f => Sys2Proof.Machine.execBarv f s
  | .bwait f => Sys2Proof.Machine.execBwait f s
  | .btest f => Sys2Proof.Machine.execBtest f s
  | .bexp f => Sys2Proof.Machine.execBexp f s
  | .ckickA f => Sys2Proof.Machine.execCkickA f s
  | .ckickB f => Sys2Proof.Machine.execCkickB f s
  | .tierA f => Sys2Proof.Machine.execTierA f s
  | .tierB f => Sys2Proof.Machine.execTierB f s
  | .mmaA f => Sys2Proof.Machine.execMmaA f s
  | .mmaB f => Sys2Proof.Machine.execMmaB f s
  | .talloc f => Sys2Proof.Machine.execTalloc f s
  | .tallocGrant core => Sys2Proof.Machine.execTallocGrant core s
  | .tfree f => Sys2Proof.Machine.execTfree f s
  | .tfreeRelease core tile => Sys2Proof.Machine.execTfreeRelease core tile s
  | .tdrain f => Sys2Proof.Machine.execTdrain f s
  | .relg f => Sys2Proof.Machine.execRelg f s
  | .csrd f => Sys2Proof.Machine.execCsrd f s
  | .csrw f => Sys2Proof.Machine.execCsrw f s
  | .rendezvousExecute bid slot => Sys2Proof.Machine.execRendezvousExecute bid slot s
  | .blockRetirement bid => Sys2Proof.Machine.execBlockRetirement bid s
  | .stampTick core => Sys2Proof.Machine.execStampTick core s
  | .pressApplication id => Sys2Proof.Machine.execPressApplication id s
  | .channelPressApplication id => Sys2Proof.Machine.execChannelPressApplication id s
  | .channelAck id => Sys2Proof.Machine.execChannelAck id s
  | .combineEntryTimeout cluster id => Sys2Proof.Machine.execCombineEntryTimeout cluster id s
  | .remotePressRequest r => Sys2Proof.Machine.execRemotePressRequest r s
  | .trackerAgeDrain holder line => Sys2Proof.Machine.execTrackerAgeDrain holder line s
  | .drainApply id => Sys2Proof.Machine.execDrainApply id s
  | .umonInterval monitor => Sys2Proof.Machine.execUmonInterval monitor s
  | .mmaCommandStart core => Sys2Proof.Machine.execMmaCommandStart core s
  | .mmaComplete core => Sys2Proof.Machine.execMmaComplete core s
  | .tdrainExecute core => Sys2Proof.Machine.execTdrainExecute core s
  | .copyCommandStart core ctx chan => Sys2Proof.Machine.execCopyCommandStart core ctx chan s
  | .copyComplete core ctx chan => Sys2Proof.Machine.execCopyComplete core ctx chan s
  | .tierPageMove core ctx chan => Sys2Proof.Machine.execTierPageMove core ctx chan s
  | .lqRingWrite queue value => Sys2Proof.Machine.execLqRingWrite queue value s
  | .lqWake queue value => Sys2Proof.Machine.execLqWake queue value s
  | .launchRecordRead queue => Sys2Proof.Machine.execLaunchRecordRead queue s
  | .launchDispatch launch => Sys2Proof.Machine.execLaunchDispatch launch s
  | .blockPlacement launch => Sys2Proof.Machine.execBlockPlacement launch s
  | .launchBlocking launch => Sys2Proof.Machine.execLaunchBlocking launch s
  | .preemptDeadlineExpiry ctx => Sys2Proof.Machine.execPreemptDeadlineExpiry ctx s
  | .contextSwitchOut ctx => Sys2Proof.Machine.execContextSwitchOut ctx s
  | .watchdogInternal ctx => Sys2Proof.Machine.execWatchdogInternal ctx s
  | .watchdogExternal ctx => Sys2Proof.Machine.execWatchdogExternal ctx s
  | .wdogWrite ctx ext value => Sys2Proof.Machine.execWdogWrite ctx ext value s
  | .coreSplitWrite ctx value => Sys2Proof.Machine.execCoreSplitWrite ctx value s
  | .warpSuspendTimeout bid warp => Sys2Proof.Machine.execWarpSuspendTimeout bid warp s
  | .faultEntryWrite ctx => Sys2Proof.Machine.execFaultEntryWrite ctx s
  | .resume ctx hold => Sys2Proof.Machine.execResume ctx hold s
  | .discard ctx hold => Sys2Proof.Machine.execDiscard ctx hold s
  | .resolve ctx region => Sys2Proof.Machine.execResolve ctx region s
  | .failpg ctx region => Sys2Proof.Machine.execFailpg ctx region s
  | .abort ctx hold => Sys2Proof.Machine.execAbort ctx hold s
  | .reset ctx => Sys2Proof.Machine.execReset ctx s
  | .tlbInv ctx value => Sys2Proof.Machine.execTlbInv ctx value s
  | .tlbInvComplete ctx => Sys2Proof.Machine.execTlbInvComplete ctx s
  | .blockSave bid => Sys2Proof.Machine.execBlockSave bid s
  | .arrivalLogAppend ctx a => Sys2Proof.Machine.execArrivalLogAppend ctx a s
  | .logRefusalRetry ctx sender => Sys2Proof.Machine.execLogRefusalRetry ctx sender s
  | .releaseGateProcess => Sys2Proof.Machine.execReleaseGateProcess s
  | .hostMemoryRequest r => Sys2Proof.Machine.execHostMemoryRequest r s
  | .peerModuleRequest r => Sys2Proof.Machine.execPeerModuleRequest r s
  | .ideCounterLimit stream => Sys2Proof.Machine.execIdeCounterLimit stream s
  | .ideKeyTimeout stream => Sys2Proof.Machine.execIdeKeyTimeout stream s
  | .lockInterface fn => Sys2Proof.Machine.execLockInterface fn s
  | .auditWalk fn => Sys2Proof.Machine.execAuditWalk fn s
  | .lockedRegisterWrite fn off value => Sys2Proof.Machine.execLockedRegisterWrite fn off value s
  | .functionLevelReset fn => Sys2Proof.Machine.execFunctionLevelReset fn s
  | .scrubGranule granule => Sys2Proof.Machine.execScrubGranule granule s
  | .linkPortFailure port => Sys2Proof.Machine.execLinkPortFailure port s
  | .linkTargetTimeout modid => Sys2Proof.Machine.execLinkTargetTimeout modid s
  | .alertBackoff bank => Sys2Proof.Machine.execAlertBackoff bank s
  | .throttleStep lower => Sys2Proof.Machine.execThrottleStep lower s
  | .status m => Sys2Proof.Machine.execStatus m s
  | .preempt m ctx => Sys2Proof.Machine.execPreempt m ctx s
  | .restore m ctx => Sys2Proof.Machine.execRestore m ctx s
  | .pooladd m ctx capacity frames => Sys2Proof.Machine.execPooladd m ctx capacity frames s
  | .setaper m ctx base => Sys2Proof.Machine.execSetaper m ctx base s
  | .checkpoint m => Sys2Proof.Machine.execCheckpoint m s
  | .sleep m => Sys2Proof.Machine.execSleep m s
  | .sleepWake => Sys2Proof.Machine.execSleepWake s
  | .keyprov m ctx key => Sys2Proof.Machine.execKeyprov m ctx key s
  | .assign m fn clusters queues => Sys2Proof.Machine.execAssign m fn clusters queues s
  | .grant m fn allow => Sys2Proof.Machine.execGrant m fn allow s
  | .powercap m steps => Sys2Proof.Machine.execPowercap m steps s
  | .debug m a => Sys2Proof.Machine.execDebug m a s
  | .dumprd m => Sys2Proof.Machine.execDumprd m s
  | .fatalError => Sys2Proof.Machine.execFatalError s
  | .securityAlarm => Sys2Proof.Machine.execSecurityAlarm s
  | .l2ProtWrite value => Sys2Proof.Machine.execL2ProtWrite value s
  | .l2UmonWrite value => Sys2Proof.Machine.execL2UmonWrite value s
  | .quotaWrite device second value => Sys2Proof.Machine.execQuotaWrite device second value s
  | .registerWrite fn off value => Sys2Proof.Machine.execRegisterWrite fn off value s
  | .capacityTierSupplyLoss => Sys2Proof.Machine.execCapacityTierSupplyLoss s
  | .powerUp => Sys2Proof.Machine.execPowerUp s
  | .dieReset compute cache hbm => Sys2Proof.Machine.execDieReset compute cache hbm s
  | .linkTraining port => Sys2Proof.Machine.execLinkTraining port s
  | .systemConfiguration modid => Sys2Proof.Machine.execSystemConfiguration modid s
  | .missedLinkHeartbeats modid => Sys2Proof.Machine.execMissedLinkHeartbeats modid s
  | .ideKeySetSelection fn stream => Sys2Proof.Machine.execIdeKeySetSelection fn stream s
  | .ideCounterWarning stream => Sys2Proof.Machine.execIdeCounterWarning stream s
  | .spdmSessionEstablishment fn => Sys2Proof.Machine.execSpdmSessionEstablishment fn s
  | .contextCreation ctx => Sys2Proof.Machine.execContextCreation ctx s
  | .contextDestruction ctx => Sys2Proof.Machine.execContextDestruction ctx s
  | .latencyVResult bid warp id => Sys2Proof.Machine.execLatencyVResult bid warp id s
  | .postedWriteFailure id status => Sys2Proof.Machine.execPostedWriteFailure id status s
  | .softError unit => Sys2Proof.Machine.execSoftError unit s
  | .functionResetComplete fn => Sys2Proof.Machine.execFunctionResetComplete fn s

end Sys2Proof.Machine
end

