-- ==== Sys2Proof/Machine/Moves.lean ====
section
/-! DEFINITION. What every move brings about at once (R42, R209, R259, R260, R271, R380), the passing of a cycle, the moves that the
caches, the links and the management core make of themselves (R100, R101, R122, R129, R242, R290), and what is due by itself. -/

namespace Sys2Proof.Machine

/-! ## After every move -/

/-- Whether a lane was ready and is not any more. -/
def leftReady (old new : Warp) : Bool :=
  (indexed old.lanes).any fun x => readyLane old x.2 && !((laneAt new x.1).any (readyLane new))

/-- The arbiter of a core tests after a TALLOC begins to wait, or a lane of a block with a waiting TALLOC leaves the ready
state (R209). -/
def arbiterDue (old new : Mach) (core : Nat) : Bool :=
  let was := (old.core core).tileQ.map (·.id)
  (new.core core).tileQ.any fun r => !was.contains r.id ||
    (match old.block? r.bid with
     | none => false
     | some b => b.warps.cells.any fun w => match new.warp? r.bid w.1 with
       | none => w.2.lanes.any (readyLane w.2)
       | some x => leftReady w.2 x)

/-- Requests at the head that can be granted do not wait. -/
def Mach.grantAll (m : Mach) (mg : Mgmt) (core : Nat) : Nat → Mach
  | 0 => m
  | fuel + 1 =>
    let n := (m.core core).tileQ.length
    let m' := m.tallocGrant mg core
    if (m'.core core).tileQ.length = n then m else Mach.grantAll m' mg core fuel

def Mach.tileTest (m : Mach) (mg : Mgmt) (old : Mach) : Mach :=
  (tabKeys m.cores).foldl (fun m core =>
    if arbiterDue old m core then
      let n := (m.core core).tileQ.length
      (m.grantAll mg core n).tileArbiter mg core n []
    else m) m

/-! ## Completion of a rendezvous (R72, R74) -/

/-- The execution of a slot has completed for every member: its cycle has come and it is in flight in none of them. -/
def slotDone (now : Nat) (b : Block) (members : List Nat) (s : Slot) : Bool :=
  match s.running with
  | none => false
  | some (id, t) => decide (t ≤ now) && members.all fun w => match tabFind b.warps w with
    | none => true
    | some x => !(x.flights.any (·.id == id))

/-- Every lane that waits in slot `k` becomes ready at its next instruction, and the stall count runs from here (R74, R82). -/
def releaseSlotLanes (k now stall : Nat) (w : Warp) : Warp :=
  let w := modLanes w fun _ l => if l.st == .waiting (.rendezvous k) then l.readyAt l.pc now else l
  { w with stall := max w.stall (now + 1 + stall) }

/-- A completed slot is idle again. -/
def Mach.releaseSlot (m : Mach) (mg : Mgmt) (bid k : Nat) : Mach :=
  match m.block? bid with
  | none => m
  | some b => match tabFind b.slots k with
    | none => m
    | some s =>
      let members := m.slotMembers b k
      if !b.resident || !slotDone m.cycle b members s then m
      else
        let stall := ((opOf s.instr).map (·.head.stall.toNat)).getD 0
        let m := m.setBlock bid { b with slots := tabErase b.slots k }
        let m := members.foldl (fun m x => m.modWarp bid x (releaseSlotLanes k m.cycle stall)) m
        members.foldl (fun m x => m.settleWarp mg bid x) m

/-- The slots of a block that have completed. -/
def Mach.releaseSlots (m : Mach) (mg : Mgmt) : Mach :=
  m.blocks.cells.foldl (fun m b => (tabKeys b.2.slots).foldl (fun m k => m.releaseSlot mg b.1 k) m) m

/-- What follows every move at once: waits on barrier objects and rendezvous that are over, the tile arbiter, waiting times of launches and
watchdogs, offers that nobody takes, group selections. -/
def Mach.afterMove (m : Mach) (mg : Mgmt) (old : Mach) : Mach :=
  let m := ((({ m with issue := none, stalled := false } : Mach).wakeBarriers mg).releaseSlots mg).tileTest mg old
  let m := m.requeueAll mg
  ((m.launchTimers.watchTimers).dropOffers mg).selectAll

/-! ## Time -/

/-- One cycle of the core clock: the reference clock of 100 MHz follows (R392), results that are due take effect (R350). -/
def Mach.tick (m : Mach) : Mach :=
  let now := m.cycle + 1
  let r := m.refRem + 100
  { m with
    cycle := now
    time := m.time + r / m.mhz
    refTicks := m.refTicks + BitVec.ofNat 64 (r / m.mhz)
    refRem := r % m.mhz
    blocks := tabMap (fun b => if b.resident then { b with warps := tabMap (fun w => w.settle now) b.warps } else b) m.blocks }

/-! ## Caches and links -/

/-- The oldest posted store that no stream holds arrives (R129, R322). The spec promises no order between stores of different lanes or
to different targets: DESIGN CHOICE (log 86), the oldest of all comes first. -/
def Mach.deliverOne (m : Mach) : Mach :=
  match m.posted.find? fun x => !m.postHeld x with
  | none => m
  | some p => ({ m with posted := m.posted.erase p } : Mach).arrivePosted p

/-- A move that is neither an issue nor a row of the opcode table. -/
def Mach.selfMove (m : Mach) (mv : Move) : Mach :=
  match mv with
  | .issue _ _ => m
  | .event _ => m
  | .tick => m.tick
  | .l1Evict core line => m.dropL1 core line
  | .tlbEvict => { m with tlb := m.tlb.dropLast }
  | .recall line => { m with claims := tabErase m.claims line }
  | .deliver => m.deliverOne
  | .peerError modid unit => { m with peerBad := tabSet m.peerBad modid (unit :: (tabGet m.peerBad modid []).filter (· != unit)) }
  | .hostAtomics ur => { m with hostUr := ur }
  | .busPeer base n => { m with busPeers := (base, n) :: m.busPeers }
  | .glitch id => { m with presses := m.presses.map fun (r : PressReq) => if r.id = id ∧ r.done.isNone then { r with glitch := true } else r }
  | .bindQueue queue ctx => m.bindQueue queue ctx
  | .job => m

/-! ## What a cycle does not pass before (R56, R74, R107, R115, R145, R172, R262, R267, R270, R278,
R294, R322, R323) -/

/-- A stamp tick is due now: 64 cycles after the last one; the first comes within 64 cycles of reset (R115). -/
def Core.tickDue (c : Core) (now : Nat) : Bool :=
  match c.ticked with
  | none => decide (63 ≤ now)
  | some t => decide (t + 64 ≤ now)

/-- Moves that a rule ties to a cycle or a time: every scheduler's issue, expired timers, executions and ticks whose cycle has
come. Each does nothing while it is not due. -/
def timedMoves (mg : Mgmt) (m : Mach) : List Move :=
  (m.blocks.cells.flatMap fun b => (tabKeys b.2.slots).map (fun k => .event (.rendezvousExecute b.1 k)) ++
      (tabKeys b.2.warps).map fun w => .event (.warpSuspendTimeout b.1 w)) ++
    (m.cores.cells.flatMap fun c => (tabKeys c.2.bins).map (fun b => .event (.binTimerExpiry c.1 b)) ++
      (if c.2.tickDue m.cycle then [.event (.stampTick c.1)] else []) ++ (List.range 4).map fun k => .issue c.1 k) ++
    m.trackers.map (fun t => .event (.trackerAgeDrain t.holder t.line)) ++
    m.presses.filterMap (fun r => r.comb.map fun c => .event (.combineEntryTimeout c.1 r.id)) ++
    (tabKeys m.launches).map (fun l => .event (.launchBlocking l)) ++
    (m.ctxs.cells.flatMap fun c => [.event (.preemptDeadlineExpiry c.1), .event (.watchdogInternal c.1), .event (.watchdogExternal c.1)] ++
      (dedup (c.2.refused.map (·.1))).map fun k => .event (.logRefusalRetry c.1 k)) ++
    (tabKeys mg.fns).map (fun f => .event (.auditWalk f)) ++ (tabKeys m.ide).map (fun k => .event (.ideKeyTimeout k)) ++
    [.event (.umonInterval ())]

/-! ## What is due when the agenda is empty -/

/-- Steps that end or continue what a block does. -/
def blockSteps (bid : Nat) (b : Block) : List Instr :=
  b.warps.cells.flatMap (fun w =>
    w.2.flights.map (fun f => .latencyVResult bid w.1 f.id) ++
      [.fenceComplete bid w.1, .spawnRetry bid w.1, .warpSuspendTimeout bid w.1]) ++
    (tabKeys b.slots).map (fun k => .rendezvousExecute bid k) ++ [.broodWarpLaunch bid, .blockRetirement bid, .blockSave bid]

/-- Steps of a core's units. -/
def coreSteps (core : Nat) (c : Core) : List Instr :=
  (tabKeys c.bins).map (fun b => .binTimerExpiry core b) ++ (tabKeys c.tiles).map (fun t => .tfreeRelease core t) ++
    [.tallocGrant core, .mmaCommandStart core, .mmaComplete core, .tdrainExecute core] ++
    (tabKeys c.chans).flatMap (fun k => [.copyCommandStart core (k / 8) (k % 8), .copyComplete core (k / 8) (k % 8),
      .tierPageMove core (k / 8) (k % 8)]) ++ [.stampTick core]

/-- Steps that concern a context. -/
def ctxSteps (ctx : Nat) (c : Ctx) : List Instr :=
  (tabKeys c.press).map (fun k => .pdropComplete ctx k) ++ (dedup (c.refused.map (·.1))).map (fun k => .logRefusalRetry ctx k) ++
    [.preemptDeadlineExpiry ctx, .contextSwitchOut ctx, .watchdogInternal ctx, .watchdogExternal ctx, .faultEntryWrite ctx,
     .tlbInvComplete ctx]

/-- Steps of presses, damp lines and launches. -/
def Mach.unitSteps (m : Mach) : List Instr :=
  m.presses.flatMap (fun r => [.pressApplication r.id, .channelPressApplication r.id, .channelAck r.id,
      .combineEntryTimeout ((r.comb.map (·.1)).getD 0) r.id]) ++
    m.drains.map (fun d => .drainApply d.id) ++ m.wrung.map (fun w => .wrungLoadPerform w.id) ++
    m.trackers.map (fun t => .trackerAgeDrain t.holder t.line) ++ [.releaseGateProcess] ++
    (tabKeys m.queues).map (fun q => .launchRecordRead q) ++
    (tabKeys m.launches).flatMap (fun l => [.launchDispatch l, .blockPlacement l, .launchBlocking l])

/-- Steps of the module's management. -/
def Mgmt.steps (mg : Mgmt) (m : Mach) : List Instr :=
  .umonInterval () :: (tabKeys mg.fns).flatMap (fun f => [.auditWalk f, .functionResetComplete f]) ++ (tabKeys m.ide).map (fun k => .ideKeyTimeout k) ++
    m.scrub.map (fun g => .scrubGranule g)

/-- What the part does of itself, in the order in which the model tries it (log 2). -/
def dueMoves (mg : Mgmt) (m : Mach) : List Move :=
  (m.blocks.cells.flatMap fun b => (blockSteps b.1 b.2).map Move.event) ++
    (m.cores.cells.flatMap fun c => (List.range 4).map fun k => Move.issue c.1 k) ++
    (m.cores.cells.flatMap fun c => (coreSteps c.1 c.2).map Move.event) ++ m.unitSteps.map Move.event ++
    (m.ctxs.cells.flatMap fun c => (ctxSteps c.1 c.2).map Move.event) ++ [.deliver, .job] ++ (mg.steps m).map Move.event

end Sys2Proof.Machine
end

