-- ==== Sys2Proof/Machine/Step.lean ====
section
/-! DEFINITION. One step: the next move of the agenda, or what is due, and what it brings about at once. -/

namespace Sys2Proof.Machine

/-- A move ends: what follows at once is done, the issue is over. -/
def finish (old : State) (o : Host.Outcome State Fault Refusal) : Host.Outcome State Fault Refusal :=
  match o with
  | .next t => .next { t with mach := t.mach.afterMove t.mgmt old.mach }
  | .fault f => .fault f
  | .refused r => .refused r

/-- A move: an issue runs the instruction that the scheduler chose, an event runs its row; an instruction form is no event. -/
def runMove (mv : Move) (s : State) : Host.Outcome State Fault Refusal :=
  match mv with
  | .issue core sched => match s.mach.schedule s.mgmt core sched with
    | (.wait, m) => .next { s with mach := m }
    | (.stopped, m) => finish s (.next { s with mach := m })
    | (.run q i, m) => finish s (exec i { s with mach := { m with issue := some q } })
  | .event e => if (opOf e).isSome then .next s else finish s (exec e s)
  | .tick => finish s (.next { s with mach := s.mach.selfMove .tick })
  | .l1Evict core line => finish s (.next { s with mach := s.mach.selfMove (.l1Evict core line) })
  | .tlbEvict => finish s (.next { s with mach := s.mach.selfMove .tlbEvict })
  | .recall line => finish s (.next { s with mach := s.mach.selfMove (.recall line) })
  | .deliver => finish s (.next { s with mach := s.mach.selfMove .deliver })
  | .peerError modid unit => finish s (.next { s with mach := s.mach.selfMove (.peerError modid unit) })
  | .hostAtomics ur => finish s (.next { s with mach := s.mach.selfMove (.hostAtomics ur) })
  | .busPeer base n => finish s (.next { s with mach := s.mach.selfMove (.busPeer base n) })
  | .glitch id => finish s (.next { s with mach := s.mach.selfMove (.glitch id) })
  | .bindQueue queue ctx => finish s (.next { s with mach := s.mach.selfMove (.bindQueue queue ctx) })
  | .job => finish s (onModule finishJob s)

/-- Whether a move does anything. -/
def moves (s : State) (mv : Move) : Bool :=
  match runMove mv s with
  | .next t => t != s
  | .fault _ => true
  | .refused _ => true

/-- With an empty agenda: the first move that is due and does something, else a cycle passes. -/
def defaultMove (s : State) : Move := ((dueMoves s.mgmt s.mach).find? (moves s)).getD .tick

/-- A cycle passes only when nothing is left that a rule ties to it (log 2): a scheduler that can issue does so (R262). -/
def timed (s : State) (mv : Move) : Move := if mv = .tick then ((timedMoves s.mgmt s.mach).find? (moves s)).getD .tick else mv

/-- One step of the module. -/
def step (s : State) : Host.Outcome State Fault Refusal :=
  match s.agenda with
  | mv :: rest => runMove (timed { s with agenda := rest } mv) { s with agenda := rest }
  | [] => runMove (timed s (defaultMove s)) s

/-- The state with one instruction where the next step fetches it (`Mach.bench`). -/
def State.withFetchWord (s : State) (nbits w : Nat) : State :=
  { s with mach := s.mach.bench nbits w, agenda := .issue 0 0 :: s.agenda }

end Sys2Proof.Machine
end

