-- ==== Sys2Proof/Safety.lean ====
section
/-! DEFINITION. What a safe state and a safe run are, in the terms the claims use. -/

namespace Sys2Proof.Machine

/-- Both memories of the module and every other module's keep their canonical form. -/
def Mach.memoriesOk (m : Mach) : Bool :=
  Memory.wf m.mem && Memory.wf m.hostMem && (tabVals m.peerMem).all Memory.wf

/-- The quotas of all devices together fit the capacity (R178). -/
def Mgmt.quotasOk (mg : Mgmt) : Bool := quotasFit mg.quotas

end Sys2Proof.Machine
end

