-- ==== Sys2Proof/Safety/Running.lean ====
section
/-! DEFINITION. Words for the statements about instructions: a group that issues, the elements that execute, what registers
hold after results are written, and what stays as it was. -/

namespace Sys2Proof.Machine

/-! ## A group that issues -/

/-- The issue of group `q.lanes` of warp `w` of block `b` is under way: its lanes are ready and nothing suspends them. -/
structure Issuing (s : State) (q : Issue) (b : Block) (w : Warp) : Prop where
  issue : s.mach.issue = some q
  block : tabFind s.mach.blocks q.bid = some b
  warp  : tabFind b.warps q.warp = some w
  lanes : w.lanes.length = 32
  some_ : q.lanes ≠ 0
  ready : ∀ k l, q.lanes.getLsbD k = true → laneAt w k = some l → l.st = .ready
  quiet : s.mach.stalled = false

/-- The write slot that the instruction names has room (R351). -/
def slotHasRoom (h : Head) (w : Warp) : Prop := ∀ j, slotOf h = some j → w.ws.getD j 0 < 7

/-- CORE.CHECK is off, or no register of the warp has a pending write (R356). -/
def noShort (s : State) (b : Block) (w : Warp) : Prop := (s.mach.ctx b.ctx).check = false ∨ w.pend = []

/-- The instruction stands at lane or warp scope, where it executes at its issue (R64); a collective instruction is not
permitted at lane scope (R67). -/
def ownScope (h : Head) (coll : Bool) : Prop := (h.scope = .lane ∧ coll = false) ∨ h.scope = .warp

/-! ## Elements -/

/-- The head and guard of an instruction, for the general rules about elements. -/
def bareOp (h : Head) (g : Guard) (width : Nat) : Op :=
  { head := h, guard := g, width := width, scopes := {}, check := fun _ _ => none, srcs := fun _ => [], timing := .atIssue
    run := fun _ m => ([], m) }

/-- The lanes of the group whose guard is true (R81, R85). -/
def activeLanes (s : State) (q : Issue) (w : Warp) (h : Head) (g : Guard) (width : Nat) : LaneMask :=
  (bareOp h g width).activeOf s.mach.free w 0 q.lanes

/-- The executing elements of an issue at lane or warp scope, lowest lane first (R66). -/
def elements (s : State) (q : Issue) (b : Block) (w : Warp) (h : Head) (g : Guard) (width : Nat) : List View :=
  (bareOp h g width).views s.mgmt q b (s.mach.gangs b) s.mach.free s.mach.ids
    [⟨q.warp, 0, q.lanes, activeLanes s q w h g width, w⟩]

/-- Masks of the guards of every lane of the group (R303). -/
def guardMasks (s : State) (q : Issue) (w : Warp) (g : Guard) : Mask :=
  (bitsOf q.lanes).foldl (fun t i => t ||| (w.guardReg s.mach.free i g i).tag) 0

/-! ## Registers after results -/

/-- A predicate register holds four bits. -/
def RegName.trim (r : RegName) (x : Reg) : Reg :=
  match r with
  | .p _ _ => ⟨(x.val.setWidth 4).setWidth 32, x.tag⟩
  | .v _ _ => x
  | .s _ => x

/-- What register `r` holds after the results of lane `lane`: of each result that names it the bits that the result writes,
with the result's mask, or `tag`, joined with `base` (R301). -/
def written (lane : Nat) (tag base : Mask) (r : RegName) (x : Reg) (outs : List Out) : Reg :=
  outs.foldl (fun x o =>
    if regOf lane o.dst o.k = some r
    then r.trim ⟨(x.val &&& ~~~o.bits) ||| (o.val &&& o.bits), (o.tag.getD tag) ||| base⟩ else x) x

/-- The registers of a lane. -/
def RegName.ofLane (r : RegName) (k : Nat) : Prop :=
  match r with
  | .v lane _ => lane = k
  | .p lane _ => lane = k
  | .s _ => False

/-- What an element takes as its result (R67, R69): its own at lane scope and of a collective instruction, else the leader's; of
elements narrower than a word those whose guard bit in its lane is set (R85, log 74). -/
def resultOf (h : Head) (width : Nat) (coll : Bool) (f : List View → View → List Out) (vs : List View) (v : View) : List Out :=
  (if h.scope = .lane ∨ coll = true then f vs v else f vs (vs.headD v)).map (v.part width)

/-- The source mask of an element's results (R69, R301): its own sources at lane scope, every element's of a collective
instruction, else the leader's. -/
def sourceMask (h : Head) (coll : Bool) (srcs : List Src) (vs : List View) (v : View) : Mask :=
  if h.scope = .lane then v.tags srcs
  else if coll then vs.foldl (fun t x => t ||| x.tags srcs) 0
  else (vs.headD v).tags srcs

/-- What scalar register `n`, which held `x`, holds after the elements `vs` (R68): above lane scope the leader's results are
written once. -/
def scalarAfter (h : Head) (width : Nat) (coll : Bool) (srcs : List Src) (f : List View → View → List Out) (vs : List View) (n : Nat)
    (x : Reg) : Reg :=
  match vs with
  | [] => x
  | v :: r => if h.scope = .lane then x
    else written 0 (sourceMask h coll srcs (v :: r) v) v.base (.s n) x (resultOf h width coll f (v :: r) v)

/-! ## After an instruction -/

/-- A lane that goes on: it is ready, or waits for its rendezvous to complete. -/
def Lane.goesOn (l : Lane) : Prop := l.st = .ready ∨ ∃ k, l.st = .waiting (.rendezvous k)

/-- Some lane of the warp goes on. -/
def Warp.goesOn (w : Warp) : Prop := ∃ k l, laneAt w k = some l ∧ l.goesOn

/-- Where lanes that have executed stand: ready, or, of a rendezvous, waiting in its slot until it completes (R74). -/
def restsIn (slot : Option Nat) : LaneState :=
  match slot with
  | none => .ready
  | some k => .waiting (.rendezvous k)

/-- The machine with a warp in its place, one execution later. -/
def State.putWarp (s : State) (q : Issue) (b : Block) (w : Warp) : State :=
  { s with mach := { s.mach with
      blocks := tabSet s.mach.blocks q.bid { b with warps := tabSet b.warps q.warp w }
      free := s.mach.free + 1, ids := s.mach.ids + 1 } }

/-- Cycle at which the write slot of an instruction falls, where that is fixed (R350, R352). -/
def Timing.due (t : Timing) (now : Nat) : Option Nat :=
  match t with
  | .fixed n => some (now + n)
  | .later => none
  | .atIssue => none
  | .open_ => none

/-- Everything a warp keeps through an instruction that only computes registers. -/
def Warp.keeps (w w' : Warp) : Prop :=
  { w' with lanes := w.lanes, s := w.s, ws := w.ws, flow := w.flow, group := w.group, stall := w.stall,
            lastIssue := w.lastIssue, hintUntil := w.hintUntil, pend := w.pend, flights := w.flights } = w

/-- Everything a lane keeps through such an instruction: all but its registers, its state, its program counter and its age. -/
def Lane.keeps (l l' : Lane) : Prop :=
  { l' with st := l.st, v := l.v, p := l.p, pc := l.pc, code := l.code, ageBase := l.ageBase } = l

/-- The registers and lanes of member warp `warp`, `w` before and `w'` after an execution over the elements `vs`: the elements'
registers hold their results and every other register of the warp is unchanged; the lanes of its group go on to the next
instruction, those of rendezvous slot `slot` when it completes, and the other lanes stay as they are. -/
structure RegistersAfter (q : Issue) (vs : List View) (warp : Nat) (group : LaneMask) (slot : Option Nat) (w w' : Warp) (h : Head)
    (width : Nat) (coll : Bool) (srcs : List Src) (f : List View → View → List Out) : Prop where
  results : ∀ v ∈ vs, v.warp = warp → ∀ r : RegName, r.ofLane v.lane →
    w'.getReg r = written v.lane (sourceMask h coll srcs vs v) v.base r (w.getReg r) (resultOf h width coll f vs v)
  idle    : ∀ k, (∀ v ∈ vs, v.warp = warp → v.lane ≠ k) → ∀ r : RegName, r.ofLane k → w'.getReg r = w.getReg r
  scalars : ∀ n, w'.getReg (.s n) =
    if vs.any (·.warp == warp) then scalarAfter h width coll srcs f vs n (w.getReg (.s n)) else w.getReg (.s n)
  moved   : ∀ k l, group.getLsbD k = true → laneAt w k = some l →
    ∃ l', laneAt w' k = some l' ∧ l'.st = restsIn slot ∧ l'.pc = q.seqPc ∧ l.keeps l'
  others  : ∀ k, group.getLsbD k = false → laneAt w' k = laneAt w k
  kept    : w.keeps w'

/-- What an execution charges a member warp: the write slot counts one more if the member has an element, and no other
instruction is in flight than before (R82, R351). -/
structure Charged (s : State) (vs : List View) (warp : Nat) (w w' : Warp) (h : Head) (t : Timing) : Prop where
  slot   : w'.ws = match slotOf h with
    | none => w.ws
    | some j => if vs.any (·.warp == warp) then w.ws.modify j (· + 1) else w.ws
  flight : ∀ x ∈ w'.flights, x ∈ w.flights ∨ x = ⟨s.mach.ids, slotOf h, t.due s.mach.cycle, true⟩

/-- An instruction that only computes registers completes at its issue, at lane and warp scope, whenever its operands are ones
that its positions admit: the state after it differs from the one before in its warp alone. F gains the guards' masks. -/
def ComputesAtIssue (i : Instr) (h : Head) (g : Guard) (width : Nat) (t : Timing) (coll : Bool)
    (ok : Owner → List Bool) (srcs : List Src) (f : List View → View → List Out) : Prop :=
  ∀ s q b w, Issuing s q b w → ownScope h coll → slotHasRoom h w → noShort s b w →
    (∀ x ∈ ok (s.mach.owner b q.warp h.scope), x = true) →
    ∃ w', exec i s = .next (s.putWarp q b w') ∧
      RegistersAfter q (elements s q b w h g width) q.warp q.lanes none w w' h width coll srcs f ∧
      Charged s (elements s q b w h g width) q.warp w w' h t ∧
      w'.flow = w.flow ||| guardMasks s q w g ∧ w'.stall = s.mach.cycle + 1 + h.stall.toNat

/-! ## A rendezvous -/

/-- Every member of slot `k` of block `bid` has arrived with instruction `i`, and its cycle has come (R73, R74). -/
structure AtRendezvous (s : State) (bid k : Nat) (b : Block) (sl : Slot) (i : Instr) : Prop where
  awake    : s.mgmt.power = .on
  block    : tabFind s.mach.blocks bid = some b
  slot     : tabFind b.slots k = some sl
  instr    : sl.instr = i
  bid      : sl.issue.bid = bid
  issuer   : sl.issue.warp ∈ s.mach.slotMembers b k
  start    : ∃ t, sl.start = some t ∧ t ≤ s.mach.cycle
  free     : sl.held = false ∧ sl.running = none
  resident : b.resident = true
  wrings   : s.mach.wrung = []
  members  : ∀ x ∈ s.mach.slotMembers b k, ∃ w g, tabFind b.warps x = some w ∧ w.lanes.length = 32 ∧ w.suspended = false ∧
    tabFind sl.groups x = some g ∧ g ≠ 0 ∧ ∀ j, (tabGet sl.arrived x 0).getLsbD j = true → g.getLsbD j = true
  quiet    : s.mach.stalled = false

/-- The elements of a set: the arrived lanes of every member, with the registers as of their arrival (R66, R354). -/
def setElements (s : State) (b : Block) (k : Nat) (sl : Slot) (h : Head) (g : Guard) (width : Nat) : List View :=
  (bareOp h g width).views s.mgmt sl.issue b (s.mach.gangs b) s.mach.free s.mach.ids
    (slotMems b (s.mach.slotMembers b k) sl)

/-- Masks of the guards of every lane of every group that arrived, and the flow masks of every arrived member (R69). -/
def setMasks (s : State) (b : Block) (k : Nat) (sl : Slot) (h : Head) (g : Guard) (width : Nat) : Mask :=
  (bareOp h g width).setTags s.mach.free (slotMems b (s.mach.slotMembers b k) sl)

/-- CORE.CHECK is off, or no member arrived with a pending write (R356). -/
def noShortSet (s : State) (b : Block) (sl : Slot) : Prop :=
  (s.mach.ctx b.ctx).check = false ∨ ∀ x, tabGet sl.pend x [] = []

/-- The slot of a rendezvous whose instruction has started: its members' lanes wait in it until the instruction has completed for
every member (R72, R74). -/
def Slot.started (sl : Slot) (s : State) (t : Timing) (idle : Bool) : Slot :=
  { sl with running := some (s.mach.ids, t.ends s.mach.cycle idle) }

/-- An instruction that only computes registers executes in its rendezvous, at gang and block scope: once for the set, every
member's elements receive the results, and the slot stays occupied until the instruction has completed. Nothing else changes. -/
def ComputesAtRendezvous (i : Instr) (h : Head) (g : Guard) (width : Nat) (t : Timing) (coll : Bool) (srcs : List Src)
    (f : List View → View → List Out) : Prop :=
  ∀ s bid k b sl, AtRendezvous s bid k b sl i → isSet h.scope = true → noShortSet s b sl →
    ∃ warps, exec (.rendezvousExecute bid k) s = .next { s with mach := { s.mach with
        blocks := tabSet s.mach.blocks bid { b with warps := warps, slots := tabSet b.slots k (sl.started s t (setElements s b k sl h g width).isEmpty) }
        free := s.mach.free + 1, ids := s.mach.ids + 1 } } ∧
      (∀ x, x ∉ s.mach.slotMembers b k → tabFind warps x = tabFind b.warps x) ∧
      ∀ x ∈ s.mach.slotMembers b k, ∀ w, tabFind b.warps x = some w → ∃ w', tabFind warps x = some w' ∧
        RegistersAfter sl.issue (setElements s b k sl h g width) x (tabGet sl.groups x 0) (some k) w w' h width coll srcs f ∧
        Charged s (setElements s b k sl h g width) x w w' h t ∧
        w'.flow = w.flow ||| setMasks s b k sl h g width ∧ w'.stall = w.stall

/-- Both: at lane and warp scope at its issue, at gang and block scope in its rendezvous. -/
def ComputesRegisters (i : Instr) (h : Head) (g : Guard) (width : Nat) (t : Timing) (coll : Bool)
    (ok : Owner → List Bool) (srcs : List Src) (f : List View → View → List Out) : Prop :=
  ComputesAtIssue i h g width t coll ok srcs f ∧ ComputesAtRendezvous i h g width t coll srcs f

end Sys2Proof.Machine
end

