-- ==== Sys2Proof/Safety/Effects.lean ====
section
/-! DEFINITION. Words for the statements about instructions that also act on the machine around their warp, or move their
lanes: which elements act, what each receives, what the warp and its lanes are afterwards. -/

namespace Sys2Proof.Machine

/-! ## Who acts -/

/-- The elements that act: each one at lane scope and of a collective instruction, else the leader (R67). -/
def acting (h : Head) (coll : Bool) (vs : List View) : List View := if h.scope = .lane ∨ coll = true then vs else vs.take 1

/-- What each element receives of what the acting elements did (R67, R68): its own part, or the leader's. -/
def partsFor (h : Head) (coll : Bool) (vs : List View) (ds : List Done) : List (View × Done) :=
  if h.scope = .lane ∨ coll = true then vs.zip ds
  else match ds with
    | [] => []
    | d :: _ => vs.map fun v => (v, d)

/-- The source mask of an element's results (R69, R301). -/
def partMask (h : Head) (coll : Bool) (srcs : List Src) (ps : List (View × Done)) (v : View) : Mask :=
  if h.scope = .lane then v.tags srcs
  else if coll then ps.foldl (fun t x => t ||| x.1.tags srcs ||| x.2.tag) 0
  else match ps with
    | [] => 0
    | x :: _ => x.1.tags srcs

/-! ## After it -/

/-- Where a lane is after its part (R39, R41): its state, its program counter, its stamp, its return stack (emptied at its
exit) and the stamp of its posted presses. A lane that goes on waits first for its rendezvous to complete (R74). -/
structure Lane.Goes (q : Issue) (slot : Option Nat) (d : Done) (l l' : Lane) : Prop where
  state  : l'.st = match d.next with
    | .seq => restsIn slot
    | .turn => restsIn slot
    | .jump _ => restsIn slot
    | .exit => .exited
    | .wait x => .waiting x
  pc     : l'.pc = match d.next with
    | .seq => q.seqPc
    | .turn => q.seqPc
    | .jump t => ⟨t, 0⟩
    | .exit => l.pc
    | .wait _ => l.pc
  stamp  : l'.pts = max l.pts (d.pts.getD 0)
  stack  : (l'.rstack, l'.spill) = if exits d then ([], 0) else d.stack.getD (l.rstack, l.spill)
  posted : l'.posted = max l.posted (d.posted.getD 0)

/-- What scalar register `n`, which held `x`, holds after it: above lane scope the leader's results are written once (R68). -/
def partScalar (h : Head) (coll : Bool) (srcs : List Src) (ps : List (View × Done)) (n : Nat) (x : Reg) : Reg :=
  match ps with
  | [] => x
  | y :: _ => if h.scope = .lane then x
    else written 0 (partMask h coll srcs ps y.1 ||| y.2.tag) y.1.base (.s n) x y.2.outs

/-- Everything a warp keeps through an instruction that acts by its lanes. -/
def Warp.keepsRest (w w' : Warp) : Prop :=
  { w' with lanes := w.lanes, s := w.s, ws := w.ws, flow := w.flow, exitm := w.exitm, group := w.group, stall := w.stall,
            lastIssue := w.lastIssue, hintUntil := w.hintUntil, pend := w.pend, flights := w.flights } = w

/-- The lanes and registers of member warp `warp`, `w` before and `w'` after its elements received `ps`: results are written and
every other register is unchanged; a lane with a part goes where its part sends it, a lane of the group whose guard is false
goes on to the next instruction (R39), and the other lanes stay as they are. -/
structure EffectAfter (q : Issue) (ps : List (View × Done)) (warp : Nat) (group : LaneMask) (slot : Option Nat) (w w' : Warp)
    (h : Head) (coll : Bool) (srcs : List Src) : Prop where
  results : ∀ x ∈ ps, x.1.warp = warp → ∀ r : RegName, r.ofLane x.1.lane →
    w'.getReg r = written x.1.lane (partMask h coll srcs ps x.1 ||| x.2.tag) x.1.base r (w.getReg r) x.2.outs
  idle    : ∀ k, (∀ x ∈ ps, x.1.warp = warp → x.1.lane ≠ k) → ∀ r : RegName, r.ofLane k → w'.getReg r = w.getReg r
  scalars : ∀ n, w'.getReg (.s n) =
    if ps.any (·.1.warp == warp) then partScalar h coll srcs ps n (w.getReg (.s n)) else w.getReg (.s n)
  went    : ∀ x ∈ ps, x.1.warp = warp → ∀ l, laneAt w x.1.lane = some l →
    ∃ l', laneAt w' x.1.lane = some l' ∧ l.Goes q slot x.2 l'
  passed  : ∀ k l, group.getLsbD k = true → (∀ x ∈ ps, x.1.warp = warp → x.1.lane ≠ k) → laneAt w k = some l →
    ∃ l', laneAt w' k = some l' ∧ l'.st = restsIn slot ∧ l'.pc = q.seqPc ∧ l.keeps l'
  others  : ∀ k, group.getLsbD k = false → laneAt w' k = laneAt w k
  kept    : w.keepsRest w'

/-- What it charges a member warp (R82, R301, R303, R351): the write slot, the instruction in flight, the flow and exit masks;
a register whose result is owed has a pending write (R350). -/
structure EffectCharged (s : State) (ps : List (View × Done)) (warp : Nat) (w w' : Warp) (h : Head) (t : Timing) (fl : Mask) :
    Prop where
  slot   : w'.ws = match slotOf h with
    | none => w.ws
    | some j => if ps.any (·.1.warp == warp) && t != .atIssue then w.ws.modify j (· + 1) else w.ws
  flight : ∀ x ∈ w'.flights, x ∈ w.flights ∨ x = ⟨s.mach.ids, slotOf h, t.due s.mach.cycle, t != .open_ ||
    (ps.filter (·.1.warp == warp)).all (·.2.closed)⟩
  begun  : t = .open_ → (∃ x ∈ ps, x.1.warp = warp ∧ x.2.closed = false) →
    (⟨s.mach.ids, slotOf h, none, false⟩ : Flight) ∈ w'.flights
  flow   : w'.flow = (ps.filter (·.1.warp == warp)).foldl (fun t x => t ||| x.2.flow) (w.flow ||| fl)
  stays  : (∀ x ∈ ps, x.1.warp = warp → exits x.2 = false) → w'.exitm = w.exitm
  leaves : (∃ x ∈ ps, x.1.warp = warp ∧ exits x.2 = true) → (∀ x ∈ ps, x.2.flow = 0) → w'.exitm = w.exitm ||| w'.flow
  owes   : ∀ x ∈ ps, x.1.warp = warp → ∀ o ∈ x.2.owed, ∀ r : RegName, r.ofLane x.1.lane → regOf x.1.lane o.1 o.2 = some r →
    ∃ p ∈ w'.pend, p.id = s.mach.ids ∧ p.reg = r

/-- The machine as an execution finds it: one free value and one number later. -/
def Mach.begun (m : Mach) : Mach := { m with free := m.free + 1, ids := m.ids + 1 }

/-- Warp `w` in its place in block `b` of the machine. -/
def Mach.putWarp (m : Mach) (bid warp : Nat) (b : Block) (w : Warp) : Mach :=
  m.setBlock bid { b with warps := tabSet b.warps warp w }

/-- No stream is held, so that no access of the instruction waits for one (R322). -/
def noHeld (s : State) : Prop := (s.mach.ide.cells.any fun x => x.2.held) = false

/-- What an execution sets off at once in each of these warps (R46, R73, R278). -/
def Mach.settleAll (m : Mach) (mg : Mgmt) (bid : Nat) (warps : List Nat) : Mach :=
  warps.foldl (fun m x => m.settleWarp mg bid x) m

/-- What F receives at an issue (R303): the guards' masks, and above lane scope F as the group issued. -/
def issueFlow (s : State) (q : Issue) (w : Warp) (h : Head) (g : Guard) (flows : Bool) : Mask :=
  if flows then (if h.scope = .lane then guardMasks s q w g else guardMasks s q w g ||| w.flow) else 0

/-- The scopes at which an instruction executes at its issue. -/
def atIssueScope (h : Head) (sc : Scopes) : Prop := (h.scope = .lane ∨ h.scope = .warp) ∧ permitted sc h.scope = true

/-- An instruction completes at its issue, at lane and at warp scope: when its operands are admitted, its write slot has room,
no fence holds it back, and its acting elements do `act`, the state after it is the one `act` leaves, with the issuing warp
changed as `EffectAfter` and `EffectCharged` say; what that sets off at once in its warp (R46, R278) is done, and nothing is
set off while a lane of the warp goes on. -/
def EffectAtIssue (i : Instr) (h : Head) (g : Guard) (t : Timing) (coll fenced flows : Bool) (sc : Scopes)
    (ok : Owner → Ctx → Prop) (srcs : Ctx → List Src) (free : List View → Mach → Prop)
    (act : List View → Mach → Option (List Done × Mach)) : Prop :=
  ∀ s q b w ds m' b' w0, Issuing s q b w → atIssueScope h sc → slotHasRoom h w → noShort s b w → noHeld s →
    (fenced = true → w.fence = none) → ok (s.mach.owner b q.warp h.scope) (s.mach.ctx b.ctx) →
    free (elements s q b w h g 32) s.mach → act (acting h coll (elements s q b w h g 32)) s.mach.begun = some (ds, m') →
    m'.cycle = s.mach.cycle → tabFind m'.blocks q.bid = some b' → tabFind b'.warps q.warp = some w0 → w0.lanes.length = 32 →
    ∃ w', exec i s = .next { s with mach := (m'.putWarp q.bid q.warp b' w').settleWarp s.mgmt q.bid q.warp } ∧
      (w'.goesOn → exec i s = .next { s with mach := m'.putWarp q.bid q.warp b' w' }) ∧
      EffectAfter q (partsFor h coll (elements s q b w h g 32) ds) q.warp q.lanes none w0 w' h coll (srcs (s.mach.ctx b.ctx)) ∧
      EffectCharged s (partsFor h coll (elements s q b w h g 32) ds) q.warp w0 w' h t (issueFlow s q w h g flows) ∧
      w'.stall = s.mach.cycle + 1 + h.stall.toNat

/-- Block `b` with its warps as the execution of slot `k` left them, and the slot waiting for its end. -/
def Block.executed (b : Block) (warps : Tab Warp) (k : Nat) (s : State) (t : Timing) (idle : Bool) : Block :=
  { b with warps := warps, slots := tabMod b.slots k fun x => x.started s t idle }

/-- The same at gang and block scope, in its rendezvous (R73, R74): the instruction executes once for the set, every member
receives its part, and the slot stays occupied until the instruction has completed. -/
def EffectAtRendezvous (i : Instr) (h : Head) (g : Guard) (t : Timing) (coll flows : Bool) (srcs : Ctx → List Src)
    (free : List View → Mach → Prop) (act : List View → Mach → Option (List Done × Mach)) : Prop :=
  ∀ s bid k b sl ds m' b', AtRendezvous s bid k b sl i → isSet h.scope = true → noShortSet s b sl → noHeld s →
    free (setElements s b k sl h g 32) s.mach →
    act (acting h coll (setElements s b k sl h g 32)) s.mach.begun = some (ds, m') →
    m'.cycle = s.mach.cycle → tabFind m'.blocks bid = some b' →
    (∀ x ∈ s.mach.slotMembers b k, ∃ w0, tabFind b'.warps x = some w0 ∧ w0.lanes.length = 32) →
    ∃ warps, exec (.rendezvousExecute bid k) s = .next { s with
        mach := (m'.setBlock bid (b'.executed warps k s t (setElements s b k sl h g 32).isEmpty)).settleAll s.mgmt bid
          (s.mach.slotMembers b k) } ∧
      ((∀ x ∈ s.mach.slotMembers b k, ∃ w', tabFind warps x = some w' ∧ w'.goesOn) → exec (.rendezvousExecute bid k) s =
        .next { s with mach := m'.setBlock bid (b'.executed warps k s t (setElements s b k sl h g 32).isEmpty) }) ∧
      (∀ x, x ∉ s.mach.slotMembers b k → tabFind warps x = tabFind b'.warps x) ∧
      ∀ x ∈ s.mach.slotMembers b k, ∀ w0, tabFind b'.warps x = some w0 → ∃ w', tabFind warps x = some w' ∧
        EffectAfter sl.issue (partsFor h coll (setElements s b k sl h g 32) ds) x (tabGet sl.groups x 0) (some k) w0 w' h coll
          (srcs (s.mach.ctx b.ctx)) ∧
        EffectCharged s (partsFor h coll (setElements s b k sl h g 32) ds) x w0 w' h t
          (if flows then setMasks s b k sl h g 32 else 0) ∧
        w'.stall = w0.stall

/-- Lane `k` of member `warp`, `l` before and `l'` after it stopped: it stands where it stood, with its record (R275, R282). -/
def Lane.parksAt (q : Issue) (scope : Scope) (warp k : Nat) (amask : LaneMask) (c : Cause) (l l' : Lane) : Prop :=
  ∃ r, l' = { l with st := .parked (some r) } ∧ r.cause = c ∧ r.pc = q.pc.clause ∧ r.index = q.pc.index ∧ r.lane = k ∧ r.warp = warp ∧
    r.scope = scope ∧ r.amask = amask

/-- An instruction at lane scope all of whose active lanes stop with cause `c` (R276): they park; the other lanes of the group go on
(R39), and nothing but the blocks of the machine changes, no register among them. -/
def StopsLanes (i : Instr) (h : Head) (g : Guard) (c : Cause) (ok : Owner → Prop) (stops : Mach → View → Prop) : Prop :=
  ∀ s q b w, Issuing s q b w → h.scope = .lane → slotHasRoom h w → noShort s b w → noHeld s → w.fence = none →
    ok (s.mach.owner b q.warp h.scope) → (∀ v ∈ elements s q b w h g 32, stops s.mach v) →
    ∃ (m : Mach) (w' : Warp), exec i s = .next { s with mach := m.settleWarp s.mgmt q.bid q.warp } ∧
      m.warp? q.bid q.warp = some w' ∧ { m with blocks := s.mach.blocks } = s.mach.begun ∧ (∀ r, w'.getReg r = w.getReg r) ∧
      ∀ k l, laneAt w k = some l → ∃ l', laneAt w' k = some l' ∧
        if (activeLanes s q w h g 32).getLsbD k then l.parksAt q h.scope q.warp k (activeLanes s q w h g 32) c l'
        else if q.lanes.getLsbD k then l'.st = .ready ∧ l'.pc = q.seqPc ∧ l.keeps l' else l' = l

/-- Both: at lane and warp scope at its issue, at gang and block scope in its rendezvous. -/
def Effects (i : Instr) (h : Head) (g : Guard) (t : Timing) (coll fenced flows : Bool) (sc : Scopes)
    (ok : Owner → Ctx → Prop) (srcs : Ctx → List Src) (free : List View → Mach → Prop)
    (act : List View → Mach → Option (List Done × Mach)) : Prop :=
  EffectAtIssue i h g t coll fenced flows sc ok srcs free act ∧ EffectAtRendezvous i h g t coll flows srcs free act

end Sys2Proof.Machine
end

