-- ==== Sys2Proof/Safety/Acts.lean ====
section
/-! DEFINITION. What the acting elements of an instruction do, in the words of its entry: where a lane goes, what a load brings,
what a store puts where. An act that is `none` is none of the instruction's completions. -/

namespace Sys2Proof.Machine

/-- Element after element, each seeing what the earlier ones did. -/
def eachActs (f : View → Mach → Option (Done × Mach)) : List View → Mach → Option (List Done × Mach)
  | [], m => some ([], m)
  | v :: r, m =>
    match f v m with
    | none => none
    | some (d, m) => match eachActs f r m with
      | none => none
      | some (ds, m) => some (d :: ds, m)

/-- Every one of the conditions holds. -/
def allOf (l : List Bool) : Prop := ∀ x ∈ l, x = true

/-- Nothing has to be waited for. -/
def anyTime : List View → Mach → Prop := fun _ _ => True

/-! ## Control -/

/-- An instruction that sends each element somewhere and does no more. -/
def Goes (i : Instr) (h : Head) (g : Guard) (sc : Scopes) (n : Next) : Prop :=
  Effects i h g .atIssue false false true sc (fun _ _ => True) (fun _ => []) anyTime (eachActs fun _ m => some ({ next := n }, m))

/-- The relative target of form D: four bytes a unit from the clause (R383). -/
def branchTarget (q : Issue) (off : BitVec 24) : BitVec 48 := q.pc.clause + (off.signExtend 48) * 4

/-- The target in a pair, aligned to a clause word. -/
def pairTarget (a : Operand) (v : View) : Option (BitVec 48) :=
  let t := (v.val64 1 a).setWidth 48
  if t.toNat % 4 = 0 then some t else none

/-- A transfer through a register pair, whose mask joins F (R303). -/
def TransfersThrough (i : Instr) (h : Head) (g : Guard) (a : Operand) : Prop :=
  Effects i h g .atIssue false false true laneOnly (fun ow _ => allOf [admits ow srcVS 2 a]) (fun _ => [⟨1, a, 2⟩]) anyTime
    (eachActs fun v m => match pairTarget a v with
      | none => none
      | some t => some ({ next := .jump t, flow := v.tags [⟨1, a, 2⟩] }, m))

/-! ## Addresses -/

/-- R429: a global address, from a base pair below 2^48 and a signed offset; the access stays below 2^48. -/
def globalAt (base : BitVec 64) (x : Int) (n : Nat) : Option Nat :=
  if base.toNat < 2 ^ 48 ∧ 0 ≤ (base.toNat : Int) + x ∧ (base.toNat : Int) + x + n ≤ 2 ^ 48
  then some ((base.toNat : Int) + x).toNat else none

/-- R429, R430: the thread-local address of a lane, in windows of 2^TLSLOG bytes laid out by block slot, warp and lane. -/
def localAt (m : Mach) (v : View) (off : Int) (n : Nat) : Option Nat :=
  let c := m.ctx v.b.ctx
  if 3 ≤ c.tlsLog.toNat ∧ c.tlsLog.toNat ≤ 20 ∧ 0 ≤ off ∧ off + n ≤ 2 ^ c.tlsLog.toNat
  then some (c.tlsBase + ((v.b.tlslot * 32 + v.warp) * 32 + v.lane) * 2 ^ c.tlsLog.toNat + off.toNat) else none

/-! ## Calls and returns (R50) -/

/-- Every lane has room on its return stack, or no fence of its warp is outstanding: a spill is ordered as a store. -/
def roomOnStacks : List View → Mach → Prop := fun vs _ => ∀ v ∈ vs, v.l.rstack.length < 16 ∨ v.w.fence = none

/-- Every lane has an address on its return stack, or no fence of its warp is outstanding: a reload is ordered as a load. -/
def addressOnStacks : List View → Mach → Prop := fun vs _ => ∀ v ∈ vs, v.l.rstack ≠ [] ∨ v.w.fence = none

/-- The spill depth D that the launch declares. -/
def depthOf (m : Mach) (v : View) : Nat := match m.launch? v.b.launch with
  | none => 0
  | some l => l.rec_.spill

/-- A lane's stack is full on the chip and in its spill area: its next call overflows. -/
def stackFull (m : Mach) (v : View) : Prop := 16 ≤ v.l.rstack.length ∧ v.l.spill = depthOf m v

/-- A lane has no return address. -/
def stackEmpty (v : View) : Prop := v.l.rstack = [] ∧ v.l.spill = 0

/-- A call pushes the address after its clause. With 16 addresses on the chip and room in the spill area the oldest of them is stored
first: 8 bytes with VALID set (R51), at offset 8 k of the lane's thread-local window, with the masks of the guard and F. -/
def callAct (t : View → Option (BitVec 48)) (flow : View → Mask) (v : View) (m : Mach) : Option (Stored × Mach) :=
  match t v with
  | none => none
  | some t =>
    if v.l.rstack.length < 16
    then some (⟨.ok { next := .jump t, stack := some (v.q.next :: v.l.rstack, v.l.spill), pts := some v.l.pts, flow := flow v }, [], []⟩, m)
    else if v.l.spill = depthOf m v then none
    else match localAt m v (8 * v.l.spill) 8 with
      | none => none
      | some va => match m.storeVa v.mg v va (bytesOfNat (2 ^ 63 + (v.l.rstack.getLastD 0).toNat) 8) v.base v.pts with
        | (.error _, _) => none
        | (.ok (st, dev), m) =>
          let stack := (v.q.next :: v.l.rstack.dropLast, v.l.spill + 1)
          some (⟨.ok { next := .jump t, stack := some stack, pts := some st, flow := flow v }, dev, []⟩, m)

/-- A return pops the newest address. With none on the chip it loads the entry at offset 8 (k - 1) of the window, which must be a
valid one, and F receives the mask of what it read (R465). -/
def returnAct (v : View) (m : Mach) : Option (Done × Mach) :=
  match v.l.rstack with
  | t :: rest => some ({ next := .jump t, stack := some (rest, v.l.spill) }, m)
  | [] =>
    if v.l.spill = 0 then none
    else match localAt m v (8 * (v.l.spill - 1 : Nat)) 8 with
      | none => none
      | some va => match m.loadNow v.mg v va 8 v.pts with
        | (.error _, _) => none
        | (.ok x, m) =>
          let e := BitVec.ofNat 64 (natOfBytes x.bytes)
          if e.getLsbD 63 = true ∧ e.extractLsb' 48 15 = 0 ∧ e.extractLsb' 0 2 = 0
          then some ({ next := .jump (e.extractLsb' 0 48), stack := some ([], v.l.spill - 1), pts := some x.stamp, flow := x.tag }, m)
          else none

/-! ## Scratchpad addresses -/

/-- R370: the block and the address of the scratchpad form: bits [19:0] the offset, bit 31 the cluster window, bits [26:24] the
rank in it, every other bit zero. -/
def scratchAt (m : Mach) (v : View) (base : BitVec 64) (x : Int) (n : Nat) : Option (Nat × Nat) :=
  let a : Int := ((base.extractLsb' 0 20).toNat : Int) + x
  let q := (base.extractLsb' 24 3).toNat
  let win := base.getLsbD 31
  if base &&& ~~~0x870FFFFF#64 ≠ 0 ∨ (win = false ∧ q ≠ 0) then none
  else
    let bid := if win then (if h : q < v.b.peers.length then some v.b.peers[q] else none) else some v.q.bid
    match bid with
    | none => none
    | some bid => match m.block? bid with
      | none => none
      | some blk => if 0 ≤ a ∧ a + n ≤ blk.spadSize then some (bid, a.toNat) else none

/-! ## Loads -/

/-- Bytes that a load of each size reads, and registers that it fills (R431). -/
def sizeOfLoad : LoadSize → Nat
  | .u8 => 1
  | .s8 => 1
  | .u16 => 2
  | .s16 => 2
  | .b32 => 4
  | .b64 => 8
  | .b128 => 16
def regsOfLoad : LoadSize → Nat
  | .u8 => 1
  | .s8 => 1
  | .u16 => 1
  | .s16 => 1
  | .b32 => 1
  | .b64 => 2
  | .b128 => 4

/-- Word k of little-endian bytes. -/
def wordAt (bs : List Byte) (k : Nat) : Word := BitVec.ofNat 32 (natOfBytes ((bs.drop (4 * k)).take 4))

/-- R431: the words of the range, a byte or half extended as the size says. -/
def filled (z : LoadSize) (bs : List Byte) : List Word :=
  match z with
  | .u8 => [BitVec.ofNat 32 (natOfBytes bs)]
  | .u16 => [BitVec.ofNat 32 (natOfBytes bs)]
  | .s8 => [(BitVec.ofNat 8 (natOfBytes bs)).signExtend 32]
  | .s16 => [(BitVec.ofNat 16 (natOfBytes bs)).signExtend 32]
  | .b32 => [wordAt bs 0]
  | .b64 => [wordAt bs 0, wordAt bs 1]
  | .b128 => [wordAt bs 0, wordAt bs 1, wordAt bs 2, wordAt bs 3]

/-- The words in the range at `d`, in order. -/
def rangeOuts (d : Operand) (l : List Word) : List Out := l.zipIdx.map fun x => { dst := d, k := x.2, val := x.1 }

/-- What an element that loaded `l` receives (R431, R432): the words, the mask of what it read, the load's stamp. -/
def loadDone (d : Operand) (z : LoadSize) (l : Loaded) : Done :=
  { outs := rangeOuts d (filled z l.bytes), tag := l.tag, pts := some l.stamp }

/-- A load at a virtual address. -/
def loadAct (d : Operand) (z : LoadSize) (addr : View → Mach → Option Nat) (v : View) (m : Mach) : Option (Done × Mach) :=
  match addr v m with
  | none => none
  | some va => match m.loadVa v.mg v va (sizeOfLoad z) v.pts with
    | (.error _, _) => none
    | (.ok l, m) => some (loadDone d z l, m)

/-- A load from scratchpad. -/
def loadSpAct (d : Operand) (z : LoadSize) (a : Operand) (x : View → Int) (v : View) (m : Mach) : Option (Done × Mach) :=
  match scratchAt m v (v.val64 1 a) (x v) (sizeOfLoad z) with
  | none => none
  | some (bid, ad) => match m.loadSp bid ad (sizeOfLoad z) v.pts with
    | (.error _, _) => none
    | (.ok l, m) => some (loadDone d z l, m)

/-- No element's load has to wait for holders to drain (R148). -/
def noWrings (h : Head) (z : LoadSize) (addr : View → Mach → Option Nat) (tau : View → Word) (vs : List View) (m : Mach) : Prop :=
  ∀ v ∈ acting h false vs, ∀ va, addr v m = some va → m.wringsOfLoad v.mg v va (sizeOfLoad z) (tau v) = []

/-- The offset of form B: the signed index register, shifted by SH (R429). -/
def indexed2 (b : Operand) (sh : BitVec 2) (v : View) : Int := (v.val 2 b).toInt * 2 ^ sh.toNat

/-- A load: latency V, ordered after an outstanding fence. -/
def LoadsVa (i : Instr) (h : Head) (g : Guard) (z : LoadSize) (d a : Operand) (more : Owner → List Bool) (moreSrcs : List Src)
    (addr : View → Mach → Option Nat) (tau : View → Word) : Prop :=
  Effects i h g .later false true true allScopes
    (fun ow _ => allOf ([admits ow (dstVSZ ow) (regsOfLoad z) d, admits ow srcVS 2 a] ++ more ow)) (fun _ => ⟨1, a, 2⟩ :: moreSrcs)
    (noWrings h z addr tau) (eachActs (loadAct d z addr))

def LoadsSp (i : Instr) (h : Head) (g : Guard) (z : LoadSize) (d a : Operand) (more : Owner → List Bool) (moreSrcs : List Src)
    (x : View → Int) : Prop :=
  Effects i h g .later false true true allScopes
    (fun ow _ => allOf ([admits ow (dstVSZ ow) (regsOfLoad z) d, admits ow srcVS 2 a] ++ more ow)) (fun _ => ⟨1, a, 2⟩ :: moreSrcs)
    anyTime (eachActs (loadSpAct d z a x))

/-! ## Stores -/

def sizeOfStore : StoreSize → Nat
  | .b8 => 1
  | .b16 => 2
  | .b32 => 4
  | .b64 => 8
  | .b128 => 16
def regsOfStore : StoreSize → Nat
  | .b8 => 1
  | .b16 => 1
  | .b32 => 1
  | .b64 => 2
  | .b128 => 4

/-- R478: the low bytes of the words that DST names, little-endian. -/
def storedBytes (z : StoreSize) (d : Operand) (v : View) : List Byte :=
  ((v.vals 0 d (regsOfStore z)).flatMap fun w => bytesOfNat w.toNat 4).take (sizeOfStore z)

/-- The sources of a store: the data, the address, and more. -/
def storeSources (z : StoreSize) (d a : Operand) (more : List Src) : List Src := ⟨0, d, regsOfStore z⟩ :: ⟨1, a, 2⟩ :: more

/-- Stores of the elements in order, each `f` with the ranges it wrote; then whole units that they covered are made good
(R304, R480, R506). -/
def storeActs (f : View → Mach → Option (Stored × Mach)) (vs : List View) (m : Mach) : Option (List Done × Mach) :=
  let r := vs.foldl (fun (acc : Option (List Done × List (Nat × Nat) × List SpadRange × Mach)) v =>
    match acc with
    | none => none
    | some (ds, dev, spad, m) => match f v m with
      | none => none
      | some (s, m) => match s.effect with
        | .error _ => none
        | .ok d => some (ds ++ [d], dev ++ s.dev, spad ++ s.spad, m)) (some ([], [], [], m))
  match r with
  | none => none
  | some (ds, dev, spad, m) => some (ds, (dedup (spad.map (·.bid))).foldl (fun m bid => m.closeSpad bid spad) (m.healDev dev))

/-- A store at a virtual address: its stamp is the element's new one. -/
def storeAct (z : StoreSize) (d : Operand) (srcs : List Src) (addr : View → Mach → Option Nat) (v : View) (m : Mach) :
    Option (Stored × Mach) :=
  match addr v m with
  | none => none
  | some va => match m.storeVa v.mg v va (storedBytes z d v) (v.tags srcs ||| v.base) v.pts with
    | (.error _, _) => none
    | (.ok (st, dev), m) => some (⟨.ok { pts := some st }, dev, []⟩, m)

/-- A store to scratchpad. -/
def storeSpAct (z : StoreSize) (d a : Operand) (srcs : List Src) (x : View → Int) (v : View) (m : Mach) :
    Option (Stored × Mach) :=
  match scratchAt m v (v.val64 1 a) (x v) (sizeOfStore z) with
  | none => none
  | some (bid, ad) =>
    let data := v.tags srcs ||| v.base
    let (st, m) := m.storeSp bid ad (storedBytes z d v) data v.pts
    some (⟨.ok { pts := some st }, [], [⟨bid, ad, sizeOfStore z, data⟩]⟩, m)

/-- What a store's data position admits (R478). -/
def dataKinds (z : StoreSize) : Kinds :=
  match z with
  | .b8 => srcInt
  | .b16 => srcInt
  | .b32 => srcInt
  | .b64 => srcVSZ
  | .b128 => srcVSZ

def Stores (i : Instr) (h : Head) (g : Guard) (z : StoreSize) (d a : Operand) (more : Owner → List Bool) (moreSrcs : List Src)
    (f : View → Mach → Option (Stored × Mach)) : Prop :=
  Effects i h g .later false true true allScopes
    (fun ow _ => allOf ([admits ow (dataKinds z) (regsOfStore z) d, admits ow srcVS 2 a] ++ more ow))
    (fun _ => storeSources z d a moreSrcs) anyTime (storeActs f)

/-! ## Reports -/

/-- R414: the report of the set that the warp would join at gang or block scope. -/
def setReport (m : Mach) (blk : Bool) (v : View) : List Word :=
  match m.setOf v.b (if blk then .block else .gang) v.warp with
  | none => [0, 0, 0x80000000, 0]
  | some (slot, members) =>
    let there (w : Nat) : Bool := match tabFind v.b.slots slot with
      | none => false
      | some s => match tabFind v.b.warps w with
        | none => true
        | some x => x.ended || (tabHas s.arrived w && !x.suspended)
    let state : Nat := match tabFind v.b.slots slot with
      | none => 0
      | some s => if s.executing then 2 else 1
    [maskOf members, maskOf (members.filter there),
      BitVec.ofNat 32 ((members.findIdx? (· == v.warp)).getD 0 + 2 ^ 5 * members.length + 2 ^ 11 * state), 0]

/-- R481: the mask of the source, joined to the result's. -/
def taggetAct (d a : Operand) (v : View) (m : Mach) : Option (Done × Mach) :=
  match handleTag m v.q.bid a with
  | none => some ({ outs := [{ dst := d, val := (v.rd 1 a 0).tag.setWidth 32 }] }, m)
  | some none => none
  | some (some t) => some ({ outs := [{ dst := d, val := t.setWidth 32 }], tag := t }, m)

/-! ## Signals and spawns -/

/-- R474, R475. -/
def signalled (m : Mach) (ctx : Nat) (t : Word) : Mach :=
  if t = 0x3FF then { m with signals := m.signals ++ [.manager, .msix (deviceOf ctx) 1] }
  else match tabFind m.queues t.toNat with
    | none => m
    | some q =>
      if t.toNat < 512 ∧ q.fn = deviceOf ctx ∧ q.state = .enabled ∧ q.log2n ≠ 0
      then { m with queues := tabSet m.queues t.toNat { q with woken := true } } else m

/-- R55: the record of a lane: its entry, key, arguments and the union of the masks of the registers it is built from. -/
def recordOf (a b c : Operand) (v : View) : SpawnRec :=
  { entry := (v.val64 1 a).setWidth 48, key := (v.val 2 b).setWidth 16
    args := if isZero c then [0, 0, 0, 0] else v.vals 3 c 4
    tag := v.tags [⟨1, a, 2⟩, ⟨2, b, 1⟩, ⟨3, c, 4⟩] ||| v.base, pts := v.pts, lane := v.lane }

/-- R477: the launch declares brood slots, every entry is aligned, and the records are filed in order; when all are, the
instruction is over, and otherwise the lanes whose records are left wait. -/
def spawnActs (a b c : Operand) (vs : List View) (m : Mach) : Option (List Done × Mach) :=
  match vs with
  | [] => some ([], m)
  | v0 :: _ =>
    if ((m.recOf v0.b).map (·.brood)).getD 0 = 0 ∨ ∃ v ∈ vs, (v.val64 1 a).toNat % 4 ≠ 0 then none
    else
      let (left, opened, m) := (m.ripenDue v0.b.core).fileAll v0.mg v0.b v0.q.bid (vs.map (recordOf a b c)) []
      if left.isEmpty then some (vs.map fun _ => { closed := true }, m.closeSpawn v0.b opened)
      else some (vs.map fun v => if left.any (·.lane == v.lane) then { next := .wait .spawn } else {},
        m.modWarp v0.q.bid v0.warp fun w =>
          { w with spawns := w.spawns ++ [{ recs := left, flight := some v0.id, next := v0.q.seqPc, opened := opened }] })

/-! ## Plain places -/

/-- The n bytes at a virtual address lie within one page that is translated to `l`, at which nothing stops the access and nothing
stands before it: its line is not damp, not claimed, not held, and none of its bytes is uncorrectable. -/
structure plainLoc (m : Mach) (mg : Mgmt) (v : View) (va n : Nat) (l : Loc) : Prop where
  inPage    : va % 65536 + n ≤ 65536
  found     : m.locate1 mg v.actor va n = (⟨va, n, .ok l⟩, m)
  ordinary  : l.leaf.damp = false
  whole     : ∀ pa, l.place = .dev pa → m.badRange (m.viewOf v.actor l.leaf) pa n = false
  free      : ∀ pa, l.place = .dev pa → tabFind m.claims (lineOf pa) = none ∧ tabFind m.heldBy (lineOf pa) = none

/-- No L1 of the core holds a copy of the line. -/
def noCopies (m : Mach) (core pa : Nat) : Prop := tabFind (m.core core).l1 (lineOf pa) = none

/-! ## Atomics -/

/-- The run of an operation in which no element stops. -/
def completed (run : List View → Mach → List Effect × Mach) (vs : List View) (m : Mach) : Option (List Done × Mach) :=
  let (es, m) := run vs m
  let ds := es.filterMap fun e => match e with
    | .ok d => some d
    | .error _ => none
  if ds.length = es.length ∧ ds.length = vs.length then some (ds, m) else none

/-- R373: the value stored, of operands of w bits. -/
def atomValue (op : AtomOp) (w : Nat) (u : Bool) (old x : Nat) : Nat :=
  let val (y : Nat) : Int := if u then y else (BitVec.ofNat w y).toInt
  match op with
  | .add => (old + x) % 2 ^ w
  | .fadd => (roundF32 .rne false (FVal.sum .rne [f32 (BitVec.ofNat 32 old), f32 (BitVec.ofNat 32 x)])).toNat
  | .min => if val x < val old then x else old
  | .max => if val old < val x then x else old
  | .and => old &&& x
  | .or => old ||| x
  | .xor => old ^^^ x
  | .xchg => x
  | .incsat => if old < x then old + 1 else old

/-- R374: the old value, then the stamp, in the registers that the modifiers ask for. -/
def atomResults (ret stamp wide : Bool) (d : Operand) (old : BitVec 64) (st : Nat) : List Out :=
  let o := [old.setWidth 32, if wide then (old >>> 32).setWidth 32 else 0]
  let s := [BitVec.ofNat 32 st, BitVec.ofNat 32 (st / 2 ^ 32)]
  rangeOuts d (match ret, stamp with
    | false, false => []
    | true, false => o.take (if wide then 2 else 1)
    | false, true => s
    | true, true => o ++ s)

/-- R375, R376: a lane's read-modify-write at its checked target outside damp memory; the mask of what it read joins its
results (R302), and its stamp, unless another module's, raises the lane's. -/
def atomAct (mo : AtomMods) (d a b : Operand) (v : View) (m : Mach) : Option (Done × Mach) :=
  let n := if mo.wide then 8 else 4
  let data := v.tags [⟨1, a, 2⟩, ⟨2, b, n / 4⟩] ||| v.base
  let x : BitVec 64 := if mo.wide then v.val64 2 b else (v.val 2 b).setWidth 64
  match m.target v (v.val64 1 a) n mo.ms ((mo.op == .add || mo.op == .xchg) && !mo.stamp) true data with
  | (.error _, _) => none
  | (.ok t, m) =>
    if (m.dampOf v t).isSome then none
    else
      let (old, st, m) := m.rmw v t mo.ms n (atomF mo x) data v.pts
      some ({ outs := atomResults mo.ret mo.stamp mo.wide d (BitVec.ofNat 64 (natOfBytes old)) st, tag := t.tag
              pts := some (ownStamp t st v.pts) }, m)

/-- R387: a compare and swap, outside damp memory. -/
def casAct (mo : CasMods) (d a b c : Operand) (v : View) (m : Mach) : Option (Done × Mach) :=
  let n := if mo.wide then 8 else 4
  let data := v.tags [⟨1, a, 2⟩, ⟨2, b, n / 4⟩, ⟨3, c, n / 4⟩] ||| v.base
  let x (pos : Nat) (o : Operand) : BitVec 64 := if mo.wide then v.val64 pos o else (v.val pos o).setWidth 64
  match m.target v (v.val64 1 a) n mo.ms (!mo.stamp) true data with
  | (.error _, _) => none
  | (.ok t, m) =>
    if (m.dampOf v t).isSome then none
    else
      let (old, st, m) := m.rmw v t mo.ms n (casF mo.wide (x 2 b) (x 3 c)) data v.pts
      some ({ outs := atomResults true mo.stamp mo.wide d (BitVec.ofNat 64 (natOfBytes old)) st, tag := t.tag
              pts := some (ownStamp t st v.pts) }, m)

/-- What the destination of an atomic admits (R374, R386). -/
def atomDest (ow : Owner) (ret stamp wide : Bool) (d : Operand) : Bool :=
  match ret, stamp with
  | false, false => admits ow onlyZero 1 d
  | true, false => admits ow (dstVS ow) (if wide then 2 else 1) d
  | false, true => admits ow (dstVS ow) 2 d
  | true, true => admits ow (dstVS ow) 4 d

/-- R470: what each key receives, in order, from the counts and the records per bin. -/
def binResults (nbins cap : Nat) (count : Nat → Nat) : List Nat → List Word
  | [] => []
  | k :: r =>
    if nbins ≤ k then 0xFFFFFFFE :: binResults nbins cap count r
    else (if count k < cap then BitVec.ofNat 32 (count k) else 0xFFFFFFFF) ::
      binResults nbins cap (fun j => if j = k then min (count k + 1) (2 ^ 32 - 1) else count j) r

/-! ## Barriers -/

/-- R379: one read-modify-write of the barrier object at the element's address, outside damp memory; the token of the phase
before it. -/
def barAct (mo : BarrierMods) (d a : Operand) (srcs : List Src) (f : View → Option (BarObj → BarObj)) (v : View) (m : Mach) :
    Option (Done × Mach) :=
  let data := v.tags srcs ||| v.base
  match f v, m.target v (v.val64 1 a) 8 mo.ms false true data with
  | some f, (.ok t, m) =>
    if (m.dampOf v t).isSome then none
    else
      let (old, st, m) := m.rmw v t mo.ms 8
        (fun bs => bytesOfNat (f (barOf (BitVec.ofNat 64 (natOfBytes bs)))).pack.toNat 8) data v.pts
      some ({ outs := [{ dst := d, val := (barOf (BitVec.ofNat 64 (natOfBytes old))).phase.setWidth 32 }], tag := t.tag
              pts := some (ownStamp t st v.pts) }, m)
  | _, _ => none

/-- BINIT, BARV and BEXP. -/
def UpdatesBarrier (i : Instr) (f : FormB BarrierMods) (n : Nat) (u : View → Option (BarObj → BarObj)) : Prop :=
  Effects i f.h f.g .later false true true allScopes
    (fun ow _ => allOf [admits ow (dstVSZ ow) 1 f.d, admits ow srcVS 2 f.a, n == 0 || admits ow srcVS 1 f.b])
    (fun _ => [⟨1, f.a, 2⟩, ⟨2, f.b, n⟩]) anyTime (eachActs (barAct f.m f.d f.a [⟨1, f.a, 2⟩, ⟨2, f.b, n⟩] u))

/-- BTEST of an object in scratchpad: all four bits, whether the phase differs from the token (R379). -/
def btestAct (mo : BarrierMods) (d a b : Operand) (v : View) (m : Mach) : Option (Done × Mach) :=
  match m.target v (v.val64 1 a) 8 mo.ms false false 0 with
  | (.error _, _) => none
  | (.ok t, m) => match t.place with
    | .spad bid x =>
      let (bs, st, m) := m.loadSpad bid x 8 v.pts
      some ({ outs := [{ dst := d, val :=
                if (barOf (BitVec.ofNat 64 (natOfBytes bs))).phase ≠ (v.val 2 b).setWidth 7 then 0b1111 else 0 }]
              tag := t.tag, pts := some st }, m)
    | .dev _ => none
    | .host _ => none
    | .peer _ _ => none

/-- BWAIT on an object in scratchpad (R380, R381): passed already, it is over; else the element waits for the object. -/
def bwaitAct (mo : BarrierMods) (a b : Operand) (v : View) (m : Mach) : Option (Done × Mach) :=
  match m.target v (v.val64 1 a) 8 mo.ms false false 0 with
  | (.error _, _) => none
  | (.ok t, m) => match t.place with
    | .spad bid x =>
      let o := barOf (BitVec.ofNat 64 (natOfBytes (m.spadBytes bid x 8)))
      let token := (v.val 2 b).setWidth 7
      if o.phase ≠ token then
        let (st, m) := m.leaseSpad bid (x / 64) v.pts
        some ({ pts := some st, flow := t.tag, closed := true }, m)
      else some ({ next := .wait (.barrier t.place token t.tag o.ext v.id) }, m)
    | .dev _ => none
    | .host _ => none
    | .peer _ _ => none

end Sys2Proof.Machine
end

