-- ==== Sys2Proof/Safety/Units.lean ====
section
/-! DEFINITION. What the acting elements of the instructions for units do: fences, engine commands, tiles, the release gate,
control registers. -/

namespace Sys2Proof.Machine

/-! ## Fences -/

/-- The commands of a warp that its core has queued or its block keeps (R132). -/
def warpCommands (m : Mach) (v : View) : List Command :=
  let c := m.core v.b.core
  (c.mq ++ c.chans.cells.flatMap (fun x => x.2.cmds) ++ v.b.keptMx ++ v.b.keptCh.map (·.2)).filter fun x =>
    x.bid == v.q.bid && x.warp == v.warp

/-- The fence of R411 over the active lanes: each lane's mask, and what it waits for. -/
def fenceOf (k : FenceKind) (d : Operand) (v : View) (vs : List View) (m : Mach) : Fence :=
  let lanes := maskOf (vs.map (·.lane))
  { kind := k, lanes := lanes, flight := v.id, dst := d, scope := v.scope, tags := vs.map fun x => (x.lane, x.base)
    waits := match k with
      | .posted => []
      | .engine => (warpCommands m v).map (·.id)
      | .sys => (m.posted.filter fun p => p.lanes.any fun l =>
          l.bid == v.q.bid && l.warp == v.warp && lanes.getLsbD l.lane).map (·.id) }

/-- A fence stands outstanding in its warp; FENCE.POSTED first sends the lanes' combining entries (R131), and owes the pair it
names. -/
def fenceAct (k : FenceKind) (d : Operand) (vs : List View) (m : Mach) : Option (List Done × Mach) :=
  match vs with
  | [] => some ([], m)
  | v :: _ =>
    let mine (l : PressLane) : Bool := l.bid == v.q.bid && l.warp == v.warp && (maskOf (vs.map (·.lane))).getLsbD l.lane
    let m := if k = .posted then m.sendEntries fun r => r.lanes.any mine else m
    let owed := if k = .posted ∧ isZero d = false then [(d, 0), (d, 1)] else []
    some (vs.map fun _ => { owed := owed }, m.modWarp v.q.bid v.warp fun w => { w with fence := some (fenceOf k d v vs m) })

/-! ## Blocks of 64 bytes in scratchpad (R211, R230, R309) -/

structure FoundBlock where
  addr  : Nat
  bits  : BitVec 512
  tag   : Mask
  stamp : Nat
  mach  : Mach

/-- An aligned block within the scratchpad, without uncorrectable data, read as one load. -/
def blockAt (a : Operand) (v : View) (m : Mach) : Option FoundBlock :=
  let x := (v.val 1 a).toNat
  match m.block? v.q.bid with
  | none => none
  | some b =>
    if x % 64 = 0 ∧ x + 64 ≤ b.spadSize ∧ x < 2 ^ 20 ∧ b.spadBad.contains (x / 64) = false then
      let (st, m) := m.leaseSpad v.q.bid (x / 64) v.pts
      some ⟨x, BitVec.ofNat 512 (natOfBytes (memRead b.spad x 64)), tabGet b.spadTags (x / 64) 0, st, m⟩
    else none

/-! ## Engine commands -/

/-- A new command of the issuing warp, which waits for what REL = 1 asks for (R126). -/
def commandOf (v : View) (m : Mach) (op : EngineOp) (addr tile handle : Nat) (srcs : List Src) (rel : Bool) (scp : Nat) : Command :=
  { id := m.ids, bid := v.q.bid, warp := v.warp, op := op, addr := addr, tile := tile, handle := handle
    tags := v.tags srcs ||| v.base, flight := some v.id, waits := if rel then m.relWaits v scp else [], panel := 0, row := 0
    offset := 0, begun := false, fwait := none, ready := false, stamp := 0 }

/-- R231, R232: the command is the last of its context's channel on its core. -/
def kickAct (tier : Bool) (a : Operand) (v : View) (m : Mach) : Option (Done × Mach) :=
  match blockAt a v m with
  | none => none
  | some c =>
    let chan := c.bits.extractLsb' 4 3
    let key := 8 * v.b.ctx + chan.toNat
    let cmd := commandOf v c.mach (.copy c.bits c.tag tier) c.addr 0 0 [⟨1, a, 1⟩] (c.bits.getLsbD 20) (c.bits.extractLsb' 21 2).toNat
    some ({ pts := some c.stamp }, ({ c.mach with ids := c.mach.ids + 1 } : Mach).modCore v.b.core fun x =>
      { x with chans := tabSet x.chans key ⟨(tabGet x.chans key ⟨[]⟩).cmds ++ [cmd]⟩
               kick := BitVec.ofNat 32 (c.addr + chan.toNat * 2 ^ 20 + (if tier then 2 ^ 23 else 0)) })

/-- The command is the last of the core's matrix queue (R212). -/
def queuedMx (v : View) (m : Mach) (c : Command) : Mach :=
  ({ m with ids := m.ids + 1 } : Mach).modCore v.b.core fun x => { x with mq := x.mq ++ [c] }

/-- R211, R213: an MMA takes the tile that its handle names as it issues. -/
def mmaAct (a : Operand) (v : View) (m : Mach) : Option (Done × Mach) :=
  match blockAt a v m with
  | none => none
  | some c =>
    let h := (c.bits.extractLsb' 14 4).toNat
    match (c.mach.block? v.q.bid).bind fun b => tabFind b.handles h with
    | none => none
    | some t => some ({ pts := some c.stamp }, queuedMx v c.mach
      (commandOf v c.mach (.mma c.bits c.tag) c.addr t h [⟨1, a, 1⟩] (c.bits.getLsbD 49) (c.bits.extractLsb' 50 2).toNat))

/-- R484: a TDRAIN of a bound handle. -/
def tdrainAct (mo : DrainMods) (d a b : Operand) (v : View) (m : Mach) : Option (Done × Mach) :=
  match d with
  | .a n => match (m.block? v.q.bid).bind fun x => tabFind x.handles n.toNat with
    | none => none
    | some t => some ({}, queuedMx v m (commandOf v m (.drain mo (v.val64 1 a).toNat (v.val 2 b).toNat) 0 t n.toNat
      [⟨1, a, 2⟩, ⟨2, b, 1⟩] mo.rel mo.scp.toNat))
  | .v _ | .s _ | .p _ | .zero | .laneId | .warpId | .gangId | .blockId | .coreId | .clusId | .ones | .bad _ => none

/-! ## Tiles -/

/-- The lanes of the element set, by warp. -/
def setLanes (v : View) : List (Nat × LaneMask) :=
  (dedup (v.set.map (·.warp))).map fun w => (w, maskOf ((v.set.filter (·.warp == w)).map (·.lane)))

/-- R206, R207: a TALLOC that would pass the launch's maximum is answered at once with status 2; any other waits its turn. -/
def tallocAct (n : Nat) (d : Operand) (v : View) (m : Mach) : Option (Done × Mach) :=
  match m.block? v.q.bid with
  | none => none
  | some b =>
    if b.handles.cells.length + n > ((m.recOf b).map (·.tmax)).getD 0
    then some ({ outs := rangeOuts d [0x20000], closed := true }, m)
    else
      let r : TileReq :=
        { bid := v.q.bid, warp := v.warp, n := n, dst := d, tags := v.base
          lanes := (setLanes v).map fun x => (x.1, x.2, some v.id), id := v.id }
      some ({ owed := if isZero d then [] else [(d, 0)], next := .wait .talloc },
        m.modCore b.core fun c => { c with tileQ := c.tileQ ++ [r] })

/-- R210: a TFREE of a handle above the guarantee unbinds it; the tile is released once the commands queued before it are over. -/
def tfreeAct (a : Operand) (v : View) (m : Mach) : Option (Done × Mach) :=
  match m.block? v.q.bid, a with
  | some b, .a n => match tabFind b.handles n.toNat with
    | none => none
    | some t =>
      if n.toNat < ((m.recOf b).map (·.tguar)).getD 0 then none
      else
        let waits := (((m.core b.core).mq ++ b.keptMx).filter fun c => c.bid == v.q.bid && c.tile == t).map (·.id)
        let m := m.setBlock v.q.bid { b with handles := tabErase b.handles n.toNat }
        some ({}, m.modCore b.core fun c => { c with tiles := tabMod c.tiles t fun x =>
          { x with free := some (waits, (setLanes v).map fun x => (x.1, v.id)) } })
  | _, _ => none

/-! ## The release gate and control registers -/

/-- R309, R313: the request is the last of the gate's queue; it waits for the warp's posted presses. -/
def relgAct (d a : Operand) (v : View) (m : Mach) : Option (Done × Mach) :=
  match blockAt a v m with
  | none => none
  | some c =>
    let mine (r : PressReq) : Bool := r.reply.isNone && r.lanes.any fun l => l.bid == v.q.bid && l.warp == v.warp
    let g : GateReq :=
      { id := c.mach.ids, bid := v.q.bid, warp := v.warp, ctx := v.b.ctx, launch := v.b.launch, block := c.bits, blockTag := c.tag
        tags := v.tags [⟨1, a, 1⟩] ||| v.base, dst := d, flight := v.id, waits := (c.mach.presses.filter mine).flatMap (·.ids) }
    some ({ owed := if isZero d then [] else [(d, 0)], pts := some c.stamp },
      { c.mach with ids := c.mach.ids + 1, gate := c.mach.gate ++ [g] })

/-- Registers that CSRD fills, of the CSRs that R391 lists. -/
def csrRegs : Nat → Option Nat
  | 0x100 => some 2
  | 0x101 => some 1
  | 0x102 => some 1
  | 0x103 => some 2
  | 0x104 => some 2
  | 0x110 => some 1
  | 0x111 => some 1
  | 0x112 => some 1
  | 0x113 => some 1
  | 0x114 => some 1
  | 0x120 => some 1
  | 0x140 => some 2
  | n => if n / 8 = 0x26 then some 2 else if n / 8 = 0x27 then some 1 else none

/-- CSRD (R390, R391, R393): the value in one register or a pair; a read of CH.WPTR observes the completions it covers. -/
def csrdAct (n : Nat) (d : Operand) (v : View) (m : Mach) : Option (Done × Mach) :=
  match csrRegs n with
  | none => none
  | some k =>
    let x := csrValue v m n
    some ({ outs := rangeOuts d ([x.setWidth 32, (x >>> 32).setWidth 32].take k), pts := some (wptrStamp v m n) }, m)

/-- CSRW (R393): the write takes effect when it completes. -/
def csrwAct (n : Nat) (a : Operand) (v : View) (m : Mach) : Option (Done × Mach) :=
  some ({}, m.modWarp v.q.bid v.warp fun w => { w with csrw := w.csrw ++ [(v.id, n, v.val 1 a)] })

end Sys2Proof.Machine
end

