-- ==== Sys2Proof/Safety/Events.lean ====
section
/-! DEFINITION. Words for the statements about steps of the part and inputs from outside. -/

namespace Sys2Proof.Machine

/-- The step answers a next state, of which `p` holds. -/
def Does (i : Instr) (s : State) (p : State → Prop) : Prop := ∃ t, exec i s = .next t ∧ p t

/-- The step changes the machine to `m` and nothing else. -/
def Makes (i : Instr) (s : State) (m : Mach) : Prop := exec i s = .next { s with mach := m }

/-- The module is on (R335). -/
def isOn (s : State) : Prop := s.mgmt.power = .on

/-- No byte of any memory changes. -/
def sameMemory (m m' : Mach) : Prop := m'.mem = m.mem ∧ m'.hostMem = m.hostMem ∧ m'.peerMem = m.peerMem

/-- No register of any warp changes. -/
def sameRegisters (m m' : Mach) : Prop :=
  ∀ bid k r, (m'.warp? bid k).map (·.getReg r) = (m.warp? bid k).map (·.getReg r)

/-- Warp `w` stands in block `b` of the machine. -/
structure Stands (m : Mach) (bid k : Nat) (b : Block) (w : Warp) : Prop where
  block : tabFind m.blocks bid = some b
  warp  : tabFind b.warps k = some w

/-- The device memory outside `n` bytes at `pa` reads as before. -/
def restReads (m m' : Mach) (pa n : Nat) : Prop := ∀ a, a < pa ∨ pa + n ≤ a → memGet m'.mem a = memGet m.mem a

/-- A range of device memory that holds plain bytes: not sealed, not waiting to be cleared, none of them uncorrectable. -/
structure plainRange (m : Mach) (pa n : Nat) : Prop where
  good    : m.badRange none pa n = false
  clear   : ∀ a, pa ≤ a → a < pa + n → m.scrub.contains (granuleOf a) = false
  unsealed : ∀ a, pa ≤ a → a < pa + n → tabFind m.side (lineOf a) = none

/-! ## Loads that waited for wrings -/

/-- The machine once load `id` no longer waits: its mark is gone and its warp may go on (R148). -/
def State.unwrung (s : State) (id : Nat) (q : Issue) : State :=
  { s with mach := ({ s.mach with wrung := s.mach.wrung.filter (·.id != id) } : Mach).modWarp q.bid q.warp fun w =>
      if w.block = some (.wrung id) then { w with block := none } else w }

/-- A load that waited for wrings is performed when the drains that it waits for have been applied and, by `calm`, no line of it
has more outstanding than it tolerates: as at an issue, of the machine as it now stands. -/
def EffectAtWrung (i : Instr) (h : Head) (g : Guard) (srcs : List Src) (calm : List View → Mach → Prop)
    (act : List View → Mach → Option (List Done × Mach)) : Prop :=
  ∀ s id x b w ds m' b' w0, isOn s → s.mach.wrung.find? (·.id == id) = some x → x.instr = i → x.slot = none →
    (∀ y ∈ s.mach.wrung, y.id ≠ id → y.issue ≠ x.issue) →
    (∀ d ∈ s.mach.drains, (d.line, d.holder) ∉ x.wait) → Stands (s.unwrung id x.issue).mach x.issue.bid x.issue.warp b w →
    w.lanes.length = 32 → (h.scope = .lane ∨ h.scope = .warp) → noShort s b w → noHeld s →
    calm (elements (s.unwrung id x.issue) x.issue b w h g 32) (s.unwrung id x.issue).mach →
    act (acting h false (elements (s.unwrung id x.issue) x.issue b w h g 32)) (s.unwrung id x.issue).mach.begun = some (ds, m') →
    m'.cycle = s.mach.cycle → tabFind m'.blocks x.issue.bid = some b' → tabFind b'.warps x.issue.warp = some w0 →
    w0.lanes.length = 32 →
    ∃ w', Makes (.wrungLoadPerform id) s ((m'.putWarp x.issue.bid x.issue.warp b' w').settleWarp s.mgmt x.issue.bid x.issue.warp) ∧
      (w'.goesOn → Makes (.wrungLoadPerform id) s (m'.putWarp x.issue.bid x.issue.warp b' w')) ∧
      EffectAfter x.issue (partsFor h false (elements (s.unwrung id x.issue) x.issue b w h g 32) ds) x.issue.warp x.issue.lanes
        none w0 w' h false srcs

/-! ## Contexts that are reset -/

/-- The tables of blocks, launches and contexts list rising numbers, each once. -/
def tablesRise (m : Mach) : Prop :=
  cellsRising m.blocks.cells = true ∧ cellsRising m.launches.cells = true ∧ cellsRising m.ctxs.cells = true

/-- R268: nothing of the context runs or is held, its press table and regions are empty, its launches are over, its queues are
faulted with cause 5, and the fatal entry is raised, or counted as dropped. -/
structure wasReset (m : Mach) (ctx why : Nat) : Prop where
  blocks   : ∀ bid b, tabFind m.blocks bid = some b → b.ctx ≠ ctx
  launches : ∀ k l, tabFind m.launches k = some l → l.ctx ≠ ctx
  press    : (m.ctx ctx).press = ⟨[]⟩
  regions  : (m.ctx ctx).regions = []
  holds    : (m.ctx ctx).holds = []
  world    : (m.ctx ctx).world = none
  queues   : ∀ q x, tabFind m.queues q = some x → x.ctx = some ctx → x.state = .faulted ∧ x.fcause = 5
  entry    : (∃ e ∈ (m.ctx ctx).fq, e.kind = 10 ∧ e.info0 = BitVec.ofNat 64 why) ∨ (m.ctx ctx).fqOvf = true

/-! ## Mailbox messages -/

/-- The message is the next that the management core expects of its function (R331). -/
structure Expected (s : State) (h : MboxHead) : Prop where
  on     : isOn s
  exists_ : h.fn < 64
  serves : (s.mgmt.fn h.fn).tdi ≠ .error
  next   : (s.mgmt.fn h.fn).inSeq = h.seq

/-- The module's management after the message is taken: what the host has up to its ACK need not be sent again (R331). -/
def Mgmt.taken (mg : Mgmt) (h : MboxHead) : Mgmt :=
  mg.modFn h.fn fun x => { x with inSeq := seqAfter h.seq, lastIn := h.seq, sent := afterAck h.ack x.sent }

/-- The reply `a` stands in the function's next slot, is kept, and raises vector 0 (R329, R330, R331): the function as `f` was
when the reply was written, and as `f'` is after it. -/
structure Answered (f f' : Fn) (m m' : Mach) (h : MboxHead) (cmd : Nat) (a : Answer) : Prop where
  ring   : f'.rings = memWrite f.rings (0x2400 + 64 * f.outSlot.toNat)
    (bytesOfNat (mbMessage f.outSeq h.seq cmd a).toNat 64)
  slot   : f'.outSlot = f.outSlot + 1
  seq    : f'.outSeq = seqAfter f.outSeq
  kept   : (h.seq, mbMessage f.outSeq h.seq cmd a) ∈ f'.kept
  vector : m'.signals = m.signals ++ [.msix h.fn 0]
  next   : f'.inSeq = seqAfter h.seq
  sent   : f'.sent = f.sent ++ [mbMessage f.outSeq h.seq cmd a]

/-- The command is taken and answered with `a`; `m` is the machine as it is then, but for the vector, and `mg` the module's
management but for its functions. -/
def Replies (i : Instr) (s : State) (h : MboxHead) (cmd : Nat) (a : Answer) (mg : Mgmt) (m : Mach) : Prop :=
  Does i s fun t => t.mach = { m with signals := m.signals ++ [.msix h.fn 0] } ∧ { t.mgmt with fns := mg.fns } = mg ∧
    (∀ k, k ≠ h.fn → t.mgmt.fn k = mg.fn k) ∧ Answered (mg.fn h.fn) (t.mgmt.fn h.fn) m t.mach h cmd a

/-! ## Applications of press requests -/

/-- Nothing is held for the line on its way home (R145). -/
def dryLine (m : Mach) (line : Nat) : Prop := (∀ t ∈ m.trackers, t.line ≠ line) ∧ ∀ d ∈ m.drains, d.line ≠ line

/-- The request stands at its slice, its turn has come, and its granule holds plain bytes of an unsealed page of this module, which
the site can read, the second time where the first read fails in transfer (R175); no holder of its lines would drain first. -/
structure Applicable (s : State) (r : PressReq) : Prop where
  on       : isOn s
  memories : s.mach.memoriesOk = true
  ready    : s.mach.pressReady r.id = some r
  here     : r.target = none
  page     : r.world = none
  dry      : ∀ l ∈ r.lines, dryLine s.mach l
  size     : 3 ≤ r.image.gran ∧ r.image.gran ≤ 10
  aligned  : r.granule % r.image.size = 0
  plain    : plainRange s.mach r.granule r.image.size
  read     : r.glitch = true → r.image.fact = 1 ∧ ∀ l ∈ r.lines, ∀ x, tabFind s.mach.lines l = some x → x.dirty = false

/-- The words of the granule. -/
def granuleWords (m : Mach) (r : PressReq) : List Word := wordsOfBytes (memRead m.mem r.granule r.image.size)

/-- The stamp of an application (R114, R174): not before the request's own, and past the lease of every line of the granule. -/
def pressStamp (m : Mach) (r : PressReq) : Nat := r.lines.foldl (fun st l => max st ((m.lineStamps l).rts + 1)) r.pts

/-- One application took place (R164): the granule holds what the image leaves, or what it held where no micro-operation stored;
every other byte reads as before, and each line of the granule has the application's stamp. -/
structure WasApplied (m m' : Mach) (r : PressReq) : Prop where
  granule : ∀ ws ret, applyImage r.image r.opnd r.parts (granuleWords m r) = (some ws, ret) →
    memRead m'.mem r.granule r.image.size = bytesOfWords ws
  kept    : ∀ ret, applyImage r.image r.opnd r.parts (granuleWords m r) = (none, ret) → m'.mem = m.mem
  rest    : restReads m m' r.granule r.image.size
  stamps  : ∀ l ∈ r.lines, m'.lineStamps l = ⟨pressStamp m r, pressStamp m r⟩
  far     : m'.hostMem = m.hostMem ∧ m'.peerMem = m.peerMem
  counted : m'.corrected = m.corrected + if r.glitch = true then 1 else 0

/-- R131: each lane of a posted request keeps the application's stamp for its fences; nothing else of any warp changes. -/
def toldLanes (m m' : Mach) (lanes : List PressLane) (st : Nat) : Prop :=
  sameRegisters m m' ∧ ∀ bid k b w i l, Stands m bid k b w → laneAt w i = some l → ∃ b' w', Stands m' bid k b' w' ∧
    laneAt w' i = some (if ⟨bid, k, i⟩ ∈ lanes then { l with posted := max l.posted st } else l)


/-! ## Engine commands -/

/-- The command at the head of a core's matrix queue, of a block that is there; what it waits for is over. -/
structure AtHead (s : State) (core : Nat) (c : Command) (rest : List Command) (b : Block) : Prop where
  on    : isOn s
  queue : (s.mach.core core).mq = c :: rest
  block : tabFind s.mach.blocks c.bid = some b
  goes  : c.fwait = none
  begin : s.mach.mayStart c = true

/-- The command has left its queue and its flight is over; registers and memory are unchanged. -/
structure LeftQueue (m m' : Mach) (core : Nat) (c : Command) (rest : List Command) : Prop where
  queue  : (m'.core core).mq = rest
  flight : ∀ id w, c.flight = some id → m'.warp? c.bid c.warp = some w → ∀ f ∈ w.flights, f.id ≠ id
  regs   : sameRegisters m m'

/-- An element of an integer format. -/
def FVal.ofInt (x : Int) : FVal := .fin (decide (x < 0)) x.natAbs 0

/-- Element (i, j) of the tile after panel `q`: what it held, if anything counts, with the products of the row and the column,
rounded once (R216). -/
def combined (p : MmaParams) (q : Nat) (t t' : Tile) (i j : Nat) (row col : List FVal) : Prop :=
  tabGet t'.words (64 * i + j) 0 =
    combine p.type (if q = 0 ∧ p.acc = false then none else some (tabGet t.words (64 * i + j) 0)) row col

/-- The command at the head of channel `chan` of a context on a core, of a block that is there. -/
structure AtChannel (s : State) (core ctx chan : Nat) (c : Command) (rest : List Command) (b : Block) : Prop where
  on    : isOn s
  legal : chan < 8
  queue : s.mach.chanCmds core (8 * ctx + chan) = c :: rest
  block : tabFind s.mach.blocks c.bid = some b

/-- Bytes that a COPY or FILL between scratchpad addresses delivers next: from its offset to the next multiple of 128 or the end
of the stream (R233). -/
def nextPart (p : CopyParams) (c : Command) : Nat := min p.total (128 * (c.offset / 128 + 1)) - c.offset

/-- The address of offset `o` of the stream, in the rows at `base` with stride `str` (R228). -/
def streamAddr (p : CopyParams) (base str o : Nat) : Nat := base + o / p.len * str + o % p.len

/-- What is delivered: the pattern of a FILL, or the bytes at the source. -/
def partBytes (p : CopyParams) (c : Command) (b : Block) : List Byte :=
  if p.op = 1 then (List.range (nextPart p c)).map fun i => p.pat.extractLsb' (8 * ((c.offset + i) % 4)) 8
  else memRead b.spad (streamAddr p p.src p.sstr c.offset) (nextPart p c)

/-- A COPY or FILL between scratchpad addresses of its own block, checked, without a barrier object, whose next part lies in one
row and in the scratchpad (R229, R233). -/
structure SpadCopy (s : State) (p : CopyParams) (c : Command) (b : Block) : Prop where
  goes    : c.ready = false ∧ c.fwait = none ∧ s.mach.mayStart c = true
  checked : c.begun = true ∨ (p.cause1 false = none ∧ s.mach.copyCause2 p c.bid b = none)
  plain   : p.op ≤ 1 ∧ p.mcast = 0 ∧ p.dsp = true ∧ p.bar = 0 ∧ (p.op = 0 → p.ssp = true)
  open_   : c.offset < p.total ∧ c.row = c.offset ∧ 0 < p.len
  oneRow  : c.offset % p.len + nextPart p c ≤ p.len
  good    : b.spadBad = [] ∧ Memory.wf b.spad = true
  quiet   : s.mach.stalled = false

/-- A tier move goes on with a page `l` in the other tier, which nothing holds, and there is a frame of its size (R240); the machine is
then `m1`. -/
structure TierMove (p : CopyParams) (c : Command) (b : Block) (l : Leaf) (m1 : Mach) (f : PoolFrame) (rest : List PoolFrame)
    (tier : Nat) : Prop where
  goes    : c.ready = false ∧ c.begun = true ∧ c.fwait = none
  params  : p.bar = 0 ∧ tier = if p.op = 2 then 0 else 1
  other   : l.tier ≤ 1 ∧ l.tier ≠ tier
  idle    : m1.pageBusy l.frame (2 ^ l.log) = false
  frame   : takeFrame l.log (if tier = 0 then (m1.ctx b.ctx).poolFast else (m1.ctx b.ctx).poolCap) = some (f, rest)
  size    : 16 ≤ l.log ∧ l.log ≠ 21
  aligned : l.frame % 65536 = 0 ∧ f.pa % 65536 = 0 ∧ f.pa < 2 ^ 48
  apart   : l.frame + 2 ^ l.log ≤ f.pa ∨ f.pa + 2 ^ l.log ≤ l.frame
  entry   : l.entry % 8 = 0 ∧ (l.entry + 8 ≤ l.frame ∨ l.frame + 2 ^ l.log ≤ l.entry) ∧
    (l.entry + 8 ≤ f.pa ∨ f.pa + 2 ^ l.log ≤ l.entry)
  table   : tabFind m1.side (lineOf l.entry) = none
  clear   : m1.scrub = [] ∧ m1.trackers = [] ∧ m1.drains = []
  wf      : m1.memoriesOk = true

/-! ## Launches -/

/-- Nothing locks the registers of the function (R323). -/
def unlocked (s : State) (fn : Nat) : Prop := (s.mgmt.fn fn).tdi = .unlocked

/-- Every context and queue but those named reads as before. -/
def sameCtxs (m m' : Mach) (p : Nat → Prop) : Prop := ∀ c, p c → m'.ctx c = m.ctx c
def sameQueues (m m' : Mach) (p : Nat → Prop) : Prop := ∀ q, p q → m'.queue q = m.queue q

/-- A warp of a new block of launch `l` (R53, R261): 32 lanes ready at the entry point with the launch's start stamp, s0 and s1
the argument address under its mask, every other register zero without a mask. -/
structure FreshWarp (l : Launch) (w : Warp) : Prop where
  lanes : w.lanes.length = 32 ∧ ∀ k x, laneAt w k = some x → x.st = .ready ∧ x.pc = ⟨l.rec_.entry, 0⟩ ∧ x.pts = l.start
  args  : w.getReg (.s 0) = ⟨l.rec_.args.setWidth 32, l.rec_.argtag⟩ ∧
    w.getReg (.s 1) = ⟨(l.rec_.args >>> 32).setWidth 32, l.rec_.argtag⟩
  zero  : (∀ n, 2 ≤ n → w.getReg (.s n) = ⟨0, 0⟩) ∧ ∀ k n, w.getReg (.v k n) = ⟨0, 0⟩ ∧ w.getReg (.p k n) = ⟨0, 0⟩
  quiet : w.flow = 0 ∧ w.exitm = 0 ∧ w.pend = [] ∧ w.flights = [] ∧ w.suspended = false

/-! ## Requests from outside -/

/-- A range of plain bytes of this module whose lines nothing is on its way to. -/
structure QuietRange (m : Mach) (pa n : Nat) : Prop where
  plain : plainRange m pa n
  dry   : ∀ l ∈ linesOf pa n, dryLine m l
  wf    : m.memoriesOk = true
  size  : 0 < n

/-- The aperture of the request's function leads to one place in this module's memory, on an unsealed page, and the function's
streams work (R308, R320, R322). -/
structure ThroughAperture (s : State) (r : HostRequest) (ctx : Nat) (l : Loc) (pa n : Nat) (m1 : Mach) : Prop where
  on     : isOn s
  size   : HostOp_bytes r.op = n
  bound  : (s.mgmt.fn r.fn).apCtx = some ctx
  serves : (s.mgmt.fn r.fn).tdi ≠ .error
  inside : r.off + n ≤ 2 ^ 36
  found  : s.mach.locate s.mgmt (engineOf ctx s.mach.ids 0) ((s.mgmt.fn r.fn).apBase.toNat + r.off) n =
    ([⟨(s.mgmt.fn r.fn).apBase.toNat + r.off, n, .ok l⟩], m1)
  place  : l.place = .dev pa ∧ l.va = (s.mgmt.fn r.fn).apBase.toNat + r.off ∧ l.n = n
  page   : l.leaf.sealed = false
  alive  : s.mach.hostDead (16 * r.fn) = false ∧ s.mach.hostHeld (16 * r.fn) = false
  ide    : m1.ide = s.mach.ide
  quiet  : QuietRange m1 pa n

/-- The bytes at `pa` are these now, and every other byte reads as before. -/
def wroteBytes (m m' : Mach) (pa : Nat) (bs : List Byte) : Prop :=
  memRead m'.mem pa bs.length = bs ∧ restReads m m' pa bs.length

end Sys2Proof.Machine
end

