-- ==== Sys2Proof/Safety/Completes.lean ====
section
/-! DEFINITION. Words for the statements that say when an instruction or a step of a unit completes: conditions on the state and
the operands alone, under which its accesses are served, and what is then there. -/

namespace Sys2Proof.Machine

/-! ## Pages that the TLBs hold -/

/-- The page of an address in the first TLB copy on an actor's way, in a context with translation (R288, R290). -/
def Mach.cachedLeaf (m : Mach) (a : Actor) (va : Nat) : Option Leaf :=
  if (m.ctx a.ctx).ptEn = true ∧ va < 2 ^ 48
  then (m.tlb.find? fun e => e.ctx == a.ctx && e.covers va && (tlbPath a).contains e.loc).map (·.leaf) else none

/-- A page of this module's memory, neither sealed nor damp. -/
def Leaf.ordinary (l : Leaf) : Prop := l.sealed = false ∧ l.damp = false ∧ l.tier ≤ 1

/-- The physical address of a virtual one in its page. -/
def Leaf.at (l : Leaf) (va : Nat) : Nat := l.frame + va % 2 ^ l.log

/-- The n bytes at `va` lie in one 64 KiB region of an ordinary page, at `pa`, and are plain. -/
structure OnePage (m : Mach) (a : Actor) (va n : Nat) (l : Leaf) (pa : Nat) : Prop where
  leaf   : m.cachedLeaf a va = some l
  page   : l.ordinary
  place  : pa = l.at va
  inside : 0 < n ∧ va % 65536 + n ≤ 65536
  bytes  : plainRange m pa n
  wf     : m.memoriesOk = true

/-- Every page piece of the n bytes at `va` lies in an ordinary page of which `ok` holds, and its bytes are plain. -/
def Reaches (m : Mach) (a : Actor) (va n : Nat) (ok : Leaf → Prop) : Prop :=
  ∀ x ∈ pageCuts va n, ∃ l, m.cachedLeaf a x.1 = some l ∧ l.ordinary ∧ plainRange m (l.at x.1) x.2 ∧ ok l

/-- Any page will do. -/
def anyPage : Leaf → Prop := fun _ => True

/-- The bytes there, and the union of the masks of their pages. -/
def Mach.bytesAt (m : Mach) (a : Actor) (va n : Nat) : List Byte :=
  (pageCuts va n).flatMap fun x => ((m.cachedLeaf a x.1).map fun l => memRead m.mem (l.at x.1) x.2).getD []
def Mach.maskAt (m : Mach) (a : Actor) (va n : Nat) : Mask :=
  (pageCuts va n).foldl (fun t x => t ||| ((m.cachedLeaf a x.1).map (·.tag)).getD 0) 0

/-! ## One lane -/

/-- The group issues an instruction at lane scope with one executing lane, `v`, whose operands are admitted. -/
structure OneLane (s : State) (q : Issue) (b : Block) (w : Warp) (h : Head) (g : Guard) (v : View) (ok : Prop) : Prop where
  issuing : Issuing s q b w
  scope   : h.scope = .lane
  room    : slotHasRoom h w
  check   : noShort s b w
  streams : noHeld s
  fence   : w.fence = none
  one     : elements s q b w h g 32 = [v]
  admits  : ok

/-- The group issues an instruction at warp scope, whose operands are admitted; `v` is the leader of its executing elements. -/
structure LeadsWarp (s : State) (q : Issue) (b : Block) (w : Warp) (h : Head) (g : Guard) (v : View) (ok : Prop) : Prop where
  issuing : Issuing s q b w
  scope   : h.scope = .warp
  room    : slotHasRoom h w
  check   : noShort s b w
  streams : noHeld s
  fence   : w.fence = none
  leader  : (elements s q b w h g 32).head? = some v
  admits  : ok

/-- The group goes on to the next instruction, and no register of the warp has changed. -/
def groupThrough (q : Issue) (w w' : Warp) : Prop :=
  (∀ r : RegName, w'.getReg r = w.getReg r) ∧ ∀ k l, q.lanes.getLsbD k = true → laneAt w k = some l →
    ∃ l', laneAt w' k = some l' ∧ l'.st = .ready ∧ l'.pc = q.seqPc

/-- The owner of the operands of an issue. -/
def ownerOf (s : State) (q : Issue) (b : Block) (h : Head) : Owner := s.mach.owner b q.warp h.scope

/-- The lane is through: its registers hold the results with the masks of the sources and `tag`, every other register of the warp
is unchanged, and it goes on to the next instruction with a program stamp not below `st`. -/
def laneThrough (s t : State) (q : Issue) (w : Warp) (v : View) (srcs : List Src) (tag : Mask) (outs : List Out) (st : Nat) : Prop :=
  ∃ b' w', Stands t.mach q.bid q.warp b' w' ∧
    (∀ r : RegName, r.ofLane v.lane → w'.getReg r = written v.lane (v.tags srcs ||| tag) v.base r (w.getReg r) outs) ∧
    (∀ r : RegName, ¬ r.ofLane v.lane → w'.getReg r = w.getReg r) ∧
    (∃ l, laneAt w' v.lane = some l ∧ l.st = .ready ∧ l.pc = q.seqPc ∧ l.pts = max v.pts st) ∧ t.mgmt = s.mgmt

/-- The address of a lane's read-modify-write of n bytes: aligned, in one writable page that takes the data. -/
structure Writable (s : State) (v : View) (base : BitVec 64) (n : Nat) (data : Mask) (l : Leaf) (pa : Nat) : Prop where
  page    : OnePage s.mach v.actor base.toNat n l pa
  aligned : base.toNat % n = 0
  w       : l.w = true
  takes   : s.mach.storeOk v.b.ctx l.tag data = true
  alone   : s.mach.presses = []

/-- The read-modify-write `f` of n bytes of device memory at `pa`, with results made from the old value and the stamp. -/
def rmwDone (s t : State) (q : Issue) (w : Warp) (v : View) (srcs : List Src) (l : Leaf) (pa n : Nat) (f : List Byte → List Byte)
    (outs : BitVec 64 → Nat → List Out) : Prop :=
  let old := memRead s.mach.mem pa n
  let st := max v.pts ((s.mach.lineStamps (lineOf pa)).rts + 1)
  wroteBytes s.mach t.mach pa (f old) ∧ t.mach.hostMem = s.mach.hostMem ∧ t.mach.peerMem = s.mach.peerMem ∧
    laneThrough s t q w v srcs l.tag (outs (BitVec.ofNat 64 (natOfBytes old)) st) st

/-- The same of n bytes of scratchpad at `ad` of block `bid`, which is `b2` before. -/
def rmwSpadDone (s t : State) (q : Issue) (w : Warp) (v : View) (srcs : List Src) (bid : Nat) (b2 : Block) (ad n : Nat)
    (f : List Byte → List Byte) (outs : BitVec 64 → Nat → List Out) : Prop :=
  let old := memRead b2.spad ad n
  let st := max v.pts ((blockStamps b2 (ad / 64)).rts + 1)
  sameMemory s.mach t.mach ∧ (∃ b', tabFind t.mach.blocks bid = some b' ∧ memRead b'.spad ad n = f old ∧
    ∀ a, a < ad ∨ ad + n ≤ a → memGet b'.spad a = memGet b2.spad a) ∧
    laneThrough s t q w v srcs (spadTag b2 ad n) (outs (BitVec.ofNat 64 (natOfBytes old)) st) st

/-- A read-modify-write in scratchpad: the address lies there, aligned, in a block without uncorrectable data. -/
structure InSpad (s : State) (v : View) (base : BitVec 64) (n : Nat) (bid : Nat) (b2 : Block) (ad : Nat) : Prop where
  place   : scratchAt s.mach v base 0 n = some (bid, ad)
  aligned : ad % n = 0
  block   : tabFind s.mach.blocks bid = some b2
  good    : b2.spadBad = []
  wf      : Memory.wf b2.spad = true

/-- A well-formed bin table (R468, R471) at `ad` of block `bid`. -/
structure TableAt (b2 : Block) (bid ad : Nat) (h : BinTable) : Prop where
  fields   : let x := natOfBytes (memRead b2.spad ad 16)
    h = ⟨bid, ad, field x 15 0, field x 31 16, field x 51 32, field x 95 64⟩ ∧ field x 63 52 = 0 ∧ field x 127 96 = 0
  inside   : ad + 16 + 4 * h.nbins ≤ b2.spadSize ∧ h.doff + 4 * (h.nbins * h.cap) ≤ b2.spadSize
  aligned  : ad % 16 = 0 ∧ h.doff % 4 = 0

/-- The count of a bin, and the place of its next record. -/
def BinTable.count (h : BinTable) (b2 : Block) (k : Nat) : Nat := natOfBytes (memRead b2.spad (h.t + 16 + 4 * k) 4)

/-- The request of a lane's press that its definition `e` and its operands give, as it stands first (R156, R457). -/
structure Sent (s : State) (v : View) (mo : PressMods) (b : Operand) (e : PressEntry) (pa : Nat) (r : PressReq) : Prop where
  image   : r.image = e.image ∧ r.opc = mo.opc.toNat ∧ r.ctx = v.b.ctx
  granule : r.granule = pa ∧ r.target = none ∧ r.remote = none
  words   : r.opnd = v.vals 2 b (opndWords e.image.opnd) ∧ r.parts = [r.opnd] ∧ r.count = 1
  number  : r.id = s.mach.ids + 1 ∧ r.ids = [r.id] ∧ r.done = none
  from_   : r.lanes = v.set ∧ r.pts = v.pts

/-- A press that its lane can send (R155, R157, R160, R459), with an operand of registers, to a granule in one page. -/
structure Sendable (s : State) (v : View) (mo : PressMods) (a b : Operand) (e : PressEntry) (l : Leaf) (pa : Nat) : Prop where
  entry : pressEntry (s.mach.ctx v.b.ctx) mo.opc.toNat = some e ∧ e.image.opnd ≠ 5
  size  : 3 ≤ e.image.gran ∧ e.image.gran ≤ 10
  site  : siteField e.image = 1 → l.tier = 0
  place : Writable s v (v.val64 1 a) e.image.size
    (e.tag ||| v.tags (pressSrcs (s.mach.ctx v.b.ctx) mo a b) ||| v.base) l pa

/-! ## The matrix unit -/

/-- The ranges that `n` elements from element `k` of a run take. -/
def runRange (p : MmaParams) (base k n : Nat) : Nat × Nat := (base + p.width * k / 8, (p.width * k % 8 + p.width * n + 7) / 8)

/-- O4 groups of panel q that a run with these scales takes: the group and its scale. -/
def groupsOf (p : MmaParams) (q base scl : Nat) : List (Nat × Nat) :=
  let (k0, k1) := p.range q
  (List.range ((k1 - k0) / 64)).map fun g => (base + 32 * (k0 / 64 + g), scl + 2 * (k0 / 64 + g))

/-- Every O4 group of panel q of B, and of rows `i` to M − 1 of A (R201, R214). -/
def panelGroups (p : MmaParams) (q i : Nat) : List (Nat × Nat) :=
  (List.range p.cols).flatMap (fun j => groupsOf p q (p.baddr + j * p.bstr) (p.bscl + 2 * (j * (p.k / 64)))) ++
    if p.byp then [] else ((List.range (p.rows - i)).map (i + ·)).flatMap fun r =>
      groupsOf p q (p.aaddr + r * p.astr) (p.ascl + 2 * (r * (p.k / 64)))

/-- Every range that panel q of B, and rows `i` to M − 1 of A, are read from (R214), of the formats other than O4. -/
def panelRuns (p : MmaParams) (q i : Nat) : List (Nat × Nat) :=
  let (k0, k1) := p.range q
  let ks := (List.range (k1 - k0)).map (k0 + ·)
  (if p.tb then (List.range p.cols).map fun j => runRange p (p.baddr + j * p.bstr) k0 (k1 - k0)
   else ks.map fun k => runRange p (p.baddr + k * p.bstr) 0 p.cols) ++
  if p.byp then [] else ((List.range (p.rows - i)).map (i + ·)).flatMap fun r =>
    if p.ta then ks.map fun k => runRange p (p.aaddr + k * p.astr) r 1 else [runRange p (p.aaddr + r * p.astr) k0 (k1 - k0)]

/-- The operands of panel q from row `i` can be read, and their O4 groups are well formed. -/
def PanelReadable (m : Mach) (a : Actor) (p : MmaParams) (q i : Nat) : Prop :=
  if p.o4 = true then ∀ x ∈ panelGroups p q i, Reaches m a x.1 32 anyPage ∧ Reaches m a x.2 2 anyPage ∧
    (o4Group (m.bytesAt a x.1 32) (natOfBytes (m.bytesAt a x.2 2))).isSome = true
  else ∀ x ∈ panelRuns p q i, Reaches m a x.1 x.2 anyPage

/-! ## Launch records, tier moves and releases -/

/-- A woken queue read the record of these bytes (R249): HEAD and the count of read records go on by one, and the launch is pending. -/
structure RecordRead (m1 : Mach) (t : State) (k ctx : Nat) (q : Queue) (bs : List Byte) : Prop where
  memory : sameMemory m1 t.mach
  blocks : t.mach.blocks = m1.blocks
  queues : sameQueues m1 t.mach (· ≠ k)
  queue  : (t.mach.queue k).head = q.head + 1 ∧ (t.mach.queue k).rd = q.rd + 1 ∧ (t.mach.queue k).tail = q.tail
  launch : ∃ l, t.mach.launch? m1.ids = some l ∧ l.rec_ = parseRec (natOfBytes bs) ∧ l.queue = k ∧ l.ctx = ctx ∧ l.order = none ∧
    l.seq = (q.rd + 1).toNat
  others : ∀ j, j ≠ m1.ids → t.mach.launch? j = m1.launch? j

/-- What a tier move does (R240): the page's bytes stand in the new frame and every other byte but the entry's is unchanged, the
entry names the new frame and tier, no TLB copy of the old frame is left, and the frames change pools. -/
structure Moved (m1 : Mach) (t : State) (core key ctx : Nat) (p : CopyParams) (c : Command) (rest : List Command) (l : Leaf)
    (f : PoolFrame) (pool : List PoolFrame) (tier : Nat) : Prop where
  regs   : sameRegisters m1 t.mach
  bytes  : ∀ i, i < 2 ^ l.log → memGet t.mach.mem (f.pa + i) = memGet m1.mem (l.frame + i)
  others : ∀ a, (a < f.pa ∨ f.pa + 2 ^ l.log ≤ a) → (a < l.entry ∨ l.entry + 8 ≤ a) → memGet t.mach.mem a = memGet m1.mem a
  entry  : let y := natOfBytes (memRead t.mach.mem l.entry 8); field y 47 16 * 65536 = f.pa ∧ field y 9 8 = tier
  copies : ∀ e ∈ t.mach.tlb, e.leaf.tier ≤ 1 → e.leaf.log = l.log → e.leaf.frame ≠ l.frame
  pools  : tabHas m1.ctxs ctx = true →
    (if tier = 0 then (t.mach.ctx ctx).poolFast else (t.mach.ctx ctx).poolCap) = pool ∧
    ⟨l.frame, l.log⟩ ∈ (if tier = 0 then (t.mach.ctx ctx).poolCap else (t.mach.ctx ctx).poolFast)
  goesOn : ∃ c', t.mach.chanCmds core key = c' :: rest ∧ c'.offset = c.offset + 2 ^ l.log ∧
    c'.ready = decide (p.len ≤ c.offset + 2 ^ l.log)

/-- The public key of party `i` of a context. -/
def partyKey (m : Mach) (ctx i : Nat) : Nat × Nat :=
  (field (m.party ctx i).toNat 255 0, field (m.party ctx i).toNat 511 256)

/-- Every check of R311 passes, for a release to host memory at `h`: the block is well formed and names no barrier object; the
policy of its 128 bytes, at addresses that can be read, is well formed, names the destination, and carries the signature of
every party; the source can be read, its masks are the policy's parties, and its digest and the budget fit. -/
structure Passes (s : State) (g : GateReq) (b : Block) (p : Policy) (h : Nat) : Prop where
  block   : (releaseOf g.block).bad = false ∧ (releaseOf g.block).bar = 0
  reads   : Reaches s.mach (engineOf g.ctx g.launch b.core) (releaseOf g.block).pol 128 anyPage ∧
    Reaches s.mach (engineOf g.ctx g.launch b.core) (releaseOf g.block).src (releaseOf g.block).len anyPage
  policy  : p = policyOf (natOfBytes (s.mach.bytesAt (engineOf g.ctx g.launch b.core) (releaseOf g.block).pol 128)) ∧
    policyBad (s.mach.ctx g.ctx) p = false ∧ p.dkind = 0
  range   : p.dlo ≤ (releaseOf g.block).dst ∧ (releaseOf g.block).dst + (releaseOf g.block).len ≤ p.dhi
  dest    : (releaseOf g.block).dst % 65536 + (releaseOf g.block).len ≤ 65536 ∧ ∃ l,
    s.mach.cachedLeaf (engineOf g.ctx g.launch b.core) (releaseOf g.block).dst = some l ∧ l.tier = 2 ∧ l.w = true ∧
    h = l.at (releaseOf g.block).dst ∧ s.mach.atBusPeer h = false
  signed  : ∀ j i, (bitsOf p.pmask)[j]? = some i →
    let a := engineOf g.ctx g.launch b.core
    let sig := s.mach.bytesAt a ((releaseOf g.block).pol + 128 + 64 * j) 64
    Reaches s.mach a ((releaseOf g.block).pol + 128 + 64 * j) 64 anyPage ∧
    ecdsaOk (partyKey s.mach g.ctx i)
      (s.mach.bytesAt a (releaseOf g.block).pol 128) (natOfBytes (sig.take 32)) (natOfBytes (sig.drop 32)) = true
  masks   : (s.mach.maskAt (engineOf g.ctx g.launch b.core) (releaseOf g.block).src (releaseOf g.block).len ||| g.blockTag |||
    g.tags) &&& ~~~p.pmask = 0
  digest  : p.dhf = true →
    shaField (s.mach.bytesAt (engineOf g.ctx g.launch b.core) (releaseOf g.block).src (releaseOf g.block).len) = p.dh
  budget  : budgetFail (s.mach.ctx g.ctx).budgets p
    (shaField (s.mach.bytesAt (engineOf g.ctx g.launch b.core) (releaseOf g.block).pol 128)) (releaseOf g.block).len = none
  link    : s.mach.hostHeld g.ctx = false ∧ s.mach.hostDead g.ctx = false
  wf      : s.mach.memoriesOk = true

end Sys2Proof.Machine
end

