-- ==== Sys2Proof/Safety/Shapes.lean ====
section
/-! DEFINITION. The shapes in which the statements about register instructions are written: which operands each position admits,
which registers are read, what the destination receives. -/

namespace Sys2Proof.Machine

/-! ## Registers from registers -/

/-- d := val(a, b), with SRCA and SRCB of kinds `k`, and DST v, zero or above lane scope s (R368). -/
def Computes2 {μ : Type} (i : Instr) (f : FormB μ) (t : Timing) (k : Kinds) (val : Word → Word → Word) : Prop :=
  ComputesRegisters i f.h f.g 32 t false
    (fun ow => [admits ow (dstVSZ ow) 1 f.d, admits ow k 1 f.a, admits ow k 1 f.b]) [⟨1, f.a, 1⟩, ⟨2, f.b, 1⟩]
    (fun _ v => [{ dst := f.d, val := val (v.val 1 f.a) (v.val 2 f.b) }])

/-- The same with the immediate, widened as the instruction says, in the place of b (R346). -/
def Computes2Imm {μ : Type} (i : Instr) (f : FormC μ) (t : Timing) (k : Kinds) (imm : Word) (val : Word → Word → Word) : Prop :=
  ComputesRegisters i f.h f.g 32 t false (fun ow => [admits ow (dstVSZ ow) 1 f.d, admits ow k 1 f.a]) [⟨1, f.a, 1⟩]
    (fun _ v => [{ dst := f.d, val := val (v.val 1 f.a) imm }])

/-- d := val(a, b, c). -/
def Computes3 {μ : Type} (i : Instr) (f : FormB μ) (t : Timing) (k : Kinds) (val : Word → Word → Word → Word) : Prop :=
  ComputesRegisters i f.h f.g 32 t false
    (fun ow => [admits ow (dstVSZ ow) 1 f.d, admits ow k 1 f.a, admits ow k 1 f.b, admits ow k 1 f.c])
    [⟨1, f.a, 1⟩, ⟨2, f.b, 1⟩, ⟨3, f.c, 1⟩]
    (fun _ v => [{ dst := f.d, val := val (v.val 1 f.a) (v.val 2 f.b) (v.val 3 f.c) }])

/-- d := val(a), in form A, which is unguarded. -/
def Computes1A (i : Instr) (f : FormA) (t : Timing) (k : Kinds) (val : Word → Word) : Prop :=
  ComputesRegisters i f.h always 32 t false (fun ow => [admits ow (dstVSZ ow) 1 f.d, admits ow k 1 f.a]) [⟨1, f.a, 1⟩]
    (fun _ v => [{ dst := f.d, val := val (v.val 1 f.a) }])

/-- d := val(a), in form B. -/
def Computes1B {μ : Type} (i : Instr) (f : FormB μ) (t : Timing) (k : Kinds) (val : Word → Word) : Prop :=
  ComputesRegisters i f.h f.g 32 t false (fun ow => [admits ow (dstVSZ ow) 1 f.d, admits ow k 1 f.a]) [⟨1, f.a, 1⟩]
    (fun _ v => [{ dst := f.d, val := val (v.val 1 f.a) }])

/-- pd := cond(a, b), all four bits (R85), combined under BOP with bit 0 of the predicate in SRCC, which is read only then. -/
def ComparesB {μ : Type} (i : Instr) (f : FormB μ) (t : Timing) (k : Kinds) (bop : Bop) (val : Word → Word → Bool) : Prop :=
  ComputesRegisters i f.h f.g 32 t false
    (fun ow => [admits ow srcP 1 f.d, admits ow k 1 f.a, admits ow k 1 f.b, !(bop != .none) || admits ow srcP 1 f.c])
    ([⟨1, f.a, 1⟩, ⟨2, f.b, 1⟩] ++ if bop != .none then [⟨3, f.c, 1⟩] else [])
    (fun _ v => [{ dst := f.d, val :=
      let r := val (v.val 1 f.a) (v.val 2 f.b)
      let p := v.pbit 3 f.c
      if (match bop with
        | .none => r
        | .and => r && p
        | .or => r || p
        | .xor => r != p) then 0b1111 else 0 }])

/-- The same against the immediate, without BOP. -/
def ComparesC {μ : Type} (i : Instr) (f : FormC μ) (t : Timing) (k : Kinds) (imm : Word) (val : Word → Word → Bool) : Prop :=
  ComputesRegisters i f.h f.g 32 t false (fun ow => [admits ow srcP 1 f.d, admits ow k 1 f.a]) [⟨1, f.a, 1⟩]
    (fun _ v => [{ dst := f.d, val := if val (v.val 1 f.a) imm then 0b1111 else 0 }])

/-- The 64-bit result in the pair at `d`, low word first (R5). -/
def pairOuts (d : Operand) (x : BitVec 64) : List Out :=
  [{ dst := d, val := x.setWidth 32 }, { dst := d, k := 1, val := (x >>> 32).setWidth 32 }]

/-! ## Arithmetic -/

/-- `Sat` of the spec. -/
def saturate (lo hi x : Int) : Int := max lo (min hi x)

/-- A word read as signed, or unsigned under U. -/
def readInt (u : Bool) (x : Word) : Int := if u then x.toNat else x.toInt

/-- The comparison that a condition names. -/
def conditionHolds (c : Cond) (x y : Int) : Bool :=
  match c with
  | .eq => decide (x = y)
  | .ne => decide (x ≠ y)
  | .lt => decide (x < y)
  | .le => decide (x ≤ y)
  | .gt => decide (y < x)
  | .ge => decide (y ≤ x)

/-- R420: with `bb` the second source, inverted for ISUB, and a carry-in, the exact sum. -/
def carrySum (sub : Bool) (a b : Word) (cin : Bool) : Nat := a.toNat + (if sub then ~~~b else b).toNat + cin.toNat

/-- The result of IADD and ISUB (R420). -/
def sumResult (sub : Bool) (sat : SatMode) (a b : Word) (cin : Bool) : Word :=
  match sat with
  | .none => BitVec.ofNat 32 (carrySum sub a b cin)
  | .signed => BitVec.ofInt 32 (saturate (-2 ^ 31) (2 ^ 31 - 1) (if sub then a.toInt - b.toInt else a.toInt + b.toInt))
  | .unsigned => BitVec.ofInt 32 (saturate 0 (2 ^ 32 - 1) (if sub then (a.toNat : Int) - b.toNat else a.toNat + b.toNat))

/-- The two results: d, and with CO the carry-out in every bit of pPC. -/
def sumOuts (sub : Bool) (m : AddMods) (d : Operand) (a b : Word) (cin : Bool) : List Out :=
  { dst := d, val := sumResult sub m.sat a b cin } ::
    (if m.co then [{ dst := .p m.pc, val := if 2 ^ 32 ≤ carrySum sub a b cin then 0b1111 else 0 }] else [])

/-- Element j, of width w, of a packed word, signed or unsigned (R186). -/
def packElem (w : Nat) (u : Bool) (j : Nat) (x : Word) : Int :=
  if u then ((x >>> (w * j)).toNat % 2 ^ w : Nat) else (BitVec.ofNat w (x >>> (w * j)).toNat).toInt

/-- A packed word is written by its active elements (R449): element j of the result is `val j`, and the bits that are written
are those of the elements whose guard bit is set (R85). -/
structure PackedResult (h : Bool) (g : BitVec 4) (val : Nat → Int) (o : Out) : Prop where
  elems  : ∀ j < (if h then 2 else 4),
    (o.val >>> ((if h then 16 else 8) * j)).toNat % 2 ^ (if h then 16 else 8) = (val j % 2 ^ (if h then 16 else 8)).toNat
  bits   : ∀ k < 32, o.bits.getLsbD k = if h then g.getLsbD (2 * (k / 16)) else g.getLsbD (k / 8)

/-- A packed predicate is written by its active elements (R85, R449): bit j of an INT8x4 comparison, bits 2j and 2j + 1 of an
INT16x2 one. -/
structure PackedPredicate (h : Bool) (g : BitVec 4) (val : Nat → Bool) (o : Out) : Prop where
  elems  : ∀ k < 4, o.val.getLsbD k = val (if h then k / 2 else k)
  bits   : ∀ k < 4, o.bits.getLsbD k = if h then g.getLsbD (2 * (k / 2)) else g.getLsbD k

/-- The combining function of REDW and SCANW (R460). -/
def reduceTwo (o : RedOp) (u x : Word) : Word :=
  match o with
  | .add => BitVec.ofNat 32 (u.toNat + x.toNat)
  | .minS => if x.toInt < u.toInt then x else u
  | .minU => if x.toNat < u.toNat then x else u
  | .maxS => if u.toInt < x.toInt then x else u
  | .maxU => if u.toNat < x.toNat then x else u
  | .and => u &&& x
  | .or => u ||| x
  | .xor => u ^^^ x
  | .fadd => roundF32 .rne false (FVal.sum .rne [f32 u, f32 x])
  | .fmin => roundF32 .rne false ((f32 u).minNum (f32 x))
  | .fmax => roundF32 .rne false ((f32 u).maxNum (f32 x))

/-- The fold of R461 over the elements in ascending index: nothing while there is none. -/
def reduceAll (o : RedOp) : List Word → Option Word
  | [] => none
  | x :: r => some (r.foldl (reduceTwo o) x)

/-! ## Families -/

/-- The operands of AND, OR and XOR in form B: every one of them a predicate, or none of them (R371). -/
def LogicB (i : Instr) (f : FormB LogicMods) (val : Word → Word → Word) : Prop :=
  ComputesRegisters i f.h f.g 32 (.fixed 4) false
    (fun ow => [admits ow { dstVSZ ow with p := true } 1 f.d, admits ow (if isP f.d then srcP else srcInt) 1 f.a,
      admits ow (if isP f.d then srcP else srcInt) 1 f.b]) [⟨1, f.a, 1⟩, ⟨2, f.b, 1⟩]
    (fun _ v => [{ dst := f.d, val := val (v.val 1 f.a) (if f.m.inv then ~~~(v.val 2 f.b) else v.val 2 f.b) }])

/-- The shift count (R467). -/
def shiftBy (wrap : Bool) (b : Word) : Nat := if wrap then b.toNat % 32 else b.toNat

/-- A move of `n` registers, each with its own mask (R442); one register may be a predicate or a special operand (R441). -/
def Moves (i : Instr) (h : Head) (g : Guard) (d a : Operand) (n : Nat) : Prop :=
  ComputesRegisters i h g 32 (.fixed 4) false
    (fun ow => if n = 1 then [admits ow { dstVSZ ow with p := true } 1 d, admits ow (if isP d then srcP else srcInt) 1 a]
      else [admits ow (dstVS ow) n d, admits ow srcVSZ n a])
    [⟨1, a, n⟩]
    (fun _ v => (List.range n).map fun k => { dst := d, k := k, val := (v.rd 1 a k).val, tag := some (v.rd 1 a k).tag })

/-- A move between a predicate and a word, or under ALL between p0 to p7 and a word, eight nibbles with p0 lowest (R444). -/
def MovesPredicates (i : Instr) (h : Head) (g : Guard) (all : Bool) (d a : Operand) : Prop :=
  ComputesRegisters i h g 32 (.fixed 4) false
    (fun ow => if isP d then [!all || d == .p 0, !isP a, admits ow srcInt 1 a]
      else [admits ow (dstVS ow) 1 d, isP a, !all || a == .p 0])
    (if all && isP a then (List.range 7).map fun k => ⟨allPos k, .p (BitVec.ofNat 3 k), 1⟩ else [⟨1, a, 1⟩])
    (fun _ v =>
      if isP d then
        if all then (List.range 7).map fun k => { dst := .p (BitVec.ofNat 3 k), val := (v.val 1 a >>> (4 * k)) &&& 15 }
        else [{ dst := d, val := v.val 1 a &&& 15 }]
      else
        let nibble (k : Nat) : Word := (v.val (allPos k) (.p (BitVec.ofNat 3 k)) &&& 15) <<< (4 * k)
        [{ dst := d, val := if all then (List.range 8).foldl (fun w k => w ||| nibble k) 0 else v.val 1 a &&& 15 }])

/-- A packed instruction on two words: its guard is read per element, and the active elements of d receive `val` (R449). -/
def Packs {μ : Type} (i : Instr) (f : FormB μ) (h : Bool) (val : Word → Word → Nat → Int) : Prop :=
  ∃ out : View → Out, (∀ v, (out v).dst = f.d ∧ (out v).k = 0 ∧ (out v).tag = none ∧
      (isP f.d = false → ∀ u : View, PackedResult h u.gbits (val (v.val 1 f.a) (v.val 2 f.b))
        (u.part (if h then 16 else 8) (out v)))) ∧
    ComputesRegisters i f.h f.g (if h then 16 else 8) (.fixed 4) false
      (fun ow => [admits ow (dstVSZ ow) 1 f.d, admits ow srcInt 1 f.a, admits ow srcInt 1 f.b]) [⟨1, f.a, 1⟩, ⟨2, f.b, 1⟩]
      (fun _ v => [out v])

/-- R195: the sum or difference of two elements, saturated signed under SS and unsigned under US. -/
def packSum (h sub : Bool) (sat : SatMode) (a b : Word) (j : Nat) : Int :=
  let w := if h then 16 else 8
  let x := packElem w (sat == .unsigned) j a
  let y := packElem w (sat == .unsigned) j b
  let t := if sub then x - y else x + y
  match sat with
  | .none => t
  | .signed => saturate (-2 ^ (w - 1)) (2 ^ (w - 1) - 1) t
  | .unsigned => saturate 0 (2 ^ w - 1) t

/-! ## Floating point -/

/-- The source modifiers (R400): ABS clears the sign, NEG flips it afterwards. -/
def modified (s : SrcMod) (x : Word) : Word :=
  (if s.abs then x &&& 0x7FFFFFFF else x) ^^^ (if s.neg then 0x80000000 else 0)

/-- The comparison that a condition of FCMP names (R406). -/
def floatCondition (c : FCond) (a b : FVal) : Bool :=
  let u := a = .nan ∨ b = .nan
  match c with
  | .eq => decide (¬ u ∧ a.cmp b = 0)
  | .ne => decide (u ∨ a.cmp b ≠ 0)
  | .lt => decide (¬ u ∧ a.cmp b < 0)
  | .le => decide (¬ u ∧ a.cmp b ≤ 0)
  | .gt => decide (¬ u ∧ 0 < a.cmp b)
  | .ge => decide (¬ u ∧ 0 ≤ a.cmp b)
  | .num => decide (¬ u)
  | .nan => decide u

/-- Half `j` of a word as a value, its sign flipped where the source's N bit is set (R416). -/
def halfOf (m : HalfMods) (n : Bool) (j : Nat) (x : Word) : FVal :=
  let v := (if m.bf then paramsBf16 else paramsF16).decode (elemAt 16 j x.toNat)
  if n then v.negate else v

/-- A packed-half result: each half is the pattern `val` gives, and the halves whose guard bit is set are written. -/
structure HalfResult (g : BitVec 4) (val : Nat → Nat) (o : Out) : Prop where
  halves : ∀ j < 2, elemAt 16 j o.val.toNat = val j
  bits   : ∀ k < 32, o.bits.getLsbD k = g.getLsbD (2 * (k / 16))

/-- A packed-half instruction on two words. -/
def Halves2 (i : Instr) (f : FormB HalfMods) (val : FParams → FVal → FVal → Nat) : Prop :=
  ∃ out : View → Out, (∀ v, (out v).dst = f.d ∧ (out v).k = 0 ∧ (out v).tag = none ∧
      (isP f.d = false → ∀ u : View, HalfResult u.gbits (fun j =>
        val (if f.m.bf then paramsBf16 else paramsF16) (halfOf f.m f.m.na j (v.val 1 f.a)) (halfOf f.m f.m.nb j (v.val 2 f.b)))
        (u.part 16 (out v)))) ∧
    ComputesRegisters i f.h f.g 16 (.fixed 6) false
      (fun ow => [admits ow (dstVSZ ow) 1 f.d, admits ow srcFp 1 f.a, admits ow srcFp 1 f.b]) [⟨1, f.a, 1⟩, ⟨2, f.b, 1⟩]
      (fun _ v => [out v])

/-- A packed-half instruction on three words. -/
def Halves3 (i : Instr) (f : FormB HalfMods) (val : FParams → FVal → FVal → FVal → Nat) : Prop :=
  ∃ out : View → Out, (∀ v, (out v).dst = f.d ∧ (out v).k = 0 ∧ (out v).tag = none ∧
      (isP f.d = false → ∀ u : View, HalfResult u.gbits (fun j =>
        val (if f.m.bf then paramsBf16 else paramsF16) (halfOf f.m f.m.na j (v.val 1 f.a)) (halfOf f.m f.m.nb j (v.val 2 f.b))
          (halfOf f.m f.m.nc j (v.val 3 f.c))) (u.part 16 (out v)))) ∧
    ComputesRegisters i f.h f.g 16 (.fixed 6) false
      (fun ow => [admits ow (dstVSZ ow) 1 f.d, admits ow srcFp 1 f.a, admits ow srcFp 1 f.b, admits ow srcFp 1 f.c])
      [⟨1, f.a, 1⟩, ⟨2, f.b, 1⟩, ⟨3, f.c, 1⟩] (fun _ v => [out v])

/-- R199: the code and the overflow bit of one element. -/
def quantised (f : Fmt) (mode : RMode) (x s : Word) : Nat × Bool :=
  match (f32 x).mul (f32 s) with
  | .nan => (if f = .e4m3 ∨ f = .e5m2 then (fmtParams f).nanBits else 0, true)
  | .inf neg =>
    if f = .e4m3 ∨ f = .e5m2 then ((fmtParams f).round mode true (.inf neg), true)
    else
      let lo : Int := if f = .i8 then -128 else if f = .i4 then -8 else -7
      let hi : Int := if f = .i8 then 127 else 7
      (((if neg then lo else hi) % 2 ^ fmtWidth f).toNat, true)
  | .fin neg m e =>
    if f = .e4m3 ∨ f = .e5m2 then
      ((fmtParams f).round mode true (.fin neg m e),
        decide (0 < (FVal.fin false m e).cmp ((fmtParams f).decode (fmtParams f).maxBits)))
    else
      let lo : Int := if f = .i8 then -128 else if f = .i4 then -8 else -7
      let hi : Int := if f = .i8 then 127 else 7
      let n := roundInt mode neg m e
      ((saturate lo hi n % 2 ^ fmtWidth f).toNat, decide (saturate lo hi n ≠ n))

/-! ## Collective instructions -/

/-- The identities of R460. -/
def reduceIdentity (o : RedOp) : Word :=
  match o with
  | .add => 0
  | .minS => 0x7FFFFFFF
  | .minU => 0xFFFFFFFF
  | .maxS => 0x80000000
  | .maxU => 0
  | .and => 0xFFFFFFFF
  | .or => 0
  | .xor => 0
  | .fadd => 0
  | .fmin => 0x7F800000
  | .fmax => 0xFF800000

/-- R473: the value of the source element, or the element's own when the index lies outside the set or names no element. -/
def shuffled (m : ShflMode) (a : View → Word) (vs : List View) (v : View) (b : Word) : Word :=
  let s : Int := match m with
    | .idx => b.toNat
    | .up => (v.idx : Int) - b.toNat
    | .down => (v.idx : Int) + b.toNat
    | .xor => ((v.idx ^^^ b.toNat : Nat) : Int)
  if 0 ≤ s ∧ s < v.size then
    match vs.find? fun x => decide ((x.idx : Int) = s) with
    | some x => a x
    | none => a v
  else a v

/-- The lanes of the element's own member for which `p` holds. -/
def ownLanes (vs : List View) (v : View) (p : View → Bool) : Word :=
  (vs.filter fun x => x.rank == v.rank && p x).foldl (fun w x => w ||| BitVec.twoPow 32 x.lane) 0

/-- R489. -/
def voted (fn : VoteFn) (x : View → Bool) (vs : List View) (v : View) : Word :=
  match fn with
  | .and => if vs.all x then 0b1111 else 0
  | .or => if vs.any x then 0b1111 else 0
  | .same => if vs.all x || vs.all (fun y => !x y) then 0b1111 else 0
  | .mask => ownLanes vs v x
  | .count => BitVec.ofNat 32 (vs.countP x)
  | .lead => match (vs.filter x).head? with
    | some y => BitVec.ofNat 32 y.idx
    | none => 0xFFFFFFFF

/-- R438. -/
def matched (k : MatchKind) (a : View → Word × Word) (vs : List View) (v : View) : Word :=
  match k with
  | .mask => ownLanes vs v fun x => a x == a v
  | .first => match (vs.filter fun x => a x == a v).head? with
    | some y => BitVec.ofNat 32 y.idx
    | none => 0
  | .count => BitVec.ofNat 32 (vs.countP fun x => a x == a v)

/-- What a lane brings to HADQ: its a, or +0.0 when it is no element. -/
def laneValue (vs : List View) (a : Operand) (l : Nat) : Word :=
  match vs.find? fun v => v.lane == l with
  | some v => v.val 1 a
  | none => 0

/-- One stage of R202: the rounded sum and difference of each pair at distance 2^k. -/
def hadamardStage (k : Nat) (x : Nat → Word) (l : Nat) : Word :=
  if l.testBit k then roundF32 .rne false (FVal.sum .rne [f32 (x (l - 2 ^ k)), (f32 (x l)).negate])
  else roundF32 .rne false (FVal.sum .rne [f32 (x l), f32 (x (l + 2 ^ k))])

end Sys2Proof.Machine
end

