-- ==== Sys2Proof/Certificates/Slice0/Obligations.lean ====
section
/-! DEFINITION. The statements about the model, in the order of OBLIGATIONS.json. -/

open Sys2Proof Sys2Proof.Machine

/-- R420: IADD and ISUB in every form, with carry-in, carry-out and saturation; latency 4.
R424, R196: IMUL, IMAD and IMADW; PDOT4 adds the four exact byte products to c; latency 6.
R425, R418: IMIN and IMAX write the smaller or the larger, signed or under U unsigned; IABS the magnitude; latency 4.
R422, R426: ICMP compares signed or under U unsigned, applies BOP and writes all four bits; ISEL selects by bit 0 of a
predicate and reads both sources; latency 4. -/
def Obligations.IntegerArithmetic : Prop :=
  ((∀ (sub : Bool) (f : FormB AddMods), ComputesRegisters (if sub then .isubB f else .iaddB f) f.h f.g 32 (.fixed 4) false
    (fun ow => [admits ow (dstVSZ ow) 1 f.d, admits ow srcInt 1 f.a, admits ow srcInt 1 f.b, !f.m.ci || admits ow srcP 1 f.c])
    ([⟨1, f.a, 1⟩, ⟨2, f.b, 1⟩] ++ if f.m.ci then [⟨3, f.c, 1⟩] else [])
    (fun _ v => sumOuts sub f.m f.d (v.val 1 f.a) (v.val 2 f.b) (if f.m.ci then v.pbit 3 f.c else sub))) ∧
  (∀ (sub : Bool) (f : FormC AddMods), ComputesRegisters (if sub then .isubC f else .iaddC f) f.h f.g 32 (.fixed 4) false
    (fun ow => [admits ow (dstVSZ ow) 1 f.d, admits ow srcInt 1 f.a]) [⟨1, f.a, 1⟩]
    (fun _ v => sumOuts sub f.m f.d (v.val 1 f.a) (f.imm.signExtend 32) sub))) ∧
  ((∀ (f : FormB MulMods), Computes2 (.imulB f) f (.fixed 6) srcInt fun a b =>
    BitVec.ofInt 32 ((readInt f.m.u a * readInt f.m.u b) / (if f.m.hi then 2 ^ 32 else 1))) ∧
  (∀ (f : FormC MulMods), Computes2Imm (.imulC f) f (.fixed 6) srcInt (f.imm.signExtend 32) fun a b =>
    BitVec.ofInt 32 ((readInt f.m.u a * readInt f.m.u b) / (if f.m.hi then 2 ^ 32 else 1))) ∧
  (∀ (f : FormB MadMods), Computes3 (.imad f) f (.fixed 6) srcInt fun a b c =>
    if f.m.sat then BitVec.ofInt 32 (saturate (if f.m.u then 0 else -2 ^ 31) (if f.m.u then 2 ^ 32 - 1 else 2 ^ 31 - 1)
      (readInt f.m.u a * readInt f.m.u b + readInt f.m.u c))
    else a * b + c) ∧
  (∀ (f : FormB MadwMods), ComputesRegisters (.imadw f) f.h f.g 32 (.fixed 6) false
    (fun ow => [admits ow (dstVSZ ow) 2 f.d, admits ow srcInt 1 f.a, admits ow srcInt 1 f.b, admits ow srcVSZ 2 f.c])
    [⟨1, f.a, 1⟩, ⟨2, f.b, 1⟩, ⟨3, f.c, 2⟩]
    (fun _ v => pairOuts f.d
      (BitVec.ofInt 64 (readInt f.m.u (v.val 1 f.a) * readInt f.m.u (v.val 2 f.b) + (v.val64 3 f.c).toNat)))) ∧
  (∀ (f : FormB Pdot4Mods), Computes3 (.pdot4 f) f (.fixed 6) srcInt fun a b c =>
    let t := c.toInt + packElem 8 f.m.au 0 a * packElem 8 f.m.bu 0 b + packElem 8 f.m.au 1 a * packElem 8 f.m.bu 1 b +
      packElem 8 f.m.au 2 a * packElem 8 f.m.bu 2 b + packElem 8 f.m.au 3 a * packElem 8 f.m.bu 3 b
    BitVec.ofInt 32 (if f.m.sat then saturate (-2 ^ 31) (2 ^ 31 - 1) t else t))) ∧
  ((∀ (f : FormB MinMaxMods), Computes2 (.iminB f) f (.fixed 4) srcInt fun a b =>
    if readInt f.m.u a ≤ readInt f.m.u b then a else b) ∧
  (∀ (f : FormC MinMaxMods), Computes2Imm (.iminC f) f (.fixed 4) srcInt (f.imm.signExtend 32) fun a b =>
    if readInt f.m.u a ≤ readInt f.m.u b then a else b) ∧
  (∀ (f : FormB MinMaxMods), Computes2 (.imaxB f) f (.fixed 4) srcInt fun a b =>
    if readInt f.m.u b ≤ readInt f.m.u a then a else b) ∧
  (∀ (f : FormC MinMaxMods), Computes2Imm (.imaxC f) f (.fixed 4) srcInt (f.imm.signExtend 32) fun a b =>
    if readInt f.m.u b ≤ readInt f.m.u a then a else b) ∧
  (∀ (f : FormA), Computes1A (.iabsA f) f (.fixed 4) srcInt fun a => BitVec.ofInt 32 a.toInt.natAbs) ∧
  (∀ (f : FormB AbsMods), Computes1B (.iabsB f) f (.fixed 4) srcInt fun a =>
    BitVec.ofInt 32 (if f.m.sat then saturate 0 (2 ^ 31 - 1) a.toInt.natAbs else a.toInt.natAbs))) ∧
  ((∀ (f : FormB IcmpMods), ComparesB (.icmpB f) f (.fixed 4) srcInt f.m.bop fun a b =>
    conditionHolds f.m.cond (readInt f.m.u a) (readInt f.m.u b)) ∧
  (∀ (f : FormC IcmpMods), f.m.bop = .none → ComparesC (.icmpC f) f (.fixed 4) srcInt (f.imm.signExtend 32) fun a b =>
    conditionHolds f.m.cond (readInt f.m.u a) (readInt f.m.u b)) ∧
  (∀ (f : FormB NoMods), ComputesRegisters (.isel f) f.h f.g 32 (.fixed 4) false
    (fun ow => [admits ow (dstVSZ ow) 1 f.d, admits ow srcInt 1 f.a, admits ow srcInt 1 f.b, admits ow srcP 1 f.c])
    [⟨1, f.a, 1⟩, ⟨2, f.b, 1⟩, ⟨3, f.c, 1⟩]
    (fun _ v => [{ dst := f.d, val := if v.pbit 3 f.c then v.val 1 f.a else v.val 2 f.b }])))

/-- R372, R446, R491: AND, OR and XOR on 32 bits, or on the four bits of predicates, the second source inverted under INV;
latency 4.
R467: SHL is (a << k) mod 2^32, SHR the floor of a / 2^k, SAR the floor of SInt(a) / 2^min(k, 31); latency 4.
R382, with p the control value's bits [7:0] and l its bits [15:8]: BFE writes the m = min(l, 32) bits from bit p of a, above
which a is sign-extended under S and zero-extended without it, itself extended the same way; BFI writes b with bits p to
p + l − 1 replaced by the low bits of a. Latency 4.
R385, R447, R436: POPC counts the set bits, CLZ the leading zero bits (32 for zero), BREV reverses the bits; LEA adds the
shifted index to the 64-bit base. Latency 4. -/
def Obligations.LogicAndBits : Prop :=
  ((∀ f, LogicB (.andB f) f fun a b => a &&& b) ∧ (∀ f, LogicB (.orB f) f fun a b => a ||| b) ∧
  (∀ f, LogicB (.xorB f) f fun a b => a ^^^ b) ∧
  (∀ (f : FormC LogicMods), Computes2Imm (.andC f) f (.fixed 4) srcInt
    (if f.m.inv then ~~~(f.imm.zeroExtend 32) else f.imm.zeroExtend 32) fun a b => a &&& b) ∧
  (∀ (f : FormC LogicMods), Computes2Imm (.orC f) f (.fixed 4) srcInt
    (if f.m.inv then ~~~(f.imm.zeroExtend 32) else f.imm.zeroExtend 32) fun a b => a ||| b) ∧
  (∀ (f : FormC LogicMods), Computes2Imm (.xorC f) f (.fixed 4) srcInt
    (if f.m.inv then ~~~(f.imm.zeroExtend 32) else f.imm.zeroExtend 32) fun a b => a ^^^ b)) ∧
  (∃ shl shr sar : Bool → Word → Word → Word,
    (∀ w a b, (shl w a b).toNat = if shiftBy w b < 32 then a.toNat * 2 ^ shiftBy w b % 2 ^ 32 else 0) ∧
    (∀ w a b, (shr w a b).toNat = if shiftBy w b < 32 then a.toNat / 2 ^ shiftBy w b else 0) ∧
    (∀ w a b, (sar w a b).toInt = a.toInt / 2 ^ min (shiftBy w b) 31) ∧
    (∀ (f : FormB ShiftMods), Computes2 (.shlB f) f (.fixed 4) srcInt (shl f.m.wrap)) ∧
    (∀ (f : FormC ShiftMods), Computes2Imm (.shlC f) f (.fixed 4) srcInt (f.imm.zeroExtend 32) (shl f.m.wrap)) ∧
    (∀ (f : FormB ShiftMods), Computes2 (.shrB f) f (.fixed 4) srcInt (shr f.m.wrap)) ∧
    (∀ (f : FormC ShiftMods), Computes2Imm (.shrC f) f (.fixed 4) srcInt (f.imm.zeroExtend 32) (shr f.m.wrap)) ∧
    (∀ (f : FormB ShiftMods), Computes2 (.sarB f) f (.fixed 4) srcInt (sar f.m.wrap)) ∧
    (∀ (f : FormC ShiftMods), Computes2Imm (.sarC f) f (.fixed 4) srcInt (f.imm.zeroExtend 32) (sar f.m.wrap))) ∧
  (∃ (bfe : Bool → Word → Word → Word) (bfi : Word → Word → Word → Word),
    (∀ sx a c k, k < 32 → (bfe sx a c).getLsbD k =
      (decide ((c.extractLsb' 8 8).toNat ≠ 0) &&
        (let j := if k < min (c.extractLsb' 8 8).toNat 32 then k else min (c.extractLsb' 8 8).toNat 32 - 1
         (decide (k < min (c.extractLsb' 8 8).toNat 32) || sx) &&
           (if (c.extractLsb' 0 8).toNat + j < 32 then a.getLsbD ((c.extractLsb' 0 8).toNat + j) else sx && a.getLsbD 31)))) ∧
    (∀ a b c k, k < 32 → (bfi a b c).getLsbD k =
      if (c.extractLsb' 0 8).toNat ≤ k ∧ k < (c.extractLsb' 0 8).toNat + (c.extractLsb' 8 8).toNat
      then a.getLsbD (k - (c.extractLsb' 0 8).toNat) else b.getLsbD k) ∧
    (∀ (f : FormB BfeMods), Computes2 (.bfeB f) f (.fixed 4) srcInt (bfe f.m.sx)) ∧
    (∀ (f : FormC BfeMods), Computes2Imm (.bfeC f) f (.fixed 4) srcInt (f.imm.zeroExtend 32) (bfe f.m.sx)) ∧
    (∀ (f : FormB NoMods), Computes3 (.bfi f) f (.fixed 4) srcInt bfi)) ∧
  (∃ popc clz brev : Word → Word,
    (∀ a, (popc a).toNat = ((List.range 32).filter fun k => a.getLsbD k).length) ∧
    (∀ a, (clz a).toNat ≤ 32 ∧ (∀ k < 32, 32 - (clz a).toNat ≤ k → a.getLsbD k = false) ∧
      ((clz a).toNat < 32 → a.getLsbD (31 - (clz a).toNat) = true)) ∧
    (∀ a k, k < 32 → (brev a).getLsbD k = a.getLsbD (31 - k)) ∧
    (∀ f, Computes1A (.popcA f) f (.fixed 4) srcInt popc) ∧ (∀ f, Computes1B (.popcB f) f (.fixed 4) srcInt popc) ∧
    (∀ f, Computes1A (.clzA f) f (.fixed 4) srcInt clz) ∧ (∀ f, Computes1B (.clzB f) f (.fixed 4) srcInt clz) ∧
    (∀ f, Computes1A (.brevA f) f (.fixed 4) srcInt brev) ∧ (∀ f, Computes1B (.brevB f) f (.fixed 4) srcInt brev) ∧
    (∀ (f : FormB LeaMods), ComputesRegisters (.leaB f) f.h f.g 32 (.fixed 4) false
      (fun ow => [admits ow (dstVSZ ow) 2 f.d, admits ow srcVSZ 2 f.a, admits ow srcInt 1 f.b]) [⟨1, f.a, 2⟩, ⟨2, f.b, 1⟩]
      (fun _ v => pairOuts f.d
        (BitVec.ofInt 64 ((v.val64 1 f.a).toNat + readInt f.m.u (v.val 2 f.b) * 2 ^ f.m.sh.toNat)))) ∧
    (∀ (f : FormC LeaMods), ComputesRegisters (.leaC f) f.h f.g 32 (.fixed 4) false
      (fun ow => [admits ow (dstVSZ ow) 2 f.d, admits ow srcVSZ 2 f.a]) [⟨1, f.a, 2⟩]
      (fun _ v => pairOuts f.d
        (BitVec.ofInt 64 ((v.val64 1 f.a).toNat + readInt f.m.u (f.imm.signExtend 32) * 2 ^ f.m.sh.toNat)))))

/-- R442, R443, R444: MOV copies each register of a range with its own mask, MOVI writes IMM32, MOVS moves predicates to and
from words; latency 4. -/
def Obligations.MovesOfRegisters : Prop :=
  (∀ f, Moves (.movA f) f.h always f.d f.a 1) ∧ (∀ f, Moves (.movB f) f.h f.g f.d f.a (2 ^ f.m.rep.toNat)) ∧
  (∀ (f : FormE), ComputesRegisters (.movi f) f.h always 32 (.fixed 4) false (fun ow => [admits ow (dstVSZ ow) 1 f.d]) []
    (fun _ _ => [{ dst := f.d, val := f.imm }])) ∧
  (∀ f, MovesPredicates (.movsA f) f.h always false f.d f.a) ∧ (∀ f, MovesPredicates (.movsB f) f.h f.g f.m.all f.d f.a)

/-- R449, R195: PADD, PSUB, PMIN and PMAX on INT8x4 and INT16x2, and PCMP into predicate bits; inactive elements keep their
value; latency 4. -/
def Obligations.PackedIntegers : Prop :=
  (∀ (f : FormB PaddMods), Packs (.padd f) f f.m.h (packSum f.m.h false f.m.sat)) ∧
  (∀ (f : FormB PaddMods), Packs (.psub f) f f.m.h (packSum f.m.h true f.m.sat)) ∧
  (∀ (f : FormB PminMods), Packs (.pmin f) f f.m.h fun a b j =>
    min (packElem (if f.m.h then 16 else 8) f.m.u j a) (packElem (if f.m.h then 16 else 8) f.m.u j b)) ∧
  (∀ (f : FormB PminMods), Packs (.pmax f) f f.m.h fun a b j =>
    max (packElem (if f.m.h then 16 else 8) f.m.u j a) (packElem (if f.m.h then 16 else 8) f.m.u j b)) ∧
  (∀ (f : FormB PcmpMods), ∃ out : View → Out, (∀ v, (out v).dst = f.d ∧ (out v).k = 0 ∧ (out v).tag = none ∧
      (isP f.d = true → ∀ u : View, PackedPredicate f.m.h u.gbits (fun j => conditionHolds f.m.cond
        (packElem (if f.m.h then 16 else 8) f.m.u j (v.val 1 f.a)) (packElem (if f.m.h then 16 else 8) f.m.u j (v.val 2 f.b)))
        (u.part (if f.m.h then 16 else 8) (out v)))) ∧
    ComputesRegisters (.pcmp f) f.h f.g (if f.m.h then 16 else 8) (.fixed 4) false
      (fun ow => [admits ow srcP 1 f.d, admits ow srcInt 1 f.a, admits ow srcInt 1 f.b]) [⟨1, f.a, 1⟩, ⟨2, f.b, 1⟩]
      (fun _ v => [out v]))

/-- R400, R402, R403, R404: FADD, FMUL and FFMA round the exact result once, after the source modifiers; FMIN and FMAX are
minimumNumber and maximumNumber; FRND rounds to an integral value. Latency 6.
R406: FCMP compares exactly, applies BOP and writes all four bits; latency 6.
R416: each active half of HADD2, HMUL2, HFMA2 and HMAX2 is rounded once into FP16 or BF16, and an inactive half keeps its
value; latency 6. -/
def Obligations.FloatArithmeticOnRegisters : Prop :=
  ((∀ (f : FormB FaddMods), Computes2 (.faddB f) f (.fixed 6) srcFp fun a b =>
    roundF32 f.m.mode f.m.sat (FVal.sum f.m.mode [f32 (modified f.m.a a), f32 (modified f.m.b b)])) ∧
  (∀ (f : FormC FaddMods), Computes2Imm (.faddC f) f (.fixed 6) srcFp (f.imm ++ 0#16) fun a b =>
    roundF32 f.m.mode f.m.sat (FVal.sum f.m.mode [f32 (modified f.m.a a), f32 (modified f.m.b b)])) ∧
  (∀ (f : FormB FaddMods), Computes2 (.fmulB f) f (.fixed 6) srcFp fun a b =>
    roundF32 f.m.mode f.m.sat ((f32 (modified f.m.a a)).mul (f32 (modified f.m.b b)))) ∧
  (∀ (f : FormC FaddMods), Computes2Imm (.fmulC f) f (.fixed 6) srcFp (f.imm ++ 0#16) fun a b =>
    roundF32 f.m.mode f.m.sat ((f32 (modified f.m.a a)).mul (f32 (modified f.m.b b)))) ∧
  (∀ (f : FormB FfmaMods), Computes3 (.ffma f) f (.fixed 6) srcFp fun a b c =>
    roundF32 f.m.mode f.m.sat (FVal.sum f.m.mode
      [(f32 (modified f.m.a a)).mul (f32 (modified f.m.b b)), f32 (modified f.m.c c)])) ∧
  (∀ (f : FormB FminMods), Computes2 (.fminB f) f (.fixed 6) srcFp fun a b =>
    roundF32 .rne false ((f32 (modified f.m.a a)).minNum (f32 (modified f.m.b b)))) ∧
  (∀ (f : FormC FminMods), Computes2Imm (.fminC f) f (.fixed 6) srcFp (f.imm ++ 0#16) fun a b =>
    roundF32 .rne false ((f32 (modified f.m.a a)).minNum (f32 (modified f.m.b b)))) ∧
  (∀ (f : FormB FminMods), Computes2 (.fmaxB f) f (.fixed 6) srcFp fun a b =>
    roundF32 .rne false ((f32 (modified f.m.a a)).maxNum (f32 (modified f.m.b b)))) ∧
  (∀ (f : FormC FminMods), Computes2Imm (.fmaxC f) f (.fixed 6) srcFp (f.imm ++ 0#16) fun a b =>
    roundF32 .rne false ((f32 (modified f.m.a a)).maxNum (f32 (modified f.m.b b)))) ∧
  (∀ (f : FormB FrndMods), Computes1B (.frnd f) f (.fixed 6) srcFp fun a =>
    match f32 (modified f.m.a a) with
    | .nan => 0x7FC00000
    | .inf _ => modified f.m.a a
    | .fin neg m e => if 0 ≤ e then modified f.m.a a
      else roundF32 .rne false (.fin neg (roundInt f.m.mode neg m e).natAbs 0))) ∧
  ((∀ (f : FormB FcmpMods), ComparesB (.fcmpB f) f (.fixed 6) srcFp f.m.bop fun a b =>
    floatCondition f.m.cond (f32 (modified f.m.a a)) (f32 (modified f.m.b b))) ∧
  (∀ (f : FormC FcmpMods), f.m.bop = .none → ComparesC (.fcmpC f) f (.fixed 6) srcFp (f.imm ++ 0#16) fun a b =>
    floatCondition f.m.cond (f32 (modified f.m.a a)) (f32 (modified f.m.b b)))) ∧
  ((∀ f, Halves2 (.hadd2 f) f fun m x y => m.round f.m.mode f.m.sat (FVal.sum f.m.mode [x, y])) ∧
  (∀ f, Halves2 (.hmul2 f) f fun m x y => m.round f.m.mode f.m.sat (x.mul y)) ∧
  (∀ f, f.m.mode = .rne → f.m.sat = false → Halves2 (.hmax2 f) f fun m x y =>
    m.round .rne false (if f.m.min then x.minNum y else x.maxNum y)) ∧
  (∀ f, Halves3 (.hfma2 f) f fun m x y z => m.round f.m.mode f.m.sat (FVal.sum f.m.mode [x.mul y, z])))

/-- R187, R191: rounding in any mode leaves every value of a format as it is, and the canonical NaN stands for every NaN. -/
def Obligations.RoundingKeepsValues : Prop :=
  ∀ q ∈ [paramsF32, paramsF16, paramsBf16, paramsE4m3, paramsE5m2], ∀ mode x, x < 2 ^ q.width →
    q.round mode false (q.decode x) = if q.decode x = .nan then q.nanBits else x

/-- R402, R407: the seven special functions complete in both forms, at a latency that only a write slot tells; each result is
one function of the source bits (R409).
R408, the exact special values: of NaNs, of zeros and infinities, of negative sources, of the sources of FEXP2 at and beyond
its ends, of every integer of FEXP2 and every power of two of FLOG2. -/
def Obligations.SpecialFunctions : Prop :=
  ((∀ f, Computes1A (.frcpA f) f .later srcFp (special .rcp)) ∧
  (∀ f, Computes1A (.frsqA f) f .later srcFp (special .rsq)) ∧
  (∀ f, Computes1A (.fsqrtA f) f .later srcFp (special .sqrt)) ∧
  (∀ f, Computes1A (.fexp2A f) f .later srcFp (special .exp2)) ∧
  (∀ f, Computes1A (.flog2A f) f .later srcFp (special .log2)) ∧
  (∀ f, Computes1A (.fsinA f) f .later srcFp (special .sin)) ∧
  (∀ f, Computes1A (.fcosA f) f .later srcFp (special .cos)) ∧
  (∀ f : FormB SpecialMods, Computes1B (.frcpB f) f .later srcFp fun a => special .rcp (modified f.m.a a)) ∧
  (∀ f : FormB SpecialMods, Computes1B (.frsqB f) f .later srcFp fun a => special .rsq (modified f.m.a a)) ∧
  (∀ f : FormB SpecialMods, Computes1B (.fsqrtB f) f .later srcFp fun a => special .sqrt (modified f.m.a a)) ∧
  (∀ f : FormB SpecialMods, Computes1B (.fexp2B f) f .later srcFp fun a => special .exp2 (modified f.m.a a)) ∧
  (∀ f : FormB SpecialMods, Computes1B (.flog2B f) f .later srcFp fun a => special .log2 (modified f.m.a a)) ∧
  (∀ f : FormB SpecialMods, Computes1B (.fsinB f) f .later srcFp fun a => special .sin (modified f.m.a a)) ∧
  (∀ f : FormB SpecialMods, Computes1B (.fcosB f) f .later srcFp fun a => special .cos (modified f.m.a a))) ∧
  ((∀ fn x, f32 x = .nan → special fn x = 0x7FC00000) ∧
  (special .rcp 0 = 0x7F800000 ∧ special .rcp 0x80000000 = 0xFF800000 ∧ special .rcp 0x7F800000 = 0 ∧
    special .rcp 0xFF800000 = 0x80000000) ∧
  (special .rsq 0 = 0x7F800000 ∧ special .rsq 0x80000000 = 0xFF800000 ∧ special .rsq 0x7F800000 = 0) ∧
  (special .sqrt 0 = 0 ∧ special .sqrt 0x80000000 = 0x80000000 ∧ special .sqrt 0x7F800000 = 0x7F800000) ∧
  (special .exp2 0xFF800000 = 0 ∧ special .exp2 0x7F800000 = 0x7F800000) ∧
  (∀ x, x = 0 ∨ x = 0x80000000 → special .log2 x = 0xFF800000 ∧ special .sin x = x ∧ special .cos x = 0x3F800000) ∧
  (∀ x, x = 0x7F800000 ∨ x = 0xFF800000 → special .sin x = 0x7FC00000 ∧ special .cos x = 0x7FC00000) ∧
  special .log2 0x7F800000 = 0x7F800000 ∧
  (∀ x, (f32 x).isNeg = true → (f32 x).isZero = false →
    special .rsq x = 0x7FC00000 ∧ special .sqrt x = 0x7FC00000 ∧ special .log2 x = 0x7FC00000) ∧
  (∀ x m e, f32 x = .fin false m e → 0 ≤ (f32 x).cmp (.fin false 128 0) → special .exp2 x = 0x7F800000) ∧
  (∀ x m e, f32 x = .fin true m e → (f32 x).cmp (.fin true 150 0) ≤ 0 → special .exp2 x = 0) ∧
  (∀ n : Int, -149 ≤ n → n ≤ 127 →
    special .exp2 (roundF32 .rne false (.fin (decide (n < 0)) n.natAbs 0)) = roundF32 .rne false (.fin false 1 n) ∧
    special .log2 (roundF32 .rne false (.fin false 1 n)) = roundF32 .rne false (.fin (decide (n < 0)) n.natAbs 0)))

/-- R395, R198: CVT converts the flattened elements of its source registers, at a latency that only a write slot tells.
R396, R397, R199: CVTQ quantises k elements into one word of codes, and under OVF writes the overflow bits beside it. -/
def Obligations.Conversions : Prop :=
  (∀ (f : FormB CvtMods), ∃ words : List Word → List Word,
    (∀ src, (words src).length = max 1 (perWord f.m.sfmt / perWord f.m.dfmt)) ∧
    (∀ src j, j < max (perWord f.m.sfmt) (perWord f.m.dfmt) →
      elemAt (fmtWidth f.m.dfmt) (j % perWord f.m.dfmt) ((words src).getD (j / perWord f.m.dfmt) 0).toNat =
        fmtConvert f.m.dfmt f.m.mode f.m.sat f.m.u (fmtValue f.m.sfmt f.m.u
          (elemAt (fmtWidth f.m.sfmt) (j % perWord f.m.sfmt) (src.getD (j / perWord f.m.sfmt) 0).toNat))) ∧
    ComputesRegisters (.cvt f) f.h f.g 32 .later false
      (fun ow => [admits ow (dstVS ow) (max 1 (perWord f.m.sfmt / perWord f.m.dfmt)) f.d,
        admits ow srcVSZ (max 1 (perWord f.m.dfmt / perWord f.m.sfmt)) f.a])
      [⟨1, f.a, max 1 (perWord f.m.dfmt / perWord f.m.sfmt)⟩]
      (fun _ v => rangeOuts f.d (words (v.vals 1 f.a (max 1 (perWord f.m.dfmt / perWord f.m.sfmt)))))) ∧
  (∀ (f : FormB CvtqMods), f.m.dfmt ∈ [Fmt.e4m3, .e5m2, .i8, .i4, .o4] →
    ∃ codes bits : List Word → Word → Word,
    (∀ xs s j, j < perWord f.m.dfmt →
      elemAt (fmtWidth f.m.dfmt) j (codes xs s).toNat = (quantised f.m.dfmt f.m.mode (xs.getD j 0) s).1 ∧
      (bits xs s).getLsbD j = (quantised f.m.dfmt f.m.mode (xs.getD j 0) s).2) ∧
    (∀ xs s j, perWord f.m.dfmt ≤ j → (bits xs s).getLsbD j = false) ∧
    ComputesRegisters (.cvtq f) f.h f.g 32 .later false
      (fun ow => [admits ow (dstVS ow) (if f.m.ovf then 2 else 1) f.d, admits ow (dstVS ow) (perWord f.m.dfmt) f.a,
        admits ow srcVSZ 1 f.b])
      [⟨1, f.a, perWord f.m.dfmt⟩, ⟨2, f.b, 1⟩]
      (fun _ v => rangeOuts f.d (codes (v.vals 1 f.a (perWord f.m.dfmt)) (v.val 2 f.b) ::
        if f.m.ovf then [bits (v.vals 1 f.a (perWord f.m.dfmt)) (v.val 2 f.b)] else [])))

/-- R461, R460: REDW gives every element the fold over the element set in ascending index, SCANW the fold up to it, exclusive
under EXCL; collective at warp, gang and block scope.
R473, R489, R438: SHFL reads another element's a, VOTE combines bit 0 of a predicate over the elements, MATCH compares a over
32 or 64 bits; collective at warp, gang and block scope.
R202, R417: HADQ is a Walsh–Hadamard transform in five rounded stages over the 32 lanes, +0.0 from an inactive one, scaled
under SC. -/
def Obligations.CrossLaneOperations : Prop :=
  ((∀ (f : FormB RedMods), ComputesRegisters (.redw f) f.h f.g 32 .later true
    (fun ow => [admits ow (dstVSZ ow) 1 f.d, admits ow srcInt 1 f.a]) [⟨1, f.a, 1⟩]
    (fun vs _ => [{ dst := f.d, val := (reduceAll f.m.op (vs.map fun x => x.val 1 f.a)).getD 0 }])) ∧
  (∀ (f : FormB RedMods), ComputesRegisters (.scanw f) f.h f.g 32 .later true
    (fun ow => [admits ow onlyV 1 f.d, admits ow srcInt 1 f.a]) [⟨1, f.a, 1⟩]
    (fun vs v => [{ dst := f.d, val :=
      (reduceAll f.m.op ((vs.filter fun x => if f.m.excl then decide (x.idx < v.idx) else decide (x.idx ≤ v.idx)).map
        fun x => x.val 1 f.a)).getD (reduceIdentity f.m.op) }]))) ∧
  ((∀ (f : FormB ShflMods), ComputesRegisters (.shflB f) f.h f.g 32 .later true
    (fun ow => [admits ow onlyV 1 f.d, admits ow srcInt 1 f.a, admits ow srcInt 1 f.b]) [⟨1, f.a, 1⟩, ⟨2, f.b, 1⟩]
    (fun vs v => [{ dst := f.d, val := shuffled f.m.mode (fun x => x.val 1 f.a) vs v (v.val 2 f.b) }])) ∧
  (∀ (f : FormC ShflMods), ComputesRegisters (.shflC f) f.h f.g 32 .later true
    (fun ow => [admits ow onlyV 1 f.d, admits ow srcInt 1 f.a]) [⟨1, f.a, 1⟩]
    (fun vs v => [{ dst := f.d, val := shuffled f.m.mode (fun x => x.val 1 f.a) vs v (f.imm.zeroExtend 32) }])) ∧
  (∀ (f : FormB VoteMods), ComputesRegisters (.vote f) f.h f.g 32 .later true
    (fun ow => [admits ow (voteDst ow f.m.fn) 1 f.d, admits ow srcP 1 f.a]) [⟨1, f.a, 1⟩]
    (fun vs v => [{ dst := f.d, val := voted f.m.fn (fun x => x.pbit 1 f.a != f.m.not) vs v }])) ∧
  (∀ (f : FormB MatchMods), ComputesRegisters (.matchw f) f.h f.g 32 .later true
    (fun ow => [admits ow onlyV 1 f.d, if f.m.b64 then admits ow srcVS 2 f.a else admits ow srcInt 1 f.a])
    [⟨1, f.a, if f.m.b64 then 2 else 1⟩]
    (fun vs v => [{ dst := f.d, val := matched f.m.kind (fun x => ((x.rd 1 f.a 0).val,
      if f.m.b64 then (x.rd 1 f.a 1).val else 0)) vs v }]))) ∧
  (∃ had : Bool → (Nat → Word) → Nat → Word,
    (∀ sc x l, l < 32 → had sc x l =
      let y := hadamardStage 4 (hadamardStage 3 (hadamardStage 2 (hadamardStage 1 (hadamardStage 0 x)))) l
      if sc then roundF32 .rne false ((f32 y).mul (f32 0x3E3504F3)) else y) ∧
    (∀ f : FormA, ComputesRegisters (.hadqA f) f.h always 32 .later true
      (fun ow => [admits ow onlyV 1 f.d, admits ow onlyV 1 f.a]) [⟨1, f.a, 1⟩]
      (fun vs v => [{ dst := f.d, val := had false (laneValue vs f.a) v.lane }])) ∧
    (∀ f : FormB HadqMods, ComputesRegisters (.hadqB f) f.h f.g 32 .later true
      (fun ow => [admits ow onlyV 1 f.d, admits ow onlyV 1 f.a]) [⟨1, f.a, 1⟩]
      (fun vs v => [{ dst := f.d, val := had f.m.sc (laneValue vs f.a) v.lane }])))

/-- R445, R398, R490, R45, R383, R384: NOP and YIELD go on, YIELD after a group selection; EXIT ends its lanes; WJOIN waits for
convergence; BRA goes to its clause-relative target, BRX to the clause address in a register pair.
R50, R51, R383, R384: CALL and CALLX push the address after their clause and jump; with 16 addresses on the chip the oldest is
stored first in the lane's spill area. RET pops the newest address and jumps to it; with none on the chip it loads the entry that was
spilled last (R465). R50, R275, R282: with the spill area full too a call stops with ILLINSTR 1, and a return without any address with
ILLINSTR 2: the active lanes park, and no register changes. -/
def Obligations.ControlFlow : Prop :=
  ((∀ f, Goes (.nop f) f.h always allScopes .seq) ∧ (∀ f, Goes (.yield f) f.h always laneOnly .turn) ∧
  (∀ f, Goes (.exitA f) f.h always laneOnly .exit) ∧ (∀ f, Goes (.exitB f) f.h f.g laneOnly .exit) ∧
  (∀ f, Goes (.wjoin f) f.h always laneOnly (.wait .join)) ∧
  (∀ f, Effects (.bra f) f.h f.g .atIssue false false true laneOnly (fun _ _ => True) (fun _ => []) anyTime
    (eachActs fun v m => some ({ next := .jump (branchTarget v.q f.off) }, m))) ∧
  (∀ f, TransfersThrough (.brxA f) f.h always f.a) ∧ (∀ f, TransfersThrough (.brxB f) f.h f.g f.a)) ∧
  ((∀ f, Effects (.call f) f.h f.g .atIssue false false true laneOnly (fun _ _ => True) (fun _ => []) roomOnStacks
    (storeActs (callAct (fun v => some (branchTarget v.q f.off)) fun _ => 0))) ∧
  (∀ f, Effects (.callxA f) f.h always .atIssue false false true laneOnly (fun ow _ => allOf [admits ow srcVS 2 f.a])
    (fun _ => [⟨1, f.a, 2⟩]) roomOnStacks (storeActs (callAct (pairTarget f.a) fun v => v.tags [⟨1, f.a, 2⟩]))) ∧
  (∀ f, Effects (.callxB f) f.h f.g .atIssue false false true laneOnly (fun ow _ => allOf [admits ow srcVS 2 f.a])
    (fun _ => [⟨1, f.a, 2⟩]) roomOnStacks (storeActs (callAct (pairTarget f.a) fun v => v.tags [⟨1, f.a, 2⟩]))) ∧
  (∀ f, Effects (.retA f) f.h always .atIssue false false true laneOnly (fun _ _ => True) (fun _ => []) addressOnStacks
    (eachActs returnAct)) ∧
  (∀ f, Effects (.retB f) f.h f.g .atIssue false false true laneOnly (fun _ _ => True) (fun _ => []) addressOnStacks
    (eachActs returnAct)) ∧
  (∀ f, StopsLanes (.call f) f.h f.g (.illInstr 1) (fun _ => True) stackFull) ∧
  (∀ f, StopsLanes (.callxA f) f.h always (.illInstr 1) (fun ow => admits ow srcVS 2 f.a = true) stackFull) ∧
  (∀ f, StopsLanes (.callxB f) f.h f.g (.illInstr 1) (fun ow => admits ow srcVS 2 f.a = true) stackFull) ∧
  (∀ f, StopsLanes (.retA f) f.h always (.illInstr 2) (fun _ => True) fun _ => stackEmpty) ∧
  (∀ f, StopsLanes (.retB f) f.h f.g (.illInstr 2) (fun _ => True) fun _ => stackEmpty))

/-- R414, R481: GANG reports the set of the issuing warp in four words; TAGGET writes the mask of its source, of a bound handle
that of the tile.
R474, R475: SIGNAL wakes an enabled queue of the issuing function with slots, notes target 3FFH for firmware, and ignores any
other target; R477, R55: a SPAWN whose records all find room files them in ascending lane order and completes, and lanes that
find none wait. -/
def Obligations.ReportsAndSignals : Prop :=
  ((∀ f, Effects (.gangA f) f.h always .later false false true warpOnly (fun ow _ => allOf [admits ow (dstVS ow) 4 f.d])
    (fun _ => []) anyTime (eachActs fun v m => some ({ outs := rangeOuts f.d (setReport m false v) }, m))) ∧
  (∀ f, Effects (.gangB f) f.h f.g .later false false true warpOnly (fun ow _ => allOf [admits ow (dstVS ow) 4 f.d])
    (fun _ => []) anyTime (eachActs fun v m => some ({ outs := rangeOuts f.d (setReport m f.m.blk v) }, m))) ∧
  (∀ f, Effects (.taggetA f) f.h always (.fixed 4) false false true allScopes
    (fun ow _ => allOf [admits ow (dstVSZ ow) 1 f.d, admits ow { srcInt with p := true, a := true } 1 f.a])
    (fun _ => [⟨1, f.a, 1⟩]) anyTime (eachActs (taggetAct f.d f.a))) ∧
  (∀ f, Effects (.taggetB f) f.h f.g (.fixed 4) false false true allScopes
    (fun ow _ => allOf [admits ow (dstVSZ ow) 1 f.d, admits ow { srcInt with p := true, a := true } 1 f.a])
    (fun _ => [⟨1, f.a, 1⟩]) anyTime (eachActs (taggetAct f.d f.a)))) ∧
  ((∀ f, Effects (.signalA f) f.h always .atIssue false true true laneWarp (fun ow _ => allOf [admits ow srcVS 1 f.a])
    (fun _ => [⟨1, f.a, 1⟩]) anyTime (eachActs fun v m => some ({}, signalled m v.b.ctx (v.val 1 f.a)))) ∧
  (∀ f, Effects (.signalB f) f.h f.g .atIssue false true true laneWarp (fun ow _ => allOf [admits ow srcVS 1 f.a])
    (fun _ => [⟨1, f.a, 1⟩]) anyTime (eachActs fun v m => some ({}, signalled m v.b.ctx (v.val 1 f.a)))) ∧
  (∀ f, Effects (.spawn f) f.h f.g .open_ false false true laneOnly
    (fun ow _ => allOf [admits ow srcVS 2 f.a, admits ow { v := true, s := true, spec := true, zero := true } 1 f.b,
      admits ow srcVSZ 4 f.c]) (fun _ => [⟨1, f.a, 2⟩, ⟨2, f.b, 1⟩, ⟨3, f.c, 4⟩]) anyTime (spawnActs f.a f.b f.c)))

/-- R487, R275, R282: at lane and warp scope each active lane of a TRAP parks at its program counter with a record of cause TRAP
that holds the code; the other lanes of the group go on, and no register and no byte of memory changes. R78, R79, R80, R287: at gang
and block scope every active lane of every member parks so in the rendezvous, its slot is held, and the members are suspended in one
hold; no register, no F and no other lane changes. -/
def Obligations.TrapParks : Prop :=
  (∀ (f : FormC NoMods) s q b w, Issuing s q b w → (f.h.scope = .lane ∨ f.h.scope = .warp) → slotHasRoom f.h w → noShort s b w →
    noHeld s → f.imm.toNat < 256 →
    ∃ (m : Mach) (w' : Warp), exec (.trap f) s = .next { s with mach := m.settleWarp s.mgmt q.bid q.warp } ∧
      m.warp? q.bid q.warp = some w' ∧ m.mem = s.mach.mem ∧ (∀ r, w'.getReg r = w.getReg r) ∧
      ∀ k l, laneAt w k = some l → ∃ l', laneAt w' k = some l' ∧
        if (activeLanes s q w f.h f.g 32).getLsbD k then
          ∃ r, l' = { l with st := .parked (some r) } ∧ r.cause = .trap (f.imm.setWidth 8) ∧ r.pc = q.pc.clause ∧
            r.index = q.pc.index ∧ r.lane = k ∧ r.warp = q.warp ∧ r.scope = f.h.scope ∧
            r.amask = activeLanes s q w f.h f.g 32
        else if q.lanes.getLsbD k then l'.st = .ready ∧ l'.pc = q.seqPc ∧ l.keeps l' else l' = l) ∧
  ∀ (f : FormC NoMods) s bid k b sl, AtRendezvous s bid k b sl (.trap f) → isSet f.h.scope = true → noShortSet s b sl → noHeld s →
    f.imm.toNat < 256 → setElements s b k sl f.h f.g 32 ≠ [] →
    ∃ (m : Mach) (b' : Block), exec (.rendezvousExecute bid k) s = .next { s with
        mach := (m.suspendSet s.mgmt bid f.h.scope (s.mach.slotMembers b k)).settleAll s.mgmt bid (s.mach.slotMembers b k) } ∧
      { m with blocks := s.mach.blocks } = s.mach.begun ∧ tabFind m.blocks bid = some b' ∧
      b'.slots = tabMod b.slots k (fun x => { x with held := true }) ∧ { b' with warps := b.warps, slots := b.slots } = b ∧
      ∀ x w, tabFind b.warps x = some w → ∃ w', tabFind b'.warps x = some w' ∧ w'.flow = w.flow ∧ (∀ r, w'.getReg r = w.getReg r) ∧
        ∀ j l, laneAt w j = some l → ∃ l', laneAt w' j = some l' ∧
          if (setElements s b k sl f.h f.g 32).any (fun v => v.warp == x && v.lane == j)
          then l.parksAt sl.issue f.h.scope x j (tabGet sl.arrived x 0) (.trap (f.imm.setWidth 8)) l' else l' = l

/-- R429, R431, R432, R434, R435: LD, LDL and LDB complete when their addresses exist, no page or byte of them stops the access and
no holder has to drain first; the registers receive the bytes, extended as the size says, the mask of what was read and, of
LDB, of the tolerance; latency V, after an outstanding fence.
R454: PREF never stops; it changes no register, no mask and no byte of memory. -/
def Obligations.LoadsAndPrefetch : Prop :=
  ((∀ (f : FormB LoadMods), LoadsVa (.ldB f) f.h f.g f.m.size f.d f.a (fun ow => [admits ow srcVSZ 1 f.b]) [⟨2, f.b, 1⟩]
    (fun v _ => globalAt (v.val64 1 f.a) (indexed2 f.b f.m.sh v) (sizeOfLoad f.m.size)) fun _ => 0) ∧
  (∀ (f : FormC LoadMods), LoadsVa (.ldC f) f.h f.g f.m.size f.d f.a (fun _ => []) []
    (fun v _ => globalAt (v.val64 1 f.a) f.imm.toInt (sizeOfLoad f.m.size)) fun _ => 0) ∧
  (∀ (f : FormB LoadMods), LoadsVa (.ldlB f) f.h f.g f.m.size f.d f.a (fun ow => [admits ow srcVSZ 1 f.b]) [⟨2, f.b, 1⟩]
    (fun v m => localAt m v ((v.val64 1 f.a).toNat + indexed2 f.b f.m.sh v) (sizeOfLoad f.m.size)) fun _ => 0) ∧
  (∀ (f : FormC LoadMods), LoadsVa (.ldlC f) f.h f.g f.m.size f.d f.a (fun _ => []) []
    (fun v m => localAt m v ((v.val64 1 f.a).toNat + f.imm.toInt) (sizeOfLoad f.m.size)) fun _ => 0) ∧
  (∀ (f : FormB LdbMods), LoadsVa (.ldb f) f.h f.g f.m.size f.d f.a (fun ow => [admits ow srcVSZ 1 f.b]) [⟨2, f.b, 1⟩]
    (fun v _ => globalAt (v.val64 1 f.a) 0 (sizeOfLoad f.m.size)) fun v => v.val 2 f.b) ∧
  (∀ (f : FormB LoadMods), LoadsSp (.ldsB f) f.h f.g f.m.size f.d f.a (fun ow => [admits ow srcVSZ 1 f.b]) [⟨2, f.b, 1⟩]
    (indexed2 f.b f.m.sh)) ∧
  (∀ (f : FormC LoadMods), LoadsSp (.ldsC f) f.h f.g f.m.size f.d f.a (fun _ => []) [] (fun _ => f.imm.toInt))) ∧
  ((∀ f : FormB PrefMods, ∃ fetch : View → Mach → Mach, (∀ v m, (fetch v m).mem = m.mem ∧ (fetch v m).hostMem = m.hostMem ∧
      (fetch v m).peerMem = m.peerMem ∧ (fetch v m).blocks = m.blocks) ∧
    Effects (.prefB f) f.h f.g .atIssue false true false allScopes
      (fun ow _ => allOf [admits ow srcVS 2 f.a, admits ow srcVSZ 1 f.b]) (fun _ => [⟨1, f.a, 2⟩, ⟨2, f.b, 1⟩]) anyTime
      (eachActs fun v m => some ({}, fetch v m))) ∧
  (∀ f : FormC PrefMods, ∃ fetch : View → Mach → Mach, (∀ v m, (fetch v m).mem = m.mem ∧ (fetch v m).hostMem = m.hostMem ∧
      (fetch v m).peerMem = m.peerMem ∧ (fetch v m).blocks = m.blocks) ∧
    Effects (.prefC f) f.h f.g .atIssue false true false allScopes
      (fun ow _ => allOf [admits ow srcVS 2 f.a]) (fun _ => [⟨1, f.a, 2⟩]) anyTime
      (eachActs fun v m => some ({}, fetch v m))))

/-- R429, R478, R479, R480: ST, STL and STS complete when their addresses exist and no page stops them: the low bytes of the
registers that DST names are stored, with the union of the masks of data, address, index, guard and flow. -/
def Obligations.MemoryStores : Prop :=
  (∀ (f : FormB StoreMods), Stores (.stB f) f.h f.g f.m.size f.d f.a (fun ow => [admits ow srcVSZ 1 f.b]) [⟨2, f.b, 1⟩]
    (storeAct f.m.size f.d (storeSources f.m.size f.d f.a [⟨2, f.b, 1⟩])
      fun v _ => globalAt (v.val64 1 f.a) (indexed2 f.b f.m.sh v) (sizeOfStore f.m.size))) ∧
  (∀ (f : FormC StoreMods), Stores (.stC f) f.h f.g f.m.size f.d f.a (fun _ => []) []
    (storeAct f.m.size f.d (storeSources f.m.size f.d f.a [])
      fun v _ => globalAt (v.val64 1 f.a) f.imm.toInt (sizeOfStore f.m.size))) ∧
  (∀ (f : FormB StoreMods), Stores (.stlB f) f.h f.g f.m.size f.d f.a (fun ow => [admits ow srcVSZ 1 f.b]) [⟨2, f.b, 1⟩]
    (storeAct f.m.size f.d (storeSources f.m.size f.d f.a [⟨2, f.b, 1⟩])
      fun v m => localAt m v ((v.val64 1 f.a).toNat + indexed2 f.b f.m.sh v) (sizeOfStore f.m.size))) ∧
  (∀ (f : FormC StoreMods), Stores (.stlC f) f.h f.g f.m.size f.d f.a (fun _ => []) []
    (storeAct f.m.size f.d (storeSources f.m.size f.d f.a [])
      fun v m => localAt m v ((v.val64 1 f.a).toNat + f.imm.toInt) (sizeOfStore f.m.size))) ∧
  (∀ (f : FormB StoreMods), Stores (.stsB f) f.h f.g f.m.size f.d f.a (fun ow => [admits ow srcVSZ 1 f.b]) [⟨2, f.b, 1⟩]
    (storeSpAct f.m.size f.d f.a (storeSources f.m.size f.d f.a [⟨2, f.b, 1⟩]) (indexed2 f.b f.m.sh))) ∧
  (∀ (f : FormC StoreMods), Stores (.stsC f) f.h f.g f.m.size f.d f.a (fun _ => []) []
    (storeSpAct f.m.size f.d f.a (storeSources f.m.size f.d f.a []) (fun _ => f.imm.toInt)))

/-- R108, R111, R114: a load of device bytes that no L1 copy, tracker or other claim stands before brings the bytes that memory
holds, as the page lets them be seen; its stamp is at least the lane's and the line's write stamp; no byte changes.
R111, R114, R480: a store of up to 16 bytes within one part of an unsealed writable device page, its mask within the page's,
writes exactly its bytes there and takes a stamp past the line's lease; every other byte of memory reads as before.
R108, R304: a scratchpad store within one block of 64 bytes writes exactly its bytes there and joins its mask to the block's,
or replaces it when it writes the whole block; every other byte and every other block's mask is unchanged, and a load of
the bytes brings them. -/
def Obligations.BytesOfMemory : Prop :=
  (∀ (m : Mach) mg v va n pts l pa, plainLoc m mg v va n l → l.place = .dev pa → noCopies m v.b.core pa →
    pa % 32 + n ≤ 32 → 0 < n → n ≤ 16 → m.presses = [] →
    ∃ m', m.loadVa mg v va n pts =
        (.ok ⟨m.viewBytes (m.viewOf v.actor l.leaf) pa n, max pts (m.lineStamps (lineOf pa)).wts, l.leaf.tag⟩, m') ∧
      m'.mem = m.mem ∧ m'.hostMem = m.hostMem ∧ m'.blocks = m.blocks) ∧
  (∀ (m : Mach) mg v va bs data pts l pa, plainLoc m mg v va bs.length l → l.place = .dev pa → l.leaf.w = true →
    l.leaf.sealed = false → m.storeOk v.b.ctx l.leaf.tag data = true → pa % 32 + bs.length ≤ 32 → 0 < bs.length →
    bs.length ≤ 16 → m.presses = [] → m.scrub = [] → m.memoriesOk = true → tabFind m.side (lineOf pa) = none →
    ∃ m' st, m.storeVa mg v va bs data pts = (.ok (st, [(pa, bs.length)]), m') ∧
      st = max pts ((m.lineStamps (lineOf pa)).rts + 1) ∧ m'.lineStamps (lineOf pa) = ⟨st, st⟩ ∧
      memRead m'.mem pa bs.length = bs ∧ (∀ a, ¬ (pa ≤ a ∧ a < pa + bs.length) → memGet m'.mem a = memGet m.mem a) ∧
      m'.hostMem = m.hostMem ∧ m'.blocks = m.blocks) ∧
  (∀ (m : Mach) bid a bs data pts b, tabFind m.blocks bid = some b → a % 64 + bs.length ≤ 64 → 0 < bs.length → b.spadBad = [] → Memory.wf b.spad = true →
    ∃ m' st b', m.storeSp bid a bs data pts = (st, m') ∧ tabFind m'.blocks bid = some b' ∧
      st = max pts ((blockStamps b (a / 64)).rts + 1) ∧
      memRead b'.spad a bs.length = bs ∧ (∀ x, ¬ (a ≤ x ∧ x < a + bs.length) → memGet b'.spad x = memGet b.spad x) ∧
      tabGet b'.spadTags (a / 64) 0 = (if bs.length = 64 then data else tabGet b.spadTags (a / 64) 0 ||| data) ∧
      (∀ i, i ≠ a / 64 → tabGet b'.spadTags i 0 = tabGet b.spadTags i 0) ∧ m'.mem = m.mem ∧
      ∃ m'' l, m'.loadSp bid a bs.length st = (.ok l, m'') ∧ l.bytes = bs ∧ l.stamp = st ∧
        l.tag = tabGet b'.spadTags (a / 64) 0)

/-- R374, R375, R376, R386, R387, R468, R470: ATOM and CAS of one lane complete, on a writable page of this module and in scratchpad,
for every operation and width: exactly the bytes at the address change, to the new value, and the lane receives what its
modifiers ask of the old value and the stamp. SBIN of one lane on a well-formed table completes: the lane receives its place in
the bin, or the refusal, and the count, the record and the overflow count follow.
R373, R374, R375, R376: ATOM at lane scope makes one read-modify-write per lane with the value of R373 and returns the old
value and the stamp that its modifiers ask for; above lane scope it completes when no element stops.
R375: the collective form on elements that all address one place in scratchpad: the elements receive, in order, what the
place held after the operations of the earlier ones, and the place is written once with the last value.
R386, R387: CAS stores the new value when the old one equals the compare value, and else the old one; it returns the old
value. R470: SBIN gives each key, in order, its place in its bin, or the refusal. -/
def Obligations.AtomicOperations : Prop :=
  ((∀ (f : FormB AtomMods) s q b w v,
    let n := if f.m.wide then 8 else 4
    let srcs : List Src := [⟨1, f.a, 2⟩, ⟨2, f.b, n / 4⟩]
    let x : BitVec 64 := if f.m.wide then v.val64 2 f.b else (v.val 2 f.b).setWidth 64
    OneLane s q b w f.h f.g v (allOf [atomDest (ownerOf s q b f.h) f.m.ret f.m.stamp f.m.wide f.d,
      admits (ownerOf s q b f.h) srcVS 2 f.a, admits (ownerOf s q b f.h) srcFp (n / 4) f.b]) →
    (∀ l pa, f.m.ms ≠ .blk → Writable s v (v.val64 1 f.a) n (v.tags srcs ||| v.base) l pa →
      Does (.atom f) s fun t => rmwDone s t q w v srcs l pa n (atomF f.m x) (atomResults f.m.ret f.m.stamp f.m.wide f.d)) ∧
    ∀ bid b2 ad, f.m.ms = .blk → InSpad s v (v.val64 1 f.a) n bid b2 ad →
      Does (.atom f) s fun t =>
        rmwSpadDone s t q w v srcs bid b2 ad n (atomF f.m x) (atomResults f.m.ret f.m.stamp f.m.wide f.d)) ∧
  (∀ (f : FormB CasMods) s q b w v,
    let n := if f.m.wide then 8 else 4
    let srcs : List Src := [⟨1, f.a, 2⟩, ⟨2, f.b, n / 4⟩, ⟨3, f.c, n / 4⟩]
    let x (pos : Nat) (o : Operand) : BitVec 64 := if f.m.wide then v.val64 pos o else (v.val pos o).setWidth 64
    OneLane s q b w f.h f.g v (allOf [atomDest (ownerOf s q b f.h) true f.m.stamp f.m.wide f.d,
      admits (ownerOf s q b f.h) srcVS 2 f.a, admits (ownerOf s q b f.h) srcFp (n / 4) f.b,
      admits (ownerOf s q b f.h) srcFp (n / 4) f.c]) →
    (∀ l pa, f.m.ms ≠ .blk → Writable s v (v.val64 1 f.a) n (v.tags srcs ||| v.base) l pa →
      Does (.cas f) s fun t => rmwDone s t q w v srcs l pa n (casF f.m.wide (x 2 f.b) (x 3 f.c))
        (atomResults true f.m.stamp f.m.wide f.d)) ∧
    ∀ bid b2 ad, f.m.ms = .blk → InSpad s v (v.val64 1 f.a) n bid b2 ad →
      Does (.cas f) s fun t => rmwSpadDone s t q w v srcs bid b2 ad n (casF f.m.wide (x 2 f.b) (x 3 f.c))
        (atomResults true f.m.stamp f.m.wide f.d)) ∧
  ∀ (f : FormB NoMods) s q b w v bid b2 ad h,
    OneLane s q b w f.h f.g v (allOf [admits (ownerOf s q b f.h) { v := true, zero := true } 1 f.d,
      admits (ownerOf s q b f.h) srcVS 2 f.a,
      admits (ownerOf s q b f.h) { v := true, s := true, spec := true, zero := true } 1 f.b,
      admits (ownerOf s q b f.h) srcFp 1 f.c]) →
    InSpad s v (v.val64 1 f.a) 16 bid b2 ad → TableAt b2 bid ad h →
    let key := (v.val 2 f.b).toNat
    Does (.sbin f) s fun t => sameMemory s.mach t.mach ∧
      (∃ tag st, laneThrough s t q w v [⟨1, f.a, 2⟩, ⟨2, f.b, 1⟩, ⟨3, f.c, 1⟩] tag
        (rangeOuts f.d (binResults h.nbins h.cap (h.count b2) [key])) st) ∧
      ∃ b', tabFind t.mach.blocks bid = some b' ∧
        (key < h.nbins → h.count b' key = min (h.count b2 key + 1) (2 ^ 32 - 1) ∧
          (h.count b2 key < h.cap → (h.doff + 4 * (h.nbins * h.cap) ≤ ad ∨ ad + 16 + 4 * h.nbins ≤ h.doff) →
            memRead b'.spad (h.doff + 4 * (key * h.cap + h.count b2 key)) 4 = bytesOfWord (v.val 3 f.c))) ∧
        (h.nbins ≤ key → natOfBytes (memRead b'.spad (ad + 8) 4) = min (h.ovf + 1) (2 ^ 32 - 1))) ∧
  ((∀ (mo : AtomMods) (x : BitVec 64) (bs : List Byte), bs.length = (if mo.wide then 8 else 4) →
    x.toNat < 2 ^ (if mo.wide then 64 else 32) → (mo.op = .fadd ∨ mo.op = .incsat → mo.wide = false) →
    (mo.op = .incsat → mo.unsigned = true) → natOfBytes (atomF mo x bs) =
      atomValue mo.op (if mo.wide then 64 else 32) mo.unsigned (natOfBytes bs) x.toNat ∧
      (atomF mo x bs).length = bs.length) ∧
  ∀ (f : FormB AtomMods), Effects (.atom f) f.h f.g .later true true true allScopes
    (fun ow _ => allOf [atomDest ow f.m.ret f.m.stamp f.m.wide f.d, admits ow srcVS 2 f.a,
      admits ow srcFp (if f.m.wide then 2 else 1) f.b])
    (fun _ => [⟨1, f.a, 2⟩, ⟨2, f.b, if f.m.wide then 2 else 1⟩]) anyTime
    (fun vs m => if f.h.scope = .lane then eachActs (atomAct f.m f.d f.a f.b) vs m
      else completed (atomSet f.m f.d f.a f.b) vs m)) ∧
  (∀ (mo : AtomMods) (old : BitVec 64) (l : List (Nat × BitVec 64)),
    (atomFold mo old l).1.map (·.1) = l.map (·.1) ∧
    (∀ k, k < l.length → ((atomFold mo old l).1[k]?).map (·.2) =
      some ((l.take k).foldl (fun v x => atomNew mo.op mo.wide mo.unsigned v x.2) old)) ∧
    (atomFold mo old l).2 = l.foldl (fun v x => atomNew mo.op mo.wide mo.unsigned v x.2) old) ∧
  ((∀ wide c n (bs : List Byte), bs.length = (if wide then 8 else 4) → n.toNat < 2 ^ (if wide then 64 else 32) →
    natOfBytes (casF wide c n bs) = if natOfBytes bs = c.toNat then n.toNat else natOfBytes bs) ∧
  (∀ (f : FormB CasMods), Effects (.cas f) f.h f.g .later false true true allScopes
    (fun ow _ => allOf [atomDest ow true f.m.stamp f.m.wide f.d, admits ow srcVS 2 f.a,
      admits ow srcFp (if f.m.wide then 2 else 1) f.b, admits ow srcFp (if f.m.wide then 2 else 1) f.c])
    (fun _ => [⟨1, f.a, 2⟩, ⟨2, f.b, if f.m.wide then 2 else 1⟩, ⟨3, f.c, if f.m.wide then 2 else 1⟩]) anyTime
    (eachActs (casAct f.m f.d f.a f.b f.c))) ∧
  (∀ (h : BinTable) kvs tags pts (m : Mach), (sbinApply h kvs tags pts m).1 =
    binResults h.nbins h.cap (fun k => natOfBytes (m.spadBytes h.bid (h.t + 16 + 4 * k) 4)) (kvs.map (·.1.toNat))) ∧
  (∀ (f : FormB NoMods), Effects (.sbin f) f.h f.g .later true true true allScopes
    (fun ow _ => allOf [admits ow { v := true, zero := true } 1 f.d, admits ow srcVS 2 f.a,
      admits ow { v := true, s := true, spec := true, zero := true } 1 f.b, admits ow srcFp 1 f.c])
    (fun _ => if f.h.scope = .lane then [⟨1, f.a, 2⟩, ⟨2, f.b, 1⟩, ⟨3, f.c, 1⟩] else [⟨2, f.b, 1⟩, ⟨3, f.c, 1⟩]) anyTime
    (fun vs m => if f.h.scope = .lane then completed (eachRun (sbinLane f.d f.a f.b f.c)) vs m
      else completed (sbinSet f.d f.a f.b f.c) vs m)))

/-- R378: what an arrival, a count-down and BINIT make of a barrier object: an arrival at an object that was not set up changes
nothing; a phase completes when nothing is owed, and then every arrival is owed again.
R379, R380, R381: BINIT, BARV and BEXP are one read-modify-write of the object and return the token of its phase; BTEST
compares the phase with a token; BWAIT goes on once the phase differs, and waits until then. -/
def Obligations.BarrierObjectsAndWaits : Prop :=
  ((∀ o : BarObj, barOf o.pack = o) ∧
  (∀ o : BarObj, o.count = 0 → o.arrive = o) ∧
  (∀ o : BarObj, o.count ≠ 0 → let p := o.pend - (if o.pend = 0 then 0 else 1)
    o.arrive = if p = 0 ∧ o.bytes = 0 then { o with pend := o.count, phase := o.phase + 1 } else { o with pend := p }) ∧
  (∀ (o : BarObj) n, o.countDown n = let b := o.bytes - BitVec.ofNat 32 n
    if o.count ≠ 0 ∧ o.pend = 0 ∧ b = 0 then { o with bytes := b, pend := o.count, phase := o.phase + 1 }
    else { o with bytes := b }) ∧
  (∀ (o : BarObj) n, o.expect n = BarObj.arrive { o with bytes := o.bytes + n }) ∧
  (∀ (o : BarObj) c e, o.init c e = { pend := c, count := c, ext := e, phase := o.phase, bytes := 0 })) ∧
  ((∀ f, UpdatesBarrier (.binit f) f 1 fun v => if 1 ≤ (v.val 2 f.b).toNat ∧ (v.val 2 f.b).toNat ≤ 4095
    then some fun o => o.init ((v.val 2 f.b).setWidth 12) f.m.ext else none) ∧
  (∀ f, UpdatesBarrier (.barv f) f 0 fun _ => some BarObj.arrive) ∧
  (∀ f, UpdatesBarrier (.bexp f) f 1 fun v => if (v.val 2 f.b).toNat < 2 ^ 31 then some fun o => o.expect (v.val 2 f.b)
    else none) ∧
  (∀ (f : FormB BarrierMods), Effects (.btest f) f.h f.g .later false true true allScopes
    (fun ow _ => allOf [admits ow srcP 1 f.d, admits ow srcVS 2 f.a, admits ow srcVS 1 f.b])
    (fun _ => [⟨1, f.a, 2⟩, ⟨2, f.b, 1⟩]) anyTime (eachActs (btestAct f.m f.d f.a f.b))) ∧
  (∀ (f : FormB BarrierMods), Effects (.bwait f) f.h f.g .open_ false true true allScopes
    (fun ow _ => allOf [admits ow srcVS 2 f.a, admits ow srcVS 1 f.b]) (fun _ => [⟨1, f.a, 2⟩, ⟨2, f.b, 1⟩])
    (fun vs m => bwaitReady f.m f.a f.b (isWide f.h.scope) vs m = true) (eachActs (bwaitAct f.m f.a f.b))))

/-- R411, R131, R132, R133: a FENCE stands outstanding in its warp, for the active lanes, with what it waits for; it ends once
that is over, and only then: each of its lanes takes the program stamp of its kind, FENCE.POSTED writes its pair, and the other
lanes stay as they were.
R131, R132, R412: which stamp a lane takes at a fence's end, and when the end comes. -/
def Obligations.FencesAndStamps : Prop :=
  ((∀ (f : FormB FenceMods), Effects (.fence f) f.h f.g .open_ true true true laneWarp
    (fun ow _ => isZero f.d = true ∨ (f.m.kind = .posted ∧ admits ow (dstVS ow) 2 f.d = true)) (fun _ => []) anyTime
    (fenceAct f.m.kind f.d)) ∧
  ∀ s bid warp b w f, s.mgmt.power = .on → tabFind s.mach.blocks bid = some b → tabFind b.warps warp = some w →
    w.fence = some f → ∃ (m : Mach) (w' : Warp), exec (.fenceComplete bid warp) s = .next { s with mach := m } ∧
      m.warp? bid warp = some w' ∧ m.mem = s.mach.mem ∧
      if s.mach.fenceOver b bid warp f then
        w'.fence = none ∧ (f.kind ≠ .posted ∨ isZero f.dst = true → ∀ r, w'.getReg r = w.getReg r) ∧
        (f.kind = .posted → (f.tags.map (·.1)).Nodup → ∀ x ∈ f.tags, ∀ l n, laneAt w x.1 = some l → f.dst = .v n → ∀ j, j < 2 →
          (∃ p ∈ w.pend, p.id = f.flight ∧ p.reg = .v x.1 (n.toNat + j) ∧ p.live = true) →
          w'.getReg (.v x.1 (n.toNat + j)) = ⟨BitVec.ofNat 32 (fencePts s.mach w f l / 2 ^ (32 * j)), x.2⟩) ∧
        ∀ k l, laneAt w k = some l → ∃ l', laneAt w' k = some l' ∧ l'.st = l.st ∧ l'.pc = l.pc ∧
          l'.pts = if f.lanes.getLsbD k then fencePts s.mach w f l else l.pts
      else m = s.mach) ∧
  ((∀ m w (f : Fence) l, f.kind = .sys → fencePts m w f l = l.pts) ∧
  (∀ m w (f : Fence) l, f.kind = .engine → fencePts m w f l = max l.pts m.maxStamp) ∧
  (∀ m w (f : Fence) l, f.kind = .posted → f.scope = .lane → fencePts m w f l = max l.pts l.posted) ∧
  (∀ m w (f : Fence) l, f.kind = .posted → f.scope = .warp → ∀ k x, f.lanes.getLsbD k = true → laneAt w k = some x →
    x.pts ≤ fencePts m w f l ∧ x.posted ≤ fencePts m w f l) ∧
  (∀ (m : Mach) b bid warp (f : Fence), f.kind = .posted → (m.fenceOver b bid warp f = true ↔
    ∀ r ∈ m.presses, r.reply = none → ∀ x ∈ r.lanes, x.bid = bid → x.warp = warp → x.lane < 32 →
      f.lanes.getLsbD x.lane = false)) ∧
  (∀ (m : Mach) b bid warp (f : Fence), f.kind = .sys → (m.fenceOver b bid warp f = true ↔
    ∀ p ∈ m.posted, p.id ∉ f.waits)))

/-- R155, R156, R457, R458: PRESS of one lane that names a valid definition, with an operand of registers and a granule in a writable
page, completes: its request is on its way, as a combining entry if its class is 2, and the lane goes on. PRESSR likewise: its
request carries the reply it is owed, for which the warp waits.
R456, R457, R458: PRESS completes as it is issued, PRESSR owes its reply to four registers, eight with the stamp.
R155, R157, R160, R456, R459: what a lane sends: the definition that its context's table holds as valid, at an address that
the granule divides, with the operand words of the definition and a mask that takes in the
definition's; a lane that names an entry with no valid definition stops with PUNDEF. -/
def Obligations.PressRequestsOfLanes : Prop :=
  ((∀ (f : FormB PressMods) s q b w v e l pa, OneLane s q b w f.h f.g v (allOf [admits (ownerOf s q b f.h) srcVS 2 f.a,
      opndOk (ownerOf s q b f.h) (pressEntry (s.mach.ctx b.ctx) f.m.opc.toNat) f.b]) →
    Sendable s v f.m f.a f.b e l pa → (e.image.cls = 2 → 0 < combQuota s.mgmt (deviceOf b.ctx)) →
    Does (.press f) s fun t => sameMemory s.mach t.mach ∧
      laneThrough s t q w v (pressSrcs (s.mach.ctx b.ctx) f.m f.a f.b) 0 [] v.pts ∧
      ∃ r, t.mach.presses = [r] ∧ Sent s v f.m f.b e pa r ∧ r.reply = none ∧
        r.comb = if e.image.cls = 2 then some (clusterOf b.core, s.mach.cycle) else none) ∧
  ∀ (f : FormB PressMods) s q b w v e l pa, OneLane s q b w f.h f.g v (allOf [
      admits (ownerOf s q b f.h) { v := true, s := (ownerOf s q b f.h).wide } (if f.m.stamp then 8 else 4) f.d,
      admits (ownerOf s q b f.h) srcVS 2 f.a,
      opndOk (ownerOf s q b f.h) (pressEntry (s.mach.ctx b.ctx) f.m.opc.toNat) f.b]) →
    Sendable s v f.m f.a f.b e l pa → w.block = none →
    Does (.pressr f) s fun t => sameMemory s.mach t.mach ∧
      laneThrough s t q w v (pressSrcs (s.mach.ctx b.ctx) f.m f.a f.b) 0 [] v.pts ∧
      ∃ r p b' w', t.mach.presses = [r] ∧ Sent s v f.m f.b e pa r ∧ r.comb = none ∧ r.reply = some p ∧
        p.bid = q.bid ∧ p.warp = q.warp ∧ p.dst = f.d ∧ p.stamp = f.m.stamp ∧ p.id = s.mach.ids ∧
        Stands t.mach q.bid q.warp b' w' ∧ w'.block = some (.replies [r.id])) ∧
  ((∀ (f : FormB PressMods), Effects (.press f) f.h f.g .atIssue false true true laneWarp
    (fun ow c => allOf [admits ow srcVS 2 f.a, opndOk ow (pressEntry c f.m.opc.toNat) f.b])
    (fun c => pressSrcs c f.m f.a f.b)
    (fun vs m => pressReadyToGo f.m f.a f.b (if f.h.scope = .lane then vs else vs.take 1) m = true)
    (completed (eachRun (pressLane f.m f.a f.b)))) ∧
  ∀ (f : FormB PressMods), Effects (.pressr f) f.h f.g .open_ false true true laneWarp
    (fun ow c => allOf [admits ow { v := true, s := ow.wide } (if f.m.stamp then 8 else 4) f.d, admits ow srcVS 2 f.a,
      opndOk ow (pressEntry c f.m.opc.toNat) f.b])
    (fun c => pressSrcs c f.m f.a f.b) anyTime (completed (eachRun (pressrLane f.m f.d f.a f.b)))) ∧
  ((∀ (mo : PressMods) a b returns v (m : Mach), pressEntry (m.ctx v.b.ctx) mo.opc.toNat = none →
    pressResolve mo a b returns v m = (.error (Stop.plain (.pundef mo.opc.toNat)), m)) ∧
  (∀ (c : Ctx) k, (pressEntry c k).isSome ↔ ∃ e, tabFind c.press k = some e ∧ e.dropping = false) ∧
  ∀ (mo : PressMods) a b returns v m r reg data m', pressResolve mo a b returns v m = (.ok (r, reg, data), m') →
    ∃ e, pressEntry (m.ctx v.b.ctx) mo.opc.toNat = some e ∧ r.image = e.image ∧ r.opc = mo.opc.toNat ∧ r.ctx = v.b.ctx ∧
      r.va = (v.val64 1 a).toNat ∧ r.va % e.image.size = 0 ∧ r.va + e.image.size ≤ 2 ^ 48 ∧ v.pts ≤ r.pts ∧
      (e.image.opnd ≠ 5 → r.opnd = v.vals 2 b e.image.opnd) ∧ e.tag ||| data = data ∧
      r.count = 1 ∧ r.lanes = v.set ∧ r.reply = none)

/-- R163: the effect of each arithmetic micro-operation, in integers. -/
def Obligations.MicroOperations : Prop :=
  ∀ (rkind : Nat) (opnd : List Word) (u : BitVec 16) (s : UState), s.t.length = 8 →
    let s' := uStep rkind opnd u s
    let t (j : Nat) : Word := s.t.getD j 0
    let r := s'.t.getD (uD u) 0
    let a := t (uA u)
    let b := t (uB u)
    (∀ j, j ≠ uD u ∨ uD u ∉ uWrites u → s'.t.getD j 0 = t j) ∧ s'.t.length = 8 ∧
    (uCode u ≠ 2 → s'.buf = s.buf ∧ s'.stf = s.stf) ∧ (uCode u ≠ 0x15 → s'.ret = s.ret) ∧
    (uCode u = 1 → r = s.buf.getD (uLow u) 0) ∧
    (uCode u = 2 → s'.buf = s.buf.set (uLow u) (t (uD u)) ∧ s'.stf = true) ∧
    (uCode u = 3 → r = opnd.getD (uK u) 0) ∧
    (uCode u = 4 → uV u = 0 → r.toNat = (a.toNat + b.toNat) % 2 ^ 32) ∧
    (uCode u = 4 → uV u = 1 → r.toNat = min (a.toNat + b.toNat) (2 ^ 32 - 1)) ∧
    (uCode u = 4 → uV u = 2 → r.toInt = saturate (-2 ^ 31) (2 ^ 31 - 1) (a.toInt + b.toInt)) ∧
    (uCode u = 5 → uV u = 0 → (r.toNat : Int) = ((a.toNat : Int) - b.toNat) % 2 ^ 32) ∧
    (uCode u = 5 → uV u = 1 → r.toNat = a.toNat - b.toNat) ∧
    (uCode u = 5 → uV u = 2 → r.toInt = saturate (-2 ^ 31) (2 ^ 31 - 1) (a.toInt - b.toInt)) ∧
    (uCode u = 6 → r.toNat = a.toNat * b.toNat % 2 ^ 32) ∧
    (uCode u = 9 → uV u = 0 → r.toInt = min a.toInt b.toInt) ∧
    (uCode u = 9 → uV u = 1 → r.toNat = min a.toNat b.toNat) ∧
    (uCode u = 0xA → uV u = 0 → r.toInt = max a.toInt b.toInt) ∧
    (uCode u = 0xA → uV u = 1 → r.toNat = max a.toNat b.toNat) ∧
    (uCode u = 0xB → r = a &&& b) ∧ (uCode u = 0xC → r = a ||| b) ∧ (uCode u = 0xD → r = a ^^^ b) ∧
    (uCode u = 0xE → r.toNat = a.toNat * 2 ^ uN u % 2 ^ 32) ∧
    (uCode u = 0xF → r.toNat = a.toNat / 2 ^ uN u) ∧
    (uCode u = 0x10 → r.toInt = a.toInt / 2 ^ uN u) ∧
    (uCode u = 0x11 → r = 0 ∨ r = 1) ∧
    (uCode u = 0x11 → uV u = 0 → (r = 1 ↔ a = b)) ∧
    (uCode u = 0x11 → uV u = 1 → (r = 1 ↔ a.toInt < b.toInt)) ∧
    (uCode u = 0x11 → uV u = 2 → (r = 1 ↔ a.toNat < b.toNat)) ∧
    (uCode u = 0x12 → r = if t (uD u) ≠ 0 then a else b) ∧
    (uCode u = 0x13 → r.toNat = min a.toNat (2 ^ (uN u + 1) - 1)) ∧
    (uCode u = 0x14 → r.toInt = saturate (-2 ^ uN u) (2 ^ uN u - 1) a.toInt) ∧
    (uCode u = 0x15 → rkind = 2 → s'.ret.toNat = a.toNat + 2 ^ 32 * b.toNat) ∧
    (uCode u = 0x15 → rkind = 1 → s'.ret.toNat = a.toNat)

/-- R165: an image that passes PDEF's checks has 1 to 16 legal micro-operations, whose fields lie in the granule and the
operands; and its application reads no temporary that it has not written: whatever the temporaries hold before it, the granule
and the returned value come out the same. -/
def Obligations.CheckedImagesAreDetermined : Prop :=
  ∀ d : PressImage, d.check = none → d.uops.length = d.nuop →
    (1 ≤ d.nuop ∧ d.nuop ≤ 16 ∧ 3 ≤ d.gran ∧ d.gran ≤ 10) ∧
    (∀ u ∈ d.uops, uLegal d.rkind u = true ∧ (uCode u = 1 ∨ uCode u = 2 → 4 * uLow u + 4 ≤ d.size) ∧
      (uCode u = 3 → uK u < opndWords d.opnd)) ∧
    ∀ (opnd t1 t2 buf : List Word), t1.length = 8 → t2.length = 8 →
      let r1 := uRun d opnd 16 0 ⟨t1, buf, 0, false⟩
      let r2 := uRun d opnd 16 0 ⟨t2, buf, 0, false⟩
      r1.buf = r2.buf ∧ r1.ret = r2.ret ∧ r1.stf = r2.stf

/-- R165, R451, R452: PDEF reads the image at an address that is a multiple of 8, writes the status of its checks, and on status
0 the entry is valid with the image; R159, R453: PDROP makes a valid entry dropping and completes at once for an empty one; the
end of a drop, once no request with the definition is open, empties the entry. -/
def Obligations.PressTable : Prop :=
  (∀ (f : FormB NoMods), Effects (.pdef f) f.h f.g .later false true true warpOnly
    (fun ow _ => allOf [admits ow (dstVSZ ow) 1 f.d, admits ow srcVS 2 f.a, admits ow srcVSZ 1 f.b])
    (fun _ => [⟨1, f.a, 2⟩, ⟨2, f.b, 1⟩]) anyTime (completed (eachRun (pdefRun f.d f.a f.b)))) ∧
  (∀ d a b v m e m', (v.val 2 b).toNat < 64 → pdefRun d a b v m = (.ok e, m') →
    ∃ img st tag, ∃ m1 : Mach, readImage v (v.val64 1 a) m = (.ok (img, st, tag), m1) ∧ (v.val64 1 a).toNat % 8 = 0 ∧
      e.outs.map (·.val) = [BitVec.ofNat 32 (m1.pdefStatus v.mg v.b.ctx (v.val 2 b).toNat img)] ∧
      (m1.pdefStatus v.mg v.b.ctx (v.val 2 b).toNat img ≠ 0 → m' = m1) ∧
      (m1.pdefStatus v.mg v.b.ctx (v.val 2 b).toNat img = 0 → tabHas m1.ctxs v.b.ctx = true →
        ∃ x, pressEntry (m'.ctx v.b.ctx) (v.val 2 b).toNat = some x ∧ x.image = img ∧ tag ||| x.tag = x.tag)) ∧
  (∀ (f : FormC NoMods), Effects (.pdrop f) f.h f.g .open_ false true true warpOnly (fun _ _ => f.imm.toNat < 64)
    (fun _ => []) anyTime (eachActs fun v m => match tabFind (m.ctx v.b.ctx).press f.imm.toNat with
      | none => some ({ closed := true }, m)
      | some e =>
        let e' : PressEntry := { e with dropping := true, waiters := e.waiters ++ [(v.q.bid, v.warp, v.id)] }
        some ({}, m.modCtx v.b.ctx fun c => { c with press := tabSet c.press f.imm.toNat e' }))) ∧
  ∀ s ctx opc e, s.mgmt.power = .on → tabHas s.mach.ctxs ctx = true → tabFind (s.mach.ctx ctx).press opc = some e →
    e.dropping = true → (∀ r ∈ s.mach.presses, r.ctx = ctx → r.opc = opc → r.remote = none → r.target ≠ none) →
    (∀ p, .press p ∈ (s.mach.ctx ctx).arrivals ++ (s.mach.ctx ctx).refused.map (·.2.2) → p.local_ = true → p.opc.toNat ≠ opc) →
    ∃ m : Mach, exec (.pdropComplete ctx opc) s = .next { s with mach := m } ∧
      (∀ k, tabFind (m.ctx ctx).press k = if k = opc then none else tabFind (s.mach.ctx ctx).press k) ∧
      ∀ x ∈ e.waiters, ∀ w, m.warp? x.1 x.2.1 = some w → ∀ g ∈ w.flights, g.id ≠ x.2.2

/-- R211, R213, R231, R232, R484, R486, R126: CKICK, TIER, MMA and TDRAIN complete their issue once the queue has room; the
command is the last of its queue, with its block as it stood, its tile taken, and what REL asks it to wait for. -/
def Obligations.EngineCommandsQueue : Prop :=
  let kicks (i : Instr) (h : Head) (g : Guard) (a : Operand) (tier : Bool) : Prop :=
    Effects i h g .open_ false true true warpOnly (fun ow _ => allOf [admits ow srcVS 1 a]) (fun _ => [⟨1, a, 1⟩])
      (fun vs m => kickReady a vs m = true) (eachActs (kickAct tier a))
  (∀ f, kicks (.ckickA f) f.h always f.a false) ∧ (∀ f, kicks (.ckickB f) f.h f.g f.a false) ∧
  (∀ f, kicks (.tierA f) f.h always f.a true) ∧ (∀ f, kicks (.tierB f) f.h f.g f.a true) ∧
  (∀ f, Effects (.mmaA f) f.h always .open_ false true true warpOnly (fun ow _ => allOf [admits ow srcVS 1 f.a])
    (fun _ => [⟨1, f.a, 1⟩]) (fun vs m => mxReady vs m = true) (eachActs (mmaAct f.a))) ∧
  (∀ f, Effects (.mmaB f) f.h f.g .open_ false true true warpOnly (fun ow _ => allOf [admits ow srcVS 1 f.a])
    (fun _ => [⟨1, f.a, 1⟩]) (fun vs m => mxReady vs m = true) (eachActs (mmaAct f.a))) ∧
  (∀ f, Effects (.tdrain f) f.h f.g .open_ false true true warpOnly
    (fun ow _ => allOf [admits ow onlyA 1 f.d, admits ow { s := true, zero := f.m.nomem } 2 f.a,
      admits ow { s := true, zero := f.m.nomem } 1 f.b]) (fun _ => [⟨1, f.a, 2⟩, ⟨2, f.b, 1⟩])
    (fun vs m => mxReady vs m = true) (eachActs (tdrainAct f.m f.d f.a f.b)))

/-- R206, R207, R210, R482, R483: TALLOC is answered at once beyond the launch's maximum and waits its turn otherwise; TFREE
unbinds its handle; the oldest TALLOC of a core, once enough tiles and handles are free, binds the lowest free handles to the
lowest free tiles, and leaves the queue; a tile that no command queued before its TFREE names any more is free again. -/
def Obligations.TilesGrantedAndFreed : Prop :=
  (∀ (f : FormC NoMods), Effects (.talloc f) f.h f.g .open_ false true true { warp := true, block := true }
    (fun ow _ => admits ow { s := ow.wide, zero := true } 1 f.d = true ∧ 1 ≤ f.imm.toNat ∧ f.imm.toNat ≤ 16) (fun _ => []) anyTime
    (eachActs (tallocAct f.imm.toNat f.d))) ∧
  (∀ (f : FormA), Effects (.tfree f) f.h always .open_ false true true { warp := true, block := true }
    (fun ow _ => allOf [admits ow onlyA 1 f.a]) (fun _ => []) anyTime (eachActs (tfreeAct f.a))) ∧
  (∀ s core r rest b, s.mgmt.power = .on → (s.mach.core core).tileQ = r :: rest → (∀ x ∈ rest, x.id ≠ r.id) →
    tabFind s.mach.blocks r.bid = some b → b.resident = true →
    (∀ x ∈ r.lanes, ∃ w k l, tabFind b.warps x.1 = some w ∧ laneAt w k = some l ∧ x.2.1.getLsbD k = true ∧
      l.st = .waiting .talloc) →
    let freeT := (List.range 16).filter fun t => !tabHas (s.mach.core core).tiles t
    let freeH := (List.range 16).filter fun h => !tabHas b.handles h
    r.n ≤ freeT.length → r.n ≤ freeH.length →
    ∃ (m : Mach) (b' : Block), exec (.tallocGrant core) s = .next { s with mach := m } ∧ (m.core core).tileQ = rest ∧
      tabFind m.blocks r.bid = some b' ∧ m.mem = s.mach.mem ∧
      (∀ h t, (h, t) ∈ (freeH.take r.n).zip (freeT.take r.n) → tabFind b'.handles h = some t ∧
        ∃ x, tabFind (m.core core).tiles t = some x ∧ x.owner = r.bid ∧ x.valid = true ∧ x.type = .either ∧ x.words = ⟨[]⟩) ∧
      (∀ h, h ∉ freeH.take r.n → tabFind b'.handles h = tabFind b.handles h) ∧
      ∀ x ∈ r.lanes, ∀ w, tabFind b.warps x.1 = some w → ∃ w', tabFind b'.warps x.1 = some w' ∧
        (∀ n, regOf 0 r.dst 0 = some (.s n) → (∃ p ∈ w.pend, p.id = r.id ∧ p.reg = .s n ∧ p.live = true) →
          w'.getReg (.s n) = ⟨BitVec.ofNat 32 (maskOf (freeH.take r.n)).toNat, r.tags⟩) ∧
        ∀ k l, laneAt w k = some l → x.2.1.getLsbD k = true → l.st = .waiting .talloc →
          ∃ l', laneAt w' k = some l' ∧ l'.st = .ready ∧ l'.pts = l.pts) ∧
  ∀ s core tile x waits flights, s.mgmt.power = .on → tabFind (s.mach.core core).tiles tile = some x →
    x.free = some (waits, flights) → (∀ c ∈ s.mach.allCommands, c.id ∉ waits) →
    ∃ m : Mach, exec (.tfreeRelease core tile) s = .next { s with mach := m } ∧
      (∀ t, tabFind (m.core core).tiles t = if t = tile then none else tabFind (s.mach.core core).tiles t) ∧ m.mem = s.mach.mem

/-- R309, R313, R390, R391, R393, R462: CSRD of one lane completes with the value of its register; CSRW completes its issue and its
write is noted; RELG of a block in scratchpad completes its issue, and its request is the last of the gate's queue.
R309, R311, R312: a request that passes every check of the gate has its buffer written to host memory and is answered with
status 0.
R309, R313, R462: RELG queues its request while the gate holds fewer than 64; R390, R391, R393: CSRD reads a register of the
table in the registers of its width, and CSRW waits for its completion, which changes BIN.TIMER and CORE.CHECK alone.
R309, R311, R312, R313: the gate takes the oldest request once the presses that it waits for are over. A release block that is not
well formed is answered with code 1 and nothing leaves; a request that passes every check has its buffer written to its
destination, its bytes charged to its policy's budget, and status 0. -/
def Obligations.GateAndControlRegisters : Prop :=
  ((∀ (f : FormC NoMods) s q b w v k, OneLane s q b w f.h f.g v
      (csrRegs f.imm.toNat = some k ∧ admits (ownerOf s q b f.h) (dstVS (ownerOf s q b f.h)) k f.d = true) →
    let x := csrValue v s.mach.begun f.imm.toNat
    Does (.csrd f) s fun t => sameMemory s.mach t.mach ∧ laneThrough s t q w v [] 0
      (rangeOuts f.d ([x.setWidth 32, (x >>> 32).setWidth 32].take k)) (wptrStamp v s.mach.begun f.imm.toNat)) ∧
  (∀ (f : FormC NoMods) s q b w v, LeadsWarp s q b w f.h f.g v
      (admits (ownerOf s q b f.h) srcVSZ 1 f.a = true ∧ (csrRegs f.imm.toNat).isSome = true ∧ f.imm ≠ 0x111 ∧ f.imm ≠ 0x112 ∧
        f.imm ≠ 0x113) →
    Does (.csrw f) s fun t => sameMemory s.mach t.mach ∧ ∃ b' w', Stands t.mach q.bid q.warp b' w' ∧ groupThrough q w w' ∧
      w'.csrw = w.csrw ++ [(s.mach.ids, f.imm.toNat, v.val 1 f.a)]) ∧
  ∀ (f : FormB NoMods) s q b w v, LeadsWarp s q b w f.h f.g v
      (allOf [admits (ownerOf s q b f.h) { s := (ownerOf s q b f.h).wide, zero := true } 1 f.d,
        admits (ownerOf s q b f.h) srcVS 1 f.a]) →
    let x := (v.val 1 f.a).toNat
    x % 64 = 0 → x + 64 ≤ b.spadSize → x < 2 ^ 20 → b.spadBad = [] → s.mach.gate.length < 64 →
    Does (.relg f) s fun t => sameMemory s.mach t.mach ∧
      (∃ b' w', Stands t.mach q.bid q.warp b' w' ∧ groupThrough q w w') ∧
      ∃ g : GateReq, t.mach.gate = s.mach.gate ++ [g] ∧ g.block = BitVec.ofNat 512 (natOfBytes (memRead b.spad x 64)) ∧
        g.blockTag = tabGet b.spadTags (x / 64) 0 ∧ g.bid = q.bid ∧ g.warp = q.warp ∧ g.ctx = b.ctx ∧ g.launch = b.launch ∧
        g.dst = f.d ∧ g.flight = s.mach.ids) ∧
  (∀ s g rest b w p h, isOn s → s.mach.gate = g :: rest → (∀ r ∈ s.mach.presses, ∀ k ∈ r.ids, k ∉ g.waits) →
    Stands s.mach g.bid g.warp b w → Passes s g b p h →
    let r := releaseOf g.block
    let buffer := s.mach.bytesAt (engineOf g.ctx g.launch b.core) r.src r.len
    Does .releaseGateProcess s fun t => memRead t.mach.hostMem h r.len = buffer ∧ t.mach.mem = s.mach.mem ∧ t.mach.gate = rest ∧
      ∃ b' w', Stands t.mach g.bid g.warp b' w' ∧ (∀ f ∈ w'.flights, f.id ≠ g.flight) ∧
        ∀ n, regOf 0 g.dst 0 = some (.s n) → (∃ x ∈ w.pend, x.id = g.flight ∧ x.reg = .s n ∧ x.live = true) →
          (w'.getReg (.s n)).val = 0) ∧
  ((∀ (f : FormB NoMods), Effects (.relg f) f.h f.g .open_ false true true warpOnly
    (fun ow _ => allOf [admits ow { s := ow.wide, zero := true } 1 f.d, admits ow srcVS 1 f.a]) (fun _ => [⟨1, f.a, 1⟩])
    (fun vs m => vs = [] ∨ m.gate.length < 64) (eachActs (relgAct f.d f.a))) ∧
  (∀ (f : FormC NoMods), Effects (.csrd f) f.h f.g .later false true true allScopes
    (fun ow _ => ∃ k, csrRegs f.imm.toNat = some k ∧ admits ow (dstVS ow) k f.d = true) (fun _ => []) anyTime
    (eachActs (csrdAct f.imm.toNat f.d))) ∧
  (∀ (f : FormC NoMods), Effects (.csrw f) f.h f.g .open_ false true true warpOnly
    (fun ow _ => admits ow srcVSZ 1 f.a = true ∧ (csrRegs f.imm.toNat).isSome = true ∧ f.imm ≠ 0x111 ∧ f.imm ≠ 0x112 ∧
      f.imm ≠ 0x113) (fun _ => [⟨1, f.a, 1⟩]) anyTime (eachActs (csrwAct f.imm.toNat f.a))) ∧
  ∀ (c : Ctx) n x, c.csrWrite n x =
    if n = 0x110 then { c with binTimer := x.setWidth 18 } else if n = 0x114 then { c with check := x.getLsbD 0 } else c) ∧
  ((∀ s g rest, isOn s → s.mach.gate = g :: rest → (∃ r ∈ s.mach.presses, ∃ k ∈ r.ids, k ∈ g.waits) →
    exec .releaseGateProcess s = .next s) ∧
  (∀ s g rest b w, isOn s → s.mach.gate = g :: rest → (∀ r ∈ s.mach.presses, ∀ k ∈ r.ids, k ∉ g.waits) →
    (releaseOf g.block).bad = true → Stands s.mach g.bid g.warp b w →
    Does .releaseGateProcess s fun t => sameMemory s.mach t.mach ∧ t.mach.gate = rest ∧ t.mach.ctxs = s.mach.ctxs ∧
      ∃ b' w', Stands t.mach g.bid g.warp b' w' ∧ (∀ f ∈ w'.flights, f.id ≠ g.flight) ∧
        ∀ n, regOf 0 g.dst 0 = some (.s n) → (∃ p ∈ w.pend, p.id = g.flight ∧ p.reg = .s n ∧ p.live = true) →
          w'.getReg (.s n) = ⟨1, g.blockTag ||| g.tags ||| g.tags⟩) ∧
  ∀ s g rest b w x tag m1 h, isOn s → s.mach.gate = g :: rest → (∀ r ∈ s.mach.presses, ∀ k ∈ r.ids, k ∉ g.waits) →
    Stands s.mach g.bid g.warp b w → (releaseOf g.block).bar = 0 →
    ({ s.mach with gate := rest } : Mach).gateChecks s.mgmt (engineOf g.ctx g.launch b.core) g (releaseOf g.block) =
      ((.ok x, tag), m1) → m1.blocks = s.mach.blocks → m1.memoriesOk = true → m1.hostHeld g.ctx = false →
    m1.hostDead g.ctx = false → x.dest = [(.host h, x.buffer.length)] → tabHas m1.ctxs g.ctx = true →
    Does .releaseGateProcess s fun t => memRead t.mach.hostMem h x.buffer.length = x.buffer ∧ t.mach.mem = m1.mem ∧
      (∀ y, y ∈ (t.mach.ctx g.ctx).budgets → y.pid ≠ x.pid → y ∈ (m1.ctx g.ctx).budgets) ∧
      (∃ y ∈ (t.mach.ctx g.ctx).budgets, y.pid = x.pid) ∧
      ∃ b' w', Stands t.mach g.bid g.warp b' w' ∧ (∀ f ∈ w'.flights, f.id ≠ g.flight) ∧
        ∀ n, regOf 0 g.dst 0 = some (.s n) → (∃ p ∈ w.pend, p.id = g.flight ∧ p.reg = .s n ∧ p.live = true) →
          (w'.getReg (.s n)).val = 0)

/-- R148, R432: a load that waited for wrings is performed once the drains that it waits for have been applied, and then does
what it would have done at its issue.
R352, R393: the last result of an instruction of latency V ends its flight: its writes take effect, its slot counts one less,
and nothing else changes; the end of a CSRW also gives the register its value.
R115: when 64 cycles have passed since the core's last tick, every lane of its resident blocks has a program stamp greater by
one; nothing else of the lanes changes, no lane of another core does, and a tick before its time changes nothing. -/
def Obligations.ResultsAndTicks : Prop :=
  (let loads (i : Instr) (h : Head) (g : Guard) (z : LoadSize) (d a : Operand) (more : List Src)
      (addr : View → Mach → Option Nat) (tau : View → Word) : Prop :=
    EffectAtWrung i h g (⟨1, a, 2⟩ :: more) (noWrings h z addr tau) (eachActs (loadAct d z addr))
  (∀ f, loads (.ldB f) f.h f.g f.m.size f.d f.a [⟨2, f.b, 1⟩]
    (fun v _ => globalAt (v.val64 1 f.a) (indexed2 f.b f.m.sh v) (sizeOfLoad f.m.size)) fun _ => 0) ∧
  (∀ f, loads (.ldC f) f.h f.g f.m.size f.d f.a [] (fun v _ => globalAt (v.val64 1 f.a) f.imm.toInt (sizeOfLoad f.m.size))
    fun _ => 0) ∧
  (∀ f, loads (.ldb f) f.h f.g f.m.size f.d f.a [⟨2, f.b, 1⟩]
    (fun v _ => globalAt (v.val64 1 f.a) 0 (sizeOfLoad f.m.size)) fun v => v.val 2 f.b)) ∧
  (∀ s bid k b w f, isOn s → s.mach.wrung = [] → Stands s.mach bid k b w → w.flights.find? (·.id == f.id) = some f →
    (f.done = true → f.due = none → w.csrw.find? (·.1 == f.id) = none →
      Makes (.latencyVResult bid k f.id) s (s.mach.putWarp bid k b { w with
        flights := w.flights.filter (·.id != f.id)
        pend := w.pend.filter (·.id != f.id)
        ws := match f.slot with
          | none => w.ws
          | some j => w.ws.modify j (· - 1) })) ∧
    ∀ n x, w.csrw.find? (·.1 == f.id) = some (f.id, n, x) →
      Does (.latencyVResult bid k f.id) s fun t => sameMemory s.mach t.mach ∧ sameRegisters s.mach t.mach ∧
        (∀ y w', t.mach.warp? bid k = some w' → y ∈ w'.flights → y.id ≠ f.id) ∧
        (tabHas s.mach.ctxs b.ctx = true → t.mach.ctx b.ctx = if n = 0x110 then { s.mach.ctx b.ctx with binTimer := x.setWidth 18 }
          else if n = 0x114 then { s.mach.ctx b.ctx with check := x.getLsbD 0 } else s.mach.ctx b.ctx)) ∧
  (∀ s core, isOn s →
    (∀ t, (s.mach.core core).ticked = some t → s.mach.cycle < t + 64 → exec (.stampTick core) s = .next s) ∧
    ∀ t, (s.mach.core core).ticked = some t → t + 64 ≤ s.mach.cycle → Does (.stampTick core) s fun u =>
      sameMemory s.mach u.mach ∧ (u.mach.core core).ticked = some (t + 64) ∧
      ∀ bid k b w i l, Stands s.mach bid k b w → laneAt w i = some l →
        ∃ b' w', Stands u.mach bid k b' w' ∧
          laneAt w' i = some (if b.core = core ∧ b.resident = true then { l with pts := l.pts + 1 } else l))

/-- R145, R146: a tracker drains by itself 65,536 cycles after it was filled, and not before; its drain, applied at the home slice,
adds what the tracker held to each element of the line, takes a stamp past the line's lease and gives the share back; every
other byte reads as before.
R145, R316: through the view of the page that granted its share, a drain leaves in each element of its line the sum of what was
read there and what the tracker held, be the line sealed, sealed by another world or not yet cleared. -/
def Obligations.DampDrains : Prop :=
  ((∀ s h line t, isOn s → s.mach.trackers.find? (fun t => t.holder == h && t.line == line) = some t →
    (s.mach.cycle < t.age + 65536 → exec (.trackerAgeDrain h line) s = .next s) ∧
    (t.age + 65536 ≤ s.mach.cycle → Makes (.trackerAgeDrain h line) s { s.mach with
      ids := s.mach.ids + 1
      trackers := s.mach.trackers.filter fun x => !(x.holder == h && x.line == line)
      drains := s.mach.drains ++
        [⟨s.mach.ids, h, line, t.ctx, s.mach.regionInt t.ctx t.region, t.share, t.acc, t.view⟩] })) ∧
  ∀ s d, isOn s → s.mach.memoriesOk = true → s.mach.drains.find? (·.id == d.id) = some d →
    plainRange s.mach (128 * d.line) 128 → d.view = none → cellsRising d.acc.cells = true → (∀ c ∈ d.acc.cells, c.1 < 32) →
    Does (.drainApply d.id) s fun t =>
      (∀ j, j < 32 → natOfBytes (memRead t.mach.mem (128 * d.line + 4 * j) 4) =
        let old := BitVec.ofNat 32 (natOfBytes (memRead s.mach.mem (128 * d.line + 4 * j) 4))
        (match tabFind d.acc j with
          | none => old
          | some x => dampSum d.int old x).toNat) ∧
      restReads s.mach t.mach (128 * d.line) 128 ∧ sameRegisters s.mach t.mach ∧
      t.mach.lineStamps d.line = (let st := (s.mach.lineStamps d.line).rts + 1; ⟨st, st⟩) ∧
      (∀ k, tabFind s.mach.claims d.line = some k → tabFind t.mach.claims d.line = none) ∧
      t.mach.shares = s.mach.shares.eraseP (fun x => x.line == d.line && x.holder == d.holder) ∧
      t.mach.drains = s.mach.drains.filter (·.id != d.id) ∧ t.mach.hostMem = s.mach.hostMem) ∧
  (∀ s d, isOn s → s.mach.memoriesOk = true → s.mach.drains.find? (·.id == d.id) = some d →
    s.mach.badRange d.view (128 * d.line) 128 = false → (d.view = none ∨ ∃ n, d.view = some (some n)) →
    cellsRising d.acc.cells = true → (∀ c ∈ d.acc.cells, c.1 < 32) →
    Does (.drainApply d.id) s fun t => ∀ j, j < 32 →
      let word (m : Mach) : Word := BitVec.ofNat 32 (natOfBytes (m.viewBytes d.view (128 * d.line + 4 * j) 4))
      word t.mach = match tabFind d.acc j with
        | none => word s.mach
        | some x => dampSum d.int (word s.mach) x)

/-- R54, R55, R56: a record joins the open bin of its block, entry and key; the bin's 32nd record makes it ripe. Where none is
open and the device has a bin left, the lowest free bin of the core opens for it, with a deadline BIN.TIMER ticks on unless that
is 0. A waiting SPAWN whose records can all be filed lets its lanes go on.
R56: when the deadline of a bin has come, it is ripe from that cycle on, and with it every bin of its core whose deadline has
come; before it nothing happens.
R56, R58: the ripe bin of a block that launches is the first that ripened, the first opened of those; a warp starts with it in
the lowest free brood slot: lane j at the bin's entry with record j's stamp, v0 to v3 its arguments and v4 the key, under the
record's mask; the lanes beyond the records have exited; the bin is free. -/
def Obligations.SpawnBinsAndBroods : Prop :=
  ((∀ (m : Mach) mg b bid r k bin, openBin (m.core b.core) bid r.entry r.key = some k →
    tabFind (m.core b.core).bins k = some bin → ∃ m', m.fileRec mg b bid r 66 = (true, none, m') ∧
      (∀ j, tabFind (m'.core b.core).bins j = if j = k then some { bin with
        recs := bin.recs ++ [r]
        ripe := if bin.recs.length + 1 ≥ 32 ∧ bin.ripe = none then some m.cycle else bin.ripe
        deadline := if bin.recs.length + 1 ≥ 32 ∧ bin.ripe = none then none else bin.deadline }
        else tabFind (m.core b.core).bins j) ∧ m'.blocks = m.blocks ∧ m'.mem = m.mem) ∧
  (∀ (m : Mach) mg b bid r k, openBin (m.core b.core) bid r.entry r.key = none → k < 64 →
    tabHas (m.core b.core).bins k = false → (∀ i, i < k → tabHas (m.core b.core).bins i = true) →
    m.binsUsed b.core (deviceOf b.ctx) < (mg.quotas.getD (deviceOf b.ctx) Quota.zero).bins →
    ∃ m' bin, m.fileRec mg b bid r 66 = (true, some m.ids, m') ∧
      tabFind (m'.core b.core).bins k = some bin ∧ bin.bid = bid ∧ bin.entry = r.entry ∧ bin.key = r.key ∧ bin.recs = [r] ∧
      bin.ripe = none ∧ (bin.deadline = if (m.ctx b.ctx).binTimer = 0 then none else some (m.now + (m.ctx b.ctx).binTimer.toNat)) ∧
      (∀ j, j ≠ k → tabFind (m'.core b.core).bins j = tabFind (m.core b.core).bins j) ∧ m'.blocks = m.blocks) ∧
  (∀ s bid k b w sw opened m1, isOn s → Stands s.mach bid k b w → b.resident = true → w.suspended = false → w.spawns = [sw] →
    sw.recs ≠ [] → (∀ r ∈ sw.recs, ∃ l, laneAt w r.lane = some l) →
    (s.mach.ripenDue b.core).fileAll s.mgmt b bid sw.recs sw.opened = ([], opened, m1) →
    Does (.spawnRetry bid k) s fun t => sameMemory s.mach t.mach ∧ sameRegisters s.mach t.mach ∧
      ∃ b' w', Stands t.mach bid k b' w' ∧ w'.spawns = [] ∧
        ∀ i l, laneAt w i = some l → ∃ l', laneAt w' i = some l' ∧ l'.pts = l.pts ∧
          ((∃ r ∈ sw.recs, r.lane = i) → l'.st = .ready ∧ l'.pc = sw.next) ∧ ((∀ r ∈ sw.recs, r.lane ≠ i) → l' = l)) ∧
  ∀ s bid k b w sw r l j, isOn s → Stands s.mach bid k b w → b.resident = true → w.suspended = false → w.spawns = [sw] →
    sw.recs = [r] → laneAt w r.lane = some l → (∀ x ∈ (s.mach.core b.core).bins.cells, dueBin s.mach.now x.2 = false) →
    openBin (s.mach.core b.core) bid r.entry r.key = some j →
    Does (.spawnRetry bid k) s fun t => ∃ b' w' l', Stands t.mach bid k b' w' ∧ w'.spawns = [] ∧ laneAt w' r.lane = some l' ∧
      l'.st = .ready ∧ l'.pc = sw.next ∧ ∃ x, tabFind (t.mach.core b.core).bins j = some x ∧ r ∈ x.recs) ∧
  (∀ s core k b d, isOn s → tabFind (s.mach.core core).bins k = some b → b.deadline = some d → b.ripe = none →
    (s.mach.now < d → exec (.binTimerExpiry core k) s = .next s) ∧
    (d ≤ s.mach.now → Does (.binTimerExpiry core k) s fun t => t.mach.blocks = s.mach.blocks ∧ sameMemory s.mach t.mach ∧
      tabFind (t.mach.core core).bins k = some { b with ripe := some s.mach.cycle, deadline := none } ∧
      ∀ j, tabFind (t.mach.core core).bins j = (tabFind (s.mach.core core).bins j).map fun x =>
        if dueBin s.mach.now x then { x with ripe := some s.mach.cycle, deadline := none } else x)) ∧
  ((∀ c bid x, nextRipe c bid = some x → x ∈ c.bins.cells ∧ x.2.bid = bid ∧ ∃ t, x.2.ripe = some t ∧
    ∀ y ∈ c.bins.cells, y.2.bid = bid → ∀ u, y.2.ripe = some u → t < u ∨ (t = u ∧ x.2.openedNo ≤ y.2.openedNo)) ∧
  ∀ s bid b l j bin slot, isOn s → tabFind s.mach.blocks bid = some b → b.resident = true → b.retired = false →
    s.mach.launch? b.launch = some l → (∀ x ∈ (s.mach.core b.core).bins.cells, dueBin s.mach.now x.2 = false) → nextRipe (s.mach.core b.core) bid = some (j, bin) → tabHas (s.mach.core b.core).bins j = true →
    bin.recs.length ≤ 32 → (∀ r ∈ bin.recs, r.args.length = 4) →
    (∀ h ∈ (s.mach.ctx b.ctx).holds, h.bid = bid → h.unit ≠ .block) →
    slot < l.rec_.brood → (∀ x ∈ b.warps.cells, x.2.brood = some slot → x.2.ended = true ∧ x.2.flights = []) →
    (∀ i, i < slot → ∃ x ∈ b.warps.cells, x.2.brood = some i ∧ ¬ (x.2.ended = true ∧ x.2.flights = [])) →
    Does (.broodWarpLaunch bid) s fun t => sameMemory s.mach t.mach ∧
      ∃ b' w', Stands t.mach bid (l.rec_.warps + slot) b' w' ∧ w'.brood = some slot ∧ w'.lanes.length = 32 ∧ w'.flow = 0 ∧
        w'.exitm = 0 ∧ (∀ k, k ≠ l.rec_.warps + slot → tabFind b'.warps k = tabFind b.warps k) ∧
        (∀ k r, bin.recs[k]? = some r → ∃ x, laneAt w' k = some x ∧ x.st = .ready ∧ x.pc = ⟨bin.entry, 0⟩ ∧ x.pts = r.pts ∧
          (∀ i, i < 4 → w'.getReg (.v k i) = ⟨r.args.getD i 0, r.tag⟩) ∧
          w'.getReg (.v k 4) = ⟨bin.key.setWidth 32, r.tag⟩ ∧ (∀ i, 4 < i → w'.getReg (.v k i) = ⟨0, 0⟩) ∧
          ∀ i, w'.getReg (.p k i) = ⟨0, 0⟩) ∧
        (∀ i, w'.getReg (.s i) = ⟨0, 0⟩) ∧
        (∀ k, bin.recs.length ≤ k → k < 32 → ∃ x, laneAt w' k = some x ∧ x.st = .exited) ∧
        ∀ i, i ≠ j → tabFind (t.mach.core b.core).bins i = tabFind (s.mach.core b.core).bins i)

/-- R114, R131, R164, R167, R175: a posted request is applied to its granule as one read-modify-write: the granule holds what its image
leaves, every other byte reads as before, the request is over, and a read that succeeded the second time is counted; of two ordered requests to the same bytes the one that
arrived first is applied first. Another module's request answers its value and stamp under its handle (R156).
R458: a reply fills the registers of its PRESSR with the value, the status and zero, under their mask, and ends the wait for it. -/
def Obligations.PressApplications : Prop :=
  ((∀ (m : Mach) id r, m.pressReady id = some r → r ∈ m.presses ∧ r.id = id ∧
    ∀ e ∈ m.presses.takeWhile (·.id != id), e.overlaps r.target r.granule r.image.size = true →
      ¬ (e.image.cls = 0 ∧ r.image.cls = 0) ∧ sharesLane e.lanes r.lanes = false) ∧
  ∀ s r, Applicable s r → r.chan = false → r.reply = none →
    Does (.pressApplication r.id) s fun t => WasApplied s.mach t.mach r ∧
      t.mach.presses = s.mach.presses.filter (·.id != r.id) ∧
      (r.remote = none → toldLanes s.mach t.mach r.lanes (pressStamp s.mach r)) ∧
      ∀ k, r.remote = some k → t.mach.blocks = s.mach.blocks ∧ t.mach.signals = s.mach.signals ++
        [.pressReply k r.wants (applyImage r.image r.opnd r.parts (granuleWords s.mach r)).2 0 (pressStamp s.mach r)]) ∧
  (∀ s r p b w n, Applicable s r → r.chan = false → r.reply = some p → p.dst = .v n → Stands s.mach p.bid p.warp b w →
    w.lanes.length = 32 → w.block = some (.replies [r.id]) →
    let ret := (applyImage r.image r.opnd r.parts (granuleWords s.mach r)).2
    Does (.pressApplication r.id) s fun t => WasApplied s.mach t.mach r ∧
      t.mach.presses = s.mach.presses.filter (·.id != r.id) ∧ ∃ b' w', Stands t.mach p.bid p.warp b' w' ∧ w'.block = none ∧
      ∀ k j, k < 32 → p.lanes.getLsbD k = true → j < 4 →
        (∃ x ∈ w.pend, x.id = p.id ∧ x.reg = .v k (n.toNat + j) ∧ x.live = true) →
        w'.getReg (.v k (n.toNat + j)) = ⟨[ret.setWidth 32, (ret >>> 32).setWidth 32, 0, 0].getD j 0, p.tag⟩)

/-- R172, R174: an application at the channel changes the granule at once, takes its lines out of L2 and holds them; the
acknowledgement releases them and ends the request, and before the application it changes nothing. A combining entry is sent
256 cycles after it was taken, not earlier: it then stands last in arrival order, or is merged into the request with its key that
waits there, be it the last of its granule or not.
R156, R170, R172: another module's request stands last in arrival order, with its own image, every operand of its batch and no
lane of this module, or merges into that module's waiting request with its key; a batch counts and sums what was merged in it. -/
def Obligations.ChannelsAndCombining : Prop :=
  ((∀ s r, Applicable s r → r.chan = true →
    Does (.channelPressApplication r.id) s fun t => WasApplied s.mach t.mach r ∧ t.mach.blocks = s.mach.blocks ∧
      (∀ l ∈ r.lines, tabFind t.mach.heldBy l = some r.id) ∧
      t.mach.presses = s.mach.presses.map fun p => if p.id = r.id then
        { p with done := some ⟨pressStamp s.mach r, (applyImage r.image r.opnd r.parts (granuleWords s.mach r)).2, 0⟩ } else p) ∧
  (∀ s r, isOn s → s.mach.presses.find? (·.id == r.id) = some r →
    (r.done = none → exec (.channelAck r.id) s = .next s) ∧
    ∀ x, r.done = some x → r.reply = none → r.remote = none → r.target = none →
      Does (.channelAck r.id) s fun t => sameMemory s.mach t.mach ∧ toldLanes s.mach t.mach r.lanes x.stamp ∧
        t.mach.presses = s.mach.presses.filter (·.id != r.id) ∧ ∀ l, tabFind t.mach.heldBy l ≠ some r.id) ∧
  ∀ s r k t, isOn s → s.mach.presses.find? (·.id == r.id) = some r → r.comb = some (k, t) →
    (s.mach.cycle < t + 256 → exec (.combineEntryTimeout k r.id) s = .next s) ∧
    (t + 256 ≤ s.mach.cycle →
      let rest := s.mach.presses.filter (·.id != r.id)
      ((∀ x ∈ rest, mergeable x r = false) → Makes (.combineEntryTimeout k r.id) s { s.mach with
        presses := rest ++ [{ r with comb := none, chan := s.mach.siteOf r }] }) ∧
      ∀ x before later, rest = before ++ x :: later → mergeable x r = true → x.comb = none → x.done = none →
        (∀ y ∈ before, mergeable y r = false) →
        (∀ y ∈ later, y.overlaps r.target r.granule r.image.size = true → sharesLane y.lanes r.lanes = false) →
        (∀ y ∈ before ++ later, y.id ≠ x.id) →
        Makes (.combineEntryTimeout k r.id) s { s.mach with presses := before ++ mergePress x r :: later })) ∧
  ((∀ s (r : RemotePress), isOn s → (∀ x ∈ s.mach.presses, x.id ≠ s.mach.ids) →
    (tabHas s.mach.ctxs r.ctx = true → (s.mach.ctx r.ctx).run ≠ .switchedOut ∧
      ∀ x ∈ (s.mach.ctx r.ctx).refused, x.1 ≠ r.modid) →
    ((∀ x ∈ s.mach.presses, x.remote = some r.modid → x.granule ≠ r.granule) → ∃ req : PressReq, Makes (.remotePressRequest r) s { s.mach with
      ids := s.mach.ids + 1, presses := s.mach.presses ++ [req] } ∧
      req.id = s.mach.ids ∧ req.image = r.image ∧ (r.more = [] → req.opnd = r.opnd) ∧ req.granule = r.granule ∧ req.ctx = r.ctx ∧
      req.remote = some r.modid ∧ req.lanes = [] ∧ req.reply = none ∧ req.target = none ∧ req.world = none ∧ req.pts = 0 ∧
      req.comb = none ∧ req.done = none ∧ req.parts = r.opnd :: r.more ∧ req.count = 1 + r.more.length ∧
      req.wants = if r.ret = true then some r.handle else none) ∧
    ∀ x before later, s.mach.presses = before ++ x :: later → x.remote = some r.modid → x.ctx = r.ctx → x.opc = r.opc.toNat →
      x.image = r.image → x.image.cls = 2 → x.granule = r.granule → x.reply = none → x.wants = none → x.target = none →
      x.damp = false → x.comb = none → x.done = none → r.ret = false →
      (∀ y ∈ before, y.remote = some r.modid → y.granule ≠ r.granule) → (∀ y ∈ before ++ later, y.id ≠ x.id) →
      ∃ y : PressReq, Makes (.remotePressRequest r) s { s.mach with
        ids := s.mach.ids + 1, presses := before ++ y :: later } ∧
        y.id = x.id ∧ y.image = x.image ∧ y.granule = x.granule ∧ y.count = x.count + 1 + r.more.length ∧
        y.parts = x.parts ++ r.opnd :: r.more ∧ y.done = none ∧ y.comb = none) ∧
  (∀ a b : PressReq, mergeable a b = true → (mergePress a b).count = a.count + b.count ∧
    (mergePress a b).lanes = a.lanes ++ b.lanes ∧ (mergePress a b).pts = max a.pts b.pts ∧ a.image = b.image ∧
    a.granule = b.granule ∧ a.image.cls = 2) ∧
  ∀ (d : PressImage) x y i, i < d.groups.length →
    (d.groups.getD i ⟨0, 0, 0, false, []⟩).code = 4 → (d.groups.getD i ⟨0, 0, 0, false, []⟩).v = 0 →
    (combineWords d x y).getD i 0 = x.getD i 0 + y.getD i 0)

/-- R215, R216, R218: a command at the head of a matrix queue, well formed, whose panel can be read, streams it: memory and registers
are unchanged, and the command stands at its next panel, or its tile is valid, of its type, and the completion is owed.
R216, R218, R222: the command at the head of a matrix queue, well formed, streams one panel: element (i, j) of its tile becomes
the old one (0 for the first panel without ACC) plus the products of row i of A and column j of B, one rounding, or 32 bits for
integers; the elements beyond are unchanged. It then stands at the next panel, or its tile is valid, of its type, and the
completion is owed. -/
def Obligations.MatrixPanels : Prop :=
  (∀ s core c rest b x tag y, AtHead s core c rest b → c.op = .mma x tag → c.ready = false →
    (c.begun = true ∨ (mmaParams x).cause c.bid (tabFind (s.mach.core core).tiles c.tile) (s.mach.core core).bypass = none) →
    ((mmaParams x).bar = 0 ∨ c.panel ≠ 0 ∨ c.row ≠ 0 ∨
      ∃ l pa, OnePage s.mach (b.engineActor true) (mmaParams x).bar 8 l pa ∧ l.w = true) →
    tabFind (s.mach.core core).tiles c.tile = some y → PanelReadable s.mach (b.engineActor true) (mmaParams x) c.panel c.row →
    Does (.mmaCommandStart core) s fun t => sameRegisters s.mach t.mach ∧ sameMemory s.mach t.mach ∧
      ∃ c', (t.mach.core core).mq = c' :: rest ∧ c'.id = c.id ∧
        if c.panel + 1 < (mmaParams x).panels then c'.panel = c.panel + 1 ∧ c'.row = 0 ∧ c'.ready = false
        else c'.ready = true ∧ ∃ z, tabFind (t.mach.core core).tiles c.tile = some z ∧ z.valid = true ∧
          z.type = (mmaParams x).type) ∧
  ((∀ s core c rest b x tag m1, AtHead s core c rest b → c.op = .mma x tag → c.ready = false →
    (c.begun = true ∨ (mmaParams x).cause c.bid (tabFind (s.mach.core core).tiles c.tile) (s.mach.core core).bypass = none) →
    ((mmaParams x).bar = 0 ∨ c.panel ≠ 0 ∨ c.row ≠ 0) →
    (s.mach.modHead core fun y => { y with begun := true }).mmaPanel s.mgmt (b.engineActor true) core (mmaParams x)
      (s.mach.core core).bypass c.tile c.panel c.row = (.ok (), m1) →
    Does (.mmaCommandStart core) s fun t => sameRegisters s.mach t.mach ∧ t.mach.mem = m1.mem ∧
      ∃ c', (t.mach.core core).mq = c' :: rest ∧ c'.id = c.id ∧
        if c.panel + 1 < (mmaParams x).panels then c'.panel = c.panel + 1 ∧ c'.row = 0 ∧ c'.ready = false
        else c'.ready = true ∧ ∀ y, tabFind (m1.core core).tiles c.tile = some y →
          ∃ z, tabFind (t.mach.core core).tiles c.tile = some z ∧ z.words = y.words ∧ z.valid = true ∧
            z.type = (mmaParams x).type ∧ tag ||| z.tag = z.tag ∧ ((mmaParams x).acc = true → y.tag ||| z.tag = z.tag)) ∧
  (∀ (m : Mach) mg a core p byp tile q cols n i m' t, m.mmaRows mg a core p byp tile q cols n i = (.ok (), m') →
    tabFind (m.core core).tiles tile = some t → cols.length ≤ 64 →
    ∃ t', tabFind (m'.core core).tiles tile = some t' ∧
      (∀ r, r < n → ∃ (mi : Mach) (row : List FVal) (u : Mask), (mi.readRow mg a p byp q (i + r)).1 = .ok (row, u) ∧
        ∀ j col, cols[j]? = some col → combined p q t t' (i + r) j row col) ∧
      ∀ r j, j < 64 → (r < i ∨ i + n ≤ r ∨ cols.length ≤ j) → tabGet t'.words (64 * r + j) 0 = tabGet t.words (64 * r + j) 0) ∧
  ∀ (prior : Option Word) (xs ys : List Int), combine .int32 prior (xs.map FVal.ofInt) (ys.map FVal.ofInt) =
    BitVec.ofInt 32 (((prior.getD 0).toNat : Int) + (List.zipWith (· * ·) xs ys).sum))

/-- R218, R226: a matrix command whose rows are done and that names a barrier object in a writable page completes: it leaves its
queue, its write slot falls, and the object takes one arrival, every other byte as before. A drain to memory whose rows can
be written completes and leaves its queue; its last row is then in memory.
R212, R218, R226, R227: a matrix command whose rows are done leaves its queue: its write slot falls, and the barrier object that
it names takes one arrival, of which every other byte is left as it was. A drain without memory puts its 4,096 elements,
converted, with the tile's mask, into the bypass when BYP asks for it, and clears the tile when Z does; one with memory writes
the bytes of its rows and nothing else. -/
def Obligations.MatrixCompletions : Prop :=
  ((∀ s core c rest b x tag l pa, AtHead s core c rest b → c.op = .mma x tag → c.ready = true → (mmaParams x).bar ≠ 0 →
    OnePage s.mach (b.engineActor true) (mmaParams x).bar 8 l pa → l.w = true → pa % 8 = 0 →
    Does (.mmaComplete core) s fun t => LeftQueue s.mach t.mach core c rest ∧ wroteBytes s.mach t.mach pa
      (barBytes (BarObj.arrive (barOf (BitVec.ofNat 64 (natOfBytes (memRead s.mach.mem pa 8))))))) ∧
  ∀ s core c rest b mo dest stride y, AtHead s core c rest b → c.op = .drain mo dest stride →
    tabFind (s.mach.core core).tiles c.tile = some y → y.valid = true → drainOk y.type mo.fmt mo.byp = true →
    mo.nomem = false → dest % 16 = 0 → stride % 16 = 0 → s.mach.memoriesOk = true →
    (∀ i, c.row ≤ i → i < 64 → Reaches s.mach (b.engineActor true) (dest + i * stride) (8 * fmtWidth mo.fmt) fun l =>
      l.w = true ∧ s.mach.storeOk b.ctx l.tag (y.tag ||| c.tags) = true) →
    Does (.tdrainExecute core) s fun t => LeftQueue s.mach t.mach core c rest ∧
      (c.row < 64 → ∀ l pa, OnePage s.mach (b.engineActor true) (dest + 63 * stride) (8 * fmtWidth mo.fmt) l pa →
        memRead t.mach.mem pa (8 * fmtWidth mo.fmt) = drainRow mo.fmt mo.mode mo.sat y 63)) ∧
  ((∀ s core c rest b x tag, AtHead s core c rest b → c.op = .mma x tag → c.ready = true →
    ((mmaParams x).bar = 0 → Does (.mmaComplete core) s fun t => LeftQueue s.mach t.mach core c rest ∧ sameMemory s.mach t.mach) ∧
    let fallen := (s.mach.completionStamp c (mmaParams x).acq).2.mxFall core c (s.mach.completionStamp c (mmaParams x).acq).1
    ∀ l m1 pa, (mmaParams x).bar ≠ 0 → fallen.engBar s.mgmt (b.engineActor true) (mmaParams x).bar = (.ok l, m1) →
      m1.blocks = fallen.blocks → m1.cores = fallen.cores → l.place = .dev pa → l.leaf.sealed = false → pa % 8 = 0 → l.n = 8 →
      m1.memoriesOk = true → plainRange m1 pa 8 → dryLine m1 (lineOf pa) →
      Does (.mmaComplete core) s fun t => LeftQueue s.mach t.mach core c rest ∧ restReads m1 t.mach pa 8 ∧
        memRead t.mach.mem pa 8 = barBytes (BarObj.arrive (barOf (BitVec.ofNat 64 (natOfBytes (memRead m1.mem pa 8)))))) ∧
  (∀ s core c rest b mo dest stride t, AtHead s core c rest b → c.op = .drain mo dest stride →
    tabFind (s.mach.core core).tiles c.tile = some t → t.valid = true → drainOk t.type mo.fmt mo.byp = true → mo.nomem = true →
    Does (.tdrainExecute core) s fun u => LeftQueue s.mach u.mach core c rest ∧ sameMemory s.mach u.mach ∧
      (if mo.byp then ∃ y, (u.mach.core core).bypass = some y ∧ y.fmt = mo.fmt ∧ y.owner = c.bid ∧ y.tag = t.tag ∧
        ∀ i, i < 4096 → tabGet y.words i 0 = BitVec.ofNat 32 (drainElem mo.fmt mo.mode mo.sat (tabGet t.words i 0))
       else (u.mach.core core).bypass = (s.mach.core core).bypass) ∧
      ∃ t', tabFind (u.mach.core core).tiles c.tile = some t' ∧
        if mo.z then t'.words = ⟨[]⟩ ∧ t'.tag = 0 ∧ t'.type = .either ∧ t'.valid = true else t' = t) ∧
  (∀ s core c rest b mo dest stride t rows m1, AtHead s core c rest b → c.op = .drain mo dest stride →
    tabFind (s.mach.core core).tiles c.tile = some t → t.valid = true → drainOk t.type mo.fmt mo.byp = true →
    mo.nomem = false → dest % 16 = 0 → stride % 16 = 0 →
    (s.mach.modHead core fun y => { y with begun := true }).drainDests s.mgmt (b.engineActor true) (t.tag ||| c.tags) dest stride
      (8 * fmtWidth mo.fmt) ((List.range (64 - c.row)).map (c.row + ·)) = (.ok rows, m1) →
    Does (.tdrainExecute core) s fun u => LeftQueue s.mach u.mach core c rest) ∧
  ∀ (m : Mach) mg a l bs pa, l.place = .dev pa → l.leaf.sealed = false → l.leaf.damp = false → bs.length = l.n → 0 < l.n →
    l.n ≤ 65536 → m.memoriesOk = true → plainRange m pa l.n →
    memRead (m.engStore mg a .matrix [l] bs).2.mem pa l.n = bs ∧ restReads m (m.engStore mg a .matrix [l] bs).2 pa l.n ∧
      ∀ x, pa ≤ x → x < pa + l.n → (m.engStore mg a .matrix [l] bs).2.lineStamps (lineOf x) ≠ m.lineStamps (lineOf x))

/-- R233, R234, R235: a COPY or FILL between scratchpad addresses delivers the next part of its stream, read before it is written:
those bytes of the destination are the source's, or the pattern's, every other byte is unchanged, CH.WPTR counts them, and the
command is done once the stream is. A command that is done leaves its channel, and its write slot falls (R236).
R240, R241: a tier move of a page that a TLB holds, and of any that translates, completes: it brings the page to a frame of the other tier: every byte of it is found in the new frame, its entry names
the new frame and tier, no TLB copy of the old frame is left, and the frames change pools; a page that is in the tier already
is passed over with nothing changed. -/
def Obligations.CopiesAndTierMoves : Prop :=
  ((∀ s core ctx chan c rest b x tag, AtChannel s core ctx chan c rest b → c.op = .copy x tag false →
    SpadCopy s (copyParams x) c b →
    let p := copyParams x
    let n := nextPart p c
    let d := streamAddr p p.dst p.dstr c.offset
    streamAddr p p.src p.sstr c.offset + n ≤ b.spadSize → d + n ≤ b.spadSize →
    Does (.copyCommandStart core ctx chan) s fun t => sameRegisters s.mach t.mach ∧ sameMemory s.mach t.mach ∧
      ∃ (c' : Command) (b' : Block), t.mach.chanCmds core (8 * ctx + chan) = c' :: rest ∧ c'.id = c.id ∧
        c'.offset = c.offset + n ∧ c'.ready = decide (c.offset + n = p.total) ∧
        tabFind t.mach.blocks c.bid = some b' ∧ memRead b'.spad d n = partBytes p c b ∧
        (∀ a, a < d ∨ d + n ≤ a → memGet b'.spad a = memGet b.spad a) ∧
        tabGet (t.mach.core core).wptr (8 * ctx + chan) 0 =
          tabGet (s.mach.core core).wptr (8 * ctx + chan) 0 + BitVec.ofNat 64 n) ∧
  ∀ s core ctx chan c rest b, AtChannel s core ctx chan c rest b →
    (c.ready = false → exec (.copyComplete core ctx chan) s = .next s) ∧
    (c.ready = true → Does (.copyComplete core ctx chan) s fun t => t.mach.chanCmds core (8 * ctx + chan) = rest ∧
      sameRegisters s.mach t.mach ∧ sameMemory s.mach t.mach ∧
      ∀ id w, c.flight = some id → t.mach.warp? c.bid c.warp = some w → ∀ f ∈ w.flights, f.id ≠ id)) ∧
  ((∀ s core ctx chan c rest b x tag l pa f pool tier, AtChannel s core ctx chan c rest b → c.op = .copy x tag true →
    OnePage s.mach (b.engineActor false) ((copyParams x).src + c.offset) 1 l pa →
    TierMove (copyParams x) c b l s.mach f pool tier →
    Does (.tierPageMove core ctx chan) s fun t =>
      Moved s.mach t core (8 * ctx + chan) b.ctx (copyParams x) c rest l f pool tier) ∧
  (∀ s core ctx chan c rest b x tag l m1 f pool tier, AtChannel s core ctx chan c rest b → c.op = .copy x tag true →
    s.mach.tierLeaf (b.engineActor false) ((copyParams x).src + c.offset) = (.ok l, m1) →
    TierMove (copyParams x) c b l m1 f pool tier →
    Does (.tierPageMove core ctx chan) s fun t => Moved m1 t core (8 * ctx + chan) b.ctx (copyParams x) c rest l f pool tier) ∧
  ∀ s core ctx chan c rest b x tag l m1, AtChannel s core ctx chan c rest b → c.op = .copy x tag true → c.ready = false →
    c.begun = true → c.fwait = none → (copyParams x).bar = 0 →
    s.mach.tierLeaf (b.engineActor false) ((copyParams x).src + c.offset) = (.ok l, m1) →
    l.tier = (if (copyParams x).op = 2 then 0 else 1) →
    Does (.tierPageMove core ctx chan) s fun t => sameRegisters s.mach t.mach ∧ sameMemory m1 t.mach ∧
      t.mach.ctxs = m1.ctxs ∧ ∃ c', t.mach.chanCmds core (8 * ctx + chan) = c' :: rest ∧ c'.offset = c.offset + 2 ^ l.log)

/-- R245, R246, R247, R249, R273, R274: a write of LQ.RING with EN = 1 enables a disabled queue whose launches are over from zero, and a
faulted one where it stands; EN = 0 disables a queue that reads no record. LQ.WAKE gives TAIL to a queue that is not disabled.
A woken queue with a record reads it: HEAD and the count of read records go on by one, and the launch is pending. -/
def Obligations.LaunchQueues : Prop :=
  (∀ s k x, isOn s → k < 512 → unlocked s (s.mach.queue k).fn →
    let q := s.mach.queue k
    (q.en = false → x.getLsbD 53 = true → field x.toNat 51 48 ≠ 0 → q.state = .disabled → q.done = q.rd →
      Makes (.lqRingWrite k x) s (s.mach.setQueue k { q with
        base := field x.toNat 47 0, log2n := field x.toNat 51 48, host := x.getLsbD 52, en := true, state := .enabled
        head := 0, tail := 0, done := 0, rd := 0, fcause := 0, beyond := [], woken := false })) ∧
    (q.en = false → x.getLsbD 53 = true → field x.toNat 51 48 ≠ 0 → q.state = .faulted →
      Makes (.lqRingWrite k x) s (s.mach.setQueue k { q with
        base := field x.toNat 47 0, log2n := field x.toNat 51 48, host := x.getLsbD 52, en := true, state := .enabled
        fcause := 0, woken := false })) ∧
    (q.en = true → x.getLsbD 53 = false → q.state = .enabled → q.head = q.tail →
      Does (.lqRingWrite k x) s fun t => (t.mach.queue k).state = .disabled ∧ (t.mach.queue k).en = false ∧
        (t.mach.queue k).done = q.done ∧ sameQueues s.mach t.mach (· ≠ k) ∧ sameMemory s.mach t.mach ∧
        t.mach.blocks = s.mach.blocks)) ∧
  (∀ s k x, isOn s → k < 512 → (s.mgmt.fn (s.mach.queue k).fn).tdi ≠ .error → (s.mach.queue k).state ≠ .disabled →
    (s.mach.queue k).log2n ≠ 0 → Makes (.lqWake k x) s (s.mach.setQueue k { s.mach.queue k with
      tail := x.extractLsb' 0 16, woken := (s.mach.queue k).woken || (s.mach.queue k).state == .enabled })) ∧
  (∀ s k ctx lb l pa, isOn s → (s.mach.queue k).ctx = some ctx → s.mach.queueActive (s.mach.queue k) = true →
    s.mach.openLaunches k < 16 → ((s.mach.queue k).tail - (s.mach.queue k).head).toNat ≤ 2 ^ (s.mach.queue k).log2n →
    (s.mach.queue k).host = false →
    s.mach.cachedLeaf { engineOf ctx 0 0 with launch := s.mach.ids } (s.mach.queue k).base = some lb → lb.ordinary →
    OnePage s.mach { engineOf ctx 0 0 with launch := s.mach.ids }
      ((s.mach.queue k).base + 256 * ((s.mach.queue k).head.toNat % 2 ^ (s.mach.queue k).log2n)) 256 l pa →
    recRow (natOfBytes (memRead s.mach.mem pa 256)) (fun j => (s.mach.queue j).ctx == some ctx) (Mach.vaultHas s.mgmt ctx) = none →
    Does (.launchRecordRead k) s fun t => RecordRead s.mach t k ctx (s.mach.queue k) (memRead s.mach.mem pa 256)) ∧
  ∀ s k ctx bs m1, isOn s → (s.mach.queue k).ctx = some ctx → s.mach.queueActive (s.mach.queue k) = true →
    s.mach.openLaunches k < 16 → s.mach.hostHeld ctx = false →
    ((s.mach.queue k).tail - (s.mach.queue k).head).toNat ≤ 2 ^ (s.mach.queue k).log2n →
    s.mach.readSlot s.mgmt ctx (s.mach.queue k) = (.ok bs, m1) → m1.queue k = s.mach.queue k →
    recRow (natOfBytes bs) (fun j => (m1.queue j).ctx == some ctx) (Mach.vaultHas s.mgmt ctx) = none →
    Does (.launchRecordRead k) s fun t => RecordRead m1 t k ctx (s.mach.queue k) bs

/-- R128, R247, R252, R255, R256: a dependence on a queue is met once DONE has come to its value; a launch with a dependence that is not
met stays pending; one whose dependences are met, without tables or key, that fits a core takes the next place in dispatch order
and the highest stamp as its start, with memory as it stands as the code that it fetches; a launch that completes with nothing to write leaves, and DONE is then the longest prefix of
the completed launches. -/
def Obligations.LaunchDispatch : Prop :=
  (∀ (m : Mach) mg l k j d, d.kind = 2 → d.met = false →
    m.testDep mg l k j d = ({ d with met := decide (((m.queue d.obj.toNat).done - d.val).toNat < 2 ^ 31) }, m)) ∧
  (∀ s k l, isOn s → s.mach.launch? k = some l → l.order = none → (s.mach.ctx l.ctx).run = .running →
    (∀ d ∈ l.rec_.deps, d.kind = 2) → (∃ d ∈ l.rec_.deps, d.met = false ∧
      2 ^ 31 ≤ ((s.mach.queue d.obj.toNat).done - d.val).toNat) →
    Does (.launchDispatch k) s fun t => (∃ l', t.mach.launch? k = some l' ∧ l'.order = none) ∧ sameMemory s.mach t.mach ∧
      t.mgmt = s.mgmt ∧ t.mach.blocks = s.mach.blocks ∧ t.mach.orders = s.mach.orders) ∧
  (∀ s k l, isOn s → s.mach.launch? k = some l → l.order = none → (s.mach.ctx l.ctx).run = .running →
    (∀ d ∈ l.rec_.deps, d.met = true) → l.rec_.keyh = 0 → l.rec_.ndamp = 0 → l.rec_.nparty = 0 → l.rec_.npimg = 0 →
    (s.mach.ctx l.ctx).regions.length ≤ 64 →
    l.rec_.spadNeed ≤ 32 * splitOf s.mgmt (s.mach.ctx l.ctx) l.ctx →
    l.rec_.fits (splitOf s.mgmt (s.mach.ctx l.ctx) l.ctx) ≠ 0 →
    Does (.launchDispatch k) s fun t => t.mach.launch? k = some { l with
        order := some s.mach.orders, start := s.mach.maxStamp, code := some ⟨s.mach.mem, s.mach.side, s.mach.scrub⟩
        trust := [], world := none } ∧
      (∀ j, j ≠ k → t.mach.launch? j = s.mach.launch? j) ∧ t.mach.orders = s.mach.orders + 1 ∧ t.mgmt = s.mgmt ∧
      sameMemory s.mach t.mach ∧ t.mach.blocks = s.mach.blocks ∧ sameCtxs s.mach t.mach fun _ => True) ∧
  (∀ (m : Mach) mg k l st de, m.launch? k = some l → cellsRising m.launches.cells = true → l.rec_.cpla = 0 →
    l.world = none → (m.ctx l.ctx).regions = [] →
    let m' := m.completeLaunch mg k st de
    sameMemory m m' ∧ m'.blocks = m.blocks ∧ (∀ j, m'.launch? j = if j = k then none else m.launch? j) ∧
      sameQueues m m' (· ≠ l.queue) ∧ m'.queue l.queue = (let q := m.queue l.queue
        ({ q with beyond := l.seq :: q.beyond } : Queue).advance (q.beyond.length + 1))) ∧
  ∀ (q : Queue) n, (∀ i, 1 ≤ i → i ≤ n → (q.done.toNat + i) % 2 ^ 32 ∈ q.beyond) → n < 2 ^ 31 →
    (q.done.toNat + n + 1) % 2 ^ 32 ∉ q.beyond → n ≤ q.beyond.length → q.beyond.length < 2 ^ 31 → q.beyond.Nodup →
    (q.advance q.beyond.length).done = q.done + BitVec.ofNat 32 n

/-- R53, R257, R258, R260, R261: a placed block of a launch without groups stands on the lowest core of the context's cluster set
on which it fits, its declared warps new at the entry point, the next block number its index; a launch that has waited 100 µs
with an unplaced block is blocking.
R61, R95, R259: a block that can retire and stands alone in its group gives back what it holds: its tiles, its bins and its
commands are gone from the core, the core is offered, and its launch counts one more retired block; with the last one the launch
is over. -/
def Obligations.BlocksComeAndGo : Prop :=
  ((∀ s k l core, isOn s → s.mach.nextLaunch s.mgmt = some (k, l) → s.mach.launch? k = some l →
    s.mach.placeCores s.mgmt k l = some [core] → s.mach.savedGroup k = none → s.mach.dieFree core = true →
    l.rec_.warps ≤ ((List.range 64).filter fun i => !(s.mach.warpSlots core).contains i).length →
    (s.mach.drains = [] ∧ s.mach.trackers = []) →
    Does (.blockPlacement k) s fun t => sameMemory s.mach t.mach ∧ ∃ b, tabFind t.mach.blocks s.mach.ids = some b ∧
      b.launch = k ∧ b.ctx = l.ctx ∧ b.index = l.next ∧ b.core = core ∧ b.resident = true ∧ b.retired = false ∧
      b.peers = [s.mach.ids] ∧ b.rank = 0 ∧ b.start = l.start ∧ b.spad = ⟨[]⟩ ∧ b.spadSize = 2048 * l.rec_.spadNeed ∧
      (∀ w, w < l.rec_.warps → ∃ x, tabFind b.warps w = some x ∧ FreshWarp l x) ∧
      (∀ w, l.rec_.warps ≤ w → tabFind b.warps w = none) ∧
      (∀ j, j ≠ s.mach.ids → tabFind t.mach.blocks j = tabFind s.mach.blocks j) ∧
      t.mach.launch? k = some { l with next := l.next + 1 }) ∧
  (∀ (m : Mach) mg k l n core, m.nextNeeds k l = [n] → m.placeCores mg k l = some [core] →
    clusterOf core ∈ m.clusterSet l.ctx ∧ m.coreFits mg l core n = true ∧
    ∀ c, clusterOf c ∈ m.clusterSet l.ctx → c < core → m.coreFits mg l c n = false) ∧
  ∀ s k l t, isOn s → s.mach.launch? k = some l → l.waitFrom = some t → l.order ≠ none → l.next < l.rec_.grid →
    Does (.launchBlocking k) s fun u => u.mach.launch? k = some { l with
      blocking := l.blocking || decide (t + 10000 ≤ s.mach.now) } ∧ u.mach.blocks = s.mach.blocks ∧
      sameMemory s.mach u.mach ∧ ∀ j, j ≠ k → u.mach.launch? j = s.mach.launch? j) ∧
  (∀ s bid b l, isOn s → tabFind s.mach.blocks bid = some b → s.mach.retirable bid b = true → b.peers = [bid] →
    s.mach.launch? b.launch = some l → l.rec_.cpla = 0 → l.world = none → (s.mach.ctx l.ctx).regions = [] →
    tablesRise s.mach →
    Does (.blockRetirement bid) s fun t => sameMemory s.mach t.mach ∧ tabFind t.mach.blocks bid = none ∧
      (∀ j, j ≠ bid → tabFind t.mach.blocks j = tabFind s.mach.blocks j) ∧
      t.mach.offers = s.mach.offers ++ [⟨[b.core], b.launch, l.rec_.prio⟩] ∧
      (∀ x ∈ (t.mach.core b.core).tiles.cells, x.2.owner ≠ bid) ∧ (∀ x ∈ (t.mach.core b.core).bins.cells, x.2.bid ≠ bid) ∧
      (∀ c ∈ (t.mach.core b.core).mq, c.bid ≠ bid) ∧
      t.mach.launch? b.launch = if l.retired + 1 = l.rec_.grid then none else some { l with retired := l.retired + 1 })

/-- R157, R180, R265, R267, R332: PREEMPT answers OK and its context drains, with the deadline of its most urgent launch; the deadline's
expiry resets the context with cause 2. RESTORE of a context that is switched out is under way from its message on; once it is
done the context runs and the answer is OK.
R52, R180, R224, R239, R265: a block of a draining context that a hold keeps leaves its core with its registers, its scratchpad,
its tiles and its bypass, and the core holds nothing of it any more. With no block resident and no request open the context is
switched out: no TLB copy and no dropping definition of it is left, and its valid definitions, memory and registers stay. -/
def Obligations.ContextSwitches : Prop :=
  ((∀ s h ctx, Expected s h → s.mach.owns h.fn ctx = true → (s.mach.ctx ctx).run = .running →
    Replies (.preempt h ctx) s h 2 { status := .ok } (s.mgmt.taken h) (s.mach.modCtx ctx fun c =>
      { c with run := .draining, deadline := (s.mach.deadlineOf (s.mgmt.taken h) ctx).map (s.mach.now + ·) })) ∧
  (∀ (m : Mach) mg ctx, let time (l : Launch) : Nat := if l.rec_.deadl = 0 then (tabGet mg.schedDl l.rec_.prio 200000).toNat else l.rec_.deadl
    let mine (x : Nat × Launch) : Prop := x ∈ m.launches.cells ∧ x.2.ctx = ctx ∧ x.2.order ≠ none
    (m.deadlineOf mg ctx = none ↔ ∀ x, ¬ mine x) ∧
    ∀ t, m.deadlineOf mg ctx = some t → (∃ x, mine x ∧ time x.2 = t) ∧ ∀ x, mine x → t ≤ time x.2) ∧
  (∀ s ctx t, isOn s → tablesRise s.mach → tabHas s.mach.ctxs ctx = true → (s.mach.ctx ctx).run = .draining → (s.mach.ctx ctx).deadline = some t →
    (s.mach.now < t → exec (.preemptDeadlineExpiry ctx) s = .next s) ∧
    (t ≤ s.mach.now → Does (.preemptDeadlineExpiry ctx) s fun u => wasReset u.mach ctx 2)) ∧
  (∀ s h ctx, Expected s h → s.mach.owns h.fn ctx = true → (s.mach.ctx ctx).run = .switchedOut →
    (s.mach.ctx ctx).world = none → s.mgmt.jobs = [] →
    Does (.restore h ctx) s fun t => t.mach = s.mach ∧ t.mgmt = { s.mgmt.taken h with jobs := [⟨.restore ctx, h.fn, h.seq⟩] }) ∧
  ∀ mg (m : Mach) j rest ctx, mg.jobs = j :: rest → j.kind = .restore ctx → m.restorable mg ctx = true → tabHas m.ctxs ctx = true →
    (m.ctx ctx).world = none → (m.ctx ctx).arrivals = [] →
    (finishJob mg m).1.jobs = rest ∧ (finishJob mg m).2.signals = m.signals ++ [.msix j.fn 0] ∧
      ((finishJob mg m).2.ctx ctx).run = .running ∧ ((finishJob mg m).2.ctx ctx).press = (m.ctx ctx).press ∧
      (finishJob mg m).2.blocks = m.blocks ∧ sameMemory m (finishJob mg m).2) ∧
  ((∀ s bid b, isOn s → tabFind s.mach.blocks bid = some b → b.peers = [bid] → (s.mach.ctx b.ctx).run = .draining →
    s.mach.saveable bid b = true →
    Does (.blockSave bid) s fun t => sameMemory s.mach t.mach ∧ sameRegisters s.mach t.mach ∧ ∃ b',
      tabFind t.mach.blocks bid = some b' ∧ b'.resident = false ∧ b'.warps = b.warps ∧ b'.spad = b.spad ∧ b'.slots = b.slots ∧
      b'.handles = b.handles ∧
      (∀ k x, tabFind b'.savedTiles k = some x → x.owner = bid) ∧
      (cellsRising (s.mach.core b.core).tiles.cells = true → ∀ k x, tabFind (s.mach.core b.core).tiles k = some x →
        x.owner = bid → tabFind b'.savedTiles k = some x) ∧
      (∀ y, (s.mach.core b.core).bypass = some y → y.owner = bid → b'.savedByp = some y) ∧
      (∀ x ∈ (t.mach.core b.core).tiles.cells, x.2.owner ≠ bid) ∧ (∀ c ∈ (t.mach.core b.core).mq, c.bid ≠ bid) ∧
      (∀ x ∈ (t.mach.core b.core).bins.cells, x.2.bid ≠ bid) ∧
      ∀ j, j ≠ bid → tabFind t.mach.blocks j = tabFind s.mach.blocks j) ∧
  ∀ s ctx, isOn s → tabHas s.mach.ctxs ctx = true → (s.mach.ctx ctx).run = .draining →
    (∀ x ∈ s.mach.blocks.cells, x.2.ctx = ctx → x.2.resident = false) → (∀ r ∈ s.mach.presses, r.ctx ≠ ctx) →
    (∀ t ∈ s.mach.trackers, t.ctx ≠ ctx) → (∀ d ∈ s.mach.drains, d.ctx ≠ ctx) →
    cellsRising (s.mach.ctx ctx).press.cells = true →
    Does (.contextSwitchOut ctx) s fun t => (t.mach.ctx ctx).run = .switchedOut ∧ (t.mach.ctx ctx).deadline = none ∧
      (∀ k, tabFind (t.mach.ctx ctx).press k = match tabFind (s.mach.ctx ctx).press k with
        | none => none
        | some e => if e.dropping then none else some e) ∧
      (∀ e ∈ t.mach.tlb, e.ctx ≠ ctx) ∧ sameMemory s.mach t.mach ∧ sameRegisters s.mach t.mach)

/-- R32, R41, R157, R268, R327: a created context has the values of its registers at creation and nothing else changes; a destroyed one
is gone with its blocks, its launches, its TLB copies and its keys. -/
def Obligations.ContextLifetimes : Prop :=
  (∀ s ctx, isOn s → ctx < 1024 → tabHas s.mach.ctxs ctx = false →
    Makes (.contextCreation ctx) s (s.mach.setCtx ctx Ctx.created)) ∧
  (Ctx.created.binTimer = 200 ∧ Ctx.created.wdogInt = 10000000 ∧ Ctx.created.wdogExt = 0 ∧ Ctx.created.press = ⟨[]⟩ ∧
    Ctx.created.ptEn = false ∧ Ctx.created.fqEn = false ∧ Ctx.created.check = false ∧ Ctx.created.spadSet = 8) ∧
  ∀ s ctx, isOn s → tabHas s.mach.ctxs ctx = true → tablesRise s.mach → Does (.contextDestruction ctx) s fun t => tabHas t.mach.ctxs ctx = false ∧
      (∀ bid b, tabFind t.mach.blocks bid = some b → b.ctx ≠ ctx) ∧ (∀ k l, tabFind t.mach.launches k = some l → l.ctx ≠ ctx) ∧
      (∀ e ∈ t.mach.tlb, e.ctx ≠ ctx) ∧ (∀ k ∈ t.mgmt.vault, k.ctx ≠ ctx) ∧ (∀ k ∈ t.mgmt.vault, k ∈ s.mgmt.vault)

/-- R270, R271, R272, R279: once the stuck condition has held for the limit, the internal watchdog raises its entry and holds every
resident block of the context, with every warp suspended; the external one does so for idle lanes one of which waits on an
external object. With the limit 0, or before it, nothing happens.
R98, R272, R278, R285: a write of WDOG.INT or WDOG.EXT sets the limit and restarts its timer; a write of CORE.SPLIT takes at most the
device's maximum and 11, and says whether it was clamped. A warp whose first lane parked 65,536 cycles ago is suspended with a hold
of its own. -/
def Obligations.WatchdogsAndLimits : Prop :=
  (let fires (i : Instr) (ctx ext : Nat) (s : State) : Prop := Does i s fun t => sameMemory s.mach t.mach ∧ sameRegisters s.mach t.mach ∧
    ((s.mach.ctx ctx).fq.length < 32 → ∃ e ∈ (t.mach.ctx ctx).fq, e.kind = 8 ∧ e.info0 = BitVec.ofNat 64 ext) ∧
    ∀ bid b, tabFind s.mach.blocks bid = some b → b.ctx = ctx → b.resident = true → b.retired = false →
      (∃ h ∈ (t.mach.ctx ctx).holds, h.bid = bid ∧ h.unit = .block) ∧
      ∀ k w, t.mach.warp? bid k = some w → w.suspended = true
  let ready (s : State) (ctx : Nat) : Prop := isOn s ∧ tabHas s.mach.ctxs ctx = true ∧ tablesRise s.mach ∧
    ∀ k l, s.mach.launch? k = some l → l.rec_.fmode = 0
  (∀ s ctx, ready s ctx → s.mach.stuck ctx = true →
    (limitReached (s.mach.ctx ctx).stuckInt (s.mach.ctx ctx).wdogInt s.mach.now = true → fires (.watchdogInternal ctx) ctx 0 s) ∧
    (limitReached (s.mach.ctx ctx).stuckInt (s.mach.ctx ctx).wdogInt s.mach.now = false →
      exec (.watchdogInternal ctx) s = .next s)) ∧
  (∀ s ctx, ready s ctx → s.mach.allIdle ctx = some true →
    (limitReached (s.mach.ctx ctx).stuckExt (s.mach.ctx ctx).wdogExt s.mach.now = true → fires (.watchdogExternal ctx) ctx 1 s) ∧
    (limitReached (s.mach.ctx ctx).stuckExt (s.mach.ctx ctx).wdogExt s.mach.now = false →
      exec (.watchdogExternal ctx) s = .next s)) ∧
  (∀ since limit now, limitReached since limit now = true ↔ ∃ t, since = some t ∧ limit ≠ 0 ∧ t + limit.toNat ≤ now) ∧
  ∀ (m : Mach) ctx, m.allIdle ctx = some true → ∃ w ∈ m.residentWarps ctx, ∃ l ∈ w.lanes, l.external = true) ∧
  ((∀ s ctx ext x, isOn s → unlocked s (deviceOf ctx) → tabHas s.mach.ctxs ctx = true →
    Does (.wdogWrite ctx ext x) s fun t => t.mgmt = s.mgmt ∧ sameCtxs s.mach t.mach (· ≠ ctx) ∧ sameMemory s.mach t.mach ∧
      t.mach.blocks = s.mach.blocks ∧ t.mach.ctx ctx =
        if ext then { s.mach.ctx ctx with wdogExt := x, stuckExt := none } else { s.mach.ctx ctx with wdogInt := x, stuckInt := none }) ∧
  (∀ s ctx x, isOn s → unlocked s (deviceOf ctx) → tabHas s.mach.ctxs ctx = true →
    let top := min 11 (tabGet s.mgmt.spmax (deviceOf ctx) 11).toNat
    let want := x.toNat % 16
    Does (.coreSplitWrite ctx x) s fun t => t.mgmt = s.mgmt ∧ sameCtxs s.mach t.mach (· ≠ ctx) ∧ sameMemory s.mach t.mach ∧
      t.mach.blocks = s.mach.blocks ∧ (t.mach.ctx ctx).spadSet.toNat = min want top ∧
      (t.mach.ctx ctx).clamp = decide (top < want)) ∧
  ∀ s bid k b w t, isOn s → Stands s.mach bid k b w → b.resident = true → w.parkedAt = some t → w.suspended = false →
    w.lanes.any Lane.isParked = true → tabHas s.mach.ctxs b.ctx = true →
    (∀ l, s.mach.launch? b.launch = some l → l.rec_.fmode = 0) →
    (s.mach.cycle < t + 65536 → exec (.warpSuspendTimeout bid k) s = .next s) ∧
    (t + 65536 ≤ s.mach.cycle → Does (.warpSuspendTimeout bid k) s fun u => sameMemory s.mach u.mach ∧
      (∃ b' w', Stands u.mach bid k b' w' ∧ w'.suspended = true ∧ w'.lanes = w.lanes ∧ w'.s = w.s) ∧
      (∀ j, j ≠ k → u.mach.warp? bid j = s.mach.warp? bid j) ∧
      ∃ h, (u.mach.ctx b.ctx).holds = (s.mach.ctx b.ctx).holds ++ [h] ∧ h.unit = .warp ∧ h.bid = bid ∧ h.warps = [k] ∧
        h.written = false))

/-- R280, R283, R284: the oldest entry of an enabled ring with room is written into its slot: its header, with the next sequence
number, at the ring's producer index; every other byte is as it was, the index counts one more slot, the entry leaves the
queue, its hold is outstanding and the function's vector is raised if FQ.NOTE asks for it. -/
def Obligations.FaultEntries : Prop :=
  ∀ s ctx e rest, isOn s → tabHas s.mach.ctxs ctx = true → s.mach.memoriesOk = true →
    let c := s.mach.ctx ctx
    let slot := c.fqBase + 32 * (c.fqProd.toNat % c.fqSlots)
    c.fq = e :: rest → e.recs = [] → e.parts = 0 → e.after = none → c.fqEn = true → c.fqHost = false → 1 ≤ c.fqFree →
    c.fqNote.getLsbD 21 = false → c.fqBase % 32 = 0 → plainRange s.mach slot 32 → dryLine s.mach (lineOf slot) →
    Does (.faultEntryWrite ctx) s fun t => natOfBytes (memRead t.mach.mem slot 32) = (e.header 0 false c.fqSeq).toNat ∧
      restReads s.mach t.mach slot 32 ∧ t.mach.blocks = s.mach.blocks ∧
      (t.mach.ctx ctx).fqProd = c.fqProd + 1 ∧ (t.mach.ctx ctx).fq = rest ∧ (t.mach.ctx ctx).fqSeq = (c.fqSeq + 1) % 2 ^ 32 ∧
      (t.mach.ctx ctx).holds = c.holds.map (fun h => if e.hold = some h.num then { h with written := true } else h) ∧
      t.mach.signals = s.mach.signals ++ (if c.fqNote.getLsbD 11 then [.msix (deviceOf ctx) (field c.fqNote.toNat 10 0)] else []) ∧
      sameCtxs s.mach t.mach (· ≠ ctx)

/-- R117, R276, R279, R286: RESUME of an outstanding hold of one warp ends it: the warp is not suspended, its parked lanes are ready at
the instruction that stopped them, a trapped one after its TRAP, and every living lane has the highest stamp at least; registers
and memory are unchanged. DISCARD does the same, and gives up each rendezvous in which a hold's lanes stand and which has not taken
effect: its waiting lanes are ready where they stand. A number that is not outstanding does nothing.
R255, R268, R269, R286: ABORT of an outstanding hold ends the launch of its block: no block of it is left and the launch is over;
RESET resets the context with cause 4. -/
def Obligations.HoldsEnd : Prop :=
  ((∀ s ctx num, isOn s → (s.mach.ctx ctx).hold? num = none →
    exec (.resume ctx num) s = .next s ∧ exec (.discard ctx num) s = .next s ∧ exec (.abort ctx num) s = .next s) ∧
  (∀ s ctx num h k b w i, (i = .resume ctx num ∨ i = .discard ctx num) → isOn s → (s.mgmt.fn (deviceOf ctx)).tdi ≠ .error →
    tabHas s.mach.ctxs ctx = true → (s.mach.ctx ctx).hold? num = some h → h.warps = [k] → Stands s.mach h.bid k b w →
    b.slots = ⟨[]⟩ → b.keptMx = [] → b.keptCh = [] → (∀ x ∈ (s.mach.ctx ctx).holds, x.bid = h.bid → x.num = num) →
    w.lanes.any Lane.isParked = true →
    Does i s fun t => sameMemory s.mach t.mach ∧ sameRegisters s.mach t.mach ∧
      (t.mach.ctx ctx).holds = (s.mach.ctx ctx).holds.filter (·.num != num) ∧
      ∃ b' w', Stands t.mach h.bid k b' w' ∧ w'.suspended = false ∧ ∀ j l, laneAt w j = some l → ∃ l', laneAt w' j = some l' ∧
        l'.pts = (if l.live then max l.pts s.mach.maxStamp else l.pts) ∧
        (if l.isParked then l'.st = .ready ∧ l'.pc = (if l.trapped then l.afterPc else l.pc) else l'.st = l.st ∧ l'.pc = l.pc)) ∧
  ∀ b k sl now, tabFind b.slots k = some sl → sl.running = none → cellsRising b.slots.cells = true →
    tabFind (resumeSlot true now k b).slots k = none ∧
    ∀ j w i l, tabFind b.warps j = some w → laneAt w i = some l → ∃ w' l', tabFind (resumeSlot true now k b).warps j = some w' ∧
      laneAt w' i = some l' ∧ l'.pc = l.pc ∧ l'.st = if l.st = .waiting (.rendezvous k) then .ready else l.st) ∧
  ((∀ s ctx num h b l, isOn s → (s.mgmt.fn (deviceOf ctx)).tdi ≠ .error → tablesRise s.mach →
    (s.mach.ctx ctx).hold? num = some h → tabFind s.mach.blocks h.bid = some b → s.mach.launch? b.launch = some l →
    l.rec_.cpla = 0 → l.world = none → (s.mach.ctx l.ctx).regions = [] →
    Does (.abort ctx num) s fun t => sameMemory s.mach t.mach ∧ t.mach.launch? b.launch = none ∧
      (∀ bid x, tabFind t.mach.blocks bid = some x → x.launch ≠ b.launch) ∧
      (∀ bid x, tabFind s.mach.blocks bid = some x → x.launch ≠ b.launch → tabFind t.mach.blocks bid = some x) ∧
      ∀ k, k ≠ b.launch → t.mach.launch? k = s.mach.launch? k) ∧
  ∀ s ctx, isOn s → (s.mgmt.fn (deviceOf ctx)).tdi ≠ .error → tablesRise s.mach → tabHas s.mach.ctxs ctx = true →
    Does (.reset ctx) s fun t => wasReset t.mach ctx 4)

/-- R222, R238, R286, R290: RESOLVE of a reported region lets every command that is paused on it go on, FAILPG ends them, and either
settles the region; nothing happens for a region that was not reported. A matrix command that fails leaves its queue with its
tile invalid, its block's other commands are kept, and the block is held with an entry of kind 3.
R256, R290, R291: a write of TLB.INV drops the context's translations of the pages that hold a region it names and drains the
trackers of their lines; BUSY lasts until those drains, and the posted presses and stores of lanes to those regions, are over, and
then no translation of them is left; a pending launch whose dependence could not be read is then tested again. -/
def Obligations.PageFaultsAndTlbs : Prop :=
  ((∀ s ctx (r : Word), isOn s → r.toNat ∉ (s.mach.ctx ctx).reported →
    exec (.resolve ctx r) s = .next s ∧ exec (.failpg ctx r) s = .next s) ∧
  (∀ s ctx (r : Word), isOn s → (s.mgmt.fn (deviceOf ctx)).tdi ≠ .error → tabHas s.mach.ctxs ctx = true →
    r.toNat ∈ (s.mach.ctx ctx).reported →
    Does (.resolve ctx r) s fun t => sameMemory s.mach t.mach ∧ sameRegisters s.mach t.mach ∧
      (t.mach.ctx ctx).unresolved = (s.mach.ctx ctx).unresolved.filter (· != r.toNat) ∧
      (t.mach.ctx ctx).reported = (s.mach.ctx ctx).reported.filter (· != r.toNat) ∧
      ∀ core, (t.mach.core core).mq = (s.mach.core core).mq.map fun c =>
        if s.mach.pausedOn ctx r.toNat c then { c with fwait := none } else c) ∧
  (∀ s ctx (r : Word), isOn s → (s.mgmt.fn (deviceOf ctx)).tdi ≠ .error → tabHas s.mach.ctxs ctx = true →
    r.toNat ∈ (s.mach.ctx ctx).reported → (∀ c ∈ s.mach.allCommands, s.mach.pausedOn ctx r.toNat c = false) →
    Does (.failpg ctx r) s fun t => t.mach.blocks = s.mach.blocks ∧ t.mach.cores = s.mach.cores ∧ sameMemory s.mach t.mach ∧
      (t.mach.ctx ctx).unresolved = (s.mach.ctx ctx).unresolved.filter (· != r.toNat) ∧
      (t.mach.ctx ctx).reported = (s.mach.ctx ctx).reported.filter (· != r.toNat)) ∧
  ∀ (m : Mach) mg core cause va c rest b, (m.core core).mq = c :: rest → tabFind m.blocks c.bid = some b → c.ready = false →
    tabHas m.ctxs b.ctx = true → (∀ l, m.launch? b.launch = some l → l.rec_.fmode = 0) →
    let m' := m.mxError mg core cause va
    (m'.core core).mq = rest.filter (·.bid != c.bid) ∧ sameMemory m m' ∧
      (∀ t, tabFind (m'.core core).tiles c.tile = some t → t.valid = false) ∧
      (∃ b', tabFind m'.blocks c.bid = some b' ∧ b'.keptMx = b.keptMx ++ rest.filter (·.bid == c.bid)) ∧
      (∃ h, (m'.ctx b.ctx).holds = (m.ctx b.ctx).holds ++ [h] ∧ h.bid = c.bid ∧ h.unit = .block ∧ h.engine = true) ∧
      ∃ e, (m'.ctx b.ctx).fq = (m.ctx b.ctx).fq ++ [e] ∧ e.kind = 3 ∧ e.recs.length = 1) ∧
  ((∀ s ctx x, isOn s → (s.mgmt.fn (deviceOf ctx)).tdi ≠ .error → tabHas s.mach.ctxs ctx = true → (s.mach.ctx ctx).inval = none →
    let first := field x.toNat 31 0
    let count := 2 ^ field x.toNat 37 32
    let named (r : Nat) : Prop := x.getLsbD 38 = true ∨ (first ≤ r ∧ r < first + count)
    Does (.tlbInv ctx x) s fun t => sameMemory s.mach t.mach ∧ t.mach.blocks = s.mach.blocks ∧
      (∀ e, e ∈ t.mach.tlb ↔ e ∈ s.mach.tlb ∧ ¬ (e.ctx = ctx ∧ (x.getLsbD 38 = true ∨
        (first < e.region + 2 ^ e.leaf.log / 65536 ∧ e.region < first + count)))) ∧
      (∀ y, y ∈ t.mach.trackers ↔ y ∈ s.mach.trackers ∧ ¬ ∃ z ∈ s.mach.trackers, z.ctx = ctx ∧ named (z.vline / 512) ∧
        z.holder = y.holder ∧ z.line = y.line) ∧
      ∃ i, (t.mach.ctx ctx).inval = some i ∧ i.first = first ∧ i.count = count ∧ i.all = x.getLsbD 38 ∧
        ∀ d ∈ t.mach.drains, d.ctx = ctx → d.id ∈ i.drains) ∧
  ∀ s ctx i, isOn s → tabHas s.mach.ctxs ctx = true → (s.mach.ctx ctx).inval = some i →
    let used : Prop := (∃ d ∈ s.mach.drains, d.id ∈ i.drains) ∨
      (∃ r ∈ s.mach.presses, r.ctx = ctx ∧ r.remote = none ∧ i.names (r.va / 65536) = true) ∨
      ∃ x ∈ s.mach.posted, x.ctx = ctx ∧ x.lanes ≠ [] ∧ i.names (x.va.toNat / 65536) = true
    let again (x : Nat × Launch) : Bool :=
      x.2.ctx == ctx && x.2.order.isNone && x.2.rec_.deps.any fun d => d.told && !d.met
    let clear : Mach := { s.mach with tlb := s.mach.tlb.filter fun e => e.ctx != ctx || !i.drops e }.modCtx ctx fun c =>
      { c with inval := none }
    (used → exec (.tlbInvComplete ctx) s = .next s) ∧
    (¬ used → s.mach.launches.cells.filter again = [] → Does (.tlbInvComplete ctx) s fun t => (t.mach.ctx ctx).inval = none ∧
      (∀ e ∈ t.mach.tlb, ¬ (e.ctx = ctx ∧ i.drops e = true)) ∧ sameMemory s.mach t.mach ∧ t.mach.blocks = s.mach.blocks) ∧
    ∀ k l, ¬ used → s.mach.launches.cells.filter again = [(k, l)] → Makes (.tlbInvComplete ctx) s
      ((clear.testDeps s.mgmt l k 0 l.rec_.deps).2.modLaunch k fun x =>
        { x with rec_ := { x.rec_ with deps := (clear.testDeps s.mgmt l k 0 l.rec_.deps).1 } }))

/-- R181, R182, R293, R294: an arrival for a context that is not switched out takes place at once: a barrier arrival or count-down
changes its object, a local press stands among the requests with the definition its entry keeps, or is discarded with a PUNDEF entry
where the entry is empty. For a context that is switched out it is appended
to the log where it fits, and refused for 10 µs where it does not; a later one of the same sender waits behind it, and the oldest is
tried again when its time has come, not before. -/
def Obligations.ArrivalsAndTheirLog : Prop :=
  let takes (s : State) (ctx : Nat) (a : Arrival) : Prop := isOn s ∧ tabHas s.mach.ctxs ctx = true ∧
    ∀ x ∈ (s.mach.ctx ctx).refused, x.1 ≠ senderOf a
  let object (m : Mach) (pa : Nat) : BarObj := barOf (BitVec.ofNat 64 (natOfBytes (memRead m.mem pa 8)))
  (∀ s ctx pa k, takes s ctx (.barrier pa k) → (s.mach.ctx ctx).run ≠ .switchedOut → pa % 8 = 0 → QuietRange s.mach pa 8 →
    Does (.arrivalLogAppend ctx (.barrier pa k)) s fun t =>
      wroteBytes s.mach t.mach pa (barBytes (object s.mach pa).arrive) ∧ t.mach.blocks = s.mach.blocks) ∧
  (∀ s ctx pa k n, takes s ctx (.countDown pa k n) → (s.mach.ctx ctx).run ≠ .switchedOut → pa % 8 = 0 → QuietRange s.mach pa 8 →
    Does (.arrivalLogAppend ctx (.countDown pa k n)) s fun t =>
      wroteBytes s.mach t.mach pa (barBytes ((object s.mach pa).countDown n.toNat)) ∧ t.mach.blocks = s.mach.blocks) ∧
  (∀ s ctx a e, takes s ctx (.press a) → a.local_ = true → (s.mach.ctx ctx).run ≠ .switchedOut → (s.mach.ctx ctx).regions = [] →
    tabFind (s.mach.ctx ctx).press a.opc.toNat = some e → s.mach.presses = [] →
    Does (.arrivalLogAppend ctx (.press a)) s fun t => sameMemory s.mach t.mach ∧
      ∃ r, t.mach.presses = [r] ∧ r.image = e.image ∧ r.granule = a.addr ∧ (a.more = [] → r.opnd = a.opnd) ∧ r.ctx = ctx ∧
        r.lanes = [] ∧ r.remote = none ∧ r.reply = if a.ret = true then tabFind s.mach.owed a.handle.toNat else none) ∧
  (∀ s ctx a, takes s ctx (.press a) → a.local_ = true → (s.mach.ctx ctx).run ≠ .switchedOut →
    tabFind (s.mach.ctx ctx).press a.opc.toNat = none → (s.mach.ctx ctx).fq.length < 32 →
    Does (.arrivalLogAppend ctx (.press a)) s fun t => sameMemory s.mach t.mach ∧ t.mach.presses = s.mach.presses ∧
      ∃ x, (t.mach.ctx ctx).fq = (s.mach.ctx ctx).fq ++ [x] ∧ x.kind = 9 ∧ x.info0 = BitVec.ofNat 64 a.opc.toNat ∧
        x.info1 = BitVec.ofNat 64 a.addr) ∧
  (∀ s ctx a, takes s ctx a → (s.mach.ctx ctx).run = .switchedOut → (s.mach.ctx ctx).logFits ((arrivalBytes a).length / 16) = true →
    (s.mach.ctx ctx).logHost = false → (s.mach.ctx ctx).logPad ((arrivalBytes a).length / 16) = 0 → (s.mach.ctx ctx).logHigh = true →
    let at_ := (s.mach.ctx ctx).logBase + 16 * ((s.mach.ctx ctx).logProd.toNat % (s.mach.ctx ctx).logUnits)
    QuietRange s.mach at_ (arrivalBytes a).length →
    Does (.arrivalLogAppend ctx a) s fun t => wroteBytes s.mach t.mach at_ (arrivalBytes a) ∧
      (t.mach.ctx ctx).arrivals = (s.mach.ctx ctx).arrivals ++ [a] ∧
      (t.mach.ctx ctx).logProd = (s.mach.ctx ctx).logProd + BitVec.ofNat 32 ((arrivalBytes a).length / 16) ∧
      t.mach.presses = s.mach.presses) ∧
  (∀ s ctx a, isOn s → tabHas s.mach.ctxs ctx = true → ((∃ x ∈ (s.mach.ctx ctx).refused, x.1 = senderOf a) ∨
      ((s.mach.ctx ctx).run = .switchedOut ∧ (s.mach.ctx ctx).logFits ((arrivalBytes a).length / 16) = false)) →
    Makes (.arrivalLogAppend ctx a) s (s.mach.modCtx ctx fun c =>
      { c with refused := c.refused ++ [(senderOf a, s.mach.now + 1000, a)] })) ∧
  ∀ s ctx k t a rest, isOn s → tabHas s.mach.ctxs ctx = true → (s.mach.ctx ctx).refused = (k, t, a) :: rest →
    (s.mach.now < t → exec (.logRefusalRetry ctx k) s = .next s) ∧
    (t ≤ s.mach.now → (s.mach.ctx ctx).run = .switchedOut → (s.mach.ctx ctx).logFits ((arrivalBytes a).length / 16) = false →
      Does (.logRefusalRetry ctx k) s fun u => (u.mach.ctx ctx).refused = (k, s.mach.now + 1000, a) :: rest ∧
        sameMemory s.mach u.mach) ∧
    (t ≤ s.mach.now → (s.mach.ctx ctx).run ≠ .switchedOut → ∀ pa j, a = .barrier pa j → pa % 8 = 0 → QuietRange s.mach pa 8 →
      Does (.logRefusalRetry ctx k) s fun u => (u.mach.ctx ctx).refused = rest ∧
        wroteBytes s.mach u.mach pa (barBytes (object s.mach pa).arrive))

/-- R120, R130, R308, R320: a request of the host or of a PCIe peer through a function's aperture: a read that the page's parties let
leave answers the bytes that memory holds, and is refused otherwise; a write to a writable page changes exactly its bytes and
answers nothing; an AtomicOp answers the old value and writes the new one.
R130, R308, R336: another module reads this one's memory where its launch trusts this module and the page's parties allow it,
and writes unsealed pages; a fenced module is not served. -/
def Obligations.RequestsToMemory : Prop :=
  (let flag (r : HostRequest) : Party → Bool := if r.peer then peerFlag else hostFlag
  (∀ s r ctx l pa n m1, ThroughAperture s r ctx l pa n m1 → r.op = .read n →
    Does (.hostMemoryRequest r) s fun t => t.mach.mem = m1.mem ∧
      t.mach.signals = m1.signals ++ [if m1.leaveOk ctx l.leaf.tag (flag r) then .hostReply r.fn true (memRead m1.mem pa n)
        else .hostReply r.fn false []]) ∧
  (∀ s r ctx l pa n m1 d, ThroughAperture s r ctx l pa n m1 → r.op = .write d → l.leaf.w = true →
    Does (.hostMemoryRequest r) s fun t => wroteBytes m1 t.mach pa d ∧ t.mach.signals = m1.signals) ∧
  ∀ s r ctx l pa m1 x, ThroughAperture s r ctx l pa 8 m1 → r.op = .fetchAdd true x → l.leaf.w = true →
    m1.leaveOk ctx l.leaf.tag (flag r) = true → ((s.mgmt.fn r.fn).apBase.toNat + r.off) % 8 = 0 → pa % 8 = 0 →
    Does (.hostMemoryRequest r) s fun t =>
      t.mach.signals = m1.signals ++ [.hostReply r.fn true (memRead m1.mem pa 8)] ∧
      wroteBytes m1 t.mach pa (bytesOfNat ((natOfBytes (memRead m1.mem pa 8) + x.toNat) % 2 ^ 64) 8)) ∧
  ((∀ s r, isOn s → r.modid ∈ s.mgmt.fenced → exec (.peerModuleRequest r) s = .next s) ∧
  (∀ s r n, isOn s → r.modid ∉ s.mgmt.fenced → r.op = .read n → QuietRange s.mach r.pa n → r.sealed = false →
    Does (.peerModuleRequest r) s fun t => t.mach.mem = s.mach.mem ∧ t.mach.signals = s.mach.signals ++
      [if r.trusted = true ∧ s.mach.leaveOk r.ctx r.mask (modFlag r.modid) = true
        then .peerReply r.modid true (memRead s.mach.mem r.pa n) else .peerReply r.modid false []]) ∧
  ∀ s r d, isOn s → r.modid ∉ s.mgmt.fenced → r.op = .write d → QuietRange s.mach r.pa d.length → r.sealed = false →
    Does (.peerModuleRequest r) s fun t => wroteBytes s.mach t.mach r.pa d ∧ t.mach.signals = s.mach.signals)

/-- R322: at its limit a stream raises the function's event vector and its transactions are held; 1 ms later, with no new key set, the
stream is Insecure, and nothing that it held reaches host memory; the warning is raised once. A key set selected in time, under an SPDM
session, starts the counter over; a new session takes the function's Insecure streams away, to be set up anew (log 18), and leaves the held ones. R320: up to 8 selective
streams, and link IDE under the physical function. -/
def Obligations.IdeStreams : Prop :=
  (∀ s k x, isOn s → tabFind s.mach.ide k = some x → x.keys = true → x.insecure = false → x.limitAt = none →
    Makes (.ideCounterLimit k) s { s.mach with
      ide := tabSet s.mach.ide k { x with counter := 2 ^ 60, limitAt := some s.mach.now },
      signals := s.mach.signals ++ [.ide x.fn] } ∧
    Does (.ideCounterLimit k) s fun t => ∀ ctx, serves k x (deviceOf ctx) = true → t.mach.hostHeld ctx = true) ∧
  (∀ s k x, isOn s → tabFind s.mach.ide k = some x → x.keys = true → x.insecure = false →
    (x.warned = true → exec (.ideCounterWarning k) s = .next s) ∧
    (x.warned = false → x.counter ≤ 2 ^ 60 - 2 ^ 24 → Makes (.ideCounterWarning k) s { s.mach with
      ide := tabSet s.mach.ide k { x with counter := 2 ^ 60 - 2 ^ 24, warned := true },
      signals := s.mach.signals ++ [.ide x.fn] })) ∧
  (∀ s k x t, isOn s → tabFind s.mach.ide k = some x → x.limitAt = some t → x.insecure = false →
    (s.mach.now < t + 100000 → exec (.ideKeyTimeout k) s = .next s) ∧
    (t + 100000 ≤ s.mach.now → Does (.ideKeyTimeout k) s fun u => sameMemory s.mach u.mach ∧
      tabFind u.mach.ide k = some { x with insecure := true } ∧
      ∀ ctx, serves k x (deviceOf ctx) = true → u.mach.hostDead ctx = true)) ∧
  (∀ s fn k, isOn s → (s.mgmt.fn fn).session = true → s.mach.posted = [] → s.mach.heldReplies = [] →
    ((tabFind s.mach.ide k = none ∧ k ≠ linkStream ∧ s.mach.selective < 8) ∨
     (tabFind s.mach.ide k = none ∧ k = linkStream ∧ fn = 0) ∨ ∃ x, tabFind s.mach.ide k = some x ∧ x.fn = fn ∧
      x.insecure = false ∧ ∀ t, x.limitAt = some t → s.mach.now < t + 100000) →
    Makes (.ideKeySetSelection fn k) s { s.mach with ide := tabSet s.mach.ide k ⟨fn, 0, none, false, false, true⟩ }) ∧
  ∀ s fn, isOn s → Does (.spdmSessionEstablishment fn) s fun t => (t.mgmt.fn fn).session = true ∧
    (∀ k x, tabFind t.mach.ide k = some x → x.fn ≠ fn ∨ x.insecure = false) ∧
    (∀ k x, tabFind s.mach.ide k = some x → x.fn ≠ fn ∨ x.insecure = false → tabFind t.mach.ide k = some x) ∧ sameMemory s.mach t.mach ∧ t.mach.blocks = s.mach.blocks ∧
    ∀ f, f ≠ fn → t.mgmt.fn f = s.mgmt.fn f

/-- R323: LOCK_INTERFACE locks an unlocked function under the digest of its covered values; the walker finds them unchanged each
millisecond, or moves the TDI to ERROR, as a covered write to a locked function does; in ERROR every context of the function is
reset.
R8, R266, R284, R285, R321, R326: a register of BAR 0 of an unlocked function reads back what was written to its fields and zero in
its reserved bits; a write of a read-only register, or where no register lies, changes nothing. -/
def Obligations.LocksAndRegisters : Prop :=
  (let failed (s t : State) (fn : Nat) : Prop := (t.mgmt.fn fn).tdi = .error ∧ (∀ f, f ≠ fn → t.mgmt.fn f = s.mgmt.fn f) ∧
    ∀ ctx, tabHas s.mach.ctxs ctx = true → deviceOf ctx = fn → ∃ n, wasReset t.mach ctx (Config.fatalInfo n)
  (∀ s fn, isOn s → fn < 64 → unlocked s fn → Does (.lockInterface fn) s fun t => t.mach = s.mach ∧
    t.mgmt = s.mgmt.setFn fn { s.mgmt.fn fn with
      tdi := .locked, digest := Config.lockDigest (lockedValues s.mgmt s.mach fn), audit := s.mach.now }) ∧
  (∀ s fn, isOn s → s.mgmt.isLocked fn = true → tablesRise s.mach →
    (s.mach.now < (s.mgmt.fn fn).audit + 100000 → exec (.auditWalk fn) s = .next s) ∧
    ((s.mgmt.fn fn).audit + 100000 ≤ s.mach.now →
      ((s.mgmt.fn fn).digest = Config.lockDigest (lockedValues (s.mgmt.setFn fn { s.mgmt.fn fn with audit := s.mach.now }) s.mach fn) →
        Does (.auditWalk fn) s fun t => t.mach = s.mach ∧
          t.mgmt = s.mgmt.setFn fn { s.mgmt.fn fn with audit := s.mach.now }) ∧
      ((s.mgmt.fn fn).digest ≠ Config.lockDigest (lockedValues (s.mgmt.setFn fn { s.mgmt.fn fn with audit := s.mach.now }) s.mach fn) →
        Does (.auditWalk fn) s fun t => failed s t fn))) ∧
  ∀ s fn off x r, isOn s → s.mach.regAt fn off = some r → s.mgmt.isLocked fn = true → s.mach.lockedWrite r x = true →
    tablesRise s.mach → (Does (.lockedRegisterWrite fn off x) s fun t => failed s t fn) ∧
      Does (.registerWrite fn off x) s fun t => failed s t fn) ∧
  (let reads (s : State) (fn off : Nat) (x : BitVec 64) (r : BarReg) (y : BitVec 64) : Prop :=
    s.mach.regAt fn off = some r → Does (.registerWrite fn off x) s fun t => readBar t.mgmt t.mach fn r = y ∧
      sameMemory s.mach t.mach ∧ t.mach.blocks = s.mach.blocks
  (∀ s fn off x, isOn s → s.mach.regAt fn off = none → exec (.registerWrite fn off x) s = .next s) ∧
  (∀ s fn off x r, isOn s → s.mach.regAt fn off = some r →
    (∃ c, r = .fqProd c ∨ r = .logProd c ∨ r = .logCons c ∨ r = .tlbStat c ∨ r = .lqStat c ∨ r = .lqSeq c) →
    exec (.registerWrite fn off x) s = .next s) ∧
  ∀ s fn off x, isOn s → unlocked s fn →
    (∀ p, reads s fn off x (.schedDl p) (x &&& 0xFFFFFF#64)) ∧ (∀ d, reads s fn off x (.partLimit d) (x &&& 0xF#64)) ∧
    (∀ d, reads s fn off x (.vdmask d) x) ∧ (∀ c, reads s fn off x (.ptbr c) (x &&& 0x0000FFFFFFFFF001#64)) ∧
    (∀ c, reads s fn off x (.fqCons c) (x &&& 0xFFFFFFFF#64)) ∧ (∀ c, reads s fn off x (.fqNote c) (x &&& 0x3FFFFF#64)) ∧
    (∀ c, reads s fn off x (.binTimer c) (x &&& 0x3FFFF#64)) ∧ (∀ c, reads s fn off x (.check c) (x &&& 1#64)) ∧
    ∀ c n, reads s fn off x (.peer c n) (x &&& 0x1FFF#64))

/-- R324: a function-level reset of a virtual function resets its contexts, drops its packets and translations, empties its pools and
puts every granule of their large frames into the scrub bitmap; its generation goes on by one until no older packet remains. The
physical function has none.
R324, R506: a granule that is cleared reads as it read while it waited, and holds zeros; a soft error makes every read of its unit
meet uncorrectable data and changes no byte. -/
def Obligations.FunctionResetAndScrubbing : Prop :=
  ((∀ s, isOn s → exec (.functionLevelReset 0) s = .next s) ∧
  (∀ s fn, isOn s → 1 ≤ fn → fn < 64 → tablesRise s.mach → Does (.functionLevelReset fn) s fun t =>
    t.mgmt = s.mgmt.setFn fn { s.mgmt.fn fn with gen := (s.mgmt.fn fn).gen + 1, resetting := true } ∧
    (∀ x ∈ t.mach.posted, deviceOf x.ctx ≠ fn) ∧ (∀ r ∈ t.mach.presses, deviceOf r.ctx ≠ fn) ∧
    (∀ e ∈ t.mach.tlb, deviceOf e.ctx ≠ fn) ∧
    ∀ ctx, tabHas s.mach.ctxs ctx = true → deviceOf ctx = fn → (∃ n, wasReset t.mach ctx (Config.fatalInfo n)) ∧
      (t.mach.ctx ctx).poolFast = [] ∧ (t.mach.ctx ctx).poolCap = [] ∧
      ∀ f ∈ (s.mach.ctx ctx).poolFast ++ (s.mach.ctx ctx).poolCap, 21 ≤ f.log2 → f.pa % 2 ^ 21 = 0 →
        ∀ a, f.pa ≤ a → a < f.pa + 2 ^ f.log2 → granuleOf a ∈ t.mach.scrub ∧ ∀ w, t.mach.viewByte w a = 0) ∧
  ∀ s fn, isOn s → (s.mgmt.fn fn).resetting = true → Does (.functionResetComplete fn) s fun t => t.mach = s.mach ∧
    t.mgmt = s.mgmt.setFn fn { s.mgmt.fn fn with resetting := false }) ∧
  ((∀ s g, isOn s → Does (.scrubGranule g) s fun t => g ∉ t.mach.scrub ∧ t.mgmt = s.mgmt ∧
    (∀ w a, t.mach.viewByte w a = s.mach.viewByte w a) ∧ t.mach.hostMem = s.mach.hostMem ∧ t.mach.peerMem = s.mach.peerMem ∧
    (∀ a, granuleOf a ≠ g → memGet t.mach.mem a = memGet s.mach.mem a) ∧
    (g ∈ s.mach.scrub → ∀ a, granuleOf a = g → memGet t.mach.mem a = 0 ∧ t.mach.badRange none a 1 = false)) ∧
  (∀ s k, isOn s → k / 2 ^ 16 ∉ s.mach.scrub → Does (.softError (.memory k)) s fun t => sameMemory s.mach t.mach ∧
    t.mgmt = { s.mgmt with uncorrected := s.mgmt.uncorrected + 1 } ∧ t.mach.blocks = s.mach.blocks ∧
    ∀ w pa n, pa < 32 * k + 32 → 32 * k < pa + n → t.mach.badRange w pa n = true) ∧
  ∀ s bid k b, isOn s → tabFind s.mach.blocks bid = some b → 64 * k < b.spadSize → Does (.softError (.scratchpad bid k)) s fun t =>
    sameMemory s.mach t.mach ∧ ∃ (b' : Block), tabFind t.mach.blocks bid = some b' ∧ k ∈ b'.spadBad ∧ b'.spad = b.spad ∧ b'.warps = b.warps)

/-- R105, R106, R107, R176, R177, R178: a quota that fits reads back what was written, one that does not leaves the register and sets
ERR; PWAYS is written unless LOCK holds it, and the lines of the ways that change leave L2; an enable sets each QNOW, or is refused; at the end of an interval one way moves from the
device of least loss to that of greatest gain, if the gain is greater, and the counts start again. -/
def Obligations.QuotasAndL2Control : Prop :=
  (∀ s d second x, isOn s → unlocked s 0 → d < 64 → s.mgmt.quotas.length = 64 →
    (quotasFit (s.mgmt.quotas.modify d fun q => q.write second x.toNat) = false →
      exec (.quotaWrite d second x) s = .next { s with mgmt := { s.mgmt with quotaErr := true } }) ∧
    (quotasFit (s.mgmt.quotas.modify d fun q => q.write second x.toNat) = true → Does (.quotaWrite d second x) s fun t =>
      t.mach = s.mach ∧ t.mgmt.quotasOk = true ∧
      readBar t.mgmt t.mach 0 (.quota d second) = (if second then x &&& 0xFFFFF#32 else x).setWidth 64 ∧
      ∀ e f, (e, f) ≠ (d, second) → readBar t.mgmt t.mach 0 (.quota e f) = readBar s.mgmt s.mach 0 (.quota e f))) ∧
  (∀ s (x : BitVec 64), isOn s → unlocked s 0 → readBar s.mgmt s.mach 0 .quotaStat = (if s.mgmt.quotaErr then 1 else 0) ∧
    exec (.registerWrite 0 0x110800 x) s = .next { s with mgmt := { s.mgmt with quotaErr := s.mgmt.quotaErr && !x.getLsbD 0 } }) ∧
  (∀ s x, isOn s → unlocked s 0 →
    (s.mgmt.plock = true → exec (.l2ProtWrite x) s = .next s) ∧
    (s.mgmt.plock = false → Does (.l2ProtWrite x) s fun t => readBar t.mgmt t.mach 0 .prot = (x &&& 0x1FFFF#32).setWidth 64 ∧
      sameMemory s.mach t.mach ∧ t.mach.lines =
        tabFilter (fun _ (r : Resident) => x.getLsbD r.way == s.mgmt.pways.getLsbD r.way || decide (16 ≤ r.way)) s.mach.lines)) ∧
  (∀ s x, isOn s → unlocked s 0 →
    let need := (s.mgmt.monitored.map fun d => (s.mgmt.l2Dev d).qinit).sum
    Does (.l2UmonWrite x) s fun t => t.mach = s.mach ∧ t.mgmt.umonPer = x.extractLsb' 8 24 ∧
      (x.getLsbD 0 = false → t.mgmt.umonEn = false ∧ t.mgmt.umonErr = (s.mgmt.umonErr && !x.getLsbD 1) ∧ t.mgmt.l2 = s.mgmt.l2) ∧
      (x.getLsbD 0 = true → 16 < popcount s.mgmt.pways + need → t.mgmt.umonEn = false ∧ t.mgmt.umonErr = true ∧ t.mgmt.l2 = s.mgmt.l2) ∧
      (x.getLsbD 0 = true → popcount s.mgmt.pways + need ≤ 16 → t.mgmt.umonEn = true ∧
        t.mgmt.umonErr = (s.mgmt.umonErr && !x.getLsbD 1) ∧ (∀ d ∈ s.mgmt.monitored, (t.mgmt.l2Dev d).qnow = (s.mgmt.l2Dev d).qinit) ∧
        ∀ d, d ∉ s.mgmt.monitored → t.mgmt.l2Dev d = s.mgmt.l2Dev d)) ∧
  ∀ s, isOn s →
    let hits := s.mach.hits
    (s.mgmt.umonEn = false ∨ s.mach.now < s.mgmt.umonAt + s.mgmt.umonTime → exec (.umonInterval ()) s = .next s) ∧
    ∀ a b g l, s.mgmt.umonEn = true → s.mgmt.umonAt + s.mgmt.umonTime ≤ s.mach.now →
      a ∈ s.mgmt.monitored → b ∈ s.mgmt.monitored → a ≠ b → s.mgmt.gain hits a = some g → s.mgmt.loss hits b = some l →
      (∀ d ∈ s.mgmt.monitored, ∀ x, s.mgmt.gain hits d = some x → x < g ∨ (x = g ∧ a ≤ d)) →
      (∀ d ∈ s.mgmt.monitored, d ≠ a → ∀ x, s.mgmt.loss hits d = some x → l < x ∨ (x = l ∧ d ≤ b)) →
      Does (.umonInterval ()) s fun t => t.mach = { s.mach with hits := ⟨[]⟩ } ∧ t.mgmt.umonAt = s.mach.now ∧ (∀ d, d ≠ a → d ≠ b → t.mgmt.l2Dev d = s.mgmt.l2Dev d) ∧
        t.mgmt.l2Dev a = { s.mgmt.l2Dev a with qnow := (s.mgmt.l2Dev a).qnow + (if l < g then 1 else 0) } ∧
        t.mgmt.l2Dev b = { s.mgmt.l2Dev b with qnow := (s.mgmt.l2Dev b).qnow - (if l < g then 1 else 0) }

/-- R32, R33, R328: a port that fails is not counted by LUP, one that trains is; MODID does not change while a context exists; alert
back-off changes only latency.
R281, R325, R336: when a target has been unreachable for 10 ms no request to it is left: a posted store gives a POSTERR entry and
never reaches the target's memory, and the lane of a PRESSR parks with DATA at its instruction; missed heartbeats fence the module and
end its requests so. A posted write that fails on its way gives a POSTERR entry with its status. -/
def Obligations.LinksAndTargets : Prop :=
  ((∀ s k, isOn s → Does (.linkPortFailure k) s fun t => t.mach = s.mach ∧
    t.mgmt = { s.mgmt with ports := s.mgmt.ports.filter (· != k) }) ∧
  (∀ s k, isOn s → k < 36 → Does (.linkTraining k) s fun t => k ∈ t.mgmt.ports ∧ t.mach = { s.mach with unreach := [] } ∧
    (∀ j, j ≠ k → (j ∈ t.mgmt.ports ↔ j ∈ s.mgmt.ports)) ∧ (k ∈ s.mgmt.ports → t.mgmt.ports = s.mgmt.ports)) ∧
  (∀ s x, isOn s → (s.mach.ctxs = ⟨[]⟩ →
      exec (.systemConfiguration x) s = .next { s with mgmt := { s.mgmt with modid := x } }) ∧
    (s.mach.ctxs ≠ ⟨[]⟩ → exec (.systemConfiguration x) s = .next s)) ∧
  ∀ s bank, exec (.alertBackoff bank) s = .next s) ∧
  (let posterr (c' : Ctx) (x : Posted) (far : Bool) : Prop := (∃ e ∈ c'.fq, e.kind = 11 ∧
    e.info0 = x.va.setWidth 64 ∧ e.info1 = if far then 1 else 0) ∨ c'.fqOvf = true
  (∀ s k, isOn s → Does (.linkTargetTimeout k) s fun t => k ∈ t.mach.unreach ∧ t.mgmt = s.mgmt ∧
    (∀ r ∈ t.mach.presses, r.target ≠ some k) ∧
    ((∀ r ∈ s.mach.presses, r.target = some k → r.reply = none) → sameMemory s.mach t.mach ∧ t.mach.blocks = s.mach.blocks ∧
      (∀ x ∈ t.mach.posted, ∀ a, x.at_ ≠ .peer k a) ∧
      ∀ x ∈ s.mach.posted, ∀ a, x.at_ = .peer k a → x.lanes ≠ [] → tabHas s.mach.ctxs x.ctx = true →
        posterr (t.mach.ctx x.ctx) x true)) ∧
  (∀ s k r p b w i j l l', isOn s → s.mach.presses.filter (fun x => x.target == some k) = [r] → r.reply = some p → p.scope = .lane →
    p.lanes = BitVec.twoPow 32 i → i < 32 → p.issue.bid = p.bid → p.issue.warp = p.warp → Stands s.mach p.bid p.warp b w → w.block = some (.replies [r.id]) →
    laneAt w i = some l → l.st = .ready → laneAt w j = some l' → j ≠ i → l'.st = .ready →
    Does (.linkTargetTimeout k) s fun t => sameRegisters s.mach t.mach ∧ ∃ (b' : Block) (w' : Warp) (x : Lane) (rec_ : FaultRec),
      Stands t.mach p.bid p.warp b' w' ∧ laneAt w' i = some x ∧ x.st = .parked (some rec_) ∧ x.pc = p.issue.pc ∧ rec_.cause = .data ∧
      laneAt w' j = some l' ∧ w'.block = none) ∧
  (∀ s k, isOn s → ∃ (m : Mach), Makes (.linkTargetTimeout k) s m ∧ ∃ (f : List Nat), k ∈ f ∧ (∀ j, j ≠ k → (j ∈ f ↔ j ∈ s.mgmt.fenced)) ∧
    exec (.missedLinkHeartbeats k) s = .next { s with mgmt := { s.mgmt with fenced := f }, mach := m }) ∧
  ∀ s id x status, isOn s → s.mach.posted.find? (·.id == id) = some x → x.lanes ≠ [] → tabHas s.mach.ctxs x.ctx = true →
    Does (.postedWriteFailure id status) s fun t => sameMemory s.mach t.mach ∧ t.mach.posted = s.mach.posted.filter (·.id != id) ∧
      t.mach.blocks = s.mach.blocks ∧ sameCtxs s.mach t.mach (· ≠ x.ctx) ∧ ((s.mach.ctx x.ctx).fq.length < 32 →
        (t.mach.ctx x.ctx).fq = (s.mach.ctx x.ctx).fq ++
          [⟨11, x.va.setWidth 64, if isPeer x.at_ then 1 else 0, BitVec.ofNat 64 status, [], 0, none, none, none⟩]))

/-- R22, R335: the clock moves in steps of 50 MHz up to 1.9 GHz, the part of a reference period that has passed stays, and nothing else
changes. SLEEP makes every context drain; once the module
is quiet it answers OK, discards sessions and IDE keys, wraps the vault and is powered down, with the fast tier in the checkpoint. On
waking, every byte reads as it did, the vault has its keys, and no function has a session. -/
def Obligations.ClockAndSleep : Prop :=
  (∀ s, isOn s →
    (50 < s.mach.mhz → s.mach.mhz ≤ 1900 → exec (.throttleStep true) s =
      .next { s with mgmt := { s.mgmt with throttled := true }, mach := { s.mach with
        mhz := s.mach.mhz - 50, refRem := s.mach.refRem * (s.mach.mhz - 50) / s.mach.mhz } }) ∧
    (s.mach.mhz < 1850 → exec (.throttleStep false) s =
      .next { s with mgmt := { s.mgmt with throttled := true }, mach := { s.mach with
        mhz := s.mach.mhz + 50, refRem := s.mach.refRem * (s.mach.mhz + 50) / s.mach.mhz } }) ∧
    (s.mach.mhz = 1850 → exec (.throttleStep false) s =
      .next { s with mgmt := { s.mgmt with throttled := false }, mach := { s.mach with
        mhz := 1900, refRem := s.mach.refRem * 1900 / s.mach.mhz } })) ∧
  (∀ s h, Expected s h → h.fn = 0 → s.mgmt.jobs = [] → Does (.sleep h) s fun t =>
    t.mgmt = { s.mgmt.taken h with jobs := [⟨.sleep, 0, h.seq⟩] } ∧ sameMemory s.mach t.mach ∧ t.mach.blocks = s.mach.blocks ∧
    ∀ ctx, tabHas s.mach.ctxs ctx = true → (t.mach.ctx ctx).run ≠ .running) ∧
  ∀ s j, isOn s → s.mgmt.jobs = [j] → j.kind = .sleep → s.mach.quiet = true → s.mach.memoriesOk = true →
    cellsRising s.mach.side.cells = true →
    let t : State := { s with mgmt := (finishJob s.mgmt s.mach).1, mach := (finishJob s.mgmt s.mach).2 }
    t.mgmt.power = .asleep ∧ t.mach.ide = ⟨[]⟩ ∧
    (s.mach.posted = [] → s.mach.heldReplies = [] → t.mach.signals = s.mach.signals ++ [.msix j.fn 0] ∧ t.mach.ctxs = s.mach.ctxs) ∧
    (∀ f, (t.mgmt.fn f).session = false) ∧ t.mgmt.vaultWrapped = true ∧
    (∀ a, memGet t.mach.mem a = if Config.fastPa a then 0 else memGet s.mach.mem a) ∧
    (∀ x ∈ t.mach.posted, ∀ k y, tabFind s.mach.ide k = some y → y.held = true → serves k y (deviceOf x.ctx) = true →
      ∀ a, x.at_ ≠ .host a) ∧
    (∃ (c : Checkpoint), t.mgmt.check = some c ∧ c.stamp = s.mach.maxStamp ∧ c.digest = Config.imageDigest c.mem.cells ∧
      ∀ a, Config.fastPa a = true → memGet c.mem a = memGet s.mach.mem a) ∧
    (∀ i, (∃ fn, i = .lockInterface fn) ∨ (∃ k, i = .scrubGranule k) ∨ (∃ q x, i = .lqWake q x) → exec i t = .next t) ∧
    Does .sleepWake t fun u => u.mgmt.power = .on ∧ (∀ a, memGet u.mach.mem a = memGet s.mach.mem a) ∧
      (∀ l, tabFind u.mach.side l = tabFind s.mach.side l) ∧ u.mgmt.vault = s.mgmt.vault ∧ u.mgmt.modid = s.mgmt.modid ∧
      (∀ f, (u.mgmt.fn f).session = false) ∧ u.mach.ctxs = t.mach.ctxs

/-- R24, R333, R334: the capacity tier keeps its bytes and what is saved in it over every reset of the dies, its bytes over a new
power-up, and loses both with its supply; a fatal error stops every context that runs and sets DUMP, which survives; an alarm erases the vault, the sleep key, the IDE keys, the
checkpoint and the dump, moves every TDI to ERROR and resets every context, and ALARM reads 1 after the next power-up. -/
def Obligations.ResetsAndAlarms : Prop :=
  let isOut (s : State) (ctx : Nat) : Prop := (s.mach.ctx ctx).run = .switchedOut
  let stopped (s t : State) : Prop := tablesRise s.mach → ∀ bid b, tabFind t.mach.blocks bid = some b → isOut s b.ctx
  (∀ s compute cache hbm, isOn s → (compute || cache || hbm) = true → Does (.dieReset compute cache hbm) s fun t =>
    (∀ a, Config.fastPa a = false → memGet t.mach.mem a = memGet s.mach.mem a) ∧ t.mgmt.check = s.mgmt.check ∧
    t.mgmt.dump = s.mgmt.dump ∧ stopped s t ∧ (compute = true → t.mach.refTicks = 0) ∧ t.mach.stamps = s.mach.stamps ∧
    (tablesRise s.mach → ∀ bid b, tabFind s.mach.blocks bid = some b → isOut s b.ctx → tabFind t.mach.blocks bid = some b) ∧
    (cache = true → t.mach.lines = ⟨[]⟩ ∧ t.mgmt.pways = 0 ∧ t.mgmt.plock = false) ∧
    ((cache || hbm) = true → ∀ a, Config.fastPa a = true → memGet t.mach.mem a = 0)) ∧
  (∀ s, Does .capacityTierSupplyLoss s fun t => t.mgmt.check = none ∧ t.mgmt.dump = none ∧
    (tablesRise s.mach → ∀ bid b, tabFind t.mach.blocks bid = some b → ¬ isOut s b.ctx) ∧ ∀ a, memGet t.mach.mem a = if Config.fastPa a then memGet s.mach.mem a else 0) ∧
  (∀ s, isOn s → ∃ d, Does .fatalError s fun t => t.mgmt.dump = some d ∧ sameMemory s.mach t.mach ∧
    stopped s t ∧ (readBar t.mgmt t.mach 0 .mbStat).getLsbD 5 = true ∧
    Does .powerUp t fun u => (readBar u.mgmt u.mach 0 .mbStat).getLsbD 5 = true ∧ u.mgmt.dump = some d) ∧
  (∀ s, Does .powerUp s fun t => t.mgmt = { Mgmt.reset with check := s.mgmt.check, dump := s.mgmt.dump, alarm := s.mgmt.alarmed } ∧
    (∀ a, memGet t.mach.mem a = if Config.fastPa a then 0 else memGet s.mach.mem a) ∧ t.mach.hostMem = s.mach.hostMem ∧
    t.mach.peerMem = s.mach.peerMem ∧ t.mach.ctxs = ⟨[]⟩ ∧ t.mach.blocks = ⟨[]⟩ ∧ t.mach.refTicks = 0 ∧ t.mach.stamps = ⟨[]⟩) ∧
  ∀ s, (isOn s → tablesRise s.mach) → Does .securityAlarm s fun t => t.mgmt.vault = [] ∧ t.mgmt.sleepKey = false ∧
    t.mgmt.check = none ∧ t.mgmt.dump = none ∧ t.mach.ide = ⟨[]⟩ ∧ (∀ f, f < 64 → (t.mgmt.fn f).tdi = .error) ∧
    (∀ ctx w, (t.mach.ctx ctx).world = some w → w.valid = false) ∧
    (isOn s → ∀ ctx, tabHas s.mach.ctxs ctx = true → ∃ n, wasReset t.mach ctx (Config.fatalInfo n)) ∧
    Does .powerUp t fun u => (readBar u.mgmt u.mach 0 .mbStat).getLsbD 4 = true

/-- R242, R265, R314, R321, R332, R333: the commands of the basic level and DUMPRD, each with its answer: STATUS tells the clock, the throttle
state and the error counts, POOLADD adds frames to a pool, SETAPER sets the aperture, KEYPROV gives a new handle for a key, DUMPRD gives the digest of the
dump; CHECKPOINT makes every context drain, and answers once the image of the fast tier is whole.
R332: the commands of the expert level. ASSIGN gives a function these clusters and queues and no others, a queue that moves
bound to no context, and is DENIED where it would change what a lock covers; GRANT allows or denies the
level; POWERCAP lowers the limit; DEBUG reads or writes a register of a held block. -/
def Obligations.MailboxCommands : Prop :=
  ((∀ s h, Expected s h → ∃ ws : List Word, ws.length = 6 ∧ ws.getD 0 0 = BitVec.ofNat 32 s.mach.mhz ∧
    ws.getD 1 0 = (if s.mgmt.throttled then 1 else 0) ∧ ws.getD 4 0 = BitVec.ofNat 32 s.mach.corrected ∧
    ws.getD 5 0 = BitVec.ofNat 32 s.mgmt.uncorrected ∧
    Replies (.status h) s h 1 { status := .ok, words := ws } (s.mgmt.taken h) { s.mach with free := s.mach.free + 2 }) ∧
  (∀ s h ctx capacity frames, Expected s h → s.mach.owns h.fn ctx = true → frames.all frameOk = true → s.mgmt.isLocked h.fn = false →
    Replies (.pooladd h ctx capacity frames) s h 4 { status := .ok } (s.mgmt.taken h) (s.mach.setCtx ctx { s.mach.ctx ctx with
      poolFast := (s.mach.ctx ctx).poolFast ++ if capacity then [] else frames,
      poolCap := (s.mach.ctx ctx).poolCap ++ if capacity then frames else [] })) ∧
  (∀ s h ctx base, Expected s h → s.mach.owns h.fn ctx = true → s.mgmt.isLocked h.fn = false →
    Replies (.setaper h ctx base) s h 5 { status := .ok }
      ((s.mgmt.taken h).setFn h.fn { (s.mgmt.taken h).fn h.fn with apBase := base, apCtx := some ctx }) s.mach) ∧
  (∀ s h ctx base capacity frames, Expected s h → s.mach.owns h.fn ctx = true → frames.all frameOk = true → s.mgmt.isLocked h.fn = true →
    Replies (.pooladd h ctx capacity frames) s h 4 { status := .denied } (s.mgmt.taken h) s.mach ∧
    Replies (.setaper h ctx base) s h 5 { status := .denied } (s.mgmt.taken h) s.mach) ∧
  (∀ s h ctx key, Expected s h → s.mach.owns h.fn ctx = true →
    ((s.mgmt.fn h.fn).session = false → Replies (.keyprov h ctx key) s h 8 { status := .denied } (s.mgmt.taken h) s.mach) ∧
    ((s.mgmt.fn h.fn).session = true → s.mgmt.vault.length < 1024 → ∃ x : Word, x ≠ 0 ∧ (∀ k ∈ s.mgmt.vault, k.handle ≠ x) ∧
      Replies (.keyprov h ctx key) s h 8 { status := .ok, words := [x] }
        { s.mgmt.taken h with vault := s.mgmt.vault ++ [⟨x, ctx, key⟩], vaultNo := s.mgmt.vaultNo + 1 } s.mach)) ∧
  (∀ s h, Expected s h → h.fn = 0 →
    (s.mgmt.dump = none → Replies (.dumprd h) s h 20 { status := .badarg } (s.mgmt.taken h) s.mach) ∧
    ∀ d, s.mgmt.dump = some d → ∃ ws : List Word, ws.length = 8 ∧ (∀ i, i < 8 → ws.getD i 0 = d.extractLsb' (32 * i) 32) ∧
      Replies (.dumprd h) s h 20 { status := .ok, words := ws } (s.mgmt.taken h) s.mach) ∧
  (∀ s h, Expected s h → h.fn = 0 → s.mgmt.jobs = [] → Does (.checkpoint h) s fun t =>
    t.mgmt = { s.mgmt.taken h with jobs := [⟨.checkpoint, 0, h.seq⟩] } ∧ sameMemory s.mach t.mach ∧ t.mach.blocks = s.mach.blocks ∧
    ∀ ctx, tabHas s.mach.ctxs ctx = true → (t.mach.ctx ctx).run ≠ .running) ∧
  ∀ mg (m : Mach) j rest, mg.jobs = j :: rest → j.kind = .checkpoint → m.quiet = true →
    (finishJob mg m).1.jobs = rest ∧ sameMemory m (finishJob mg m).2 ∧ (finishJob mg m).2.claims = ⟨[]⟩ ∧
    (∀ l r, tabFind (finishJob mg m).2.lines l = some r → r.dirty = false) ∧
    (finishJob mg m).2.signals = m.signals ++ [.msix j.fn 0] ∧ ∃ (c : Checkpoint), (finishJob mg m).1.check = some c ∧
      c.stamp = m.maxStamp ∧ c.digest = Config.imageDigest c.mem.cells ∧ ∀ a, Config.fastPa a = true → memGet c.mem a = memGet m.mem a) ∧
  ((∀ s h fn cs qs, Expected s h → h.fn = 0 → fn < 64 → assignNamed fn cs qs s.mgmt s.mach = true →
    cellsRising s.mach.queues.cells = true →
    (assignLocked s.mgmt s.mach fn qs = true → Replies (.assign h fn cs qs) s h 16 { status := .denied } (s.mgmt.taken h) s.mach) ∧
    (assignLocked s.mgmt s.mach fn qs = false → ∃ (m : Mach), Replies (.assign h fn cs qs) s h 16 { status := .ok } (s.mgmt.taken h) m ∧
      m = { s.mach with clusters := m.clusters, queues := m.queues } ∧
      (∀ k, k ∈ tabGet m.clusters fn [] ↔ k ∈ cs) ∧
      (∀ f k, f ≠ fn → (k ∈ tabGet m.clusters f [] ↔ k ∈ tabGet s.mach.clusters f [] ∧ k ∉ cs)) ∧
      (∀ q, (m.queue q).fn = if q ∈ qs then fn else if (s.mach.queue q).fn = fn then 0 else (s.mach.queue q).fn) ∧
      ∀ q, m.queue q = if (m.queue q).fn = (s.mach.queue q).fn then s.mach.queue q
        else { s.mach.queue q with fn := (m.queue q).fn, ctx := none })) ∧
  (∀ s h fn allow, Expected s h → h.fn = 0 → 1 ≤ fn → fn < 64 →
    Replies (.grant h fn allow) s h 17 { status := .ok } ((s.mgmt.taken h).setFn fn { s.mgmt.fn fn with expert := allow }) s.mach) ∧
  (∀ s h n, Expected s h → (h.fn = 0 ∨ (s.mgmt.fn h.fn).expert = true) → 100 * n ≤ 15000 →
    Replies (.powercap h n) s h 18 { status := .ok } { s.mgmt.taken h with limitW := 15000 - 100 * n } s.mach) ∧
  ∀ s h a b w, Expected s h → (h.fn = 0 ∨ (s.mgmt.fn h.fn).expert = true) → debugNamed h.fn a s.mgmt s.mach = true →
    Stands s.mach (debugPlace a).1 (debugPlace a).2 b w → w.lanes.length = 32 →
    (debugValue a = none → ∃ x : Word, Replies (.debug h a) s h 19 { status := .ok, words := [x] } (s.mgmt.taken h) s.mach ∧
      (∀ k, debugReg a = .p k 7 → x = 15) ∧ ((∀ k, debugReg a ≠ .p k 7) → x = (w.getReg (debugReg a)).val)) ∧
    ∀ x, debugValue a = some x → ∃ (m : Mach) (b' : Block) (w' : Warp), Replies (.debug h a) s h 19 { status := .ok } (s.mgmt.taken h) m ∧
      sameMemory s.mach m ∧ Stands m (debugPlace a).1 (debugPlace a).2 b' w' ∧
      w'.getReg (debugReg a) = ⟨x, (w.getReg (debugReg a)).tag⟩ ∧ (∀ r, r ≠ debugReg a → w'.getReg r = w.getReg r) ∧
      (∀ bid k, (bid, k) ≠ debugPlace a → m.warp? bid k = s.mach.warp? bid k))

/-- R331, R332: a command of the physical function, or an expert command of a function without the level, is answered DENIED, one that names
another function's context BADARG, and nothing is done; a message that was executed gets its kept reply once more; any other that
is not the next is answered GAP with the last message accepted. -/
def Obligations.RefusedMessages : Prop :=
  (∀ s h fn allow cs qs, Expected s h → h.fn ≠ 0 →
    Replies (.assign h fn cs qs) s h 16 { status := .denied } (s.mgmt.taken h) s.mach ∧
    Replies (.grant h fn allow) s h 17 { status := .denied } (s.mgmt.taken h) s.mach ∧
    Replies (.checkpoint h) s h 6 { status := .denied } (s.mgmt.taken h) s.mach ∧
    Replies (.sleep h) s h 7 { status := .denied } (s.mgmt.taken h) s.mach ∧
    Replies (.dumprd h) s h 20 { status := .denied } (s.mgmt.taken h) s.mach) ∧
  (∀ s h n a, Expected s h → h.fn ≠ 0 → (s.mgmt.fn h.fn).expert = false →
    Replies (.powercap h n) s h 18 { status := .denied } (s.mgmt.taken h) s.mach ∧
    Replies (.debug h a) s h 19 { status := .denied } (s.mgmt.taken h) s.mach) ∧
  (∀ s h ctx base capacity frames key, Expected s h → s.mach.owns h.fn ctx = false →
    Replies (.preempt h ctx) s h 2 { status := .badarg } (s.mgmt.taken h) s.mach ∧
    Replies (.restore h ctx) s h 3 { status := .badarg } (s.mgmt.taken h) s.mach ∧
    Replies (.pooladd h ctx capacity frames) s h 4 { status := .badarg } (s.mgmt.taken h) s.mach ∧
    Replies (.setaper h ctx base) s h 5 { status := .badarg } (s.mgmt.taken h) s.mach ∧
    Replies (.keyprov h ctx key) s h 8 { status := .badarg } (s.mgmt.taken h) s.mach) ∧
  ∀ s h, isOn s → h.fn < 64 → (s.mgmt.fn h.fn).tdi ≠ .error → (s.mgmt.fn h.fn).inSeq ≠ h.seq →
    (∀ j ∈ s.mgmt.jobs, j.fn = h.fn → j.seq ≠ h.seq) →
    let f := s.mgmt.fn h.fn
    Does (.status h) s fun t => t.mach = { s.mach with signals := s.mach.signals ++ [.msix h.fn 0] } ∧
      (t.mgmt.fn h.fn).inSeq = f.inSeq ∧ (t.mgmt.fn h.fn).outSlot = f.outSlot + 1 ∧
      (∀ k, f.kept.find? (fun x => x.1 == h.seq) = some k → (t.mgmt.fn h.fn).outSeq = f.outSeq ∧
        (t.mgmt.fn h.fn).rings = memWrite f.rings (0x2400 + 64 * f.outSlot.toNat) (bytesOfNat k.2.toNat 64)) ∧
      ((∀ k ∈ f.kept, k.1 ≠ h.seq) → (t.mgmt.fn h.fn).outSeq = seqAfter f.outSeq ∧
        (t.mgmt.fn h.fn).rings = memWrite f.rings (0x2400 + 64 * f.outSlot.toNat)
          (bytesOfNat (mbMessage f.outSeq f.lastIn 1 { status := .gap }).toNat 64))

/-- R337 to R348: decoding the words of any well-formed instruction gives the instruction back, with every operand, modifier and
immediate at every value that its encoding admits; an instruction has one word or two, and a step of the part has none. -/
def Obligations.DecodeInvertsEncode : Prop :=
  ∀ i : Instr, i.wf = true → ((opOf i).isSome = true ↔ encode i ≠ []) ∧
    ∀ w0 rest, encode i = w0 :: rest → rest.length ≤ 1 ∧ decodeWords w0 rest.head? = .ok i

/-- R344, R347, R348: the words that the reference entries write out decode to the instructions they stand for, and words with a reserved
bit set, an undefined modifier, write slot 7 or a reserved opcode are refused, each by name. -/
def Obligations.DecodesTheWordsOfTheSpec : Prop :=
  let lane : Head := ⟨.lane, 0, 0⟩
  decodeWords 0x10180400#32 (some 0x0200006E#32) = .ok (.iaddB ⟨⟨.lane, 3, 0⟩, .v 4, .v 0, .v 2, .v 0, ⟨false, true, 1, .none⟩, always⟩) ∧
  decodeWords 0x42000401#32 (some 0x0102000E#32) =
    .ok (.ffma ⟨lane, .v 4, .v 1, .v 1, .v 2, ⟨⟨false, false⟩, ⟨false, false⟩, ⟨false, false⟩, .rne, false⟩, always⟩) ∧
  decodeWords 0x04000000#32 (some 0xFFFFFF0E#32) = .ok (.call ⟨lane, 0xFFFFFF, always⟩) ∧
  decodeWords 0x09000000#32 (some 0x002A800E#32) = .ok (.trap ⟨lane, .v 0, .v 0, 0x2A, ⟨⟩, always⟩) ∧
  decodeWords 0x00000000#32 none = .ok (.nop ⟨lane, .v 0, .v 0⟩) ∧
  decodeWords 0x00070000#32 none = .error .wslot ∧
  decodeWords 0x0D000000#32 none = .error .opcode ∧
  decodeWords 0x00000001#32 none = .error .combination ∧
  decodeWords 0x10180400#32 (some 0x0200060E#32) = .error .modifier ∧
  decodeWords 0x10180400#32 (some 0x0200080E#32) = .error .reservedField

/-- R38, R42, R337, R339, R341, R353: the words of the clause at the program counter are those that lie there in memory, where nothing wrote
them since the launch's start (R128); when the ones at
the instruction's place decode to an instruction that can issue, the scheduler's turn is that instruction, and the step is `exec` of it at
the machine with that issue begun and marked as its scheduler's issue of the cycle, followed by what every step brings about at once; a
step of the part is `exec` of it likewise. -/
def Obligations.StepRunsTheDecodedInstruction : Prop :=
  (∀ (m : Mach) mg a (va : Nat) l, (∀ x, x / 65536 = va / 65536 → m.translate a x = (.ok l, m)) → l.x = true → l.sealed = false →
    l.tier ≤ 1 → let pa := l.frame + va % 2 ^ l.log
    let h := wordOfBytes (memRead m.mem pa 4)
    headerOk h = true → va % 65536 + 4 * clauseWords h ≤ 65536 → 16 ≤ l.log → plainRange m pa (4 * clauseWords h) →
    (∀ lc c, m.launch? a.launch = some lc → lc.code = some c → ∀ x ∈ linesOf pa (4 * clauseWords h), (m.lineStamps x).wts ≤ lc.start) →
    m.fetchClause mg a va = (.ok (wordsOfBytes (memRead m.mem pa (4 * clauseWords h))), m)) ∧
  (∀ (m : Mach) mg bid k b w lane l ws m1 i op, Stands (m.modWarp bid k Warp.select) bid k b w →
    (bitsOf w.group).head? = some lane → laneAt w lane = some l →
    (l.pc.index = 0 ∧ l.code = [] ∧ (m.modWarp bid k Warp.select).fetchClause mg b.fetcher l.pc.clause.toNat = (.ok ws, m1) ∧
      m1.stalled = false ∧ Stands m1 bid k b w) →
    let h := ws.headD 0
    let q := issueFor bid k w.group l.pc h
    let m2 := (m1.modWarp bid k (setCode w.group ws)).modWarp bid k (observeSlots w.group h)
    (∀ j, j < 6 → (headerWait h).testBit j = true → w.ws.getD j 0 = 0) → classOk h (instrWords ws h 0).1 = true →
    decodeWords (instrWords ws h 0).1 (instrWords ws h 0).2 = .ok i → opOf i = some op → op.canIssue mg q m2 = true →
    m.turnOfWarp mg bid k = (.run q i, m2)) ∧
  (∀ (m : Mach) mg bid k b w lane l i op, Stands (m.modWarp bid k Warp.select) bid k b w →
    (bitsOf w.group).head? = some lane → laneAt w lane = some l → l.pc.index ≠ 0 →
    let h := l.code.headD 0
    let q := issueFor bid k w.group l.pc h
    classOk h (instrWords l.code h l.pc.index).1 = true →
    decodeWords (instrWords l.code h l.pc.index).1 (instrWords l.code h l.pc.index).2 = .ok i → opOf i = some op →
    op.canIssue mg q (m.modWarp bid k Warp.select) = true → m.turnOfWarp mg bid k = (.run q i, m.modWarp bid k Warp.select)) ∧
  (∀ s core sched rest x others q i m, s.agenda = .issue core sched :: rest → s.mach.candidates core sched = x :: others →
    s.mach.turnOfWarp s.mgmt x.1 x.2.1 = (.run q i, m) →
    ∀ t, exec i { s with agenda := rest, mach := { m.markIssued core sched with issue := some q } } = .next t →
      step s = .next { t with mach := t.mach.afterMove t.mgmt s.mach }) ∧
  ∀ s e rest t, s.agenda = .event e :: rest → opOf e = none → exec e { s with agenda := rest } = .next t →
    step s = .next { t with mach := t.mach.afterMove t.mgmt s.mach }

/-- R37, R83, R320, R345: an operand that names no register reads a constant with an empty mask, p7 all ones, and a write to it goes to no
register; no instruction of a program changes the module's management. -/
def Obligations.HardwiredAndProtected : Prop :=
  (∀ v : View, ∀ pos k, v.rd pos .zero k = ⟨0, 0⟩ ∧ v.rd pos .ones k = ⟨0xFFFFFFFF, 0⟩ ∧ v.pbits pos (.p 7) = 15 ∧
    (v.rd pos (.p 7) k).tag = 0) ∧
  (∀ lane k, regOf lane .zero k = none ∧ regOf lane (.p 7) k = none) ∧
  ∀ i s t, (opOf i).isSome = true → exec i s = .next t → t.mgmt = s.mgmt ∧ t.agenda = s.agenda

/-- R178, a headline: whatever a step does, the quotas of all devices together stay within the capacities. -/
def Obligations.QuotasStayWithinCapacity : Prop :=
  ∀ s t, s.mgmt.quotasOk = true → step s = .next t → t.mgmt.quotasOk = true

/-- A headline about the model's memories: whatever a step does, those of the module, of the host and of every other module keep
the one form in which equal memories are equal data. -/
def Obligations.MemoriesStayCanonical : Prop :=
  ∀ s t, s.mach.memoriesOk = true → step s = .next t → t.mach.memoriesOk = true

/-- R8, R27 to R31, R97, R103, R105, R106, R113, R157, R176, R177, R178, R266: what the machine holds after reset: no context, no block, the
values of the Reset columns, and both invariants above. -/
def Obligations.ResetStateHoldsItsValues : Prop :=
  let s := State.reset
  s.mgmt.quotasOk = true ∧ s.mach.memoriesOk = true ∧ s.mach.ctxs = ⟨[]⟩ ∧ s.mach.blocks = ⟨[]⟩ ∧ s.mach.refTicks = 0 ∧
  s.mgmt.modid = 0 ∧ s.mgmt.ports = [] ∧
  (∀ d, d < 64 → readBar s.mgmt s.mach 0 (.quota d false) = (if d = 0 then 0x81040400#64 else 0) ∧
    readBar s.mgmt s.mach 0 (.quota d true) = (if d = 0 then 0x88040#64 else 0) ∧
    readBar s.mgmt s.mach 0 (.vdmask d) = BitVec.allOnes 64 ∧ readBar s.mgmt s.mach 0 (.partLimit d) = 11) ∧
  readBar s.mgmt s.mach 0 .prot = 0 ∧ readBar s.mgmt s.mach 0 .umon = 0x186A000#64 ∧ readBar s.mgmt s.mach 0 .quotaStat = 0 ∧
  (∀ p, p < 32 → readBar s.mgmt s.mach 0 (.schedDl p) = 200000#64) ∧ readBar s.mgmt s.mach 0 .mbStat = 0 ∧
  (∀ l, s.mach.lineStamps l = ⟨0, 0⟩) ∧
  ∀ v, csrValue v s.mach 0x100 = 0x08110C0200104041#64 ∧ csrValue v s.mach 0x101 = 0x00043556#64 ∧
    csrValue v s.mach 0x102 = 0x6EDC3FFF#64 ∧ csrValue v s.mach 0x140 = 0
end

