-- ==== Sys2Proof/Laws/State.lean ====
section
/-! SUPPORT. What each update of the machine does to each field: one lemma per field per update. -/

namespace Sys2Proof.Machine

/-! ## setCtx -/

@[simp] theorem Mach.setCtx_cycle (m : Mach) (c : Nat) (x : Ctx) : (m.setCtx c x).cycle = m.cycle := rfl
@[simp] theorem Mach.setCtx_time (m : Mach) (c : Nat) (x : Ctx) : (m.setCtx c x).time = m.time := rfl
@[simp] theorem Mach.setCtx_refTicks (m : Mach) (c : Nat) (x : Ctx) : (m.setCtx c x).refTicks = m.refTicks := rfl
@[simp] theorem Mach.setCtx_refRem (m : Mach) (c : Nat) (x : Ctx) : (m.setCtx c x).refRem = m.refRem := rfl
@[simp] theorem Mach.setCtx_mhz (m : Mach) (c : Nat) (x : Ctx) : (m.setCtx c x).mhz = m.mhz := rfl
@[simp] theorem Mach.setCtx_mem (m : Mach) (c : Nat) (x : Ctx) : (m.setCtx c x).mem = m.mem := rfl
@[simp] theorem Mach.setCtx_hostMem (m : Mach) (c : Nat) (x : Ctx) : (m.setCtx c x).hostMem = m.hostMem := rfl
@[simp] theorem Mach.setCtx_peerMem (m : Mach) (c : Nat) (x : Ctx) : (m.setCtx c x).peerMem = m.peerMem := rfl
@[simp] theorem Mach.setCtx_peerBad (m : Mach) (c : Nat) (x : Ctx) : (m.setCtx c x).peerBad = m.peerBad := rfl
@[simp] theorem Mach.setCtx_hostUr (m : Mach) (c : Nat) (x : Ctx) : (m.setCtx c x).hostUr = m.hostUr := rfl
@[simp] theorem Mach.setCtx_farLast (m : Mach) (c : Nat) (x : Ctx) : (m.setCtx c x).farLast = m.farLast := rfl
@[simp] theorem Mach.setCtx_outPts (m : Mach) (c : Nat) (x : Ctx) : (m.setCtx c x).outPts = m.outPts := rfl
@[simp] theorem Mach.setCtx_outside (m : Mach) (c : Nat) (x : Ctx) : (m.setCtx c x).outside = m.outside := rfl
@[simp] theorem Mach.setCtx_owed (m : Mach) (c : Nat) (x : Ctx) : (m.setCtx c x).owed = m.owed := rfl
@[simp] theorem Mach.setCtx_corrected (m : Mach) (c : Nat) (x : Ctx) : (m.setCtx c x).corrected = m.corrected := rfl
@[simp] theorem Mach.setCtx_stamps (m : Mach) (c : Nat) (x : Ctx) : (m.setCtx c x).stamps = m.stamps := rfl
@[simp] theorem Mach.setCtx_bad (m : Mach) (c : Nat) (x : Ctx) : (m.setCtx c x).bad = m.bad := rfl
@[simp] theorem Mach.setCtx_lines (m : Mach) (c : Nat) (x : Ctx) : (m.setCtx c x).lines = m.lines := rfl
@[simp] theorem Mach.setCtx_l2Uses (m : Mach) (c : Nat) (x : Ctx) : (m.setCtx c x).l2Uses = m.l2Uses := rfl
@[simp] theorem Mach.setCtx_shadow (m : Mach) (c : Nat) (x : Ctx) : (m.setCtx c x).shadow = m.shadow := rfl
@[simp] theorem Mach.setCtx_hits (m : Mach) (c : Nat) (x : Ctx) : (m.setCtx c x).hits = m.hits := rfl
@[simp] theorem Mach.setCtx_heldBy (m : Mach) (c : Nat) (x : Ctx) : (m.setCtx c x).heldBy = m.heldBy := rfl
@[simp] theorem Mach.setCtx_claims (m : Mach) (c : Nat) (x : Ctx) : (m.setCtx c x).claims = m.claims := rfl
@[simp] theorem Mach.setCtx_side (m : Mach) (c : Nat) (x : Ctx) : (m.setCtx c x).side = m.side := rfl
@[simp] theorem Mach.setCtx_scrub (m : Mach) (c : Nat) (x : Ctx) : (m.setCtx c x).scrub = m.scrub := rfl
@[simp] theorem Mach.setCtx_posted (m : Mach) (c : Nat) (x : Ctx) : (m.setCtx c x).posted = m.posted := rfl
@[simp] theorem Mach.setCtx_swept (m : Mach) (c : Nat) (x : Ctx) : (m.setCtx c x).swept = m.swept := rfl
@[simp] theorem Mach.setCtx_maxStamp (m : Mach) (c : Nat) (x : Ctx) : (m.setCtx c x).maxStamp = m.maxStamp := rfl
@[simp] theorem Mach.setCtx_tlb (m : Mach) (c : Nat) (x : Ctx) : (m.setCtx c x).tlb = m.tlb := rfl
@[simp] theorem Mach.setCtx_ctxs (m : Mach) (c : Nat) (x : Ctx) : (m.setCtx c x).ctxs = tabSet m.ctxs c x := rfl
@[simp] theorem Mach.setCtx_cores (m : Mach) (c : Nat) (x : Ctx) : (m.setCtx c x).cores = m.cores := rfl
@[simp] theorem Mach.setCtx_blocks (m : Mach) (c : Nat) (x : Ctx) : (m.setCtx c x).blocks = m.blocks := rfl
@[simp] theorem Mach.setCtx_launches (m : Mach) (c : Nat) (x : Ctx) : (m.setCtx c x).launches = m.launches := rfl
@[simp] theorem Mach.setCtx_queues (m : Mach) (c : Nat) (x : Ctx) : (m.setCtx c x).queues = m.queues := rfl
@[simp] theorem Mach.setCtx_orders (m : Mach) (c : Nat) (x : Ctx) : (m.setCtx c x).orders = m.orders := rfl
@[simp] theorem Mach.setCtx_offers (m : Mach) (c : Nat) (x : Ctx) : (m.setCtx c x).offers = m.offers := rfl
@[simp] theorem Mach.setCtx_trackers (m : Mach) (c : Nat) (x : Ctx) : (m.setCtx c x).trackers = m.trackers := rfl
@[simp] theorem Mach.setCtx_shares (m : Mach) (c : Nat) (x : Ctx) : (m.setCtx c x).shares = m.shares := rfl
@[simp] theorem Mach.setCtx_drains (m : Mach) (c : Nat) (x : Ctx) : (m.setCtx c x).drains = m.drains := rfl
@[simp] theorem Mach.setCtx_wrung (m : Mach) (c : Nat) (x : Ctx) : (m.setCtx c x).wrung = m.wrung := rfl
@[simp] theorem Mach.setCtx_presses (m : Mach) (c : Nat) (x : Ctx) : (m.setCtx c x).presses = m.presses := rfl
@[simp] theorem Mach.setCtx_gate (m : Mach) (c : Nat) (x : Ctx) : (m.setCtx c x).gate = m.gate := rfl
@[simp] theorem Mach.setCtx_clusters (m : Mach) (c : Nat) (x : Ctx) : (m.setCtx c x).clusters = m.clusters := rfl
@[simp] theorem Mach.setCtx_signals (m : Mach) (c : Nat) (x : Ctx) : (m.setCtx c x).signals = m.signals := rfl
@[simp] theorem Mach.setCtx_ide (m : Mach) (c : Nat) (x : Ctx) : (m.setCtx c x).ide = m.ide := rfl
@[simp] theorem Mach.setCtx_heldReplies (m : Mach) (c : Nat) (x : Ctx) : (m.setCtx c x).heldReplies = m.heldReplies := rfl
@[simp] theorem Mach.setCtx_dmaOff (m : Mach) (c : Nat) (x : Ctx) : (m.setCtx c x).dmaOff = m.dmaOff := rfl
@[simp] theorem Mach.setCtx_unreach (m : Mach) (c : Nat) (x : Ctx) : (m.setCtx c x).unreach = m.unreach := rfl
@[simp] theorem Mach.setCtx_busPeers (m : Mach) (c : Nat) (x : Ctx) : (m.setCtx c x).busPeers = m.busPeers := rfl
@[simp] theorem Mach.setCtx_stalled (m : Mach) (c : Nat) (x : Ctx) : (m.setCtx c x).stalled = m.stalled := rfl
@[simp] theorem Mach.setCtx_issue (m : Mach) (c : Nat) (x : Ctx) : (m.setCtx c x).issue = m.issue := rfl
@[simp] theorem Mach.setCtx_free (m : Mach) (c : Nat) (x : Ctx) : (m.setCtx c x).free = m.free := rfl
@[simp] theorem Mach.setCtx_ids (m : Mach) (c : Nat) (x : Ctx) : (m.setCtx c x).ids = m.ids := rfl

/-! ## setCore -/

@[simp] theorem Mach.setCore_cycle (m : Mach) (c : Nat) (x : Core) : (m.setCore c x).cycle = m.cycle := rfl
@[simp] theorem Mach.setCore_time (m : Mach) (c : Nat) (x : Core) : (m.setCore c x).time = m.time := rfl
@[simp] theorem Mach.setCore_refTicks (m : Mach) (c : Nat) (x : Core) : (m.setCore c x).refTicks = m.refTicks := rfl
@[simp] theorem Mach.setCore_refRem (m : Mach) (c : Nat) (x : Core) : (m.setCore c x).refRem = m.refRem := rfl
@[simp] theorem Mach.setCore_mhz (m : Mach) (c : Nat) (x : Core) : (m.setCore c x).mhz = m.mhz := rfl
@[simp] theorem Mach.setCore_mem (m : Mach) (c : Nat) (x : Core) : (m.setCore c x).mem = m.mem := rfl
@[simp] theorem Mach.setCore_hostMem (m : Mach) (c : Nat) (x : Core) : (m.setCore c x).hostMem = m.hostMem := rfl
@[simp] theorem Mach.setCore_peerMem (m : Mach) (c : Nat) (x : Core) : (m.setCore c x).peerMem = m.peerMem := rfl
@[simp] theorem Mach.setCore_peerBad (m : Mach) (c : Nat) (x : Core) : (m.setCore c x).peerBad = m.peerBad := rfl
@[simp] theorem Mach.setCore_hostUr (m : Mach) (c : Nat) (x : Core) : (m.setCore c x).hostUr = m.hostUr := rfl
@[simp] theorem Mach.setCore_farLast (m : Mach) (c : Nat) (x : Core) : (m.setCore c x).farLast = m.farLast := rfl
@[simp] theorem Mach.setCore_outPts (m : Mach) (c : Nat) (x : Core) : (m.setCore c x).outPts = m.outPts := rfl
@[simp] theorem Mach.setCore_outside (m : Mach) (c : Nat) (x : Core) : (m.setCore c x).outside = m.outside := rfl
@[simp] theorem Mach.setCore_owed (m : Mach) (c : Nat) (x : Core) : (m.setCore c x).owed = m.owed := rfl
@[simp] theorem Mach.setCore_corrected (m : Mach) (c : Nat) (x : Core) : (m.setCore c x).corrected = m.corrected := rfl
@[simp] theorem Mach.setCore_stamps (m : Mach) (c : Nat) (x : Core) : (m.setCore c x).stamps = m.stamps := rfl
@[simp] theorem Mach.setCore_bad (m : Mach) (c : Nat) (x : Core) : (m.setCore c x).bad = m.bad := rfl
@[simp] theorem Mach.setCore_lines (m : Mach) (c : Nat) (x : Core) : (m.setCore c x).lines = m.lines := rfl
@[simp] theorem Mach.setCore_l2Uses (m : Mach) (c : Nat) (x : Core) : (m.setCore c x).l2Uses = m.l2Uses := rfl
@[simp] theorem Mach.setCore_shadow (m : Mach) (c : Nat) (x : Core) : (m.setCore c x).shadow = m.shadow := rfl
@[simp] theorem Mach.setCore_hits (m : Mach) (c : Nat) (x : Core) : (m.setCore c x).hits = m.hits := rfl
@[simp] theorem Mach.setCore_heldBy (m : Mach) (c : Nat) (x : Core) : (m.setCore c x).heldBy = m.heldBy := rfl
@[simp] theorem Mach.setCore_claims (m : Mach) (c : Nat) (x : Core) : (m.setCore c x).claims = m.claims := rfl
@[simp] theorem Mach.setCore_side (m : Mach) (c : Nat) (x : Core) : (m.setCore c x).side = m.side := rfl
@[simp] theorem Mach.setCore_scrub (m : Mach) (c : Nat) (x : Core) : (m.setCore c x).scrub = m.scrub := rfl
@[simp] theorem Mach.setCore_posted (m : Mach) (c : Nat) (x : Core) : (m.setCore c x).posted = m.posted := rfl
@[simp] theorem Mach.setCore_swept (m : Mach) (c : Nat) (x : Core) : (m.setCore c x).swept = m.swept := rfl
@[simp] theorem Mach.setCore_maxStamp (m : Mach) (c : Nat) (x : Core) : (m.setCore c x).maxStamp = m.maxStamp := rfl
@[simp] theorem Mach.setCore_tlb (m : Mach) (c : Nat) (x : Core) : (m.setCore c x).tlb = m.tlb := rfl
@[simp] theorem Mach.setCore_ctxs (m : Mach) (c : Nat) (x : Core) : (m.setCore c x).ctxs = m.ctxs := rfl
@[simp] theorem Mach.setCore_cores (m : Mach) (c : Nat) (x : Core) : (m.setCore c x).cores = tabSet m.cores c x := rfl
@[simp] theorem Mach.setCore_blocks (m : Mach) (c : Nat) (x : Core) : (m.setCore c x).blocks = m.blocks := rfl
@[simp] theorem Mach.setCore_launches (m : Mach) (c : Nat) (x : Core) : (m.setCore c x).launches = m.launches := rfl
@[simp] theorem Mach.setCore_queues (m : Mach) (c : Nat) (x : Core) : (m.setCore c x).queues = m.queues := rfl
@[simp] theorem Mach.setCore_orders (m : Mach) (c : Nat) (x : Core) : (m.setCore c x).orders = m.orders := rfl
@[simp] theorem Mach.setCore_offers (m : Mach) (c : Nat) (x : Core) : (m.setCore c x).offers = m.offers := rfl
@[simp] theorem Mach.setCore_trackers (m : Mach) (c : Nat) (x : Core) : (m.setCore c x).trackers = m.trackers := rfl
@[simp] theorem Mach.setCore_shares (m : Mach) (c : Nat) (x : Core) : (m.setCore c x).shares = m.shares := rfl
@[simp] theorem Mach.setCore_drains (m : Mach) (c : Nat) (x : Core) : (m.setCore c x).drains = m.drains := rfl
@[simp] theorem Mach.setCore_wrung (m : Mach) (c : Nat) (x : Core) : (m.setCore c x).wrung = m.wrung := rfl
@[simp] theorem Mach.setCore_presses (m : Mach) (c : Nat) (x : Core) : (m.setCore c x).presses = m.presses := rfl
@[simp] theorem Mach.setCore_gate (m : Mach) (c : Nat) (x : Core) : (m.setCore c x).gate = m.gate := rfl
@[simp] theorem Mach.setCore_clusters (m : Mach) (c : Nat) (x : Core) : (m.setCore c x).clusters = m.clusters := rfl
@[simp] theorem Mach.setCore_signals (m : Mach) (c : Nat) (x : Core) : (m.setCore c x).signals = m.signals := rfl
@[simp] theorem Mach.setCore_ide (m : Mach) (c : Nat) (x : Core) : (m.setCore c x).ide = m.ide := rfl
@[simp] theorem Mach.setCore_heldReplies (m : Mach) (c : Nat) (x : Core) : (m.setCore c x).heldReplies = m.heldReplies := rfl
@[simp] theorem Mach.setCore_dmaOff (m : Mach) (c : Nat) (x : Core) : (m.setCore c x).dmaOff = m.dmaOff := rfl
@[simp] theorem Mach.setCore_unreach (m : Mach) (c : Nat) (x : Core) : (m.setCore c x).unreach = m.unreach := rfl
@[simp] theorem Mach.setCore_busPeers (m : Mach) (c : Nat) (x : Core) : (m.setCore c x).busPeers = m.busPeers := rfl
@[simp] theorem Mach.setCore_stalled (m : Mach) (c : Nat) (x : Core) : (m.setCore c x).stalled = m.stalled := rfl
@[simp] theorem Mach.setCore_issue (m : Mach) (c : Nat) (x : Core) : (m.setCore c x).issue = m.issue := rfl
@[simp] theorem Mach.setCore_free (m : Mach) (c : Nat) (x : Core) : (m.setCore c x).free = m.free := rfl
@[simp] theorem Mach.setCore_ids (m : Mach) (c : Nat) (x : Core) : (m.setCore c x).ids = m.ids := rfl

/-! ## setBlock -/

@[simp] theorem Mach.setBlock_cycle (m : Mach) (b : Nat) (x : Block) : (m.setBlock b x).cycle = m.cycle := rfl
@[simp] theorem Mach.setBlock_time (m : Mach) (b : Nat) (x : Block) : (m.setBlock b x).time = m.time := rfl
@[simp] theorem Mach.setBlock_refTicks (m : Mach) (b : Nat) (x : Block) : (m.setBlock b x).refTicks = m.refTicks := rfl
@[simp] theorem Mach.setBlock_refRem (m : Mach) (b : Nat) (x : Block) : (m.setBlock b x).refRem = m.refRem := rfl
@[simp] theorem Mach.setBlock_mhz (m : Mach) (b : Nat) (x : Block) : (m.setBlock b x).mhz = m.mhz := rfl
@[simp] theorem Mach.setBlock_mem (m : Mach) (b : Nat) (x : Block) : (m.setBlock b x).mem = m.mem := rfl
@[simp] theorem Mach.setBlock_hostMem (m : Mach) (b : Nat) (x : Block) : (m.setBlock b x).hostMem = m.hostMem := rfl
@[simp] theorem Mach.setBlock_peerMem (m : Mach) (b : Nat) (x : Block) : (m.setBlock b x).peerMem = m.peerMem := rfl
@[simp] theorem Mach.setBlock_peerBad (m : Mach) (b : Nat) (x : Block) : (m.setBlock b x).peerBad = m.peerBad := rfl
@[simp] theorem Mach.setBlock_hostUr (m : Mach) (b : Nat) (x : Block) : (m.setBlock b x).hostUr = m.hostUr := rfl
@[simp] theorem Mach.setBlock_farLast (m : Mach) (b : Nat) (x : Block) : (m.setBlock b x).farLast = m.farLast := rfl
@[simp] theorem Mach.setBlock_outPts (m : Mach) (b : Nat) (x : Block) : (m.setBlock b x).outPts = m.outPts := rfl
@[simp] theorem Mach.setBlock_outside (m : Mach) (b : Nat) (x : Block) : (m.setBlock b x).outside = m.outside := rfl
@[simp] theorem Mach.setBlock_owed (m : Mach) (b : Nat) (x : Block) : (m.setBlock b x).owed = m.owed := rfl
@[simp] theorem Mach.setBlock_corrected (m : Mach) (b : Nat) (x : Block) : (m.setBlock b x).corrected = m.corrected := rfl
@[simp] theorem Mach.setBlock_stamps (m : Mach) (b : Nat) (x : Block) : (m.setBlock b x).stamps = m.stamps := rfl
@[simp] theorem Mach.setBlock_bad (m : Mach) (b : Nat) (x : Block) : (m.setBlock b x).bad = m.bad := rfl
@[simp] theorem Mach.setBlock_lines (m : Mach) (b : Nat) (x : Block) : (m.setBlock b x).lines = m.lines := rfl
@[simp] theorem Mach.setBlock_l2Uses (m : Mach) (b : Nat) (x : Block) : (m.setBlock b x).l2Uses = m.l2Uses := rfl
@[simp] theorem Mach.setBlock_shadow (m : Mach) (b : Nat) (x : Block) : (m.setBlock b x).shadow = m.shadow := rfl
@[simp] theorem Mach.setBlock_hits (m : Mach) (b : Nat) (x : Block) : (m.setBlock b x).hits = m.hits := rfl
@[simp] theorem Mach.setBlock_heldBy (m : Mach) (b : Nat) (x : Block) : (m.setBlock b x).heldBy = m.heldBy := rfl
@[simp] theorem Mach.setBlock_claims (m : Mach) (b : Nat) (x : Block) : (m.setBlock b x).claims = m.claims := rfl
@[simp] theorem Mach.setBlock_side (m : Mach) (b : Nat) (x : Block) : (m.setBlock b x).side = m.side := rfl
@[simp] theorem Mach.setBlock_scrub (m : Mach) (b : Nat) (x : Block) : (m.setBlock b x).scrub = m.scrub := rfl
@[simp] theorem Mach.setBlock_posted (m : Mach) (b : Nat) (x : Block) : (m.setBlock b x).posted = m.posted := rfl
@[simp] theorem Mach.setBlock_swept (m : Mach) (b : Nat) (x : Block) : (m.setBlock b x).swept = m.swept := rfl
@[simp] theorem Mach.setBlock_maxStamp (m : Mach) (b : Nat) (x : Block) : (m.setBlock b x).maxStamp = m.maxStamp := rfl
@[simp] theorem Mach.setBlock_tlb (m : Mach) (b : Nat) (x : Block) : (m.setBlock b x).tlb = m.tlb := rfl
@[simp] theorem Mach.setBlock_ctxs (m : Mach) (b : Nat) (x : Block) : (m.setBlock b x).ctxs = m.ctxs := rfl
@[simp] theorem Mach.setBlock_cores (m : Mach) (b : Nat) (x : Block) : (m.setBlock b x).cores = m.cores := rfl
@[simp] theorem Mach.setBlock_blocks (m : Mach) (b : Nat) (x : Block) : (m.setBlock b x).blocks = tabSet m.blocks b x := rfl
@[simp] theorem Mach.setBlock_launches (m : Mach) (b : Nat) (x : Block) : (m.setBlock b x).launches = m.launches := rfl
@[simp] theorem Mach.setBlock_queues (m : Mach) (b : Nat) (x : Block) : (m.setBlock b x).queues = m.queues := rfl
@[simp] theorem Mach.setBlock_orders (m : Mach) (b : Nat) (x : Block) : (m.setBlock b x).orders = m.orders := rfl
@[simp] theorem Mach.setBlock_offers (m : Mach) (b : Nat) (x : Block) : (m.setBlock b x).offers = m.offers := rfl
@[simp] theorem Mach.setBlock_trackers (m : Mach) (b : Nat) (x : Block) : (m.setBlock b x).trackers = m.trackers := rfl
@[simp] theorem Mach.setBlock_shares (m : Mach) (b : Nat) (x : Block) : (m.setBlock b x).shares = m.shares := rfl
@[simp] theorem Mach.setBlock_drains (m : Mach) (b : Nat) (x : Block) : (m.setBlock b x).drains = m.drains := rfl
@[simp] theorem Mach.setBlock_wrung (m : Mach) (b : Nat) (x : Block) : (m.setBlock b x).wrung = m.wrung := rfl
@[simp] theorem Mach.setBlock_presses (m : Mach) (b : Nat) (x : Block) : (m.setBlock b x).presses = m.presses := rfl
@[simp] theorem Mach.setBlock_gate (m : Mach) (b : Nat) (x : Block) : (m.setBlock b x).gate = m.gate := rfl
@[simp] theorem Mach.setBlock_clusters (m : Mach) (b : Nat) (x : Block) : (m.setBlock b x).clusters = m.clusters := rfl
@[simp] theorem Mach.setBlock_signals (m : Mach) (b : Nat) (x : Block) : (m.setBlock b x).signals = m.signals := rfl
@[simp] theorem Mach.setBlock_ide (m : Mach) (b : Nat) (x : Block) : (m.setBlock b x).ide = m.ide := rfl
@[simp] theorem Mach.setBlock_heldReplies (m : Mach) (b : Nat) (x : Block) : (m.setBlock b x).heldReplies = m.heldReplies := rfl
@[simp] theorem Mach.setBlock_dmaOff (m : Mach) (b : Nat) (x : Block) : (m.setBlock b x).dmaOff = m.dmaOff := rfl
@[simp] theorem Mach.setBlock_unreach (m : Mach) (b : Nat) (x : Block) : (m.setBlock b x).unreach = m.unreach := rfl
@[simp] theorem Mach.setBlock_busPeers (m : Mach) (b : Nat) (x : Block) : (m.setBlock b x).busPeers = m.busPeers := rfl
@[simp] theorem Mach.setBlock_stalled (m : Mach) (b : Nat) (x : Block) : (m.setBlock b x).stalled = m.stalled := rfl
@[simp] theorem Mach.setBlock_issue (m : Mach) (b : Nat) (x : Block) : (m.setBlock b x).issue = m.issue := rfl
@[simp] theorem Mach.setBlock_free (m : Mach) (b : Nat) (x : Block) : (m.setBlock b x).free = m.free := rfl
@[simp] theorem Mach.setBlock_ids (m : Mach) (b : Nat) (x : Block) : (m.setBlock b x).ids = m.ids := rfl

/-! ## setLaunch -/

@[simp] theorem Mach.setLaunch_cycle (m : Mach) (l : Nat) (x : Launch) : (m.setLaunch l x).cycle = m.cycle := rfl
@[simp] theorem Mach.setLaunch_time (m : Mach) (l : Nat) (x : Launch) : (m.setLaunch l x).time = m.time := rfl
@[simp] theorem Mach.setLaunch_refTicks (m : Mach) (l : Nat) (x : Launch) : (m.setLaunch l x).refTicks = m.refTicks := rfl
@[simp] theorem Mach.setLaunch_refRem (m : Mach) (l : Nat) (x : Launch) : (m.setLaunch l x).refRem = m.refRem := rfl
@[simp] theorem Mach.setLaunch_mhz (m : Mach) (l : Nat) (x : Launch) : (m.setLaunch l x).mhz = m.mhz := rfl
@[simp] theorem Mach.setLaunch_mem (m : Mach) (l : Nat) (x : Launch) : (m.setLaunch l x).mem = m.mem := rfl
@[simp] theorem Mach.setLaunch_hostMem (m : Mach) (l : Nat) (x : Launch) : (m.setLaunch l x).hostMem = m.hostMem := rfl
@[simp] theorem Mach.setLaunch_peerMem (m : Mach) (l : Nat) (x : Launch) : (m.setLaunch l x).peerMem = m.peerMem := rfl
@[simp] theorem Mach.setLaunch_peerBad (m : Mach) (l : Nat) (x : Launch) : (m.setLaunch l x).peerBad = m.peerBad := rfl
@[simp] theorem Mach.setLaunch_hostUr (m : Mach) (l : Nat) (x : Launch) : (m.setLaunch l x).hostUr = m.hostUr := rfl
@[simp] theorem Mach.setLaunch_farLast (m : Mach) (l : Nat) (x : Launch) : (m.setLaunch l x).farLast = m.farLast := rfl
@[simp] theorem Mach.setLaunch_outPts (m : Mach) (l : Nat) (x : Launch) : (m.setLaunch l x).outPts = m.outPts := rfl
@[simp] theorem Mach.setLaunch_outside (m : Mach) (l : Nat) (x : Launch) : (m.setLaunch l x).outside = m.outside := rfl
@[simp] theorem Mach.setLaunch_owed (m : Mach) (l : Nat) (x : Launch) : (m.setLaunch l x).owed = m.owed := rfl
@[simp] theorem Mach.setLaunch_corrected (m : Mach) (l : Nat) (x : Launch) : (m.setLaunch l x).corrected = m.corrected := rfl
@[simp] theorem Mach.setLaunch_stamps (m : Mach) (l : Nat) (x : Launch) : (m.setLaunch l x).stamps = m.stamps := rfl
@[simp] theorem Mach.setLaunch_bad (m : Mach) (l : Nat) (x : Launch) : (m.setLaunch l x).bad = m.bad := rfl
@[simp] theorem Mach.setLaunch_lines (m : Mach) (l : Nat) (x : Launch) : (m.setLaunch l x).lines = m.lines := rfl
@[simp] theorem Mach.setLaunch_l2Uses (m : Mach) (l : Nat) (x : Launch) : (m.setLaunch l x).l2Uses = m.l2Uses := rfl
@[simp] theorem Mach.setLaunch_shadow (m : Mach) (l : Nat) (x : Launch) : (m.setLaunch l x).shadow = m.shadow := rfl
@[simp] theorem Mach.setLaunch_hits (m : Mach) (l : Nat) (x : Launch) : (m.setLaunch l x).hits = m.hits := rfl
@[simp] theorem Mach.setLaunch_heldBy (m : Mach) (l : Nat) (x : Launch) : (m.setLaunch l x).heldBy = m.heldBy := rfl
@[simp] theorem Mach.setLaunch_claims (m : Mach) (l : Nat) (x : Launch) : (m.setLaunch l x).claims = m.claims := rfl
@[simp] theorem Mach.setLaunch_side (m : Mach) (l : Nat) (x : Launch) : (m.setLaunch l x).side = m.side := rfl
@[simp] theorem Mach.setLaunch_scrub (m : Mach) (l : Nat) (x : Launch) : (m.setLaunch l x).scrub = m.scrub := rfl
@[simp] theorem Mach.setLaunch_posted (m : Mach) (l : Nat) (x : Launch) : (m.setLaunch l x).posted = m.posted := rfl
@[simp] theorem Mach.setLaunch_swept (m : Mach) (l : Nat) (x : Launch) : (m.setLaunch l x).swept = m.swept := rfl
@[simp] theorem Mach.setLaunch_maxStamp (m : Mach) (l : Nat) (x : Launch) : (m.setLaunch l x).maxStamp = m.maxStamp := rfl
@[simp] theorem Mach.setLaunch_tlb (m : Mach) (l : Nat) (x : Launch) : (m.setLaunch l x).tlb = m.tlb := rfl
@[simp] theorem Mach.setLaunch_ctxs (m : Mach) (l : Nat) (x : Launch) : (m.setLaunch l x).ctxs = m.ctxs := rfl
@[simp] theorem Mach.setLaunch_cores (m : Mach) (l : Nat) (x : Launch) : (m.setLaunch l x).cores = m.cores := rfl
@[simp] theorem Mach.setLaunch_blocks (m : Mach) (l : Nat) (x : Launch) : (m.setLaunch l x).blocks = m.blocks := rfl
@[simp] theorem Mach.setLaunch_launches (m : Mach) (l : Nat) (x : Launch) : (m.setLaunch l x).launches = tabSet m.launches l x := rfl
@[simp] theorem Mach.setLaunch_queues (m : Mach) (l : Nat) (x : Launch) : (m.setLaunch l x).queues = m.queues := rfl
@[simp] theorem Mach.setLaunch_orders (m : Mach) (l : Nat) (x : Launch) : (m.setLaunch l x).orders = m.orders := rfl
@[simp] theorem Mach.setLaunch_offers (m : Mach) (l : Nat) (x : Launch) : (m.setLaunch l x).offers = m.offers := rfl
@[simp] theorem Mach.setLaunch_trackers (m : Mach) (l : Nat) (x : Launch) : (m.setLaunch l x).trackers = m.trackers := rfl
@[simp] theorem Mach.setLaunch_shares (m : Mach) (l : Nat) (x : Launch) : (m.setLaunch l x).shares = m.shares := rfl
@[simp] theorem Mach.setLaunch_drains (m : Mach) (l : Nat) (x : Launch) : (m.setLaunch l x).drains = m.drains := rfl
@[simp] theorem Mach.setLaunch_wrung (m : Mach) (l : Nat) (x : Launch) : (m.setLaunch l x).wrung = m.wrung := rfl
@[simp] theorem Mach.setLaunch_presses (m : Mach) (l : Nat) (x : Launch) : (m.setLaunch l x).presses = m.presses := rfl
@[simp] theorem Mach.setLaunch_gate (m : Mach) (l : Nat) (x : Launch) : (m.setLaunch l x).gate = m.gate := rfl
@[simp] theorem Mach.setLaunch_clusters (m : Mach) (l : Nat) (x : Launch) : (m.setLaunch l x).clusters = m.clusters := rfl
@[simp] theorem Mach.setLaunch_signals (m : Mach) (l : Nat) (x : Launch) : (m.setLaunch l x).signals = m.signals := rfl
@[simp] theorem Mach.setLaunch_ide (m : Mach) (l : Nat) (x : Launch) : (m.setLaunch l x).ide = m.ide := rfl
@[simp] theorem Mach.setLaunch_heldReplies (m : Mach) (l : Nat) (x : Launch) : (m.setLaunch l x).heldReplies = m.heldReplies := rfl
@[simp] theorem Mach.setLaunch_dmaOff (m : Mach) (l : Nat) (x : Launch) : (m.setLaunch l x).dmaOff = m.dmaOff := rfl
@[simp] theorem Mach.setLaunch_unreach (m : Mach) (l : Nat) (x : Launch) : (m.setLaunch l x).unreach = m.unreach := rfl
@[simp] theorem Mach.setLaunch_busPeers (m : Mach) (l : Nat) (x : Launch) : (m.setLaunch l x).busPeers = m.busPeers := rfl
@[simp] theorem Mach.setLaunch_stalled (m : Mach) (l : Nat) (x : Launch) : (m.setLaunch l x).stalled = m.stalled := rfl
@[simp] theorem Mach.setLaunch_issue (m : Mach) (l : Nat) (x : Launch) : (m.setLaunch l x).issue = m.issue := rfl
@[simp] theorem Mach.setLaunch_free (m : Mach) (l : Nat) (x : Launch) : (m.setLaunch l x).free = m.free := rfl
@[simp] theorem Mach.setLaunch_ids (m : Mach) (l : Nat) (x : Launch) : (m.setLaunch l x).ids = m.ids := rfl

/-! ## setQueue -/

@[simp] theorem Mach.setQueue_cycle (m : Mach) (q : Nat) (x : Queue) : (m.setQueue q x).cycle = m.cycle := rfl
@[simp] theorem Mach.setQueue_time (m : Mach) (q : Nat) (x : Queue) : (m.setQueue q x).time = m.time := rfl
@[simp] theorem Mach.setQueue_refTicks (m : Mach) (q : Nat) (x : Queue) : (m.setQueue q x).refTicks = m.refTicks := rfl
@[simp] theorem Mach.setQueue_refRem (m : Mach) (q : Nat) (x : Queue) : (m.setQueue q x).refRem = m.refRem := rfl
@[simp] theorem Mach.setQueue_mhz (m : Mach) (q : Nat) (x : Queue) : (m.setQueue q x).mhz = m.mhz := rfl
@[simp] theorem Mach.setQueue_mem (m : Mach) (q : Nat) (x : Queue) : (m.setQueue q x).mem = m.mem := rfl
@[simp] theorem Mach.setQueue_hostMem (m : Mach) (q : Nat) (x : Queue) : (m.setQueue q x).hostMem = m.hostMem := rfl
@[simp] theorem Mach.setQueue_peerMem (m : Mach) (q : Nat) (x : Queue) : (m.setQueue q x).peerMem = m.peerMem := rfl
@[simp] theorem Mach.setQueue_peerBad (m : Mach) (q : Nat) (x : Queue) : (m.setQueue q x).peerBad = m.peerBad := rfl
@[simp] theorem Mach.setQueue_hostUr (m : Mach) (q : Nat) (x : Queue) : (m.setQueue q x).hostUr = m.hostUr := rfl
@[simp] theorem Mach.setQueue_farLast (m : Mach) (q : Nat) (x : Queue) : (m.setQueue q x).farLast = m.farLast := rfl
@[simp] theorem Mach.setQueue_outPts (m : Mach) (q : Nat) (x : Queue) : (m.setQueue q x).outPts = m.outPts := rfl
@[simp] theorem Mach.setQueue_outside (m : Mach) (q : Nat) (x : Queue) : (m.setQueue q x).outside = m.outside := rfl
@[simp] theorem Mach.setQueue_owed (m : Mach) (q : Nat) (x : Queue) : (m.setQueue q x).owed = m.owed := rfl
@[simp] theorem Mach.setQueue_corrected (m : Mach) (q : Nat) (x : Queue) : (m.setQueue q x).corrected = m.corrected := rfl
@[simp] theorem Mach.setQueue_stamps (m : Mach) (q : Nat) (x : Queue) : (m.setQueue q x).stamps = m.stamps := rfl
@[simp] theorem Mach.setQueue_bad (m : Mach) (q : Nat) (x : Queue) : (m.setQueue q x).bad = m.bad := rfl
@[simp] theorem Mach.setQueue_lines (m : Mach) (q : Nat) (x : Queue) : (m.setQueue q x).lines = m.lines := rfl
@[simp] theorem Mach.setQueue_l2Uses (m : Mach) (q : Nat) (x : Queue) : (m.setQueue q x).l2Uses = m.l2Uses := rfl
@[simp] theorem Mach.setQueue_shadow (m : Mach) (q : Nat) (x : Queue) : (m.setQueue q x).shadow = m.shadow := rfl
@[simp] theorem Mach.setQueue_hits (m : Mach) (q : Nat) (x : Queue) : (m.setQueue q x).hits = m.hits := rfl
@[simp] theorem Mach.setQueue_heldBy (m : Mach) (q : Nat) (x : Queue) : (m.setQueue q x).heldBy = m.heldBy := rfl
@[simp] theorem Mach.setQueue_claims (m : Mach) (q : Nat) (x : Queue) : (m.setQueue q x).claims = m.claims := rfl
@[simp] theorem Mach.setQueue_side (m : Mach) (q : Nat) (x : Queue) : (m.setQueue q x).side = m.side := rfl
@[simp] theorem Mach.setQueue_scrub (m : Mach) (q : Nat) (x : Queue) : (m.setQueue q x).scrub = m.scrub := rfl
@[simp] theorem Mach.setQueue_posted (m : Mach) (q : Nat) (x : Queue) : (m.setQueue q x).posted = m.posted := rfl
@[simp] theorem Mach.setQueue_swept (m : Mach) (q : Nat) (x : Queue) : (m.setQueue q x).swept = m.swept := rfl
@[simp] theorem Mach.setQueue_maxStamp (m : Mach) (q : Nat) (x : Queue) : (m.setQueue q x).maxStamp = m.maxStamp := rfl
@[simp] theorem Mach.setQueue_tlb (m : Mach) (q : Nat) (x : Queue) : (m.setQueue q x).tlb = m.tlb := rfl
@[simp] theorem Mach.setQueue_ctxs (m : Mach) (q : Nat) (x : Queue) : (m.setQueue q x).ctxs = m.ctxs := rfl
@[simp] theorem Mach.setQueue_cores (m : Mach) (q : Nat) (x : Queue) : (m.setQueue q x).cores = m.cores := rfl
@[simp] theorem Mach.setQueue_blocks (m : Mach) (q : Nat) (x : Queue) : (m.setQueue q x).blocks = m.blocks := rfl
@[simp] theorem Mach.setQueue_launches (m : Mach) (q : Nat) (x : Queue) : (m.setQueue q x).launches = m.launches := rfl
@[simp] theorem Mach.setQueue_queues (m : Mach) (q : Nat) (x : Queue) : (m.setQueue q x).queues = tabSet m.queues q x := rfl
@[simp] theorem Mach.setQueue_orders (m : Mach) (q : Nat) (x : Queue) : (m.setQueue q x).orders = m.orders := rfl
@[simp] theorem Mach.setQueue_offers (m : Mach) (q : Nat) (x : Queue) : (m.setQueue q x).offers = m.offers := rfl
@[simp] theorem Mach.setQueue_trackers (m : Mach) (q : Nat) (x : Queue) : (m.setQueue q x).trackers = m.trackers := rfl
@[simp] theorem Mach.setQueue_shares (m : Mach) (q : Nat) (x : Queue) : (m.setQueue q x).shares = m.shares := rfl
@[simp] theorem Mach.setQueue_drains (m : Mach) (q : Nat) (x : Queue) : (m.setQueue q x).drains = m.drains := rfl
@[simp] theorem Mach.setQueue_wrung (m : Mach) (q : Nat) (x : Queue) : (m.setQueue q x).wrung = m.wrung := rfl
@[simp] theorem Mach.setQueue_presses (m : Mach) (q : Nat) (x : Queue) : (m.setQueue q x).presses = m.presses := rfl
@[simp] theorem Mach.setQueue_gate (m : Mach) (q : Nat) (x : Queue) : (m.setQueue q x).gate = m.gate := rfl
@[simp] theorem Mach.setQueue_clusters (m : Mach) (q : Nat) (x : Queue) : (m.setQueue q x).clusters = m.clusters := rfl
@[simp] theorem Mach.setQueue_signals (m : Mach) (q : Nat) (x : Queue) : (m.setQueue q x).signals = m.signals := rfl
@[simp] theorem Mach.setQueue_ide (m : Mach) (q : Nat) (x : Queue) : (m.setQueue q x).ide = m.ide := rfl
@[simp] theorem Mach.setQueue_heldReplies (m : Mach) (q : Nat) (x : Queue) : (m.setQueue q x).heldReplies = m.heldReplies := rfl
@[simp] theorem Mach.setQueue_dmaOff (m : Mach) (q : Nat) (x : Queue) : (m.setQueue q x).dmaOff = m.dmaOff := rfl
@[simp] theorem Mach.setQueue_unreach (m : Mach) (q : Nat) (x : Queue) : (m.setQueue q x).unreach = m.unreach := rfl
@[simp] theorem Mach.setQueue_busPeers (m : Mach) (q : Nat) (x : Queue) : (m.setQueue q x).busPeers = m.busPeers := rfl
@[simp] theorem Mach.setQueue_stalled (m : Mach) (q : Nat) (x : Queue) : (m.setQueue q x).stalled = m.stalled := rfl
@[simp] theorem Mach.setQueue_issue (m : Mach) (q : Nat) (x : Queue) : (m.setQueue q x).issue = m.issue := rfl
@[simp] theorem Mach.setQueue_free (m : Mach) (q : Nat) (x : Queue) : (m.setQueue q x).free = m.free := rfl
@[simp] theorem Mach.setQueue_ids (m : Mach) (q : Nat) (x : Queue) : (m.setQueue q x).ids = m.ids := rfl

/-! ## modCtx -/

@[simp] theorem Mach.modCtx_cycle (m : Mach) (c : Nat) (f : Ctx → Ctx) : (m.modCtx c f).cycle = m.cycle := rfl
@[simp] theorem Mach.modCtx_time (m : Mach) (c : Nat) (f : Ctx → Ctx) : (m.modCtx c f).time = m.time := rfl
@[simp] theorem Mach.modCtx_refTicks (m : Mach) (c : Nat) (f : Ctx → Ctx) : (m.modCtx c f).refTicks = m.refTicks := rfl
@[simp] theorem Mach.modCtx_refRem (m : Mach) (c : Nat) (f : Ctx → Ctx) : (m.modCtx c f).refRem = m.refRem := rfl
@[simp] theorem Mach.modCtx_mhz (m : Mach) (c : Nat) (f : Ctx → Ctx) : (m.modCtx c f).mhz = m.mhz := rfl
@[simp] theorem Mach.modCtx_mem (m : Mach) (c : Nat) (f : Ctx → Ctx) : (m.modCtx c f).mem = m.mem := rfl
@[simp] theorem Mach.modCtx_hostMem (m : Mach) (c : Nat) (f : Ctx → Ctx) : (m.modCtx c f).hostMem = m.hostMem := rfl
@[simp] theorem Mach.modCtx_peerMem (m : Mach) (c : Nat) (f : Ctx → Ctx) : (m.modCtx c f).peerMem = m.peerMem := rfl
@[simp] theorem Mach.modCtx_peerBad (m : Mach) (c : Nat) (f : Ctx → Ctx) : (m.modCtx c f).peerBad = m.peerBad := rfl
@[simp] theorem Mach.modCtx_hostUr (m : Mach) (c : Nat) (f : Ctx → Ctx) : (m.modCtx c f).hostUr = m.hostUr := rfl
@[simp] theorem Mach.modCtx_farLast (m : Mach) (c : Nat) (f : Ctx → Ctx) : (m.modCtx c f).farLast = m.farLast := rfl
@[simp] theorem Mach.modCtx_outPts (m : Mach) (c : Nat) (f : Ctx → Ctx) : (m.modCtx c f).outPts = m.outPts := rfl
@[simp] theorem Mach.modCtx_outside (m : Mach) (c : Nat) (f : Ctx → Ctx) : (m.modCtx c f).outside = m.outside := rfl
@[simp] theorem Mach.modCtx_owed (m : Mach) (c : Nat) (f : Ctx → Ctx) : (m.modCtx c f).owed = m.owed := rfl
@[simp] theorem Mach.modCtx_corrected (m : Mach) (c : Nat) (f : Ctx → Ctx) : (m.modCtx c f).corrected = m.corrected := rfl
@[simp] theorem Mach.modCtx_stamps (m : Mach) (c : Nat) (f : Ctx → Ctx) : (m.modCtx c f).stamps = m.stamps := rfl
@[simp] theorem Mach.modCtx_bad (m : Mach) (c : Nat) (f : Ctx → Ctx) : (m.modCtx c f).bad = m.bad := rfl
@[simp] theorem Mach.modCtx_lines (m : Mach) (c : Nat) (f : Ctx → Ctx) : (m.modCtx c f).lines = m.lines := rfl
@[simp] theorem Mach.modCtx_l2Uses (m : Mach) (c : Nat) (f : Ctx → Ctx) : (m.modCtx c f).l2Uses = m.l2Uses := rfl
@[simp] theorem Mach.modCtx_shadow (m : Mach) (c : Nat) (f : Ctx → Ctx) : (m.modCtx c f).shadow = m.shadow := rfl
@[simp] theorem Mach.modCtx_hits (m : Mach) (c : Nat) (f : Ctx → Ctx) : (m.modCtx c f).hits = m.hits := rfl
@[simp] theorem Mach.modCtx_heldBy (m : Mach) (c : Nat) (f : Ctx → Ctx) : (m.modCtx c f).heldBy = m.heldBy := rfl
@[simp] theorem Mach.modCtx_claims (m : Mach) (c : Nat) (f : Ctx → Ctx) : (m.modCtx c f).claims = m.claims := rfl
@[simp] theorem Mach.modCtx_side (m : Mach) (c : Nat) (f : Ctx → Ctx) : (m.modCtx c f).side = m.side := rfl
@[simp] theorem Mach.modCtx_scrub (m : Mach) (c : Nat) (f : Ctx → Ctx) : (m.modCtx c f).scrub = m.scrub := rfl
@[simp] theorem Mach.modCtx_posted (m : Mach) (c : Nat) (f : Ctx → Ctx) : (m.modCtx c f).posted = m.posted := rfl
@[simp] theorem Mach.modCtx_swept (m : Mach) (c : Nat) (f : Ctx → Ctx) : (m.modCtx c f).swept = m.swept := rfl
@[simp] theorem Mach.modCtx_maxStamp (m : Mach) (c : Nat) (f : Ctx → Ctx) : (m.modCtx c f).maxStamp = m.maxStamp := rfl
@[simp] theorem Mach.modCtx_tlb (m : Mach) (c : Nat) (f : Ctx → Ctx) : (m.modCtx c f).tlb = m.tlb := rfl
@[simp] theorem Mach.modCtx_ctxs (m : Mach) (c : Nat) (f : Ctx → Ctx) : (m.modCtx c f).ctxs = tabMod m.ctxs c f := rfl
@[simp] theorem Mach.modCtx_cores (m : Mach) (c : Nat) (f : Ctx → Ctx) : (m.modCtx c f).cores = m.cores := rfl
@[simp] theorem Mach.modCtx_blocks (m : Mach) (c : Nat) (f : Ctx → Ctx) : (m.modCtx c f).blocks = m.blocks := rfl
@[simp] theorem Mach.modCtx_launches (m : Mach) (c : Nat) (f : Ctx → Ctx) : (m.modCtx c f).launches = m.launches := rfl
@[simp] theorem Mach.modCtx_queues (m : Mach) (c : Nat) (f : Ctx → Ctx) : (m.modCtx c f).queues = m.queues := rfl
@[simp] theorem Mach.modCtx_orders (m : Mach) (c : Nat) (f : Ctx → Ctx) : (m.modCtx c f).orders = m.orders := rfl
@[simp] theorem Mach.modCtx_offers (m : Mach) (c : Nat) (f : Ctx → Ctx) : (m.modCtx c f).offers = m.offers := rfl
@[simp] theorem Mach.modCtx_trackers (m : Mach) (c : Nat) (f : Ctx → Ctx) : (m.modCtx c f).trackers = m.trackers := rfl
@[simp] theorem Mach.modCtx_shares (m : Mach) (c : Nat) (f : Ctx → Ctx) : (m.modCtx c f).shares = m.shares := rfl
@[simp] theorem Mach.modCtx_drains (m : Mach) (c : Nat) (f : Ctx → Ctx) : (m.modCtx c f).drains = m.drains := rfl
@[simp] theorem Mach.modCtx_wrung (m : Mach) (c : Nat) (f : Ctx → Ctx) : (m.modCtx c f).wrung = m.wrung := rfl
@[simp] theorem Mach.modCtx_presses (m : Mach) (c : Nat) (f : Ctx → Ctx) : (m.modCtx c f).presses = m.presses := rfl
@[simp] theorem Mach.modCtx_gate (m : Mach) (c : Nat) (f : Ctx → Ctx) : (m.modCtx c f).gate = m.gate := rfl
@[simp] theorem Mach.modCtx_clusters (m : Mach) (c : Nat) (f : Ctx → Ctx) : (m.modCtx c f).clusters = m.clusters := rfl
@[simp] theorem Mach.modCtx_signals (m : Mach) (c : Nat) (f : Ctx → Ctx) : (m.modCtx c f).signals = m.signals := rfl
@[simp] theorem Mach.modCtx_ide (m : Mach) (c : Nat) (f : Ctx → Ctx) : (m.modCtx c f).ide = m.ide := rfl
@[simp] theorem Mach.modCtx_heldReplies (m : Mach) (c : Nat) (f : Ctx → Ctx) : (m.modCtx c f).heldReplies = m.heldReplies := rfl
@[simp] theorem Mach.modCtx_dmaOff (m : Mach) (c : Nat) (f : Ctx → Ctx) : (m.modCtx c f).dmaOff = m.dmaOff := rfl
@[simp] theorem Mach.modCtx_unreach (m : Mach) (c : Nat) (f : Ctx → Ctx) : (m.modCtx c f).unreach = m.unreach := rfl
@[simp] theorem Mach.modCtx_busPeers (m : Mach) (c : Nat) (f : Ctx → Ctx) : (m.modCtx c f).busPeers = m.busPeers := rfl
@[simp] theorem Mach.modCtx_stalled (m : Mach) (c : Nat) (f : Ctx → Ctx) : (m.modCtx c f).stalled = m.stalled := rfl
@[simp] theorem Mach.modCtx_issue (m : Mach) (c : Nat) (f : Ctx → Ctx) : (m.modCtx c f).issue = m.issue := rfl
@[simp] theorem Mach.modCtx_free (m : Mach) (c : Nat) (f : Ctx → Ctx) : (m.modCtx c f).free = m.free := rfl
@[simp] theorem Mach.modCtx_ids (m : Mach) (c : Nat) (f : Ctx → Ctx) : (m.modCtx c f).ids = m.ids := rfl

/-! ## modCore -/

@[simp] theorem Mach.modCore_cycle (m : Mach) (c : Nat) (f : Core → Core) : (m.modCore c f).cycle = m.cycle := rfl
@[simp] theorem Mach.modCore_time (m : Mach) (c : Nat) (f : Core → Core) : (m.modCore c f).time = m.time := rfl
@[simp] theorem Mach.modCore_refTicks (m : Mach) (c : Nat) (f : Core → Core) : (m.modCore c f).refTicks = m.refTicks := rfl
@[simp] theorem Mach.modCore_refRem (m : Mach) (c : Nat) (f : Core → Core) : (m.modCore c f).refRem = m.refRem := rfl
@[simp] theorem Mach.modCore_mhz (m : Mach) (c : Nat) (f : Core → Core) : (m.modCore c f).mhz = m.mhz := rfl
@[simp] theorem Mach.modCore_mem (m : Mach) (c : Nat) (f : Core → Core) : (m.modCore c f).mem = m.mem := rfl
@[simp] theorem Mach.modCore_hostMem (m : Mach) (c : Nat) (f : Core → Core) : (m.modCore c f).hostMem = m.hostMem := rfl
@[simp] theorem Mach.modCore_peerMem (m : Mach) (c : Nat) (f : Core → Core) : (m.modCore c f).peerMem = m.peerMem := rfl
@[simp] theorem Mach.modCore_peerBad (m : Mach) (c : Nat) (f : Core → Core) : (m.modCore c f).peerBad = m.peerBad := rfl
@[simp] theorem Mach.modCore_hostUr (m : Mach) (c : Nat) (f : Core → Core) : (m.modCore c f).hostUr = m.hostUr := rfl
@[simp] theorem Mach.modCore_farLast (m : Mach) (c : Nat) (f : Core → Core) : (m.modCore c f).farLast = m.farLast := rfl
@[simp] theorem Mach.modCore_outPts (m : Mach) (c : Nat) (f : Core → Core) : (m.modCore c f).outPts = m.outPts := rfl
@[simp] theorem Mach.modCore_outside (m : Mach) (c : Nat) (f : Core → Core) : (m.modCore c f).outside = m.outside := rfl
@[simp] theorem Mach.modCore_owed (m : Mach) (c : Nat) (f : Core → Core) : (m.modCore c f).owed = m.owed := rfl
@[simp] theorem Mach.modCore_corrected (m : Mach) (c : Nat) (f : Core → Core) : (m.modCore c f).corrected = m.corrected := rfl
@[simp] theorem Mach.modCore_stamps (m : Mach) (c : Nat) (f : Core → Core) : (m.modCore c f).stamps = m.stamps := rfl
@[simp] theorem Mach.modCore_bad (m : Mach) (c : Nat) (f : Core → Core) : (m.modCore c f).bad = m.bad := rfl
@[simp] theorem Mach.modCore_lines (m : Mach) (c : Nat) (f : Core → Core) : (m.modCore c f).lines = m.lines := rfl
@[simp] theorem Mach.modCore_l2Uses (m : Mach) (c : Nat) (f : Core → Core) : (m.modCore c f).l2Uses = m.l2Uses := rfl
@[simp] theorem Mach.modCore_shadow (m : Mach) (c : Nat) (f : Core → Core) : (m.modCore c f).shadow = m.shadow := rfl
@[simp] theorem Mach.modCore_hits (m : Mach) (c : Nat) (f : Core → Core) : (m.modCore c f).hits = m.hits := rfl
@[simp] theorem Mach.modCore_heldBy (m : Mach) (c : Nat) (f : Core → Core) : (m.modCore c f).heldBy = m.heldBy := rfl
@[simp] theorem Mach.modCore_claims (m : Mach) (c : Nat) (f : Core → Core) : (m.modCore c f).claims = m.claims := rfl
@[simp] theorem Mach.modCore_side (m : Mach) (c : Nat) (f : Core → Core) : (m.modCore c f).side = m.side := rfl
@[simp] theorem Mach.modCore_scrub (m : Mach) (c : Nat) (f : Core → Core) : (m.modCore c f).scrub = m.scrub := rfl
@[simp] theorem Mach.modCore_posted (m : Mach) (c : Nat) (f : Core → Core) : (m.modCore c f).posted = m.posted := rfl
@[simp] theorem Mach.modCore_swept (m : Mach) (c : Nat) (f : Core → Core) : (m.modCore c f).swept = m.swept := rfl
@[simp] theorem Mach.modCore_maxStamp (m : Mach) (c : Nat) (f : Core → Core) : (m.modCore c f).maxStamp = m.maxStamp := rfl
@[simp] theorem Mach.modCore_tlb (m : Mach) (c : Nat) (f : Core → Core) : (m.modCore c f).tlb = m.tlb := rfl
@[simp] theorem Mach.modCore_ctxs (m : Mach) (c : Nat) (f : Core → Core) : (m.modCore c f).ctxs = m.ctxs := rfl
@[simp] theorem Mach.modCore_cores (m : Mach) (c : Nat) (f : Core → Core) : (m.modCore c f).cores = tabSet m.cores c (f (m.core c)) := rfl
@[simp] theorem Mach.modCore_blocks (m : Mach) (c : Nat) (f : Core → Core) : (m.modCore c f).blocks = m.blocks := rfl
@[simp] theorem Mach.modCore_launches (m : Mach) (c : Nat) (f : Core → Core) : (m.modCore c f).launches = m.launches := rfl
@[simp] theorem Mach.modCore_queues (m : Mach) (c : Nat) (f : Core → Core) : (m.modCore c f).queues = m.queues := rfl
@[simp] theorem Mach.modCore_orders (m : Mach) (c : Nat) (f : Core → Core) : (m.modCore c f).orders = m.orders := rfl
@[simp] theorem Mach.modCore_offers (m : Mach) (c : Nat) (f : Core → Core) : (m.modCore c f).offers = m.offers := rfl
@[simp] theorem Mach.modCore_trackers (m : Mach) (c : Nat) (f : Core → Core) : (m.modCore c f).trackers = m.trackers := rfl
@[simp] theorem Mach.modCore_shares (m : Mach) (c : Nat) (f : Core → Core) : (m.modCore c f).shares = m.shares := rfl
@[simp] theorem Mach.modCore_drains (m : Mach) (c : Nat) (f : Core → Core) : (m.modCore c f).drains = m.drains := rfl
@[simp] theorem Mach.modCore_wrung (m : Mach) (c : Nat) (f : Core → Core) : (m.modCore c f).wrung = m.wrung := rfl
@[simp] theorem Mach.modCore_presses (m : Mach) (c : Nat) (f : Core → Core) : (m.modCore c f).presses = m.presses := rfl
@[simp] theorem Mach.modCore_gate (m : Mach) (c : Nat) (f : Core → Core) : (m.modCore c f).gate = m.gate := rfl
@[simp] theorem Mach.modCore_clusters (m : Mach) (c : Nat) (f : Core → Core) : (m.modCore c f).clusters = m.clusters := rfl
@[simp] theorem Mach.modCore_signals (m : Mach) (c : Nat) (f : Core → Core) : (m.modCore c f).signals = m.signals := rfl
@[simp] theorem Mach.modCore_ide (m : Mach) (c : Nat) (f : Core → Core) : (m.modCore c f).ide = m.ide := rfl
@[simp] theorem Mach.modCore_heldReplies (m : Mach) (c : Nat) (f : Core → Core) : (m.modCore c f).heldReplies = m.heldReplies := rfl
@[simp] theorem Mach.modCore_dmaOff (m : Mach) (c : Nat) (f : Core → Core) : (m.modCore c f).dmaOff = m.dmaOff := rfl
@[simp] theorem Mach.modCore_unreach (m : Mach) (c : Nat) (f : Core → Core) : (m.modCore c f).unreach = m.unreach := rfl
@[simp] theorem Mach.modCore_busPeers (m : Mach) (c : Nat) (f : Core → Core) : (m.modCore c f).busPeers = m.busPeers := rfl
@[simp] theorem Mach.modCore_stalled (m : Mach) (c : Nat) (f : Core → Core) : (m.modCore c f).stalled = m.stalled := rfl
@[simp] theorem Mach.modCore_issue (m : Mach) (c : Nat) (f : Core → Core) : (m.modCore c f).issue = m.issue := rfl
@[simp] theorem Mach.modCore_free (m : Mach) (c : Nat) (f : Core → Core) : (m.modCore c f).free = m.free := rfl
@[simp] theorem Mach.modCore_ids (m : Mach) (c : Nat) (f : Core → Core) : (m.modCore c f).ids = m.ids := rfl

/-! ## modBlock -/

@[simp] theorem Mach.modBlock_cycle (m : Mach) (b : Nat) (f : Block → Block) : (m.modBlock b f).cycle = m.cycle := rfl
@[simp] theorem Mach.modBlock_time (m : Mach) (b : Nat) (f : Block → Block) : (m.modBlock b f).time = m.time := rfl
@[simp] theorem Mach.modBlock_refTicks (m : Mach) (b : Nat) (f : Block → Block) : (m.modBlock b f).refTicks = m.refTicks := rfl
@[simp] theorem Mach.modBlock_refRem (m : Mach) (b : Nat) (f : Block → Block) : (m.modBlock b f).refRem = m.refRem := rfl
@[simp] theorem Mach.modBlock_mhz (m : Mach) (b : Nat) (f : Block → Block) : (m.modBlock b f).mhz = m.mhz := rfl
@[simp] theorem Mach.modBlock_mem (m : Mach) (b : Nat) (f : Block → Block) : (m.modBlock b f).mem = m.mem := rfl
@[simp] theorem Mach.modBlock_hostMem (m : Mach) (b : Nat) (f : Block → Block) : (m.modBlock b f).hostMem = m.hostMem := rfl
@[simp] theorem Mach.modBlock_peerMem (m : Mach) (b : Nat) (f : Block → Block) : (m.modBlock b f).peerMem = m.peerMem := rfl
@[simp] theorem Mach.modBlock_peerBad (m : Mach) (b : Nat) (f : Block → Block) : (m.modBlock b f).peerBad = m.peerBad := rfl
@[simp] theorem Mach.modBlock_hostUr (m : Mach) (b : Nat) (f : Block → Block) : (m.modBlock b f).hostUr = m.hostUr := rfl
@[simp] theorem Mach.modBlock_farLast (m : Mach) (b : Nat) (f : Block → Block) : (m.modBlock b f).farLast = m.farLast := rfl
@[simp] theorem Mach.modBlock_outPts (m : Mach) (b : Nat) (f : Block → Block) : (m.modBlock b f).outPts = m.outPts := rfl
@[simp] theorem Mach.modBlock_outside (m : Mach) (b : Nat) (f : Block → Block) : (m.modBlock b f).outside = m.outside := rfl
@[simp] theorem Mach.modBlock_owed (m : Mach) (b : Nat) (f : Block → Block) : (m.modBlock b f).owed = m.owed := rfl
@[simp] theorem Mach.modBlock_corrected (m : Mach) (b : Nat) (f : Block → Block) : (m.modBlock b f).corrected = m.corrected := rfl
@[simp] theorem Mach.modBlock_stamps (m : Mach) (b : Nat) (f : Block → Block) : (m.modBlock b f).stamps = m.stamps := rfl
@[simp] theorem Mach.modBlock_bad (m : Mach) (b : Nat) (f : Block → Block) : (m.modBlock b f).bad = m.bad := rfl
@[simp] theorem Mach.modBlock_lines (m : Mach) (b : Nat) (f : Block → Block) : (m.modBlock b f).lines = m.lines := rfl
@[simp] theorem Mach.modBlock_l2Uses (m : Mach) (b : Nat) (f : Block → Block) : (m.modBlock b f).l2Uses = m.l2Uses := rfl
@[simp] theorem Mach.modBlock_shadow (m : Mach) (b : Nat) (f : Block → Block) : (m.modBlock b f).shadow = m.shadow := rfl
@[simp] theorem Mach.modBlock_hits (m : Mach) (b : Nat) (f : Block → Block) : (m.modBlock b f).hits = m.hits := rfl
@[simp] theorem Mach.modBlock_heldBy (m : Mach) (b : Nat) (f : Block → Block) : (m.modBlock b f).heldBy = m.heldBy := rfl
@[simp] theorem Mach.modBlock_claims (m : Mach) (b : Nat) (f : Block → Block) : (m.modBlock b f).claims = m.claims := rfl
@[simp] theorem Mach.modBlock_side (m : Mach) (b : Nat) (f : Block → Block) : (m.modBlock b f).side = m.side := rfl
@[simp] theorem Mach.modBlock_scrub (m : Mach) (b : Nat) (f : Block → Block) : (m.modBlock b f).scrub = m.scrub := rfl
@[simp] theorem Mach.modBlock_posted (m : Mach) (b : Nat) (f : Block → Block) : (m.modBlock b f).posted = m.posted := rfl
@[simp] theorem Mach.modBlock_swept (m : Mach) (b : Nat) (f : Block → Block) : (m.modBlock b f).swept = m.swept := rfl
@[simp] theorem Mach.modBlock_maxStamp (m : Mach) (b : Nat) (f : Block → Block) : (m.modBlock b f).maxStamp = m.maxStamp := rfl
@[simp] theorem Mach.modBlock_tlb (m : Mach) (b : Nat) (f : Block → Block) : (m.modBlock b f).tlb = m.tlb := rfl
@[simp] theorem Mach.modBlock_ctxs (m : Mach) (b : Nat) (f : Block → Block) : (m.modBlock b f).ctxs = m.ctxs := rfl
@[simp] theorem Mach.modBlock_cores (m : Mach) (b : Nat) (f : Block → Block) : (m.modBlock b f).cores = m.cores := rfl
@[simp] theorem Mach.modBlock_blocks (m : Mach) (b : Nat) (f : Block → Block) : (m.modBlock b f).blocks = tabMod m.blocks b f := rfl
@[simp] theorem Mach.modBlock_launches (m : Mach) (b : Nat) (f : Block → Block) : (m.modBlock b f).launches = m.launches := rfl
@[simp] theorem Mach.modBlock_queues (m : Mach) (b : Nat) (f : Block → Block) : (m.modBlock b f).queues = m.queues := rfl
@[simp] theorem Mach.modBlock_orders (m : Mach) (b : Nat) (f : Block → Block) : (m.modBlock b f).orders = m.orders := rfl
@[simp] theorem Mach.modBlock_offers (m : Mach) (b : Nat) (f : Block → Block) : (m.modBlock b f).offers = m.offers := rfl
@[simp] theorem Mach.modBlock_trackers (m : Mach) (b : Nat) (f : Block → Block) : (m.modBlock b f).trackers = m.trackers := rfl
@[simp] theorem Mach.modBlock_shares (m : Mach) (b : Nat) (f : Block → Block) : (m.modBlock b f).shares = m.shares := rfl
@[simp] theorem Mach.modBlock_drains (m : Mach) (b : Nat) (f : Block → Block) : (m.modBlock b f).drains = m.drains := rfl
@[simp] theorem Mach.modBlock_wrung (m : Mach) (b : Nat) (f : Block → Block) : (m.modBlock b f).wrung = m.wrung := rfl
@[simp] theorem Mach.modBlock_presses (m : Mach) (b : Nat) (f : Block → Block) : (m.modBlock b f).presses = m.presses := rfl
@[simp] theorem Mach.modBlock_gate (m : Mach) (b : Nat) (f : Block → Block) : (m.modBlock b f).gate = m.gate := rfl
@[simp] theorem Mach.modBlock_clusters (m : Mach) (b : Nat) (f : Block → Block) : (m.modBlock b f).clusters = m.clusters := rfl
@[simp] theorem Mach.modBlock_signals (m : Mach) (b : Nat) (f : Block → Block) : (m.modBlock b f).signals = m.signals := rfl
@[simp] theorem Mach.modBlock_ide (m : Mach) (b : Nat) (f : Block → Block) : (m.modBlock b f).ide = m.ide := rfl
@[simp] theorem Mach.modBlock_heldReplies (m : Mach) (b : Nat) (f : Block → Block) : (m.modBlock b f).heldReplies = m.heldReplies := rfl
@[simp] theorem Mach.modBlock_dmaOff (m : Mach) (b : Nat) (f : Block → Block) : (m.modBlock b f).dmaOff = m.dmaOff := rfl
@[simp] theorem Mach.modBlock_unreach (m : Mach) (b : Nat) (f : Block → Block) : (m.modBlock b f).unreach = m.unreach := rfl
@[simp] theorem Mach.modBlock_busPeers (m : Mach) (b : Nat) (f : Block → Block) : (m.modBlock b f).busPeers = m.busPeers := rfl
@[simp] theorem Mach.modBlock_stalled (m : Mach) (b : Nat) (f : Block → Block) : (m.modBlock b f).stalled = m.stalled := rfl
@[simp] theorem Mach.modBlock_issue (m : Mach) (b : Nat) (f : Block → Block) : (m.modBlock b f).issue = m.issue := rfl
@[simp] theorem Mach.modBlock_free (m : Mach) (b : Nat) (f : Block → Block) : (m.modBlock b f).free = m.free := rfl
@[simp] theorem Mach.modBlock_ids (m : Mach) (b : Nat) (f : Block → Block) : (m.modBlock b f).ids = m.ids := rfl

/-! ## modLaunch -/

@[simp] theorem Mach.modLaunch_cycle (m : Mach) (l : Nat) (f : Launch → Launch) : (m.modLaunch l f).cycle = m.cycle := rfl
@[simp] theorem Mach.modLaunch_time (m : Mach) (l : Nat) (f : Launch → Launch) : (m.modLaunch l f).time = m.time := rfl
@[simp] theorem Mach.modLaunch_refTicks (m : Mach) (l : Nat) (f : Launch → Launch) : (m.modLaunch l f).refTicks = m.refTicks := rfl
@[simp] theorem Mach.modLaunch_refRem (m : Mach) (l : Nat) (f : Launch → Launch) : (m.modLaunch l f).refRem = m.refRem := rfl
@[simp] theorem Mach.modLaunch_mhz (m : Mach) (l : Nat) (f : Launch → Launch) : (m.modLaunch l f).mhz = m.mhz := rfl
@[simp] theorem Mach.modLaunch_mem (m : Mach) (l : Nat) (f : Launch → Launch) : (m.modLaunch l f).mem = m.mem := rfl
@[simp] theorem Mach.modLaunch_hostMem (m : Mach) (l : Nat) (f : Launch → Launch) : (m.modLaunch l f).hostMem = m.hostMem := rfl
@[simp] theorem Mach.modLaunch_peerMem (m : Mach) (l : Nat) (f : Launch → Launch) : (m.modLaunch l f).peerMem = m.peerMem := rfl
@[simp] theorem Mach.modLaunch_peerBad (m : Mach) (l : Nat) (f : Launch → Launch) : (m.modLaunch l f).peerBad = m.peerBad := rfl
@[simp] theorem Mach.modLaunch_hostUr (m : Mach) (l : Nat) (f : Launch → Launch) : (m.modLaunch l f).hostUr = m.hostUr := rfl
@[simp] theorem Mach.modLaunch_farLast (m : Mach) (l : Nat) (f : Launch → Launch) : (m.modLaunch l f).farLast = m.farLast := rfl
@[simp] theorem Mach.modLaunch_outPts (m : Mach) (l : Nat) (f : Launch → Launch) : (m.modLaunch l f).outPts = m.outPts := rfl
@[simp] theorem Mach.modLaunch_outside (m : Mach) (l : Nat) (f : Launch → Launch) : (m.modLaunch l f).outside = m.outside := rfl
@[simp] theorem Mach.modLaunch_owed (m : Mach) (l : Nat) (f : Launch → Launch) : (m.modLaunch l f).owed = m.owed := rfl
@[simp] theorem Mach.modLaunch_corrected (m : Mach) (l : Nat) (f : Launch → Launch) : (m.modLaunch l f).corrected = m.corrected := rfl
@[simp] theorem Mach.modLaunch_stamps (m : Mach) (l : Nat) (f : Launch → Launch) : (m.modLaunch l f).stamps = m.stamps := rfl
@[simp] theorem Mach.modLaunch_bad (m : Mach) (l : Nat) (f : Launch → Launch) : (m.modLaunch l f).bad = m.bad := rfl
@[simp] theorem Mach.modLaunch_lines (m : Mach) (l : Nat) (f : Launch → Launch) : (m.modLaunch l f).lines = m.lines := rfl
@[simp] theorem Mach.modLaunch_l2Uses (m : Mach) (l : Nat) (f : Launch → Launch) : (m.modLaunch l f).l2Uses = m.l2Uses := rfl
@[simp] theorem Mach.modLaunch_shadow (m : Mach) (l : Nat) (f : Launch → Launch) : (m.modLaunch l f).shadow = m.shadow := rfl
@[simp] theorem Mach.modLaunch_hits (m : Mach) (l : Nat) (f : Launch → Launch) : (m.modLaunch l f).hits = m.hits := rfl
@[simp] theorem Mach.modLaunch_heldBy (m : Mach) (l : Nat) (f : Launch → Launch) : (m.modLaunch l f).heldBy = m.heldBy := rfl
@[simp] theorem Mach.modLaunch_claims (m : Mach) (l : Nat) (f : Launch → Launch) : (m.modLaunch l f).claims = m.claims := rfl
@[simp] theorem Mach.modLaunch_side (m : Mach) (l : Nat) (f : Launch → Launch) : (m.modLaunch l f).side = m.side := rfl
@[simp] theorem Mach.modLaunch_scrub (m : Mach) (l : Nat) (f : Launch → Launch) : (m.modLaunch l f).scrub = m.scrub := rfl
@[simp] theorem Mach.modLaunch_posted (m : Mach) (l : Nat) (f : Launch → Launch) : (m.modLaunch l f).posted = m.posted := rfl
@[simp] theorem Mach.modLaunch_swept (m : Mach) (l : Nat) (f : Launch → Launch) : (m.modLaunch l f).swept = m.swept := rfl
@[simp] theorem Mach.modLaunch_maxStamp (m : Mach) (l : Nat) (f : Launch → Launch) : (m.modLaunch l f).maxStamp = m.maxStamp := rfl
@[simp] theorem Mach.modLaunch_tlb (m : Mach) (l : Nat) (f : Launch → Launch) : (m.modLaunch l f).tlb = m.tlb := rfl
@[simp] theorem Mach.modLaunch_ctxs (m : Mach) (l : Nat) (f : Launch → Launch) : (m.modLaunch l f).ctxs = m.ctxs := rfl
@[simp] theorem Mach.modLaunch_cores (m : Mach) (l : Nat) (f : Launch → Launch) : (m.modLaunch l f).cores = m.cores := rfl
@[simp] theorem Mach.modLaunch_blocks (m : Mach) (l : Nat) (f : Launch → Launch) : (m.modLaunch l f).blocks = m.blocks := rfl
@[simp] theorem Mach.modLaunch_launches (m : Mach) (l : Nat) (f : Launch → Launch) : (m.modLaunch l f).launches = tabMod m.launches l f := rfl
@[simp] theorem Mach.modLaunch_queues (m : Mach) (l : Nat) (f : Launch → Launch) : (m.modLaunch l f).queues = m.queues := rfl
@[simp] theorem Mach.modLaunch_orders (m : Mach) (l : Nat) (f : Launch → Launch) : (m.modLaunch l f).orders = m.orders := rfl
@[simp] theorem Mach.modLaunch_offers (m : Mach) (l : Nat) (f : Launch → Launch) : (m.modLaunch l f).offers = m.offers := rfl
@[simp] theorem Mach.modLaunch_trackers (m : Mach) (l : Nat) (f : Launch → Launch) : (m.modLaunch l f).trackers = m.trackers := rfl
@[simp] theorem Mach.modLaunch_shares (m : Mach) (l : Nat) (f : Launch → Launch) : (m.modLaunch l f).shares = m.shares := rfl
@[simp] theorem Mach.modLaunch_drains (m : Mach) (l : Nat) (f : Launch → Launch) : (m.modLaunch l f).drains = m.drains := rfl
@[simp] theorem Mach.modLaunch_wrung (m : Mach) (l : Nat) (f : Launch → Launch) : (m.modLaunch l f).wrung = m.wrung := rfl
@[simp] theorem Mach.modLaunch_presses (m : Mach) (l : Nat) (f : Launch → Launch) : (m.modLaunch l f).presses = m.presses := rfl
@[simp] theorem Mach.modLaunch_gate (m : Mach) (l : Nat) (f : Launch → Launch) : (m.modLaunch l f).gate = m.gate := rfl
@[simp] theorem Mach.modLaunch_clusters (m : Mach) (l : Nat) (f : Launch → Launch) : (m.modLaunch l f).clusters = m.clusters := rfl
@[simp] theorem Mach.modLaunch_signals (m : Mach) (l : Nat) (f : Launch → Launch) : (m.modLaunch l f).signals = m.signals := rfl
@[simp] theorem Mach.modLaunch_ide (m : Mach) (l : Nat) (f : Launch → Launch) : (m.modLaunch l f).ide = m.ide := rfl
@[simp] theorem Mach.modLaunch_heldReplies (m : Mach) (l : Nat) (f : Launch → Launch) : (m.modLaunch l f).heldReplies = m.heldReplies := rfl
@[simp] theorem Mach.modLaunch_dmaOff (m : Mach) (l : Nat) (f : Launch → Launch) : (m.modLaunch l f).dmaOff = m.dmaOff := rfl
@[simp] theorem Mach.modLaunch_unreach (m : Mach) (l : Nat) (f : Launch → Launch) : (m.modLaunch l f).unreach = m.unreach := rfl
@[simp] theorem Mach.modLaunch_busPeers (m : Mach) (l : Nat) (f : Launch → Launch) : (m.modLaunch l f).busPeers = m.busPeers := rfl
@[simp] theorem Mach.modLaunch_stalled (m : Mach) (l : Nat) (f : Launch → Launch) : (m.modLaunch l f).stalled = m.stalled := rfl
@[simp] theorem Mach.modLaunch_issue (m : Mach) (l : Nat) (f : Launch → Launch) : (m.modLaunch l f).issue = m.issue := rfl
@[simp] theorem Mach.modLaunch_free (m : Mach) (l : Nat) (f : Launch → Launch) : (m.modLaunch l f).free = m.free := rfl
@[simp] theorem Mach.modLaunch_ids (m : Mach) (l : Nat) (f : Launch → Launch) : (m.modLaunch l f).ids = m.ids := rfl

/-! ## modQueue -/

@[simp] theorem Mach.modQueue_cycle (m : Mach) (q : Nat) (f : Queue → Queue) : (m.modQueue q f).cycle = m.cycle := rfl
@[simp] theorem Mach.modQueue_time (m : Mach) (q : Nat) (f : Queue → Queue) : (m.modQueue q f).time = m.time := rfl
@[simp] theorem Mach.modQueue_refTicks (m : Mach) (q : Nat) (f : Queue → Queue) : (m.modQueue q f).refTicks = m.refTicks := rfl
@[simp] theorem Mach.modQueue_refRem (m : Mach) (q : Nat) (f : Queue → Queue) : (m.modQueue q f).refRem = m.refRem := rfl
@[simp] theorem Mach.modQueue_mhz (m : Mach) (q : Nat) (f : Queue → Queue) : (m.modQueue q f).mhz = m.mhz := rfl
@[simp] theorem Mach.modQueue_mem (m : Mach) (q : Nat) (f : Queue → Queue) : (m.modQueue q f).mem = m.mem := rfl
@[simp] theorem Mach.modQueue_hostMem (m : Mach) (q : Nat) (f : Queue → Queue) : (m.modQueue q f).hostMem = m.hostMem := rfl
@[simp] theorem Mach.modQueue_peerMem (m : Mach) (q : Nat) (f : Queue → Queue) : (m.modQueue q f).peerMem = m.peerMem := rfl
@[simp] theorem Mach.modQueue_peerBad (m : Mach) (q : Nat) (f : Queue → Queue) : (m.modQueue q f).peerBad = m.peerBad := rfl
@[simp] theorem Mach.modQueue_hostUr (m : Mach) (q : Nat) (f : Queue → Queue) : (m.modQueue q f).hostUr = m.hostUr := rfl
@[simp] theorem Mach.modQueue_farLast (m : Mach) (q : Nat) (f : Queue → Queue) : (m.modQueue q f).farLast = m.farLast := rfl
@[simp] theorem Mach.modQueue_outPts (m : Mach) (q : Nat) (f : Queue → Queue) : (m.modQueue q f).outPts = m.outPts := rfl
@[simp] theorem Mach.modQueue_outside (m : Mach) (q : Nat) (f : Queue → Queue) : (m.modQueue q f).outside = m.outside := rfl
@[simp] theorem Mach.modQueue_owed (m : Mach) (q : Nat) (f : Queue → Queue) : (m.modQueue q f).owed = m.owed := rfl
@[simp] theorem Mach.modQueue_corrected (m : Mach) (q : Nat) (f : Queue → Queue) : (m.modQueue q f).corrected = m.corrected := rfl
@[simp] theorem Mach.modQueue_stamps (m : Mach) (q : Nat) (f : Queue → Queue) : (m.modQueue q f).stamps = m.stamps := rfl
@[simp] theorem Mach.modQueue_bad (m : Mach) (q : Nat) (f : Queue → Queue) : (m.modQueue q f).bad = m.bad := rfl
@[simp] theorem Mach.modQueue_lines (m : Mach) (q : Nat) (f : Queue → Queue) : (m.modQueue q f).lines = m.lines := rfl
@[simp] theorem Mach.modQueue_l2Uses (m : Mach) (q : Nat) (f : Queue → Queue) : (m.modQueue q f).l2Uses = m.l2Uses := rfl
@[simp] theorem Mach.modQueue_shadow (m : Mach) (q : Nat) (f : Queue → Queue) : (m.modQueue q f).shadow = m.shadow := rfl
@[simp] theorem Mach.modQueue_hits (m : Mach) (q : Nat) (f : Queue → Queue) : (m.modQueue q f).hits = m.hits := rfl
@[simp] theorem Mach.modQueue_heldBy (m : Mach) (q : Nat) (f : Queue → Queue) : (m.modQueue q f).heldBy = m.heldBy := rfl
@[simp] theorem Mach.modQueue_claims (m : Mach) (q : Nat) (f : Queue → Queue) : (m.modQueue q f).claims = m.claims := rfl
@[simp] theorem Mach.modQueue_side (m : Mach) (q : Nat) (f : Queue → Queue) : (m.modQueue q f).side = m.side := rfl
@[simp] theorem Mach.modQueue_scrub (m : Mach) (q : Nat) (f : Queue → Queue) : (m.modQueue q f).scrub = m.scrub := rfl
@[simp] theorem Mach.modQueue_posted (m : Mach) (q : Nat) (f : Queue → Queue) : (m.modQueue q f).posted = m.posted := rfl
@[simp] theorem Mach.modQueue_swept (m : Mach) (q : Nat) (f : Queue → Queue) : (m.modQueue q f).swept = m.swept := rfl
@[simp] theorem Mach.modQueue_maxStamp (m : Mach) (q : Nat) (f : Queue → Queue) : (m.modQueue q f).maxStamp = m.maxStamp := rfl
@[simp] theorem Mach.modQueue_tlb (m : Mach) (q : Nat) (f : Queue → Queue) : (m.modQueue q f).tlb = m.tlb := rfl
@[simp] theorem Mach.modQueue_ctxs (m : Mach) (q : Nat) (f : Queue → Queue) : (m.modQueue q f).ctxs = m.ctxs := rfl
@[simp] theorem Mach.modQueue_cores (m : Mach) (q : Nat) (f : Queue → Queue) : (m.modQueue q f).cores = m.cores := rfl
@[simp] theorem Mach.modQueue_blocks (m : Mach) (q : Nat) (f : Queue → Queue) : (m.modQueue q f).blocks = m.blocks := rfl
@[simp] theorem Mach.modQueue_launches (m : Mach) (q : Nat) (f : Queue → Queue) : (m.modQueue q f).launches = m.launches := rfl
@[simp] theorem Mach.modQueue_queues (m : Mach) (q : Nat) (f : Queue → Queue) : (m.modQueue q f).queues = tabSet m.queues q (f (m.queue q)) := rfl
@[simp] theorem Mach.modQueue_orders (m : Mach) (q : Nat) (f : Queue → Queue) : (m.modQueue q f).orders = m.orders := rfl
@[simp] theorem Mach.modQueue_offers (m : Mach) (q : Nat) (f : Queue → Queue) : (m.modQueue q f).offers = m.offers := rfl
@[simp] theorem Mach.modQueue_trackers (m : Mach) (q : Nat) (f : Queue → Queue) : (m.modQueue q f).trackers = m.trackers := rfl
@[simp] theorem Mach.modQueue_shares (m : Mach) (q : Nat) (f : Queue → Queue) : (m.modQueue q f).shares = m.shares := rfl
@[simp] theorem Mach.modQueue_drains (m : Mach) (q : Nat) (f : Queue → Queue) : (m.modQueue q f).drains = m.drains := rfl
@[simp] theorem Mach.modQueue_wrung (m : Mach) (q : Nat) (f : Queue → Queue) : (m.modQueue q f).wrung = m.wrung := rfl
@[simp] theorem Mach.modQueue_presses (m : Mach) (q : Nat) (f : Queue → Queue) : (m.modQueue q f).presses = m.presses := rfl
@[simp] theorem Mach.modQueue_gate (m : Mach) (q : Nat) (f : Queue → Queue) : (m.modQueue q f).gate = m.gate := rfl
@[simp] theorem Mach.modQueue_clusters (m : Mach) (q : Nat) (f : Queue → Queue) : (m.modQueue q f).clusters = m.clusters := rfl
@[simp] theorem Mach.modQueue_signals (m : Mach) (q : Nat) (f : Queue → Queue) : (m.modQueue q f).signals = m.signals := rfl
@[simp] theorem Mach.modQueue_ide (m : Mach) (q : Nat) (f : Queue → Queue) : (m.modQueue q f).ide = m.ide := rfl
@[simp] theorem Mach.modQueue_heldReplies (m : Mach) (q : Nat) (f : Queue → Queue) : (m.modQueue q f).heldReplies = m.heldReplies := rfl
@[simp] theorem Mach.modQueue_dmaOff (m : Mach) (q : Nat) (f : Queue → Queue) : (m.modQueue q f).dmaOff = m.dmaOff := rfl
@[simp] theorem Mach.modQueue_unreach (m : Mach) (q : Nat) (f : Queue → Queue) : (m.modQueue q f).unreach = m.unreach := rfl
@[simp] theorem Mach.modQueue_busPeers (m : Mach) (q : Nat) (f : Queue → Queue) : (m.modQueue q f).busPeers = m.busPeers := rfl
@[simp] theorem Mach.modQueue_stalled (m : Mach) (q : Nat) (f : Queue → Queue) : (m.modQueue q f).stalled = m.stalled := rfl
@[simp] theorem Mach.modQueue_issue (m : Mach) (q : Nat) (f : Queue → Queue) : (m.modQueue q f).issue = m.issue := rfl
@[simp] theorem Mach.modQueue_free (m : Mach) (q : Nat) (f : Queue → Queue) : (m.modQueue q f).free = m.free := rfl
@[simp] theorem Mach.modQueue_ids (m : Mach) (q : Nat) (f : Queue → Queue) : (m.modQueue q f).ids = m.ids := rfl

/-! ## modWarp -/

@[simp] theorem Mach.modWarp_cycle (m : Mach) (b w : Nat) (f : Warp → Warp) : (m.modWarp b w f).cycle = m.cycle := rfl
@[simp] theorem Mach.modWarp_time (m : Mach) (b w : Nat) (f : Warp → Warp) : (m.modWarp b w f).time = m.time := rfl
@[simp] theorem Mach.modWarp_refTicks (m : Mach) (b w : Nat) (f : Warp → Warp) : (m.modWarp b w f).refTicks = m.refTicks := rfl
@[simp] theorem Mach.modWarp_refRem (m : Mach) (b w : Nat) (f : Warp → Warp) : (m.modWarp b w f).refRem = m.refRem := rfl
@[simp] theorem Mach.modWarp_mhz (m : Mach) (b w : Nat) (f : Warp → Warp) : (m.modWarp b w f).mhz = m.mhz := rfl
@[simp] theorem Mach.modWarp_mem (m : Mach) (b w : Nat) (f : Warp → Warp) : (m.modWarp b w f).mem = m.mem := rfl
@[simp] theorem Mach.modWarp_hostMem (m : Mach) (b w : Nat) (f : Warp → Warp) : (m.modWarp b w f).hostMem = m.hostMem := rfl
@[simp] theorem Mach.modWarp_peerMem (m : Mach) (b w : Nat) (f : Warp → Warp) : (m.modWarp b w f).peerMem = m.peerMem := rfl
@[simp] theorem Mach.modWarp_peerBad (m : Mach) (b w : Nat) (f : Warp → Warp) : (m.modWarp b w f).peerBad = m.peerBad := rfl
@[simp] theorem Mach.modWarp_hostUr (m : Mach) (b w : Nat) (f : Warp → Warp) : (m.modWarp b w f).hostUr = m.hostUr := rfl
@[simp] theorem Mach.modWarp_farLast (m : Mach) (b w : Nat) (f : Warp → Warp) : (m.modWarp b w f).farLast = m.farLast := rfl
@[simp] theorem Mach.modWarp_outPts (m : Mach) (b w : Nat) (f : Warp → Warp) : (m.modWarp b w f).outPts = m.outPts := rfl
@[simp] theorem Mach.modWarp_outside (m : Mach) (b w : Nat) (f : Warp → Warp) : (m.modWarp b w f).outside = m.outside := rfl
@[simp] theorem Mach.modWarp_owed (m : Mach) (b w : Nat) (f : Warp → Warp) : (m.modWarp b w f).owed = m.owed := rfl
@[simp] theorem Mach.modWarp_corrected (m : Mach) (b w : Nat) (f : Warp → Warp) : (m.modWarp b w f).corrected = m.corrected := rfl
@[simp] theorem Mach.modWarp_stamps (m : Mach) (b w : Nat) (f : Warp → Warp) : (m.modWarp b w f).stamps = m.stamps := rfl
@[simp] theorem Mach.modWarp_bad (m : Mach) (b w : Nat) (f : Warp → Warp) : (m.modWarp b w f).bad = m.bad := rfl
@[simp] theorem Mach.modWarp_lines (m : Mach) (b w : Nat) (f : Warp → Warp) : (m.modWarp b w f).lines = m.lines := rfl
@[simp] theorem Mach.modWarp_l2Uses (m : Mach) (b w : Nat) (f : Warp → Warp) : (m.modWarp b w f).l2Uses = m.l2Uses := rfl
@[simp] theorem Mach.modWarp_shadow (m : Mach) (b w : Nat) (f : Warp → Warp) : (m.modWarp b w f).shadow = m.shadow := rfl
@[simp] theorem Mach.modWarp_hits (m : Mach) (b w : Nat) (f : Warp → Warp) : (m.modWarp b w f).hits = m.hits := rfl
@[simp] theorem Mach.modWarp_heldBy (m : Mach) (b w : Nat) (f : Warp → Warp) : (m.modWarp b w f).heldBy = m.heldBy := rfl
@[simp] theorem Mach.modWarp_claims (m : Mach) (b w : Nat) (f : Warp → Warp) : (m.modWarp b w f).claims = m.claims := rfl
@[simp] theorem Mach.modWarp_side (m : Mach) (b w : Nat) (f : Warp → Warp) : (m.modWarp b w f).side = m.side := rfl
@[simp] theorem Mach.modWarp_scrub (m : Mach) (b w : Nat) (f : Warp → Warp) : (m.modWarp b w f).scrub = m.scrub := rfl
@[simp] theorem Mach.modWarp_posted (m : Mach) (b w : Nat) (f : Warp → Warp) : (m.modWarp b w f).posted = m.posted := rfl
@[simp] theorem Mach.modWarp_swept (m : Mach) (b w : Nat) (f : Warp → Warp) : (m.modWarp b w f).swept = m.swept := rfl
@[simp] theorem Mach.modWarp_maxStamp (m : Mach) (b w : Nat) (f : Warp → Warp) : (m.modWarp b w f).maxStamp = m.maxStamp := rfl
@[simp] theorem Mach.modWarp_tlb (m : Mach) (b w : Nat) (f : Warp → Warp) : (m.modWarp b w f).tlb = m.tlb := rfl
@[simp] theorem Mach.modWarp_ctxs (m : Mach) (b w : Nat) (f : Warp → Warp) : (m.modWarp b w f).ctxs = m.ctxs := rfl
@[simp] theorem Mach.modWarp_cores (m : Mach) (b w : Nat) (f : Warp → Warp) : (m.modWarp b w f).cores = m.cores := rfl
@[simp] theorem Mach.modWarp_blocks (m : Mach) (b w : Nat) (f : Warp → Warp) : (m.modWarp b w f).blocks = tabMod m.blocks b fun x => { x with warps := tabMod x.warps w f } := rfl
@[simp] theorem Mach.modWarp_launches (m : Mach) (b w : Nat) (f : Warp → Warp) : (m.modWarp b w f).launches = m.launches := rfl
@[simp] theorem Mach.modWarp_queues (m : Mach) (b w : Nat) (f : Warp → Warp) : (m.modWarp b w f).queues = m.queues := rfl
@[simp] theorem Mach.modWarp_orders (m : Mach) (b w : Nat) (f : Warp → Warp) : (m.modWarp b w f).orders = m.orders := rfl
@[simp] theorem Mach.modWarp_offers (m : Mach) (b w : Nat) (f : Warp → Warp) : (m.modWarp b w f).offers = m.offers := rfl
@[simp] theorem Mach.modWarp_trackers (m : Mach) (b w : Nat) (f : Warp → Warp) : (m.modWarp b w f).trackers = m.trackers := rfl
@[simp] theorem Mach.modWarp_shares (m : Mach) (b w : Nat) (f : Warp → Warp) : (m.modWarp b w f).shares = m.shares := rfl
@[simp] theorem Mach.modWarp_drains (m : Mach) (b w : Nat) (f : Warp → Warp) : (m.modWarp b w f).drains = m.drains := rfl
@[simp] theorem Mach.modWarp_wrung (m : Mach) (b w : Nat) (f : Warp → Warp) : (m.modWarp b w f).wrung = m.wrung := rfl
@[simp] theorem Mach.modWarp_presses (m : Mach) (b w : Nat) (f : Warp → Warp) : (m.modWarp b w f).presses = m.presses := rfl
@[simp] theorem Mach.modWarp_gate (m : Mach) (b w : Nat) (f : Warp → Warp) : (m.modWarp b w f).gate = m.gate := rfl
@[simp] theorem Mach.modWarp_clusters (m : Mach) (b w : Nat) (f : Warp → Warp) : (m.modWarp b w f).clusters = m.clusters := rfl
@[simp] theorem Mach.modWarp_signals (m : Mach) (b w : Nat) (f : Warp → Warp) : (m.modWarp b w f).signals = m.signals := rfl
@[simp] theorem Mach.modWarp_ide (m : Mach) (b w : Nat) (f : Warp → Warp) : (m.modWarp b w f).ide = m.ide := rfl
@[simp] theorem Mach.modWarp_heldReplies (m : Mach) (b w : Nat) (f : Warp → Warp) : (m.modWarp b w f).heldReplies = m.heldReplies := rfl
@[simp] theorem Mach.modWarp_dmaOff (m : Mach) (b w : Nat) (f : Warp → Warp) : (m.modWarp b w f).dmaOff = m.dmaOff := rfl
@[simp] theorem Mach.modWarp_unreach (m : Mach) (b w : Nat) (f : Warp → Warp) : (m.modWarp b w f).unreach = m.unreach := rfl
@[simp] theorem Mach.modWarp_busPeers (m : Mach) (b w : Nat) (f : Warp → Warp) : (m.modWarp b w f).busPeers = m.busPeers := rfl
@[simp] theorem Mach.modWarp_stalled (m : Mach) (b w : Nat) (f : Warp → Warp) : (m.modWarp b w f).stalled = m.stalled := rfl
@[simp] theorem Mach.modWarp_issue (m : Mach) (b w : Nat) (f : Warp → Warp) : (m.modWarp b w f).issue = m.issue := rfl
@[simp] theorem Mach.modWarp_free (m : Mach) (b w : Nat) (f : Warp → Warp) : (m.modWarp b w f).free = m.free := rfl
@[simp] theorem Mach.modWarp_ids (m : Mach) (b w : Nat) (f : Warp → Warp) : (m.modWarp b w f).ids = m.ids := rfl

/-! ## noteStamp -/

@[simp] theorem Mach.noteStamp_cycle (m : Mach) (st : Nat) : (m.noteStamp st).cycle = m.cycle := rfl
@[simp] theorem Mach.noteStamp_time (m : Mach) (st : Nat) : (m.noteStamp st).time = m.time := rfl
@[simp] theorem Mach.noteStamp_refTicks (m : Mach) (st : Nat) : (m.noteStamp st).refTicks = m.refTicks := rfl
@[simp] theorem Mach.noteStamp_refRem (m : Mach) (st : Nat) : (m.noteStamp st).refRem = m.refRem := rfl
@[simp] theorem Mach.noteStamp_mhz (m : Mach) (st : Nat) : (m.noteStamp st).mhz = m.mhz := rfl
@[simp] theorem Mach.noteStamp_mem (m : Mach) (st : Nat) : (m.noteStamp st).mem = m.mem := rfl
@[simp] theorem Mach.noteStamp_hostMem (m : Mach) (st : Nat) : (m.noteStamp st).hostMem = m.hostMem := rfl
@[simp] theorem Mach.noteStamp_peerMem (m : Mach) (st : Nat) : (m.noteStamp st).peerMem = m.peerMem := rfl
@[simp] theorem Mach.noteStamp_peerBad (m : Mach) (st : Nat) : (m.noteStamp st).peerBad = m.peerBad := rfl
@[simp] theorem Mach.noteStamp_hostUr (m : Mach) (st : Nat) : (m.noteStamp st).hostUr = m.hostUr := rfl
@[simp] theorem Mach.noteStamp_farLast (m : Mach) (st : Nat) : (m.noteStamp st).farLast = m.farLast := rfl
@[simp] theorem Mach.noteStamp_outPts (m : Mach) (st : Nat) : (m.noteStamp st).outPts = m.outPts := rfl
@[simp] theorem Mach.noteStamp_outside (m : Mach) (st : Nat) : (m.noteStamp st).outside = m.outside := rfl
@[simp] theorem Mach.noteStamp_owed (m : Mach) (st : Nat) : (m.noteStamp st).owed = m.owed := rfl
@[simp] theorem Mach.noteStamp_corrected (m : Mach) (st : Nat) : (m.noteStamp st).corrected = m.corrected := rfl
@[simp] theorem Mach.noteStamp_stamps (m : Mach) (st : Nat) : (m.noteStamp st).stamps = m.stamps := rfl
@[simp] theorem Mach.noteStamp_bad (m : Mach) (st : Nat) : (m.noteStamp st).bad = m.bad := rfl
@[simp] theorem Mach.noteStamp_lines (m : Mach) (st : Nat) : (m.noteStamp st).lines = m.lines := rfl
@[simp] theorem Mach.noteStamp_l2Uses (m : Mach) (st : Nat) : (m.noteStamp st).l2Uses = m.l2Uses := rfl
@[simp] theorem Mach.noteStamp_shadow (m : Mach) (st : Nat) : (m.noteStamp st).shadow = m.shadow := rfl
@[simp] theorem Mach.noteStamp_hits (m : Mach) (st : Nat) : (m.noteStamp st).hits = m.hits := rfl
@[simp] theorem Mach.noteStamp_heldBy (m : Mach) (st : Nat) : (m.noteStamp st).heldBy = m.heldBy := rfl
@[simp] theorem Mach.noteStamp_claims (m : Mach) (st : Nat) : (m.noteStamp st).claims = m.claims := rfl
@[simp] theorem Mach.noteStamp_side (m : Mach) (st : Nat) : (m.noteStamp st).side = m.side := rfl
@[simp] theorem Mach.noteStamp_scrub (m : Mach) (st : Nat) : (m.noteStamp st).scrub = m.scrub := rfl
@[simp] theorem Mach.noteStamp_posted (m : Mach) (st : Nat) : (m.noteStamp st).posted = m.posted := rfl
@[simp] theorem Mach.noteStamp_swept (m : Mach) (st : Nat) : (m.noteStamp st).swept = m.swept := rfl
@[simp] theorem Mach.noteStamp_maxStamp (m : Mach) (st : Nat) : (m.noteStamp st).maxStamp = max m.maxStamp st := rfl
@[simp] theorem Mach.noteStamp_tlb (m : Mach) (st : Nat) : (m.noteStamp st).tlb = m.tlb := rfl
@[simp] theorem Mach.noteStamp_ctxs (m : Mach) (st : Nat) : (m.noteStamp st).ctxs = m.ctxs := rfl
@[simp] theorem Mach.noteStamp_cores (m : Mach) (st : Nat) : (m.noteStamp st).cores = m.cores := rfl
@[simp] theorem Mach.noteStamp_blocks (m : Mach) (st : Nat) : (m.noteStamp st).blocks = m.blocks := rfl
@[simp] theorem Mach.noteStamp_launches (m : Mach) (st : Nat) : (m.noteStamp st).launches = m.launches := rfl
@[simp] theorem Mach.noteStamp_queues (m : Mach) (st : Nat) : (m.noteStamp st).queues = m.queues := rfl
@[simp] theorem Mach.noteStamp_orders (m : Mach) (st : Nat) : (m.noteStamp st).orders = m.orders := rfl
@[simp] theorem Mach.noteStamp_offers (m : Mach) (st : Nat) : (m.noteStamp st).offers = m.offers := rfl
@[simp] theorem Mach.noteStamp_trackers (m : Mach) (st : Nat) : (m.noteStamp st).trackers = m.trackers := rfl
@[simp] theorem Mach.noteStamp_shares (m : Mach) (st : Nat) : (m.noteStamp st).shares = m.shares := rfl
@[simp] theorem Mach.noteStamp_drains (m : Mach) (st : Nat) : (m.noteStamp st).drains = m.drains := rfl
@[simp] theorem Mach.noteStamp_wrung (m : Mach) (st : Nat) : (m.noteStamp st).wrung = m.wrung := rfl
@[simp] theorem Mach.noteStamp_presses (m : Mach) (st : Nat) : (m.noteStamp st).presses = m.presses := rfl
@[simp] theorem Mach.noteStamp_gate (m : Mach) (st : Nat) : (m.noteStamp st).gate = m.gate := rfl
@[simp] theorem Mach.noteStamp_clusters (m : Mach) (st : Nat) : (m.noteStamp st).clusters = m.clusters := rfl
@[simp] theorem Mach.noteStamp_signals (m : Mach) (st : Nat) : (m.noteStamp st).signals = m.signals := rfl
@[simp] theorem Mach.noteStamp_ide (m : Mach) (st : Nat) : (m.noteStamp st).ide = m.ide := rfl
@[simp] theorem Mach.noteStamp_heldReplies (m : Mach) (st : Nat) : (m.noteStamp st).heldReplies = m.heldReplies := rfl
@[simp] theorem Mach.noteStamp_dmaOff (m : Mach) (st : Nat) : (m.noteStamp st).dmaOff = m.dmaOff := rfl
@[simp] theorem Mach.noteStamp_unreach (m : Mach) (st : Nat) : (m.noteStamp st).unreach = m.unreach := rfl
@[simp] theorem Mach.noteStamp_busPeers (m : Mach) (st : Nat) : (m.noteStamp st).busPeers = m.busPeers := rfl
@[simp] theorem Mach.noteStamp_stalled (m : Mach) (st : Nat) : (m.noteStamp st).stalled = m.stalled := rfl
@[simp] theorem Mach.noteStamp_issue (m : Mach) (st : Nat) : (m.noteStamp st).issue = m.issue := rfl
@[simp] theorem Mach.noteStamp_free (m : Mach) (st : Nat) : (m.noteStamp st).free = m.free := rfl
@[simp] theorem Mach.noteStamp_ids (m : Mach) (st : Nat) : (m.noteStamp st).ids = m.ids := rfl

end Sys2Proof.Machine
end

