-- ==== Sys2Proof/Laws/Tab.lean ====
section
/-! SUPPORT. Reading tables and memories after a write. -/

namespace Sys2Proof.Machine

variable {α : Type}

/-! ## Cells -/

theorem cellsFind_set (k j : Nat) (x : α) (l : List (Nat × α)) :
    cellsFind j (cellsSet k x l) = if j = k then some x else cellsFind j l := by
  induction l with
  | nil => simp [cellsSet, cellsFind, eq_comm]
  | cons c r ih =>
    obtain ⟨i, y⟩ := c
    simp only [cellsSet]
    split_ifs with h1 h2 h3 h3 <;> simp_all [cellsFind] <;> grind

theorem cellsSet_set (k : Nat) (x y : α) (l : List (Nat × α)) : cellsSet k x (cellsSet k y l) = cellsSet k x l := by
  induction l with
  | nil => simp [cellsSet]
  | cons c r ih =>
    obtain ⟨i, z⟩ := c
    simp only [cellsSet]
    split_ifs <;> simp_all [cellsSet]

/-! ## Tables -/

@[simp] theorem tabFind_set (t : Tab α) (k j : Nat) (x : α) :
    tabFind (tabSet t k x) j = if j = k then some x else tabFind t j := cellsFind_set k j x t.cells

theorem tabFind_set_same (t : Tab α) (k : Nat) (x : α) : tabFind (tabSet t k x) k = some x := by simp

@[simp] theorem tabSet_set (t : Tab α) (k : Nat) (x y : α) : tabSet (tabSet t k x) k y = tabSet t k y := by
  simp [tabSet, cellsSet_set]

theorem tabGet_set (t : Tab α) (k j : Nat) (x d : α) : tabGet (tabSet t k x) j d = if j = k then x else tabGet t j d := by
  unfold tabGet; rw [tabFind_set]; split_ifs <;> simp

theorem tabMod_some {t : Tab α} {k : Nat} {x : α} (f : α → α) (h : tabFind t k = some x) :
    tabMod t k f = tabSet t k (f x) := by simp [tabMod, h]

theorem tabMod_none {t : Tab α} {k : Nat} (f : α → α) (h : tabFind t k = none) : tabMod t k f = t := by simp [tabMod, h]

theorem tabFind_mod (t : Tab α) (k j : Nat) (f : α → α) :
    tabFind (tabMod t k f) j = if j = k then (tabFind t k).map f else tabFind t j := by
  cases h : tabFind t k with
  | none => rw [tabMod_none f h]; split_ifs with e <;> simp_all
  | some x => rw [tabMod_some f h]; simp

theorem cellsFind_mem {k : Nat} {x : α} {l : List (Nat × α)} (h : cellsFind k l = some x) : (k, x) ∈ l := by
  induction l with
  | nil => simp [cellsFind] at h
  | cons c r ih =>
    obtain ⟨i, y⟩ := c
    simp only [cellsFind] at h
    split_ifs at h with e <;> simp_all

/-! ## A key in its place: what stands before it is lower -/

def inPlace (k : Nat) : List (Nat × α) → Prop
  | [] => False
  | (j, _) :: r => j = k ∨ (j < k ∧ inPlace k r)

theorem inPlace_set (k : Nat) (x : α) (l : List (Nat × α)) : inPlace k (cellsSet k x l) := by
  induction l with
  | nil => simp [cellsSet, inPlace]
  | cons c r ih =>
    obtain ⟨i, y⟩ := c
    simp only [cellsSet]
    split_ifs with h1 h2
    · simp [inPlace]
    · simp [inPlace]
    · simp only [inPlace]; exact .inr ⟨by omega, ih⟩

theorem inPlace_set_of {k j : Nat} (x : α) {l : List (Nat × α)} (h : inPlace k l) : inPlace k (cellsSet j x l) := by
  induction l with
  | nil => exact h.elim
  | cons c r ih =>
    obtain ⟨i, y⟩ := c
    simp only [inPlace] at h
    simp only [cellsSet]
    split_ifs with h1 h2
    · rcases h with h | ⟨h, g⟩
      · exact .inr ⟨by omega, .inl h⟩
      · exact .inr ⟨by omega, .inr ⟨h, g⟩⟩
    · subst h2; exact h
    · simp only [inPlace]
      rcases h with h | ⟨h, g⟩
      · exact .inl h
      · exact .inr ⟨h, ih g⟩

theorem cellsSet_same {k : Nat} {x : α} {l : List (Nat × α)} (h : inPlace k l) (g : cellsFind k l = some x) :
    cellsSet k x l = l := by
  induction l with
  | nil => exact h.elim
  | cons c r ih =>
    obtain ⟨i, y⟩ := c
    simp only [inPlace] at h
    simp only [cellsFind] at g
    simp only [cellsSet]
    by_cases e : i = k
    · subst e; simp at g; simp [g]
    · rw [if_neg e] at g
      obtain ⟨hl, hp⟩ := h.resolve_left e
      rw [if_neg (by omega), if_neg e, ih hp g]

theorem tabSet_same {t : Tab α} {k : Nat} {x : α} (h : inPlace k t.cells) (g : tabFind t k = some x) : tabSet t k x = t := by
  cases t; simp only [tabSet]; congr 1; exact cellsSet_same h g

end Sys2Proof.Machine
end

