-- ==== Sys2Proof/Laws/Warp.lean ====
section
/-! SUPPORT. What the operations on one warp do to its registers and lanes. -/

namespace Sys2Proof.Machine

/-! ## Lanes -/

theorem laneAt_modLane (w : Warp) (i k : Nat) (f : Lane → Lane) :
    laneAt (modLane w i f) k = if k = i then (laneAt w k).map f else laneAt w k := by
  simp only [laneAt, modLane, List.getElem?_modify]
  by_cases h : i = k <;> simp [h]
  intro e; exact absurd e.symm h

theorem laneAt_modLanes (w : Warp) (f : Nat → Lane → Lane) (k : Nat) :
    laneAt (modLanes w f) k = (laneAt w k).map (f k) := by
  simp only [laneAt, modLanes, List.getElem?_zipWith]
  by_cases h : k < w.lanes.length
  · simp [h]
  · simp [h]

@[simp] theorem modLane_length (w : Warp) (i : Nat) (f : Lane → Lane) : (modLane w i f).lanes.length = w.lanes.length := by
  simp [modLane]
@[simp] theorem modLanes_length (w : Warp) (f : Nat → Lane → Lane) : (modLanes w f).lanes.length = w.lanes.length := by
  simp [modLanes]

/-- The lane that a register belongs to exists. -/
def RegName.inWarp (r : RegName) (w : Warp) : Prop :=
  match r with
  | .v lane _ => lane < w.lanes.length
  | .p lane _ => lane < w.lanes.length
  | .s _ => True

theorem laneAt_lt {w : Warp} {k : Nat} (h : k < w.lanes.length) : ∃ l, laneAt w k = some l :=
  ⟨w.lanes[k], by simp [laneAt, h]⟩

/-! ## Registers -/

theorem getReg_setReg (w : Warp) (r r' : RegName) (x : Reg) (h : r.inWarp w) :
    (w.setReg r x).getReg r' = if r' = r then r.trim x else w.getReg r' := by
  cases r with
  | v lane n =>
    obtain ⟨l, hl⟩ := laneAt_lt h
    cases r' with
    | v lane' n' =>
      simp only [Warp.setReg, Warp.getReg, laneAt_modLane, RegName.v.injEq, RegName.trim]
      by_cases e : lane' = lane
      · subst e; simp [hl, tabGet_set]
      · simp [e]
    | p lane' n' =>
      simp only [Warp.setReg, Warp.getReg, laneAt_modLane]
      by_cases e : lane' = lane
      · subst e; simp [hl]
      · simp [e]
    | s n' => simp [Warp.setReg, Warp.getReg, modLane]
  | p lane n =>
    obtain ⟨l, hl⟩ := laneAt_lt h
    cases r' with
    | v lane' n' =>
      simp only [Warp.setReg, Warp.getReg, laneAt_modLane]
      by_cases e : lane' = lane
      · subst e; simp [hl]
      · simp [e]
    | p lane' n' =>
      simp only [Warp.setReg, Warp.getReg, laneAt_modLane, RegName.p.injEq, RegName.trim]
      by_cases e : lane' = lane
      · subst e
        by_cases en : n' = n
        · subst en; simp [hl, tabGet_set]
        · simp [hl, tabGet_set, en]
      · simp [e]
    | s n' => simp [Warp.setReg, Warp.getReg, modLane]
  | s n =>
    cases r' with
    | v lane' n' => simp [Warp.setReg, Warp.getReg, laneAt]
    | p lane' n' => simp [Warp.setReg, Warp.getReg, laneAt]
    | s n' => simp [Warp.setReg, Warp.getReg, tabGet_set, RegName.trim]

theorem getReg_write (w : Warp) (id : Nat) (r r' : RegName) (x : Reg) (h : r.inWarp w) :
    (w.write id r x).getReg r' = if r' = r then r.trim x else w.getReg r' := by
  have := getReg_setReg { w with pend := (w.pend.map fun (p : Pend) => if p.reg = r then { p with live := false } else p) ++
                              [Pend.mk id r (w.getReg r) true] } r r' x (by cases r <;> exact h)
  rw [Warp.write, this]
  split_ifs <;> simp [Warp.getReg, laneAt]

theorem setReg_length (w : Warp) (r : RegName) (x : Reg) : (w.setReg r x).lanes.length = w.lanes.length := by
  cases r <;> simp [Warp.setReg]

theorem write_length (w : Warp) (id : Nat) (r : RegName) (x : Reg) : (w.write id r x).lanes.length = w.lanes.length := by
  simp [Warp.write, setReg_length]

/-- A register write changes no lane but its own, and of that one only registers. -/
theorem laneAt_write (w : Warp) (id : Nat) (r : RegName) (x : Reg) (k : Nat) :
    laneAt (w.write id r x) k = laneAt w k ∨
      (r.ofLane k ∧ ∃ l l', laneAt w k = some l ∧ laneAt (w.write id r x) k = some l' ∧
        l' = { l with v := l'.v, p := l'.p }) := by
  cases r with
  | s n => left; simp [Warp.write, Warp.setReg, laneAt]
  | v lane n =>
    by_cases e : k = lane
    · subst e
      cases h : laneAt w k with
      | none =>
        left
        simp only [Warp.write, Warp.setReg, laneAt_modLane]
        simpa [laneAt] using h
      | some l =>
        right
        refine ⟨rfl, l, { l with v := tabSet l.v n x }, rfl, ?_, rfl⟩
        have h' : w.lanes[k]? = some l := h
        simp only [Warp.write, Warp.setReg, laneAt_modLane]
        simp [laneAt, h']
    · left; simp [Warp.write, Warp.setReg, laneAt_modLane, e]; simp [laneAt]
  | p lane n =>
    by_cases e : k = lane
    · subst e
      cases h : laneAt w k with
      | none =>
        left
        simp only [Warp.write, Warp.setReg, laneAt_modLane]
        simpa [laneAt] using h
      | some l =>
        right
        refine ⟨rfl, l, { l with p := tabSet l.p n ⟨x.val.setWidth 4, x.tag⟩ }, rfl, ?_, rfl⟩
        have h' : w.lanes[k]? = some l := h
        simp only [Warp.write, Warp.setReg, laneAt_modLane]
        simp [laneAt, h']
    · left; simp [Warp.write, Warp.setReg, laneAt_modLane, e]; simp [laneAt]

/-! ## Results -/

/-- Everything but lanes, scalars and pending writes. -/
def Warp.sameRest (w w' : Warp) : Prop := { w' with lanes := w.lanes, s := w.s, pend := w.pend } = w

theorem Warp.sameRest_refl (w : Warp) : w.sameRest w := rfl
theorem Warp.sameRest_trans {a b c : Warp} (h : a.sameRest b) (g : b.sameRest c) : a.sameRest c := by
  unfold Warp.sameRest at *
  cases a; cases b; cases c; simp_all

theorem sameRest_write (w : Warp) (id : Nat) (r : RegName) (x : Reg) : w.sameRest (w.write id r x) := by
  cases r <;> rfl

/-- Lanes differ in registers only. -/
def lanesSame (w w' : Warp) (k : Nat) : Prop :=
  (laneAt w k = none ∧ laneAt w' k = none) ∨
    ∃ l l', laneAt w k = some l ∧ laneAt w' k = some l' ∧ l' = { l with v := l'.v, p := l'.p }

theorem lanesSame_of_eq {w w' : Warp} {k : Nat} (h : laneAt w' k = laneAt w k) : lanesSame w w' k := by
  cases e : laneAt w k with
  | none => exact .inl ⟨e, h.trans e⟩
  | some l => exact .inr ⟨l, l, e, h.trans e, rfl⟩

theorem lanesSame_trans {a b c : Warp} {k : Nat} (h : lanesSame a b k) (g : lanesSame b c k) : lanesSame a c k := by
  rcases h with ⟨h1, h2⟩ | ⟨l, l', h1, h2, h3⟩ <;> rcases g with ⟨g1, g2⟩ | ⟨m, m', g1, g2, g3⟩
  · exact .inl ⟨h1, g2⟩
  · rw [h2] at g1; cases g1
  · rw [h2] at g1; cases g1
  · refine .inr ⟨l, m', h1, g2, ?_⟩
    obtain rfl : l' = m := by simpa [h2] using g1
    rw [g3, h3]

theorem getReg_trim (w : Warp) (r : RegName) : r.trim (w.getReg r) = w.getReg r := by
  cases r <;> simp only [RegName.trim, Warp.getReg]
  split <;> simp

structure Wrote (w w' : Warp) (lane : Nat) (tag base : Mask) (outs : List Out) : Prop where
  regs : ∀ r : RegName, r.inWarp w → w'.getReg r = written lane tag base r (w.getReg r) outs
  lanes : ∀ k, lanesSame w w' k
  other : ∀ k, k ≠ lane → laneAt w' k = laneAt w k
  length : w'.lanes.length = w.lanes.length
  rest : w.sameRest w'

theorem regOf_eq {lane : Nat} {o : Operand} {k : Nat} {r : RegName} (e : regOf lane o k = some r) :
    (∃ n, r = .v lane n) ∨ (∃ n, r = .p lane n) ∨ ∃ n, r = .s n := by
  cases o with
  | v n => exact .inl ⟨_, by simpa [regOf] using e.symm⟩
  | s n => exact .inr (.inr ⟨_, by simpa [regOf] using e.symm⟩)
  | p n =>
    simp only [regOf] at e
    split at e
    · cases e
    · exact .inr (.inl ⟨_, (Option.some.inj e).symm⟩)
  | a _ | zero | laneId | warpId | gangId | blockId | coreId | clusId | ones | bad _ => cases e

theorem regOf_inWarp {w : Warp} {lane : Nat} {o : Operand} {k : Nat} {r : RegName} (h : lane < w.lanes.length)
    (e : regOf lane o k = some r) : r.inWarp w := by
  obtain ⟨n, rfl⟩ | ⟨n, rfl⟩ | ⟨n, rfl⟩ := regOf_eq e
  · exact h
  · exact h
  · trivial

theorem regOf_ofLane {lane : Nat} {o : Operand} {k : Nat} {r : RegName} (e : regOf lane o k = some r) :
    r.ofLane lane ∨ ∃ n, r = .s n := by
  obtain ⟨n, rfl⟩ | ⟨n, rfl⟩ | ⟨n, rfl⟩ := regOf_eq e
  · exact .inl rfl
  · exact .inl rfl
  · exact .inr ⟨n, rfl⟩

theorem ofLane_unique {r : RegName} {i j : Nat} (h : r.ofLane i) (g : r.ofLane j) : i = j := by
  cases r <;> simp_all [RegName.ofLane]

theorem wrote_nil (w : Warp) (lane : Nat) (tag base : Mask) : Wrote w w lane tag base [] :=
  ⟨fun _ _ => rfl, fun _ => lanesSame_of_eq rfl, fun _ _ => rfl, rfl, rfl⟩

theorem inWarp_of_length {w w' : Warp} {r : RegName} (h : w'.lanes.length = w.lanes.length) (g : r.inWarp w) : r.inWarp w' := by
  cases r <;> simp_all [RegName.inWarp]

theorem wrote_one (w : Warp) (id lane : Nat) (tag base : Mask) (o : Out) (h : lane < w.lanes.length) :
    Wrote w (writeOut id lane tag base w o) lane tag base [o] := by
  unfold writeOut
  cases e : regOf lane o.dst o.k with
  | none =>
    refine ⟨fun r _ => ?_, fun _ => lanesSame_of_eq rfl, fun _ _ => rfl, rfl, rfl⟩
    simp [written, e]
  | some r =>
    refine ⟨fun r' _ => ?_, fun k => ?_, fun k hk => ?_, write_length .., sameRest_write ..⟩
    · simp only [written, List.foldl, e]
      rw [getReg_write _ _ _ _ _ (regOf_inWarp h e)]
      by_cases er : r' = r
      · subst er; simp
      · have : ¬ (some r = some r') := fun x => er (by injection x with x; exact x.symm)
        simp [er, this]
    · rcases laneAt_write w id r _ k with hh | ⟨_, hh⟩
      · exact lanesSame_of_eq hh
      · exact .inr hh
    · rcases laneAt_write w id r _ k with hh | ⟨hh, _⟩
      · exact hh
      · rcases regOf_ofLane e with g | ⟨n, rfl⟩
        · exact absurd (ofLane_unique hh g) hk
        · simp [RegName.ofLane] at hh

theorem written_append (lane : Nat) (tag base : Mask) (r : RegName) (x : Reg) (a b : List Out) :
    written lane tag base r x (a ++ b) = written lane tag base r (written lane tag base r x a) b := by
  simp [written, List.foldl_append]

theorem wrote_trans {a b c : Warp} {lane : Nat} {tag base : Mask} {o p : List Out} (h : Wrote a b lane tag base o)
    (g : Wrote b c lane tag base p) : Wrote a c lane tag base (o ++ p) :=
  ⟨fun r hr => by
      rw [g.regs r (inWarp_of_length h.length hr), h.regs r hr, written_append],
    fun k => lanesSame_trans (h.lanes k) (g.lanes k),
    fun k hk => (g.other k hk).trans (h.other k hk),
    g.length.trans h.length, Warp.sameRest_trans h.rest g.rest⟩

/-- The results of one lane, written. -/
theorem wrote_all (id lane : Nat) (tag base : Mask) (outs : List Out) (w : Warp) (h : lane < w.lanes.length) :
    Wrote w (outs.foldl (writeOut id lane tag base) w) lane tag base outs := by
  induction outs generalizing w with
  | nil => exact wrote_nil ..
  | cons o r ih =>
    have h1 := wrote_one w id lane tag base o h
    exact wrote_trans h1 (ih _ (by rw [h1.length]; exact h))

end Sys2Proof.Machine
end

