-- ==== Sys2Proof/Laws/Compute.lean ====
section
/-! SUPPORT. Everything an instruction that only computes registers can do, at lane and at warp scope. -/

namespace Sys2Proof.Machine

/-! ## Results by register -/

theorem written_filter (lane : Nat) (tag base : Mask) (r : RegName) (x : Reg) (outs : List Out) (p : Out → Bool)
    (h : ∀ o : Out, regOf lane o.dst o.k = some r → p o = true) :
    written lane tag base r x (outs.filter p) = written lane tag base r x outs := by
  induction outs generalizing x with
  | nil => rfl
  | cons o l ih =>
    by_cases e : regOf lane o.dst o.k = some r
    · rw [List.filter_cons_of_pos (h o e)]
      simp only [written, List.foldl] at ih ⊢
      exact ih _
    · by_cases hp : p o = true
      · rw [List.filter_cons_of_pos hp]
        simp only [written, List.foldl] at ih ⊢
        exact ih _
      · rw [List.filter_cons_of_neg hp, ih]
        simp [written, e]

theorem written_none (lane : Nat) (tag base : Mask) (r : RegName) (x : Reg) (outs : List Out)
    (h : ∀ o ∈ outs, regOf lane o.dst o.k ≠ some r) : written lane tag base r x outs = x := by
  induction outs with
  | nil => rfl
  | cons o l ih =>
    simp only [List.mem_cons, forall_eq_or_imp] at h
    simp only [written, List.foldl, if_neg h.1] at ih ⊢
    exact ih h.2

theorem isS_of_regOf {lane : Nat} {o : Operand} {k n : Nat} (h : regOf lane o k = some (.s n)) : isS o = true := by
  cases o with
  | s _ => rfl
  | v _ => cases h
  | p _ => simp only [regOf] at h; split at h <;> cases h
  | a _ | zero | laneId | warpId | gangId | blockId | coreId | clusId | ones | bad _ => cases h

theorem notS_of_regOf {lane : Nat} {o : Operand} {k j : Nat} {r : RegName} (h : regOf lane o k = some r) (g : r.ofLane j) :
    isS o = false := by
  cases o with
  | s _ => cases h; exact g.elim
  | v _ | p _ | a _ | zero | laneId | warpId | gangId | blockId | coreId | clusId | ones | bad _ => rfl

theorem regOf_lane {lane lane' : Nat} {o : Operand} {k : Nat} {r : RegName} (h : regOf lane o k = some r)
    (g : r.ofLane lane') : lane = lane' := by
  rcases regOf_ofLane h with e | ⟨n, rfl⟩
  · exact ofLane_unique e g
  · exact g.elim

/-- A scalar result does not depend on the lane that it is written through. -/
theorem written_scalar (i j : Nat) (tag base : Mask) (n : Nat) (x : Reg) (outs : List Out) :
    written i tag base (.s n) x outs = written j tag base (.s n) x outs := by
  have h : ∀ o : Out, (regOf i o.dst o.k = some (.s n)) = (regOf j o.dst o.k = some (.s n)) := by
    intro o
    cases o.dst with
    | s _ => rfl
    | v _ => simp [regOf]
    | p _ => simp only [regOf]; split <;> simp
    | a _ | zero | laneId | warpId | gangId | blockId | coreId | clusId | ones | bad _ => rfl
  simp only [written, h]

/-! ## One lane -/

theorem getReg_modLane (w : Warp) (i : Nat) (f : Lane → Lane) (r : RegName) (hv : ∀ l, (f l).v = l.v) (hp : ∀ l, (f l).p = l.p) :
    (modLane w i f).getReg r = w.getReg r := by
  cases r with
  | v k n =>
    simp only [Warp.getReg, laneAt_modLane]
    by_cases e : k = i
    · cases h : laneAt w k <;> simp [e, hv]
    · simp [e]
  | p k n =>
    simp only [Warp.getReg, laneAt_modLane]
    by_cases e : k = i
    · cases h : laneAt w k <;> simp_all
    · simp [e]
  | s n => rfl

theorem getReg_modLanes (w : Warp) (f : Nat → Lane → Lane) (r : RegName) (hv : ∀ i l, (f i l).v = l.v)
    (hp : ∀ i l, (f i l).p = l.p) : (modLanes w f).getReg r = w.getReg r := by
  cases r with
  | v k n => simp only [Warp.getReg, laneAt_modLanes]; cases h : laneAt w k <;> simp [hv]
  | p k n => simp only [Warp.getReg, laneAt_modLanes]; cases h : laneAt w k <;> simp [hp]
  | s n => rfl

/-- A lane that went on to the next instruction. -/
def movedOn (q : Issue) (w w' : Warp) (k : Nat) : Prop :=
  ∀ l, laneAt w k = some l → ∃ l', laneAt w' k = some l' ∧ l'.st = .ready ∧ l'.pc = q.seqPc ∧ l.keeps l'

theorem Lane.keeps_iff (l l' : Lane) : l.keeps l' ↔
    l'.rstack = l.rstack ∧ l'.spill = l.spill ∧ l'.pts = l.pts ∧ l'.posted = l.posted := by
  cases l; cases l'; simp [Lane.keeps]

structure CommittedLane (q : Issue) (w w' : Warp) (lane : Nat) (tag base : Mask) (outs : List Out) : Prop where
  regs : ∀ r : RegName, r.inWarp w → w'.getReg r = written lane tag base r (w.getReg r) (outs.filter fun o => !isS o.dst)
  other : ∀ k, k ≠ lane → laneAt w' k = laneAt w k
  moved : movedOn q w w' lane
  length : w'.lanes.length = w.lanes.length
  rest : w.sameRest w'

theorem mask_or_zero (x : Mask) : x ||| 0 = x := by simp

theorem commitLane_eq (q : Issue) (now id lane : Nat) (tag base : Mask) (outs : List Out) (w : Warp) :
    commitLane q now id lane tag base { outs := outs } w =
      modLane ((outs.filter fun o => !isS o.dst).foldl (writeOut id lane tag base) w) lane (laneDone q now { outs := outs }) := by
  simp only [commitLane, exits, mask_or_zero, List.filter_nil, List.foldl_nil, Bool.false_eq_true, if_false]

theorem commitLane_pure (q : Issue) (now id lane : Nat) (tag base : Mask) (outs : List Out) (w : Warp)
    (h : lane < w.lanes.length) : CommittedLane q w (commitLane q now id lane tag base { outs := outs } w) lane tag base outs := by
  have hw := wrote_all id lane tag base (outs.filter fun o => !isS o.dst) w h
  rw [commitLane_eq]
  generalize hg : (outs.filter fun o => !isS o.dst).foldl (writeOut id lane tag base) w = w1 at hw ⊢
  refine ⟨fun r hr => ?_, fun k hk => ?_, ?_, ?_, ?_⟩
  · rw [← hw.regs r hr, getReg_modLane w1 lane (laneDone q now { outs := outs }) r]
    · intro l; simp [laneDone, moveLane, Lane.readyAt]
    · intro l; simp [laneDone, moveLane, Lane.readyAt]
  · rw [laneAt_modLane, if_neg hk, hw.other k hk]
  · intro l hl
    rcases hw.lanes lane with ⟨h1, _⟩ | ⟨l0, l1, h1, h2, h3⟩
    · rw [h1] at hl; cases hl
    · rw [h1] at hl; cases hl
      refine ⟨laneDone q now { outs := outs } l1, ?_, rfl, rfl, ?_⟩
      · rw [laneAt_modLane, if_pos rfl, h2]; rfl
      · rw [h3]
        simp [laneDone, moveLane, Lane.readyAt, Lane.keeps]
  · rw [modLane_length, hw.length]
  · have := hw.rest
    unfold Warp.sameRest at *
    cases w; cases w1; simp_all [modLane]

/-! ## All lanes -/

/-- One entry per executing lane: its number, its masks, its results. -/
structure Entry where
  lane : Nat
  tag  : Mask
  base : Mask
  outs : List Out

def commitEntry (q : Issue) (now id : Nat) (w : Warp) (e : Entry) : Warp :=
  commitLane q now id e.lane e.tag e.base { outs := e.outs } w

structure AllLanes (q : Issue) (w w' : Warp) (es : List Entry) : Prop where
  regs : ∀ e ∈ es, ∀ r : RegName, r.ofLane e.lane → w'.getReg r = written e.lane e.tag e.base r (w.getReg r) e.outs
  idle : ∀ k, k < w.lanes.length → (∀ e ∈ es, e.lane ≠ k) → ∀ r : RegName, r.ofLane k → w'.getReg r = w.getReg r
  scal : ∀ n, w'.getReg (.s n) = w.getReg (.s n)
  other : ∀ k, (∀ e ∈ es, e.lane ≠ k) → laneAt w' k = laneAt w k
  moved : ∀ e ∈ es, movedOn q w w' e.lane
  length : w'.lanes.length = w.lanes.length
  rest : w.sameRest w'

theorem commitEntries (q : Issue) (now id : Nat) (es : List Entry) (w : Warp) (hn : (es.map (·.lane)).Nodup)
    (hl : ∀ e ∈ es, e.lane < w.lanes.length) : AllLanes q w (es.foldl (commitEntry q now id) w) es := by
  induction es generalizing w with
  | nil => exact ⟨by simp, fun _ _ _ _ _ => rfl, fun _ => rfl, fun _ _ => rfl, by simp, rfl, rfl⟩
  | cons e es ih =>
    simp only [List.map_cons, List.nodup_cons, List.mem_map, not_exists, not_and] at hn
    have h1 := commitLane_pure q now id e.lane e.tag e.base e.outs w (hl e (by simp))
    have hle : ∀ x ∈ es, x.lane < (commitEntry q now id w e).lanes.length := by
      intro x hx; rw [commitEntry, h1.length]; exact hl x (by simp [hx])
    have h2 := ih (commitEntry q now id w e) hn.2 hle
    have ne : ∀ x ∈ es, x.lane ≠ e.lane := fun x hx => hn.1 x hx
    have lanereg : ∀ k, k < w.lanes.length → ∀ r : RegName, r.ofLane k → r.inWarp w := by
      intro k hk r hr; cases r <;> simp_all [RegName.ofLane, RegName.inWarp]
    have step : ∀ k, k < w.lanes.length → k ≠ e.lane → ∀ r : RegName, r.ofLane k →
        (commitEntry q now id w e).getReg r = w.getReg r := by
      intro k hk hke r hr
      rw [commitEntry, h1.regs r (lanereg k hk r hr)]
      apply written_none
      intro o _ ho
      exact hke (regOf_lane ho hr).symm
    refine ⟨?_, ?_, ?_, ?_, ?_, ?_, ?_⟩
    · intro x hx r hr
      rcases List.mem_cons.1 hx with rfl | hx
      · rw [List.foldl_cons, h2.idle x.lane (by rw [commitEntry, h1.length]; exact hl x (by simp)) ne r hr]
        rw [commitEntry, h1.regs r (lanereg _ (hl x (by simp)) r hr)]
        exact written_filter _ _ _ _ _ _ _ fun o ho => by simp [notS_of_regOf ho hr]
      · rw [List.foldl_cons, h2.regs x hx r hr, step x.lane (hl x (by simp [hx])) (ne x hx) r hr]
    · intro k hk hne r hr
      rw [List.foldl_cons, h2.idle k (by rw [commitEntry, h1.length]; exact hk) (fun x hx => hne x (by simp [hx])) r hr]
      exact step k hk (fun h => hne e (by simp) h.symm) r hr
    · intro n
      rw [List.foldl_cons, h2.scal, commitEntry, h1.regs (.s n) trivial]
      apply written_none
      intro o ho hs
      simp only [List.mem_filter, isS_of_regOf hs] at ho
      simp at ho
    · intro k hk
      rw [List.foldl_cons, h2.other k (fun x hx => hk x (by simp [hx])), commitEntry, h1.other k (fun h => hk e (by simp) h.symm)]
    · intro x hx
      rcases List.mem_cons.1 hx with rfl | hx
      · intro l hl'
        obtain ⟨l', a, b⟩ := h1.moved l hl'
        exact ⟨l', by rw [List.foldl_cons, h2.other _ ne, commitEntry]; exact a, b⟩
      · intro l hl'
        have hx' : laneAt (commitEntry q now id w e) x.lane = some l := by
          rw [commitEntry, h1.other _ (ne x hx)]; exact hl'
        rw [List.foldl_cons]
        exact h2.moved x hx l hx'
    · rw [List.foldl_cons, h2.length, commitEntry, h1.length]
    · rw [List.foldl_cons]
      exact Warp.sameRest_trans h1.rest h2.rest

end Sys2Proof.Machine
end

