-- ==== Sys2Proof/Laws/Settle.lean ====
section
/-! SUPPORT. What follows an instruction at once does nothing to a warp with a lane that goes on; the elements of an issue. -/

namespace Sys2Proof.Machine

/-! ## A lane that goes on -/

theorem mem_indexed {α : Type} {l : List α} {k : Nat} {x : α} (h : l[k]? = some x) : (k, x) ∈ indexed l := by
  obtain ⟨hk, rfl⟩ := List.getElem?_eq_some_iff.1 h
  exact List.mem_iff_getElem.2 ⟨k, by simpa [indexed] using hk, by simp [indexed]⟩

theorem goesOn_mem {w : Warp} (h : w.goesOn) : ∃ l ∈ w.lanes, l.live = true ∧ l.isParked = false ∧ l.joining = false := by
  obtain ⟨k, l, hl, hs⟩ := h
  refine ⟨l, List.mem_of_getElem? hl, ?_⟩
  rcases hs with hs | ⟨_, hs⟩ <;> simp [Lane.live, Lane.isParked, Lane.joining, hs]

theorem converge_ready {w : Warp} (h : w.goesOn) (now : Nat) : w.converge now = w := by
  obtain ⟨k, l, hl, hs⟩ := h
  unfold Warp.converge
  simp only
  rw [if_pos]
  have hm : (k, l) ∈ (indexed w.lanes).filter fun x => x.2.live && !x.2.isParked := by
    rcases hs with hs | ⟨_, hs⟩ <;>
      simp [List.mem_filter, mem_indexed (show w.lanes[k]? = some l from hl), Lane.live, Lane.isParked, hs]
  have : ((indexed w.lanes).filter fun x => x.2.live && !x.2.isParked).all (fun x => x.2.joining) = false := by
    rw [List.all_eq_false]
    exact ⟨_, hm, by rcases hs with hs | ⟨_, hs⟩ <;> simp [Lane.joining, hs]⟩
  rw [this]; simp

theorem ended_ready {w : Warp} (h : w.goesOn) : w.ended = false := by
  obtain ⟨l, hl, hs⟩ := goesOn_mem h
  unfold Warp.ended
  rw [List.all_eq_false]
  exact ⟨l, hl, by simp [hs.1]⟩

theorem testSuspend_ready {m : Mach} {mg : Mgmt} {bid k : Nat} {b : Block} {w : Warp} (hb : tabFind m.blocks bid = some b)
    (hw : tabFind b.warps k = some w) (h : w.goesOn) : m.testSuspend mg bid k = m := by
  obtain ⟨l, hl, hs⟩ := goesOn_mem h
  have hall : (w.lanes.all fun l => !l.live || l.isParked || l.joining) = false := by
    rw [List.all_eq_false]
    exact ⟨l, hl, by simp [hs.1, hs.2.1, hs.2.2]⟩
  simp only [Mach.testSuspend, Mach.block?, hb, hw, hall]
  split_ifs <;> simp_all

/-- Nothing follows at once for a warp with a lane that goes on. -/
theorem settleWarp_ready {m : Mach} {mg : Mgmt} {bid k : Nat} {b : Block} {w : Warp} (hb : tabFind m.blocks bid = some b)
    (pb : inPlace bid m.blocks.cells) (hw : tabFind b.warps k = some w) (pw : inPlace k b.warps.cells) (h : w.goesOn) :
    m.settleWarp mg bid k = m := by
  have hmod : m.modWarp bid k (fun w => w.converge m.cycle) = m := by
    simp only [Mach.modWarp, Mach.modBlock]
    rw [tabMod_some _ hb, tabMod_some _ hw, converge_ready h, tabSet_same pw hw, tabSet_same pb hb]
  unfold Mach.settleWarp
  simp only [testSuspend_ready hb hw h, hmod]
  simp [Mach.warp?, Mach.block?, hb, hw, ended_ready h]

/-- The same for several warps. -/
theorem settleWarps_ready {m : Mach} {mg : Mgmt} {bid : Nat} {b : Block} (hb : tabFind m.blocks bid = some b)
    (pb : inPlace bid m.blocks.cells) {α : Type} (key : α → Nat) (l : List α)
    (h : ∀ x ∈ l, ∃ w, tabFind b.warps (key x) = some w ∧ inPlace (key x) b.warps.cells ∧ w.goesOn) :
    l.foldl (fun m x => m.settleWarp mg bid (key x)) m = m := by
  induction l with
  | nil => rfl
  | cons x r ih =>
    obtain ⟨w, h1, h2, h3⟩ := h x (by simp)
    rw [List.foldl_cons, settleWarp_ready hb pb h1 h2 h3]
    exact ih fun y hy => h y (by simp [hy])

/-! ## Masks -/

theorem mem_bitsOf {n : Nat} {x : BitVec n} {i : Nat} : i ∈ bitsOf x ↔ i < n ∧ x.getLsbD i = true := by
  simp [bitsOf]

theorem bitsOf_nodup {n : Nat} (x : BitVec n) : (bitsOf x).Nodup := List.Nodup.filter _ List.nodup_range

theorem maskOf_aux (l : List Nat) (m : LaneMask) (k : Nat) :
    (l.foldl (fun m i => m ||| BitVec.twoPow 32 i) m).getLsbD k = (m.getLsbD k || (decide (k < 32) && decide (k ∈ l))) := by
  induction l generalizing m with
  | nil => simp
  | cons i l ih =>
    simp only [List.foldl_cons, ih, BitVec.getLsbD_or, BitVec.getLsbD_twoPow, List.mem_cons]
    by_cases h : k < 32
    · rcases eq_or_ne i k with rfl | e
      · simp [h]
      · simp [h, e, Ne.symm e]
    · simp [h]; omega

theorem getLsbD_maskOf (l : List Nat) (k : Nat) : (maskOf l).getLsbD k = (decide (k < 32) && decide (k ∈ l)) := by
  rw [maskOf, maskOf_aux]; simp

theorem bitsOf_ne_nil {x : LaneMask} (h : x ≠ 0) : ∃ k < 32, x.getLsbD k = true := by
  by_contra hc
  push Not at hc
  apply h
  apply BitVec.eq_of_getLsbD_eq
  intro i hi
  simpa using hc i hi

/-! ## Elements -/

theorem activeOf_sub {op : Op} {n : Nat} {w : Warp} {r : Nat} {g : LaneMask} {k : Nat}
    (h : (op.activeOf n w r g).getLsbD k = true) : g.getLsbD k = true := by
  simp only [Op.activeOf, getLsbD_maskOf, List.mem_filter, mem_bitsOf, Bool.and_eq_true, decide_eq_true_eq] at h
  exact h.2.1.2

/-- The arrived lanes of every member, in order. -/
def laneList (mems : List Member) : List (Member × Nat × Lane) :=
  mems.flatMap fun x => (bitsOf x.active).filterMap fun i => (laneAt x.w i).map fun l => (x, i, l)

/-- What `Op.views` makes of them. -/
theorem views_eq (op : Op) (mg : Mgmt) (q : Issue) (b : Block) (gs : List LaneMask) (n id : Nat) (mems : List Member) :
    ∃ F : Member × Nat × Lane → View, op.views mg q b gs n id mems = (laneList mems).map F ∧
      (∀ y, (F y).warp = y.1.warp ∧ (F y).lane = y.2.1 ∧ (F y).l = y.2.2) ∧
      (isSet op.head.scope = false → ∀ y, (F y).w = y.1.w) ∧
      ((∀ x ∈ mems, x.w.pend = []) → ∀ y, y.1.w.pend = [] → (F y).w.pend = []) := by
  refine ⟨_, rfl, fun y => ⟨rfl, rfl, rfl⟩, fun h y => by simp [h], fun h y hy => ?_⟩
  simp only
  split_ifs
  · simp only [Warp.withScalars, hy, List.filter_nil, List.nil_append, List.filter_eq_nil_iff]
    intro p hp
    cases e : (laneList mems).head? with
    | none =>
      have : (List.flatMap (fun x => (bitsOf x.active).filterMap fun i => (laneAt x.w i).map fun l => (x, i, l)) mems).head? = none := e
      rw [this] at hp; simp [hy] at hp
    | some z =>
      have hz : (List.flatMap (fun x => (bitsOf x.active).filterMap fun i => (laneAt x.w i).map fun l => (x, i, l)) mems).head? = some z := e
      rw [hz] at hp
      have hm : z ∈ laneList mems := List.mem_of_mem_head? (by rw [e]; rfl)
      simp only [laneList, List.mem_flatMap, List.mem_filterMap, Option.map_eq_some_iff] at hm
      obtain ⟨x, hx, i, _, l, _, rfl⟩ := hm
      simp [h x hx] at hp
  · exact hy

theorem laneList_mem {mems : List Member} {y : Member × Nat × Lane} (h : y ∈ laneList mems) :
    y.1 ∈ mems ∧ y.1.active.getLsbD y.2.1 = true ∧ y.2.1 < 32 ∧ laneAt y.1.w y.2.1 = some y.2.2 := by
  simp only [laneList, List.mem_flatMap, List.mem_filterMap, Option.map_eq_some_iff] at h
  obtain ⟨x, hx, i, hi, l, hl, rfl⟩ := h
  exact ⟨hx, (mem_bitsOf.1 hi).2, (mem_bitsOf.1 hi).1, hl⟩

theorem member_lanes (x : Member) (h : x.w.lanes.length = 32) :
    ((bitsOf x.active).filterMap fun i => (laneAt x.w i).map fun l => (x, i, l)).map (fun y => y.2.1) = bitsOf x.active := by
  rw [List.map_filterMap]
  have : ∀ i ∈ bitsOf x.active, ((laneAt x.w i).map fun l => (x, i, l)).map (fun y => y.2.1) = some i := by
    intro i hi
    obtain ⟨l, hl⟩ := laneAt_lt (w := x.w) (k := i) (by rw [h]; exact (mem_bitsOf.1 hi).1)
    simp [hl]
  rw [List.filterMap_congr this, List.filterMap_some]

theorem laneList_member {mems : List Member} (hn : (mems.map (·.warp)).Nodup) (hl : ∀ x ∈ mems, x.w.lanes.length = 32)
    {x : Member} (hx : x ∈ mems) :
    ((laneList mems).filter fun y => y.1.warp == x.warp).map (fun y => y.2.1) = bitsOf x.active := by
  induction mems with
  | nil => cases hx
  | cons a r ih =>
    simp only [List.map_cons, List.nodup_cons, List.mem_map, not_exists, not_and] at hn
    have hcons : laneList (a :: r) = ((bitsOf a.active).filterMap fun i => (laneAt a.w i).map fun l => (a, i, l)) ++ laneList r := rfl
    have own : ∀ y ∈ (bitsOf a.active).filterMap fun i => (laneAt a.w i).map fun l => (a, i, l), y.1 = a := by
      intro y hy
      simp only [List.mem_filterMap, Option.map_eq_some_iff] at hy
      obtain ⟨i, _, l, _, rfl⟩ := hy
      rfl
    rw [hcons, List.filter_append, List.map_append]
    rcases List.mem_cons.1 hx with rfl | hx
    · rw [List.filter_eq_self.2 fun y hy => by simp [own y hy], member_lanes _ (hl _ (by simp))]
      rw [List.filter_eq_nil_iff.2 fun y hy => by
        have := hn.1 y.1 (laneList_mem hy).1
        simpa using this]
      simp
    · rw [List.filter_eq_nil_iff.2 fun y hy => by
        rw [own y hy]
        have := hn.1 x hx
        simpa using fun e => this e.symm]
      rw [List.map_nil, List.nil_append]
      exact ih hn.2 (fun z hz => hl z (by simp [hz])) hx

/-- The executing lanes of a member. -/
theorem views_member (op : Op) (mg : Mgmt) (q : Issue) (b : Block) (gs : List LaneMask) (n id : Nat) {mems : List Member}
    (hn : (mems.map (·.warp)).Nodup) (hl : ∀ x ∈ mems, x.w.lanes.length = 32) {x : Member} (hx : x ∈ mems) :
    ((op.views mg q b gs n id mems).filter fun v => v.warp == x.warp).map (·.lane) = bitsOf x.active := by
  obtain ⟨F, e, hF, _⟩ := views_eq op mg q b gs n id mems
  rw [e, List.filter_map, List.map_map]
  have h1 : ((fun v => v.warp == x.warp) ∘ F) = fun y => y.1.warp == x.warp := by
    funext y; simp [(hF y).1]
  have h2 : ((fun v : View => v.lane) ∘ F) = fun y => y.2.1 := by
    funext y; simp [(hF y).2.1]
  rw [h1, h2]
  exact laneList_member hn hl hx

/-- The elements depend on the head, the guard and the active lanes only. -/
theorem views_bare (op : Op) (mg : Mgmt) (q : Issue) (b : Block) (gs : List LaneMask) (n id : Nat) (mems : List Member) :
    op.views mg q b gs n id mems = (bareOp op.head op.guard op.width).views mg q b gs n id mems := rfl

end Sys2Proof.Machine
end

