-- ==== Sys2Proof/Laws/RegisterOp.lean ====
section
/-! SUPPORT. An operation that only computes registers completes, and its warp is all it changes. -/

namespace Sys2Proof.Machine

/-- An operation that only computes registers, and what it computes. -/
structure RegisterOp (op : Op) (h : Head) (g : Guard) (width : Nat) (t : Timing) (coll : Bool) (ok : Owner → List Bool)
    (srcs : List Src) (f : List View → View → List Out) : Prop where
  isHead   : op.head = h
  isGuard  : op.guard = g
  isWidth  : op.width = width
  unfenced : op.fenced = false
  isColl   : op.coll = coll
  isTiming : op.timing = t
  timed    : t ≠ .atIssue ∧ t ≠ .open_
  flows    : op.flow = true
  allowed  : ownScope h coll → permitted op.scopes h.scope = true
  checks   : ∀ ow c, (∀ x ∈ ok ow, x = true) → op.check ow c = none
  sources  : ∀ c, op.srcs c = srcs
  isReady  : ∀ vs m, op.ready vs m = true
  noWring  : ∀ vs m, op.wring vs m = []
  runs     : ∀ vs m, op.run vs m = (vs.map fun v => .ok { outs := f vs v }, m)
  each     : coll = false → ∀ a b v, f a v = f b v

variable {op : Op} {h : Head} {g : Guard} {width : Nat} {t : Timing} {coll : Bool} {ok : Owner → List Bool} {srcs : List Src}
  {f : List View → View → List Out}

/-! ## Execution -/

theorem shortOf_nil {w : Warp} (hw : w.pend = []) (l : List RegName) : w.shortOf l = none := by
  simp [Warp.shortOf, hw]

theorem shorts_nil {c : Ctx} {vs : List View} {mems : List Member}
    (hc : c.check = false ∨ ((∀ v ∈ vs, v.w.pend = []) ∧ ∀ x ∈ mems, x.w.pend = [])) : op.shorts c vs mems = [] := by
  unfold Op.shorts
  rcases hc with hc | ⟨hv, hm⟩
  · simp [hc]
  · have hown : ∀ v ∈ vs, ∀ l, v.w.shortOf l = none := fun v hv' l => shortOf_nil (hv v hv') l
    have hg : ∀ x ∈ mems, (bitsOf x.group).filterMap (fun i =>
        (x.w.shortOf ((regOf i (.p op.guard.p) 0).toList)).map fun code =>
          (x.warp, i, Stop.plain (.stallShort code))) = [] := by
      intro x hx
      simp [shortOf_nil (hm x hx)]
    split_ifs
    · rfl
    · simp only [List.filterMap_eq_nil_iff]
      intro v hv'
      simp [hown v hv']
    · simp only [List.flatMap_eq_nil_iff.2 hg, List.nil_append, List.filter_eq_nil_iff, List.mem_filterMap]
      rintro a ⟨v, hv', e⟩
      simp [hown v hv'] at e
    · simp only [List.flatMap_eq_nil_iff.2 hg, List.nil_append, List.filter_eq_nil_iff, List.mem_filterMap]
      rintro a ⟨v, hv', e⟩
      simp [hown v (List.mem_of_mem_take hv')] at e

theorem live_all (vs : List View) : op.live vs [] = vs := by
  unfold Op.live; split_ifs <;> simp_all

theorem zip_map_self {α β : Type} (l : List α) (k : α → β) : l.zip (l.map k) = l.map fun x => (x, k x) := by
  induction l with
  | nil => rfl
  | cons x r ih => simp [ih]

/-- Each element is paired with its own results. -/
theorem spread_pure (hop : RegisterOp op h g width t coll ok srcs f) (vs : List View) (m : Mach) :
    op.spread vs (op.run (if op.head.scope == .lane || op.coll then vs else vs.take 1) m).1 =
      vs.map fun v => (v, .ok { outs := resultOf h width coll f vs v }) := by
  simp only [hop.runs, hop.isHead, hop.isColl, Op.spread]
  have hw := hop.isWidth
  by_cases hs : h.scope = .lane ∨ coll = true
  · have e1 : (h.scope == Scope.lane || coll) = true := by rcases hs with hs | hs <;> simp [hs]
    have e2 : (decide (h.scope = Scope.lane) || coll) = true := by rcases hs with hs | hs <;> simp [hs]
    simp only [e1, e2, if_true, zip_map_self, resultOf, if_pos hs, List.map_map, Function.comp_def, Op.taken, hw]
  · have e1 : (h.scope == Scope.lane || coll) = false := by
      push Not at hs; simp [hs.1]; simpa using hs.2
    have e2 : (decide (h.scope = Scope.lane) || coll) = false := by
      push Not at hs; simp [hs.1]; simpa using hs.2
    simp only [e1, e2, Bool.false_eq_true, if_false, resultOf, if_neg hs]
    have hc : coll = false := by push Not at hs; simpa using hs.2
    cases vs with
    | nil => rfl
    | cons v r => simp [hop.each hc [v] (v :: r) v, Op.taken, hw]

theorem stops_pure (vs : List View) (r : View → List Out) :
    stopsOf (vs.map fun v => (v, .ok { outs := r v })) = [] := by
  simp [stopsOf]

theorem dones_pure (vs : List View) (r : View → List Out) :
    donesOf (vs.map fun v => (v, .ok { outs := r v })) = vs.map fun v => (v, { outs := r v }) := by
  simp [donesOf, List.filterMap_map]

theorem sourceTag_pure (hop : RegisterOp op h g width t coll ok srcs f) (c : Ctx) (vs : List View) (r : View → List Out)
    (v : View) (hv : v ∈ vs) :
    op.sourceTag c (vs.map fun v => (v, ({ outs := r v } : Done))) v = sourceMask h coll srcs vs v := by
  simp only [Op.sourceTag, sourceMask, hop.isHead, hop.sources, hop.isColl]
  split_ifs with h1 h2
  · rfl
  · simp only [List.foldl_map, mask_or_zero]
  · cases vs with
    | nil => cases hv
    | cons x l => simp

/-! ## The member warp -/

theorem getReg_congr {w w' : Warp} (hl : w'.lanes = w.lanes) (hs : w'.s = w.s) (r : RegName) : w'.getReg r = w.getReg r := by
  cases r <;> simp [Warp.getReg, laneAt, hl, hs]

/-- The leader's scalar results, written. -/
def writeLead (id : Nat) (lead : Option Entry) (es : List Entry) (w : Warp) : Warp :=
  match lead with
  | none => w
  | some e => if es.isEmpty then w else (e.outs.filter fun o => isS o.dst).foldl (writeOut id 0 e.tag e.base) w

def leadScalar (lead : Option Entry) (es : List Entry) (n : Nat) (x : Reg) : Reg :=
  match lead with
  | none => x
  | some e => if es.isEmpty then x else written 0 e.tag e.base (.s n) x e.outs

/-- A member warp after its part in an execution, before what it is charged. -/
def afterEntries (q : Issue) (now id : Nat) (fl : Mask) (group active : LaneMask) (lead : Option Entry) (es : List Entry)
    (w : Warp) : Warp :=
  es.foldl (commitEntry q now id)
    (writeLead id lead es (advanceIdle q now group active { w with flow := w.flow ||| fl }))

/-- What that warp holds. -/
structure EntriesAfter (q : Issue) (fl : Mask) (group : LaneMask) (lead : Option Entry) (es : List Entry) (w w' : Warp) : Prop where
  regs : ∀ e ∈ es, ∀ r : RegName, r.ofLane e.lane → w'.getReg r = written e.lane e.tag e.base r (w.getReg r) e.outs
  idle : ∀ k, (∀ e ∈ es, e.lane ≠ k) → ∀ r : RegName, r.ofLane k → w'.getReg r = w.getReg r
  scal : ∀ n, w'.getReg (.s n) = leadScalar lead es n (w.getReg (.s n))
  moved : ∀ k l, group.getLsbD k = true → laneAt w k = some l →
    ∃ l', laneAt w' k = some l' ∧ l'.st = .ready ∧ l'.pc = q.seqPc ∧ l.keeps l'
  others : ∀ k, group.getLsbD k = false → laneAt w' k = laneAt w k
  length : w'.lanes.length = w.lanes.length
  flow : w'.flow = w.flow ||| fl
  rest : { w' with lanes := w.lanes, s := w.s, pend := w.pend, flow := w.flow } = w

theorem lanes_scalars (id lane : Nat) (tag base : Mask) (outs : List Out) (w : Warp) (hS : ∀ o ∈ outs, isS o.dst = true) :
    (outs.foldl (writeOut id lane tag base) w).lanes = w.lanes := by
  induction outs generalizing w with
  | nil => rfl
  | cons o r ih =>
    rw [List.foldl_cons, ih _ fun x hx => hS x (by simp [hx])]
    have := hS o (by simp)
    cases e : o.dst with
    | s n => simp [writeOut, e, regOf, Warp.write, Warp.setReg]
    | v _ | p _ | a _ | zero | laneId | warpId | gangId | blockId | coreId | clusId | ones | bad _ =>
      rw [e] at this; cases this

theorem laneless {w : Warp} {k : Nat} {r : RegName} (hk : ¬ k < w.lanes.length) (hr : r.ofLane k) : w.getReg r = ⟨0, 0⟩ := by
  have : laneAt w k = none := by simp only [laneAt]; exact List.getElem?_eq_none (by omega)
  cases r <;> simp_all [RegName.ofLane, Warp.getReg]

theorem writeLead_holds (id : Nat) (lead : Option Entry) (es : List Entry) (w w' : Warp) (h0 : 0 < w.lanes.length)
    (hw : writeLead id lead es w = w') :
    (∃ tag base outs, (∀ o ∈ outs, isS o.dst = true) ∧ Wrote w w' 0 tag base outs) ∧
      (∀ n, w'.getReg (.s n) = leadScalar lead es n (w.getReg (.s n))) ∧ w'.lanes = w.lanes := by
  subst hw
  unfold writeLead leadScalar
  cases lead with
  | none => exact ⟨⟨0, 0, [], by simp, wrote_nil ..⟩, fun _ => rfl, rfl⟩
  | some e =>
    simp only
    split_ifs with hs
    · exact ⟨⟨0, 0, [], by simp, wrote_nil ..⟩, fun _ => rfl, rfl⟩
    · have hw := wrote_all id 0 e.tag e.base (e.outs.filter fun o => isS o.dst) w h0
      refine ⟨⟨_, _, _, fun o ho => (List.mem_filter.1 ho).2, hw⟩, fun n => ?_,
        lanes_scalars _ _ _ _ _ _ fun o ho => (List.mem_filter.1 ho).2⟩
      rw [hw.regs (.s n) trivial]
      exact written_filter _ _ _ _ _ _ _ fun o ho => isS_of_regOf ho

theorem afterEntries_holds (q : Issue) (now id : Nat) (fl : Mask) (group active : LaneMask) (lead : Option Entry)
    (es : List Entry) (w : Warp) (hlen : w.lanes.length = 32) (hv : es.map (·.lane) = bitsOf active)
    (hsub : ∀ k, active.getLsbD k = true → group.getLsbD k = true) :
    EntriesAfter q fl group lead es w (afterEntries q now id fl group active lead es w) := by
  have hlane : ∀ e ∈ es, e.lane < 32 ∧ active.getLsbD e.lane = true := fun e he =>
    mem_bitsOf.1 (hv ▸ List.mem_map_of_mem he)
  -- lanes whose guard is false go on
  generalize hw1 : advanceIdle q now group active { w with flow := w.flow ||| fl } = w1
  have len1 : w1.lanes.length = w.lanes.length := by rw [← hw1, advanceIdle, modLanes_length]
  have reg1 : ∀ r, w1.getReg r = w.getReg r := by
    intro r
    rw [← hw1, advanceIdle, getReg_modLanes]
    · exact getReg_congr rfl rfl r
    · intro i l; split_ifs <;> simp [moveLane, Lane.readyAt]
    · intro i l; split_ifs <;> simp [moveLane, Lane.readyAt]
  have lane1 : ∀ k, laneAt w1 k = (laneAt w k).map fun l =>
      if (group.getLsbD k && !active.getLsbD k) = true then moveLane q now .seq l else l := by
    intro k; rw [← hw1, advanceIdle, laneAt_modLanes]; rfl
  have rest1 : { w1 with lanes := w.lanes, s := w.s, pend := w.pend, flow := w.flow } = w ∧ w1.flow = w.flow ||| fl := by
    rw [← hw1]; exact ⟨rfl, rfl⟩
  -- scalars
  generalize hw2 : writeLead id lead es w1 = w2
  have h0 : 0 < w1.lanes.length := by rw [len1, hlen]; decide
  obtain ⟨⟨tg2, bs2, outs2, hS2, wr2⟩, scal2, lanes2⟩ := writeLead_holds id lead es w1 w2 h0 hw2
  simp only [reg1] at scal2
  have len2 : w2.lanes.length = w.lanes.length := by rw [wr2.length, len1]
  have reg2 : ∀ k, k < 32 → ∀ r : RegName, r.ofLane k → w2.getReg r = w.getReg r := by
    intro k hk r hr
    have hin : r.inWarp w1 := by cases r <;> simp_all [RegName.ofLane, RegName.inWarp]
    rw [wr2.regs r hin, reg1]
    apply written_none
    intro o ho e
    have := hS2 o ho
    rw [notS_of_regOf e hr] at this
    cases this
  have hlane2 : ∀ k, laneAt w2 k = laneAt w1 k := fun k => by rw [laneAt, lanes2, ← laneAt]
  -- the lanes
  have hn : (es.map (·.lane)).Nodup := by rw [hv]; exact bitsOf_nodup _
  have h3 := commitEntries q now id es w2 hn fun e he => by rw [len2, hlen]; exact (hlane e he).1
  have hdef : afterEntries q now id fl group active lead es w = es.foldl (commitEntry q now id) w2 := by
    rw [← hw2, ← hw1]; rfl
  rw [hdef]
  refine ⟨?_, ?_, ?_, ?_, ?_, ?_, ?_, ?_⟩
  · intro e he r hr
    rw [h3.regs e he r hr, reg2 e.lane (hlane e he).1 r hr]
  · intro k hk r hr
    by_cases hk32 : k < 32
    · rw [h3.idle k (by rw [len2, hlen]; exact hk32) hk r hr, reg2 k hk32 r hr]
    · rw [laneless (w := w) (by rw [hlen]; exact hk32) hr, laneless (by rw [h3.length, len2, hlen]; exact hk32) hr]
  · intro n; rw [h3.scal, scal2]
  · intro k l hk hl
    by_cases ha : active.getLsbD k = true
    · have hk32 : k < 32 := by
        by_contra hc
        rw [BitVec.getLsbD_of_ge _ _ (by omega)] at ha; cases ha
      have hmem : k ∈ es.map (·.lane) := by rw [hv]; exact mem_bitsOf.2 ⟨hk32, ha⟩
      obtain ⟨e, he, rfl⟩ := List.mem_map.1 hmem
      have l1 : laneAt w2 e.lane = some l := by rw [hlane2, lane1]; simp [hl, ha]
      exact h3.moved e he l l1
    · have ha' : active.getLsbD k = false := by simpa using ha
      have hne : ∀ e ∈ es, e.lane ≠ k := fun e he x => by
        have := (hlane e he).2; rw [x, ha'] at this; cases this
      rw [h3.other k hne, hlane2, lane1]
      refine ⟨moveLane q now .seq l, by simp [hl, hk, ha'], rfl, rfl, ?_⟩
      rw [Lane.keeps_iff]
      exact ⟨rfl, rfl, rfl, rfl⟩
  · intro k hk
    have ha' : active.getLsbD k = false := by
      cases e : active.getLsbD k with
      | false => rfl
      | true => rw [hsub k e] at hk; cases hk
    have hne : ∀ e ∈ es, e.lane ≠ k := fun e he x => by
      have := (hlane e he).2; rw [x, ha'] at this; cases this
    rw [h3.other k hne, hlane2, lane1]
    cases laneAt w k <;> simp [hk]
  · rw [h3.length, len2]
  · have r2 := congrArg Warp.flow wr2.rest
    have r3 := congrArg Warp.flow h3.rest
    exact (r3.trans r2).trans rest1.2
  · have r2 := wr2.rest
    have r3 := h3.rest
    obtain ⟨a1, a2⟩ := rest1
    unfold Warp.sameRest at r2 r3
    generalize es.foldl (commitEntry q now id) w2 = w3 at r3 ⊢
    cases w; cases w1; cases w2; cases w3; simp_all

/-! ## Commit -/

/-- The result of an element as an entry. -/
def entryOf (h : Head) (width : Nat) (coll : Bool) (srcs : List Src) (f : List View → View → List Out) (vs : List View) (v : View) :
    Entry :=
  ⟨v.lane, sourceMask h coll srcs vs v, v.base, resultOf h width coll f vs v⟩

/-- The entries of a member. -/
def memberEntries (h : Head) (width : Nat) (coll : Bool) (srcs : List Src) (f : List View → View → List Out) (vs : List View)
    (x : Nat) : List Entry :=
  (vs.filter fun v => v.warp == x).map (entryOf h width coll srcs f vs)

/-- The leader's entry above lane scope. -/
def leadOf (h : Head) (width : Nat) (coll : Bool) (srcs : List Src) (f : List View → View → List Out) (vs : List View) : Option Entry :=
  if h.scope = .lane then none else vs.head?.map (entryOf h width coll srcs f vs)

/-- What one member warp is after the commit of a register operation. -/
def memberAfter (op : Op) (q : Issue) (now id : Nat) (fl : Mask) (lead : Option Entry) (es : List Entry) (mem : Member) (w : Warp) :
    Warp :=
  let w' := afterEntries q now id fl mem.group mem.active lead es w
  if es = [] then w' else startFlight op now id (es.any fun e => !e.outs.isEmpty) false w'

theorem commitMember_pure (hop : RegisterOp op h g width t coll ok srcs f) (q : Issue) (now id : Nat) (fl : Mask) (mem : Member)
    (lead : Option Entry) (es : List Entry) (w : Warp) :
    commitMember op q now id fl mem (lead.map fun e => (e.tag, e.base, { outs := e.outs }))
        (es.map fun e => (e.lane, e.tag, e.base, { outs := e.outs })) w = memberAfter op q now id fl lead es mem w := by
  have hany : (es.map fun e : Entry => (e.lane, e.tag, e.base, ({ outs := e.outs } : Done))).any
      (fun r => !r.2.2.2.outs.isEmpty || !r.2.2.2.owed.isEmpty) = es.any fun e => !e.outs.isEmpty := by
    simp [List.any_map, Function.comp_def]
  have hemp : (es.map fun e : Entry => (e.lane, e.tag, e.base, ({ outs := e.outs } : Done))).isEmpty = es.isEmpty := by
    cases es <;> rfl
  have hfold : ∀ w : Warp, (es.map fun e : Entry => (e.lane, e.tag, e.base, ({ outs := e.outs } : Done))).foldl
      (fun w x => commitLane q now id x.1 x.2.1 x.2.2.1 x.2.2.2 w) w = es.foldl (commitEntry q now id) w := by
    intro w; rw [List.foldl_map]; rfl
  simp only [commitMember, hop.flows, if_true, hany, hemp, hfold]
  cases lead with
  | none =>
    cases es with
    | nil => simp [memberAfter, afterEntries, writeLead]
    | cons e r => simp [memberAfter, afterEntries, writeLead]
  | some x =>
    cases es with
    | nil => simp [memberAfter, afterEntries, writeLead]
    | cons e r =>
      simp only [Option.map_some, List.isEmpty_cons, Bool.false_eq_true, if_false, mask_or_zero, List.filter_nil, List.foldl_nil,
        memberAfter, afterEntries, writeLead, reduceCtorEq]
      simp

/-- Changing the warps of one block, one after another. -/
theorem modWarps_fold {β : Type} (key : β → Nat) (F : β → Warp → Warp) (bid : Nat) (l : List β) (m : Mach) (b : Block)
    (hb : tabFind m.blocks bid = some b) (hn : (l.map key).Nodup) (hw : ∀ x ∈ l, ∃ w, tabFind b.warps (key x) = some w)
    (hne : l ≠ []) :
    ∃ warps, l.foldl (fun m x => m.modWarp bid (key x) (F x)) m =
        { m with blocks := tabSet m.blocks bid { b with warps := warps } } ∧
      (∀ k, k ∉ l.map key → tabFind warps k = tabFind b.warps k) ∧
      (∀ x ∈ l, ∀ w, tabFind b.warps (key x) = some w → tabFind warps (key x) = some (F x w)) ∧
      (∀ k, inPlace k b.warps.cells ∨ k ∈ l.map key → inPlace k warps.cells) ∧
      (∀ x, l = [x] → ∀ w, tabFind b.warps (key x) = some w → warps = tabSet b.warps (key x) (F x w)) := by
  induction l generalizing m b with
  | nil => exact absurd rfl hne
  | cons x l ih =>
    simp only [List.map_cons, List.nodup_cons] at hn
    obtain ⟨w, hxw⟩ := hw x (by simp)
    have h1 : m.modWarp bid (key x) (F x) =
        { m with blocks := tabSet m.blocks bid { b with warps := tabSet b.warps (key x) (F x w) } } := by
      simp only [Mach.modWarp, Mach.modBlock, tabMod_some _ hb, tabMod_some _ hxw]
    rw [List.foldl_cons, h1]
    by_cases hl : l = []
    · subst hl
      refine ⟨tabSet b.warps (key x) (F x w), rfl, ?_, ?_, ?_, ?_⟩
      · intro k hk; simp only [List.map_cons, List.map_nil, List.mem_singleton] at hk; simp [hk]
      · intro y hy w' hw'
        simp only [List.mem_singleton] at hy
        subst hy
        rw [hxw] at hw'; cases hw'
        simp
      · rintro k (hk | hk)
        · exact inPlace_set_of _ hk
        · simp only [List.map_cons, List.map_nil, List.mem_singleton] at hk
          rw [hk]; exact inPlace_set _ _ _
      · intro y hy w' hw'
        obtain rfl : x = y := by simpa using hy
        rw [hxw] at hw'; cases hw'
        rfl
    · obtain ⟨warps, e, h2, h3, h4, _⟩ := ih { m with blocks := tabSet m.blocks bid { b with warps := tabSet b.warps (key x) (F x w) } }
        { b with warps := tabSet b.warps (key x) (F x w) } (by simp) hn.2 (by
          intro y hy
          obtain ⟨w', hw'⟩ := hw y (by simp [hy])
          by_cases e : key y = key x
          · exact ⟨F x w, by simp [e]⟩
          · exact ⟨w', by simp [e, hw']⟩) hl
      refine ⟨warps, by rw [e]; simp, ?_, ?_, ?_, fun y hy => absurd (List.cons.inj hy).2 hl⟩
      · intro k hk
        simp only [List.map_cons, List.mem_cons, not_or] at hk
        rw [h2 k hk.2]; simp [hk.1]
      · intro y hy w' hw'
        rcases List.mem_cons.1 hy with rfl | hy
        · rw [hxw] at hw'; cases hw'
          rw [h2 _ hn.1]; simp
        · have hne' : key y ≠ key x := fun e => hn.1 (e ▸ List.mem_map_of_mem hy)
          exact h3 y hy w' (by simp [hne', hw'])
      · rintro k (hk | hk)
        · exact h4 k (.inl (inPlace_set_of _ hk))
        · simp only [List.map_cons, List.mem_cons] at hk
          rcases hk with rfl | hk
          · exact h4 _ (.inl (inPlace_set _ _ _))
          · exact h4 k (.inr hk)

/-- What its execution charges one member: its stall count at its issue; in a rendezvous its lanes wait on (R74, R82, R349). -/
def charge (op : Op) (q : Issue) (now : Nat) (slot : Option Nat) (group : LaneMask) (ds : List (View × Done)) (w : Warp) : Warp :=
  match slot with
  | some k => holdLanes k group w
  | none => spend op q now (turnOf ds) w

theorem holdLanes_lane (k : Nat) (group : LaneMask) (w : Warp) (i : Nat) : laneAt (holdLanes k group w) i =
    (laneAt w i).map fun l => if group.getLsbD i && l.st == .ready then { l with st := .waiting (.rendezvous k) } else l := by
  rw [holdLanes, laneAt_modLanes]

/-- A charge moves no register and changes of the lanes only where they stand. -/
theorem charge_holds (op : Op) (q : Issue) (now : Nat) (slot : Option Nat) (group : LaneMask) (ds : List (View × Done)) (w : Warp) :
    let w' := charge op q now slot group ds w
    (∀ r, w'.getReg r = w.getReg r) ∧
      (∀ k, group.getLsbD k = false → laneAt w' k = laneAt w k) ∧
      (∀ k l, group.getLsbD k = true → laneAt w k = some l →
        laneAt w' k = some { l with st := if l.st = .ready then restsIn slot else l.st }) ∧
      { w' with lanes := w.lanes, group := w.group, stall := w.stall, lastIssue := w.lastIssue, hintUntil := w.hintUntil } = w ∧
      w'.stall = (if slot.isSome then w.stall else now + 1 + op.head.stall.toNat) := by
  intro w'
  cases slot with
  | none =>
    refine ⟨fun r => getReg_congr rfl rfl r, fun _ _ => rfl, fun k l _ hl => ?_, rfl, rfl⟩
    have : ({ l with st := if l.st = .ready then restsIn none else l.st } : Lane) = l := by
      cases l; simp only [restsIn]; split_ifs with e <;> simp_all
    rw [this]; exact hl
  | some k =>
    have hl : ∀ i, laneAt w' i = _ := holdLanes_lane k group w
    refine ⟨fun r => ?_, fun i hi => ?_, fun i l hi hl' => ?_, rfl, rfl⟩
    · show (holdLanes k group w).getReg r = _
      rw [holdLanes, getReg_modLanes]
      · intro i l; split_ifs <;> rfl
      · intro i l; split_ifs <;> rfl
    · rw [hl]; cases laneAt w i <;> simp [hi]
    · rw [hl, hl']
      simp only [Option.map_some, hi, Bool.true_and, restsIn, beq_iff_eq]
      split_ifs <;> rfl

theorem commit_pure (hop : RegisterOp op h g width t coll ok srcs f) (q : Issue) (c : Ctx) (n id : Nat) (mems : List Member)
    (flow : Mask) (slot : Option Nat) (vs : List View) (m : Mach) (b : Block) (hb : tabFind m.blocks q.bid = some b)
    (hn : (mems.map (·.warp)).Nodup) (hw : ∀ x ∈ mems, ∃ w, tabFind b.warps x.warp = some w) (hne : mems ≠ []) :
    ∃ warps, op.commit q c n id mems flow slot (vs.map fun v => (v, { outs := resultOf h width coll f vs v })) m =
        { m with blocks := tabSet m.blocks q.bid { b with warps := warps } } ∧
      (∀ k, k ∉ mems.map (·.warp) → tabFind warps k = tabFind b.warps k) ∧
      (∀ k ∈ mems.map (·.warp), inPlace k warps.cells) ∧
      (∀ x, mems = [x] → ∀ w w', tabFind b.warps x.warp = some w → tabFind warps x.warp = some w' →
        warps = tabSet b.warps x.warp w') ∧
      ∀ x ∈ mems, ∀ w, tabFind b.warps x.warp = some w → tabFind warps x.warp =
        some (charge op q m.cycle slot x.group (vs.map fun v => (v, { outs := resultOf h width coll f vs v }))
          (memberAfter op q m.cycle id (if op.head.scope == .lane then op.guardTags n x else flow) (leadOf h width coll srcs f vs)
            (memberEntries h width coll srcs f vs x.warp) x w)) := by
  set ds := vs.map fun v => (v, ({ outs := resultOf h width coll f vs v } : Done)) with hds
  have hlead : (if op.head.scope == .lane then none else ds.head?.map fun x => (op.sourceTag c ds x.1, x.1.base, x.2)) =
      (leadOf h width coll srcs f vs).map fun e => (e.tag, e.base, ({ outs := e.outs } : Done)) := by
    rw [hop.isHead]
    cases vs with
    | nil => simp [leadOf, hds]
    | cons v r =>
      have e := sourceTag_pure hop c (v :: r) (resultOf h width coll f (v :: r)) v (by simp)
      by_cases hs : h.scope = .lane
      · simp [hs, leadOf]
      · have hs' : (h.scope == Scope.lane) = false := by simpa using hs
        simp only [hs', Bool.false_eq_true, if_false, leadOf, if_neg hs, List.head?_cons, Option.map_some, entryOf, hds,
          List.map_cons] at e ⊢
        rw [e]
  have hres : ∀ x, ((ds.filter fun y => y.1.warp == x).map fun y => (y.1.lane, op.sourceTag c ds y.1, y.1.base, y.2)) =
      (memberEntries h width coll srcs f vs x).map fun e => (e.lane, e.tag, e.base, ({ outs := e.outs } : Done)) := by
    intro x
    rw [hds, List.filter_map, List.map_map, memberEntries, List.map_map, ← hds]
    apply List.map_congr_left
    intro v hv
    have hv' : v ∈ vs := (List.mem_filter.1 hv).1
    simp only [Function.comp_apply, entryOf, hds, sourceTag_pure hop c vs _ v hv']
  obtain ⟨warps, e, h1, h2, h3, h4⟩ := modWarps_fold (fun x : Member => x.warp)
    (fun x w => charge op q m.cycle slot x.group ds (memberAfter op q m.cycle id
      (if op.head.scope == .lane then op.guardTags n x else flow) (leadOf h width coll srcs f vs)
      (memberEntries h width coll srcs f vs x.warp) x w)) q.bid mems m b hb hn hw hne
  refine ⟨warps, ?_, h1, fun k hk => h3 k (.inr hk), fun x hx w w' a c => ?_, h2⟩
  swap
  · have e' := h4 x hx w a
    rw [e'] at c ⊢
    rw [tabFind_set_same] at c
    cases c
    rfl
  rw [← e]
  simp only [Op.commit]
  have hfold : ∀ (l : List Member) (m' : Mach), m'.cycle = m.cycle →
      l.foldl (fun m x => m.modWarp q.bid x.warp fun w =>
        charge op q m.cycle slot x.group ds (commitMember op q m.cycle id
            (if (op.head.scope == Scope.lane) = true then op.guardTags n x else flow) x
            (if (op.head.scope == Scope.lane) = true then none else ds.head?.map fun x => (op.sourceTag c ds x.1, x.1.base, x.2))
            ((ds.filter fun y => y.1.warp == x.warp).map fun y => (y.1.lane, op.sourceTag c ds y.1, y.1.base, y.2)) w)) m' =
      l.foldl (fun m' x => m'.modWarp q.bid x.warp fun w => charge op q m.cycle slot x.group ds (memberAfter op q m.cycle id
        (if op.head.scope == .lane then op.guardTags n x else flow) (leadOf h width coll srcs f vs)
        (memberEntries h width coll srcs f vs x.warp) x w)) m' := by
    intro l
    induction l with
    | nil => intro _ _; rfl
    | cons x l ih =>
      intro m' hm'
      simp only [List.foldl_cons]
      rw [ih _ (by simpa using hm')]
      congr 1
      simp only [hm', hlead, hres, commitMember_pure hop]
  exact hfold mems m rfl

/-- What the statements say of a member's registers follows. -/
theorem member_registers (hop : RegisterOp op h g width t coll ok srcs f) (q : Issue) (now id : Nat) (fl : Mask) (vs : List View)
    (mem : Member) (slot : Option Nat) (ds : List (View × Done)) (w : Warp) (hlen : w.lanes.length = 32)
    (hv : (vs.filter fun v => v.warp == mem.warp).map (·.lane) = bitsOf mem.active)
    (hsub : ∀ k, mem.active.getLsbD k = true → mem.group.getLsbD k = true) :
    let w' := charge op q now slot mem.group ds (memberAfter op q now id fl (leadOf h width coll srcs f vs)
      (memberEntries h width coll srcs f vs mem.warp) mem w)
    RegistersAfter q vs mem.warp mem.group slot w w' h width coll srcs f ∧
      (w'.ws = (match slotOf h with
        | none => w.ws
        | some j => if vs.any (·.warp == mem.warp) then w.ws.modify j (· + 1) else w.ws)) ∧
      (∀ x ∈ w'.flights, x ∈ w.flights ∨ x = ⟨id, slotOf h, t.due now, true⟩) ∧
      w'.flow = w.flow ||| fl ∧
      w'.stall = (if slot.isSome then w.stall else now + 1 + h.stall.toNat) := by
  intro w'
  set es := memberEntries h width coll srcs f vs mem.warp with hes
  set lead := leadOf h width coll srcs f vs with hlead
  have hlanes : es.map (·.lane) = bitsOf mem.active := by rw [← hv, hes, memberEntries, List.map_map]; rfl
  have hla := afterEntries_holds q now id fl mem.group mem.active lead es w hlen hlanes hsub
  set w0 := afterEntries q now id fl mem.group mem.active lead es w with hw0
  set w1 := (if es = [] then w0 else startFlight op now id (es.any fun e => !e.outs.isEmpty) false w0) with hw1
  have hw' : w' = charge op q now slot mem.group ds w1 := rfl
  obtain ⟨hcreg, hcother, hcgroup, hcrest, hcstall⟩ := charge_holds op q now slot mem.group ds w1
  rw [← hw'] at hcreg hcother hcgroup hcrest hcstall
  have hcfields : w'.ws = w1.ws ∧ w'.flights = w1.flights ∧ w'.flow = w1.flow :=
    ⟨by have e := congrArg Warp.ws hcrest; exact e, by have e := congrArg Warp.flights hcrest; exact e,
      by have e := congrArg Warp.flow hcrest; exact e⟩
  have hstall : w'.stall = (if slot.isSome then w.stall else now + 1 + h.stall.toNat) := by
    have : w1.stall = w.stall := by
      have e := congrArg Warp.stall hla.rest
      rw [hw1]; split_ifs
      · exact e
      · simp only [startFlight]; cases op.timing <;> simp only <;> (try split_ifs) <;> exact e
    rw [hcstall, this, hop.isHead]
  have hfl1 : w1.lanes = w0.lanes ∧ w1.s = w0.s ∧ w1.flow = w0.flow ∧ { w1 with ws := w0.ws, flights := w0.flights } = w0 := by
    rw [hw1]; split_ifs
    · exact ⟨rfl, rfl, rfl, rfl⟩
    · simp only [startFlight]; cases op.timing <;> simp only <;> (try split_ifs) <;> simp
  have hreg : ∀ r, w'.getReg r = w0.getReg r := fun r => (hcreg r).trans (getReg_congr hfl1.1 hfl1.2.1 r)
  have hat : ∀ k, laneAt w1 k = laneAt w0 k := fun k => by rw [laneAt, hfl1.1, ← laneAt]
  have hws0 : w0.ws = w.ws := by have e := congrArg Warp.ws hla.rest; exact e
  have hf0 : w0.flights = w.flights := by have e := congrArg Warp.flights hla.rest; exact e
  have hany : vs.any (·.warp == mem.warp) = !es.isEmpty := by
    rw [hes, memberEntries]
    have : ∀ l : List View, l.any (·.warp == mem.warp) = !((l.filter fun v => v.warp == mem.warp).map (entryOf h width coll srcs f vs)).isEmpty := by
      intro l
      induction l with
      | nil => rfl
      | cons v r ih =>
        cases e : v.warp == mem.warp
        · simp only [List.any_cons, e, Bool.false_or, List.filter_cons, Bool.false_eq_true, if_false, ih]
        · simp [e]
    exact this vs
  have hflight : w1.ws = (match slotOf h with
        | none => w.ws
        | some j => if vs.any (·.warp == mem.warp) then w.ws.modify j (· + 1) else w.ws) ∧
      ∀ x ∈ w1.flights, x ∈ w.flights ∨ x = ⟨id, slotOf h, t.due now, true⟩ := by
    rw [hany, hw1]
    cases es with
    | nil =>
      simp only [if_true, hws0, hf0]
      exact ⟨by cases slotOf h <;> rfl, fun x hx => .inl hx⟩
    | cons e r =>
      simp only [reduceCtorEq, if_false, startFlight, hop.isHead, hop.isTiming, List.isEmpty_cons, Bool.not_false, if_true]
      cases t with
      | fixed n =>
        cases hso : slotOf h with
        | none => simp only; split_ifs <;> simp [hws0, hf0, Timing.due]; exact fun x hx => .inl hx
        | some j => simp [hws0, hf0, Timing.due]
      | later =>
        cases hso : slotOf h with
        | none => simp only; split_ifs <;> simp [hws0, hf0, Timing.due]; exact fun x hx => .inl hx
        | some j => simp [hws0, hf0, Timing.due]
      | atIssue => exact absurd rfl hop.timed.1
      | open_ => exact absurd rfl hop.timed.2
  refine ⟨⟨?_, ?_, ?_, ?_, ?_, ?_⟩, hcfields.1.trans hflight.1, ?_, ?_, hstall⟩
  · intro v hv' hvw r hr
    have hm : entryOf h width coll srcs f vs v ∈ es := by
      rw [hes, memberEntries]; exact List.mem_map_of_mem (List.mem_filter.2 ⟨hv', by simp [hvw]⟩)
    rw [hreg]; exact hla.regs _ hm r hr
  · intro k hk r hr
    rw [hreg]
    apply hla.idle k _ r hr
    intro e he
    obtain ⟨v, hv', rfl⟩ := List.mem_map.1 (hes ▸ he)
    obtain ⟨a, b⟩ := List.mem_filter.1 hv'
    exact hk v a (by simpa using b)
  · intro n
    rw [hreg, hla.scal, hany, hlead]
    unfold leadScalar leadOf
    cases vs with
    | nil => simp [hes, memberEntries]
    | cons v r =>
      by_cases hs : h.scope = .lane
      · simp [hs, scalarAfter]
      · simp only [if_neg hs, List.head?_cons, Option.map_some, scalarAfter]
        cases es <;> simp [entryOf]
  · intro k l hk hl
    obtain ⟨l', h1, h2, h3, h4⟩ := hla.moved k l hk hl
    exact ⟨_, hcgroup k l' hk ((hat k).trans h1), by simp [h2], h3, by rw [Lane.keeps_iff] at h4 ⊢; exact h4⟩
  · intro k hk; rw [hcother k hk, hat]; exact hla.others k hk
  · unfold Warp.keeps
    have e1 := hcrest
    have e2 := hfl1.2.2.2
    have e3 := hla.rest
    generalize w0 = x at e2 e3
    generalize w1 = y at e1 e2
    generalize w' = z at e1 ⊢
    cases w; cases x; cases y; cases z; simp_all
  · rw [hcfields.2.1]; exact hflight.2
  · rw [hcfields.2.2, hfl1.2.2.1, hla.flow]

end Sys2Proof.Machine
end

