-- ==== Sys2Proof/Laws/EffectOp.lean ====
section
/-! SUPPORT. What an execution does to its member warps, whatever its elements do: registers, lanes, masks, flights. -/

namespace Sys2Proof.Machine

/-! ## One lane -/

/-- Pending writes that are still there. -/
def keepsPend (w w' : Warp) : Prop := ∀ p ∈ w.pend, ∃ p' ∈ w'.pend, p'.id = p.id ∧ p'.reg = p.reg

theorem keepsPend_refl (w : Warp) : keepsPend w w := fun p hp => ⟨p, hp, rfl, rfl⟩
theorem keepsPend_trans {a b c : Warp} (h : keepsPend a b) (g : keepsPend b c) : keepsPend a c := fun p hp => by
  obtain ⟨p', h1, h2, h3⟩ := h p hp
  obtain ⟨p'', g1, g2, g3⟩ := g p' h1
  exact ⟨p'', g1, g2.trans h2, g3.trans h3⟩
theorem keepsPend_of_eq {w w' : Warp} (h : w'.pend = w.pend) : keepsPend w w' := fun p hp => ⟨p, h ▸ hp, rfl, rfl⟩

theorem write_pend (w : Warp) (id : Nat) (r : RegName) (x : Reg) : keepsPend w (w.write id r x) ∧
    ∃ p ∈ (w.write id r x).pend, p.id = id ∧ p.reg = r := by
  have e : (w.write id r x).pend = (w.pend.map fun (p : Pend) => if p.reg = r then { p with live := false } else p) ++
      [Pend.mk id r (w.getReg r) true] := by cases r <;> rfl
  refine ⟨fun p hp => ?_, ⟨Pend.mk id r (w.getReg r) true, by rw [e]; simp, rfl, rfl⟩⟩
  refine ⟨if p.reg = r then { p with live := false } else p, ?_, ?_, ?_⟩
  · rw [e]; exact List.mem_append_left _ (List.mem_map_of_mem hp)
  · split_ifs <;> rfl
  · split_ifs <;> rfl

/-- Writes that are owed: registers keep what they hold, and wait. -/
structure Owed (w w' : Warp) (id lane : Nat) (os : List (Operand × Nat)) : Prop where
  regs : ∀ r : RegName, r.inWarp w → w'.getReg r = w.getReg r
  lanes : ∀ k, lanesSame w w' k
  other : ∀ k, k ≠ lane → laneAt w' k = laneAt w k
  length : w'.lanes.length = w.lanes.length
  rest : w.sameRest w'
  pend : keepsPend w w'
  owes : ∀ o ∈ os, ∀ r, regOf lane o.1 o.2 = some r → ∃ p ∈ w'.pend, p.id = id ∧ p.reg = r

theorem owed_all (id lane : Nat) (os : List (Operand × Nat)) (w : Warp) (h : lane < w.lanes.length) :
    Owed w (os.foldl (owe id lane) w) id lane os := by
  induction os generalizing w with
  | nil => exact ⟨fun _ _ => rfl, fun _ => lanesSame_of_eq rfl, fun _ _ => rfl, rfl, rfl, keepsPend_refl w, by simp⟩
  | cons o os ih =>
    rw [List.foldl_cons]
    have h1 : Owed w (owe id lane w o) id lane [o] := by
      unfold owe
      cases e : regOf lane o.1 o.2 with
      | none =>
        refine ⟨fun _ _ => rfl, fun _ => lanesSame_of_eq rfl, fun _ _ => rfl, rfl, rfl, keepsPend_refl w, ?_⟩
        intro x hx r hr
        simp only [List.mem_singleton] at hx; subst hx
        rw [e] at hr; cases hr
      | some r =>
        refine ⟨fun r' _ => ?_, fun k => ?_, fun k hk => ?_, write_length .., sameRest_write .., (write_pend ..).1, ?_⟩
        · rw [getReg_write _ _ _ _ _ (regOf_inWarp h e)]
          split_ifs with er
          · rw [er, getReg_trim]
          · rfl
        · rcases laneAt_write w id r (w.getReg r) k with hh | ⟨_, hh⟩
          · exact lanesSame_of_eq hh
          · exact .inr hh
        · rcases laneAt_write w id r (w.getReg r) k with hh | ⟨hh, _⟩
          · exact hh
          · rcases regOf_ofLane e with g | ⟨n, rfl⟩
            · exact absurd (ofLane_unique hh g) hk
            · simp [RegName.ofLane] at hh
        · intro x hx r' hr
          simp only [List.mem_singleton] at hx; subst hx
          rw [e] at hr; cases hr
          exact (write_pend ..).2
    have h2 := ih (owe id lane w o) (by rw [h1.length]; exact h)
    refine ⟨fun r hr => ?_, fun k => lanesSame_trans (h1.lanes k) (h2.lanes k), fun k hk => (h2.other k hk).trans (h1.other k hk),
      h2.length.trans h1.length, Warp.sameRest_trans h1.rest h2.rest, keepsPend_trans h1.pend h2.pend, ?_⟩
    · rw [h2.regs r (inWarp_of_length h1.length hr), h1.regs r hr]
    · intro x hx r hr
      rcases List.mem_cons.1 hx with rfl | hx
      · obtain ⟨p, a, b, c⟩ := h1.owes _ (by simp) r hr
        obtain ⟨p', a', b', c'⟩ := h2.pend p a
        exact ⟨p', a', b'.trans b, c'.trans c⟩
      · exact h2.owes x hx r hr

theorem writeOut_pend (id lane : Nat) (tag base : Mask) (outs : List Out) (w : Warp) :
    keepsPend w (outs.foldl (writeOut id lane tag base) w) := by
  induction outs generalizing w with
  | nil => exact keepsPend_refl w
  | cons o r ih =>
    rw [List.foldl_cons]
    refine keepsPend_trans ?_ (ih _)
    unfold writeOut
    cases regOf lane o.dst o.k with
    | none => exact keepsPend_refl w
    | some r => exact (write_pend ..).1

/-- One executing lane with its masks and part. -/
structure Part where
  lane : Nat
  tag  : Mask
  base : Mask
  d    : Done

def commitPart (q : Issue) (now id : Nat) (w : Warp) (e : Part) : Warp := commitLane q now id e.lane e.tag e.base e.d w

def wentOn (q : Issue) (w w' : Warp) (k : Nat) (d : Done) : Prop :=
  ∀ l, laneAt w k = some l → ∃ l', laneAt w' k = some l' ∧ l.Goes q none d l'

/-- Everything of a warp but what its elements change. -/
def Warp.sameCore (w w' : Warp) : Prop :=
  { w' with lanes := w.lanes, s := w.s, pend := w.pend, flow := w.flow, exitm := w.exitm } = w

theorem Warp.sameCore_trans {a b c : Warp} (h : a.sameCore b) (g : b.sameCore c) : a.sameCore c := by
  unfold Warp.sameCore at *
  cases a; cases b; cases c; simp_all

theorem Warp.sameCore_of_rest {a b : Warp} (h : a.sameRest b) : a.sameCore b := by
  unfold Warp.sameCore Warp.sameRest at *
  cases a; cases b; simp_all

structure OnePart (q : Issue) (w w' : Warp) (id : Nat) (e : Part) : Prop where
  regs : ∀ r : RegName, r.inWarp w →
    w'.getReg r = written e.lane (e.tag ||| e.d.tag) e.base r (w.getReg r) (e.d.outs.filter fun o => !isS o.dst)
  other : ∀ k, k ≠ e.lane → laneAt w' k = laneAt w k
  went : wentOn q w w' e.lane e.d
  length : w'.lanes.length = w.lanes.length
  rest : w.sameCore w'
  flow : w'.flow = w.flow ||| e.d.flow
  exitm : w'.exitm = if exits e.d then w.exitm ||| w'.flow else w.exitm
  pend : keepsPend w w'
  owes : ∀ o ∈ e.d.owed, isS o.1 = false → ∀ r, regOf e.lane o.1 o.2 = some r → ∃ p ∈ w'.pend, p.id = id ∧ p.reg = r

theorem goes_laneDone (q : Issue) (now : Nat) (d : Done) (l l1 : Lane) (h : l1 = { l with v := l1.v, p := l1.p }) :
    l.Goes q none d (laneDone q now d l1) := by
  rw [h]
  obtain ⟨outs, owed, closed, tag, next, pts, stack, posted, flow⟩ := d
  cases next <;> cases stack <;>
    exact ⟨rfl, rfl, rfl, rfl, rfl⟩

theorem getReg_flow (w : Warp) (a b : Mask) (r : RegName) : ({ w with flow := a, exitm := b } : Warp).getReg r = w.getReg r :=
  getReg_congr (w := w) (w' := { w with flow := a, exitm := b }) rfl rfl r

theorem commitLane_done (q : Issue) (now id : Nat) (e : Part) (w : Warp) (h : e.lane < w.lanes.length) :
    OnePart q w (commitPart q now id w e) id e := by
  obtain ⟨lane, tag, base, d⟩ := e
  simp only at h
  have hw := wrote_all id lane (tag ||| d.tag) base (d.outs.filter fun o => !isS o.dst) w h
  have hp := writeOut_pend id lane (tag ||| d.tag) base (d.outs.filter fun o => !isS o.dst) w
  generalize hg : (d.outs.filter fun o => !isS o.dst).foldl (writeOut id lane (tag ||| d.tag) base) w = w1 at hw hp
  have ho := owed_all id lane (d.owed.filter fun o => !isS o.1) w1 (by rw [hw.length]; exact h)
  generalize hg2 : (d.owed.filter fun o => !isS o.1).foldl (owe id lane) w1 = w2 at ho
  set w3 := modLane w2 lane (laneDone q now d) with hw3
  have heq : commitPart q now id w ⟨lane, tag, base, d⟩ =
      { w3 with flow := w3.flow ||| d.flow, exitm := if exits d then w3.exitm ||| (w3.flow ||| d.flow) else w3.exitm } := by
    simp only [commitPart, commitLane, hg, hg2, ← hw3]
    split_ifs <;> rfl
  have f3 : w3.flow = w.flow ∧ w3.exitm = w.exitm ∧ w.sameCore w3 := by
    have a := Warp.sameRest_trans hw.rest ho.rest
    have e1 := congrArg Warp.flow a
    have e2 := congrArg Warp.exitm a
    refine ⟨e1, e2, ?_⟩
    unfold Warp.sameRest Warp.sameCore at *
    cases w; cases w2; simp_all [modLane]
  rw [heq]
  refine ⟨fun r hr => ?_, fun k hk => ?_, ?_, ?_, ?_, ?_, ?_, ?_, ?_⟩
  · rw [getReg_flow, hw3, getReg_modLane, ho.regs r (inWarp_of_length hw.length hr), hw.regs r hr]
    · intro l; cases hn : d.next <;> simp [laneDone, moveLane, Lane.readyAt, hn]
    · intro l; cases hn : d.next <;> simp [laneDone, moveLane, Lane.readyAt, hn]
  · show laneAt w3 k = laneAt w k
    rw [hw3, laneAt_modLane, if_neg hk, ho.other k hk, hw.other k hk]
  · intro l hl
    rcases lanesSame_trans (hw.lanes lane) (ho.lanes lane) with ⟨h1, _⟩ | ⟨l0, l1, h1, h2, h3⟩
    · rw [h1] at hl; cases hl
    · rw [h1] at hl; cases hl
      refine ⟨laneDone q now d l1, ?_, goes_laneDone q now d _ l1 h3⟩
      show laneAt w3 lane = _
      rw [hw3, laneAt_modLane, if_pos rfl, h2]; rfl
  · show w3.lanes.length = _
    rw [hw3, modLane_length, ho.length, hw.length]
  · obtain ⟨_, _, c⟩ := f3
    unfold Warp.sameCore at *
    generalize w3 = x at c ⊢
    cases w; cases x; simp_all
  · simp only [f3.1]
  · simp only [f3.1, f3.2.1]
  · intro p hp'
    obtain ⟨a, b, c, e⟩ := keepsPend_trans hp ho.pend p hp'
    exact ⟨a, b, c, e⟩
  · intro o ho' hs r hr
    obtain ⟨p, a, b, c⟩ := ho.owes o (List.mem_filter.2 ⟨ho', by simp [hs]⟩) r hr
    exact ⟨p, a, b, c⟩

/-! ## All lanes -/

structure AllParts (q : Issue) (w w' : Warp) (id : Nat) (es : List Part) : Prop where
  regs : ∀ e ∈ es, ∀ r : RegName, r.ofLane e.lane →
    w'.getReg r = written e.lane (e.tag ||| e.d.tag) e.base r (w.getReg r) e.d.outs
  idle : ∀ k, k < w.lanes.length → (∀ e ∈ es, e.lane ≠ k) → ∀ r : RegName, r.ofLane k → w'.getReg r = w.getReg r
  scal : ∀ n, w'.getReg (.s n) = w.getReg (.s n)
  other : ∀ k, (∀ e ∈ es, e.lane ≠ k) → laneAt w' k = laneAt w k
  went : ∀ e ∈ es, wentOn q w w' e.lane e.d
  length : w'.lanes.length = w.lanes.length
  rest : w.sameCore w'
  flow : w'.flow = es.foldl (fun t e => t ||| e.d.flow) w.flow
  stays : (∀ e ∈ es, exits e.d = false) → w'.exitm = w.exitm
  leaves : (∃ e ∈ es, exits e.d = true) → (∀ e ∈ es, e.d.flow = 0) → w'.exitm = w.exitm ||| w.flow
  pend : keepsPend w w'
  owes : ∀ e ∈ es, ∀ o ∈ e.d.owed, isS o.1 = false → ∀ r, regOf e.lane o.1 o.2 = some r → ∃ p ∈ w'.pend, p.id = id ∧ p.reg = r

theorem commitParts (q : Issue) (now id : Nat) (es : List Part) (w : Warp) (hn : (es.map (·.lane)).Nodup)
    (hl : ∀ e ∈ es, e.lane < w.lanes.length) : AllParts q w (es.foldl (commitPart q now id) w) id es := by
  induction es generalizing w with
  | nil =>
    exact ⟨by simp, fun _ _ _ _ _ => rfl, fun _ => rfl, fun _ _ => rfl, by simp, rfl, rfl, rfl, fun _ => rfl, by simp,
      keepsPend_refl w, by simp⟩
  | cons e es ih =>
    simp only [List.map_cons, List.nodup_cons, List.mem_map, not_exists, not_and] at hn
    have h1 := commitLane_done q now id e w (hl e (by simp))
    have hle : ∀ x ∈ es, x.lane < (commitPart q now id w e).lanes.length := by
      intro x hx; rw [h1.length]; exact hl x (by simp [hx])
    have h2 := ih (commitPart q now id w e) hn.2 hle
    have ne : ∀ x ∈ es, x.lane ≠ e.lane := fun x hx => hn.1 x hx
    have lanereg : ∀ k, k < w.lanes.length → ∀ r : RegName, r.ofLane k → r.inWarp w := by
      intro k hk r hr; cases r <;> simp_all [RegName.ofLane, RegName.inWarp]
    have step : ∀ k, k < w.lanes.length → k ≠ e.lane → ∀ r : RegName, r.ofLane k →
        (commitPart q now id w e).getReg r = w.getReg r := by
      intro k hk hke r hr
      rw [h1.regs r (lanereg k hk r hr)]
      apply written_none
      intro o _ ho
      exact hke (regOf_lane ho hr).symm
    refine ⟨?_, ?_, ?_, ?_, ?_, ?_, ?_, ?_, ?_, ?_, ?_, ?_⟩
    · intro x hx r hr
      rcases List.mem_cons.1 hx with rfl | hx
      · rw [List.foldl_cons, h2.idle x.lane (by rw [h1.length]; exact hl x (by simp)) ne r hr]
        rw [h1.regs r (lanereg _ (hl x (by simp)) r hr)]
        exact written_filter _ _ _ _ _ _ _ fun o ho => by simp [notS_of_regOf ho hr]
      · rw [List.foldl_cons, h2.regs x hx r hr, step x.lane (hl x (by simp [hx])) (ne x hx) r hr]
    · intro k hk hne r hr
      rw [List.foldl_cons, h2.idle k (by rw [h1.length]; exact hk) (fun x hx => hne x (by simp [hx])) r hr]
      exact step k hk (fun h => hne e (by simp) h.symm) r hr
    · intro n
      rw [List.foldl_cons, h2.scal, h1.regs (.s n) trivial]
      apply written_none
      intro o ho hs
      simp only [List.mem_filter, isS_of_regOf hs] at ho
      simp at ho
    · intro k hk
      rw [List.foldl_cons, h2.other k (fun x hx => hk x (by simp [hx])), h1.other k (fun h => hk e (by simp) h.symm)]
    · intro x hx
      rcases List.mem_cons.1 hx with rfl | hx
      · intro l hl'
        obtain ⟨l', a, b⟩ := h1.went l hl'
        exact ⟨l', by rw [List.foldl_cons, h2.other _ ne]; exact a, b⟩
      · intro l hl'
        have hx' : laneAt (commitPart q now id w e) x.lane = some l := by
          rw [h1.other _ (ne x hx)]; exact hl'
        rw [List.foldl_cons]
        exact h2.went x hx l hx'
    · rw [List.foldl_cons, h2.length, h1.length]
    · rw [List.foldl_cons]
      exact Warp.sameCore_trans h1.rest h2.rest
    · rw [List.foldl_cons, h2.flow, h1.flow]; rfl
    · intro hx
      rw [List.foldl_cons, h2.stays fun x hx' => hx x (by simp [hx']), h1.exitm, hx e (by simp)]; rfl
    · intro hx h0
      have hf : (commitPart q now id w e).flow = w.flow := by rw [h1.flow, h0 e (by simp), mask_or_zero]
      rw [List.foldl_cons]
      by_cases hr : ∃ x ∈ es, exits x.d = true
      · rw [h2.leaves hr fun x hx' => h0 x (by simp [hx']), h1.exitm, hf]
        split_ifs
        · rw [BitVec.or_assoc, BitVec.or_self]
        · rfl
      · push Not at hr
        have hr' : ∀ x ∈ es, exits x.d = false := fun x hx' => by simpa using hr x hx'
        rw [h2.stays hr', h1.exitm, hf]
        obtain ⟨x, hx', he⟩ := hx
        rcases List.mem_cons.1 hx' with rfl | hx'
        · rw [he]; rfl
        · rw [hr' x hx'] at he; cases he
    · rw [List.foldl_cons]; exact keepsPend_trans h1.pend h2.pend
    · intro x hx o ho hs r hr
      rw [List.foldl_cons]
      rcases List.mem_cons.1 hx with rfl | hx
      · obtain ⟨p, a, b, c⟩ := h1.owes o ho hs r hr
        obtain ⟨p', a', b', c'⟩ := h2.pend p a
        exact ⟨p', a', b'.trans b, c'.trans c⟩
      · exact h2.owes x hx o ho hs r hr

end Sys2Proof.Machine
end

