-- ==== Sys2Proof/Laws/RegisterLaw.lean ====
section
/-! SUPPORT. The law that the statements about register instructions cite: an operation that only computes registers completes
at its issue, or in its rendezvous, and its warps are all it changes. -/

namespace Sys2Proof.Machine

variable {op : Op} {h : Head} {g : Guard} {width : Nat} {t : Timing} {coll : Bool} {ok : Owner → List Bool} {srcs : List Src}
  {f : List View → View → List Out}

/-! ## Scopes and slots -/

theorem setOf_none {m : Mach} {b : Block} {sc : Scope} {k : Nat} (h : sc = .lane ∨ sc = .warp) : m.setOf b sc k = none := by
  unfold Mach.setOf
  rcases h with rfl | rfl <;> simp

theorem isSet_false {sc : Scope} (h : sc = .lane ∨ sc = .warp) : isSet sc = false := by
  rcases h with rfl | rfl <;> rfl

theorem slotOf_room {h : Head} {w : Warp} (hr : slotHasRoom h w) :
    (match slotOf h with | none => false | some j => decide (w.ws.getD j 0 ≥ 7)) = false := by
  unfold slotHasRoom at hr
  cases e : slotOf h with
  | none => rfl
  | some j => have := hr j e; simp only [decide_eq_false_iff_not]; omega

/-- The execution of a register operation: its members' warps are all that changes. -/
theorem perform_register (hop : RegisterOp op h g width t coll ok srcs f) (i : Instr) (mg : Mgmt) (q : Issue) (b : Block)
    (mems : List Member) (slot : Option (Nat × List Nat)) (m : Mach) (vs : List View)
    (hvs : vs = op.views mg q b (m.gangs b) m.free m.ids mems) (hb : tabFind m.blocks q.bid = some b)
    (hlane : h.scope = .lane → slot = none)
    (hn : (mems.map (·.warp)).Nodup) (hw : ∀ x ∈ mems, ∃ w, tabFind b.warps x.warp = some w ∧ w.lanes.length = 32)
    (hl : ∀ x ∈ mems, x.w.lanes.length = 32) (hne : mems ≠ [])
    (hsub : ∀ x ∈ mems, ∀ k, x.active.getLsbD k = true → x.group.getLsbD k = true) (hg : ∀ x ∈ mems, x.group ≠ 0)
    (hshort : op.shorts (m.ctx b.ctx) vs mems = []) (hq : m.stalled = false) :
    ∃ warps, op.perform i mg q b mems slot m = { m with
        blocks := tabSet m.blocks q.bid { b with warps := warps, slots := match slot with
          | none => b.slots
          | some k => tabMod b.slots k.1 fun x => { x with running := some (m.ids, t.ends m.cycle vs.isEmpty) } }
        free := m.free + 1, ids := m.ids + 1 } ∧
      (∀ k, k ∉ mems.map (·.warp) → tabFind warps k = tabFind b.warps k) ∧
      (∀ x, mems = [x] → ∀ w w', tabFind b.warps x.warp = some w → tabFind warps x.warp = some w' →
        warps = tabSet b.warps x.warp w') ∧
      ∀ x ∈ mems, ∀ w, tabFind b.warps x.warp = some w → ∃ w', tabFind warps x.warp = some w' ∧
        RegistersAfter q vs x.warp x.group (slot.map (·.1)) w w' h width coll srcs f ∧
        (w'.ws = (match slotOf h with
          | none => w.ws
          | some j => if vs.any (·.warp == x.warp) then w.ws.modify j (· + 1) else w.ws)) ∧
        (∀ y ∈ w'.flights, y ∈ w.flights ∨ y = ⟨m.ids, slotOf h, t.due m.cycle, true⟩) ∧
        w'.flow = w.flow ||| (if h.scope = .lane then op.guardTags m.free x else op.setTags m.free mems) ∧
        w'.stall = (if slot.isSome then w.stall else m.cycle + 1 + h.stall.toNat) := by
  have hheld : op.meetsHeld vs m = false := by simp only [Op.meetsHeld, hop.runs, hq, Bool.and_false]
  set m1 : Mach := { m with free := m.free + 1, ids := m.ids + 1 } with hm1
  set ds := vs.map fun v => (v, ({ outs := resultOf h width coll f vs v } : Done)) with hds
  obtain ⟨warps, e, h1, hp, h1', h2⟩ := commit_pure hop q (m.ctx b.ctx) m.free m.ids mems (op.setTags m.free mems) (slot.map (·.1)) vs m1 b hb hn
    (fun x hx => (hw x hx).imp fun _ y => y.1) hne
  rw [← hds] at e h2
  have hsc : ∀ x : Member, (if op.head.scope == .lane then op.guardTags m.free x else op.setTags m.free mems) =
      (if h.scope = .lane then op.guardTags m.free x else op.setTags m.free mems) := by
    intro x; rw [hop.isHead]; by_cases hs : h.scope = .lane <;> simp [hs]
  have hmem : ∀ x ∈ mems, ∀ w, tabFind b.warps x.warp = some w → ∃ w', tabFind warps x.warp = some w' ∧
        RegistersAfter q vs x.warp x.group (slot.map (·.1)) w w' h width coll srcs f ∧
        (w'.ws = (match slotOf h with
          | none => w.ws
          | some j => if vs.any (·.warp == x.warp) then w.ws.modify j (· + 1) else w.ws)) ∧
        (∀ y ∈ w'.flights, y ∈ w.flights ∨ y = ⟨m.ids, slotOf h, t.due m.cycle, true⟩) ∧
        w'.flow = w.flow ||| (if h.scope = .lane then op.guardTags m.free x else op.setTags m.free mems) ∧
        w'.stall = (if slot.isSome then w.stall else m.cycle + 1 + h.stall.toNat) := by
    intro x hx w hxw
    obtain ⟨w0, e0, hlen⟩ := hw x hx
    rw [hxw] at e0; cases e0
    refine ⟨_, h2 x hx w hxw, ?_⟩
    rw [hsc x]
    have := member_registers hop q m.cycle m.ids (if h.scope = .lane then op.guardTags m.free x else op.setTags m.free mems) vs x
      (slot.map (·.1)) ds w hlen
      (by rw [hvs]; exact views_member op mg q b _ _ _ hn hl hx) (hsub x hx)
    rw [Option.isSome_map] at this
    exact this
  set slots' := (match slot with
      | none => b.slots
      | some k => tabMod b.slots k.1 fun x => { x with running := some (m.ids, t.ends m.cycle vs.isEmpty) }) with hslots
  refine ⟨warps, ?_, h1, h1', hmem⟩
  have hready : ∀ x ∈ mems, ∃ w, tabFind warps x.warp = some w ∧ inPlace x.warp warps.cells ∧ w.goesOn := by
    intro x hx
    obtain ⟨w, hxw, hlen⟩ := hw x hx
    obtain ⟨w', a, r, _⟩ := hmem x hx w hxw
    refine ⟨w', a, hp _ (List.mem_map_of_mem hx), ?_⟩
    obtain ⟨k, hk32, hk1⟩ := bitsOf_ne_nil (hg x hx)
    obtain ⟨l, hl'⟩ := laneAt_lt (w := w) (k := k) (by rw [hlen]; exact hk32)
    obtain ⟨l', c, d, _⟩ := r.moved k l hk1 hl'
    exact ⟨k, l', c, by cases slot <;> simp [Lane.goesOn, d, restsIn]⟩
  have hsettle : ∀ sl : Tab Slot, mems.foldl (fun m x => m.settleWarp mg q.bid x.warp)
      ({ m1 with blocks := tabSet m.blocks q.bid { b with warps := warps, slots := sl } } : Mach) =
      { m1 with blocks := tabSet m.blocks q.bid { b with warps := warps, slots := sl } } := by
    intro sl
    exact settleWarps_ready (b := { b with warps := warps, slots := sl }) (by simp) (inPlace_set _ _ _) (fun x : Member => x.warp) mems hready
  have hpairs := spread_pure hop vs m1
  have hst : stopsOf (vs.map fun v => (v, Except.ok ({ outs := resultOf h width coll f vs v } : Done))) = [] := stops_pure vs _
  have hdn : donesOf (vs.map fun v => (v, Except.ok ({ outs := resultOf h width coll f vs v } : Done))) = ds := dones_pure vs _
  have hrun : (op.run (if op.head.scope == .lane || op.coll then vs else vs.take 1) m1).2 = m1 := by rw [hop.runs]
  simp only [Op.perform, ← hvs, hshort, live_all, hop.isReady, hheld, hop.noWring, Bool.not_true, Bool.or_false,
    Bool.false_eq_true, if_false, List.isEmpty_nil, ite_self]
  rw [← hm1]
  simp only [hpairs, hrun, hst, hdn, List.filter_nil, List.append_nil, List.foldl_nil, List.isEmpty_nil, if_true]
  have hif : (if (op.head.scope == Scope.lane) = true then
      op.commit q (m.ctx b.ctx) m.free m.ids mems (op.setTags m.free mems) none ds m1
      else op.commit q (m.ctx b.ctx) m.free m.ids mems (op.setTags m.free mems) (slot.map (·.1)) ds m1) =
      { m1 with blocks := tabSet m.blocks q.bid { b with warps := warps } } := by
    rw [hop.isHead]
    by_cases hs : h.scope = .lane
    · simp only [hs, beq_self_eq_true, if_true]
      rw [hlane hs] at e
      exact e
    · have : (h.scope == Scope.lane) = false := by simpa using hs
      simp only [this, Bool.false_eq_true, if_false]
      exact e
  rw [hif]
  cases slot with
  | none => exact hsettle b.slots
  | some k =>
    simp only [Mach.runSlot, Mach.modBlock, hop.isTiming]
    rw [tabMod_some _ (tabFind_set_same ..)]
    simp only [tabSet_set]
    exact hsettle _

/-! ## At its issue -/

theorem issue_register (hop : RegisterOp op h g width t coll ok srcs f) (i : Instr) (s : State) (q : Issue) (b : Block) (w : Warp)
    (hi : Issuing s q b w) (ho : ownScope h coll) (hr : slotHasRoom h w) (hc : noShort s b w)
    (hk : ∀ x ∈ ok (s.mach.owner b q.warp h.scope), x = true) :
    ∃ w', op.issue i s.mgmt q s.mach = (s.putWarp q b w').mach ∧
      RegistersAfter q (elements s q b w h g width) q.warp q.lanes none w w' h width coll srcs f ∧
      Charged s (elements s q b w h g width) q.warp w w' h t ∧
      w'.flow = w.flow ||| guardMasks s q w g ∧ w'.stall = s.mach.cycle + 1 + h.stall.toNat := by
  have hsc : h.scope = .lane ∨ h.scope = .warp := ho.imp (·.1) id
  have hset : ∀ k, s.mach.setOf b h.scope k = none := fun k => setOf_none hsc
  have hb : s.mach.block? q.bid = some b := hi.block
  have hw : s.mach.warp? q.bid q.warp = some w := by simp [Mach.warp?, hb, hi.warp]
  have hact : op.activeOf s.mach.free w 0 q.lanes = activeLanes s q w h g width := by
    simp only [activeLanes, Op.activeOf, bareOp, hop.isWidth, hop.isGuard]
  have hdel : op.delayed w = false := by
    simp only [Op.delayed, hop.unfenced, Bool.false_and, Bool.false_or, hop.isHead]; exact slotOf_room hr
  have hscope : op.scopeOk s.mach b q.warp = true := by
    simp [Op.scopeOk, hop.isHead, hop.allowed ho, isSet_false hsc]
  set active := activeLanes s q w h g width with hactive
  set mem : Member := ⟨q.warp, 0, q.lanes, active, w⟩ with hmem
  set vs := elements s q b w h g width with hvs
  have hviews : vs = op.views s.mgmt q b (s.mach.gangs b) s.mach.free s.mach.ids [mem] := by
    rw [views_bare, hop.isHead, hop.isGuard, hop.isWidth]; rfl
  have hperf : op.issue i s.mgmt q s.mach = op.perform i s.mgmt q b [mem] none s.mach := by
    simp only [Op.issue, hb, hw, hop.isHead, hset, hdel, hop.checks _ _ hk, hscope, isSet_false hsc, hact, Bool.false_eq_true,
      if_false, Bool.not_true]
    rfl
  have hshort : op.shorts (s.mach.ctx b.ctx) vs [mem] = [] := by
    apply shorts_nil
    refine hc.imp id fun hp => ⟨fun v hv => ?_, fun x hx => ?_⟩
    · obtain ⟨F, e, hF, hFw, _⟩ := views_eq op s.mgmt q b (s.mach.gangs b) s.mach.free s.mach.ids [mem]
      rw [hviews, e] at hv
      obtain ⟨y, hy, rfl⟩ := List.mem_map.1 hv
      have := (laneList_mem hy).1
      simp only [List.mem_singleton] at this
      rw [hFw (by rw [hop.isHead]; exact isSet_false hsc), this]
      exact hp
    · simp only [List.mem_singleton] at hx; subst hx; exact hp
  obtain ⟨warps, e, _, h1, h2⟩ := perform_register hop i s.mgmt q b [mem] none s.mach vs hviews hi.block (fun _ => rfl) (by simp)
    (by simpa [hmem] using ⟨w, hi.warp, hi.lanes⟩) (by simpa [hmem] using hi.lanes) (by simp)
    (by simpa [hmem] using fun k hk => activeOf_sub (hact ▸ hk)) (by simpa [hmem] using hi.some_) hshort hi.quiet
  obtain ⟨w', hw', hr', hws, hfl, hflow, hst⟩ := h2 mem (by simp) w hi.warp
  have hwarps : warps = tabSet b.warps q.warp w' := h1 mem rfl w w' hi.warp hw'
  refine ⟨w', ?_, hr', ⟨hws, hfl⟩, ?_, by simpa using hst⟩
  · rw [hperf, e, hwarps]; rfl
  · have hg : op.guardTags s.mach.free mem = guardMasks s q w g := by
      simp only [Op.guardTags, guardMasks, Op.guardOf, hop.isGuard, hmem, Nat.mul_zero, Nat.zero_add]
    rw [hflow]
    split_ifs
    · rw [hg]
    · have hne : ¬ mem.group = 0 := hi.some_
      simp only [Op.setTags, List.foldl_cons, List.foldl_nil, hg, if_neg hne]
      have : ∀ a c : Mask, a ||| (0 ||| c ||| a) = a ||| c := by
        intro a c; rw [show (0 : Mask) ||| c = c by simp]
        rw [BitVec.or_comm c a, ← BitVec.or_assoc, BitVec.or_self]
      exact this _ _

/-! ## In its rendezvous -/

theorem slotMembers_nodup (m : Mach) (b : Block) (k : Nat) : (m.slotMembers b k).Nodup := by
  unfold Mach.slotMembers
  split_ifs
  · exact List.nodup_range
  · exact bitsOf_nodup _

theorem slotMems_warps {b : Block} {members : List Nat} {sl : Slot} (h : ∀ x ∈ members, ∃ w, tabFind b.warps x = some w) :
    (slotMems b members sl).map (·.warp) = members := by
  unfold slotMems
  rw [List.map_filterMap]
  have : ∀ x ∈ members.zipIdx, ((tabFind b.warps x.1).map fun w =>
      ({ warp := x.1, rank := x.2, group := tabGet sl.groups x.1 0, active := tabGet sl.arrived x.1 0,
         w := { w with s := tabGet sl.scal x.1 w.s, pend := tabGet sl.pend x.1 [] } } : Member)).map (·.warp) = some x.1 := by
    intro x hx
    obtain ⟨w, hw⟩ := h x.1 (List.fst_mem_of_mem_zipIdx hx)
    simp [hw]
  rw [List.filterMap_congr this]
  have : (fun x : Nat × Nat => some x.1) = some ∘ Prod.fst := rfl
  rw [this, List.filterMap_eq_map, List.zipIdx_map_fst]

theorem slotMems_mem {b : Block} {members : List Nat} {sl : Slot} {y : Member} (h : y ∈ slotMems b members sl) :
    y.warp ∈ members ∧ ∃ w, tabFind b.warps y.warp = some w ∧ y.group = tabGet sl.groups y.warp 0 ∧
      y.active = tabGet sl.arrived y.warp 0 ∧ y.w = { w with s := tabGet sl.scal y.warp w.s, pend := tabGet sl.pend y.warp [] } := by
  simp only [slotMems, List.mem_filterMap, Option.map_eq_some_iff] at h
  obtain ⟨x, hx, w, hw, rfl⟩ := h
  exact ⟨List.fst_mem_of_mem_zipIdx hx, w, hw, rfl, rfl, rfl⟩

theorem rendezvous_unheld {s : State} {bid k : Nat} {b : Block} {sl : Slot} {i : Instr} (ha : AtRendezvous s bid k b sl i) :
    ∀ x ∈ s.mach.slotMembers b k, s.mach.held bid x = false := by
  intro x hx
  obtain ⟨w, _, hw, _, hs, _⟩ := ha.members x hx
  have hb : s.mach.block? bid = some b := ha.block
  simp [Mach.held, Mach.warp?, hb, hw, hs]

theorem rendezvous_register (hop : RegisterOp op h g width t coll ok srcs f) {i : Instr} (ho : opOf i = some op) :
    ComputesAtRendezvous i h g width t coll srcs f := by
  intro s bid k b sl ha hset hc
  obtain ⟨t0, hstart, ht0⟩ := ha.start
  have hfind : ∀ x ∈ s.mach.slotMembers b k, ∃ w, tabFind b.warps x = some w := fun x hx => by
    obtain ⟨w, _, e, _⟩ := ha.members x hx; exact ⟨w, e⟩
  set members := s.mach.slotMembers b k with hmembers
  set mems := slotMems b members sl with hmems
  have hwarps : mems.map (·.warp) = members := slotMems_warps hfind
  have hgroup : ∀ x ∈ mems, ∃ w g, tabFind b.warps x.warp = some w ∧ w.lanes.length = 32 ∧ x.group = g ∧ g ≠ 0 ∧
      (∀ j, x.active.getLsbD j = true → g.getLsbD j = true) ∧ x.w.lanes.length = 32 ∧ x.w.pend = tabGet sl.pend x.warp [] := by
    intro x hx
    obtain ⟨hm, w, hw, hg, hact, hxw⟩ := slotMems_mem hx
    obtain ⟨w', g, e, hlen, _, hgr, hg0, hsub⟩ := ha.members x.warp hm
    rw [hw] at e; cases e
    have hgg : x.group = g := by rw [hg, tabGet, hgr]; rfl
    exact ⟨w, g, hw, hlen, hgg, hg0, by rw [hact]; exact hsub, by rw [hxw]; exact hlen, by rw [hxw]⟩
  have hne : members ≠ [] := fun e => by
    have h0 : sl.issue.warp ∈ members := ha.issuer
    rw [e] at h0; cases h0
  have hne' : mems ≠ [] := fun e => hne (by rw [← hwarps, e]; rfl)
  set vs := setElements s b k sl h g width with hvs
  have hviews : vs = op.views s.mgmt sl.issue b (s.mach.gangs b) s.mach.free s.mach.ids mems := by
    rw [views_bare, hop.isHead, hop.isGuard, hop.isWidth]; rfl
  have hshort : op.shorts (s.mach.ctx b.ctx) vs mems = [] := by
    apply shorts_nil
    refine hc.imp id fun hp => ?_
    have hmp : ∀ x ∈ mems, x.w.pend = [] := fun x hx => by
      obtain ⟨_, _, _, _, _, _, _, _, e⟩ := hgroup x hx; rw [e]; exact hp _
    refine ⟨fun v hv => ?_, hmp⟩
    obtain ⟨F, e, hF, _, hFp⟩ := views_eq op s.mgmt sl.issue b (s.mach.gangs b) s.mach.free s.mach.ids mems
    rw [hviews, e] at hv
    obtain ⟨y, hy, rfl⟩ := List.mem_map.1 hv
    exact hFp hmp y (hmp _ (laneList_mem hy).1)
  have hblock : tabFind s.mach.blocks sl.issue.bid = some b := by rw [ha.bid]; exact ha.block
  have hlane : h.scope ≠ .lane := fun e => by rw [e] at hset; cases hset
  obtain ⟨warps, e, h1, _, h2⟩ := perform_register hop sl.instr s.mgmt sl.issue b mems (some (k, members)) s.mach vs hviews hblock
    (fun e => absurd e hlane) (by rw [hwarps]; exact slotMembers_nodup ..)
    (fun x hx => by obtain ⟨w, _, a, c, _⟩ := hgroup x hx; exact ⟨w, a, c⟩)
    (fun x hx => by obtain ⟨_, _, _, _, _, _, _, c, _⟩ := hgroup x hx; exact c) hne'
    (fun x hx => by obtain ⟨_, _, _, _, a, _, c, _⟩ := hgroup x hx; rw [a]; exact c)
    (fun x hx => by obtain ⟨_, _, _, _, a, c, _⟩ := hgroup x hx; rw [a]; exact c) hshort ha.quiet
  refine ⟨warps, ?_, fun x hx => h1 x (by rw [hwarps]; exact hx), ?_⟩
  · have hex : (s.mach.rendezvousExecute s.mgmt bid k) = op.rendezvous s.mgmt b k sl s.mach := by
      unfold Mach.rendezvousExecute
      have hb : s.mach.block? bid = some b := ha.block
      simp only [hb, ha.slot, hstart, ha.instr, ho, ha.free.1, ha.free.2, ha.resident, ha.wrings, List.any_nil, Bool.or_false, Bool.not_true,
        Option.isSome_none]
      rw [if_neg]
      simp only [Bool.or_eq_true, decide_eq_true_eq, not_or]
      exact ⟨by simpa using ht0, by simpa [List.any_eq_true] using rendezvous_unheld ha⟩
    simp only [exec, execRendezvousExecute, onEvent, ha.awake, if_true, hex, Op.rendezvous, ← hmembers]
    rw [e, ha.bid]
    simp only [tabMod_some _ ha.slot]
    rfl
  · intro x hx w hw
    obtain ⟨y, hy, rfl⟩ := List.mem_map.1 (hwarps ▸ hx : x ∈ mems.map (·.warp))
    obtain ⟨w', hw', hr', hws, hfl, hflow, hst⟩ := h2 y hy w hw
    obtain ⟨_, _, _, hgr, _⟩ := slotMems_mem hy
    refine ⟨w', hw', hgr ▸ hr', ⟨hws, hfl⟩, ?_, by simpa using hst⟩
    rw [hflow, if_neg hlane]
    simp only [setMasks, Op.setTags, Op.guardTags, Op.guardOf, hop.isGuard]
    rfl

/-- The form in which the statements about instructions cite it. -/
theorem computes_of (hop : RegisterOp op h g width t coll ok srcs f) {i : Instr} (he : ∀ s, exec i s = issueOp i op s)
    (ho : opOf i = some op) : ComputesRegisters i h g width t coll ok srcs f := by
  refine ⟨?_, rendezvous_register hop ho⟩
  intro s q b w hi hsc hr hc hk
  obtain ⟨w', e, hw⟩ := issue_register hop i s q b w hi hsc hr hc hk
  refine ⟨w', ?_, hw⟩
  rw [he]
  simp only [issueOp, onIssue, hi.issue, e]
  rfl

/-! ## The two shapes -/

theorem firstBad_none {l : List (Nat × Bool)} (h : ∀ x ∈ l.map (·.2), x = true) : firstBad l = none := by
  induction l with
  | nil => rfl
  | cons x r ih =>
    obtain ⟨p, o⟩ := x
    have : o = true := h o (by simp)
    subst this
    simp only [firstBad, if_true]
    exact ih fun y hy => h y (by simp [List.map_cons, hy])

theorem pureOp_register (h : Head) (g : Guard) (t : Timing) (ht : t ≠ .atIssue ∧ t ≠ .open_) (check : Owner → List (Nat × Bool))
    (srcs : List Src) (f : View → List Out) :
    RegisterOp (pureOp h g t check srcs f) h g 32 t false (fun ow => (check ow).map (·.2)) srcs (fun _ v => f v) :=
  { isHead := rfl, isGuard := rfl, isWidth := rfl, unfenced := rfl, isColl := rfl, isTiming := rfl, timed := ht, flows := rfl
    allowed := fun _ => by cases h.scope <;> rfl
    checks := fun _ _ hx => firstBad_none hx
    sources := fun _ => rfl, isReady := fun _ _ => rfl, noWring := fun _ _ => rfl, runs := fun _ _ => rfl, each := fun _ _ _ _ => rfl }

/-- The same with the guard read at an element width (R85). -/
theorem packOp_register (h : Head) (g : Guard) (width : Nat) (t : Timing) (ht : t ≠ .atIssue ∧ t ≠ .open_)
    (check : Owner → List (Nat × Bool)) (srcs : List Src) (f : View → List Out) :
    RegisterOp { pureOp h g t check srcs f with width := width } h g width t false (fun ow => (check ow).map (·.2)) srcs
      (fun _ v => f v) :=
  { pureOp_register h g t ht check srcs f with isWidth := rfl }

theorem crossOp_register (h : Head) (g : Guard) (sc : Scopes) (hs : sc.warp = true) (check : Owner → List (Nat × Bool))
    (srcs : List Src) (f : List View → View → List Out) :
    RegisterOp (crossOp h g sc check srcs f) h g 32 .later true (fun ow => (check ow).map (·.2)) srcs f :=
  { isHead := rfl, isGuard := rfl, isWidth := rfl, unfenced := rfl, isColl := rfl, isTiming := rfl
    timed := ⟨by simp, by simp⟩, flows := rfl
    allowed := fun ho => by
      rcases ho with ⟨_, hc⟩ | hw
      · cases hc
      · simp only [crossOp, hw, permitted, hs]
    checks := fun _ _ hx => firstBad_none hx
    sources := fun _ => rfl, isReady := fun _ _ => rfl, noWring := fun _ _ => rfl, runs := fun _ _ => rfl
    each := fun hc => by cases hc }

end Sys2Proof.Machine
end

