-- ==== Sys2Proof/Laws/EffectLaw.lean ====
section
/-! SUPPORT. The law that the statements about instructions with effects cite: an operation whose acting elements succeed
completes at its issue, or in its rendezvous, with the machine that its effects leave and its member warps changed as said. -/

namespace Sys2Proof.Machine

/-- An operation and what its acting elements do. -/
structure EffectOp (op : Op) (h : Head) (g : Guard) (t : Timing) (coll fenced flows : Bool) (sc : Scopes)
    (ok : Owner → Ctx → Prop) (srcs : Ctx → List Src) (free : List View → Mach → Prop)
    (act : List View → Mach → Option (List Done × Mach)) : Prop where
  isHead   : op.head = h
  isGuard  : op.guard = g
  isWidth  : op.width = 32
  isFenced : op.fenced = fenced
  isColl   : op.coll = coll
  isTiming : op.timing = t
  flows_   : op.flow = flows
  isScopes : op.scopes = sc
  checks   : ∀ ow c, ok ow c → op.check ow c = none
  sources  : ∀ c, op.srcs c = srcs c
  isReady  : ∀ vs m, free vs m → op.ready vs m = true
  noWring  : ∀ vs m, free vs m → op.wring vs m = []
  runs     : ∀ vs m ds m', act vs m = some (ds, m') → op.run vs m = (ds.map .ok, m')
  sized    : ∀ vs m ds m', act vs m = some (ds, m') → ds.length = vs.length

variable {op : Op} {h : Head} {g : Guard} {t : Timing} {coll fenced flows : Bool} {sc : Scopes}
  {ok : Owner → Ctx → Prop} {srcs : Ctx → List Src} {free : List View → Mach → Prop}
  {act : List View → Mach → Option (List Done × Mach)}

/-! ## Parts -/

theorem zip_map_ok (vs : List View) (ds : List Done) :
    vs.zip (ds.map (Except.ok (ε := Stop))) = (vs.zip ds).map fun x => (x.1, .ok x.2) := by
  induction vs generalizing ds with
  | nil => rfl
  | cons v r ih => cases ds <;> simp_all

theorem handed_eq (hop : EffectOp op h g t coll fenced flows sc ok srcs free act) (vs : List View) :
    (if (op.head.scope == .lane || op.coll) = true then vs else vs.take 1) = acting h coll vs := by
  rw [hop.isHead, hop.isColl, acting]
  by_cases hs : h.scope = .lane <;> cases coll <;> simp [hs]

/-- Of an instruction on whole words an element takes all of an effect. -/
theorem taken_whole (hw : op.width = 32) (v : View) (e : Effect) : op.taken v e = e := by
  cases e with
  | error s => rfl
  | ok d =>
    have : d.outs.map (v.part 32) = d.outs := (List.map_congr_left fun o _ => by simp [View.part]).trans (List.map_id _)
    simp [Op.taken, hw, this]

theorem spread_parts (hop : EffectOp op h g t coll fenced flows sc ok srcs free act) (vs : List View) (ds : List Done) :
    op.spread vs (ds.map .ok) = (partsFor h coll vs ds).map fun x => (x.1, .ok x.2) := by
  have ht (v : View) (e : Effect) : op.taken v e = e := taken_whole hop.isWidth v e
  simp only [Op.spread, hop.isHead, hop.isColl, partsFor, ht, List.map_id']
  by_cases hs : h.scope = .lane ∨ coll = true
  · have e2 : (decide (h.scope = Scope.lane) || coll) = true := by rcases hs with hs | hs <;> simp [hs]
    simp only [e2, if_true, if_pos hs, zip_map_ok]
  · have e2 : (decide (h.scope = Scope.lane) || coll) = false := by
      push Not at hs; simp [hs.1]; simpa using hs.2
    simp only [e2, Bool.false_eq_true, if_false, if_neg hs]
    cases ds with
    | nil => rfl
    | cons d r => cases vs <;> simp

theorem stops_parts (ps : List (View × Done)) : stopsOf (ps.map fun x => (x.1, .ok x.2)) = [] := by simp [stopsOf]
theorem dones_parts (ps : List (View × Done)) : donesOf (ps.map fun x => (x.1, .ok x.2)) = ps := by
  simp [donesOf, List.filterMap_map]

theorem sourceTag_parts (hop : EffectOp op h g t coll fenced flows sc ok srcs free act) (c : Ctx) (ps : List (View × Done))
    (v : View) : op.sourceTag c ps v = partMask h coll (srcs c) ps v := by
  simp only [Op.sourceTag, partMask, hop.isHead, hop.sources, hop.isColl]
  split_ifs
  · rfl
  · rfl
  · cases ps <;> rfl

theorem partsFor_warp {vs : List View} {ds : List Done} {x : View × Done} (hx : x ∈ partsFor h coll vs ds) : x.1 ∈ vs := by
  unfold partsFor at hx
  split_ifs at hx
  · exact (List.of_mem_zip hx).1
  · cases ds with
    | nil => cases hx
    | cons d r =>
      obtain ⟨v, hv, rfl⟩ := List.mem_map.1 hx
      exact hv

theorem zip_fst_sublist {α β : Type} (a : List α) (b : List β) : ((a.zip b).map Prod.fst).Sublist a := by
  induction a generalizing b with
  | nil => simp
  | cons x r ih => cases b with
    | nil => simp
    | cons y s => simpa using ih s

theorem partsFor_sublist (vs : List View) (ds : List Done) : ((partsFor h coll vs ds).map Prod.fst).Sublist vs := by
  unfold partsFor
  split_ifs
  · exact zip_fst_sublist vs ds
  · cases ds with
    | nil => simp
    | cons d r => simp [Function.comp_def]

theorem partsFor_all {vs : List View} {ds : List Done} (hd : ds.length = (acting h coll vs).length) :
    (partsFor h coll vs ds).map Prod.fst = vs := by
  unfold acting at hd
  unfold partsFor
  split_ifs at hd ⊢
  · exact List.map_fst_zip (by omega)
  · cases ds with
    | nil => cases vs <;> simp_all
    | cons d r => simp [Function.comp_def]

/-! ## A member warp -/

def partOf (h : Head) (coll : Bool) (srcs : List Src) (ps : List (View × Done)) (x : View × Done) : Part :=
  ⟨x.1.lane, partMask h coll srcs ps x.1, x.1.base, x.2⟩

def memberParts (h : Head) (coll : Bool) (srcs : List Src) (ps : List (View × Done)) (k : Nat) : List Part :=
  (ps.filter fun x => x.1.warp == k).map (partOf h coll srcs ps)

def leadPart (h : Head) (coll : Bool) (srcs : List Src) (ps : List (View × Done)) : Option Part :=
  if h.scope = .lane then none else ps.head?.map (partOf h coll srcs ps)

/-- The leader's scalar results, and the scalars it owes. -/
def leadWrites (id : Nat) (lead : Option Part) (es : List Part) (w : Warp) : Warp :=
  match lead with
  | none => w
  | some e => if es.isEmpty then w
    else (e.d.owed.filter fun o => isS o.1).foldl (owe id 0)
      ((e.d.outs.filter fun o => isS o.dst).foldl (writeOut id 0 (e.tag ||| e.d.tag) e.base) w)

def leadHolds (lead : Option Part) (es : List Part) (n : Nat) (x : Reg) : Reg :=
  match lead with
  | none => x
  | some e => if es.isEmpty then x else written 0 (e.tag ||| e.d.tag) e.base (.s n) x e.d.outs

theorem owe_scalars (id : Nat) (os : List (Operand × Nat)) (w : Warp) (hS : ∀ o ∈ os, isS o.1 = true) :
    (os.foldl (owe id 0) w).lanes = w.lanes := by
  induction os generalizing w with
  | nil => rfl
  | cons o r ih =>
    rw [List.foldl_cons, ih _ fun x hx => hS x (by simp [hx])]
    have := hS o (by simp)
    cases e : o.1 with
    | s n => simp [owe, e, regOf, Warp.write, Warp.setReg]
    | v _ | p _ | a _ | zero | laneId | warpId | gangId | blockId | coreId | clusId | ones | bad _ =>
      rw [e] at this; cases this

theorem leadWrites_holds (id : Nat) (lead : Option Part) (es : List Part) (w w' : Warp) (h0 : 0 < w.lanes.length)
    (hw : leadWrites id lead es w = w') :
    (∀ n, w'.getReg (.s n) = leadHolds lead es n (w.getReg (.s n))) ∧ w'.lanes = w.lanes ∧ w.sameRest w' ∧ keepsPend w w' := by
  subst hw
  unfold leadWrites leadHolds
  cases lead with
  | none => exact ⟨fun _ => rfl, rfl, rfl, keepsPend_refl w⟩
  | some e =>
    simp only
    split_ifs with hs
    · exact ⟨fun _ => rfl, rfl, rfl, keepsPend_refl w⟩
    · have hw := wrote_all id 0 (e.tag ||| e.d.tag) e.base (e.d.outs.filter fun o => isS o.dst) w h0
      have hp := writeOut_pend id 0 (e.tag ||| e.d.tag) e.base (e.d.outs.filter fun o => isS o.dst) w
      have hl := lanes_scalars id 0 (e.tag ||| e.d.tag) e.base (e.d.outs.filter fun o => isS o.dst) w
        fun o ho => (List.mem_filter.1 ho).2
      generalize (e.d.outs.filter fun o => isS o.dst).foldl (writeOut id 0 (e.tag ||| e.d.tag) e.base) w = w1 at hw hp hl
      have ho := owed_all id 0 (e.d.owed.filter fun o => isS o.1) w1 (by rw [hl]; exact h0)
      refine ⟨fun n => ?_, ?_, Warp.sameRest_trans hw.rest ho.rest, keepsPend_trans hp ho.pend⟩
      · rw [ho.regs (.s n) trivial, hw.regs (.s n) trivial]
        exact written_filter _ _ _ _ _ _ _ fun o ho => isS_of_regOf ho
      · rw [owe_scalars _ _ _ fun o ho => (List.mem_filter.1 ho).2, hl]

/-- A member warp after its parts, before what it is charged. -/
def afterParts (q : Issue) (now id : Nat) (flows : Bool) (fl : Mask) (group active : LaneMask) (lead : Option Part)
    (es : List Part) (w : Warp) : Warp :=
  es.foldl (commitPart q now id)
    (leadWrites id lead es (advanceIdle q now group active (if flows then { w with flow := w.flow ||| fl } else w)))

structure PartsAfter (q : Issue) (id : Nat) (fl : Mask) (group : LaneMask) (lead : Option Part) (es : List Part) (w w' : Warp) :
    Prop where
  regs : ∀ e ∈ es, ∀ r : RegName, r.ofLane e.lane →
    w'.getReg r = written e.lane (e.tag ||| e.d.tag) e.base r (w.getReg r) e.d.outs
  idle : ∀ k, (∀ e ∈ es, e.lane ≠ k) → ∀ r : RegName, r.ofLane k → w'.getReg r = w.getReg r
  scal : ∀ n, w'.getReg (.s n) = leadHolds lead es n (w.getReg (.s n))
  went : ∀ e ∈ es, wentOn q w w' e.lane e.d
  passed : ∀ k l, group.getLsbD k = true → (∀ e ∈ es, e.lane ≠ k) → laneAt w k = some l →
    ∃ l', laneAt w' k = some l' ∧ l'.st = .ready ∧ l'.pc = q.seqPc ∧ l.keeps l'
  others : ∀ k, group.getLsbD k = false → laneAt w' k = laneAt w k
  length : w'.lanes.length = w.lanes.length
  flow : w'.flow = es.foldl (fun t e => t ||| e.d.flow) (w.flow ||| fl)
  stays : (∀ e ∈ es, exits e.d = false) → w'.exitm = w.exitm
  leaves : (∃ e ∈ es, exits e.d = true) → (∀ e ∈ es, e.d.flow = 0) → w'.exitm = w.exitm ||| (w.flow ||| fl)
  rest : w.sameCore w'
  pend : keepsPend w w'
  owes : ∀ e ∈ es, ∀ o ∈ e.d.owed, isS o.1 = false → ∀ r, regOf e.lane o.1 o.2 = some r → ∃ p ∈ w'.pend, p.id = id ∧ p.reg = r

theorem afterParts_holds (q : Issue) (now id : Nat) (flows : Bool) (fl : Mask) (group active : LaneMask) (lead : Option Part)
    (es : List Part) (w : Warp) (hlen : w.lanes.length = 32) (hn : (es.map (·.lane)).Nodup)
    (hact : ∀ e ∈ es, e.lane < 32 ∧ active.getLsbD e.lane = true)
    (hall : ∀ k, active.getLsbD k = true → k < 32 → ∃ e ∈ es, e.lane = k)
    (hsub : ∀ k, active.getLsbD k = true → group.getLsbD k = true) :
    PartsAfter q id (if flows then fl else 0) group lead es w (afterParts q now id flows fl group active lead es w) := by
  generalize hw0 : (if flows then { w with flow := w.flow ||| fl } else w) = w0
  have f0 : w0.lanes = w.lanes ∧ w0.s = w.s ∧ w0.exitm = w.exitm ∧ w0.flow = w.flow ||| (if flows then fl else 0) ∧
      w0.pend = w.pend ∧ w.sameCore w0 := by
    rw [← hw0]; cases flows <;> simp [Warp.sameCore]
  generalize hw1 : advanceIdle q now group active w0 = w1
  have len1 : w1.lanes.length = w.lanes.length := by rw [← hw1, advanceIdle, modLanes_length, f0.1]
  have reg1 : ∀ r, w1.getReg r = w.getReg r := by
    intro r
    rw [← hw1, advanceIdle, getReg_modLanes]
    · exact getReg_congr f0.1 f0.2.1 r
    · intro i l; split_ifs <;> simp [moveLane, Lane.readyAt]
    · intro i l; split_ifs <;> simp [moveLane, Lane.readyAt]
  have lane1 : ∀ k, laneAt w1 k = (laneAt w k).map fun l =>
      if (group.getLsbD k && !active.getLsbD k) = true then moveLane q now .seq l else l := by
    intro k
    rw [← hw1, advanceIdle, laneAt_modLanes]
    simp only [laneAt, f0.1]
  have rest1 : w.sameCore w1 ∧ w1.flow = w.flow ||| (if flows then fl else 0) ∧ w1.exitm = w.exitm ∧ w1.pend = w.pend := by
    refine ⟨?_, ?_, ?_, ?_⟩
    · refine Warp.sameCore_trans f0.2.2.2.2.2 ?_
      rw [← hw1]; rfl
    · rw [← hw1]; exact f0.2.2.2.1
    · rw [← hw1]; exact f0.2.2.1
    · rw [← hw1]; exact f0.2.2.2.2.1
  generalize hw2 : leadWrites id lead es w1 = w2
  have h0 : 0 < w1.lanes.length := by rw [len1, hlen]; decide
  obtain ⟨scal2, lanes2, rest2, pend2⟩ := leadWrites_holds id lead es w1 w2 h0 hw2
  simp only [reg1] at scal2
  have len2 : w2.lanes.length = w.lanes.length := by rw [lanes2, len1]
  have reg2 : ∀ k, ∀ r : RegName, r.ofLane k → w2.getReg r = w.getReg r := by
    intro k r hr
    rw [← reg1]
    cases r <;> simp_all [RegName.ofLane, Warp.getReg, laneAt]
  have hlane2 : ∀ k, laneAt w2 k = laneAt w1 k := fun k => by rw [laneAt, lanes2, ← laneAt]
  have h3 := commitParts q now id es w2 hn fun e he => by rw [len2, hlen]; exact (hact e he).1
  have hdef : afterParts q now id flows fl group active lead es w = es.foldl (commitPart q now id) w2 := by
    rw [← hw2, ← hw1, ← hw0]; rfl
  rw [hdef]
  have flow2 : w2.flow = w1.flow := by have e := congrArg Warp.flow rest2; exact e
  have exit2 : w2.exitm = w1.exitm := by have e := congrArg Warp.exitm rest2; exact e
  have inact : ∀ k, (∀ e ∈ es, e.lane ≠ k) → k < 32 → active.getLsbD k = false := by
    intro k hk hk32
    cases e : active.getLsbD k with
    | false => rfl
    | true =>
      obtain ⟨x, hx, rfl⟩ := hall k e hk32
      exact absurd rfl (hk x hx)
  refine ⟨?_, ?_, ?_, ?_, ?_, ?_, ?_, ?_, ?_, ?_, ?_, ?_, ?_⟩
  · intro e he r hr
    rw [h3.regs e he r hr, reg2 e.lane r hr]
  · intro k hk r hr
    by_cases hk32 : k < 32
    · rw [h3.idle k (by rw [len2, hlen]; exact hk32) hk r hr, reg2 k r hr]
    · rw [laneless (w := w) (by rw [hlen]; exact hk32) hr, laneless (by rw [h3.length, len2, hlen]; exact hk32) hr]
  · intro n; rw [h3.scal, scal2]
  · intro e he l hl
    refine h3.went e he l ?_
    rw [hlane2, lane1]
    simp [hl, (hact e he).2]
  · intro k l hk hne hl
    have hk32 : k < 32 := by
      by_contra hc
      rw [BitVec.getLsbD_of_ge _ _ (by omega)] at hk; cases hk
    rw [h3.other k hne, hlane2, lane1]
    refine ⟨moveLane q now .seq l, by simp [hl, hk, inact k hne hk32], rfl, rfl, ?_⟩
    rw [Lane.keeps_iff]
    exact ⟨rfl, rfl, rfl, rfl⟩
  · intro k hk
    have ha' : active.getLsbD k = false := by
      cases e : active.getLsbD k with
      | false => rfl
      | true => rw [hsub k e] at hk; cases hk
    have hne : ∀ e ∈ es, e.lane ≠ k := fun e he x => by
      have := (hact e he).2; rw [x, ha'] at this; cases this
    rw [h3.other k hne, hlane2, lane1]
    cases laneAt w k <;> simp [hk]
  · rw [h3.length, len2]
  · rw [h3.flow, flow2, rest1.2.1]
  · intro he; rw [h3.stays he, exit2, rest1.2.2.1]
  · intro he hz; rw [h3.leaves he hz, exit2, rest1.2.2.1, flow2, rest1.2.1]
  · exact Warp.sameCore_trans (Warp.sameCore_trans rest1.1 (Warp.sameCore_of_rest rest2)) h3.rest
  · exact keepsPend_trans (keepsPend_trans (keepsPend_of_eq rest1.2.2.2) pend2) h3.pend
  · exact h3.owes

/-- One member warp after the commit. -/
def memberDone (op : Op) (q : Issue) (now id : Nat) (fl : Mask) (lead : Option Part) (es : List Part) (mem : Member) (w : Warp) :
    Warp :=
  let w' := afterParts q now id op.flow fl mem.group mem.active lead es w
  if es = [] then w' else startFlight op now id (es.any fun e => !e.d.outs.isEmpty || !e.d.owed.isEmpty) (es.all fun e => e.d.closed) w'

theorem commitMember_parts (q : Issue) (now id : Nat) (fl : Mask) (mem : Member) (lead : Option Part) (es : List Part) (w : Warp) :
    commitMember op q now id fl mem (lead.map fun e => (e.tag, e.base, e.d))
        (es.map fun e => (e.lane, e.tag, e.base, e.d)) w = memberDone op q now id fl lead es mem w := by
  have hany : (es.map fun e : Part => (e.lane, e.tag, e.base, e.d)).any
      (fun r => !r.2.2.2.outs.isEmpty || !r.2.2.2.owed.isEmpty) = es.any fun e => !e.d.outs.isEmpty || !e.d.owed.isEmpty := by
    simp [List.any_map, Function.comp_def]
  have hclosed : (es.map fun e : Part => (e.lane, e.tag, e.base, e.d)).all (fun r => r.2.2.2.closed) = es.all fun e => e.d.closed := by
    simp [List.all_map, Function.comp_def]
  have hemp : (es.map fun e : Part => (e.lane, e.tag, e.base, e.d)).isEmpty = es.isEmpty := by cases es <;> rfl
  have hfold : ∀ w : Warp, (es.map fun e : Part => (e.lane, e.tag, e.base, e.d)).foldl
      (fun w x => commitLane q now id x.1 x.2.1 x.2.2.1 x.2.2.2 w) w = es.foldl (commitPart q now id) w := by
    intro w; rw [List.foldl_map]; rfl
  simp only [commitMember, hany, hclosed, hemp, hfold]
  cases lead with
  | none => cases es <;> simp [memberDone, afterParts, leadWrites]
  | some x => cases es <;> simp [memberDone, afterParts, leadWrites]

/-- The commit of an execution: the members' warps are all it changes. -/
theorem commit_parts (hop : EffectOp op h g t coll fenced flows sc ok srcs free act) (q : Issue) (c : Ctx) (n id : Nat)
    (mems : List Member) (flow : Mask) (slot : Option Nat) (ps : List (View × Done)) (m : Mach) (b : Block)
    (hb : tabFind m.blocks q.bid = some b) (hn : (mems.map (·.warp)).Nodup)
    (hw : ∀ x ∈ mems, ∃ w, tabFind b.warps x.warp = some w) (hne : mems ≠ []) :
    ∃ warps, op.commit q c n id mems flow slot ps m =
        { m with blocks := tabSet m.blocks q.bid { b with warps := warps } } ∧
      (∀ k, k ∉ mems.map (·.warp) → tabFind warps k = tabFind b.warps k) ∧
      (∀ k ∈ mems.map (·.warp), inPlace k warps.cells) ∧
      (∀ x, mems = [x] → ∀ w w', tabFind b.warps x.warp = some w → tabFind warps x.warp = some w' →
        warps = tabSet b.warps x.warp w') ∧
      ∀ x ∈ mems, ∀ w, tabFind b.warps x.warp = some w → tabFind warps x.warp =
        some (charge op q m.cycle slot x.group ps
          (memberDone op q m.cycle id (if op.head.scope == .lane then op.guardTags n x else flow) (leadPart h coll (srcs c) ps)
            (memberParts h coll (srcs c) ps x.warp) x w)) := by
  have hlead : (if op.head.scope == .lane then none else ps.head?.map fun x => (op.sourceTag c ps x.1, x.1.base, x.2)) =
      (leadPart h coll (srcs c) ps).map fun e => (e.tag, e.base, e.d) := by
    rw [hop.isHead]
    by_cases hs : h.scope = .lane
    · simp [hs, leadPart]
    · have hs' : (h.scope == Scope.lane) = false := by simpa using hs
      simp only [hs', Bool.false_eq_true, if_false, leadPart, if_neg hs]
      cases ps with
      | nil => rfl
      | cons x r => simp [partOf, sourceTag_parts hop]
  have hres : ∀ x, ((ps.filter fun y => y.1.warp == x).map fun y => (y.1.lane, op.sourceTag c ps y.1, y.1.base, y.2)) =
      (memberParts h coll (srcs c) ps x).map fun e => (e.lane, e.tag, e.base, e.d) := by
    intro x
    rw [memberParts, List.map_map]
    apply List.map_congr_left
    intro v _
    simp only [Function.comp_apply, partOf, sourceTag_parts hop]
  obtain ⟨warps, e, h1, h2, h3, h4⟩ := modWarps_fold (fun x : Member => x.warp)
    (fun x w => charge op q m.cycle slot x.group ps (memberDone op q m.cycle id
      (if op.head.scope == .lane then op.guardTags n x else flow) (leadPart h coll (srcs c) ps)
      (memberParts h coll (srcs c) ps x.warp) x w)) q.bid mems m b hb hn hw hne
  refine ⟨warps, ?_, h1, fun k hk => h3 k (.inr hk), fun x hx w w' a c => ?_, h2⟩
  swap
  · have e' := h4 x hx w a
    rw [e'] at c ⊢
    rw [tabFind_set_same] at c
    cases c
    rfl
  rw [← e]
  simp only [Op.commit]
  have hfold : ∀ (l : List Member) (m' : Mach), m'.cycle = m.cycle →
      l.foldl (fun m x => m.modWarp q.bid x.warp fun w =>
        charge op q m.cycle slot x.group ps (commitMember op q m.cycle id
            (if (op.head.scope == Scope.lane) = true then op.guardTags n x else flow) x
            (if (op.head.scope == Scope.lane) = true then none else ps.head?.map fun x => (op.sourceTag c ps x.1, x.1.base, x.2))
            ((ps.filter fun y => y.1.warp == x.warp).map fun y => (y.1.lane, op.sourceTag c ps y.1, y.1.base, y.2)) w)) m' =
      l.foldl (fun m' x => m'.modWarp q.bid x.warp fun w => charge op q m.cycle slot x.group ps (memberDone op q m.cycle id
        (if op.head.scope == .lane then op.guardTags n x else flow) (leadPart h coll (srcs c) ps)
        (memberParts h coll (srcs c) ps x.warp) x w)) m' := by
    intro l
    induction l with
    | nil => intro _ _; rfl
    | cons x l ih =>
      intro m' hm'
      simp only [List.foldl_cons]
      rw [ih _ (by simpa using hm')]
      congr 1
      simp only [hm', hlead, hres, commitMember_parts]
  exact hfold mems m rfl

/-- What the statements say of a member follows. -/
theorem member_effects (hop : EffectOp op h g t coll fenced flows sc ok srcs free act) (s : State) (q : Issue) (c : Ctx)
    (fl : Mask) (ps : List (View × Done)) (mem : Member) (slot : Option Nat) (w : Warp) (hlen : w.lanes.length = 32)
    (hv : ((ps.map Prod.fst).filter fun v => v.warp == mem.warp).map (·.lane) = bitsOf mem.active)
    (hsub : ∀ k, mem.active.getLsbD k = true → mem.group.getLsbD k = true) :
    let w' := charge op q s.mach.cycle slot mem.group ps (memberDone op q s.mach.cycle s.mach.ids fl (leadPart h coll (srcs c) ps)
      (memberParts h coll (srcs c) ps mem.warp) mem w)
    EffectAfter q ps mem.warp mem.group slot w w' h coll (srcs c) ∧
      EffectCharged s ps mem.warp w w' h t (if flows then fl else 0) ∧
      w'.stall = (if slot.isSome then w.stall else s.mach.cycle + 1 + h.stall.toNat) := by
  intro w'
  set now := s.mach.cycle with hnow
  set id := s.mach.ids with hid
  set es := memberParts h coll (srcs c) ps mem.warp with hes
  set lead := leadPart h coll (srcs c) ps with hlead
  have hlanes : es.map (·.lane) = bitsOf mem.active := by
    rw [← hv, hes, memberParts, List.map_map, List.filter_map, List.map_map]; rfl
  have hact : ∀ e ∈ es, e.lane < 32 ∧ mem.active.getLsbD e.lane = true := fun e he =>
    mem_bitsOf.1 (hlanes ▸ List.mem_map_of_mem he)
  have hall : ∀ k, mem.active.getLsbD k = true → k < 32 → ∃ e ∈ es, e.lane = k := fun k hk hk32 => by
    have : k ∈ es.map (·.lane) := by rw [hlanes]; exact mem_bitsOf.2 ⟨hk32, hk⟩
    obtain ⟨e, he, rfl⟩ := List.mem_map.1 this
    exact ⟨e, he, rfl⟩
  have hn : (es.map (·.lane)).Nodup := by rw [hlanes]; exact bitsOf_nodup _
  have hla := afterParts_holds q now id flows fl mem.group mem.active lead es w hlen hn hact hall hsub
  set w0 := afterParts q now id flows fl mem.group mem.active lead es w with hw0
  have hw0' : afterParts q now id op.flow fl mem.group mem.active lead es w = w0 := by rw [hop.flows_]
  set w1 := (if es = [] then w0 else startFlight op now id (es.any fun e => !e.d.outs.isEmpty || !e.d.owed.isEmpty)
    (es.all fun e => e.d.closed) w0) with hw1
  have hw' : w' = charge op q now slot mem.group ps w1 := by
    rw [hw1, ← hw0']; rfl
  obtain ⟨hcreg, hcother, hcgroup, hcrest, hcstall⟩ := charge_holds op q now slot mem.group ps w1
  rw [← hw'] at hcreg hcother hcgroup hcrest hcstall
  have hcfields : w'.ws = w1.ws ∧ w'.flights = w1.flights ∧ w'.flow = w1.flow ∧ w'.exitm = w1.exitm ∧ w'.pend = w1.pend :=
    ⟨by have e := congrArg Warp.ws hcrest; exact e, by have e := congrArg Warp.flights hcrest; exact e,
      by have e := congrArg Warp.flow hcrest; exact e, by have e := congrArg Warp.exitm hcrest; exact e,
      by have e := congrArg Warp.pend hcrest; exact e⟩
  have hstall : w'.stall = (if slot.isSome then w.stall else now + 1 + h.stall.toNat) := by
    have : w1.stall = w.stall := by
      have e := congrArg Warp.stall hla.rest
      rw [hw1]; split_ifs
      · exact e
      · simp only [startFlight]; cases op.timing <;> simp only <;> (try split_ifs) <;> exact e
    rw [hcstall, this, hop.isHead]
  have hfl1 : w1.lanes = w0.lanes ∧ w1.s = w0.s ∧ w1.flow = w0.flow ∧ w1.exitm = w0.exitm ∧ w1.pend = w0.pend ∧
      { w1 with ws := w0.ws, flights := w0.flights } = w0 := by
    rw [hw1]; split_ifs
    · exact ⟨rfl, rfl, rfl, rfl, rfl, rfl⟩
    · simp only [startFlight]; cases op.timing <;> simp only <;> (try split_ifs) <;> simp
  have hreg : ∀ r, w'.getReg r = w0.getReg r := fun r => (hcreg r).trans (getReg_congr hfl1.1 hfl1.2.1 r)
  have hat : ∀ k, laneAt w1 k = laneAt w0 k := fun k => by rw [laneAt, hfl1.1, ← laneAt]
  have hflow' : w'.flow = w0.flow := hcfields.2.2.1.trans hfl1.2.2.1
  have hexit' : w'.exitm = w0.exitm := hcfields.2.2.2.1.trans hfl1.2.2.2.1
  have hpend' : w'.pend = w0.pend := hcfields.2.2.2.2.trans hfl1.2.2.2.2.1
  have hws0 : w0.ws = w.ws := by have e := congrArg Warp.ws hla.rest; exact e
  have hf0 : w0.flights = w.flights := by have e := congrArg Warp.flights hla.rest; exact e
  have hes' : es = (ps.filter fun x => x.1.warp == mem.warp).map (partOf h coll (srcs c) ps) := rfl
  have hany : ps.any (·.1.warp == mem.warp) = !es.isEmpty := by
    rw [hes']
    have : ∀ l : List (View × Done), l.any (·.1.warp == mem.warp) =
        !((l.filter fun x => x.1.warp == mem.warp).map (partOf h coll (srcs c) ps)).isEmpty := by
      intro l
      induction l with
      | nil => rfl
      | cons v r ih =>
        cases e : v.1.warp == mem.warp
        · simp only [List.any_cons, e, Bool.false_or, List.filter_cons, Bool.false_eq_true, if_false, ih]
        · simp [e]
    exact this ps
  have hclosed : (ps.filter (·.1.warp == mem.warp)).all (·.2.closed) = es.all fun e => e.d.closed := by
    rw [hes', List.all_map]; rfl
  have hmem : ∀ x ∈ ps, x.1.warp = mem.warp → partOf h coll (srcs c) ps x ∈ es := fun x hx hxw => by
    rw [hes']; exact List.mem_map_of_mem (List.mem_filter.2 ⟨hx, by simp [hxw]⟩)
  have hmem' : ∀ e ∈ es, ∃ x ∈ ps, x.1.warp = mem.warp ∧ partOf h coll (srcs c) ps x = e := fun e he => by
    obtain ⟨x, hx, rfl⟩ := List.mem_map.1 (hes' ▸ he)
    obtain ⟨a, b⟩ := List.mem_filter.1 hx
    exact ⟨x, a, by simpa using b, rfl⟩
  have hflight : w1.ws = (match slotOf h with
        | none => w.ws
        | some j => if ps.any (·.1.warp == mem.warp) && t != .atIssue then w.ws.modify j (· + 1) else w.ws) ∧
      (∀ x ∈ w1.flights, x ∈ w.flights ∨ x = ⟨id, slotOf h, t.due now, t != .open_ ||
        (ps.filter (·.1.warp == mem.warp)).all (·.2.closed)⟩) ∧
      (t = .open_ → (∃ x ∈ ps, x.1.warp = mem.warp ∧ x.2.closed = false) → (⟨id, slotOf h, none, false⟩ : Flight) ∈ w1.flights) := by
    rw [hany, hw1, hclosed]
    cases hesc : es with
    | nil =>
      simp only [if_true, hws0, hf0]
      refine ⟨by cases slotOf h <;> rfl, fun x hx => .inl hx, ?_⟩
      rintro _ ⟨x, hx, hxw, _⟩
      have := hmem x hx hxw
      rw [hesc] at this; cases this
    | cons e r =>
      have hopen : (∃ x ∈ ps, x.1.warp = mem.warp ∧ x.2.closed = false) → (es.all fun e => e.d.closed) = false := by
        rintro ⟨x, hx, hxw, hc⟩
        rw [List.all_eq_false]
        exact ⟨_, hmem x hx hxw, by simp [partOf, hc]⟩
      rw [hesc] at hopen
      simp only [reduceCtorEq, if_false, startFlight, hop.isHead, hop.isTiming, List.isEmpty_cons, Bool.not_false, Bool.true_and]
      cases t with
      | fixed n =>
        have h1 : (Timing.fixed n != Timing.open_) = true := rfl
        have h2 : (Timing.fixed n != Timing.atIssue) = true := rfl
        refine ⟨?_, ?_, fun e => by cases e⟩
        · cases slotOf h with
          | none => simp only; split_ifs <;> simp [hws0]
          | some j => simp [hws0, h2]
        · cases slotOf h with
          | none =>
            simp only; split_ifs
            · simp [hf0, Timing.due, h1]
            · simp only [hf0]; exact fun x hx => .inl hx
          | some j => simp [hf0, Timing.due, h1]
      | later =>
        have h1 : (Timing.later != Timing.open_) = true := rfl
        have h2 : (Timing.later != Timing.atIssue) = true := rfl
        refine ⟨?_, ?_, fun e => by cases e⟩
        · cases slotOf h with
          | none => simp only; split_ifs <;> simp [hws0]
          | some j => simp [hws0, h2]
        · cases slotOf h with
          | none =>
            simp only; split_ifs
            · simp [hf0, Timing.due, h1]
            · simp only [hf0]; exact fun x hx => .inl hx
          | some j => simp [hf0, Timing.due, h1]
      | atIssue =>
        refine ⟨?_, ?_, fun e => by cases e⟩
        · cases slotOf h <;> simp [hws0]
        · simp only [hf0]; exact fun x hx => .inl hx
      | open_ =>
        refine ⟨?_, ?_, fun _ hx => ?_⟩
        · cases hso : slotOf h with
          | none => simp only; split_ifs <;> simp [hws0]
          | some j => simp [hws0]
        · cases hso : slotOf h with
          | none =>
            simp only; split_ifs
            · simp [hf0, Timing.due]
            · simp only [hf0]; exact fun x hx => .inl hx
          | some j => simp [hf0, Timing.due]
        · have hc := hopen hx
          simp only [hc, Bool.not_false, Bool.or_true, if_true]
          cases slotOf h <;> simp
  refine ⟨⟨?_, ?_, ?_, ?_, ?_, ?_, ?_⟩, ⟨hcfields.1.trans hflight.1, ?_, ?_, ?_, ?_, ?_, ?_⟩, hstall⟩
  · intro x hx hxw r hr
    rw [hreg]; exact hla.regs _ (hmem x hx hxw) r hr
  · intro k hk r hr
    rw [hreg]
    apply hla.idle k _ r hr
    intro e he
    obtain ⟨x, hx, hxw, rfl⟩ := hmem' e he
    exact hk x hx hxw
  · intro n
    rw [hreg, hla.scal, hany, hlead]
    unfold leadHolds leadPart
    cases hps : ps with
    | nil => simp [hes', hps]
    | cons v r =>
      by_cases hs : h.scope = .lane
      · simp [hs, partScalar]
      · simp only [if_neg hs, List.head?_cons, Option.map_some, partScalar]
        cases es <;> simp [partOf]
  · intro x hx hxw l hl
    obtain ⟨l', h1, h2⟩ := hla.went _ (hmem x hx hxw) l hl
    have hk : mem.group.getLsbD x.1.lane = true := hsub _ (hact _ (hmem x hx hxw)).2
    refine ⟨_, hcgroup _ l' hk ((hat _).trans h1), ?_, h2.pc, h2.stamp, h2.stack, h2.posted⟩
    have e := h2.state
    simp only [e, partOf]
    cases x.2.next <;> simp [restsIn]
  · intro k l hk hne hl
    obtain ⟨l', h1, h2, h3, h4⟩ := hla.passed k l hk (fun e he => by
      obtain ⟨x, hx, hxw, rfl⟩ := hmem' e he
      exact hne x hx hxw) hl
    exact ⟨_, hcgroup k l' hk ((hat k).trans h1), by simp [h2], h3, by rw [Lane.keeps_iff] at h4 ⊢; exact h4⟩
  · intro k hk; rw [hcother k hk, hat]; exact hla.others k hk
  · unfold Warp.keepsRest
    have e1 := hcrest
    have e2 := hfl1.2.2.2.2.2
    have e3 := hla.rest
    unfold Warp.sameCore at e3
    generalize w0 = x at e2 e3
    generalize w1 = y at e1 e2
    generalize w' = z at e1 ⊢
    cases w; cases x; cases y; cases z; simp_all
  · rw [hcfields.2.1]; exact hflight.2.1
  · rw [hcfields.2.1]; exact hflight.2.2
  · rw [hflow', hla.flow, hes', List.foldl_map]; rfl
  · intro hx
    rw [hexit']
    exact hla.stays fun e he => by obtain ⟨x, a, b, rfl⟩ := hmem' e he; exact hx x a b
  · rintro ⟨x, hx, hxw, he⟩ hz
    have h0 : ∀ e ∈ es, e.d.flow = 0 := fun e he => by obtain ⟨x, a, b, rfl⟩ := hmem' e he; exact hz x a
    have hf : ∀ (l : List Part) (m : Mask), (∀ e ∈ l, e.d.flow = 0) → l.foldl (fun t e => t ||| e.d.flow) m = m := by
      intro l
      induction l with
      | nil => intros; rfl
      | cons e r ih =>
        intro m hl
        rw [List.foldl_cons, hl e (by simp), mask_or_zero]
        exact ih m fun y hy => hl y (by simp [hy])
    rw [hexit', hla.leaves ⟨_, hmem x hx hxw, he⟩ h0, hflow', hla.flow, hf es _ h0]
  · intro x hx hxw o ho r hrl hr
    rw [hpend']
    exact hla.owes _ (hmem x hx hxw) o ho (notS_of_regOf hr hrl) r hr

/-! ## The execution -/

theorem settleAll_ready {m : Mach} {mg : Mgmt} {bid : Nat} {b : Block} (hb : tabFind m.blocks bid = some b)
    (pb : inPlace bid m.blocks.cells) (l : List Nat)
    (h : ∀ x ∈ l, ∃ w, tabFind b.warps x = some w ∧ inPlace x b.warps.cells ∧ w.goesOn) : m.settleAll mg bid l = m :=
  settleWarps_ready hb pb (fun x => x) l h

theorem perform_effect (hop : EffectOp op h g t coll fenced flows sc ok srcs free act) (i : Instr) (s : State) (q : Issue)
    (b b' : Block) (mems : List Member) (slot : Option (Nat × List Nat)) (vs : List View) (ds : List Done) (m' : Mach)
    (hvs : vs = op.views s.mgmt q b (s.mach.gangs b) s.mach.free s.mach.ids mems)
    (hheld : noHeld s) (hfree : free vs s.mach) (hact : act (acting h coll vs) s.mach.begun = some (ds, m'))
    (hcyc : m'.cycle = s.mach.cycle) (hb : tabFind m'.blocks q.bid = some b')
    (hlane : h.scope = .lane → slot = none) (hn : (mems.map (·.warp)).Nodup)
    (hw : ∀ x ∈ mems, ∃ w0, tabFind b'.warps x.warp = some w0 ∧ w0.lanes.length = 32)
    (hl : ∀ x ∈ mems, x.w.lanes.length = 32) (hne : mems ≠ [])
    (hsub : ∀ x ∈ mems, ∀ k, x.active.getLsbD k = true → x.group.getLsbD k = true)
    (hshort : op.shorts (s.mach.ctx b.ctx) vs mems = []) :
    ∃ warps, op.perform i s.mgmt q b mems slot s.mach = (m'.setBlock q.bid { b' with warps := warps, slots := match slot with
          | none => b'.slots
          | some k => tabMod b'.slots k.1 fun x => x.started s t vs.isEmpty }).settleAll s.mgmt q.bid (mems.map (·.warp)) ∧
      (∀ k, k ∉ mems.map (·.warp) → tabFind warps k = tabFind b'.warps k) ∧
      (∀ k ∈ mems.map (·.warp), inPlace k warps.cells) ∧
      (∀ x, mems = [x] → ∀ w w', tabFind b'.warps x.warp = some w → tabFind warps x.warp = some w' →
        warps = tabSet b'.warps x.warp w') ∧
      ∀ x ∈ mems, ∀ w0, tabFind b'.warps x.warp = some w0 → ∃ w', tabFind warps x.warp = some w' ∧
        EffectAfter q (partsFor h coll vs ds) x.warp x.group (slot.map (·.1)) w0 w' h coll (srcs (s.mach.ctx b.ctx)) ∧
        EffectCharged s (partsFor h coll vs ds) x.warp w0 w' h t (if flows then (if h.scope = .lane then
          op.guardTags s.mach.free x else op.setTags s.mach.free mems) else 0) ∧
        w'.stall = (if slot.isSome then w0.stall else s.mach.cycle + 1 + h.stall.toNat) := by
  have hmh : op.meetsHeld vs s.mach = false := by
    simp only [Op.meetsHeld]; rw [show (s.mach.ide.cells.any fun x => x.2.held) = false from hheld]; rfl
  have hbeg : ({ s.mach with free := s.mach.free + 1, ids := s.mach.ids + 1 } : Mach) = s.mach.begun := rfl
  set ps := partsFor h coll vs ds with hps
  set c := s.mach.ctx b.ctx with hc
  have hfst : ps.map Prod.fst = vs := partsFor_all (hop.sized _ _ _ _ hact)
  obtain ⟨warps, e, h1, hp, h1', h2⟩ := commit_parts hop q c s.mach.free s.mach.ids mems (op.setTags s.mach.free mems)
    (slot.map (·.1)) ps m' b' hb hn (fun x hx => (hw x hx).imp fun _ y => y.1) hne
  rw [hcyc] at h2
  have hsc : ∀ x : Member, (if op.head.scope == .lane then op.guardTags s.mach.free x else op.setTags s.mach.free mems) =
      (if h.scope = .lane then op.guardTags s.mach.free x else op.setTags s.mach.free mems) := by
    intro x; rw [hop.isHead]; by_cases hs : h.scope = .lane <;> simp [hs]
  refine ⟨warps, ?_, h1, hp, h1', fun x hx w0 hxw => ?_⟩
  swap
  · obtain ⟨w1, e0, hlen⟩ := hw x hx
    rw [hxw] at e0; cases e0
    refine ⟨_, h2 x hx w0 hxw, ?_⟩
    rw [hsc x]
    have := member_effects hop s q c (if h.scope = .lane then op.guardTags s.mach.free x else op.setTags s.mach.free mems) ps x
      (slot.map (·.1)) w0 hlen (by rw [hfst, hvs]; exact views_member op s.mgmt q b _ _ _ hn hl hx) (hsub x hx)
    rw [Option.isSome_map] at this
    exact this
  have hrun := hop.runs _ _ _ _ hact
  have hst : stopsOf (ps.map fun x => (x.1, Except.ok (ε := Stop) x.2)) = [] := stops_parts ps
  have hdn : donesOf (ps.map fun x => (x.1, Except.ok (ε := Stop) x.2)) = ps := dones_parts ps
  simp only [Op.perform, ← hvs, ← hc, hshort, live_all, hop.isReady _ _ hfree, hmh, hop.noWring _ _ hfree, Bool.not_true,
    Bool.or_false, Bool.false_eq_true, if_false, List.isEmpty_nil, ite_self, hbeg]
  simp only [handed_eq hop, hrun, spread_parts hop, ← hps, hst, hdn, List.filter_nil, List.append_nil, List.foldl_nil, List.isEmpty_nil, if_true]
  have hif : (if (op.head.scope == Scope.lane) = true then
      op.commit q c s.mach.free s.mach.ids mems (op.setTags s.mach.free mems) none ps m'
      else op.commit q c s.mach.free s.mach.ids mems (op.setTags s.mach.free mems) (slot.map (·.1)) ps m') =
      { m' with blocks := tabSet m'.blocks q.bid { b' with warps := warps } } := by
    rw [hop.isHead]
    by_cases hs : h.scope = .lane
    · simp only [hs, beq_self_eq_true, if_true]
      rw [hlane hs] at e
      exact e
    · have : (h.scope == Scope.lane) = false := by simpa using hs
      simp only [this, Bool.false_eq_true, if_false]
      exact e
  rw [hif]
  have hfold : ∀ m0 : Mach, mems.foldl (fun m x => m.settleWarp s.mgmt q.bid x.warp) m0 = m0.settleAll s.mgmt q.bid (mems.map (·.warp)) := by
    intro m0; simp only [Mach.settleAll, List.foldl_map]
  rw [hfold]
  cases slot with
  | none => rfl
  | some k =>
    simp only [Mach.runSlot, Mach.modBlock, hop.isTiming]
    rw [tabMod_some _ (tabFind_set_same ..)]
    simp only [tabSet_set]
    rfl

theorem issue_effect (hop : EffectOp op h g t coll fenced flows sc ok srcs free act) {i : Instr}
    (he : ∀ s, exec i s = issueOp i op s) : EffectAtIssue i h g t coll fenced flows sc ok srcs free act := by
  intro s q b w ds m' b' w0 hi ho hr hc hheld hfence hk hfree hact hcyc hb' hw0 hlen0
  have hsc := ho.1
  have hset : ∀ k, s.mach.setOf b h.scope k = none := fun k => setOf_none hsc
  have hb : s.mach.block? q.bid = some b := hi.block
  have hw : s.mach.warp? q.bid q.warp = some w := by simp [Mach.warp?, hb, hi.warp]
  have hactive : op.activeOf s.mach.free w 0 q.lanes = activeLanes s q w h g 32 := by
    simp only [activeLanes, Op.activeOf, bareOp, hop.isWidth, hop.isGuard]
  have hdel : op.delayed w = false := by
    have h1 : (match slotOf op.head with | none => false | some j => decide (w.ws.getD j 0 ≥ 7)) = false := by
      rw [hop.isHead]; exact slotOf_room hr
    have h2 : (op.fenced && w.fence.isSome) = false := by
      rw [hop.isFenced]
      cases hf : fenced with
      | false => rfl
      | true => rw [hfence hf]; rfl
    unfold Op.delayed
    rw [h2, Bool.false_or]
    exact h1
  have hscope : op.scopeOk s.mach b q.warp = true := by
    simp [Op.scopeOk, hop.isHead, hop.isScopes, ho.2, isSet_false hsc]
  set active := activeLanes s q w h g 32 with hactdef
  set mem : Member := ⟨q.warp, 0, q.lanes, active, w⟩ with hmem
  set vs := elements s q b w h g 32 with hvs
  have hviews : vs = op.views s.mgmt q b (s.mach.gangs b) s.mach.free s.mach.ids [mem] := by
    rw [views_bare, hop.isHead, hop.isGuard, hop.isWidth]; rfl
  have hperf : op.issue i s.mgmt q s.mach = op.perform i s.mgmt q b [mem] none s.mach := by
    simp only [Op.issue, hb, hw, hop.isHead, hset, hdel, hop.checks _ _ hk, hscope, isSet_false hsc, hactive, Bool.false_eq_true,
      if_false, Bool.not_true]
    rfl
  have hshort : op.shorts (s.mach.ctx b.ctx) vs [mem] = [] := by
    apply shorts_nil
    refine hc.imp id fun hp => ⟨fun v hv => ?_, fun x hx => ?_⟩
    · obtain ⟨F, e, hF, hFw, _⟩ := views_eq op s.mgmt q b (s.mach.gangs b) s.mach.free s.mach.ids [mem]
      rw [hviews, e] at hv
      obtain ⟨y, hy, rfl⟩ := List.mem_map.1 hv
      have := (laneList_mem hy).1
      simp only [List.mem_singleton] at this
      rw [hFw (by rw [hop.isHead]; exact isSet_false hsc), this]
      exact hp
    · simp only [List.mem_singleton] at hx; subst hx; exact hp
  obtain ⟨warps, e, _, hp, h1, h2⟩ := perform_effect hop i s q b b' [mem] none vs ds m' hviews hheld hfree hact hcyc hb' (fun _ => rfl)
    (by simp) (by simpa [hmem] using ⟨w0, hw0, hlen0⟩) (by simpa [hmem] using hi.lanes) (by simp)
    (by simpa [hmem] using fun k hk => activeOf_sub (hactive ▸ hk)) hshort
  obtain ⟨w', hw', ha, hch, hst⟩ := h2 mem (by simp) w0 hw0
  have hwarps : warps = tabSet b'.warps q.warp w' := h1 mem rfl w0 w' hw0 hw'
  have hex : exec i s = .next { s with mach := (m'.putWarp q.bid q.warp b' w').settleWarp s.mgmt q.bid q.warp } := by
    rw [he]
    simp only [issueOp, onIssue, hi.issue, hperf, e, hwarps]
    rfl
  refine ⟨w', hex, fun hrd => ?_, ha, ?_, by simpa using hst⟩
  · rw [hex]
    have := settleWarp_ready (m := m'.putWarp q.bid q.warp b' w') (mg := s.mgmt) (bid := q.bid) (k := q.warp)
      (b := { b' with warps := tabSet b'.warps q.warp w' }) (w := w') (by simp [Mach.putWarp, Mach.setBlock])
      (inPlace_set _ _ _) (by simp) (inPlace_set _ _ _) hrd
    rw [this]
  · have hg : op.guardTags s.mach.free mem = guardMasks s q w g := by
      simp only [Op.guardTags, guardMasks, Op.guardOf, hop.isGuard, hmem, Nat.mul_zero, Nat.zero_add]
    have hfl : (if flows then (if h.scope = .lane then op.guardTags s.mach.free mem else op.setTags s.mach.free [mem]) else 0) =
        issueFlow s q w h g flows := by
      unfold issueFlow
      have hne : ¬ mem.group = 0 := hi.some_
      have h0 : ∀ a c : Mask, 0 ||| a ||| c = a ||| c := by intro a c; rw [show (0 : Mask) ||| a = a by simp]
      simp only [Op.setTags, List.foldl_cons, List.foldl_nil, hg, if_neg hne, h0]
      rfl
    rw [← hfl]; exact hch

theorem rendezvous_effect (hop : EffectOp op h g t coll fenced flows sc ok srcs free act) {i : Instr} (ho : opOf i = some op) :
    EffectAtRendezvous i h g t coll flows srcs free act := by
  intro s bid k b sl ds m' b' ha hset hc hheld hfree hact hcyc hb' hw0
  obtain ⟨t0, hstart, ht0⟩ := ha.start
  have hfind : ∀ x ∈ s.mach.slotMembers b k, ∃ w, tabFind b.warps x = some w := fun x hx => by
    obtain ⟨w, _, e, _⟩ := ha.members x hx; exact ⟨w, e⟩
  set members := s.mach.slotMembers b k with hmembers
  set mems := slotMems b members sl with hmems
  have hwarps : mems.map (·.warp) = members := slotMems_warps hfind
  have hgroup : ∀ x ∈ mems, ∃ w g, tabFind b.warps x.warp = some w ∧ w.lanes.length = 32 ∧ x.group = g ∧ g ≠ 0 ∧
      (∀ j, x.active.getLsbD j = true → g.getLsbD j = true) ∧ x.w.lanes.length = 32 ∧ x.w.pend = tabGet sl.pend x.warp [] := by
    intro x hx
    obtain ⟨hm, w, hw, hg, hact, hxw⟩ := slotMems_mem hx
    obtain ⟨w', g, e, hlen, _, hgr, hg0, hsub⟩ := ha.members x.warp hm
    rw [hw] at e; cases e
    have hgg : x.group = g := by rw [hg, tabGet, hgr]; rfl
    exact ⟨w, g, hw, hlen, hgg, hg0, by rw [hact]; exact hsub, by rw [hxw]; exact hlen, by rw [hxw]⟩
  have hne : members ≠ [] := fun e => by
    have h0 : sl.issue.warp ∈ members := ha.issuer
    rw [e] at h0; cases h0
  have hne' : mems ≠ [] := fun e => hne (by rw [← hwarps, e]; rfl)
  set vs := setElements s b k sl h g 32 with hvs
  have hviews : vs = op.views s.mgmt sl.issue b (s.mach.gangs b) s.mach.free s.mach.ids mems := by
    rw [views_bare, hop.isHead, hop.isGuard, hop.isWidth]; rfl
  have hshort : op.shorts (s.mach.ctx b.ctx) vs mems = [] := by
    apply shorts_nil
    refine hc.imp id fun hp => ?_
    have hmp : ∀ x ∈ mems, x.w.pend = [] := fun x hx => by
      obtain ⟨_, _, _, _, _, _, _, _, e⟩ := hgroup x hx; rw [e]; exact hp _
    refine ⟨fun v hv => ?_, hmp⟩
    obtain ⟨F, e, hF, _, hFp⟩ := views_eq op s.mgmt sl.issue b (s.mach.gangs b) s.mach.free s.mach.ids mems
    rw [hviews, e] at hv
    obtain ⟨y, hy, rfl⟩ := List.mem_map.1 hv
    exact hFp hmp y (hmp _ (laneList_mem hy).1)
  have hlane : h.scope ≠ .lane := fun e => by rw [e] at hset; cases hset
  have hmw : ∀ x ∈ mems, x.warp ∈ members := fun x hx => hwarps ▸ List.mem_map_of_mem hx
  obtain ⟨warps, e, h1, hp, _, h2⟩ := perform_effect hop sl.instr s sl.issue b b' mems (some (k, members)) vs ds m' hviews hheld hfree
    hact hcyc (by rw [ha.bid]; exact hb') (fun e => absurd e hlane) (by rw [hwarps]; exact slotMembers_nodup ..)
    (fun x hx => hw0 x.warp (hmw x hx))
    (fun x hx => by obtain ⟨_, _, _, _, _, _, _, c, _⟩ := hgroup x hx; exact c) hne'
    (fun x hx => by obtain ⟨_, _, _, _, a, _, c, _⟩ := hgroup x hx; rw [a]; exact c) hshort
  rw [hwarps] at e h1 hp
  simp only at e
  have hrv : (s.mach.rendezvousExecute s.mgmt bid k) = op.rendezvous s.mgmt b k sl s.mach := by
    unfold Mach.rendezvousExecute
    have hb : s.mach.block? bid = some b := ha.block
    simp only [hb, ha.slot, hstart, ha.instr, ho, ha.free.1, ha.free.2, ha.resident, ha.wrings, List.any_nil, Bool.or_false, Bool.not_true,
      Option.isSome_none]
    rw [if_neg]
    simp only [Bool.or_eq_true, decide_eq_true_eq, not_or]
    exact ⟨by simpa using ht0, by simpa [List.any_eq_true] using rendezvous_unheld ha⟩
  have hex : exec (.rendezvousExecute bid k) s = .next { s with
      mach := (m'.setBlock bid (b'.executed warps k s t vs.isEmpty)).settleAll s.mgmt bid members } := by
    simp only [exec, execRendezvousExecute, onEvent, ha.awake, if_true, hrv, Op.rendezvous, ← hmembers]
    rw [e, ha.bid]
    rfl
  refine ⟨warps, hex, fun hrd => ?_, fun x hx => h1 x hx, fun x hx w hw => ?_⟩
  · rw [hex, settleAll_ready (b := b'.executed warps k s t vs.isEmpty) (by simp [Mach.setBlock])
      (inPlace_set _ _ _)]
    intro x hx
    obtain ⟨w', a, c⟩ := hrd x hx
    exact ⟨w', a, hp x hx, c⟩
  · obtain ⟨y, hy, rfl⟩ := List.mem_map.1 (hwarps ▸ hx : x ∈ mems.map (·.warp))
    obtain ⟨w', hw', hr', hch, hst⟩ := h2 y hy w hw
    obtain ⟨_, _, _, hgr, _⟩ := slotMems_mem hy
    refine ⟨w', hw', hgr ▸ hr', ?_, by simpa using hst⟩
    rw [if_neg hlane] at hch
    have : op.setTags s.mach.free mems = setMasks s b k sl h g 32 := by
      simp only [setMasks, Op.setTags, Op.guardTags, Op.guardOf, hop.isGuard]
      rfl
    rw [← this]; exact hch

/-- The form in which the statements about instructions cite it. -/
theorem effects_of (hop : EffectOp op h g t coll fenced flows sc ok srcs free act) {i : Instr}
    (he : ∀ s, exec i s = issueOp i op s) (ho : opOf i = some op) :
    Effects i h g t coll fenced flows sc ok srcs free act :=
  ⟨issue_effect hop he, rendezvous_effect hop ho⟩

end Sys2Proof.Machine
end

