-- ==== Sys2Proof/Laws/ActLaw.lean ====
section
/-! SUPPORT. From what each acting element does to the statement about the whole instruction. -/

namespace Sys2Proof.Machine

variable {h : Head} {g : Guard} {t : Timing} {coll fenced flows : Bool} {sc : Scopes} {ok : Owner → Ctx → Prop}
  {srcs : Ctx → List Src} {free : List View → Mach → Prop}

/-- Elements one after another. -/
theorem eachActs_run {f : View → Mach → Option (Done × Mach)} {k : View → Mach → Effect × Mach}
    (hk : ∀ v m d m', f v m = some (d, m') → k v m = (.ok d, m')) (vs : List View) (m : Mach) (ds : List Done) (m' : Mach)
    (e : eachActs f vs m = some (ds, m')) : eachRun k vs m = (ds.map .ok, m') ∧ ds.length = vs.length := by
  induction vs generalizing m ds with
  | nil => simp only [eachActs, Option.some.injEq, Prod.mk.injEq] at e; obtain ⟨rfl, rfl⟩ := e; exact ⟨rfl, rfl⟩
  | cons v r ih =>
    simp only [eachActs] at e
    cases ef : f v m with
    | none => simp [ef] at e
    | some x =>
      obtain ⟨d, m1⟩ := x
      simp only [ef] at e
      cases er : eachActs f r m1 with
      | none => simp [er] at e
      | some y =>
        obtain ⟨ds1, m2⟩ := y
        simp only [er, Option.some.injEq, Prod.mk.injEq] at e
        obtain ⟨rfl, rfl⟩ := e
        have := ih m1 ds1 er
        simp [eachRun, hk v m d m1 ef, this.1, this.2]

/-- An operation whose elements act one after another. -/
theorem each_op {op : Op} {f : View → Mach → Option (Done × Mach)} {k : View → Mach → Effect × Mach} (hr : op.run = eachRun k)
    (hk : ∀ v m d m', f v m = some (d, m') → k v m = (.ok d, m')) (checks : ∀ ow c, ok ow c → op.check ow c = none)
    (ready : ∀ vs m, free vs m → op.ready vs m = true) (wring : ∀ vs m, free vs m → op.wring vs m = [])
    (isHead : op.head = h := by rfl) (isGuard : op.guard = g := by rfl) (isWidth : op.width = 32 := by rfl)
    (isFenced : op.fenced = fenced := by rfl) (isColl : op.coll = coll := by rfl) (isTiming : op.timing = t := by rfl)
    (flows_ : op.flow = flows := by rfl) (isScopes : op.scopes = sc := by rfl)
    (sources : ∀ c, op.srcs c = srcs c := by intro _; rfl) :
    EffectOp op h g t coll fenced flows sc ok srcs free (eachActs f) :=
  { isHead := isHead, isGuard := isGuard, isWidth := isWidth, isFenced := isFenced, isColl := isColl, isTiming := isTiming
    flows_ := flows_, isScopes := isScopes, checks := checks, sources := sources, isReady := ready, noWring := wring
    runs := fun vs m ds m' e => by rw [hr]; exact (eachActs_run hk vs m ds m' e).1
    sized := fun vs m ds m' e => (eachActs_run hk vs m ds m' e).2 }

/-- Positions that are all admitted. -/
theorem firstBad_of_all {l : List (Nat × Bool)} (h : ∀ x ∈ l.map (·.2), x = true) : firstBad l = none := by
  induction l with
  | nil => rfl
  | cons x r ih =>
    obtain ⟨p, b⟩ := x
    simp only [List.map_cons, List.mem_cons, forall_eq_or_imp] at h
    obtain ⟨rfl, hr⟩ := h
    simpa [firstBad] using ih hr

/-! ## Stores -/

/-- One more element of a storing instruction. -/
def storeStep (f : View → Mach → Stored × Mach) (acc : List Effect × List (Nat × Nat) × List SpadRange × Mach) (v : View) :
    List Effect × List (Nat × Nat) × List SpadRange × Mach :=
  let (r, m) := f v acc.2.2.2
  (acc.1 ++ [r.effect], acc.2.1 ++ r.dev, acc.2.2.1 ++ r.spad, m)

def actStep (f : View → Mach → Option (Stored × Mach)) (acc : Option (List Done × List (Nat × Nat) × List SpadRange × Mach))
    (v : View) : Option (List Done × List (Nat × Nat) × List SpadRange × Mach) :=
  match acc with
  | none => none
  | some (ds, dev, spad, m) => match f v m with
    | none => none
    | some (s, m) => match s.effect with
      | .error _ => none
      | .ok d => some (ds ++ [d], dev ++ s.dev, spad ++ s.spad, m)

theorem actStep_none (f : View → Mach → Option (Stored × Mach)) (vs : List View) : vs.foldl (actStep f) none = none := by
  induction vs with
  | nil => rfl
  | cons v r ih => simpa [actStep] using ih

theorem actFold {f : View → Mach → Option (Stored × Mach)} {k : View → Mach → Stored × Mach}
    (hk : ∀ v m s m', f v m = some (s, m') → k v m = (s, m')) (vs : List View) (es : List Effect) (ds0 : List Done)
    (he : es = ds0.map .ok) (dev : List (Nat × Nat)) (spad : List SpadRange) (m : Mach)
    (r : List Done × List (Nat × Nat) × List SpadRange × Mach)
    (e : vs.foldl (actStep f) (some (ds0, dev, spad, m)) = some r) :
    vs.foldl (storeStep k) (es, dev, spad, m) = (r.1.map .ok, r.2) ∧ r.1.length = ds0.length + vs.length := by
  induction vs generalizing es ds0 dev spad m with
  | nil => simp only [List.foldl_nil, Option.some.injEq] at e; subst e; simp [he]
  | cons v vs ih =>
    simp only [List.foldl_cons] at e ⊢
    cases ef : f v m with
    | none => simp [actStep, ef, actStep_none] at e
    | some x =>
      obtain ⟨s, m1⟩ := x
      cases es1 : s.effect with
      | error _ => simp [actStep, ef, es1, actStep_none] at e
      | ok d =>
        rw [show actStep f (some (ds0, dev, spad, m)) v = some (ds0 ++ [d], dev ++ s.dev, spad ++ s.spad, m1) by
          simp [actStep, ef, es1]] at e
        have := ih (es ++ [s.effect]) (ds0 ++ [d]) (by simp [he, es1]) (dev ++ s.dev) (spad ++ s.spad) m1 e
        refine ⟨?_, by rw [this.2]; simp; omega⟩
        rw [show storeStep k (es, dev, spad, m) v = (es ++ [s.effect], dev ++ s.dev, spad ++ s.spad, m1) by
          simp [storeStep, hk v m s m1 ef]]
        exact this.1

theorem storeActs_run {f : View → Mach → Option (Stored × Mach)} {k : View → Mach → Stored × Mach}
    (hk : ∀ v m s m', f v m = some (s, m') → k v m = (s, m')) (vs : List View) (m : Mach) (ds : List Done) (m' : Mach)
    (e : storeActs f vs m = some (ds, m')) : storeRun k vs m = (ds.map .ok, m') ∧ ds.length = vs.length := by
  have e1 : storeActs f vs m = match vs.foldl (actStep f) (some ([], [], [], m)) with
    | none => none
    | some (ds, dev, spad, m) => some (ds, (dedup (spad.map (·.bid))).foldl (fun m bid => m.closeSpad bid spad) (m.healDev dev)) := rfl
  rw [e1] at e
  cases er : vs.foldl (actStep f) (some ([], [], [], m)) with
  | none => simp [er] at e
  | some r =>
    obtain ⟨ds1, dev, spad, m1⟩ := r
    simp only [er, Option.some.injEq, Prod.mk.injEq] at e
    obtain ⟨rfl, rfl⟩ := e
    have h1 := actFold hk vs [] [] rfl [] [] m _ er
    have e2 : storeRun k vs m = (let (es, dev, spad, m) := vs.foldl (storeStep k) ([], [], [], m)
      let m := m.healDev dev
      (es, (dedup (spad.map (·.bid))).foldl (fun m bid => m.closeSpad bid spad) m)) := rfl
    rw [e2, h1.1]
    exact ⟨rfl, by simpa using h1.2⟩

/-- An operation that stores element after element. -/
theorem store_op {op : Op} {f : View → Mach → Option (Stored × Mach)} {k : View → Mach → Stored × Mach} (hr : op.run = storeRun k)
    (hk : ∀ v m s m', f v m = some (s, m') → k v m = (s, m')) (checks : ∀ ow c, ok ow c → op.check ow c = none)
    (ready : ∀ vs m, free vs m → op.ready vs m = true) (wring : ∀ vs m, free vs m → op.wring vs m = [])
    (isHead : op.head = h := by rfl) (isGuard : op.guard = g := by rfl) (isWidth : op.width = 32 := by rfl)
    (isFenced : op.fenced = fenced := by rfl) (isColl : op.coll = coll := by rfl) (isTiming : op.timing = t := by rfl)
    (flows_ : op.flow = flows := by rfl) (isScopes : op.scopes = sc := by rfl)
    (sources : ∀ c, op.srcs c = srcs c := by intro _; rfl) :
    EffectOp op h g t coll fenced flows sc ok srcs free (storeActs f) :=
  { isHead := isHead, isGuard := isGuard, isWidth := isWidth, isFenced := isFenced, isColl := isColl, isTiming := isTiming
    flows_ := flows_, isScopes := isScopes, checks := checks, sources := sources, isReady := ready, noWring := wring
    runs := fun vs m ds m' e => by rw [hr]; exact (storeActs_run hk vs m ds m' e).1
    sized := fun vs m ds m' e => (storeActs_run hk vs m ds m' e).2 }

end Sys2Proof.Machine
end

