-- ==== Sys2Proof/Laws/Memory.lean ====
section
/-! SUPPORT. The laws of a memory: reading after writing, and the canonical form, which every operation over a memory keeps. -/

namespace Sys2Proof.Machine

variable {α : Type}

/-! ## Rising keys -/

/-- Every key of the list stands above `k`. -/
def keysAbove (k : Nat) (l : List (Nat × α)) : Prop := ∀ c ∈ l, k < c.1

theorem cellsRising_cons (c : Nat × α) (l : List (Nat × α)) :
    cellsRising (c :: l) = true ↔ keysAbove c.1 l ∧ cellsRising l = true := by
  induction l generalizing c with
  | nil => simp [cellsRising, keysAbove]
  | cons d r ih =>
    simp only [cellsRising, Bool.and_eq_true, decide_eq_true_eq]
    constructor
    · rintro ⟨h, g⟩
      refine ⟨fun e he => ?_, g⟩
      rcases List.mem_cons.1 he with rfl | he
      · exact h
      · exact lt_trans h (((ih d).1 g).1 e he)
    · rintro ⟨h, g⟩
      exact ⟨h d (List.mem_cons_self ..), g⟩

theorem cellsFind_none_of_above {k : Nat} {l : List (Nat × α)} (h : keysAbove k l) : cellsFind k l = none := by
  induction l with
  | nil => rfl
  | cons c r ih =>
    obtain ⟨i, y⟩ := c
    have hi : k < i := h (i, y) (List.mem_cons_self ..)
    simp only [cellsFind]
    rw [if_neg (by omega)]
    exact ih fun e he => h e (List.mem_cons_of_mem _ he)

theorem mem_cellsSet {k : Nat} {x : α} {l : List (Nat × α)} {c : Nat × α} (h : c ∈ cellsSet k x l) : c = (k, x) ∨ c ∈ l := by
  induction l with
  | nil => simpa [cellsSet] using h
  | cons d r ih =>
    obtain ⟨i, y⟩ := d
    simp only [cellsSet] at h
    split_ifs at h with h1 h2
    · simpa using h
    · rcases List.mem_cons.1 h with h | h
      · exact .inl h
      · exact .inr (List.mem_cons_of_mem _ h)
    · rcases List.mem_cons.1 h with h | h
      · exact .inr (by simp [h])
      · exact (ih h).imp id (List.mem_cons_of_mem _)

theorem mem_cellsErase {k : Nat} {l : List (Nat × α)} {c : Nat × α} (h : c ∈ cellsErase k l) : c ∈ l := by
  induction l with
  | nil => simp [cellsErase] at h
  | cons d r ih =>
    obtain ⟨i, y⟩ := d
    simp only [cellsErase] at h
    split_ifs at h with h1
    · exact List.mem_cons_of_mem _ h
    · rcases List.mem_cons.1 h with h | h
      · exact h ▸ List.mem_cons_self ..
      · exact List.mem_cons_of_mem _ (ih h)

theorem cellsSet_rising (k : Nat) (x : α) {l : List (Nat × α)} (h : cellsRising l = true) :
    cellsRising (cellsSet k x l) = true := by
  induction l with
  | nil => rfl
  | cons c r ih =>
    obtain ⟨i, y⟩ := c
    obtain ⟨ha, hr⟩ := (cellsRising_cons _ _).1 h
    simp only [cellsSet]
    split_ifs with h1 h2
    · refine (cellsRising_cons _ _).2 ⟨fun e he => ?_, h⟩
      rcases List.mem_cons.1 he with rfl | he
      · exact h1
      · exact lt_trans h1 (ha e he)
    · exact (cellsRising_cons _ _).2 ⟨h2 ▸ ha, hr⟩
    · refine (cellsRising_cons _ _).2 ⟨fun e he => ?_, ih hr⟩
      rcases mem_cellsSet he with rfl | he
      · exact lt_of_le_of_ne (Nat.le_of_not_lt h1) h2
      · exact ha e he

theorem cellsErase_rising (k : Nat) {l : List (Nat × α)} (h : cellsRising l = true) : cellsRising (cellsErase k l) = true := by
  induction l with
  | nil => rfl
  | cons c r ih =>
    obtain ⟨i, y⟩ := c
    obtain ⟨ha, hr⟩ := (cellsRising_cons _ _).1 h
    simp only [cellsErase]
    split_ifs with h1
    · exact hr
    · exact (cellsRising_cons _ _).2 ⟨fun e he => ha e (mem_cellsErase he), ih hr⟩

theorem filter_rising (p : Nat × α → Bool) {l : List (Nat × α)} (h : cellsRising l = true) : cellsRising (l.filter p) = true := by
  induction l with
  | nil => rfl
  | cons c r ih =>
    obtain ⟨ha, hr⟩ := (cellsRising_cons _ _).1 h
    simp only [List.filter_cons]
    split_ifs with h1
    · exact (cellsRising_cons _ _).2 ⟨fun e he => ha e (List.mem_filter.1 he).1, ih hr⟩
    · exact ih hr

theorem cellsFind_erase (k j : Nat) {l : List (Nat × α)} (h : cellsRising l = true) :
    cellsFind j (cellsErase k l) = if j = k then none else cellsFind j l := by
  induction l with
  | nil => simp [cellsErase, cellsFind]
  | cons c r ih =>
    obtain ⟨i, y⟩ := c
    obtain ⟨ha, hr⟩ := (cellsRising_cons _ _).1 h
    simp only [cellsErase]
    split_ifs with h1 h2 h2
    · subst h1; subst h2; exact cellsFind_none_of_above ha
    · subst h1; simp only [cellsFind]; rw [if_neg fun e => h2 e.symm]
    · subst h2; simp only [cellsFind]; rw [if_neg h1, ih hr, if_pos rfl]
    · simp only [cellsFind]; rw [ih hr, if_neg h2]

theorem cellsFind_filter (p : Nat → Bool) (j : Nat) (l : List (Nat × α)) :
    cellsFind j (l.filter fun c => p c.1) = if p j then cellsFind j l else none := by
  induction l with
  | nil => simp [cellsFind]
  | cons c r ih =>
    obtain ⟨i, y⟩ := c
    simp only [List.filter_cons, cellsFind]
    split_ifs with h1 h2 h2 <;> (simp_all [cellsFind]; try grind)

/-! ## Tables whose keys rise -/

theorem tabFind_erase (t : Tab α) (k j : Nat) (h : cellsRising t.cells = true) :
    tabFind (tabErase t k) j = if j = k then none else tabFind t j := cellsFind_erase k j h

theorem tabSet_rising (t : Tab α) (k : Nat) (x : α) (h : cellsRising t.cells = true) : cellsRising (tabSet t k x).cells = true :=
  cellsSet_rising k x h

theorem tabErase_rising (t : Tab α) (k : Nat) (h : cellsRising t.cells = true) : cellsRising (tabErase t k).cells = true :=
  cellsErase_rising k h

/-! ## One byte -/

theorem Memory.wf_iff (m : Mem) : Memory.wf m = true ↔ cellsRising m.cells = true ∧ ∀ c ∈ m.cells, c.2 ≠ Config.emptyByte := by
  simp [Memory.wf]

theorem Memory.wf_empty : Memory.wf ⟨[]⟩ = true := rfl

/-- A byte reads as it was last written, every other byte as before. -/
theorem memGet_set (m : Mem) (a x : Nat) (b : Byte) (h : Memory.wf m = true) :
    memGet (memSet m a b) x = if x = a then b else memGet m x := by
  have hr := ((Memory.wf_iff m).1 h).1
  unfold memSet memGet
  split_ifs with e hx hx
  · subst hx; rw [cellsFind_erase _ _ hr]; simp [e]
  · rw [cellsFind_erase _ _ hr, if_neg hx]
  · subst hx; simp [cellsFind_set]
  · rw [cellsFind_set, if_neg hx]

theorem memSet_wf (m : Mem) (a : Nat) (b : Byte) (h : Memory.wf m = true) : Memory.wf (memSet m a b) = true := by
  obtain ⟨hr, hn⟩ := (Memory.wf_iff m).1 h
  unfold memSet
  split_ifs with e
  · exact (Memory.wf_iff _).2 ⟨cellsErase_rising a hr, fun c hc => hn c (mem_cellsErase hc)⟩
  · refine (Memory.wf_iff _).2 ⟨cellsSet_rising a b hr, fun c hc => ?_⟩
    rcases mem_cellsSet hc with rfl | hc
    · exact e
    · exact hn c hc

theorem memFilter_wf (m : Mem) (p : Nat × Byte → Bool) (h : Memory.wf m = true) : Memory.wf ⟨m.cells.filter p⟩ = true := by
  obtain ⟨hr, hn⟩ := (Memory.wf_iff m).1 h
  exact (Memory.wf_iff _).2 ⟨filter_rising p hr, fun c hc => hn c (List.mem_filter.1 hc).1⟩

/-- Dropping the cells at some addresses leaves every other byte, and empties those. -/
theorem memGet_filter (m : Mem) (p : Nat → Bool) (x : Nat) :
    memGet ⟨m.cells.filter fun c => p c.1⟩ x = if p x then memGet m x else Config.emptyByte := by
  unfold memGet
  simp only [cellsFind_filter]
  split_ifs <;> simp

/-- Writing cells one by one keeps the form. -/
theorem foldSet_wf (f : Nat × Byte → Nat) (l : List (Nat × Byte)) (m : Mem) (h : Memory.wf m = true) :
    Memory.wf (l.foldl (fun t c => memSet t (f c) c.2) m) = true := by
  induction l generalizing m with
  | nil => exact h
  | cons c r ih => exact ih _ (memSet_wf m _ _ h)

/-! ## Runs of bytes -/

theorem memWrite_wf (m : Mem) (a : Nat) (bs : List Byte) (h : Memory.wf m = true) : Memory.wf (memWrite m a bs) = true := by
  induction bs generalizing m a with
  | nil => exact h
  | cons b r ih => exact ih _ _ (memSet_wf m a b h)

/-- After a write a byte of the run reads as written, every other byte as before. -/
theorem memGet_write (m : Mem) (a x : Nat) (bs : List Byte) (h : Memory.wf m = true) :
    memGet (memWrite m a bs) x = if a ≤ x ∧ x < a + bs.length then bs.getD (x - a) 0 else memGet m x := by
  induction bs generalizing m a with
  | nil => simp only [memWrite, List.length_nil]; rw [if_neg (by omega)]
  | cons b r ih =>
    simp only [memWrite, List.length_cons]
    rw [ih _ _ (memSet_wf m a b h), memGet_set m a x b h]
    by_cases hx : x = a
    · subst hx
      rw [if_neg (by omega), if_pos rfl, if_pos (by omega)]; simp
    · by_cases hi : a + 1 ≤ x ∧ x < a + 1 + r.length
      · rw [if_pos hi, if_pos (by omega), show x - a = (x - (a + 1)) + 1 by omega, List.getD_cons_succ]
      · rw [if_neg hi, if_neg hx, if_neg (by omega)]

@[simp] theorem memRead_length (m : Mem) (a n : Nat) : (memRead m a n).length = n := by
  induction n generalizing a with
  | zero => rfl
  | succ n ih => simp [memRead, ih]

theorem memRead_getD (m : Mem) (a n i : Nat) (h : i < n) : (memRead m a n).getD i 0 = memGet m (a + i) := by
  induction n generalizing a i with
  | zero => omega
  | succ n ih =>
    cases i with
    | zero => rfl
    | succ i => simp only [memRead, List.getD_cons_succ]; rw [ih _ _ (by omega)]; congr 1; omega

theorem memRead_congr (m m' : Mem) (a n : Nat) (h : ∀ x, a ≤ x → x < a + n → memGet m x = memGet m' x) :
    memRead m a n = memRead m' a n := by
  induction n generalizing a with
  | zero => rfl
  | succ n ih => simp only [memRead]; rw [h a (le_refl a) (by omega), ih _ fun x h1 h2 => h x (by omega) (by omega)]

/-- A run reads back as written. -/
theorem memRead_write (m : Mem) (a : Nat) (bs : List Byte) (h : Memory.wf m = true) :
    memRead (memWrite m a bs) a bs.length = bs := by
  apply List.ext_getElem (by simp)
  intro i h1 h2
  have := memRead_getD (memWrite m a bs) a bs.length i (by simpa using h1)
  rw [List.getD_eq_getElem _ _ h1] at this
  rw [this, memGet_write m a (a + i) bs h, if_pos (by omega), show a + i - a = i by omega, List.getD_eq_getElem _ _ h2]

/-- A write leaves a run that it does not touch. -/
theorem memRead_write_off (m : Mem) (a x n : Nat) (bs : List Byte) (h : Memory.wf m = true)
    (o : x + n ≤ a ∨ a + bs.length ≤ x) : memRead (memWrite m a bs) x n = memRead m x n :=
  memRead_congr _ _ _ _ fun y h1 h2 => by rw [memGet_write m a y bs h, if_neg (by omega)]

/-- A write of what is there changes nothing that a read could tell. -/
theorem memGet_write_same (m : Mem) (a x n : Nat) (h : Memory.wf m = true) :
    memGet (memWrite m a (memRead m a n)) x = memGet m x := by
  rw [memGet_write _ _ _ _ h]
  split_ifs with c
  · rw [memRead_length] at c
    rw [memRead_getD _ _ _ _ (by omega)]; congr 1; omega
  · rfl

/-! ## Numbers and bytes -/

@[simp] theorem bytesOfNat_length (x n : Nat) : (bytesOfNat x n).length = n := by
  induction n generalizing x with
  | zero => rfl
  | succ n ih => simp [bytesOfNat, ih]

theorem natOfBytes_ofNat (x n : Nat) : natOfBytes (bytesOfNat x n) = x % 2 ^ (8 * n) := by
  induction n generalizing x with
  | zero => simp [bytesOfNat, natOfBytes, Nat.mod_one]
  | succ n ih =>
    simp only [bytesOfNat, natOfBytes, ih, BitVec.toNat_ofNat]
    rw [show 2 ^ (8 * (n + 1)) = 2 ^ 8 * 2 ^ (8 * n) by rw [← pow_add]; congr 1; omega, Nat.mod_mul]
    norm_num

theorem natOfBytes_lt (bs : List Byte) : natOfBytes bs < 2 ^ (8 * bs.length) := by
  induction bs with
  | nil => simp [natOfBytes]
  | cons b r ih =>
    simp only [natOfBytes, List.length_cons]
    have := b.isLt
    rw [show 2 ^ (8 * (r.length + 1)) = 256 * 2 ^ (8 * r.length) by
      rw [show 8 * (r.length + 1) = 8 + 8 * r.length by omega, pow_add]; norm_num]
    omega

@[simp] theorem bytesOfWord_length (w : Word) : (bytesOfWord w).length = 4 := by simp [bytesOfWord]

theorem bytesOfWords_length (ws : List Word) : (bytesOfWords ws).length = 4 * ws.length := by
  induction ws with
  | nil => rfl
  | cons w r ih => simp only [bytesOfWords, List.flatMap_cons, List.length_append] at *; rw [ih]; simp; omega

theorem wordsOfBytes_ofWords (ws : List Word) : wordsOfBytes (bytesOfWords ws) = ws := by
  induction ws with
  | nil => rfl
  | cons w r ih =>
    have e : bytesOfWord w = [BitVec.ofNat 8 w.toNat, BitVec.ofNat 8 (w.toNat / 256), BitVec.ofNat 8 (w.toNat / 256 / 256),
        BitVec.ofNat 8 (w.toNat / 256 / 256 / 256)] := rfl
    simp only [bytesOfWords, List.flatMap_cons, e, List.cons_append, List.nil_append, wordsOfBytes] at *
    rw [ih]
    congr 1
    apply BitVec.eq_of_getLsbD_eq
    intro i hi
    simp only [BitVec.getLsbD_append, BitVec.getLsbD_ofNat, Nat.div_div_eq_div_mul]
    have hd : ∀ k j : Nat, (w.toNat / 2 ^ k).testBit j = w.getLsbD (k + j) := fun k j => by
      simp [Nat.testBit_div_two_pow, BitVec.getLsbD, Nat.add_comm]
    have h1 := hd 8 (i - 8)
    have h2 := hd 16 (i - 8 - 8)
    have h3 := hd 24 (i - 8 - 8 - 8)
    norm_num at h1 h2 h3 ⊢
    rw [h1, h2, h3]
    simp only [BitVec.getLsbD]
    split_ifs <;> grind

/-! ## What lies in memory, part by part -/

/-- The canonical form of every memory, as its parts. -/
theorem Mach.memoriesOk_iff (m : Mach) :
    m.memoriesOk = true ↔ Memory.wf m.mem = true ∧ Memory.wf m.hostMem = true ∧ ∀ x ∈ tabVals m.peerMem, Memory.wf x = true := by
  simp [Mach.memoriesOk, and_assoc]

theorem Mach.reset_memoriesOk : Mach.reset.memoriesOk = true := rfl

/-- A change that leaves the memories leaves their form. -/
theorem Mach.memoriesOk_congr {m m' : Mach} (h : m'.mem = m.mem) (hh : m'.hostMem = m.hostMem) (hp : m'.peerMem = m.peerMem) :
    m'.memoriesOk = m.memoriesOk := by simp [Mach.memoriesOk, h, hh, hp]

/-- A change of the module's own memory alone. -/
theorem Mach.memoriesOk_mem {m m' : Mach} (hm : m.memoriesOk = true) (h : Memory.wf m'.mem = true) (hh : m'.hostMem = m.hostMem)
    (hp : m'.peerMem = m.peerMem) : m'.memoriesOk = true := by
  obtain ⟨-, h2, h3⟩ := (Mach.memoriesOk_iff m).1 hm
  exact (Mach.memoriesOk_iff m').2 ⟨h, hh ▸ h2, hp ▸ h3⟩

theorem Mach.clearGranule_ok (m : Mach) (g : Nat) (h : m.memoriesOk = true) : (m.clearGranule g).memoriesOk = true := by
  unfold Mach.clearGranule
  split_ifs
  · exact Mach.memoriesOk_mem h (memFilter_wf _ _ ((Mach.memoriesOk_iff m).1 h).1) rfl rfl
  · exact h

/-- A granule to be cleared reads zero, and clearing it changes no byte that a reader sees through an unsealed page. -/
theorem Mach.clearGranule_view (m : Mach) (g a : Nat) : (m.clearGranule g).viewByte none a = m.viewByte none a := by
  unfold Mach.clearGranule
  split_ifs with hg
  · unfold Mach.viewByte
    simp only [List.contains_eq_mem, decide_eq_true_eq] at hg ⊢
    by_cases e : granuleOf a = g
    · subst e
      have hs : tabFind (⟨m.side.cells.filter fun c => c.1 / 2 ^ 14 != granuleOf a⟩ : Tab Side) (lineOf a) = none := by
        unfold tabFind
        simp only [cellsFind_filter (fun k => k / 2 ^ 14 != granuleOf a)]
        rw [if_neg (by simp [lineOf, granuleOf, Nat.div_div_eq_div_mul])]
      rw [if_neg (by simp), hs, if_pos hg]
      simp only [memGet_filter m.mem (fun x => granuleOf x != granuleOf a)]
      simp [Config.emptyByte]
    · have hs : tabFind (⟨m.side.cells.filter fun c => c.1 / 2 ^ 14 != g⟩ : Tab Side) (lineOf a) = tabFind m.side (lineOf a) := by
        unfold tabFind
        simp only [cellsFind_filter (fun k => k / 2 ^ 14 != g)]
        rw [if_pos (by simpa [lineOf, granuleOf, Nat.div_div_eq_div_mul] using e)]
      rw [hs]
      simp only [memGet_filter m.mem (fun x => granuleOf x != g)]
      simp [e]
  · rfl

theorem Mach.openLine_ok (m : Mach) (w : Option (Option Nat)) (line : Nat) (h : m.memoriesOk = true) :
    (m.openLine w line).memoriesOk = true := by
  have hw := ((Mach.memoriesOk_iff m).1 h).1
  unfold Mach.openLine
  repeat' split
  all_goals first
    | with_reducible exact h
    | (refine Mach.memoriesOk_mem h ?_ rfl rfl; dsimp only; first | exact memWrite_wf _ _ _ hw | exact hw)

theorem Mach.putBytes_ok (m : Mach) (w : Option (Option Nat)) (pa : Nat) (bs : List Byte) (h : m.memoriesOk = true) :
    (m.putBytes w pa bs).memoriesOk = true :=
  have g := Mach.openLine_ok _ w (lineOf pa) (Mach.clearGranule_ok m (granuleOf pa) h)
  Mach.memoriesOk_mem g (memWrite_wf _ _ _ ((Mach.memoriesOk_iff _).1 g).1) rfl rfl

/-- Several writes one after another. -/
theorem Mach.foldPut_ok {β : Type} (f : Mach → β → Mach) (hf : ∀ m b, m.memoriesOk = true → (f m b).memoriesOk = true) (l : List β)
    (m : Mach) (h : m.memoriesOk = true) : (l.foldl f m).memoriesOk = true := by
  induction l generalizing m with
  | nil => exact h
  | cons b r ih => exact ih _ (hf m b h)

theorem Mach.clearGranule_clean (m : Mach) (g : Nat) (h : m.scrub.contains g = false) : m.clearGranule g = m := by
  unfold Mach.clearGranule; rw [if_neg (by simpa using h)]

theorem Mach.openLine_plain (m : Mach) (line : Nat) (h : tabFind m.side line = none) : m.openLine none line = m := by
  unfold Mach.openLine; rw [h]

/-- Bytes written on a line that is neither to be cleared nor sealed: they are there, and every other byte is as before. -/
theorem Mach.putBytes_plain (m : Mach) (pa : Nat) (bs : List Byte) (hs : m.scrub.contains (granuleOf pa) = false)
    (hl : tabFind m.side (lineOf pa) = none) : m.putBytes none pa bs = { m with mem := memWrite m.mem pa bs } := by
  simp only [Mach.putBytes, Mach.clearGranule_clean _ _ hs, Mach.openLine_plain _ _ hl, Option.isSome_none, Bool.false_eq_true, if_false]

theorem Mach.farWrite_ok (m : Mach) (p : Place) (bs : List Byte) (h : m.memoriesOk = true) : (m.farWrite p bs).memoriesOk = true := by
  obtain ⟨h1, h2, h3⟩ := (Mach.memoriesOk_iff m).1 h
  cases p with
  | dev => exact h
  | spad => exact h
  | host a => exact (Mach.memoriesOk_iff _).2 ⟨h1, memWrite_wf _ _ _ h2, h3⟩
  | peer k a =>
    refine (Mach.memoriesOk_iff _).2 ⟨h1, h2, fun x hx => ?_⟩
    have hp : Memory.wf (tabGet m.peerMem k ⟨[]⟩) = true := by
      unfold tabGet
      cases hf : tabFind m.peerMem k with
      | none => rfl
      | some y => exact h3 y (List.mem_map.2 ⟨(k, y), cellsFind_mem hf, rfl⟩)
    obtain ⟨c, hc, rfl⟩ := List.mem_map.1 hx
    rcases mem_cellsSet hc with rfl | hc
    · exact memWrite_wf _ _ _ hp
    · exact h3 _ (List.mem_map.2 ⟨c, hc, rfl⟩)

/-- What was written to host memory reads back. -/
theorem Mach.farRead_write_host (m : Mach) (a : Nat) (bs : List Byte) (h : m.memoriesOk = true) :
    (m.farWrite (.host a) bs).farRead (.host a) bs.length = bs :=
  memRead_write m.hostMem a bs ((Mach.memoriesOk_iff m).1 h).2.1

theorem Mach.copyFrame_ok (m : Mach) (old new n : Nat) (h : m.memoriesOk = true) : (m.copyFrame old new n).memoriesOk = true := by
  unfold Mach.copyFrame
  have g := Mach.foldPut_ok Mach.clearGranule Mach.clearGranule_ok
    (m.scrub.filter fun g => inRange old n (g * 2 ^ 21) || inRange new n (g * 2 ^ 21) || g == old / 2 ^ 21 || g == new / 2 ^ 21) m h
  exact Mach.memoriesOk_mem g (foldSet_wf (fun c => new + (c.1 - old)) _ _ (memFilter_wf _ _ ((Mach.memoriesOk_iff _).1 g).1)) rfl rfl

theorem Mach.loadImage_ok (m : Mach) (c : Checkpoint) (h : m.memoriesOk = true) : (m.loadImage c).memoriesOk = true :=
  Mach.memoriesOk_mem h (foldSet_wf (fun c => c.1) _ _ ((Mach.memoriesOk_iff m).1 h).1) rfl rfl

theorem onlyFast_wf (m : Mem) (h : Memory.wf m = true) : Memory.wf (onlyFast m) = true := memFilter_wf m _ h
theorem onlyCapacity_wf (m : Mem) (h : Memory.wf m = true) : Memory.wf (onlyCapacity m) = true := memFilter_wf m _ h

theorem Mach.returnFrame_ok (m : Mach) (f : PoolFrame) (h : m.memoriesOk = true) : (m.returnFrame f).memoriesOk = true := by
  have hw := ((Mach.memoriesOk_iff m).1 h).1
  unfold Mach.returnFrame
  repeat' split
  all_goals first
    | (refine Mach.memoriesOk_mem h ?_ rfl rfl; exact memFilter_wf _ _ hw)
    | exact Mach.memoriesOk_mem h hw rfl rfl

theorem Mach.bench_ok (m : Mach) (nbits w : Nat) (h : m.memoriesOk = true) : (m.bench nbits w).memoriesOk = true := by
  refine Mach.memoriesOk_mem h ?_ rfl rfl
  have hw := ((Mach.memoriesOk_iff m).1 h).1
  dsimp only [Mach.bench]
  exact memWrite_wf _ _ _ (memWrite_wf _ _ _ (memWrite_wf _ _ _ hw))

/-- A scratchpad store keeps the form of the scratchpad. -/
theorem storeSpad_wf (b : Block) (a : Nat) (bs : List Byte) (h : Memory.wf b.spad = true) : Memory.wf (memWrite b.spad a bs) = true :=
  memWrite_wf _ _ _ h

end Sys2Proof.Machine
end

