-- ==== Sys2Proof/Laws/PerInstr.lean ====
section
/-! SUPPORT. One lemma per instruction: the first word of its encoding carries an opcode of the opcode map (R347), so that a clause of
that class admits it; a step of the part has no words. -/

namespace Sys2Proof.Laws

open Sys2Proof

/-- The upper part of joined bits. -/
theorem append_shift {m n : Nat} (x : BitVec m) (y : BitVec n) : (x ++ y).toNat >>> n = x.toNat := by
  rw [BitVec.toNat_append, ← Nat.shiftLeft_add_eq_or_of_lt y.isLt, Nat.shiftRight_eq_div_pow, Nat.shiftLeft_eq,
    Nat.mul_comm, Nat.mul_add_div (Nat.two_pow_pos n), Nat.div_eq_of_lt y.isLt, Nat.add_zero]

/-- The opcode of the first word. -/
theorem opcode_encHead (op : BitVec 8) (h : Head) (d a : Operand) : opcode (encHead op h d a) = op.toNat := by
  rw [opcode, encHead, show 24 = 8 + (8 + (3 + (3 + 2))) from rfl]
  simp only [Nat.shiftRight_add]
  rw [append_shift, append_shift, append_shift, append_shift, append_shift]

end Sys2Proof.Laws

/-- What the family says of an instruction: the opcode of its first word has a class. -/
def Sys2Proof.Laws.OpcodeHasClass.Statement (i : Sys2Proof.Instr) : Prop :=
  ∀ w ∈ (Sys2Proof.encode i).head?, (Sys2Proof.opClass (Sys2Proof.opcode w)).isSome = true

namespace Sys2Proof.Laws.OpcodeHasClass

open Sys2Proof

/-- Words that begin with a legal opcode. -/
theorem of_head (op : BitVec 8) (h : Head) (d a : Operand) (rest : List Word) (hc : (opClass op.toNat).isSome = true) :
    ∀ w ∈ (encHead op h d a :: rest).head?, (opClass (opcode w)).isSome = true := by
  rintro w hw
  cases hw
  rw [opcode_encHead]; exact hc

theorem of_nil : ∀ w ∈ ([] : List Word).head?, (opClass (opcode w)).isSome = true := by
  rintro w hw
  cases hw

theorem nop (i : FormA) : Statement (.nop i) := of_head 0x00 _ _ _ _ rfl
theorem exitA (i : FormA) : Statement (.exitA i) := of_head 0x01 _ _ _ _ rfl
theorem exitB (i : FormB NoMods) : Statement (.exitB i) := of_head 0x01 _ _ _ _ rfl
theorem bra (i : FormD) : Statement (.bra i) := of_head 0x02 _ _ _ _ rfl
theorem brxA (i : FormA) : Statement (.brxA i) := of_head 0x03 _ _ _ _ rfl
theorem brxB (i : FormB NoMods) : Statement (.brxB i) := of_head 0x03 _ _ _ _ rfl
theorem call (i : FormD) : Statement (.call i) := of_head 0x04 _ _ _ _ rfl
theorem callxA (i : FormA) : Statement (.callxA i) := of_head 0x05 _ _ _ _ rfl
theorem callxB (i : FormB NoMods) : Statement (.callxB i) := of_head 0x05 _ _ _ _ rfl
theorem retA (i : FormA) : Statement (.retA i) := of_head 0x06 _ _ _ _ rfl
theorem retB (i : FormB NoMods) : Statement (.retB i) := of_head 0x06 _ _ _ _ rfl
theorem wjoin (i : FormA) : Statement (.wjoin i) := of_head 0x07 _ _ _ _ rfl
theorem yield (i : FormA) : Statement (.yield i) := of_head 0x08 _ _ _ _ rfl
theorem trap (i : FormC NoMods) : Statement (.trap i) := of_head 0x09 _ _ _ _ rfl
theorem signalA (i : FormA) : Statement (.signalA i) := of_head 0x0A _ _ _ _ rfl
theorem signalB (i : FormB NoMods) : Statement (.signalB i) := of_head 0x0A _ _ _ _ rfl
theorem spawn (i : FormB NoMods) : Statement (.spawn i) := of_head 0x0B _ _ _ _ rfl
theorem spawnRetry (bid warp : Nat) : Statement (.spawnRetry bid warp) := of_nil
theorem binTimerExpiry (core bin : Nat) : Statement (.binTimerExpiry core bin) := of_nil
theorem broodWarpLaunch (bid : Nat) : Statement (.broodWarpLaunch bid) := of_nil
theorem gangA (i : FormA) : Statement (.gangA i) := of_head 0x0C _ _ _ _ rfl
theorem gangB (i : FormB GangMods) : Statement (.gangB i) := of_head 0x0C _ _ _ _ rfl
theorem iaddB (i : FormB AddMods) : Statement (.iaddB i) := of_head 0x10 _ _ _ _ rfl
theorem iaddC (i : FormC AddMods) : Statement (.iaddC i) := of_head 0x10 _ _ _ _ rfl
theorem isubB (i : FormB AddMods) : Statement (.isubB i) := of_head 0x11 _ _ _ _ rfl
theorem isubC (i : FormC AddMods) : Statement (.isubC i) := of_head 0x11 _ _ _ _ rfl
theorem imulB (i : FormB MulMods) : Statement (.imulB i) := of_head 0x12 _ _ _ _ rfl
theorem imulC (i : FormC MulMods) : Statement (.imulC i) := of_head 0x12 _ _ _ _ rfl
theorem imad (i : FormB MadMods) : Statement (.imad i) := of_head 0x13 _ _ _ _ rfl
theorem imadw (i : FormB MadwMods) : Statement (.imadw i) := of_head 0x14 _ _ _ _ rfl
theorem iminB (i : FormB MinMaxMods) : Statement (.iminB i) := of_head 0x15 _ _ _ _ rfl
theorem iminC (i : FormC MinMaxMods) : Statement (.iminC i) := of_head 0x15 _ _ _ _ rfl
theorem imaxB (i : FormB MinMaxMods) : Statement (.imaxB i) := of_head 0x16 _ _ _ _ rfl
theorem imaxC (i : FormC MinMaxMods) : Statement (.imaxC i) := of_head 0x16 _ _ _ _ rfl
theorem iabsA (i : FormA) : Statement (.iabsA i) := of_head 0x17 _ _ _ _ rfl
theorem iabsB (i : FormB AbsMods) : Statement (.iabsB i) := of_head 0x17 _ _ _ _ rfl
theorem icmpB (i : FormB IcmpMods) : Statement (.icmpB i) := of_head 0x18 _ _ _ _ rfl
theorem icmpC (i : FormC IcmpMods) : Statement (.icmpC i) := of_head 0x18 _ _ _ _ rfl
theorem isel (i : FormB NoMods) : Statement (.isel i) := of_head 0x19 _ _ _ _ rfl
theorem andB (i : FormB LogicMods) : Statement (.andB i) := of_head 0x1A _ _ _ _ rfl
theorem andC (i : FormC LogicMods) : Statement (.andC i) := of_head 0x1A _ _ _ _ rfl
theorem orB (i : FormB LogicMods) : Statement (.orB i) := of_head 0x1B _ _ _ _ rfl
theorem orC (i : FormC LogicMods) : Statement (.orC i) := of_head 0x1B _ _ _ _ rfl
theorem xorB (i : FormB LogicMods) : Statement (.xorB i) := of_head 0x1C _ _ _ _ rfl
theorem xorC (i : FormC LogicMods) : Statement (.xorC i) := of_head 0x1C _ _ _ _ rfl
theorem shlB (i : FormB ShiftMods) : Statement (.shlB i) := of_head 0x1D _ _ _ _ rfl
theorem shlC (i : FormC ShiftMods) : Statement (.shlC i) := of_head 0x1D _ _ _ _ rfl
theorem shrB (i : FormB ShiftMods) : Statement (.shrB i) := of_head 0x1E _ _ _ _ rfl
theorem shrC (i : FormC ShiftMods) : Statement (.shrC i) := of_head 0x1E _ _ _ _ rfl
theorem sarB (i : FormB ShiftMods) : Statement (.sarB i) := of_head 0x1F _ _ _ _ rfl
theorem sarC (i : FormC ShiftMods) : Statement (.sarC i) := of_head 0x1F _ _ _ _ rfl
theorem bfeB (i : FormB BfeMods) : Statement (.bfeB i) := of_head 0x20 _ _ _ _ rfl
theorem bfeC (i : FormC BfeMods) : Statement (.bfeC i) := of_head 0x20 _ _ _ _ rfl
theorem bfi (i : FormB NoMods) : Statement (.bfi i) := of_head 0x21 _ _ _ _ rfl
theorem popcA (i : FormA) : Statement (.popcA i) := of_head 0x22 _ _ _ _ rfl
theorem popcB (i : FormB NoMods) : Statement (.popcB i) := of_head 0x22 _ _ _ _ rfl
theorem clzA (i : FormA) : Statement (.clzA i) := of_head 0x23 _ _ _ _ rfl
theorem clzB (i : FormB NoMods) : Statement (.clzB i) := of_head 0x23 _ _ _ _ rfl
theorem brevA (i : FormA) : Statement (.brevA i) := of_head 0x24 _ _ _ _ rfl
theorem brevB (i : FormB NoMods) : Statement (.brevB i) := of_head 0x24 _ _ _ _ rfl
theorem leaB (i : FormB LeaMods) : Statement (.leaB i) := of_head 0x25 _ _ _ _ rfl
theorem leaC (i : FormC LeaMods) : Statement (.leaC i) := of_head 0x25 _ _ _ _ rfl
theorem movA (i : FormA) : Statement (.movA i) := of_head 0x26 _ _ _ _ rfl
theorem movB (i : FormB MovMods) : Statement (.movB i) := of_head 0x26 _ _ _ _ rfl
theorem movi (i : FormE) : Statement (.movi i) := of_head 0x27 _ _ _ _ rfl
theorem movsA (i : FormA) : Statement (.movsA i) := of_head 0x28 _ _ _ _ rfl
theorem movsB (i : FormB MovsMods) : Statement (.movsB i) := of_head 0x28 _ _ _ _ rfl
theorem taggetA (i : FormA) : Statement (.taggetA i) := of_head 0x29 _ _ _ _ rfl
theorem taggetB (i : FormB NoMods) : Statement (.taggetB i) := of_head 0x29 _ _ _ _ rfl
theorem padd (i : FormB PaddMods) : Statement (.padd i) := of_head 0x30 _ _ _ _ rfl
theorem psub (i : FormB PaddMods) : Statement (.psub i) := of_head 0x31 _ _ _ _ rfl
theorem pmin (i : FormB PminMods) : Statement (.pmin i) := of_head 0x32 _ _ _ _ rfl
theorem pmax (i : FormB PminMods) : Statement (.pmax i) := of_head 0x33 _ _ _ _ rfl
theorem pcmp (i : FormB PcmpMods) : Statement (.pcmp i) := of_head 0x34 _ _ _ _ rfl
theorem pdot4 (i : FormB Pdot4Mods) : Statement (.pdot4 i) := of_head 0x35 _ _ _ _ rfl
theorem faddB (i : FormB FaddMods) : Statement (.faddB i) := of_head 0x40 _ _ _ _ rfl
theorem faddC (i : FormC FaddMods) : Statement (.faddC i) := of_head 0x40 _ _ _ _ rfl
theorem fmulB (i : FormB FaddMods) : Statement (.fmulB i) := of_head 0x41 _ _ _ _ rfl
theorem fmulC (i : FormC FaddMods) : Statement (.fmulC i) := of_head 0x41 _ _ _ _ rfl
theorem ffma (i : FormB FfmaMods) : Statement (.ffma i) := of_head 0x42 _ _ _ _ rfl
theorem fminB (i : FormB FminMods) : Statement (.fminB i) := of_head 0x43 _ _ _ _ rfl
theorem fminC (i : FormC FminMods) : Statement (.fminC i) := of_head 0x43 _ _ _ _ rfl
theorem fmaxB (i : FormB FminMods) : Statement (.fmaxB i) := of_head 0x44 _ _ _ _ rfl
theorem fmaxC (i : FormC FminMods) : Statement (.fmaxC i) := of_head 0x44 _ _ _ _ rfl
theorem fcmpB (i : FormB FcmpMods) : Statement (.fcmpB i) := of_head 0x45 _ _ _ _ rfl
theorem fcmpC (i : FormC FcmpMods) : Statement (.fcmpC i) := of_head 0x45 _ _ _ _ rfl
theorem frnd (i : FormB FrndMods) : Statement (.frnd i) := of_head 0x46 _ _ _ _ rfl
theorem hadd2 (i : FormB HalfMods) : Statement (.hadd2 i) := of_head 0x47 _ _ _ _ rfl
theorem hmul2 (i : FormB HalfMods) : Statement (.hmul2 i) := of_head 0x48 _ _ _ _ rfl
theorem hfma2 (i : FormB HalfMods) : Statement (.hfma2 i) := of_head 0x49 _ _ _ _ rfl
theorem hmax2 (i : FormB HalfMods) : Statement (.hmax2 i) := of_head 0x4A _ _ _ _ rfl
theorem frcpA (i : FormA) : Statement (.frcpA i) := of_head 0x50 _ _ _ _ rfl
theorem frcpB (i : FormB SpecialMods) : Statement (.frcpB i) := of_head 0x50 _ _ _ _ rfl
theorem frsqA (i : FormA) : Statement (.frsqA i) := of_head 0x51 _ _ _ _ rfl
theorem frsqB (i : FormB SpecialMods) : Statement (.frsqB i) := of_head 0x51 _ _ _ _ rfl
theorem fsqrtA (i : FormA) : Statement (.fsqrtA i) := of_head 0x52 _ _ _ _ rfl
theorem fsqrtB (i : FormB SpecialMods) : Statement (.fsqrtB i) := of_head 0x52 _ _ _ _ rfl
theorem fexp2A (i : FormA) : Statement (.fexp2A i) := of_head 0x53 _ _ _ _ rfl
theorem fexp2B (i : FormB SpecialMods) : Statement (.fexp2B i) := of_head 0x53 _ _ _ _ rfl
theorem flog2A (i : FormA) : Statement (.flog2A i) := of_head 0x54 _ _ _ _ rfl
theorem flog2B (i : FormB SpecialMods) : Statement (.flog2B i) := of_head 0x54 _ _ _ _ rfl
theorem fsinA (i : FormA) : Statement (.fsinA i) := of_head 0x55 _ _ _ _ rfl
theorem fsinB (i : FormB SpecialMods) : Statement (.fsinB i) := of_head 0x55 _ _ _ _ rfl
theorem fcosA (i : FormA) : Statement (.fcosA i) := of_head 0x56 _ _ _ _ rfl
theorem fcosB (i : FormB SpecialMods) : Statement (.fcosB i) := of_head 0x56 _ _ _ _ rfl
theorem cvt (i : FormB CvtMods) : Statement (.cvt i) := of_head 0x57 _ _ _ _ rfl
theorem cvtq (i : FormB CvtqMods) : Statement (.cvtq i) := of_head 0x58 _ _ _ _ rfl
theorem hadqA (i : FormA) : Statement (.hadqA i) := of_head 0x59 _ _ _ _ rfl
theorem hadqB (i : FormB HadqMods) : Statement (.hadqB i) := of_head 0x59 _ _ _ _ rfl
theorem shflB (i : FormB ShflMods) : Statement (.shflB i) := of_head 0x60 _ _ _ _ rfl
theorem shflC (i : FormC ShflMods) : Statement (.shflC i) := of_head 0x60 _ _ _ _ rfl
theorem vote (i : FormB VoteMods) : Statement (.vote i) := of_head 0x61 _ _ _ _ rfl
theorem redw (i : FormB RedMods) : Statement (.redw i) := of_head 0x62 _ _ _ _ rfl
theorem scanw (i : FormB RedMods) : Statement (.scanw i) := of_head 0x63 _ _ _ _ rfl
theorem matchw (i : FormB MatchMods) : Statement (.matchw i) := of_head 0x64 _ _ _ _ rfl
theorem ldB (i : FormB LoadMods) : Statement (.ldB i) := of_head 0x70 _ _ _ _ rfl
theorem ldC (i : FormC LoadMods) : Statement (.ldC i) := of_head 0x70 _ _ _ _ rfl
theorem stB (i : FormB StoreMods) : Statement (.stB i) := of_head 0x71 _ _ _ _ rfl
theorem stC (i : FormC StoreMods) : Statement (.stC i) := of_head 0x71 _ _ _ _ rfl
theorem ldsB (i : FormB LoadMods) : Statement (.ldsB i) := of_head 0x72 _ _ _ _ rfl
theorem ldsC (i : FormC LoadMods) : Statement (.ldsC i) := of_head 0x72 _ _ _ _ rfl
theorem stsB (i : FormB StoreMods) : Statement (.stsB i) := of_head 0x73 _ _ _ _ rfl
theorem stsC (i : FormC StoreMods) : Statement (.stsC i) := of_head 0x73 _ _ _ _ rfl
theorem ldlB (i : FormB LoadMods) : Statement (.ldlB i) := of_head 0x74 _ _ _ _ rfl
theorem ldlC (i : FormC LoadMods) : Statement (.ldlC i) := of_head 0x74 _ _ _ _ rfl
theorem stlB (i : FormB StoreMods) : Statement (.stlB i) := of_head 0x75 _ _ _ _ rfl
theorem stlC (i : FormC StoreMods) : Statement (.stlC i) := of_head 0x75 _ _ _ _ rfl
theorem ldb (i : FormB LdbMods) : Statement (.ldb i) := of_head 0x76 _ _ _ _ rfl
theorem wrungLoadPerform (id : Nat) : Statement (.wrungLoadPerform id) := of_nil
theorem prefB (i : FormB PrefMods) : Statement (.prefB i) := of_head 0x77 _ _ _ _ rfl
theorem prefC (i : FormC PrefMods) : Statement (.prefC i) := of_head 0x77 _ _ _ _ rfl
theorem atom (i : FormB AtomMods) : Statement (.atom i) := of_head 0x78 _ _ _ _ rfl
theorem cas (i : FormB CasMods) : Statement (.cas i) := of_head 0x79 _ _ _ _ rfl
theorem sbin (i : FormB NoMods) : Statement (.sbin i) := of_head 0x7A _ _ _ _ rfl
theorem fence (i : FormB FenceMods) : Statement (.fence i) := of_head 0x7B _ _ _ _ rfl
theorem fenceComplete (bid warp : Nat) : Statement (.fenceComplete bid warp) := of_nil
theorem press (i : FormB PressMods) : Statement (.press i) := of_head 0x80 _ _ _ _ rfl
theorem pressr (i : FormB PressMods) : Statement (.pressr i) := of_head 0x81 _ _ _ _ rfl
theorem pdef (i : FormB NoMods) : Statement (.pdef i) := of_head 0x82 _ _ _ _ rfl
theorem pdrop (i : FormC NoMods) : Statement (.pdrop i) := of_head 0x83 _ _ _ _ rfl
theorem pdropComplete (ctx opc : Nat) : Statement (.pdropComplete ctx opc) := of_nil
theorem binit (i : FormB BarrierMods) : Statement (.binit i) := of_head 0x84 _ _ _ _ rfl
theorem barv (i : FormB BarrierMods) : Statement (.barv i) := of_head 0x85 _ _ _ _ rfl
theorem bwait (i : FormB BarrierMods) : Statement (.bwait i) := of_head 0x86 _ _ _ _ rfl
theorem btest (i : FormB BarrierMods) : Statement (.btest i) := of_head 0x87 _ _ _ _ rfl
theorem bexp (i : FormB BarrierMods) : Statement (.bexp i) := of_head 0x88 _ _ _ _ rfl
theorem ckickA (i : FormA) : Statement (.ckickA i) := of_head 0x89 _ _ _ _ rfl
theorem ckickB (i : FormB NoMods) : Statement (.ckickB i) := of_head 0x89 _ _ _ _ rfl
theorem tierA (i : FormA) : Statement (.tierA i) := of_head 0x8A _ _ _ _ rfl
theorem tierB (i : FormB NoMods) : Statement (.tierB i) := of_head 0x8A _ _ _ _ rfl
theorem mmaA (i : FormA) : Statement (.mmaA i) := of_head 0x8B _ _ _ _ rfl
theorem mmaB (i : FormB NoMods) : Statement (.mmaB i) := of_head 0x8B _ _ _ _ rfl
theorem talloc (i : FormC NoMods) : Statement (.talloc i) := of_head 0x8C _ _ _ _ rfl
theorem tallocGrant (core : Nat) : Statement (.tallocGrant core) := of_nil
theorem tfree (i : FormA) : Statement (.tfree i) := of_head 0x8D _ _ _ _ rfl
theorem tfreeRelease (core tile : Nat) : Statement (.tfreeRelease core tile) := of_nil
theorem tdrain (i : FormB DrainMods) : Statement (.tdrain i) := of_head 0x8E _ _ _ _ rfl
theorem relg (i : FormB NoMods) : Statement (.relg i) := of_head 0x8F _ _ _ _ rfl
theorem csrd (i : FormC NoMods) : Statement (.csrd i) := of_head 0x90 _ _ _ _ rfl
theorem csrw (i : FormC NoMods) : Statement (.csrw i) := of_head 0x91 _ _ _ _ rfl
theorem rendezvousExecute (bid slot : Nat) : Statement (.rendezvousExecute bid slot) := of_nil
theorem blockRetirement (bid : Nat) : Statement (.blockRetirement bid) := of_nil
theorem stampTick (core : Nat) : Statement (.stampTick core) := of_nil
theorem pressApplication (id : Nat) : Statement (.pressApplication id) := of_nil
theorem channelPressApplication (id : Nat) : Statement (.channelPressApplication id) := of_nil
theorem channelAck (id : Nat) : Statement (.channelAck id) := of_nil
theorem combineEntryTimeout (cluster id : Nat) : Statement (.combineEntryTimeout cluster id) := of_nil
theorem remotePressRequest (r : RemotePress) : Statement (.remotePressRequest r) := of_nil
theorem trackerAgeDrain (holder line : Nat) : Statement (.trackerAgeDrain holder line) := of_nil
theorem drainApply (id : Nat) : Statement (.drainApply id) := of_nil
theorem umonInterval (monitor : Unit) : Statement (.umonInterval monitor) := of_nil
theorem mmaCommandStart (core : Nat) : Statement (.mmaCommandStart core) := of_nil
theorem mmaComplete (core : Nat) : Statement (.mmaComplete core) := of_nil
theorem tdrainExecute (core : Nat) : Statement (.tdrainExecute core) := of_nil
theorem copyCommandStart (core ctx chan : Nat) : Statement (.copyCommandStart core ctx chan) := of_nil
theorem copyComplete (core ctx chan : Nat) : Statement (.copyComplete core ctx chan) := of_nil
theorem tierPageMove (core ctx chan : Nat) : Statement (.tierPageMove core ctx chan) := of_nil
theorem lqRingWrite (queue : Nat) (value : BitVec 64) : Statement (.lqRingWrite queue value) := of_nil
theorem lqWake (queue : Nat) (value : Word) : Statement (.lqWake queue value) := of_nil
theorem launchRecordRead (queue : Nat) : Statement (.launchRecordRead queue) := of_nil
theorem launchDispatch (launch : Nat) : Statement (.launchDispatch launch) := of_nil
theorem blockPlacement (launch : Nat) : Statement (.blockPlacement launch) := of_nil
theorem launchBlocking (launch : Nat) : Statement (.launchBlocking launch) := of_nil
theorem preemptDeadlineExpiry (ctx : Nat) : Statement (.preemptDeadlineExpiry ctx) := of_nil
theorem contextSwitchOut (ctx : Nat) : Statement (.contextSwitchOut ctx) := of_nil
theorem watchdogInternal (ctx : Nat) : Statement (.watchdogInternal ctx) := of_nil
theorem watchdogExternal (ctx : Nat) : Statement (.watchdogExternal ctx) := of_nil
theorem wdogWrite (ctx : Nat) (ext : Bool) (value : Word) : Statement (.wdogWrite ctx ext value) := of_nil
theorem coreSplitWrite (ctx : Nat) (value : Word) : Statement (.coreSplitWrite ctx value) := of_nil
theorem warpSuspendTimeout (bid warp : Nat) : Statement (.warpSuspendTimeout bid warp) := of_nil
theorem faultEntryWrite (ctx : Nat) : Statement (.faultEntryWrite ctx) := of_nil
theorem resume (ctx : Nat) (hold : BitVec 16) : Statement (.resume ctx hold) := of_nil
theorem discard (ctx : Nat) (hold : BitVec 16) : Statement (.discard ctx hold) := of_nil
theorem resolve (ctx : Nat) (region : Word) : Statement (.resolve ctx region) := of_nil
theorem failpg (ctx : Nat) (region : Word) : Statement (.failpg ctx region) := of_nil
theorem abort (ctx : Nat) (hold : BitVec 16) : Statement (.abort ctx hold) := of_nil
theorem reset (ctx : Nat) : Statement (.reset ctx) := of_nil
theorem tlbInv (ctx : Nat) (value : BitVec 64) : Statement (.tlbInv ctx value) := of_nil
theorem tlbInvComplete (ctx : Nat) : Statement (.tlbInvComplete ctx) := of_nil
theorem blockSave (bid : Nat) : Statement (.blockSave bid) := of_nil
theorem arrivalLogAppend (ctx : Nat) (a : Arrival) : Statement (.arrivalLogAppend ctx a) := of_nil
theorem logRefusalRetry (ctx sender : Nat) : Statement (.logRefusalRetry ctx sender) := of_nil
theorem releaseGateProcess : Statement (.releaseGateProcess) := of_nil
theorem hostMemoryRequest (r : HostRequest) : Statement (.hostMemoryRequest r) := of_nil
theorem peerModuleRequest (r : PeerRequest) : Statement (.peerModuleRequest r) := of_nil
theorem ideCounterLimit (stream : Nat) : Statement (.ideCounterLimit stream) := of_nil
theorem ideKeyTimeout (stream : Nat) : Statement (.ideKeyTimeout stream) := of_nil
theorem lockInterface (fn : Nat) : Statement (.lockInterface fn) := of_nil
theorem auditWalk (fn : Nat) : Statement (.auditWalk fn) := of_nil
theorem lockedRegisterWrite (fn : Nat) (off : Nat) (value : BitVec 64) : Statement (.lockedRegisterWrite fn off value) := of_nil
theorem functionLevelReset (fn : Nat) : Statement (.functionLevelReset fn) := of_nil
theorem scrubGranule (granule : Nat) : Statement (.scrubGranule granule) := of_nil
theorem linkPortFailure (port : Nat) : Statement (.linkPortFailure port) := of_nil
theorem linkTargetTimeout (modid : Nat) : Statement (.linkTargetTimeout modid) := of_nil
theorem alertBackoff (bank : Nat) : Statement (.alertBackoff bank) := of_nil
theorem throttleStep (lower : Bool) : Statement (.throttleStep lower) := of_nil
theorem status (m : MboxHead) : Statement (.status m) := of_nil
theorem preempt (m : MboxHead) (ctx : Nat) : Statement (.preempt m ctx) := of_nil
theorem restore (m : MboxHead) (ctx : Nat) : Statement (.restore m ctx) := of_nil
theorem pooladd (m : MboxHead) (ctx : Nat) (capacity : Bool) (frames : List PoolFrame) : Statement (.pooladd m ctx capacity frames) := of_nil
theorem setaper (m : MboxHead) (ctx : Nat) (base : BitVec 48) : Statement (.setaper m ctx base) := of_nil
theorem checkpoint (m : MboxHead) : Statement (.checkpoint m) := of_nil
theorem sleep (m : MboxHead) : Statement (.sleep m) := of_nil
theorem sleepWake : Statement (.sleepWake) := of_nil
theorem keyprov (m : MboxHead) (ctx : Nat) (key : BitVec 256) : Statement (.keyprov m ctx key) := of_nil
theorem assign (m : MboxHead) (fn : Nat) (clusters queues : List Nat) : Statement (.assign m fn clusters queues) := of_nil
theorem grant (m : MboxHead) (fn : Nat) (allow : Bool) : Statement (.grant m fn allow) := of_nil
theorem powercap (m : MboxHead) (steps : Nat) : Statement (.powercap m steps) := of_nil
theorem debug (m : MboxHead) (a : DebugAccess) : Statement (.debug m a) := of_nil
theorem dumprd (m : MboxHead) : Statement (.dumprd m) := of_nil
theorem fatalError : Statement (.fatalError) := of_nil
theorem securityAlarm : Statement (.securityAlarm) := of_nil
theorem l2ProtWrite (value : Word) : Statement (.l2ProtWrite value) := of_nil
theorem l2UmonWrite (value : Word) : Statement (.l2UmonWrite value) := of_nil
theorem quotaWrite (device : Nat) (second : Bool) (value : Word) : Statement (.quotaWrite device second value) := of_nil
theorem registerWrite (fn off : Nat) (value : BitVec 64) : Statement (.registerWrite fn off value) := of_nil
theorem capacityTierSupplyLoss : Statement (.capacityTierSupplyLoss) := of_nil
theorem powerUp : Statement (.powerUp) := of_nil
theorem dieReset (compute cache hbm : Bool) : Statement (.dieReset compute cache hbm) := of_nil
theorem linkTraining (port : Nat) : Statement (.linkTraining port) := of_nil
theorem systemConfiguration (modid : BitVec 12) : Statement (.systemConfiguration modid) := of_nil
theorem missedLinkHeartbeats (modid : Nat) : Statement (.missedLinkHeartbeats modid) := of_nil
theorem ideKeySetSelection (fn stream : Nat) : Statement (.ideKeySetSelection fn stream) := of_nil
theorem ideCounterWarning (stream : Nat) : Statement (.ideCounterWarning stream) := of_nil
theorem spdmSessionEstablishment (fn : Nat) : Statement (.spdmSessionEstablishment fn) := of_nil
theorem contextCreation (ctx : Nat) : Statement (.contextCreation ctx) := of_nil
theorem contextDestruction (ctx : Nat) : Statement (.contextDestruction ctx) := of_nil
theorem latencyVResult (bid warp id : Nat) : Statement (.latencyVResult bid warp id) := of_nil
theorem postedWriteFailure (id : Nat) (status : Nat) : Statement (.postedWriteFailure id status) := of_nil
theorem softError (unit : ErrorUnit) : Statement (.softError unit) := of_nil
theorem functionResetComplete (fn : Nat) : Statement (.functionResetComplete fn) := of_nil

end Sys2Proof.Laws.OpcodeHasClass
end

