-- ==== Sys2Proof/Laws/ShapeLaw.lean ====
section
/-! SUPPORT. An instruction built by one of the shared shapes computes what its value function says, under any name of it. -/

namespace Sys2Proof.Machine

variable {i : Instr} {t : Timing} {k : Kinds}

theorem fixed_timed (n : Nat) : Timing.fixed n ≠ .atIssue ∧ Timing.fixed n ≠ .open_ := ⟨by simp, by simp⟩
theorem later_timed : Timing.later ≠ .atIssue ∧ Timing.later ≠ .open_ := ⟨by simp, by simp⟩

theorem computes2_of {μ : Type} {f : FormB μ} {v val : Word → Word → Word} (ht : t ≠ .atIssue ∧ t ≠ .open_)
    (he : ∀ s, exec i s = issueOp i (binB f t k v) s) (ho : opOf i = some (binB f t k v)) (hv : ∀ a b, v a b = val a b) :
    Computes2 i f t k val := by
  obtain rfl : v = val := by funext a b; exact hv a b
  exact computes_of (pureOp_register _ _ _ ht _ _ _) he ho

theorem computes2Imm_of {μ : Type} {f : FormC μ} {imm : Word} {v val : Word → Word → Word} (ht : t ≠ .atIssue ∧ t ≠ .open_)
    (he : ∀ s, exec i s = issueOp i (binC f t k imm v) s) (ho : opOf i = some (binC f t k imm v)) (hv : ∀ a b, v a b = val a b) :
    Computes2Imm i f t k imm val := by
  obtain rfl : v = val := by funext a b; exact hv a b
  exact computes_of (pureOp_register _ _ _ ht _ _ _) he ho

theorem computes3_of {μ : Type} {f : FormB μ} {v val : Word → Word → Word → Word} (ht : t ≠ .atIssue ∧ t ≠ .open_)
    (he : ∀ s, exec i s = issueOp i (triB f t k v) s) (ho : opOf i = some (triB f t k v)) (hv : ∀ a b c, v a b c = val a b c) :
    Computes3 i f t k val := by
  obtain rfl : v = val := by funext a b c; exact hv a b c
  exact computes_of (pureOp_register _ _ _ ht _ _ _) he ho

theorem computes1A_of {f : FormA} {v val : Word → Word} (ht : t ≠ .atIssue ∧ t ≠ .open_)
    (he : ∀ s, exec i s = issueOp i (unA f t k v) s) (ho : opOf i = some (unA f t k v)) (hv : ∀ a, v a = val a) :
    Computes1A i f t k val := by
  obtain rfl : v = val := by funext a; exact hv a
  exact computes_of (pureOp_register _ _ _ ht _ _ _) he ho

theorem computes1B_of {μ : Type} {f : FormB μ} {v val : Word → Word} (ht : t ≠ .atIssue ∧ t ≠ .open_)
    (he : ∀ s, exec i s = issueOp i (unB f t k v) s) (ho : opOf i = some (unB f t k v)) (hv : ∀ a, v a = val a) :
    Computes1B i f t k val := by
  obtain rfl : v = val := by funext a; exact hv a
  exact computes_of (pureOp_register _ _ _ ht _ _ _) he ho

/-- A statement that its lists of operands and of results may be given under another name. -/
theorem ComputesRegisters.congr {h : Head} {g : Guard} {width : Nat} {coll : Bool} {ok ok' : Owner → List Bool}
    {srcs : List Src} {f f' : List View → View → List Out} (hc : ComputesRegisters i h g width t coll ok srcs f)
    (hok : ok = ok') (hf : f = f') : ComputesRegisters i h g width t coll ok' srcs f' := hok ▸ hf ▸ hc

/-- The bits that the active elements of a word own (R85, R186). -/
theorem activeElems_bits (h : Bool) (g : BitVec 4) (k : Nat) (hk : k < 32) : (activeElems (if h then 16 else 8) g).getLsbD k =
    if h then g.getLsbD (2 * (k / 16)) else g.getLsbD (k / 8) := by
  have : ∀ (h : Bool) (g : BitVec 4) (k : Fin 32), (activeElems (if h then 16 else 8) g).getLsbD k.1 =
    if h then g.getLsbD (2 * (k.1 / 16)) else g.getLsbD (k.1 / 8) := by decide +kernel
  exact this h g ⟨k, hk⟩

/-- The bits that the active elements of a predicate own (R85). -/
theorem activePreds_bits (h : Bool) (g : BitVec 4) (k : Nat) (hk : k < 4) : (activePreds (if h then 16 else 8) g).getLsbD k =
    if h then g.getLsbD (2 * (k / 2)) else g.getLsbD k := by
  have : ∀ (h : Bool) (g : BitVec 4) (k : Fin 4), (activePreds (if h then 16 else 8) g).getLsbD k.1 =
    if h then g.getLsbD (2 * (k.1 / 2)) else g.getLsbD k.1 := by decide +kernel
  exact this h g ⟨k, hk⟩

/-- An element takes all of a result of whole words. -/
theorem View.part_word (v : View) (o : Out) : v.part 32 o = o := rfl

end Sys2Proof.Machine
end

