-- ==== Sys2Proof/Tests/Small.lean ====
section
/-! SUPPORT. A small machine for the tests: one block of one warp on core 0, of a context whose page 0 maps to itself, with an
issue of lanes 0 and 1 under way; and the hypotheses of the statements about instructions, gathered. -/

namespace Sys2Proof.Tests

set_option Elab.async false

open Sys2Proof Sys2Proof.Machine

/-! ## The machine -/

/-- The issue of lanes 0 and 1. -/
def issue0 : Issue :=
  { bid := 0, warp := 0, lanes := 3, pc := ⟨benchCode, 0⟩, widx := 1, ninstr := 1, yield := false, next := 0x4008 }

/-- Each lane holds two words in v0 and v1, and the number of its lane and what the test gives elsewhere. -/
def lane0 (v : List (Nat × Word)) (k : Nat) : Lane :=
  { benchLane 0 with v := ⟨(0, ⟨BitVec.ofNat 32 k, 0⟩) :: v.map fun x => (x.1, ⟨x.2, 0⟩)⟩, p := ⟨[(1, ⟨0, 0⟩), (2, ⟨15, 0⟩)]⟩ }

/-- A warp whose v0 is the lane number, p1 false and p2 true; the other registers are the test's. -/
def warp0 (v s : List (Nat × Word)) : Warp :=
  { benchWarp 0 with lanes := (List.range 32).map (lane0 v), s := ⟨s.map fun x => (x.1, ⟨x.2, 0⟩)⟩, group := 3 }

def block0 (w : Warp) : Block := { benchBlock 0 with warps := ⟨[(0, w)]⟩ }

/-- The bench with this block, and the issue under way. -/
def machine0 (b : Block) : Mach := { Mach.reset.bench 32 0 with blocks := ⟨[(0, b)]⟩, issue := some issue0 }

def state0 (b : Block) : State := { State.reset with mach := machine0 b }

/-- The state in which lanes 0 and 1 issue with these registers. -/
def running (v s : List (Nat × Word)) : State := state0 (block0 (warp0 v s))

/-- What a test reads of the state after a step. -/
def after {α : Type} (o : Host.Outcome State Fault Refusal) (f : State → α) : Option α :=
  match o with
  | .next t => some (f t)
  | .fault _ => none
  | .refused _ => none

/-- A register of warp 0 of block 0. -/
def regAfter (o : Host.Outcome State Fault Refusal) (r : RegName) : Option Reg :=
  (after o fun t => (t.mach.warp? 0 0).map (·.getReg r)).join

/-- The state and program counter of a lane of it. -/
def laneAfter (o : Host.Outcome State Fault Refusal) (k : Nat) : Option (LaneState × Pc) :=
  (after o fun t => (t.mach.warp? 0 0).bind fun w => (laneAt w k).map fun l => (l.st, l.pc)).join

/-! ## The hypotheses of the statements about instructions -/

theorem ready_of_all {w : Warp} (h : w.lanes.all (·.st == .ready) = true) (k : Nat) (l : Lane) (g : laneAt w k = some l) :
    l.st = .ready := by simpa using List.all_eq_true.1 h l (List.mem_of_getElem? g)

theorem find_mem {α : Type} {t : Tab α} {k : Nat} {x : α} (h : tabFind t k = some x) : (k, x) ∈ t.cells := by
  unfold tabFind at h
  generalize t.cells = l at h
  induction l with
  | nil => cases h
  | cons c r ih =>
    obtain ⟨i, y⟩ := c
    simp only [cellsFind] at h
    split at h
    · next e => cases h; exact e ▸ List.mem_cons_self ..
    · exact List.mem_cons_of_mem _ (ih h)

theorem issuing0 {b : Block} {w : Warp} (hb : tabFind b.warps 0 = some w) (hl : w.lanes.length = 32)
    (hr : w.lanes.all (·.st == .ready) = true) : Issuing (state0 b) issue0 b w :=
  ⟨rfl, rfl, hb, hl, by decide, fun k l _ => ready_of_all hr k l, rfl⟩

theorem warp0_lanes (v s : List (Nat × Word)) : (warp0 v s).lanes.length = 32 ∧ (warp0 v s).lanes.all (·.st == .ready) = true := by
  simp [warp0, lane0, benchLane]

theorem room (j : Nat) : (List.replicate 6 0).getD j 0 < 7 := by
  rcases j with _ | _ | _ | _ | _ | _ | j <;> simp [List.replicate]

/-- What the statements about registers ask at an issue: the issue, its scope, a write slot with room, no short read, and
operands that their positions admit. -/
def MeetsIssue (h : Head) (coll : Bool) (ok : Owner → List Bool) : Prop :=
  ∃ s q b w, Issuing s q b w ∧ ownScope h coll ∧ slotHasRoom h w ∧ noShort s b w ∧
    ∀ x ∈ ok (s.mach.owner b q.warp h.scope), x = true

/-- The owner that the operand checks see in these states. -/
def owner0 (s : Scope) : Owner := { regs := 128, gang := false, wide := isWide s, brood := 0 }

theorem meetsIssue {h : Head} {coll : Bool} {ok : Owner → List Bool} (hs : ownScope h coll)
    (hk : ∀ x ∈ ok (owner0 h.scope), x = true) : MeetsIssue h coll ok :=
  ⟨running [] [], issue0, _, _, issuing0 rfl (warp0_lanes [] []).1 (warp0_lanes [] []).2, hs,
    fun j _ => room j, .inr rfl, hk⟩

/-! ## A rendezvous -/

/-- Slot 4 of a block of one warp, which has arrived with lanes 0 and 1. -/
def slot0 (i : Instr) : Slot :=
  { executing := true, clause := benchCode, widx := 1, instr := i, issue := issue0, arrived := ⟨[(0, 3)]⟩, groups := ⟨[(0, 3)]⟩
    scal := ⟨[]⟩, pend := ⟨[]⟩, start := some 0, held := false, running := none }

def setBlock0 (i : Instr) (w : Warp) : Block := { block0 w with slots := ⟨[(4, slot0 i)]⟩ }

/-- Lanes 0 and 1 of the warp wait for their rendezvous. -/
def waiting (w : Warp) : Warp :=
  { w with lanes := w.lanes.zipIdx.map fun x => if x.2 < 2 then { x.1 with st := .waiting (.rendezvous 4) } else x.1 }

def atSet (i : Instr) (v s : List (Nat × Word)) : State := state0 (setBlock0 i (waiting (warp0 v s)))

theorem atSet_rendezvous (i : Instr) (v s : List (Nat × Word)) :
    AtRendezvous (atSet i v s) 0 4 (setBlock0 i (waiting (warp0 v s))) (slot0 i) i where
  awake := rfl
  block := rfl
  slot := rfl
  instr := rfl
  bid := rfl
  issuer := by
    have e : (atSet i v s).mach.slotMembers (setBlock0 i (waiting (warp0 v s))) 4 = [0] := rfl
    rw [e]; exact List.mem_singleton.2 rfl
  start := ⟨0, rfl, Nat.zero_le _⟩
  free := ⟨rfl, rfl⟩
  resident := rfl
  wrings := rfl
  members := by
    intro x hx
    have : x = 0 := by
      have e : (atSet i v s).mach.slotMembers (setBlock0 i (waiting (warp0 v s))) 4 = [0] := rfl
      rw [e] at hx; simpa using hx
    subst this
    exact ⟨_, 3, rfl, by simp [waiting, (warp0_lanes v s).1], rfl, rfl, by decide, fun j h => h⟩
  quiet := rfl

theorem atSet_short (i : Instr) (v s : List (Nat × Word)) :
    noShortSet (atSet i v s) (setBlock0 i (waiting (warp0 v s))) (slot0 i) ∧ noHeld (atSet i v s) :=
  ⟨.inl rfl, rfl⟩

/-! ## Instructions that act -/

/-- What the statements about instructions with effects ask at an issue. -/
def MeetsEffect (h : Head) (g : Guard) (coll fenced : Bool) (sc : Scopes) (ok : Owner → Ctx → Prop)
    (free : List View → Mach → Prop) (act : List View → Mach → Option (List Done × Mach)) : Prop :=
  ∃ s q b w ds m' b' w0, Issuing s q b w ∧ atIssueScope h sc ∧ slotHasRoom h w ∧ noShort s b w ∧ noHeld s ∧
    (fenced = true → w.fence = none) ∧ ok (s.mach.owner b q.warp h.scope) (s.mach.ctx b.ctx) ∧
    free (elements s q b w h g 32) s.mach ∧ act (acting h coll (elements s q b w h g 32)) s.mach.begun = some (ds, m') ∧
    m'.cycle = s.mach.cycle ∧ tabFind m'.blocks q.bid = some b' ∧ tabFind b'.warps q.warp = some w0 ∧ w0.lanes.length = 32

/-- A machine in which the issue of lanes 0 and 1 of warp `w` of block `b` is under way. -/
structure Under (m : Mach) (b : Block) (w : Warp) : Prop where
  issue : m.issue = some issue0
  block : tabFind m.blocks 0 = some b
  warp  : tabFind b.warps 0 = some w
  lanes : (w.lanes.length == 32 && w.lanes.all (·.st == .ready)) = true
  empty : w.ws = List.replicate 6 0 ∧ w.pend = [] ∧ w.fence = none
  quiet : m.stalled = false ∧ (m.ide.cells.any fun x => x.2.held) = false ∧ m.cycle = 0

theorem under0 (v s : List (Nat × Word)) : Under (running v s).mach (block0 (warp0 v s)) (warp0 v s) :=
  ⟨rfl, rfl, rfl, by simp [(warp0_lanes v s).1, (warp0_lanes v s).2], ⟨rfl, rfl, rfl⟩, ⟨rfl, rfl, rfl⟩⟩

/-- The part of the hypotheses that is a computation: the elements act, and the block and the warp are there afterwards. -/
def actsOn (m : Mach) (b : Block) (w : Warp) (h : Head) (g : Guard) (coll : Bool)
    (act : List View → Mach → Option (List Done × Mach)) : Bool :=
  match act (acting h coll (elements { State.reset with mach := m } issue0 b w h g 32)) m.begun with
  | none => false
  | some (_, m') => m'.cycle == 0 && (match tabFind m'.blocks 0 with
    | none => false
    | some b' => match tabFind b'.warps 0 with
      | none => false
      | some w0 => w0.lanes.length == 32)

theorem meetsEffect {h : Head} {g : Guard} {coll fenced : Bool} {sc : Scopes} {ok : Owner → Ctx → Prop}
    {free : List View → Mach → Prop} {act : List View → Mach → Option (List Done × Mach)} {m : Mach} {b : Block} {w : Warp}
    (u : Under m b w) (hs : atIssueScope h sc) (hok : ok (m.owner b 0 h.scope) (m.ctx b.ctx))
    (hf : free (elements { State.reset with mach := m } issue0 b w h g 32) m) (ha : actsOn m b w h g coll act = true) :
    MeetsEffect h g coll fenced sc ok free act := by
  have hl := u.lanes
  simp only [Bool.and_eq_true, beq_iff_eq] at hl
  unfold actsOn at ha
  split at ha
  · cases ha
  · next ds m' e =>
    split at ha
    · simp at ha
    · next b' eb =>
      split at ha
      · simp at ha
      · next w0 ew =>
        simp only [Bool.and_eq_true, beq_iff_eq] at ha
        refine ⟨{ State.reset with mach := m }, issue0, b, w, ds, m', b', w0,
          ⟨u.issue, u.block, u.warp, hl.1, by decide, fun k l _ => ready_of_all hl.2 k l, u.quiet.1⟩, hs, fun j _ => ?_,
          .inr u.empty.2.1, u.quiet.2.1, fun _ => u.empty.2.2, hok, hf, e, ha.1.trans u.quiet.2.2.symm, eb, ew, ha.2⟩
        rw [u.empty.1]; exact room j

/-- The witnesses of an instruction that acts, over the registers of the running lanes. -/
theorem meets0 {h : Head} {g : Guard} {coll fenced : Bool} {sc : Scopes} {ok : Owner → Ctx → Prop} {free : List View → Mach → Prop}
    {act : List View → Mach → Option (List Done × Mach)} (v s : List (Nat × Word)) (hs : atIssueScope h sc)
    (hok : ok ((running v s).mach.owner (block0 (warp0 v s)) 0 h.scope) ((running v s).mach.ctx 0))
    (hf : free (elements (running v s) issue0 (block0 (warp0 v s)) (warp0 v s) h g 32) (running v s).mach)
    (ha : actsOn (running v s).mach (block0 (warp0 v s)) (warp0 v s) h g coll act = true) :
    MeetsEffect h g coll fenced sc ok free act := meetsEffect (under0 v s) hs hok hf ha

/-- What they ask at gang and block scope, in a rendezvous. -/
def MeetsSet (i : Instr) (h : Head) (g : Guard) (coll : Bool) (free : List View → Mach → Prop)
    (act : List View → Mach → Option (List Done × Mach)) : Prop :=
  ∃ s bid k b sl ds m' b', AtRendezvous s bid k b sl i ∧ isSet h.scope = true ∧ noShortSet s b sl ∧ noHeld s ∧
    free (setElements s b k sl h g 32) s.mach ∧
    act (acting h coll (setElements s b k sl h g 32)) s.mach.begun = some (ds, m') ∧ m'.cycle = s.mach.cycle ∧
    tabFind m'.blocks bid = some b' ∧ ∀ x ∈ s.mach.slotMembers b k, ∃ w0, tabFind b'.warps x = some w0 ∧ w0.lanes.length = 32

def actsInSet (i : Instr) (v s : List (Nat × Word)) (h : Head) (g : Guard) (coll : Bool)
    (act : List View → Mach → Option (List Done × Mach)) : Bool :=
  match act (acting h coll (setElements (atSet i v s) (setBlock0 i (waiting (warp0 v s))) 4 (slot0 i) h g 32)) (atSet i v s).mach.begun with
  | none => false
  | some (_, m') => m'.cycle == 0 && (match tabFind m'.blocks 0 with
    | none => false
    | some b' => match tabFind b'.warps 0 with
      | none => false
      | some w0 => w0.lanes.length == 32)

theorem meetsSet {h : Head} {g : Guard} {coll : Bool} {free : List View → Mach → Prop}
    {act : List View → Mach → Option (List Done × Mach)} (i : Instr) (v s : List (Nat × Word)) (hs : isSet h.scope = true)
    (hf : free (setElements (atSet i v s) (setBlock0 i (waiting (warp0 v s))) 4 (slot0 i) h g 32) (atSet i v s).mach)
    (ha : actsInSet i v s h g coll act = true) : MeetsSet i h g coll free act := by
  unfold actsInSet at ha
  split at ha
  · cases ha
  · next ds m' e =>
    split at ha
    · simp at ha
    · next b' eb =>
      split at ha
      · simp at ha
      · next w0 ew =>
        simp only [Bool.and_eq_true, beq_iff_eq] at ha
        refine ⟨_, 0, 4, _, _, ds, m', b', atSet_rendezvous i v s, hs, (atSet_short i v s).1, (atSet_short i v s).2, hf, e, ha.1,
          eb, fun x hx => ?_⟩
        have e : (atSet i v s).mach.slotMembers (setBlock0 i (waiting (warp0 v s))) 4 = [0] := rfl
        rw [e] at hx
        simp only [List.mem_singleton] at hx
        exact hx ▸ ⟨w0, ew, ha.2⟩

end Sys2Proof.Tests
end

