-- ==== Sys2Proof/Tests/Words.lean ====
section
/-! SUPPORT. Tests of decoding and of well-formedness. Each pair of words stands in the spec as it is written here: the worked
examples of 15_instruction_encoding.md and of the reference entries, and the encoding tables of 20_programs_memory.md and
21_programs_compute.md; the others are put together from R342 to R347 and the entry named. -/

namespace Sys2Proof.Tests

set_option Elab.async false

open Sys2Proof Sys2Proof.Machine

/-- A head, its scope, stall count and WSLOT. -/
def at_ (s : Scope) (stall wslot : BitVec 3) : Head := ⟨s, stall, wslot⟩
/-- Lane scope, no stall, no write slot. -/
def plain : Head := at_ .lane 0 0
/-- The positive guard of a predicate. -/
def on (p : BitVec 3) : Guard := ⟨p, false⟩
def noMod : SrcMod := ⟨false, false⟩

/-! ## The worked example of 15_instruction_encoding.md -/

theorem test_decode_movi : decodeWords 0x27180200 (some 0x00010000) = .ok (.movi ⟨at_ .lane 3 0, .v 2, 0x10000⟩) := rfl
theorem test_decode_iadd_immediate : decodeWords 0x10180202 (some 0xFFFF800E) =
    .ok (.iaddC ⟨at_ .lane 3 0, .v 2, .v 2, 0xFFFF, ⟨false, false, 0, .none⟩, always⟩) := rfl
theorem test_decode_and : decodeWords 0x1A000302 (some 0x0100000E) =
    .ok (.andB ⟨plain, .v 3, .v 2, .v 1, .v 0, ⟨false⟩, always⟩) := rfl
theorem test_decode_bra : decodeWords 0x02000000 (some 0xFFFFF902) = .ok (.bra ⟨plain, 0xFFFFF9, on 1⟩) := rfl

/-! ## The worked examples of the reference entries -/

/-- R420: IADD.CO, then the IADD.CI that reads its carry. -/
theorem test_decode_iadd_carry_out : decodeWords 0x10180400 (some 0x0200006E) =
    .ok (.iaddB ⟨at_ .lane 3 0, .v 4, .v 0, .v 2, .v 0, ⟨false, true, 1, .none⟩, always⟩) := rfl
theorem test_decode_iadd_carry_in : decodeWords 0x10000501 (some 0x03C1001E) =
    .ok (.iaddB ⟨plain, .v 5, .v 1, .v 3, .p 1, ⟨true, false, 0, .none⟩, always⟩) := rfl
theorem test_decode_padd : decodeWords 0x30000301 (some 0x02000024) =
    .ok (.padd ⟨plain, .v 3, .v 1, .v 2, .v 0, ⟨false, .signed⟩, on 2⟩) := rfl
theorem test_decode_ffma : decodeWords 0x42000401 (some 0x0102000E) =
    .ok (.ffma ⟨plain, .v 4, .v 1, .v 1, .v 2, ⟨noMod, noMod, noMod, .rne, false⟩, always⟩) := rfl
theorem test_decode_cvtq : decodeWords 0x58010A00 (some 0x1000049E) =
    .ok (.cvtq ⟨at_ .lane 0 1, .v 10, .v 0, .v 16, .v 0, ⟨.o4, .rne, true⟩, always⟩) := rfl
theorem test_decode_shfl : decodeWords 0x60400100 (some 0x0001802E) =
    .ok (.shflC ⟨at_ .warp 0 0, .v 1, .v 0, 1, ⟨.down⟩, always⟩) := rfl
theorem test_decode_vote : decodeWords 0x614004C1 (some 0x0000004E) =
    .ok (.vote ⟨at_ .warp 0 0, .v 4, .p 1, .v 0, .v 0, ⟨.count, false⟩, always⟩) := rfl
theorem test_decode_scanw : decodeWords 0x63430504 (some 0x00000086) =
    .ok (.scanw ⟨at_ .warp 0 3, .v 5, .v 4, .v 0, .v 0, ⟨.fadd, false⟩, on 3⟩) := rfl
theorem test_decode_ld : decodeWords 0x7041068A (some 0x07000162) =
    .ok (.ldB ⟨at_ .warp 0 1, .v 6, .s 10, .v 7, .v 0, ⟨.s16, 1⟩, on 1⟩) := rfl
theorem test_decode_atom : decodeWords 0x78420806 (some 0x09001004) =
    .ok (.atom ⟨at_ .warp 0 2, .v 8, .v 6, .v 9, .v 0, ⟨.add, false, false, .blk, true, false⟩, on 2⟩) := rfl
theorem test_decode_sbin : decodeWords 0x7A42098C (some 0x0708000E) =
    .ok (.sbin ⟨at_ .warp 0 2, .v 9, .s 12, .v 7, .v 8, ⟨⟩, always⟩) := rfl
theorem test_decode_pressr : decodeWords 0x81040C02 (some 0x0600085E) =
    .ok (.pressr ⟨at_ .lane 0 4, .v 12, .v 2, .v 6, .v 0, ⟨5, .dev, false⟩, always⟩) := rfl
theorem test_decode_pdef : decodeWords 0x82428488 (some 0x8600000E) =
    .ok (.pdef ⟨at_ .warp 0 2, .s 4, .s 8, .s 6, .v 0, ⟨⟩, always⟩) := rfl
theorem test_decode_mma : decodeWords 0x8B400003 none = .ok (.mmaA ⟨at_ .warp 0 0, .v 0, .v 3⟩) := rfl
theorem test_decode_talloc : decodeWords 0x8CC49400 (some 0x0004800E) =
    .ok (.talloc ⟨at_ .block 0 4, .s 20, .v 0, 4, ⟨⟩, always⟩) := rfl
theorem test_decode_tdrain : decodeWords 0x8E40CBD8 (some 0xD80021CE) =
    .ok (.tdrain ⟨at_ .warp 0 0, .a 3, .zero, .zero, .v 0, ⟨.bf16, .rne, false, true, true, true, 0, false, false⟩, always⟩) := rfl
theorem test_decode_trap : decodeWords 0x09000000 (some 0x002A800E) =
    .ok (.trap ⟨plain, .v 0, .v 0, 0x2A, ⟨⟩, always⟩) := rfl
theorem test_decode_spawn : decodeWords 0x0B010002 (some 0x0608000E) =
    .ok (.spawn ⟨at_ .lane 0 1, .v 0, .v 2, .v 6, .v 8, ⟨⟩, always⟩) := rfl

/-! ## The encoding tables of the worked programs -/

theorem test_decode_atom_xchg : decodeWords 0x78031002 (some 0x0800387E) =
    .ok (.atom ⟨at_ .lane 0 3, .v 16, .v 2, .v 8, .v 0, ⟨.xchg, false, false, .dev, true, true⟩, always⟩) := rfl
theorem test_decode_fence : decodeWords 0x7B040E00 (some 0x0000000E) =
    .ok (.fence ⟨at_ .lane 0 4, .v 14, .v 0, .v 0, .v 0, ⟨.posted⟩, always⟩) := rfl
theorem test_decode_press : decodeWords 0x80000008 (some 0x0C00089E) =
    .ok (.press ⟨plain, .v 0, .v 8, .v 12, .v 0, ⟨9, .dev, false⟩, always⟩) := rfl
theorem test_decode_fmul : decodeWords 0x41001C1C (some 0x43E08002) =
    .ok (.fmulC ⟨plain, .v 28, .v 28, 0x43E0, ⟨noMod, noMod, .rne, false⟩, on 1⟩) := rfl
theorem test_decode_ldb : decodeWords 0x7602060A (some 0x0F000006) =
    .ok (.ldb ⟨at_ .lane 0 2, .v 6, .v 10, .v 15, .v 0, ⟨.b32⟩, on 3⟩) := rfl
theorem test_decode_shfl_block : decodeWords 0x60C11E1D (some 0x0001801E) =
    .ok (.shflC ⟨at_ .block 0 1, .v 30, .v 29, 1, ⟨.up⟩, always⟩) := rfl

/-! ## Other families, from R342 to R347 -/

/-- R413: GANG with BLK, SCOPE 1, DST v8. -/
theorem test_decode_gang : decodeWords 0x0C410800 (some 0x0000001E) =
    .ok (.gangB ⟨at_ .warp 0 1, .v 8, .v 0, .v 0, .v 0, ⟨true⟩, always⟩) := rfl
/-- R441: MOV.X4 s8 to v4, REP 2 in bits [5:4]. -/
theorem test_decode_mov : decodeWords 0x26000488 (some 0x0000002E) =
    .ok (.movB ⟨plain, .v 4, .s 8, .v 0, .v 0, ⟨2⟩, always⟩) := rfl
/-- R421: ICMP.LT.U p1, v2, v3. -/
theorem test_decode_icmp : decodeWords 0x1800C102 (some 0x030000AE) =
    .ok (.icmpB ⟨plain, .p 1, .v 2, .v 3, .v 0, ⟨.lt, true, .none⟩, always⟩) := rfl
/-- R378: BINIT v4 at the object in [v2], count v5. -/
theorem test_decode_binit : decodeWords 0x84010402 (some 0x0500000E) =
    .ok (.binit ⟨at_ .lane 0 1, .v 4, .v 2, .v 5, .v 0, ⟨false, .blk⟩, always⟩) := rfl
theorem test_decode_ckick : decodeWords 0x89400080 none = .ok (.ckickA ⟨at_ .warp 0 0, .v 0, .s 0⟩) := rfl
theorem test_decode_relg : decodeWords 0x8F419082 (some 0x0000000E) =
    .ok (.relg ⟨at_ .warp 0 1, .s 16, .s 2, .v 0, .v 0, ⟨⟩, always⟩) := rfl
theorem test_decode_csrd : decodeWords 0x90010400 (some 0x0140800E) =
    .ok (.csrd ⟨at_ .lane 0 1, .v 4, .v 0, 0x140, ⟨⟩, always⟩) := rfl
theorem test_decode_csrw : decodeWords 0x91400002 (some 0x0110800E) =
    .ok (.csrw ⟨at_ .warp 0 0, .v 0, .v 2, 0x110, ⟨⟩, always⟩) := rfl
theorem test_decode_hadd2 : decodeWords 0x47000102 (some 0x0300000E) =
    .ok (.hadd2 ⟨plain, .v 1, .v 2, .v 3, .v 0, ⟨false, .rne, false, false, false, false, false⟩, always⟩) := rfl

/-! ## Refusals, each by name (R344, R348) -/

theorem test_decode_refuses : decodeWords 0x00070000 none = .error .wslot ∧ decodeWords 0x01010000 none = .error .combination ∧
    decodeWords 0x0D000000 none = .error .opcode ∧ decodeWords 0xFF000000 none = .error .opcode ∧
    decodeWords 0x00000001 none = .error .combination ∧ decodeWords 0x10180400 (some 0x0200060E) = .error .modifier ∧
    decodeWords 0x10180400 (some 0x0200080E) = .error .reservedField := ⟨rfl, rfl, rfl, rfl, rfl, rfl, rfl⟩
/-- IADD admits no one-word form and NOP no second word. -/
theorem test_decode_refuses_forms : (decodeWords 0x10000000 none).toOption = none ∧
    (decodeWords 0x00000000 (some 0x0000000E)).toOption = none := ⟨rfl, rfl⟩

/-! ## Encoding, and the bits of a table word (spec/opcode_table.json) -/

theorem test_encode_spawn : encode (.spawn ⟨at_ .lane 0 1, .v 0, .v 2, .v 6, .v 8, ⟨⟩, always⟩) = [0x0B010002, 0x0608000E] := rfl
theorem test_encode_step_has_no_words : encode (.stampTick 0) = [] := rfl
theorem test_table_word : decodeTableWord 32 0x8B400003 = some (.mmaA ⟨at_ .warp 0 0, .v 0, .v 3⟩) := rfl
theorem test_table_word_of_two : decodeTableWord 64 0x002A800E09000000 = some (.trap ⟨plain, .v 0, .v 0, 0x2A, ⟨⟩, always⟩) := rfl

/-! ## An ill-formed term for each check of well-formedness -/

/-- Write slots (R342, R348) and unused operand fields (R344). -/
theorem test_wf_refuses_heads : Instr.wf (.iaddB ⟨at_ .lane 0 7, .v 0, .v 0, .v 0, .v 0, ⟨false, false, 0, .none⟩, always⟩) = false ∧
    Instr.wf (.nop ⟨at_ .lane 0 1, .v 0, .v 0⟩) = false ∧ Instr.wf (.bra ⟨at_ .lane 0 1, 0, always⟩) = false ∧
    Instr.wf (.movi ⟨at_ .lane 0 7, .v 0, 0⟩) = false ∧ Instr.wf (.exitA ⟨plain, .v 1, .v 0⟩) = false ∧
    Instr.wf (.gangA ⟨at_ .warp 0 0, .v 4, .v 1⟩) = false ∧
    Instr.wf (.andB ⟨plain, .v 1, .v 2, .v 3, .v 4, ⟨false⟩, always⟩) = false ∧
    Instr.wf (.scanw ⟨at_ .warp 0 0, .v 1, .v 2, .v 3, .v 0, ⟨.add, false⟩, always⟩) = false ∧
    Instr.wf (.trap ⟨plain, .v 0, .v 1, 0, ⟨⟩, always⟩) = false := by decide

/-- Modifiers of integers, floats and conversions. -/
theorem test_wf_refuses_modifiers : AddMods.ok ⟨false, false, 1, .none⟩ = false ∧ AddMods.ok ⟨false, true, 0, .signed⟩ = false ∧
    AddMods.okC ⟨true, false, 0, .none⟩ = false ∧ MulMods.ok ⟨false, true⟩ = false ∧ MadMods.ok ⟨false, true⟩ = false ∧
    IcmpMods.okC ⟨.eq, false, .and⟩ = false ∧ FcmpMods.okC ⟨noMod, noMod, .eq, .or⟩ = false ∧
    HalfMods.okHadd2 ⟨false, .rne, false, false, false, true, false⟩ = false ∧
    HalfMods.okHmul2 ⟨false, .rne, false, false, false, false, true⟩ = false ∧
    HalfMods.okHfma2 ⟨false, .rne, false, false, false, false, true⟩ = false ∧
    HalfMods.okHmax2 ⟨false, .rne, true, false, false, false, true⟩ = false ∧
    CvtMods.ok ⟨.o4, .f32, .rne, false, false⟩ = false ∧ CvtqMods.ok ⟨.f32, .rne, false⟩ = false ∧
    RedMods.okRedw ⟨.add, true⟩ = false := by decide

/-- Modifiers of memory, press and barrier instructions. -/
theorem test_wf_refuses_memory_modifiers : LoadMods.okC ⟨.b32, 1⟩ = false ∧ StoreMods.okC ⟨.b32, 1⟩ = false ∧
    PrefMods.okC ⟨false, 1⟩ = false ∧ LdbMods.ok ⟨.u8⟩ = false ∧ AtomMods.ok ⟨.fadd, true, false, .dev, false, false⟩ = false ∧
    AtomMods.ok ⟨.and, false, true, .dev, false, false⟩ = false ∧ AtomMods.ok ⟨.incsat, false, false, .dev, false, false⟩ = false ∧
    PressMods.ok ⟨0, .blk, false⟩ = false ∧ PressMods.okPress ⟨0, .dev, true⟩ = false ∧ BarrierMods.okBinit ⟨false, .clu⟩ = false ∧
    BarrierMods.okBarv ⟨true, .blk⟩ = false ∧ BarrierMods.okBwait ⟨false, .clu⟩ = false ∧ BarrierMods.okBtest ⟨true, .blk⟩ = false ∧
    BarrierMods.okBexp ⟨false, .clu⟩ = false := by decide

/-- Indices of steps: warp, core, bin, context, press entry, tile, rendezvous slot, cluster, holder, channel, queue, stream,
function, port, module. -/
theorem test_wf_refuses_indices : Instr.wf (.spawnRetry 0 32) = false ∧ Instr.wf (.binTimerExpiry 1024 0) = false ∧
    Instr.wf (.binTimerExpiry 0 64) = false ∧ Instr.wf (.pdropComplete 1024 0) = false ∧ Instr.wf (.pdropComplete 0 64) = false ∧
    Instr.wf (.tfreeRelease 0 16) = false ∧ Instr.wf (.rendezvousExecute 0 5) = false ∧
    Instr.wf (.combineEntryTimeout 128 0) = false ∧ Instr.wf (.trackerAgeDrain 1152 0) = false ∧
    Instr.wf (.copyComplete 0 0 8) = false ∧ Instr.wf (.lqWake 512 0) = false ∧ Instr.wf (.ideCounterLimit 512) = false ∧
    Instr.wf (.lockInterface 64) = false ∧ Instr.wf (.linkPortFailure 36) = false ∧ Instr.wf (.linkTargetTimeout 4096) = false ∧
    Instr.wf (.status ⟨64, 0, 0⟩) = false ∧ Instr.wf (.preempt ⟨0, 0, 0⟩ 1024) = false ∧ Instr.wf (.grant ⟨0, 0, 0⟩ 64 true) = false ∧
    Instr.wf (.quotaWrite 64 false 0) = false ∧ Instr.wf (.latencyVResult 0 32 0) = false := by decide

end Sys2Proof.Tests
end

