-- ==== Sys2Proof/Tests/Slice0.lean ====
section
/-! SUPPORT. Tests of single steps. The operands and the expected results are those of the worked examples of the spec's reference
entries and of 08_number_formats.md, or follow from the rule that is named. -/

namespace Sys2Proof.Tests

set_option Elab.async false

open Sys2Proof Sys2Proof.Machine

/-! ## States -/

/-- Lanes 0 to 3 issue; each has its own v registers. -/
def four (v : Nat → List (Nat × Word)) (s : List (Nat × Word)) (spad : List (Nat × Word)) : State :=
  let w := { benchWarp 0 with lanes := (List.range 32).map fun k => lane0 (v k) k, s := ⟨s.map fun x => (x.1, ⟨x.2, 0⟩)⟩, group := 15 }
  let b := { block0 w with spad := spad.foldl (fun m x => memWrite m x.1 (bytesOfWord x.2)) ⟨[]⟩ }
  { state0 b with mach := { machine0 b with issue := some { issue0 with lanes := 15 } } }

/-- The word at an address of the block's scratchpad. -/
def spadAfter (o : Host.Outcome State Fault Refusal) (a : Nat) : Option Word :=
  after o fun t => BitVec.ofNat 32 (natOfBytes (t.mach.spadBytes 0 a 4))

def vAfter (o : Host.Outcome State Fault Refusal) (k n : Nat) : Option Word := (regAfter o (.v k n)).map (·.val)
def pAfter (o : Host.Outcome State Fault Refusal) (k n : Nat) : Option Word := (regAfter o (.p k n)).map (·.val)
def vsAfter (o : Host.Outcome State Fault Refusal) (n : Nat) : List (Option Word) := (List.range 4).map fun k => vAfter o k n

/-- The cause with which a lane is parked. -/
def causeOf (l : Lane) : Option Cause :=
  match l.st with
  | .parked (some r) => some r.cause
  | .parked none | .ready | .waiting _ | .exited => none

def warpHead : Head := at_ .warp 0 1

/-! ## The first step after reset -/

/-- R429 of an identity page: the instruction placed where the first step fetches it runs. -/
theorem test_step_movi : regAfter (step (State.reset.withFetchWord 64 0x1234567827000500)) (.v 31 5) = some ⟨0x12345678, 0⟩ := by
  decide +kernel
/-- R398: EXIT ends every lane of the group. -/
theorem test_step_exit : laneAfter (step (State.reset.withFetchWord 32 0x01000000)) 7 = some (.exited, ⟨benchCode, 0⟩) := by
  decide +kernel
/-- R344: a reserved opcode parks the lanes with ILLINSTR. -/
theorem test_step_illinstr : (after (step (State.reset.withFetchWord 32 0xFF000000)) fun t =>
    ((t.mach.warp? 0 0).map fun w => w.lanes.all Lane.isParked)).join = some true := by decide +kernel

/-! ## Integers -/

theorem test_iadd_carry : let s := running [(5, 0xFFFFFFF0), (2, 0x20)] []
    let t := exec (.iaddB ⟨plain, .v 4, .v 5, .v 2, .v 0, ⟨false, true, 1, .none⟩, always⟩) s
    vAfter t 0 4 = some 0x10 ∧ pAfter t 0 1 = some 15 := by decide +kernel
theorem test_imul_hi : vAfter (exec (.imulB ⟨plain, .v 4, .v 2, .v 2, .v 0, ⟨true, false⟩, always⟩) (running [(2, 0xFFFFFFFF)] [])) 0 4 =
    some 0 ∧ vAfter (exec (.imulB ⟨plain, .v 4, .v 2, .v 2, .v 0, ⟨true, true⟩, always⟩) (running [(2, 0xFFFFFFFF)] [])) 0 4 =
    some 0xFFFFFFFE := by decide +kernel
theorem test_imadw : let t := exec (.imadw ⟨plain, .v 4, .v 2, .v 2, .zero, ⟨true⟩, always⟩) (running [(2, 0xFFFFFFFF)] [])
    vAfter t 0 4 = some 1 ∧ vAfter t 0 5 = some 0xFFFFFFFE := by decide +kernel
theorem test_sar : vAfter (exec (.sarC ⟨plain, .v 4, .v 2, 36, ⟨false⟩, always⟩) (running [(2, 0x80000010)] [])) 0 4 =
    some 0xFFFFFFFF ∧ vAfter (exec (.sarC ⟨plain, .v 4, .v 2, 36, ⟨true⟩, always⟩) (running [(2, 0x80000010)] [])) 0 4 =
    some 0xF8000001 := by decide +kernel
theorem test_bfe : vAfter (exec (.bfeC ⟨plain, .v 1, .v 2, 0x0C04, ⟨true⟩, always⟩) (running [(2, 0xABC0)] [])) 0 1 =
    some 0xFFFFFABC := by decide +kernel
theorem test_clz : vAfter (exec (.clzA ⟨plain, .v 4, .v 2⟩) (running [(2, 0x8000)] [])) 0 4 = some 16 := by decide +kernel
/-- The guard reads bit j of p2 for byte j; the bytes that are not active keep their value. -/
theorem test_padd : let w := { warp0 [(1, 0x7F8010F0), (2, 0x01902020), (3, 0xAAAAAAAA)] [] with
      lanes := (List.range 32).map fun k => { lane0 [(1, 0x7F8010F0), (2, 0x01902020), (3, 0xAAAAAAAA)] k with p := ⟨[(2, ⟨5, 0⟩)]⟩ } }
    vAfter (exec (.padd ⟨plain, .v 3, .v 1, .v 2, .v 0, ⟨false, .signed⟩, on 2⟩) (state0 (block0 w))) 0 3 = some 0xAA80AA10 ∧
    pAfter (exec (.pcmp ⟨plain, .p 3, .v 1, .v 2, .v 0, ⟨false, false, .lt⟩, always⟩) (state0 (block0 w))) 0 3 = some 7 := by
  decide +kernel

/-! ## Floating point and conversions -/

theorem test_ffma : vAfter (exec (.ffma ⟨plain, .v 4, .v 1, .v 1, .v 2, ⟨noMod, noMod, noMod, .rne, false⟩, always⟩)
    (running [(1, 0x3F800800), (2, 0xBF801000)] [])) 0 4 = some 0x33800000 := by decide +kernel
theorem test_fmul_rounds : vAfter (exec (.fmulB ⟨plain, .v 5, .v 1, .v 1, .v 0, ⟨noMod, noMod, .rne, false⟩, always⟩)
    (running [(1, 0x3F800800)] [])) 0 5 = some 0x3F801000 := by decide +kernel
/-- 300.0 and 500.0, then 500.0 saturated, then 464.0, to E4M3. -/
theorem test_round_e4m3 : (paramsE4m3.round .rne false (f32 0x43960000), paramsE4m3.round .rne false (f32 0x43FA0000),
    paramsE4m3.round .rne true (f32 0x43FA0000), paramsE4m3.round .rne false (f32 0x43E80000),
    paramsE4m3.round .rz false (f32 0x43FA0000)) = (0x79, 0x7F, 0x7E, 0x7E, 0x7E) := by decide +kernel
/-- 1 + 2⁻⁸ to BF16 in RNE and in RU. -/
theorem test_round_bf16 : (paramsBf16.round .rne false (f32 0x3F808000), paramsBf16.round .ru false (f32 0x3F808000)) =
    (0x3F80, 0x3F81) := by decide +kernel
theorem test_cvtq : let v : List (Nat × Word) := [(0, 0x40100000), (1, 0xC0A00000), (2, 0x3E4CCCCD), (3, 0x406F5C29),
      (4, 0xBE800000), (5, 0x42C80000), (6, 0), (7, 0xC0500000), (16, 0x40000000)]
    let w := { warp0 [] [] with lanes := (List.range 32).map fun _ => { benchLane 0 with v := ⟨v.map fun x => (x.1, ⟨x.2, 0⟩)⟩ } }
    let t := exec (.cvtq ⟨at_ .lane 0 1, .v 10, .v 0, .v 16, .v 0, ⟨.o4, .rne, true⟩, always⟩) (state0 (block0 w))
    vAfter t 0 10 = some 0xA0707094 ∧ vAfter t 0 11 = some 0x22 := by decide +kernel
theorem test_cvt_i4 : let s := running [(1, 0xF8700019)] []
    let t := exec (.cvt ⟨at_ .lane 0 1, .v 8, .v 1, .v 0, .v 0, ⟨.f32, .i4, .rne, false, false⟩, always⟩) s
    (List.range 8).map (fun n => vAfter t 0 (8 + n)) =
      [0xC0E00000, 0x3F800000, 0, 0, 0, 0x40E00000, 0xC1000000, 0xBF800000].map some := by decide +kernel

/-! ## Across lanes -/

theorem test_scanw : let v (k : Nat) : List (Nat × Word) := [(4, [0x4B800000, 0x3F800000, 0x3F800000, 0xCB800000].getD k 0)]
    vsAfter (exec (.scanw ⟨warpHead, .v 5, .v 4, .v 0, .v 0, ⟨.fadd, false⟩, always⟩) (four v [] [])) 5 =
      [0x4B800000, 0x4B800000, 0x4B800000, 0].map some ∧
    vsAfter (exec (.scanw ⟨warpHead, .v 5, .v 4, .v 0, .v 0, ⟨.fadd, true⟩, always⟩) (four v [] [])) 5 =
      [0, 0x4B800000, 0x4B800000, 0x4B800000].map some := by decide +kernel
theorem test_match : let v (k : Nat) : List (Nat × Word) := [(1, [7, 3, 7, 9].getD k 0)]
    let t (f : MatchKind) := vsAfter (exec (.matchw ⟨warpHead, .v 5, .v 1, .v 0, .v 0, ⟨f, false⟩, always⟩) (four v [] [])) 5
    t .mask = [5, 2, 5, 8].map some ∧ t .first = [0, 1, 0, 3].map some ∧ t .count = [2, 1, 2, 1].map some := by decide +kernel
/-- R489, of lanes 0 to 3 whose p3 holds 0, 1, 1 and 0. -/
theorem test_vote : let w := { benchWarp 0 with lanes := (List.range 32).map fun k =>
      { benchLane 0 with p := ⟨[(3, ⟨[0, 1, 1, 0].getD k 0, 0⟩)]⟩ } }
    let s := { state0 (block0 w) with mach := { machine0 (block0 w) with issue := some { issue0 with lanes := 15 } } }
    let t (f : VoteFn) (n : Bool) := vAfter (exec (.vote ⟨warpHead, .v 4, .p 3, .v 0, .v 0, ⟨f, n⟩, always⟩) s) 2 4
    (t .mask false, t .count false, t .lead false, t .mask true, t .lead true) = (some 6, some 2, some 1, some 9, some 0) := by
  decide +kernel
/-- 3.0 and 1.0 in lanes 0 and 1 alone. -/
theorem test_hadq : let w := { benchWarp 0 with lanes := (List.range 32).map fun k =>
      { benchLane 0 with v := ⟨[(1, ⟨[0x40400000, 0x3F800000].getD k 0, 0⟩)]⟩ } }
    let s := { state0 (block0 w) with mach := { machine0 (block0 w) with issue := some { issue0 with lanes := BitVec.allOnes 32 } } }
    let t := exec (.hadqB ⟨warpHead, .v 2, .v 1, .v 0, .v 0, ⟨true⟩, always⟩) s
    vAfter t 30 2 = some 0x3F3504F3 ∧ vAfter t 31 2 = some 0x3EB504F3 := by decide +kernel

/-! ## Memory -/

/-- Lanes 0 and 2 at 0x100, which holds 1, lanes 1 and 3 at 0x104, which holds 0x7FFFFFF8. -/
theorem test_atom : let v (k : Nat) : List (Nat × Word) := [(6, [0x100, 0x104, 0x100, 0x104].getD k 0), (9, [5, 7, 0xFFFFFFFE, 10].getD k 0)]
    let s := four v [] [(0x100, 1), (0x104, 0x7FFFFFF8)]
    let t := exec (.atom ⟨at_ .warp 0 2, .v 8, .v 6, .v 9, .v 0, ⟨.add, false, false, .blk, true, false⟩, always⟩) s
    vsAfter t 8 = [1, 0x7FFFFFF8, 6, 0x7FFFFFFF].map some ∧ spadAfter t 0x100 = some 4 ∧ spadAfter t 0x104 = some 0x80000009 := by
  decide +kernel
/-- Four of the six lanes of the example: keys 1, 3, 1 and 7. -/
theorem test_sbin : let v (k : Nat) : List (Nat × Word) := [(7, [1, 3, 1, 7].getD k 0), (8, BitVec.ofNat 32 (10 + k))]
    let s := four v [(12, 0x400)] [(0x400, 0x20004), (0x404, 0x800), (0x414, 1)]
    let t := exec (.sbin ⟨at_ .warp 0 2, .v 9, .s 12, .v 7, .v 8, ⟨⟩, always⟩) s
    vsAfter t 9 = [1, 0, 0xFFFFFFFF, 0xFFFFFFFE].map some ∧ spadAfter t 0x80C = some 10 ∧ spadAfter t 0x818 = some 11 := by
  decide +kernel
/-- A store and what a load of it then brings, sign-extended (R431, R478). -/
theorem test_sts_lds : (match exec (.stsC ⟨plain, .v 2, .s 4, 6, ⟨.b16, 0⟩, always⟩) (running [(2, 0x12348001)] [(4, 0x100)]) with
    | .next t => vAfter (exec (.ldsC ⟨plain, .v 3, .s 4, 6, ⟨.s16, 0⟩, always⟩) { t with mach := { t.mach with issue := some issue0 } }) 1 3
    | .fault _ => none
    | .refused _ => none) = some 0xFFFF8001 := by decide +kernel
theorem test_st : (after (exec (.stC ⟨plain, .v 2, .s 4, 4, ⟨.b32, 0⟩, always⟩) (running [(2, 0xA1B2C3D4)] [(4, 0x7000)])) fun t =>
    memRead t.mach.mem 0x7003 5) = some [0, 0xD4, 0xC3, 0xB2, 0xA1] := by decide +kernel
/-- R378, R379: BINIT of an object that holds zero, then the arrival of 256 bytes expected after 256 delivered. -/
theorem test_barrier : ((barOf 0).init 1 false).pack = 0x1001 ∧ (barOf 0x1001).countDown 256 = barOf 0xFFFFFF0000001001 ∧
    ((barOf 0xFFFFFF0000001001).expect 256).pack = 0x02001001 := by decide +kernel
theorem test_binit : let t := exec (.binit ⟨at_ .lane 0 1, .v 2, .s 8, .v 3, .v 0, ⟨false, .blk⟩, always⟩) (running [(3, 1)] [(8, 0x200)])
    vAfter t 0 2 = some 0 ∧ spadAfter t 0x200 = some 0x1001 := by decide +kernel

/-! ## Control -/

/-- R383: the offset counts words from the clause; a lane whose guard is false goes on (R39). -/
theorem test_bra : let t := exec (.bra ⟨plain, 0xFFFFF9, on 2⟩) (running [] [])
    laneAfter t 0 = some (.ready, ⟨0x3FE4, 0⟩) ∧
    laneAfter (exec (.bra ⟨plain, 0xFFFFF9, on 1⟩) (running [] [])) 0 = some (.ready, ⟨0x4008, 0⟩) := by decide +kernel
/-- R287: the lane parks with the code. -/
theorem test_trap : (after (exec (.trap ⟨plain, .v 0, .v 0, 0x2A, ⟨⟩, always⟩) (running [] [])) fun t =>
    (t.mach.warp? 0 0).map fun w => (w.lanes.filterMap causeOf)) = some (some [.trap 0x2A, .trap 0x2A]) := by
  decide +kernel

/-! ## The cipher of sealed lines (R316): values of FIPS 197 -/

theorem test_subByte : subByte 0x53 = 0xED := by decide +kernel
theorem test_mixColumn : mixColumn [0xDB, 0x13, 0x53, 0x45] = [0x8E, 0x4D, 0xA1, 0xBC] := by decide +kernel

end Sys2Proof.Tests
end

