-- ==== Sys2Proof/Tests/WitnessUnits.lean ====
section
/-! SUPPORT. For the statements about memory, atomics, barriers, fences, press instructions and the units, states and operands that
meet their hypotheses. -/

namespace Sys2Proof.Tests

set_option Elab.async false

open Sys2Proof Sys2Proof.Machine

/-! ## Bytes of memory -/

/-- The page that the bench maps, and lane 0 as an element. -/
def leaf0 : Leaf := { w := true, x := true, damp := false, sealed := false, tier := 0, log := 30, frame := 0, tag := 0, entry := 0x2000 }
def view0 : View :=
  { mg := Mgmt.reset, q := issue0, scope := .lane, b := block0 (warp0 [] []), warp := 0, w := warp0 [] [], lane := 0
    l := lane0 [] 0, rank := 0, gang := none, size := 32, n := 0, id := 0, gbits := 15, base := 0, pts := 0, set := [⟨0, 0, 0⟩] }
/-- The running machine with its translation in core 0's TLB. -/
def tlbMachine : Mach := { (running [] []).mach with tlb := [⟨0, 0, 0, leaf0⟩] }
def loc0 (n : Nat) : Loc := ⟨.dev 0x5000, 0x5000, n, leaf0⟩

theorem plain0 : plainLoc tlbMachine Mgmt.reset view0 0x5000 8 (loc0 8) :=
  ⟨by decide, rfl, rfl, fun pa h => by cases h; decide +kernel, fun pa h => by cases h; decide +kernel⟩

theorem witness_BytesOfMemory : ∃ m mg v va n l pa, plainLoc m mg v va n l ∧ l.place = .dev pa ∧ noCopies m v.b.core pa ∧
    pa % 32 + n ≤ 32 ∧ 0 < n ∧ n ≤ 16 ∧ m.presses = [] ∧ l.leaf.w = true ∧ l.leaf.sealed = false ∧
    m.storeOk v.b.ctx l.leaf.tag 0 = true ∧ m.scrub = [] ∧ m.memoriesOk = true ∧ tabFind m.side (lineOf pa) = none ∧
    ∃ bid b a, tabFind m.blocks bid = some b ∧ a % 64 + 64 ≤ 64 ∧ b.spadBad = [] ∧ Memory.wf b.spad = true := by
  refine ⟨tlbMachine, Mgmt.reset, view0, 0x5000, 8, loc0 8, 0x5000, plain0, rfl, rfl, by decide, by decide, by decide, rfl, rfl, rfl,
    by decide +kernel, rfl, by decide +kernel, rfl, 0, block0 (warp0 [] []), 64, rfl, by decide, rfl, rfl⟩

/-! ## Atomics and barriers -/

theorem witness_AtomicOperations :
    (let mo : AtomMods := ⟨.incsat, false, true, .blk, true, false⟩
    let x : BitVec 64 := 7
    let bs : List Byte := [6, 0, 0, 0]
    bs.length = (if mo.wide then 8 else 4) ∧ x.toNat < 2 ^ (if mo.wide then 64 else 32) ∧
      (mo.op = .fadd ∨ mo.op = .incsat → mo.wide = false) ∧ (mo.op = .incsat → mo.unsigned = true)) ∧
    MeetsEffect plain always true true allScopes
      (fun ow _ => allOf [atomDest ow true true true (.v 8), admits ow srcVS 2 (.s 2), admits ow srcFp 2 (.v 4)]) anyTime
      (eachActs (atomAct ⟨.add, true, false, .blk, true, true⟩ (.v 8) (.s 2) (.v 4))) ∧
    MeetsEffect (at_ .warp 0 1) always true true allScopes
      (fun ow _ => allOf [atomDest ow false false false .zero, admits ow srcVS 2 (.s 2), admits ow srcFp 1 (.v 0)]) anyTime
      (completed (atomSet ⟨.add, false, false, .dev, false, false⟩ .zero (.s 2) (.v 0))) ∧
    MeetsEffect plain always false true allScopes
      (fun ow _ => allOf [atomDest ow true false false (.v 8), admits ow srcVS 2 (.s 2), admits ow srcFp 1 (.v 0), admits ow srcFp 1 .ones])
      anyTime (eachActs (casAct ⟨false, .dev, false⟩ (.v 8) (.s 2) (.v 0) .ones)) ∧
    MeetsEffect (at_ .warp 0 1) always true true allScopes
      (fun ow _ => allOf [admits ow { v := true, zero := true } 1 (.v 9), admits ow srcVS 2 (.s 2),
        admits ow { v := true, s := true, spec := true, zero := true } 1 .laneId, admits ow srcFp 1 (.v 0)]) anyTime
      (completed (sbinSet (.v 9) (.s 2) .laneId (.v 0))) := by
  refine ⟨by decide, meets0 [] [(2, 0x100)] ⟨.inl rfl, rfl⟩ (by unfold allOf; decide) trivial (by decide +kernel),
    meets0 [] [(2, 0x5000)] ⟨.inr rfl, rfl⟩ (by unfold allOf; decide) trivial (by decide +kernel),
    meets0 [] [(2, 0x5000)] ⟨.inl rfl, rfl⟩ (by unfold allOf; decide) trivial (by decide +kernel),
    meets0 [] [(2, 0x100)] ⟨.inr rfl, rfl⟩ (by unfold allOf; decide) trivial (by decide +kernel)⟩

theorem witness_BarrierObjectsAndWaits : (∃ o : BarObj, o.count = 0) ∧ (∃ o : BarObj, o.count ≠ 0) ∧
    MeetsEffect plain always false true allScopes
      (fun ow _ => allOf [admits ow (dstVSZ ow) 1 (.v 4), admits ow srcVS 2 (.s 2), 1 == 0 || admits ow srcVS 1 (.s 5)]) anyTime
      (eachActs (barAct ⟨false, .blk⟩ (.v 4) (.s 2) [⟨1, .s 2, 2⟩, ⟨2, .s 5, 1⟩] fun v =>
        if 1 ≤ (v.val 2 (.s 5)).toNat ∧ (v.val 2 (.s 5)).toNat ≤ 4095 then some fun o => o.init ((v.val 2 (.s 5)).setWidth 12) false
        else none)) ∧
    MeetsEffect plain always false true allScopes
      (fun ow _ => allOf [admits ow srcP 1 (.p 3), admits ow srcVS 2 (.s 2), admits ow srcVS 1 (.s 5)]) anyTime
      (eachActs (btestAct ⟨false, .blk⟩ (.p 3) (.s 2) (.s 5))) ∧
    MeetsEffect plain always false true allScopes (fun ow _ => allOf [admits ow srcVS 2 (.s 2), admits ow srcVS 1 (.s 5)])
      (fun vs m => bwaitReady ⟨false, .blk⟩ (.s 2) (.s 5) (isWide .lane) vs m = true)
      (eachActs (bwaitAct ⟨false, .blk⟩ (.s 2) (.s 5))) := by
  refine ⟨⟨barOf 0, by decide⟩, ⟨barOf 0x1001, by decide⟩,
    meets0 [] [(2, 0x200), (5, 3)] ⟨.inl rfl, rfl⟩ (by unfold allOf; decide) trivial (by decide +kernel),
    meets0 [] [(2, 0x200), (5, 0)] ⟨.inl rfl, rfl⟩ (by unfold allOf; decide) trivial (by decide +kernel),
    meets0 [] [(2, 0x200), (5, 0)] ⟨.inl rfl, rfl⟩ (by unfold allOf; decide) (by decide +kernel) (by decide +kernel)⟩

/-! ## Fences -/

/-- A warp with a posted fence of lanes 0 and 1 outstanding, whose pair is owed. -/
def fence0 : Fence :=
  { kind := .posted, lanes := 3, flight := 5, dst := .v 4, scope := .lane, tags := [(0, 0), (1, 0)], waits := [] }
def fencedWarp : Warp :=
  { warp0 [] [] with
    fence := some fence0, flights := [⟨5, some 0, none, false⟩], ws := [1, 0, 0, 0, 0, 0]
    pend := [⟨5, .v 0 4, ⟨0, 0⟩, true⟩, ⟨5, .v 0 5, ⟨0, 0⟩, true⟩, ⟨5, .v 1 4, ⟨0, 0⟩, true⟩, ⟨5, .v 1 5, ⟨0, 0⟩, true⟩] }

theorem witness_FencesAndStamps :
    MeetsEffect plain always true true laneWarp
      (fun ow _ => isZero (.v 4) = true ∨ (FenceKind.posted = .posted ∧ admits ow (dstVS ow) 2 (.v 4) = true)) anyTime
      (fenceAct .posted (.v 4)) ∧
    (let s := state0 (block0 fencedWarp)
    s.mgmt.power = .on ∧ tabFind s.mach.blocks 0 = some (block0 fencedWarp) ∧ tabFind (block0 fencedWarp).warps 0 = some fencedWarp ∧
      fencedWarp.fence = some fence0 ∧ s.mach.fenceOver (block0 fencedWarp) 0 0 fence0 = true ∧ (fence0.tags.map (·.1)).Nodup ∧
      (laneAt fencedWarp 0).isSome = true ∧ ∃ p ∈ fencedWarp.pend, p.id = fence0.flight ∧ p.reg = .v 0 5 ∧ p.live = true) := by
  refine ⟨meets0 [] [] ⟨.inl rfl, rfl⟩ (.inr ⟨rfl, by decide⟩) trivial (by decide +kernel), by decide +kernel⟩

/-! ## Press instructions -/

/-- The claim definition of 07_press_units.md: header and micro-operations as its working encodes them. -/
def claimImage : PressImage :=
  { header := 0x0005018D
    uops := [0x0800, 0x1900, 0x2205, 0x0B01, 0x8C6A, 0xB483, 0x1200, 0xA800, 0x0000, 0x6D90, 0x2DB0, 0xA8A0, 0x0000] }
def claimEntry : PressEntry := { image := claimImage, tag := 0, dropping := false, waiters := [] }

/-- R165: the definition passes; with skip count 4, micro-operation 10 reads t5 before it is written (status 0x0A07). -/
theorem test_claim_check : claimImage.check = none ∧
    ({ claimImage with uops := claimImage.uops.set 5 0xB484 } : PressImage).check = some (7, 10) := by decide +kernel
/-- Count 5 and cap 8: operand 2 stores 7 and returns 5; operand 4 then stores nothing and returns all ones. -/
theorem test_claim_applied : applyImage claimImage [2] [] [5, 8] = (some [7, 8], 5) ∧
    applyImage claimImage [4] [] [7, 8] = (none, 0xFFFFFFFF) := by decide +kernel

/-- The running machine whose context holds the claim as entry 5, one with entry 6 dropping; s2 names a granule. -/
def pressCtx : Ctx :=
  { (running [] []).mach.ctx 0 with press := ⟨[(5, claimEntry), (6, { claimEntry with dropping := true })]⟩ }
def pressMachine (s : List (Nat × Word)) : Mach := (running [] s).mach.setCtx 0 pressCtx
theorem pressUnder (s : List (Nat × Word)) : Under (pressMachine s) (block0 (warp0 [] s)) (warp0 [] s) :=
  ⟨rfl, rfl, rfl, by simp [warp0_lanes], ⟨rfl, rfl, rfl⟩, ⟨rfl, rfl, rfl⟩⟩

theorem witness_PressRequestsOfLanes :
    MeetsEffect plain always false true laneWarp
      (fun ow c => allOf [admits ow srcVS 2 (.s 2), opndOk ow (pressEntry c 5) (.v 0)])
      (fun vs m => pressReadyToGo ⟨5, .dev, false⟩ (.s 2) (.v 0) vs m = true)
      (completed (eachRun (pressLane ⟨5, .dev, false⟩ (.s 2) (.v 0)))) ∧
    MeetsEffect plain always false true laneWarp
      (fun ow c => allOf [admits ow { v := true, s := ow.wide } 8 (.v 8), admits ow srcVS 2 (.s 2), opndOk ow (pressEntry c 5) (.v 0)])
      anyTime (completed (eachRun (pressrLane ⟨5, .dev, true⟩ (.v 8) (.s 2) (.v 0)))) ∧
    pressEntry (Mach.ctx (pressMachine []) view0.b.ctx) 7 = none ∧ pressEntry (Mach.ctx (pressMachine []) view0.b.ctx) 6 = none ∧
    (match (pressResolve ⟨5, .dev, false⟩ (.v 0) (.v 0) false { view0 with w := warp0 [(1, 0)] [] } (pressMachine [])).1 with
      | .ok _ => true
      | .error _ => false) = true := by
  refine ⟨meetsEffect (pressUnder [(2, 0x5000)]) ⟨.inl rfl, rfl⟩ (by unfold allOf; decide +kernel) (by decide +kernel) (by decide +kernel),
    meetsEffect (pressUnder [(2, 0x5000)]) ⟨.inl rfl, rfl⟩ (by unfold allOf; decide +kernel) trivial (by decide +kernel),
    by decide +kernel, by decide +kernel, by decide +kernel⟩

theorem witness_MicroOperations : (⟨List.replicate 8 0, [], 0, false⟩ : UState).t.length = 8 ∧ uCode 0x2205 = 4 ∧ uV 0x2205 = 1 ∧
    uCode 0x8C6A = 0x11 ∧ uCode 0xA800 = 0x15 ∧ uCode 0x1200 = 2 := by decide

theorem witness_CheckedImagesAreDetermined : ∃ (d : PressImage) (t : List Word), d.check = none ∧ d.uops.length = d.nuop ∧
    t.length = 8 :=
  ⟨claimImage, List.replicate 8 0, by decide +kernel, by decide, by decide⟩

/-- PDEF of an image that holds an END alone, at 0x5000; PDROP of entry 5. -/
def pdefMachine : Mach :=
  let m := pressMachine [(2, 0x5000), (4, 9)]
  { m with mem := memWrite m.mem 0x5000 (bytesOfNat 0x181 8) }
theorem pdefUnder : Under pdefMachine (block0 (warp0 [] [(2, 0x5000), (4, 9)])) (warp0 [] [(2, 0x5000), (4, 9)]) :=
  ⟨rfl, rfl, rfl, by simp [warp0_lanes], ⟨rfl, rfl, rfl⟩, ⟨rfl, rfl, rfl⟩⟩

theorem witness_PressTable :
    MeetsEffect (at_ .warp 0 1) always false true warpOnly
      (fun ow _ => allOf [admits ow (dstVSZ ow) 1 (.s 6), admits ow srcVS 2 (.s 2), admits ow srcVSZ 1 (.s 4)]) anyTime
      (completed (eachRun (pdefRun (.s 6) (.s 2) (.s 4)))) ∧
    MeetsEffect (at_ .warp 0 1) always false true warpOnly (fun _ _ => (5#16).toNat < 64) anyTime
      (eachActs fun v m => match tabFind (m.ctx v.b.ctx).press 5 with
        | none => some ({ closed := true }, m)
        | some e =>
          let e' : PressEntry := { e with dropping := true, waiters := e.waiters ++ [(v.q.bid, v.warp, v.id)] }
          some ({}, m.modCtx v.b.ctx fun c => { c with press := tabSet c.press 5 e' })) ∧
    (let v := { view0 with w := warp0 [] [(2, 0x5000), (4, 9)] }
    (v.val 2 (.s 4)).toNat < 64 ∧ pdefMachine.pdefStatus v.mg v.b.ctx 9 ⟨0x181, [0]⟩ = 0 ∧ tabHas pdefMachine.ctxs v.b.ctx = true ∧
      ((pdefRun (.s 6) (.s 2) (.s 4) v pdefMachine).2.ctx 0).press.cells.length = 3) ∧
    (let s := { State.reset with mach := pressMachine [] }
    s.mgmt.power = .on ∧ tabHas s.mach.ctxs 0 = true ∧ tabFind (s.mach.ctx 0).press 6 = some { claimEntry with dropping := true } ∧
      s.mach.presses = []) := by
  refine ⟨meetsEffect pdefUnder ⟨.inr rfl, rfl⟩ (by unfold allOf; decide) trivial (by decide +kernel),
    meetsEffect (pressUnder []) ⟨.inr rfl, rfl⟩ (by decide) trivial (by decide +kernel), by decide +kernel, by decide +kernel⟩

/-! ## Engines, tiles, gate, control registers -/

/-- The running block with handle 0 bound to tile 3 of its core; s2 names a block of 64 bytes of scratchpad. -/
def tile0 : Tile := { owner := 0, valid := true, type := .either, words := ⟨[]⟩, tag := 0, free := none }
def tiledBlock : Block := { block0 (warp0 [] [(2, 0x40)]) with handles := ⟨[(0, 3)]⟩ }
def tiledMachine : Mach :=
  let m := machine0 tiledBlock
  m.modCore 0 fun c => { c with tiles := ⟨[(3, tile0)]⟩ }
theorem tiledUnder : Under tiledMachine tiledBlock (warp0 [] [(2, 0x40)]) :=
  ⟨rfl, rfl, rfl, by simp [warp0_lanes], ⟨rfl, rfl, rfl⟩, ⟨rfl, rfl, rfl⟩⟩

theorem witness_EngineCommandsQueue :
    MeetsEffect (at_ .warp 0 1) always false true warpOnly (fun ow _ => allOf [admits ow srcVS 1 (.s 2)])
      (fun vs m => kickReady (.s 2) vs m = true) (eachActs (kickAct false (.s 2))) ∧
    MeetsEffect (at_ .warp 0 1) always false true warpOnly (fun ow _ => allOf [admits ow srcVS 1 (.s 2)])
      (fun vs m => kickReady (.s 2) vs m = true) (eachActs (kickAct true (.s 2))) ∧
    MeetsEffect (at_ .warp 0 1) always false true warpOnly (fun ow _ => allOf [admits ow srcVS 1 (.s 2)])
      (fun vs m => mxReady vs m = true) (eachActs (mmaAct (.s 2))) ∧
    MeetsEffect (at_ .warp 0 1) always false true warpOnly
      (fun ow _ => allOf [admits ow onlyA 1 (.a 0), admits ow { s := true, zero := true } 2 .zero,
        admits ow { s := true, zero := true } 1 .zero]) (fun vs m => mxReady vs m = true)
      (eachActs (tdrainAct ⟨.bf16, .rne, false, true, true, true, 0, false, false⟩ (.a 0) .zero .zero)) := by
  refine ⟨meetsEffect tiledUnder ⟨.inr rfl, rfl⟩ (by unfold allOf; decide) (by decide +kernel) (by decide +kernel),
    meetsEffect tiledUnder ⟨.inr rfl, rfl⟩ (by unfold allOf; decide) (by decide +kernel) (by decide +kernel),
    meetsEffect tiledUnder ⟨.inr rfl, rfl⟩ (by unfold allOf; decide) (by decide +kernel) (by decide +kernel),
    meetsEffect tiledUnder ⟨.inr rfl, rfl⟩ (by unfold allOf; decide) (by decide +kernel) (by decide +kernel)⟩

/-- A core whose oldest TALLOC asks for four tiles for lanes 0 and 1, which wait, and whose tile 3 is on its way back. -/
def tallocReq : TileReq := { bid := 0, warp := 0, n := 4, dst := .s 20, tags := 0, lanes := [(0, 3, some 7)], id := 7 }
def tallocWarp : Warp :=
  { benchWarp 0 with
    lanes := (List.range 32).map fun k => { benchLane 0 with st := if k < 2 then .waiting .talloc else .ready }
    flights := [⟨7, none, none, false⟩], pend := [⟨7, .s 20, ⟨0, 0⟩, true⟩] }
def tallocState : State :=
  let m := machine0 (block0 tallocWarp)
  { State.reset with mach := m.modCore 0 fun c => { c with tileQ := [tallocReq], tiles := ⟨[(3, { tile0 with free := some ([1], []) })]⟩ } }

theorem witness_TilesGrantedAndFreed :
    MeetsEffect (at_ .warp 0 1) always false true { warp := true, block := true }
      (fun ow _ => admits ow { s := ow.wide, zero := true } 1 (.s 20) = true ∧ 1 ≤ (16#16).toNat ∧ (16#16).toNat ≤ 16) anyTime
      (eachActs (tallocAct 16 (.s 20))) ∧
    MeetsEffect (at_ .warp 0 1) always false true { warp := true, block := true } (fun ow _ => allOf [admits ow onlyA 1 (.a 0)]) anyTime
      (eachActs (tfreeAct (.a 0))) ∧
    (let s := tallocState
    s.mgmt.power = .on ∧ (s.mach.core 0).tileQ = [tallocReq] ∧ tabFind s.mach.blocks 0 = some (block0 tallocWarp) ∧
      (block0 tallocWarp).resident = true ∧ (∃ w k l, tabFind (block0 tallocWarp).warps 0 = some w ∧ laneAt w k = some l ∧
        (3 : LaneMask).getLsbD k = true ∧ l.st = .waiting .talloc) ∧
      tallocReq.n ≤ ((List.range 16).filter fun t => !tabHas (s.mach.core 0).tiles t).length ∧
      tallocReq.n ≤ ((List.range 16).filter fun h => !tabHas (block0 tallocWarp).handles h).length ∧
      tabFind (s.mach.core 0).tiles 3 = some { tile0 with free := some ([1], []) } ∧ ∀ c ∈ s.mach.allCommands, c.id ∉ [1]) := by
  refine ⟨meetsEffect tiledUnder ⟨.inr rfl, rfl⟩ (by decide) trivial (by decide +kernel),
    meetsEffect tiledUnder ⟨.inr rfl, rfl⟩ (by unfold allOf; decide) trivial (by decide +kernel), ?_⟩
  refine ⟨rfl, rfl, rfl, rfl, ⟨tallocWarp, 0, { benchLane 0 with st := .waiting .talloc }, rfl, rfl, by decide, rfl⟩, by decide +kernel,
    by decide +kernel, by decide +kernel, by decide +kernel⟩

theorem witness_GateAndControlRegisters :
    MeetsEffect (at_ .warp 0 1) always false true warpOnly
      (fun ow _ => allOf [admits ow { s := ow.wide, zero := true } 1 (.s 16), admits ow srcVS 1 (.s 2)])
      (fun vs m => vs = [] ∨ m.gate.length < 64) (eachActs (relgAct (.s 16) (.s 2))) ∧
    MeetsEffect plain always false true allScopes
      (fun ow _ => ∃ k, csrRegs 0x140 = some k ∧ admits ow (dstVS ow) k (.v 4) = true) anyTime (eachActs (csrdAct 0x140 (.v 4))) ∧
    MeetsEffect (at_ .warp 0 0) always false true warpOnly
      (fun ow _ => admits ow srcVSZ 1 (.s 2) = true ∧ (csrRegs 0x110).isSome = true ∧ (0x110#16) ≠ 0x111 ∧ (0x110#16) ≠ 0x112 ∧
        (0x110#16) ≠ 0x113) anyTime (eachActs (csrwAct 0x110 (.s 2))) := by
  refine ⟨meetsEffect tiledUnder ⟨.inr rfl, rfl⟩ (by unfold allOf; decide) (.inr (by decide)) (by decide +kernel),
    meets0 [] [] ⟨.inl rfl, rfl⟩ ⟨2, rfl, by decide⟩ trivial (by decide +kernel),
    meets0 [] [] ⟨.inr rfl, rfl⟩ (by decide) trivial (by decide +kernel)⟩

end Sys2Proof.Tests
end

