-- ==== Sys2Proof/Tests/WitnessSteps.lean ====
section
/-! SUPPORT. For the statements about the gate, results, ticks and damp lines, states that meet their hypotheses. -/

namespace Sys2Proof.Tests

set_option Elab.async false

open Sys2Proof Sys2Proof.Machine

/-- An add to word 0 of a granule of 8 bytes that may be combined: NUOP 5, GRAN 3, CLASS 2, OPND 1; LDF t0, 0; LDO t1, 0;
ADD t0, t0, t1; STF 0, t0; END. -/
def addImage : PressImage := { header := 0x41185, uops := [0x0800, 0x1900, 0x2004, 0x1000, 0x0000] }

/-- An add of 2 to the granule at 0x5000, of lane 0, numbered 4. -/
def pressReq0 : PressReq :=
  { id := 4, ctx := 0, opc := 5, image := addImage, granule := 0x5000, va := 0x5000, target := none, remote := none, opnd := [2]
    parts := [[2]], ids := [4], count := 1, lanes := [⟨0, 0, 0⟩], cores := [0], pts := 9, reply := none, comb := none, fast := true
    world := none, damp := false, wring := false, chan := false, done := none, home := false, wants := none, glitch := false }

/-! ## The release gate -/

/-- R311: the digest that the standard's own example gives of the three letters abc. -/
theorem test_sha256 : natOfBytes (sha256 [0x61, 0x62, 0x63]).reverse =
    0xba7816bf8f01cfea414140de5dae2223b00361a396177a9cb410ff61f20015ad := by decide +kernel

/-- A warp whose instruction 7 owes s16 its value. -/
def owing : Warp :=
  { warp0 [] [] with flights := [⟨7, some 0, none, true⟩], ws := [1, 0, 0, 0, 0, 0], pend := [⟨7, .s 16, ⟨0, 0⟩, true⟩] }

/-- Source 0x6000, destination 0x40000000, 16 bytes, policy 0x5000 and no barrier object. -/
def relBlock : BitVec 512 := BitVec.ofNat 512 (0x6000 + 0x40000000 * 2 ^ 64 + 16 * 2 ^ 128 + 0x5000 * 2 ^ 192)
def gate0 (block : BitVec 512) : GateReq :=
  { id := 3, bid := 0, warp := 0, ctx := 0, launch := 0, block := block, blockTag := 1, tags := 0, dst := .s 16, flight := 7, waits := [4] }

/-- A policy of version 1 under party 0 for host pages at 0x40000000 up to 0x40010000, 4,096 bytes, number 1; and its signature.
The party's key has order 2, which keeps the check short. -/
def gatePolicy : Nat := 0x10000100000000000000000004001000000000000400000000000000000010001
def gateSignature : Nat :=
  0x723db70796b556c105377fdb0e5c43db7109e6836d9d880b8adb21fa2802de0e6b17d1f2e12c4247f8bce6e563a440f277037d812deb33a0f4a13945d898c296

def gateMachine (g : GateReq) : Mach :=
  let m := machine0 (block0 owing)
  let mem := memWrite m.mem 0x2008 (bytesOfNat 0x23B 8)
  let mem := memWrite mem 0x5000 (bytesOfNat gatePolicy 128)
  let mem := memWrite mem 0x5080 (bytesOfNat gateSignature 64)
  let mem := memWrite mem 0x6000 (bytesOfNat 0x1234 16)
  { m with mem := mem, gate := [g], ctxs := tabMod m.ctxs 0 fun c => { c with parties := ⟨[(0, 1)]⟩ } }
def gateState (g : GateReq) : State := { State.reset with mach := gateMachine g }

def gateRun : (Except GateFail Grant × Mask) × Mach :=
  ({ gateMachine (gate0 relBlock) with gate := [] } : Mach).gateChecks Mgmt.reset (engineOf 0 0 0) (gate0 relBlock) (releaseOf relBlock)

/-- The step leaves the state as it is. -/
def still (i : Instr) (s : State) : Bool := after (exec i s) (fun t => decide (t = s)) == some true

/-- A computation that succeeds with what `p` asks for. -/
theorem ok_of {ε α γ : Type} {r : Except ε α × γ} (p : α → γ → Bool)
    (h : (match r.1 with | .ok x => p x r.2 | .error _ => false) = true) : ∃ x m, r = (.ok x, m) ∧ p x m = true := by
  obtain ⟨e, m⟩ := r
  cases e with
  | error e => cases h
  | ok x => exact ⟨x, m, rfl, h⟩

theorem ok_of2 {ε α β γ : Type} {r : (Except ε α × β) × γ} (p : α → γ → Bool)
    (h : (match r.1.1 with | .ok x => p x r.2 | .error _ => false) = true) : ∃ x t m, r = ((.ok x, t), m) ∧ p x m = true := by
  obtain ⟨⟨e, t⟩, m⟩ := r
  cases e with
  | error e => cases h
  | ok x => exact ⟨x, t, m, rfl, h⟩

/-- The request that waits for press 4, one whose destination is misaligned, and one that passes every check. -/
theorem witness_GateAndControlRegisters_process :
    (let r : PressReq := pressReq0
    let s : State := { gateState (gate0 relBlock) with mach := { gateMachine (gate0 relBlock) with presses := [r] } }
    isOn s ∧ s.mach.gate = [gate0 relBlock] ∧ ∃ k ∈ r.ids, k ∈ (gate0 relBlock).waits) ∧
    (let g := gate0 (relBlock ||| 1)
    let s := gateState g
    isOn s ∧ s.mach.gate = [g] ∧ s.mach.presses = [] ∧ (releaseOf g.block).bad = true ∧ Stands s.mach 0 0 (block0 owing) owing ∧
      regOf 0 g.dst 0 = some (.s 16) ∧ (∃ p ∈ owing.pend, p.id = g.flight ∧ p.reg = .s 16 ∧ p.live = true) ∧
      regAfter (exec .releaseGateProcess s) (.s 16) = some ⟨1, 1⟩) ∧
    (let g := gate0 relBlock
    let s := gateState g
    isOn s ∧ s.mach.gate = [g] ∧ s.mach.presses = [] ∧ Stands s.mach 0 0 (block0 owing) owing ∧ (releaseOf g.block).bar = 0 ∧
      (∃ x tag m1, ({ s.mach with gate := [] } : Mach).gateChecks s.mgmt (engineOf g.ctx g.launch (block0 owing).core) g
        (releaseOf g.block) = ((.ok x, tag), m1) ∧ (m1.blocks == s.mach.blocks && m1.memoriesOk && !m1.hostHeld 0 && !m1.hostDead 0 &&
          x.dest == [(.host 0, x.buffer.length)] && tabHas m1.ctxs 0) = true) ∧
      after (exec .releaseGateProcess s) (fun t => (t.mach.hostMem.cells, ((t.mach.ctx 0).budgets.map (·.pid)))) =
        some ([(0, 0x34), (1, 0x12)], [1])) := by
  refine ⟨⟨rfl, rfl, 4, by decide, by decide⟩, ⟨rfl, rfl, rfl, by decide +kernel, ⟨rfl, rfl⟩, rfl, by decide, by decide +kernel⟩, rfl,
    rfl, rfl, ⟨rfl, rfl⟩, by decide +kernel, ok_of2 (fun (x : Grant) (m1 : Mach) => m1.blocks == (gateMachine (gate0 relBlock)).blocks &&
      m1.memoriesOk && !m1.hostHeld 0 && !m1.hostDead 0 && x.dest == [(.host 0, x.buffer.length)] && tabHas m1.ctxs 0)
      (by decide +kernel), by decide +kernel⟩

/-! ## Results, ticks, damp lines -/

/-- Without marks of sealed or unclear lines, a range whose bytes are good is plain. -/
theorem plain_of {m : Mach} {pa n : Nat} (g : m.badRange none pa n = false) (c : m.scrub = []) (u : m.side = ⟨[]⟩) :
    plainRange m pa n := by
  refine ⟨g, fun a _ _ => ?_, fun a _ _ => ?_⟩
  · rw [c]; rfl
  · rw [u]; rfl

theorem quiet_of {m : Mach} {pa n : Nat} (p : plainRange m pa n) (t : m.trackers = []) (d : m.drains = [])
    (w : m.memoriesOk = true) (k : 0 < n) : QuietRange m pa n := by
  refine ⟨p, fun l _ => ⟨?_, ?_⟩, w, k⟩
  · rw [t]; intro x hx; cases hx
  · rw [d]; intro x hx; cases hx

/-- The lanes of the warp wait for the load `i`, whose wait is over. -/
def wrung0 (i : Instr) : Wrung := { id := 9, issue := issue0, instr := i, wait := [(160, 0)], lines := [160], slot := none }
def wrungWarp : Warp := { warp0 [] [(2, 0x5000)] with block := some (.wrung 9) }
def wrungState (i : Instr) : State :=
  { State.reset with mach := { machine0 (block0 wrungWarp) with wrung := [wrung0 i], issue := none } }
/-- What the statement asks of it, for a load that acts as `act`. -/
def MeetsWrung (i : Instr) (h : Head) (g : Guard) (calm : List View → Mach → Prop)
    (act : List View → Mach → Option (List Done × Mach)) : Prop :=
  isOn (wrungState i) ∧ (wrungState i).mach.wrung.find? (·.id == 9) = some (wrung0 i) ∧ (wrungState i).mach.drains = [] ∧
    (∀ y ∈ (wrungState i).mach.wrung, y.id ≠ 9 → y.issue ≠ issue0) ∧
    calm (elements ((wrungState i).unwrung 9 issue0) issue0 (block0 (warp0 [] [(2, 0x5000)])) (warp0 [] [(2, 0x5000)]) h g 32)
      ((wrungState i).unwrung 9 issue0).mach ∧
    Stands ((wrungState i).unwrung 9 issue0).mach 0 0 (block0 (warp0 [] [(2, 0x5000)])) (warp0 [] [(2, 0x5000)]) ∧
    noHeld (wrungState i) ∧ noShort (wrungState i) (block0 (warp0 [] [(2, 0x5000)])) (warp0 [] [(2, 0x5000)]) ∧
    actsOn { (wrungState i).mach with wrung := [] } (block0 (warp0 [] [(2, 0x5000)])) (warp0 [] [(2, 0x5000)]) h g false act = true

/-- A CSRW of BIN.TIMER under way. -/
def csrwWarp : Warp := { owing with csrw := [(7, 0x110, 99)] }
def tickState (cycle : Nat) : State :=
  let m := machine0 (block0 (warp0 [] []))
  { State.reset with mach := { m.modCore 0 fun c => { c with ticked := some 0 } with cycle := cycle } }

/-- Where no element's load has anything to wait for, none has. -/
theorem calm_of {h : Head} {z : LoadSize} {addr : View → Mach → Option Nat} {tau : View → Word} {vs : List View} {m : Mach}
    (e : (acting h false vs).all (fun v => match addr v m with
      | none => true
      | some va => (m.wringsOfLoad v.mg v va (sizeOfLoad z) (tau v)).isEmpty) = true) : noWrings h z addr tau vs m := by
  intro v hv va g
  have := List.all_eq_true.1 e v hv
  rw [g] at this
  exact List.isEmpty_iff.1 this

theorem witness_ResultsAndTicks :
    (let ld : FormB LoadMods := ⟨plain, .v 4, .s 2, .zero, .zero, ⟨.b32, 0⟩, always⟩
    MeetsWrung (.ldB ld) plain always (noWrings plain .b32 (fun v _ => globalAt (v.val64 1 (.s 2)) (indexed2 .zero 0 v) 4) fun _ => 0)
      (eachActs (loadAct (.v 4) .b32
      fun v _ => globalAt (v.val64 1 (.s 2)) (indexed2 .zero 0 v) 4))) ∧
    (let s := state0 (block0 owing)
    isOn s ∧ s.mach.wrung = [] ∧ Stands s.mach 0 0 (block0 owing) owing ∧
      owing.flights.find? (·.id == 7) = some ⟨7, some 0, none, true⟩ ∧ owing.csrw.find? (·.1 == 7) = none ∧
      (after (exec (.latencyVResult 0 0 7) s) fun t => (t.mach.warp? 0 0).map fun w => (w.flights, w.ws)) =
        some (some ([], [0, 0, 0, 0, 0, 0]))) ∧
    (let s := state0 (block0 csrwWarp)
    isOn s ∧ s.mach.wrung = [] ∧ Stands s.mach 0 0 (block0 csrwWarp) csrwWarp ∧ tabHas s.mach.ctxs 0 = true ∧
      csrwWarp.csrw.find? (·.1 == 7) = some (7, 0x110, 99) ∧
      (after (exec (.latencyVResult 0 0 7) s) fun t => (t.mach.ctx 0).binTimer) = some 99) ∧
    (let s := tickState 63
    isOn s ∧ (s.mach.core 0).ticked = some 0 ∧ s.mach.cycle < 0 + 64 ∧ still (.stampTick 0) s = true) ∧
    (let s := tickState 64
    isOn s ∧ (s.mach.core 0).ticked = some 0 ∧ 0 + 64 ≤ s.mach.cycle ∧ Stands s.mach 0 0 (block0 (warp0 [] [])) (warp0 [] []) ∧
      laneAt (warp0 [] []) 5 = some (lane0 [] 5) ∧
      (after (exec (.stampTick 0) s) fun t => ((t.mach.warp? 0 0).bind fun w => (laneAt w 5).map (·.pts))) = some (some 1)) := by
  refine ⟨⟨rfl, rfl, rfl, fun y hy => ?_, calm_of (by decide +kernel), ⟨rfl, rfl⟩, rfl, .inr rfl, by decide +kernel⟩,
    ⟨rfl, rfl, ⟨rfl, rfl⟩, rfl, rfl, by decide +kernel⟩, ⟨rfl, rfl, ⟨rfl, rfl⟩, rfl, rfl, by decide +kernel⟩,
    ⟨rfl, rfl, by decide, by decide +kernel⟩, rfl, rfl, by decide +kernel, ⟨rfl, rfl⟩, rfl, by decide +kernel⟩
  intro k
  exact absurd (congrArg Wrung.id (List.mem_singleton.1 hy)) k

/-- A tracker of core 0's L1 filled in cycle 0, and its drain: element 0 of line 160 receives 3. -/
def tracker0 : Tracker :=
  { holder := 0, line := 160, vline := 160, region := 0, ctx := 0, share := 5, mag := 3, acc := ⟨[(0, 3)]⟩, tag := 0, age := 0
    updated := 0, view := none }
def drain0 : Drain := { id := 6, holder := 0, line := 160, ctx := 0, int := true, share := 5, acc := ⟨[(0, 3)]⟩, view := none }
def dampState (cycle : Nat) : State :=
  let m := machine0 (block0 (warp0 [] []))
  { State.reset with mach := { m with
      cycle := cycle, trackers := [tracker0], drains := [drain0], shares := [⟨160, 0, 5, true⟩]
      mem := memWrite m.mem 0x5000 (bytesOfNat 4 4) } }

/-- The drain of a damp line of world 3, sealed by it, by world 4, or not yet. -/
def sealedDrain : Drain := { drain0 with view := some (some 3) }
def sealedDamp (side : Tab Side) : State :=
  { dampState 0 with mach := { (dampState 0).mach with drains := [sealedDrain], side := side } }

theorem witness_DrainsThroughViews :
    ∀ side ∈ [(⟨[]⟩ : Tab Side), ⟨[(160, { world := 3, version := 1, mac := true, key := 0, fresh := 0 })]⟩, ⟨[(160, { world := 4, version := 1, mac := false, key := 0, fresh := 0 })]⟩],
      let s := sealedDamp side
      isOn s ∧ s.mach.memoriesOk = true ∧ s.mach.drains.find? (·.id == sealedDrain.id) = some sealedDrain ∧
        s.mach.badRange sealedDrain.view (128 * sealedDrain.line) 128 = false ∧ (∃ n, sealedDrain.view = some (some n)) ∧
        cellsRising sealedDrain.acc.cells = true ∧ ∀ c ∈ sealedDrain.acc.cells, c.1 < 32 := by
  intro side h
  simp only [List.mem_cons, List.not_mem_nil, or_false] at h
  obtain rfl | rfl | rfl := h
  all_goals exact ⟨rfl, by decide +kernel, by decide +kernel, by decide +kernel, ⟨3, rfl⟩, by decide, by decide⟩

theorem witness_DampDrains :
    (let s := dampState 65535
    isOn s ∧ s.mach.trackers.find? (fun t => t.holder == 0 && t.line == 160) = some tracker0 ∧
      s.mach.cycle < tracker0.age + 65536 ∧ still (.trackerAgeDrain 0 160) s = true) ∧
    (let s := dampState 65536
    isOn s ∧ s.mach.trackers.find? (fun t => t.holder == 0 && t.line == 160) = some tracker0 ∧
      tracker0.age + 65536 ≤ s.mach.cycle ∧
      (after (exec (.trackerAgeDrain 0 160) s) fun t => (t.mach.trackers.length, t.mach.drains.length)) = some (0, 2)) ∧
    (let s := dampState 0
    isOn s ∧ s.mach.memoriesOk = true ∧ s.mach.drains.find? (·.id == drain0.id) = some drain0 ∧
      plainRange s.mach (128 * drain0.line) 128 ∧ cellsRising drain0.acc.cells = true ∧ (∀ c ∈ drain0.acc.cells, c.1 < 32) ∧
      (after (exec (.drainApply 6) s) fun t => (natOfBytes (memRead t.mach.mem 0x5000 4), t.mach.shares)) = some (7, [])) := by
  refine ⟨⟨rfl, by decide +kernel, by decide, by decide +kernel⟩, ⟨rfl, by decide +kernel, by decide, by decide +kernel⟩, rfl, by decide +kernel, rfl,
    plain_of (by decide +kernel) rfl rfl, by decide, by decide, by decide +kernel⟩

end Sys2Proof.Tests
end

