-- ==== Sys2Proof/Tests/WitnessPress.lean ====
section
/-! SUPPORT. For the statements about spawn bins and press requests, states that meet their hypotheses. -/

namespace Sys2Proof.Tests

set_option Elab.async false

open Sys2Proof Sys2Proof.Machine

/-! ## Spawn bins -/

/-- A record of lane 0 for the entry 0x4000 under key 7, and a bin that holds 31 of them and was opened first. -/
def rec0 : SpawnRec := { entry := 0x4000, key := 7, args := [1, 2, 3, 4], tag := 2, pts := 5, lane := 0 }
def bin0 : Bin :=
  { bid := 0, entry := 0x4000, key := 7, recs := List.replicate 31 rec0, opened := 0, openedNo := 1, deadline := some 200, ripe := none }
def ripeBin : Bin := { bin0 with recs := [rec0], deadline := none, ripe := some 4 }
/-- A launch with one brood slot. -/
def broodLaunch0 : Launch := { benchLaunch with rec_ := { benchRec with brood := 1 } }
def binMachine (w : Warp) (b : Bin) : Mach :=
  let m := machine0 (block0 w)
  { m.modCore 0 fun c => { c with bins := ⟨[(0, b)]⟩ } with launches := ⟨[(0, broodLaunch0)]⟩ }
/-- Lane 0 waits in a SPAWN. -/
def spawnWait0 : SpawnWait := { recs := [rec0], flight := none, next := ⟨0x4008, 0⟩, opened := [] }
def spawnWarp : Warp :=
  { warp0 [] [] with
    lanes := (List.range 32).map fun k => { lane0 [] k with st := if k = 0 then .waiting .spawn else .ready }, spawns := [spawnWait0] }

theorem witness_SpawnBinsAndBroods :
    (let m := binMachine (warp0 [] []) bin0
    openBin (m.core 0) 0 rec0.entry rec0.key = some 0 ∧ tabFind (m.core 0).bins 0 = some bin0 ∧
      ((tabFind ((m.fileRec Mgmt.reset (block0 (warp0 [] [])) 0 rec0 66).2.2.core 0).bins 0).map fun b => (b.recs.length, b.ripe)) =
        some (32, some 0)) ∧
    (let m := binMachine (warp0 [] []) { bin0 with key := 8 }
    let x := m.fileRec Mgmt.reset (block0 (warp0 [] [])) 0 rec0 66
    openBin (m.core 0) 0 rec0.entry rec0.key = none ∧ tabHas (m.core 0).bins 1 = false ∧
      (∀ i, i < 1 → tabHas (m.core 0).bins i = true) ∧ m.binsUsed 0 0 < (Mgmt.reset.quotas.getD 0 Quota.zero).bins ∧
      ((tabFind (x.2.2.core 0).bins 1).map fun b => (b.recs.length, b.deadline)) = some (1, some 200)) ∧
    (let m := binMachine spawnWarp bin0
    let s : State := { State.reset with mach := m }
    isOn s ∧ Stands m 0 0 (block0 spawnWarp) spawnWarp ∧ spawnWarp.spawns = [spawnWait0] ∧ spawnWait0.recs ≠ [] ∧
      (∀ r ∈ spawnWait0.recs, (laneAt spawnWarp r.lane).isSome = true) ∧
      (m.fileAll s.mgmt (block0 spawnWarp) 0 spawnWait0.recs spawnWait0.opened).1 = [] ∧
      (block0 spawnWarp).resident = true ∧ spawnWarp.suspended = false ∧
      (∀ x ∈ (m.core 0).bins.cells, dueBin m.now x.2 = false) ∧ openBin (m.core 0) 0 rec0.entry rec0.key = some 0 ∧
      laneAfter (exec (.spawnRetry 0 0) s) 0 = some (.ready, ⟨0x4008, 0⟩)) ∧
    (let s : State := { State.reset with mach := { binMachine (warp0 [] []) bin0 with time := 199 } }
    isOn s ∧ tabFind (s.mach.core 0).bins 0 = some bin0 ∧ bin0.deadline = some 200 ∧ bin0.ripe = none ∧ s.mach.now < 200 ∧
      still (.binTimerExpiry 0 0) s = true) ∧
    (let s : State := { State.reset with mach := { binMachine (warp0 [] []) bin0 with time := 200 } }
    isOn s ∧ tabFind (s.mach.core 0).bins 0 = some bin0 ∧ bin0.deadline = some 200 ∧ 200 ≤ s.mach.now ∧
      (after (exec (.binTimerExpiry 0 0) s) fun t => (tabFind (t.mach.core 0).bins 0).map (·.ripe)) = some (some (some 0))) ∧
    (let m := binMachine (warp0 [] []) ripeBin
    let s : State := { State.reset with mach := m }
    isOn s ∧ tabFind m.blocks 0 = some (block0 (warp0 [] [])) ∧ m.launch? 0 = some broodLaunch0 ∧
      (∀ x ∈ (m.core 0).bins.cells, dueBin m.now x.2 = false) ∧ nextRipe (m.core 0) 0 = some (0, ripeBin) ∧ ripeBin.recs.length ≤ 32 ∧ (∀ r ∈ ripeBin.recs, r.args.length = 4) ∧
      (m.ctx 0).holds = [] ∧ 0 < broodLaunch0.rec_.brood ∧
      (∀ x ∈ (block0 (warp0 [] [])).warps.cells, x.2.brood = some 0 → x.2.ended = true ∧ x.2.flights = []) ∧
      (after (exec (.broodWarpLaunch 0) s) fun t => (t.mach.warp? 0 1).map fun w =>
        (w.getReg (.v 0 0), w.getReg (.v 0 3), w.getReg (.v 0 4), w.lanes.map (·.st == .exited))) =
          some (some (⟨1, 2⟩, ⟨4, 2⟩, ⟨7, 2⟩, false :: List.replicate 31 true))) := by
  refine ⟨by decide +kernel, by decide +kernel, ⟨rfl, ⟨rfl, rfl⟩, rfl, by decide, by decide, by decide +kernel, rfl, rfl, by decide +kernel, by decide +kernel, by decide +kernel⟩,
    ⟨rfl, rfl, rfl, rfl, by decide +kernel, by decide +kernel⟩, ⟨rfl, rfl, rfl, by decide +kernel, by decide +kernel⟩,
    rfl, rfl, rfl, by decide +kernel, by decide +kernel, by decide, by decide, rfl, by decide, ?_, by decide +kernel⟩
  intro x hx hb
  cases hx with
  | head => cases hb
  | tail _ h => cases h

/-! ## Press requests -/

/-- The running machine with these requests; the granule at 0x5000 holds 5 and 8. -/
def pressed (l : List PressReq) (cycle : Nat) : State :=
  let m := machine0 (block0 (warp0 [] []))
  { State.reset with mach := { m with
      cycle := cycle, presses := l, mem := memWrite m.mem 0x5000 (bytesOfWords [5, 8]) } }

theorem applicable_of {r : PressReq} {s : State} (o : s.mgmt.power = .on) (w : s.mach.memoriesOk = true)
    (f : s.mach.pressReady r.id = some r) (h : r.target = none ∧ r.world = none) (z : 3 ≤ r.image.gran ∧ r.image.gran ≤ 10)
    (a : r.granule % r.image.size = 0) (g : s.mach.badRange none r.granule r.image.size = false) (c : s.mach.scrub = [])
    (u : s.mach.side = ⟨[]⟩) (t : s.mach.trackers = []) (d : s.mach.drains = []) (q : r.glitch = false := by rfl) : Applicable s r := by
  refine ⟨o, w, f, h.1, h.2, fun l _ => ⟨?_, ?_⟩, z, a, plain_of g c u, fun k => by rw [q] at k; cases k⟩
  · rw [t]; intro x hx; cases hx
  · rw [d]; intro x hx; cases hx

/-- The claim of two units for another module, and one that stands behind it. -/
def claimReq : PressReq := { pressReq0 with image := claimImage, remote := some 3, lanes := [] }
def laterReq : PressReq := { claimReq with id := 5, ids := [5] }
/-- The claim of lane 0's PRESSR, number 7, whose reply goes to v8 to v11 and for which the warp waits. -/
def reply0 : PressReply :=
  { bid := 0, warp := 0, lanes := 1, dst := .v 8, stamp := false, tag := 6, id := 7, issue := issue0, code := [], scope := .lane }
def replyReq : PressReq := { pressReq0 with image := claimImage, reply := some reply0 }
def replyWarp : Warp :=
  { warp0 [] [] with block := some (.replies [4]), pend := (List.range 4).map fun j => ⟨7, .v 0 (8 + j), ⟨0, 0⟩, true⟩ }
def replyState : State :=
  { pressed [replyReq] 0 with mach := { (pressed [replyReq] 0).mach with blocks := ⟨[(0, block0 replyWarp)]⟩ } }

theorem witness_PressApplications :
    (let s := pressed [pressReq0] 0
    Applicable s pressReq0 ∧ pressReq0.chan = false ∧ pressReq0.reply = none ∧ pressReq0.remote = none ∧
      (after (exec (.pressApplication 4) s) fun t => wordsOfBytes (memRead t.mach.mem 0x5000 8)) = some [7, 8]) ∧
    (let s := pressed [claimReq, laterReq] 0
    Applicable s claimReq ∧ claimReq.chan = false ∧ claimReq.reply = none ∧ claimReq.remote = some 3 ∧
      (after (exec (.pressApplication 4) s) (·.mach.signals)) = some [.pressReply 3 none 5 0 9] ∧
      s.mach.pressReady 5 = none ∧ still (.pressApplication 5) s = true) ∧
    (let s := replyState
    Applicable s replyReq ∧ replyReq.chan = false ∧ replyReq.reply = some reply0 ∧ reply0.dst = .v 8 ∧
      Stands s.mach 0 0 (block0 replyWarp) replyWarp ∧ replyWarp.lanes.length = 32 ∧
      replyWarp.block = some (.replies [replyReq.id]) ∧
      (∃ x ∈ replyWarp.pend, x.id = reply0.id ∧ x.reg = .v 0 (8 + 3) ∧ x.live = true) ∧
      regAfter (exec (.pressApplication 4) s) (.v 0 8) = some ⟨5, 6⟩) := by
  refine ⟨⟨applicable_of rfl (by decide +kernel) (by decide +kernel) ⟨rfl, rfl⟩ (by decide) (by decide) (by decide +kernel) rfl rfl rfl
    rfl, rfl, rfl, rfl, by decide +kernel⟩, ⟨applicable_of rfl (by decide +kernel) (by decide +kernel) ⟨rfl, rfl⟩ (by decide) (by decide)
    (by decide +kernel) rfl rfl rfl rfl, rfl, rfl, rfl, by decide +kernel, by decide +kernel, by decide +kernel⟩,
    applicable_of rfl (by decide +kernel) (by decide +kernel) ⟨rfl, rfl⟩ (by decide) (by decide) (by decide +kernel) rfl rfl rfl rfl,
    rfl, rfl, rfl, ⟨rfl, rfl⟩, by decide +kernel, rfl, by decide, by decide +kernel⟩

/-- The add at the channel; it was applied there; it waits as a combining entry since cycle 0. -/
def chanReq : PressReq := { pressReq0 with chan := true }
def doneReq : PressReq := { pressReq0 with chan := true, done := some ⟨9, 0, 0⟩ }
def combReq : PressReq := { pressReq0 with id := 5, ids := [5], lanes := [⟨0, 0, 1⟩], comb := some (0, 0) }
def remote0 : RemotePress := { modid := 3, ctx := 0, image := claimImage, opnd := [2], granule := 0x5000, opc := 5, ret := true, more := [], handle := 9 }

/-- An add of the same module that waits, and one that merges into it. -/
def farReq : PressReq := { pressReq0 with remote := some 3, lanes := [], cores := [] }
def remote1 : RemotePress := { remote0 with image := addImage, ret := false, more := [[1]] }

theorem witness_ChannelsAndCombining :
    (Applicable (pressed [chanReq] 0) chanReq ∧ chanReq.chan = true ∧
      (after (exec (.channelPressApplication 4) (pressed [chanReq] 0)) fun t => (wordsOfBytes (memRead t.mach.mem 0x5000 8), t.mach.heldBy.cells)) =
        some ([7, 8], [(160, 4)])) ∧
    (let s := pressed [chanReq] 0
    isOn s ∧ s.mach.presses.find? (·.id == chanReq.id) = some chanReq ∧ chanReq.done = none ∧ still (.channelAck 4) s = true) ∧
    (let s := pressed [doneReq] 0
    isOn s ∧ s.mach.presses.find? (·.id == doneReq.id) = some doneReq ∧ doneReq.done = some ⟨9, 0, 0⟩ ∧ doneReq.reply = none ∧
      doneReq.remote = none ∧ doneReq.target = none ∧ (after (exec (.channelAck 4) s) (·.mach.presses)) = some []) ∧
    (let s := pressed [pressReq0, combReq] 255
    isOn s ∧ s.mach.presses.find? (·.id == combReq.id) = some combReq ∧ combReq.comb = some (0, 0) ∧ s.mach.cycle < 0 + 256 ∧
      still (.combineEntryTimeout 0 5) s = true) ∧
    (let s := pressed [pressReq0, combReq] 256
    isOn s ∧ s.mach.presses.find? (·.id == combReq.id) = some combReq ∧ 0 + 256 ≤ s.mach.cycle ∧
      ((s.mach.presses.filter (·.id != combReq.id)).filter fun x => x.overlaps combReq.target combReq.granule combReq.image.size) =
        [] ++ [pressReq0] ∧ mergeable pressReq0 combReq = true ∧ pressReq0.comb = none ∧ pressReq0.done = none ∧
      (after (exec (.combineEntryTimeout 0 5) s) fun t => t.mach.presses.map fun r => (r.ids, r.opnd, r.count)) = some [([4, 5], [4], 2)]) ∧
    (let s := pressed [combReq] 256
    isOn s ∧ s.mach.presses.find? (·.id == combReq.id) = some combReq ∧ 0 + 256 ≤ s.mach.cycle ∧
      (s.mach.presses.filter (·.id != combReq.id)) = [] ∧
      (after (exec (.combineEntryTimeout 0 5) s) fun t => t.mach.presses.map (·.comb)) = some [none]) ∧
    (let s := pressed [] 0
    isOn s ∧ s.mach.presses = [] ∧ tabHas s.mach.ctxs 0 = true ∧ (s.mach.ctx 0).run ≠ .switchedOut ∧ (s.mach.ctx 0).refused = [] ∧
      (after (exec (.remotePressRequest remote0) s) fun t => t.mach.presses.map fun r => (r.id, r.remote, r.granule)) =
        some [(0, some 3, 0x5000)]) ∧
    (let s := pressed [farReq] 0
    isOn s ∧ s.mach.presses = [] ++ farReq :: [] ∧ (s.mach.ctx 0).refused = [] ∧ farReq.remote = some remote1.modid ∧
      farReq.ctx = remote1.ctx ∧ farReq.opc = remote1.opc.toNat ∧ farReq.image = remote1.image ∧ farReq.image.cls = 2 ∧
      farReq.granule = remote1.granule ∧ remote1.ret = false ∧
      (after (exec (.remotePressRequest remote1) s) fun t => t.mach.presses.map fun r => (r.id, r.count, r.opnd)) =
        some [(4, 3, [5])]) ∧
    mergeable pressReq0 combReq = true ∧ 0 < addImage.groups.length ∧ (addImage.groups.getD 0 ⟨0, 0, 0, false, []⟩).code = 4 ∧
      (addImage.groups.getD 0 ⟨0, 0, 0, false, []⟩).v = 0 := by
  refine ⟨⟨applicable_of rfl (by decide +kernel) (by decide +kernel) ⟨rfl, rfl⟩ (by decide) (by decide) (by decide +kernel) rfl rfl rfl
    rfl, rfl, by decide +kernel⟩, ⟨rfl, by decide +kernel⟩, ⟨rfl, by decide +kernel⟩, ⟨rfl, by decide +kernel⟩, ⟨rfl, by decide +kernel⟩,
    ⟨rfl, by decide +kernel⟩, ⟨rfl, by decide +kernel⟩, ⟨rfl, by decide +kernel⟩, by decide +kernel⟩

end Sys2Proof.Tests
end

