-- ==== Sys2Proof/Tests/WitnessEngines.lean ====
section
/-! SUPPORT. For the statements about matrix units and copies, states that meet their hypotheses. -/

namespace Sys2Proof.Tests

set_option Elab.async false

open Sys2Proof Sys2Proof.Machine

/-! ## The matrix unit -/

/-- A command of the running warp for tile 3, whose write slot is 0. -/
def command0 (op : EngineOp) (ready : Bool) : Command :=
  { id := 8, bid := 0, warp := 0, op := op, addr := 0x40, tile := 3, handle := 0, tags := 0, flight := some 7, waits := [], panel := 0
    row := 0, offset := 0, begun := false, fwait := none, ready := ready, stamp := 0 }
/-- INT8 by INT8, signed, one row at 0x5000 by one column at 0x6000 that holds its run, of `k` elements. -/
def mmaBlock (k bar : Nat) : BitVec 512 :=
  BitVec.ofNat 512 (0x77 + 0x300 + 2 ^ 12 + 2 ^ 18 + 2 ^ 25 + k * 2 ^ 32 + 0x5000 * 2 ^ 64 + 0x6000 * 2 ^ 128 + bar * 2 ^ 384)
def mxBlock : Block := { block0 owing with handles := ⟨[(0, 3)]⟩ }
/-- The core's matrix queue holds the command; the row begins with 2 and 3, the column with 4 and 5; a barrier object of count 1 at
0x7000. -/
def mxMachine (c : Command) : Mach :=
  let m := machine0 mxBlock
  let mem := memWrite m.mem 0x5000 [2, 3]
  let mem := memWrite mem 0x6000 [4, 5]
  let mem := memWrite mem 0x7000 (barBytes ((barOf 0).init 1 false))
  { m.modCore 0 fun x => { x with mq := [c], tiles := ⟨[(3, { tile0 with type := .int32 })]⟩ } with mem := mem }
def mxState (c : Command) : State := { State.reset with mach := mxMachine c }
theorem atHead (op : EngineOp) (ready : Bool) :
    AtHead (mxState (command0 op ready)) 0 (command0 op ready) [] mxBlock := ⟨rfl, rfl, rfl, rfl, rfl⟩

theorem witness_MatrixPanels :
    (∀ k ∈ [2, 256],
      let x := mmaBlock k 0
      let c := command0 (.mma x 0) false
      let s := mxState c
      AtHead s 0 c [] mxBlock ∧ c.ready = false ∧
        (mmaParams x).cause c.bid (tabFind (s.mach.core 0).tiles c.tile) (s.mach.core 0).bypass = none ∧ (mmaParams x).bar = 0 ∧
        (∃ u m1, (s.mach.modHead 0 fun y => { y with begun := true }).mmaPanel s.mgmt (mxBlock.engineActor true) 0 (mmaParams x)
          (s.mach.core 0).bypass c.tile c.panel c.row = (.ok u, m1) ∧ true = true) ∧
        (after (exec (.mmaCommandStart 0) s) fun t =>
          ((t.mach.core 0).mq.map fun y => (y.panel, y.row, y.ready), (tabFind (t.mach.core 0).tiles 3).map (·.words.cells))) =
            if k = 2 then some ([(0, 1, true)], some [(0, 23)]) else some ([(1, 0, false)], some [(0, 23)])) ∧
    (∃ u m', (mxMachine (command0 (.mma (mmaBlock 2 0) 0) false)).mmaRows Mgmt.reset (mxBlock.engineActor true) 0 (mmaParams (mmaBlock 2 0))
      none 3 0 [[.ofInt 4, .ofInt 5]] 1 0 = (.ok u, m') ∧ true = true) := by
  refine ⟨?_, ok_of (fun _ _ => true) (by decide +kernel)⟩
  intro k hk
  simp only [List.mem_cons, List.not_mem_nil, or_false] at hk
  obtain rfl | rfl := hk
  · exact ⟨atHead _ _, rfl, by decide +kernel, by decide +kernel, ok_of (fun _ _ => true) (by decide +kernel), by decide +kernel⟩
  · exact ⟨atHead _ _, rfl, by decide +kernel, by decide +kernel, ok_of (fun _ _ => true) (by decide +kernel), by decide +kernel⟩

/-- TDRAIN of the tile without memory, into the bypass and clearing it; and to 0x8000 with rows 16 bytes apart. -/
def drainMods (nomem : Bool) : DrainMods := ⟨.i8, .rne, false, nomem, nomem, true, 0, false, false⟩

/-- A store of 8 bytes of the drain at 0x8000. -/
def drainLoc : Loc := ⟨.dev 0x8000, 0x8000, 8, leaf0⟩

/-- The machine of the command with a barrier object, once its write slot has fallen. -/
def fallen0 : Mach :=
  let c := command0 (.mma (mmaBlock 2 0x7000) 0) true
  let p := mmaParams (mmaBlock 2 0x7000)
  ((mxMachine c).completionStamp c p.acq).2.mxFall 0 c ((mxMachine c).completionStamp c p.acq).1

theorem witness_MatrixCompletions :
    (let x := mmaBlock 2 0
    let c := command0 (.mma x 0) true
    AtHead (mxState c) 0 c [] mxBlock ∧ c.ready = true ∧ (mmaParams x).bar = 0 ∧
      (after (exec (.mmaComplete 0) (mxState c)) fun t => ((t.mach.core 0).mq, (t.mach.warp? 0 0).map (·.ws))) =
        some ([], some [0, 0, 0, 0, 0, 0])) ∧
    (let x := mmaBlock 2 0x7000
    let c := command0 (.mma x 0) true
    let s := mxState c
    AtHead s 0 c [] mxBlock ∧ (mmaParams x).bar ≠ 0 ∧
      (∃ l m1, fallen0.engBar s.mgmt (mxBlock.engineActor true) (mmaParams x).bar = (.ok l, m1) ∧
        (m1.blocks == fallen0.blocks && m1.cores == fallen0.cores && l.place == .dev 0x7000 && !l.leaf.sealed && l.n == 8 &&
          m1.memoriesOk && !m1.badRange none 0x7000 8 && m1.scrub.isEmpty && m1.side.cells.isEmpty && m1.trackers.isEmpty &&
          m1.drains.isEmpty) = true) ∧
      (after (exec (.mmaComplete 0) s) fun t => memRead t.mach.mem 0x7000 8) = some (barBytes ((barOf 0).init 1 false).arrive)) ∧
    (let c := command0 (.drain (drainMods true) 0 0) false
    let s := mxState c
    AtHead s 0 c [] mxBlock ∧ tabFind (s.mach.core 0).tiles c.tile = some { tile0 with type := .int32 } ∧
      drainOk .int32 (drainMods true).fmt (drainMods true).byp = true ∧ (drainMods true).nomem = true) ∧
    (let c := command0 (.drain (drainMods false) 0x8000 64) false
    let s := mxState c
    AtHead s 0 c [] mxBlock ∧ drainOk .int32 (drainMods false).fmt (drainMods false).byp = true ∧ (drainMods false).nomem = false ∧
      0x8000 % 16 = 0 ∧ 64 % 16 = 0 ∧
      ∃ rows m1, (s.mach.modHead 0 fun y => { y with begun := true }).drainDests s.mgmt (mxBlock.engineActor true)
        (tile0.tag ||| c.tags) 0x8000 64 (8 * fmtWidth (drainMods false).fmt) ((List.range (64 - c.row)).map (c.row + ·)) = (.ok rows, m1) ∧
          (rows.length == 64) = true) ∧
    (let m := tlbMachine
    drainLoc.place = .dev 0x8000 ∧ drainLoc.leaf.sealed = false ∧ drainLoc.leaf.damp = false ∧ drainLoc.n = 8 ∧ m.memoriesOk = true ∧
      plainRange m 0x8000 drainLoc.n) := by
  refine ⟨⟨atHead _ _, rfl, by decide +kernel, by decide +kernel⟩, ⟨atHead _ _, by decide +kernel, ok_of (fun (l : Loc) (m1 : Mach) =>
      m1.blocks == fallen0.blocks && m1.cores == fallen0.cores && l.place == .dev 0x7000 && !l.leaf.sealed &&
        l.n == 8 && m1.memoriesOk && !m1.badRange none 0x7000 8 && m1.scrub.isEmpty && m1.side.cells.isEmpty && m1.trackers.isEmpty &&
        m1.drains.isEmpty) (by decide +kernel), by decide +kernel⟩, ⟨atHead _ _, rfl, rfl, rfl⟩,
    ⟨atHead _ _, rfl, rfl, rfl, rfl, ok_of (fun (r : List (Nat × List Loc)) _ => r.length == 64) (by decide +kernel)⟩,
    rfl, rfl, rfl, rfl, by decide +kernel, plain_of (by decide +kernel) rfl rfl⟩

/-! ## Copies and tier moves -/

/-- A FILL of 48 bytes of scratchpad at 0x200 with a pattern; a move of the page at 0x100000 to the capacity tier. -/
def fillBlock : BitVec 512 := BitVec.ofNat 512 (1 + 2 ^ 17 + 48 * 2 ^ 32 + 0x200 * 2 ^ 128 + 1 * 2 ^ 192 + 0xDDCCBBAA * 2 ^ 352)
def tierBlock : BitVec 512 := BitVec.ofNat 512 (3 + 65536 * 2 ^ 32 + 0x100000 * 2 ^ 64 + 1 * 2 ^ 192)
/-- The leaf of that page, of 64 KiB, whose entry lies at 0x3000. -/
def tierLeaf0 (tier : Nat) : Leaf :=
  { w := true, x := false, damp := false, sealed := false, tier := tier, log := 16, frame := 0x100000, tag := 0, entry := 0x3000 }
def copyMachine (c : Command) (tier : Nat) : Mach :=
  let m := machine0 (block0 owing)
  { m.modCore 0 fun x => { x with chans := ⟨[(0, ⟨[c]⟩)]⟩ } with
    tlb := [⟨0, 0, 16, tierLeaf0 tier⟩], mem := memWrite (memWrite m.mem 0x3000 (bytesOfNat 0x10000B 8)) 0x100004 [7]
    ctxs := tabMod m.ctxs 0 fun x => { x with poolCap := [⟨0x200000, 16⟩] } }
def copyState (c : Command) (tier : Nat) : State := { State.reset with mach := copyMachine c tier }
theorem atChannel (c : Command) (tier : Nat) (h : c.bid = 0) : AtChannel (copyState c tier) 0 0 0 c [] (block0 owing) :=
  ⟨rfl, by decide, rfl, by rw [h]; rfl⟩

/-- A translation that a TLB of the actor holds. -/
theorem found_in_tlb {m : Mach} {a : Actor} {va : Nat} {e : TlbEntry} (p : (m.ctx a.ctx).ptEn = true) (v : va < 2 ^ 48)
    (f : (m.tlb.find? fun e => e.ctx == a.ctx && e.covers va && (tlbPath a).contains e.loc) = some e) :
    m.tierLeaf a va = (.ok e.leaf, m) := by
  have n : ¬ 2 ^ 48 ≤ va := by omega
  simp only [Mach.tierLeaf, Mach.translate, p, f, Bool.not_true, Bool.false_or, ge_iff_le, n, decide_false, Bool.false_eq_true,
    if_false]

/-- Begun, not ready. -/
def moving : Command := { command0 (.copy tierBlock 0 true) false with begun := true }
def filling (done : Bool) : Command := command0 (.copy fillBlock 0 false) done

theorem tierHit (tier : Nat) (k : tier = 0 ∨ tier = 1) : ((copyMachine moving tier).tlb.find? fun e =>
    e.ctx == ((block0 owing).engineActor false).ctx && e.covers 0x100000 &&
      (tlbPath ((block0 owing).engineActor false)).contains e.loc) = some ⟨0, 0, 16, tierLeaf0 tier⟩ := by
  obtain rfl | rfl := k <;> decide +kernel

theorem tierFound (tier : Nat) (k : tier = 0 ∨ tier = 1) : (copyMachine moving tier).tierLeaf ((block0 owing).engineActor false)
    ((copyParams tierBlock).src + moving.offset) = (.ok (tierLeaf0 tier), copyMachine moving tier) := by
  have e : (copyParams tierBlock).src + moving.offset = 0x100000 := by decide +kernel
  rw [e]
  have v : (0x100000 : Nat) < 2 ^ 48 := by omega
  exact found_in_tlb (e := ⟨0, 0, 16, tierLeaf0 tier⟩) rfl v (tierHit tier k)

theorem witness_CopiesAndTierMoves :
    (let c := filling false
    let s := copyState c 0
    AtChannel s 0 0 0 c [] (block0 owing) ∧ SpadCopy s (copyParams fillBlock) c (block0 owing) ∧
      (let p := copyParams fillBlock
      streamAddr p p.src p.sstr c.offset + nextPart p c ≤ (block0 owing).spadSize ∧
        streamAddr p p.dst p.dstr c.offset + nextPart p c ≤ (block0 owing).spadSize) ∧
      (after (exec (.copyCommandStart 0 0 0) s) fun t =>
        ((t.mach.chanCmds 0 0).map (·.ready), (t.mach.block? 0).map fun b => memRead b.spad 0x200 50)) =
        some ([true], some ((List.replicate 12 [0xAA, 0xBB, 0xCC, 0xDD]).flatten ++ [0, 0]))) ∧
    (let c := filling false
    AtChannel (copyState c 0) 0 0 0 c [] (block0 owing) ∧ c.ready = false ∧ still (.copyComplete 0 0 0) (copyState c 0) = true) ∧
    (let c := filling true
    AtChannel (copyState c 0) 0 0 0 c [] (block0 owing) ∧ c.ready = true ∧
      (after (exec (.copyComplete 0 0 0) (copyState c 0)) fun t => ((t.mach.chanCmds 0 0), (t.mach.warp? 0 0).map (·.ws))) =
        some ([], some [0, 0, 0, 0, 0, 0])) ∧
    (let c := moving
    let s := copyState c 0
    AtChannel s 0 0 0 c [] (block0 owing) ∧ ∃ l m1 f pool, s.mach.tierLeaf ((block0 owing).engineActor false)
      ((copyParams tierBlock).src + c.offset) = (.ok l, m1) ∧ TierMove (copyParams tierBlock) c (block0 owing) l m1 f pool 1) ∧
    (let c := moving
    let s := copyState c 1
    AtChannel s 0 0 0 c [] (block0 owing) ∧ c.ready = false ∧ c.begun = true ∧ c.fwait = none ∧ (copyParams tierBlock).bar = 0 ∧
      s.mach.tierLeaf ((block0 owing).engineActor false) ((copyParams tierBlock).src + c.offset) = (.ok (tierLeaf0 1), s.mach) ∧
      (tierLeaf0 1).tier = (if (copyParams tierBlock).op = 2 then 0 else 1) ∧
      (after (exec (.tierPageMove 0 0 0) s) fun t => (t.mach.chanCmds 0 0).map (·.ready)) = some [true]) := by
  refine ⟨⟨atChannel _ _ rfl, ⟨⟨rfl, rfl, rfl⟩, .inr ⟨by decide +kernel, by decide +kernel⟩, by decide +kernel, by decide +kernel, by decide +kernel,
      ⟨rfl, rfl⟩, rfl⟩, by decide +kernel, by decide +kernel⟩, ⟨atChannel _ _ rfl, rfl, by decide +kernel⟩,
    ⟨atChannel _ _ rfl, rfl, by decide +kernel⟩, ⟨atChannel _ _ rfl, tierLeaf0 0, copyMachine moving 0, ⟨0x200000, 16⟩, [], tierFound 0 (.inl rfl), ?_⟩,
    atChannel _ _ rfl, rfl, rfl, rfl, by decide +kernel, tierFound 1 (.inr rfl), by decide +kernel, by decide +kernel⟩
  exact { goes := ⟨rfl, rfl, rfl⟩, params := ⟨by decide +kernel, by decide +kernel⟩, other := by decide, idle := by decide +kernel
          frame := by decide +kernel, size := by decide, aligned := by decide, apart := by decide, entry := by decide, table := rfl
          clear := ⟨rfl, rfl, rfl⟩, wf := by decide +kernel }


/-- R240, R288: the bytes of the frame, and the entry's TIER and frame fields. -/
theorem test_tier_move :
    memGet ((copyMachine moving 0).copyFrame 0x100000 0x200000 65536).mem 0x200004 = 7 ∧
    (let m := (copyMachine moving 0).remapEntries (tierLeaf0 0) 1 0x200000
    natOfBytes (memRead m.mem 0x3000 8) = 0x20010B) := by decide +kernel

end Sys2Proof.Tests
end

