-- ==== Sys2Proof/Tests/WitnessQueues.lean ====
section
/-! SUPPORT. For the statements about launch queues, dispatch, placement, retirement, context switches and lifetimes, states that meet
their hypotheses. -/

namespace Sys2Proof.Tests

set_option Elab.async false

open Sys2Proof Sys2Proof.Machine

/-- The machine with the running block, changed by `f`. -/
def small (f : Mach → Mach) : State := { State.reset with mach := f { machine0 (block0 (warp0 [] [])) with issue := none } }

/-! ## Launch queues -/

/-- Queue 0 of context 0, its ring of two slots at 0x9000. -/
def queue0 : Queue :=
  { Queue.reset with ctx := some 0, base := 0x9000, log2n := 1, en := true, tail := 1, state := .enabled, woken := true }
/-- A launch record: entry 0x4000, GRID 1, WARPS 1, CSIZE 1, REGS 8. -/
def record0 : Nat := 0x4000 + 2 ^ 64 + 2 ^ 96 + 2 ^ 108 + 8 * 2 ^ 112
/-- A write of LQ.RING that gives it these fields. -/
def ringValue : BitVec 64 := BitVec.ofNat 64 (0x9000 + 2 ^ 48 + 2 ^ 53)
def queued (q : Queue) : State :=
  small fun m => { m with queues := ⟨[(0, q)]⟩, mem := memWrite m.mem 0x9000 (bytesOfNat record0 256) }

theorem witness_LaunchQueues :
    (let s := queued { queue0 with en := false, state := .disabled, woken := false, head := 1 }
    isOn s ∧ unlocked s (s.mach.queue 0).fn ∧ (s.mach.queue 0).en = false ∧ ringValue.getLsbD 53 = true ∧
      field ringValue.toNat 51 48 ≠ 0 ∧ (s.mach.queue 0).state = .disabled ∧ (s.mach.queue 0).done = (s.mach.queue 0).rd ∧
      (after (exec (.lqRingWrite 0 ringValue) s) fun t => ((t.mach.queue 0).state, (t.mach.queue 0).head)) = some (.enabled, 0)) ∧
    (let s := queued { queue0 with en := false, state := .faulted, fcause := 5, head := 1, tail := 2 }
    isOn s ∧ unlocked s (s.mach.queue 0).fn ∧ (s.mach.queue 0).en = false ∧ (s.mach.queue 0).state = .faulted ∧
      (after (exec (.lqRingWrite 0 ringValue) s) fun t => ((t.mach.queue 0).state, (t.mach.queue 0).head, (t.mach.queue 0).fcause)) =
        some (.enabled, 1, 0)) ∧
    (let s := queued { queue0 with tail := 0, woken := false }
    isOn s ∧ unlocked s (s.mach.queue 0).fn ∧ (s.mach.queue 0).en = true ∧ (0 : BitVec 64).getLsbD 53 = false ∧
      (s.mach.queue 0).state = .enabled ∧ (s.mach.queue 0).head = (s.mach.queue 0).tail ∧
      (after (exec (.lqRingWrite 0 0) s) fun t => (t.mach.queue 0).state) = some .disabled) ∧
    (let s := queued queue0
    isOn s ∧ (s.mgmt.fn (s.mach.queue 0).fn).tdi ≠ .error ∧ (s.mach.queue 0).state ≠ .disabled ∧ (s.mach.queue 0).log2n ≠ 0 ∧
      (after (exec (.lqWake 0 2) s) fun t => (t.mach.queue 0).tail) = some 2) ∧
    (let s := queued queue0
    isOn s ∧ (s.mach.queue 0).ctx = some 0 ∧ s.mach.queueActive (s.mach.queue 0) = true ∧ s.mach.openLaunches 0 < 16 ∧
      s.mach.hostHeld 0 = false ∧ ((s.mach.queue 0).tail - (s.mach.queue 0).head).toNat ≤ 2 ^ (s.mach.queue 0).log2n ∧
      (∃ bs m1, s.mach.readSlot s.mgmt 0 (s.mach.queue 0) = (.ok bs, m1) ∧ (m1.queue 0 == s.mach.queue 0 &&
        recRow (natOfBytes bs) (fun j => (m1.queue j).ctx == some 0) (Mach.vaultHas s.mgmt 0) == none) = true) ∧
      (after (exec (.launchRecordRead 0) s) fun t => ((t.mach.queue 0).head, (t.mach.launch? 0).map fun l => l.rec_.regs)) =
        some (1, some 8)) := by
  refine ⟨⟨rfl, rfl, by decide +kernel⟩, ⟨rfl, rfl, by decide +kernel⟩, ⟨rfl, rfl, by decide +kernel⟩, ⟨rfl, by decide +kernel⟩,
    rfl, rfl, by decide +kernel, by decide +kernel, rfl, by decide +kernel, ok_of (fun (bs : List Byte) (m1 : Mach) =>
      m1.queue 0 == (queued queue0).mach.queue 0 &&
        recRow (natOfBytes bs) (fun j => (m1.queue j).ctx == some 0) (Mach.vaultHas Mgmt.reset 0) == none) (by decide +kernel),
    by decide +kernel⟩

/-! ## Dispatch -/

/-- A dependence on launch 2 of queue 0. -/
def dep0 (met : Bool) : Dep := { kind := 2, obj := 0, val := 2, met := met, told := false }
/-- Launch 4, pending. -/
def pending (deps : List Dep) : Launch := { benchLaunch with rec_ := { benchRec with deps := deps }, order := none, next := 0, seq := 1 }
def dispatching (deps : List Dep) (done : Word) : State :=
  small fun m => { m with launches := ⟨[(0, benchLaunch), (4, pending deps)]⟩, queues := ⟨[(0, { queue0 with done := done })]⟩, orders := 1 }

theorem witness_LaunchDispatch :
    (dep0 false).kind = 2 ∧ (dep0 false).met = false ∧
    (let s := dispatching [dep0 false] 1
    isOn s ∧ s.mach.launch? 4 = some (pending [dep0 false]) ∧ (s.mach.ctx 0).run = .running ∧ (dep0 false).kind = 2 ∧
      2 ^ 31 ≤ ((s.mach.queue (dep0 false).obj.toNat).done - (dep0 false).val).toNat ∧
      (after (exec (.launchDispatch 4) s) fun t => ((t.mach.launch? 4).map (·.order))) = some (some none)) ∧
    (let s := dispatching [dep0 true] 1
    let l := pending [dep0 true]
    isOn s ∧ s.mach.launch? 4 = some l ∧ l.order = none ∧ (∀ d ∈ l.rec_.deps, d.met = true) ∧ l.rec_.keyh = 0 ∧ l.rec_.ndamp = 0 ∧
      l.rec_.nparty = 0 ∧ l.rec_.npimg = 0 ∧ (s.mach.ctx l.ctx).regions.length ≤ 64 ∧
      l.rec_.spadNeed ≤ 32 * splitOf s.mgmt (s.mach.ctx l.ctx) l.ctx ∧ l.rec_.fits (splitOf s.mgmt (s.mach.ctx l.ctx) l.ctx) ≠ 0 ∧
      (after (exec (.launchDispatch 4) s) fun t => ((t.mach.launch? 4).map (·.order), t.mach.orders)) = some (some (some 1), 2)) ∧
    (let m := (dispatching [] 0).mach
    m.launch? 4 = some (pending []) ∧ cellsRising m.launches.cells = true ∧ (pending []).rec_.cpla = 0 ∧ (pending []).world = none ∧
      (m.ctx 0).regions = [] ∧ ((m.completeLaunch Mgmt.reset 4 0 0).queue 0).done = 1) ∧
    (let q : Queue := { queue0 with beyond := [2, 1, 4] }
    (∀ i, 1 ≤ i → i ≤ 2 → (q.done.toNat + i) % 2 ^ 32 ∈ q.beyond) ∧ (q.done.toNat + 2 + 1) % 2 ^ 32 ∉ q.beyond ∧
      2 ≤ q.beyond.length ∧ q.beyond.Nodup ∧ (q.advance q.beyond.length).done = 2) := by
  refine ⟨rfl, rfl, ⟨rfl, by decide +kernel⟩, ⟨rfl, by decide +kernel⟩, by decide +kernel, ?_, by decide, by decide, by decide, by decide⟩
  intro i h1 h2
  obtain rfl | rfl : i = 1 ∨ i = 2 := by omega
  all_goals decide

/-! ## Blocks -/

/-- Launch 4 has its turn in dispatch order and two blocks to place in cluster 0. -/
def placing (l : Launch) : State :=
  small fun m => { m with cycle := 5, ids := 9, launches := ⟨[(0, benchLaunch), (4, l)]⟩, clusters := ⟨[(0, [0])]⟩ }
def toPlace : Launch := { benchLaunch with rec_ := { benchRec with grid := 2, regs := 8 }, order := some 1, next := 0, waitFrom := some 0 }
/-- A block of one warp whose lanes have exited. -/
def overWarp : Warp := { benchWarp 0 with lanes := List.replicate 32 { benchLane 0 with st := .exited } }
def retiring : State :=
  small fun m => ({ m with blocks := ⟨[(0, { block0 overWarp with handles := ⟨[(0, 3)]⟩ })]⟩ } : Mach).modCore 0 fun c =>
    { c with tiles := ⟨[(3, tile0)]⟩ }

theorem witness_BlocksComeAndGo :
    (let s := placing toPlace
    isOn s ∧ s.mach.nextLaunch s.mgmt = some (4, toPlace) ∧ s.mach.launch? 4 = some toPlace ∧
      s.mach.placeCores s.mgmt 4 toPlace = some [0] ∧ s.mach.savedGroup 4 = none ∧ s.mach.dieFree 0 = true ∧
      toPlace.rec_.warps ≤ ((List.range 64).filter fun i => !(s.mach.warpSlots 0).contains i).length ∧
      s.mach.drains = [] ∧ s.mach.trackers = [] ∧ s.mach.nextNeeds 4 toPlace = [toPlace.rec_.need] ∧
      (after (exec (.blockPlacement 4) s) fun t => ((t.mach.block? 9).map fun b => (b.core, b.index, b.warps.cells.length))) =
        some (some (0, 0, 1))) ∧
    (let s := placing toPlace
    isOn s ∧ s.mach.launch? 4 = some toPlace ∧ toPlace.waitFrom = some 0 ∧ toPlace.order ≠ none ∧ toPlace.next < toPlace.rec_.grid) ∧
    (let s := retiring
    isOn s ∧ (∃ b, tabFind s.mach.blocks 0 = some b ∧ (s.mach.retirable 0 b && b.peers == [0] && b.launch == 0) = true) ∧
      s.mach.launch? 0 = some benchLaunch ∧ benchLaunch.rec_.cpla = 0 ∧ benchLaunch.world = none ∧ (s.mach.ctx 0).regions = [] ∧
      tablesRise s.mach ∧
      (after (exec (.blockRetirement 0) s) fun t => (t.mach.blocks.cells.length, (t.mach.core 0).tiles.cells.length, t.mach.launches.cells.length)) =
        some (0, 0, 0)) := by
  refine ⟨⟨rfl, by decide +kernel⟩, ⟨rfl, by decide +kernel⟩, rfl, ⟨_, rfl, by decide +kernel⟩, rfl, rfl, rfl, rfl,
    ⟨by decide +kernel, by decide +kernel, by decide +kernel⟩, by decide +kernel⟩

/-! ## Contexts -/

def headOf (fn : Nat) : MboxHead := { fn := fn, seq := 1, ack := 0 }
theorem expected_of {s : State} {fn : Nat} (o : s.mgmt.power = .on) (f : fn < 64) (t : (s.mgmt.fn fn).tdi ≠ .error)
    (n : (s.mgmt.fn fn).inSeq = 1) : Expected s (headOf fn) := ⟨o, f, t, n⟩

/-- The context is in a run state, with a deadline at tick 200,000 and a dropping definition. -/
def ctxState (r : CtxRun) (now : Nat) : State :=
  small fun m =>
    let m := m.setCtx 0 { pressCtx with run := r, deadline := some 200000 }
    { m with time := now, tlb := [⟨0, 0, 16, tierLeaf0 0⟩] }
/-- A block of the draining context that hold 1 keeps, with a tile, a bypass and a bin. -/
def hold1 (u : Scope) : Hold := { num := 1, unit := u, bid := 0, warps := [0], written := true, engine := false }
def saving : State :=
  let s := ctxState .draining 0
  let m := s.mach.modCtx 0 fun c => { c with holds := [hold1 .block] }
  { s with mach := m.modCore 0 fun c =>
      { c with tiles := ⟨[(3, tile0)]⟩, bypass := some ⟨.bf16, ⟨[]⟩, 0, 0⟩, bins := ⟨[(0, bin0)]⟩ } }
/-- No block of the context is resident. -/
def emptied : State :=
  let s := ctxState .draining 0
  { s with mach := s.mach.modBlock 0 fun b => { b with resident := false } }

theorem witness_ContextSwitches :
    (let s := ctxState .running 0
    Expected s (headOf 0) ∧ s.mach.owns 0 0 = true ∧ (s.mach.ctx 0).run = .running ∧
      (∃ x ∈ s.mach.launches.cells, x.2.ctx = 0 ∧ x.2.order ≠ none) ∧ s.mach.deadlineOf s.mgmt 0 = some 200000 ∧
      (after (exec (.preempt (headOf 0) 0) s) fun t => ((t.mach.ctx 0).run, (t.mach.ctx 0).deadline)) = some (.draining, some 200000)) ∧
    (let s := ctxState .draining 199999
    isOn s ∧ tablesRise s.mach ∧ tabHas s.mach.ctxs 0 = true ∧ (s.mach.ctx 0).run = .draining ∧
      (s.mach.ctx 0).deadline = some 200000 ∧ s.mach.now < 200000 ∧ still (.preemptDeadlineExpiry 0) s = true) ∧
    (let s := ctxState .draining 200000
    isOn s ∧ tablesRise s.mach ∧ tabHas s.mach.ctxs 0 = true ∧ (s.mach.ctx 0).run = .draining ∧
      (s.mach.ctx 0).deadline = some 200000 ∧ 200000 ≤ s.mach.now ∧
      (after (exec (.preemptDeadlineExpiry 0) s) fun t => (t.mach.blocks.cells.length, (t.mach.ctx 0).press.cells.length)) = some (0, 0)) ∧
    (let s := ctxState .switchedOut 0
    Expected s (headOf 0) ∧ s.mach.owns 0 0 = true ∧ (s.mach.ctx 0).run = .switchedOut ∧ (s.mach.ctx 0).world = none ∧
      s.mgmt.jobs = [] ∧ (after (exec (.restore (headOf 0) 0) s) fun t => t.mgmt.jobs.length) = some 1) ∧
    (let m := (ctxState .switchedOut 0).mach
    let mg : Mgmt := { Mgmt.reset with jobs := [⟨.restore 0, 0, 1⟩] }
    mg.jobs = [⟨.restore 0, 0, 1⟩] ∧ m.restorable mg 0 = true ∧ tabHas m.ctxs 0 = true ∧ (m.ctx 0).world = none ∧
      (m.ctx 0).arrivals = [] ∧ ((finishJob mg m).2.ctx 0).run = .running) ∧
    (let s := saving
    isOn s ∧ tabFind s.mach.blocks 0 = some (block0 (warp0 [] [])) ∧ (block0 (warp0 [] [])).peers = [0] ∧
      (s.mach.ctx 0).run = .draining ∧ s.mach.saveable 0 (block0 (warp0 [] [])) = true ∧ cellsRising (s.mach.core 0).tiles.cells = true ∧
      tabFind (s.mach.core 0).tiles 3 = some tile0 ∧ tile0.owner = 0 ∧
      (after (exec (.blockSave 0) s) fun t => (((t.mach.block? 0).map fun b => (b.resident, b.savedTiles.cells.length, b.savedByp.isSome)),
        (t.mach.core 0).bins.cells.length)) = some (some (false, 1, true), 0)) ∧
    (let s := emptied
    isOn s ∧ tabHas s.mach.ctxs 0 = true ∧ (s.mach.ctx 0).run = .draining ∧
      (∀ x ∈ s.mach.blocks.cells, x.2.ctx = 0 → x.2.resident = false) ∧ s.mach.presses = [] ∧ s.mach.trackers = [] ∧
      s.mach.drains = [] ∧ cellsRising (s.mach.ctx 0).press.cells = true ∧
      (after (exec (.contextSwitchOut 0) s) fun t => ((t.mach.ctx 0).run, tabKeys (t.mach.ctx 0).press, t.mach.tlb)) =
        some (.switchedOut, [5], [])) := by
  refine ⟨⟨expected_of rfl (by decide) (by decide) rfl, by decide +kernel⟩,
    ⟨rfl, ⟨by decide +kernel, by decide +kernel, by decide +kernel⟩, by decide +kernel⟩,
    ⟨rfl, ⟨by decide +kernel, by decide +kernel, by decide +kernel⟩, by decide +kernel⟩,
    ⟨expected_of rfl (by decide) (by decide) rfl, by decide +kernel⟩, by decide +kernel, ⟨rfl, by decide +kernel⟩, rfl, by decide +kernel⟩

theorem witness_ContextLifetimes :
    (isOn State.reset ∧ tabHas State.reset.mach.ctxs 5 = false ∧
      (after (exec (.contextCreation 5) State.reset) fun t => tabHas t.mach.ctxs 5) = some true) ∧
    (let s := ctxState .running 0
    isOn s ∧ tabHas s.mach.ctxs 0 = true ∧ tablesRise s.mach ∧
      (after (exec (.contextDestruction 0) s) fun t => (tabHas t.mach.ctxs 0, t.mach.blocks.cells.length, t.mach.tlb)) =
        some (false, 0, [])) := by
  refine ⟨⟨rfl, by decide +kernel⟩, rfl, by decide +kernel, ⟨by decide +kernel, by decide +kernel, by decide +kernel⟩, by decide +kernel⟩

end Sys2Proof.Tests
end

