-- ==== Sys2Proof/Tests/WitnessCompletes.lean ====
section
/-! SUPPORT. For the statements that say when an instruction or a step of a unit completes, states and operands that meet their
conditions. -/

namespace Sys2Proof.Tests

set_option Elab.async false

open Sys2Proof Sys2Proof.Machine

/-! ## One lane -/

/-- The issue of lane 0 alone. -/
def solo : Issue := { issue0 with lanes := 1 }

/-- TLB copies of the identity page on the ways of core 0's lanes and engines, and of its matrix unit. -/
def copies0 : List TlbEntry := [⟨0, 0, 0, leaf0⟩, ⟨1024, 0, 0, leaf0⟩]

/-- The block with lane 0's issue under way, in a machine changed by `f`. -/
def soloState (b : Block) (f : Mach → Mach) : State :=
  { State.reset with mach := f { machine0 b with issue := some solo, tlb := copies0 } }

/-- The one element of a list of one, with what `p` asks of it. -/
def oneOf (p : View → Bool) : List View → Bool
  | [v] => p v
  | _ => false
theorem one_of {p : View → Bool} {l : List View} (h : oneOf p l = true) : ∃ v, l = [v] ∧ p v = true := by
  cases l with
  | nil => cases h
  | cons v t =>
    cases t with
    | nil => exact ⟨v, rfl, h⟩
    | cons => cases h

theorem oneLane {s : State} {b : Block} {v0 s0 : List (Nat × Word)} {h : Head} {g : Guard} {ok : Prop} {P : View → Prop} (p : View → Bool)
    (e : s.mach.issue = some solo ∧ tabFind s.mach.blocks 0 = some b ∧ tabFind b.warps 0 = some (warp0 v0 s0) ∧ s.mach.stalled = false)
    (n : noHeld s) (hs : h.scope = .lane) (hok : ok) (c : oneOf p (elements s solo b (warp0 v0 s0) h g 32) = true)
    (hp : ∀ v, p v = true → P v) : ∃ v, OneLane s solo b (warp0 v0 s0) h g v ok ∧ P v := by
  obtain ⟨v, l, hv⟩ := one_of c
  exact ⟨v, ⟨⟨e.1, e.2.1, e.2.2.1, (warp0_lanes v0 s0).1, by decide, fun k l _ => ready_of_all (warp0_lanes v0 s0).2 k l, e.2.2.2⟩, hs,
    fun j _ => room j, .inr rfl, n, rfl, l, hok⟩, hp v hv⟩

/-- A lane's read-modify-write of n bytes at 0x5000. -/
def writesAt (s : State) (base : View → BitVec 64) (data : View → Mask) (v : View) : Bool :=
  base v == 0x5000 && s.mach.cachedLeaf v.actor 0x5000 == some leaf0 && s.mach.storeOk v.b.ctx leaf0.tag (data v)

theorem writable {s : State} {v : View} {base : View → BitVec 64} {data : View → Mask} {n : Nat} (h : writesAt s base data v = true)
    (k : 0 < n ∧ n ≤ 4096 ∧ 0x5000 % n = 0) (g : plainRange s.mach 0x5000 n) (w : s.mach.memoriesOk = true) (a : s.mach.presses = []) :
    Writable s v (base v) n (data v) leaf0 0x5000 := by
  simp only [writesAt, Bool.and_eq_true, beq_iff_eq] at h
  obtain ⟨⟨hb, hc⟩, ht⟩ := h
  have e : (base v).toNat = 0x5000 := by rw [hb]; rfl
  exact ⟨⟨by rw [e]; exact hc, ⟨rfl, rfl, by decide⟩, by rw [e]; rfl, by rw [e]; omega, g, w⟩, by rw [e]; exact k.2.2, rfl, ht, a⟩

/-- The address in s2, the warp with it and with 7 in v2, its block with these bytes of scratchpad, and lane 0's issue. -/
def addr2 (v : View) : BitVec 64 := v.val64 1 (.s 2)
def loneWarp (a : Word) : Warp := warp0 [(2, 7)] [(2, a)]
def loneBlock (a : Word) (m : Mem) : Block := { block0 (loneWarp a) with spad := m }
def lone (a : Word) (m : Mem) : State := soloState (loneBlock a m) id

theorem loneIs (a : Word) (m : Mem) : (lone a m).mach.issue = some solo ∧ tabFind (lone a m).mach.blocks 0 = some (loneBlock a m) ∧
    tabFind (loneBlock a m).warps 0 = some (loneWarp a) ∧ (lone a m).mach.stalled = false := ⟨rfl, rfl, rfl, rfl⟩

theorem spadAt {s : State} {v : View} {base : View → BitVec 64} {n : Nat} {b2 : Block}
    (h : (scratchAt s.mach v (base v) 0 n == some (0, 0x100)) = true) (a : 0x100 % n = 0)
    (b : tabFind s.mach.blocks 0 = some b2 ∧ b2.spadBad = [] ∧ Memory.wf b2.spad = true) : InSpad s v (base v) n 0 b2 0x100 :=
  ⟨by simpa using h, a, b.1, b.2.1, b.2.2⟩

/-- A bin table of 4 bins of 2 records at 0x200. -/
def binTable : Mem := memWrite ⟨[]⟩ 0x100 (bytesOfNat (4 + 2 * 2 ^ 16 + 0x200 * 2 ^ 32) 16)
def binBlock : Block := loneBlock 0x100 binTable

theorem witness_AtomicsComplete :
    (let mo : AtomMods := ⟨.add, true, false, .dev, true, true⟩
    let s := lone 0x5000 ⟨[]⟩
    let b := loneBlock 0x5000 ⟨[]⟩
    mo.ms ≠ .blk ∧ ∃ v, OneLane s solo b (loneWarp 0x5000) plain always v
      (allOf [atomDest (ownerOf s solo b plain) true true true (.v 8), admits (ownerOf s solo b plain) srcVS 2 (.s 2),
        admits (ownerOf s solo b plain) srcFp 2 (.v 2)]) ∧
      Writable s v (v.val64 1 (.s 2)) 8 (v.tags [⟨1, .s 2, 2⟩, ⟨2, .v 2, 2⟩] ||| v.base) leaf0 0x5000) ∧
    (let s := lone 0x100 ⟨[]⟩
    let b := loneBlock 0x100 ⟨[]⟩
    ∃ v, OneLane s solo b (loneWarp 0x100) plain always v
      (allOf [atomDest (ownerOf s solo b plain) false false false .zero, admits (ownerOf s solo b plain) srcVS 2 (.s 2),
        admits (ownerOf s solo b plain) srcFp 1 (.v 2)]) ∧ InSpad s v (v.val64 1 (.s 2)) 4 0 b 0x100) ∧
    (let s := lone 0x5000 ⟨[]⟩
    let b := loneBlock 0x5000 ⟨[]⟩
    ∃ v, OneLane s solo b (loneWarp 0x5000) plain always v
      (allOf [atomDest (ownerOf s solo b plain) true true false (.v 8), admits (ownerOf s solo b plain) srcVS 2 (.s 2),
        admits (ownerOf s solo b plain) srcFp 1 (.v 2), admits (ownerOf s solo b plain) srcFp 1 .ones]) ∧
      Writable s v (v.val64 1 (.s 2)) 4 (v.tags [⟨1, .s 2, 2⟩, ⟨2, .v 2, 1⟩, ⟨3, .ones, 1⟩] ||| v.base) leaf0 0x5000) ∧
    (let s := lone 0x100 ⟨[]⟩
    let b := loneBlock 0x100 ⟨[]⟩
    ∃ v, OneLane s solo b (loneWarp 0x100) plain always v
      (allOf [atomDest (ownerOf s solo b plain) true false true (.v 8), admits (ownerOf s solo b plain) srcVS 2 (.s 2),
        admits (ownerOf s solo b plain) srcFp 2 (.v 2), admits (ownerOf s solo b plain) srcFp 2 (.v 4)]) ∧
      InSpad s v (v.val64 1 (.s 2)) 8 0 b 0x100) ∧
    (let s := lone 0x100 binTable
    (∃ v, OneLane s solo binBlock (loneWarp 0x100) plain always v
      (allOf [admits (ownerOf s solo binBlock plain) { v := true, zero := true } 1 (.v 9), admits (ownerOf s solo binBlock plain) srcVS 2 (.s 2),
        admits (ownerOf s solo binBlock plain) { v := true, s := true, spec := true, zero := true } 1 .laneId,
        admits (ownerOf s solo binBlock plain) srcFp 1 (.v 2)]) ∧
      InSpad s v (v.val64 1 (.s 2)) 16 0 binBlock 0x100 ∧ (v.val 2 .laneId).toNat < 4) ∧
      TableAt binBlock 0 0x100 ⟨0, 0x100, 4, 2, 0x200, 0⟩ ∧ (⟨0, 0x100, 4, 2, 0x200, 0⟩ : BinTable).count binBlock 0 < 2) := by
  refine ⟨⟨by decide, oneLane (writesAt (lone 0x5000 ⟨[]⟩) addr2 fun v => v.tags [⟨1, .s 2, 2⟩, ⟨2, .v 2, 2⟩] ||| v.base)
      (loneIs 0x5000 ⟨[]⟩) rfl rfl (by unfold allOf; decide +kernel) (by decide +kernel) fun v h =>
        writable h (by decide) (plain_of (by decide +kernel) rfl rfl) (by decide +kernel) rfl⟩,
    oneLane (fun v => scratchAt (lone 0x100 ⟨[]⟩).mach v (addr2 v) 0 4 == some (0, 0x100)) (loneIs 0x100 ⟨[]⟩) rfl rfl
      (by unfold allOf; decide +kernel) (by decide +kernel) fun v h => spadAt (base := addr2) h (by decide) ⟨rfl, rfl, rfl⟩,
    oneLane (writesAt (lone 0x5000 ⟨[]⟩) addr2 fun v => v.tags [⟨1, .s 2, 2⟩, ⟨2, .v 2, 1⟩, ⟨3, .ones, 1⟩] ||| v.base)
      (loneIs 0x5000 ⟨[]⟩) rfl rfl (by unfold allOf; decide +kernel) (by decide +kernel) fun v h =>
        writable h (by decide) (plain_of (by decide +kernel) rfl rfl) (by decide +kernel) rfl,
    oneLane (fun v => scratchAt (lone 0x100 ⟨[]⟩).mach v (addr2 v) 0 8 == some (0, 0x100)) (loneIs 0x100 ⟨[]⟩) rfl rfl
      (by unfold allOf; decide +kernel) (by decide +kernel) fun v h => spadAt (base := addr2) h (by decide) ⟨rfl, rfl, rfl⟩,
    oneLane (fun v => scratchAt (lone 0x100 binTable).mach v (addr2 v) 0 16 == some (0, 0x100) && decide ((v.val 2 .laneId).toNat < 4))
      (loneIs 0x100 binTable) rfl rfl (by unfold allOf; decide +kernel) (by decide +kernel) fun v h => ?_,
    ⟨by decide +kernel, by decide +kernel, by decide +kernel⟩, by decide +kernel⟩
  simp only [Bool.and_eq_true, decide_eq_true_eq] at h
  exact ⟨spadAt (base := addr2) h.1 (by decide) ⟨rfl, rfl, by decide +kernel⟩, h.2⟩

/-! ## Presses -/

/-- Lane 0's issue in a context whose table holds the claim as entry 5 and the add, of class 2, as entry 9. -/
def addEntry : PressEntry := { claimEntry with image := addImage }
def loneCtx : Ctx := { pressCtx with press := tabSet pressCtx.press 9 addEntry }
def lonePress : State := soloState (loneBlock 0x5000 ⟨[]⟩) fun m => m.setCtx 0 loneCtx

/-- What a lane sends with these masks. -/
def sends (mo : PressMods) (b : Operand) (e : PressEntry) : View → Bool := fun v =>
  writesAt lonePress addr2 (fun v => e.tag ||| v.tags (pressSrcs (lonePress.mach.ctx v.b.ctx) mo (.s 2) b) ||| v.base) v &&
    decide (pressEntry (lonePress.mach.ctx v.b.ctx) mo.opc.toNat = some e)

theorem sendable {mo : PressMods} {b : Operand} {e : PressEntry} {v : View} (h : sends mo b e v = true) (o : e.image.opnd ≠ 5)
    (g : 3 ≤ e.image.gran ∧ e.image.gran ≤ 10) (k : 0 < e.image.size ∧ e.image.size ≤ 4096 ∧ 0x5000 % e.image.size = 0)
    (p : plainRange lonePress.mach 0x5000 e.image.size) : Sendable lonePress v mo (.s 2) b e leaf0 0x5000 := by
  simp only [sends, Bool.and_eq_true, decide_eq_true_eq] at h
  exact ⟨⟨h.2, o⟩, g, fun _ => rfl, writable (base := addr2) h.1 k p (by decide +kernel) rfl⟩

theorem lonePressIs : lonePress.mach.issue = some solo ∧ tabFind lonePress.mach.blocks 0 = some (loneBlock 0x5000 ⟨[]⟩) ∧
    tabFind (loneBlock 0x5000 ⟨[]⟩).warps 0 = some (loneWarp 0x5000) ∧ lonePress.mach.stalled = false := ⟨rfl, rfl, rfl, rfl⟩

theorem witness_PressesComplete :
    (∀ k ∈ [(5, claimEntry), (9, addEntry)],
      let mo : PressMods := ⟨k.1, .dev, false⟩
      let b := loneBlock 0x5000 ⟨[]⟩
      (k.2.image.cls = 2 → 0 < combQuota lonePress.mgmt (deviceOf b.ctx)) ∧
      ∃ v, OneLane lonePress solo b (loneWarp 0x5000) plain always v (allOf [admits (ownerOf lonePress solo b plain) srcVS 2 (.s 2),
        opndOk (ownerOf lonePress solo b plain) (pressEntry (lonePress.mach.ctx b.ctx) mo.opc.toNat) (.v 2)]) ∧
        Sendable lonePress v mo (.s 2) (.v 2) k.2 leaf0 0x5000) ∧
    claimEntry.image.cls ≠ 2 ∧ addEntry.image.cls = 2 ∧
    (let mo : PressMods := ⟨5, .dev, true⟩
    let b := loneBlock 0x5000 ⟨[]⟩
    (loneWarp 0x5000).block = none ∧ ∃ v, OneLane lonePress solo b (loneWarp 0x5000) plain always v
      (allOf [admits (ownerOf lonePress solo b plain) { v := true, s := (ownerOf lonePress solo b plain).wide } 8 (.v 8),
        admits (ownerOf lonePress solo b plain) srcVS 2 (.s 2),
        opndOk (ownerOf lonePress solo b plain) (pressEntry (lonePress.mach.ctx b.ctx) mo.opc.toNat) (.v 2)]) ∧
        Sendable lonePress v mo (.s 2) (.v 2) claimEntry leaf0 0x5000) := by
  refine ⟨fun k hk => ?_, by decide, by decide, rfl, oneLane (sends ⟨5, .dev, true⟩ (.v 2) claimEntry) lonePressIs rfl rfl
    (by unfold allOf; decide +kernel) (by decide +kernel) fun v h => sendable h (by decide) (by decide) (by decide)
      (plain_of (by decide +kernel) rfl rfl)⟩
  simp only [List.mem_cons, List.not_mem_nil, or_false] at hk
  obtain rfl | rfl := hk
  · exact ⟨by decide +kernel, oneLane (sends ⟨5, .dev, false⟩ (.v 2) claimEntry) lonePressIs rfl rfl (by unfold allOf; decide +kernel)
      (by decide +kernel) fun v h => sendable h (by decide) (by decide) (by decide) (plain_of (by decide +kernel) rfl rfl)⟩
  · exact ⟨by decide +kernel, oneLane (sends ⟨9, .dev, false⟩ (.v 2) addEntry) lonePressIs rfl rfl (by unfold allOf; decide +kernel)
      (by decide +kernel) fun v h => sendable h (by decide) (by decide) (by decide) (plain_of (by decide +kernel) rfl rfl)⟩

/-! ## Control registers and releases -/

theorem leadsWarp {s : State} {b : Block} {v0 s0 : List (Nat × Word)} {h : Head} {g : Guard} {ok : Prop} {P : View → Prop} (p : View → Bool)
    (e : s.mach.issue = some solo ∧ tabFind s.mach.blocks 0 = some b ∧ tabFind b.warps 0 = some (warp0 v0 s0) ∧ s.mach.stalled = false)
    (n : noHeld s) (hs : h.scope = .warp) (hok : ok) (c : oneOf p (elements s solo b (warp0 v0 s0) h g 32) = true)
    (hp : ∀ v, p v = true → P v) : ∃ v, LeadsWarp s solo b (warp0 v0 s0) h g v ok ∧ P v := by
  obtain ⟨v, l, hv⟩ := one_of c
  exact ⟨v, ⟨⟨e.1, e.2.1, e.2.2.1, (warp0_lanes v0 s0).1, by decide, fun k l _ => ready_of_all (warp0_lanes v0 s0).2 k l, e.2.2.2⟩, hs,
    fun j _ => room j, .inr rfl, n, rfl, by rw [l]; rfl, hok⟩, hp v hv⟩

theorem witness_ControlsComplete :
    (let s := lone 0x40 ⟨[]⟩
    let b := loneBlock 0x40 ⟨[]⟩
    (∃ v, OneLane s solo b (loneWarp 0x40) plain always v
      (csrRegs (0x140 : BitVec 16).toNat = some 2 ∧ admits (ownerOf s solo b plain) (dstVS (ownerOf s solo b plain)) 2 (.v 4) = true) ∧ True) ∧
    (∃ v, LeadsWarp s solo b (loneWarp 0x40) (at_ .warp 0 0) always v
      (admits (ownerOf s solo b (at_ .warp 0 0)) srcVSZ 1 (.s 2) = true ∧ (csrRegs (0x110 : BitVec 16).toNat).isSome = true ∧
        (0x110 : BitVec 16) ≠ 0x111 ∧ (0x110 : BitVec 16) ≠ 0x112 ∧ (0x110 : BitVec 16) ≠ 0x113) ∧ True) ∧
    ∃ v, LeadsWarp s solo b (loneWarp 0x40) (at_ .warp 0 1) always v
      (allOf [admits (ownerOf s solo b (at_ .warp 0 1)) { s := (ownerOf s solo b (at_ .warp 0 1)).wide, zero := true } 1 (.s 16),
        admits (ownerOf s solo b (at_ .warp 0 1)) srcVS 1 (.s 2)]) ∧
      ((v.val 1 (.s 2)).toNat = 0x40 ∧ 0x40 % 64 = 0 ∧ 0x40 + 64 ≤ b.spadSize ∧ b.spadBad = [] ∧ s.mach.gate.length < 64)) := by
  refine ⟨oneLane (fun _ => true) (loneIs 0x40 ⟨[]⟩) rfl rfl (by decide +kernel) (by decide +kernel) fun _ _ => trivial,
    leadsWarp (fun _ => true) (loneIs 0x40 ⟨[]⟩) rfl rfl (by decide +kernel) (by decide +kernel) fun _ _ => trivial,
    leadsWarp (fun v => decide ((v.val 1 (.s 2)).toNat = 0x40)) (loneIs 0x40 ⟨[]⟩) rfl rfl (by unfold allOf; decide +kernel) (by decide +kernel)
      fun v h => ⟨of_decide_eq_true h, rfl, by decide, rfl, by decide⟩⟩

/-! ## Pages that the TLBs hold -/

/-- Every piece of these bytes lies in the page `l`, with good data. -/
def allIn (m : Mach) (a : Actor) (l : Leaf) (va n : Nat) : Bool :=
  (pageCuts va n).all fun x => m.cachedLeaf a x.1 == some l && !m.badRange none (l.at x.1) x.2

theorem reaches_of {m : Mach} {a : Actor} {va n : Nat} {ok : Leaf → Prop} {l : Leaf} (h : allIn m a l va n = true) (o : l.ordinary)
    (c : m.scrub = []) (u : m.side = ⟨[]⟩) (k : ok l) : Reaches m a va n ok := by
  intro x hx
  have e := List.all_eq_true.1 h x hx
  simp only [Bool.and_eq_true, beq_iff_eq, Bool.not_eq_true'] at e
  exact ⟨l, e.1, o, plain_of e.2 c u, k⟩

theorem ordinary0 : leaf0.ordinary := ⟨rfl, rfl, by decide⟩

theorem onePage {m : Mach} {a : Actor} {va n : Nat} {l : Leaf} (h : (m.cachedLeaf a va == some l && !m.badRange none (l.at va) n) = true)
    (o : l.ordinary) (k : 0 < n ∧ va % 65536 + n ≤ 65536) (c : m.scrub = []) (u : m.side = ⟨[]⟩) (w : m.memoriesOk = true) :
    OnePage m a va n l (l.at va) := by
  simp only [Bool.and_eq_true, beq_iff_eq, Bool.not_eq_true'] at h
  exact ⟨h.1, o, rfl, k, plain_of h.2 c u, w⟩

/-! ## Releases -/

/-- The page of host memory at 0x40000000. -/
def hostLeaf : Leaf := { leaf0 with tier := 2, frame := 0, entry := 0x2008 }
/-- The gate's machine, with its pages in core 0's TLB. -/
def passing : State :=
  let s := gateState (gate0 relBlock)
  { s with mach := { s.mach with tlb := [⟨0, 0, 0, leaf0⟩, ⟨0, 0, 16384, hostLeaf⟩] } }

theorem witness_ReleasesComplete :
    isOn passing ∧ passing.mach.gate = [gate0 relBlock] ∧ passing.mach.presses = [] ∧
      Stands passing.mach 0 0 (block0 owing) owing ∧
      Passes passing (gate0 relBlock) (block0 owing)
        (policyOf gatePolicy) 0 := by
  refine ⟨rfl, rfl, rfl, ⟨rfl, rfl⟩, ?_⟩
  exact {
    block := by decide +kernel
    reads := ⟨reaches_of (l := leaf0) (by decide +kernel) ordinary0 rfl rfl trivial, reaches_of (l := leaf0) (by decide +kernel) ordinary0 rfl rfl trivial⟩
    policy := ⟨by decide +kernel, by decide +kernel, by decide +kernel⟩
    range := by decide +kernel
    dest := ⟨by decide +kernel, hostLeaf, by decide +kernel, rfl, rfl, by decide +kernel, by decide +kernel⟩
    signed := by
      have e : bitsOf (policyOf gatePolicy).pmask = [0] := by decide +kernel
      intro j i h
      rw [e] at h
      match j, h with
      | 0, h =>
        obtain rfl : 0 = i := by simpa using h
        exact ⟨reaches_of (l := leaf0) (by decide +kernel) ordinary0 rfl rfl trivial, by decide +kernel⟩
      | j + 1, h => simp at h
    masks := by decide +kernel
    digest := fun h => absurd h (by decide +kernel)
    budget := by decide +kernel
    link := by decide +kernel
    wf := by decide +kernel }

/-! ## The matrix unit, tier moves, launch records -/

/-- The matrix unit's core, with the identity page in its TLBs. -/
def cached (s : State) : State := { s with mach := { s.mach with tlb := copies0 } }
def mxCached (op : EngineOp) (ready : Bool) : State := cached (mxState (command0 op ready))
theorem atHeadCached (op : EngineOp) (ready : Bool) : AtHead (mxCached op ready) 0 (command0 op ready) [] mxBlock :=
  ⟨rfl, rfl, rfl, rfl, rfl⟩

/-- What the statement asks of a command with this parameter block. -/
def PanelCase (x : BitVec 512) : Prop :=
  let c := command0 (.mma x 0) false
  let s := mxCached (.mma x 0) false
  AtHead s 0 c [] mxBlock ∧ c.ready = false ∧
    (mmaParams x).cause c.bid (tabFind (s.mach.core 0).tiles c.tile) (s.mach.core 0).bypass = none ∧
    ((mmaParams x).bar = 0 ∨ ∃ l pa, OnePage s.mach (mxBlock.engineActor true) (mmaParams x).bar 8 l pa ∧ l.w = true) ∧
    tabFind (s.mach.core 0).tiles c.tile = some { tile0 with type := .int32 } ∧
    PanelReadable s.mach (mxBlock.engineActor true) (mmaParams x) c.panel c.row

/-- The part of it that is a computation. -/
def panelCase (x : BitVec 512) : Bool :=
  let c := command0 (.mma x 0) false
  let m := (mxCached (.mma x 0) false).mach
  let a := mxBlock.engineActor true
  let p := mmaParams x
  (p.cause c.bid (tabFind (m.core 0).tiles c.tile) (m.core 0).bypass).isNone && (p.bar == 0 ||
    ((m.cachedLeaf a p.bar == some leaf0 && !m.badRange none (leaf0.at p.bar) 8) && decide (p.bar % 65536 + 8 ≤ 65536) && m.memoriesOk)) &&
    tabFind (m.core 0).tiles c.tile == some { tile0 with type := .int32 } &&
    if p.o4 then (panelGroups p 0 0).all fun y =>
      allIn m a leaf0 y.1 32 && allIn m a leaf0 y.2 2 && (o4Group (m.bytesAt a y.1 32) (natOfBytes (m.bytesAt a y.2 2))).isSome
    else (panelRuns p 0 0).all fun y => allIn m a leaf0 y.1 y.2

theorem panelCase_ok {x : BitVec 512} (h : panelCase x = true) : PanelCase x := by
  simp only [panelCase, Bool.and_eq_true, Bool.or_eq_true, Option.isNone_iff_eq_none, beq_iff_eq, decide_eq_true_eq, Bool.not_eq_true'] at h
  obtain ⟨⟨⟨hc, hb⟩, ht⟩, hr⟩ := h
  refine ⟨atHeadCached _ _, rfl, hc, hb.imp id fun k => ⟨leaf0, _, onePage ?_ ordinary0 ⟨by decide, k.1.2⟩ rfl rfl k.2, rfl⟩, ht, ?_⟩
  · simp only [Bool.and_eq_true, beq_iff_eq, Bool.not_eq_true']; exact k.1.1
  · unfold PanelReadable
    split at hr
    · next o =>
      rw [if_pos o]
      intro y hy
      have k := List.all_eq_true.1 hr y hy
      simp only [Bool.and_eq_true] at k
      exact ⟨reaches_of k.1.1 ordinary0 rfl rfl trivial, reaches_of k.1.2 ordinary0 rfl rfl trivial, k.2⟩
    · next o =>
      rw [if_neg o]
      exact fun y hy => reaches_of (List.all_eq_true.1 hr y hy) ordinary0 rfl rfl trivial

/-- O4 by O4: a row at 0x5000 by a column at 0x6000 of one group each, with scales at 0x8000 and 0x9000. -/
def o4Block : BitVec 512 :=
  BitVec.ofNat 512 (0x99 + 2 ^ 12 + 2 ^ 18 + 2 ^ 25 + 64 * 2 ^ 32 + 0x5000 * 2 ^ 64 + 0x6000 * 2 ^ 128 + 0x8000 * 2 ^ 256 + 0x9000 * 2 ^ 320)

theorem witness_PanelsComplete : PanelCase (mmaBlock 2 0) ∧ PanelCase (mmaBlock 256 0x7000) ∧ PanelCase o4Block ∧
    (mmaParams o4Block).o4 = true :=
  ⟨panelCase_ok (by decide +kernel), panelCase_ok (by decide +kernel), panelCase_ok (by decide +kernel), by decide +kernel⟩

theorem witness_MatrixEnds :
    (let x := mmaBlock 2 0x7000
    let c := command0 (.mma x 0) true
    let s := mxCached (.mma x 0) true
    AtHead s 0 c [] mxBlock ∧ c.ready = true ∧ (mmaParams x).bar ≠ 0 ∧
      ∃ l pa, OnePage s.mach (mxBlock.engineActor true) (mmaParams x).bar 8 l pa ∧ l.w = true ∧ pa % 8 = 0) ∧
    (let c := command0 (.drain (drainMods false) 0x8000 64) false
    let s := mxCached (.drain (drainMods false) 0x8000 64) false
    AtHead s 0 c [] mxBlock ∧ tabFind (s.mach.core 0).tiles c.tile = some { tile0 with type := .int32 } ∧ tile0.valid = true ∧
      drainOk .int32 (drainMods false).fmt (drainMods false).byp = true ∧ (drainMods false).nomem = false ∧ s.mach.memoriesOk = true ∧
      c.row < 64 ∧ (∀ i, c.row ≤ i → i < 64 → Reaches s.mach (mxBlock.engineActor true) (0x8000 + i * 64)
        (8 * fmtWidth (drainMods false).fmt) fun l => l.w = true ∧ s.mach.storeOk mxBlock.ctx l.tag (tile0.tag ||| c.tags) = true) ∧
      ∃ l pa, OnePage s.mach (mxBlock.engineActor true) (0x8000 + 63 * 64) (8 * fmtWidth (drainMods false).fmt) l pa) := by
  refine ⟨⟨atHeadCached _ _, rfl, by decide +kernel, leaf0, _, onePage (by decide +kernel) ordinary0 (by decide +kernel) rfl rfl (by decide +kernel),
      rfl, by decide +kernel⟩,
    atHeadCached _ _, by decide +kernel, rfl, rfl, rfl, by decide +kernel, by decide, fun i _ h => ?_, leaf0, _,
    onePage (by decide +kernel) ordinary0 (by decide) rfl rfl (by decide +kernel)⟩
  have e : ((List.range 64).all fun i => allIn (mxCached (.drain (drainMods false) 0x8000 64) false).mach (mxBlock.engineActor true) leaf0
      (0x8000 + i * 64) 64) = true := by decide +kernel
  exact reaches_of (List.all_eq_true.1 e i (List.mem_range.2 h)) ordinary0 rfl rfl ⟨rfl, by decide +kernel⟩

/-- The page of a tier move, and the ring and the record of a launch queue, are in the TLBs. -/
theorem witness_CachedPages :
    (let c := moving
    let s := copyState c 0
    AtChannel s 0 0 0 c [] (block0 owing) ∧ ∃ pa f pool,
      OnePage s.mach ((block0 owing).engineActor false) ((copyParams tierBlock).src + c.offset) 1 (tierLeaf0 0) pa ∧
        TierMove (copyParams tierBlock) c (block0 owing) (tierLeaf0 0) s.mach f pool 1) ∧
    (let s := cached (queued queue0)
    isOn s ∧ (s.mach.queue 0).ctx = some 0 ∧ s.mach.queueActive (s.mach.queue 0) = true ∧ s.mach.openLaunches 0 < 16 ∧
      ((s.mach.queue 0).tail - (s.mach.queue 0).head).toNat ≤ 2 ^ (s.mach.queue 0).log2n ∧ (s.mach.queue 0).host = false ∧
      s.mach.cachedLeaf { engineOf 0 0 0 with launch := s.mach.ids } (s.mach.queue 0).base = some leaf0 ∧ leaf0.ordinary ∧
      ∃ pa, OnePage s.mach { engineOf 0 0 0 with launch := s.mach.ids }
        ((s.mach.queue 0).base + 256 * ((s.mach.queue 0).head.toNat % 2 ^ (s.mach.queue 0).log2n)) 256 leaf0 pa ∧
        recRow (natOfBytes (memRead s.mach.mem pa 256)) (fun j => (s.mach.queue j).ctx == some 0) (Mach.vaultHas s.mgmt 0) = none) := by
  refine ⟨⟨atChannel _ _ rfl, _, ⟨0x200000, 16⟩, [], onePage (by decide +kernel) ⟨rfl, rfl, by decide⟩ (by decide +kernel) rfl rfl (by decide +kernel), ?_⟩,
    rfl, by decide +kernel, by decide +kernel, by decide +kernel, by decide +kernel, rfl, by decide +kernel, ordinary0, _,
    onePage (by decide +kernel) ordinary0 (by decide +kernel) rfl rfl (by decide +kernel), by decide +kernel⟩
  exact { goes := ⟨rfl, rfl, rfl⟩, params := ⟨by decide +kernel, by decide +kernel⟩, other := by decide, idle := by decide +kernel
          frame := by decide +kernel, size := by decide, aligned := by decide, apart := by decide, entry := by decide, table := rfl
          clear := ⟨rfl, rfl, rfl⟩, wf := by decide +kernel }

end Sys2Proof.Tests
end

