-- ==== Sys2Proof/Tests/WitnessFaults.lean ====
section
/-! SUPPORT. For the statements about watchdogs, limits, fault entries, holds, page faults and TLBs, states that meet their hypotheses. -/

namespace Sys2Proof.Tests

set_option Elab.async false

open Sys2Proof Sys2Proof.Machine

/-- The machine with its block's warp and context changed. -/
def small' (w : Warp) (c : Ctx → Ctx) (f : Mach → Mach) : State :=
  { State.reset with mach := f (({ machine0 (block0 w) with issue := none } : Mach).modCtx 0 c) }

theorem noFault {m : Mach} (h : (m.launches.cells.all fun x => x.2.rec_.fmode == 0) = true) (k : Nat) (l : Launch)
    (g : m.launch? k = some l) : l.rec_.fmode = 0 := by
  simpa using List.all_eq_true.1 h _ (find_mem g)

theorem rises {m : Mach} (h : (cellsRising m.blocks.cells && cellsRising m.launches.cells && cellsRising m.ctxs.cells) = true) :
    tablesRise m := by
  simp only [Bool.and_eq_true] at h
  exact ⟨h.1.1, h.1.2, h.2⟩

/-! ## Watchdogs and limits -/

/-- Every lane waits: at a WJOIN, or on an external barrier object. -/
def waitWarp (ext : Bool) : Warp :=
  { benchWarp 0 with
    lanes := List.replicate 32 { benchLane 0 with st := .waiting (if ext then .barrier (.host 0) 0 0 true 7 else .join) } }
def stuckState (ext : Bool) (now : Nat) : State :=
  small' (waitWarp ext) (fun c => { c with wdogInt := 100, wdogExt := 100, stuckInt := some 0, stuckExt := some 0 })
    fun m => { m with time := now }
/-- Lane 0 parked in cycle 0. -/
def parkRec : FaultRec :=
  { cause := .trap 1, scope := .lane, lane := 0, warp := 0, index := 0, block := 0, pc := 0x4000, core := 0, widx := 1, coal := false
    addr := 0, bslot := 0, amask := 1, size := 0, write := false, time := 0 }
def parkedWarp (suspended : Bool) : Warp :=
  { benchWarp 0 with
    lanes := (List.range 32).map fun k => { benchLane 0 with st := if k = 0 then .parked (some parkRec) else .ready }
    parkedAt := some 0, suspended := suspended }

theorem witness_WatchdogsAndLimits :
    (let s := stuckState false 100
    isOn s ∧ tabHas s.mach.ctxs 0 = true ∧ tablesRise s.mach ∧ (∀ k l, s.mach.launch? k = some l → l.rec_.fmode = 0) ∧
      s.mach.stuck 0 = true ∧ limitReached (s.mach.ctx 0).stuckInt (s.mach.ctx 0).wdogInt s.mach.now = true ∧
      (s.mach.ctx 0).fq.length < 32 ∧
      (after (exec (.watchdogInternal 0) s) fun t => ((t.mach.ctx 0).fq.map (·.kind), (t.mach.ctx 0).holds.map (·.unit),
        (t.mach.warp? 0 0).map (·.suspended))) = some ([8, 1], [.block], some true)) ∧
    (let s := stuckState false 99
    isOn s ∧ s.mach.stuck 0 = true ∧ limitReached (s.mach.ctx 0).stuckInt (s.mach.ctx 0).wdogInt s.mach.now = false ∧
      still (.watchdogInternal 0) s = true) ∧
    (let s := stuckState true 100
    isOn s ∧ tabHas s.mach.ctxs 0 = true ∧ tablesRise s.mach ∧ (∀ k l, s.mach.launch? k = some l → l.rec_.fmode = 0) ∧
      s.mach.allIdle 0 = some true ∧ limitReached (s.mach.ctx 0).stuckExt (s.mach.ctx 0).wdogExt s.mach.now = true ∧
      (after (exec (.watchdogExternal 0) s) fun t => ((t.mach.ctx 0).fq.head?.map fun e => (e.kind, e.info0))) = some (some (8, 1))) ∧
    (let s := stuckState true 99
    isOn s ∧ s.mach.allIdle 0 = some true ∧ limitReached (s.mach.ctx 0).stuckExt (s.mach.ctx 0).wdogExt s.mach.now = false ∧
      still (.watchdogExternal 0) s = true) ∧
    (let s := stuckState true 0
    isOn s ∧ unlocked s (deviceOf 0) ∧ tabHas s.mach.ctxs 0 = true ∧
      (after (exec (.wdogWrite 0 true 5) s) fun t => ((t.mach.ctx 0).wdogExt, (t.mach.ctx 0).stuckExt)) = some (5, none) ∧
      (after (exec (.coreSplitWrite 0 15) s) fun t => ((t.mach.ctx 0).spadSet, (t.mach.ctx 0).clamp)) = some (11, true)) ∧
    ∀ now ∈ [65535, 65536],
      let s := small' (parkedWarp false) id fun m => { m with cycle := now }
      isOn s ∧ Stands s.mach 0 0 (block0 (parkedWarp false)) (parkedWarp false) ∧ (block0 (parkedWarp false)).resident = true ∧
        (parkedWarp false).parkedAt = some 0 ∧ (parkedWarp false).suspended = false ∧ (parkedWarp false).lanes.any Lane.isParked = true ∧
        tabHas s.mach.ctxs 0 = true ∧ (∀ k l, s.mach.launch? k = some l → l.rec_.fmode = 0) ∧
        (after (exec (.warpSuspendTimeout 0 0) s) fun t => ((t.mach.warp? 0 0).map (·.suspended), (t.mach.ctx 0).holds.map (·.warps))) =
          if now = 65535 then some (some false, []) else some (some true, [[0]]) := by
  refine ⟨⟨rfl, rfl, rises (by decide +kernel), noFault (by decide +kernel), by decide +kernel⟩, ⟨rfl, by decide +kernel⟩,
    ⟨rfl, rfl, rises (by decide +kernel), noFault (by decide +kernel), by decide +kernel⟩, ⟨rfl, by decide +kernel⟩,
    ⟨rfl, rfl, by decide +kernel⟩, fun now h => ?_⟩
  simp only [List.mem_cons, List.not_mem_nil, or_false] at h
  obtain rfl | rfl := h
  · exact ⟨rfl, ⟨rfl, rfl⟩, rfl, rfl, rfl, by decide, rfl, noFault (by decide +kernel), by decide +kernel⟩
  · exact ⟨rfl, ⟨rfl, rfl⟩, rfl, rfl, rfl, by decide, rfl, noFault (by decide +kernel), by decide +kernel⟩

/-! ## Fault entries -/

/-- An entry of kind 1 for hold 1; a ring of 256 slots at 0xA000 that raises vector 5. -/
def entry0 : FqEntry := { kind := 1, info0 := 2, info1 := 3, info2 := 4, recs := [], parts := 0, hold := some 1, region := none, after := none }
def fqState : State :=
  small' (parkedWarp true) (fun c => { c with fqEn := true, fqBase := 0xA000, fq := [entry0], fqNote := 0x805, holds :=
    [{ hold1 .warp with written := false }] }) id

theorem witness_FaultEntries :
    let s := fqState
    let c := s.mach.ctx 0
    isOn s ∧ tabHas s.mach.ctxs 0 = true ∧ s.mach.memoriesOk = true ∧ c.fq = [entry0] ∧ entry0.recs = [] ∧ entry0.parts = 0 ∧
      entry0.after = none ∧ c.fqEn = true ∧ c.fqHost = false ∧ 1 ≤ c.fqFree ∧ c.fqNote.getLsbD 21 = false ∧ c.fqBase % 32 = 0 ∧
      c.fqBase + 32 * (c.fqProd.toNat % c.fqSlots) = 0xA000 ∧ plainRange s.mach 0xA000 32 ∧ dryLine s.mach (lineOf 0xA000) ∧
      (after (exec (.faultEntryWrite 0) s) fun t => (t.mach.signals, (t.mach.ctx 0).holds.map (·.written), memRead t.mach.mem 0xA000 9)) =
        some ([.msix 0 5], [true], [1, 0, 0, 0, 1, 0, 0, 0, 2]) := by
  refine ⟨rfl, rfl, by decide +kernel, rfl, rfl, rfl, rfl, rfl, rfl, by decide +kernel, by decide +kernel, by decide +kernel,
    by decide +kernel, plain_of (by decide +kernel) rfl rfl, ⟨fun t h => ?_, fun t h => ?_⟩, by decide +kernel⟩
  · cases h
  · cases h

/-! ## Holds -/

def held (w : Warp) : State := small' w (fun c => { c with holds := [hold1 .warp] }) id

theorem witness_HoldsEnd :
    (let s := held (parkedWarp true)
    isOn s ∧ (s.mach.ctx 0).hold? 2 = none ∧ still (.resume 0 2) s = true ∧ still (.abort 0 2) s = true) ∧
    (let s := held (parkedWarp true)
    isOn s ∧ (s.mgmt.fn (deviceOf 0)).tdi ≠ .error ∧ tabHas s.mach.ctxs 0 = true ∧ (s.mach.ctx 0).hold? 1 = some (hold1 .warp) ∧
      (hold1 .warp).warps = [0] ∧ Stands s.mach 0 0 (block0 (parkedWarp true)) (parkedWarp true) ∧
      (block0 (parkedWarp true)).slots = ⟨[]⟩ ∧ (block0 (parkedWarp true)).keptMx = [] ∧ (block0 (parkedWarp true)).keptCh = [] ∧
      (∀ x ∈ (s.mach.ctx 0).holds, x.bid = 0 → x.num = 1) ∧ (parkedWarp true).lanes.any Lane.isParked = true ∧
      ((after (exec (.resume 0 1) s) fun t => ((t.mach.warp? 0 0).map (·.suspended))) = some (some false)) ∧
      laneAfter (exec (.resume 0 1) s) 0 = laneAfter (exec (.discard 0 1) s) 0 ∧
      (laneAfter (exec (.resume 0 1) s) 0).map (·.1) = some .ready ∧ laneAfter (exec (.resume 0 1) s) 1 = some (.ready, ⟨0x4000, 0⟩)) ∧
    (let b := setBlock0 (.relg ⟨plain, .s 16, .s 2, .zero, .zero, ⟨⟩, always⟩) (waiting (warp0 [] []))
    tabFind b.slots 4 = some (slot0 (.relg ⟨plain, .s 16, .s 2, .zero, .zero, ⟨⟩, always⟩)) ∧ cellsRising b.slots.cells = true ∧
      ((tabFind (resumeSlot true 0 4 b).warps 0).bind fun w => (laneAt w 0).map (·.st)) = some .ready) ∧
    (let s := held (parkedWarp true)
    isOn s ∧ tablesRise s.mach ∧ (s.mach.ctx 0).hold? 1 = some (hold1 .warp) ∧
      tabFind s.mach.blocks 0 = some (block0 (parkedWarp true)) ∧ s.mach.launch? 0 = some benchLaunch ∧ benchLaunch.rec_.cpla = 0 ∧
      benchLaunch.world = none ∧ (s.mach.ctx 0).regions = [] ∧ tabHas s.mach.ctxs 0 = true ∧
      (after (exec (.abort 0 1) s) fun t => (t.mach.blocks.cells.length, t.mach.launches.cells.length)) = some (0, 0) ∧
      (after (exec (.reset 0) s) fun t => (t.mach.blocks.cells.length, (t.mach.ctx 0).fq.map fun e => (e.kind, e.info0))) =
        some (0, [(10, 4)])) := by
  refine ⟨⟨rfl, rfl, by decide +kernel, by decide +kernel⟩, ⟨rfl, by decide, rfl, rfl, rfl, ⟨rfl, rfl⟩, rfl, rfl, rfl, by decide, by decide,
    by decide +kernel⟩, by decide +kernel, rfl, rises (by decide +kernel), rfl, rfl, rfl, rfl, rfl, rfl, rfl, by decide +kernel⟩

/-! ## Page faults and TLBs -/

/-- Region 5 is reported; the matrix command at the head is paused on it, or on nothing. -/
def pausedState (c : Option (BitVec 48)) : State :=
  let s := mxState { command0 (.mma (mmaBlock 2 0) 0) false with fwait := c }
  { s with mach := s.mach.modCtx 0 fun x => { x with unresolved := [5], reported := [5] } }
/-- A TLB copy of region 16, a tracker of virtual line 8192 of the same region, and its drain. -/
def invState (i : Option Inval) (d : List Drain) : State :=
  small' (warp0 [] []) (fun c => { c with inval := i }) fun m =>
    { m with tlb := [⟨0, 0, 16, tierLeaf0 0⟩], trackers := [{ tracker0 with vline := 8192 }], drains := d }

/-- The launch is pending; its one dependence could not be read. -/
def againState : State :=
  let s := invState (some ⟨16, 1, false, [6]⟩) []
  let d : Dep := { kind := 1, obj := 0x100000, val := 1, met := false, told := true }
  { s with mach := { s.mach with launches := ⟨[(0, { benchLaunch with order := none, rec_ := { benchLaunch.rec_ with deps := [d] } })]⟩ } }

theorem witness_PageFaultsAndTlbs :
    (let s := pausedState none
    isOn s ∧ (4 : Word).toNat ∉ (s.mach.ctx 0).reported ∧ still (.resolve 0 4) s = true ∧ still (.failpg 0 4) s = true) ∧
    (let s := pausedState (some 0x50010)
    isOn s ∧ (s.mgmt.fn (deviceOf 0)).tdi ≠ .error ∧ tabHas s.mach.ctxs 0 = true ∧ (5 : Word).toNat ∈ (s.mach.ctx 0).reported ∧
      (∃ c ∈ (s.mach.core 0).mq, s.mach.pausedOn 0 5 c = true) ∧
      (after (exec (.resolve 0 5) s) fun t => ((t.mach.core 0).mq.map (·.fwait), (t.mach.ctx 0).unresolved)) = some ([none], [])) ∧
    (let s := pausedState none
    isOn s ∧ (5 : Word).toNat ∈ (s.mach.ctx 0).reported ∧ (∀ c ∈ s.mach.allCommands, s.mach.pausedOn 0 (5 : Word).toNat c = false) ∧
      (after (exec (.failpg 0 5) s) fun t => (t.mach.ctx 0).reported) = some []) ∧
    (let m := (pausedState none).mach
    let c := command0 (.mma (mmaBlock 2 0) 0) false
    (m.core 0).mq = [c] ∧ tabFind m.blocks c.bid = some mxBlock ∧ c.ready = false ∧ tabHas m.ctxs 0 = true ∧
      (∀ l, m.launch? 0 = some l → l.rec_.fmode = 0) ∧ tabHas (m.core 0).tiles c.tile = true ∧
      ((m.mxError Mgmt.reset 0 4 0).ctx 0).fq.map (·.kind) = [3]) ∧
    (let s := invState none []
    isOn s ∧ (s.mgmt.fn (deviceOf 0)).tdi ≠ .error ∧ tabHas s.mach.ctxs 0 = true ∧ (s.mach.ctx 0).inval = none ∧
      (after (exec (.tlbInv 0 16) s) fun t => (t.mach.tlb, t.mach.trackers, t.mach.drains.length, (t.mach.ctx 0).inval.map (·.drains))) =
        some ([], [], 1, some [0])) ∧
    (let s := invState (some ⟨16, 1, false, [6]⟩) [drain0]
    isOn s ∧ tabHas s.mach.ctxs 0 = true ∧ (s.mach.ctx 0).inval = some ⟨16, 1, false, [6]⟩ ∧ (∃ d ∈ s.mach.drains, d.id ∈ [6]) ∧
      still (.tlbInvComplete 0) s = true) ∧
    (let s := invState (some ⟨16, 1, false, [6]⟩) []
    isOn s ∧ (s.mach.ctx 0).inval = some ⟨16, 1, false, [6]⟩ ∧ (∀ d ∈ s.mach.drains, d.id ∉ [6]) ∧
      (∀ r ∈ s.mach.presses, r.ctx ≠ 0) ∧ (∀ x ∈ s.mach.posted, x.ctx ≠ 0) ∧
      (s.mach.launches.cells.filter fun x => x.2.ctx == 0 && x.2.order.isNone && x.2.rec_.deps.any fun d => d.told && !d.met) = [] ∧
      (after (exec (.tlbInvComplete 0) s) fun t => ((t.mach.ctx 0).inval, t.mach.tlb)) = some (none, [])) ∧
    (let s := againState
    isOn s ∧ tabHas s.mach.ctxs 0 = true ∧ (s.mach.ctx 0).inval = some ⟨16, 1, false, [6]⟩ ∧ (∀ d ∈ s.mach.drains, d.id ∉ [6]) ∧
      (∀ r ∈ s.mach.presses, r.ctx ≠ 0) ∧ (∀ x ∈ s.mach.posted, x.ctx ≠ 0) ∧
      (s.mach.launches.cells.filter fun x => x.2.ctx == 0 && x.2.order.isNone && x.2.rec_.deps.any fun d => d.told && !d.met).map (·.1) =
        [0] ∧
      (after (exec (.tlbInvComplete 0) s) fun t => (t.mach.ctx 0).inval) = some none) := by
  refine ⟨⟨rfl, by decide +kernel⟩, ⟨rfl, by decide +kernel⟩, ⟨rfl, by decide +kernel⟩, ⟨rfl, rfl, rfl, rfl,
    noFault (by decide +kernel) 0, by decide +kernel⟩, ⟨rfl, by decide +kernel⟩, ⟨rfl, by decide +kernel⟩, ⟨rfl, by decide +kernel⟩, rfl, by decide +kernel⟩

end Sys2Proof.Tests
end

