-- ==== Sys2Proof/Tests/WitnessOutside.lean ====
section
/-! SUPPORT. For the statements about arrivals, requests from outside, streams, locks, registers, function resets and scrubbing, states
that meet their hypotheses. -/

namespace Sys2Proof.Tests

set_option Elab.async false

open Sys2Proof Sys2Proof.Machine

/-! ## Arrivals -/

/-- The context in a run state, with its log at 0xB000 and these refused arrivals; a barrier object of count 1 at 0x7000. -/
def arriving (r : CtxRun) (log : Bool) (refused : List (Nat × Nat × Arrival)) (now : Nat) : State :=
  small fun m =>
    let m := m.setCtx 0 { pressCtx with run := r, logEn := log, logBase := 0xB000, logHigh := true, refused := refused }
    { m with time := now, mem := memWrite m.mem 0x7000 (barBytes ((barOf 0).init 1 false)) }
def barArrival : Arrival := .barrier 0x7000 3
/-- A request of this module without return for the definition at `opc`. -/
def pressArrival (opc : BitVec 6) : PressArrival :=
  { local_ := true, ret := false, opc := opc, addr := 0x5000, modid := 0, image := claimImage, opnd := [2], more := [], handle := 0
    va := 0x5000, core := 0 }

theorem quiet7000 (r : CtxRun) (log : Bool) (refused : List (Nat × Nat × Arrival)) (now : Nat) :
    QuietRange (arriving r log refused now).mach 0x7000 8 :=
  quiet_of (plain_of rfl rfl rfl) rfl rfl (show (arriving .running false [] 0).mach.memoriesOk = true by decide +kernel) (by decide)

theorem witness_ArrivalsAndTheirLog :
    (let s := arriving .running false [] 0
    isOn s ∧ tabHas s.mach.ctxs 0 = true ∧ (s.mach.ctx 0).refused = [] ∧ (s.mach.ctx 0).run ≠ .switchedOut ∧ 0x7000 % 8 = 0 ∧
      QuietRange s.mach 0x7000 8 ∧
      (after (exec (.arrivalLogAppend 0 barArrival) s) fun t => memRead t.mach.mem 0x7000 8) =
        some (barBytes ((barOf 0).init 1 false).arrive) ∧
      (after (exec (.arrivalLogAppend 0 (.countDown 0x7000 3 16)) s) fun t => memRead t.mach.mem 0x7000 8) =
        some (barBytes (((barOf 0).init 1 false).countDown 16)) ∧
      tabFind (s.mach.ctx 0).press (pressArrival 5).opc.toNat = some claimEntry ∧ (s.mach.ctx 0).regions = [] ∧ s.mach.presses = [] ∧
      (pressArrival 5).local_ = true ∧ (pressArrival 5).more = [] ∧
      (after (exec (.arrivalLogAppend 0 (.press (pressArrival 5))) s) fun t => t.mach.presses.map (·.granule)) = some [0x5000] ∧
      tabFind (s.mach.ctx 0).press (pressArrival 9).opc.toNat = none ∧ (s.mach.ctx 0).fq.length < 32 ∧
      (after (exec (.arrivalLogAppend 0 (.press (pressArrival 9))) s) fun t => ((t.mach.ctx 0).fq.map (·.kind), t.mach.presses.length)) =
        some ([9], 0)) ∧
    (let s := arriving .switchedOut true [] 0
    isOn s ∧ tabHas s.mach.ctxs 0 = true ∧ (s.mach.ctx 0).refused = [] ∧ (s.mach.ctx 0).run = .switchedOut ∧
      (s.mach.ctx 0).logFits ((arrivalBytes barArrival).length / 16) = true ∧ (s.mach.ctx 0).logHost = false ∧
      (s.mach.ctx 0).logPad ((arrivalBytes barArrival).length / 16) = 0 ∧ (s.mach.ctx 0).logHigh = true ∧
      (s.mach.ctx 0).logBase + 16 * ((s.mach.ctx 0).logProd.toNat % (s.mach.ctx 0).logUnits) = 0xB000 ∧
      QuietRange s.mach 0xB000 (arrivalBytes barArrival).length ∧
      (after (exec (.arrivalLogAppend 0 barArrival) s) fun t => ((t.mach.ctx 0).logProd, memRead t.mach.mem 0xB000 8)) =
        some (1, [5, 1, 0, 0, 0, 0x70, 0, 0])) ∧
    (let s := arriving .switchedOut false [] 0
    isOn s ∧ tabHas s.mach.ctxs 0 = true ∧ (s.mach.ctx 0).run = .switchedOut ∧
      (s.mach.ctx 0).logFits ((arrivalBytes barArrival).length / 16) = false ∧
      (after (exec (.arrivalLogAppend 0 barArrival) s) fun t => (t.mach.ctx 0).refused) = some [(3, 1000, barArrival)]) ∧
    (let s := arriving .running false [(3, 1000, barArrival)] 0
    isOn s ∧ (∃ x ∈ (s.mach.ctx 0).refused, x.1 = senderOf barArrival) ∧ (s.mach.ctx 0).refused = [(3, 1000, barArrival)] ∧
      s.mach.now < 1000 ∧ still (.logRefusalRetry 0 3) s = true) ∧
    (let s := arriving .switchedOut false [(3, 1000, barArrival)] 1000
    isOn s ∧ 1000 ≤ s.mach.now ∧ (s.mach.ctx 0).run = .switchedOut ∧
      (s.mach.ctx 0).logFits ((arrivalBytes barArrival).length / 16) = false ∧
      (after (exec (.logRefusalRetry 0 3) s) fun t => (t.mach.ctx 0).refused) = some [(3, 2000, barArrival)]) ∧
    (let s := arriving .running false [(3, 1000, barArrival)] 1000
    isOn s ∧ 1000 ≤ s.mach.now ∧ (s.mach.ctx 0).run ≠ .switchedOut ∧ QuietRange s.mach 0x7000 8 ∧
      (after (exec (.logRefusalRetry 0 3) s) fun t => ((t.mach.ctx 0).refused, memRead t.mach.mem 0x7000 8)) =
        some ([], barBytes ((barOf 0).init 1 false).arrive)) := by
  refine ⟨⟨rfl, rfl, rfl, by decide +kernel, rfl, quiet7000 _ _ _ _, by decide +kernel⟩,
    ⟨rfl, rfl, rfl, rfl, by decide +kernel, rfl, by decide +kernel, rfl, by decide +kernel,
      quiet_of (plain_of (by decide +kernel) rfl rfl) rfl rfl (by decide +kernel) (by decide +kernel), by decide +kernel⟩,
    ⟨rfl, by decide +kernel⟩, ⟨rfl, by decide +kernel⟩, ⟨rfl, by decide +kernel⟩, rfl, by decide +kernel, by decide +kernel,
    quiet7000 _ _ _ _, by decide +kernel⟩

/-! ## Requests from outside -/

/-- Function 0's aperture leads to virtual address 0 of context 0; core 0's TLB holds the page; memory holds 5 and 8 at 0x5000. -/
def apertured (fenced : List Nat) : State :=
  let s := small fun m => { m with mem := memWrite m.mem 0x5000 (bytesOfWords [5, 8]), tlb := [⟨4096, 0, 0, leaf0⟩] }
  { s with mgmt := { Mgmt.reset.setFn 0 { Fn.reset with apBase := 0x5000, apCtx := some 0 } with fenced := fenced } }
def hostRequest (op : HostOp) : HostRequest := { fn := 0, peer := false, off := 0, op := op }
def peerRequest (op : HostOp) : PeerRequest := { modid := 3, pa := 0x5000, ctx := 0, mask := 0, sealed := false, trusted := true, op := op }

theorem throughAperture (op : HostOp) (h : HostOp_bytes op = 8) :
    ∃ l m1, ThroughAperture (apertured []) (hostRequest op) 0 l 0x5000 8 m1 ∧ l.leaf = leaf0 ∧ m1.leaveOk 0 0 hostFlag = true := by
  have f : ∃ l m1, (apertured []).mach.locate (apertured []).mgmt (engineOf 0 (apertured []).mach.ids 0)
      (((apertured []).mgmt.fn 0).apBase.toNat + 0) 8 = ([⟨((apertured []).mgmt.fn 0).apBase.toNat + 0, 8, .ok l⟩], m1) ∧
      (l == loc0 8 && m1 == (apertured []).mach) = true := by
    have e : (((apertured []).mach.locate (apertured []).mgmt (engineOf 0 (apertured []).mach.ids 0)
      (((apertured []).mgmt.fn 0).apBase.toNat + 0) 8).1.map fun p => (p.va, p.n, p.loc.toOption)) = [(0x5000, 8, some (loc0 8))] := by
      decide +kernel
    have g : ((apertured []).mach.locate (apertured []).mgmt (engineOf 0 (apertured []).mach.ids 0)
      (((apertured []).mgmt.fn 0).apBase.toNat + 0) 8).2 = (apertured []).mach := by decide +kernel
    generalize (apertured []).mach.locate (apertured []).mgmt (engineOf 0 (apertured []).mach.ids 0)
      (((apertured []).mgmt.fn 0).apBase.toNat + 0) 8 = r at e g
    obtain ⟨ps, m1⟩ := r
    match ps, e with
    | [⟨va, n, .ok l⟩], e =>
      simp only [List.map_cons, List.map_nil, Except.toOption, List.cons.injEq, Prod.mk.injEq, Option.some.injEq] at e
      obtain ⟨⟨rfl, rfl, rfl⟩, -⟩ := e
      exact ⟨loc0 8, m1, rfl, by simp only at g; simp [g]⟩
    | [⟨va, n, .error x⟩], e => simp [Except.toOption] at e
  obtain ⟨l, m1, e, g⟩ := f
  simp only [Bool.and_eq_true, beq_iff_eq] at g
  obtain ⟨rfl, rfl⟩ := g
  exact ⟨loc0 8, (apertured []).mach, ⟨rfl, h, rfl, show (Fn.reset).tdi ≠ .error by decide, show 0 + 8 ≤ 2 ^ 36 by decide, e,
    ⟨rfl, show (loc0 8).va = ((apertured []).mgmt.fn 0).apBase.toNat + 0 by decide +kernel, rfl⟩, rfl, ⟨rfl, rfl⟩, rfl,
    quiet_of (plain_of (by decide +kernel) rfl rfl) rfl rfl (by decide +kernel) (by decide)⟩, rfl, by decide +kernel⟩

theorem witness_RequestsToMemory :
    (let s := apertured []
    (∀ op ∈ [HostOp.read 8, .write [1, 2, 3, 4, 5, 6, 7, 8], .fetchAdd true 4],
      ∃ l m1, ThroughAperture s (hostRequest op) 0 l 0x5000 8 m1 ∧ l.leaf = leaf0 ∧ m1.leaveOk 0 0 hostFlag = true) ∧
      leaf0.w = true ∧ leaf0.tag = 0 ∧ ((s.mgmt.fn 0).apBase.toNat + 0) % 8 = 0 ∧
      (after (exec (.hostMemoryRequest (hostRequest (.read 8))) s) (·.mach.signals)) = some [.hostReply 0 true [5, 0, 0, 0, 8, 0, 0, 0]] ∧
      (after (exec (.hostMemoryRequest (hostRequest (.write [1, 2, 3, 4, 5, 6, 7, 8]))) s) fun t => memRead t.mach.mem 0x5000 8) =
        some [1, 2, 3, 4, 5, 6, 7, 8] ∧
      (after (exec (.hostMemoryRequest (hostRequest (.fetchAdd true 4))) s) fun t => memRead t.mach.mem 0x5000 8) =
        some [9, 0, 0, 0, 8, 0, 0, 0]) ∧
    (let s := apertured [3]
    isOn s ∧ (peerRequest (.read 8)).modid ∈ s.mgmt.fenced ∧ still (.peerModuleRequest (peerRequest (.read 8))) s = true) ∧
    (let s := apertured []
    isOn s ∧ (peerRequest (.read 8)).modid ∉ s.mgmt.fenced ∧ QuietRange s.mach 0x5000 8 ∧
      s.mach.leaveOk 0 0 (modFlag 3) = true ∧
      (after (exec (.peerModuleRequest (peerRequest (.read 8))) s) (·.mach.signals)) = some [.peerReply 3 true [5, 0, 0, 0, 8, 0, 0, 0]] ∧
      (after (exec (.peerModuleRequest (peerRequest (.write [1, 2, 3, 4, 5, 6, 7, 8]))) s) fun t => memRead t.mach.mem 0x5000 8) =
        some [1, 2, 3, 4, 5, 6, 7, 8]) := by
  refine ⟨⟨fun op h => throughAperture op ?_, rfl, rfl, by decide +kernel, by decide +kernel, by decide +kernel, by decide +kernel⟩,
    ⟨rfl, by decide, by decide +kernel⟩, rfl, by decide,
    quiet_of (plain_of (by decide +kernel) rfl rfl) rfl rfl (by decide +kernel) (by decide), by decide +kernel, by decide +kernel,
    by decide +kernel⟩
  simp only [List.mem_cons, List.not_mem_nil, or_false] at h
  obtain rfl | rfl | rfl := h
  all_goals rfl

/-! ## Streams -/

/-- Stream 2 of function 0, and the tick. -/
def streamed (x : Ide) (now : Nat) : State :=
  let s := small fun m => { m with ide := ⟨[(2, x)]⟩, time := now }
  { s with mgmt := Mgmt.reset.setFn 0 { Fn.reset with session := true } }
def stream0 : Ide := { fn := 0, counter := 5, limitAt := none, insecure := false, warned := false, keys := true }

theorem witness_IdeStreams :
    (let s := streamed stream0 0
    isOn s ∧ tabFind s.mach.ide 2 = some stream0 ∧ stream0.keys = true ∧ stream0.insecure = false ∧ stream0.limitAt = none ∧
      stream0.warned = false ∧ stream0.counter ≤ 2 ^ 60 - 2 ^ 24 ∧
      (after (exec (.ideCounterLimit 2) s) fun t => (t.mach.signals, t.mach.hostHeld 0)) = some ([.ide 0], true) ∧
      (after (exec (.ideCounterWarning 2) s) fun t => (t.mach.signals, t.mach.hostHeld 0)) = some ([.ide 0], false)) ∧
    (let s := streamed { stream0 with warned := true } 0
    isOn s ∧ tabFind s.mach.ide 2 = some { stream0 with warned := true } ∧ still (.ideCounterWarning 2) s = true) ∧
    (∀ now ∈ [99999, 100000], let x := { stream0 with limitAt := some 0 }
      let s := streamed x now
      isOn s ∧ tabFind s.mach.ide 2 = some x ∧ x.limitAt = some 0 ∧ x.insecure = false ∧
        (after (exec (.ideKeyTimeout 2) s) fun t => t.mach.hostDead 0) = some (now == 100000)) ∧
    (let s := streamed { stream0 with limitAt := some 0 } 99999
    isOn s ∧ (s.mgmt.fn 0).session = true ∧ s.mach.posted = [] ∧ s.mach.heldReplies = [] ∧ s.mach.now < 0 + 100000 ∧
      (after (exec (.ideKeySetSelection 0 2) s) fun t => (tabFind t.mach.ide 2).map (·.counter)) = some (some 0) ∧
      tabFind s.mach.ide 3 = none ∧ 3 ≠ linkStream ∧ s.mach.selective < 8 ∧ tabFind s.mach.ide linkStream = none ∧
      (after (exec (.ideKeySetSelection 0 3) s) fun t => (tabFind t.mach.ide 3).map (·.counter)) = some (some 0) ∧
      (after (exec (.ideKeySetSelection 0 linkStream) s) fun t => (tabFind t.mach.ide linkStream).map (·.counter)) = some (some 0) ∧
      (after (exec (.spdmSessionEstablishment 0) s) fun t => t.mach.ide.cells.map (·.1)) = some [2]) ∧
    (let s := streamed { stream0 with insecure := true } 0
    isOn s ∧ (after (exec (.spdmSessionEstablishment 0) s) fun t => t.mach.ide.cells) = some []) := by
  refine ⟨⟨rfl, by decide +kernel⟩, ⟨rfl, by decide +kernel⟩, fun now h => ?_, ⟨rfl, by decide +kernel⟩, rfl, by decide +kernel⟩
  simp only [List.mem_cons, List.not_mem_nil, or_false] at h
  obtain rfl | rfl := h
  · exact ⟨rfl, by decide +kernel⟩
  · exact ⟨rfl, by decide +kernel⟩

/-! ## Locks and registers -/

/-- Function 1 with a TDI state, a digest and the tick. -/
def locking (t : Tdi) (d : BitVec 256) (now : Nat) : State :=
  let s := small fun m => { (m.setCtx 17 Ctx.created) with time := now }
  { s with mgmt := Mgmt.reset.setFn 1 { Fn.reset with tdi := t, digest := d } }
/-- The values that a lock covers do not depend on the digest. -/
def covered (now : Nat) : List (BitVec 64) := lockedValues (locking .locked 0 now).mgmt (locking .locked 0 now).mach 1

theorem witness_LocksAndRegisters :
    (let s := locking .unlocked 0 0
    isOn s ∧ unlocked s 1 ∧ (after (exec (.lockInterface 1) s) fun t => (t.mgmt.fn 1).tdi) = some .locked) ∧
    (let s := locking .locked 0 99999
    isOn s ∧ s.mgmt.isLocked 1 = true ∧ tablesRise s.mach ∧ s.mach.now < (s.mgmt.fn 1).audit + 100000 ∧ still (.auditWalk 1) s = true) ∧
    (let s := locking .locked (Config.lockDigest (covered 100000)) 100000
    isOn s ∧ s.mgmt.isLocked 1 = true ∧ tablesRise s.mach ∧ (s.mgmt.fn 1).audit + 100000 ≤ s.mach.now ∧
      (s.mgmt.fn 1).digest = Config.lockDigest (lockedValues (s.mgmt.setFn 1 { s.mgmt.fn 1 with audit := s.mach.now }) s.mach 1)) ∧
    (let s := locking .locked (Config.lockDigest (covered 100000) + 1) 100000
    isOn s ∧ s.mgmt.isLocked 1 = true ∧ tablesRise s.mach ∧ (s.mgmt.fn 1).audit + 100000 ≤ s.mach.now ∧
      (s.mgmt.fn 1).digest ≠ Config.lockDigest (lockedValues (s.mgmt.setFn 1 { s.mgmt.fn 1 with audit := s.mach.now }) s.mach 1)) ∧
    (let s := locking .run 0 0
    isOn s ∧ (∃ r, s.mach.regAt 1 0x40103C = some r ∧ s.mgmt.isLocked 1 = true ∧ s.mach.lockedWrite r 5 = true) ∧
      tablesRise s.mach ∧
      (after (exec (.lockedRegisterWrite 1 0x40103C 5) s) fun t => (t.mgmt.fn 1).tdi) = some .error) ∧
    (let s := locking .unlocked 0 0
    isOn s ∧ unlocked s 0 ∧ unlocked s 1 ∧ s.mach.regAt 0 0x120004 = some (.schedDl 1) ∧ s.mach.regAt 0 0x100908 = some (.partLimit 1) ∧
      s.mach.regAt 0 0x100110 = some (.vdmask 1) ∧ s.mach.regAt 1 0x1234567 = none ∧ s.mach.regAt 1 0x120004 = none ∧
      [0x401000, 0x40101C, 0x401024, 0x40103C, 0x401068, 0x401088, 0x401018].map (s.mach.regAt 1) = [some (.ptbr 17), some (.fqCons 17),
        some (.fqNote 17), some (.binTimer 17), some (.check 17), some (.peer 17 1), some (.fqProd 17)] ∧
      (after (exec (.registerWrite 1 0x40103C 0xFFFFF) s) fun t => readBar t.mgmt t.mach 1 (.binTimer 17)) = some 0x3FFFF ∧
      still (.registerWrite 1 0x401018 5) s = true) := by
  refine ⟨⟨rfl, rfl, by decide +kernel⟩, ⟨rfl, by decide +kernel, rises (by decide +kernel), by decide +kernel, by decide +kernel⟩,
    ⟨rfl, rfl, rises (by decide +kernel), by decide +kernel,
      show Config.lockDigest _ = Config.lockDigest _ from congrArg Config.lockDigest (by decide +kernel)⟩, ⟨rfl, rfl, rises (by decide +kernel), by decide +kernel, ?_⟩,
    ⟨rfl, ⟨.binTimer 17, rfl, rfl, rfl⟩, rises (by decide +kernel), by decide +kernel⟩, rfl, rfl, rfl, by decide +kernel⟩
  show Config.lockDigest (covered 100000) + 1 ≠ Config.lockDigest (covered 100000)
  generalize Config.lockDigest (covered 100000) = d
  bv_omega

end Sys2Proof.Tests
end

