-- ==== Sys2Proof/Tests/WitnessModule.lean ====
section
/-! SUPPORT. For the statements about function resets, L2 control, links, power, resets, the mailbox, and the general ones, states that
meet their hypotheses. -/

namespace Sys2Proof.Tests

set_option Elab.async false

open Sys2Proof Sys2Proof.Machine

/-! ## Function resets and scrubbing -/

/-- Function 1 has context 17 with a frame of 2 MiB, whose first byte is 9. -/
def flrState (resetting : Bool) (scrub : List Nat) : State :=
  let s := small fun m => { m.setCtx 17 { Ctx.created with poolFast := [⟨0x200000, 21⟩] } with
    mem := memWrite m.mem 0x200000 [9], scrub := scrub }
  { s with mgmt := Mgmt.reset.setFn 1 { Fn.reset with resetting := resetting } }

theorem witness_FunctionResetAndScrubbing :
    (let s := flrState false []
    isOn s ∧ tablesRise s.mach ∧ tabHas s.mach.ctxs 17 = true ∧ deviceOf 17 = 1 ∧ still (.functionLevelReset 0) s = true ∧
      (s.mach.ctx 17).poolFast = [⟨0x200000, 21⟩] ∧
      (after (exec (.functionLevelReset 1) s) fun t => (t.mach.scrub, t.mach.viewByte none 0x200000, (t.mgmt.fn 1).gen)) = some ([1], 0, 1)) ∧
    (let s := flrState true [1]
    isOn s ∧ (s.mgmt.fn 1).resetting = true ∧ (after (exec (.functionResetComplete 1) s) fun t => (t.mgmt.fn 1).resetting) = some false ∧
      1 ∈ s.mach.scrub ∧ granuleOf 0x200000 = 1 ∧
      (after (exec (.scrubGranule 1) s) fun t => (t.mach.scrub, memGet t.mach.mem 0x200000)) = some ([], 0)) ∧
    (let s := flrState false []
    isOn s ∧ 0x10000 / 2 ^ 16 ∉ s.mach.scrub ∧
      (after (exec (.softError (.memory 0x10000)) s) fun t => (t.mach.badRange none 0x200000 1, t.mgmt.uncorrected)) = some (true, 1)) ∧
    (let s := flrState false []
    isOn s ∧ tabFind s.mach.blocks 0 = some (block0 (warp0 [] [])) ∧ 64 * 3 < (block0 (warp0 [] [])).spadSize ∧
      (after (exec (.softError (.scratchpad 0 3)) s) fun t => (t.mach.block? 0).map (·.spadBad)) = some (some [3])) := by
  refine ⟨⟨rfl, rises (by decide +kernel), by decide +kernel⟩, ⟨rfl, by decide +kernel⟩, ⟨rfl, by decide +kernel⟩, rfl, rfl, by decide,
    by decide +kernel⟩

/-! ## L2 control -/

/-- Device 2 would gain 10 with a fifth way, device 5 loses 3 without its fourth. -/
def hits0 : Tab Nat := ⟨[(32 * 2 + 3, 20), (32 * 2 + 4, 10), (32 * 5 + 2, 5), (32 * 5 + 3, 3), (32 * 5 + 4, 1)]⟩
/-- Devices 2 and 5 are monitored with 4 ways each, of which at least 1. -/
def monitored (en : Bool) (now : Nat) : State :=
  let s := small fun m => { m with time := now, hits := hits0 }
  { s with mgmt := { Mgmt.reset with l2 := ⟨[(2, { L2Dev.reset with umen := true }), (5, { L2Dev.reset with umen := true })]⟩, umonEn := en } }

theorem witness_QuotasAndL2Control :
    (let s := monitored false 0
    isOn s ∧ unlocked s 0 ∧ s.mgmt.quotas.length = 64 ∧
      quotasFit (s.mgmt.quotas.modify 1 fun q => q.write false (0x400 : Word).toNat) = false ∧
      quotasFit (s.mgmt.quotas.modify 0 fun q => q.write false (0x400 : Word).toNat) = true ∧ s.mgmt.plock = false ∧
      s.mgmt.monitored = [2, 5] ∧ (1 : Word).getLsbD 0 = true ∧ popcount s.mgmt.pways + 8 ≤ 16 ∧
      (after (exec (.l2UmonWrite 1) s) fun t => (t.mgmt.umonEn, (t.mgmt.l2Dev 5).qnow)) = some (true, 4)) ∧
    (let s : State := { monitored false 0 with mgmt := { (monitored false 0).mgmt with plock := true, pways := 0x1FF } }
    isOn s ∧ unlocked s 0 ∧ s.mgmt.plock = true ∧ still (.l2ProtWrite 5) s = true ∧ 16 < popcount s.mgmt.pways + 8 ∧
      (after (exec (.l2UmonWrite 1) s) fun t => (t.mgmt.umonEn, t.mgmt.umonErr)) = some (false, true)) ∧
    (let s := monitored true 99999
    isOn s ∧ s.mach.now < s.mgmt.umonAt + s.mgmt.umonTime ∧ still (.umonInterval ()) s = true) ∧
    (let s := monitored true 100000
    isOn s ∧ s.mgmt.umonEn = true ∧ s.mgmt.umonAt + s.mgmt.umonTime ≤ s.mach.now ∧ s.mgmt.gain s.mach.hits 2 = some 10 ∧
      s.mgmt.loss s.mach.hits 5 = some 3 ∧ s.mgmt.gain s.mach.hits 5 = some 1 ∧ s.mgmt.monitored = [2, 5] ∧
      (after (exec (.umonInterval ()) s) fun t => ((t.mgmt.l2Dev 2).qnow, (t.mgmt.l2Dev 5).qnow)) = some (5, 3)) := by
  refine ⟨⟨rfl, rfl, by decide +kernel⟩, ⟨rfl, rfl, by decide +kernel⟩, ⟨rfl, by decide +kernel⟩, rfl, by decide +kernel⟩

/-! ## Links -/

def posted0 : Posted := { id := 2, lanes := [⟨0, 0, 1⟩], after := none, ctx := 0, at_ := .peer 3 0x100, va := 0x77, bytes := [1] }
/-- Lane 0 is owed the result of a PRESSR for module 3. -/
def linkReply : PressReply :=
  { bid := 0, warp := 0, lanes := 1, dst := .v 8, stamp := false, tag := 0, id := 7, issue := issue0, code := [], scope := .lane }
def linkReq : PressReq := { claimReq with target := some 3, remote := none, reply := some linkReply }
def linkWarp : Warp :=
  { warp0 [] [] with block := some (.replies [4]), flights := [⟨7, some 0, none, false⟩], ws := [1, 0, 0, 0, 0, 0] }
def linked (presses : List PressReq) : State :=
  small' linkWarp id fun m => { m with posted := [posted0], presses := presses }

theorem witness_LinksAndTargets :
    (isOn State.reset ∧ State.reset.mach.ctxs = ⟨[]⟩ ∧
      (after (exec (.systemConfiguration 9) State.reset) fun t => t.mgmt.modid) = some 9) ∧
    (let s := linked []
    isOn s ∧ s.mach.ctxs ≠ ⟨[]⟩ ∧ still (.systemConfiguration 9) s = true ∧
      (after (exec (.linkTraining 5) s) fun t => t.mgmt.ports) = some [5] ∧ s.mach.presses = [] ∧
      (after (exec (.linkTargetTimeout 3) s) fun t => (t.mach.posted, (t.mach.ctx 0).fq.map fun e => (e.kind, e.info0, e.info1))) =
        some ([], [(11, 0x77, 1)]) ∧
      (after (exec (.missedLinkHeartbeats 3) s) fun t => t.mgmt.fenced) = some [3] ∧
      s.mach.posted.find? (·.id == 2) = some posted0 ∧ posted0.lanes ≠ [] ∧ tabHas s.mach.ctxs posted0.ctx = true ∧
      (s.mach.ctx posted0.ctx).fq.length < 32 ∧
      (after (exec (.postedWriteFailure 2 1) s) fun t => (t.mach.posted, (t.mach.ctx 0).fq.map fun e => (e.kind, e.info2))) =
        some ([], [(11, 1)])) ∧
    (let s := linked [linkReq]
    isOn s ∧ s.mach.presses.filter (fun x => x.target == some 3) = [linkReq] ∧ linkReq.reply = some linkReply ∧ linkReply.scope = .lane ∧
      linkReply.lanes = BitVec.twoPow 32 0 ∧ linkReply.issue.bid = linkReply.bid ∧ linkReply.issue.warp = linkReply.warp ∧
      Stands s.mach 0 0 (block0 linkWarp) linkWarp ∧ linkWarp.block = some (.replies [linkReq.id]) ∧
      laneAt linkWarp 0 = some (lane0 [] 0) ∧ (lane0 [] 0).st = .ready ∧ laneAt linkWarp 1 = some (lane0 [] 1) ∧
      (lane0 [] 1).st = .ready ∧
      (after (exec (.linkTargetTimeout 3) s) fun t => (t.mach.warp? 0 0).map fun w => (w.block, w.lanes.map Lane.isParked)) =
        some (some (none, true :: List.replicate 31 false))) := by
  refine ⟨⟨rfl, rfl, by decide +kernel⟩, ⟨rfl, by decide +kernel⟩, rfl, by decide +kernel, rfl, rfl, by decide, rfl, rfl, ⟨rfl, rfl⟩, rfl, rfl, rfl,
    rfl, rfl, by decide +kernel⟩

/-! ## Power -/

/-- The module with this clock. -/
def clocked (mhz : Nat) : State := small fun m => { m with mhz := mhz }
/-- A SLEEP under way in a module where nothing goes on. -/
def sleepy : State :=
  let s := ctxState .switchedOut 0
  { s with mgmt := { Mgmt.reset with jobs := [⟨.sleep, 0, 1⟩] } }

theorem witness_ClockAndSleep :
    (isOn (clocked 1900) ∧ 50 < (clocked 1900).mach.mhz ∧ (clocked 1900).mach.mhz ≤ 1900 ∧
      (after (exec (.throttleStep true) (clocked 1900)) fun t => (t.mach.mhz, t.mgmt.throttled)) = some (1850, true)) ∧
    (isOn (clocked 1800) ∧ (clocked 1800).mach.mhz < 1850 ∧
      (after (exec (.throttleStep false) (clocked 1800)) fun t => (t.mach.mhz, t.mgmt.throttled)) = some (1850, true)) ∧
    (isOn (clocked 1850) ∧ (clocked 1850).mach.mhz = 1850 ∧
      (after (exec (.throttleStep false) (clocked 1850)) fun t => (t.mach.mhz, t.mgmt.throttled)) = some (1900, false)) ∧
    (let s := ctxState .running 0
    Expected s (headOf 0) ∧ s.mgmt.jobs = [] ∧
      (after (exec (.sleep (headOf 0)) s) fun t => ((t.mach.ctx 0).run, t.mgmt.jobs.length)) = some (.draining, 1)) ∧
    (let s := sleepy
    isOn s ∧ s.mgmt.jobs = [⟨.sleep, 0, 1⟩] ∧ s.mach.quiet = true ∧ s.mach.memoriesOk = true ∧ cellsRising s.mach.side.cells = true ∧
      s.mach.posted = [] ∧ s.mach.heldReplies = [] ∧
      (finishJob s.mgmt s.mach).1.power = .asleep) := by
  refine ⟨⟨rfl, by decide +kernel⟩, ⟨rfl, by decide +kernel⟩, ⟨rfl, by decide +kernel⟩,
    ⟨expected_of rfl (by decide) (by decide) rfl, by decide +kernel⟩, rfl, rfl, by decide +kernel, by decide +kernel, by decide +kernel, rfl, rfl, rfl⟩

theorem witness_ResetsAndAlarms :
    (let s := ctxState .running 0
    isOn s ∧ (true || false || false) = true ∧ tablesRise s.mach ∧ tabHas s.mach.ctxs 0 = true ∧
      (after (exec (.dieReset true false false) s) fun t => (t.mach.blocks.cells.length, t.mach.refTicks)) = some (0, 0)) ∧
    (let s := ctxState .switchedOut 0
    isOn s ∧ tablesRise s.mach ∧ (s.mach.ctx 0).run = .switchedOut ∧ s.mach.blocks.cells.length = 1 ∧
      (after (exec (.dieReset true true true) s) fun t => t.mach.blocks.cells.length) = some 1 ∧
      (after (exec .capacityTierSupplyLoss s) fun t => t.mach.blocks.cells.length) = some 0) := by
  refine ⟨⟨rfl, rfl, rises (by decide +kernel), rfl, by decide +kernel⟩, rfl, rises (by decide +kernel), by decide +kernel⟩

/-! ## The mailbox -/

/-- The running machine whose block is held, with a session, a key and a dump where asked, for function `fn`. -/
def mailed (tdi : Tdi) (session expert : Bool) (dump : Option (BitVec 256)) : State :=
  let s := small fun m => m.modCtx 0 fun c => { c with holds := [hold1 .block] }
  { s with mgmt := { Mgmt.reset.setFn 0 { Fn.reset with tdi := tdi, session := session, expert := expert } with dump := dump } }

theorem expected0 (tdi : Tdi) (h : tdi ≠ .error) (session expert : Bool) (dump : Option (BitVec 256)) :
    Expected (mailed tdi session expert dump) (headOf 0) := expected_of rfl (by decide) h rfl

theorem witness_MailboxCommands :
    (let s := mailed .unlocked false false none
    Expected s (headOf 0) ∧ s.mach.owns 0 0 = true ∧ [(⟨0x200000, 21⟩ : PoolFrame)].all frameOk = true ∧ s.mgmt.isLocked 0 = false ∧
      (s.mgmt.fn 0).session = false ∧ s.mgmt.dump = none ∧ s.mgmt.jobs = [] ∧
      assignNamed 1 [0, 1] [0] s.mgmt s.mach = true ∧ assignLocked s.mgmt s.mach 1 [0] = false ∧ cellsRising s.mach.queues.cells = true ∧
      100 * 3 ≤ 15000 ∧ debugNamed 0 (.readV 0 0 1 0) s.mgmt s.mach = true ∧ debugNamed 0 (.writeS 0 0 5 77) s.mgmt s.mach = true ∧
      debugPlace (.readV 0 0 1 0) = (0, 0) ∧ Stands s.mach 0 0 (block0 (warp0 [] [])) (warp0 [] []) ∧ (warp0 [] []).lanes.length = 32 ∧
      debugValue (.readV 0 0 1 0) = none ∧ debugValue (.writeS 0 0 5 77) = some 77 ∧
      (after (exec (.pooladd (headOf 0) 0 true [⟨0x200000, 21⟩]) s) fun t => (t.mach.ctx 0).poolCap) = some [⟨0x200000, 21⟩] ∧
      (after (exec (.assign (headOf 0) 1 [0, 1] [0]) s) fun t => (tabGet t.mach.clusters 1 [], (t.mach.queue 0).fn)) = some ([0, 1], 1) ∧
      regAfter (exec (.debug (headOf 0) (.writeS 0 0 5 77)) s) (.s 5) = some ⟨77, 0⟩) ∧
    (let s := mailed .locked true false (some 5)
    Expected s (headOf 0) ∧ s.mach.owns 0 0 = true ∧ s.mgmt.isLocked 0 = true ∧ (s.mgmt.fn 0).session = true ∧
      s.mgmt.vault.length < 1024 ∧ s.mgmt.dump = some 5 ∧
      (after (exec (.keyprov (headOf 0) 0 9) s) fun t => t.mgmt.vault.map (·.key)) = some [9]) ∧
    (let s : State := { mailed .unlocked false false none with mgmt := (mailed .unlocked false false none).mgmt.setFn 1 { Fn.reset with tdi := .run } }
    Expected s (headOf 0) ∧ assignNamed 1 [0, 1] [0] s.mgmt s.mach = true ∧ assignLocked s.mgmt s.mach 1 [0] = true ∧
      cellsRising s.mach.queues.cells = true ∧
      (after (exec (.assign (headOf 0) 1 [0, 1] [0]) s) fun t => (tabGet t.mach.clusters 1 [], (t.mach.queue 0).fn)) = some ([], 0)) ∧
    (let mg : Mgmt := { Mgmt.reset with jobs := [⟨.checkpoint, 0, 1⟩] }
    mg.jobs = [⟨.checkpoint, 0, 1⟩] ∧ (ctxState .switchedOut 0).mach.quiet = true ∧
      (finishJob mg (ctxState .switchedOut 0).mach).1.check.isSome = true) := by
  refine ⟨⟨expected0 _ (by decide) _ _ _, rfl, by decide, rfl, rfl, rfl, rfl, by decide +kernel, rfl, rfl, by decide, by decide +kernel,
    by decide +kernel, rfl, ⟨rfl, rfl⟩, by decide, rfl, rfl, by decide +kernel, by decide +kernel, by decide +kernel⟩,
    ⟨expected0 _ (by decide) _ _ _, rfl, rfl, rfl, by decide, rfl, by decide +kernel⟩,
    ⟨expected_of rfl (by decide) (by decide) rfl, by decide +kernel⟩, rfl, by decide +kernel, rfl⟩

/-- Function 3, whose message 9 was executed and whose reply is kept. -/
def refusing : State :=
  let s := small id
  { s with mgmt := Mgmt.reset.setFn 3 { Fn.reset with inSeq := 10, lastIn := 9, kept := [(9, 0x55)] } }

theorem witness_RefusedMessages :
    (let s := small id
    Expected s (headOf 3) ∧ (headOf 3).fn ≠ 0 ∧ (s.mgmt.fn (headOf 3).fn).expert = false ∧ s.mach.owns 3 0 = false ∧
      (after (exec (.checkpoint (headOf 3)) s) fun t => t.mach.signals) = some [.msix 3 0]) ∧
    (∀ seq ∈ [(9 : BitVec 16), 30], let s := refusing
      let h : MboxHead := { fn := 3, seq := seq, ack := 0 }
      isOn s ∧ h.fn < 64 ∧ (s.mgmt.fn h.fn).tdi ≠ .error ∧ (s.mgmt.fn h.fn).inSeq ≠ h.seq ∧ s.mgmt.jobs = [] ∧
        (after (exec (.status h) s) fun t => ((t.mgmt.fn 3).outSeq, memGet (t.mgmt.fn 3).rings 0x2400)) =
          if seq = 9 then some (1, 0x55) else some (2, 1)) := by
  refine ⟨⟨expected_of rfl (by decide) (by decide) rfl, by decide, by decide, rfl, by decide +kernel⟩, fun seq h => ?_⟩
  simp only [List.mem_cons, List.not_mem_nil, or_false] at h
  obtain rfl | rfl := h
  · exact ⟨rfl, by decide +kernel⟩
  · exact ⟨rfl, by decide +kernel⟩

end Sys2Proof.Tests
end

