-- ==== Sys2Proof/Tests/WitnessGeneral.lean ====
section
/-! SUPPORT. For the statements about decoding, the step and the whole machine, states that meet their hypotheses. -/

namespace Sys2Proof.Tests

set_option Elab.async false

open Sys2Proof Sys2Proof.Machine

theorem witness_RoundingKeepsValues : ∀ q ∈ [paramsF32, paramsF16, paramsBf16, paramsE4m3, paramsE5m2],
    (0x7F < 2 ^ q.width) ∧ q.round .rne false (q.decode 0x34) = 0x34 := by decide +kernel

def ffma0 : Instr := .ffma ⟨plain, .v 4, .v 1, .v 1, .v 2, ⟨⟨false, false⟩, ⟨false, false⟩, ⟨false, false⟩, .rne, false⟩, always⟩

theorem witness_DecodeInvertsEncode : ffma0.wf = true ∧ encode ffma0 = [0x42000401#32, 0x0102000E#32] := by decide

/-! ## The step -/

/-- The bench of an instruction whose page is in the TLBs, with its warp as chosen. -/
def stepMach (nbits w : Nat) : Mach :=
  let m := (Mach.reset.bench nbits w)
  { m with tlb := [⟨0, 0, 0, leaf0⟩], blocks := ⟨[(0, { benchBlock 0 with warps := ⟨[(0, (benchWarp 0).select)]⟩ })]⟩ }
def stepBlock : Block := { benchBlock 0 with warps := ⟨[(0, (benchWarp 0).select)]⟩ }
/-- The words of FFMA v4, v1, v1, v2, and its clause. -/
def ffmaWords : Nat := 0x0102000E42000401
def ffmaClause : List Word := [benchHeader true 0x42, 0x42000401, 0x0102000E]

/-- A warp that stands at the second instruction of a clause of two NOPs, and one that is not encoded. -/
def secondWarp : Warp :=
  { benchWarp 0 with
    lanes := List.replicate 32 { benchLane 0 with pc := ⟨benchCode, 1⟩, code := [0x20000000, 0x00000000, 0x00000000] }, group := 0xFFFFFFFF }
def secondMach : Mach := { Mach.reset.bench 32 0 with blocks := ⟨[(0, { benchBlock 0 with warps := ⟨[(0, secondWarp)]⟩ })]⟩ }

theorem tlb_translate {m : Mach} {a : Actor} {va : Nat} {e : TlbEntry} (p : (m.ctx a.ctx).ptEn = true) (v : va < 2 ^ 48)
    (f : (m.tlb.find? fun e => e.ctx == a.ctx && e.covers va && (tlbPath a).contains e.loc) = some e) :
    m.translate a va = (.ok e.leaf, m) := by
  have n : ¬ 2 ^ 48 ≤ va := by omega
  simp only [Mach.translate, p, f, Bool.not_true, Bool.false_or, ge_iff_le, n, decide_false, Bool.false_eq_true, if_false]

/-- The one warp that scheduler 0 of core 0 can choose. -/
theorem cands : (State.reset.withFetchWord 64 ffmaWords).mach.candidates 0 0 = (0, 0, benchWarp 0) :: [] := by decide +kernel

/-- A warp's turn that runs `i`. -/
def runs (i : Instr) (r : Turn × Mach) : Bool :=
  match r.1 with
  | .run _ x => decide (x = i)
  | .wait => false
  | .stopped => false
theorem run_of {i : Instr} {r : Turn × Mach} (h : runs i r = true) : ∃ q m, r = (.run q i, m) := by
  obtain ⟨t, m⟩ := r
  match t, h with
  | .run q x, h => exact ⟨q, m, by rw [of_decide_eq_true h]⟩

theorem witness_StepRunsTheDecodedInstruction :
    (let m := stepMach 64 ffmaWords
    let a := stepBlock.fetcher
    (∀ x, x / 65536 = 0x4000 / 65536 → m.translate a x = (.ok leaf0, m)) ∧ leaf0.x = true ∧ leaf0.sealed = false ∧ leaf0.tier ≤ 1 ∧
      leaf0.frame + 0x4000 % 2 ^ leaf0.log = 0x4000 ∧ headerOk (wordOfBytes (memRead m.mem 0x4000 4)) = true ∧
      0x4000 % 65536 + 4 * clauseWords (wordOfBytes (memRead m.mem 0x4000 4)) ≤ 65536 ∧ 16 ≤ leaf0.log ∧
      plainRange m 0x4000 (4 * clauseWords (wordOfBytes (memRead m.mem 0x4000 4))) ∧
      ∃ lc, m.launch? a.launch = some lc ∧ lc.code = none) ∧
    (let m := stepMach 64 ffmaWords
    Stands (m.modWarp 0 0 Warp.select) 0 0 stepBlock (benchWarp 0).select ∧ (bitsOf (benchWarp 0).select.group).head? = some 0 ∧
      laneAt (benchWarp 0).select 0 = some (benchLane 0) ∧ (benchLane 0).pc.index = 0 ∧ (benchLane 0).code = [] ∧
      (∃ ws m1, (m.modWarp 0 0 Warp.select).fetchClause Mgmt.reset stepBlock.fetcher (benchLane 0).pc.clause.toNat = (.ok ws, m1) ∧
        (ws == ffmaClause && !m1.stalled && m1.blocks == m.blocks) = true) ∧
      (let h := ffmaClause.headD 0
      (∀ j, j < 6 → (headerWait h).testBit j = true → (benchWarp 0).select.ws.getD j 0 = 0) ∧ classOk h (instrWords ffmaClause h 0).1 = true ∧
        (decodeWords (instrWords ffmaClause h 0).1 (instrWords ffmaClause h 0).2).toOption = some ffma0 ∧ (opOf ffma0).isSome = true ∧
        (∃ q m2, m.turnOfWarp Mgmt.reset 0 0 = (.run q ffma0, m2)))) ∧
    (let h := (0x20000000 : Word)
    Stands (secondMach.modWarp 0 0 Warp.select) 0 0 { benchBlock 0 with warps := ⟨[(0, secondWarp)]⟩ } secondWarp ∧
      (bitsOf secondWarp.group).head? = some 0 ∧ (∃ l, laneAt secondWarp 0 = some l ∧ l.pc.index ≠ 0 ∧ l.code.headD 0 = h ∧
        classOk h (instrWords l.code h 1).1 = true ∧
        (decodeWords (instrWords l.code h 1).1 (instrWords l.code h 1).2).toOption = some (.nop ⟨plain, .v 0, .v 0⟩)) ∧
      ∃ q m2, secondMach.turnOfWarp Mgmt.reset 0 0 = (.run q (.nop ⟨plain, .v 0, .v 0⟩), m2)) ∧
    (let s := State.reset.withFetchWord 64 ffmaWords
    s.agenda = [.issue 0 0] ∧ (∃ x l, s.mach.candidates 0 0 = x :: l ∧
      ∃ q m, s.mach.turnOfWarp s.mgmt x.1 x.2.1 = (.run q ffma0, m)) ∧ (after (step s) fun _ => ()) = some ()) ∧
    (let s : State := { State.reset with agenda := [.event (.stampTick 0)] }
    s.agenda = [.event (.stampTick 0)] ∧ opOf (.stampTick 0) = none ∧ (after (exec (.stampTick 0) { s with agenda := [] }) fun _ => ()) = some ()) := by
  refine ⟨⟨fun x hx => ?_, rfl, rfl, by decide, by decide, by decide +kernel, by decide +kernel, by decide,
      plain_of (by decide +kernel) rfl rfl, _, rfl, rfl⟩,
    ⟨⟨rfl, rfl⟩, by decide +kernel, by rfl, rfl, rfl, ok_of (fun (ws : List Word) (m1 : Mach) =>
      ws == ffmaClause && !m1.stalled && m1.blocks == (stepMach 64 ffmaWords).blocks) (by decide +kernel), by decide +kernel, by decide +kernel,
      by decide +kernel, rfl, run_of (by decide +kernel)⟩, ⟨⟨rfl, rfl⟩, by decide +kernel, ⟨_, rfl, by decide, rfl, by decide, by decide⟩, run_of (by decide +kernel)⟩,
    ⟨rfl, ⟨_, _, cands, run_of (by decide +kernel)⟩, by decide +kernel⟩, rfl, rfl, by decide +kernel⟩
  · have c : TlbEntry.covers ⟨0, 0, 0, leaf0⟩ x = true := by simp [TlbEntry.covers, leaf0]; omega
    refine tlb_translate (e := ⟨0, 0, 0, leaf0⟩) rfl (by omega) ?_
    simp only [stepMach, List.find?_cons, c]
    rfl

theorem witness_HardwiredAndProtected :
    (opOf ffma0).isSome = true ∧ (after (exec ffma0 (running [] [])) fun t => decide (t.mgmt = Mgmt.reset)) = some true := by
  decide +kernel

theorem witness_QuotasStayWithinCapacity :
    State.reset.mgmt.quotasOk = true ∧ (after (step State.reset) fun t => t.mgmt.quotasOk) = some true := by decide +kernel

theorem witness_MemoriesStayCanonical :
    let s := State.reset.withFetchWord 64 ffmaWords
    s.mach.memoriesOk = true ∧ (after (step s) fun t => t.mach.memoriesOk) = some true := by decide +kernel

end Sys2Proof.Tests
end

