-- ==== Sys2Proof/Tests/WitnessInstr.lean ====
section
/-! SUPPORT. For every statement about instructions, a state and operands that meet its hypotheses. -/

namespace Sys2Proof.Tests

set_option Elab.async false

open Sys2Proof Sys2Proof.Machine

/-! ## Any instruction in its rendezvous -/

/-- Whatever the instruction, its rendezvous can stand as the statements ask. -/
theorem witness_rendezvous (i : Instr) : ∃ s bid k b sl, AtRendezvous s bid k b sl i ∧ noShortSet s b sl ∧ noHeld s :=
  ⟨_, _, _, _, _, atSet_rendezvous i [] [], (atSet_short i [] []).1, (atSet_short i [] []).2⟩

/-! ## Instructions that compute registers -/

theorem witness_IntegerArithmetic :
    MeetsIssue plain false (fun ow => [admits ow (dstVSZ ow) 1 (.v 4), admits ow srcInt 1 (.v 0), admits ow srcInt 1 .laneId,
      admits ow srcP 1 (.p 1)]) ∧
    MeetsIssue plain false (fun ow => [admits ow (dstVSZ ow) 2 (.v 4), admits ow srcInt 1 (.v 0), admits ow srcInt 1 .ones,
      admits ow srcVSZ 2 (.v 2)]) ∧
    MeetsIssue (at_ .warp 0 0) false (fun ow => [admits ow (dstVSZ ow) 1 (.s 63), admits ow srcInt 1 .zero]) := by
  refine ⟨meetsIssue (.inl ⟨rfl, rfl⟩) (by decide), meetsIssue (.inl ⟨rfl, rfl⟩) (by decide), meetsIssue (.inr rfl) (by decide)⟩

theorem witness_LogicAndBits :
    MeetsIssue plain false (fun ow => [admits ow { dstVSZ ow with p := true } 1 (.p 3), admits ow srcP 1 (.p 1),
      admits ow srcP 1 (.p 7)]) ∧
    MeetsIssue plain false (fun ow => [admits ow (dstVSZ ow) 2 (.v 4), admits ow srcVSZ 2 (.s 2), admits ow srcInt 1 (.v 127)]) := by
  refine ⟨meetsIssue (.inl ⟨rfl, rfl⟩) (by decide), meetsIssue (.inl ⟨rfl, rfl⟩) (by decide)⟩

theorem witness_MovesOfRegisters :
    MeetsIssue plain false (fun ow => [admits ow (dstVS ow) 4 (.v 4), admits ow srcVSZ 4 (.s 8)]) ∧
    MeetsIssue plain false (fun _ => [!true || Operand.p 0 == .p 0, !isP (.v 1), true]) := by
  refine ⟨meetsIssue (.inl ⟨rfl, rfl⟩) (by decide), meetsIssue (.inl ⟨rfl, rfl⟩) (by decide)⟩

theorem witness_PackedIntegers : MeetsIssue plain false (fun ow => [admits ow srcP 1 (.p 3), admits ow srcInt 1 (.v 1),
    admits ow srcInt 1 (.v 2)]) := meetsIssue (.inl ⟨rfl, rfl⟩) (by decide)

theorem witness_FloatArithmeticOnRegisters : MeetsIssue plain false (fun ow => [admits ow (dstVSZ ow) 1 (.v 4),
    admits ow srcFp 1 (.v 1), admits ow srcFp 1 (.s 2), admits ow srcFp 1 .ones]) := meetsIssue (.inl ⟨rfl, rfl⟩) (by decide)

/-- A NaN, a negative source, an argument beyond each end of FEXP2, an exponent. -/
theorem witness_SpecialFunctions : f32 0x7FC00001 = .nan ∧ (f32 0xBF800000).isNeg = true ∧ (f32 0xBF800000).isZero = false ∧
    (∃ m e, f32 0x43000000 = .fin false m e ∧ 0 ≤ (f32 0x43000000).cmp (.fin false 128 0)) ∧
    (∃ m e, f32 0xC3160000 = .fin true m e ∧ (f32 0xC3160000).cmp (.fin true 150 0) ≤ 0) ∧
    MeetsIssue plain false (fun ow => [admits ow (dstVSZ ow) 1 (.v 4), admits ow srcFp 1 (.v 1)]) := by
  refine ⟨by decide +kernel, by decide +kernel, by decide +kernel, ⟨8388608, -16, by decide +kernel⟩, ⟨9830400, -16, by decide +kernel⟩,
    meetsIssue (.inl ⟨rfl, rfl⟩) (by decide)⟩

theorem witness_Conversions : MeetsIssue plain false (fun ow => [admits ow (dstVS ow) 2 (.v 10), admits ow (dstVS ow) 8 (.v 0),
    admits ow srcVSZ 1 (.v 16)]) ∧ MeetsIssue plain false (fun ow => [admits ow (dstVS ow) 8 (.v 8), admits ow srcVSZ 1 (.v 1)]) := by
  refine ⟨meetsIssue (.inl ⟨rfl, rfl⟩) (by decide), meetsIssue (.inl ⟨rfl, rfl⟩) (by decide)⟩

theorem witness_CrossLaneOperations :
    MeetsIssue (at_ .warp 0 1) true (fun ow => [admits ow onlyV 1 (.v 5), admits ow srcInt 1 (.v 4), admits ow srcP 1 (.p 1)]) ∧
    MeetsIssue (at_ .warp 0 1) true (fun ow => [admits ow onlyV 1 (.v 5), admits ow srcVS 2 (.v 4)]) := by
  refine ⟨meetsIssue (.inr rfl) (by decide), meetsIssue (.inr rfl) (by decide)⟩

/-! ## Control -/

/-- A warp whose lanes hold a return address. -/
def calledWarp : Warp := { benchWarp 0 with lanes := (List.range 32).map fun _ => { benchLane 0 with rstack := [0x4100] } }

theorem calledUnder : Under (machine0 (block0 calledWarp)) (block0 calledWarp) calledWarp :=
  ⟨rfl, rfl, rfl, by decide +kernel, ⟨rfl, rfl, rfl⟩, ⟨rfl, rfl, rfl⟩⟩

/-- Two lanes with these stacks and spill counts, in a launch that declares a spill area of 4 entries; the thread-local windows hold
32 bytes from 0x8000 on, in each of which the first entry was spilled for 0x4100. -/
def stackWarp (stack : List (BitVec 48)) (k : Nat) : Warp :=
  { benchWarp 0 with lanes := (List.range 32).map fun _ => { benchLane 0 with rstack := stack, spill := k } }

def stackMachine (stack : List (BitVec 48)) (k : Nat) : Mach :=
  let m := machine0 (block0 (stackWarp stack k))
  { m with
    mem := memWrite (memWrite m.mem 0x8000 (bytesOfNat 0x8000000000004100 8)) 0x8020 (bytesOfNat 0x8000000000004100 8)
    ctxs := tabSet m.ctxs 0 { m.ctx 0 with tlsLog := 5, tlsBase := 0x8000 }
    launches := tabSet m.launches 0 { benchLaunch with rec_ := { benchRec with spill := 4 } } }

theorem stackUnder (stack : List (BitVec 48)) (k : Nat) :
    Under (stackMachine stack k) (block0 (stackWarp stack k)) (stackWarp stack k) :=
  ⟨rfl, rfl, rfl, by simp [stackWarp, benchLane], ⟨rfl, rfl, rfl⟩, ⟨rfl, rfl, rfl⟩⟩

/-- What the statements about stops at lane scope ask. -/
def MeetsStop (h : Head) (g : Guard) (ok : Owner → Prop) (stops : Mach → View → Prop) : Prop :=
  ∃ s q b w, Issuing s q b w ∧ h.scope = .lane ∧ slotHasRoom h w ∧ noShort s b w ∧ noHeld s ∧ w.fence = none ∧
    ok (s.mach.owner b q.warp h.scope) ∧ elements s q b w h g 32 ≠ [] ∧ ∀ v ∈ elements s q b w h g 32, stops s.mach v

theorem meetsStop {h : Head} {g : Guard} {ok : Owner → Prop} {stops : Mach → View → Prop} {m : Mach} {b : Block} {w : Warp}
    (u : Under m b w) (hs : h.scope = .lane) (hok : ok (m.owner b 0 h.scope))
    (ha : ∃ v, v ∈ elements { State.reset with mach := m } issue0 b w h g 32)
    (hall : ∀ v ∈ elements { State.reset with mach := m } issue0 b w h g 32, stops m v) : MeetsStop h g ok stops := by
  have hl := u.lanes
  simp only [Bool.and_eq_true, beq_iff_eq] at hl
  refine ⟨{ State.reset with mach := m }, issue0, b, w,
    ⟨u.issue, u.block, u.warp, hl.1, by decide, fun k l _ => ready_of_all hl.2 k l, u.quiet.1⟩, hs, fun j _ => ?_, .inr u.empty.2.1,
    u.quiet.2.1, u.empty.2.2, hok, List.ne_nil_of_mem ha.choose_spec, hall⟩
  rw [u.empty.1]; exact room j

theorem of_all {α : Type} {p : α → Prop} [DecidablePred p] {l : List α} (h : l.all (fun x => decide (p x)) = true) :
    ∀ x ∈ l, p x := fun x hx => of_decide_eq_true (List.all_eq_true.1 h x hx)

theorem witness_ControlFlow :
    (∀ n ∈ [Next.seq, .turn, .exit, .wait .join], MeetsEffect plain always false false laneOnly (fun _ _ => True) anyTime
      (eachActs fun _ m => some ({ next := n }, m))) ∧
    MeetsEffect plain (on 2) false false laneOnly (fun _ _ => True) anyTime
      (eachActs fun v m => some ({ next := .jump (branchTarget v.q 0xFFFFF9) }, m)) ∧
    MeetsEffect plain (on 2) false false laneOnly (fun ow _ => allOf [admits ow srcVS 2 (.s 2)]) anyTime
      (eachActs fun v m => match pairTarget (.s 2) v with
        | none => none
        | some t => some ({ next := .jump t, flow := v.tags [⟨1, .s 2, 2⟩] }, m)) ∧
    MeetsEffect plain always false false laneOnly (fun _ _ => True) roomOnStacks
      (storeActs (callAct (fun v => some (branchTarget v.q 16)) fun _ => 0)) ∧
    MeetsEffect plain always false false laneOnly (fun ow _ => allOf [admits ow srcVS 2 (.s 2)]) roomOnStacks
      (storeActs (callAct (pairTarget (.s 2)) fun v => v.tags [⟨1, .s 2, 2⟩])) ∧
    MeetsEffect plain always false false laneOnly (fun _ _ => True) addressOnStacks (eachActs returnAct) := by
  refine ⟨fun n hn => ?_, meets0 [] [] ⟨.inl rfl, rfl⟩ trivial trivial (by decide +kernel),
    meets0 [] [(2, 0x4100)] ⟨.inl rfl, rfl⟩ (by unfold allOf; decide) trivial (by decide +kernel),
    meets0 [] [] ⟨.inl rfl, rfl⟩ trivial (by unfold roomOnStacks; exact of_all (by decide +kernel)) (by decide +kernel),
    meets0 [] [(2, 0x4100)] ⟨.inl rfl, rfl⟩ (by unfold allOf; decide) (by unfold roomOnStacks; exact of_all (by decide +kernel))
      (by decide +kernel),
    meetsEffect calledUnder ⟨.inl rfl, rfl⟩ trivial (by unfold addressOnStacks; exact of_all (by decide +kernel)) (by decide +kernel)⟩
  rcases List.mem_cons.1 hn with rfl | hn
  · exact meets0 [] [] ⟨.inl rfl, rfl⟩ trivial trivial (by decide +kernel)
  rcases List.mem_cons.1 hn with rfl | hn
  · exact meets0 [] [] ⟨.inl rfl, rfl⟩ trivial trivial (by decide +kernel)
  rcases List.mem_cons.1 hn with rfl | hn
  · exact meets0 [] [] ⟨.inl rfl, rfl⟩ trivial trivial (by decide +kernel)
  rcases List.mem_cons.1 hn with rfl | hn
  · exact meets0 [] [] ⟨.inl rfl, rfl⟩ trivial trivial (by decide +kernel)
  · cases hn

/-- Seventeenth calls, whose oldest address is spilled; the return that reloads it. -/
theorem witness_spills :
    MeetsEffect plain always false false laneOnly (fun _ _ => True) roomOnStacks
      (storeActs (callAct (fun v => some (branchTarget v.q 16)) fun _ => 0)) ∧
    (elements { State.reset with mach := stackMachine (List.replicate 16 0x4200) 1 } issue0
      (block0 (stackWarp (List.replicate 16 0x4200) 1)) (stackWarp (List.replicate 16 0x4200) 1) plain always 32).all
      (fun v => v.l.rstack.length == 16) = true ∧
    MeetsEffect plain always false false laneOnly (fun _ _ => True) addressOnStacks (eachActs returnAct) :=
  ⟨meetsEffect (stackUnder (List.replicate 16 0x4200) 1) ⟨.inl rfl, rfl⟩ trivial (by unfold roomOnStacks; exact of_all (by decide +kernel))
      (by decide +kernel), by decide +kernel,
    meetsEffect (stackUnder [] 1) ⟨.inl rfl, rfl⟩ trivial (by unfold addressOnStacks; exact of_all (by decide +kernel)) (by decide +kernel)⟩

/-- A call with 16 addresses on the chip and 4 spilled; a return without any. -/
theorem witness_overflow :
    MeetsStop plain always (fun _ => True) stackFull ∧
    MeetsStop plain always (fun ow => admits ow srcVS 2 (.s 2) = true) stackFull ∧
    MeetsStop plain always (fun _ => True) (fun _ => stackEmpty) := by
  refine ⟨meetsStop (stackUnder (List.replicate 16 0x4200) 4) rfl trivial ?_ ?_,
    meetsStop (stackUnder (List.replicate 16 0x4200) 4) rfl (by decide) ?_ ?_, meetsStop (stackUnder [] 0) rfl trivial ?_ ?_⟩
  · exact List.exists_mem_of_ne_nil _ (List.length_pos_iff.1 (by decide +kernel))
  · unfold stackFull; exact of_all (by decide +kernel)
  · exact List.exists_mem_of_ne_nil _ (List.length_pos_iff.1 (by decide +kernel))
  · unfold stackFull; exact of_all (by decide +kernel)
  · exact List.exists_mem_of_ne_nil _ (List.length_pos_iff.1 (by decide +kernel))
  · unfold stackEmpty; exact of_all (by decide +kernel)

/-! ## Reports, signals, traps -/

/-- The bench with two brood slots declared, and s2 an entry address. -/
def broodMachine : Mach :=
  let m := (running [] [(2, 0x4100)]).mach
  { m with launches := tabSet m.launches 0 { benchLaunch with rec_ := { benchRec with brood := 2 } } }

theorem broodUnder : Under broodMachine (block0 (warp0 [] [(2, 0x4100)])) (warp0 [] [(2, 0x4100)]) :=
  ⟨rfl, rfl, rfl, by simp [warp0_lanes], ⟨rfl, rfl, rfl⟩, ⟨rfl, rfl, rfl⟩⟩

theorem witness_ReportsAndSignals :
    MeetsEffect (at_ .warp 0 1) always false false warpOnly (fun ow _ => allOf [admits ow (dstVS ow) 4 (.v 4)]) anyTime
      (eachActs fun v m => some ({ outs := rangeOuts (.v 4) (setReport m false v) }, m)) ∧
    MeetsEffect plain always false false allScopes
      (fun ow _ => allOf [admits ow (dstVSZ ow) 1 (.v 4), admits ow { srcInt with p := true, a := true } 1 (.s 2)]) anyTime
      (eachActs (taggetAct (.v 4) (.s 2))) ∧
    MeetsEffect plain always false true laneWarp (fun ow _ => allOf [admits ow srcVS 1 (.s 2)]) anyTime
      (eachActs fun v m => some ({}, signalled m v.b.ctx (v.val 1 (.s 2)))) ∧
    MeetsEffect plain always false false laneOnly (fun ow _ => allOf [admits ow srcVS 2 (.s 2),
      admits ow { v := true, s := true, spec := true, zero := true } 1 .laneId, admits ow srcVSZ 4 .zero]) anyTime
      (spawnActs (.s 2) .laneId .zero) := by
  refine ⟨meets0 [] [] ⟨.inr rfl, rfl⟩ (by unfold allOf; decide) trivial (by decide +kernel),
    meets0 [] [] ⟨.inl rfl, rfl⟩ (by unfold allOf; decide) trivial (by decide +kernel),
    meets0 [] [(2, 0x3FF)] ⟨.inl rfl, rfl⟩ (by unfold allOf; decide) trivial (by decide +kernel),
    meetsEffect broodUnder ⟨.inl rfl, rfl⟩ (by unfold allOf; decide) trivial (by decide +kernel)⟩

/-- A TRAP of code 2AH. -/
def trap0 (s : Scope) : FormC NoMods := { h := at_ s 0 0, d := .v 0, a := .v 0, imm := 0x2A, m := {}, g := always }

theorem witness_TrapParks :
    (∃ s q b w, Issuing s q b w ∧ slotHasRoom plain w ∧ noShort s b w ∧ noHeld s ∧ (0x2A#16).toNat < 256) ∧
    ∃ s bid k b sl, AtRendezvous s bid k b sl (.trap (trap0 .block)) ∧ isSet (trap0 .block).h.scope = true ∧ noShortSet s b sl ∧
      noHeld s ∧ (trap0 .block).imm.toNat < 256 ∧ setElements s b k sl (trap0 .block).h (trap0 .block).g 32 ≠ [] :=
  ⟨⟨running [] [], issue0, _, _, issuing0 rfl (warp0_lanes [] []).1 (warp0_lanes [] []).2, fun j _ => room j, .inr rfl, rfl, by decide⟩,
    _, _, _, _, _, atSet_rendezvous _ [] [], rfl, (atSet_short _ [] []).1, (atSet_short _ [] []).2, by decide,
    List.length_pos_iff.1 (by decide +kernel)⟩

/-! ## Memory -/

/-- Loads at a global address, at a thread-local one with windows of 8 bytes, and in scratchpad. -/
theorem witness_LoadsAndPrefetch :
    MeetsEffect plain always false true allScopes
      (fun ow _ => allOf ([admits ow (dstVSZ ow) (regsOfLoad .b64) (.v 4), admits ow srcVS 2 (.s 2)] ++ [admits ow srcVSZ 1 (.v 0)]))
      (noWrings plain .b64 (fun v _ => globalAt (v.val64 1 (.s 2)) (indexed2 (.v 0) 3 v) (sizeOfLoad .b64)) fun _ => 0)
      (eachActs (loadAct (.v 4) .b64 fun v _ => globalAt (v.val64 1 (.s 2)) (indexed2 (.v 0) 3 v) (sizeOfLoad .b64))) ∧
    MeetsEffect plain always false true allScopes
      (fun ow _ => allOf ([admits ow (dstVSZ ow) (regsOfLoad .b32) (.v 4), admits ow srcVS 2 (.s 2)] ++ [])) anyTime
      (eachActs (loadSpAct (.v 4) .b32 (.s 2) fun _ => 4)) ∧
    MeetsEffect plain always false true allScopes
      (fun ow _ => allOf [admits ow srcVS 2 (.s 2)]) anyTime (eachActs fun _ m => some ({}, m)) := by
  refine ⟨meets0 [] [(2, 0x5000)] ⟨.inl rfl, rfl⟩ (by unfold allOf; decide) ?_ (by decide +kernel),
    meets0 [] [(2, 0x100)] ⟨.inl rfl, rfl⟩ (by unfold allOf; decide) trivial (by decide +kernel),
    meets0 [] [(2, 0x5000)] ⟨.inl rfl, rfl⟩ (by unfold allOf; decide) trivial (by decide +kernel)⟩
  intro v hv va h
  have e : (acting plain false (elements (running [] [(2, 0x5000)]) issue0 (block0 (warp0 [] [(2, 0x5000)])) (warp0 [] [(2, 0x5000)])
      plain always 32)).all (fun v => match globalAt (v.val64 1 (.s 2)) (indexed2 (.v 0) 3 v) 8 with
        | none => true
        | some va => ((running [] [(2, 0x5000)]).mach.wringsOfLoad v.mg v va 8 0).isEmpty) = true := by decide +kernel
  have := List.all_eq_true.1 e v hv
  have h' : globalAt (v.val64 1 (.s 2)) (indexed2 (.v 0) 3 v) 8 = some va := h
  rw [h'] at this
  exact List.isEmpty_iff.1 this

theorem witness_MemoryStores :
    MeetsEffect plain always false true allScopes
      (fun ow _ => allOf ([admits ow (dataKinds .b64) (regsOfStore .b64) (.v 4), admits ow srcVS 2 (.s 2)] ++ [admits ow srcVSZ 1 (.v 0)]))
      anyTime (storeActs (storeAct .b64 (.v 4) (storeSources .b64 (.v 4) (.s 2) [⟨2, .v 0, 1⟩])
        fun v _ => globalAt (v.val64 1 (.s 2)) (indexed2 (.v 0) 3 v) (sizeOfStore .b64))) ∧
    MeetsEffect plain always false true allScopes
      (fun ow _ => allOf ([admits ow (dataKinds .b32) (regsOfStore .b32) (.v 4), admits ow srcVS 2 (.s 2)] ++ [])) anyTime
      (storeActs (storeSpAct .b32 (.v 4) (.s 2) (storeSources .b32 (.v 4) (.s 2) []) (fun _ => 4))) := by
  refine ⟨meets0 [] [(2, 0x5000)] ⟨.inl rfl, rfl⟩ (by unfold allOf; decide) trivial (by decide +kernel),
    meets0 [] [(2, 0x100)] ⟨.inl rfl, rfl⟩ (by unfold allOf; decide) trivial (by decide +kernel)⟩

/-- A context whose thread-local windows hold 8 bytes from 0x8000 on. -/
def localCtx : Ctx := { (machine0 (block0 (warp0 [] []))).ctx 0 with tlsLog := 3, tlsBase := 0x8000 }
def localMachine : Mach := (machine0 (block0 (warp0 [] []))).setCtx 0 localCtx

theorem witness_local : ((elements (running [] []) issue0 (block0 (warp0 [] [])) (warp0 [] []) plain always 32).map fun v =>
    localAt localMachine v 4 4) = [some 0x8004, some 0x800C] := by decide +kernel

end Sys2Proof.Tests
end

section
/-! SUPPORT. What the machine holds after reset (R8), register by register: the read rule of each register of a function's
BAR 0 that a Reset column names, the value it gives at reset, and the same for stamps and capability registers. -/

namespace Sys2Proof.Machine

/-! ## Tables that hold nothing -/

/-- An empty table answers the default for every key: what an unwritten register or line reads as. -/
@[simp] theorem tabGet_empty {α : Type} (k : Nat) (d : α) : tabGet (⟨[]⟩ : Tab α) k d = d := rfl

/-- R113: where no line has a stamp and the fast tier has not been swept, every line stands at zero. -/
theorem Mach.lineStamps_unstamped {m : Mach} (h : m.stamps = ⟨[]⟩) (hs : m.swept = false) (line : Nat) :
    m.lineStamps line = ⟨0, 0⟩ := by simp [Mach.lineStamps, h, hs]

/-! ## Capability and clock registers, the same for every reader -/

theorem csrValue_capCore (v : View) (m : Mach) : csrValue v m 0x100 = Config.capCore := rfl
theorem csrValue_capAtom (v : View) (m : Mach) : csrValue v m 0x101 = Config.capAtom.setWidth 64 := rfl
theorem csrValue_capFmt (v : View) (m : Mach) : csrValue v m 0x102 = Config.capFmt.setWidth 64 := rfl
theorem csrValue_clkRef (v : View) (m : Mach) : csrValue v m 0x140 = m.refTicks := rfl

/-! ## What a read of a register of BAR 0 returns -/

section
variable (mg : Mgmt) (m : Mach) (fn : Nat)

theorem readBar_prot : readBar mg m fn .prot = BitVec.ofNat 64 (mg.pways.toNat + boolBit mg.plock * 2 ^ 16) := rfl
theorem readBar_umon :
    readBar mg m fn .umon = BitVec.ofNat 64 (boolBit mg.umonEn + boolBit mg.umonErr * 2 + mg.umonPer.toNat * 2 ^ 8) := rfl
theorem readBar_vdmask (d : Nat) : readBar mg m fn (.vdmask d) = (mg.l2Dev d).masks := rfl
theorem readBar_partLimit (d : Nat) : readBar mg m fn (.partLimit d) = (tabGet mg.spmax d 11).setWidth 64 := rfl
theorem readBar_quota (d : Nat) (second : Bool) :
    readBar mg m fn (.quota d second) = (mg.quotas.getD d Quota.zero).word second := rfl
theorem readBar_quotaStat : readBar mg m fn .quotaStat = BitVec.ofNat 64 (boolBit mg.quotaErr) := rfl
theorem readBar_schedDl (p : Nat) : readBar mg m fn (.schedDl p) = (tabGet mg.schedDl p 200000).setWidth 64 := rfl
theorem readBar_mbStat : readBar mg m fn .mbStat =
    BitVec.ofNat 64 ((mg.fn fn).outSlot.toNat + boolBit mg.alarm * 2 ^ 4 + boolBit mg.dump.isSome * 2 ^ 5) := rfl

end

/-! ## The quotas at reset (R176 to R178) -/

/-- Device 0 holds every unit that the part has, every other device none. -/
theorem Mgmt.reset_quota (d : Nat) :
    Mgmt.reset.quotas.getD d Quota.zero = if d = 0 then Quota.device0 else Quota.zero := by
  cases d with
  | zero => rfl
  | succ n =>
    have hrest : Mgmt.reset.quotas.getD (n + 1) Quota.zero = (List.replicate 63 Quota.zero).getD n Quota.zero := rfl
    rw [hrest, if_neg n.succ_ne_zero]
    simp only [List.getD_eq_getElem?_getD, List.getElem?_replicate]
    split_ifs <;> rfl

/-- The two words of device 0's quotas, whose fields are the capacities. -/
theorem Quota.device0_word (second : Bool) :
    Quota.device0.word second = if second then 0x88040#64 else 0x81040400#64 := by cases second <;> rfl

theorem Quota.zero_word (second : Bool) : Quota.zero.word second = 0 := by cases second <;> rfl

/-- What one device holds exactly exhausts the part, so the sums fit. -/
theorem Mgmt.reset_quotasOk : Mgmt.reset.quotasOk = true := by decide

/-! ## The values of the Reset columns, on any machine -/

section
variable (m : Mach) (fn : Nat)

theorem readBar_quota_reset (d : Nat) (second : Bool) : readBar Mgmt.reset m fn (.quota d second) =
    if d = 0 then (if second then 0x88040#64 else 0x81040400#64) else 0 := by
  rw [readBar_quota, Mgmt.reset_quota]
  split_ifs <;> simp [Quota.device0_word, Quota.zero_word, *]

theorem readBar_vdmask_reset (d : Nat) : readBar Mgmt.reset m fn (.vdmask d) = BitVec.allOnes 64 := by
  simp [readBar_vdmask, Mgmt.l2Dev, Mgmt.reset, L2Dev.reset]

theorem readBar_partLimit_reset (d : Nat) : readBar Mgmt.reset m fn (.partLimit d) = 11 := by
  simp [readBar_partLimit, Mgmt.reset]

theorem readBar_prot_reset : readBar Mgmt.reset m fn .prot = 0 := by simp [readBar_prot, Mgmt.reset, boolBit]

/-- R106: the monitor off, its interval 100000 in the field from bit 8. -/
theorem readBar_umon_reset : readBar Mgmt.reset m fn .umon = 0x186A000#64 := by simp [readBar_umon, Mgmt.reset, boolBit]

theorem readBar_quotaStat_reset : readBar Mgmt.reset m fn .quotaStat = 0 := by
  simp [readBar_quotaStat, Mgmt.reset, boolBit]

theorem readBar_schedDl_reset (p : Nat) : readBar Mgmt.reset m fn (.schedDl p) = 200000#64 := by
  simp [readBar_schedDl, Mgmt.reset]

theorem readBar_mbStat_reset : readBar Mgmt.reset m fn .mbStat = 0 := by
  simp [readBar_mbStat, Mgmt.fn, Mgmt.reset, Fn.reset, boolBit]

end

end Sys2Proof.Machine

open Sys2Proof Sys2Proof.Machine

/-- Settles O60: the tables are empty by the definition of the reset state; every register's value is its reset lemma above. -/
theorem resetStateHoldsItsValues : Obligations.ResetStateHoldsItsValues := by
  unfold Obligations.ResetStateHoldsItsValues
  refine ⟨Mgmt.reset_quotasOk, Mach.reset_memoriesOk, rfl, rfl, rfl, rfl, rfl, fun d _ => ?devices, readBar_prot_reset _ 0,
    readBar_umon_reset _ 0, readBar_quotaStat_reset _ 0, fun p _ => readBar_schedDl_reset _ 0 p, readBar_mbStat_reset _ 0,
    Mach.lineStamps_unstamped rfl rfl, fun v => ?csrs⟩
  case devices =>
    exact ⟨readBar_quota_reset _ 0 d false, readBar_quota_reset _ 0 d true, readBar_vdmask_reset _ 0 d, readBar_partLimit_reset _ 0 d⟩
  case csrs =>
    exact ⟨csrValue_capCore v _, csrValue_capAtom v _, csrValue_capFmt v _, csrValue_clkRef v _⟩
end

section
/-! SUPPORT. Steps that end things: drains, posted writes that arrive, launches that complete, blocks that stop, contexts that are
reset. What none of them undoes (`Mach.Ends`), and what a forced reset leaves (R268). -/

namespace Sys2Proof.Machine

variable {α β : Type}

/-! ## Tables -/

theorem tabHas_iff_mem_keys (t : Tab α) (k : Nat) : tabHas t k = true ↔ k ∈ tabKeys t := by
  unfold tabHas tabFind tabKeys
  induction t.cells with
  | nil => simp [cellsFind]
  | cons c r ih =>
    obtain ⟨j, y⟩ := c
    simp only [cellsFind, List.map_cons, List.mem_cons]
    split_ifs with e
    · simp [e]
    · simp [ih, Ne.symm e]

@[simp] theorem tabHas_mod (t : Tab α) (k j : Nat) (f : α → α) : tabHas (tabMod t k f) j = tabHas t j := by
  unfold tabHas
  rw [tabFind_mod]
  split_ifs with e
  · subst e; simp
  · rfl

theorem tabGet_mod (t : Tab α) (k j : Nat) (f : α → α) (d : α) :
    tabGet (tabMod t k f) j d = if j = k ∧ tabHas t k = true then f (tabGet t k d) else tabGet t j d := by
  unfold tabGet tabHas
  rw [tabFind_mod]
  cases h : tabFind t k <;> by_cases e : j = k <;> simp_all

theorem tabGet_of_not_has {t : Tab α} {k : Nat} (d : α) (h : tabHas t k = false) : tabGet t k d = d := by
  unfold tabHas at h
  unfold tabGet
  rw [Option.isSome_eq_false_iff, Option.isNone_iff_eq_none] at h
  rw [h]; rfl

theorem tabMod_rising (t : Tab α) (k : Nat) (f : α → α) (h : cellsRising t.cells = true) :
    cellsRising (tabMod t k f).cells = true := by
  unfold tabMod
  split
  · exact h
  · exact tabSet_rising t k _ h

/-- The entry of a rising table is the one that a search finds. -/
theorem cellsFind_of_mem {l : List (Nat × α)} (h : cellsRising l = true) {k : Nat} {x : α} (hm : (k, x) ∈ l) :
    cellsFind k l = some x := by
  induction l with
  | nil => cases hm
  | cons c r ih =>
    obtain ⟨j, y⟩ := c
    obtain ⟨ha, hr⟩ := (cellsRising_cons _ _).1 h
    rcases List.mem_cons.1 hm with e | hm
    · cases e; simp [cellsFind]
    · have : j < k := ha _ hm
      simp only [cellsFind]
      rw [if_neg (by omega), ih hr hm]

/-- An erased key is no longer in a rising table. -/
theorem not_mem_cellsErase {l : List (Nat × α)} (h : cellsRising l = true) {k : Nat} {x : Nat × α} (hm : x ∈ cellsErase k l) :
    x.1 ≠ k := by
  intro e
  have g := cellsFind_of_mem (cellsErase_rising k h) (show (k, x.2) ∈ cellsErase k l from e ▸ hm)
  rw [cellsFind_erase _ _ h, if_pos rfl] at g
  cases g

/-! ## Contexts and queues after an update -/

theorem Mach.ctx_modCtx (m : Mach) (c j : Nat) (f : Ctx → Ctx) :
    (m.modCtx c f).ctx j = if j = c ∧ tabHas m.ctxs c = true then f (m.ctx c) else m.ctx j := tabGet_mod ..

theorem Mach.ctx_of_not_has {m : Mach} {c : Nat} (h : tabHas m.ctxs c = false) : m.ctx c = Ctx.created := tabGet_of_not_has _ h

theorem Mach.queue_modQueue (m : Mach) (q j : Nat) (f : Queue → Queue) :
    (m.modQueue q f).queue j = if j = q then f (m.queue q) else m.queue j := by
  simp only [Mach.queue, Mach.modQueue_queues, tabGet_set]

/-! ## What no ending undoes -/

/-- The tables that say what runs and what is owed. -/
def Mach.tables (m : Mach) : Tab Block × Tab Launch × Tab Ctx × Tab Queue × List PressReq × List Nat × Tab Ide :=
  (m.blocks, m.launches, m.ctxs, m.queues, m.presses, m.unreach, m.ide)

/-- What is empty in a context stays empty, and no entry of its fault queue goes. -/
structure Ctx.Ends (c c' : Ctx) : Prop where
  press   : c.press = ⟨[]⟩ → c'.press = ⟨[]⟩
  regions : c.regions = [] → c'.regions = []
  holds   : c.holds = [] → c'.holds = []
  world   : c.world = none → c'.world = none
  entries : ∀ e ∈ c.fq, ∃ e' ∈ c'.fq, e'.kind = e.kind ∧ e'.info0 = e.info0 ∧ e'.info1 = e.info1
  lost    : c.fqOvf = true → c'.fqOvf = true

theorem Ctx.Ends.refl (c : Ctx) : c.Ends c := ⟨id, id, id, id, fun e he => ⟨e, he, rfl, rfl, rfl⟩, id⟩

theorem Ctx.Ends.trans {a b c : Ctx} (h : a.Ends b) (g : b.Ends c) : a.Ends c where
  press := g.press ∘ h.press
  regions := g.regions ∘ h.regions
  holds := g.holds ∘ h.holds
  world := g.world ∘ h.world
  entries e he := by
    obtain ⟨e', he', k1, k2, k3⟩ := h.entries e he
    obtain ⟨e'', he'', l1, l2, l3⟩ := g.entries e' he'
    exact ⟨e'', he'', l1.trans k1, l2.trans k2, l3.trans k3⟩
  lost := g.lost ∘ h.lost

/-- A change that leaves the fault queue and empties or leaves the rest. -/
theorem Ctx.Ends.of_sameFq {c c' : Ctx} (press : c.press = ⟨[]⟩ → c'.press = ⟨[]⟩) (regions : c.regions = [] → c'.regions = [])
    (holds : c.holds = [] → c'.holds = []) (world : c.world = none → c'.world = none) (fq : c'.fq = c.fq)
    (ovf : c'.fqOvf = c.fqOvf) : c.Ends c' :=
  ⟨press, regions, holds, world, fun e he => ⟨e, fq ▸ he, rfl, rfl, rfl⟩, fun h => ovf.trans h⟩

/-- A queue that its context's reset faulted (R268). -/
def Queue.faulted5 (q : Queue) : Prop := q.state = .faulted ∧ q.fcause = 5

/-- From `m` to `m'` things end: no block, launch or press request is new, no context comes or goes, what is empty in a context stays
empty and its fault queue keeps its entries, no queue is bound, and one that a reset faulted stays so. -/
structure Mach.Ends (m m' : Mach) : Prop where
  rise     : tablesRise m → tablesRise m'
  blocks   : ∀ x ∈ m'.blocks.cells, x ∈ m.blocks.cells
  launches : ∀ x ∈ m'.launches.cells, x ∈ m.launches.cells
  has      : ∀ c, tabHas m'.ctxs c = tabHas m.ctxs c
  ctx      : ∀ c, (m.ctx c).Ends (m'.ctx c)
  queues   : ∀ q c, (m'.queue q).ctx = some c → (m.queue q).ctx = some c ∧ ((m.queue q).faulted5 → (m'.queue q).faulted5)
  presses  : ∀ r' ∈ m'.presses, ∃ r ∈ m.presses, r.id = r'.id ∧ r.target = r'.target
  unreach  : m'.unreach = m.unreach
  ide      : m'.ide = m.ide

theorem Mach.Ends.refl (m : Mach) : m.Ends m :=
  ⟨id, fun _ => id, fun _ => id, fun _ => rfl, fun _ => .refl _, fun _ _ h => ⟨h, id⟩, fun r hr => ⟨r, hr, rfl, rfl⟩, rfl, rfl⟩

theorem Mach.Ends.trans {a b c : Mach} (h : a.Ends b) (g : b.Ends c) : a.Ends c where
  rise := g.rise ∘ h.rise
  blocks x hx := h.blocks x (g.blocks x hx)
  launches x hx := h.launches x (g.launches x hx)
  has k := (g.has k).trans (h.has k)
  ctx k := (h.ctx k).trans (g.ctx k)
  queues q k hk :=
    have ⟨g1, g2⟩ := g.queues q k hk
    have ⟨h1, h2⟩ := h.queues q k g1
    ⟨h1, g2 ∘ h2⟩
  presses r'' hr'' := by
    obtain ⟨r', hr', g1, g2⟩ := g.presses r'' hr''
    obtain ⟨r, hr, h1, h2⟩ := h.presses r' hr'
    exact ⟨r, hr, h1.trans g1, h2.trans g2⟩
  unreach := g.unreach.trans h.unreach
  ide := g.ide.trans h.ide

/-- One step after another. -/
theorem Mach.Ends.foldl {f : Mach → β → Mach} (h : ∀ (m : Mach) b, m.Ends (f m b)) (l : List β) (m : Mach) : m.Ends (l.foldl f m) :=
  List.foldlRecOn (motive := fun x => m.Ends x) l f (.refl m) fun x hx b _ => hx.trans (h x b)

/-- What leaves the tables ends nothing. -/
theorem Mach.Ends.of_tables {m m' : Mach} (h : m'.tables = m.tables) : m.Ends m' := by
  simp only [Mach.tables, Prod.mk.injEq] at h
  obtain ⟨hb, hl, hc, hq, hp, hu, hi⟩ := h
  refine ⟨?_, ?_, ?_, ?_, ?_, ?_, ?_, hu, hi⟩
  · simp only [tablesRise, hb, hl, hc]; exact id
  · rw [hb]; exact fun _ => id
  · rw [hl]; exact fun _ => id
  · simp [hc]
  · intro c; rw [show m'.ctx c = m.ctx c by simp only [Mach.ctx, hc]]; exact .refl _
  · intro q c hk
    rw [show m'.queue q = m.queue q by simp only [Mach.queue, hq]] at hk ⊢
    exact ⟨hk, id⟩
  · rw [hp]; exact fun r hr => ⟨r, hr, rfl, rfl⟩

theorem Mach.Ends.after {a b c : Mach} (g : b.Ends c) (h : b.tables = a.tables) : a.Ends c := (Mach.Ends.of_tables h).trans g

theorem Mach.Ends.modCtx {m : Mach} {c : Nat} {f : Ctx → Ctx} (h : (m.ctx c).Ends (f (m.ctx c))) : m.Ends (m.modCtx c f) where
  rise := fun ⟨h1, h2, h3⟩ => ⟨h1, h2, tabMod_rising _ _ _ h3⟩
  blocks _ := id
  launches _ := id
  has k := tabHas_mod ..
  ctx k := by
    rw [Mach.ctx_modCtx]
    split_ifs with e
    · exact e.1 ▸ h
    · exact .refl _
  queues _ _ hk := ⟨hk, id⟩
  presses r hr := ⟨r, hr, rfl, rfl⟩
  unreach := rfl
  ide := rfl

theorem Mach.Ends.modQueue {m : Mach} {q : Nat} {f : Queue → Queue} (hc : (f (m.queue q)).ctx = (m.queue q).ctx)
    (hf : (m.queue q).faulted5 → (f (m.queue q)).faulted5) : m.Ends (m.modQueue q f) :=
  { Mach.Ends.refl m with
    queues := fun j c hj => by
      rw [Mach.queue_modQueue] at hj ⊢
      split_ifs at hj ⊢ with e
      · subst e; exact ⟨hc ▸ hj, hf⟩
      · exact ⟨hj, id⟩ }

/-- Press requests that leave, or go on with their number and target. -/
theorem Mach.Ends.of_presses {m m' : Mach} (h : ({ m' with presses := m.presses } : Mach).tables = m.tables)
    (g : ∀ r' ∈ m'.presses, ∃ r ∈ m.presses, r.id = r'.id ∧ r.target = r'.target) : m.Ends m' :=
  have e : m.Ends ({ m' with presses := m.presses } : Mach) := .of_tables h
  { rise := e.rise, blocks := e.blocks, launches := e.launches, has := e.has, ctx := e.ctx, queues := e.queues, presses := g
    unreach := e.unreach, ide := e.ide }

/-! ## Fault-queue entries -/

theorem Mach.fqPush_ends (m : Mach) (ctx kind : Nat) (info : BitVec 64 × BitVec 64 × BitVec 64) (recs : List (BitVec 256))
    (hold : Option (BitVec 16)) (region : Option Nat) : m.Ends (m.fqPush ctx kind info recs hold region) := by
  refine .modCtx ?_
  split_ifs
  · exact ⟨id, id, id, id, fun e he => ⟨e, he, rfl, rfl, rfl⟩, fun _ => rfl⟩
  · exact ⟨id, id, id, id, fun e he => ⟨e, List.mem_append_left _ he, rfl, rfl, rfl⟩, id⟩

/-- R283: the entry is in the queue of a context that is there, or counted as dropped. -/
theorem Mach.fqPush_entry (m : Mach) {ctx : Nat} (kind : Nat) (info : BitVec 64 × BitVec 64 × BitVec 64) (recs : List (BitVec 256))
    (hold : Option (BitVec 16)) (region : Option Nat) (h : tabHas m.ctxs ctx = true) :
    (∃ e ∈ ((m.fqPush ctx kind info recs hold region).ctx ctx).fq, e.kind = kind ∧ e.info0 = info.1 ∧ e.info1 = info.2.1) ∨
      ((m.fqPush ctx kind info recs hold region).ctx ctx).fqOvf = true := by
  rw [Mach.fqPush, Mach.ctx_modCtx, if_pos ⟨rfl, h⟩]
  split_ifs
  · exact .inr rfl
  · exact .inl ⟨_, List.mem_append_right _ (List.mem_singleton_self _), rfl, rfl, rfl⟩

/-- What a queue or its overflow mark shows, it goes on showing. -/
theorem Ctx.Ends.entry {c c' : Ctx} (h : c.Ends c') {p : Nat → BitVec 64 → BitVec 64 → Prop}
    (g : (∃ e ∈ c.fq, p e.kind e.info0 e.info1) ∨ c.fqOvf = true) :
    (∃ e ∈ c'.fq, p e.kind e.info0 e.info1) ∨ c'.fqOvf = true := by
  refine g.imp ?_ h.lost
  rintro ⟨e, he, hp⟩
  obtain ⟨e', he', k1, k2, k3⟩ := h.entries e he
  exact ⟨e', he', k1 ▸ k2 ▸ k3 ▸ hp⟩

/-! ## Accesses to memory leave the tables -/

@[simp] theorem Mach.unhold_tables (m : Mach) (line : Nat) : (m.unhold line).tables = m.tables := by
  unfold Mach.unhold; split <;> rfl

@[simp] theorem Mach.recallFor_tables (m : Mach) (cluster : Option Nat) (line : Nat) : (m.recallFor cluster line).tables = m.tables := by
  rw [← m.unhold_tables line]
  unfold Mach.recallFor
  lift_lets
  intro m1
  split
  · rfl
  · split_ifs <;> rfl

@[simp] theorem Mach.leaseLine_tables (m : Mach) (line pts : Nat) : (m.leaseLine line pts).2.tables = m.tables := rfl
@[simp] theorem Mach.stampLine_tables (m : Mach) (line pts : Nat) : (m.stampLine line pts).2.tables = m.tables := rfl

@[simp] theorem Mach.clearGranule_tables (m : Mach) (g : Nat) : (m.clearGranule g).tables = m.tables := by
  unfold Mach.clearGranule; split_ifs <;> rfl

@[simp] theorem Mach.openLine_tables (m : Mach) (w : Option (Option Nat)) (line : Nat) : (m.openLine w line).tables = m.tables := by
  unfold Mach.openLine
  split
  · rfl
  · split <;> simp only [Mach.tables]
  · split <;> simp only [Mach.tables]
  · simp only [Mach.tables]

@[simp] theorem Mach.putBytes_tables (m : Mach) (w : Option (Option Nat)) (pa : Nat) (bs : List Byte) :
    (m.putBytes w pa bs).tables = m.tables :=
  (Mach.openLine_tables _ w (lineOf pa)).trans (m.clearGranule_tables (granuleOf pa))

@[simp] theorem Mach.watchLine_tables (m : Mach) (mg : Mgmt) (dev line : Nat) : (m.watchLine mg dev line).tables = m.tables := by
  unfold Mach.watchLine; dsimp only; split_ifs <;> rfl

@[simp] theorem Mach.allocLine_tables (m : Mach) (mg : Mgmt) (dev : Nat) (tc : Traffic) (write sealed_ : Bool) (line : Nat) :
    (m.allocLine mg dev tc write sealed_ line).tables = m.tables := by
  rw [← m.watchLine_tables mg dev line]
  unfold Mach.allocLine
  lift_lets
  intro m1 m2
  split
  · rfl
  · split
    · rfl
    · split <;> rfl

@[simp] theorem Mach.storeDev_tables (m : Mach) (mg : Mgmt) (a : Actor) (l : Leaf) (tc : Traffic) (pa : Nat) (bs : List Byte)
    (pts : Nat) : (m.storeDev mg a l tc pa bs pts).2.tables = m.tables := by
  unfold Mach.storeDev
  dsimp only
  have setL1 (m : Mach) (core line : Nat) (c : L1Copy) : (m.setL1 core line c).tables = m.tables := rfl
  split <;> simp [setL1]

@[simp] theorem Mach.readEntry_tables (m : Mach) (pa : Nat) : (m.readEntry pa).2.tables = m.tables := by
  unfold Mach.readEntry; split_ifs <;> simp

@[simp] theorem Mach.walk_tables (m : Mach) (table va : Nat) (lvs : List Level) : (m.walk table va lvs).2.tables = m.tables := by
  induction lvs generalizing m table with
  | nil => rfl
  | cons lv rest ih =>
    have hr := m.readEntry_tables (table + 8 * ((va >>> lv.shift) % 2 ^ lv.bits))
    unfold Mach.walk
    split
    · rfl
    · lift_lets
      intro pa
      split
      · rename_i h; rw [h] at hr; exact hr
      · rename_i h
        rw [h] at hr
        split
        · exact hr
        · split
          · split
            · exact hr
            · lift_lets
              intro big log'
              split
              · exact hr
              · split
                · exact hr
                · split <;> exact hr
          · split
            · exact hr
            · exact (ih _ _).trans hr

@[simp] theorem Mach.translate_tables (m : Mach) (a : Actor) (va : Nat) : (m.translate a va).2.tables = m.tables := by
  have hw := m.walk_tables (m.ctx a.ctx).ptRoot va levels
  unfold Mach.translate
  lift_lets
  intro c
  split
  · rfl
  · split
    · rfl
    · split
      · rename_i h; rw [h] at hw; exact hw
      · rename_i h
        rw [h] at hw
        dsimp only
        split <;> exact hw

/-! ## Drains -/

@[simp] theorem Mach.drainTracker_tables (m : Mach) (t : Tracker) (int : Bool) : (m.drainTracker t int).tables = m.tables := rfl

theorem Mach.drainAll_ends (m : Mach) (p : Tracker → Bool) : m.Ends (m.drainAll p) :=
  .foldl (fun m t => .of_tables (m.drainTracker_tables t _)) _ m

theorem Mach.applyDrain_ends (m : Mach) (d : Drain) : m.Ends (m.applyDrain d) := by
  unfold Mach.applyDrain
  dsimp only
  split_ifs
  · exact .after (Mach.fqPush_ends ..) rfl
  · refine .after (.foldl (fun m c => .of_tables (m.putBytes_tables ..)) _ _) ?_
    simp; rfl

theorem Mach.applyDrains_ends (m : Mach) (p : Drain → Bool) : m.Ends (m.applyDrains p) := .foldl Mach.applyDrain_ends _ m

theorem Mach.wringNow_ends (m : Mach) (line : Nat) : m.Ends (m.wringNow line) := (m.drainAll_ends _).trans (Mach.applyDrains_ends ..)

/-! ## Posted writes -/

theorem Mach.farWrite_ends (m : Mach) (p : Place) (bs : List Byte) : m.Ends (m.farWrite p bs) := by
  cases p <;> exact .of_tables rfl

theorem Mach.postError_ends (m : Mach) (ctx : Nat) (own : Bool) (va : BitVec 48) (peer : Bool) (status : Nat) :
    m.Ends (m.postError ctx own va peer status) := by
  unfold Mach.postError
  split
  · exact .refl m
  · exact Mach.fqPush_ends ..

/-- DONE goes on; nothing else of the queue changes. -/
theorem Queue.advance_keeps (q : Queue) (n : Nat) :
    (q.advance n).ctx = q.ctx ∧ (q.advance n).state = q.state ∧ (q.advance n).fcause = q.fcause := by
  induction n generalizing q with
  | zero => exact ⟨rfl, rfl, rfl⟩
  | succ n ih =>
    unfold Queue.advance
    dsimp only
    split_ifs
    · exact ih _
    · exact ⟨rfl, rfl, rfl⟩

theorem Mach.countDone_ends (m : Mach) (queue seq : Nat) : m.Ends (m.countDone queue seq) := by
  refine .modQueue ?_ ?_
  · exact (Queue.advance_keeps _ _).1
  · rintro ⟨h1, h2⟩
    obtain ⟨-, k1, k2⟩ := Queue.advance_keeps { m.queue queue with beyond := seq :: (m.queue queue).beyond }
      (seq :: (m.queue queue).beyond).length
    exact ⟨k1.trans h1, k2.trans h2⟩

theorem Mach.unwritten_ends (m : Mach) (ctx queue seq : Nat) : m.Ends (m.unwritten ctx queue seq) := by
  unfold Mach.unwritten
  dsimp only
  split_ifs
  · exact (Mach.fqPush_ends ..).trans (Mach.countDone_ends ..)
  · refine (Mach.fqPush_ends ..).trans (.modCtx ⟨id, id, id, id, fun e he => ?_, id⟩)
    obtain ⟨i, hi, rfl⟩ := List.mem_iff_getElem.1 he
    refine ⟨_, List.mem_map.2 ⟨(_, i), List.mem_zipIdx_iff_getElem?.2 (List.getElem?_eq_getElem hi), rfl⟩, ?_⟩
    dsimp only
    split_ifs <;> exact ⟨rfl, rfl, rfl⟩

theorem Mach.arriveHost_ends (m : Mach) (x : Posted) : m.Ends (m.arriveHost x) := by
  unfold Mach.arriveHost
  split
  · exact Mach.postError_ends ..
  · exact Mach.farWrite_ends ..
  · exact Mach.unwritten_ends ..
  · exact (Mach.farWrite_ends ..).trans (Mach.countDone_ends ..)

theorem Mach.arrivePosted_ends (m : Mach) (x : Posted) : m.Ends (m.arrivePosted x) := by
  unfold Mach.arrivePosted
  split
  · exact Mach.arriveHost_ends ..
  · split_ifs
    · exact .after (Mach.postError_ends ..) rfl
    · exact Mach.farWrite_ends ..
  · exact .refl m
  · exact .refl m

theorem Mach.deliverAll_ends (m : Mach) (p : Posted → Bool) : m.Ends (m.deliverAll p) :=
  .after (.foldl Mach.arrivePosted_ends _ _) rfl

theorem Mach.sendFar_ends (m : Mach) (ctx : Nat) (p : Place) (bs : List Byte) : m.Ends (m.sendFar ctx p bs) := by
  unfold Mach.sendFar
  dsimp only
  split_ifs
  · exact .of_tables rfl
  · exact Mach.arrivePosted_ends ..

/-! ## Worlds, regions and launches that end -/

theorem Mach.sendCombined_ends (m : Mach) (ctx : Nat) : m.Ends (m.sendCombined ctx) := by
  refine .of_presses rfl fun r' hr' => ?_
  rcases List.mem_append.1 hr' with h | h
  · exact ⟨r', (List.mem_filter.1 h).1, rfl, rfl⟩
  · obtain ⟨r, hr, rfl⟩ := List.mem_map.1 h
    exact ⟨r, (List.mem_filter.1 hr).1, rfl, rfl⟩

theorem Mach.endWorld_ends (m : Mach) (ctx : Nat) : m.Ends (m.endWorld ctx) := by
  unfold Mach.endWorld
  split
  · exact .refl m
  · exact (Mach.drainAll_ends ..).trans <| (Mach.applyDrains_ends ..).trans <| (Mach.sendCombined_ends ..).trans <|
      .after (.modCtx (.of_sameFq id id id (fun _ => rfl) rfl rfl)) rfl

/-- R318: the context has no world then. -/
theorem Mach.endWorld_world (m : Mach) (ctx : Nat) : ((m.endWorld ctx).ctx ctx).world = none := by
  unfold Mach.endWorld
  split
  · assumption
  · rw [Mach.ctx_modCtx]
    split_ifs with h
    · rfl
    · rw [Mach.ctx_of_not_has (by simpa using h)]; rfl

theorem Mach.releaseRegions_ends (m : Mach) (ctx launch : Nat) : m.Ends (m.releaseRegions ctx launch) := by
  unfold Mach.releaseRegions
  lift_lets
  intro last gone m1 m2
  have h1 : m.Ends m1 := m.drainAll_ends _
  have h2 : m1.Ends m2 := by
    unfold m2
    split
    · exact .refl _
    · exact Mach.applyDrains_ends ..
  exact h1.trans (h2.trans (.modCtx (.of_sameFq id (fun h => by simp [h]) id id rfl rfl)))

theorem Mach.writeCompletion_ends (m : Mach) (mg : Mgmt) (l : Launch) (launch word : Nat) :
    m.Ends (m.writeCompletion mg l launch word).2 := by
  have ht : m.Ends (m.translate (engineOf l.ctx launch 0) l.rec_.cpla.toNat).2 := .of_tables (m.translate_tables ..)
  unfold Mach.writeCompletion
  lift_lets
  intro a va
  split
  · rename_i h; rw [h] at ht; exact ht
  · rename_i leaf m1 h
    rw [h] at ht
    have hd : m1.Ends (m1.deliverAll fun x => x.ctx == l.ctx) := Mach.deliverAll_ends ..
    split
    · exact ht
    · split
      · exact ht
      · split
        · exact ht
        · exact ht.trans ((Mach.wringNow_ends ..).trans (.of_tables (Mach.storeDev_tables ..)))
      · lift_lets
        intro m2
        split
        · exact ht.trans hd
        · split
          · exact ht.trans (hd.trans (.of_tables rfl))
          · exact ht.trans (hd.trans (m2.farWrite_ends (.host _) (bytesOfNat word 4)))
      · split
        · exact ht
        · exact ht.trans (hd.trans (Mach.sendFar_ends _ l.ctx (.peer _ _) (bytesOfNat word 4)))
      · exact ht

/-- A launch leaves the table. -/
theorem Mach.Ends.eraseLaunch (m : Mach) (k : Nat) : m.Ends { m with launches := tabErase m.launches k } :=
  { Mach.Ends.refl m with
    rise := fun ⟨h1, h2, h3⟩ => ⟨h1, tabErase_rising _ _ h2, h3⟩
    launches := fun _ h => mem_cellsErase h }

/-- A completion is a change before the launch leaves the table, and one after it. -/
theorem Mach.completeLaunch_split (m : Mach) (mg : Mgmt) {launch : Nat} (status detail : Nat) {l : Launch}
    (h : m.launch? launch = some l) :
    ∃ m1, m.Ends m1 ∧ ({ m1 with launches := tabErase m1.launches launch } : Mach).Ends (m.completeLaunch mg launch status detail) := by
  unfold Mach.completeLaunch
  split
  · rename_i h'; rw [h] at h'; cases h'
  rename_i l' h'
  obtain rfl : l = l' := Option.some.inj (h.symm.trans h')
  lift_lets
  intro m1 m2 noWord
  have h2 : m.Ends m2 := by
    unfold m2
    split
    · exact (Mach.releaseRegions_ends ..).trans (m1.endWorld_ends _)
    · exact Mach.releaseRegions_ends ..
  have h3 : m2.Ends (if noWord = true then (WordFate.written, m2) else m2.writeCompletion mg l launch (status + detail * 256)).2 := by
    split
    · exact .refl _
    · exact Mach.writeCompletion_ends ..
  split
  rename_i fate m3 e
  rw [e] at h3
  refine ⟨m3, h2.trans h3, ?_⟩
  dsimp only
  split
  · exact Mach.countDone_ends ..
  · exact Mach.unwritten_ends ..
  · exact .refl _

theorem Mach.completeLaunch_ends (m : Mach) (mg : Mgmt) (launch status detail : Nat) :
    m.Ends (m.completeLaunch mg launch status detail) := by
  cases h : m.launch? launch with
  | none => simp only [Mach.completeLaunch, h]; exact .refl m
  | some l =>
    obtain ⟨m1, h1, h2⟩ := m.completeLaunch_split mg status detail h
    exact h1.trans ((Mach.Ends.eraseLaunch m1 launch).trans h2)

theorem Mach.completeLaunch_gone {m : Mach} (hr : tablesRise m) (mg : Mgmt) (launch status detail : Nat) :
    ∀ x ∈ (m.completeLaunch mg launch status detail).launches.cells, x.1 ≠ launch := by
  intro x hx
  cases h : m.launch? launch with
  | none =>
    simp only [Mach.completeLaunch, h] at hx
    rintro rfl
    have := cellsFind_of_mem hr.2.1 (show (x.1, x.2) ∈ _ from hx)
    rw [Mach.launch?, tabFind, this] at h
    cases h
  | some l =>
    obtain ⟨m1, h1, h2⟩ := m.completeLaunch_split mg status detail h
    exact not_mem_cellsErase (h1.rise hr).2.1 (h2.launches x hx)

/-! ## Blocks that stop -/

theorem Mach.Ends.eraseBlock (m : Mach) (bid : Nat) : m.Ends { m with blocks := tabErase m.blocks bid } :=
  { Mach.Ends.refl m with
    rise := fun ⟨h1, h2, h3⟩ => ⟨tabErase_rising _ _ h1, h2, h3⟩
    blocks := fun _ h => mem_cellsErase h }

/-- Stopping a block changes its core, the blocks, what waits for them, and its context's holds. -/
theorem Mach.stopBlock_cases (m : Mach) (bid : Nat) :
    (m.block? bid = none ∧ m.stopBlock bid = m) ∨ ∃ b cores wrung gate, m.block? bid = some b ∧
      m.stopBlock bid = { ({ m with blocks := tabErase m.blocks bid } : Mach).modCtx b.ctx fun c =>
        { c with holds := c.holds.filter (·.bid != bid) } with cores := cores, wrung := wrung, gate := gate } := by
  unfold Mach.stopBlock
  split
  · exact .inl ⟨by assumption, rfl⟩
  · rename_i b h
    lift_lets
    intro m1 m2 m3
    split
    · exact .inr ⟨b, _, _, _, h, rfl⟩
    · exact .inr ⟨b, _, _, _, h, rfl⟩

theorem Mach.stopBlock_ends (m : Mach) (bid : Nat) : m.Ends (m.stopBlock bid) := by
  obtain ⟨-, e⟩ | ⟨b, cores, wrung, gate, -, e⟩ := m.stopBlock_cases bid
  · rw [e]; exact .refl m
  · rw [e]
    exact (Mach.Ends.eraseBlock m bid).trans <| .trans
      (.modCtx (f := fun c => { c with holds := c.holds.filter (·.bid != bid) }) (.of_sameFq id id (fun h => by simp [h]) id rfl rfl))
      (.of_tables rfl)

theorem Mach.stopBlock_blocks {m : Mach} (h : cellsRising m.blocks.cells = true) (bid k : Nat) :
    tabFind (m.stopBlock bid).blocks k = if k = bid then none else tabFind m.blocks k := by
  obtain ⟨hn, e⟩ | ⟨b, cores, wrung, gate, -, e⟩ := m.stopBlock_cases bid
  · rw [e]
    split_ifs with hk
    · exact hk ▸ hn
    · rfl
  · rw [e]; exact tabFind_erase m.blocks bid k h

theorem Mach.stopBlocks_ends (m : Mach) (l : List Nat) : m.Ends (l.foldl Mach.stopBlock m) := .foldl Mach.stopBlock_ends l m

/-- The blocks that are left are those that were not stopped. -/
theorem Mach.stopBlocks_blocks {m : Mach} (h : tablesRise m) (l : List Nat) (k : Nat) :
    tabFind (l.foldl Mach.stopBlock m).blocks k = if k ∈ l then none else tabFind m.blocks k := by
  induction l generalizing m with
  | nil => simp
  | cons bid r ih =>
    rw [List.foldl_cons, ih ((m.stopBlock_ends bid).rise h), Mach.stopBlock_blocks h.1]
    by_cases e : k = bid <;> simp [e]

theorem Mach.mem_blocksOf {m : Mach} (h : tablesRise m) {p : Block → Bool} {k : Nat} {b : Block} (hb : tabFind m.blocks k = some b) :
    k ∈ m.blocksOf p ↔ p b = true := by
  simp only [Mach.blocksOf, List.mem_map, List.mem_filter]
  constructor
  · rintro ⟨⟨j, x⟩, ⟨hm, hp⟩, rfl⟩
    obtain rfl : b = x := Option.some.inj (hb.symm.trans (cellsFind_of_mem h.1 hm))
    exact hp
  · exact fun hp => ⟨(k, b), ⟨cellsFind_mem hb, hp⟩, rfl⟩

/-- Once the blocks for which `p` holds have stopped, the others are left as they were. -/
theorem Mach.stopBlocksOf_blocks {m : Mach} (h : tablesRise m) (p : Block → Bool) (k : Nat) :
    tabFind ((m.blocksOf p).foldl Mach.stopBlock m).blocks k = (tabFind m.blocks k).filter fun b => !p b := by
  rw [Mach.stopBlocks_blocks h]
  cases hb : tabFind m.blocks k with
  | none => simp
  | some b => cases hp : p b <;> simp [Mach.mem_blocksOf h hb, hp, Option.filter]

/-! ## Forced resets (R268), part by part -/

/-- What is open of the context is discarded once its world has ended: but for requests of other modules and what the world sent. -/
def Mach.discard (m : Mach) (ctx : Nat) : Mach :=
  let sent := if (m.ctx ctx).world.isSome then (m.presses.filter fun p => p.ctx == ctx && p.comb.isSome).map (·.id) else []
  let m := m.endWorld ctx
  let stays (p : PressReq) : Bool := p.ctx != ctx || p.remote.isSome || sent.contains p.id
  { m with
    presses := m.presses.filter stays
    heldBy := tabFilter (fun _ id => m.presses.any fun p => p.id == id && stays p) m.heldBy
    shares := m.shares.filter fun s => !(m.trackers.any fun t => t.ctx == ctx && t.holder == s.holder && t.line == s.line)
      && !(m.drains.any fun d => d.ctx == ctx && d.holder == s.holder && d.line == s.line)
    trackers := m.trackers.filter (·.ctx != ctx)
    drains := m.drains.filter (·.ctx != ctx)
    claims := ⟨[]⟩ }

/-- The context's own tables are emptied. -/
def Ctx.cleared (c : Ctx) : Ctx :=
  { c with press := ⟨[]⟩, regions := [], holds := [], deadline := none, stuckInt := none, stuckExt := none,
           run := if c.run == .switchedOut then .switchedOut else .running }

/-- Its launches complete as RESET. -/
def Mach.resetLaunches (m : Mach) (mg : Mgmt) (ctx : Nat) : Mach :=
  ((m.launches.cells.filter fun l => l.2.ctx == ctx).map (·.1)).foldl (fun m l => m.completeLaunch mg l 4 0) m

/-- One of its queues stops with cause 5 and an entry. -/
def Mach.resetQueue (ctx : Nat) (m : Mach) (q : Nat) : Mach :=
  let m := m.modQueue q fun x => { x with state := .faulted, fcause := 5, woken := false }
  m.fqPush ctx 7 (BitVec.ofNat 64 q, 5, BitVec.ofNat 64 (m.queue q).head.toNat) [] none none

/-- The queues that are bound to a context. -/
def Mach.queuesOf (m : Mach) (ctx : Nat) : List Nat := (m.queues.cells.filter fun q => q.2.ctx == some ctx).map (·.1)

/-- A reset up to its fatal entry. -/
def Mach.resetBody (m : Mach) (mg : Mgmt) (ctx : Nat) : Mach :=
  (((((m.blocksOf (·.ctx == ctx)).foldl Mach.stopBlock m).discard ctx).modCtx ctx Ctx.cleared).resetLaunches mg ctx)

/-- A reset with its fatal entry. -/
def Mach.resetRaised (m : Mach) (mg : Mgmt) (ctx why : Nat) : Mach :=
  (m.resetBody mg ctx).fqPush ctx 10 (BitVec.ofNat 64 why, 0, 0) [] none none

theorem Mach.forcedReset_eq (m : Mach) (mg : Mgmt) (ctx why : Nat) : m.forcedReset mg ctx why =
    ((m.resetRaised mg ctx why).queuesOf ctx).foldl (Mach.resetQueue ctx) (m.resetRaised mg ctx why) := rfl

theorem Mach.discard_ends (m : Mach) (ctx : Nat) : m.Ends (m.discard ctx) :=
  (m.endWorld_ends ctx).trans (.of_presses rfl fun r hr => ⟨r, (List.mem_filter.1 hr).1, rfl, rfl⟩)

theorem Mach.discard_world (m : Mach) (ctx : Nat) : ((m.discard ctx).ctx ctx).world = none := m.endWorld_world ctx

theorem Ctx.cleared_ends (c : Ctx) : c.Ends c.cleared := .of_sameFq (fun _ => rfl) (fun _ => rfl) (fun _ => rfl) id rfl rfl

theorem Mach.resetLaunches_ends (m : Mach) (mg : Mgmt) (ctx : Nat) : m.Ends (m.resetLaunches mg ctx) :=
  .foldl (fun m l => m.completeLaunch_ends mg l 4 0) _ m

/-- Completed launches are gone. -/
theorem Mach.completeLaunches_gone {m : Mach} (h : tablesRise m) (mg : Mgmt) (l : List Nat) :
    ∀ x ∈ (l.foldl (fun m k => m.completeLaunch mg k 4 0) m).launches.cells, x.1 ∉ l := by
  induction l generalizing m with
  | nil => simp
  | cons k r ih =>
    intro x hx
    have he := m.completeLaunch_ends mg k 4 0
    have hr : (m.completeLaunch mg k 4 0).Ends (r.foldl (fun m k => m.completeLaunch mg k 4 0) (m.completeLaunch mg k 4 0)) :=
      .foldl (fun m l => m.completeLaunch_ends mg l 4 0) _ _
    simp only [List.mem_cons, not_or]
    exact ⟨Mach.completeLaunch_gone h mg k 4 0 x (hr.launches x hx), ih (he.rise h) x hx⟩

theorem Mach.resetLaunches_gone {m : Mach} (h : tablesRise m) (mg : Mgmt) (ctx : Nat) :
    ∀ x ∈ (m.resetLaunches mg ctx).launches.cells, x.2.ctx ≠ ctx := by
  intro x hx e
  refine Mach.completeLaunches_gone h mg _ x hx (List.mem_map.2 ⟨x, List.mem_filter.2 ⟨?_, by simp [e]⟩, rfl⟩)
  exact (m.resetLaunches_ends mg ctx).launches x hx

theorem Mach.resetQueue_ends (ctx : Nat) (m : Mach) (q : Nat) : m.Ends (m.resetQueue ctx q) :=
  Mach.Ends.trans (.modQueue rfl fun _ => ⟨rfl, rfl⟩) (Mach.fqPush_ends ..)

theorem Mach.resetQueue_faulted (ctx : Nat) (m : Mach) (q : Nat) : ((m.resetQueue ctx q).queue q).faulted5 := by
  have : (m.resetQueue ctx q).queue q =
    (m.modQueue q fun x => { x with state := .faulted, fcause := 5, woken := false }).queue q := rfl
  rw [this, Mach.queue_modQueue, if_pos rfl]
  exact ⟨rfl, rfl⟩

theorem Mach.resetQueues_ends (ctx : Nat) (l : List Nat) (m : Mach) : m.Ends (l.foldl (Mach.resetQueue ctx) m) :=
  .foldl (Mach.resetQueue_ends ctx) l m

/-- A queue that is still bound to a context after the queues `l` were faulted was not among them, or is faulted. -/
theorem Mach.resetQueues_faulted (ctx : Nat) (l : List Nat) {m : Mach} {q c : Nat} (hq : q ∈ l)
    (hc : ((l.foldl (Mach.resetQueue ctx) m).queue q).ctx = some c) : ((l.foldl (Mach.resetQueue ctx) m).queue q).faulted5 := by
  induction l generalizing m with
  | nil => cases hq
  | cons k r ih =>
    rw [List.foldl_cons] at hc ⊢
    by_cases e : q = k
    · subst e
      exact ((Mach.resetQueues_ends ctx r _).queues q c hc).2 (m.resetQueue_faulted ctx q)
    · exact ih ((List.mem_cons.1 hq).resolve_left e) hc

theorem Mach.resetBody_ends (m : Mach) (mg : Mgmt) (ctx : Nat) : m.Ends (m.resetBody mg ctx) :=
  (m.stopBlocks_ends _).trans <| (Mach.discard_ends ..).trans <| Mach.Ends.trans (.modCtx (Ctx.cleared_ends _)) (Mach.resetLaunches_ends ..)

theorem Mach.resetRaised_ends (m : Mach) (mg : Mgmt) (ctx why : Nat) : m.Ends (m.resetRaised mg ctx why) :=
  (m.resetBody_ends mg ctx).trans (Mach.fqPush_ends ..)

theorem Mach.forcedReset_ends (m : Mach) (mg : Mgmt) (ctx why : Nat) : m.Ends (m.forcedReset mg ctx why) := by
  rw [Mach.forcedReset_eq]
  exact (m.resetRaised_ends mg ctx why).trans (Mach.resetQueues_ends ..)

theorem Mach.resetOther_ends (m : Mach) (mg : Mgmt) (ctx : Nat) : m.Ends (m.resetOther mg ctx) := .after (Mach.forcedReset_ends ..) rfl

/-- Once blocks, launches and tables of a context are gone, they stay gone. -/
theorem Mach.resetBody_empty {m : Mach} (h : tablesRise m) (mg : Mgmt) {ctx : Nat} (hc : tabHas m.ctxs ctx = true) :
    (∀ x ∈ (m.resetBody mg ctx).blocks.cells, x.2.ctx ≠ ctx) ∧ (∀ x ∈ (m.resetBody mg ctx).launches.cells, x.2.ctx ≠ ctx) ∧
      ((m.resetBody mg ctx).ctx ctx).press = ⟨[]⟩ ∧ ((m.resetBody mg ctx).ctx ctx).regions = [] ∧
      ((m.resetBody mg ctx).ctx ctx).holds = [] ∧ ((m.resetBody mg ctx).ctx ctx).world = none := by
  let m1 := (m.blocksOf (·.ctx == ctx)).foldl Mach.stopBlock m
  let m2 := m1.discard ctx
  let m3 := m2.modCtx ctx Ctx.cleared
  have e1 : m.Ends m1 := m.stopBlocks_ends _
  have e2 : m1.Ends m2 := m1.discard_ends ctx
  have e3 : m2.Ends m3 := .modCtx (Ctx.cleared_ends _)
  have e4 : m3.Ends (m.resetBody mg ctx) := m3.resetLaunches_ends mg ctx
  have hc3 : m3.ctx ctx = (m2.ctx ctx).cleared := by
    rw [Mach.ctx_modCtx, if_pos ⟨rfl, by rw [e2.has, e1.has, hc]⟩]
  have e5 := e4.ctx ctx
  rw [hc3] at e5
  refine ⟨fun x hx he => ?_, Mach.resetLaunches_gone (e3.rise (e2.rise (e1.rise h))) mg ctx, e5.press rfl, e5.regions rfl, e5.holds rfl,
    e5.world (m1.discard_world ctx)⟩
  have hx1 := e2.blocks x (e3.blocks x (e4.blocks x hx))
  have hf := cellsFind_of_mem (e1.rise h).1 (show (x.1, x.2) ∈ _ from hx1)
  have hs : tabFind m1.blocks x.1 = _ := Mach.stopBlocksOf_blocks h (·.ctx == ctx) x.1
  rw [tabFind, hf, tabFind, cellsFind_of_mem h.1 (show (x.1, x.2) ∈ _ from e1.blocks x hx1)] at hs
  simp [Option.filter, he] at hs

/-- R268: a forced reset of a context leaves it as `wasReset` says. -/
theorem Mach.forcedReset_wasReset {m : Mach} (h : tablesRise m) (mg : Mgmt) {ctx : Nat} (hc : tabHas m.ctxs ctx = true) (why : Nat) :
    wasReset (m.forcedReset mg ctx why) ctx why := by
  obtain ⟨hb, hl, hp, hr, hh, hw⟩ := Mach.resetBody_empty h mg hc
  have e1 : (m.resetBody mg ctx).Ends (m.resetRaised mg ctx why) := Mach.fqPush_ends ..
  have e2 : (m.resetRaised mg ctx why).Ends (m.forcedReset mg ctx why) := Mach.resetQueues_ends ..
  have e := e1.trans e2
  have ec := e.ctx ctx
  refine ⟨fun bid b hf => hb _ (e.blocks _ (cellsFind_mem hf)), fun k l hf => hl _ (e.launches _ (cellsFind_mem hf)), ec.press hp,
    ec.regions hr, ec.holds hh, ec.world hw, fun q x hq hx => ?_, ?_⟩
  · obtain rfl : (m.forcedReset mg ctx why).queue q = x := by simp [Mach.queue, tabGet, hq]
    refine Mach.resetQueues_faulted ctx _ (?_ : q ∈ (m.resetRaised mg ctx why).queuesOf ctx) hx
    have hx' := (e2.queues q ctx hx).1
    cases hf : tabFind (m.resetRaised mg ctx why).queues q with
    | none => simp [Mach.queue, tabGet, hf, Queue.reset] at hx'
    | some y =>
      simp only [Mach.queue, tabGet, hf, Option.getD_some] at hx'
      exact List.mem_map.2 ⟨(q, y), List.mem_filter.2 ⟨cellsFind_mem hf, by simp [hx']⟩, rfl⟩
  · have hi := Mach.fqPush_entry (m.resetBody mg ctx) 10 (BitVec.ofNat 64 why, 0, 0) [] none none
      (show tabHas (m.resetBody mg ctx).ctxs ctx = true by rw [(m.resetBody_ends mg ctx).has, hc])
    refine (e2.ctx ctx).entry (p := fun k i _ => k = 10 ∧ i = BitVec.ofNat 64 why) (hi.imp ?_ id)
    rintro ⟨x, hx, h1, h2, -⟩
    exact ⟨x, hx, h1, h2⟩

theorem Mach.resetOther_wasReset {m : Mach} (h : tablesRise m) (mg : Mgmt) {ctx : Nat} (hc : tabHas m.ctxs ctx = true) :
    wasReset (m.resetOther mg ctx) ctx (Config.fatalInfo m.free) :=
  Mach.forcedReset_wasReset (m := { m with free := m.free + 1 }) h mg hc _

/-- What a reset left, no later ending changes. -/
theorem wasReset.of_ends {m m' : Mach} {ctx why : Nat} (w : wasReset m ctx why) (hr : tablesRise m) (e : m.Ends m') : wasReset m' ctx why where
  blocks bid b hf := w.blocks bid b (cellsFind_of_mem hr.1 (e.blocks _ (cellsFind_mem hf)))
  launches k l hf := w.launches k l (cellsFind_of_mem hr.2.1 (e.launches _ (cellsFind_mem hf)))
  press := (e.ctx ctx).press w.press
  regions := (e.ctx ctx).regions w.regions
  holds := (e.ctx ctx).holds w.holds
  world := (e.ctx ctx).world w.world
  queues q x hq hx := by
    obtain rfl : m'.queue q = x := by simp [Mach.queue, tabGet, hq]
    obtain ⟨h1, h2⟩ := e.queues q ctx hx
    refine h2 ?_
    cases hf : tabFind m.queues q with
    | none => simp [Mach.queue, tabGet, hf, Queue.reset] at h1
    | some y =>
      simp only [Mach.queue, tabGet, hf, Option.getD_some] at h1 ⊢
      exact w.queues q y hf h1
  entry := (e.ctx ctx).entry (p := fun k i _ => k = 10 ∧ i = BitVec.ofNat 64 why) w.entry

end Sys2Proof.Machine
end

section
/-! SUPPORT. Contexts as they are created and destroyed (R32, R41, R157). -/

namespace Sys2Proof.Machine

theorem onEvent_on {s : State} (h : isOn s) (f : Mgmt → Mach → Mach) : onEvent f s = .next { s with mach := f s.mgmt s.mach } := by
  unfold onEvent; rw [if_pos (show s.mgmt.power = .on from h)]

theorem onModule_on {s : State} (h : isOn s) (f : Mgmt → Mach → Mgmt × Mach) :
    onModule f s = .next { s with mgmt := (f s.mgmt s.mach).1, mach := (f s.mgmt s.mach).2 } := by
  unfold onModule; rw [if_pos (show s.mgmt.power = .on from h)]

theorem onEvent_asleep {s : State} (h : s.mgmt.power = .asleep) (f : Mgmt → Mach → Mach) : onEvent f s = .next s := by
  unfold onEvent; rw [if_neg (by simp [h])]

theorem onModule_asleep {s : State} (h : s.mgmt.power = .asleep) (f : Mgmt → Mach → Mgmt × Mach) : onModule f s = .next s := by
  unfold onModule; rw [if_neg (by simp [h])]

/-- A step of the module that is on does what its function gives. -/
theorem does_onModule {s : State} (h : isOn s) {i : Instr} {f : Mgmt → Mach → Mgmt × Mach} (hi : exec i s = onModule f s)
    {p : State → Prop} (hp : p { s with mgmt := (f s.mgmt s.mach).1, mach := (f s.mgmt s.mach).2 }) : Does i s p :=
  ⟨_, hi.trans (onModule_on h f), hp⟩

theorem does_onEvent {s : State} (h : isOn s) {i : Instr} {f : Mgmt → Mach → Mach} (hi : exec i s = onEvent f s)
    {p : State → Prop} (hp : p { s with mach := f s.mgmt s.mach }) : Does i s p :=
  ⟨_, hi.trans (onEvent_on h f), hp⟩

/-- A context that is not there yet is created with the values of `Ctx.created`. -/
theorem Mach.createCtx_new {m : Mach} {ctx : Nat} (h : ctx < 1024) (hn : tabHas m.ctxs ctx = false) :
    m.createCtx ctx = m.setCtx ctx Ctx.created := by
  unfold Mach.createCtx; rw [if_pos ⟨h, by simp [hn]⟩]

/-- The context that is destroyed was reset first; what is left names it no more. -/
theorem destroyCtx_gone {mg : Mgmt} {m : Mach} {ctx : Nat} (h : tablesRise m) (hc : tabHas m.ctxs ctx = true) :
    tabHas (destroyCtx ctx mg m).2.ctxs ctx = false ∧ (∀ bid b, tabFind (destroyCtx ctx mg m).2.blocks bid = some b → b.ctx ≠ ctx) ∧
      (∀ k l, tabFind (destroyCtx ctx mg m).2.launches k = some l → l.ctx ≠ ctx) ∧ (∀ e ∈ (destroyCtx ctx mg m).2.tlb, e.ctx ≠ ctx) ∧
      (destroyCtx ctx mg m).1.vault = mg.vault.filter fun k => k.ctx != ctx := by
  have hr := Mach.resetOther_wasReset h mg hc
  have he := (m.resetOther_ends mg ctx).rise h
  simp only [destroyCtx, hc, Bool.not_true, Bool.false_eq_true, if_false]
  refine ⟨?_, hr.blocks, hr.launches, fun e hm => by simpa using (List.mem_filter.1 hm).2, trivial⟩
  simp [tabHas, tabFind_erase _ _ _ he.2.2]

end Sys2Proof.Machine

open Sys2Proof Sys2Proof.Machine

/-- Settles O38: creation is one entry of the table; destruction is a forced reset of the context, whose rows then leave the tables. -/
theorem contextLifetimes : Obligations.ContextLifetimes := by
  unfold Obligations.ContextLifetimes
  refine ⟨fun s ctx h hlt hn => ?created, ⟨rfl, rfl, rfl, rfl, rfl, rfl, rfl, rfl⟩, fun s ctx h hc hr => ?destroyed⟩
  case created =>
    rw [← Mach.createCtx_new hlt hn]
    exact onEvent_on h fun _ m => m.createCtx ctx
  case destroyed =>
    obtain ⟨h1, h2, h3, h4, h5⟩ := destroyCtx_gone (mg := s.mgmt) hr hc
    refine does_onModule h (f := destroyCtx ctx) rfl ⟨h1, h2, h3, h4, ?_, ?_⟩ <;> simp only [h5, List.mem_filter]
    · exact fun k hk => by simpa using hk.2
    · exact fun k hk => hk.1
end

section
/-! SUPPORT. Targets that cannot be reached (R281, R325, R336): posted stores that fail on their way, requests that end without an
answer, and the lanes that wait for one. -/

namespace Sys2Proof.Machine

/-! ## What only raises entries -/

/-- From `m` to `m'` only contexts and the next free value change: entries are raised. -/
def Mach.Raises (m m' : Mach) : Prop := ∃ ctxs free, m' = { m with ctxs := ctxs, free := free }

theorem Mach.Raises.refl (m : Mach) : m.Raises m := ⟨_, _, rfl⟩

theorem Mach.Raises.trans {a b c : Mach} (h : a.Raises b) (g : b.Raises c) : a.Raises c := by
  obtain ⟨_, _, rfl⟩ := h
  obtain ⟨_, _, rfl⟩ := g
  exact ⟨_, _, rfl⟩

theorem Mach.Raises.foldl {β : Type} {f : Mach → β → Mach} {l : List β} {m : Mach}
    (h : ∀ m' : Mach, m.Raises m' → ∀ b ∈ l, m'.Raises (f m' b)) : m.Raises (l.foldl f m) :=
  List.foldlRecOn (motive := fun x => m.Raises x) l f (.refl m) fun x hx b hb => hx.trans (h x hx b hb)

theorem Mach.fqPush_raises (m : Mach) (ctx kind : Nat) (info : BitVec 64 × BitVec 64 × BitVec 64) (recs : List (BitVec 256))
    (hold : Option (BitVec 16)) (region : Option Nat) : m.Raises (m.fqPush ctx kind info recs hold region) := ⟨_, _, rfl⟩

theorem Mach.postError_raises (m : Mach) (ctx : Nat) (own : Bool) (va : BitVec 48) (peer : Bool) (status : Nat) :
    m.Raises (m.postError ctx own va peer status) := by
  unfold Mach.postError
  split
  · exact .refl m
  · exact Mach.fqPush_raises ..

/-- R281: a posted store of lanes that fails shows in the fault queue of its context. -/
theorem Mach.postError_entry {m : Mach} {ctx : Nat} (h : tabHas m.ctxs ctx = true) (va : BitVec 48) (peer : Bool) (status : Nat) :
    (∃ e ∈ ((m.postError ctx false va peer status).ctx ctx).fq, e.kind = 11 ∧ e.info0 = va.setWidth 64 ∧
      e.info1 = if peer then 1 else 0) ∨ ((m.postError ctx false va peer status).ctx ctx).fqOvf = true :=
  m.fqPush_entry 11 _ [] none none h

theorem Mach.pressPostError_ends (m : Mach) (r : PressReq) (status : Nat) : m.Ends (m.pressPostError r status) := by
  refine Mach.Ends.trans (b := { m with presses := m.presses.filter (·.id != r.id) })
    (.of_presses rfl fun x hx => ⟨x, (List.mem_filter.1 hx).1, rfl, rfl⟩) ?_
  exact .foldl (fun m (_ : Nat) => m.postError_ends r.ctx false (BitVec.ofNat 48 r.va) true status) _ _

theorem Mach.pressPostError_raises (m : Mach) (r : PressReq) (status : Nat) :
    ({ m with presses := m.presses.filter (·.id != r.id) } : Mach).Raises (m.pressPostError r status) :=
  .foldl fun _ _ _ _ => Mach.postError_raises ..

/-! ## Requests that leave -/

/-- No press request is new, and no module becomes reachable or unreachable. -/
structure Mach.Narrows (m m' : Mach) : Prop where
  presses : ∀ r' ∈ m'.presses, ∃ r ∈ m.presses, r.id = r'.id ∧ r.target = r'.target
  unreach : m'.unreach = m.unreach

theorem Mach.Ends.narrows {m m' : Mach} (h : m.Ends m') : m.Narrows m' := ⟨h.presses, h.unreach⟩

theorem Mach.Narrows.refl (m : Mach) : m.Narrows m := (Mach.Ends.refl m).narrows

theorem Mach.Narrows.of_eq {m m' : Mach} (hp : m'.presses = m.presses) (hu : m'.unreach = m.unreach) : m.Narrows m' :=
  ⟨hp ▸ fun r hr => ⟨r, hr, rfl, rfl⟩, hu⟩

theorem Mach.Narrows.trans {a b c : Mach} (h : a.Narrows b) (g : b.Narrows c) : a.Narrows c where
  presses r'' hr'' := by
    obtain ⟨r', hr', g1, g2⟩ := g.presses r'' hr''
    obtain ⟨r, hr, h1, h2⟩ := h.presses r' hr'
    exact ⟨r, hr, h1.trans g1, h2.trans g2⟩
  unreach := g.unreach.trans h.unreach

theorem Mach.Narrows.foldl {β : Type} {f : Mach → β → Mach} (h : ∀ (m : Mach) b, m.Narrows (f m b)) (l : List β) (m : Mach) :
    m.Narrows (l.foldl f m) :=
  List.foldlRecOn (motive := fun x => m.Narrows x) l f (.refl m) fun x hx b _ => hx.trans (h x b)

theorem Mach.modWarp_narrows (m : Mach) (bid k : Nat) (f : Warp → Warp) : m.Narrows (m.modWarp bid k f) := .of_eq rfl rfl

theorem Mach.park_narrows (m : Mach) (q : Issue) (scope : Scope) (amask : LaneMask) (lane : Nat) (s : Stop) :
    m.Narrows (m.park q scope amask lane s) := by
  have hn (ctx va : Nat) : m.Narrows (m.noteRegion ctx va).2 := by
    unfold Mach.noteRegion
    dsimp only
    split
    · exact .refl m
    · exact .of_eq rfl rfl
  unfold Mach.park
  split
  · exact .refl m
  · dsimp only
    refine Mach.Narrows.trans ?_ (Mach.modWarp_narrows ..)
    split
    · exact hn ..
    · exact .refl m

theorem Mach.abortLaunch_ends (m : Mach) (mg : Mgmt) (launch : Nat) : m.Ends (m.abortLaunch mg launch) :=
  (m.stopBlocks_ends _).trans (Mach.completeLaunch_ends ..)

theorem Mach.faultMode_ends (m : Mach) (mg : Mgmt) (launch : Nat) : m.Ends (m.faultMode mg launch) := by
  unfold Mach.faultMode
  split
  · exact .refl m
  · split
    · exact Mach.abortLaunch_ends ..
    · split
      · exact Mach.forcedReset_ends ..
      · exact .refl m

theorem Mach.beginHold_narrows (m : Mach) (bid : Nat) (unit : Scope) (warps : List Nat) (recs : List FaultRec) :
    m.Narrows (m.beginHold bid unit warps recs) := by
  unfold Mach.beginHold
  split
  · exact .refl m
  · exact Mach.Narrows.of_eq rfl rfl

theorem Mach.testSuspend_narrows (m : Mach) (mg : Mgmt) (bid k : Nat) : m.Narrows (m.testSuspend mg bid k) := by
  unfold Mach.testSuspend
  split
  · exact .refl m
  · split
    · exact .refl m
    · split
      · exact .refl m
      · split
        · exact .refl m
        · exact Mach.Narrows.trans (.foldl (fun m w => m.modWarp_narrows bid w _) _ m)
            ((Mach.beginHold_narrows ..).trans (Mach.faultMode_ends ..).narrows)

theorem Mach.retestSlots_narrows (m : Mach) (bid : Nat) : m.Narrows (m.retestSlots bid) := by
  unfold Mach.retestSlots
  split
  · exact .refl m
  · exact .of_eq rfl rfl

theorem Mach.ripenAll_narrows (m : Mach) (bid : Nat) : m.Narrows (m.ripenAll bid) := by
  unfold Mach.ripenAll
  split
  · exact .refl m
  · dsimp only
    split
    · exact .refl m
    · exact .of_eq rfl rfl

theorem Mach.settleWarp_narrows (m : Mach) (mg : Mgmt) (bid k : Nat) : m.Narrows (m.settleWarp mg bid k) := by
  have h := (m.testSuspend_narrows mg bid k).trans (Mach.modWarp_narrows _ bid k fun w => w.converge (m.testSuspend mg bid k).cycle)
  unfold Mach.settleWarp
  dsimp only
  split
  · exact h
  · split
    · exact h.trans ((Mach.retestSlots_narrows ..).trans (Mach.ripenAll_narrows ..))
    · exact h

/-! ## A target that cannot be reached, part by part -/

/-- The write goes to module `k`. -/
def Posted.goesTo (k : Nat) (x : Posted) : Bool :=
  match x.at_ with
  | .peer j _ => j == k
  | .host _ => false
  | .dev _ => false
  | .spad _ _ => false

/-- Module `k` is marked, and the posted stores to it fail. -/
def Mach.cutOff (m : Mach) (k : Nat) : Mach :=
  ({ m with unreach := if m.unreach.contains k then m.unreach else k :: m.unreach } : Mach).deliverAll (Posted.goesTo k)

/-- A press request to it ends: a posted one fails, the lanes of another park. -/
def Mach.loseRequest (mg : Mgmt) (m : Mach) (r : PressReq) : Mach :=
  match r.reply with
  | none => ({ m with free := m.free + 1 } : Mach).pressPostError r (Config.linkStatus m.free)
  | some p => m.replyLost mg r p

/-- The press requests to module `k`. -/
def Mach.requestsTo (m : Mach) (k : Nat) : List PressReq := m.presses.filter fun r => r.target == some k

theorem Mach.endTarget_eq (m : Mach) (mg : Mgmt) (k : Nat) :
    m.endTarget mg k = ((m.cutOff k).requestsTo k).foldl (Mach.loseRequest mg) (m.cutOff k) := rfl

theorem Posted.goesTo_iff {k : Nat} {x : Posted} : x.goesTo k = true ↔ ∃ a, x.at_ = .peer k a := by
  unfold Posted.goesTo
  split <;> simp_all

theorem Mach.postHeld_goesTo (m : Mach) {k : Nat} {x : Posted} (h : x.goesTo k = true) : m.postHeld x = false := by
  obtain ⟨a, ha⟩ := Posted.goesTo_iff.1 h
  simp [Mach.postHeld, ha]

theorem Mach.arrivePosted_unreach {m : Mach} {k : Nat} {x : Posted} (h : x.goesTo k = true) (hu : m.unreach.contains k = true) :
    m.arrivePosted x = ({ m with free := m.free + 1 } : Mach).postError x.ctx x.lanes.isEmpty x.va true (Config.linkStatus m.free) := by
  obtain ⟨a, ha⟩ := Posted.goesTo_iff.1 h
  simp only [Mach.arrivePosted, ha, hu, if_true]

/-- The machine with module `k` marked and no posted store to it left. -/
def Mach.marked (m : Mach) (k : Nat) : Mach :=
  { m with
    unreach := if m.unreach.contains k then m.unreach else k :: m.unreach
    posted := m.posted.filter fun x => !x.goesTo k }

theorem Mach.marked_unreach (m : Mach) (k : Nat) : (m.marked k).unreach.contains k = true := by
  unfold Mach.marked
  dsimp only
  split
  · assumption
  · simp

theorem Mach.cutOff_eq (m : Mach) (k : Nat) :
    m.cutOff k = (m.posted.filter (Posted.goesTo k)).foldl Mach.arrivePosted (m.marked k) := by
  have hg : (fun x : Posted => x.goesTo k &&
      !({ m with unreach := if m.unreach.contains k then m.unreach else k :: m.unreach } : Mach).postHeld x) = Posted.goesTo k := by
    funext x
    cases h : x.goesTo k with
    | false => rfl
    | true => simp [Mach.postHeld_goesTo _ h]
  simp only [Mach.cutOff, Mach.deliverAll, Mach.marked]
  rw [hg]
  simp only [congrFun hg]

theorem Mach.cutOff_ends (m : Mach) (k : Nat) : (m.marked k).Ends (m.cutOff k) := by
  rw [Mach.cutOff_eq]; exact .foldl Mach.arrivePosted_ends _ _

theorem Mach.cutOff_raises (m : Mach) (k : Nat) : (m.marked k).Raises (m.cutOff k) := by
  rw [Mach.cutOff_eq]
  refine .foldl fun m' hm x hx => ?_
  have hu : m'.unreach.contains k = true := by obtain ⟨_, _, rfl⟩ := hm; exact m.marked_unreach k
  rw [Mach.arrivePosted_unreach (List.mem_filter.1 hx).2 hu]
  exact Mach.Raises.trans (b := { m' with free := m'.free + 1 }) ⟨_, _, rfl⟩ (Mach.postError_raises ..)

/-- R325: a posted store of lanes to a module that cannot be reached gives its entry. -/
theorem Mach.cutOff_entry {m : Mach} {k : Nat} {x : Posted} (hx : x ∈ m.posted) (hk : x.goesTo k = true) (hl : x.lanes ≠ [])
    (hc : tabHas m.ctxs x.ctx = true) :
    (∃ e ∈ ((m.cutOff k).ctx x.ctx).fq, e.kind = 11 ∧ e.info0 = x.va.setWidth 64 ∧ e.info1 = if true then 1 else 0) ∨
      ((m.cutOff k).ctx x.ctx).fqOvf = true := by
  rw [Mach.cutOff_eq]
  obtain ⟨l1, l2, e⟩ := List.append_of_mem (List.mem_filter.2 ⟨hx, hk⟩)
  rw [e, List.foldl_append, List.foldl_cons]
  have h1 : (m.marked k).Ends (l1.foldl Mach.arrivePosted (m.marked k)) := .foldl Mach.arrivePosted_ends _ _
  have hu : (l1.foldl Mach.arrivePosted (m.marked k)).unreach.contains k = true := h1.unreach ▸ m.marked_unreach k
  refine (Mach.Ends.ctx (.foldl Mach.arrivePosted_ends l2 _) x.ctx).entry
    (p := fun n i j => n = 11 ∧ i = x.va.setWidth 64 ∧ j = if true then 1 else 0) ?_
  rw [Mach.arrivePosted_unreach hk hu, List.isEmpty_eq_false_iff.2 hl]
  exact Mach.postError_entry ((h1.has x.ctx).trans hc) ..

/-! ## Requests that end -/

theorem Mach.replyLost_narrows (m : Mach) (mg : Mgmt) (r : PressReq) (p : PressReply) : (m.closePress r).Narrows (m.replyLost mg r p) := by
  have hp (l : List Nat) (stop : Stop) (m : Mach) : m.Narrows (l.foldl (fun m i => m.park p.issue p.scope p.lanes i stop) m) :=
    .foldl (fun m i => m.park_narrows p.issue p.scope p.lanes i stop) l m
  unfold Mach.replyLost
  lift_lets
  intro m1 stop lanes m2 m3 m4 m5
  refine Mach.Narrows.trans (b := m2) (Mach.modWarp_narrows ..) (Mach.Narrows.trans (b := m3) (hp ..) ?_)
  refine Mach.Narrows.trans (b := m4) ?_ (Mach.Narrows.trans (b := m5) (Mach.modWarp_narrows ..) (Mach.settleWarp_narrows ..))
  unfold m4
  split
  · exact hp ..
  · exact Mach.modWarp_narrows ..

/-- A request that ends is gone. -/
theorem Mach.loseRequest_narrows (mg : Mgmt) (m : Mach) (r : PressReq) :
    ({ m with presses := m.presses.filter (·.id != r.id) } : Mach).Narrows (m.loseRequest mg r) := by
  unfold Mach.loseRequest
  split
  · exact Mach.Narrows.trans (b := { m with presses := m.presses.filter (·.id != r.id), free := m.free + 1 }) (.of_eq rfl rfl)
      (Mach.Ends.narrows (.foldl (fun m _ => m.postError_ends r.ctx false (BitVec.ofNat 48 r.va) true _) _ _))
  · rename_i p hp
    exact Mach.Narrows.trans (b := m.closePress r) (.of_eq rfl rfl) (m.replyLost_narrows mg r p)

theorem Mach.loseRequests_narrows (mg : Mgmt) (l : List PressReq) (m : Mach) :
    m.Narrows (l.foldl (Mach.loseRequest mg) m) ∧ ∀ x ∈ (l.foldl (Mach.loseRequest mg) m).presses, ∀ r ∈ l, x.id ≠ r.id := by
  induction l generalizing m with
  | nil => exact ⟨.refl m, fun _ _ _ h => nomatch h⟩
  | cons r rest ih =>
    obtain ⟨ih1, ih2⟩ := ih (m.loseRequest mg r)
    have h := (m.loseRequest_narrows mg r).trans ih1
    refine ⟨⟨fun x hx => ?_, h.unreach⟩, fun x hx y hy => ?_⟩
    · obtain ⟨z, hz, h1, h2⟩ := h.presses x hx
      exact ⟨z, (List.mem_filter.1 hz).1, h1, h2⟩
    · rcases List.mem_cons.1 hy with rfl | hy
      · obtain ⟨z, hz, h1, -⟩ := h.presses x hx
        rw [← h1]
        simpa using (List.mem_filter.1 hz).2
      · exact ih2 x hx y hy

/-- R325: no request to the module is left. -/
theorem Mach.endTarget_requests (m : Mach) (mg : Mgmt) (k : Nat) : ∀ r ∈ (m.endTarget mg k).presses, r.target ≠ some k := by
  rw [Mach.endTarget_eq]
  obtain ⟨h1, h2⟩ := Mach.loseRequests_narrows mg ((m.cutOff k).requestsTo k) (m.cutOff k)
  intro x hx hk
  obtain ⟨r, hr, hi, ht⟩ := h1.presses x hx
  exact h2 x hx r (List.mem_filter.2 ⟨hr, by simp [ht, hk]⟩) hi.symm

theorem Mach.endTarget_unreach (m : Mach) (mg : Mgmt) (k : Nat) : k ∈ (m.endTarget mg k).unreach := by
  have h := (Mach.loseRequests_narrows mg ((m.cutOff k).requestsTo k) (m.cutOff k)).1.unreach
  rw [Mach.endTarget_eq, h, (m.cutOff_ends k).unreach]
  simpa using m.marked_unreach k

theorem Mach.cutOff_presses (m : Mach) (k : Nat) : (m.cutOff k).presses = m.presses := by
  obtain ⟨_, _, e⟩ := m.cutOff_raises k
  rw [e]; rfl

/-- Where no lane waits for an answer of the module, its requests leave and entries are raised. -/
theorem Mach.endTarget_posted {m : Mach} (mg : Mgmt) {k : Nat} (h : ∀ r ∈ m.presses, r.target = some k → r.reply = none) :
    (∃ presses, ({ m.marked k with presses := presses } : Mach).Raises (m.endTarget mg k)) ∧ (m.cutOff k).Ends (m.endTarget mg k) := by
  have hl (m' : Mach) : ∀ r ∈ (m.cutOff k).requestsTo k, m'.loseRequest mg r =
      ({ m' with free := m'.free + 1 } : Mach).pressPostError r (Config.linkStatus m'.free) := by
    intro r hr
    simp only [Mach.requestsTo, Mach.cutOff_presses, List.mem_filter, beq_iff_eq] at hr
    simp only [Mach.loseRequest, h r hr.1 hr.2]
  rw [Mach.endTarget_eq]
  refine List.foldlRecOn (motive := fun x => (∃ presses, ({ m.marked k with presses := presses } : Mach).Raises x) ∧ (m.cutOff k).Ends x)
    _ _ ⟨⟨_, m.cutOff_raises k⟩, .refl _⟩ ?_
  rintro x ⟨⟨_, _, _, rfl⟩, hx⟩ r hr
  rw [hl _ r hr]
  exact ⟨⟨_, Mach.Raises.trans ⟨_, _, rfl⟩ (Mach.pressPostError_raises ..)⟩, hx.trans (.after (Mach.pressPostError_ends ..) rfl)⟩

end Sys2Proof.Machine
end

section
/-! SUPPORT. A lane whose PRESSR gets no answer (R325): it parks with DATA at its instruction, and its warp goes on. -/

namespace Sys2Proof.Machine

/-! ## Changes of one warp -/

theorem Stands.modWarp {m : Mach} {bid k : Nat} {b : Block} {w : Warp} (h : Stands m bid k b w) (f : Warp → Warp) :
    Stands (m.modWarp bid k f) bid k { b with warps := tabSet b.warps k (f w) } (f w) where
  block := by rw [Mach.modWarp_blocks, tabMod_some _ h.block, tabFind_set_same, tabMod_some _ h.warp]
  warp := tabFind_set_same ..

/-- A warp that was just changed stands in its place. -/
theorem Stands.modWarp_inPlace {m : Mach} {bid k : Nat} {b : Block} {w : Warp} (h : Stands m bid k b w) (f : Warp → Warp) :
    inPlace bid (m.modWarp bid k f).blocks.cells ∧ inPlace k (tabSet b.warps k (f w)).cells := by
  rw [Mach.modWarp_blocks, tabMod_some _ h.block]
  exact ⟨inPlace_set .., inPlace_set ..⟩

theorem Mach.warp?_modWarp (m : Mach) (bid k bid' k' : Nat) (f : Warp → Warp) :
    (m.modWarp bid k f).warp? bid' k' = if bid' = bid ∧ k' = k then (m.warp? bid k).map f else m.warp? bid' k' := by
  simp only [Mach.warp?, Mach.block?, Mach.modWarp_blocks, tabFind_mod]
  by_cases e : bid' = bid
  · subst e
    cases h : tabFind m.blocks bid' with
    | none => simp
    | some b => simp [tabFind_mod]
  · simp [e]

theorem sameRegisters_modWarp (m : Mach) (bid k : Nat) {f : Warp → Warp} (h : ∀ w r, (f w).getReg r = w.getReg r) :
    sameRegisters m (m.modWarp bid k f) := by
  intro bid' k' r
  rw [Mach.warp?_modWarp]
  split_ifs with e
  · rw [e.1, e.2, Option.map_map]
    congr 1
    funext w
    exact h w r
  · rfl

theorem sameRegisters_of_blocks {m m' : Mach} (h : m'.blocks = m.blocks) : sameRegisters m m' := by
  intro bid k r; simp only [Mach.warp?, Mach.block?, h]

theorem sameRegisters.trans {a b c : Mach} (h : sameRegisters a b) (g : sameRegisters b c) : sameRegisters a c :=
  fun bid k r => (g bid k r).trans (h bid k r)

theorem Warp.endId_lanes (w : Warp) (id : Nat) : (w.endId id).lanes = w.lanes ∧ (w.endId id).s = w.s := by
  unfold Warp.endId
  split <;> exact ⟨rfl, rfl⟩

/-- A request's mask of one lane. -/
theorem bitsOf_twoPow : ∀ i < 32, bitsOf (BitVec.twoPow 32 i) = [i] := by decide

/-! ## Parking with DATA -/

/-- Lane `i` parks with record `rec_` in cycle `now`. -/
def Warp.parkLane (i : Nat) (rec_ : FaultRec) (now : Nat) (w : Warp) : Warp :=
  { modLanes w (fun j l => if j = i then { l with st := .parked (some rec_) } else l) with parkedAt := some (w.parkedAt.getD now) }

theorem Mach.park_data {m : Mach} {b : Block} {q : Issue} (hb : tabFind m.blocks q.bid = some b) (scope : Scope) (amask : LaneMask)
    (i : Nat) {s : Stop} (hs : s.cause = .data) :
    ∃ rec_ : FaultRec, rec_.cause = .data ∧ m.park q scope amask i s = m.modWarp q.bid q.warp (Warp.parkLane i rec_ m.cycle) := by
  refine ⟨{ cause := s.cause, scope := scope, lane := i, warp := q.warp, index := q.pc.index, block := b.index, pc := q.pc.clause
            core := b.core, widx := q.widx, coal := false, addr := BitVec.ofNat 48 s.addr, bslot := b.bslot, amask := amask
            size := s.size, write := s.write, time := m.cycle }, hs, ?_⟩
  simp only [Mach.park, Mach.block?, hb, hs]
  rfl

/-- The warp no longer waits for the request, whose instruction ends. -/
def Warp.unreplied (id req : Nat) (w : Warp) : Warp :=
  match w.block with
  | some (.replies ids) =>
    if ids = [req] then { (w.endId id) with block := none, group := 0 }
    else { w with block := some (.replies (ids.filter (· != req))), group := 0 }
  | some (.wrung _) => w
  | none => w

theorem Warp.unreplied_lanes (w : Warp) (id req : Nat) : (w.unreplied id req).lanes = w.lanes ∧ (w.unreplied id req).s = w.s := by
  unfold Warp.unreplied
  split
  · split
    · exact w.endId_lanes id
    · exact ⟨rfl, rfl⟩
  · exact ⟨rfl, rfl⟩
  · exact ⟨rfl, rfl⟩

theorem Warp.unreplied_block {w : Warp} {req : Nat} (h : w.block = some (.replies [req])) (id : Nat) : (w.unreplied id req).block = none := by
  simp [Warp.unreplied, h]

theorem getReg_noAnswer (i : Nat) (q : Issue) (code : List Word) (w : Warp) (r : RegName) :
    (noAnswer i q code w).getReg r = w.getReg r :=
  getReg_modLanes w _ r (fun _ _ => by split <;> rfl) fun _ _ => by split <;> rfl

theorem getReg_parkLane (i : Nat) (rec_ : FaultRec) (now : Nat) (w : Warp) (r : RegName) :
    (w.parkLane i rec_ now).getReg r = w.getReg r :=
  (getReg_congr rfl rfl r).trans (getReg_modLanes w _ r (fun _ _ => by split <;> rfl) fun _ _ => by split <;> rfl)

theorem getReg_unreplied (id req : Nat) (w : Warp) (r : RegName) : (w.unreplied id req).getReg r = w.getReg r :=
  getReg_congr (w.unreplied_lanes id req).1 (w.unreplied_lanes id req).2 r

/-- What one lane's lost answer makes of its warp. -/
def Warp.lostLane (p : PressReply) (i : Nat) (rec_ : FaultRec) (now req : Nat) (w : Warp) : Warp :=
  (((noAnswer i p.issue p.code w).parkLane i rec_ now).unreplied p.id req)

theorem laneAt_lostLane (p : PressReply) (i : Nat) (rec_ : FaultRec) (now req : Nat) (w : Warp) (j : Nat) :
    laneAt (w.lostLane p i rec_ now req) j = (laneAt w j).map fun l =>
      if j = i then { (if l.live then { l with pc := p.issue.pc, code := p.code } else l) with st := .parked (some rec_) } else l := by
  have h : laneAt (w.lostLane p i rec_ now req) j = laneAt ((noAnswer i p.issue p.code w).parkLane i rec_ now) j := by
    unfold laneAt Warp.lostLane
    rw [(Warp.unreplied_lanes _ _ _).1]
  rw [h]
  simp only [Warp.parkLane, noAnswer]
  have hp (w : Warp) (x : Option Nat) : laneAt { w with parkedAt := x } j = laneAt w j := rfl
  rw [hp, laneAt_modLanes, laneAt_modLanes, Option.map_map]
  congr 1
  funext l
  by_cases e : j = i <;> simp [e]

theorem laneAt_lostLane_own {w : Warp} {i : Nat} {l : Lane} (h : laneAt w i = some l) (hr : l.st = .ready) (p : PressReply)
    (rec_ : FaultRec) (now req : Nat) :
    ∃ x, laneAt (w.lostLane p i rec_ now req) i = some x ∧ x.st = .parked (some rec_) ∧ x.pc = p.issue.pc := by
  rw [laneAt_lostLane, h]
  exact ⟨_, rfl, by simp, by simp [Lane.live, hr]⟩

/-- The one request of the module is that of lane `i`, which alone waits for it, in a warp with another lane that is ready: the lane
parks, the warp waits no more, and nothing else happens to it. -/
theorem Mach.replyLost_lane {m : Mach} {r : PressReq} {p : PressReply} {b : Block} {w : Warp} {i j : Nat} {l' : Lane} (mg : Mgmt)
    (hs : p.scope = .lane) (hm : p.lanes = BitVec.twoPow 32 i) (hi : i < 32) (hb : p.issue.bid = p.bid) (hk : p.issue.warp = p.warp)
    (st : Stands m p.bid p.warp b w) (hj : laneAt w j = some l') (hne : j ≠ i) (hr : l'.st = .ready) :
    ∃ (rec_ : FaultRec) (b' : Block), rec_.cause = .data ∧ sameRegisters m (m.replyLost mg r p) ∧
      Stands (m.replyLost mg r p) p.bid p.warp b' (w.lostLane p i rec_ m.cycle r.id) := by
  let m1 := m.closePress r
  let m2 := m1.modWarp p.bid p.warp (noAnswer i p.issue p.code)
  have st1 : Stands m1 p.bid p.warp b w := ⟨st.block, st.warp⟩
  have st2 := st1.modWarp (noAnswer i p.issue p.code)
  obtain ⟨rec_, hc, hp⟩ := Mach.park_data (m := m2) (q := p.issue) (by rw [hb]; exact st2.block) p.scope p.lanes i
    (s := stopAt .data r.va r.image.size true) rfl
  rw [hb, hk] at hp
  let m3 := m2.modWarp p.bid p.warp (Warp.parkLane i rec_ m2.cycle)
  have st3 := st2.modWarp (Warp.parkLane i rec_ m2.cycle)
  let m4 := m3.modWarp p.bid p.warp (Warp.unreplied p.id r.id)
  have st4 := st3.modWarp (Warp.unreplied p.id r.id)
  have hgo : (w.lostLane p i rec_ m.cycle r.id).goesOn :=
    ⟨j, l', by rw [laneAt_lostLane, hj]; simp [hne], .inl hr⟩
  have hsettle : m4.settleWarp mg p.bid p.warp = m4 :=
    settleWarp_ready st4.block (st3.modWarp_inPlace _).1 st4.warp (st3.modWarp_inPlace _).2 hgo
  have he : m.replyLost mg r p = m4.settleWarp mg p.bid p.warp := by
    simp only [Mach.replyLost, hm, hs, bitsOf_twoPow i hi] at hp ⊢
    simp only [List.foldl_cons, List.foldl_nil, List.take_succ_cons, List.take_zero, List.drop_succ_cons, List.drop_zero]
    rw [if_pos (show (Scope.lane == Scope.lane) = true from rfl)]
    exact congrArg (fun m => (m.modWarp p.bid p.warp (Warp.unreplied p.id r.id)).settleWarp mg p.bid p.warp) hp
  rw [he, hsettle]
  refine ⟨rec_, _, hc, ?_, st4⟩
  exact (sameRegisters_of_blocks (m := m) (m' := m1) rfl).trans <|
    (sameRegisters_modWarp m1 _ _ (getReg_noAnswer i p.issue p.code)).trans <|
    (sameRegisters_modWarp m2 _ _ (getReg_parkLane i rec_ m2.cycle)).trans <|
    sameRegisters_modWarp m3 _ _ (getReg_unreplied p.id r.id)

/-! ## Ports and MODID (R32, R33), one failed write (R281) -/

theorem portTraining_ports {port : Nat} (h : port < 36) (mg : Mgmt) (m : Mach) : (portTraining port mg m).1.ports =
    if mg.ports.contains port then mg.ports else mg.ports ++ [port] := by
  unfold portTraining portCount
  rw [if_neg (by omega)]

theorem mem_portTraining_ports {port : Nat} (h : port < 36) (mg : Mgmt) (m : Mach) (j : Nat) :
    j ∈ (portTraining port mg m).1.ports ↔ j = port ∨ j ∈ mg.ports := by
  rw [portTraining_ports h]
  split
  · rename_i hp
    exact ⟨.inr, fun hj => hj.elim (fun e => e ▸ by simpa using hp) id⟩
  · simp [or_comm]

/-- A fenced module is fenced once. -/
theorem mem_fenceModule_fenced (k : Nat) (mg : Mgmt) (m : Mach) (j : Nat) :
    j ∈ (fenceModule k mg m).1.fenced ↔ j = k ∨ j ∈ mg.fenced := by
  simp only [fenceModule]
  split
  · rename_i hp
    exact ⟨.inr, fun hj => hj.elim (fun e => e ▸ by simpa using hp) id⟩
  · exact List.mem_cons

theorem portTraining_mach {port : Nat} (h : port < 36) (mg : Mgmt) (m : Mach) : (portTraining port mg m).2 = { m with unreach := [] } := by
  unfold portTraining portCount
  rw [if_neg (by omega)]

theorem configure_eq (modid : BitVec 12) (mg : Mgmt) (m : Mach) :
    configure modid mg m = if m.ctxs = ⟨[]⟩ then ({ mg with modid := modid }, m) else (mg, m) := by
  unfold configure
  rcases hc : m.ctxs with ⟨cells⟩
  cases cells <;> simp

theorem Mach.postedFailure_posted {m : Mach} {id : Nat} {x : Posted} (h : m.posted.find? (·.id == id) = some x) (status : Nat) :
    m.postedFailure id status =
      ({ m with posted := m.posted.filter (·.id != id) } : Mach).postError x.ctx x.lanes.isEmpty x.va (isPeer x.at_) status := by
  simp only [Mach.postedFailure, h]

/-- R283: a queue that has room takes the entry last. -/
theorem Mach.fqPush_room {m : Mach} {ctx : Nat} (hc : tabHas m.ctxs ctx = true) (hr : (m.ctx ctx).fq.length < 32) (kind : Nat)
    (info : BitVec 64 × BitVec 64 × BitVec 64) (recs : List (BitVec 256)) (hold : Option (BitVec 16)) (region : Option Nat) :
    ((m.fqPush ctx kind info recs hold region).ctx ctx).fq =
      (m.ctx ctx).fq ++ [⟨kind, info.1, info.2.1, info.2.2, recs, 0, hold, region, none⟩] := by
  rw [Mach.fqPush, Mach.ctx_modCtx, if_pos ⟨rfl, hc⟩, if_neg (by simp; omega)]

theorem sameCtxs_modCtx (m : Mach) (c : Nat) (f : Ctx → Ctx) : sameCtxs m (m.modCtx c f) (· ≠ c) :=
  fun j hj => by rw [Mach.ctx_modCtx, if_neg fun h => hj h.1]

end Sys2Proof.Machine

open Sys2Proof Sys2Proof.Machine

/-- Settles O49: ports and MODID by their equations; a timeout fails the posted stores (`Mach.cutOff`) and then ends each request
(`Mach.loseRequest`); heartbeats fence the module and do the same. -/
theorem linksAndTargets : Obligations.LinksAndTargets := by
  unfold Obligations.LinksAndTargets
  refine ⟨⟨fun s k h => does_onModule h rfl ⟨rfl, rfl⟩, fun s k h hk => ?training, fun s x h => ?modid, fun s bank => ?backoff⟩,
    fun s k h => ?timeout, fun s k r p b w i j l l' h hf hr hsc hmask hi hb hw st hblk hl hls hj hne hjs => ?lane,
    fun s k h => ?heartbeats, fun s id x status h hx hl hc => ?failure⟩
  case training =>
    refine does_onModule h (f := portTraining k) rfl ?_
    have hm := mem_portTraining_ports hk s.mgmt s.mach
    rw [portTraining_mach hk]
    exact ⟨(hm k).2 (.inl rfl), rfl, fun j hj => (hm j).trans (by simp [hj]),
      fun hp => (portTraining_ports hk ..).trans (if_pos (by simpa using hp))⟩
  case modid =>
    have he : exec (.systemConfiguration x) s = _ := onModule_on h (configure x)
    rw [he, configure_eq]
    exact ⟨fun hc => by rw [if_pos hc], fun hc => by rw [if_neg hc]⟩
  case backoff =>
    show onEvent (fun _ m => alertBackoff bank m) s = _
    simp [onEvent, alertBackoff]
  case timeout =>
    refine does_onEvent h (f := fun mg m => m.endTarget mg k) rfl
      ⟨Mach.endTarget_unreach .., rfl, Mach.endTarget_requests _ _ _, fun hn => ?_⟩
    obtain ⟨⟨_, _, _, hm⟩, he⟩ := Mach.endTarget_posted s.mgmt hn
    refine ⟨?_, ?_, fun x hx a ha => ?_, fun x hx a ha hl hc => ?_⟩
    · rw [hm]; exact ⟨rfl, rfl, rfl⟩
    · rw [hm]; rfl
    · rw [hm] at hx
      have hg := (List.mem_filter.1 hx).2
      rw [Posted.goesTo_iff.2 ⟨a, ha⟩] at hg
      cases hg
    · exact (he.ctx x.ctx).entry (p := fun n i j => n = 11 ∧ i = x.va.setWidth 64 ∧ j = if true then 1 else 0)
        (Mach.cutOff_entry hx (Posted.goesTo_iff.2 ⟨a, ha⟩) hl hc)
  case lane =>
    obtain ⟨_, _, hm⟩ := s.mach.cutOff_raises k
    have hblocks : (s.mach.cutOff k).blocks = s.mach.blocks := by rw [hm]; rfl
    have he : s.mach.endTarget s.mgmt k = (s.mach.cutOff k).replyLost s.mgmt r p := by
      rw [Mach.endTarget_eq, Mach.requestsTo, Mach.cutOff_presses, hf]
      simp only [List.foldl_cons, List.foldl_nil, Mach.loseRequest, hr]
    obtain ⟨rec_, b', hc, hsame, hst⟩ := Mach.replyLost_lane (m := s.mach.cutOff k) (r := r) s.mgmt hsc hmask hi hb hw
      ⟨hblocks ▸ st.block, st.warp⟩ hj hne hjs
    refine does_onEvent h (f := fun mg m => m.endTarget mg k) rfl ?_
    rw [he]
    obtain ⟨x, hx, hpark, hpc⟩ := laneAt_lostLane_own hl hls p rec_ (s.mach.cutOff k).cycle r.id
    refine ⟨(sameRegisters_of_blocks hblocks).trans hsame, b', _, x, rec_, hst, hx, hpark, hpc, hc, ?_, ?_⟩
    · rw [laneAt_lostLane, hj]; simp [hne]
    · exact Warp.unreplied_block (by exact hblk) _
  case heartbeats =>
    have hm := mem_fenceModule_fenced k s.mgmt s.mach
    exact ⟨_, onEvent_on h fun mg m => m.endTarget mg k, (fenceModule k s.mgmt s.mach).1.fenced, (hm k).2 (.inl rfl),
      fun j hj => (hm j).trans (by simp [hj]), onModule_on h (fenceModule k)⟩
  case failure =>
    refine does_onEvent h (f := fun _ m => m.postedFailure id status) rfl ?_
    rw [Mach.postedFailure_posted hx, List.isEmpty_eq_false_iff.2 hl]
    exact ⟨⟨rfl, rfl, rfl⟩, rfl, rfl, sameCtxs_modCtx _ _ _, fun hq => Mach.fqPush_room hc hq ..⟩
end

section
/-! SUPPORT. The streams that are dropped when IDE keys go (R322, R334, R335), the module's sleep and its waking (R242, R335), and the
steps of its clock (R22). -/

namespace Sys2Proof.Machine

variable {α : Type}

/-! ## Tables and memories that are loaded cell by cell -/

@[simp] theorem tabFind_map (f : α → α) (t : Tab α) (k : Nat) : tabFind (tabMap f t) k = (tabFind t k).map f := by
  unfold tabFind tabMap
  induction t.cells with
  | nil => rfl
  | cons c r ih =>
    simp only [List.map_cons, cellsFind]
    split_ifs
    · rfl
    · exact ih

/-- A key that the table's filter admits reads as before, any other not at all. -/
theorem tabFind_filterKey (p : Nat → Bool) (t : Tab α) (k : Nat) :
    tabFind (tabFilter (fun j _ => p j) t) k = if p k then tabFind t k else none := cellsFind_filter p k t.cells

/-- A table that is loaded with a rising list of cells holds those, and elsewhere what it held. -/
theorem tabFind_load {l : List (Nat × α)} (h : cellsRising l = true) (t : Tab α) (k : Nat) :
    tabFind (l.foldl (fun t x => tabSet t x.1 x.2) t) k = (cellsFind k l).or (tabFind t k) := by
  induction l generalizing t with
  | nil => rfl
  | cons c r ih =>
    obtain ⟨ha, hr⟩ := (cellsRising_cons _ _).1 h
    rw [List.foldl_cons, ih hr, tabFind_set]
    simp only [cellsFind]
    by_cases e : c.1 = k
    · subst e; simp [cellsFind_none_of_above ha]
    · simp [e, Ne.symm e]

/-- The same of a memory. -/
theorem memGet_load {l : List (Nat × Byte)} (h : cellsRising l = true) {m : Mem} (hm : Memory.wf m = true) (a : Nat) :
    memGet (l.foldl (fun m x => memSet m x.1 x.2) m) a = (cellsFind a l).getD (memGet m a) := by
  induction l generalizing m with
  | nil => rfl
  | cons c r ih =>
    obtain ⟨ha, hr⟩ := (cellsRising_cons _ _).1 h
    rw [List.foldl_cons, ih hr (memSet_wf m _ _ hm), memGet_set m _ _ _ hm]
    simp only [cellsFind]
    by_cases e : c.1 = a
    · subst e; simp [cellsFind_none_of_above ha]
    · simp [e, Ne.symm e]

theorem fastPa_line (a : Nat) : fastLine (lineOf a) = Config.fastPa a := by
  unfold fastLine Config.fastPa lineOf
  rw [Nat.mul_div_cancel_left _ (by norm_num)]

theorem memGet_onlyCapacity (m : Mem) (a : Nat) : memGet (onlyCapacity m) a = if Config.fastPa a then 0 else memGet m a := by
  rw [onlyCapacity, memGet_filter m fun a => !Config.fastPa a]
  cases Config.fastPa a <;> rfl

theorem memGet_onlyFast (m : Mem) (a : Nat) : memGet (onlyFast m) a = if Config.fastPa a then memGet m a else 0 :=
  memGet_filter m Config.fastPa a

/-! ## Posted writes that arrive -/

/-- From `m` to `m'` only what a posted write reaches changes: other memories, queues, contexts' entries. -/
def Mach.Arrives (m m' : Mach) : Prop :=
  ∃ hostMem peerMem queues ctxs free, m' = { m with hostMem := hostMem, peerMem := peerMem, queues := queues, ctxs := ctxs, free := free }

theorem Mach.Arrives.refl (m : Mach) : m.Arrives m := ⟨_, _, _, _, _, rfl⟩

theorem Mach.Arrives.trans {a b c : Mach} (h : a.Arrives b) (g : b.Arrives c) : a.Arrives c := by
  obtain ⟨_, _, _, _, _, rfl⟩ := h
  obtain ⟨_, _, _, _, _, rfl⟩ := g
  exact ⟨_, _, _, _, _, rfl⟩

theorem Mach.Raises.arrives {m m' : Mach} (h : m.Raises m') : m.Arrives m' := by
  obtain ⟨_, _, rfl⟩ := h
  exact ⟨_, _, _, _, _, rfl⟩

theorem Mach.farWrite_arrives (m : Mach) (p : Place) (bs : List Byte) : m.Arrives (m.farWrite p bs) := by
  cases p <;> exact ⟨_, _, _, _, _, rfl⟩

theorem Mach.countDone_arrives (m : Mach) (queue seq : Nat) : m.Arrives (m.countDone queue seq) := ⟨_, _, _, _, _, rfl⟩

theorem Mach.unwritten_arrives (m : Mach) (ctx queue seq : Nat) : m.Arrives (m.unwritten ctx queue seq) := by
  unfold Mach.unwritten
  lift_lets
  intro n m1
  refine Mach.Arrives.trans (b := m1) ⟨_, _, _, _, _, rfl⟩ ?_
  split
  · exact Mach.countDone_arrives ..
  · exact ⟨_, _, _, _, _, rfl⟩

theorem Mach.arrivePosted_arrives (m : Mach) (x : Posted) : m.Arrives (m.arrivePosted x) := by
  unfold Mach.arrivePosted
  split
  · unfold Mach.arriveHost
    split
    · exact (Mach.postError_raises ..).arrives
    · exact Mach.farWrite_arrives ..
    · exact Mach.unwritten_arrives ..
    · exact (Mach.farWrite_arrives ..).trans (Mach.countDone_arrives ..)
  · split
    · exact Mach.Arrives.trans (b := { m with free := m.free + 1 }) ⟨_, _, _, _, _, rfl⟩ (Mach.postError_raises ..).arrives
    · exact Mach.farWrite_arrives ..
  · exact .refl m
  · exact .refl m

/-- Delivered writes leave the list; the rest is theirs to reach. -/
theorem Mach.deliverAll_arrives (m : Mach) (p : Posted → Bool) :
    ({ m with posted := m.posted.filter fun x => !(p x && !m.postHeld x) } : Mach).Arrives (m.deliverAll p) :=
  List.foldlRecOn (motive := fun x => Mach.Arrives _ x) _ Mach.arrivePosted (.refl _) fun _ hx b _ => hx.trans (Mach.arrivePosted_arrives _ b)

/-! ## Streams that are dropped -/

/-- From `m` to `m'` only what held streams send changes. -/
def Mach.Sends (m m' : Mach) : Prop :=
  ∃ posted heldReplies signals, ({ m with posted := posted, heldReplies := heldReplies, signals := signals } : Mach).Arrives m'

theorem Mach.Sends.refl (m : Mach) : m.Sends m := ⟨_, _, _, .refl m⟩

theorem Mach.Sends.trans {a b c : Mach} (h : a.Sends b) (g : b.Sends c) : a.Sends c := by
  obtain ⟨_, _, _, _, _, _, _, _, rfl⟩ := h
  obtain ⟨_, _, _, _, _, _, _, _, rfl⟩ := g
  exact ⟨_, _, _, _, _, _, _, _, rfl⟩

/-- The writes to the host that a stream serves. -/
def servedPost (k : Nat) (s : Ide) (x : Posted) : Bool := serves k s (deviceOf x.ctx) && (match x.at_ with
  | .host _ => true
  | .peer _ _ => false
  | .dev _ => false
  | .spad _ _ => false)

theorem Mach.releasePosts_sends (m : Mach) (k : Nat) (s : Ide) : m.Sends (m.releasePosts k s) := by
  obtain ⟨_, _, _, _, _, e⟩ := m.deliverAll_arrives (servedPost k s)
  have : ∃ heldReplies signals, m.releasePosts k s =
      { m.deliverAll (servedPost k s) with heldReplies := heldReplies, signals := signals } := ⟨_, _, rfl⟩
  obtain ⟨_, _, this⟩ := this
  rw [this, e]
  exact ⟨_, _, _, _, _, _, _, _, rfl⟩

theorem Mach.releasePosts_posted (m : Mach) (k : Nat) (s : Ide) :
    (m.releasePosts k s).posted = m.posted.filter fun x => !(servedPost k s x && !m.postHeld x) := by
  obtain ⟨_, _, _, _, _, e⟩ := m.deliverAll_arrives (servedPost k s)
  have : (m.releasePosts k s).posted = (m.deliverAll (servedPost k s)).posted := rfl
  rw [this, e]

theorem Mach.releasePosts_empty {m : Mach} (hp : m.posted = []) (hh : m.heldReplies = []) (k : Nat) (s : Ide) : m.releasePosts k s = m := by
  cases m
  simp_all [Mach.releasePosts, Mach.deliverAll]

/-- Every stream that is held is made Insecure first. -/
def Mach.failStreams (m : Mach) : Mach :=
  { m with ide := tabMap (fun s => if s.held then { s with insecure := true } else s) m.ide }

theorem Mach.dropStreams_eq (m : Mach) : m.dropStreams =
    { m.failStreams.ide.cells.foldl (fun (m : Mach) s => m.releasePosts s.1 s.2) m.failStreams with ide := ⟨[]⟩, heldReplies := [] } := rfl

theorem Mach.releaseAll_sends (l : List (Nat × Ide)) (m : Mach) :
    m.Sends (l.foldl (fun (m : Mach) s => m.releasePosts s.1 s.2) m) :=
  List.foldlRecOn (motive := fun x => m.Sends x) l _ (.refl m) fun _ hx b _ => hx.trans (Mach.releasePosts_sends _ b.1 b.2)

/-- R322: no stream is held once those that were are Insecure. -/
theorem Mach.failStreams_hostHeld (m : Mach) (ctx : Nat) : m.failStreams.hostHeld ctx = false := by
  simp only [Mach.hostHeld, Mach.failStreams, tabMap, List.any_map, List.any_eq_false]
  rintro ⟨k, s⟩ -
  have hn : (if s.held then { s with insecure := true } else s).held = false := by
    split
    · simp [Ide.held]
    · rename_i h; simpa using h
  simp [hn]

theorem Mach.failStreams_held (m : Mach) (x : Posted) : m.failStreams.postHeld x = false := by
  unfold Mach.postHeld
  split
  · exact m.failStreams_hostHeld x.ctx
  all_goals rfl

theorem Mach.postHeld_congr {m m' : Mach} (h : m'.ide = m.ide) (x : Posted) : m'.postHeld x = m.postHeld x := by
  simp only [Mach.postHeld, Mach.hostHeld, h]

theorem Mach.Sends.ide {m m' : Mach} (h : m.Sends m') : m'.ide = m.ide := by
  obtain ⟨_, _, _, _, _, _, _, _, rfl⟩ := h; rfl

/-- Where no stream is held, what the streams of a list serve has left. -/
theorem Mach.releaseAll_posted (l : List (Nat × Ide)) {m : Mach} (h : ∀ x, m.postHeld x = false) :
    (l.foldl (fun (m : Mach) s => m.releasePosts s.1 s.2) m).posted = m.posted.filter fun x => !l.any fun s => servedPost s.1 s.2 x := by
  induction l generalizing m with
  | nil => simp
  | cons s r ih =>
    have hs := (m.releasePosts_sends s.1 s.2).ide
    rw [List.foldl_cons, ih fun x => (Mach.postHeld_congr hs x).trans (h x), Mach.releasePosts_posted, List.filter_filter]
    congr 1
    funext x
    simp [h x, Bool.and_comm]

/-- No write to the host is left that a stream of the module served. -/
theorem Mach.dropStreams_posted {m : Mach} {x : Posted} (hx : x ∈ m.dropStreams.posted) {k : Nat} {y : Ide} (hy : tabFind m.ide k = some y)
    (hs : serves k y (deviceOf x.ctx) = true) (a : Nat) : x.at_ ≠ .host a := by
  intro ha
  have hp : m.dropStreams.posted = _ := Mach.releaseAll_posted m.failStreams.ide.cells m.failStreams_held
  rw [hp] at hx
  have hn := (List.mem_filter.1 hx).2
  have hm : (k, if y.held then { y with insecure := true } else y) ∈ m.failStreams.ide.cells :=
    List.mem_map.2 ⟨(k, y), cellsFind_mem hy, rfl⟩
  have : servedPost k (if y.held then { y with insecure := true } else y) x = true := by
    have hf : (if y.held then { y with insecure := true } else y).fn = y.fn := by split <;> rfl
    simp only [serves] at hs
    simp only [servedPost, serves, hf, hs, ha, Bool.and_true]
  rw [List.any_eq_true.2 ⟨_, hm, this⟩] at hn
  cases hn

/-- Dropping the streams changes only what they send. -/
theorem Mach.dropStreams_sends (m : Mach) : ({ m with ide := ⟨[]⟩ } : Mach).Sends m.dropStreams := by
  obtain ⟨_, _, _, _, _, _, _, _, e⟩ := Mach.releaseAll_sends m.failStreams.ide.cells m.failStreams
  rw [Mach.dropStreams_eq, e]
  exact ⟨_, _, _, _, _, _, _, _, rfl⟩

/-- With nothing to send, nothing else happens. -/
theorem Mach.dropStreams_empty {m : Mach} (hp : m.posted = []) (hh : m.heldReplies = []) : m.dropStreams = { m with ide := ⟨[]⟩ } := by
  have h (l : List (Nat × Ide)) : l.foldl (fun (m : Mach) s => m.releasePosts s.1 s.2) m.failStreams = m.failStreams := by
    induction l with
    | nil => rfl
    | cons s r ih => rw [List.foldl_cons, Mach.releasePosts_empty (m := m.failStreams) hp hh, ih]
  rw [Mach.dropStreams_eq, h]
  simp [Mach.failStreams, hh]

end Sys2Proof.Machine
end

section
/-! SUPPORT. The module's sleep and its waking (R242, R335), and the steps of its clock (R22). -/

namespace Sys2Proof.Machine

/-! ## The clock (R22) -/

theorem throttle_lower {m : Mach} (h : 50 < m.mhz) (g : m.mhz ≤ 1900) (mg : Mgmt) : throttle true mg m =
    ({ mg with throttled := true }, { m with mhz := m.mhz - 50, refRem := m.refRem * (m.mhz - 50) / m.mhz }) := by
  have : m.mhz - 50 < 1900 := by omega
  simp [throttle, h, this]

theorem throttle_raise {m : Mach} (h : m.mhz ≤ 1850) (mg : Mgmt) : throttle false mg m =
    ({ mg with throttled := decide (m.mhz < 1850) }, { m with mhz := m.mhz + 50, refRem := m.refRem * (m.mhz + 50) / m.mhz }) := by
  have h1 : min 1900 (m.mhz + 50) = m.mhz + 50 := by omega
  have h2 : (m.mhz + 50 < 1900) = (m.mhz < 1850) := by simp only [eq_iff_iff]; omega
  simp [throttle, h1, h2]

/-! ## SLEEP makes every context drain (R265, R335) -/

theorem Mach.drainCtx_ctxs (m : Mach) (mg : Mgmt) (ctx : Nat) : ∃ ctxs, m.drainCtx mg ctx = { m with ctxs := ctxs } := ⟨_, rfl⟩

theorem Mach.drainCtx_has (m : Mach) (mg : Mgmt) (ctx j : Nat) : tabHas (m.drainCtx mg ctx).ctxs j = tabHas m.ctxs j := tabHas_mod ..

/-- A context that drains or is out stays so, and the one that is asked drains. -/
theorem Mach.drainCtx_run (m : Mach) (mg : Mgmt) {ctx j : Nat} (h : (m.ctx j).run ≠ .running ∨ j = ctx ∧ tabHas m.ctxs ctx = true) :
    ((m.drainCtx mg ctx).ctx j).run ≠ .running := by
  simp only [Mach.drainCtx, Mach.ctx_modCtx]
  by_cases e : j = ctx ∧ tabHas m.ctxs ctx = true
  · rw [if_pos e]
    split
    · exact fun h => nomatch h
    · rename_i hn; simpa using hn
  · rw [if_neg e]; exact h.resolve_right e

theorem Mach.drainEvery_ctxs (m : Mach) (mg : Mgmt) : ∃ ctxs, m.drainEvery mg = { m with ctxs := ctxs } :=
  List.foldlRecOn (motive := fun x : Mach => ∃ ctxs, x = { m with ctxs := ctxs }) (tabKeys m.ctxs) (fun m c => m.drainCtx mg c) ⟨_, rfl⟩
    fun x hx _ _ => by obtain ⟨_, rfl⟩ := hx; exact ⟨_, rfl⟩

theorem Mach.drainEvery_run (m : Mach) (mg : Mgmt) {ctx : Nat} (h : tabHas m.ctxs ctx = true) :
    ((m.drainEvery mg).ctx ctx).run ≠ .running := by
  have drains (l : List Nat) (m : Mach) (hl : (m.ctx ctx).run ≠ .running ∨ ctx ∈ l ∧ tabHas m.ctxs ctx = true) :
      ((l.foldl (fun m c => m.drainCtx mg c) m).ctx ctx).run ≠ .running := by
    induction l generalizing m with
    | nil => exact hl.resolve_right fun h => nomatch h.1
    | cons c r ih =>
      refine ih _ ?_
      rcases hl with hl | ⟨hl, hc⟩
      · exact .inl (m.drainCtx_run mg (.inl hl))
      · rcases List.mem_cons.1 hl with rfl | hl
        · exact .inl (m.drainCtx_run mg (.inr ⟨rfl, hc⟩))
        · exact .inr ⟨hl, (m.drainCtx_has ..).trans hc⟩
  exact drains _ m (.inr ⟨(tabHas_iff_mem_keys ..).1 h, h⟩)

/-- A message that is expected is taken, and its command runs (R331). -/
theorem receive_expected {s : State} {h : MboxHead} (he : Expected s h) (cmd : Nat) (run : Command_) :
    receive h cmd run s.mgmt s.mach = match run (s.mgmt.taken h) s.mach with
      | (some a, mg, m) => reply mg m h.fn cmd h.seq a
      | (none, mg, m) => (mg, m) := by
  obtain ⟨hon, hex, hsv, hnx⟩ := he
  have hm : s.mgmt.mailboxOn h.fn = true := by
    simp [Mgmt.mailboxOn, hex, hsv, show s.mgmt.power = .on from hon]
  unfold receive
  rw [hm, if_neg (by simp), if_pos hnx]
  rfl

theorem receive_sleep {s : State} {h : MboxHead} (he : Expected s h) (hf : h.fn = 0) (hj : s.mgmt.jobs = []) :
    receive h 7 (quiesceCmd h .sleep) s.mgmt s.mach =
      ({ s.mgmt.taken h with jobs := [⟨.sleep, 0, h.seq⟩] }, s.mach.drainEvery (s.mgmt.taken h)) := by
  have hq : quiesceCmd h .sleep (s.mgmt.taken h) s.mach =
      (none, { s.mgmt.taken h with jobs := [⟨.sleep, 0, h.seq⟩] }, s.mach.drainEvery (s.mgmt.taken h)) := by
    have ht : (s.mgmt.taken h).jobs = [] := hj
    simp [quiesceCmd, command, quiesceRun, startJob, Mgmt.may, Mgmt.quiescing, ht, hf]
  rw [receive_expected he, hq]

/-! ## Falling asleep -/

/-- What a reply changes: its function, and the vectors. -/
theorem reply_eq (mg : Mgmt) (m : Mach) (f cmd : Nat) (seq : BitVec 16) (a : Answer) :
    ∃ fns, reply mg m f cmd seq a = ({ mg with fns := fns }, { m with signals := m.signals ++ [.msix f 0] }) := ⟨_, rfl⟩

/-- The image that a checkpoint takes (R242). -/
def Mach.image (m : Mach) : Checkpoint :=
  let mem : Mem := ⟨m.mem.cells.filter fun c => m.imaged (lineOf c.1)⟩
  ⟨mem, tabFilter (fun l _ => m.imaged l) m.side, m.bad.filter (fun u => m.imaged (u / 4)), m.maxStamp, Config.imageDigest mem.cells⟩

/-- The machine once the image is taken and SLEEP is answered. -/
def Mach.imagedFor (m : Mach) (fn : Nat) : Mach :=
  { m.leaseFast with claims := ⟨[]⟩, lines := tabMap (fun r => { r with dirty := false }) m.lines, signals := m.signals ++ [.msix fn 0] }

theorem finishJob_sleep {mg : Mgmt} {m : Mach} {j : Job} (hj : mg.jobs = [j]) (hk : j.kind = .sleep) (hq : m.quiet = true) :
    ∃ fns, finishJob mg m = ({ mg with jobs := [], check := some m.image, vaultWrapped := true, sleepKey := true, power := .asleep,
                                       fns := tabMap (fun f => { f with session := false }) fns },
      (m.imagedFor j.fn).dropStreams.loseFast.loseDies) := by
  let taken := takeCheckpoint { mg with jobs := [] } m
  obtain ⟨fns, hr⟩ := reply_eq taken.1 taken.2 j.fn 7 j.seq { status := .ok }
  refine ⟨fns, ?_⟩
  simp only [finishJob, hj, hk, hq, Bool.not_true, Bool.false_eq_true, if_false]
  rw [hr]
  rfl

theorem fn_session (mg : Mgmt) (fns : Tab Fn) (h : mg.fns = tabMap (fun f => { f with session := false }) fns) (f : Nat) :
    (mg.fn f).session = false := by
  simp only [Mgmt.fn, tabGet, h, tabFind_map]
  cases tabFind fns f <;> rfl

/-- What lies in device memory and beside it does not depend on what the streams still sent. -/
theorem Mach.asleep_memory (m : Mach) (fn : Nat) :
    (m.imagedFor fn).dropStreams.loseFast.loseDies.mem = onlyCapacity m.mem ∧
      (m.imagedFor fn).dropStreams.loseFast.loseDies.side = tabFilter (fun l _ => !fastLine l) m.side := by
  obtain ⟨_, _, _, _, _, _, _, _, e⟩ := (m.imagedFor fn).dropStreams_sends
  rw [e]
  exact ⟨rfl, rfl⟩

/-- The image with what the capacity tier holds is what memory held. -/
theorem Mach.image_restores (m : Mach) (a : Nat) :
    (cellsFind a m.image.mem.cells).getD (memGet (onlyCapacity m.mem) a) = memGet m.mem a := by
  have hf : cellsFind a m.image.mem.cells = _ := cellsFind_filter (fun a => m.imaged (lineOf a)) a m.mem.cells
  rw [hf, memGet_onlyCapacity]
  by_cases hi : m.imaged (lineOf a) = true
  · rw [if_pos hi]
    cases hc : cellsFind a m.mem.cells <;> simp [memGet, hc]
  · have hn : Config.fastPa a = false := by
      rw [← fastPa_line]
      simp only [Mach.imaged, Bool.or_eq_true, not_or] at hi
      simpa using hi.2
    simp [hi, hn]

theorem Mach.image_side (m : Mach) (l : Nat) :
    (cellsFind l m.image.side.cells).or (tabFind (tabFilter (fun l _ => !fastLine l) m.side) l) = tabFind m.side l := by
  have hf : cellsFind l m.image.side.cells = _ := tabFind_filterKey m.imaged m.side l
  rw [hf, tabFind_filterKey fun l => !fastLine l]
  by_cases hi : m.imaged l = true
  · cases hc : tabFind m.side l <;> simp [hi]
  · have hn : fastLine l = false := by
      simp only [Mach.imaged, Bool.or_eq_true, not_or] at hi
      simpa using hi.2
    simp [hi, hn]

/-- A byte of the fast tier stands in the image. -/
theorem Mach.image_fast (m : Mach) {a : Nat} (h : Config.fastPa a = true) : memGet m.image.mem a = memGet m.mem a := by
  have hi : m.imaged (lineOf a) = true := by simp [Mach.imaged, fastPa_line, h]
  have hg : memGet m.image.mem a = _ := memGet_filter m.mem (fun a => m.imaged (lineOf a)) a
  rw [hg, if_pos hi]

/-! ## Waking -/

/-- The image loaded over what the capacity tier held gives every byte that memory had, and all that stands beside it. -/
theorem Mach.loadImage_mem {m n : Mach} (hm : Memory.wf m.mem = true) (hn : n.mem = onlyCapacity m.mem) (a : Nat) :
    memGet (n.loadImage m.image).mem a = memGet m.mem a := by
  have hr : cellsRising m.image.mem.cells = true := filter_rising _ ((Memory.wf_iff _).1 hm).1
  refine (memGet_load hr (hn ▸ onlyCapacity_wf _ hm) a).trans ?_
  rw [hn, m.image_restores]

theorem Mach.loadImage_side {m n : Mach} (hm : cellsRising m.side.cells = true) (hn : n.side = tabFilter (fun l _ => !fastLine l) m.side)
    (l : Nat) : tabFind (n.loadImage m.image).side l = tabFind m.side l := by
  have hr : cellsRising m.image.side.cells = true := filter_rising _ hm
  refine (tabFind_load hr _ l).trans ?_
  rw [hn, m.image_side]

theorem sleepWake_image {mg : Mgmt} {c : Checkpoint} (hp : mg.power = .asleep) (hc : mg.check = some c) (hs : mg.sleepKey = true) (m : Mach) :
    sleepWake mg m = (mg.wake, { m.loadImage c with refTicks := 0, refRem := 0, mhz := 1900, dmaOff := [] }) := by
  simp [sleepWake, hp, hc, hs]

end Sys2Proof.Machine

open Sys2Proof Sys2Proof.Machine

/-- Settles O50: the clock by the equations of its step; SLEEP drains every context; the sleeping module keeps what `Mach.image` and the
capacity tier hold, and waking loads the one over the other. -/
theorem clockAndSleep : Obligations.ClockAndSleep := by
  unfold Obligations.ClockAndSleep
  refine ⟨fun s h => ⟨fun h1 h2 => ?lower, fun h1 => ?raise, fun h1 => ?top⟩, fun s h he hf hj => ?sleep,
    fun s j h hj hk hq hm hside => ?asleep⟩
  case lower => exact (onModule_on h (throttle true)).trans (by rw [throttle_lower h1 h2])
  case raise => exact (onModule_on h (throttle false)).trans (by rw [throttle_raise h1.le]; simp [h1])
  case top => exact (onModule_on h (throttle false)).trans (by rw [throttle_raise h1.le]; simp [h1])
  case sleep =>
    refine does_onModule he.on (f := receive h 7 (quiesceCmd h .sleep)) rfl ?_
    rw [receive_sleep he hf hj]
    obtain ⟨_, hd⟩ := s.mach.drainEvery_ctxs (s.mgmt.taken h)
    exact ⟨rfl, by rw [hd]; exact ⟨rfl, rfl, rfl⟩, by rw [hd], fun ctx hc => s.mach.drainEvery_run _ hc⟩
  case asleep =>
    obtain ⟨fns, e⟩ := finishJob_sleep hj hk hq
    obtain ⟨hmem, hsd⟩ := s.mach.asleep_memory j.fn
    rw [e]
    intro t
    have hw := (Mach.memoriesOk_iff s.mach).1 hm
    refine ⟨rfl, ?_, fun hp hh => ?_, fn_session _ _ rfl, rfl, fun a => ?_, fun x hx k y hy hheld hs a => ?_,
      ⟨s.mach.image, rfl, rfl, rfl, fun a ha => s.mach.image_fast ha⟩, fun i hi => ?_, ?_⟩
    · exact (s.mach.imagedFor j.fn).dropStreams_sends.ide
    · have hd : (s.mach.imagedFor j.fn).dropStreams = _ := Mach.dropStreams_empty hp hh
      simp only [t, hd]
      exact ⟨rfl, rfl⟩
    · rw [← memGet_onlyCapacity, ← hmem]
    · exact Mach.dropStreams_posted (m := s.mach.imagedFor j.fn) hx hy hs a
    · rcases hi with ⟨fn, rfl⟩ | ⟨k, rfl⟩ | ⟨q, x, rfl⟩
      · exact onModule_asleep (s := t) rfl (lockFn fn)
      · exact onEvent_asleep (s := t) rfl (fun _ m => m.clearGranule k)
      · exact onModule_asleep (s := t) rfl fun mg m =>
          if q ≥ 512 ∨ (mg.fn (m.queue q).fn).tdi = .error then (mg, m) else (mg, m.wake q x)
    · refine ⟨{ t with mgmt := t.mgmt.wake, mach := { t.mach.loadImage s.mach.image with refTicks := 0, refRem := 0, mhz := 1900, dmaOff := [] } },
        ?_, rfl, Mach.loadImage_mem hw.1 hmem, Mach.loadImage_side hside hsd, rfl, rfl, fun f => rfl, rfl⟩
      have hwake : sleepWake t.mgmt t.mach = _ := sleepWake_image (c := s.mach.image) rfl rfl rfl t.mach
      show onPower sleepWake t = _
      rw [onPower, hwake]
end

section
/-! SUPPORT. What resets of the dies, losses of a supply and alarms leave (R24, R333, R334). -/

namespace Sys2Proof.Machine

variable {α : Type}

/-! ## Blocks that stop -/

/-- From `m` to `m'` only blocks stop: cores, what waits for a block and the contexts' holds change with them. -/
def Mach.Stops (m m' : Mach) : Prop :=
  (∃ blocks ctxs cores wrung gate, m' = { m with blocks := blocks, ctxs := ctxs, cores := cores, wrung := wrung, gate := gate }) ∧
    ∀ c, ∃ holds, m'.ctx c = { m.ctx c with holds := holds }

theorem Mach.Stops.refl (m : Mach) : m.Stops m := ⟨⟨_, _, _, _, _, rfl⟩, fun _ => ⟨_, rfl⟩⟩

theorem Mach.Stops.trans {a b c : Mach} (h : a.Stops b) (g : b.Stops c) : a.Stops c := by
  obtain ⟨⟨_, _, _, _, _, rfl⟩, hc⟩ := h
  obtain ⟨⟨_, _, _, _, _, rfl⟩, gc⟩ := g
  refine ⟨⟨_, _, _, _, _, rfl⟩, fun k => ?_⟩
  obtain ⟨_, e⟩ := hc k
  obtain ⟨hs, e'⟩ := gc k
  exact ⟨hs, by rw [e', e]⟩

theorem Mach.stopBlock_stops (m : Mach) (bid : Nat) : m.Stops (m.stopBlock bid) := by
  obtain ⟨-, e⟩ | ⟨b, cores, wrung, gate, -, e⟩ := m.stopBlock_cases bid
  · rw [e]; exact .refl m
  · rw [e]
    refine ⟨⟨_, _, _, _, _, rfl⟩, fun c => ?_⟩
    have hc := Mach.ctx_modCtx { m with blocks := tabErase m.blocks bid } b.ctx c fun c =>
      { c with holds := c.holds.filter (·.bid != bid) }
    split at hc
    · rename_i h
      obtain ⟨rfl, -⟩ := h
      exact ⟨_, hc⟩
    · exact ⟨_, hc⟩

theorem Mach.stopBlocks_stops (m : Mach) (l : List Nat) : m.Stops (l.foldl Mach.stopBlock m) :=
  List.foldlRecOn (motive := fun x => m.Stops x) l _ (.refl m) fun x hx b _ => hx.trans (x.stopBlock_stops b)

/-- A context keeps its world while blocks stop. -/
theorem Mach.Stops.world {m m' : Mach} (h : m.Stops m') (c : Nat) : (m'.ctx c).world = (m.ctx c).world := by
  obtain ⟨_, e⟩ := h.2 c
  rw [e]

theorem Mach.Stops.isOut {m m' : Mach} (h : m.Stops m') (c : Nat) : m'.isOut c = m.isOut c := by
  obtain ⟨_, e⟩ := h.2 c
  simp only [Mach.isOut, e]

/-- No stop of blocks changes memory, stamps, lines or the count of the reference clock. -/
theorem Mach.Stops.keeps {m m' : Mach} (h : m.Stops m') : sameMemory m m' ∧ m'.stamps = m.stamps ∧ m'.lines = m.lines ∧
    m'.refTicks = m.refTicks := by
  obtain ⟨⟨_, _, _, _, _, rfl⟩, -⟩ := h
  exact ⟨⟨rfl, rfl, rfl⟩, rfl, rfl, rfl⟩

/-! ## Every context that is not out stops -/

theorem tabMap_rising (f : α → α) {t : Tab α} (h : cellsRising t.cells = true) : cellsRising (tabMap f t).cells = true := by
  obtain ⟨l⟩ := t
  induction l with
  | nil => rfl
  | cons c r ih =>
    obtain ⟨ha, hr⟩ := (cellsRising_cons _ _).1 h
    refine (cellsRising_cons _ _).2 ⟨fun x hx => ?_, ih hr⟩
    obtain ⟨y, hy, rfl⟩ := List.mem_map.1 hx
    exact ha y hy

theorem Mach.stopEvery_keeps (m : Mach) : sameMemory m m.stopEvery ∧ m.stopEvery.stamps = m.stamps ∧ m.stopEvery.lines = m.lines ∧
    m.stopEvery.refTicks = m.refTicks :=
  (m.stopBlocks_stops (m.blocksOf fun b => !m.isOut b.ctx)).keeps

/-- A context once its module halts. -/
def Ctx.halted (c : Ctx) : Ctx := if c.run == .switchedOut then c else { c with run := .switchedOut, holds := [], deadline := none }

theorem Mach.stopEvery_ctxs (m : Mach) :
    m.stopEvery.ctxs = tabMap Ctx.halted ((m.blocksOf fun b => !m.isOut b.ctx).foldl Mach.stopBlock m).ctxs := rfl

/-- A context that is out stays out where every context is changed by a function that leaves it so. -/
theorem Mach.isOut_of_map {m m' : Mach} {f : Ctx → Ctx} (e : m'.ctxs = tabMap f m.ctxs)
    (hf : ∀ x, x.run = .switchedOut → (f x).run = .switchedOut) {c : Nat} (h : m.isOut c = true) : m'.isOut c = true := by
  simp only [Mach.isOut, Mach.ctx, tabGet, e, tabFind_map, beq_iff_eq] at h ⊢
  cases hx : tabFind m.ctxs c with
  | none => rw [hx] at h; exact h
  | some x => rw [hx] at h; exact hf x h

/-- Only contexts that are switched out keep their blocks from `m` to `m'`, and the capacity tier and the stamps stay (R24). -/
structure Mach.Halts (m m' : Mach) : Prop where
  rise   : tablesRise m → tablesRise m'
  out    : ∀ c, m.isOut c = true → m'.isOut c = true
  blocks : tablesRise m → ∀ k, tabFind m'.blocks k = (tabFind m.blocks k).filter fun b => m.isOut b.ctx
  bytes  : ∀ a, Config.fastPa a = false → memGet m'.mem a = memGet m.mem a
  stamps : m'.stamps = m.stamps

theorem Mach.Halts.trans {a b c : Mach} (h : a.Halts b) (g : b.Halts c) : a.Halts c where
  rise := g.rise ∘ h.rise
  out k hk := g.out k (h.out k hk)
  blocks hr k := by
    rw [g.blocks (h.rise hr), h.blocks hr, Option.filter_filter]
    congr 1
    funext x
    cases hx : a.isOut x.ctx <;> simp [h.out _, hx]
  bytes k hk := (g.bytes k hk).trans (h.bytes k hk)
  stamps := g.stamps.trans h.stamps

theorem Mach.stopEvery_halts (m : Mach) : m.Halts m.stopEvery where
  rise hr := by
    obtain ⟨hb, hl, hc⟩ := (m.stopBlocks_ends (m.blocksOf fun b => !m.isOut b.ctx)).rise hr
    exact ⟨hb, filter_rising _ hl, tabMap_rising _ hc⟩
  out c hc := by
    rw [← (m.stopBlocks_stops (m.blocksOf fun b => !m.isOut b.ctx)).isOut] at hc
    exact Mach.isOut_of_map m.stopEvery_ctxs (fun x hx => by simp [Ctx.halted, hx]) hc
  blocks hr k := by
    have : tabFind m.stopEvery.blocks k = _ := Mach.stopBlocksOf_blocks hr (fun b => !m.isOut b.ctx) k
    simpa using this
  bytes a _ := by rw [m.stopEvery_keeps.1.1]
  stamps := m.stopEvery_keeps.2.1

/-- What a block that is left belongs to, and what a context that is out keeps. -/
theorem Mach.Halts.left {m m' : Mach} (h : m.Halts m') (hr : tablesRise m) {bid : Nat} {b : Block} (hb : tabFind m'.blocks bid = some b) :
    (m.ctx b.ctx).run = .switchedOut := by
  rw [h.blocks hr, Option.filter_eq_some_iff] at hb
  simpa [Mach.isOut] using hb.2

theorem Mach.Halts.saved {m m' : Mach} (h : m.Halts m') (hr : tablesRise m) {bid : Nat} {b : Block} (hb : tabFind m.blocks bid = some b)
    (ho : (m.ctx b.ctx).run = .switchedOut) : tabFind m'.blocks bid = some b := by
  rw [h.blocks hr, Option.filter_eq_some_iff]
  exact ⟨hb, by simp [Mach.isOut, ho]⟩

/-! ## Resets of the dies (R24) -/

theorem memGet_onlyCapacity_of_slow (m : Mem) {a : Nat} (h : Config.fastPa a = false) : memGet (onlyCapacity m) a = memGet m a := by
  rw [memGet_onlyCapacity, h]; rfl

theorem memGet_onlyCapacity_of_fast (m : Mem) {a : Nat} (h : Config.fastPa a = true) : memGet (onlyCapacity m) a = 0 := by
  rw [memGet_onlyCapacity, h]; rfl

theorem Mach.resetCompute_halts (m : Mach) : m.Halts m.resetCompute :=
  let h := m.stopEvery_halts
  ⟨h.rise, h.out, h.blocks, h.bytes, h.stamps⟩

/-- A halt that also loses the fast tier. -/
theorem Mach.loseFast_halts (m : Mach) : m.Halts m.stopEvery.loseFast :=
  let h := m.stopEvery_halts
  ⟨h.rise, h.out, h.blocks, fun a ha => (memGet_onlyCapacity_of_slow _ ha).trans (h.bytes a ha), h.stamps⟩

theorem Mach.resetCache_halts (m : Mach) : m.Halts m.resetCache :=
  let h := m.loseFast_halts
  ⟨h.rise, h.out, h.blocks, h.bytes, h.stamps⟩

/-- Whichever dies are reset, each reset is such a halt, and so is their sequence. -/
theorem dieReset_halts (mg : Mgmt) (m : Mach) : ∀ {compute cache hbm : Bool}, (compute || cache || hbm) = true →
    m.Halts (dieReset compute cache hbm mg m).2
  | true, false, false, _ => m.resetCompute_halts
  | false, true, false, _ => m.resetCache_halts
  | false, false, true, _ => m.loseFast_halts
  | true, true, false, _ => m.resetCompute_halts.trans (Mach.resetCache_halts _)
  | true, false, true, _ => m.resetCompute_halts.trans (Mach.loseFast_halts _)
  | false, true, true, _ => m.resetCache_halts.trans (Mach.loseFast_halts _)
  | true, true, true, _ => m.resetCompute_halts.trans ((Mach.resetCache_halts _).trans (Mach.loseFast_halts _))

theorem dieReset_mgmt (compute cache hbm : Bool) (mg : Mgmt) (m : Mach) :
    (dieReset compute cache hbm mg m).1.check = mg.check ∧ (dieReset compute cache hbm mg m).1.dump = mg.dump ∧
      (cache = true → (dieReset compute cache hbm mg m).1.pways = 0 ∧ (dieReset compute cache hbm mg m).1.plock = false) := by
  cases cache
  · exact ⟨rfl, rfl, fun h => nomatch h⟩
  · exact ⟨rfl, rfl, fun _ => ⟨rfl, rfl⟩⟩

/-- A reset of the memory dies alone changes neither the clock's count nor the lines of the cache dies. -/
theorem Mach.loseFast_keeps (m : Mach) (b : Bool) : (if b then m.stopEvery.loseFast else m).refTicks = m.refTicks ∧
    (if b then m.stopEvery.loseFast else m).lines = m.lines := by
  obtain ⟨-, -, hl, ht⟩ := m.stopEvery_keeps
  cases b
  · exact ⟨rfl, rfl⟩
  · exact ⟨ht, hl⟩

theorem dieReset_refTicks (cache hbm : Bool) (mg : Mgmt) (m : Mach) : (dieReset true cache hbm mg m).2.refTicks = 0 := by
  have hc : (if cache then m.resetCompute.resetCache else m.resetCompute).refTicks = 0 := by
    cases cache
    · rfl
    · exact m.resetCompute.stopEvery_keeps.2.2.2
  cases cache <;> exact (Mach.loseFast_keeps _ hbm).1.trans hc

theorem dieReset_lines (compute hbm : Bool) (mg : Mgmt) (m : Mach) : (dieReset compute true hbm mg m).2.lines = ⟨[]⟩ :=
  (Mach.loseFast_keeps _ hbm).2

/-- The fast tier reads zero after a reset of the cache or the memory dies (log 19). -/
theorem dieReset_fast (compute : Bool) {cache hbm : Bool} (h : (cache || hbm) = true) (mg : Mgmt) (m : Mach) {a : Nat}
    (ha : Config.fastPa a = true) : memGet (dieReset compute cache hbm mg m).2.mem a = 0 := by
  cases hbm with
  | true => exact memGet_onlyCapacity_of_fast _ ha
  | false =>
    obtain rfl : cache = true := by simpa using h
    exact memGet_onlyCapacity_of_fast _ ha

/-! ## The supply of the capacity tier (R24) -/

theorem Mach.loseSaved_mem (m : Mach) : m.loseSaved.mem = m.mem := (m.stopBlocks_stops (m.blocksOf fun b => m.isOut b.ctx)).keeps.1.1

/-- No block of a context that was out is left. -/
theorem Mach.loseSaved_blocks {m : Mach} (hr : tablesRise m) {bid : Nat} {b : Block} (hb : tabFind m.loseSaved.blocks bid = some b) :
    (m.ctx b.ctx).run ≠ .switchedOut := by
  have : tabFind m.loseSaved.blocks bid = _ := Mach.stopBlocksOf_blocks hr (fun b => m.isOut b.ctx) bid
  rw [hb, eq_comm, Option.filter_eq_some_iff] at this
  simpa [Mach.isOut] using this.2

/-! ## MB_STAT (R333, R334) -/

/-- Two flags that stand above a four-bit field. -/
theorem testBit_flags {n : Nat} (h : n < 16) (a b : Bool) :
    (n + boolBit a * 2 ^ 4 + boolBit b * 2 ^ 5).testBit 4 = a ∧ (n + boolBit a * 2 ^ 4 + boolBit b * 2 ^ 5).testBit 5 = b := by
  have flag (x : Bool) : boolBit x < 2 ∧ decide (boolBit x = 1) = x := by cases x <;> decide
  obtain ⟨ha, ea⟩ := flag a
  obtain ⟨hb, eb⟩ := flag b
  simp only [Nat.testBit_eq_decide_div_mod_eq]
  exact ⟨.trans (decide_eq_decide.2 (by omega)) ea, .trans (decide_eq_decide.2 (by omega)) eb⟩

section
variable (mg : Mgmt) (m : Mach) (fn : Nat)

theorem readBar_mbStat_alarm : (readBar mg m fn .mbStat).getLsbD 4 = mg.alarm := by
  rw [readBar_mbStat, BitVec.getLsbD_ofNat, (testBit_flags (mg.fn fn).outSlot.isLt ..).1]
  rfl

theorem readBar_mbStat_dump : (readBar mg m fn .mbStat).getLsbD 5 = mg.dump.isSome := by
  rw [readBar_mbStat, BitVec.getLsbD_ofNat, (testBit_flags (mg.fn fn).outSlot.isLt ..).2]
  rfl

end

/-! ## Alarms (R334) -/

/-- A function of the list is in ERROR once the list is through. -/
theorem tdi_error (l : List Nat) (t : Tab Fn) {f : Nat} (h : f ∈ l ∨ (tabGet t f Fn.reset).tdi = .error) :
    (tabGet (l.foldl (fun t f => tabSet t f { tabGet t f Fn.reset with tdi := .error }) t) f Fn.reset).tdi = .error := by
  induction l generalizing t with
  | nil => exact h.resolve_left fun h => nomatch h
  | cons k r ih =>
    refine ih _ ?_
    by_cases e : f = k
    · exact .inr (by rw [tabGet_set, if_pos e])
    · rw [tabGet_set, if_neg e]
      exact h.imp_left fun h => (List.mem_cons.1 h).resolve_left e

theorem Mgmt.erase_tdi (mg : Mgmt) {f : Nat} (h : f < 64) : (mg.erase.fn f).tdi = .error := tdi_error _ _ (.inl (List.mem_range.2 h))

theorem Mach.releasePosts_ends (m : Mach) (k : Nat) (s : Ide) : m.Ends (m.releasePosts k s) :=
  (m.deliverAll_ends (servedPost k s)).trans (.of_tables rfl)

/-- Streams are dropped with an ending, but for the streams themselves. -/
theorem Mach.dropStreams_ends (m : Mach) : ∃ m', m.failStreams.Ends m' ∧ m.dropStreams = { m' with ide := ⟨[]⟩, heldReplies := [] } :=
  ⟨_, .foldl (fun m (s : Nat × Ide) => m.releasePosts_ends s.1 s.2) _ _, m.dropStreams_eq⟩

/-- The machine as the alarm finds it once streams are dropped and DMA has stopped. -/
def Mach.alarmed (m : Mach) : Mach := { m.dropStreams with dmaOff := List.range 64 }

theorem Mach.alarmed_rise {m : Mach} (h : tablesRise m) : tablesRise m.alarmed := by
  obtain ⟨m', he, e⟩ := m.dropStreams_ends
  have := he.rise h
  rw [Mach.alarmed, e]
  exact this

theorem Mach.alarmed_has (m : Mach) (c : Nat) : tabHas m.alarmed.ctxs c = tabHas m.ctxs c := by
  obtain ⟨m', he, e⟩ := m.dropStreams_ends
  have := he.has c
  rw [Mach.alarmed, e]
  exact this

/-- The reset of every context of a list. -/
def Mach.resetAll (m : Mach) (mg : Mgmt) (l : List Nat) : Mach := l.foldl (fun m c => m.resetOther mg c) m

theorem Mach.resetAll_ends (m : Mach) (mg : Mgmt) (l : List Nat) : m.Ends (m.resetAll mg l) :=
  .foldl (fun m c => m.resetOther_ends mg c) l m

/-- A context that is reset among others is left reset. -/
theorem Mach.resetAll_wasReset {m : Mach} (hr : tablesRise m) (mg : Mgmt) {l : List Nat} {ctx : Nat} (hl : ctx ∈ l)
    (hc : tabHas m.ctxs ctx = true) : ∃ n, wasReset (m.resetAll mg l) ctx (Config.fatalInfo n) := by
  induction l generalizing m with
  | nil => cases hl
  | cons c r ih =>
    have he := m.resetOther_ends mg c
    rcases List.mem_cons.1 hl with rfl | hl
    · exact ⟨_, (Mach.resetOther_wasReset hr mg hc).of_ends (he.rise hr) (Mach.resetAll_ends _ mg r)⟩
    · exact ih (he.rise hr) hl ((he.has ctx).trans hc)

theorem securityAlarm_on {mg : Mgmt} (h : mg.power = .on) (m : Mach) :
    securityAlarm mg m = (mg.erase, m.alarmed.resetAll mg (tabKeys m.alarmed.ctxs)) := by
  simp only [securityAlarm, h]
  rfl

theorem securityAlarm_asleep {mg : Mgmt} (h : mg.power ≠ .on) (m : Mach) :
    securityAlarm mg m = (mg.erase, m.alarmed.dropWorlds.eraseSealed) := by
  simp only [securityAlarm, beq_iff_eq, if_neg h]
  rfl

/-- What an alarm leaves of the machine. -/
structure Mach.Alarmed (m m' : Mach) (on : Bool) : Prop where
  ide    : m'.ide = ⟨[]⟩
  worlds : ∀ ctx w, (m'.ctx ctx).world = some w → w.valid = false
  reset  : on = true → ∀ ctx, tabHas m.ctxs ctx = true → ∃ n, wasReset m' ctx (Config.fatalInfo n)

/-- No world is valid once every world was dropped. -/
theorem Mach.dropWorlds_world (m : Mach) {c : Nat} {w : World} (h : (m.dropWorlds.ctx c).world = some w) : w.valid = false := by
  simp only [Mach.dropWorlds, Mach.ctx, tabGet, tabFind_map] at h
  cases hx : tabFind m.ctxs c with
  | none => rw [hx] at h; cases h
  | some x =>
    rw [hx] at h
    obtain ⟨_, -, rfl⟩ := Option.map_eq_some_iff.1 h
    rfl

/-- The module is on: every context is reset, and one that is not there has no world. -/
theorem Mach.resetAll_alarmed {m : Mach} (hr : tablesRise m) (mg : Mgmt) :
    m.Alarmed (m.alarmed.resetAll mg (tabKeys m.alarmed.ctxs)) true := by
  have hres {ctx : Nat} (hc : tabHas m.alarmed.ctxs ctx = true) :=
    Mach.resetAll_wasReset (Mach.alarmed_rise hr) mg ((tabHas_iff_mem_keys ..).1 hc) hc
  have he := m.alarmed.resetAll_ends mg (tabKeys m.alarmed.ctxs)
  refine ⟨he.ide, fun ctx w hw => ?_, fun _ ctx hc => hres ((m.alarmed_has ctx).trans hc)⟩
  cases hc : tabHas m.alarmed.ctxs ctx with
  | true =>
    obtain ⟨_, h⟩ := hres hc
    rw [h.world] at hw
    cases hw
  | false =>
    rw [Mach.ctx_of_not_has ((he.has ctx).trans hc)] at hw
    cases hw

/-- The module sleeps: every world is dropped. -/
theorem Mach.eraseSealed_alarmed (m : Mach) : m.Alarmed m.alarmed.dropWorlds.eraseSealed false := by
  have hs : m.alarmed.dropWorlds.Stops m.alarmed.dropWorlds.eraseSealed := Mach.stopBlocks_stops ..
  refine ⟨(Mach.stopBlocks_ends ..).ide, fun ctx w hw => ?_, fun h => nomatch h⟩
  rw [hs.world] at hw
  exact Mach.dropWorlds_world _ hw

theorem securityAlarm_alarmed (mg : Mgmt) (m : Mach) (hr : mg.power = .on → tablesRise m) :
    ∃ m', securityAlarm mg m = (mg.erase, m') ∧ m.Alarmed m' (mg.power == .on) := by
  by_cases h : mg.power = .on
  · exact ⟨_, securityAlarm_on h m, by rw [h]; exact Mach.resetAll_alarmed (hr h) mg⟩
  · exact ⟨_, securityAlarm_asleep h m, by rw [beq_false_of_ne h]; exact m.eraseSealed_alarmed⟩

end Sys2Proof.Machine

open Sys2Proof Sys2Proof.Machine

/-- Settles O51: each reset of a die is a halt (`Mach.Halts`), and halts follow one another; an alarm resets every context in turn, and
what a reset left no later one changes. -/
theorem resetsAndAlarms : Obligations.ResetsAndAlarms := by
  unfold Obligations.ResetsAndAlarms
  intro isOut stopped
  refine ⟨fun s compute cache hbm h hd => ?dies, fun s => ?supply, fun s h => ?fatal, fun s => ?power, fun s hr => ?alarm⟩
  case dies =>
    refine does_onModule h rfl ?_
    have hh := dieReset_halts s.mgmt s.mach hd
    obtain ⟨hck, hdm, hpw⟩ := dieReset_mgmt compute cache hbm s.mgmt s.mach
    refine ⟨hh.bytes, hck, hdm, fun hr _ _ hb => hh.left hr hb, ?_, hh.stamps, fun hr _ _ hb ho => hh.saved hr hb ho, ?_,
      fun hf a ha => dieReset_fast compute hf _ _ ha⟩
    · rintro rfl; exact dieReset_refTicks ..
    · rintro rfl; exact ⟨dieReset_lines compute hbm s.mgmt _, hpw rfl⟩
  case supply =>
    refine ⟨_, rfl, rfl, rfl, fun hr _ _ hb => Mach.loseSaved_blocks hr hb, fun a => ?_⟩
    exact (memGet_onlyFast ..).trans (by rw [Mach.loseSaved_mem])
  case fatal =>
    have hh := s.mach.stopEvery_halts
    refine ⟨Config.dumpDigest s.mach.free, does_onModule h rfl
      ⟨rfl, s.mach.stopEvery_keeps.1, fun hr _ _ hb => hh.left hr hb, ?_, _, rfl, ?_, rfl⟩⟩
    · exact readBar_mbStat_dump ..
    · exact readBar_mbStat_dump ..
  case power => exact ⟨_, rfl, rfl, memGet_onlyCapacity _, rfl, rfl, rfl, rfl, rfl, rfl⟩
  case alarm =>
    obtain ⟨m, e, ha⟩ := securityAlarm_alarmed s.mgmt s.mach hr
    refine ⟨{ s with mgmt := s.mgmt.erase, mach := m }, ?_, rfl, rfl, rfl, rfl, ha.ide, fun f hf => s.mgmt.erase_tdi hf, ha.worlds,
      fun h => ha.reset (beq_iff_eq.2 h), _, rfl, readBar_mbStat_alarm ..⟩
    show onPower securityAlarm s = _
    rw [onPower, e]
end

section
/-! SUPPORT. Instruction forms and operands, whatever the instruction: what no instruction of a program changes (R320), and what an
operand reads that names no register (R37, R83, R345). -/

namespace Sys2Proof.Machine

/-! ## Instruction forms -/

/-- An instruction form means the issue of its operation. -/
theorem exec_eq_issueOp {i : Instr} {op : Op} (h : opOf i = some op) (s : State) : exec i s = issueOp i op s := by
  cases i
  all_goals cases h
  all_goals rfl

theorem onIssue_next {f : Mgmt → Issue → Mach → Mach} {s t : State} (h : onIssue f s = .next t) :
    ∃ m, t = { s with mach := m } := by
  unfold onIssue at h
  split at h
  · cases h
  · exact ⟨_, (Host.Outcome.next.inj h).symm⟩

/-- An instruction form changes the machine alone. -/
theorem exec_form_next {i : Instr} {s t : State} (hi : (opOf i).isSome = true) (h : exec i s = .next t) :
    ∃ m, t = { s with mach := m } := by
  obtain ⟨op, ho⟩ := Option.isSome_iff_exists.1 hi
  rw [exec_eq_issueOp ho] at h
  exact onIssue_next h

/-! ## Operands that name no register (R37, R83, R345) -/

theorem View.rd_const {v : View} {o : Operand} {k : Nat} (h : regOf v.lane o k = none) (pos : Nat) : v.rd pos o k = ⟨v.const o, 0⟩ := by
  rw [View.rd, h]

theorem View.pbits_p7 (v : View) (pos : Nat) : v.pbits pos (.p 7) = 15 := by
  rw [View.pbits, View.val, View.rd_const rfl]
  rfl

end Sys2Proof.Machine

open Sys2Proof Sys2Proof.Machine

/-- Settles O57: an operand that names no register reads its constant (`View.rd_const`), and an instruction form changes the machine
alone (`exec_form_next`). -/
theorem hardwiredAndProtected : Obligations.HardwiredAndProtected := by
  unfold Obligations.HardwiredAndProtected
  refine ⟨fun v pos k => ⟨View.rd_const rfl pos, View.rd_const rfl pos, v.pbits_p7 pos, ?_⟩, fun _ _ => ⟨rfl, rfl⟩,
    fun i s t hi h => ?_⟩
  · rw [View.rd_const rfl]
  · obtain ⟨m, rfl⟩ := exec_form_next hi h
    exact ⟨rfl, rfl⟩
end

section
/-! SUPPORT. The step as fetch, decode and execution (R38, R42, R337 to R341, R353). -/

namespace Sys2Proof.Machine

/-! ## Code in plain memory (R128, R338) -/

/-- A byte that is neither sealed nor to be cleared reads as it lies in memory. -/
theorem Mach.viewByte_plain {m : Mach} {pa : Nat} (hs : m.scrub.contains (granuleOf pa) = false) (hl : tabFind m.side (lineOf pa) = none) :
    m.viewByte none pa = memGet m.mem pa := by
  simp only [Mach.viewByte, hs, hl, Bool.false_eq_true, if_false]

theorem Mach.viewBytes_plain {m : Mach} {pa n : Nat} (h : plainRange m pa n) : m.viewBytes none pa n = memRead m.mem pa n := by
  obtain ⟨-, hs, hl⟩ := h
  induction n generalizing pa with
  | zero => rfl
  | succ n ih =>
    simp only [Mach.viewBytes, memRead]
    rw [Mach.viewByte_plain (hs pa (le_refl _) (by omega)) (hl pa (le_refl _) (by omega)),
      ih (fun a h1 h2 => hs a (by omega) (by omega)) fun a h1 h2 => hl a (by omega) (by omega)]

theorem memRead_append (m : Mem) (a j k : Nat) : memRead m a (j + k) = memRead m a j ++ memRead m (a + j) k := by
  induction j generalizing a with
  | zero => simp [memRead]
  | succ j ih =>
    rw [show j + 1 + k = (j + k) + 1 by omega]
    simp only [memRead, ih, List.cons_append, show a + 1 + j = a + (j + 1) by omega]

/-- A part of a plain range is one. -/
theorem plainRange.part {m : Mach} {pa n : Nat} (h : plainRange m pa n) {a k : Nat} (hlo : pa ≤ a) (hhi : a + k ≤ pa + n) :
    plainRange m a k := by
  obtain ⟨hg, hs, hl⟩ := h
  refine ⟨?_, fun x h1 h2 => hs x (by omega) (by omega), fun x h1 h2 => hl x (by omega) (by omega)⟩
  simp only [Mach.badRange, Bool.or_false, List.any_eq_false, Bool.and_eq_true, decide_eq_true_eq, not_and, not_lt] at hg ⊢
  intro u hu h
  have := hg u hu (by omega)
  omega

theorem lineOf_mem_linesOf {pa n a : Nat} (hlo : pa ≤ a) (hhi : a < pa + n) : lineOf a ∈ linesOf pa n := by
  have h1 : lineOf pa ≤ lineOf a := Nat.div_le_div_right hlo
  have h2 : lineOf a ≤ lineOf (pa + n - 1) := Nat.div_le_div_right (by omega)
  exact List.mem_map.2 ⟨lineOf a - lineOf pa, List.mem_range.2 (by omega), by omega⟩

/-- No byte of a range lies on a line that was written since the launch's start stamp. -/
def Mach.codeStands (m : Mach) (launch pa n : Nat) : Prop :=
  ∀ lc c, m.launch? launch = some lc → lc.code = some c → ∀ a, pa ≤ a → a < pa + n → (m.lineStamps (lineOf a)).wts ≤ lc.start

theorem Mach.codeStands.part {m : Mach} {launch pa n : Nat} (h : m.codeStands launch pa n) {a k : Nat} (hlo : pa ≤ a)
    (hhi : a + k ≤ pa + n) : m.codeStands launch a k :=
  fun lc c h1 h2 x h3 h4 => h lc c h1 h2 x (by omega) (by omega)

/-- Code words that nothing wrote since the launch's start are those that lie in memory. -/
theorem Mach.codeWords_plain {m : Mach} {launch pa n : Nat} (hp : plainRange m pa (4 * n)) (hw : m.codeStands launch pa (4 * n)) :
    m.codeWords launch none pa n = (memRead m.mem pa (4 * n), m) := by
  induction n generalizing pa with
  | zero => rfl
  | succ n ih =>
    have hr := ih (pa := pa + 4) (hp.part (by omega) (by omega)) (hw.part (by omega) (by omega))
    have hv : m.viewBytes none pa 4 = memRead m.mem pa 4 := Mach.viewBytes_plain (hp.part (le_refl _) (by omega))
    rw [show 4 * (n + 1) = 4 + 4 * n by omega, memRead_append]
    simp only [Mach.codeWords, hv]
    cases hl : m.launch? launch with
    | none => simp only [Option.bind_none, hr]
    | some lc =>
      cases hc : lc.code with
      | none => simp only [Option.bind_some, hc, Option.map_none, hr]
      | some c => simp only [Option.bind_some, hc, Option.map_some, if_pos (hw lc c hl hc pa (le_refl _) (by omega)), hr]

/-- Whole words of a readable page of this module's device memory, as they are fetched. -/
theorem Mach.fetchPiece_plain {m : Mach} {a : Actor} {va n : Nat} {l : Leaf} (ht : m.translate a va = (.ok l, m)) (hx : l.x = true)
    (hs : l.sealed = false) (hd : l.tier ≤ 1) (hp : plainRange m (l.frame + va % 2 ^ l.log) (4 * n))
    (hw : m.codeStands a.launch (l.frame + va % 2 ^ l.log) (4 * n)) (mg : Mgmt) :
    m.fetchPiece mg a va (4 * n) = (.ok (memRead m.mem (l.frame + va % 2 ^ l.log) (4 * n)), m) := by
  have hplace : m.placeOf mg a.ctx l va = .ok (.dev (l.frame + va % 2 ^ l.log)) := by
    simp only [Mach.placeOf, show ¬ l.tier = 2 by omega, show ¬ l.tier = 3 by omega, if_false]
  have hview : m.viewOf a l = none := by simp only [Mach.viewOf, hs, Bool.false_eq_true, if_false]
  simp only [Mach.fetchPiece, ht, hplace, hview, hx, hs, hp.good, Bool.not_true, Bool.false_and, Bool.or_self, Bool.false_eq_true,
    if_false, show 4 * n / 4 = n by omega, Mach.codeWords_plain hp hw]

theorem Mach.fetchPieces_one {m m' : Mach} {mg : Mgmt} {a : Actor} {va n : Nat} {bs : List Byte}
    (h : m.fetchPiece mg a va n = (.ok bs, m')) : m.fetchPieces mg a [(va, n)] = (.ok bs, m') := by
  simp only [Mach.fetchPieces, h, List.append_nil]

/-- A clause within one page is fetched by its header and then whole. -/
theorem Mach.fetchClause_plain {m : Mach} {mg : Mgmt} {a : Actor} {va n : Nat} {h : Word} {bs : List Byte} (hn : n = 4 * clauseWords h)
    (hh : ∃ hd, m.fetchPiece mg a va 4 = (.ok hd, m) ∧ wordOfBytes hd = h) (hb : m.fetchPiece mg a va n = (.ok bs, m))
    (hpage : va % 65536 + n ≤ 65536) (hok : headerOk h = true) : m.fetchClause mg a va = (.ok (wordsOfBytes bs), m) := by
  obtain ⟨hd, he, rfl⟩ := hh
  subst hn
  have hone : pagePieces va (4 * clauseWords (wordOfBytes hd)) = [(va, 4 * clauseWords (wordOfBytes hd))] := by
    simp only [pagePieces]
    rw [if_pos (by omega)]
  simp only [Mach.fetchClause, Mach.fetchPieces_one he, hone, Mach.fetchPieces_one hb, hok, if_true]

/-! ## The turn of a warp (R38, R42, R341, R353) -/

/-- The write slots that a clause waits for are all empty. -/
theorem noWaits {h : Word} {ws : List Nat} (hw : ∀ j, j < 6 → (headerWait h).testBit j = true → ws.getD j 0 = 0) :
    ((List.range 6).any fun j => (headerWait h).testBit j && ws.getD j 0 != 0) = false := by
  rw [List.any_eq_false]
  intro j hj
  have := hw j (List.mem_range.1 hj)
  simp_all

/-- A group whose clause is fetched runs the instruction at its index, once that decodes and can issue: at the head of the clause
(index 0) with the completions of the wait mask observed. -/
theorem Mach.turnOfGroup_run {m m' : Mach} {mg : Mgmt} {bid k : Nat} {b : Block} {w : Warp} {pc : Pc} {code : List Word} {i : Instr} {op : Op}
    (hw : pc.index = 0 → ∀ j, j < 6 → (headerWait (code.headD 0)).testBit j = true → w.ws.getD j 0 = 0)
    (hc : classOk (code.headD 0) (instrWords code (code.headD 0) pc.index).1 = true)
    (hd : decodeWords (instrWords code (code.headD 0) pc.index).1 (instrWords code (code.headD 0) pc.index).2 = .ok i)
    (ho : opOf i = some op)
    (hm : m' = if pc.index = 0 then m.modWarp bid k (observeSlots w.group (code.headD 0)) else m)
    (hi : op.canIssue mg (issueFor bid k w.group pc (code.headD 0)) m' = true) :
    m.turnOfGroup mg bid k b w pc code = (.run (issueFor bid k w.group pc (code.headD 0)) i, m') := by
  have hwait : (pc.index == 0 && (List.range 6).any fun j => (headerWait (code.headD 0)).testBit j && w.ws.getD j 0 != 0) = false := by
    by_cases e : pc.index = 0
    · rw [noWaits (hw e), Bool.and_false]
    · simp [e]
  subst hm
  simp only [Mach.turnOfGroup, hwait, hc, hd, ho, hi, Bool.not_true, Bool.false_eq_true, if_false, if_true]

theorem Stands.finds {m : Mach} {bid k : Nat} {b : Block} {w : Warp} (h : Stands m bid k b w) :
    m.block? bid = some b ∧ m.warp? bid k = some w :=
  ⟨h.block, by simp only [Mach.warp?, Mach.block?, h.block, Option.bind_some, h.warp]⟩

/-! ## Moves -/

/-- A scheduler whose oldest candidate has an instruction to run issues it. -/
theorem Mach.schedule_run {m m' : Mach} {mg : Mgmt} {core sched : Nat} {x : Nat × Nat × Warp} {others : List (Nat × Nat × Warp)}
    {q : Issue} {i : Instr} (hc : m.candidates core sched = x :: others) (ht : m.turnOfWarp mg x.1 x.2.1 = (.run q i, m')) :
    m.schedule mg core sched = (.run q i, m'.markIssued core sched) := by
  simp only [Mach.schedule, hc, Mach.firstTurn, ht]

/-- A move of the agenda other than the passing of a cycle is the step. -/
theorem step_move {s : State} {mv : Move} {rest : List Move} (h : s.agenda = mv :: rest) (ht : mv ≠ .tick) :
    step s = runMove mv { s with agenda := rest } := by
  simp only [step, h, timed, if_neg ht]

end Sys2Proof.Machine

open Sys2Proof Sys2Proof.Machine

/-- Settles O56: a clause in plain memory is read word by word (`Mach.codeWords_plain`); a turn runs what decodes and can issue
(`Mach.turnOfGroup_run`); a step is the move that stands first. -/
theorem stepRunsTheDecodedInstruction : Obligations.StepRunsTheDecodedInstruction := by
  unfold Obligations.StepRunsTheDecodedInstruction
  refine ⟨?fetch, ?entry, ?inside, ?issue, ?event⟩
  case fetch =>
    intro m mg a va l ht hx hs hd pa h hok hpage hlog hp hw
    have hcw : 1 ≤ clauseWords h := by simp only [clauseWords]; omega
    have hsince : m.codeStands a.launch pa (4 * clauseWords h) :=
      fun lc c h1 h2 x h3 h4 => hw lc c h1 h2 _ (lineOf_mem_linesOf h3 h4)
    refine Mach.fetchClause_plain rfl ⟨_, Mach.fetchPiece_plain (n := 1) (ht va rfl) hx hs hd (hp.part (le_refl _) (by omega))
      (hsince.part (le_refl _) (by omega)) mg, rfl⟩ (Mach.fetchPiece_plain (ht va rfl) hx hs hd hp hsince mg)
      hpage hok
  case entry =>
    intro m mg bid k b w lane l ws m1 i op hst hg hl ⟨hidx, hcode, hf, hstall, hst1⟩ h q m2 hwait hc hd ho hi
    obtain ⟨hb, hw⟩ := hst.finds
    simp only [Mach.turnOfWarp, hb, hw, hg, Option.bind_some, hl, hidx, hcode, hf, hstall, List.isEmpty_nil, Bool.not_true,
      Bool.false_eq_true, ne_eq, not_true_eq_false, or_self, if_false]
    exact Mach.turnOfGroup_run (w := setCode w.group ws w) (m' := m2) (fun _ => hwait) (by rwa [hidx]) (by rwa [hidx]) ho
      (if_pos hidx).symm hi
  case inside =>
    intro m mg bid k b w lane l i op hst hg hl hidx h q hc hd ho hi
    obtain ⟨hb, hw⟩ := hst.finds
    simp only [Mach.turnOfWarp, hb, hw, hg, Option.bind_some, hl, if_pos (Or.inl hidx : l.pc.index ≠ 0 ∨ _)]
    exact Mach.turnOfGroup_run (fun e => absurd e hidx) hc hd ho (if_neg hidx).symm hi
  case issue =>
    intro s core sched rest x others q i m ha hc ht t he
    rw [step_move ha (by simp), runMove, Mach.schedule_run hc ht]
    simp only [he, finish]
  case event =>
    intro s e rest t ha ho he
    rw [step_move ha (by simp), runMove]
    simp only [ho, Option.isSome_none, Bool.false_eq_true, if_false, he, finish]
end

section
/-! SUPPORT. Spawn bins: how a record is filed (R54, R55), how bins ripen (R56), and what a waiting SPAWN does once its records
are filed. -/

namespace Sys2Proof.Machine

variable {α : Type}

/-! ## Tables -/

theorem tabFind_erase_of_ne (t : Tab α) {k j : Nat} (h : j ≠ k) : tabFind (tabErase t k) j = tabFind t j := by
  unfold tabFind tabErase
  induction t.cells with
  | nil => rfl
  | cons c r ih =>
    obtain ⟨i, y⟩ := c
    simp only [cellsErase]
    split_ifs with e
    · rw [cellsFind, if_neg (by omega)]
    · simp only [cellsFind, ih]

theorem tabMod_mod (t : Tab α) (k : Nat) (f g : α → α) : tabMod (tabMod t k f) k g = tabMod t k (g ∘ f) := by
  cases h : tabFind t k with
  | none => simp only [tabMod_none _ h]
  | some x => rw [tabMod_some f h, tabMod_some g (tabFind_set_same ..), tabMod_some _ h, tabSet_set, Function.comp_apply]

theorem indexed_append (l : List α) (a : α) : indexed (l ++ [a]) = indexed l ++ [(l.length, a)] := by
  simp only [indexed, List.length_append, List.length_singleton, List.range_succ]
  rw [List.zip_append (by simp)]
  rfl

/-- The lowest number that is free, from what is in use. -/
theorem lowestFree_eq {n k : Nat} {used : List Nat} (hk : k < n) (hf : k ∉ used) (hl : ∀ i, i < k → i ∈ used) :
    lowestFree n used = some k := by
  rw [lowestFree, List.find?_range_eq_some]
  exact ⟨by simpa using hf, List.mem_range.2 hk, fun j hj => by simpa using hl j hj⟩

/-! ## Updates of the machine that later lemmas read back -/

theorem Mach.core_modCore (m : Mach) (c j : Nat) (f : Core → Core) :
    (m.modCore c f).core j = if j = c then f (m.core c) else m.core j := tabGet_set ..

theorem Mach.core_modCore_same (m : Mach) (c : Nat) (f : Core → Core) : (m.modCore c f).core c = f (m.core c) := by
  rw [Mach.core_modCore, if_pos rfl]

theorem Mach.modWarp_modWarp (m : Mach) (bid k : Nat) (f g : Warp → Warp) :
    (m.modWarp bid k f).modWarp bid k g = m.modWarp bid k (g ∘ f) := by
  simp only [Mach.modWarp, Mach.modBlock, tabMod_mod, Function.comp_def]

/-! ## One bin -/

theorem ripen_of_open {b : Bin} (h : b.ripe = none) (now : Nat) : ripen now b = { b with ripe := some now, deadline := none } := by
  simp [ripen, h]

@[simp] theorem ripen_recs (now : Nat) (b : Bin) : (ripen now b).recs = b.recs := by
  unfold ripen; split <;> rfl

/-- A record joins a bin, which the 32nd makes ripe. -/
theorem addRecord_eq (now : Nat) (r : SpawnRec) (b : Bin) : addRecord now r b = { b with
    recs := b.recs ++ [r]
    ripe := if b.recs.length + 1 ≥ 32 ∧ b.ripe = none then some now else b.ripe
    deadline := if b.recs.length + 1 ≥ 32 ∧ b.ripe = none then none else b.deadline } := by
  by_cases hl : b.recs.length + 1 ≥ 32
  · cases hr : b.ripe <;> simp [addRecord, ripen, hl, hr]
  · simp [addRecord, hl]

@[simp] theorem addRecord_recs (now : Nat) (r : SpawnRec) (b : Bin) : (addRecord now r b).recs = b.recs ++ [r] := by rw [addRecord_eq]

/-- A bin whose deadline has come is open. -/
theorem dueBin_open {now : Nat} {b : Bin} (h : dueBin now b = true) : b.ripe = none := by
  simp only [dueBin, Bool.and_eq_true, Option.isNone_iff_eq_none] at h
  exact h.1

theorem dueBin_deadline {b : Bin} {d : Nat} (hd : b.deadline = some d) (hr : b.ripe = none) (now : Nat) :
    dueBin now b = decide (d ≤ now) := by
  simp [dueBin, hd, hr]

/-! ## Filing changes cores and numbers alone -/

def Mach.Files (m m' : Mach) : Prop := ∃ cores ids, m' = { m with cores := cores, ids := ids }

theorem Mach.Files.refl (m : Mach) : m.Files m := ⟨_, _, rfl⟩

theorem Mach.Files.trans {a b c : Mach} (h : a.Files b) (g : b.Files c) : a.Files c := by
  obtain ⟨_, _, rfl⟩ := h
  obtain ⟨_, _, rfl⟩ := g
  exact ⟨_, _, rfl⟩

theorem Mach.Files.keeps {m m' : Mach} (h : m.Files m') : m'.blocks = m.blocks ∧ sameMemory m m' := by
  obtain ⟨_, _, rfl⟩ := h
  exact ⟨rfl, rfl, rfl, rfl⟩

theorem Mach.modCore_files (m : Mach) (c : Nat) (f : Core → Core) : m.Files (m.modCore c f) := ⟨_, _, rfl⟩

theorem Mach.ripenDue_files (m : Mach) (core : Nat) : m.Files (m.ripenDue core) := by
  unfold Mach.ripenDue
  split
  · exact m.modCore_files ..
  · exact .refl m

theorem Mach.fileRec_files (m : Mach) (mg : Mgmt) (b : Block) (bid : Nat) (r : SpawnRec) (fuel : Nat) :
    m.Files (m.fileRec mg b bid r fuel).2.2 := by
  induction fuel generalizing m with
  | zero => exact .refl m
  | succ fuel ih =>
    unfold Mach.fileRec
    dsimp only
    split
    · exact ⟨_, _, rfl⟩
    · split
      · exact ⟨_, _, rfl⟩
      · split
        · exact (m.modCore_files ..).trans (ih _)
        · exact .refl m

theorem Mach.fileAll_files (m : Mach) (mg : Mgmt) (b : Block) (bid : Nat) (recs : List SpawnRec) (opened : List Nat) :
    m.Files (m.fileAll mg b bid recs opened).2.2 := by
  induction recs generalizing m opened with
  | nil => exact .refl m
  | cons r rest ih =>
    have hr := m.fileRec_files mg b bid r 66
    unfold Mach.fileAll
    split
    · rename_i h; rw [h] at hr; exact hr.trans (ih ..)
    · rename_i h; rw [h] at hr; exact hr

theorem Mach.closeSpawn_files (m : Mach) (b : Block) (opened : List Nat) : m.Files (m.closeSpawn b opened) := by
  unfold Mach.closeSpawn
  dsimp only
  split
  · exact .refl m
  · exact m.modCore_files ..

/-! ## Filing one record (R54, R55) -/

section
variable {m : Mach} {b : Block} {bid k : Nat} {r : SpawnRec}

/-- The machine once bin `k` of a block's core has one more record. -/
def Mach.joined (m : Mach) (b : Block) (k : Nat) (r : SpawnRec) : Mach :=
  m.modCore b.core fun c => { c with bins := tabMod c.bins k (addRecord m.cycle r) }

/-- A record joins the open bin of its block, entry and key. -/
theorem Mach.fileRec_joins (h : openBin (m.core b.core) bid r.entry r.key = some k) (mg : Mgmt) (fuel : Nat) :
    m.fileRec mg b bid r (fuel + 1) = (true, none, m.joined b k r) := by
  simp only [Mach.fileRec, h]
  rfl

theorem Mach.fileAll_joins (h : openBin (m.core b.core) bid r.entry r.key = some k) (mg : Mgmt) (opened : List Nat) :
    m.fileAll mg b bid [r] opened = ([], opened ++ [], m.joined b k r) := by
  simp only [Mach.fileAll, Mach.fileRec_joins h mg 65]
  rfl

theorem Mach.joined_bins (m : Mach) (b : Block) (k : Nat) (r : SpawnRec) (j : Nat) :
    tabFind ((m.joined b k r).core b.core).bins j =
      if j = k then (tabFind (m.core b.core).bins k).map (addRecord m.cycle r) else tabFind (m.core b.core).bins j := by
  rw [Mach.joined, Mach.core_modCore_same, tabFind_mod]

/-- The bin that opens for a record. -/
def Mach.newBin (m : Mach) (b : Block) (bid : Nat) (r : SpawnRec) : Bin :=
  { bid := bid, entry := r.entry, key := r.key, recs := [r], opened := m.now, openedNo := m.ids
    deadline := if (m.ctx b.ctx).binTimer.toNat = 0 then none else some (m.now + (m.ctx b.ctx).binTimer.toNat), ripe := none }

/-- Where none is open and the device has a bin left, the lowest free one opens. -/
theorem Mach.fileRec_opens {mg : Mgmt} (h : openBin (m.core b.core) bid r.entry r.key = none)
    (hfree : lowestFree 64 (tabKeys (m.core b.core).bins) = some k)
    (hq : m.binsUsed b.core (deviceOf b.ctx) < (mg.quotas.getD (deviceOf b.ctx) Quota.zero).bins) (fuel : Nat) :
    m.fileRec mg b bid r (fuel + 1) = (true, some m.ids, ({ m with ids := m.ids + 1 } : Mach).modCore b.core fun c =>
      { c with bins := tabSet c.bins k (m.newBin b bid r) }) := by
  simp only [Mach.fileRec, h, if_pos hq, hfree]
  rfl

/-- The open bin that is found is there. -/
theorem openBin_finds {c : Core} {entry : BitVec 48} {key : BitVec 16} (h : openBin c bid entry key = some k) :
    ∃ x, tabFind c.bins k = some x := by
  obtain ⟨⟨j, y⟩, hx, rfl⟩ := Option.map_eq_some_iff.1 h
  exact Option.isSome_iff_exists.1 ((tabHas_iff_mem_keys c.bins j).2 (List.mem_map.2 ⟨_, List.mem_of_find?_eq_some hx, rfl⟩))

end

/-! ## Bins in time (R56) -/

section
variable {m : Mach} {core : Nat}

theorem Mach.ripenDue_none (h : ∀ x ∈ (m.core core).bins.cells, dueBin m.now x.2 = false) : m.ripenDue core = m := by
  have : ((m.core core).bins.cells.any fun b => dueBin m.now b.2) = false := by
    rw [List.any_eq_false]
    exact fun x hx => by simp [h x hx]
  rw [Mach.ripenDue, this]
  rfl

/-- Bins that are due ripen together. -/
theorem Mach.ripenDue_some {k : Nat} {b : Bin} (hb : tabFind (m.core core).bins k = some b) (hd : dueBin m.now b = true) :
    m.ripenDue core =
      m.modCore core fun c => { c with bins := tabMap (fun b => if dueBin m.now b then ripen m.cycle b else b) c.bins } := by
  rw [Mach.ripenDue, if_pos (List.any_eq_true.2 ⟨_, cellsFind_mem hb, hd⟩)]

theorem Mach.ripenDue_bins {k : Nat} {b : Bin} (hb : tabFind (m.core core).bins k = some b) (hd : dueBin m.now b = true) (j : Nat) :
    tabFind ((m.ripenDue core).core core).bins j = (tabFind (m.core core).bins j).map fun x =>
      if dueBin m.now x then { x with ripe := some m.cycle, deadline := none } else x := by
  rw [Mach.ripenDue_some hb hd, Mach.core_modCore_same, tabFind_map]
  congr 1
  funext x
  split_ifs with hx
  · exact ripen_of_open (dueBin_open hx) _
  · rfl

end

/-- Completion of a SPAWN leaves every bin its records. -/
theorem Mach.closeSpawn_recs {m : Mach} {b : Block} {j : Nat} {x : Bin} (h : tabFind (m.core b.core).bins j = some x) (opened : List Nat) :
    ∃ y, tabFind ((m.closeSpawn b opened).core b.core).bins j = some y ∧ y.recs = x.recs := by
  unfold Mach.closeSpawn
  dsimp only
  split
  · exact ⟨x, h, rfl⟩
  · refine ⟨_, by rw [Mach.core_modCore_same, tabFind_map, h]; rfl, ?_⟩
    dsimp only
    split
    · exact ripen_recs ..
    · rfl

/-- A record that joined a bin is still there when its SPAWN has completed. -/
theorem Mach.joined_closeSpawn {m : Mach} {b : Block} {bid k : Nat} {r : SpawnRec}
    (h : openBin (m.core b.core) bid r.entry r.key = some k) (opened : List Nat) :
    ∃ y, tabFind (((m.joined b k r).closeSpawn b opened).core b.core).bins k = some y ∧ r ∈ y.recs := by
  obtain ⟨x, hx⟩ := openBin_finds h
  obtain ⟨y, hy, hrecs⟩ := Mach.closeSpawn_recs (m := m.joined b k r) (j := k) (x := addRecord m.cycle r x)
    (by rw [Mach.joined_bins, if_pos rfl, hx]; rfl) opened
  exact ⟨y, hy, by rw [hrecs, addRecord_recs]; simp⟩

/-! ## A waiting SPAWN whose records are filed (R55) -/

theorem Lane.readyAt_readyAt (l : Lane) (pc : Pc) (now : Nat) : (l.readyAt pc now).readyAt pc now = l.readyAt pc now := by
  unfold Lane.readyAt
  split <;> rfl

theorem laneAt_releaseSpawn (now : Nat) (next : Pc) (lanes : List Nat) (w : Warp) (i : Nat) :
    laneAt (releaseSpawn now next lanes w) i = (laneAt w i).map fun l => if i ∈ lanes then l.readyAt next now else l := by
  induction lanes generalizing w with
  | nil => simp [releaseSpawn]
  | cons j r ih =>
    have := ih (modLane w j fun l => l.readyAt next now)
    rw [releaseSpawn, List.foldl_cons, ← releaseSpawn, this, laneAt_modLane]
    by_cases e : i = j
    · subst e
      cases laneAt w i with
      | none => simp
      | some l => simp [Lane.readyAt_readyAt]
    · simp [e]

theorem getReg_releaseSpawn (now : Nat) (next : Pc) (lanes : List Nat) (w : Warp) (r : RegName) :
    (releaseSpawn now next lanes w).getReg r = w.getReg r := by
  induction lanes generalizing w with
  | nil => rfl
  | cons j rest ih => exact (ih _).trans (getReg_modLane w j _ r (fun _ => rfl) fun _ => rfl)

/-- A warp whose one waiting SPAWN has filed its records: their lanes go on, its instruction ends. -/
def Warp.filed (now : Nat) (sw : SpawnWait) (w : Warp) : Warp :=
  let w := releaseSpawn now sw.next (sw.recs.map (·.lane)) w
  { (match sw.flight with
      | none => w
      | some id => w.endId id) with spawns := [] }

theorem Warp.filed_lanes (now : Nat) (sw : SpawnWait) (w : Warp) :
    (w.filed now sw).lanes = (releaseSpawn now sw.next (sw.recs.map (·.lane)) w).lanes ∧
      (w.filed now sw).s = (releaseSpawn now sw.next (sw.recs.map (·.lane)) w).s := by
  unfold Warp.filed
  dsimp only
  split
  · exact ⟨rfl, rfl⟩
  · exact Warp.endId_lanes ..

theorem laneAt_filed (now : Nat) (sw : SpawnWait) (w : Warp) (i : Nat) :
    laneAt (w.filed now sw) i = (laneAt w i).map fun l => if i ∈ sw.recs.map (·.lane) then l.readyAt sw.next now else l := by
  rw [← laneAt_releaseSpawn, laneAt, (w.filed_lanes now sw).1]
  rfl

theorem getReg_filed (now : Nat) (sw : SpawnWait) (w : Warp) (r : RegName) : (w.filed now sw).getReg r = w.getReg r :=
  (getReg_congr (w.filed_lanes now sw).1 (w.filed_lanes now sw).2 r).trans (getReg_releaseSpawn ..)

theorem Mach.closeSpawn_modWarp (m : Mach) (b : Block) (opened : List Nat) (bid k : Nat) (f : Warp → Warp) :
    (m.modWarp bid k f).closeSpawn b opened = (m.closeSpawn b opened).modWarp bid k f := by
  unfold Mach.closeSpawn
  dsimp only
  rw [apply_ite (fun x : Mach => x.modWarp bid k f)]
  rfl

/-- The retry of a warp whose one waiting SPAWN can file all its records. -/
theorem Mach.spawnRetry_filed {m m1 : Mach} {mg : Mgmt} {bid k : Nat} {b : Block} {w : Warp} {sw : SpawnWait} {opened : List Nat}
    (hs : Stands m bid k b w) (hr : b.resident = true) (hw : w.suspended = false) (hsp : w.spawns = [sw])
    (hf : (m.ripenDue b.core).fileAll mg b bid sw.recs sw.opened = ([], opened, m1)) :
    m.spawnRetry mg bid k = ((m1.closeSpawn b opened).modWarp bid k (Warp.filed m1.cycle sw)).settleWarp mg bid k := by
  obtain ⟨hb, hk⟩ := hs.finds
  simp only [Mach.spawnRetry, hb, hk, hr, hw, hsp, List.foldl_cons, List.foldl_nil, hf]
  simp only [Bool.not_true, Bool.or_self, Bool.false_eq_true, if_false, List.isEmpty_nil, if_true, List.length_nil, Nat.sub_zero,
    List.take_length, Mach.closeSpawn_modWarp, Mach.modWarp_modWarp]
  rfl

/-- The same, where a lane of it goes on. -/
theorem Mach.spawnRetry_stands {m m1 : Mach} {mg : Mgmt} {bid k : Nat} {b : Block} {w : Warp} {sw : SpawnWait} {opened : List Nat}
    (hs : Stands m bid k b w) (hr : b.resident = true) (hw : w.suspended = false) (hsp : w.spawns = [sw])
    (hf : (m.ripenDue b.core).fileAll mg b bid sw.recs sw.opened = ([], opened, m1))
    (hl : ∃ r ∈ sw.recs, ∃ l, laneAt w r.lane = some l) :
    m.spawnRetry mg bid k = (m1.closeSpawn b opened).modWarp bid k (Warp.filed m1.cycle sw) ∧
      m.Files (m1.closeSpawn b opened) ∧ ∃ b', Stands (m.spawnRetry mg bid k) bid k b' (w.filed m1.cycle sw) := by
  have hfiles : m.Files (m1.closeSpawn b opened) := by
    have := (m.ripenDue b.core).fileAll_files mg b bid sw.recs sw.opened
    rw [hf] at this
    exact (m.ripenDue_files b.core).trans (this.trans (m1.closeSpawn_files b opened))
  have hst : Stands (m1.closeSpawn b opened) bid k b w := ⟨by rw [hfiles.keeps.1]; exact hs.block, hs.warp⟩
  have hgo : (w.filed m1.cycle sw).goesOn := by
    obtain ⟨r, hr, l, hl⟩ := hl
    exact ⟨r.lane, _, by rw [laneAt_filed, hl]; rfl, .inl (by dsimp only; rw [if_pos (List.mem_map_of_mem hr)]; rfl)⟩
  have hst' := hst.modWarp (Warp.filed m1.cycle sw)
  have he : m.spawnRetry mg bid k = (m1.closeSpawn b opened).modWarp bid k (Warp.filed m1.cycle sw) := by
    rw [Mach.spawnRetry_filed hs hr hw hsp hf]
    exact settleWarp_ready hst'.block (hst.modWarp_inPlace _).1 hst'.warp (hst.modWarp_inPlace _).2 hgo
  exact ⟨he, hfiles, _, he ▸ hst'⟩

end Sys2Proof.Machine
end

section
/-! SUPPORT. The ripe bin that launches next (R56) and the warp that it becomes (R58). -/

namespace Sys2Proof.Machine

variable {α β : Type}

/-! ## The first ripe bin of a block -/

/-- One entry of a core's bins, seen by the search for a block's first ripe bin. -/
def ripeStep (bid : Nat) (o : Option (Nat × Bin)) (b : Nat × Bin) : Option (Nat × Bin) :=
  if b.2.bid != bid then o
  else match b.2.ripe with
    | none => o
    | some t => match o with
      | none => some b
      | some x =>
        let u := x.2.ripe.getD 0
        if t < u || (t == u && decide (b.2.openedNo < x.2.openedNo)) then some b else o

theorem nextRipe_eq (c : Core) (bid : Nat) : nextRipe c bid = c.bins.cells.foldl (ripeStep bid) none := rfl

/-- Bin `x` ripened in cycle `t`, and of the block's bins in the list none ripened before it, nor with it and was opened before. -/
def FirstRipe (bid : Nat) (l : List (Nat × Bin)) (x : Nat × Bin) : Prop :=
  x ∈ l ∧ x.2.bid = bid ∧ ∃ t, x.2.ripe = some t ∧
    ∀ y ∈ l, y.2.bid = bid → ∀ u, y.2.ripe = some u → t < u ∨ (t = u ∧ x.2.openedNo ≤ y.2.openedNo)

/-- What the search has found after a list. -/
def RipeSoFar (bid : Nat) (l : List (Nat × Bin)) : Option (Nat × Bin) → Prop
  | none => ∀ y ∈ l, y.2.bid = bid → y.2.ripe = none
  | some x => FirstRipe bid l x

/-- An entry that is no ripe bin of the block changes nothing. -/
theorem RipeSoFar.skip {bid : Nat} {l : List (Nat × Bin)} {o : Option (Nat × Bin)} {b : Nat × Bin} (h : RipeSoFar bid l o)
    (hb : b.2.bid = bid → b.2.ripe = none) : RipeSoFar bid (l ++ [b]) o := by
  cases o with
  | none =>
    intro y hy
    rcases List.mem_append.1 hy with hy | hy
    · exact h y hy
    · rw [List.mem_singleton.1 hy]; exact hb
  | some x =>
    obtain ⟨hx, hbid, t, ht, hmin⟩ := h
    refine ⟨List.mem_append_left _ hx, hbid, t, ht, fun y hy hyb u hu => ?_⟩
    rcases List.mem_append.1 hy with hy | hy
    · exact hmin y hy hyb u hu
    · rw [List.mem_singleton.1 hy] at hyb hu
      rw [hb hyb] at hu
      cases hu

theorem RipeSoFar.step {bid : Nat} {l : List (Nat × Bin)} {o : Option (Nat × Bin)} (h : RipeSoFar bid l o) (b : Nat × Bin) :
    RipeSoFar bid (l ++ [b]) (ripeStep bid o b) := by
  by_cases hb : b.2.bid = bid
  case neg =>
    rw [ripeStep, if_pos (by simpa using hb)]
    exact h.skip fun e => absurd e hb
  rw [ripeStep, if_neg (by simpa using hb)]
  cases ht : b.2.ripe with
  | none => exact h.skip fun _ => ht
  | some t =>
    have hmem : b ∈ l ++ [b] := by simp
    cases o with
    | none =>
      refine ⟨hmem, hb, t, ht, fun y hy hyb u hu => ?_⟩
      rcases List.mem_append.1 hy with hy | hy
      · rw [h y hy hyb] at hu; cases hu
      · obtain rfl := List.mem_singleton.1 hy
        exact .inr ⟨Option.some.inj (ht.symm.trans hu), le_refl _⟩
    | some x =>
      obtain ⟨hx, hxb, v, hv, hmin⟩ := h
      simp only [hv, Option.getD_some]
      split_ifs with hlt <;> simp only [Bool.or_eq_true, Bool.and_eq_true, decide_eq_true_eq, beq_iff_eq] at hlt
      · refine ⟨hmem, hb, t, ht, fun y hy hyb u hu => ?_⟩
        rcases List.mem_append.1 hy with hy | hy
        · have := hmin y hy hyb u hu
          omega
        · obtain rfl := List.mem_singleton.1 hy
          exact .inr ⟨Option.some.inj (ht.symm.trans hu), le_refl _⟩
      · refine ⟨List.mem_append_left _ hx, hxb, v, hv, fun y hy hyb u hu => ?_⟩
        rcases List.mem_append.1 hy with hy | hy
        · exact hmin y hy hyb u hu
        · obtain rfl := List.mem_singleton.1 hy
          obtain rfl : t = u := Option.some.inj (ht.symm.trans hu)
          omega

theorem ripeSoFar_foldl (bid : Nat) (l : List (Nat × Bin)) : RipeSoFar bid l (l.foldl (ripeStep bid) none) := by
  induction l using List.reverseRecOn with
  | nil => exact fun y hy => by cases hy
  | append_singleton l b ih => rw [List.foldl_append]; exact ih.step b

theorem nextRipe_first {c : Core} {bid : Nat} {x : Nat × Bin} (h : nextRipe c bid = some x) : FirstRipe bid c.bins.cells x := by
  have := ripeSoFar_foldl bid c.bins.cells
  rw [← nextRipe_eq, h] at this
  exact this

/-! ## A brood lane (R58) -/

/-- A table filled from a list: entry `i` is that of the list. -/
theorem tabFind_fill (f : α → β) (l : List α) (i : Nat) :
    tabFind ((indexed l).foldl (fun t x => tabSet t x.1 (f x.2)) ⟨[]⟩) i = l[i]?.map f := by
  induction l using List.reverseRecOn with
  | nil => rfl
  | append_singleton l a ih =>
    rw [indexed_append, List.foldl_append, List.foldl_cons, List.foldl_nil, tabFind_set, ih]
    rcases lt_trichotomy i l.length with h | h | h
    · rw [if_neg (by omega), List.getElem?_append_left h]
    · subst h; simp
    · rw [if_neg (by omega), List.getElem?_eq_none (by omega), List.getElem?_eq_none (by simp; omega)]

/-- The lane of a record: ready at the bin's entry with the record's stamp, its arguments and the key in v0 to v4. -/
structure BroodLane (b : Bin) (r : SpawnRec) (l : Lane) : Prop where
  ready : l.st = .ready ∧ l.pc = ⟨b.entry, 0⟩ ∧ l.pts = r.pts
  v     : ∀ i, tabFind l.v i = (r.args ++ [b.key.setWidth 32])[i]?.map fun x => Reg.mk x r.tag
  p     : l.p = ⟨[]⟩

theorem broodLane_record {b : Bin} {j : Nat} {r : SpawnRec} (h : b.recs[j]? = some r) (now : Nat) : BroodLane b r (broodLane now b j) := by
  simp only [broodLane, h]
  exact ⟨⟨rfl, rfl, rfl⟩, tabFind_fill (fun x => Reg.mk x r.tag) _, rfl⟩

theorem broodLane_beyond {b : Bin} {j : Nat} (h : b.recs.length ≤ j) (now : Nat) : (broodLane now b j).st = .exited := by
  simp only [broodLane, List.getElem?_eq_none h]

/-- The warp of a bin. -/
def broodWarp (now slot brood : Nat) (b : Bin) : Warp := freshWarp now slot (some brood) ((List.range 32).map (broodLane now b))

theorem laneAt_broodWarp (now slot brood : Nat) (b : Bin) {k : Nat} (h : k < 32) :
    laneAt (broodWarp now slot brood b) k = some (broodLane now b k) := by
  simp [laneAt, broodWarp, freshWarp, h]

/-- The registers of a record's lane (R58): v0 to v3 its arguments, v4 the key, under the record's mask; no other holds anything. -/
theorem getReg_broodWarp {b : Bin} {k : Nat} {r : SpawnRec} (hk : k < 32) (hr : b.recs[k]? = some r) (ha : r.args.length = 4)
    (now slot brood : Nat) :
    (∀ i, i < 4 → (broodWarp now slot brood b).getReg (.v k i) = ⟨r.args.getD i 0, r.tag⟩) ∧
      (broodWarp now slot brood b).getReg (.v k 4) = ⟨b.key.setWidth 32, r.tag⟩ ∧
      (∀ i, 4 < i → (broodWarp now slot brood b).getReg (.v k i) = ⟨0, 0⟩) ∧
      ∀ i, (broodWarp now slot brood b).getReg (.p k i) = ⟨0, 0⟩ := by
  have hl := broodLane_record hr now
  simp only [Warp.getReg, laneAt_broodWarp now slot brood b hk, tabGet, hl.v, hl.p]
  refine ⟨fun i hi => ?_, ?_, fun i hi => ?_, fun _ => rfl⟩
  · rw [List.getElem?_append_left (by omega), List.getElem?_eq_getElem (by omega), List.getD_eq_getElem _ _ (by omega)]
    rfl
  · rw [List.getElem?_append_right (by omega), ha]
    rfl
  · rw [List.getElem?_eq_none (by simp; omega)]
    rfl

/-! ## The launch -/

/-- Where nothing is due, a block on its core that no hold keeps launches its first ripe bin in its lowest free brood slot. -/
theorem Mach.broodLaunch_starts {m : Mach} {bid j slot : Nat} {b : Block} {l : Launch} {bin : Bin} (hb : tabFind m.blocks bid = some b)
    (hres : b.resident = true) (hret : b.retired = false) (hl : m.launch? b.launch = some l)
    (hdue : ∀ x ∈ (m.core b.core).bins.cells, dueBin m.now x.2 = false) (hbin : nextRipe (m.core b.core) bid = some (j, bin))
    (hhold : ∀ h ∈ (m.ctx b.ctx).holds, h.bid = bid → h.unit ≠ .block) (hslot : slot < l.rec_.brood)
    (hfree : ∀ x ∈ b.warps.cells, x.2.brood = some slot → x.2.ended = true ∧ x.2.flights = [])
    (hbusy : ∀ i, i < slot → ∃ x ∈ b.warps.cells, x.2.brood = some i ∧ ¬ (x.2.ended = true ∧ x.2.flights = [])) :
    ∃ n, m.broodLaunch bid =
      (m.setBlock bid { b with warps := tabSet b.warps (l.rec_.warps + slot) (broodWarp m.cycle n slot bin) }).modCore b.core fun c =>
        { c with bins := tabErase c.bins j } := by
  have hlow : lowestFree l.rec_.brood (b.warps.cells.filterMap fun x => if x.2.ended && x.2.flights.isEmpty then none else x.2.brood) =
      some slot := by
    refine lowestFree_eq hslot (fun h => ?_) fun i hi => ?_
    · obtain ⟨x, hx, h⟩ := List.mem_filterMap.1 h
      split_ifs at h with hc
      exact hc (by simpa using hfree x hx h)
    · obtain ⟨x, hx, hxi, hne⟩ := hbusy i hi
      exact List.mem_filterMap.2 ⟨x, hx, by rw [if_neg (by simpa using hne), hxi]⟩
  have hno : ((m.ctx b.ctx).holds.any fun h => h.bid == bid && h.unit == .block) = false := by
    rw [List.any_eq_false]
    exact fun h hh => by simpa using hhold h hh
  have hrec : m.recOf b = some l.rec_ := by simp only [Mach.recOf, hl, Option.map_some]
  refine ⟨(lowestFree 64 (m.warpSlots b.core)).getD 0, ?_⟩
  simp only [Mach.broodLaunch, Mach.block?, hb, Mach.ripenDue_none hdue, Mach.declared, hrec, Option.map_some, Option.getD_some, hlow, hbin,
    hres, hret, hno, Bool.not_true, Bool.or_self, Bool.false_eq_true, if_false]
  rfl

end Sys2Proof.Machine

open Sys2Proof Sys2Proof.Machine

/-- Settles O28: a record joins a bin or opens one (`Mach.fileRec_joins`, `Mach.fileRec_opens`); bins that are due ripen together
(`Mach.ripenDue_some`); a ripe bin becomes a brood warp (`Mach.broodLaunch_starts`). -/
theorem spawnBinsAndBroods : Obligations.SpawnBinsAndBroods := by
  unfold Obligations.SpawnBinsAndBroods
  refine ⟨⟨?joins, ?opens, ?retry, ?retryOne⟩, ?expiry, ?first, ?launch⟩
  case joins =>
    intro m mg b bid r k bin ho hk
    refine ⟨_, Mach.fileRec_joins ho mg 65, fun j => ?_, rfl, rfl⟩
    rw [Mach.joined_bins, hk, Option.map_some, addRecord_eq]
  case opens =>
    intro m mg b bid r k ho hlt hk hlow hq
    have hfree : lowestFree 64 (tabKeys (m.core b.core).bins) = some k :=
      lowestFree_eq hlt (fun h => by rw [(tabHas_iff_mem_keys ..).2 h] at hk; cases hk) fun i hi => (tabHas_iff_mem_keys ..).1 (hlow i hi)
    have htimer : (m.ctx b.ctx).binTimer.toNat = 0 ↔ (m.ctx b.ctx).binTimer = 0 := BitVec.toNat_inj (y := 0#18)
    refine ⟨_, m.newBin b bid r, Mach.fileRec_opens ho hfree hq 65, ?_, rfl, rfl, rfl, rfl, rfl, ?_, fun j hj => ?_, rfl⟩
    · rw [Mach.core_modCore_same, tabFind_set_same]
    · simp only [Mach.newBin, htimer]
    · rw [Mach.core_modCore_same, tabFind_set, if_neg hj]
      rfl
  case retry =>
    intro s bid k b w sw opened m1 hon hst hr hw hsp hne hall hf
    obtain ⟨r0, hr0⟩ := List.exists_mem_of_ne_nil _ hne
    obtain ⟨he, hfiles, b', hst'⟩ := Mach.spawnRetry_stands hst hr hw hsp hf ⟨r0, hr0, hall r0 hr0⟩
    obtain ⟨hblocks, hmem⟩ := hfiles.keeps
    refine does_onEvent hon (f := fun mg m => m.spawnRetry mg bid k) rfl ⟨?_, ?_, b', _, hst', rfl, fun i l hl => ?_⟩
    · rw [he]; exact hmem
    · rw [he]; exact (sameRegisters_of_blocks hblocks).trans (sameRegisters_modWarp _ _ _ (getReg_filed m1.cycle sw))
    · refine ⟨_, by rw [laneAt_filed, hl]; rfl, ?_, ?_, ?_⟩
      · dsimp only; split <;> rfl
      · rintro ⟨r, hr, rfl⟩
        dsimp only
        rw [if_pos (List.mem_map_of_mem hr)]
        exact ⟨rfl, rfl⟩
      · intro h
        dsimp only
        rw [if_neg]
        simpa using h
  case retryOne =>
    intro s bid k b w sw r l j hon hst hr hw hsp hrec hl hdue ho
    have hf : (s.mach.ripenDue b.core).fileAll s.mgmt b bid sw.recs sw.opened = ([], sw.opened ++ [], s.mach.joined b j r) := by
      rw [Mach.ripenDue_none hdue, hrec]
      exact Mach.fileAll_joins ho ..
    obtain ⟨he, -, b', hst'⟩ := Mach.spawnRetry_stands hst hr hw hsp hf ⟨r, by simp [hrec], l, hl⟩
    obtain ⟨y, hy, hmem⟩ := Mach.joined_closeSpawn ho (sw.opened ++ [])
    refine does_onEvent hon (f := fun mg m => m.spawnRetry mg bid k) rfl
      ⟨b', _, _, hst', rfl, by rw [laneAt_filed, hl]; rfl, ?_, ?_, y, by rw [he]; exact hy, hmem⟩
    · simp [hrec, Lane.readyAt]
    · simp [hrec, Lane.readyAt]
  case expiry =>
    intro s core k b d hon hb hd hr
    have hdue := dueBin_deadline hd hr s.mach.now
    refine ⟨fun hlt => ?_, fun hle => ?_⟩
    · rw [show exec (.binTimerExpiry core k) s = onEvent (fun _ m => m.binExpire core k) s from rfl, onEvent_on hon]
      simp [Mach.binExpire, hb, hdue, Nat.not_le_of_lt hlt]
    · rw [decide_eq_true hle] at hdue
      have he : s.mach.binExpire core k = s.mach.ripenDue core := by simp [Mach.binExpire, hb, hdue]
      have hbins := Mach.ripenDue_bins hb hdue
      obtain ⟨hblocks, hmem⟩ := (s.mach.ripenDue_files core).keeps
      refine does_onEvent hon (f := fun _ m => m.binExpire core k) rfl ?_
      rw [he]
      exact ⟨hblocks, hmem, by rw [hbins, hb, Option.map_some, if_pos hdue], hbins⟩
  case first => exact fun c bid x h => nextRipe_first h
  case launch =>
    intro s bid b l j bin slot hon hb hres hret hl hdue hbin _ hlen hargs hhold hslot hfree hbusy
    obtain ⟨n, he⟩ := Mach.broodLaunch_starts hb hres hret hl hdue hbin hhold hslot hfree hbusy
    refine does_onEvent hon (f := fun _ m => m.broodLaunch bid) rfl ?_
    rw [he]
    refine ⟨⟨rfl, rfl, rfl⟩, _, broodWarp s.mach.cycle n slot bin, ⟨tabFind_set_same .., tabFind_set_same ..⟩, rfl,
      by simp [broodWarp, freshWarp], rfl, rfl, fun k hk => ?_, fun k r hr => ?_, fun _ => rfl, fun k hk hk' => ?_, fun i hi => ?_⟩
    · rw [tabFind_set, if_neg hk]
    · have hk : k < 32 := lt_of_lt_of_le (List.getElem?_eq_some_iff.1 hr).1 hlen
      obtain ⟨hst, hpc, hpts⟩ := (broodLane_record hr s.mach.cycle).ready
      exact ⟨_, laneAt_broodWarp _ n slot bin hk, hst, hpc, hpts, getReg_broodWarp hk hr (hargs r (List.mem_of_getElem? hr)) ..⟩
    · exact ⟨_, laneAt_broodWarp _ n slot bin hk', broodLane_beyond hk _⟩
    · rw [Mach.core_modCore_same, tabFind_erase_of_ne _ hi]
      rfl
end

section
/-! SUPPORT. Blocks that come: where one is placed (R257, R258), what stands there then (R53, R261), launches that wait (R260). -/

namespace Sys2Proof.Machine

variable {α β : Type}

/-! ## Where a block is placed (R257, R258) -/

theorem insertBy_le {le : α → α → Bool} (total : ∀ a b, le a b = true ∨ le b a = true)
    (trans : ∀ a b c, le a b = true → le b c = true → le a c = true) (x : α) {l : List α} (h : l.Pairwise (le · · = true)) :
    (insertBy le x l).Pairwise (le · · = true) ∧ ∀ y ∈ insertBy le x l, y = x ∨ y ∈ l := by
  induction l with
  | nil => simp [insertBy]
  | cons y r ih =>
    obtain ⟨hy, hr⟩ := List.pairwise_cons.1 h
    obtain ⟨hs, hm⟩ := ih hr
    simp only [insertBy]
    split_ifs with e
    · refine ⟨List.pairwise_cons.2 ⟨fun z hz => ?_, h⟩, by simp⟩
      rcases List.mem_cons.1 hz with rfl | hz
      · exact e
      · exact trans _ _ _ e (hy z hz)
    · refine ⟨List.pairwise_cons.2 ⟨fun z hz => ?_, hs⟩, fun z hz => ?_⟩
      · rcases hm z hz with rfl | hz
        · exact (total z y).resolve_left e
        · exact hy z hz
      · rcases List.mem_cons.1 hz with rfl | hz
        · simp
        · exact (hm z hz).imp_right (List.mem_cons_of_mem _)

theorem sortBy_le {le : α → α → Bool} (total : ∀ a b, le a b = true ∨ le b a = true)
    (trans : ∀ a b c, le a b = true → le b c = true → le a c = true) (l : List α) : (sortBy le l).Pairwise (le · · = true) := by
  induction l with
  | nil => exact .nil
  | cons x r ih => exact (insertBy_le total trans x ih).1

/-- The cluster set lists its clusters by number. -/
theorem Mach.clusterSet_rising (m : Mach) (ctx : Nat) : (m.clusterSet ctx).Pairwise (· ≤ ·) :=
  (sortBy_le (fun a b => by simp only [decide_eq_true_eq]; omega) (fun a b c => by simp only [decide_eq_true_eq]; omega) _).imp
    fun h => of_decide_eq_true h

theorem pickCores_one {fits : Nat → Need → Bool} {l : List Nat} {n : Need} {core : Nat} (h : pickCores fits l [n] = some [core]) :
    l.find? (fits · n) = some core := by
  induction l with
  | nil => cases h
  | cons c r ih =>
    simp only [pickCores] at h
    split_ifs at h with e
    · simp only [Option.map_some, Option.some.injEq, List.cons.injEq, and_true] at h
      rw [List.find?_cons, e, h]
    · rw [List.find?_cons, Bool.eq_false_iff.2 e]
      exact ih h

/-- The first core of a cluster with a property. -/
theorem find_coresOf {p : Nat → Bool} {k core : Nat} (h : (coresOf k).find? p = some core) :
    clusterOf core = k ∧ p core = true ∧ ∀ c, clusterOf c = k → c < core → p c = false := by
  rw [coresOf, List.find?_map, Option.map_eq_some_iff] at h
  obtain ⟨i, hi, rfl⟩ := h
  obtain ⟨hp, hi8, hlow⟩ := List.find?_range_eq_some.1 hi
  have := List.mem_range.1 hi8
  refine ⟨by unfold clusterOf; omega, hp, fun c hc hlt => ?_⟩
  unfold clusterOf at hc
  have hcl := hlow (c - 8 * k) (by omega)
  rw [Function.comp_apply, show 8 * k + (c - 8 * k) = c by omega] at hcl
  simpa using hcl

theorem coresOf_none {p : Nat → Bool} {k : Nat} (h : (coresOf k).find? p = none) {c : Nat} (hc : clusterOf c = k) : p c = false := by
  have := List.find?_eq_none.1 h c (List.mem_map.2 ⟨c % 8, List.mem_range.2 (by omega), by unfold clusterOf at hc; omega⟩)
  simpa using this

/-- The first core of rising clusters with a property is the lowest of theirs. -/
theorem find_lowest {p : Nat → Bool} {set : List Nat} {core : Nat} (hs : set.Pairwise (· ≤ ·))
    (h : (set.flatMap coresOf).find? p = some core) :
    clusterOf core ∈ set ∧ p core = true ∧ ∀ c, clusterOf c ∈ set → c < core → p c = false := by
  induction set with
  | nil => cases h
  | cons k r ih =>
    obtain ⟨hk, hr⟩ := List.pairwise_cons.1 hs
    rw [List.flatMap_cons, List.find?_append] at h
    cases hf : (coresOf k).find? p with
    | some x =>
      rw [hf, Option.some_or] at h
      obtain rfl := Option.some.inj h
      obtain ⟨h1, h2, h3⟩ := find_coresOf hf
      refine ⟨by simp [h1], h2, fun c hc hlt => h3 c ?_ hlt⟩
      rcases List.mem_cons.1 hc with hc | hc
      · exact hc
      · have := hk _ hc
        unfold clusterOf at *
        omega
    | none =>
      rw [hf, Option.none_or] at h
      obtain ⟨h1, h2, h3⟩ := ih hr h
      refine ⟨List.mem_cons_of_mem _ h1, h2, fun c hc hlt => ?_⟩
      rcases List.mem_cons.1 hc with hc | hc
      · exact coresOf_none hf hc
      · exact h3 c hc hlt

/-- A single block goes to the lowest core of the cluster set on which it fits. -/
theorem Mach.placeCores_lowest {m : Mach} {mg : Mgmt} {k core : Nat} {l : Launch} {n : Need} (hn : m.nextNeeds k l = [n])
    (h : m.placeCores mg k l = some [core]) :
    clusterOf core ∈ m.clusterSet l.ctx ∧ m.coreFits mg l core n = true ∧
      ∀ c, clusterOf c ∈ m.clusterSet l.ctx → c < core → m.coreFits mg l c n = false := by
  simp only [Mach.placeCores, hn, List.length_singleton, if_true] at h
  split_ifs at h
  exact find_lowest (m.clusterSet_rising l.ctx) (pickCores_one (fits := fun c n => m.coreFits mg l c n) h)

/-! ## What a new block is (R53, R261) -/

theorem cellsFind_append (k : Nat) (a b : List (Nat × α)) : cellsFind k (a ++ b) = (cellsFind k a).or (cellsFind k b) := by
  induction a with
  | nil => simp [cellsFind]
  | cons c r ih =>
    obtain ⟨i, y⟩ := c
    simp only [List.cons_append, cellsFind, ih]
    split_ifs <;> simp

/-- A table that lists entries by their index. -/
theorem tabFind_indexed (f : α → β) (l : List α) (i : Nat) :
    tabFind ⟨(indexed l).map fun x => (x.1, f x.2)⟩ i = l[i]?.map f := by
  unfold tabFind
  induction l using List.reverseRecOn with
  | nil => rfl
  | append_singleton l a ih =>
    rw [indexed_append, List.map_append, cellsFind_append, ih]
    simp only [List.map_cons, List.map_nil, cellsFind]
    rcases lt_trichotomy i l.length with h | h | h
    · rw [if_neg (by omega), List.getElem?_append_left h, Option.or_none]
    · subst h; simp
    · rw [if_neg (by omega), List.getElem?_eq_none (by omega), List.getElem?_eq_none (by simp; omega)]
      rfl

theorem takeFree_length {top n : Nat} {used : List Nat} (h : n ≤ ((List.range top).filter fun i => !used.contains i).length) :
    (takeFree top n used).length = n := by
  rw [takeFree, List.length_take, Nat.min_eq_left h]

theorem placedWarp_fresh (l : Launch) (now slot : Nat) : FreshWarp l (placedWarp l.rec_ l.start now slot) := by
  have hlane {k : Nat} {x : Lane} (h : laneAt (placedWarp l.rec_ l.start now slot) k = some x) : x = placedLane l.rec_.entry l.start now :=
    List.eq_of_mem_replicate (List.mem_of_getElem? h)
  refine ⟨⟨List.length_replicate .., fun k x hx => ?_⟩, ⟨rfl, rfl⟩, ⟨fun n hn => ?_, fun k n => ?_⟩, rfl, rfl, rfl, rfl, rfl⟩
  · rw [hlane hx]
    exact ⟨rfl, rfl, rfl⟩
  · simp only [placedWarp, Warp.getReg, tabGet, tabFind, cellsFind]
    rw [if_neg (by omega), if_neg (by omega)]
    rfl
  · simp only [Warp.getReg]
    cases h : laneAt (placedWarp l.rec_ l.start now slot) k with
    | none => exact ⟨rfl, rfl⟩
    | some x => rw [hlane h]; exact ⟨rfl, rfl⟩

/-- A block as it is placed: that of rank `rank` of the launch's next group, whose numbers are `peers`. -/
structure NewBlock (k : Nat) (l : Launch) (rank : Nat) (peers : List Nat) (core : Nat) (b : Block) : Prop where
  launch : b.launch = k ∧ b.ctx = l.ctx ∧ b.index = l.next + rank
  stands : b.core = core ∧ b.resident = true ∧ b.retired = false
  group  : b.peers = peers ∧ b.rank = rank
  begins : b.start = l.start ∧ b.spad = ⟨[]⟩ ∧ b.spadSize = 2048 * l.rec_.spadNeed
  warps  : ∃ (slots : List Nat) (now : Nat), slots.length = l.rec_.warps ∧
    ∀ w, tabFind b.warps w = slots[w]?.map (placedWarp l.rec_ l.start now)

theorem Mach.drainAll_dry {m : Mach} (h : m.trackers = []) (p : Tracker → Bool) : m.drainAll p = m := by
  rw [Mach.drainAll, h]
  rfl

theorem Mach.applyDrains_dry {m : Mach} (h : m.drains = []) (p : Drain → Bool) : m.applyDrains p = m := by
  rw [Mach.applyDrains, h]
  rfl

/-- With nothing to drain, the split of a core is a matter of the core. -/
theorem Mach.setSplit_dry {m : Mach} (hd : m.drains = []) (ht : m.trackers = []) (core split : Nat) :
    ∃ cores, m.setSplit core split = { m with cores := cores } := by
  unfold Mach.setSplit
  split_ifs
  · exact ⟨_, rfl⟩
  · rw [Mach.drainAll_dry ht, Mach.applyDrains_dry hd]
    exact ⟨_, rfl⟩

theorem Mach.placeNew_new {m : Mach} {mg : Mgmt} {k bid rank core : Nat} {l : Launch} {peers : List Nat} (hd : m.drains = [])
    (ht : m.trackers = []) (hw : l.rec_.warps ≤ ((List.range 64).filter fun i => !(m.warpSlots core).contains i).length) :
    ∃ cores b, m.placeNew mg k l bid rank peers core = { m with cores := cores, blocks := tabSet m.blocks bid b } ∧
      NewBlock k l rank peers core b := by
  obtain ⟨cores, hs⟩ := Mach.setSplit_dry hd ht core (splitOf mg (m.ctx l.ctx) l.ctx)
  have hl := takeFree_length hw
  unfold Mach.placeNew
  simp only [hs]
  exact ⟨_, _, rfl, ⟨rfl, rfl, rfl⟩, ⟨rfl, rfl, rfl⟩, ⟨rfl, rfl⟩, ⟨rfl, rfl, rfl⟩, _, _, hl, tabFind_indexed _ _⟩

/-- The warps of a new block are those that its launch declares, each new. -/
theorem NewBlock.fresh {k rank core : Nat} {l : Launch} {peers : List Nat} {b : Block} (h : NewBlock k l rank peers core b) :
    (∀ w, w < l.rec_.warps → ∃ x, tabFind b.warps w = some x ∧ FreshWarp l x) ∧
      ∀ w, l.rec_.warps ≤ w → tabFind b.warps w = none := by
  obtain ⟨slots, now, hlen, hw⟩ := h.warps
  refine ⟨fun w hlt => ⟨_, ?_, placedWarp_fresh l now (slots[w]'(by omega))⟩, fun w hle => ?_⟩
  · rw [hw, List.getElem?_eq_getElem (by omega)]
    rfl
  · rw [hw, List.getElem?_eq_none (by omega)]
    rfl

/-- A single new block of the launch whose turn it is, on a die where none was placed in this cycle. -/
theorem Mach.placement_one {m : Mach} {mg : Mgmt} {k core : Nat} {l : Launch} (hn : m.nextLaunch mg = some (k, l))
    (hc : m.placeCores mg k l = some [core]) (hs : m.savedGroup k = none) (hd : m.dieFree core = true) :
    m.placement mg k = (({ m with ids := m.ids + 1 } : Mach).placeNew mg k l m.ids 0 [m.ids] core).modLaunch k fun l =>
      { l with next := l.next + 1 } := by
  simp only [Mach.placement, hn, if_true, hc, List.all_cons, hd, List.all_nil, Bool.and_self, Bool.not_true, Bool.false_eq_true, if_false,
    hs]
  rfl

/-! ## Launches that wait (R260) -/

theorem Mach.launch?_modLaunch (m : Mach) (k j : Nat) (f : Launch → Launch) :
    (m.modLaunch k f).launch? j = if j = k then (m.launch? k).map f else m.launch? j := tabFind_mod ..

/-- A launch with an unplaced block blocks once it has waited 100 µs. -/
theorem Mach.launchBlocks_waiting {m : Mach} {k t : Nat} {l : Launch} (hl : m.launch? k = some l) (ht : l.waitFrom = some t)
    (hu : l.unplaced = true) (j : Nat) : (m.launchBlocks k).launch? j = if j = k then
      some { l with blocking := l.blocking || decide (t + blockingTime ≤ m.now) } else m.launch? j := by
  rw [Mach.launchBlocks, Mach.launch?_modLaunch]
  split_ifs with e
  · rw [hl, Option.map_some]
    simp only [ht, hu, Bool.true_and, decide_eq_true_eq]
    by_cases h : t + blockingTime ≤ m.now
    · rw [if_pos h, decide_eq_true h, Bool.or_true]
    · rw [if_neg h, decide_eq_false h, Bool.or_false, ← ht]
  · rfl

end Sys2Proof.Machine
end

section
/-! SUPPORT. Blocks that go: what a launch that ends quietly changes (R255), what a block gives back (R61, R95, R259). -/

namespace Sys2Proof.Machine

/-! ## Launches that complete with nothing to write (R255) -/

/-- Where a context has no region, a completion releases none. -/
theorem Mach.releaseRegions_none {m : Mach} {ctx : Nat} (h : (m.ctx ctx).regions = []) (launch : Nat) :
    ∃ ctxs, m.releaseRegions ctx launch = { m with ctxs := ctxs } := by
  have hdrain : m.drainAll (fun t => t.ctx == ctx && ([] : List Nat).contains t.region) = m := by
    simp only [Mach.drainAll, List.contains_nil, Bool.and_false, List.filter_false, List.foldl_nil]
  simp only [Mach.releaseRegions, h, List.filter_nil, List.map_nil, hdrain, List.isEmpty_nil, if_true]
  exact ⟨_, rfl⟩

/-- A launch without a completion word, a world or regions leaves the table and is counted. -/
theorem Mach.completeLaunch_quiet {m : Mach} {k : Nat} {l : Launch} (hl : m.launch? k = some l) (hc : l.rec_.cpla = 0) (hw : l.world = none)
    (hr : (m.ctx l.ctx).regions = []) (mg : Mgmt) (status detail : Nat) :
    ∃ ctxs queues, m.completeLaunch mg k status detail =
      { m with ctxs := ctxs, queues := queues, launches := tabErase m.launches k } := by
  obtain ⟨ctxs, he⟩ := Mach.releaseRegions_none hr k
  have hword : (l.rec_.cpla == 0 || l.rec_.cpla.toNat % 4 != 0) = true := by rw [hc]; rfl
  simp only [Mach.completeLaunch, hl, he, hw, Option.isSome_none, Bool.false_eq_true, if_false, hword, if_true]
  exact ⟨_, _, rfl⟩

/-- One more block of a launch has retired; with the last one the launch completes. -/
def Mach.countRetired (m : Mach) (mg : Mgmt) (k : Nat) : Mach :=
  let m := m.modLaunch k fun l => { l with retired := l.retired + 1 }
  match m.launch? k with
  | none => m
  | some l => if l.retired = l.rec_.grid then m.completeLaunch mg k 0 0 else m

theorem Mach.countRetired_quiet {m : Mach} {k : Nat} {l : Launch} (hl : m.launch? k = some l) (hc : l.rec_.cpla = 0) (hw : l.world = none)
    (hr : (m.ctx l.ctx).regions = []) (hrise : cellsRising m.launches.cells = true) (mg : Mgmt) :
    ∃ ctxs queues launches, m.countRetired mg k = { m with ctxs := ctxs, queues := queues, launches := launches } ∧
      tabFind launches k = if l.retired + 1 = l.rec_.grid then none else some { l with retired := l.retired + 1 } := by
  let m1 := m.modLaunch k fun l => { l with retired := l.retired + 1 }
  have hl1 : m1.launch? k = some { l with retired := l.retired + 1 } := by
    rw [Mach.launch?_modLaunch, if_pos rfl, hl]
    rfl
  have he : m.countRetired mg k = if l.retired + 1 = l.rec_.grid then m1.completeLaunch mg k 0 0 else m1 := by
    rw [Mach.countRetired]
    simp only [show (m.modLaunch k fun l => { l with retired := l.retired + 1 }).launch? k = _ from hl1]
    rfl
  rw [he]
  split_ifs with hg
  · obtain ⟨ctxs, queues, h⟩ := Mach.completeLaunch_quiet hl1 hc hw hr mg 0 0
    refine ⟨ctxs, queues, _, h, ?_⟩
    have hrise1 : cellsRising m1.launches.cells = true := tabMod_rising _ _ _ hrise
    rw [tabFind_erase _ _ _ hrise1, if_pos rfl]
  · exact ⟨_, _, _, rfl, hl1⟩

/-! ## What a block gives back (R61, R95) -/

/-- CSRW instructions that complete leave the regions of every context. -/
theorem Mach.finishCsrw_regions (m : Mach) (b : Block) :
    ∃ ctxs, m.finishCsrw b = { m with ctxs := ctxs } ∧ ∀ c, ((m.finishCsrw b).ctx c).regions = (m.ctx c).regions := by
  refine ⟨_, rfl, fun c => ?_⟩
  have hwrite (l : List (Nat × Nat × Word)) (x : Ctx) : (l.foldl (fun c x => c.csrWrite x.2.1 x.2.2) x).regions = x.regions := by
    induction l generalizing x with
    | nil => rfl
    | cons y r ih =>
      rw [List.foldl_cons, ih]
      unfold Ctx.csrWrite
      split_ifs <;> rfl
  rw [Mach.finishCsrw, Mach.ctx_modCtx]
  split_ifs with e
  · rw [hwrite, e.1]
  · rfl

/-- No tile, bin or queued matrix command of the core is the block's. -/
def Core.holdsNothingOf (c : Core) (bid : Nat) : Prop :=
  (∀ x ∈ c.tiles.cells, x.2.owner ≠ bid) ∧ (∀ x ∈ c.bins.cells, x.2.bid ≠ bid) ∧ ∀ x ∈ c.mq, x.bid ≠ bid

theorem Core.freeBlock_gone (c : Core) (bid : Nat) : (c.freeBlock bid).holdsNothingOf bid := by
  refine ⟨fun x hx => ?_, fun x hx => ?_, fun x hx => ?_⟩
  all_goals simpa using (List.mem_filter.1 hx).2

/-- The block's CSRW instructions complete, and its core is rid of what it held. -/
def Mach.giveBack (m : Mach) (b : Block) (bid : Nat) : Mach := (m.finishCsrw b).modCore b.core fun c => c.freeBlock bid

/-- The blocks of a group leave with the last of them, and the offer is made (R95, R259). -/
def Mach.dropGroup (m : Mach) (b : Block) (bid : Nat) : Mach :=
  let prio := ((m.launch? b.launch).map (·.rec_.prio)).getD 0
  let offer : Offer := ⟨if b.peers.length = 1 then [b.core] else coresOf (clusterOf b.core), b.launch, prio⟩
  let cores := b.peers.filterMap fun k => (m.block? k).map (·.core)
  let m : Mach := { m with blocks := b.peers.foldl tabErase (tabErase m.blocks bid), offers := m.offers ++ [offer] }
  cores.foldl (fun m c => if coreEmpty m c then m.modCore c fun x => { x with split := none } else m) m

/-- The last block of its group that retires. -/
theorem Mach.retirement_last {m : Mach} {bid : Nat} {b : Block} (hb : tabFind m.blocks bid = some b) (hr : m.retirable bid b = true)
    (ho : (m.giveBack b bid).othersOpen b bid = false) (mg : Mgmt) :
    m.retirement mg bid = ((m.giveBack b bid).dropGroup b bid).countRetired mg b.launch := by
  have ho' : (((m.finishCsrw b).modCore b.core fun c => c.freeBlock bid).othersOpen b bid) = false := ho
  unfold Mach.retirement
  rw [show m.block? bid = some b from hb]
  dsimp only
  rw [hr, ho']
  rfl

/-- What becomes of the core of a block that retires alone. -/
theorem Mach.dropGroup_alone {m : Mach} {b : Block} {bid : Nat} {l : Launch} (hb : tabFind m.blocks bid = some b) (hp : b.peers = [bid])
    (hl : m.launch? b.launch = some l) :
    ∃ cores, m.dropGroup b bid = { m with
        cores := cores, blocks := tabErase (tabErase m.blocks bid) bid, offers := m.offers ++ [⟨[b.core], b.launch, l.rec_.prio⟩] } ∧
      ∃ split, tabGet cores b.core Core.reset = { m.core b.core with split := split } := by
  have hcores : (b.peers.filterMap fun k => (m.block? k).map (·.core)) = [b.core] := by
    simp only [hp, Mach.block?, List.filterMap_cons, hb, Option.map_some, List.filterMap_nil]
  unfold Mach.dropGroup
  rw [hcores, hl, hp]
  dsimp only [List.foldl_cons, List.foldl_nil]
  rw [if_pos (show [bid].length = 1 from rfl)]
  split_ifs
  · exact ⟨_, rfl, none, (tabGet_set ..).trans (if_pos rfl)⟩
  · exact ⟨_, rfl, _, rfl⟩

theorem Mach.giveBack_eq (m : Mach) (b : Block) (bid : Nat) : ∃ ctxs cores, m.giveBack b bid = { m with ctxs := ctxs, cores := cores } ∧
    (∀ c, ((m.giveBack b bid).ctx c).regions = (m.ctx c).regions) ∧ (m.giveBack b bid).core b.core = (m.core b.core).freeBlock bid := by
  obtain ⟨ctxs, he, hr⟩ := m.finishCsrw_regions b
  refine ⟨ctxs, _, by rw [Mach.giveBack, he]; rfl, hr, ?_⟩
  rw [Mach.giveBack, Mach.core_modCore_same, he]
  rfl

/-- A block that can retire and stands alone in its group, of a launch that completes with nothing to write: it leaves, its core has
nothing of it and is offered, and its launch counts it. -/
theorem Mach.retirement_alone {m : Mach} {bid : Nat} {b : Block} {l : Launch} (hb : tabFind m.blocks bid = some b)
    (hr : m.retirable bid b = true) (hp : b.peers = [bid]) (hl : m.launch? b.launch = some l) (hc : l.rec_.cpla = 0) (hw : l.world = none)
    (hreg : (m.ctx l.ctx).regions = []) (hrise : cellsRising m.launches.cells = true) (mg : Mgmt) :
    ∃ ctxs queues launches cores, m.retirement mg bid = { m with
        ctxs := ctxs, queues := queues, launches := launches, cores := cores, blocks := tabErase (tabErase m.blocks bid) bid
        offers := m.offers ++ [⟨[b.core], b.launch, l.rec_.prio⟩] } ∧
      (∃ split, tabGet cores b.core Core.reset = { (m.core b.core).freeBlock bid with split := split }) ∧
      tabFind launches b.launch = if l.retired + 1 = l.rec_.grid then none else some { l with retired := l.retired + 1 } := by
  obtain ⟨ctxs1, cores1, he1, hreg1, hcore1⟩ := m.giveBack_eq b bid
  have hopen : (m.giveBack b bid).othersOpen b bid = false := by simp [Mach.othersOpen, hp]
  rw [Mach.retirement_last hb hr hopen]
  rw [he1] at hreg1 hcore1 ⊢
  obtain ⟨cores, he2, split, hcore2⟩ := Mach.dropGroup_alone (m := { m with ctxs := ctxs1, cores := cores1 }) hb hp hl
  rw [he2]
  obtain ⟨ctxs, queues, launches, he3, hlaunch⟩ := Mach.countRetired_quiet (m := { m with
      ctxs := ctxs1, cores := cores, blocks := tabErase (tabErase m.blocks bid) bid
      offers := m.offers ++ [⟨[b.core], b.launch, l.rec_.prio⟩] }) hl hc hw ((hreg1 l.ctx).trans hreg) hrise mg
  exact ⟨ctxs, queues, launches, cores, he3, ⟨split, hcore2.trans (by rw [hcore1])⟩, hlaunch⟩

end Sys2Proof.Machine

open Sys2Proof Sys2Proof.Machine

/-- Settles O36: a single block goes to the lowest core that takes it (`Mach.placeCores_lowest`) and is new there
(`Mach.placeNew_new`); one that retires alone leaves nothing on its core (`Mach.retirement_alone`). -/
theorem blocksComeAndGo : Obligations.BlocksComeAndGo := by
  unfold Obligations.BlocksComeAndGo
  refine ⟨⟨?placed, ?lowest, ?waits⟩, ?retired⟩
  case placed =>
    intro s k l core hon hn hl hc hs hd hw ⟨hdr, htr⟩
    obtain ⟨cores, b, he, hnew⟩ := Mach.placeNew_new (m := { s.mach with ids := s.mach.ids + 1 }) (mg := s.mgmt) (k := k)
      (bid := s.mach.ids) (rank := 0) (peers := [s.mach.ids]) hdr htr hw
    obtain ⟨h1, h2, h3⟩ := hnew.launch
    obtain ⟨h4, h5, h6⟩ := hnew.stands
    obtain ⟨h7, h8⟩ := hnew.group
    obtain ⟨h9, h10, h11⟩ := hnew.begins
    obtain ⟨hfresh, hno⟩ := hnew.fresh
    refine does_onEvent hon (f := fun mg m => m.placement mg k) rfl ?_
    rw [Mach.placement_one hn hc hs hd, he]
    refine ⟨⟨rfl, rfl, rfl⟩, b, tabFind_set_same .., h1, h2, h3, h4, h5, h6, h7, h8, h9, h10, h11, hfresh, hno, fun j hj => ?_, ?_⟩
    · exact (tabFind_set ..).trans (if_neg hj)
    · rw [Mach.launch?_modLaunch, if_pos rfl]
      exact congrArg (Option.map _) hl
  case lowest => exact fun m mg k l n core hn hc => Mach.placeCores_lowest hn hc
  case waits =>
    intro s k l t hon hl ht ho hlt
    have hu : l.unplaced = true := by
      simp only [Launch.unplaced, Bool.and_eq_true, Option.isSome_iff_ne_none, decide_eq_true_eq]
      exact ⟨ho, hlt⟩
    have hj := Mach.launchBlocks_waiting hl ht hu
    exact does_onEvent hon (f := fun _ m => m.launchBlocks k) rfl
      ⟨(hj k).trans (if_pos rfl), rfl, ⟨rfl, rfl, rfl⟩, fun j hne => (hj j).trans (if_neg hne)⟩
  case retired =>
    intro s bid b l hon hb hr hp hl hc hw hreg hrise
    obtain ⟨ctxs, queues, launches, cores, he, ⟨split, hcore⟩, hlaunch⟩ :=
      Mach.retirement_alone hb hr hp hl hc hw hreg hrise.2.1 s.mgmt
    have hgone : (tabGet cores b.core Core.reset).holdsNothingOf bid := by
      rw [hcore]
      exact (s.mach.core b.core).freeBlock_gone bid
    obtain ⟨htiles, hbins, hmq⟩ := hgone
    have herise := tabErase_rising s.mach.blocks bid hrise.1
    refine does_onEvent hon (f := fun mg m => m.retirement mg bid) rfl ?_
    rw [he]
    refine ⟨⟨rfl, rfl, rfl⟩, ?_, fun j hj => ?_, rfl, htiles, hbins, hmq, hlaunch⟩
    · rw [tabFind_erase _ _ _ herise, if_pos rfl]
    · rw [tabFind_erase_of_ne _ hj, tabFind_erase_of_ne _ hj]
end

section
/-! SUPPORT. Loads and stores of one part (R108): of a page at which nothing stands before the access (R111, R114, R480), and of one
block of scratchpad (R304). -/

namespace Sys2Proof.Machine

/-! ## An access of one piece and one part -/

theorem pagePieces_one {va n : Nat} (h : va % 65536 + n ≤ 65536) : pagePieces va n = [(va, n)] :=
  if_pos (by omega)

theorem unitPieces_one {u a n : Nat} (fuel : Nat) (h : a % u + n ≤ u) (hn : 0 < n) : unitPieces u (fuel + 2) a n = [(a, n)] := by
  have hk : min n (u - a % u) = n := Nat.min_eq_left (by omega)
  simp only [unitPieces, hk, Nat.sub_self, if_neg hn.ne', if_true]

theorem partsOf_dev {l : Loc} {pa : Nat} (hp : l.place = .dev pa) (h : pa % 32 + l.n ≤ 32) (hn : 0 < l.n) :
    partsOf l = [(.dev pa, l.va, l.n)] := by
  simp [partsOf, hp, unitPieces_one _ h hn]

/-! ## Caches: what an access changes beside bytes and stamps -/

/-- The caches alone differ: the L1s, and in L2 the lines, their uses, the shadow tags and their hits. -/
def Mach.Caches (m m' : Mach) : Prop := ∃ cores lines l2Uses shadow hits,
  m' = { m with cores := cores, lines := lines, l2Uses := l2Uses, shadow := shadow, hits := hits }

theorem Mach.Caches.refl (m : Mach) : m.Caches m := ⟨_, _, _, _, _, rfl⟩

theorem Mach.Caches.trans {a b c : Mach} (h : a.Caches b) (g : b.Caches c) : a.Caches c := by
  obtain ⟨_, _, _, _, _, rfl⟩ := h
  obtain ⟨_, _, _, _, _, rfl⟩ := g
  exact ⟨_, _, _, _, _, rfl⟩

theorem Mach.watchLine_caches (m : Mach) (mg : Mgmt) (dev line : Nat) : m.Caches (m.watchLine mg dev line) := by
  unfold Mach.watchLine
  dsimp only
  split_ifs
  · exact .refl m
  · exact .refl m
  · exact ⟨_, _, _, _, _, rfl⟩

theorem Mach.allocLine_caches (m : Mach) (mg : Mgmt) (dev : Nat) (tc : Traffic) (write sealed_ : Bool) (line : Nat) :
    m.Caches (m.allocLine mg dev tc write sealed_ line) := by
  refine (m.watchLine_caches mg dev line).trans ?_
  unfold Mach.allocLine
  lift_lets
  intro watched used
  split
  · exact ⟨_, _, _, _, _, rfl⟩
  · split
    · exact ⟨_, _, _, _, _, rfl⟩
    · split <;> exact ⟨_, _, _, _, _, rfl⟩

theorem Mach.setL1_caches (m : Mach) (core line : Nat) (c : L1Copy) : m.Caches (m.setL1 core line c) := ⟨_, _, _, _, _, rfl⟩

/-! ## Parts of device lines (R114) -/

/-- A line that is neither held nor claimed is its own ordering point (R122, R174). -/
theorem Mach.recallFor_free {m : Mach} {line : Nat} (hc : tabFind m.claims line = none) (hh : tabFind m.heldBy line = none)
    (cluster : Option Nat) : m.recallFor cluster line = m := by
  simp only [Mach.recallFor, Mach.unhold, hh, hc]

/-- What a reader sees depends on the bytes, the seals and the granules to be cleared. -/
theorem Mach.viewBytes_congr {m m' : Mach} (hm : m'.mem = m.mem) (hs : m'.side = m.side) (hg : m'.scrub = m.scrub)
    (w : Option (Option Nat)) (pa n : Nat) : m'.viewBytes w pa n = m.viewBytes w pa n := by
  induction n generalizing pa with
  | zero => rfl
  | succ n ih => simp only [Mach.viewBytes, Mach.viewByte, hm, hs, hg, ih]

@[simp] theorem Mach.viewBytes_length (m : Mach) (w : Option (Option Nat)) (pa n : Nat) : (m.viewBytes w pa n).length = n := by
  induction n generalizing pa with
  | zero => rfl
  | succ n ih => simp [Mach.viewBytes, ih]

/-- A load part whose L1 has no copy reads at the ordering point and extends the line's lease. -/
theorem Mach.loadDev_uncopied {m : Mach} {a : Actor} {pa : Nat} (hl : tabFind (m.core a.core).l1 (lineOf pa) = none)
    (hr : ∀ k, m.recallFor k (lineOf pa) = m) (mg : Mgmt) (l : Leaf) (tc : Traffic) (damp : Bool) (n pts : Nat) :
    ∃ m', m.loadDev mg a l tc damp pa n pts = (m.viewBytes (m.viewOf a l) pa n, max pts (m.lineStamps (lineOf pa)).wts, m') ∧
      (m.leaseLine (lineOf pa) pts).2.Caches m' := by
  have hcopy : (if a.lane && !damp then tabFind (m.core a.core).l1 (lineOf pa) else none) = none := by rw [hl, ite_self]
  have hview : (m.leaseLine (lineOf pa) pts).2.viewBytes (m.viewOf a l) pa n = m.viewBytes (m.viewOf a l) pa n :=
    Mach.viewBytes_congr (m := m) (m' := (m.leaseLine (lineOf pa) pts).2) rfl rfl rfl _ _ _
  have halloc := (m.leaseLine (lineOf pa) pts).2.allocLine_caches mg (deviceOf a.ctx) tc false l.sealed (lineOf pa)
  unfold Mach.loadDev
  simp only [hcopy, hr]
  refine ⟨_, Prod.ext hview rfl, ?_⟩
  split_ifs
  · exact halloc.trans (Mach.setL1_caches ..)
  · exact halloc

/-- A store part takes its stamp and puts its bytes at the ordering point; what follows is for the caches. -/
theorem Mach.storeDev_stamped {m : Mach} {pa : Nat} (hr : ∀ k, m.recallFor k (lineOf pa) = m) (mg : Mgmt) (a : Actor) (l : Leaf)
    (tc : Traffic) (bs : List Byte) (pts : Nat) :
    ∃ m', m.storeDev mg a l tc pa bs pts = (max pts ((m.lineStamps (lineOf pa)).rts + 1), m') ∧
      ((m.stampLine (lineOf pa) pts).2.putBytes (m.viewOf a l) pa bs).Caches m' := by
  have halloc := ((m.stampLine (lineOf pa) pts).2.putBytes (m.viewOf a l) pa bs).allocLine_caches mg (deviceOf a.ctx) tc true
    l.sealed (lineOf pa)
  unfold Mach.storeDev
  simp only [hr]
  refine ⟨_, rfl, ?_⟩
  split_ifs
  · exact halloc.trans (Mach.setL1_caches ..)
  · exact halloc

/-! ## Plain locations -/

/-- A translated piece is the one that was asked for. -/
theorem Mach.locate1_range {m m' : Mach} {mg : Mgmt} {a : Actor} {va n : Nat} {l : Loc}
    (h : m.locate1 mg a va n = (⟨va, n, .ok l⟩, m')) : l.va = va ∧ l.n = n := by
  unfold Mach.locate1 at h
  split at h
  · cases h
  · split at h
    · cases h
    · split at h
      · cases h
      · cases h
        exact ⟨rfl, rfl⟩

theorem Mach.dampRegion_ordinary {l : Loc} (h : l.leaf.damp = false) (m : Mach) (ctx : Nat) : m.dampRegion ctx l = none := by
  simp [Mach.dampRegion, h]

theorem Mach.wringLoc_ordinary {l : Loc} (h : l.leaf.damp = false) (m : Mach) (ctx : Nat) : m.wringLoc ctx l = m := by
  unfold Mach.wringLoc
  split
  · rw [Mach.dampRegion_ordinary h]; rfl
  all_goals rfl

theorem Mach.settleLocs_quiet {m : Mach} (h : m.presses = []) (v : View) (ls : List Loc) : m.settleLocs v ls = m := by
  induction ls with
  | nil => rfl
  | cons l r ih =>
    have hl : m.settleLoc v l = m := by simp [Mach.settleLoc, h]
    rw [Mach.settleLocs, List.foldl_cons, hl]
    exact ih

section
variable {m : Mach} {mg : Mgmt} {v : View} {va n pa : Nat} {l : Loc}

theorem plainLoc.locates (h : plainLoc m mg v va n l) : m.locate mg v.actor va n = ([⟨va, n, .ok l⟩], m) := by
  simp [Mach.locate, pagePieces_one h.inPage, Mach.locateAll, h.found]

theorem plainLoc.length (h : plainLoc m mg v va n l) : l.n = n := (Mach.locate1_range h.found).2

theorem plainLoc.parts (h : plainLoc m mg v va n l) (hp : l.place = .dev pa) (hpart : pa % 32 + n ≤ 32) (hn : 0 < n) :
    partsOf l = [(.dev pa, l.va, n)] := by
  have hl := h.length
  subst hl
  exact partsOf_dev hp hpart hn

theorem plainLoc.recall (h : plainLoc m mg v va n l) (hp : l.place = .dev pa) (k : Option Nat) : m.recallFor k (lineOf pa) = m :=
  Mach.recallFor_free (h.free pa hp).1 (h.free pa hp).2 k

theorem plainLoc.noData (h : plainLoc m mg v va n l) (hp : l.place = .dev pa) (hpart : pa % 32 + n ≤ 32) (hn : 0 < n) :
    m.dataCauses mg v.actor [l] = [] := by
  simp [Mach.dataCauses, h.parts hp hpart hn, Mach.badPart, h.whole pa hp]

/-- A load of one part at a plain location is one load part. -/
theorem plainLoc.load (h : plainLoc m mg v va n l) (hp : l.place = .dev pa) (hl : noCopies m v.b.core pa) (hpart : pa % 32 + n ≤ 32)
    (hn : 0 < n) (hq : m.presses = []) (pts : Nat) : ∃ m',
      m.loadVa mg v va n pts =
        (.ok ⟨m.viewBytes (m.viewOf v.actor l.leaf) pa n, max pts (m.lineStamps (lineOf pa)).wts, l.leaf.tag⟩, m') ∧
      (m.leaseLine (lineOf pa) pts).2.Caches m' := by
  obtain ⟨m', hload, hm'⟩ := Mach.loadDev_uncopied (a := v.actor) hl (h.recall hp) mg l.leaf .thread false n pts
  refine ⟨m', ?_, hm'⟩
  have hlocs : m.loadLocs mg v.actor pts [l] =
      (m.viewBytes (m.viewOf v.actor l.leaf) pa n, max pts (m.lineStamps (lineOf pa)).wts, m') := by
    simp [Mach.loadLocs, Mach.dampRegion_ordinary h.ordinary, h.parts hp hpart hn, Mach.loadParts, Mach.loadPart, hload]
  have hsee (bs : List Byte) (hbs : bs.length = n) : seeAll m' v.set [l] bs = bs := by
    simp [seeAll, seePosted, hp, h.length, ← hbs]
  unfold Mach.loadVa
  simp [h.locates, pieceCauses, pieceLocs, worst, h.noData hp hpart hn, Mach.settleLocs_quiet hq, hlocs, hsee, tagOfLocs]

/-- A store of one part at a plain location that may be written is one store part. -/
theorem plainLoc.store {bs : List Byte} {data : Mask} (h : plainLoc m mg v va bs.length l) (hp : l.place = .dev pa)
    (hw : l.leaf.w = true) (ht : m.storeOk v.b.ctx l.leaf.tag data = true) (hpart : pa % 32 + bs.length ≤ 32) (hn : 0 < bs.length)
    (hq : m.presses = []) (pts : Nat) : ∃ m',
      m.storeVa mg v va bs data pts = (.ok (max pts ((m.lineStamps (lineOf pa)).rts + 1), [(pa, bs.length)]),
        m'.healDev [(pa, bs.length)]) ∧
      ((m.stampLine (lineOf pa) pts).2.putBytes (m.viewOf v.actor l.leaf) pa bs).Caches m' := by
  obtain ⟨m', hstore, hm'⟩ := Mach.storeDev_stamped (h.recall hp) mg v.actor l.leaf .thread bs pts
  refine ⟨m', ?_, hm'⟩
  have hcauses : m.writeCauses v.b.ctx v.b.launch [⟨va, bs.length, .ok l⟩] data = [] := by
    simp [Mach.writeCauses, hw, Mach.writeOk, hp, ht]
  have hlocs : m.storeLocs mg v pts [l] bs = (max pts ((m.lineStamps (lineOf pa)).rts + 1), m') := by
    simp [Mach.storeLocs, Mach.wringLoc_ordinary h.ordinary, h.parts hp hpart hn, h.length, Mach.storeParts, Mach.storePart, hstore]
  have hranges : devRanges [l] = [(pa, bs.length)] := by simp [devRanges, hp, h.length]
  unfold Mach.storeVa
  simp [h.locates, hcauses, pieceLocs, worst, Mach.settleLocs_quiet hq, hlocs, hranges]

end

/-- Healing changes the poisoned units alone (R506). -/
theorem Mach.healDev_bad (m : Mach) (writes : List (Nat × Nat)) : ∃ bad, m.healDev writes = { m with bad := bad } := by
  unfold Mach.healDev
  split_ifs
  · exact ⟨_, rfl⟩
  · exact ⟨_, rfl⟩

theorem Mach.lineStamps_stampLine (m : Mach) (line pts : Nat) :
    (m.stampLine line pts).2.lineStamps line = ⟨max pts ((m.lineStamps line).rts + 1), max pts ((m.lineStamps line).rts + 1)⟩ :=
  (tabGet_set ..).trans (if_pos rfl)

/-! ## One block of scratchpad (R108, R304) -/

/-- The block after a store of `bs` at `a` with the stamp `st`, within one block of 64 bytes. -/
def Block.stored (b : Block) (a : Nat) (bs : List Byte) (data : Mask) (st : Nat) : Block :=
  { b with spadStamp := tabSet b.spadStamp (a / 64) ⟨st, st⟩
           spad := memWrite b.spad a bs
           spadTags := spadTagAfter b (a / 64) (bs.length == 64) data }

theorem Block.stored_stamps (b : Block) (a : Nat) (bs : List Byte) (data : Mask) (st : Nat) :
    blockStamps (b.stored a bs data st) (a / 64) = ⟨st, st⟩ :=
  (tabGet_set ..).trans (if_pos rfl)

theorem Block.stored_tags (b : Block) (a : Nat) (bs : List Byte) (data : Mask) (st i : Nat) :
    tabGet (b.stored a bs data st).spadTags i 0 =
      if i = a / 64 then if bs.length = 64 then data else tabGet b.spadTags (a / 64) 0 ||| data else tabGet b.spadTags i 0 := by
  simp [Block.stored, spadTagAfter, tabGet_set]

section
variable {m : Mach} {bid a pts st : Nat} {b : Block}

theorem Mach.storeSpad_stored (h : tabFind m.blocks bid = some b) (hst : max pts ((blockStamps b (a / 64)).rts + 1) = st)
    (bs : List Byte) (data : Mask) :
    m.storeSpad bid a bs data pts = (st, (m.setBlock bid (b.stored a bs data st)).noteStamp st) := by
  subst hst
  simp [Mach.storeSpad, Mach.stampSpad, Mach.block?, h, Mach.modBlock, Mach.setBlock, Mach.noteStamp, tabMod, Block.stored, spadTagAfter]

theorem Mach.storeSp_stored {bs : List Byte} (h : tabFind m.blocks bid = some b) (hbad : b.spadBad = []) (hpart : a % 64 + bs.length ≤ 64)
    (hn : 0 < bs.length) (hst : max pts ((blockStamps b (a / 64)).rts + 1) = st) (data : Mask) :
    m.storeSp bid a bs data pts = (st, (m.setBlock bid (b.stored a bs data st)).noteStamp st) := by
  have hheal : healSpad (b.stored a bs data st) [(a, bs.length)] = b.stored a bs data st := by
    simp [healSpad, Block.stored, hbad]
  simp [Mach.storeSp, unitPieces_one _ hpart hn, Mach.storeSpad_stored h hst, Mach.modBlock, Mach.setBlock, Mach.noteStamp, tabMod, hheal]

theorem Mach.loadSp_one {n : Nat} (h : tabFind m.blocks bid = some b) (hbad : b.spadBad = []) (hpart : a % 64 + n ≤ 64) (hn : 0 < n)
    (pts : Nat) : m.loadSp bid a n pts =
      (.ok ⟨memRead b.spad a n, max pts (blockStamps b (a / 64)).wts, tabGet b.spadTags (a / 64) 0⟩,
        (m.leaseSpad bid (a / 64) pts).2) := by
  have hgood : spadBadRange b a n = false := by simp [spadBadRange, hbad]
  simp [Mach.loadSp, Mach.block?, h, unitPieces_one _ hpart hn, hgood, Mach.loadSpad, Mach.leaseSpad, Mach.spadBytes, Mach.setBlock,
    Mach.noteStamp, spadTag]

end

end Sys2Proof.Machine

open Sys2Proof Sys2Proof.Machine

/-- Settles O15: a load and a store at a plain location are one part each (`plainLoc.load`, `plainLoc.store`), which beside the bytes and
the stamps of its line changes caches alone; a scratchpad store leaves the block `Block.stored`, which a load then reads. -/
theorem bytesOfMemory : Obligations.BytesOfMemory := by
  unfold Obligations.BytesOfMemory
  refine ⟨?load, ?store, ?spad⟩
  case load =>
    intro m mg v va n pts l pa h hp hl hpart hn _ hq
    obtain ⟨m', he, _, _, _, _, _, rfl⟩ := h.load hp hl hpart hn hq pts
    exact ⟨_, he, rfl, rfl, rfl⟩
  case store =>
    intro m mg v va bs data pts l pa h hp hw hs ht hpart hn _ hq hscrub hok hside
    have hwf : Memory.wf m.mem = true := ((Mach.memoriesOk_iff m).1 hok).1
    have hview : m.viewOf v.actor l.leaf = none := by simp [Mach.viewOf, hs]
    obtain ⟨m', he, hm'⟩ := h.store hp hw ht hpart hn hq pts
    have hput : (m.stampLine (lineOf pa) pts).2.putBytes none pa bs =
        { (m.stampLine (lineOf pa) pts).2 with mem := memWrite m.mem pa bs } :=
      Mach.putBytes_plain _ _ _ (by rw [show (m.stampLine (lineOf pa) pts).2.scrub = [] from hscrub]; rfl) hside
    rw [hview, hput] at hm'
    obtain ⟨_, _, _, _, _, rfl⟩ := hm'
    obtain ⟨bad, hbad⟩ := Mach.healDev_bad _ [(pa, bs.length)]
    rw [hbad] at he
    exact ⟨_, _, he, rfl, m.lineStamps_stampLine (lineOf pa) pts, memRead_write m.mem pa bs hwf,
      fun a ha => (memGet_write m.mem pa a bs hwf).trans (if_neg ha), rfl, rfl⟩
  case spad =>
    intro m bid a bs data pts b hb hpart hn hbad hwf
    obtain ⟨st, hst⟩ : ∃ st, max pts ((blockStamps b (a / 64)).rts + 1) = st := ⟨_, rfl⟩
    have hfind : tabFind ((m.setBlock bid (b.stored a bs data st)).noteStamp st).blocks bid = some (b.stored a bs data st) :=
      tabFind_set_same ..
    have hbytes : memRead (b.stored a bs data st).spad a bs.length = bs := memRead_write b.spad a bs hwf
    have hload := Mach.loadSp_one hfind hbad hpart hn st
    rw [hbytes, Block.stored_stamps, Nat.max_self] at hload
    exact ⟨_, st, _, Mach.storeSp_stored hb hbad hpart hn hst data, hfind, hst.symm, hbytes,
      fun x hx => (memGet_write b.spad a x bs hwf).trans (if_neg hx), (b.stored_tags a bs data st _).trans (if_pos rfl),
      fun i hi => (b.stored_tags a bs data st i).trans (if_neg hi), rfl, _, _, hload, rfl, rfl, rfl⟩
end

section
/-! SUPPORT. Dispatch of a launch (R252, R256), and DONE as the longest initial run of the completed launches (R247, R255). -/

namespace Sys2Proof.Machine

/-! ## Dependences (R252) -/

theorem Mach.testDep_met {d : Dep} (h : d.met = true) (m : Mach) (mg : Mgmt) (l : Launch) (launch k : Nat) :
    m.testDep mg l launch k d = (d, m) := by simp [Mach.testDep, h]

/-- A dependence on a queue is tested against DONE, which the test does not change. -/
theorem Mach.testDep_queue {d : Dep} (h : d.kind = 2) (hm : d.met = false) (m : Mach) (mg : Mgmt) (l : Launch) (launch k : Nat) :
    m.testDep mg l launch k d = ({ d with met := decide (((m.queue d.obj.toNat).done - d.val).toNat < 2 ^ 31) }, m) := by
  simp [Mach.testDep, h, hm]

/-- The test of a dependence on a queue leaves the machine. -/
theorem Mach.testDep_queue_snd {d : Dep} (h : d.kind = 2) (m : Mach) (mg : Mgmt) (l : Launch) (launch k : Nat) :
    (m.testDep mg l launch k d).2 = m := by
  cases hm : d.met with
  | true => rw [Mach.testDep_met hm]
  | false => rw [Mach.testDep_queue h hm]

theorem Mach.testDeps_cons (m : Mach) (mg : Mgmt) (l : Launch) (launch k : Nat) (d : Dep) (r : List Dep) :
    m.testDeps mg l launch k (d :: r) =
      ((m.testDep mg l launch k d).1 :: ((m.testDep mg l launch k d).2.testDeps mg l launch (k + 1) r).1,
        ((m.testDep mg l launch k d).2.testDeps mg l launch (k + 1) r).2) := rfl

theorem Mach.testDeps_met {ds : List Dep} (h : ∀ d ∈ ds, d.met = true) (m : Mach) (mg : Mgmt) (l : Launch) (launch k : Nat) :
    m.testDeps mg l launch k ds = (ds, m) := by
  induction ds generalizing k with
  | nil => rfl
  | cons d r ih =>
    obtain ⟨hd, hr⟩ := List.forall_mem_cons.1 h
    rw [Mach.testDeps_cons, Mach.testDep_met hd, ih hr]

/-- Tests of dependences on queues leave the machine. -/
theorem Mach.testDeps_queues {ds : List Dep} (hk : ∀ d ∈ ds, d.kind = 2) (m : Mach) (mg : Mgmt) (l : Launch) (launch k : Nat) :
    (m.testDeps mg l launch k ds).2 = m := by
  induction ds generalizing k with
  | nil => rfl
  | cons d r ih =>
    obtain ⟨hd, hr⟩ := List.forall_mem_cons.1 hk
    rw [Mach.testDeps_cons, Mach.testDep_queue_snd hd, ih hr]

/-- A dependence on a queue that is short of its value is not met after the tests. -/
theorem Mach.testDeps_unmet {ds : List Dep} {m : Mach} (hk : ∀ d ∈ ds, d.kind = 2)
    (hu : ∃ d ∈ ds, d.met = false ∧ 2 ^ 31 ≤ ((m.queue d.obj.toNat).done - d.val).toNat) (mg : Mgmt) (l : Launch) (launch k : Nat) :
    (m.testDeps mg l launch k ds).1.all (·.met) = false := by
  induction ds generalizing k with
  | nil => simp at hu
  | cons d r ih =>
    obtain ⟨hd, hr⟩ := List.forall_mem_cons.1 hk
    rw [Mach.testDeps_cons, Mach.testDep_queue_snd hd, List.all_cons, Bool.and_eq_false_iff]
    obtain ⟨hm, hlt⟩ | hu := (List.exists_mem_cons_iff ..).1 hu
    · left
      rw [Mach.testDep_queue hd hm]
      exact decide_eq_false (by omega)
    · exact .inr (ih hr hu (k + 1))

/-! ## The steps of a dispatch (R256) -/

/-- A record without tables, whose blocks fit, has nothing to read. -/
theorem Mach.readTables_none {r : LaunchRec} {split : Nat} (hd : r.ndamp = 0) (hp : r.nparty = 0) (hi : r.npimg = 0)
    (hs : r.spadNeed ≤ 32 * split) (hf : r.fits split ≠ 0) (m : Mach) (mg : Mgmt) (ctx launch : Nat) :
    m.readTables mg ctx launch r split = (.ok ⟨[], 0, [], [], 0⟩, m) := by
  have hclean : dampTableBad [] = false := rfl
  simp [Mach.readTables, Mach.readTable, hd, hp, hi, tableEntries, natOfBytes, hclean, Nat.not_lt.2 hs, hf]

/-- The trust ranges of a header that is not there. -/
theorem trustRanges_zero : trustRanges 0 = [] := by decide

theorem regionsOk_nil {rs : List Region} (h : rs.length ≤ 64) : regionsOk rs [] = true := by
  simp [regionsOk, h]

theorem Mach.addRegions_nil (m : Mach) (ctx launch : Nat) : m.addRegions ctx launch [] = m := rfl

theorem Mach.loadPress_nil (m : Mach) (mg : Mgmt) (ctx : Nat) (tag : Mask) (done : List Nat) :
    m.loadPress mg ctx tag [] done = ((0, done), m) := rfl

/-- The launch as it starts (R128, R256): it has its place in dispatch order, the highest stamp, and memory as its code. -/
def Launch.started (l : Launch) (m : Mach) : Launch :=
  { l with order := some m.orders, start := m.maxStamp, code := some ⟨m.mem, m.side, m.scrub⟩, trust := [], world := none }

/-- The machine with the launch started; no party is installed, so its context is written back as it is. -/
def Mach.withStarted (m : Mach) (launch : Nat) (l : Launch) : Mach :=
  { (m.modCtx l.ctx id).setLaunch launch (l.started m) with orders := m.orders + 1 }

/-- A launch without tables or key starts. -/
theorem dispatchSteps_plain {m : Mach} {mg : Mgmt} {l : Launch} (hk : l.rec_.keyh = 0) (hd : l.rec_.ndamp = 0) (hp : l.rec_.nparty = 0)
    (hi : l.rec_.npimg = 0) (hr : (m.ctx l.ctx).regions.length ≤ 64)
    (hs : l.rec_.spadNeed ≤ 32 * splitOf mg (m.ctx l.ctx) l.ctx) (hf : l.rec_.fits (splitOf mg (m.ctx l.ctx) l.ctx) ≠ 0) (launch : Nat) :
    dispatchSteps mg m launch l = (mg, m.withStarted launch l) := by
  have hkey : (l.rec_.keyh != 0) = false := by simp [hk]
  simp only [dispatchSteps, hkey, Mach.readTables_none hd hp hi hs hf, List.map_nil, regionsOk_nil hr, Mach.addRegions_nil,
    Mach.loadPress_nil, startLaunch, trustRanges_zero]
  rfl

theorem Mach.withStarted_ctx (m : Mach) (launch : Nat) (l : Launch) (c : Nat) : (m.withStarted launch l).ctx c = m.ctx c := by
  show (m.modCtx l.ctx id).ctx c = m.ctx c
  rw [Mach.ctx_modCtx]
  split_ifs with e
  · exact congrArg m.ctx e.1.symm
  · rfl

theorem Mach.withStarted_launch (m : Mach) (launch : Nat) (l : Launch) (j : Nat) :
    (m.withStarted launch l).launch? j = if j = launch then some (l.started m) else m.launch? j := tabFind_set ..

theorem Mach.withStarted_keeps (m : Mach) (launch : Nat) (l : Launch) : sameMemory m (m.withStarted launch l) ∧
    (m.withStarted launch l).blocks = m.blocks ∧ (m.withStarted launch l).orders = m.orders + 1 := ⟨⟨rfl, rfl, rfl⟩, rfl, rfl⟩

/-- A pending launch of a running context is considered: its dependences are tested, and it starts once all are met. -/
theorem considerLaunch_pending {m : Mach} {k : Nat} {l : Launch} (hl : m.launch? k = some l) (ho : l.order = none)
    (hr : (m.ctx l.ctx).run = .running) {ds : List Dep} {m' : Mach} (mg : Mgmt) (ht : m.testDeps mg l k 0 l.rec_.deps = (ds, m')) :
    considerLaunch k mg m =
      let l := { l with rec_ := { l.rec_ with deps := ds } }
      if ds.all (·.met) = true then dispatchSteps mg (m'.setLaunch k l) k l else (mg, m'.setLaunch k l) := by
  simp [considerLaunch, hl, ho, hr, ht]

/-! ## DONE (R247) -/

/-- A launch that ends quietly leaves the table and is counted in its queue. -/
theorem Mach.completeLaunch_counts {m : Mach} {k : Nat} {l : Launch} (hl : m.launch? k = some l) (hc : l.rec_.cpla = 0)
    (hw : l.world = none) (hr : (m.ctx l.ctx).regions = []) (mg : Mgmt) (status detail : Nat) :
    ∃ ctxs, m.completeLaunch mg k status detail =
      ({ m with ctxs := ctxs, launches := tabErase m.launches k } : Mach).countDone l.queue l.seq := by
  obtain ⟨ctxs, he⟩ := Mach.releaseRegions_none hr k
  have hword : (l.rec_.cpla == 0 || l.rec_.cpla.toNat % 4 != 0) = true := by rw [hc]; rfl
  simp only [Mach.completeLaunch, hl, he, hw, Option.isSome_none, Bool.false_eq_true, if_false, hword, if_true]
  exact ⟨_, rfl⟩

theorem Mach.queue_countDone (m : Mach) (queue seq j : Nat) : (m.countDone queue seq).queue j =
    if j = queue then ({ m.queue queue with beyond := seq :: (m.queue queue).beyond } : Queue).advance ((m.queue queue).beyond.length + 1)
    else m.queue j := Mach.queue_modQueue ..

/-- DONE goes past `n` completed launches to the first that is not, if there is fuel for them. -/
theorem Queue.advance_done {q : Queue} {n fuel : Nat} (hin : ∀ i, 1 ≤ i → i ≤ n → (q.done.toNat + i) % 2 ^ 32 ∈ q.beyond)
    (hn : n < 2 ^ 31) (hout : (q.done.toNat + n + 1) % 2 ^ 32 ∉ q.beyond) (hf : n ≤ fuel) :
    (q.advance fuel).done = q.done + BitVec.ofNat 32 n := by
  induction n generalizing q fuel with
  | zero =>
    cases fuel with
    | zero => simp [Queue.advance]
    | succ fuel => simp [Queue.advance, show (q.done.toNat + 1) % 4294967296 ∉ q.beyond from hout]
  | succ n ih =>
    obtain ⟨fuel, rfl⟩ : ∃ f, fuel = f + 1 := ⟨fuel - 1, by omega⟩
    have hfirst : (q.done.toNat + 1) % 2 ^ 32 ∈ q.beyond := hin 1 le_rfl (by omega)
    have hdone : (BitVec.ofNat 32 ((q.done.toNat + 1) % 2 ^ 32)).toNat = (q.done.toNat + 1) % 2 ^ 32 := by simp
    unfold Queue.advance
    simp only [List.contains_iff_mem.2 hfirst, if_true]
    rw [ih ?_ (by omega) ?_ (by omega)]
    · simp only
      bv_omega
    · intro i h1 h2
      have h := hin (i + 1) (by omega) (by omega)
      simp only [hdone]
      refine List.mem_filter.2 ⟨?_, ?_⟩
      · convert h using 1; omega
      · simp only [bne_iff_ne, ne_eq]; omega
    · simp only [hdone]
      intro h
      refine hout ?_
      convert (List.mem_filter.1 h).1 using 1; omega

end Sys2Proof.Machine

open Sys2Proof Sys2Proof.Machine

/-- Settles O35: the tests of dependences leave the machine (`Mach.testDeps_unmet`, `Mach.testDeps_met`), a launch without tables starts
at once (`dispatchSteps_plain`), one that ends quietly is counted (`Mach.completeLaunch_counts`), and DONE goes to the first launch that
is not completed (`Queue.advance_done`). -/
theorem launchDispatch : Obligations.LaunchDispatch := by
  unfold Obligations.LaunchDispatch
  refine ⟨fun m mg l k j d hk hm => Mach.testDep_queue hk hm m mg l k j, ?pending, ?starts, ?completes, ?done⟩
  case pending =>
    intro s k l hon hl ho hr hk hu
    have htest : s.mach.testDeps s.mgmt l k 0 l.rec_.deps = ((s.mach.testDeps s.mgmt l k 0 l.rec_.deps).1, s.mach) :=
      Prod.ext rfl (Mach.testDeps_queues hk ..)
    refine does_onModule hon (f := considerLaunch k) rfl ?_
    rw [considerLaunch_pending hl ho hr s.mgmt htest, Mach.testDeps_unmet hk hu]
    exact ⟨⟨_, tabFind_set_same .., ho⟩, ⟨rfl, rfl, rfl⟩, rfl, rfl, rfl⟩
  case starts =>
    intro s k l hon hl ho hr hmet hkey hd hp hi hregs hs hf
    have hdeps : ({ l with rec_ := { l.rec_ with deps := l.rec_.deps } } : Launch) = l := rfl
    refine does_onModule hon (f := considerLaunch k) rfl ?_
    rw [considerLaunch_pending hl ho hr s.mgmt (Mach.testDeps_met hmet ..), if_pos (List.all_eq_true.2 hmet)]
    simp only [hdeps]
    rw [dispatchSteps_plain (m := s.mach.setLaunch k l) hkey hd hp hi hregs hs hf]
    obtain ⟨hmem, hblocks, horders⟩ := (s.mach.setLaunch k l).withStarted_keeps k l
    refine ⟨(Mach.withStarted_launch ..).trans (if_pos rfl), fun j hj => ?_, horders, rfl, hmem, hblocks,
      fun c _ => Mach.withStarted_ctx (s.mach.setLaunch k l) k l c⟩
    exact (Mach.withStarted_launch ..).trans ((if_neg hj).trans ((tabFind_set ..).trans (if_neg hj)))
  case completes =>
    intro m mg k l st de hl hrise hc hw hr
    obtain ⟨ctxs, he⟩ := Mach.completeLaunch_counts hl hc hw hr mg st de
    simp only [he]
    refine ⟨⟨rfl, rfl, rfl⟩, rfl, fun j => tabFind_erase m.launches k j hrise, fun j hj => ?_, ?_⟩
    · exact (Mach.queue_countDone ..).trans (if_neg hj)
    · exact (Mach.queue_countDone ..).trans (if_pos rfl)
  case done => exact fun q n hin hn hout hf _ _ => Queue.advance_done hin hn hout hf
end

section
/-! SUPPORT. The ends of holds (R117, R276, R279, R286): what RESUME and DISCARD do to a lane, a warp and a rendezvous, and what ABORT
leaves (R255, R268, R269). -/

namespace Sys2Proof.Machine

/-! ## FQ.CMD (R286, R323) -/

/-- A command that changes nothing leaves the state, whatever the TDI of the function. -/
theorem onCommand_idle {s : State} (h : isOn s) {ctx : Nat} {f : Mgmt → Mach → Mach} (hf : f s.mgmt s.mach = s.mach) :
    onCommand ctx f s = .next s := by
  rw [onCommand, onEvent_on h, hf, ite_self]

/-- A command to a function whose TDI is not in ERROR does what its function gives. -/
theorem does_onCommand {s : State} (h : isOn s) {ctx : Nat} (ht : (s.mgmt.fn (deviceOf ctx)).tdi ≠ .error) {i : Instr}
    {f : Mgmt → Mach → Mach} (hi : exec i s = onCommand ctx f s) {p : State → Prop} (hp : p { s with mach := f s.mgmt s.mach }) :
    Does i s p := by
  refine does_onEvent h hi ?_
  rwa [if_neg (by simpa using ht)]

theorem Mach.resumeHold_none {m : Mach} {ctx : Nat} {num : BitVec 16} (h : (m.ctx ctx).hold? num = none) (mg : Mgmt) (discard : Bool) :
    m.resumeHold mg ctx num discard = m := by simp [Mach.resumeHold, h]

theorem Mach.abortHold_none {m : Mach} {ctx : Nat} {num : BitVec 16} (h : (m.ctx ctx).hold? num = none) (mg : Mgmt) :
    m.abortHold mg ctx num = m := by simp [Mach.abortHold, h]

theorem Ctx.hold?_num {c : Ctx} {num : BitVec 16} {h : Hold} (hh : c.hold? num = some h) : h.num = num := by
  have := List.find?_some hh
  simp only [Bool.and_eq_true, beq_iff_eq] at this
  exact this.1

/-! ## A lane of a warp that is resumed (R117, R276, R286) -/

/-- A lane of the only hold of its warp once the hold ends. -/
def Lane.resumed (now stamp : Nat) (l : Lane) : Lane :=
  let l := if l.live then { l with pts := max l.pts stamp } else l
  let l := if l.st == .ready then { l with ageBase := now } else l
  if !l.isParked then l else l.readyAt (if l.trapped then l.afterPc else l.pc) now

theorem Lane.resumed_pts (now stamp : Nat) (l : Lane) :
    (l.resumed now stamp).pts = if l.live then max l.pts stamp else l.pts := by
  unfold Lane.resumed
  dsimp only
  split_ifs <;> rfl

/-- A parked lane goes on at the instruction that stopped it, or after its TRAP. -/
theorem Lane.resumed_parked {l : Lane} (h : l.isParked = true) (now stamp : Nat) : (l.resumed now stamp).st = .ready ∧
    (l.resumed now stamp).pc = if l.trapped then l.afterPc else l.pc := by
  obtain ⟨r, hr⟩ : ∃ r, l.st = .parked r := by
    unfold Lane.isParked at h
    split at h
    · exact ⟨_, by assumption⟩
    all_goals cases h
  simp [Lane.resumed, Lane.live, Lane.isParked, Lane.trapped, Lane.readyAt, Lane.afterPc, hr]

theorem Lane.resumed_other {l : Lane} (h : l.isParked = false) (now stamp : Nat) :
    (l.resumed now stamp).st = l.st ∧ (l.resumed now stamp).pc = l.pc := by
  cases hs : l.st <;> simp_all [Lane.resumed, Lane.live, Lane.isParked]

theorem Lane.resumed_regs (now stamp : Nat) (l : Lane) : (l.resumed now stamp).v = l.v ∧ (l.resumed now stamp).p = l.p := by
  unfold Lane.resumed
  dsimp only
  split_ifs <;> exact ⟨rfl, rfl⟩

/-- The warp of a hold that no other hold covers. -/
def Warp.resumed (now stamp : Nat) (w : Warp) : Warp :=
  { modLanes w (fun _ l => l.resumed now stamp) with suspended := false, group := 0, parkedAt := none }

theorem resumeWarp_only (now stamp : Nat) : resumeWarp now stamp true true = Warp.resumed now stamp := rfl

theorem laneAt_resumed (now stamp : Nat) (w : Warp) (i : Nat) :
    laneAt (w.resumed now stamp) i = (laneAt w i).map (Lane.resumed now stamp) := laneAt_modLanes ..

theorem getReg_resumed (now stamp : Nat) (w : Warp) (r : RegName) : (w.resumed now stamp).getReg r = w.getReg r :=
  (getReg_congr rfl rfl r).trans <|
    getReg_modLanes w _ r (fun _ l => (l.resumed_regs now stamp).1) fun _ l => (l.resumed_regs now stamp).2

/-- A warp with a parked lane has one that goes on, once it is resumed. -/
theorem Warp.resumed_goesOn {w : Warp} (h : w.lanes.any Lane.isParked = true) (now stamp : Nat) : (w.resumed now stamp).goesOn := by
  obtain ⟨l, hm, hp⟩ := List.any_eq_true.1 h
  obtain ⟨i, hi, rfl⟩ := List.mem_iff_getElem.1 hm
  exact ⟨i, _, (laneAt_resumed ..).trans (by rw [laneAt, List.getElem?_eq_getElem hi]; rfl), .inl (Lane.resumed_parked hp ..).1⟩

/-! ## The only hold of a block with one warp -/

theorem Mach.requeue_none {m : Mach} {bid : Nat} {b : Block} (hb : tabFind m.blocks bid = some b) (hx : b.keptMx = [])
    (hc : b.keptCh = []) (mg : Mgmt) : m.requeue mg bid = m := by
  simp [Mach.requeue, Mach.block?, hb, hx, hc]

theorem Mach.retestSlots_none {m : Mach} {bid : Nat} {b : Block} (hb : tabFind m.blocks bid = some b) (hp : inPlace bid m.blocks.cells)
    (hs : b.slots = ⟨[]⟩) : m.retestSlots bid = m := by
  have hself : ({ b with slots := ⟨[]⟩ } : Block) = b := by rw [← hs]
  simp only [Mach.retestSlots, Mach.block?, hb, hs, List.map_nil, hself]
  rw [Mach.setBlock, tabSet_same hp hb]

/-- The machine without a hold of the context, but before its warps go on. -/
def Mach.endHold (m : Mach) (ctx : Nat) (num : BitVec 16) : Mach :=
  m.modCtx ctx fun c => { c with holds := c.holds.filter (·.num != num) }

/-- RESUME and DISCARD of the only hold of a block, of one warp with a parked lane, where nothing gathers and no command is kept: the
warp is resumed, and nothing follows at once. -/
theorem Mach.resumeHold_only {m : Mach} {ctx k : Nat} {num : BitVec 16} {h : Hold} {b : Block} {w : Warp}
    (hc : tabHas m.ctxs ctx = true) (hh : (m.ctx ctx).hold? num = some h) (hk : h.warps = [k]) (hst : Stands m h.bid k b w)
    (hs : b.slots = ⟨[]⟩) (hx : b.keptMx = []) (hch : b.keptCh = []) (ho : ∀ x ∈ (m.ctx ctx).holds, x.bid = h.bid → x.num = num)
    (hp : w.lanes.any Lane.isParked = true) (mg : Mgmt) (discard : Bool) :
    m.resumeHold mg ctx num discard =
      ((m.endHold ctx num).setBlock h.bid b).modWarp h.bid k (Warp.resumed m.cycle m.maxStamp) := by
  have hbefore : (((m.ctx ctx).holds.takeWhile fun x => x.num != num).filter fun x => x.bid == h.bid) = [] := by
    refine List.filter_eq_nil_iff.2 fun x hm he => ?_
    have hne := List.mem_takeWhile_imp hm
    have := ho x ((List.takeWhile_prefix _).subset hm) (by simpa using he)
    simp [this] at hne
  have hleft : (((m.endHold ctx num).ctx ctx).holds.filter fun x => x.bid == h.bid) = [] := by
    rw [Mach.endHold, Mach.ctx_modCtx, if_pos ⟨rfl, hc⟩]
    refine List.filter_eq_nil_iff.2 fun x hm he => ?_
    obtain ⟨hm, hne⟩ := List.mem_filter.1 hm
    simp [ho x hm (by simpa using he)] at hne
  have hslots : holdSlots b [k] = [] := by simp [holdSlots, tabKeys, hs]
  have hst1 : Stands ((m.endHold ctx num).setBlock h.bid b) h.bid k b w := ⟨tabFind_set_same .., hst.warp⟩
  have hst2 := hst1.modWarp (Warp.resumed m.cycle m.maxStamp)
  obtain ⟨hpb, hpw⟩ := hst1.modWarp_inPlace (Warp.resumed m.cycle m.maxStamp)
  unfold Mach.resumeHold
  simp only [hh, hbefore, show m.modCtx ctx (fun c => { c with holds := c.holds.filter fun x => x.num != num }) = m.endHold ctx num from rfl,
    hleft, show (m.endHold ctx num).block? h.bid = some b from hst.block, hk, hslots, List.foldl_nil, List.foldl_cons, List.any_nil,
    Bool.not_false]
  rw [resumeWarp_only]
  show ((((m.endHold ctx num).setBlock h.bid b).modWarp h.bid k (Warp.resumed m.cycle m.maxStamp)).requeue mg h.bid
    |>.retestSlots h.bid).settleWarp mg h.bid k = _
  rw [Mach.requeue_none hst2.block hx hch, Mach.retestSlots_none hst2.block hpb hs,
    settleWarp_ready hst2.block hpb hst2.warp hpw (Warp.resumed_goesOn hp ..)]

/-! ## A rendezvous that is discarded (R80, R286) -/

/-- A lane of a slot that is discarded is ready where it stands. -/
def Lane.freed (k now : Nat) (l : Lane) : Lane := if l.inSlot k then l.readyAt l.pc now else l

theorem Lane.freed_pc (k now : Nat) (l : Lane) : (l.freed k now).pc = l.pc := by
  unfold Lane.freed
  split_ifs <;> rfl

theorem Lane.freed_st (k now : Nat) (l : Lane) :
    (l.freed k now).st = if l.st = .waiting (.rendezvous k) then .ready else l.st := by
  simp only [Lane.freed, Lane.inSlot, beq_iff_eq]
  split_ifs <;> rfl

theorem laneAt_freeLanes (k now : Nat) (w : Warp) (i : Nat) :
    laneAt (freeLanes k false now w) i = (laneAt w i).map (Lane.freed k now) := laneAt_modLanes ..

/-- The slot is gone, and its lanes are freed where they stand. -/
theorem resumeSlot_discard {b : Block} {k : Nat} {sl : Slot} (h : tabFind b.slots k = some sl) (hr : sl.running = none) (now : Nat) :
    resumeSlot true now k b = { b with slots := tabErase b.slots k, warps := tabMap (freeLanes k false now) b.warps } := by
  simp [resumeSlot, h, hr]

/-! ## ABORT (R255, R269, R286) -/

/-- Stopping a block changes no memory. -/
theorem Mach.stopBlock_keeps (m : Mach) (bid : Nat) : sameMemory m (m.stopBlock bid) ∧ (m.stopBlock bid).launches = m.launches := by
  obtain ⟨-, e⟩ | ⟨b, cores, wrung, gate, -, e⟩ := m.stopBlock_cases bid
  · rw [e]; exact ⟨⟨rfl, rfl, rfl⟩, rfl⟩
  · rw [e]; exact ⟨⟨rfl, rfl, rfl⟩, rfl⟩

theorem Mach.stopBlocks_keeps (l : List Nat) (m : Mach) :
    sameMemory m (l.foldl Mach.stopBlock m) ∧ (l.foldl Mach.stopBlock m).launches = m.launches := by
  induction l generalizing m with
  | nil => exact ⟨⟨rfl, rfl, rfl⟩, rfl⟩
  | cons bid r ih =>
    obtain ⟨⟨h1, h2, h3⟩, h4⟩ := m.stopBlock_keeps bid
    obtain ⟨⟨g1, g2, g3⟩, g4⟩ := ih (m.stopBlock bid)
    exact ⟨⟨g1.trans h1, g2.trans h2, g3.trans h3⟩, g4.trans h4⟩

/-- A launch that ends with nothing to write is aborted: its blocks are stopped and it leaves the table. -/
theorem Mach.abortLaunch_quiet {m : Mach} {k : Nat} {l : Launch} (hl : m.launch? k = some l) (hc : l.rec_.cpla = 0) (hw : l.world = none)
    (hr : (m.ctx l.ctx).regions = []) (mg : Mgmt) : ∃ ctxs queues,
      m.abortLaunch mg k = { (m.blocksOf (·.launch == k)).foldl Mach.stopBlock m with
        ctxs := ctxs, queues := queues, launches := tabErase m.launches k } := by
  obtain ⟨-, hkeep⟩ := Mach.stopBlocks_keeps (m.blocksOf (·.launch == k)) m
  have hl1 : ((m.blocksOf (·.launch == k)).foldl Mach.stopBlock m).launch? k = some l := by rw [Mach.launch?, hkeep]; exact hl
  obtain ⟨ctxs, queues, he⟩ := Mach.completeLaunch_quiet hl1 hc hw (((m.stopBlocks_ends _).ctx l.ctx).regions hr) mg 3 0
  exact ⟨ctxs, queues, hkeep ▸ he⟩

end Sys2Proof.Machine

open Sys2Proof Sys2Proof.Machine

/-- Settles O41: the only hold of a warp ends with its warp resumed (`Mach.resumeHold_only`), a discarded rendezvous frees its lanes
(`resumeSlot_discard`), an aborted launch leaves (`Mach.abortLaunch_quiet`), and RESET is a forced reset
(`Mach.forcedReset_wasReset`). -/
theorem holdsEnd : Obligations.HoldsEnd := by
  unfold Obligations.HoldsEnd
  refine ⟨⟨?unknown, ?resumed, ?discarded⟩, ?aborted, ?reset⟩
  case unknown =>
    intro s ctx num hon hh
    have hidle (discard : Bool) : onCommand ctx (fun mg m => m.resumeHold mg ctx num discard) s = .next s :=
      onCommand_idle hon (Mach.resumeHold_none hh s.mgmt discard)
    exact ⟨hidle false, hidle true, onCommand_idle (f := fun mg m => m.abortHold mg ctx num) hon (Mach.abortHold_none hh s.mgmt)⟩
  case resumed =>
    intro s ctx num h k b w i hi hon ht hc hh hk hst hs hx hch ho hp
    obtain ⟨discard, hexec⟩ : ∃ discard, exec i s = onCommand ctx (fun mg m => m.resumeHold mg ctx num discard) s := by
      obtain rfl | rfl := hi
      · exact ⟨false, rfl⟩
      · exact ⟨true, rfl⟩
    have hst1 : Stands ((s.mach.endHold ctx num).setBlock h.bid b) h.bid k b w := ⟨tabFind_set_same .., hst.warp⟩
    refine does_onCommand hon ht hexec ?_
    rw [Mach.resumeHold_only hc hh hk hst hs hx hch ho hp]
    refine ⟨⟨rfl, rfl, rfl⟩, ?_, ?_, _, _, hst1.modWarp _, rfl, fun j l hl => ?_⟩
    · refine sameRegisters.trans (b := (s.mach.endHold ctx num).setBlock h.bid b) (fun bid j r => ?_)
        (sameRegisters_modWarp _ _ _ (getReg_resumed s.mach.cycle s.mach.maxStamp))
      simp only [Mach.warp?, Mach.block?, Mach.setBlock, tabFind_set]
      split_ifs with e
      · rw [e, hst.block]
      · rfl
    · show ((s.mach.endHold ctx num).ctx ctx).holds = _
      rw [Mach.endHold, Mach.ctx_modCtx, if_pos ⟨rfl, hc⟩]
    · refine ⟨l.resumed s.mach.cycle s.mach.maxStamp, by rw [laneAt_resumed, hl]; rfl, Lane.resumed_pts .., ?_⟩
      by_cases hpk : l.isParked = true
      · rw [if_pos hpk]
        exact Lane.resumed_parked hpk ..
      · rw [if_neg hpk]
        exact Lane.resumed_other (by simpa using hpk) ..
  case discarded =>
    intro b k sl now hsl hr hrise
    rw [resumeSlot_discard hsl hr]
    refine ⟨by rw [tabFind_erase _ _ _ hrise, if_pos rfl], fun j w i l hw hl => ?_⟩
    exact ⟨_, _, (tabFind_map ..).trans (congrArg (Option.map _) hw), (laneAt_freeLanes ..).trans (congrArg (Option.map _) hl),
      Lane.freed_pc .., Lane.freed_st ..⟩
  case aborted =>
    intro s ctx num h b l hon ht hrise hh hb hl hc hw hr
    have hexec : s.mach.abortHold s.mgmt ctx num = s.mach.abortLaunch s.mgmt b.launch := by simp [Mach.abortHold, hh, Mach.block?, hb]
    obtain ⟨⟨hm1, hm2, hm3⟩, -⟩ := Mach.stopBlocks_keeps (s.mach.blocksOf (·.launch == b.launch)) s.mach
    obtain ⟨ctxs, queues, he⟩ := Mach.abortLaunch_quiet hl hc hw hr s.mgmt
    have hblocks := Mach.stopBlocksOf_blocks hrise (·.launch == b.launch)
    have hgone (j : Nat) : tabFind (tabErase s.mach.launches b.launch) j = if j = b.launch then none else s.mach.launch? j :=
      tabFind_erase _ _ _ hrise.2.1
    refine does_onCommand hon ht (f := fun mg m => m.abortHold mg ctx num) rfl ?_
    rw [hexec, he]
    refine ⟨⟨hm1, hm2, hm3⟩, (hgone _).trans (if_pos rfl), fun bid x hx => ?_, fun bid x hx hne => ?_, fun j hj => (hgone j).trans (if_neg hj)⟩
    · have hx := (hblocks bid).symm.trans hx
      obtain ⟨-, hx⟩ := Option.filter_eq_some_iff.1 hx
      simpa using hx
    · exact (hblocks bid).trans (Option.filter_eq_some_iff.2 ⟨hx, by simpa using hne⟩)
  case reset =>
    intro s ctx hon ht hrise hc
    exact does_onCommand hon ht (f := fun mg m => m.forcedReset mg ctx 4) rfl (Mach.forcedReset_wasReset hrise s.mgmt hc 4)
end

section
/-! SUPPORT. Accesses to plain device memory that no lane makes (R108, R114): their parts, and what they change beside bytes. -/

namespace Sys2Proof.Machine

variable {α : Type}

/-! ## The parts of a range (R108) -/

/-- The pieces cover `n` addresses from `a` on, one after another, and none is empty. -/
def Tiles : Nat → Nat → List (Nat × Nat) → Prop
  | _, n, [] => n = 0
  | a, n, x :: r => x.1 = a ∧ 0 < x.2 ∧ x.2 ≤ n ∧ Tiles (a + x.2) (n - x.2) r

/-- With fuel for every unit that the range touches, its parts cover it. -/
theorem tiles_unitPieces {u fuel a n : Nat} (hu : 0 < u) (h : n = 0 ∨ a % u + n ≤ u * fuel) : Tiles a n (unitPieces u fuel a n) := by
  induction fuel generalizing a n with
  | zero =>
    show n = 0
    rw [Nat.mul_zero] at h
    omega
  | succ fuel ih =>
    rw [unitPieces]
    split_ifs with h0
    · exact h0
    · have hlt : a % u < u := Nat.mod_lt a hu
      have hle : a % u + n ≤ u * fuel + u := by rw [← Nat.mul_succ]; exact h.resolve_left h0
      refine ⟨rfl, by omega, Nat.min_le_left .., ih ?_⟩
      by_cases hn : n ≤ u - a % u
      · exact .inl (by rw [Nat.min_eq_left hn, Nat.sub_self])
      · have hnext : (a + (u - a % u)) % u = 0 := by
          have hdiv := Nat.div_add_mod a u
          rw [show a + (u - a % u) = u * (a / u + 1) by rw [Nat.mul_succ]; omega, Nat.mul_mod_right]
        rw [Nat.min_eq_right (by omega), hnext]
        exact .inr (by omega)

theorem tiles_units {a n : Nat} : Tiles a n (unitPieces 32 (n / 32 + 2) a n) := tiles_unitPieces (by decide) (.inr (by omega))

/-- Every piece is a part of the range. -/
theorem Tiles.inside {a n : Nat} {l : List (Nat × Nat)} (h : Tiles a n l) : ∀ x ∈ l, a ≤ x.1 ∧ 0 < x.2 ∧ x.1 + x.2 ≤ a + n := by
  induction l generalizing a n with
  | nil => intro x hx; cases hx
  | cons y r ih =>
    obtain ⟨h1, h2, h3, hr⟩ := h
    intro x hx
    rcases List.mem_cons.1 hx with rfl | hx
    · exact ⟨h1.ge, h2, by omega⟩
    · obtain ⟨g1, g2, g3⟩ := ih hr x hx
      exact ⟨by omega, g2, by omega⟩

theorem Tiles.read {a n : Nat} {l : List (Nat × Nat)} (h : Tiles a n l) (m : Mem) :
    (l.flatMap fun x => memRead m x.1 x.2) = memRead m a n := by
  induction l generalizing a n with
  | nil => cases h; rfl
  | cons y r ih =>
    obtain ⟨h1, -, h3, hr⟩ := h
    rw [List.flatMap_cons, ih hr, h1, ← memRead_append, Nat.add_sub_cancel' h3]

theorem memWrite_append (m : Mem) (a : Nat) (xs ys : List Byte) :
    memWrite m a (xs ++ ys) = memWrite (memWrite m a xs) (a + xs.length) ys := by
  induction xs generalizing m a with
  | nil => rfl
  | cons x r ih => rw [List.cons_append, memWrite, ih, memWrite, List.length_cons, Nat.add_assoc, Nat.add_comm 1]

/-- Writes of the parts of a run, one after another, are the write of the run. -/
theorem Tiles.write {a n : Nat} {l : List (Nat × Nat)} (h : Tiles a n l) (m : Mem) {base : Nat} {bs : List Byte} (hb : base ≤ a)
    (hn : a - base + n ≤ bs.length) :
    l.foldl (fun m x => memWrite m x.1 ((bs.drop (x.1 - base)).take x.2)) m = memWrite m a ((bs.drop (a - base)).take n) := by
  induction l generalizing a n m with
  | nil => cases h; simp [memWrite]
  | cons y r ih =>
    obtain ⟨h1, -, h3, hr⟩ := h
    have hlen : ((bs.drop (a - base)).take y.2).length = y.2 := by simp; omega
    have hdrop : bs.drop (a + y.2 - base) = (bs.drop (a - base)).drop y.2 := by
      rw [List.drop_drop, show a - base + y.2 = a + y.2 - base by omega]
    rw [List.foldl_cons, ih hr _ (by omega) (by omega), h1, hdrop]
    calc memWrite (memWrite m a ((bs.drop (a - base)).take y.2)) (a + y.2) (((bs.drop (a - base)).drop y.2).take (n - y.2))
        = memWrite (memWrite m a ((bs.drop (a - base)).take y.2)) (a + ((bs.drop (a - base)).take y.2).length)
            (((bs.drop (a - base)).drop y.2).take (n - y.2)) := by rw [hlen]
      _ = memWrite m a ((bs.drop (a - base)).take (y.2 + (n - y.2))) := by rw [← memWrite_append, ← List.take_add]
      _ = memWrite m a ((bs.drop (a - base)).take n) := by rw [Nat.add_sub_cancel' h3]

theorem Tiles.write_all {a : Nat} {bs : List Byte} {l : List (Nat × Nat)} (h : Tiles a bs.length l) (m : Mem) :
    l.foldl (fun m x => memWrite m x.1 ((bs.drop (x.1 - a)).take x.2)) m = memWrite m a bs := by
  rw [h.write m le_rfl (by omega)]
  simp

/-! ## What serving an access changes beside bytes -/

/-- Ordering points, stamps and caches alone differ: claims and holds of lines, their stamps, the notes of writes from outside, the TLBs,
the L1s, and L2 with its monitor. -/
def Mach.Served (m m' : Mach) : Prop := ∃ claims heldBy stamps maxStamp outPts outside tlb cores lines l2Uses shadow hits,
  m' = { m with
    claims := claims, heldBy := heldBy, stamps := stamps, maxStamp := maxStamp, outPts := outPts, outside := outside, tlb := tlb
    cores := cores, lines := lines, l2Uses := l2Uses, shadow := shadow, hits := hits }

theorem Mach.Served.refl (m : Mach) : m.Served m := ⟨_, _, _, _, _, _, _, _, _, _, _, _, rfl⟩

theorem Mach.Served.trans {a b c : Mach} (h : a.Served b) (g : b.Served c) : a.Served c := by
  obtain ⟨_, _, _, _, _, _, _, _, _, _, _, _, rfl⟩ := h
  obtain ⟨_, _, _, _, _, _, _, _, _, _, _, _, rfl⟩ := g
  exact ⟨_, _, _, _, _, _, _, _, _, _, _, _, rfl⟩

theorem Mach.Caches.served {m m' : Mach} (h : m.Caches m') : m.Served m' := by
  obtain ⟨_, _, _, _, _, rfl⟩ := h
  exact ⟨_, _, _, _, _, _, _, _, _, _, _, _, rfl⟩

/-- What another byte in memory would not have changed. -/
theorem Mach.Served.withMem {m m' : Mach} (h : m.Served m') (x : Mem) : ({ m with mem := x } : Mach).Served { m' with mem := x } := by
  obtain ⟨_, _, _, _, _, _, _, _, _, _, _, _, rfl⟩ := h
  exact ⟨_, _, _, _, _, _, _, _, _, _, _, _, rfl⟩

section
variable {m m' : Mach} (h : m.Served m')
include h

theorem Mach.Served.mem : m'.mem = m.mem := by
  obtain ⟨_, _, _, _, _, _, _, _, _, _, _, _, rfl⟩ := h; rfl
theorem Mach.Served.signals : m'.signals = m.signals := by
  obtain ⟨_, _, _, _, _, _, _, _, _, _, _, _, rfl⟩ := h; rfl
theorem Mach.Served.plain {pa n : Nat} (hp : plainRange m pa n) : plainRange m' pa n := by
  obtain ⟨_, _, _, _, _, _, _, _, _, _, _, _, rfl⟩ := h
  exact ⟨hp.good, hp.clear, hp.unsealed⟩
/-- The streams of the functions are as they were. -/
theorem Mach.Served.streams (ctx : Nat) : m'.hostDead ctx = m.hostDead ctx ∧ m'.hostHeld ctx = m.hostHeld ctx := by
  obtain ⟨_, _, _, _, _, _, _, _, _, _, _, _, rfl⟩ := h; exact ⟨rfl, rfl⟩

end

theorem Mach.recallFor_served (m : Mach) (cluster : Option Nat) (line : Nat) : m.Served (m.recallFor cluster line) := by
  have hunhold : m.Served (m.unhold line) := by
    unfold Mach.unhold
    split
    · exact .refl m
    · exact ⟨_, _, _, _, _, _, _, _, _, _, _, _, rfl⟩
  refine hunhold.trans ?_
  unfold Mach.recallFor
  dsimp only
  split
  · exact .refl _
  · split_ifs
    · exact .refl _
    · exact ⟨_, _, _, _, _, _, _, _, _, _, _, _, rfl⟩

theorem Mach.leaseLine_served (m : Mach) (line pts : Nat) : m.Served (m.leaseLine line pts).2 :=
  ⟨_, _, _, _, _, _, _, _, _, _, _, _, rfl⟩

theorem Mach.stampLine_served (m : Mach) (line pts : Nat) : m.Served (m.stampLine line pts).2 :=
  ⟨_, _, _, _, _, _, _, _, _, _, _, _, rfl⟩

theorem Mach.allocLine_served (m : Mach) (mg : Mgmt) (dev : Nat) (tc : Traffic) (write sealed_ : Bool) (line : Nat) :
    m.Served (m.allocLine mg dev tc write sealed_ line) := (m.allocLine_caches mg dev tc write sealed_ line).served

theorem Mach.dropL1_served (m : Mach) (core line : Nat) : m.Served (m.dropL1 core line) := ⟨_, _, _, _, _, _, _, _, _, _, _, _, rfl⟩

/-! ## Translation (R288 to R290) -/

theorem Mach.readEntry_served (m : Mach) (pa : Nat) : m.Served (m.readEntry pa).2 := by
  unfold Mach.readEntry
  split_ifs
  · exact .refl m
  · exact (m.recallFor_served ..).trans (Mach.leaseLine_served ..)

theorem Mach.walk_served (m : Mach) (table va : Nat) (lvs : List Level) : m.Served (m.walk table va lvs).2 := by
  induction lvs generalizing m table with
  | nil => exact .refl m
  | cons lv rest ih =>
    have hread := m.readEntry_served (table + 8 * ((va >>> lv.shift) % 2 ^ lv.bits))
    unfold Mach.walk
    dsimp only
    generalize m.readEntry (table + 8 * ((va >>> lv.shift) % 2 ^ lv.bits)) = e at hread ⊢
    obtain ⟨_ | x, m1⟩ := e
    · dsimp only
      split_ifs
      · exact .refl m
      · exact hread
    · have hnext := hread.trans (ih m1 (field x 47 8 * 256))
      dsimp only
      split_ifs
      · exact .refl m
      · exact hread
      · cases lv.log with
        | none => exact hread
        | some z =>
          dsimp only
          split_ifs <;> exact hread
      · exact hread
      · exact hnext

theorem Mach.translate_served (m : Mach) (a : Actor) (va : Nat) : m.Served (m.translate a va).2 := by
  have hwalk := m.walk_served (m.ctx a.ctx).ptRoot va levels
  unfold Mach.translate
  dsimp only
  split
  · exact .refl m
  · split
    · exact .refl m
    · generalize m.walk (m.ctx a.ctx).ptRoot va levels = e at hwalk ⊢
      obtain ⟨_ | l, m1⟩ := e
      · exact hwalk
      · refine hwalk.trans ?_
        dsimp only
        split_ifs
        · exact .refl m1
        · exact ⟨_, _, _, _, _, _, _, _, _, _, _, _, rfl⟩

theorem Mach.locate1_served (m : Mach) (mg : Mgmt) (a : Actor) (va n : Nat) : m.Served (m.locate1 mg a va n).2 := by
  have htrans := m.translate_served a va
  unfold Mach.locate1
  generalize m.translate a va = e at htrans ⊢
  obtain ⟨_ | l, m1⟩ := e
  · exact htrans
  · dsimp only
    split_ifs
    · exact htrans
    · cases m1.placeOf mg a.ctx l va <;> exact htrans

theorem Mach.locate_served (m : Mach) (mg : Mgmt) (a : Actor) (va n : Nat) : m.Served (m.locate mg a va n).2 := by
  unfold Mach.locate
  induction pagePieces va n generalizing m with
  | nil => exact .refl m
  | cons x r ih => exact (m.locate1_served ..).trans (ih _)

/-! ## Parts of an access that no lane makes, on an unsealed page -/

section
variable {m : Mach} {a : Actor} {l : Leaf} {pa n : Nat}

/-- A part that is read: its bytes as memory has them. -/
theorem Mach.loadDev_plain (ha : a.lane = false) (hs : l.sealed = false) (hp : plainRange m pa n) (mg : Mgmt) (tc : Traffic) (damp : Bool)
    (pts : Nat) : (m.loadDev mg a l tc damp pa n pts).1 = memRead m.mem pa n ∧ m.Served (m.loadDev mg a l tc damp pa n pts).2.2 := by
  have hcall := m.recallFor_served (some (clusterOf a.core)) (lineOf pa)
  have hlease := hcall.trans (Mach.leaseLine_served _ (lineOf pa) pts)
  unfold Mach.loadDev
  simp only [ha, Mach.viewOf, hs, Bool.false_and, Bool.false_eq_true, if_false]
  exact ⟨by rw [Mach.viewBytes_plain (hlease.plain hp), hlease.mem], hlease.trans (Mach.allocLine_served ..)⟩

/-- A part that is written: memory has its bytes. -/
theorem Mach.storeDev_plain {bs : List Byte} (ha : a.lane = false) (hs : l.sealed = false) (hp : plainRange m pa n) (hn : 0 < n) (mg : Mgmt)
    (tc : Traffic) (pts : Nat) : ({ m with mem := memWrite m.mem pa bs } : Mach).Served (m.storeDev mg a l tc pa bs pts).2 := by
  have hstamp := (m.recallFor_served (some (clusterOf a.core)) (lineOf pa)).trans (Mach.stampLine_served _ (lineOf pa) pts)
  have hp' := hstamp.plain hp
  have hput := Mach.putBytes_plain _ pa bs (hp'.clear pa le_rfl (by omega)) (hp'.unsealed pa le_rfl (by omega))
  unfold Mach.storeDev
  simp only [ha, Mach.viewOf, hs, Bool.false_and, Bool.false_eq_true, if_false, hput, hstamp.mem]
  exact (hstamp.withMem _).trans (Mach.allocLine_served ..)

/-- A read-modify-write of one part answers the old bytes and leaves the new ones. -/
theorem Mach.rmwDev_plain {f : List Byte → Option (List Byte)} {bs : List Byte} (hs : l.sealed = false) (hp : plainRange m pa n) (hn : 0 < n)
    (hf : f (memRead m.mem pa n) = some bs) (mg : Mgmt) (pts : Nat) : (m.rmwDev mg a l false pa n f pts).1 = memRead m.mem pa n ∧
      ({ m with mem := memWrite m.mem pa bs } : Mach).Served (m.rmwDev mg a l false pa n f pts).2.2 := by
  have hcall := m.recallFor_served (some (clusterOf a.core)) (lineOf pa)
  have hold := (Mach.viewBytes_plain (hcall.plain hp)).trans (congrArg (memRead · pa n) hcall.mem)
  have hstamp := hcall.trans (Mach.stampLine_served _ (lineOf pa) pts)
  have hp' := hstamp.plain hp
  have hput := Mach.putBytes_plain _ pa bs (hp'.clear pa le_rfl (by omega)) (hp'.unsealed pa le_rfl (by omega))
  unfold Mach.rmwDev
  simp only [Mach.viewOf, hs, Bool.false_eq_true, if_false, hold, hf, hput, hstamp.mem]
  exact ⟨trivial, ((hstamp.withMem _).trans (Mach.allocLine_served ..)).trans (Mach.dropL1_served ..)⟩

end

/-! ## Lines that no holder would drain -/

theorem Mach.wringNow_dry {m : Mach} {line : Nat} (h : dryLine m line) : m.wringNow line = m := by
  obtain ⟨ht, hd⟩ := h
  have hdrain : m.drainAll (·.line == line) = m := by
    rw [Mach.drainAll, List.filter_eq_nil_iff.2 fun t hm => by simpa using ht t hm]
    rfl
  rw [Mach.wringNow, hdrain, Mach.applyDrains, List.filter_eq_nil_iff.2 fun d hm => by simpa using hd d hm]
  rfl

theorem Mach.settleRange_dry {m : Mach} {pa n : Nat} (h : ∀ l ∈ linesOf pa n, dryLine m l) : m.settleRange pa n = m := by
  unfold Mach.settleRange
  revert h
  generalize linesOf pa n = ls
  intro h
  induction ls with
  | nil => rfl
  | cons l r ih =>
    rw [List.foldl_cons, Mach.wringNow_dry (h l (by simp))]
    exact ih fun k hk => h k (by simp [hk])

end Sys2Proof.Machine
end

section
/-! SUPPORT. Requests to this module's memory from outside (R120, R130, R308, R320, R336). -/

namespace Sys2Proof.Machine

/-! ## Requests at one physical range -/

section
variable {m : Mach} {a : Actor} {l : Leaf} {pa : Nat}

/-- One part of a read from outside, after the bytes of the parts before it. -/
def readOn (mg : Mgmt) (a : Actor) (l : Leaf) (acc : List Byte × Mach) (x : Nat × Nat) : List Byte × Mach :=
  (acc.1 ++ (acc.2.loadDev mg a l .thread false x.1 x.2 0).1, (acc.2.loadDev mg a l .thread false x.1 x.2 0).2.2)

/-- The parts of a range are read one after another. -/
theorem readOn_tiles (ha : a.lane = false) (hs : l.sealed = false) {n : Nat} {ps : List (Nat × Nat)} (h : Tiles pa n ps)
    (hp : plainRange m pa n) (mg : Mgmt) (acc : List Byte) :
    (ps.foldl (readOn mg a l) (acc, m)).1 = acc ++ memRead m.mem pa n ∧ m.Served (ps.foldl (readOn mg a l) (acc, m)).2 := by
  induction ps generalizing pa n m acc with
  | nil => cases h; exact ⟨(List.append_nil _).symm, .refl m⟩
  | cons x r ih =>
    obtain ⟨h1, h2, h3, hr⟩ := h
    obtain ⟨hbs, hserved⟩ := Mach.loadDev_plain ha hs (hp.part h1.ge (by omega) : plainRange m x.1 x.2) mg .thread false 0
    obtain ⟨g1, g2⟩ := ih hr (hserved.plain (hp.part (by omega) (by omega))) (acc ++ memRead m.mem x.1 x.2)
    rw [List.foldl_cons]
    simp only [readOn, hbs] at g1 g2 ⊢
    refine ⟨g1.trans ?_, hserved.trans g2⟩
    rw [List.append_assoc, hserved.mem, h1, ← memRead_append, Nat.add_sub_cancel' h3]

theorem Mach.outsideParts_read (ha : a.lane = false) (hs : l.sealed = false) {n : Nat} (hp : plainRange m pa n) (mg : Mgmt) (who : Nat) :
    (m.outsideParts mg who a l (.read n) pa).1 = memRead m.mem pa n ∧ m.Served (m.outsideParts mg who a l (.read n) pa).2 :=
  readOn_tiles ha hs tiles_units hp mg []

/-- One part of a posted write from outside. -/
def Mach.writeOn (mg : Mgmt) (who : Nat) (a : Actor) (l : Leaf) (d : List Byte) (pa : Nat) (m : Mach) (x : Nat × Nat) : Mach :=
  let s := m.storeDev mg a l .thread x.1 ((d.drop (x.1 - pa)).take x.2) (tabGet m.outPts who 0)
  { s.2 with outPts := tabSet s.2.outPts who s.1, outside := tabSet s.2.outside (lineOf x.1) s.1 }

theorem Mach.writeOn_tiles (ha : a.lane = false) (hs : l.sealed = false) (mg : Mgmt) (who : Nat) (d : List Byte) (ps : List (Nat × Nat))
    (hp : ∀ x ∈ ps, 0 < x.2 ∧ plainRange m x.1 x.2) :
    ({ m with mem := ps.foldl (fun m x => memWrite m x.1 ((d.drop (x.1 - pa)).take x.2)) m.mem } : Mach).Served
      (ps.foldl (Mach.writeOn mg who a l d pa) m) := by
  induction ps generalizing m with
  | nil => exact .refl m
  | cons x r ih =>
    obtain ⟨hn, hx⟩ := hp x (by simp)
    have hstore : ({ m with mem := memWrite m.mem x.1 ((d.drop (x.1 - pa)).take x.2) } : Mach).Served (m.writeOn mg who a l d pa x) :=
      (Mach.storeDev_plain ha hs hx hn mg .thread _).trans ⟨_, _, _, _, _, _, _, _, _, _, _, _, rfl⟩
    have hrest := ih (m := m.writeOn mg who a l d pa x) fun y hy => by
      obtain ⟨hk, g1, g2, g3⟩ := hp y (by simp [hy])
      exact ⟨hk, hstore.plain ⟨g1, g2, g3⟩⟩
    rw [List.foldl_cons, List.foldl_cons]
    rw [hstore.mem] at hrest
    exact (hstore.withMem _).trans hrest

/-- A write of a range leaves its bytes there; what follows heals poison. -/
theorem Mach.outsideParts_write (ha : a.lane = false) (hs : l.sealed = false) {d : List Byte} (hp : plainRange m pa d.length) (mg : Mgmt)
    (who : Nat) : ∃ m' bad, m.outsideParts mg who a l (.write d) pa = ([], { m' with bad := bad }) ∧
      ({ m with mem := memWrite m.mem pa d } : Mach).Served m' := by
  have hparts := Mach.writeOn_tiles (m := m) (pa := pa) ha hs mg who d (unitPieces 32 (d.length / 32 + 2) pa d.length) fun x hx => by
    obtain ⟨h1, h2, h3⟩ := tiles_units.inside x hx
    exact ⟨h2, hp.part h1 h3⟩
  rw [tiles_units.write_all] at hparts
  obtain ⟨bad, he⟩ := Mach.healDev_bad ((unitPieces 32 (d.length / 32 + 2) pa d.length).foldl (Mach.writeOn mg who a l d pa) m)
    [(pa, d.length)]
  exact ⟨_, bad, congrArg (Prod.mk []) he, hparts⟩

/-- The value that a wide fetch-and-add leaves. -/
def fetchAdded (m : Mach) (pa : Nat) (x : BitVec 64) : List Byte :=
  bytesOfNat ((natOfBytes (memRead m.mem pa 8) + x.toNat) % 2 ^ 64) 8

theorem Mach.outsideParts_fetchAdd (hs : l.sealed = false) (hp : plainRange m pa 8) (mg : Mgmt) (who : Nat) (x : BitVec 64) :
    (m.outsideParts mg who a l (.fetchAdd true x) pa).1 = memRead m.mem pa 8 ∧
      ({ m with mem := memWrite m.mem pa (fetchAdded m pa x) } : Mach).Served (m.outsideParts mg who a l (.fetchAdd true x) pa).2 := by
  have hnew : (hostAtomic (.fetchAdd true x) (BitVec.ofNat 64 (natOfBytes (memRead m.mem pa 8)))).toNat =
      (natOfBytes (memRead m.mem pa 8) + x.toNat) % 2 ^ 64 := by simp [hostAtomic, Nat.add_mod]
  obtain ⟨h1, h2⟩ := Mach.rmwDev_plain (a := a) (l := l) hs hp (by decide)
    (f := fun bs => some (bytesOfNat (hostAtomic (.fetchAdd true x) (BitVec.ofNat 64 (natOfBytes bs))).toNat 8))
    (congrArg (fun k => some (bytesOfNat k 8)) hnew) mg 0
  exact ⟨h1, h2.trans ⟨_, _, _, _, _, _, _, _, _, _, _, _, rfl⟩⟩

end

/-- A run that was written into a canonical memory is there, and every other byte reads as before. -/
theorem wroteBytes_of_mem {m m' : Mach} {pa : Nat} {bs : List Byte} (hwf : Memory.wf m.mem = true) (h : m'.mem = memWrite m.mem pa bs) :
    wroteBytes m m' pa bs := by
  rw [wroteBytes, restReads, h]
  exact ⟨memRead_write m.mem pa bs hwf, fun a ha => (memGet_write m.mem pa a bs hwf).trans (if_neg (by omega))⟩

theorem QuietRange.mem_wf {m : Mach} {pa n : Nat} (h : QuietRange m pa n) : Memory.wf m.mem = true := ((Mach.memoriesOk_iff m).1 h.wf).1

/-! ## Requests of the host and of PCIe peers (R120, R308, R320) -/

/-- An answer with data while the function's streams work. -/
theorem Mach.answerHost_reads {m : Mach} {fn : Nat} (h : m.hostDead (16 * fn) = false ∧ m.hostHeld (16 * fn) = false) {o : HostOp}
    (ho : hostReads o = true) (ok : Bool) (bs : List Byte) :
    m.answerHost fn o ok bs = { m with signals := m.signals ++ [.hostReply fn ok bs] } := by
  simp [Mach.answerHost, h.1, h.2, ho]

/-- A posted write has no answer (R120). -/
theorem Mach.answerHost_posted (m : Mach) (fn : Nat) (d : List Byte) (ok : Bool) (bs : List Byte) : m.answerHost fn (.write d) ok bs = m := rfl

/-- Whether a request to one location is served (R120, R308). -/
def Mach.hostAllows (m : Mach) (ctx : Nat) (flag : Party → Bool) (o : HostOp) (va pa : Nat) (l : Loc) : Bool :=
  match o with
  | .read _ => m.mayLeave ctx l.leaf.tag l.leaf.sealed flag && !m.badRange none pa l.n
  | .write _ => !l.leaf.sealed && l.leaf.w
  | .fetchAdd _ _ | .swap _ _ | .cas _ _ _ =>
    m.mayLeave ctx l.leaf.tag l.leaf.sealed flag && !m.badRange none pa l.n && va % HostOp_bytes o == 0 && l.leaf.w

theorem opSlice_whole (o : HostOp) : opSlice o 0 (HostOp_bytes o) = o := by
  cases o <;> simp [opSlice, HostOp_bytes]

section
variable {s : State} {r : HostRequest} {ctx pa n : Nat} {l : Loc} {m1 : Mach}

/-- The machine after the translation has the function's streams at work. -/
theorem ThroughAperture.alive1 (h : ThroughAperture s r ctx l pa n m1) :
    m1.hostDead (16 * r.fn) = false ∧ m1.hostHeld (16 * r.fn) = false := by
  have hserved := s.mach.locate_served s.mgmt (engineOf ctx s.mach.ids 0) ((s.mgmt.fn r.fn).apBase.toNat + r.off) n
  rw [h.found] at hserved
  obtain ⟨hd, hh⟩ := hserved.streams (16 * r.fn)
  exact ⟨hd.trans h.alive.1, hh.trans h.alive.2⟩

/-- A request through the aperture to one place is served there if it is allowed, and refused otherwise. -/
theorem ThroughAperture.request (h : ThroughAperture s r ctx l pa n m1) : s.mach.hostRequest s.mgmt r =
    if !m1.hostAllows ctx (if r.peer then peerFlag else hostFlag) r.op ((s.mgmt.fn r.fn).apBase.toNat + r.off) pa l then
      m1.answerHost r.fn r.op false []
    else (m1.outsideParts s.mgmt r.fn (engineOf ctx s.mach.ids 0) l.leaf r.op pa).2.answerHost r.fn r.op true
      (m1.outsideParts s.mgmt r.fn (engineOf ctx s.mach.ids 0) l.leaf r.op pa).1 := by
  obtain ⟨hplace, hva, hn⟩ := h.place
  have hsize : HostOp_bytes r.op = n := h.size
  have hops : opSlice r.op (l.va - ((s.mgmt.fn r.fn).apBase.toNat + r.off)) l.n = r.op := by
    rw [hva, Nat.sub_self, hn, ← hsize, opSlice_whole]
  have hgo : ((s.mgmt.fn r.fn).tdi == .error || n == 0 || decide (r.off + n > apertureSize)) = false := by
    have := h.quiet.size
    have := h.inside
    simp only [Bool.or_eq_false_iff, beq_eq_false_iff_ne]
    exact ⟨⟨h.serves, by omega⟩, decide_eq_false (by unfold apertureSize; omega)⟩
  have hsettle : m1.settleRange pa l.n = m1 := Mach.settleRange_dry (hn ▸ h.quiet.dry)
  unfold Mach.hostRequest
  simp only [h.bound, hsize, hgo, h.found, devPieces, hplace, Option.map_some, Mach.outsideAll, hops, hsettle, List.append_nil]
  cases hop : r.op <;> rw [hop] at hsize <;> simp [Mach.hostAllows, hsize]

end

/-! ## Requests of other modules (R130, R308, R336) -/

theorem Mach.peerRequest_fenced {mg : Mgmt} {r : PeerRequest} (h : r.modid ∈ mg.fenced) (m : Mach) : m.peerRequest mg r = m := by
  simp [Mach.peerRequest, h]

/-- A module that is not fenced reads where the reading launch trusts this module and the page's parties agree. -/
theorem Mach.peerRequest_read {m : Mach} {mg : Mgmt} {r : PeerRequest} {n : Nat} (hf : r.modid ∉ mg.fenced) (ho : r.op = .read n)
    (hq : QuietRange m r.pa n) (hs : r.sealed = false) : (m.peerRequest mg r).mem = m.mem ∧
      (m.peerRequest mg r).signals = m.signals ++ [if r.trusted = true ∧ m.leaveOk r.ctx r.mask (modFlag r.modid) = true
        then .peerReply r.modid true (memRead m.mem r.pa n) else .peerReply r.modid false []] := by
  have hn := hq.size
  obtain ⟨hbs, hserved⟩ := Mach.outsideParts_read (a := engineOf r.ctx m.ids 0) (l := peerLeaf r) rfl hs hq.plain mg (4096 + r.modid)
  have hsettle : m.settleRange r.pa n = m := Mach.settleRange_dry hq.dry
  have hleave : m.mayLeave r.ctx r.mask r.sealed (modFlag r.modid) = m.leaveOk r.ctx r.mask (modFlag r.modid) := by
    simp [Mach.mayLeave, hs]
  have hfence : mg.fenced.contains r.modid = false := by simpa using hf
  have hgood := hq.plain.good
  unfold Mach.peerRequest
  simp only [ho, HostOp_bytes, hostReads, hfence, if_neg hn.ne', hleave, hgood, hsettle, hbs, Bool.not_false, Bool.and_true,
    Bool.false_eq_true, if_false, if_true]
  by_cases hok : r.trusted = true ∧ m.leaveOk r.ctx r.mask (modFlag r.modid) = true
  · simp only [hok.1, hok.2, Bool.and_true, Bool.not_true, Bool.false_eq_true, if_false, and_self, if_true, hserved.signals, hserved.mem]
  · have hno : (r.trusted && m.leaveOk r.ctx r.mask (modFlag r.modid)) = false := by
      simpa [Bool.and_eq_false_iff, Classical.or_iff_not_imp_left] using hok
    simp only [hno, hok, Bool.not_false, if_true, if_false, and_true]

theorem Mach.peerRequest_write {m : Mach} {mg : Mgmt} {r : PeerRequest} {d : List Byte} (hf : r.modid ∉ mg.fenced) (ho : r.op = .write d)
    (hq : QuietRange m r.pa d.length) (hs : r.sealed = false) : ∃ m' bad, m.peerRequest mg r = { m' with bad := bad } ∧
      ({ m with mem := memWrite m.mem r.pa d } : Mach).Served m' := by
  have hn := hq.size
  obtain ⟨m', bad, he, hserved⟩ :=
    Mach.outsideParts_write (a := engineOf r.ctx m.ids 0) (l := peerLeaf r) rfl hs hq.plain mg (4096 + r.modid)
  have hsettle : m.settleRange r.pa d.length = m := Mach.settleRange_dry hq.dry
  have hfence : mg.fenced.contains r.modid = false := by simpa using hf
  refine ⟨m', bad, ?_, hserved⟩
  unfold Mach.peerRequest
  simp only [ho, HostOp_bytes, hostReads, hfence, if_neg hn.ne', hsettle, he, hs, Bool.not_false, Bool.not_true, Bool.false_eq_true, if_false]

end Sys2Proof.Machine

open Sys2Proof Sys2Proof.Machine

/-- Settles O44: an aperture leads a request to one place (`ThroughAperture.request`), where its parts read and write plain memory
(`Mach.outsideParts_read`, `Mach.outsideParts_write`, `Mach.outsideParts_fetchAdd`); another module's request goes there at once. -/
theorem requestsToMemory : Obligations.RequestsToMemory := by
  unfold Obligations.RequestsToMemory
  refine ⟨⟨?read, ?write, ?atomic⟩, ?fenced, ?peerRead, ?peerWrite⟩
  case read =>
    intro s r ctx l pa n m1 h ho
    obtain ⟨-, -, hn⟩ := h.place
    obtain ⟨hbs, hserved⟩ := Mach.outsideParts_read (a := engineOf ctx s.mach.ids 0) rfl h.page h.quiet.plain s.mgmt r.fn
    have halive := hserved.streams (16 * r.fn)
    have hallow : m1.hostAllows ctx (if r.peer then peerFlag else hostFlag) (.read n) ((s.mgmt.fn r.fn).apBase.toNat + r.off) pa l =
        m1.leaveOk ctx l.leaf.tag (if r.peer then peerFlag else hostFlag) := by
      simp [Mach.hostAllows, Mach.mayLeave, h.page, hn, h.quiet.plain.good]
    refine does_onEvent h.on (f := fun mg m => m.hostRequest mg r) rfl ?_
    rw [h.request, ho, hallow]
    cases hok : m1.leaveOk ctx l.leaf.tag (if r.peer then peerFlag else hostFlag) with
    | true =>
      rw [if_neg (by decide), Mach.answerHost_reads ⟨halive.1.trans h.alive1.1, halive.2.trans h.alive1.2⟩ rfl, hbs, if_pos rfl]
      exact ⟨hserved.mem, congrArg (· ++ _) hserved.signals⟩
    | false =>
      rw [if_pos (by decide), Mach.answerHost_reads h.alive1 rfl, if_neg (by decide)]
      exact ⟨rfl, rfl⟩
  case write =>
    intro s r ctx l pa n m1 d h ho hw
    obtain rfl : d.length = n := by have := h.size; rwa [ho] at this
    obtain ⟨m', bad, he, hserved⟩ := Mach.outsideParts_write (a := engineOf ctx s.mach.ids 0) rfl h.page h.quiet.plain s.mgmt r.fn
    refine does_onEvent h.on (f := fun mg m => m.hostRequest mg r) rfl ?_
    rw [h.request, ho, if_neg (by simp [Mach.hostAllows, h.page, hw]), he, Mach.answerHost_posted]
    exact ⟨wroteBytes_of_mem h.quiet.mem_wf hserved.mem, hserved.signals⟩
  case atomic =>
    intro s r ctx l pa m1 x h ho hw hleave ha _
    obtain ⟨-, -, hn⟩ := h.place
    obtain ⟨hbs, hserved⟩ := Mach.outsideParts_fetchAdd (a := engineOf ctx s.mach.ids 0) h.page h.quiet.plain s.mgmt r.fn x
    have halive := hserved.streams (16 * r.fn)
    refine does_onEvent h.on (f := fun mg m => m.hostRequest mg r) rfl ?_
    rw [h.request, ho, if_neg (by
      simp [Mach.hostAllows, Mach.mayLeave, h.page, hn, h.quiet.plain.good, hleave, HostOp_bytes, ha, hw])]
    rw [Mach.answerHost_reads ⟨halive.1.trans h.alive1.1, halive.2.trans h.alive1.2⟩ rfl, hbs]
    exact ⟨congrArg (· ++ _) hserved.signals, wroteBytes_of_mem h.quiet.mem_wf hserved.mem⟩
  case fenced =>
    intro s r hon hf
    exact (onEvent_on hon fun mg m => m.peerRequest mg r).trans (by rw [Mach.peerRequest_fenced hf])
  case peerRead =>
    intro s r n hon hf ho hq hs
    exact does_onEvent hon (f := fun mg m => m.peerRequest mg r) rfl (Mach.peerRequest_read hf ho hq hs)
  case peerWrite =>
    intro s r d hon hf ho hq hs
    obtain ⟨m', bad, he, hserved⟩ := Mach.peerRequest_write hf ho hq hs
    refine does_onEvent hon (f := fun mg m => m.peerRequest mg r) rfl ?_
    rw [he]
    exact ⟨wroteBytes_of_mem hq.mem_wf hserved.mem, hserved.signals⟩
end

section
/-! SUPPORT. One application of a press request to plain memory (R114, R164, R167, R174, R175). -/

namespace Sys2Proof.Machine

/-! ## Words of a granule (R161, R164) -/

theorem wordsOfBytes_length {k : Nat} {bs : List Byte} (h : bs.length = 4 * k) : (wordsOfBytes bs).length = k := by
  induction k generalizing bs with
  | zero => rw [List.length_eq_zero_iff.1 h]; rfl
  | succ k ih =>
    obtain ⟨a, b, c, d, r, rfl⟩ : ∃ a b c d r, bs = a :: b :: c :: d :: r := by
      match bs, h with
      | a :: b :: c :: d :: r, _ => exact ⟨a, b, c, d, r, rfl⟩
    simp only [List.length_cons] at h
    rw [wordsOfBytes, List.length_cons, ih (by omega)]

theorem fpBatch_length (gs : List AccGroup) (parts : List (List Word)) (buf : List Word) : (fpBatch gs parts buf).length = buf.length := by
  unfold fpBatch
  induction gs.zipIdx generalizing buf with
  | nil => rfl
  | cons g r ih => rw [List.foldl_cons, ih, List.length_set]

theorem uStep_length (rkind : Nat) (opnd : List Word) (u : BitVec 16) (s : UState) : (uStep rkind opnd u s).buf.length = s.buf.length := by
  unfold uStep
  dsimp only
  split
  case h_2 => exact List.length_set
  all_goals rfl

theorem uRun_length (d : PressImage) (opnd : List Word) (fuel i : Nat) (s : UState) : (uRun d opnd fuel i s).buf.length = s.buf.length := by
  induction fuel generalizing i s with
  | zero => rfl
  | succ fuel ih =>
    unfold uRun
    split
    · rfl
    · split_ifs
      · rfl
      · exact (ih ..).trans (uStep_length ..)
      · exact (ih ..).trans (uStep_length ..)

/-- An application leaves as many words as it found. -/
theorem applyImage_length {d : PressImage} {opnd : List Word} {parts : List (List Word)} {buf ws : List Word} {ret : BitVec 64}
    (h : applyImage d opnd parts buf = (some ws, ret)) : ws.length = buf.length := by
  unfold applyImage at h
  dsimp only at h
  split_ifs at h
  · cases h
    exact fpBatch_length ..
  · cases h
    exact uRun_length ..
  · cases h

/-! ## Lines and stamps -/

theorem tabGet_fold_set {α : Type} (ls : List Nat) (t : Tab α) (x d : α) (l : Nat) :
    tabGet (ls.foldl (fun t k => tabSet t k x) t) l d = if l ∈ ls then x else tabGet t l d := by
  induction ls generalizing t with
  | nil => rfl
  | cons k r ih =>
    rw [List.foldl_cons, ih, tabGet_set]
    by_cases h : l = k <;> simp [h]

/-- A granule of plain bytes is written as one run. -/
theorem Mach.putGranule_plain {m : Mach} {pa : Nat} {bs : List Byte} (hp : plainRange m pa bs.length) (hn : bs.length ≤ 1024) :
    m.putGranule none pa bs = { m with mem := memWrite m.mem pa bs } := by
  have htiles : Tiles pa bs.length (unitPieces 128 9 pa bs.length) := tiles_unitPieces (by decide) (.inr (by omega))
  have hparts (ps : List (Nat × Nat)) (hin : ∀ x ∈ ps, pa ≤ x.1 ∧ 0 < x.2 ∧ x.1 + x.2 ≤ pa + bs.length) (mem : Mem) :
      ps.foldl (fun (m : Mach) x => m.putBytes none x.1 ((bs.drop (x.1 - pa)).take x.2)) { m with mem := mem } =
        { m with mem := ps.foldl (fun m x => memWrite m x.1 ((bs.drop (x.1 - pa)).take x.2)) mem } := by
    induction ps generalizing mem with
    | nil => rfl
    | cons x r ih =>
      obtain ⟨h1, h2, h3⟩ := hin x (by simp)
      rw [List.foldl_cons, List.foldl_cons, Mach.putBytes_plain { m with mem := mem } _ _ (hp.clear x.1 h1 (by omega))
        (hp.unsealed x.1 h1 (by omega))]
      exact ih (fun y hy => hin y (by simp [hy])) _
  unfold Mach.putGranule
  refine (hparts _ htiles.inside m.mem).trans ?_
  rw [htiles.write_all]

/-! ## Requests whose turn has come (R167) -/

theorem Mach.pressReady_some {m : Mach} {id : Nat} {r : PressReq} (h : m.pressReady id = some r) :
    m.presses.find? (·.id == id) = some r ∧ (∀ e ∈ m.presses.takeWhile (·.id != id), e.precedes r = false) ∧
      (r.target = none → ∀ l ∈ r.lines, tabFind m.heldBy l = none) := by
  unfold Mach.pressReady at h
  split at h
  · cases h
  · rename_i r' hf
    dsimp only at h
    split_ifs at h with hno
    cases h
    simp only [Bool.or_eq_true, not_or, Bool.not_eq_true, List.any_eq_false, Bool.and_eq_false_iff] at hno
    obtain ⟨⟨-, hbefore⟩, hheld⟩ := hno
    refine ⟨hf, hbefore, fun ht l hl => ?_⟩
    have := hheld.resolve_left (by simp [ht]) l hl
    simpa [tabHas] using this

/-! ## One application -/

/-- The outcome of an application to the memory as it stands. -/
def pressResult (m : Mach) (r : PressReq) : PressResult :=
  ⟨pressStamp m r, (applyImage r.image r.opnd r.parts (granuleWords m r)).2, 0⟩

/-- Memory after it. -/
def pressMem (m : Mach) (r : PressReq) : Mem :=
  (applyImage r.image r.opnd r.parts (granuleWords m r)).1.elim m.mem fun ws => memWrite m.mem r.granule (bytesOfWords ws)

/-- The machine once a request is applied and over, but for claims, holds of lines, what is owed to lanes, and caches. -/
def Mach.applied (m : Mach) (r : PressReq) : Mach :=
  { m with
    mem := pressMem m r
    stamps := r.lines.foldl (fun t l => tabSet t l ⟨pressStamp m r, pressStamp m r⟩) m.stamps
    maxStamp := max m.maxStamp (pressStamp m r)
    corrected := m.corrected + if r.glitch = true then 1 else 0
    presses := m.presses.filter (·.id != r.id) }

/-- Claims, holds of lines, what `PRESSR`s are owed, and caches alone differ. -/
def Mach.Unbinds (m m' : Mach) : Prop := ∃ claims heldBy owed cores lines l2Uses shadow hits,
  m' = { m with
    claims := claims, heldBy := heldBy, owed := owed, cores := cores, lines := lines, l2Uses := l2Uses, shadow := shadow, hits := hits }

/-- Lines that nothing would drain and nothing holds only lose their claims. -/
theorem Mach.prepareLines_quiet {m : Mach} {r : PressReq} (hd : ∀ l ∈ r.lines, dryLine m l) (hh : ∀ l ∈ r.lines, tabFind m.heldBy l = none) :
    ∃ claims, m.prepareLines r = { m with claims := claims } := by
  have hrecall (claims : Tab Nat) {l : Nat} (h : tabFind m.heldBy l = none) :
      ∃ claims', ({ m with claims := claims } : Mach).recallFor none l = { m with claims := claims' } := by
    simp only [Mach.recallFor, Mach.unhold, h]
    split
    · exact ⟨_, rfl⟩
    · exact ⟨_, rfl⟩
  unfold Mach.prepareLines
  suffices hfold : ∀ claims, ∃ claims', r.lines.foldl (fun m l => (if r.wring then m.wringNow l else m).recallFor none l)
      { m with claims := claims } = { m with claims := claims' } from hfold m.claims
  generalize r.lines = ls at hd hh
  induction ls with
  | nil => exact fun claims => ⟨claims, rfl⟩
  | cons l rest ih =>
    intro claims
    have hdry : dryLine { m with claims := claims } l := hd l (by simp)
    obtain ⟨claims1, he⟩ := hrecall claims (hh l (by simp))
    rw [List.foldl_cons, Mach.wringNow_dry hdry, ite_self, he]
    exact ih (fun k hk => hd k (by simp [hk])) (fun k hk => hh k (by simp [hk])) claims1

theorem pressTraffic_caches (r : PressReq) (mg : Mgmt) (m : Mach) : m.Caches (pressTraffic r mg m) := by
  unfold pressTraffic
  induction r.lines generalizing m with
  | nil => exact .refl m
  | cons l rest ih => exact (m.allocLine_caches ..).trans (ih _)

theorem Mach.dropCopies_cores (m : Mach) (r : PressReq) : ∃ cores, m.dropCopies r = { m with cores := cores } := by
  have hlines (ls : List Nat) (c : Nat) (m : Mach) : ∃ cores, ls.foldl (fun m l => m.dropL1 c l) m = { m with cores := cores } := by
    induction ls generalizing m with
    | nil => exact ⟨_, rfl⟩
    | cons l rest ih => exact ih (m.dropL1 c l)
  have hcores (cs : List Nat) (m : Mach) :
      ∃ cores, cs.foldl (fun m c => r.lines.foldl (fun m l => m.dropL1 c l) m) m = { m with cores := cores } := by
    induction cs generalizing m with
    | nil => exact ⟨_, rfl⟩
    | cons c rest ih =>
      obtain ⟨cores, he⟩ := hlines r.lines c m
      rw [List.foldl_cons, he]
      exact ih { m with cores := cores }
  unfold Mach.dropCopies
  split_ifs
  · exact ⟨_, rfl⟩
  · exact hcores ..

section
variable {s : State} {r : PressReq} (h : Applicable s r)
include h

theorem Applicable.size_le : r.image.size ≤ 1024 ∧ 4 ∣ r.image.size := by
  obtain ⟨hlo, hhi⟩ := h.size
  exact ⟨Nat.pow_le_pow_right (by decide) hhi, Nat.pow_dvd_pow 2 (by omega : 2 ≤ r.image.gran)⟩

/-- What the image leaves of the granule fills it. -/
theorem Applicable.granule_length {ws : List Word} {ret : BitVec 64}
    (ha : applyImage r.image r.opnd r.parts (granuleWords s.mach r) = (some ws, ret)) : (bytesOfWords ws).length = r.image.size := by
  obtain ⟨k, hk⟩ := h.size_le.2
  rw [bytesOfWords_length, applyImage_length ha, granuleWords, wordsOfBytes_length (k := k) (by rw [memRead_length, hk]), hk]

/-- The read and the write of the granule, on a machine that has its memory, stamps and pages. -/
theorem Applicable.applyHere {m : Mach} (hmem : m.mem = s.mach.mem) (hside : m.side = s.mach.side) (hscrub : m.scrub = s.mach.scrub)
    (hbad : m.bad = s.mach.bad) (hstamps : m.stamps = s.mach.stamps) (hswept : m.swept = s.mach.swept)
    (hmax : m.maxStamp = s.mach.maxStamp) :
    m.applyHere r = (pressResult s.mach r, { m with
      mem := pressMem s.mach r
      stamps := r.lines.foldl (fun t l => tabSet t l ⟨pressStamp s.mach r, pressStamp s.mach r⟩) s.mach.stamps
      maxStamp := max s.mach.maxStamp (pressStamp s.mach r) }) := by
  have hbuf : wordsOfBytes (m.viewBytes r.world r.granule r.image.size) = granuleWords s.mach r := by
    rw [h.page, Mach.viewBytes_congr hmem hside hscrub, Mach.viewBytes_plain h.plain, granuleWords]
  have hstamp : m.stampGranule r.lines r.pts = (pressStamp s.mach r, { m with
      stamps := r.lines.foldl (fun t l => tabSet t l ⟨pressStamp s.mach r, pressStamp s.mach r⟩) s.mach.stamps
      maxStamp := max s.mach.maxStamp (pressStamp s.mach r) }) := by
    simp only [Mach.stampGranule, Mach.lineStamps, Mach.noteStamp, pressStamp, hstamps, hswept, hmax]
  unfold Mach.applyHere
  rw [hbuf, hstamp]
  cases ha : applyImage r.image r.opnd r.parts (granuleWords s.mach r) with
  | mk ws ret =>
    cases ws with
    | none => simp only [pressResult, pressMem, ha, Option.elim_none, ← hmem]
    | some ws =>
      have hlen := h.granule_length ha
      have hput (m : Mach) (hp : plainRange m r.granule r.image.size) :
          m.putGranule r.world r.granule (bytesOfWords ws) = { m with mem := memWrite m.mem r.granule (bytesOfWords ws) } := by
        rw [h.page]
        exact Mach.putGranule_plain (hlen ▸ hp) (hlen ▸ h.size_le.1)
      simp only [pressResult, pressMem, ha, Option.elim_some]
      rw [hput]
      · simp only [hmem]
      · exact ⟨by rw [Mach.badRange, hbad]; exact h.plain.good, hscrub ▸ h.plain.clear, hside ▸ h.plain.unsealed⟩

/-- The application takes place, and what it owes is answered of a machine in which it is over. -/
theorem Applicable.applies (mg : Mgmt) : ∃ m : Mach, s.mach.applyPress mg r = m.finishPress r (pressResult s.mach r) ∧
    (s.mach.applied r).Unbinds ((m.dropCopies r).closePress r) := by
  obtain ⟨-, -, hheld⟩ := Mach.pressReady_some h.ready
  obtain ⟨claims, hprep⟩ := Mach.prepareLines_quiet h.dry (hheld h.here)
  have hretry : ({ s.mach with claims := claims } : Mach).retryHelps r = r.glitch := by
    cases hg : r.glitch with
    | false => simp [Mach.retryHelps, hg]
    | true =>
      obtain ⟨hf, hclean⟩ := h.read hg
      have hdirty : (r.lines.any fun l => (tabFind s.mach.lines l).any (·.dirty)) = false := by
        simp only [List.any_eq_false]
        intro l hl
        cases ht : tabFind s.mach.lines l with
        | none => simp
        | some x => simp [hclean l hl x ht]
      simp [Mach.retryHelps, hg, hf, hdirty]
  have hgood : ({ s.mach with claims := claims } : Mach).granuleBad r = false := by
    have := h.plain.good
    simp only [Mach.granuleBad, hretry, h.page, Bool.and_not_self, Bool.or_false]
    exact this
  have hcount : ({ s.mach with claims := claims } : Mach).countRetry r =
      { s.mach with claims := claims, corrected := s.mach.corrected + if r.glitch = true then 1 else 0 } := by
    rw [Mach.countRetry, hretry]
    split_ifs <;> rfl
  obtain ⟨cores, lines, l2Uses, shadow, hits, htraffic⟩ := pressTraffic_caches r mg
    { s.mach with claims := claims, corrected := s.mach.corrected + if r.glitch = true then 1 else 0 }
  unfold Mach.applyPress
  simp only [h.here, hprep, hgood, hcount, htraffic, Bool.false_eq_true, if_false]
  rw [h.applyHere]
  · refine ⟨_, rfl, ?_⟩
    obtain ⟨cores', hdrop⟩ := Mach.dropCopies_cores _ r
    rw [hdrop]
    exact ⟨_, _, _, _, _, _, _, _, rfl⟩
  all_goals rfl

/-- R164: what an application leaves of the granule, of the other bytes, and of the stamps. -/
theorem Applicable.wasApplied {m : Mach} (hm : ∃ blocks signals m', (s.mach.applied r).Unbinds m' ∧
    m = { m' with blocks := blocks, signals := signals }) : WasApplied s.mach m r := by
  obtain ⟨blocks, signals, _, ⟨_, _, _, _, _, _, _, _, rfl⟩, rfl⟩ := hm
  have hwf : Memory.wf s.mach.mem = true := ((Mach.memoriesOk_iff s.mach).1 h.memories).1
  have hmem {ws : Option (List Word)} {ret : BitVec 64} (ha : applyImage r.image r.opnd r.parts (granuleWords s.mach r) = (ws, ret)) :
      (s.mach.applied r).mem = ws.elim s.mach.mem fun ws => memWrite s.mach.mem r.granule (bytesOfWords ws) := by
    show pressMem s.mach r = _
    rw [pressMem, ha]
  refine ⟨fun ws ret ha => ?_, fun ret ha => hmem ha, fun a ho => ?_, fun l hl => ?_, ⟨rfl, rfl⟩, rfl⟩
  · show memRead (s.mach.applied r).mem r.granule r.image.size = bytesOfWords ws
    rw [hmem ha, ← h.granule_length ha]
    exact memRead_write _ _ _ hwf
  · show memGet (s.mach.applied r).mem a = memGet s.mach.mem a
    cases ha : applyImage r.image r.opnd r.parts (granuleWords s.mach r) with
    | mk ws ret =>
      rw [hmem ha]
      cases ws with
      | none => rfl
      | some ws =>
        have hlen := h.granule_length ha
        exact (memGet_write _ _ _ _ hwf).trans (if_neg (by omega))
  · exact (tabGet_fold_set ..).trans (if_pos hl)

end

/-! ## Lanes told of an application (R131) -/

theorem Mach.warp?_stands {m : Mach} {bid k : Nat} {w : Warp} (h : m.warp? bid k = some w) : ∃ b, Stands m bid k b w := by
  obtain ⟨b, hb, hw⟩ := Option.bind_eq_some_iff.1 h
  exact ⟨b, hb, hw⟩

theorem Stands.of_blocks {m m' : Mach} {bid k : Nat} {b : Block} {w : Warp} (h : Stands m bid k b w) (hb : m'.blocks = m.blocks) :
    Stands m' bid k b w :=
  ⟨hb ▸ h.block, h.warp⟩

/-- A lane keeps the stamp of an application for its fences. -/
def Mach.tellLane (st : Nat) (m : Mach) (x : PressLane) : Mach :=
  m.modWarp x.bid x.warp fun w => modLane w x.lane fun l => { l with posted := max l.posted st }

theorem Mach.tellLane_registers (st : Nat) (m : Mach) (x : PressLane) : sameRegisters m (m.tellLane st x) :=
  sameRegisters_modWarp _ _ _ fun w r => getReg_modLane w _ _ r (fun _ => rfl) fun _ => rfl

/-- The lane that is told, and every other lane. -/
theorem Stands.tellLane {m : Mach} {bid k i : Nat} {b : Block} {w : Warp} {l : Lane} (h : Stands m bid k b w) (hl : laneAt w i = some l)
    (st : Nat) (x : PressLane) : ∃ b' w', Stands (m.tellLane st x) bid k b' w' ∧
      laneAt w' i = some (if ⟨bid, k, i⟩ = x then { l with posted := max l.posted st } else l) := by
  obtain ⟨xb, xw, xl⟩ := x
  have hwarp := Mach.warp?_modWarp m xb xw bid k fun w => modLane w xl fun l => { l with posted := max l.posted st }
  by_cases e : bid = xb ∧ k = xw
  · obtain ⟨rfl, rfl⟩ := e
    rw [if_pos ⟨rfl, rfl⟩, h.finds.2] at hwarp
    obtain ⟨b', hs⟩ := Mach.warp?_stands hwarp
    refine ⟨b', _, hs, ?_⟩
    rw [laneAt_modLane, hl]
    by_cases ei : i = xl <;> simp [ei]
  · rw [if_neg e, h.finds.2] at hwarp
    obtain ⟨b', hs⟩ := Mach.warp?_stands hwarp
    refine ⟨b', w, hs, ?_⟩
    rw [hl, if_neg (by simp only [PressLane.mk.injEq]; tauto)]

theorem Mach.tellLanes_blocks (st : Nat) (lanes : List PressLane) (m : Mach) :
    ∃ blocks, lanes.foldl (Mach.tellLane st) m = { m with blocks := blocks } := by
  induction lanes generalizing m with
  | nil => exact ⟨_, rfl⟩
  | cons x rest ih => exact ih (m.tellLane st x)

theorem toldLanes_tellLanes (st : Nat) (lanes : List PressLane) (m : Mach) : toldLanes m (lanes.foldl (Mach.tellLane st) m) lanes st := by
  induction lanes generalizing m with
  | nil => exact ⟨fun _ _ _ => rfl, fun bid k b w i l h hl => ⟨b, w, h, by simpa using hl⟩⟩
  | cons x rest ih =>
    obtain ⟨hregs, hlanes⟩ := ih (m.tellLane st x)
    refine ⟨(m.tellLane_registers st x).trans hregs, fun bid k b w i l h hl => ?_⟩
    obtain ⟨b1, w1, h1, hl1⟩ := h.tellLane hl st x
    obtain ⟨b2, w2, h2, hl2⟩ := hlanes _ _ _ _ _ _ h1 hl1
    refine ⟨b2, w2, h2, hl2.trans ?_⟩
    by_cases hx : (⟨bid, k, i⟩ : PressLane) = x <;> by_cases hr : (⟨bid, k, i⟩ : PressLane) ∈ rest <;> simp [hx, hr]

/-! ## What a `PRESSR` is answered (R458) -/

/-- Results of one instruction that arrive later, in this order. -/
def Warp.arrive (id : Nat) (results : List (RegName × Reg)) (w : Warp) : Warp := results.foldl (fun w a => w.arriveReg id a.1 a.2) w

theorem Warp.arriveReg_keeps (w : Warp) (id : Nat) (r : RegName) (x : Reg) : (w.arriveReg id r x).pend = w.pend ∧
    (w.arriveReg id r x).block = w.block ∧ (w.arriveReg id r x).lanes.length = w.lanes.length := by
  unfold Warp.arriveReg
  split_ifs
  · refine ⟨?_, ?_, setReg_length w r x⟩ <;> cases r <;> rfl
  · exact ⟨rfl, rfl, rfl⟩

theorem Warp.arrive_block (id : Nat) (results : List (RegName × Reg)) (w : Warp) : (w.arrive id results).block = w.block := by
  induction results generalizing w with
  | nil => rfl
  | cons a rest ih => exact (ih _).trans (w.arriveReg_keeps id a.1 a.2).2.1

theorem RegName.inWarp_congr {w w' : Warp} (h : w'.lanes.length = w.lanes.length) (r : RegName) : r.inWarp w' ↔ r.inWarp w := by
  cases r <;> simp [RegName.inWarp, h]

/-- A register whose write is pending, and which no younger instruction wrote, holds what arrives for it. -/
theorem Warp.getReg_arrive {id : Nat} {r : RegName} {x : Reg} (results : List (RegName × Reg)) (w : Warp)
    (hlive : ∃ y ∈ w.pend, y.id = id ∧ y.reg = r ∧ y.live = true) (hin : ∀ a ∈ results, a.1.inWarp w)
    (hall : ∀ a ∈ results, a.1 = r → r.trim a.2 = x) (hone : w.getReg r = x ∨ ∃ a ∈ results, a.1 = r) :
    (w.arrive id results).getReg r = x := by
  induction results generalizing w with
  | nil => simpa [Warp.arrive] using hone
  | cons a rest ih =>
    obtain ⟨hpend, -, hlen⟩ := w.arriveReg_keeps id a.1 a.2
    have hfirst : a.1 = r → (w.arriveReg id a.1 a.2).getReg r = x := by
      rintro rfl
      obtain ⟨y, hy, hid, hreg, hl⟩ := hlive
      rw [Warp.arriveReg, if_pos (List.any_eq_true.2 ⟨y, hy, by simp [hid, hreg, hl]⟩), getReg_setReg _ _ _ _ (hin a (by simp)),
        if_pos rfl]
      exact hall a (by simp) rfl
    have hother : a.1 ≠ r → (w.arriveReg id a.1 a.2).getReg r = w.getReg r := by
      intro hne
      unfold Warp.arriveReg
      split_ifs
      · rw [getReg_setReg _ _ _ _ (hin a (by simp)), if_neg (Ne.symm hne)]
      · rfl
    refine ih _ (hpend ▸ hlive) (fun b hb => (RegName.inWarp_congr hlen _).2 (hin b (by simp [hb]))) (fun b hb => hall b (by simp [hb])) ?_
    by_cases ha : a.1 = r
    · exact .inl (hfirst ha)
    · rw [hother ha]
      refine hone.imp_right ?_
      rintro ⟨b, hb, rfl⟩
      exact ⟨b, (List.mem_cons.1 hb).resolve_left (fun e => ha (e ▸ rfl)), rfl⟩

/-- The words of a reply of this module (R458): the value, the status, zero, and the stamp where it was asked for. -/
def replyWords (p : PressReply) (x : PressResult) : List Word :=
  [x.ret.setWidth 32, (x.ret >>> 32).setWidth 32, BitVec.ofNat 32 x.status, 0] ++
    if p.stamp then [BitVec.ofNat 32 x.stamp, BitVec.ofNat 32 (x.stamp / 2 ^ 32), 0, 0] else []

theorem replyWords_first (p : PressReply) (x : PressResult) {j : Nat} (hj : j < 4) : (replyWords p x)[j]? =
    some ([x.ret.setWidth 32, (x.ret >>> 32).setWidth 32, BitVec.ofNat 32 x.status, 0].getD j 0) := by
  rw [replyWords, List.getElem?_append_left hj]
  interval_cases j <;> rfl

/-- The registers that a reply to vector registers fills, and what with. -/
def replyResults (p : PressReply) (n : Nat) (x : PressResult) : List (RegName × Reg) :=
  (bitsOf p.lanes).flatMap fun lane => (replyWords p x).zipIdx.map fun y => (.v lane (n + y.2), ⟨y.1, p.tag⟩)

theorem mem_replyResults {p : PressReply} {n : Nat} {x : PressResult} {a : RegName × Reg} : a ∈ replyResults p n x ↔
    ∃ lane j word, lane < 32 ∧ p.lanes.getLsbD lane = true ∧ (replyWords p x)[j]? = some word ∧ a = (.v lane (n + j), ⟨word, p.tag⟩) := by
  simp only [replyResults, List.mem_flatMap, mem_bitsOf, List.mem_map, Prod.exists, List.mk_mem_zipIdx_iff_getElem?]
  constructor
  · rintro ⟨lane, ⟨h, hb⟩, word, j, hj, rfl⟩
    exact ⟨lane, j, word, h, hb, hj, rfl⟩
  · rintro ⟨lane, j, word, h, hb, hj, rfl⟩
    exact ⟨lane, ⟨h, hb⟩, word, j, hj, rfl⟩

/-- A register of a masked lane holds its word of the reply. -/
theorem getReg_replyResults {p : PressReply} {n : Nat} {x : PressResult} {w : Warp} (hlen : w.lanes.length = 32) {k j : Nat} {word : Word}
    (hk : k < 32) (hb : p.lanes.getLsbD k = true) (hj : (replyWords p x)[j]? = some word)
    (hlive : ∃ y ∈ w.pend, y.id = p.id ∧ y.reg = .v k (n + j) ∧ y.live = true) :
    (w.arrive p.id (replyResults p n x)).getReg (.v k (n + j)) = ⟨word, p.tag⟩ := by
  refine Warp.getReg_arrive _ w hlive (fun a ha => ?_) (fun a ha he => ?_) (.inr ⟨_, mem_replyResults.2 ⟨k, j, word, hk, hb, hj, rfl⟩, rfl⟩)
  · obtain ⟨lane, _, _, hlane, -, -, rfl⟩ := mem_replyResults.1 ha
    exact hlane.trans_eq hlen.symm
  · obtain ⟨lane, i, word', -, -, hi, rfl⟩ := mem_replyResults.1 ha
    simp only [RegName.v.injEq, Nat.add_left_cancel_iff] at he
    obtain ⟨rfl, rfl⟩ := he
    cases hi.symm.trans hj
    rfl

/-! ## What a request owes (R131, R156, R458) -/

/-- A posted request of this module tells its lanes. -/
theorem Mach.finishPress_posted {m : Mach} {r : PressReq} {x : PressResult} (ht : r.target = none) (hp : r.reply = none)
    (hr : r.remote = none) : m.finishPress r x = r.lanes.foldl (Mach.tellLane x.stamp) ((m.dropCopies r).closePress r) := by
  simp only [Mach.finishPress, ht, hp, hr, Option.isSome_none, Bool.false_eq_true, if_false]
  rfl

/-- Another module's request is answered. -/
theorem Mach.finishPress_remote {m : Mach} {r : PressReq} {x : PressResult} {k : Nat} (ht : r.target = none) (hp : r.reply = none)
    (hr : r.remote = some k) : m.finishPress r x = { (m.dropCopies r).closePress r with
      signals := ((m.dropCopies r).closePress r).signals ++ [.pressReply k r.wants x.ret x.status x.stamp] } := by
  simp only [Mach.finishPress, ht, hp, hr, Option.isSome_none, Bool.false_eq_true, if_false]

/-- A `PRESSR` that waits for this reply alone gets its registers and goes on. -/
theorem Mach.finishPress_reply {m : Mach} {r : PressReq} {x : PressResult} {p : PressReply} {n : BitVec 7} (ht : r.target = none)
    (hp : r.reply = some p) (hd : p.dst = .v n) :
    ∃ f : Warp → Warp, m.finishPress r x = ((m.dropCopies r).closePress r).modWarp p.bid p.warp f ∧
      ∀ w, w.block = some (.replies [r.id]) → (f w).block = none ∧
        ∀ reg, (f w).getReg reg = (w.arrive p.id (replyResults p n.toNat x)).getReg reg := by
  have harrive (w : Warp) : (bitsOf p.lanes).foldl (fun w lane => (replyWords p x).zipIdx.foldl (fun (w : Warp) y =>
      w.arriveReg p.id (.v lane (n.toNat + y.2)) ⟨y.1, p.tag⟩) w) w = w.arrive p.id (replyResults p n.toNat x) := by
    simp only [Warp.arrive, replyResults, List.foldl_flatMap, List.foldl_map]
  simp only [Mach.finishPress, ht, hp, hd, isS, regOf, Option.isSome_none, Bool.false_eq_true, if_false, Nat.add_zero]
  refine ⟨_, rfl, fun w hw => ?_⟩
  unfold replyWords at harrive
  simp only [harrive]
  have hblock := (Warp.arrive_block p.id (replyResults p n.toNat x) w).trans hw
  generalize w.arrive p.id (replyResults p n.toNat x) = u at hblock ⊢
  rw [show ∀ f, (modLanes u f).block = some (.replies [r.id]) from fun _ => hblock]
  dsimp only
  rw [if_pos rfl]
  refine ⟨rfl, fun reg => (getReg_congr rfl rfl reg).trans (getReg_modLanes u _ reg (fun i l => ?_) fun i l => ?_)⟩
  all_goals split_ifs <;> rfl

/-! ## The turn of a request (R167) -/

/-- An earlier request to the same bytes that is still open is not ordered with one that is applied. -/
theorem Mach.pressReady_turn {m : Mach} {id : Nat} {r : PressReq} (h : m.pressReady id = some r) :
    r ∈ m.presses ∧ r.id = id ∧ ∀ e ∈ m.presses.takeWhile (·.id != id), e.overlaps r.target r.granule r.image.size = true →
      ¬ (e.image.cls = 0 ∧ r.image.cls = 0) ∧ sharesLane e.lanes r.lanes = false := by
  obtain ⟨hfind, hbefore, -⟩ := Mach.pressReady_some h
  refine ⟨List.mem_of_find?_eq_some hfind, by simpa using List.find?_some hfind, fun e he ho => ?_⟩
  have hp := hbefore e he
  simpa [PressReq.precedes, ho] using hp

/-! ## Applications by kind of request -/

section
variable {s : State} {r : PressReq} (h : Applicable s r) (hchan : r.chan = false)
include h hchan

/-- The step is what the request owes, of a machine in which it is applied and over. -/
theorem Applicable.does {p : State → Prop}
    (hp : ∀ m : Mach, (s.mach.applied r).Unbinds ((m.dropCopies r).closePress r) →
      p { s with mach := m.finishPress r (pressResult s.mach r) }) : Does (.pressApplication r.id) s p := by
  refine does_onEvent h.on (f := fun mg m => m.pressApplication mg r.id) rfl ?_
  obtain ⟨m, he, hm⟩ := h.applies s.mgmt
  have hpress : s.mach.pressApplication s.mgmt r.id = s.mach.applyPress s.mgmt r := by
    simp only [Mach.pressApplication, h.ready, hchan, Bool.false_eq_true, if_false]
  rw [hpress, he]
  exact hp m hm

/-- R131, R156: a posted request. -/
theorem Applicable.posted (hreply : r.reply = none) : Does (.pressApplication r.id) s fun t => WasApplied s.mach t.mach r ∧
    t.mach.presses = s.mach.presses.filter (·.id != r.id) ∧
    (r.remote = none → toldLanes s.mach t.mach r.lanes (pressStamp s.mach r)) ∧
    ∀ k, r.remote = some k → t.mach.blocks = s.mach.blocks ∧ t.mach.signals = s.mach.signals ++
      [.pressReply k r.wants (applyImage r.image r.opnd r.parts (granuleWords s.mach r)).2 0 (pressStamp s.mach r)] := by
  refine h.does hchan fun m hm => ?_
  cases hr : r.remote with
  | none =>
    rw [Mach.finishPress_posted h.here hreply hr]
    obtain ⟨blocks, he⟩ := Mach.tellLanes_blocks (pressResult s.mach r).stamp r.lanes ((m.dropCopies r).closePress r)
    have htold := toldLanes_tellLanes (pressResult s.mach r).stamp r.lanes ((m.dropCopies r).closePress r)
    rw [he] at htold ⊢
    refine ⟨h.wasApplied ⟨_, _, _, hm, rfl⟩, ?_, fun _ => ?_, nofun⟩
    · obtain ⟨_, _, _, _, _, _, _, _, hm⟩ := hm
      rw [hm]
      rfl
    · obtain ⟨_, _, _, _, _, _, _, _, hm⟩ := hm
      obtain ⟨hregs, hlanes⟩ := htold
      have hblocks : ((m.dropCopies r).closePress r).blocks = s.mach.blocks := by rw [hm]; rfl
      exact ⟨(sameRegisters_of_blocks hblocks).trans hregs, fun _ _ _ _ _ _ hs => hlanes _ _ _ _ _ _ (hs.of_blocks hblocks)⟩
  | some k =>
    rw [Mach.finishPress_remote h.here hreply hr]
    refine ⟨h.wasApplied ⟨_, _, _, hm, rfl⟩, ?_⟩
    obtain ⟨_, _, _, _, _, _, _, _, hm⟩ := hm
    rw [hm]
    refine ⟨rfl, nofun, fun k' hk => ?_⟩
    cases hk
    exact ⟨rfl, rfl⟩

/-- R458: a `PRESSR`. -/
theorem Applicable.replied {p : PressReply} {b : Block} {w : Warp} {n : BitVec 7} (hreply : r.reply = some p) (hdst : p.dst = .v n)
    (hs : Stands s.mach p.bid p.warp b w) (hlen : w.lanes.length = 32) (hw : w.block = some (.replies [r.id])) :
    Does (.pressApplication r.id) s fun t => WasApplied s.mach t.mach r ∧
      t.mach.presses = s.mach.presses.filter (·.id != r.id) ∧ ∃ b' w', Stands t.mach p.bid p.warp b' w' ∧ w'.block = none ∧
      ∀ k j word, k < 32 → p.lanes.getLsbD k = true → (replyWords p (pressResult s.mach r))[j]? = some word →
        (∃ x ∈ w.pend, x.id = p.id ∧ x.reg = .v k (n.toNat + j) ∧ x.live = true) →
        w'.getReg (.v k (n.toNat + j)) = ⟨word, p.tag⟩ := by
  refine h.does hchan fun m hm => ?_
  obtain ⟨f, he, hf⟩ := Mach.finishPress_reply (m := m) (x := pressResult s.mach r) h.here hreply hdst
  obtain ⟨hblock, hregs⟩ := hf w hw
  rw [he]
  refine ⟨h.wasApplied ⟨_, _, _, hm, rfl⟩, ?_⟩
  obtain ⟨_, _, _, _, _, _, _, _, hm⟩ := hm
  have hblocks : ((m.dropCopies r).closePress r).blocks = s.mach.blocks := by rw [hm]; rfl
  refine ⟨by rw [hm]; rfl, _, _, (hs.of_blocks hblocks).modWarp f, hblock, fun k j word hk hb hj hlive => ?_⟩
  rw [hregs]
  exact getReg_replyResults hlen hk hb hj hlive

end

end Sys2Proof.Machine

open Sys2Proof Sys2Proof.Machine

/-- Settles O29: an application prepares quiet lines, writes one granule of plain memory and stamps its lines; what the request owes
then, to lanes, to another module or to a `PRESSR`, is answered of a machine in which it is over. -/
theorem pressApplications : Obligations.PressApplications := by
  unfold Obligations.PressApplications
  refine ⟨⟨fun m id r h => Mach.pressReady_turn h, fun s r h hchan hreply => h.posted hchan hreply⟩,
    fun s r p b w n h hchan hreply hdst hs hlen hw => ?_⟩
  obtain ⟨t, he, hdone, hpresses, b', w', hs', hblock, hwords⟩ := h.replied hchan hreply hdst hs hlen hw
  exact ⟨t, he, hdone, hpresses, b', w', hs', hblock, fun k j hk hb hj hlive =>
    hwords k j _ hk hb (replyWords_first p (pressResult s.mach r) hj) hlive⟩

end

section
/-! SUPPORT. A claim table that lists one line twice (R145). -/

namespace Sys2Proof.Tests

open Sys2Proof.Machine

/-- The machine of `dampState`, with line 160 claimed twice: a table that no run of the part writes, but which the statement admits. -/
def claimedTwice : State :=
  { dampState 0 with mach := { (dampState 0).mach with claims := ⟨[(160, 0), (160, 1)]⟩ } }

/-- The drain of `claimedTwice` takes away the first of the two claims of its line, and the second one is found then. -/
theorem claimedTwice_drain :
    (after (exec (.drainApply 6) claimedTwice) fun t => tabFind t.mach.claims 160) = some (some 1) := by decide +kernel

end Sys2Proof.Tests

open Sys2Proof Sys2Proof.Machine Sys2Proof.Tests

/-- Refutes O27: it supposes nothing of the claim table, and a line that stands in it twice is still claimed after its drain, which
erases one entry. -/
theorem not_dampDrains : ¬ Obligations.DampDrains := by
  unfold Obligations.DampDrains
  rintro ⟨⟨-, hdrain⟩, -⟩
  obtain ⟨t, he, _, _, _, _, hclaim, _⟩ := hdrain claimedTwice drain0 rfl (by decide +kernel) rfl (plain_of (by decide +kernel) rfl rfl)
    rfl (by decide) (by decide)
  have hkept := claimedTwice_drain
  rw [show exec (.drainApply 6) claimedTwice = .next t from he] at hkept
  exact absurd ((hclaim 0 rfl).symm.trans (Option.some.inj hkept)) (by simp)

end

section
/-! SUPPORT. Loads that wait for wrings (R148): no access, and nothing that an instruction sets off in its warp, makes another load
wait. -/

namespace Sys2Proof.Machine

/-! ## What lets no further load wait -/

/-- Every load that waits for wrings in `m'` waits in `m`. -/
structure Mach.WrungFrom (m m' : Mach) : Prop where
  before : ∀ y ∈ m'.wrung, y ∈ m.wrung

theorem Mach.WrungFrom.refl (m : Mach) : m.WrungFrom m := ⟨fun _ => id⟩

theorem Mach.WrungFrom.trans {a b c : Mach} (h : a.WrungFrom b) (g : b.WrungFrom c) : a.WrungFrom c :=
  ⟨fun y hy => h.before y (g.before y hy)⟩

theorem Mach.WrungFrom.of_eq {m m' : Mach} (h : m'.wrung = m.wrung) : m.WrungFrom m' := ⟨fun _ hy => h ▸ hy⟩

/-- What came before does not show in `wrung`. -/
theorem Mach.WrungFrom.start {a b c : Mach} (h : b.WrungFrom c) (e : b.wrung = a.wrung) : a.WrungFrom c := (of_eq e).trans h

/-- What came after does not show in `wrung`. -/
theorem Mach.WrungFrom.finish {a b c : Mach} (h : a.WrungFrom b) (e : c.wrung = b.wrung) : a.WrungFrom c := h.trans (of_eq e)

theorem Mach.WrungFrom.foldl {β : Type} {f : Mach → β → Mach} (h : ∀ (m : Mach) b, m.WrungFrom (f m b)) (l : List β) (m : Mach) :
    m.WrungFrom (l.foldl f m) :=
  List.foldlRecOn (motive := fun x => m.WrungFrom x) l f (.refl m) fun x hx b _ => hx.trans (h x b)

theorem Mach.Served.wrungFrom {m m' : Mach} (h : m.Served m') : m.WrungFrom m' := by
  obtain ⟨_, _, _, _, _, _, _, _, _, _, _, _, rfl⟩ := h
  exact .of_eq rfl

theorem Mach.Raises.wrungFrom {m m' : Mach} (h : m.Raises m') : m.WrungFrom m' := by
  obtain ⟨_, _, rfl⟩ := h
  exact .of_eq rfl

/-! ## Writes -/

theorem Mach.putBytes_wrungFrom (m : Mach) (w : Option (Option Nat)) (pa : Nat) (bs : List Byte) : m.WrungFrom (m.putBytes w pa bs) := by
  have hclear : (m.clearGranule (granuleOf pa)).wrung = m.wrung := by unfold Mach.clearGranule; split_ifs <;> rfl
  refine .of_eq (Eq.trans (b := ((m.clearGranule (granuleOf pa)).openLine w (lineOf pa)).wrung) rfl (Eq.trans ?_ hclear))
  unfold Mach.openLine
  split
  · rfl
  · split_ifs <;> rfl
  · split_ifs <;> rfl
  · rfl

theorem Mach.putGranule_wrungFrom (m : Mach) (w : Option (Option Nat)) (pa : Nat) (bs : List Byte) : m.WrungFrom (m.putGranule w pa bs) :=
  .foldl (f := fun m (x : Nat × Nat) => m.putBytes w x.1 ((bs.drop (x.1 - pa)).take x.2)) (fun m _ => m.putBytes_wrungFrom ..) _ m

theorem Mach.storeDev_wrungFrom (m : Mach) (mg : Mgmt) (a : Actor) (l : Leaf) (tc : Traffic) (pa : Nat) (bs : List Byte) (pts : Nat) :
    m.WrungFrom (m.storeDev mg a l tc pa bs pts).2 := by
  have hstamp := (m.recallFor_served (some (clusterOf a.core)) (lineOf pa)).trans (Mach.stampLine_served _ (lineOf pa) pts)
  unfold Mach.storeDev
  dsimp only
  split_ifs
  · exact ((hstamp.wrungFrom.trans (Mach.putBytes_wrungFrom ..)).trans (Mach.allocLine_served ..).wrungFrom).trans
      (Mach.setL1_caches ..).served.wrungFrom
  · exact (hstamp.wrungFrom.trans (Mach.putBytes_wrungFrom ..)).trans (Mach.allocLine_served ..).wrungFrom

theorem Mach.farWrite_wrungFrom (m : Mach) (p : Place) (bs : List Byte) : m.WrungFrom (m.farWrite p bs) := by
  cases p <;> exact .of_eq rfl

/-! ## Drains -/

theorem Mach.applyDrain_wrungFrom (m : Mach) (d : Drain) : m.WrungFrom (m.applyDrain d) := by
  unfold Mach.applyDrain
  lift_lets
  intro m1 m2 pa
  split
  · exact .of_eq rfl
  · have hstamp : m2.Served ((m2.recallFor none d.line).stampLine d.line 0).2 :=
      (m2.recallFor_served none d.line).trans (Mach.stampLine_served ..)
    exact (hstamp.wrungFrom.start (a := m) rfl).trans (.foldl (fun (m : Mach) (c : Nat × Word) => m.putBytes_wrungFrom d.view (pa + 4 * c.1)
      (bytesOfWord (dampSum d.int (BitVec.ofNat 32 (natOfBytes (m.viewBytes d.view (pa + 4 * c.1) 4))) c.2))) d.acc.cells _)

theorem Mach.drainAll_wrungFrom (m : Mach) (p : Tracker → Bool) : m.WrungFrom (m.drainAll p) :=
  .foldl (fun m t => .of_eq (m' := m.drainTracker t _) rfl) _ m

theorem Mach.applyDrains_wrungFrom (m : Mach) (p : Drain → Bool) : m.WrungFrom (m.applyDrains p) := .foldl Mach.applyDrain_wrungFrom _ m

theorem Mach.wringNow_wrungFrom (m : Mach) (line : Nat) : m.WrungFrom (m.wringNow line) :=
  (m.drainAll_wrungFrom _).trans (Mach.applyDrains_wrungFrom ..)

/-! ## Posted writes -/

theorem Mach.unwritten_wrungFrom (m : Mach) (ctx queue seq : Nat) : m.WrungFrom (m.unwritten ctx queue seq) := by
  unfold Mach.unwritten
  dsimp only
  split_ifs <;> exact .of_eq rfl

theorem Mach.arrivePosted_wrungFrom (m : Mach) (x : Posted) : m.WrungFrom (m.arrivePosted x) := by
  have herror (m : Mach) (peer : Bool) (status : Nat) : m.WrungFrom (m.postError x.ctx x.lanes.isEmpty x.va peer status) :=
    (m.postError_raises ..).wrungFrom
  unfold Mach.arrivePosted
  split
  · unfold Mach.arriveHost
    split
    · exact herror ..
    · exact Mach.farWrite_wrungFrom ..
    · exact Mach.unwritten_wrungFrom ..
    · exact (m.farWrite_wrungFrom x.at_ x.bytes).finish rfl
  · split_ifs
    · exact (herror { m with free := m.free + 1 } ..).start rfl
    · exact Mach.farWrite_wrungFrom ..
  · exact .refl m
  · exact .refl m

theorem Mach.deliverAll_wrungFrom (m : Mach) (p : Posted → Bool) : m.WrungFrom (m.deliverAll p) := by
  unfold Mach.deliverAll
  lift_lets
  intro go
  exact Mach.WrungFrom.trans (b := { m with posted := m.posted.filter fun x => !go x }) (.of_eq rfl)
    (.foldl Mach.arrivePosted_wrungFrom _ _)

theorem Mach.sendFar_wrungFrom (m : Mach) (ctx : Nat) (p : Place) (bs : List Byte) : m.WrungFrom (m.sendFar ctx p bs) := by
  unfold Mach.sendFar
  dsimp only
  split_ifs
  · exact .of_eq rfl
  · exact Mach.arrivePosted_wrungFrom ..

/-! ## Launches that complete, blocks that stop, resets -/

theorem Mach.endWorld_wrungFrom (m : Mach) (ctx : Nat) : m.WrungFrom (m.endWorld ctx) := by
  unfold Mach.endWorld
  split
  · exact .refl m
  · exact ((m.drainAll_wrungFrom _).trans (Mach.applyDrains_wrungFrom ..)).finish rfl

theorem Mach.releaseRegions_wrungFrom (m : Mach) (ctx launch : Nat) : m.WrungFrom (m.releaseRegions ctx launch) := by
  unfold Mach.releaseRegions
  lift_lets
  intro last gone m1 m2
  have h2 : m1.WrungFrom m2 := by
    unfold m2
    split
    · exact .refl _
    · exact Mach.applyDrains_wrungFrom ..
  exact ((m.drainAll_wrungFrom _).trans h2).finish rfl

theorem Mach.writeCompletion_wrungFrom (m : Mach) (mg : Mgmt) (l : Launch) (launch word : Nat) :
    m.WrungFrom (m.writeCompletion mg l launch word).2 := by
  have ht := (m.translate_served (engineOf l.ctx launch 0) l.rec_.cpla.toNat).wrungFrom
  unfold Mach.writeCompletion
  lift_lets
  intro a va
  split
  · rename_i h; rw [h] at ht; exact ht
  · rename_i leaf m1 h
    rw [h] at ht
    have hd : m1.WrungFrom (m1.deliverAll fun x => x.ctx == l.ctx) := m1.deliverAll_wrungFrom _
    split
    · exact ht
    · split
      · exact ht
      · split
        · exact ht
        · exact ht.trans ((m1.wringNow_wrungFrom _).trans ((m1.wringNow _).storeDev_wrungFrom mg a leaf .thread _ _ _))
      · lift_lets
        intro m2
        split
        · exact ht.trans hd
        · split
          · exact (ht.trans hd).finish rfl
          · exact ht.trans (hd.trans (m2.farWrite_wrungFrom (.host _) (bytesOfNat word 4)))
      · split
        · exact ht
        · exact ht.trans (hd.trans (Mach.sendFar_wrungFrom _ l.ctx (.peer _ _) (bytesOfNat word 4)))
      · exact ht

theorem Mach.completeLaunch_wrungFrom (m : Mach) (mg : Mgmt) (launch status detail : Nat) :
    m.WrungFrom (m.completeLaunch mg launch status detail) := by
  unfold Mach.completeLaunch
  split
  · exact .refl m
  · rename_i l _
    lift_lets
    intro m1 m2 noWord
    have h2 : m.WrungFrom m2 := by
      unfold m2
      split
      · exact (m.releaseRegions_wrungFrom ..).trans (m1.endWorld_wrungFrom _)
      · exact m.releaseRegions_wrungFrom ..
    have h3 : m2.WrungFrom (if noWord = true then (WordFate.written, m2) else m2.writeCompletion mg l launch (status + detail * 256)).2 := by
      split
      · exact .refl _
      · exact Mach.writeCompletion_wrungFrom ..
    split
    rename_i fate m3 e
    rw [e] at h3
    refine h2.trans (h3.trans ?_)
    dsimp only
    split
    · exact .of_eq rfl
    · exact (Mach.unwritten_wrungFrom { m3 with launches := tabErase m3.launches launch } l.ctx l.queue l.seq).start rfl
    · exact .of_eq rfl

theorem Mach.stopBlock_wrungFrom (m : Mach) (bid : Nat) : m.WrungFrom (m.stopBlock bid) := by
  unfold Mach.stopBlock
  split
  · exact .refl m
  · dsimp only
    split_ifs <;> exact ⟨fun y hy => (List.mem_filter.1 hy).1⟩

theorem Mach.forcedReset_wrungFrom (m : Mach) (mg : Mgmt) (ctx why : Nat) : m.WrungFrom (m.forcedReset mg ctx why) := by
  have hstop : m.WrungFrom ((m.blocksOf (·.ctx == ctx)).foldl Mach.stopBlock m) := .foldl Mach.stopBlock_wrungFrom _ m
  have hlaunches (m : Mach) : m.WrungFrom (m.resetLaunches mg ctx) := .foldl (fun m l => m.completeLaunch_wrungFrom mg l 4 0) _ m
  rw [Mach.forcedReset_eq]
  refine Mach.WrungFrom.trans (b := m.resetRaised mg ctx why) ?_ (.foldl (fun m q => .of_eq (m' := m.resetQueue ctx q) rfl) _ _)
  have hcleared := hstop.trans ((Mach.endWorld_wrungFrom _ ctx).finish
    (c := (((m.blocksOf (·.ctx == ctx)).foldl Mach.stopBlock m).discard ctx).modCtx ctx Ctx.cleared) rfl)
  exact (hcleared.trans (hlaunches _)).finish rfl

/-! ## What follows an instruction at once in its warp (R278) -/

theorem Mach.testSuspend_wrungFrom (m : Mach) (mg : Mgmt) (bid k : Nat) : m.WrungFrom (m.testSuspend mg bid k) := by
  have hsuspend : m.WrungFrom (m.suspendWarps bid [k]) := .of_eq rfl
  have hhold (m : Mach) (recs : List FaultRec) : m.WrungFrom (m.beginHold bid .warp [k] recs) := by
    unfold Mach.beginHold
    split
    · exact .refl m
    · exact .of_eq rfl
  have hmode (m : Mach) (launch : Nat) : m.WrungFrom (m.faultMode mg launch) := by
    unfold Mach.faultMode
    split
    · exact .refl m
    · split_ifs
      · exact Mach.WrungFrom.trans (.foldl Mach.stopBlock_wrungFrom _ m) (Mach.completeLaunch_wrungFrom ..)
      · exact m.forcedReset_wrungFrom ..
      · exact .refl m
  unfold Mach.testSuspend
  split
  · exact .refl m
  · split
    · exact .refl m
    · split_ifs
      · exact .refl m
      · exact .refl m
      · exact hsuspend.trans ((hhold ..).trans (hmode ..))

theorem Mach.settleWarp_wrungFrom (m : Mach) (mg : Mgmt) (bid k : Nat) : m.WrungFrom (m.settleWarp mg bid k) := by
  have hretest (m : Mach) : m.WrungFrom (m.retestSlots bid) := by
    unfold Mach.retestSlots
    split
    · exact .refl m
    · exact .of_eq rfl
  have hripen (m : Mach) : m.WrungFrom (m.ripenAll bid) := by
    unfold Mach.ripenAll
    split
    · exact .refl m
    · dsimp only
      split_ifs
      · exact .refl m
      · exact .of_eq rfl
  have hconverged : m.WrungFrom ((m.testSuspend mg bid k).modWarp bid k fun w => w.converge (m.testSuspend mg bid k).cycle) :=
    (m.testSuspend_wrungFrom mg bid k).finish rfl
  unfold Mach.settleWarp
  dsimp only
  split
  · exact hconverged
  · split_ifs
    · exact hconverged.trans ((hretest _).trans (hripen _))
    · exact hconverged

end Sys2Proof.Machine
end

section
/-! SUPPORT. The presses that a load has applied first (R123), and the load itself, make no other load wait. -/

namespace Sys2Proof.Machine

/-! ## Presses that are applied -/

theorem Mach.finishPress_wrungFrom (m : Mach) (r : PressReq) (x : PressResult) : m.WrungFrom (m.finishPress r x) := by
  have hclosed : ((m.dropCopies r).closePress r).wrung = m.wrung := by
    obtain ⟨cores, he⟩ := m.dropCopies_cores r
    rw [he]
    rfl
  unfold Mach.finishPress
  dsimp only
  split
  · split_ifs
    · exact .of_eq hclosed
    · split
      · exact .of_eq hclosed
      · exact Mach.WrungFrom.start (.foldl (fun m (l : PressLane) => .of_eq (m' := m.modWarp l.bid l.warp _) rfl) _ _) hclosed
  · exact .of_eq hclosed

theorem Mach.farStamp_wrungFrom (m : Mach) (k pa : Nat) : m.WrungFrom (m.farStamp k pa).2 := .of_eq rfl

theorem Mach.leaseGranule_wrungFrom (m : Mach) (lines : List Nat) (pts : Nat) : m.WrungFrom (m.leaseGranule lines pts).2 :=
  List.foldlRecOn (motive := fun a : Nat × Mach => m.WrungFrom a.2) lines _ (.refl m) fun a ha l _ =>
    ha.trans (a.2.leaseLine_served l pts).wrungFrom

theorem Mach.pressError_wrungFrom (m : Mach) (mg : Mgmt) (r : PressReq) (stamp : Nat) : m.WrungFrom (m.pressError mg r stamp) := by
  unfold Mach.pressError
  split_ifs
  · dsimp only
    split
    · exact .of_eq rfl
    · exact (Mach.forcedReset_wrungFrom ..).start rfl
  · exact (Mach.finishPress_wrungFrom ..).start rfl

theorem Mach.applyHere_wrungFrom (m : Mach) (r : PressReq) : m.WrungFrom (m.applyHere r).2 := by
  have hstamp : m.WrungFrom (m.stampGranule r.lines r.pts).2 := .of_eq rfl
  unfold Mach.applyHere
  dsimp only
  split
  · exact hstamp
  · exact hstamp.trans (Mach.putGranule_wrungFrom ..)

theorem Mach.prepareLines_wrungFrom (m : Mach) (r : PressReq) : m.WrungFrom (m.prepareLines r) := by
  refine .foldl (fun m l => ?_) r.lines m
  split_ifs
  · exact (m.wringNow_wrungFrom l).trans (Mach.recallFor_served ..).wrungFrom
  · exact (m.recallFor_served ..).wrungFrom

theorem Mach.countRetry_wrungFrom (m : Mach) (r : PressReq) : m.WrungFrom (m.countRetry r) := by
  unfold Mach.countRetry
  split_ifs
  · exact .of_eq rfl
  · exact .refl m

theorem Mach.applyPress_wrungFrom (m : Mach) (mg : Mgmt) (r : PressReq) : m.WrungFrom (m.applyPress mg r) := by
  unfold Mach.applyPress
  split
  · split_ifs
    · exact (Mach.pressPostError_raises ..).wrungFrom.start rfl
    · exact (Mach.forcedReset_wrungFrom ..).start rfl
    · exact (m.farStamp_wrungFrom ..).trans (Mach.finishPress_wrungFrom ..)
    · dsimp only
      refine .trans ?_ (Mach.finishPress_wrungFrom ..)
      refine .trans ?_ (Mach.farStamp_wrungFrom ..)
      split
      · exact .refl m
      · exact m.farWrite_wrungFrom ..
  · dsimp only
    split_ifs
    · exact ((m.prepareLines_wrungFrom r).trans (Mach.leaseGranule_wrungFrom ..)).trans (Mach.pressError_wrungFrom ..)
    · have hready := ((m.prepareLines_wrungFrom r).trans (Mach.countRetry_wrungFrom _ r)).trans (pressTraffic_caches r mg _).served.wrungFrom
      exact (hready.trans (Mach.applyHere_wrungFrom ..)).trans (Mach.finishPress_wrungFrom ..)

theorem Mach.applyChannel_wrungFrom (m : Mach) (mg : Mgmt) (r : PressReq) : m.WrungFrom (m.applyChannel mg r) := by
  have hready := (m.prepareLines_wrungFrom { r with wring := true }).finish
    (c := { m.prepareLines { r with wring := true } with
      lines := r.lines.foldl tabErase (m.prepareLines { r with wring := true }).lines }) rfl
  unfold Mach.applyChannel
  dsimp only
  split_ifs
  · exact (hready.trans (Mach.leaseGranule_wrungFrom ..)).trans (Mach.pressError_wrungFrom ..)
  · exact (hready.trans ((Mach.countRetry_wrungFrom _ r).trans (Mach.applyHere_wrungFrom _ r))).finish rfl

theorem Mach.channelAck_wrungFrom (m : Mach) (r : PressReq) : m.WrungFrom (m.channelAck r) := by
  unfold Mach.channelAck
  split
  · exact .refl m
  · exact m.finishPress_wrungFrom ..

theorem Mach.sendEntries_wrungFrom (m : Mach) (p : PressReq → Bool) : m.WrungFrom (m.sendEntries p) := by
  refine .foldl (fun m r => ?_) _ m
  unfold Mach.arrivePress
  dsimp only
  split <;> exact .of_eq rfl

theorem Mach.settlePress_wrungFrom (m : Mach) (mg : Mgmt) (lanes : List PressLane) (target : Option Nat) (pa n : Nat) :
    m.WrungFrom (m.settlePress mg lanes target pa n) := by
  unfold Mach.settlePress
  split_ifs
  · exact .refl m
  · refine (m.sendEntries_wrungFrom _).trans (.foldl (fun m r => ?_) _ _)
    split_ifs
    · exact m.channelAck_wrungFrom r
    · dsimp only
      split
      · exact m.applyChannel_wrungFrom mg r
      · exact (m.applyChannel_wrungFrom mg r).trans (Mach.channelAck_wrungFrom ..)
    · exact m.applyPress_wrungFrom mg r

theorem Mach.settleLocs_wrungFrom (m : Mach) (v : View) (ls : List Loc) : m.WrungFrom (m.settleLocs v ls) := by
  refine .foldl (fun m l => ?_) ls m
  unfold Mach.settleLoc
  split_ifs
  · exact .refl m
  · split
    · exact m.settlePress_wrungFrom ..
    · exact m.settlePress_wrungFrom ..
    · exact .refl m
    · exact .refl m

/-! ## The load -/

theorem Mach.loadDev_served (m : Mach) (mg : Mgmt) (a : Actor) (l : Leaf) (tc : Traffic) (damp : Bool) (pa n pts : Nat) :
    m.Served (m.loadDev mg a l tc damp pa n pts).2.2 := by
  have hlease := (m.recallFor_served (some (clusterOf a.core)) (lineOf pa)).trans (Mach.leaseLine_served _ (lineOf pa) pts)
  unfold Mach.loadDev
  dsimp only
  split
  · split_ifs
    · exact ⟨_, _, _, _, _, _, _, _, _, _, _, _, rfl⟩
    · exact (hlease.trans (Mach.setL1_caches ..).served).trans (Mach.allocLine_served ..)
  · split_ifs
    · exact (hlease.trans (Mach.allocLine_served ..)).trans (Mach.setL1_caches ..).served
    · exact hlease.trans (Mach.allocLine_served ..)

theorem Mach.loadPart_wrungFrom (m : Mach) (mg : Mgmt) (a : Actor) (l : Loc) (damp : Bool) (pts : Nat) (p : Place) (n : Nat) :
    m.WrungFrom (m.loadPart mg a l damp pts p n).2.2 := by
  cases p with
  | dev pa => exact (m.loadDev_served ..).wrungFrom
  | host h =>
    refine .of_eq (show (m.touchHost a.ctx).wrung = m.wrung from ?_)
    unfold Mach.touchHost
    split_ifs <;> rfl
  | peer k pa => exact .refl m
  | spad b x =>
    refine .of_eq (show (m.leaseSpad b (x / 64) pts).2.wrung = m.wrung from ?_)
    unfold Mach.leaseSpad
    split <;> rfl

theorem Mach.loadParts_wrungFrom (m : Mach) (mg : Mgmt) (a : Actor) (l : Loc) (damp : Bool) (pts : Nat) (ps : List (Place × Nat × Nat)) :
    m.WrungFrom (m.loadParts mg a l damp pts ps).2.2 := by
  induction ps generalizing m pts with
  | nil => exact .refl m
  | cons x r ih => exact (m.loadPart_wrungFrom ..).trans (ih ..)

theorem Mach.loadLocs_wrungFrom (m : Mach) (mg : Mgmt) (a : Actor) (pts : Nat) (ls : List Loc) :
    m.WrungFrom (m.loadLocs mg a pts ls).2.2 := by
  induction ls generalizing m pts with
  | nil => exact .refl m
  | cons l r ih => exact (m.loadParts_wrungFrom ..).trans (ih ..)

theorem Mach.loadVa_wrungFrom (m : Mach) (mg : Mgmt) (v : View) (va n pts : Nat) : m.WrungFrom (m.loadVa mg v va n pts).2 := by
  have hlocate := (m.locate_served mg v.actor va n).wrungFrom
  unfold Mach.loadVa
  dsimp only
  split
  · exact hlocate
  · split
    · exact hlocate
    · exact (hlocate.trans (Mach.settleLocs_wrungFrom ..)).trans (Mach.loadLocs_wrungFrom ..)

theorem loadAct_wrungFrom {d : Operand} {z : LoadSize} {addr : View → Mach → Option Nat} {v : View} {m m' : Mach} {x : Done}
    (h : loadAct d z addr v m = some (x, m')) : m.WrungFrom m' := by
  unfold loadAct at h
  split at h
  · cases h
  · rename_i va _
    split at h
    · cases h
    · rename_i heq
      have hload := m.loadVa_wrungFrom v.mg v va (sizeOfLoad z) v.pts
      rw [heq] at hload
      cases h
      exact hload

theorem eachActs_wrungFrom {f : View → Mach → Option (Done × Mach)} (hf : ∀ v m x m', f v m = some (x, m') → m.WrungFrom m')
    {vs : List View} {m m' : Mach} {ds : List Done} (h : eachActs f vs m = some (ds, m')) : m.WrungFrom m' := by
  induction vs generalizing m ds with
  | nil =>
    cases h
    exact .refl _
  | cons v rest ih =>
    unfold eachActs at h
    cases hv : f v m with
    | none => simp [hv] at h
    | some x =>
      cases hr : eachActs f rest x.2 with
      | none => simp [hv, hr] at h
      | some y =>
        simp [hv, hr] at h
        obtain ⟨-, rfl⟩ := h
        exact (hf v m x.1 x.2 hv).trans (ih hr)

end Sys2Proof.Machine
end

section
/-! SUPPORT. A load that waited for wrings (R148) is performed as at an issue. -/

namespace Sys2Proof.Machine

/-- Marks change only where a load of the same issue waits again. -/
theorem Mach.keepMarks_none {m : Mach} {x : Wrung} (h : ∀ y ∈ m.wrung, y.issue ≠ x.issue) : m.keepMarks x = m := by
  have hmap : m.wrung.map (fun (y : Wrung) =>
      if y.issue = x.issue ∧ y.slot = x.slot then { y with lines := dedup (x.lines ++ y.lines) } else y) = m.wrung :=
    (List.map_congr_left fun y hy => if_neg fun he => h y hy (And.left he)).trans (List.map_id _)
  rw [Mach.keepMarks, hmap]

section
variable {s : State} {id : Nat} {x : Wrung} {b : Block} {w : Warp} {op : Op}

/-- Once the drains that it waits for have been applied, the load is performed by itself, of the machine in which it no longer waits. -/
theorem Mach.wrungPerform_load (hx : s.mach.wrung.find? (·.id == id) = some x) (hslot : x.slot = none) (ho : opOf x.instr = some op)
    (hdrains : ∀ d ∈ s.mach.drains, (d.line, d.holder) ∉ x.wait) (hs : Stands (s.unwrung id x.issue).mach x.issue.bid x.issue.warp b w) :
    s.mach.wrungPerform s.mgmt id = (op.perform x.instr s.mgmt x.issue b
      [⟨x.issue.warp, 0, x.issue.lanes, op.activeOf (s.unwrung id x.issue).mach.free w 0 x.issue.lanes, w⟩] none
      (s.unwrung id x.issue).mach).keepMarks x := by
  have hdrained : (s.mach.drains.any fun d => x.wait.contains (d.line, d.holder)) = false := by simpa using hdrains
  obtain ⟨m, hm⟩ : ∃ m, (s.unwrung id x.issue).mach = m := ⟨_, rfl⟩
  have hfreed : ({ s.mach with wrung := s.mach.wrung.filter (·.id != id) } : Mach).modWarp x.issue.bid x.issue.warp (unblockWrung id) = m :=
    hm
  have hblock : m.block? x.issue.bid = some b := hm ▸ hs.block
  have hwarp : m.warp? x.issue.bid x.issue.warp = some w := by rw [Mach.warp?, hblock]; exact hs.warp
  simp only [Mach.wrungPerform, hx, hdrained, Bool.false_eq_true, if_false, hfreed, hblock, hwarp, hslot, ho, hm]

/-- No other load of the same issue waits where the load no longer waits. -/
theorem State.unwrung_wrung (hother : ∀ y ∈ s.mach.wrung, y.id ≠ id → y.issue ≠ x.issue) :
    ∀ y ∈ (s.unwrung id x.issue).mach.wrung, y.issue ≠ x.issue := by
  intro y hy
  obtain ⟨hmem, hid⟩ := List.mem_filter.1 hy
  exact hother y hmem (by simpa using hid)

end

/-- A load whose completions are those of `act` has them also when it is performed after wrings. -/
theorem wrung_effect {op : Op} {h : Head} {g : Guard} {t : Timing} {fenced flows : Bool} {sc : Scopes} {ok : Owner → Ctx → Prop}
    {srcs : List Src} {free : List View → Mach → Prop} {act : List View → Mach → Option (List Done × Mach)}
    (hop : EffectOp op h g t false fenced flows sc ok (fun _ => srcs) free act) {i : Instr} (ho : opOf i = some op)
    (hact : ∀ vs m ds m', act vs m = some (ds, m') → m.WrungFrom m') : EffectAtWrung i h g srcs free act := by
  rintro s id x b w ds m' b' w0 hon hx rfl hslot hother hdrains hs hlen hsc hshort hheld hfree ha hcyc hb' hw0 hlen0
  have hperf := Mach.wrungPerform_load hx hslot ho hdrains hs
  have hunwrung := State.unwrung_wrung hother
  generalize hu : s.unwrung id x.issue = u at hs hfree ha hperf hunwrung
  obtain ⟨hmgmt, hctx, hide, hcycle⟩ : u.mgmt = s.mgmt ∧ u.mach.ctx b.ctx = s.mach.ctx b.ctx ∧ u.mach.ide = s.mach.ide ∧
    u.mach.cycle = s.mach.cycle := by subst hu; exact ⟨rfl, rfl, rfl, rfl⟩
  have hactive : op.activeOf u.mach.free w 0 x.issue.lanes = activeLanes u x.issue w h g 32 := by
    simp only [activeLanes, Op.activeOf, bareOp, hop.isWidth, hop.isGuard]
  have hviews : elements u x.issue b w h g 32 = op.views u.mgmt x.issue b (u.mach.gangs b) u.mach.free u.mach.ids
      [⟨x.issue.warp, 0, x.issue.lanes, op.activeOf u.mach.free w 0 x.issue.lanes, w⟩] := by
    rw [views_bare, hop.isHead, hop.isGuard, hop.isWidth, hactive]
    rfl
  have hshorts : op.shorts (u.mach.ctx b.ctx) (elements u x.issue b w h g 32)
      [⟨x.issue.warp, 0, x.issue.lanes, op.activeOf u.mach.free w 0 x.issue.lanes, w⟩] = [] := by
    refine shorts_nil (hshort.imp (fun hc => hctx ▸ hc) fun hp => ⟨fun v hv => ?_, fun y hy => ?_⟩)
    · obtain ⟨F, e, -, hF, -⟩ := views_eq op u.mgmt x.issue b (u.mach.gangs b) u.mach.free u.mach.ids
        [⟨x.issue.warp, 0, x.issue.lanes, op.activeOf u.mach.free w 0 x.issue.lanes, w⟩]
      rw [hviews, e] at hv
      obtain ⟨y, hy, rfl⟩ := List.mem_map.1 hv
      rw [hF (by rw [hop.isHead]; exact isSet_false hsc), List.mem_singleton.1 (laneList_mem hy).1]
      exact hp
    · rw [List.mem_singleton.1 hy]
      exact hp
  obtain ⟨warps, e, -, hp, h1, h2⟩ := perform_effect hop x.instr u x.issue b b' _ none _ ds m' hviews
    (by unfold noHeld; rw [hide]; exact hheld) hfree ha (hcyc.trans hcycle.symm) hb' (fun _ => rfl) (by simp)
    (by simpa using ⟨w0, hw0, hlen0⟩) (by simpa using hlen) (by simp) (by simpa using fun k hk => activeOf_sub hk) hshorts
  obtain ⟨w', hw', hafter, -⟩ := h2 _ (List.mem_singleton.2 rfl) w0 hw0
  have hwarps : warps = tabSet b'.warps x.issue.warp w' := h1 _ rfl w0 w' hw0 hw'
  have hdone : s.mach.wrungPerform s.mgmt id = (m'.putWarp x.issue.bid x.issue.warp b' w').settleWarp s.mgmt x.issue.bid x.issue.warp := by
    rw [hperf, ← hmgmt, e, hwarps]
    refine Mach.keepMarks_none fun y hy => hunwrung y ?_
    have hfrom : u.mach.WrungFrom m' := (hact _ _ _ _ ha).start rfl
    exact (hfrom.trans ((Mach.settleWarp_wrungFrom (m'.putWarp x.issue.bid x.issue.warp b' w') ..).start rfl)).before y hy
  have hmade (m : Mach) (he : s.mach.wrungPerform s.mgmt id = m) : Makes (.wrungLoadPerform id) s m :=
    he ▸ onEvent_on hon fun mg m => m.wrungPerform mg id
  refine ⟨w', hmade _ hdone, fun hgo => hmade _ (hdone.trans ?_), hafter⟩
  exact settleWarp_ready (b := { b' with warps := tabSet b'.warps x.issue.warp w' }) (by simp [Mach.putWarp, Mach.setBlock])
    (inPlace_set _ _ _) (by simp) (inPlace_set _ _ _) hgo

end Sys2Proof.Machine
end

section
/-! SUPPORT. A load brings as many bytes as it asks for, and its words are those of the range (R108, R431). -/

namespace Sys2Proof.Machine

/-! ## Every byte of an access has its place -/

theorem pagePieces_sum (va n : Nat) : ((pagePieces va n).map Prod.snd).sum = n := by
  unfold pagePieces
  dsimp only
  split_ifs
  · simp
  · simp only [List.map_cons, List.map_nil, List.sum_cons, List.sum_nil]
    omega

theorem worst_none {l : List (Nat × Cause)} (h : worst l = none) : l = [] := by
  have hsome {f : Option (Nat × Cause) → Nat × Cause → Option (Nat × Cause)} (hf : ∀ o x, (f o x).isSome) (l : List (Nat × Cause))
      {o : Option (Nat × Cause)} (ho : o.isSome) : (l.foldl f o).isSome := by
    induction l generalizing o with
    | nil => exact ho
    | cons x r ih => exact ih (hf o x)
  cases l with
  | nil => rfl
  | cons x r =>
    have hworst : (worst (x :: r)).isSome := by
      refine hsome (fun o x => ?_) r rfl
      cases o with
      | none => rfl
      | some y =>
        dsimp only
        split_ifs <;> rfl
    rw [h] at hworst
    cases hworst

/-- A piece that has a place is as long there. -/
theorem Mach.locate1_length {m : Mach} {mg : Mgmt} {a : Actor} {va n : Nat} {x : Loc} (h : (m.locate1 mg a va n).1.loc = .ok x) :
    x.n = n := by
  unfold Mach.locate1 at h
  generalize m.translate a va = t at h
  obtain ⟨_ | l, m1⟩ := t
  · cases h
  · dsimp only at h
    split_ifs at h
    generalize m1.placeOf mg a.ctx l va = place at h
    cases place with
    | error d => cases h
    | ok p => cases h; rfl

/-- Where no piece has a cause, the places are as long as the pieces. -/
theorem Mach.locateAll_lengths (m : Mach) (mg : Mgmt) (a : Actor) (l : List (Nat × Nat)) (h : pieceCauses (m.locateAll mg a l).1 = []) :
    (pieceLocs (m.locateAll mg a l).1).map (·.n) = l.map Prod.snd := by
  induction l generalizing m with
  | nil => rfl
  | cons x r ih =>
    have hlen {y : Loc} := m.locate1_length (x := y) (mg := mg) (a := a) (va := x.1) (n := x.2)
    simp only [Mach.locateAll, pieceCauses, pieceLocs, List.filterMap_cons] at h ⊢
    cases hloc : (m.locate1 mg a x.1 x.2).1.loc with
    | error c => simp [hloc] at h
    | ok y =>
      simp only [hloc] at h ⊢
      rw [List.map_cons, List.map_cons, hlen hloc]
      exact congrArg _ (ih _ h)

/-! ## The bytes of its parts -/

theorem Tiles.sum {a n : Nat} {l : List (Nat × Nat)} (h : Tiles a n l) : (l.map Prod.snd).sum = n := by
  induction l generalizing a n with
  | nil => exact (show n = 0 from h).symm
  | cons x r ih =>
    obtain ⟨-, -, hle, hr⟩ := h
    rw [List.map_cons, List.sum_cons, ih hr]
    omega

theorem partsOf_sum (l : Loc) : ((partsOf l).map (·.2.2)).sum = l.n := by
  have height {h : Nat} : Tiles h l.n (unitPieces 8 (l.n / 8 + 2) h l.n) := tiles_unitPieces (by decide) (.inr (by omega))
  cases hp : l.place with
  | dev pa => simpa [partsOf, hp, Function.comp_def] using tiles_units.sum
  | host h => simpa [partsOf, hp, Function.comp_def] using height.sum
  | peer k pa => simpa [partsOf, hp, Function.comp_def] using tiles_units.sum
  | spad b x => simp [partsOf, hp]

theorem Mach.loadPart_length (m : Mach) (mg : Mgmt) (a : Actor) (l : Loc) (damp : Bool) (pts : Nat) (p : Place) (n : Nat) :
    (m.loadPart mg a l damp pts p n).1.length = n := by
  cases p with
  | dev pa =>
    unfold Mach.loadPart Mach.loadDev
    dsimp only
    split
    · split_ifs <;> simp [copyBytes]
    · simp
  | host h => exact memRead_length ..
  | peer k pa => exact memRead_length ..
  | spad b x =>
    unfold Mach.loadPart Mach.loadSpad Mach.spadBytes
    dsimp only
    split <;> simp [zeros]

theorem Mach.loadParts_length (m : Mach) (mg : Mgmt) (a : Actor) (l : Loc) (damp : Bool) (pts : Nat) (ps : List (Place × Nat × Nat)) :
    (m.loadParts mg a l damp pts ps).1.length = (ps.map (·.2.2)).sum := by
  induction ps generalizing m pts with
  | nil => rfl
  | cons x r ih => simp [Mach.loadParts, Mach.loadPart_length, ih]

theorem Mach.loadLocs_length (m : Mach) (mg : Mgmt) (a : Actor) (pts : Nat) (ls : List Loc) :
    (m.loadLocs mg a pts ls).1.length = (ls.map (·.n)).sum := by
  induction ls generalizing m pts with
  | nil => rfl
  | cons l r ih => simp [Mach.loadLocs, Mach.loadParts_length, partsOf_sum, ih]

theorem seePosted_length (m : Mach) (lanes : List PressLane) (l : Loc) (bs : List Byte) : (seePosted m lanes l bs).length = bs.length := by
  unfold seePosted
  cases l.place <;> simp [overlayPosted]

theorem seeAll_length (m : Mach) (lanes : List PressLane) (ls : List Loc) {bs : List Byte} (h : bs.length = (ls.map (·.n)).sum) :
    (seeAll m lanes ls bs).length = bs.length := by
  induction ls generalizing bs with
  | nil => exact h.symm
  | cons l r ih =>
    rw [List.map_cons, List.sum_cons] at h
    have hrest : (bs.drop l.n).length = (r.map (·.n)).sum := by rw [List.length_drop]; omega
    rw [seeAll, List.length_append, seePosted_length, ih hrest, List.length_take, List.length_drop]
    omega

theorem Mach.loadVa_length {m m' : Mach} {mg : Mgmt} {v : View} {va n pts : Nat} {l : Loaded}
    (h : m.loadVa mg v va n pts = (.ok l, m')) : l.bytes.length = n := by
  have hlocs := m.locateAll_lengths mg v.actor (pagePieces va n)
  unfold Mach.loadVa at h
  dsimp only at h
  split at h
  · cases h
  · rename_i hworst
    split at h
    · cases h
    · cases h
      have hbytes := (((m.locate mg v.actor va n).2.settleLocs v (pieceLocs (m.locate mg v.actor va n).1)).loadLocs_length mg v.actor pts
        (pieceLocs (m.locate mg v.actor va n).1))
      have hsum : ((pieceLocs (m.locate mg v.actor va n).1).map (·.n)).sum = n :=
        (congrArg List.sum (hlocs (worst_none hworst))).trans (pagePieces_sum va n)
      exact (seeAll_length _ _ _ hbytes).trans (hbytes.trans hsum)

/-! ## The words of a range -/

theorem toNat_append_byte {n : Nat} (x : BitVec n) (y : Byte) : (x ++ y).toNat = y.toNat + 256 * x.toNat := by
  rw [BitVec.toNat_append, ← Nat.shiftLeft_add_eq_or_of_lt y.isLt, Nat.shiftLeft_eq]
  omega

theorem word_of_bytes (a b c d : Byte) : d ++ c ++ b ++ a = BitVec.ofNat 32 (natOfBytes [a, b, c, d]) := by
  have hlt := (d ++ c ++ b ++ a).isLt
  refine BitVec.eq_of_toNat_eq ?_
  simp only [toNat_append_byte, natOfBytes, BitVec.toNat_ofNat] at hlt ⊢
  omega

/-- The words of a range, counted from its start. -/
theorem wordsOfBytes_wordAt {k : Nat} {bs : List Byte} (h : bs.length = 4 * k) : wordsOfBytes bs = (List.range k).map (wordAt bs) := by
  induction k generalizing bs with
  | zero => rw [List.length_eq_zero_iff.1 h]; rfl
  | succ k ih =>
    obtain ⟨a, b, c, d, r, rfl⟩ : ∃ a b c d r, bs = a :: b :: c :: d :: r := by
      match bs, h with
      | a :: b :: c :: d :: r, _ => exact ⟨a, b, c, d, r, rfl⟩
    simp only [List.length_cons] at h
    rw [wordsOfBytes, ih (by omega), List.range_succ_eq_map, List.map_cons, List.map_map, word_of_bytes]
    rfl

theorem loadBytes_eq (z : LoadSize) : loadBytes z = sizeOfLoad z := by cases z <;> rfl

/-- R431: the registers that a load fills are the words of its range. -/
theorem loadWords_filled (z : LoadSize) {bs : List Byte} (h : bs.length = loadBytes z) : loadWords z bs = filled z bs := by
  cases z with
  | b32 => exact wordsOfBytes_wordAt (k := 1) h
  | b64 => exact wordsOfBytes_wordAt (k := 2) h
  | b128 => exact wordsOfBytes_wordAt (k := 4) h
  | u8 => rfl
  | s8 => rfl
  | u16 => rfl
  | s16 => rfl

end Sys2Proof.Machine
end

section
/-! SUPPORT. The loads from global memory (R148, R370, R429, R431, R432) as operations whose elements act one after another. -/

namespace Sys2Proof.Machine

theorem globalAddr_ok_iff {base : BitVec 64} {x : Int} {n va : Nat} {write : Bool} :
    globalAddr base x n write = .ok va ↔ globalAt base x n = some va := by
  have hlt := base.isLt
  unfold globalAddr globalAt
  dsimp only
  split_ifs with hbad hgood hgood
  · omega
  · simp
  · rw [Nat.mod_eq_of_lt (by omega), Except.ok.injEq, Option.some.injEq]
  · omega

section
variable {h : Head} {g : Guard} {z : LoadSize} {d a : Operand} {x : Offset} {tau : View → Word}

/-- The address at which the load of an offset form is made (R429). -/
def loadAddr (z : LoadSize) (a : Operand) (x : Offset) (v : View) (_ : Mach) : Option Nat := globalAt (v.val64 1 a) (x.of v) (sizeOfLoad z)

theorem globalOf_ok_iff {write : Bool} {v : View} {m : Mach} {va : Nat} :
    globalOf a x (loadBytes z) write v m = .ok va ↔ loadAddr z a x v m = some va := by
  rw [globalOf, loadAddr, ← loadBytes_eq, globalAddr_ok_iff]

/-- What a load from global memory brings is what its entry says (R431, R432). -/
theorem loadAct_effect {v : View} {m m' : Mach} {y : Done} (h : loadAct d z (loadAddr z a x) v m = some (y, m')) :
    (loadEffect d z (loadAt z (globalOf a x (loadBytes z) false) v m).1,
      (loadAt z (globalOf a x (loadBytes z) false) v m).2) = (.ok y, m') := by
  unfold loadAct at h
  split at h
  · cases h
  · rename_i va hva
    rw [← loadBytes_eq] at h
    unfold loadAt
    rw [globalOf_ok_iff.2 hva]
    dsimp only
    split at h
    · cases h
    · rename_i l m1 hload
      cases h
      rw [hload]
      show (Except.ok _, m') = _
      rw [loadWords_filled z (Mach.loadVa_length hload)]
      rfl

/-- Where no element's load has to wait, the instruction asks no holder to drain. -/
theorem wringAt_nil {vs : List View} {m : Mach} (hfree : noWrings h z (loadAddr z a x) tau vs m) :
    wringAt z h (globalOf a x (loadBytes z) false) tau vs m = [] := by
  have hacting : acting h false vs = if h.scope = .lane then vs else vs.take 1 := by simp [acting]
  have hnone : ((if h.scope = .lane then vs else vs.take 1).flatMap fun v =>
      match globalOf a x (loadBytes z) false v m with
      | .error _ => []
      | .ok va => m.wringsOfLoad v.mg v va (loadBytes z) (tau v)) = [] := by
    refine List.flatMap_eq_nil_iff.2 fun v hv => ?_
    split
    · rfl
    · rename_i va hva
      rw [loadBytes_eq]
      exact hfree v (hacting ▸ hv) va (globalOf_ok_iff.1 hva)
  exact congrArg dedup hnone

/-- The load as an operation: its elements act one after another. -/
theorem loadOp_effectOp : EffectOp (loadOp h g z d a x (wringAt z h (globalOf a x (loadBytes z) false) tau)
      (loadAt z (globalOf a x (loadBytes z) false))) h g .later false true true allScopes
    (fun ow c => (loadOp h g z d a x (wringAt z h (globalOf a x (loadBytes z) false) tau)
      (loadAt z (globalOf a x (loadBytes z) false))).check ow c = none)
    (fun _ => ⟨1, a, 2⟩ :: x.srcs) (noWrings h z (loadAddr z a x) tau) (eachActs (loadAct d z (loadAddr z a x))) :=
  each_op rfl (fun _ _ _ _ => loadAct_effect) (fun _ _ => id) (fun _ _ _ => rfl) (fun _ _ => wringAt_nil)

/-- The offset of LDB: none, and the check and the source of its tolerance (R435). -/
def offTau (b : Operand) : Offset := { of := fun _ => 0, check := fun ow => [(2, admits ow srcVSZ 1 b)], srcs := [⟨2, b, 1⟩] }

/-- A load that waited for wrings does what it would have done at its issue. -/
theorem wrung_load {i : Instr} (ho : opOf i = some (loadOp h g z d a x (wringAt z h (globalOf a x (loadBytes z) false) tau)
      (loadAt z (globalOf a x (loadBytes z) false)))) :
    EffectAtWrung i h g (⟨1, a, 2⟩ :: x.srcs) (noWrings h z (loadAddr z a x) tau) (eachActs (loadAct d z (loadAddr z a x))) :=
  wrung_effect loadOp_effectOp ho fun _ _ _ _ => eachActs_wrungFrom fun _ _ _ _ => loadAct_wrungFrom

end

end Sys2Proof.Machine
end

section
/-! SUPPORT. The last result of an instruction of latency V (R352, R393), and the tick of a core's program stamps (R115). -/

namespace Sys2Proof.Machine

/-! ## Last results -/

/-- The end of a CSRW in its warp: its flight ends, and the write that it held is made. -/
def Warp.endCsrw (f : Flight) (w : Warp) : Warp := { endFlight w f with csrw := w.csrw.filter (·.1 != f.id) }

theorem getReg_endCsrw (w : Warp) (f : Flight) (r : RegName) : (w.endCsrw f).getReg r = w.getReg r := by cases r <;> rfl

section
variable {s : State} {bid k : Nat} {b : Block} {w : Warp} {f : Flight}

/-- Where no load waits for wrings, the last result arrives. -/
theorem exec_latencyVResult (hon : isOn s) (hw : s.mach.wrung = []) (id : Nat) :
    exec (.latencyVResult bid k id) s = .next { s with mach := s.mach.latencyResult bid k id } := by
  show execLatencyVResult bid k id s = _
  rw [execLatencyVResult, onEvent_on hon]
  simp only [hw, List.any_nil, Bool.false_eq_true, if_false]

theorem Mach.latencyResult_done (hs : Stands s.mach bid k b w) (hf : w.flights.find? (·.id == f.id) = some f) (hdone : f.done = true)
    (hdue : f.due = none) (hcsr : w.csrw.find? (·.1 == f.id) = none) :
    s.mach.latencyResult bid k f.id = s.mach.putWarp bid k b (endFlight w f) := by
  obtain ⟨hb, hw⟩ := hs.finds
  simp only [Mach.latencyResult, hb, hw, hf, hcsr, hdone, hdue, Option.isNone_none, Bool.and_self, if_true, Mach.modWarp, Mach.modBlock,
    tabMod_some _ hs.block, tabMod_some _ hs.warp]
  rfl

theorem Mach.latencyResult_csrw {n : Nat} {x : Word} (hs : Stands s.mach bid k b w) (hf : w.flights.find? (·.id == f.id) = some f)
    (hcsr : w.csrw.find? (·.1 == f.id) = some (f.id, n, x)) :
    s.mach.latencyResult bid k f.id = (s.mach.modCtx b.ctx fun c => c.csrWrite n x).modWarp bid k (Warp.endCsrw f) := by
  obtain ⟨hb, hw⟩ := hs.finds
  simp only [Mach.latencyResult, hb, hw, hf, hcsr]
  rfl

/-- R393: the end of a CSRW gives the register its value; no byte and no register of a warp changes, and its flight is over. -/
theorem latencyVResult_csrw {n : Nat} {x : Word} (hon : isOn s) (hwrung : s.mach.wrung = []) (hs : Stands s.mach bid k b w)
    (hf : w.flights.find? (·.id == f.id) = some f) (hcsr : w.csrw.find? (·.1 == f.id) = some (f.id, n, x)) :
    Does (.latencyVResult bid k f.id) s fun t => sameMemory s.mach t.mach ∧ sameRegisters s.mach t.mach ∧
      (∀ y w', t.mach.warp? bid k = some w' → y ∈ w'.flights → y.id ≠ f.id) ∧
      (tabHas s.mach.ctxs b.ctx = true → t.mach.ctx b.ctx = (s.mach.ctx b.ctx).csrWrite n x) := by
  refine ⟨_, exec_latencyVResult hon hwrung f.id, ?_⟩
  dsimp only
  rw [Mach.latencyResult_csrw hs hf hcsr]
  refine ⟨⟨rfl, rfl, rfl⟩, sameRegisters.trans (b := s.mach.modCtx b.ctx fun c => c.csrWrite n x) (sameRegisters_of_blocks rfl)
    (sameRegisters_modWarp _ _ _ fun w r => getReg_endCsrw w f r), fun y w' hw' hy => ?_, fun hc => ?_⟩
  · rw [Mach.warp?_modWarp, if_pos ⟨rfl, rfl⟩] at hw'
    obtain ⟨w1, -, rfl⟩ := Option.map_eq_some_iff.1 hw'
    simpa using (List.mem_filter.1 hy).2
  · exact (s.mach.ctx_modCtx b.ctx b.ctx _).trans (if_pos ⟨rfl, hc⟩)

end

/-! ## Stamp ticks -/

def Lane.ticked (l : Lane) : Lane := { l with pts := l.pts + 1 }

/-- Every lane has a program stamp greater by one. -/
def Warp.ticked (w : Warp) : Warp := { w with lanes := w.lanes.map Lane.ticked }

/-- R115: the lanes of a resident block of the core each have a program stamp greater by one. -/
def Block.ticked (core : Nat) (b : Block) : Block :=
  if b.core = core ∧ b.resident then { b with warps := tabMap Warp.ticked b.warps } else b

section
variable {m : Mach} {core t : Nat} (h : (m.core core).ticked = some t)
include h

theorem Mach.stampTick_early (hc : m.cycle < t + 64) : m.stampTick core = m := by
  simp [Mach.stampTick, h, Nat.not_le.2 hc]

theorem Mach.stampTick_due (hc : t + 64 ≤ m.cycle) : m.stampTick core =
    ({ m with blocks := tabMap (Block.ticked core) m.blocks } : Mach).setCore core { m.core core with ticked := some (t + 64) } := by
  simp only [Mach.stampTick, h, hc, decide_true, Bool.not_true, Bool.false_eq_true, if_false]
  rfl

end

theorem laneAt_ticked (w : Warp) (i : Nat) : laneAt w.ticked i = (laneAt w i).map Lane.ticked := List.getElem?_map ..

theorem Block.ticked_warp (core : Nat) (b : Block) (k : Nat) : tabFind (b.ticked core).warps k =
    (tabFind b.warps k).map fun w => if b.core = core ∧ b.resident then w.ticked else w := by
  unfold Block.ticked
  split_ifs
  · exact tabFind_map ..
  · exact Option.map_id'.symm

/-- A warp of the machine after a tick of the core. -/
theorem Stands.ticked {m m' : Mach} {bid k core : Nat} {b : Block} {w : Warp} (hs : Stands m bid k b w)
    (hm : m'.blocks = tabMap (Block.ticked core) m.blocks) :
    Stands m' bid k (b.ticked core) (if b.core = core ∧ b.resident then w.ticked else w) where
  block := by rw [hm, tabFind_map, hs.block]; rfl
  warp := by rw [Block.ticked_warp, hs.warp]; rfl

/-- R115: what a due tick leaves of the lanes. -/
theorem stampTick_due {s : State} {core t : Nat} (hon : isOn s) (h : (s.mach.core core).ticked = some t) (hc : t + 64 ≤ s.mach.cycle) :
    Does (.stampTick core) s fun u => sameMemory s.mach u.mach ∧ (u.mach.core core).ticked = some (t + 64) ∧
      ∀ bid k b w i l, Stands s.mach bid k b w → laneAt w i = some l → ∃ b' w', Stands u.mach bid k b' w' ∧
        laneAt w' i = some (if b.core = core ∧ b.resident = true then { l with pts := l.pts + 1 } else l) := by
  refine does_onEvent hon (f := fun _ m => m.stampTick core) rfl ?_
  dsimp only
  rw [Mach.stampTick_due h hc]
  refine ⟨⟨rfl, rfl, rfl⟩, ?_, fun bid k b w i l hs hl => ⟨_, _, hs.ticked rfl, ?_⟩⟩
  · exact congrArg Core.ticked ((tabGet_set ..).trans (if_pos rfl))
  · split_ifs
    · rw [laneAt_ticked, hl]; rfl
    · exact hl

end Sys2Proof.Machine

open Sys2Proof Sys2Proof.Machine

/-- Settles O26: a load that waited is performed as at an issue, for nothing that it does makes another load wait; a last result and a
tick are one update of a warp and one of a table. -/
theorem resultsAndTicks : Obligations.ResultsAndTicks := by
  unfold Obligations.ResultsAndTicks
  refine ⟨⟨fun f => wrung_load (x := offB f.b f.m.sh) rfl, fun f => wrung_load (x := offC f.imm) rfl,
    fun f => wrung_load (x := offTau f.b) rfl⟩, fun s bid k b w f hon hw hs hf => ⟨fun hdone hdue hcsr => ?_, fun n x hcsr => ?_⟩,
    fun s core hon => ⟨fun t h hc => ?_, fun t h hc => stampTick_due hon h hc⟩⟩
  · exact (exec_latencyVResult hon hw f.id).trans (by rw [Mach.latencyResult_done hs hf hdone hdue hcsr]; rfl)
  · exact latencyVResult_csrw hon hw hs hf hcsr
  · exact (onEvent_on hon fun _ m => m.stampTick core).trans (by rw [Mach.stampTick_early h hc])

end

section
/-! SUPPORT. Patterns and values of a floating-point format (R187, R188), and the rounding of a value that needs none (R191). -/

namespace Sys2Proof.Machine

/-! ## The fields of a pattern (R187) -/

def FParams.negative (q : FParams) (x : Nat) : Bool := (x / q.signBit) % 2 == 1
def FParams.expField (q : FParams) (x : Nat) : Nat := (x / 2 ^ q.fbits) % 2 ^ q.ebits
def FParams.fracField (q : FParams) (x : Nat) : Nat := x % 2 ^ q.fbits
/-- The sign bit of a pattern, in its place. -/
def FParams.signPart (q : FParams) (neg : Bool) : Nat := if neg then q.signBit else 0

theorem FParams.expField_lt (q : FParams) (x : Nat) : q.expField x < 2 ^ q.ebits := Nat.mod_lt _ (by positivity)

theorem FParams.fracField_lt (q : FParams) (x : Nat) : q.fracField x < 2 ^ q.fbits := Nat.mod_lt _ (by positivity)

theorem FParams.mod_signBit_lt (q : FParams) (x : Nat) : x % q.signBit < q.signBit := Nat.mod_lt _ (by unfold signBit; positivity)

/-- Below the sign bit stand the exponent and the fraction. -/
theorem FParams.mod_signBit (q : FParams) (x : Nat) : x % q.signBit = q.expField x * 2 ^ q.fbits + q.fracField x := by
  rw [signBit, Nat.pow_add', Nat.mod_mul, expField, fracField, Nat.mul_comm, Nat.add_comm]

theorem FParams.signPart_add_mod {q : FParams} {x : Nat} (hx : x < 2 ^ q.width) :
    q.signPart (q.negative x) + x % q.signBit = x := by
  have hlt : x / q.signBit < 2 := by
    rw [Nat.div_lt_iff_lt_mul (by unfold signBit; positivity)]
    rwa [width, Nat.add_assoc, Nat.pow_add] at hx
  have hdiv := Nat.div_add_mod x q.signBit
  rw [signPart, negative, Nat.mod_eq_of_lt hlt]
  generalize x / q.signBit = d at hlt hdiv
  interval_cases d <;> simpa using hdiv

/-! ## What a pattern stands for (R187, R188) -/

theorem FParams.decode_eq (q : FParams) (x : Nat) : q.decode x =
    if q.hasInf && q.expField x == 2 ^ q.ebits - 1 then (if q.fracField x = 0 then .inf (q.negative x) else .nan)
    else if !q.hasInf && x % q.signBit == q.nanBits then .nan
    else if q.expField x = 0 then .fin (q.negative x) (q.fracField x) (q.emin - q.fbits)
    else .fin (q.negative x) (2 ^ q.fbits + q.fracField x) (q.expField x - q.bias - q.fbits) := rfl

theorem FParams.decode_inf {q : FParams} {x : Nat} {neg : Bool} (h : q.decode x = .inf neg) :
    q.hasInf = true ∧ neg = q.negative x ∧ x % q.signBit = q.infBits := by
  rw [decode_eq] at h
  split_ifs at h with htop hfrac
  obtain ⟨hinf, hexp⟩ := Bool.and_eq_true_iff.1 htop
  obtain rfl := FVal.inf.inj h
  exact ⟨hinf, rfl, by rw [mod_signBit, eq_of_beq hexp, hfrac]; rfl⟩

/-- The patterns up to the largest finite one are those that stand for no infinity and no NaN. -/
theorem FParams.mod_signBit_le_maxBits {q : FParams} {x : Nat} (htop : ¬(q.hasInf && q.expField x == 2 ^ q.ebits - 1) = true)
    (hnan : ¬(!q.hasInf && x % q.signBit == q.nanBits) = true) : x % q.signBit ≤ q.maxBits := by
  cases hinf : q.hasInf with
  | true =>
    have hne : q.expField x ≠ 2 ^ q.ebits - 1 := by simpa [hinf] using htop
    have hexp : q.expField x + 1 ≤ 2 ^ q.ebits - 1 := by have := q.expField_lt x; omega
    have hfrac := q.fracField_lt x
    have hmul := Nat.mul_le_mul_right (2 ^ q.fbits) hexp
    rw [maxBits, if_pos hinf, mod_signBit, infBits]
    rw [Nat.add_mul] at hmul
    omega
  | false =>
    have hne : x % q.signBit ≠ 2 ^ (q.ebits + q.fbits) - 1 := by simpa [hinf, nanBits] using hnan
    have hlt : x % q.signBit < 2 ^ (q.ebits + q.fbits) := q.mod_signBit_lt x
    rw [maxBits, hinf, if_neg Bool.false_ne_true]
    omega

/-- A finite pattern is at most the largest one, and its exact value is a subnormal or a normal number. -/
theorem FParams.decode_fin {q : FParams} {x m : Nat} {neg : Bool} {e : Int} (h : q.decode x = .fin neg m e) :
    x % q.signBit ≤ q.maxBits ∧ neg = q.negative x ∧
    (q.expField x = 0 ∧ m = q.fracField x ∧ e = q.emin - q.fbits ∨
      q.expField x ≠ 0 ∧ m = 2 ^ q.fbits + q.fracField x ∧ e = q.expField x - q.bias - q.fbits) := by
  rw [decode_eq] at h
  split_ifs at h with htop _ hnan hexp
  · obtain ⟨rfl, rfl, rfl⟩ := FVal.fin.inj h
    exact ⟨mod_signBit_le_maxBits htop hnan, rfl, .inl ⟨hexp, rfl, rfl⟩⟩
  · obtain ⟨rfl, rfl, rfl⟩ := FVal.fin.inj h
    exact ⟨mod_signBit_le_maxBits htop hnan, rfl, .inr ⟨hexp, rfl, rfl⟩⟩

/-! ## Rounding a value of the format (R191) -/

/-- The parameters of R187 that the others determine. -/
structure FParams.Regular (q : FParams) : Prop where
  precision : q.p = q.fbits + 1
  least : q.emin = 1 - q.bias

theorem FParams.round_zero (q : FParams) (mode : RMode) (sat neg : Bool) (e : Int) :
    q.round mode sat (.fin neg 0 e) = q.signPart neg := rfl

/-- The pattern of a magnitude that is a whole number of spacings, without its sign. -/
def FParams.gridBits (q : FParams) (m : Nat) (e : Int) : Nat :=
  if m < 2 ^ q.fbits then m else (e + q.fbits + q.bias).toNat * 2 ^ q.fbits + (m - 2 ^ q.fbits)

/-- A value whose exponent is that of its spacing is not rounded. -/
theorem FParams.round_grid {q : FParams} (hq : q.Regular) (mode : RMode) (sat neg : Bool) {m : Nat} {e : Int} (hm : m ≠ 0)
    (hspacing : max ((m.log2 : Int) + e) q.emin = e + q.fbits) (hmax : q.gridBits m e ≤ q.maxBits) :
    q.round mode sat (.fin neg m e) = q.signPart neg + q.gridBits m e := by
  have hexp : e + q.fbits - (q.fbits + 1 : Nat) + 1 = e := by omega
  have hbits : ¬ q.gridBits m e > q.maxBits := Nat.not_lt.2 hmax
  unfold gridBits at hbits ⊢
  simp only [round, if_neg hm, hspacing, hexp, ge_iff_le, le_refl, if_true, Int.sub_self, Int.toNat_zero, Nat.shiftLeft_zero,
    hq.precision, Nat.add_sub_cancel, if_neg hbits, signPart]

theorem FParams.round_subnormal {q : FParams} (hq : q.Regular) (mode : RMode) (sat neg : Bool) {f : Nat} (hf : f < 2 ^ q.fbits)
    (hmax : f ≤ q.maxBits) : q.round mode sat (.fin neg f (q.emin - q.fbits)) = q.signPart neg + f := by
  rcases Nat.eq_zero_or_pos f with rfl | hpos
  · exact q.round_zero ..
  · have hlog : f.log2 < q.fbits := (Nat.log2_lt hpos.ne').2 hf
    have hbits : q.gridBits f (q.emin - q.fbits) = f := if_pos hf
    rw [round_grid hq mode sat neg hpos.ne' (by omega) (hbits.trans_le hmax), hbits]

theorem FParams.round_normal {q : FParams} (hq : q.Regular) (mode : RMode) (sat neg : Bool) {c f : Nat} (hc : c ≠ 0)
    (hf : f < 2 ^ q.fbits) (hmax : c * 2 ^ q.fbits + f ≤ q.maxBits) :
    q.round mode sat (.fin neg (2 ^ q.fbits + f) (c - q.bias - q.fbits)) = q.signPart neg + (c * 2 ^ q.fbits + f) := by
  have hpos : 2 ^ q.fbits + f ≠ 0 := by positivity
  have hlog : (2 ^ q.fbits + f).log2 = q.fbits := (Nat.log2_eq_iff hpos).2 ⟨by omega, by rw [Nat.pow_succ]; omega⟩
  have hbits : q.gridBits (2 ^ q.fbits + f) (c - q.bias - q.fbits) = c * 2 ^ q.fbits + f := by
    rw [gridBits, if_neg (by omega), Nat.add_sub_cancel_left]
    congr 2
    omega
  have hleast := hq.least
  rw [round_grid hq mode sat neg hpos (by rw [hlog]; omega) (hbits.trans_le hmax), hbits]

theorem FParams.round_decode_fin {q : FParams} (hq : q.Regular) (mode : RMode) (sat : Bool) {x m : Nat} {neg : Bool} {e : Int}
    (h : q.decode x = .fin neg m e) : q.round mode sat (.fin neg m e) = q.signPart (q.negative x) + x % q.signBit := by
  have hf := q.fracField_lt x
  obtain ⟨hmax, rfl, hvalue⟩ := decode_fin h
  rw [mod_signBit] at hmax ⊢
  obtain ⟨hc, rfl, rfl⟩ | ⟨hc, rfl, rfl⟩ := hvalue
  · rw [hc, Nat.zero_mul, Nat.zero_add] at hmax ⊢
    exact round_subnormal hq mode sat _ hf hmax
  · exact round_normal hq mode sat _ hc hf hmax

/-- R187, R191: in a format with the parameters' relations of R187, a pattern that is no NaN comes back from its value. -/
theorem FParams.round_decode {q : FParams} (hq : q.Regular) (mode : RMode) {x : Nat} (hx : x < 2 ^ q.width) :
    q.round mode false (q.decode x) = if q.decode x = .nan then q.nanBits else x := by
  cases h : q.decode x with
  | nan => rfl
  | inf neg =>
    obtain ⟨hinf, rfl, hbits⟩ := decode_inf h
    calc q.round mode false (.inf (q.negative x))
        = q.signPart (q.negative x) + q.infBits := by simp [round, hinf, signPart]
      _ = x := by rw [← hbits, signPart_add_mod hx]
  | fin neg m e => exact (round_decode_fin hq mode false h).trans (signPart_add_mod hx)

/-- The five formats of R187. -/
theorem FParams.regular_of_mem {q : FParams} (h : q ∈ [paramsF32, paramsF16, paramsBf16, paramsE4m3, paramsE5m2]) : q.Regular := by
  simp only [List.mem_cons, List.not_mem_nil, or_false] at h
  rcases h with rfl | rfl | rfl | rfl | rfl <;> exact ⟨rfl, rfl⟩

end Sys2Proof.Machine

open Sys2Proof Sys2Proof.Machine

/-- Settles O6: the spacing at a value of a format is the value's own (`FParams.round_grid`), so that nothing is rounded, and its pattern
is not above the largest finite one. -/
theorem roundingKeepsValues : Obligations.RoundingKeepsValues := by
  unfold Obligations.RoundingKeepsValues
  intro q hq mode x hx
  exact FParams.round_decode (FParams.regular_of_mem hq) mode hx

end

section
/-! SUPPORT. The instructions that queue engine commands (R211 to R213, R231, R232, R484, R486): what each reads and queues, in the words
of its act. -/

namespace Sys2Proof.Machine

/-! ## Blocks of 64 bytes in scratchpad -/

/-- A field of a parameter block is its bits. -/
theorem cmdField_eq (x : BitVec 512) (hi lo : Nat) : cmdField x hi lo = (x.extractLsb' lo (hi + 1 - lo)).toNat := by
  simp [cmdField, field]

theorem cmdField_bit (x : BitVec 512) (i : Nat) : (cmdField x i i = 1) ↔ x.getLsbD i = true := by
  rw [cmdField, field, Nat.add_sub_cancel_left, pow_one, BitVec.getLsbD, Nat.testBit_eq_decide_div_mod_eq, Nat.shiftRight_eq_div_pow,
    decide_eq_true_eq]

/-- A whole block of scratchpad has one mask and one mark (R304). -/
theorem unitPieces_block {x : Nat} (h : x % 64 = 0) : unitPieces 64 (64 / 64 + 2) x 64 = [(x, 64)] :=
  unitPieces_one 1 (by omega) (by decide)

/-- What the issue reads where its block is one that can be read. -/
theorem readCmdBlock_of_blockAt {a : Operand} {v : View} {m : Mach} {c : FoundBlock} (h : blockAt a v m = some c) :
    readCmdBlock a v m = (.ok ⟨c.addr, c.bits, c.tag, c.stamp⟩, c.mach) := by
  unfold blockAt at h
  dsimp only at h
  split at h
  · cases h
  · rename_i b hb
    split_ifs at h with hok
    obtain ⟨halign, hin, htop, hgood⟩ := hok
    cases h
    have hbytes : (m.leaseSpad v.q.bid ((v.val 1 a).toNat / 64) v.pts).2.spadBytes v.q.bid (v.val 1 a).toNat 64 =
        memRead b.spad (v.val 1 a).toNat 64 := by
      simp only [Mach.leaseSpad, hb, Mach.spadBytes]
      simp [Mach.block?]
    unfold readCmdBlock
    simp only [hb, spadBadRange, spadTag, unitPieces_block halign, Mach.loadSpad, hbytes, List.any_cons, List.any_nil, hgood,
      List.foldl_cons, List.foldl_nil]
    rw [if_neg (by omega), if_neg (by omega)]
    simp

/-! ## Commands -/

theorem relWaits_if (m : Mach) (v : View) (x : BitVec 512) (i scp : Nat) :
    (if cmdField x i i = 1 then m.relWaits v scp else []) = if x.getLsbD i then m.relWaits v scp else [] := by
  simp only [cmdField_bit]

theorem kickRun_of_act {tier : Bool} {a : Operand} {v : View} {m m' : Mach} {d : Done} (h : kickAct tier a v m = some (d, m')) :
    kickRun tier a v m = (.ok d, m') := by
  unfold kickAct at h
  split at h
  · cases h
  · rename_i c hc
    cases h
    unfold kickRun
    simp only [readCmdBlock_of_blockAt hc, relWaits_if]
    simp only [cmdField_eq]
    rfl

theorem mmaRun_of_act {a : Operand} {v : View} {m m' : Mach} {d : Done} (h : mmaAct a v m = some (d, m')) :
    mmaRun a v m = (.ok d, m') := by
  unfold mmaAct at h
  split at h
  · cases h
  · rename_i c hc
    dsimp only at h
    split at h
    · cases h
    · rename_i t ht
      cases h
      unfold mmaRun
      simp only [readCmdBlock_of_blockAt hc, relWaits_if]
      simp only [cmdField_eq, Mach.handleOf, ht]
      rfl

theorem tdrainRun_of_act {mo : DrainMods} {d a b : Operand} {v : View} {m m' : Mach} {x : Done}
    (h : tdrainAct mo d a b v m = some (x, m')) : tdrainRun mo d a b v m = (.ok x, m') := by
  unfold tdrainAct at h
  split at h
  · rename_i n
    split at h
    · cases h
    · rename_i t ht
      cases h
      simp only [tdrainRun, handleNo, Option.bind_some, Mach.handleOf, ht, Option.map_some]
      rfl
  all_goals cases h

/-! ## The instructions -/

/-- CKICK and TIER, in both forms. -/
theorem kicks_effects {i : Instr} {h : Head} {g : Guard} {a : Operand} {tier : Bool}
    (ho : opOf i = some (engineOp h g a (kickReady a) (kickRun tier a))) :
    Effects i h g .open_ false true true warpOnly (fun ow _ => allOf [admits ow srcVS 1 a]) (fun _ => [⟨1, a, 1⟩])
      (fun vs m => kickReady a vs m = true) (eachActs (kickAct tier a)) :=
  effects_of (each_op rfl (fun _ _ _ _ => kickRun_of_act) (fun _ _ h => firstBad_of_all h) (fun _ _ => id) fun _ _ _ => rfl)
    (exec_eq_issueOp ho) ho

/-- MMA, in both forms. -/
theorem mma_effects {i : Instr} {h : Head} {g : Guard} {a : Operand} (ho : opOf i = some (engineOp h g a mxReady (mmaRun a))) :
    Effects i h g .open_ false true true warpOnly (fun ow _ => allOf [admits ow srcVS 1 a]) (fun _ => [⟨1, a, 1⟩])
      (fun vs m => mxReady vs m = true) (eachActs (mmaAct a)) :=
  effects_of (each_op rfl (fun _ _ _ _ => mmaRun_of_act) (fun _ _ h => firstBad_of_all h) (fun _ _ => id) fun _ _ _ => rfl)
    (exec_eq_issueOp ho) ho

end Sys2Proof.Machine

open Sys2Proof Sys2Proof.Machine

/-- Settles O23: each element's act is its run where its block can be read and its handle is bound (`readCmdBlock_of_blockAt`), so that
the law of instructions whose elements act one after another gives the whole (`each_op`, `effects_of`). -/
theorem engineCommandsQueue : Obligations.EngineCommandsQueue := by
  unfold Obligations.EngineCommandsQueue
  refine ⟨fun f => kicks_effects rfl, fun f => kicks_effects rfl, fun f => kicks_effects rfl, fun f => kicks_effects rfl,
    fun f => mma_effects rfl, fun f => mma_effects rfl, fun f => ?_⟩
  exact effects_of (op := opTdrain f) (each_op rfl (fun _ _ _ _ => tdrainRun_of_act) (fun _ _ h => firstBad_of_all h) (fun _ _ => id)
    fun _ _ _ => rfl) (exec_eq_issueOp rfl) rfl

end

section
/-! SUPPORT. A tile table that lists one tile twice (R210). -/

namespace Sys2Proof.Tests

open Sys2Proof.Machine

/-- Tile 3 is to be released, once command 1 is over. -/
def freedTile : Tile := { tile0 with free := some ([1], []) }

/-- A core whose table lists tile 3 twice: a table that no run of the part writes, but which the statement admits. -/
def tileTwice : State :=
  { State.reset with mach := (machine0 mxBlock).modCore 0 fun c => { c with tiles := ⟨[(3, freedTile), (3, freedTile)]⟩ } }

/-- The release of tile 3 takes away the first of its two entries, and the second one is found then. -/
theorem tileTwice_release :
    (after (exec (.tfreeRelease 0 3) tileTwice) fun t => tabFind (t.mach.core 0).tiles 3) = some (some freedTile) := by decide +kernel

end Sys2Proof.Tests

open Sys2Proof Sys2Proof.Machine Sys2Proof.Tests

/-- Refutes O24: its last part supposes nothing of a core's tile table, and a tile that stands in it twice is still there after its
release, which erases one entry. -/
theorem not_tilesGrantedAndFreed : ¬ Obligations.TilesGrantedAndFreed := by
  unfold Obligations.TilesGrantedAndFreed
  rintro ⟨-, -, -, hrelease⟩
  obtain ⟨m, he, htiles, -⟩ := hrelease tileTwice 0 3 freedTile [1] [] rfl (by decide) rfl (by decide)
  have hkept := tileTwice_release
  rw [he] at hkept
  exact absurd ((htiles 3).symm.trans (Option.some.inj hkept)) (by simp)

end

section
/-! SUPPORT. Regions that a handler settles (R222, R238, R286), a matrix command that fails (R222, R223), and the invalidation of
translations (R290, R291). -/

namespace Sys2Proof.Machine

/-! ## RESOLVE and FAILPG -/

theorem Mach.resolveRegion_unreported {m : Mach} {ctx r : Nat} (h : r ∉ (m.ctx ctx).reported) : m.resolveRegion ctx r = m := by
  simp [Mach.resolveRegion, h]

theorem Mach.failRegion_unreported {m : Mach} {ctx r : Nat} (h : r ∉ (m.ctx ctx).reported) (mg : Mgmt) : m.failRegion mg ctx r = m := by
  simp [Mach.failRegion, h]

/-- The region is settled: it is neither unresolved nor reported any more. -/
theorem Mach.settleRegion_ctx {m : Mach} {ctx : Nat} (h : tabHas m.ctxs ctx = true) (r : Nat) :
    ((m.settleRegion ctx r).ctx ctx).unresolved = (m.ctx ctx).unresolved.filter (· != r) ∧
      ((m.settleRegion ctx r).ctx ctx).reported = (m.ctx ctx).reported.filter (· != r) := by
  rw [Mach.settleRegion, Mach.ctx_modCtx, if_pos ⟨rfl, h⟩]
  exact ⟨rfl, rfl⟩

/-- A change of commands changes no warp. -/
theorem Mach.warp?_mapCommands (m : Mach) (f : Command → Command) (bid k : Nat) : (m.mapCommands f).warp? bid k = m.warp? bid k := by
  simp only [Mach.warp?, Mach.block?, Mach.mapCommands, tabFind_map]
  cases tabFind m.blocks bid <;> rfl

theorem Mach.mapCommands_mq (m : Mach) (f : Command → Command) (core : Nat) :
    ((m.mapCommands f).core core).mq = (m.core core).mq.map f := by
  simp only [Mach.core, Mach.mapCommands, tabGet, tabFind_map]
  cases tabFind m.cores core <;> rfl

/-- Where no command is paused on it, FAILPG only settles the region. -/
theorem Mach.failRegion_unpaused {m : Mach} {ctx r : Nat} (hr : r ∈ (m.ctx ctx).reported)
    (h : ∀ c ∈ m.allCommands, m.pausedOn ctx r c = false) (mg : Mgmt) : m.failRegion mg ctx r = m.settleRegion ctx r := by
  have hcore (x : Nat × Core) (hx : x ∈ m.cores.cells) :
      (∀ c ∈ x.2.mq, m.pausedOn ctx r c = false) ∧ ∀ y ∈ x.2.chans.cells, ∀ c ∈ y.2.cmds, m.pausedOn ctx r c = false :=
    ⟨fun c hc => h c (List.mem_append_left _ (List.mem_flatMap.2 ⟨x, hx, List.mem_append_left _ hc⟩)),
      fun y hy c hc => h c (List.mem_append_left _ (List.mem_flatMap.2 ⟨x, hx, List.mem_append_right _ (List.mem_flatMap.2 ⟨y, hy, hc⟩)⟩))⟩
  have hblock (x : Nat × Block) (hx : x ∈ m.blocks.cells) :
      (∀ c ∈ x.2.keptMx, m.pausedOn ctx r c = false) ∧ ∀ y ∈ x.2.keptCh, m.pausedOn ctx r y.2 = false :=
    ⟨fun c hc => h c (List.mem_append_right _ (List.mem_flatMap.2 ⟨x, hx, List.mem_append_left _ hc⟩)),
      fun y hy => h y.2 (List.mem_append_right _ (List.mem_flatMap.2 ⟨x, hx, List.mem_append_right _ (List.mem_map_of_mem hy)⟩))⟩
  have hmq : (m.cores.cells.flatMap fun c => (c.2.mq.filter (m.pausedOn ctx r)).map fun k => (c.1, k)) = [] :=
    List.flatMap_eq_nil_iff.2 fun x hx => by
      rw [List.filter_eq_nil_iff.2 fun c hc => by simp [(hcore x hx).1 c hc], List.map_nil]
  have hch : (m.cores.cells.flatMap fun c => c.2.chans.cells.flatMap fun x =>
      (x.2.cmds.filter (m.pausedOn ctx r)).map fun k => (c.1, x.1, k)) = [] :=
    List.flatMap_eq_nil_iff.2 fun x hx => List.flatMap_eq_nil_iff.2 fun y hy => by
      rw [List.filter_eq_nil_iff.2 fun c hc => by simp [(hcore x hx).2 y hy c hc], List.map_nil]
  have hkept : m.blocksOf (fun b => b.keptMx.any (m.pausedOn ctx r) || b.keptCh.any fun x => m.pausedOn ctx r x.2) = [] := by
    rw [Mach.blocksOf, List.filter_eq_nil_iff.2, List.map_nil]
    intro x hx
    simpa using hblock x hx
  unfold Mach.failRegion
  simp only [hmq, hch, hkept, List.foldl_nil]
  simp [hr]

/-! ## Steps that change warps and nothing else of their blocks -/

/-- Blocks alone differ, and of each block that was there its warps alone. -/
def Mach.Rewarps (m m' : Mach) : Prop := ∃ blocks, m' = { m with blocks := blocks } ∧
  ∀ j b, tabFind m.blocks j = some b → ∃ warps, tabFind blocks j = some { b with warps := warps }

theorem Mach.Rewarps.refl (m : Mach) : m.Rewarps m := ⟨_, rfl, fun _ b h => ⟨b.warps, h⟩⟩

theorem Mach.Rewarps.trans {a b c : Mach} (h : a.Rewarps b) (g : b.Rewarps c) : a.Rewarps c := by
  obtain ⟨_, rfl, h⟩ := h
  obtain ⟨_, rfl, g⟩ := g
  refine ⟨_, rfl, fun j x hx => ?_⟩
  obtain ⟨_, hx⟩ := h j x hx
  obtain ⟨ws, hx⟩ := g j _ hx
  exact ⟨ws, hx⟩

theorem Mach.modWarp_rewarps (m : Mach) (bid k : Nat) (f : Warp → Warp) : m.Rewarps (m.modWarp bid k f) := by
  refine ⟨_, rfl, fun j b hb => ?_⟩
  rw [tabFind_mod]
  split_ifs with e
  · subst e
    exact ⟨_, by rw [hb]; rfl⟩
  · exact ⟨_, hb⟩

theorem Mach.suspendWarps_rewarps (warps : List Nat) (m : Mach) (bid : Nat) : m.Rewarps (m.suspendWarps bid warps) := by
  induction warps generalizing m with
  | nil => exact .refl m
  | cons k r ih => exact (m.modWarp_rewarps bid k _).trans (ih _)

theorem Mach.endCommand_rewarps (m : Mach) (c : Command) : m.Rewarps (m.endCommand c) := by
  unfold Mach.endCommand
  split
  · exact .refl m
  · exact m.modWarp_rewarps ..

/-! ## A block that an engine's error holds (R222, R238, R279) -/

/-- The hold of the block and its entry are the last ones of the context, and the block keeps all but the state of its warps. -/
structure Mach.HeldByEngine (m m' : Mach) (bid : Nat) (b : Block) (kind : Nat) : Prop where
  cores  : m'.cores = m.cores
  memory : sameMemory m m'
  block  : ∃ warps, tabFind m'.blocks bid = some { b with warps := warps }
  hold   : ∃ h, (m'.ctx b.ctx).holds = (m.ctx b.ctx).holds ++ [h] ∧ h.bid = bid ∧ h.unit = .block ∧ h.engine = true
  entry  : ∃ e, (m'.ctx b.ctx).fq = (m.ctx b.ctx).fq ++ [e] ∧ e.kind = kind ∧ e.recs.length = 1

theorem Mach.faultMode_none {m : Mach} {launch : Nat} (h : ∀ l, m.launch? launch = some l → l.rec_.fmode = 0) (mg : Mgmt) :
    m.faultMode mg launch = m := by
  unfold Mach.faultMode
  split
  · rfl
  · rename_i l hl
    simp [h l hl]

theorem Mach.engineHold_held {m : Mach} {bid kind : Nat} {b : Block} (hb : tabFind m.blocks bid = some b) (hc : tabHas m.ctxs b.ctx = true)
    (hk : kind ≤ 4) (hl : ∀ l, m.launch? b.launch = some l → l.rec_.fmode = 0) (mg : Mgmt) (rec_ : BitVec 256) :
    m.HeldByEngine (m.engineHold mg bid kind rec_) bid b kind := by
  obtain ⟨blocks, he, hkeep⟩ := Mach.suspendWarps_rewarps (tabKeys b.warps) m bid
  have hpush (m : Mach) (ctx : Nat) (info : BitVec 64 × BitVec 64 × BitVec 64) (recs : List (BitVec 256)) (hold : Option (BitVec 16)) :
      m.fqPush ctx kind info recs hold none =
        m.modCtx ctx fun c => { c with fq := c.fq ++ [⟨kind, info.1, info.2.1, info.2.2, recs, 0, hold, none, none⟩] } := by
    unfold Mach.fqPush
    congr 1
    funext c
    rw [if_neg (by simp; omega)]
  have hmode (m' : Mach) (h : m'.launches = m.launches) : m'.faultMode mg b.launch = m' :=
    Mach.faultMode_none (fun l hm => hl l (by rwa [Mach.launch?, h] at hm)) mg
  unfold Mach.engineHold
  simp only [Mach.block?, hb, he, hpush]
  rw [hmode]
  swap
  · rfl
  refine ⟨rfl, ⟨rfl, rfl, rfl⟩, hkeep bid b hb, ?_, ?_⟩ <;>
    rw [Mach.ctx_modCtx, if_pos ⟨rfl, by simpa using hc⟩, Mach.ctx_modCtx, if_pos ⟨rfl, hc⟩]
  · exact ⟨_, rfl, rfl, rfl, rfl⟩
  · exact ⟨_, rfl, rfl, rfl⟩

/-! ## A matrix command that fails (R222) -/

/-- The machine once the head of a core's matrix queue has failed, before its block is held. -/
def Mach.mxFailed (m : Mach) (core : Nat) (c : Command) (rest : List Command) : Mach :=
  (((m.modTile core c.tile c.spoil).endCommand c).modCore core fun x => { x with mq := rest.filter (·.bid != c.bid) }).modBlock c.bid
    fun b => { b with keptMx := b.keptMx ++ rest.filter (·.bid == c.bid) }

theorem Mach.mxError_eq {m : Mach} {core : Nat} {c : Command} {rest : List Command} {b : Block} (hq : (m.core core).mq = c :: rest)
    (hb : tabFind m.blocks c.bid = some b) (mg : Mgmt) (cause va : Nat) :
    m.mxError mg core cause va = (m.mxFailed core c rest).engineHold mg c.bid 3 (mxRecord b c cause va) := by
  simp only [Mach.mxError, Mach.mxErrorOf, hq, Mach.block?, hb, List.erase_cons_head]
  rfl

/-- What it leaves: the queue without the block's commands, the tile invalid, and the block, which keeps its other commands. -/
structure Mach.MxFailed (m m' : Mach) (core : Nat) (c : Command) (rest : List Command) (b : Block) : Prop where
  queue    : (m'.core core).mq = rest.filter (·.bid != c.bid)
  tile     : ∀ t, tabFind (m'.core core).tiles c.tile = some t → t.valid = false
  block    : ∃ warps, tabFind m'.blocks c.bid = some { b with warps := warps, keptMx := b.keptMx ++ rest.filter (·.bid == c.bid) }
  memory   : sameMemory m m'
  contexts : m'.ctxs = m.ctxs
  launches : m'.launches = m.launches

theorem Command.spoil_invalid {c : Command} (h : c.ready = false) (t : Tile) : (c.spoil t).valid = false := by
  rw [Command.spoil, if_neg (by simp [h])]

theorem Mach.mxFailed_failed {m : Mach} {core : Nat} {c : Command} {b : Block} (hb : tabFind m.blocks c.bid = some b) (hr : c.ready = false)
    (rest : List Command) : m.MxFailed (m.mxFailed core c rest) core c rest b := by
  obtain ⟨blocks, he, hkeep⟩ := Mach.endCommand_rewarps (m.modTile core c.tile c.spoil) c
  obtain ⟨warps, hw⟩ := hkeep c.bid b hb
  unfold Mach.mxFailed
  rw [he]
  refine ⟨?_, fun t ht => ?_, ⟨warps, ?_⟩, ⟨rfl, rfl, rfl⟩, rfl, rfl⟩
  · rw [Mach.core, Mach.modBlock_cores, ← Mach.core, Mach.core_modCore_same]
  · rw [Mach.core, Mach.modBlock_cores, ← Mach.core, Mach.core_modCore_same] at ht
    have htile : tabFind (((m.modTile core c.tile c.spoil).core core).tiles) c.tile = some t := ht
    rw [Mach.modTile, Mach.core_modCore_same, tabFind_mod, if_pos rfl] at htile
    obtain ⟨y, -, rfl⟩ := Option.map_eq_some_iff.1 htile
    exact Command.spoil_invalid hr y
  · rw [Mach.modBlock_blocks, tabFind_mod, if_pos rfl]
    exact congrArg _ hw

/-! ## Invalidation (R291) -/

/-- Trackers that drain leave the tracker table with every tracker of the same holder and line; each becomes a drain. -/
theorem Mach.drainList_eq (int : Mach → Tracker → Bool) (l : List Tracker) (m : Mach) :
    ∃ ids drains, l.foldl (fun m t => m.drainTracker t (int m t)) m = { m with
      ids := ids, drains := drains, trackers := m.trackers.filter fun y => !l.any fun z => y.holder == z.holder && y.line == z.line } := by
  induction l generalizing m with
  | nil => exact ⟨m.ids, m.drains, by simp⟩
  | cons z r ih =>
    obtain ⟨ids, drains, he⟩ := ih (m.drainTracker z (int m z))
    refine ⟨ids, drains, ?_⟩
    rw [List.foldl_cons, he]
    simp [Mach.drainTracker, Mach.freshId, List.filter_filter, Bool.and_comm]

theorem mem_filter_drained {l : List Tracker} {p : Tracker → Bool} {y : Tracker} :
    (y ∈ l.filter fun y => !(l.filter p).any fun z => y.holder == z.holder && y.line == z.line) ↔
      y ∈ l ∧ ¬ ∃ z ∈ l, p z = true ∧ z.holder = y.holder ∧ z.line = y.line := by
  rw [List.mem_filter]
  refine and_congr_right fun _ => ?_
  simp only [Bool.not_eq_true', List.any_eq_false, List.mem_filter, Bool.and_eq_true, beq_iff_eq, not_exists, not_and, and_imp]
  exact forall_congr' fun z => forall_congr' fun _ => forall_congr' fun _ =>
    ⟨fun h g e => h g.symm e.symm, fun h g e => h g.symm e.symm⟩

/-- The regions that a value written to TLB.INV names (R291). -/
def invalOf (x : BitVec 64) : Inval := ⟨field x.toNat 31 0, 2 ^ field x.toNat 37 32, x.getLsbD 38, []⟩

theorem Inval.names_iff (i : Inval) (r : Nat) : i.names r = true ↔ i.all = true ∨ (i.first ≤ r ∧ r < i.first + i.count) := by
  simp [Inval.names, inRange]

theorem Inval.drops_iff (i : Inval) (e : TlbEntry) :
    i.drops e = true ↔ i.all = true ∨ (i.first < e.region + 2 ^ e.leaf.log / 65536 ∧ e.region < i.first + i.count) := by
  simp [Inval.drops]

theorem mem_dropTlb {m : Mach} {ctx : Nat} {i : Inval} {e : TlbEntry} :
    e ∈ (m.dropTlb ctx i).tlb ↔ e ∈ m.tlb ∧ ¬ (e.ctx = ctx ∧ i.drops e = true) := by
  simp [Mach.dropTlb, List.mem_filter, imp_iff_not_or]

/-- A write while nothing is BUSY: the copies go, the trackers drain, and BUSY waits for every drain of the context. -/
theorem Mach.tlbInv_eq {m : Mach} {ctx : Nat} (hc : tabHas m.ctxs ctx = true) (hi : (m.ctx ctx).inval = none) (x : BitVec 64) :
    ∃ ids drains, m.tlbInv ctx x = ({ m.dropTlb ctx (invalOf x) with
      ids := ids, drains := drains
      trackers := m.trackers.filter fun y => !(m.trackers.filter fun t => t.ctx == ctx && (invalOf x).names (t.vline / 512)).any
        fun z => y.holder == z.holder && y.line == z.line } : Mach).modCtx ctx fun c =>
          { c with inval := some { invalOf x with drains := dedup ((drains.filter (·.ctx == ctx)).map (·.id)) } } := by
  obtain ⟨ids, drains, he⟩ := Mach.drainList_eq (fun m t => m.regionInt t.ctx t.region)
    ((m.dropTlb ctx (invalOf x)).trackers.filter fun t => t.ctx == ctx && (invalOf x).names (t.vline / 512)) (m.dropTlb ctx (invalOf x))
  refine ⟨ids, drains, ?_⟩
  have hdrain : (m.dropTlb ctx (invalOf x)).drainAll (fun t => t.ctx == ctx && (invalOf x).names (t.vline / 512)) = _ := he
  unfold Mach.tlbInv
  simp only [hi, hc, Option.isSome_none, Bool.or_false, Bool.not_true, Bool.false_eq_true, if_false, List.nil_append]
  rw [← invalOf, hdrain]
  rfl

theorem mem_dedup {α : Type} [BEq α] [LawfulBEq α] {x : α} {l : List α} : x ∈ dedup l ↔ x ∈ l := by
  induction l with
  | nil => rfl
  | cons y r ih =>
    simp only [dedup, List.mem_cons, List.mem_filter, ih, Bool.not_eq_true', beq_eq_false_iff_ne]
    tauto

theorem Mach.invalHeld_iff {m : Mach} {ctx : Nat} {i : Inval} : m.invalHeld ctx i = true ↔
    (∃ d ∈ m.drains, d.id ∈ i.drains) ∨ (∃ r ∈ m.presses, r.ctx = ctx ∧ r.remote = none ∧ i.names (r.va / 65536) = true) ∨
      ∃ x ∈ m.posted, x.ctx = ctx ∧ x.lanes ≠ [] ∧ i.names (x.va.toNat / 65536) = true := by
  simp [Mach.invalHeld, and_assoc, or_assoc]

/-- The launches of a context whose dependences are tested again once BUSY has cleared (R256). -/
def testsAgain (ctx : Nat) (x : Nat × Launch) : Bool :=
  x.2.ctx == ctx && x.2.order.isNone && x.2.rec_.deps.any fun d => d.told && !d.met

/-- The machine once BUSY has cleared, before dependences are tested again. -/
def Mach.invalCleared (m : Mach) (ctx : Nat) (i : Inval) : Mach :=
  { m with tlb := m.tlb.filter fun e => e.ctx != ctx || !i.drops e }.modCtx ctx fun c => { c with inval := none }

theorem Mach.tlbInvDone_held {m : Mach} {ctx : Nat} {i : Inval} (hi : (m.ctx ctx).inval = some i) (h : m.invalHeld ctx i = true) (mg : Mgmt) :
    m.tlbInvDone mg ctx = m := by simp [Mach.tlbInvDone, hi, h]

theorem Mach.tlbInvDone_free {m : Mach} {ctx : Nat} {i : Inval} (hi : (m.ctx ctx).inval = some i) (h : ¬ m.invalHeld ctx i = true)
    (mg : Mgmt) : m.tlbInvDone mg ctx = (m.invalCleared ctx i).retestDeps mg ctx := by
  simp only [Mach.tlbInvDone, hi, if_neg h]
  rfl

/-- Where no launch waits for a dependence that could not be read, nothing is tested. -/
theorem Mach.retestDeps_none {m : Mach} {ctx : Nat} (h : m.launches.cells.filter (testsAgain ctx) = []) (mg : Mgmt) :
    m.retestDeps mg ctx = m := by
  have hfold : m.retestDeps mg ctx = (m.launches.cells.filter (testsAgain ctx)).foldl _ m := rfl
  rw [hfold, h, List.foldl_nil]

theorem Mach.retestDeps_one {m : Mach} {ctx k : Nat} {l : Launch} (h : m.launches.cells.filter (testsAgain ctx) = [(k, l)]) (mg : Mgmt) :
    m.retestDeps mg ctx = (m.testDeps mg l k 0 l.rec_.deps).2.modLaunch k fun x =>
      { x with rec_ := { x.rec_ with deps := (m.testDeps mg l k 0 l.rec_.deps).1 } } := by
  have hfold : m.retestDeps mg ctx = (m.launches.cells.filter (testsAgain ctx)).foldl _ m := rfl
  rw [hfold, h, List.foldl_cons, List.foldl_nil]

end Sys2Proof.Machine

open Sys2Proof Sys2Proof.Machine

/-- Settles O42: RESOLVE changes paused commands alone and FAILPG, where none is paused, settles the region; a failing command is taken
away (`Mach.mxFailed_failed`) before its block is held (`Mach.engineHold_held`); an invalidation is read off `Mach.tlbInv_eq`, and its
end off what still uses a translation (`Mach.invalHeld_iff`). -/
theorem pageFaultsAndTlbs : Obligations.PageFaultsAndTlbs := by
  unfold Obligations.PageFaultsAndTlbs
  refine ⟨⟨?_, ?_, ?_, ?_⟩, ?_, ?_⟩
  · intro s ctx r hon hr
    exact ⟨onCommand_idle (f := fun _ m => m.resolveRegion ctx r.toNat) hon (Mach.resolveRegion_unreported hr),
      onCommand_idle (f := fun mg m => m.failRegion mg ctx r.toNat) hon (Mach.failRegion_unreported hr _)⟩
  · intro s ctx r hon ht hc hr
    refine does_onCommand hon ht (f := fun _ m => m.resolveRegion ctx r.toNat) rfl ?_
    have he : s.mach.resolveRegion ctx r.toNat = (s.mach.mapCommands fun c =>
        if s.mach.pausedOn ctx r.toNat c then { c with fwait := none } else c).settleRegion ctx r.toNat := by
      simp [Mach.resolveRegion, hr]
    rw [he]
    obtain ⟨hun, hrep⟩ := Mach.settleRegion_ctx (m := s.mach.mapCommands fun c =>
      if s.mach.pausedOn ctx r.toNat c then { c with fwait := none } else c) hc r.toNat
    exact ⟨⟨rfl, rfl, rfl⟩, fun bid k x => congrArg _ (s.mach.warp?_mapCommands _ bid k), hun, hrep, s.mach.mapCommands_mq _⟩
  · intro s ctx r hon ht hc hr hp
    refine does_onCommand hon ht (f := fun mg m => m.failRegion mg ctx r.toNat) rfl ?_
    rw [Mach.failRegion_unpaused hr hp]
    exact ⟨rfl, rfl, ⟨rfl, rfl, rfl⟩, Mach.settleRegion_ctx hc r.toNat⟩
  · intro m mg core cause va c rest b hq hb hr hc hl
    obtain ⟨hqueue, htile, ⟨warps, hblock⟩, ⟨hmem, hhost, hpeer⟩, hctxs, hlaunches⟩ := Mach.mxFailed_failed (core := core) hb hr rest
    obtain ⟨hcores, ⟨hmem', hhost', hpeer'⟩, ⟨warps', hblock'⟩, hhold, hentry⟩ :=
      Mach.engineHold_held hblock (kind := 3) (by rwa [hctxs])
      (by decide) (fun l h => hl l (by rwa [Mach.launch?, hlaunches] at h)) mg (mxRecord b c cause va)
    have hctx (m' : Mach) (k : Nat) (h : m'.ctxs = m.ctxs) : m'.ctx k = m.ctx k := by rw [Mach.ctx, h, Mach.ctx]
    have hcore (k : Nat) : ((m.mxFailed core c rest).engineHold mg c.bid 3 (mxRecord b c cause va)).core k =
        (m.mxFailed core c rest).core k := by
      rw [Mach.core, hcores, Mach.core]
    dsimp only at hhold hentry
    rw [hctx _ _ hctxs] at hhold hentry
    dsimp only
    rw [Mach.mxError_eq hq hb, hcore]
    exact ⟨hqueue, ⟨hmem'.trans hmem, hhost'.trans hhost, hpeer'.trans hpeer⟩, htile, ⟨_, hblock', rfl⟩, hhold, hentry⟩
  · intro s ctx x hon ht hc hi first count named
    obtain ⟨ids, drains, he⟩ := Mach.tlbInv_eq hc hi x
    refine does_onCommand hon ht (f := fun _ m => m.tlbInv ctx x) rfl ?_
    rw [he]
    refine ⟨⟨rfl, rfl, rfl⟩, rfl, fun e => ?_, fun y => ?_, _, by rw [Mach.ctx_modCtx, if_pos ⟨rfl, hc⟩], rfl, rfl, rfl,
      fun d hd hctx => ?_⟩
    · exact mem_dropTlb.trans (by rw [Inval.drops_iff]; rfl)
    · refine mem_filter_drained.trans ?_
      simp only [Bool.and_eq_true, beq_iff_eq, Inval.names_iff, and_assoc]
      rfl
    · exact mem_dedup.2 (List.mem_map_of_mem (List.mem_filter.2 ⟨hd, by simpa using hctx⟩))
  · intro s ctx i hon hc hi used again clear
    have hused : used ↔ s.mach.invalHeld ctx i = true := Mach.invalHeld_iff.symm
    refine ⟨fun hu => ?_, fun hu hnone => ?_, fun k l hu hone => ?_⟩
    · show execTlbInvComplete ctx s = _
      rw [execTlbInvComplete, onEvent_on hon, Mach.tlbInvDone_held hi (hused.1 hu)]
    · refine does_onEvent hon (f := fun mg m => m.tlbInvDone mg ctx) rfl ?_
      rw [Mach.tlbInvDone_free hi (fun h => hu (hused.2 h)), Mach.retestDeps_none (m := s.mach.invalCleared ctx i) hnone]
      refine ⟨?_, fun e he => ?_, ⟨rfl, rfl, rfl⟩, rfl⟩
      · rw [Mach.invalCleared, Mach.ctx_modCtx, if_pos ⟨rfl, hc⟩]
      · exact (mem_dropTlb.1 he).2
    · show execTlbInvComplete ctx s = _
      rw [execTlbInvComplete, onEvent_on hon, Mach.tlbInvDone_free hi (fun h => hu (hused.2 h)),
        Mach.retestDeps_one (m := s.mach.invalCleared ctx i) hone]
      rfl

end

section
/-! SUPPORT. Accesses of engines (R125, R219, R226): what each leaves of the units, and those that cached ordinary pages serve. -/

namespace Sys2Proof.Machine

/-! ## What an access leaves of the units -/

/-- Blocks are as they were, and of each core nothing but the L1 differs. -/
structure Mach.KeepsUnits (m m' : Mach) : Prop where
  blocks : m'.blocks = m.blocks
  cores  : ∀ k, ∃ l1, m'.core k = { m.core k with l1 := l1 }

theorem Mach.KeepsUnits.of_eq {m m' : Mach} (hb : m'.blocks = m.blocks) (hc : m'.cores = m.cores) : m.KeepsUnits m' :=
  ⟨hb, fun k => ⟨(m.core k).l1, by rw [Mach.core, hc]; rfl⟩⟩

theorem Mach.KeepsUnits.refl (m : Mach) : m.KeepsUnits m := .of_eq rfl rfl

theorem Mach.KeepsUnits.trans {a b c : Mach} (h : a.KeepsUnits b) (g : b.KeepsUnits c) : a.KeepsUnits c :=
  ⟨g.blocks.trans h.blocks, fun k => by
    obtain ⟨x, hx⟩ := h.cores k
    obtain ⟨y, hy⟩ := g.cores k
    exact ⟨y, by rw [hy, hx]⟩⟩

/-- A change that touches neither blocks nor cores, after one that spares the units. -/
theorem Mach.KeepsUnits.then {a b c : Mach} (h : a.KeepsUnits b) (hb : c.blocks = b.blocks) (hc : c.cores = b.cores) : a.KeepsUnits c :=
  h.trans (.of_eq hb hc)

theorem Mach.KeepsUnits.foldl {β : Type} {f : Mach → β → Mach} (h : ∀ (m : Mach) b, m.KeepsUnits (f m b)) (l : List β) (m : Mach) :
    m.KeepsUnits (l.foldl f m) :=
  List.foldlRecOn (motive := fun x => m.KeepsUnits x) l f (.refl m) fun x hx b _ => hx.trans (h x b)

section
variable {m m' : Mach} (h : m.KeepsUnits m')
include h

theorem Mach.KeepsUnits.mq (k : Nat) : (m'.core k).mq = (m.core k).mq := by obtain ⟨_, e⟩ := h.cores k; rw [e]
theorem Mach.KeepsUnits.tiles (k : Nat) : (m'.core k).tiles = (m.core k).tiles := by obtain ⟨_, e⟩ := h.cores k; rw [e]

end

theorem Mach.Raises.keepsUnits {m m' : Mach} (h : m.Raises m') : m.KeepsUnits m' := by
  obtain ⟨_, _, rfl⟩ := h
  exact .of_eq rfl rfl

/-! ## Ordering points and L2 -/

/-- What serving an access changes in no core and no TLB. -/
structure Mach.Ordered (m m' : Mach) : Prop where
  served : m.Served m'
  cores  : m'.cores = m.cores
  tlb    : m'.tlb = m.tlb

theorem Mach.Ordered.refl (m : Mach) : m.Ordered m := ⟨.refl m, rfl, rfl⟩

theorem Mach.Ordered.trans {a b c : Mach} (h : a.Ordered b) (g : b.Ordered c) : a.Ordered c :=
  ⟨h.served.trans g.served, g.cores.trans h.cores, g.tlb.trans h.tlb⟩

theorem Mach.Ordered.withMem {m m' : Mach} (h : m.Ordered m') (x : Mem) : ({ m with mem := x } : Mach).Ordered { m' with mem := x } :=
  ⟨h.served.withMem x, h.cores, h.tlb⟩

theorem Mach.Served.blocks {m m' : Mach} (h : m.Served m') : m'.blocks = m.blocks := by
  obtain ⟨_, _, _, _, _, _, _, _, _, _, _, _, rfl⟩ := h; rfl

theorem Mach.Ordered.keepsUnits {m m' : Mach} (h : m.Ordered m') : m.KeepsUnits m' := .of_eq h.served.blocks h.cores

theorem Mach.recallFor_ordered (m : Mach) (cluster : Option Nat) (line : Nat) : m.Ordered (m.recallFor cluster line) := by
  have hunhold : (m.unhold line).cores = m.cores ∧ (m.unhold line).tlb = m.tlb := by
    unfold Mach.unhold
    split <;> exact ⟨rfl, rfl⟩
  have hrecall : (m.recallFor cluster line).cores = (m.unhold line).cores ∧ (m.recallFor cluster line).tlb = (m.unhold line).tlb := by
    unfold Mach.recallFor
    dsimp only
    split
    · exact ⟨rfl, rfl⟩
    · split_ifs <;> exact ⟨rfl, rfl⟩
  exact ⟨m.recallFor_served .., hrecall.1.trans hunhold.1, hrecall.2.trans hunhold.2⟩

theorem Mach.leaseLine_ordered (m : Mach) (line pts : Nat) : m.Ordered (m.leaseLine line pts).2 := ⟨m.leaseLine_served .., rfl, rfl⟩

theorem Mach.stampLine_ordered (m : Mach) (line pts : Nat) : m.Ordered (m.stampLine line pts).2 := ⟨m.stampLine_served .., rfl, rfl⟩

theorem Mach.allocLine_ordered (m : Mach) (mg : Mgmt) (dev : Nat) (tc : Traffic) (write sealed_ : Bool) (line : Nat) :
    m.Ordered (m.allocLine mg dev tc write sealed_ line) := by
  have hwatch : (m.watchLine mg dev line).cores = m.cores := by
    unfold Mach.watchLine
    dsimp only
    split_ifs <;> rfl
  refine ⟨m.allocLine_served .., Eq.trans ?_ hwatch, ?_⟩
  · unfold Mach.allocLine
    lift_lets
    intro watched used
    split
    · rfl
    · split
      · rfl
      · split <;> rfl
  · obtain ⟨_, _, _, _, _, e⟩ := m.allocLine_caches mg dev tc write sealed_ line
    rw [e]

/-! ## Parts at the device, through any page -/

theorem Mach.setL1_keepsUnits (m : Mach) (core line : Nat) (c : L1Copy) : m.KeepsUnits (m.setL1 core line c) :=
  ⟨rfl, fun k => by
    rw [Mach.setL1, Mach.core_modCore]
    split_ifs with e
    · exact ⟨_, by rw [e]⟩
    · exact ⟨_, rfl⟩⟩

theorem Mach.dropL1_keepsUnits (m : Mach) (core line : Nat) : m.KeepsUnits (m.dropL1 core line) :=
  ⟨rfl, fun k => by
    rw [Mach.dropL1, Mach.core_modCore]
    split_ifs with e
    · exact ⟨_, by rw [e]⟩
    · exact ⟨(m.core k).l1, by rw [e]⟩
    · exact ⟨_, rfl⟩⟩

theorem Mach.putBytes_keepsUnits (m : Mach) (world : Option (Option Nat)) (pa : Nat) (bs : List Byte) :
    m.KeepsUnits (m.putBytes world pa bs) := by
  have hclear : m.KeepsUnits (m.clearGranule (granuleOf pa)) := by
    unfold Mach.clearGranule
    split_ifs
    · exact .of_eq rfl rfl
    · exact .refl m
  have hopen (m : Mach) : m.KeepsUnits (m.openLine world (lineOf pa)) := by
    unfold Mach.openLine
    split
    · exact .refl m
    · split_ifs
      · exact .of_eq rfl rfl
      · exact .refl m
    · split_ifs <;> exact .of_eq rfl rfl
    · exact .of_eq rfl rfl
  exact (hclear.trans (hopen _)).then rfl rfl

theorem Mach.loadDev_keepsUnits (m : Mach) (mg : Mgmt) (a : Actor) (l : Leaf) (tc : Traffic) (damp : Bool) (pa n pts : Nat) :
    m.KeepsUnits (m.loadDev mg a l tc damp pa n pts).2.2 := by
  have hlease := ((m.recallFor_ordered (some (clusterOf a.core)) (lineOf pa)).trans (Mach.leaseLine_ordered _ (lineOf pa) pts)).keepsUnits
  unfold Mach.loadDev
  dsimp only
  split
  · split_ifs
    · exact .of_eq rfl rfl
    · exact (hlease.trans (Mach.setL1_keepsUnits ..)).trans (Mach.allocLine_ordered ..).keepsUnits
  · have halloc := fun m' : Mach => (m'.allocLine_ordered mg (deviceOf a.ctx) tc false l.sealed (lineOf pa)).keepsUnits
    dsimp only
    split_ifs
    · exact (hlease.trans (halloc _)).trans (Mach.setL1_keepsUnits ..)
    · exact hlease.trans (halloc _)

theorem Mach.storeDev_keepsUnits (m : Mach) (mg : Mgmt) (a : Actor) (l : Leaf) (tc : Traffic) (pa : Nat) (bs : List Byte) (pts : Nat) :
    m.KeepsUnits (m.storeDev mg a l tc pa bs pts).2 := by
  have hstamp := ((m.recallFor_ordered (some (clusterOf a.core)) (lineOf pa)).trans (Mach.stampLine_ordered _ (lineOf pa) pts)).keepsUnits
  have hput := fun world => (hstamp.trans (Mach.putBytes_keepsUnits _ world pa bs)).trans
    (Mach.allocLine_ordered _ mg (deviceOf a.ctx) tc true l.sealed (lineOf pa)).keepsUnits
  unfold Mach.storeDev
  dsimp only
  split_ifs
  · exact (hput _).trans (Mach.setL1_keepsUnits ..)
  · exact hput _

theorem Mach.rmwDev_keepsUnits (m : Mach) (mg : Mgmt) (a : Actor) (l : Leaf) (pa n : Nat) (f : List Byte → Option (List Byte)) (pts : Nat) :
    m.KeepsUnits (m.rmwDev mg a l false pa n f pts).2.2 := by
  have hstamp := ((m.recallFor_ordered (some (clusterOf a.core)) (lineOf pa)).trans (Mach.stampLine_ordered _ (lineOf pa) pts)).keepsUnits
  unfold Mach.rmwDev
  simp only [Bool.false_eq_true, if_false]
  refine .trans (.trans hstamp ?_) (Mach.dropL1_keepsUnits ..)
  split
  · exact (Mach.allocLine_ordered ..).keepsUnits
  · exact (Mach.putBytes_keepsUnits ..).trans (Mach.allocLine_ordered ..).keepsUnits

/-! ## Wrings and translation -/

theorem Mach.applyDrain_keepsUnits (m : Mach) (d : Drain) : m.KeepsUnits (m.applyDrain d) := by
  have hshare : m.KeepsUnits (({ m with drains := m.drains.filter (·.id != d.id) } : Mach).releaseShare d.line d.holder) := .of_eq rfl rfl
  have hstamp := hshare.trans ((Mach.recallFor_ordered _ none d.line).trans (Mach.stampLine_ordered _ d.line 0)).keepsUnits
  unfold Mach.applyDrain
  dsimp only
  split_ifs
  · exact hshare.then rfl rfl
  · exact hstamp.trans (.foldl (fun m c => Mach.putBytes_keepsUnits m ..) _ _)

theorem Mach.wringNow_keepsUnits (m : Mach) (line : Nat) : m.KeepsUnits (m.wringNow line) := by
  have hdrain : m.KeepsUnits (m.drainAll (·.line == line)) :=
    .foldl (f := fun m t => m.drainTracker t (m.regionInt t.ctx t.region)) (fun m t => .of_eq rfl rfl) _ _
  exact hdrain.trans (.foldl Mach.applyDrain_keepsUnits _ _)

theorem Mach.wringLoc_keepsUnits (m : Mach) (ctx : Nat) (l : Loc) : m.KeepsUnits (m.wringLoc ctx l) := by
  unfold Mach.wringLoc
  cases l.place with
  | dev pa =>
    dsimp only
    split_ifs
    · exact .foldl Mach.wringNow_keepsUnits _ _
    · exact .refl m
  | host | peer | spad => exact .refl m

theorem Mach.readEntry_ordered (m : Mach) (pa : Nat) : m.Ordered (m.readEntry pa).2 := by
  unfold Mach.readEntry
  split_ifs
  · exact .refl m
  · exact (m.recallFor_ordered ..).trans (Mach.leaseLine_ordered ..)

theorem Mach.walk_ordered (m : Mach) (table va : Nat) (lvs : List Level) : m.Ordered (m.walk table va lvs).2 := by
  induction lvs generalizing m table with
  | nil => exact .refl m
  | cons lv rest ih =>
    have hread := m.readEntry_ordered (table + 8 * ((va >>> lv.shift) % 2 ^ lv.bits))
    unfold Mach.walk
    dsimp only
    generalize m.readEntry (table + 8 * ((va >>> lv.shift) % 2 ^ lv.bits)) = e at hread ⊢
    obtain ⟨_ | x, m1⟩ := e
    · dsimp only
      split_ifs
      · exact .refl m
      · exact hread
    · dsimp only
      split_ifs
      · exact .refl m
      · exact hread
      · cases lv.log with
        | none => exact hread
        | some z =>
          dsimp only
          split_ifs <;> exact hread
      · exact hread
      · exact hread.trans (ih m1 _)

theorem Mach.translate_keepsUnits (m : Mach) (a : Actor) (va : Nat) : m.KeepsUnits (m.translate a va).2 := by
  have hwalk := (m.walk_ordered (m.ctx a.ctx).ptRoot va levels).keepsUnits
  unfold Mach.translate
  dsimp only
  split
  · exact .refl m
  · split
    · exact .refl m
    · generalize m.walk (m.ctx a.ctx).ptRoot va levels = e at hwalk ⊢
      obtain ⟨_ | l, m1⟩ := e
      · exact hwalk
      · refine hwalk.trans ?_
        dsimp only
        split_ifs
        · exact .refl m1
        · exact .of_eq rfl rfl

theorem Mach.locate1_keepsUnits (m : Mach) (mg : Mgmt) (a : Actor) (va n : Nat) : m.KeepsUnits (m.locate1 mg a va n).2 := by
  have htrans := m.translate_keepsUnits a va
  unfold Mach.locate1
  generalize m.translate a va = e at htrans ⊢
  obtain ⟨_ | l, m1⟩ := e
  · exact htrans
  · dsimp only
    split_ifs
    · exact htrans
    · cases m1.placeOf mg a.ctx l va <;> exact htrans

/-! ## Accesses of an engine, through any pages -/

theorem Mach.engLocate_keepsUnits (m : Mach) (mg : Mgmt) (a : Actor) (reach : Reach) (ps : List (Nat × Nat)) :
    m.KeepsUnits (m.engLocate mg a reach ps).2 := by
  induction ps generalizing m with
  | nil => exact .refl m
  | cons x r ih =>
    obtain ⟨va, n⟩ := x
    have hloc := m.locate1_keepsUnits mg a va n
    unfold Mach.engLocate
    generalize m.locate1 mg a va n = e at hloc ⊢
    obtain ⟨p, m1⟩ := e
    have hrest := hloc.trans (ih m1)
    dsimp only
    split
    · exact hloc
    · exact hloc
    · split_ifs
      · exact hloc
      · generalize m1.engLocate mg a reach r = e at hrest ⊢
        obtain ⟨_ | ls, m2⟩ := e <;> exact hrest

theorem Mach.engLoad_keepsUnits (m : Mach) (mg : Mgmt) (a : Actor) (tc : Traffic) (l : Loc) : m.KeepsUnits (m.engLoad mg a tc l).2 := by
  refine (m.wringLoc_keepsUnits a.ctx l).trans ?_
  unfold Mach.engLoad
  dsimp only
  refine List.foldlRecOn (motive := fun x : List Byte × Mach => (m.wringLoc a.ctx l).KeepsUnits x.2) _ _ (.refl _) fun acc h x _ => h.trans ?_
  split
  · exact Mach.loadDev_keepsUnits ..
  · exact .of_eq (by unfold Mach.touchHost; split_ifs <;> rfl) (by unfold Mach.touchHost; split_ifs <;> rfl)
  · exact .refl _
  · exact .refl _

theorem Mach.engRuns_keepsUnits (m : Mach) (mg : Mgmt) (a : Actor) (reach : Reach) (tc : Traffic) (va n : Nat) :
    m.KeepsUnits (m.engRuns mg a reach tc va n).2 := by
  have hloc := m.engLocate_keepsUnits mg a reach (pageCuts va n)
  unfold Mach.engRuns
  generalize m.engLocate mg a reach (pageCuts va n) = e at hloc ⊢
  obtain ⟨_ | ls, m1⟩ := e
  · exact hloc
  · dsimp only
    split
    · exact hloc
    · exact hloc.trans (List.foldlRecOn (motive := fun x : List Byte × Mach => m1.KeepsUnits x.2) _ _ (.refl _) fun acc h l _ =>
        h.trans (Mach.engLoad_keepsUnits ..))

theorem Mach.engRead_keepsUnits (m : Mach) (mg : Mgmt) (a : Actor) (tc : Traffic) (va n : Nat) : m.KeepsUnits (m.engRead mg a tc va n).2 := by
  have hruns := m.engRuns_keepsUnits mg a .tiers tc va n
  unfold Mach.engRead
  generalize m.engRuns mg a .tiers tc va n = e at hruns ⊢
  obtain ⟨_ | ⟨bs, runs⟩, m1⟩ := e <;> exact hruns

theorem Mach.engDest_keepsUnits (m : Mach) (mg : Mgmt) (a : Actor) (reach : Reach) (data : Mask) (va n : Nat) :
    m.KeepsUnits (m.engDest mg a reach data va n).2 := by
  have hloc := m.engLocate_keepsUnits mg a reach (pageCuts va n)
  unfold Mach.engDest
  generalize m.engLocate mg a reach (pageCuts va n) = e at hloc ⊢
  obtain ⟨_ | ls, m1⟩ := e
  · exact hloc
  · dsimp only
    split <;> exact hloc

theorem Mach.engFar_keepsUnits (m : Mach) (ctx : Nat) (p : Place) (va : Nat) (bs : List Byte) : m.KeepsUnits (m.engFar ctx p va bs) := by
  unfold Mach.engFar
  split
  · split_ifs
    · exact (m.postError_raises ..).keepsUnits
    · unfold Mach.touchHost
      split_ifs <;> exact .of_eq rfl rfl
  · split_ifs
    · exact .of_eq rfl rfl
    · exact .of_eq rfl rfl
  · exact .refl m
  · exact .refl m

theorem Mach.engStore_keepsUnits (m : Mach) (mg : Mgmt) (a : Actor) (tc : Traffic) (ls : List Loc) (bs : List Byte) :
    m.KeepsUnits (m.engStore mg a tc ls bs).2 := by
  unfold Mach.engStore
  dsimp only
  obtain ⟨bad, he⟩ := Mach.healDev_bad _ (devRanges ls)
  rw [he]
  refine .then (List.foldlRecOn (motive := fun x : Nat × List Byte × Mach => m.KeepsUnits x.2.2) ls _ (.refl _)
    fun acc h l _ => h.trans ?_) rfl rfl
  refine (acc.2.2.wringLoc_keepsUnits a.ctx l).trans ?_
  refine List.foldlRecOn (motive := fun x : Nat × Mach => (acc.2.2.wringLoc a.ctx l).KeepsUnits x.2) _ _ (.refl _) fun ac h x _ => h.trans ?_
  split
  · exact Mach.storeDev_keepsUnits ac.2 mg a l.leaf tc _ _ 0
  · exact Mach.engFar_keepsUnits ..
  · exact Mach.engFar_keepsUnits ..
  · exact .refl _

end Sys2Proof.Machine
end

section
/-! SUPPORT. Accesses of engines that cached ordinary pages serve (R125, R219, R222, R226). -/

namespace Sys2Proof.Machine

/-! ## What the outcome of an access depends on -/

/-- Bytes, contexts and TLBs are as they were. -/
structure Mach.Alike (m m' : Mach) : Prop where
  memory : sameMemory m m'
  pages  : m'.tlb = m.tlb ∧ m'.ctxs = m.ctxs
  bytes  : m'.bad = m.bad ∧ m'.scrub = m.scrub ∧ m'.side = m.side

theorem Mach.Alike.refl (m : Mach) : m.Alike m := ⟨⟨rfl, rfl, rfl⟩, ⟨rfl, rfl⟩, ⟨rfl, rfl, rfl⟩⟩

theorem Mach.Alike.trans {a b c : Mach} (h : a.Alike b) (g : b.Alike c) : a.Alike c := by
  obtain ⟨⟨h1, h2, h3⟩, ⟨h4, h5⟩, h6, h7, h8⟩ := h
  obtain ⟨⟨g1, g2, g3⟩, ⟨g4, g5⟩, g6, g7, g8⟩ := g
  exact ⟨⟨g1.trans h1, g2.trans h2, g3.trans h3⟩, ⟨g4.trans h4, g5.trans h5⟩, g6.trans h6, g7.trans h7, g8.trans h8⟩

theorem Mach.modCore_alike (m : Mach) (core : Nat) (f : Core → Core) : m.Alike (m.modCore core f) :=
  ⟨⟨rfl, rfl, rfl⟩, ⟨rfl, rfl⟩, ⟨rfl, rfl, rfl⟩⟩

theorem Mach.Ordered.alike {m m' : Mach} (h : m.Ordered m') : m.Alike m' := by
  obtain ⟨hserved, -, htlb⟩ := h
  obtain ⟨_, _, _, _, _, _, _, _, _, _, _, _, rfl⟩ := hserved
  exact ⟨⟨rfl, rfl, rfl⟩, ⟨htlb, rfl⟩, ⟨rfl, rfl, rfl⟩⟩

section
variable {m m' : Mach} (h : m.Alike m')
include h

theorem Mach.Alike.cachedLeaf (a : Actor) (va : Nat) : m'.cachedLeaf a va = m.cachedLeaf a va := by
  simp only [Mach.cachedLeaf, Mach.ctx, h.pages]
  rfl

theorem Mach.Alike.plain {pa n : Nat} (hp : plainRange m pa n) : plainRange m' pa n := by
  obtain ⟨hbad, hscrub, hside⟩ := h.bytes
  obtain ⟨hg, hc, hu⟩ := hp
  exact ⟨by simpa only [Mach.badRange, hbad] using hg, by rwa [hscrub], by rwa [hside]⟩

theorem Mach.Alike.reaches {a : Actor} {va n : Nat} {ok : Leaf → Prop} (hr : Reaches m a va n ok) : Reaches m' a va n ok := fun x hx => by
  obtain ⟨l, hl, ho, hp, hok⟩ := hr x hx
  exact ⟨l, (h.cachedLeaf a x.1).trans hl, ho, h.plain hp, hok⟩

theorem Mach.Alike.bytesAt (a : Actor) (va n : Nat) : m'.bytesAt a va n = m.bytesAt a va n := by
  simp only [Mach.bytesAt, h.cachedLeaf, h.memory.1]

end

/-! ## Translation (R288, R290) -/

/-- What locations a cached page gives. -/
def Leaf.loc (l : Leaf) (x : Nat × Nat) : Loc := ⟨.dev (l.at x.1), x.1, x.2, l⟩

theorem Mach.locate1_cached {m : Mach} {a : Actor} {va : Nat} {l : Leaf} (h : m.cachedLeaf a va = some l) (ho : l.ordinary) (mg : Mgmt)
    (n : Nat) : m.locate1 mg a va n = (⟨va, n, .ok (l.loc (va, n))⟩, m) := by
  obtain ⟨hs, -, ht⟩ := ho
  unfold Mach.cachedLeaf at h
  split_ifs at h with hen
  obtain ⟨e, he, rfl⟩ := Option.map_eq_some_iff.1 h
  have htrans : m.translate a va = (.ok e.leaf, m) := by
    unfold Mach.translate
    simp only [hen.1, he, Bool.not_true, Bool.false_or, decide_eq_true_eq, if_neg (Nat.not_le.2 hen.2)]
  have hplace : m.placeOf mg a.ctx e.leaf va = .ok (.dev (e.leaf.at va)) := by
    unfold Mach.placeOf
    simp only [if_neg (show e.leaf.tier ≠ 2 by omega), if_neg (show e.leaf.tier ≠ 3 by omega)]
    rfl
  simp only [Mach.locate1, htrans, hs, Bool.false_and, Bool.false_eq_true, if_false, hplace]
  rfl

/-- The locations that the cached pages give for pieces. -/
def Mach.pageLocs (m : Mach) (a : Actor) (ps : List (Nat × Nat)) : List Loc :=
  ps.filterMap fun x => (m.cachedLeaf a x.1).map (·.loc x)

theorem Reach.takes_dev (r : Reach) (pa : Nat) : r.takes (.dev pa) = true := rfl

theorem Mach.engLocate_cached {m : Mach} {a : Actor} {ps : List (Nat × Nat)}
    (h : ∀ x ∈ ps, ∃ l, m.cachedLeaf a x.1 = some l ∧ l.ordinary) (mg : Mgmt) (reach : Reach) : m.engLocate mg a reach ps = (.ok (m.pageLocs a ps), m) := by
  induction ps with
  | nil => rfl
  | cons x r ih =>
    obtain ⟨l, hl, ho⟩ := h x (by simp)
    have hlocs : m.pageLocs a (x :: r) = l.loc x :: m.pageLocs a r := by simp [Mach.pageLocs, hl]
    have htakes : reach.takes (l.loc x).place = true := reach.takes_dev _
    simp only [Mach.engLocate, Mach.locate1_cached hl ho, htakes, ih fun y hy => h y (by simp [hy]), hlocs, Bool.not_true,
      Bool.false_eq_true, if_false]

theorem Mach.engLocate_reaches {m : Mach} {a : Actor} {va n : Nat} {ok : Leaf → Prop} (h : Reaches m a va n ok) (mg : Mgmt) (reach : Reach) :
    m.engLocate mg a reach (pageCuts va n) = (.ok (m.pageLocs a (pageCuts va n)), m) :=
  Mach.engLocate_cached (fun x hx => by obtain ⟨l, hl, ho, -⟩ := h x hx; exact ⟨l, hl, ho⟩) mg reach

theorem mem_pageLocs {m : Mach} {a : Actor} {ps : List (Nat × Nat)} {y : Loc} :
    y ∈ m.pageLocs a ps ↔ ∃ x ∈ ps, ∃ l, m.cachedLeaf a x.1 = some l ∧ l.loc x = y := by
  simp [Mach.pageLocs, List.mem_filterMap]

theorem Reaches.mem_pageLocs {m : Mach} {a : Actor} {va n : Nat} {ok : Leaf → Prop} (h : Reaches m a va n ok) {y : Loc}
    (hy : y ∈ m.pageLocs a (pageCuts va n)) : y.leaf.ordinary ∧ ok y.leaf ∧ ∃ pa, y.place = .dev pa ∧ plainRange m pa y.n := by
  obtain ⟨x, hx, l, hl, rfl⟩ := Machine.mem_pageLocs.1 hy
  obtain ⟨l', hl', ho, hp, hok⟩ := h x hx
  obtain rfl : l = l' := Option.some.inj (hl.symm.trans hl')
  exact ⟨ho, hok, _, rfl, hp⟩

/-! ## Reads -/

/-- One part of an engine's read, after the bytes of the parts before it. -/
def loadOn (mg : Mgmt) (a : Actor) (l : Leaf) (tc : Traffic) (acc : List Byte × Mach) (x : Nat × Nat) : List Byte × Mach :=
  (acc.1 ++ (acc.2.loadDev mg a l tc false x.1 x.2 0).1, (acc.2.loadDev mg a l tc false x.1 x.2 0).2.2)

section
variable {m : Mach} {a : Actor} (ha : a.lane = false)
include ha

theorem Mach.loadDev_ordered (mg : Mgmt) (l : Leaf) (tc : Traffic) (damp : Bool) (pa n pts : Nat) :
    m.Ordered (m.loadDev mg a l tc damp pa n pts).2.2 := by
  have hlease := (m.recallFor_ordered (some (clusterOf a.core)) (lineOf pa)).trans (Mach.leaseLine_ordered _ (lineOf pa) pts)
  unfold Mach.loadDev
  simp only [ha, Bool.false_and, Bool.false_eq_true, if_false]
  exact hlease.trans (Mach.allocLine_ordered ..)

theorem loadOn_tiles {l : Leaf} (hs : l.sealed = false) {pa n : Nat} {ps : List (Nat × Nat)} (h : Tiles pa n ps) (hp : plainRange m pa n)
    (mg : Mgmt) (tc : Traffic) (acc : List Byte) : (ps.foldl (loadOn mg a l tc) (acc, m)).1 = acc ++ memRead m.mem pa n ∧
      m.Ordered (ps.foldl (loadOn mg a l tc) (acc, m)).2 := by
  induction ps generalizing pa n m acc with
  | nil => cases h; exact ⟨(List.append_nil _).symm, .refl m⟩
  | cons x r ih =>
    obtain ⟨h1, h2, h3, hr⟩ := h
    obtain ⟨hbs, -⟩ := Mach.loadDev_plain ha hs (hp.part h1.ge (by omega) : plainRange m x.1 x.2) mg tc false 0
    have hord := m.loadDev_ordered ha mg l tc false x.1 x.2 0
    obtain ⟨g1, g2⟩ := ih hr (hord.alike.plain (hp.part (by omega) (by omega))) (acc ++ memRead m.mem x.1 x.2)
    rw [List.foldl_cons]
    simp only [loadOn, hbs] at g1 g2 ⊢
    refine ⟨g1.trans ?_, hord.trans g2⟩
    rw [List.append_assoc, hord.alike.memory.1, h1, ← memRead_append, Nat.add_sub_cancel' h3]

/-- A location in an ordinary page is read where it lies. -/
theorem Mach.engLoad_plain {y : Loc} {pa : Nat} (ho : y.leaf.ordinary) (hy : y.place = .dev pa) (hp : plainRange m pa y.n) (mg : Mgmt)
    (tc : Traffic) : (m.engLoad mg a tc y).1 = memRead m.mem pa y.n ∧ m.Ordered (m.engLoad mg a tc y).2 := by
  obtain ⟨hs, hd, -⟩ := ho
  have hfold := loadOn_tiles ha hs (tiles_units (a := pa)) hp mg tc []
  have he : m.engLoad mg a tc y = (unitPieces 32 (y.n / 32 + 2) pa y.n).foldl (loadOn mg a y.leaf tc) ([], m) := by
    unfold Mach.engLoad
    simp only [Mach.wringLoc_ordinary hd, partsOf, hy, List.foldl_map]
    rfl
  rw [he]
  exact hfold

/-- The locations of the pieces of a range, one after another. -/
theorem Mach.engLoads_plain {m0 : Mach} (hm : m0.Ordered m) {ps : List (Nat × Nat)} {ok : Leaf → Prop}
    (h : ∀ x ∈ ps, ∃ l, m0.cachedLeaf a x.1 = some l ∧ l.ordinary ∧ plainRange m0 (l.at x.1) x.2 ∧ ok l) (mg : Mgmt) (tc : Traffic)
    (acc : List Byte) :
    let r := (m0.pageLocs a ps).foldl (fun (acc : List Byte × Mach) l => (acc.1 ++ (acc.2.engLoad mg a tc l).1, (acc.2.engLoad mg a tc l).2))
      (acc, m)
    r.1 = acc ++ (ps.flatMap fun x => ((m0.cachedLeaf a x.1).map fun l => memRead m0.mem (l.at x.1) x.2).getD []) ∧ m0.Ordered r.2 := by
  induction ps generalizing m acc with
  | nil => exact ⟨(List.append_nil _).symm, hm⟩
  | cons x r ih =>
    obtain ⟨l, hl, ho, hp, -⟩ := h x (by simp)
    have hlocs : m0.pageLocs a (x :: r) = l.loc x :: m0.pageLocs a r := by simp [Mach.pageLocs, hl]
    obtain ⟨hbs, hord⟩ := Mach.engLoad_plain ha (y := l.loc x) ho rfl (hm.alike.plain hp) mg tc
    obtain ⟨g1, g2⟩ := ih (hm.trans hord) (fun y hy => h y (by simp [hy])) (acc ++ (m.engLoad mg a tc (l.loc x)).1)
    have hread : (m.engLoad mg a tc (l.loc x)).1 = memRead m0.mem (l.at x.1) x.2 := by rw [hbs, hm.alike.memory.1]; rfl
    rw [hlocs]
    refine ⟨g1.trans ?_, g2⟩
    simp only [hread, List.flatMap_cons, hl, Option.map_some, Option.getD_some, List.append_assoc]

/-- What cached ordinary pages serve is read as memory has it. -/
theorem Mach.engRead_reaches {va n : Nat} {ok : Leaf → Prop} (h : Reaches m a va n ok) (mg : Mgmt) (tc : Traffic) :
    ∃ t m', m.engRead mg a tc va n = (.ok (m.bytesAt a va n, t), m') ∧ m.Ordered m' := by
  obtain ⟨hbs, hord⟩ := Mach.engLoads_plain ha (.refl m) h mg tc []
  have hgood : badLoc m mg a (m.pageLocs a (pageCuts va n)) = none := by
    have hnone : m.dataCauses mg a (m.pageLocs a (pageCuts va n)) = [] := by
      refine List.flatMap_eq_nil_iff.2 fun y hy => List.filterMap_eq_nil_iff.2 fun x hx => ?_
      obtain ⟨⟨hs, -⟩, -, pa, hplace, hp⟩ := h.mem_pageLocs hy
      simp only [partsOf, hplace, List.mem_map] at hx
      obtain ⟨z, hz, rfl⟩ := hx
      obtain ⟨h1, -, h3⟩ := tiles_units.inside z hz
      simp [Mach.badPart, Mach.viewOf, hs, (hp.part h1 h3).good]
    rw [badLoc, hnone]
    rfl
  rw [List.nil_append] at hbs
  unfold Mach.engRead Mach.engRuns
  rw [Mach.engLocate_reaches h]
  dsimp only
  rw [hgood]
  exact ⟨_, _, congrArg (fun x => (Except.ok (x, _), _)) hbs, hord⟩

end

/-! ## Barrier objects (R218, R238) -/

theorem pageCuts_one {va n : Nat} (h : 0 < n ∧ va % 65536 + n ≤ 65536) : pageCuts va n = [(va, n)] := unitPieces_one _ h.2 h.1

theorem OnePage.reaches {m : Mach} {a : Actor} {va n pa : Nat} {l : Leaf} (h : OnePage m a va n l pa) :
    Reaches m a va n anyPage := fun x hx => by
  rw [pageCuts_one h.inside, List.mem_singleton] at hx
  subst hx
  exact ⟨l, h.leaf, h.page, h.place ▸ h.bytes, trivial⟩

theorem Mach.Alike.onePage {m m' : Mach} (h : m.Alike m') {a : Actor} {va n pa : Nat} {l : Leaf} (ho : OnePage m a va n l pa) :
    OnePage m' a va n l pa where
  leaf := (h.cachedLeaf a va).trans ho.leaf
  page := ho.page
  place := ho.place
  inside := ho.inside
  bytes := h.plain ho.bytes
  wf := by
    obtain ⟨h1, h2, h3⟩ := h.memory
    exact (Mach.memoriesOk_iff m').2 (by rw [h1, h2, h3]; exact (Mach.memoriesOk_iff m).1 ho.wf)

theorem Mach.engBar_onePage {m : Mach} {a : Actor} {va pa : Nat} {l : Leaf} (h : OnePage m a va 8 l pa) (hw : l.w = true) (mg : Mgmt) :
    m.engBar mg a va = (.ok (l.loc (va, 8)), m) := by
  have hloc := Mach.engLocate_cached (m := m) (a := a) (ps := [(va, 8)]) (fun x hx => by
    rw [List.mem_singleton] at hx; exact ⟨l, hx ▸ h.leaf, h.page⟩) mg .objects
  have hlocs : m.pageLocs a [(va, 8)] = [l.loc (va, 8)] := by simp [Mach.pageLocs, h.leaf]
  unfold Mach.engBar
  rw [hloc, hlocs]
  exact if_pos hw

end Sys2Proof.Machine
end

section
/-! SUPPORT. The matrix unit: operands (R214), rows and panels (R216), and the command at the head of its queue (R218). -/

namespace Sys2Proof.Machine

/-! ## Reading operands leaves the units as they are -/

theorem Mach.readRun_keepsUnits (m : Mach) (mg : Mgmt) (a : Actor) (w base k n : Nat) :
    m.KeepsUnits (m.readRun mg a w base k n).2 := by
  have hread := m.engRead_keepsUnits mg a .matrix (base + w * k / 8) ((w * k % 8 + w * n + 7) / 8)
  unfold Mach.readRun
  dsimp only
  generalize m.engRead mg a .matrix (base + w * k / 8) ((w * k % 8 + w * n + 7) / 8) = e at hread ⊢
  obtain ⟨_ | ⟨bs, t⟩, m1⟩ := e <;> exact hread

theorem Mach.readGroups_keepsUnits (m : Mach) (mg : Mgmt) (a : Actor) (base scl g0 n : Nat) :
    m.KeepsUnits (m.readGroups mg a base scl g0 n).2 := by
  induction n generalizing m g0 with
  | zero => exact .refl m
  | succ n ih =>
    have hgroup := m.engRead_keepsUnits mg a .matrix (base + 32 * g0) 32
    unfold Mach.readGroups
    generalize m.engRead mg a .matrix (base + 32 * g0) 32 = e at hgroup ⊢
    obtain ⟨_ | ⟨bs, t⟩, m1⟩ := e
    · exact hgroup
    · have hscale := hgroup.trans (m1.engRead_keepsUnits mg a .matrix (scl + 2 * g0) 2)
      dsimp only
      generalize m1.engRead mg a .matrix (scl + 2 * g0) 2 = e at hscale ⊢
      obtain ⟨_ | ⟨sb, u⟩, m2⟩ := e
      · exact hscale
      · have hrest := hscale.trans (ih m2 (g0 + 1))
        dsimp only
        generalize m2.readGroups mg a base scl (g0 + 1) n = e at hrest ⊢
        split
        · exact hscale
        · obtain ⟨_ | ⟨ws, x⟩, m3⟩ := e <;> exact hrest

theorem Mach.readColumn_keepsUnits (m : Mach) (mg : Mgmt) (a : Actor) (w base str i : Nat) (ks : List Nat) :
    m.KeepsUnits (m.readColumn mg a w base str i ks).2 := by
  induction ks generalizing m with
  | nil => exact .refl m
  | cons k r ih =>
    have hrun := m.readRun_keepsUnits mg a w (base + k * str) i 1
    unfold Mach.readColumn
    generalize m.readRun mg a w (base + k * str) i 1 = e at hrun ⊢
    obtain ⟨_ | ⟨x, t⟩, m1⟩ := e
    · exact hrun
    · have hrest := hrun.trans (ih m1)
      dsimp only
      generalize m1.readColumn mg a w base str i r = e at hrest ⊢
      obtain ⟨_ | ⟨y, u⟩, m2⟩ := e <;> exact hrest

theorem Mach.readRuns_keepsUnits (m : Mach) (mg : Mgmt) (a : Actor) (w base str k n : Nat) (is : List Nat) :
    m.KeepsUnits (m.readRuns mg a w base str k n is).2 := by
  induction is generalizing m with
  | nil => exact .refl m
  | cons i r ih =>
    have hrun := m.readRun_keepsUnits mg a w (base + i * str) k n
    unfold Mach.readRuns
    generalize m.readRun mg a w (base + i * str) k n = e at hrun ⊢
    obtain ⟨_ | ⟨x, t⟩, m1⟩ := e
    · exact hrun
    · have hrest := hrun.trans (ih m1)
      dsimp only
      generalize m1.readRuns mg a w base str k n r = e at hrest ⊢
      obtain ⟨_ | ⟨y, u⟩, m2⟩ := e <;> exact hrest

theorem Mach.readGroupRuns_keepsUnits (m : Mach) (mg : Mgmt) (a : Actor) (base str scl per g0 n : Nat) (is : List Nat) :
    m.KeepsUnits (m.readGroupRuns mg a base str scl per g0 n is).2 := by
  induction is generalizing m with
  | nil => exact .refl m
  | cons i r ih =>
    have hrun := m.readGroups_keepsUnits mg a (base + i * str) (scl + 2 * (i * per)) g0 n
    unfold Mach.readGroupRuns
    generalize m.readGroups mg a (base + i * str) (scl + 2 * (i * per)) g0 n = e at hrun ⊢
    obtain ⟨_ | ⟨x, t⟩, m1⟩ := e
    · exact hrun
    · have hrest := hrun.trans (ih m1)
      dsimp only
      generalize m1.readGroupRuns mg a base str scl per g0 n r = e at hrest ⊢
      obtain ⟨_ | ⟨y, u⟩, m2⟩ := e <;> exact hrest

theorem Mach.readPanel_keepsUnits (m : Mach) (mg : Mgmt) (a : Actor) (p : MmaParams) (q : Nat) :
    m.KeepsUnits (m.readPanel mg a p q).2 := by
  have hruns (k n : Nat) (is : List Nat) := m.readRuns_keepsUnits mg a p.width p.baddr p.bstr k n is
  unfold Mach.readPanel
  generalize p.range q = ks
  obtain ⟨k0, k1⟩ := ks
  dsimp only
  split_ifs
  · exact m.readGroupRuns_keepsUnits ..
  · have h := hruns k0 (k1 - k0) (List.range p.cols)
    generalize m.readRuns mg a p.width p.baddr p.bstr k0 (k1 - k0) (List.range p.cols) = e at h ⊢
    obtain ⟨_ | ⟨l, t⟩, m1⟩ := e <;> exact h
  · have h := hruns 0 p.cols ((List.range (k1 - k0)).map (k0 + ·))
    generalize m.readRuns mg a p.width p.baddr p.bstr 0 p.cols ((List.range (k1 - k0)).map (k0 + ·)) = e at h ⊢
    obtain ⟨_ | ⟨l, t⟩, m1⟩ := e <;> exact h

theorem Mach.readRow_keepsUnits (m : Mach) (mg : Mgmt) (a : Actor) (p : MmaParams) (byp : Option Bypass) (q i : Nat) :
    m.KeepsUnits (m.readRow mg a p byp q i).2 := by
  unfold Mach.readRow
  generalize p.range q = ks
  obtain ⟨k0, k1⟩ := ks
  dsimp only
  split_ifs
  · cases byp <;> exact .refl m
  · exact m.readGroups_keepsUnits ..
  · have h := m.readColumn_keepsUnits mg a p.width p.aaddr p.astr i ((List.range (k1 - k0)).map (k0 + ·))
    generalize m.readColumn mg a p.width p.aaddr p.astr i ((List.range (k1 - k0)).map (k0 + ·)) = e at h ⊢
    obtain ⟨_ | ⟨l, t⟩, m1⟩ := e <;> exact h
  · have h := m.readRun_keepsUnits mg a p.width (p.aaddr + i * p.astr) k0 (k1 - k0)
    generalize m.readRun mg a p.width (p.aaddr + i * p.astr) k0 (k1 - k0) = e at h ⊢
    obtain ⟨_ | ⟨l, t⟩, m1⟩ := e <;> exact h

/-! ## Operands in cached ordinary pages are read (R214) -/

/-- An access is served, and what it depends on is as it was. -/
def Mach.Serves {α : Type} (m : Mach) (e : EngRes α) : Prop := ∃ x m', e = (.ok x, m') ∧ m.Alike m'

/-- An O4 group and its scale, at these addresses, can be read and are well formed. -/
def GroupReadable (m : Mach) (a : Actor) (x : Nat × Nat) : Prop :=
  Reaches m a x.1 32 anyPage ∧ Reaches m a x.2 2 anyPage ∧ (o4Group (m.bytesAt a x.1 32) (natOfBytes (m.bytesAt a x.2 2))).isSome = true

section
variable {m : Mach} {a : Actor} (ha : a.lane = false)
include ha

theorem Mach.engRead_serves {va n : Nat} (h : Reaches m a va n anyPage) (mg : Mgmt) (tc : Traffic) : m.Serves (m.engRead mg a tc va n) := by
  obtain ⟨t, m', he, hord⟩ := Mach.engRead_reaches ha h mg tc
  exact ⟨_, m', he, hord.alike⟩

theorem Mach.readRun_serves {p : MmaParams} {base k n : Nat} (h : Reaches m a (runRange p base k n).1 (runRange p base k n).2 anyPage)
    (mg : Mgmt) : m.Serves (m.readRun mg a p.width base k n) := by
  obtain ⟨x, m', he, hm⟩ := m.engRead_serves ha h mg .matrix
  unfold runRange at he
  unfold Mach.readRun
  simp only [he]
  exact ⟨_, m', rfl, hm⟩

theorem Mach.readColumn_serves {p : MmaParams} {base str i : Nat} {ks : List Nat}
    (h : ∀ k ∈ ks, Reaches m a (runRange p (base + k * str) i 1).1 (runRange p (base + k * str) i 1).2 anyPage) (mg : Mgmt) :
    m.Serves (m.readColumn mg a p.width base str i ks) := by
  induction ks generalizing m with
  | nil => exact ⟨_, m, rfl, .refl m⟩
  | cons k r ih =>
    obtain ⟨x, m1, he, hm1⟩ := m.readRun_serves ha (h k (by simp)) mg
    obtain ⟨y, m2, hr, hm2⟩ := ih fun j hj => hm1.reaches (h j (by simp [hj]))
    simp only [Mach.readColumn, he, hr]
    exact ⟨_, m2, rfl, hm1.trans hm2⟩

theorem Mach.readRuns_serves {p : MmaParams} {base str k n : Nat} {is : List Nat}
    (h : ∀ i ∈ is, Reaches m a (runRange p (base + i * str) k n).1 (runRange p (base + i * str) k n).2 anyPage) (mg : Mgmt) :
    m.Serves (m.readRuns mg a p.width base str k n is) := by
  induction is generalizing m with
  | nil => exact ⟨_, m, rfl, .refl m⟩
  | cons i r ih =>
    obtain ⟨x, m1, he, hm1⟩ := m.readRun_serves ha (h i (by simp)) mg
    obtain ⟨y, m2, hr, hm2⟩ := ih fun j hj => hm1.reaches (h j (by simp [hj]))
    simp only [Mach.readRuns, he, hr]
    exact ⟨_, m2, rfl, hm1.trans hm2⟩

omit ha in
theorem Mach.Alike.groupReadable {m' : Mach} (h : m.Alike m') {x : Nat × Nat} (hx : GroupReadable m a x) : GroupReadable m' a x := by
  obtain ⟨h1, h2, h3⟩ := hx
  exact ⟨h.reaches h1, h.reaches h2, by rwa [h.bytesAt, h.bytesAt]⟩

theorem Mach.readGroups_serves {base scl g0 n : Nat}
    (h : ∀ g, g < n → GroupReadable m a (base + 32 * (g0 + g), scl + 2 * (g0 + g))) (mg : Mgmt) :
    m.Serves (m.readGroups mg a base scl g0 n) := by
  induction n generalizing m g0 with
  | zero => exact ⟨_, m, rfl, .refl m⟩
  | succ n ih =>
    obtain ⟨hgroup, hscale, hok⟩ := h 0 (by omega)
    obtain ⟨t, m1, he1, hm1⟩ := Mach.engRead_reaches ha hgroup mg .matrix
    obtain ⟨u, m2, he2, hm2⟩ := Mach.engRead_reaches ha (hm1.alike.reaches hscale) mg .matrix
    obtain ⟨vs, hvs⟩ := Option.isSome_iff_exists.1 hok
    have hm := hm1.alike.trans hm2.alike
    obtain ⟨y, m3, hr, hm3⟩ := ih (m := m2) (g0 := g0 + 1) fun g hg => by
      have := hm.groupReadable (h (g + 1) (by omega))
      rwa [show g0 + (g + 1) = g0 + 1 + g by omega] at this
    rw [hm1.alike.bytesAt] at he2
    simp only [Nat.add_zero] at he1 he2 hvs
    simp only [Mach.readGroups, he1, he2, hvs, hr]
    exact ⟨_, m3, rfl, hm.trans hm3⟩

theorem Mach.readGroupRuns_serves {base str scl per g0 n : Nat} {is : List Nat}
    (h : ∀ i ∈ is, ∀ g, g < n → GroupReadable m a (base + i * str + 32 * (g0 + g), scl + 2 * (i * per) + 2 * (g0 + g))) (mg : Mgmt) :
    m.Serves (m.readGroupRuns mg a base str scl per g0 n is) := by
  induction is generalizing m with
  | nil => exact ⟨_, m, rfl, .refl m⟩
  | cons i r ih =>
    obtain ⟨x, m1, he, hm1⟩ := m.readGroups_serves ha (h i (by simp)) mg
    obtain ⟨y, m2, hr, hm2⟩ := ih fun j hj g hg => hm1.groupReadable (h j (by simp [hj]) g hg)
    simp only [Mach.readGroupRuns, he, hr]
    exact ⟨_, m2, rfl, hm1.trans hm2⟩

variable {p : MmaParams} {q i : Nat} (h : PanelReadable m a p q i)

omit ha in
theorem Mach.Alike.panelReadable {m' : Mach} (hm : m.Alike m') (h : PanelReadable m a p q i) : PanelReadable m' a p q i := by
  unfold PanelReadable at h ⊢
  split_ifs at h ⊢
  · exact fun x hx => hm.groupReadable (h x hx)
  · exact fun x hx => hm.reaches (h x hx)

omit ha in
theorem mem_groupsOf {base scl : Nat} {x : Nat × Nat} : x ∈ groupsOf p q base scl ↔
    ∃ g, g < ((p.range q).2 - (p.range q).1) / 64 ∧ (base + 32 * ((p.range q).1 / 64 + g), scl + 2 * ((p.range q).1 / 64 + g)) = x := by
  simp [groupsOf, List.mem_map]

include h

theorem Mach.readPanel_serves (mg : Mgmt) : m.Serves (m.readPanel mg a p q) := by
  unfold PanelReadable panelGroups panelRuns at h
  unfold Mach.readPanel
  cases ho : p.o4 with
  | true =>
    rw [if_pos ho] at h
    simp only [if_true]
    refine m.readGroupRuns_serves ha (fun j hj g hg => ?_) mg
    exact h _ (List.mem_append_left _ (List.mem_flatMap.2 ⟨j, hj, mem_groupsOf.2 ⟨g, hg, rfl⟩⟩))
  | false =>
    rw [if_neg (by simp [ho])] at h
    simp only [Bool.false_eq_true, if_false]
    cases htb : p.tb with
    | true =>
      simp only [htb, if_true] at h ⊢
      obtain ⟨x, m1, he, hm1⟩ := m.readRuns_serves ha (p := p) (base := p.baddr) (str := p.bstr) (k := (p.range q).1)
        (n := (p.range q).2 - (p.range q).1) (is := List.range p.cols)
        (fun j hj => h _ (List.mem_append_left _ (List.mem_map.2 ⟨j, hj, rfl⟩))) mg
      rw [he]
      exact ⟨_, m1, rfl, hm1⟩
    | false =>
      simp only [htb, Bool.false_eq_true, if_false] at h ⊢
      obtain ⟨x, m1, he, hm1⟩ := m.readRuns_serves ha (p := p) (base := p.baddr) (str := p.bstr) (k := 0) (n := p.cols)
        (is := (List.range ((p.range q).2 - (p.range q).1)).map ((p.range q).1 + ·))
        (fun k hk => h _ (List.mem_append_left _ (List.mem_map.2 ⟨k, hk, rfl⟩))) mg
      rw [he]
      exact ⟨_, m1, rfl, hm1⟩

theorem Mach.readRow_serves {r : Nat} (hr : i ≤ r ∧ r < p.rows) (mg : Mgmt) (byp : Option Bypass) :
    m.Serves (m.readRow mg a p byp q r) := by
  have hrow : r ∈ (List.range (p.rows - i)).map (i + ·) := List.mem_map.2 ⟨r - i, List.mem_range.2 (by omega), by omega⟩
  unfold PanelReadable panelGroups panelRuns at h
  unfold Mach.readRow
  cases hb : p.byp with
  | true =>
    simp only [if_true]
    cases byp with
    | none => exact ⟨_, m, rfl, .refl m⟩
    | some b => exact ⟨_, m, rfl, .refl m⟩
  | false =>
    simp only [hb, Bool.false_eq_true, if_false] at h ⊢
    cases ho : p.o4 with
    | true =>
      rw [if_pos ho] at h
      simp only [if_true]
      refine m.readGroups_serves ha (fun g hg => ?_) mg
      exact h _ (List.mem_append_right _ (List.mem_flatMap.2 ⟨r, hrow, mem_groupsOf.2 ⟨g, hg, rfl⟩⟩))
    | false =>
      rw [if_neg (by simp [ho])] at h
      simp only [Bool.false_eq_true, if_false]
      cases hta : p.ta with
      | true =>
        simp only [hta, if_true] at h ⊢
        obtain ⟨x, m1, he, hm1⟩ := m.readColumn_serves ha (p := p) (base := p.aaddr) (str := p.astr) (i := r)
          (ks := (List.range ((p.range q).2 - (p.range q).1)).map ((p.range q).1 + ·))
          (fun k hk => h _ (List.mem_append_right _ (List.mem_flatMap.2 ⟨r, hrow, List.mem_map.2 ⟨k, hk, rfl⟩⟩))) mg
        rw [he]
        exact ⟨_, m1, rfl, hm1⟩
      | false =>
        simp only [hta, Bool.false_eq_true, if_false] at h ⊢
        obtain ⟨x, m1, he, hm1⟩ := m.readRun_serves ha (p := p) (base := p.aaddr + r * p.astr) (k := (p.range q).1)
          (n := (p.range q).2 - (p.range q).1)
          (h _ (List.mem_append_right _ (List.mem_flatMap.2 ⟨r, hrow, List.mem_singleton.2 rfl⟩))) mg
        rw [he]
        exact ⟨_, m1, rfl, hm1⟩

end

end Sys2Proof.Machine
end

section
/-! SUPPORT. A panel of a matrix command (R216, R218, R222): its rows in the tile, and what the command at the head does with it. -/

namespace Sys2Proof.Machine

/-! ## A row of a tile (R216) -/

/-- Words `b`, `b + 1`, … changed, one for each element of a list. -/
def setRow {α : Type} (g : Word → α → Word) (b : Nat) (w : Tab Word) (cs : List (α × Nat)) : Tab Word :=
  cs.foldl (fun w c => tabSet w (b + c.2) (g (tabGet w (b + c.2) 0) c.1)) w

theorem tabGet_setRow {α : Type} (g : Word → α → Word) (b : Nat) (cs : List α) (k : Nat) (w : Tab Word) (x : Nat) :
    tabGet (setRow g b w (cs.zipIdx k)) x 0 =
      if b + k ≤ x then ((cs[x - (b + k)]?).map (g (tabGet w x 0))).getD (tabGet w x 0) else tabGet w x 0 := by
  induction cs generalizing k w with
  | nil => simp [setRow]
  | cons c r ih =>
    have hnext : setRow g b w ((c :: r).zipIdx k) = setRow g b (tabSet w (b + k) (g (tabGet w (b + k) 0) c)) (r.zipIdx (k + 1)) := rfl
    rw [hnext, ih, tabGet_set]
    rcases Nat.lt_trichotomy x (b + k) with hlt | rfl | hgt
    · rw [if_neg (by omega), if_neg (by omega), if_neg (by omega)]
    · rw [if_neg (by omega), if_pos rfl, if_pos le_rfl, Nat.sub_self]
      rfl
    · obtain ⟨d, rfl⟩ := Nat.exists_eq_add_of_lt hgt
      rw [if_pos (by omega), if_neg (by omega), if_pos (by omega), show b + k + d + 1 - (b + (k + 1)) = d by omega,
        show b + k + d + 1 - (b + k) = d + 1 by omega, List.getElem?_cons_succ]

theorem addRow_words (p : MmaParams) (q i : Nat) (row : List FVal) (cols : List (List FVal)) (t : Tile) (x : Nat) :
    tabGet (addRow p q i row cols t).words x 0 = if 64 * i ≤ x then ((cols[x - 64 * i]?).map fun col =>
      combine p.type (if q = 0 ∧ p.acc = false then none else some (tabGet t.words x 0)) row col).getD (tabGet t.words x 0)
      else tabGet t.words x 0 := by
  have h := tabGet_setRow (fun old col => combine p.type (if q = 0 && !p.acc then none else some old) row col) (64 * i) cols 0 t.words x
  simp only [Bool.and_eq_true, decide_eq_true_eq, Bool.not_eq_true', Nat.add_zero] at h
  rw [← h]
  simp only [addRow, setRow, Bool.and_eq_true, decide_eq_true_eq, Bool.not_eq_true']

/-- The elements of a row that is added. -/
theorem combined_addRow {p : MmaParams} {q i j : Nat} {row col : List FVal} {cols : List (List FVal)} {t : Tile} (h : cols[j]? = some col) :
    combined p q t (addRow p q i row cols t) i j row col := by
  rw [combined, addRow_words, if_pos (by omega), Nat.add_sub_cancel_left, h]
  rfl

/-- The elements of other rows, and those beyond the columns. -/
theorem addRow_else {p : MmaParams} {q i r j : Nat} {row : List FVal} {cols : List (List FVal)} (hc : cols.length ≤ 64) (hj : j < 64)
    (h : r ≠ i ∨ cols.length ≤ j) (t : Tile) :
    tabGet (addRow p q i row cols t).words (64 * r + j) 0 = tabGet t.words (64 * r + j) 0 := by
  rw [addRow_words]
  by_cases hle : 64 * i ≤ 64 * r + j
  · rw [if_pos hle, List.getElem?_eq_none (by omega)]
    rfl
  · rw [if_neg hle]

/-! ## The unit's own changes -/

theorem Mach.modHead_cons {m : Mach} {core : Nat} {c : Command} {rest : List Command} (h : (m.core core).mq = c :: rest)
    (f : Command → Command) : (m.modHead core f).core core = { m.core core with mq := f c :: rest } := by
  rw [Mach.modHead, Mach.core_modCore_same, h]

theorem Mach.modHead_tiles (m : Mach) (core : Nat) (f : Command → Command) : ((m.modHead core f).core core).tiles = (m.core core).tiles := by
  rw [Mach.modHead, Mach.core_modCore_same]
  split <;> rfl

theorem Mach.modTile_mq (m : Mach) (core t : Nat) (f : Tile → Tile) : ((m.modTile core t f).core core).mq = (m.core core).mq := by
  rw [Mach.modTile, Mach.core_modCore_same]

theorem Mach.modTile_found {m : Mach} {core t : Nat} {y : Tile} (h : tabFind (m.core core).tiles t = some y) (f : Tile → Tile) :
    tabFind ((m.modTile core t f).core core).tiles t = some (f y) := by
  rw [Mach.modTile, Mach.core_modCore_same]
  simp only [tabFind_mod, h, if_true, Option.map_some]

theorem Mach.modHead_alike (m : Mach) (core : Nat) (f : Command → Command) : m.Alike (m.modHead core f) := m.modCore_alike ..
theorem Mach.modTile_alike (m : Mach) (core t : Nat) (f : Tile → Tile) : m.Alike (m.modTile core t f) := m.modCore_alike ..

/-! ## Rows (R216) -/

/-- The machine once a row was added to the tile. -/
def Mach.rowAdded (m : Mach) (core tile : Nat) (p : MmaParams) (q i : Nat) (row : List FVal) (t : Mask) (cols : List (List FVal)) : Mach :=
  (m.modTile core tile (addRow p q i row cols)).modHead core fun c => { c with panel := q, row := i + 1, tags := c.tags ||| t }

section
variable {m m' : Mach} {mg : Mgmt} {a : Actor} {core : Nat} {p : MmaParams} {byp : Option Bypass} {tile q n i : Nat}
  {cols : List (List FVal)}

/-- Rows that go on are read and added one after another. -/
theorem Mach.mmaRows_succ (h : m.mmaRows mg a core p byp tile q cols (n + 1) i = (.ok (), m')) : ∃ row u m1,
    m.readRow mg a p byp q i = (.ok (row, u), m1) ∧
      (m1.rowAdded core tile p q i row u cols).mmaRows mg a core p byp tile q cols n (i + 1) = (.ok (), m') := by
  unfold Mach.mmaRows at h
  generalize m.readRow mg a p byp q i = e at h ⊢
  obtain ⟨_ | ⟨row, u⟩, m1⟩ := e
  · cases h
  · exact ⟨row, u, m1, rfl, h⟩

theorem Mach.readRow_ok_keepsUnits {m1 : Mach} {x : List FVal × Mask} (h : m.readRow mg a p byp q i = (.ok x, m1)) : m.KeepsUnits m1 := by
  have := m.readRow_keepsUnits mg a p byp q i
  rwa [h] at this

theorem Mach.rowAdded_found {t : Tile} (h : tabFind (m.core core).tiles tile = some t) (row : List FVal) (u : Mask) :
    tabFind ((m.rowAdded core tile p q i row u cols).core core).tiles tile = some (addRow p q i row cols t) := by
  rw [Mach.rowAdded, Mach.modHead_tiles, Mach.modTile_found h]

/-- Every element of the rows is combined with the products of its row and column; the elements beyond are as they were. -/
theorem Mach.mmaRows_combined {t : Tile} (h : m.mmaRows mg a core p byp tile q cols n i = (.ok (), m'))
    (ht : tabFind (m.core core).tiles tile = some t) (hc : cols.length ≤ 64) :
    ∃ t', tabFind (m'.core core).tiles tile = some t' ∧
      (∀ r, r < n → ∃ (mi : Mach) (row : List FVal) (u : Mask), (mi.readRow mg a p byp q (i + r)).1 = .ok (row, u) ∧
        ∀ j col, cols[j]? = some col → combined p q t t' (i + r) j row col) ∧
      ∀ r j, j < 64 → (r < i ∨ i + n ≤ r ∨ cols.length ≤ j) → tabGet t'.words (64 * r + j) 0 = tabGet t.words (64 * r + j) 0 := by
  induction n generalizing m t i with
  | zero =>
    cases h
    exact ⟨t, ht, fun r hr => absurd hr (Nat.not_lt_zero r), fun _ _ _ _ => rfl⟩
  | succ n ih =>
    obtain ⟨row, u, m1, hread, hrows⟩ := Mach.mmaRows_succ h
    have ht1 : tabFind (m1.core core).tiles tile = some t := by rw [(Mach.readRow_ok_keepsUnits hread).tiles]; exact ht
    obtain ⟨t', ht', hrest, hframe⟩ := ih hrows (Mach.rowAdded_found ht1 row u)
    have hlen {j : Nat} {col : List FVal} (hj : cols[j]? = some col) : j < 64 := by
      have := (List.getElem?_eq_some_iff.1 hj).1
      omega
    refine ⟨t', ht', fun r hr => ?_, fun r j hj hout => ?_⟩
    · cases r with
      | zero =>
        refine ⟨m, row, u, congrArg Prod.fst hread, fun j col hj => ?_⟩
        exact (hframe i j (hlen hj) (.inl (by omega))).trans (combined_addRow hj)
      | succ r =>
        obtain ⟨mi, row', u', hread', hcomb⟩ := hrest r (by omega)
        rw [show i + 1 + r = i + (r + 1) by omega] at hread' hcomb
        refine ⟨mi, row', u', hread', fun j col hj => ?_⟩
        have := hcomb j col hj
        rwa [combined, addRow_else hc (hlen hj) (.inl (by omega))] at this
    · rw [hframe r j hj (by omega), addRow_else hc hj (by omega)]

end

/-! ## A panel (R216, R218) -/

/-- What progress changes of a command: where it stands, its masks, and the stamp of its writes. -/
def Command.Progress (c c' : Command) : Prop := ∃ panel row tags begun stamp,
  c' = { c with panel := panel, row := row, tags := tags, begun := begun, stamp := stamp }

theorem Command.Progress.refl (c : Command) : c.Progress c := ⟨_, _, _, _, _, rfl⟩

theorem Command.Progress.trans {a b c : Command} (h : a.Progress b) (g : b.Progress c) : a.Progress c := by
  obtain ⟨_, _, _, _, _, rfl⟩ := h
  obtain ⟨_, _, _, _, _, rfl⟩ := g
  exact ⟨_, _, _, _, _, rfl⟩

/-- The command at the head goes on, with its tile in place; no block changes. -/
structure Mach.Streams (m m' : Mach) (core tile : Nat) : Prop where
  blocks : m'.blocks = m.blocks
  queue  : ∀ c rest, (m.core core).mq = c :: rest → ∃ c', (m'.core core).mq = c' :: rest ∧ c.Progress c'
  tile   : ∀ t, tabFind (m.core core).tiles tile = some t → ∃ t', tabFind (m'.core core).tiles tile = some t'

section
variable {m m' : Mach} {mg : Mgmt} {a : Actor} {core : Nat} {p : MmaParams} {byp : Option Bypass} {tile q n i : Nat}
  {cols : List (List FVal)}

theorem Mach.Streams.trans {m1 : Mach} (h : m.Streams m1 core tile) (g : m1.Streams m' core tile) : m.Streams m' core tile where
  blocks := g.blocks.trans h.blocks
  queue c rest hq := by
    obtain ⟨c1, hq1, hc1⟩ := h.queue c rest hq
    obtain ⟨c2, hq2, hc2⟩ := g.queue c1 rest hq1
    exact ⟨c2, hq2, hc1.trans hc2⟩
  tile t ht := by
    obtain ⟨t1, ht1⟩ := h.tile t ht
    exact g.tile t1 ht1

theorem Mach.KeepsUnits.streams (h : m.KeepsUnits m') : m.Streams m' core tile where
  blocks := h.blocks
  queue c rest hq := ⟨c, (h.mq core).trans hq, .refl c⟩
  tile t ht := ⟨t, by rwa [h.tiles]⟩

theorem Mach.modHead_streams (m : Mach) (core tile : Nat) {f : Command → Command} (hf : ∀ c : Command, c.Progress (f c)) :
    m.Streams (m.modHead core f) core tile where
  blocks := rfl
  queue c rest hq := ⟨f c, by rw [Mach.modHead_cons hq], hf c⟩
  tile t ht := ⟨t, by rwa [Mach.modHead_tiles]⟩

theorem Mach.rowAdded_streams (m : Mach) (core tile : Nat) (p : MmaParams) (q i : Nat) (row : List FVal) (u : Mask)
    (cols : List (List FVal)) : m.Streams (m.rowAdded core tile p q i row u cols) core tile := by
  have hadd : m.Streams (m.modTile core tile (addRow p q i row cols)) core tile :=
    ⟨rfl, fun c rest hq => ⟨c, (Mach.modTile_mq ..).trans hq, .refl c⟩, fun t ht => ⟨_, Mach.modTile_found ht _⟩⟩
  exact hadd.trans (Mach.modHead_streams _ core tile fun _ => ⟨_, _, _, _, _, rfl⟩)

theorem Mach.mmaRows_streams (h : m.mmaRows mg a core p byp tile q cols n i = (.ok (), m')) : m.Streams m' core tile := by
  induction n generalizing m i with
  | zero => cases h; exact (Mach.KeepsUnits.refl _).streams
  | succ n ih =>
    obtain ⟨row, u, m1, hread, hrows⟩ := Mach.mmaRows_succ h
    exact ((Mach.readRow_ok_keepsUnits hread).streams.trans (m1.rowAdded_streams core tile p q i row u cols)).trans (ih hrows)

theorem Mach.mmaPanel_streams (h : m.mmaPanel mg a core p byp tile q i = (.ok (), m')) : m.Streams m' core tile := by
  have hread := m.readPanel_keepsUnits mg a p q
  unfold Mach.mmaPanel at h
  generalize m.readPanel mg a p q = e at hread h
  obtain ⟨_ | ⟨cols, t⟩, m1⟩ := e
  · cases h
  · have hhead := m1.modHead_streams core tile (f := fun c => { c with tags := c.tags ||| t }) fun _ => ⟨_, _, _, _, _, rfl⟩
    exact (hread.streams.trans hhead).trans (Mach.mmaRows_streams h)

/-- Rows that are read, whatever was added before, are all added. -/
theorem Mach.mmaRows_serves (h : ∀ r, i ≤ r → r < i + n → ∀ m', m.Alike m' → m'.Serves (m'.readRow mg a p byp q r)) :
    m.Serves (m.mmaRows mg a core p byp tile q cols n i) := by
  induction n generalizing m i with
  | zero => exact ⟨(), m, rfl, .refl m⟩
  | succ n ih =>
    obtain ⟨⟨row, u⟩, m1, hread, hm1⟩ := h i le_rfl (by omega) m (.refl m)
    have hadd : m.Alike (m1.rowAdded core tile p q i row u cols) := (hm1.trans (m1.modTile_alike ..)).trans (Mach.modHead_alike ..)
    obtain ⟨x, m2, hrows, hm2⟩ := ih (m := m1.rowAdded core tile p q i row u cols) (i := i + 1)
      fun r h1 h2 m' hm' => h r (by omega) (by omega) m' (hadd.trans hm')
    refine ⟨x, m2, ?_, hadd.trans hm2⟩
    simp only [Mach.mmaRows, hread]
    exact hrows

theorem Mach.mmaPanel_serves (ha : a.lane = false) (h : PanelReadable m a p q i) : m.Serves (m.mmaPanel mg a core p byp tile q i) := by
  obtain ⟨⟨cols, t⟩, m1, hread, hm1⟩ := m.readPanel_serves ha h mg
  have hhead : m.Alike (m1.modHead core fun c => { c with tags := c.tags ||| t }) := hm1.trans (m1.modHead_alike ..)
  obtain ⟨x, m2, hrows, hm2⟩ := Mach.mmaRows_serves (core := core) (tile := tile) (cols := cols) (n := p.rows - i) (i := i)
    fun r h1 h2 m' hm' => m'.readRow_serves ha ((hhead.trans hm').panelReadable h) ⟨h1, by omega⟩ mg byp
  exact ⟨x, m2, by simp only [Mach.mmaPanel, hread, hrows], hhead.trans hm2⟩

end

/-! ## The command at the head (R215, R218) -/

/-- What follows a panel: the next one, or the end of the rows. -/
def Mach.panelDone (m : Mach) (core : Nat) (c : Command) (p : MmaParams) (tag : Mask) : Mach :=
  if c.panel + 1 < p.panels then m.modHead core fun x => { x with panel := c.panel + 1, row := 0 } else m.mmaFinish core c.tile p tag

/-- The machine in which the command at the head has begun. -/
def Mach.headBegun (m : Mach) (core : Nat) : Mach := m.modHead core fun y => { y with begun := true }

theorem Mach.headBegun_streams (m : Mach) (core tile : Nat) : m.Streams (m.headBegun core) core tile :=
  m.modHead_streams core tile fun _ => ⟨_, _, _, _, _, rfl⟩

theorem Mach.headBegun_alike (m : Mach) (core : Nat) : m.Alike (m.headBegun core) := m.modHead_alike ..

section
variable {s : State} {core : Nat} {c : Command} {rest : List Command} {b : Block} {x : BitVec 512} {tag : Mask} {m1 : Mach}

/-- A command that is well formed, whose barrier object is there if it is asked for, and whose panel is read. -/
theorem AtHead.mmaStart (h : AtHead s core c rest b) (hop : c.op = .mma x tag) (hr : c.ready = false)
    (hgood : c.begun = true ∨
      (mmaParams x).cause c.bid (tabFind (s.mach.core core).tiles c.tile) (s.mach.core core).bypass = none)
    (hbar : ((mmaParams x).bar = 0 ∨ c.panel ≠ 0 ∨ c.row ≠ 0) ∨
      ∃ l, (s.mach.headBegun core).engBar s.mgmt (b.engineActor true) (mmaParams x).bar = (.ok l, s.mach.headBegun core))
    (hpanel : (s.mach.headBegun core).mmaPanel s.mgmt (b.engineActor true) core (mmaParams x) (s.mach.core core).bypass c.tile c.panel c.row
      = (.ok (), m1)) : s.mach.mmaStart s.mgmt core = m1.panelDone core c (mmaParams x) tag := by
  have hblock : s.mach.block? c.bid = some b := h.block
  have hbad : (if c.begun = true then none
      else (mmaParams x).cause c.bid (tabFind (s.mach.core core).tiles c.tile) (s.mach.core core).bypass) = none := by
    split_ifs with hb
    · rfl
    · exact hgood.resolve_left hb
  unfold Mach.headBegun at hbar hpanel
  unfold Mach.mmaStart
  simp only [h.queue, hop, hblock, hr, h.goes, h.begin, hbad, Option.isSome_none, Bool.not_true, Bool.or_false, Bool.false_eq_true, if_false]
  by_cases hskip : (mmaParams x).bar = 0 ∨ c.panel ≠ 0 ∨ c.row ≠ 0
  · simp only [if_pos hskip, hpanel]
    rfl
  · obtain ⟨l, hl⟩ := hbar.resolve_left hskip
    simp only [if_neg hskip, hl, hpanel]
    rfl

end

section
variable {m : Mach} {core : Nat} {c1 : Command} {rest : List Command} (hq : (m.core core).mq = c1 :: rest)
include hq

theorem Mach.mmaFinish_mq (tile : Nat) (p : MmaParams) (tag : Mask) :
    ((m.mmaFinish core tile p tag).core core).mq = { c1 with ready := true } :: rest := by
  rw [Mach.mmaFinish, Mach.modHead_cons ((Mach.modTile_mq ..).trans hq)]

theorem Mach.mmaFinish_tile {tile : Nat} {y : Tile} (ht : tabFind (m.core core).tiles tile = some y) (p : MmaParams) (tag : Mask) :
    tabFind ((m.mmaFinish core tile p tag).core core).tiles tile =
      some { y with type := p.type, valid := true, tag := tileTag p tag c1.tags y } := by
  rw [Mach.mmaFinish, Mach.modHead_tiles, Mach.modTile_found ht, hq]
  rfl

/-- After a panel the command stands at the next one, or is done with its tile valid. -/
theorem Mach.panelDone_head {c : Command} (hr : c1.ready = false) (p : MmaParams) (tag : Mask) :
    ∃ c', ((m.panelDone core c p tag).core core).mq = c' :: rest ∧ c'.id = c1.id ∧
      if c.panel + 1 < p.panels then c'.panel = c.panel + 1 ∧ c'.row = 0 ∧ c'.ready = false
      else c'.ready = true ∧ ∀ y, tabFind (m.core core).tiles c.tile = some y →
        tabFind ((m.panelDone core c p tag).core core).tiles c.tile =
          some { y with type := p.type, valid := true, tag := tileTag p tag c1.tags y } := by
  unfold Mach.panelDone
  split_ifs
  · exact ⟨{ c1 with panel := c.panel + 1, row := 0 }, congrArg Core.mq (Mach.modHead_cons hq _), rfl, rfl, rfl, hr⟩
  · exact ⟨_, Mach.mmaFinish_mq hq .., rfl, rfl, fun y hy => Mach.mmaFinish_tile hq hy ..⟩

end

theorem Mach.panelDone_alike (m : Mach) (core : Nat) (c : Command) (p : MmaParams) (tag : Mask) : m.Alike (m.panelDone core c p tag) := by
  unfold Mach.panelDone Mach.mmaFinish
  split_ifs
  · exact m.modHead_alike ..
  · exact (m.modTile_alike ..).trans (Mach.modHead_alike ..)

theorem Mach.panelDone_blocks (m : Mach) (core : Nat) (c : Command) (p : MmaParams) (tag : Mask) :
    (m.panelDone core c p tag).blocks = m.blocks := by
  unfold Mach.panelDone
  split_ifs <;> rfl

/-- The tile's tag takes in the block's tag, and its own if the products are added to it (R220). -/
theorem tileTag_covers (p : MmaParams) (tag read : Mask) (t : Tile) :
    tag ||| tileTag p tag read t = tileTag p tag read t ∧ (p.acc = true → t.tag ||| tileTag p tag read t = tileTag p tag read t) := by
  unfold tileTag
  refine ⟨by rw [BitVec.or_comm, BitVec.or_assoc, BitVec.or_self], fun h => ?_⟩
  rw [if_pos h, ← BitVec.or_assoc, ← BitVec.or_assoc, BitVec.or_self]

/-! ## Integer products (R216) -/

theorem exactInt_ofInt (x : Int) : exactInt (FVal.ofInt x) = x := by
  have hone : ((x.natAbs * 2 ^ (0 : Int).toNat : Nat) : Int) = |x| := by simp
  unfold FVal.ofInt exactInt
  simp only [decide_eq_true_eq, hone]
  split_ifs with h
  · rw [abs_of_neg h, neg_neg]
  · exact abs_of_nonneg (Int.not_lt.1 h)

theorem combine_int32 (prior : Option Word) (xs ys : List Int) : combine .int32 prior (xs.map FVal.ofInt) (ys.map FVal.ofInt) =
    BitVec.ofInt 32 (((prior.getD 0).toNat : Int) + (List.zipWith (· * ·) xs ys).sum) := by
  have hsum (t : Int) : ((xs.map FVal.ofInt).zip (ys.map FVal.ofInt)).foldl (fun (t : Int) p => t + exactInt p.1 * exactInt p.2) t =
      t + (List.zipWith (· * ·) xs ys).sum := by
    induction xs generalizing ys t with
    | nil => simp
    | cons x r ih =>
      cases ys with
      | nil => simp
      | cons y r' => simp [ih, exactInt_ofInt, add_assoc]
  simp only [combine, hsum, zero_add]

end Sys2Proof.Machine

open Sys2Proof Sys2Proof.Machine

/-- Settles O31: operands in cached ordinary pages are read (`Mach.mmaPanel_serves`), a panel keeps its command at the head
(`Mach.mmaPanel_streams`), every row is added once (`Mach.mmaRows_combined`), and the command goes on (`Mach.panelDone_head`). -/
theorem matrixPanels : Obligations.MatrixPanels := by
  unfold Obligations.MatrixPanels
  refine ⟨?readable, ?streamed, ?rows, combine_int32⟩
  case rows =>
    intro m mg a core p byp tile q cols n i m' t h ht hc
    exact Mach.mmaRows_combined h ht hc
  case streamed =>
    intro s core c rest b x tag m1 h hop hr hgood hbar hpanel
    refine does_onEvent h.on (f := fun mg m => m.mmaStart mg core) rfl ?_
    have hstart := h.mmaStart hop hr hgood (.inl hbar) hpanel
    have hstreams := (s.mach.headBegun_streams core c.tile).trans (Mach.mmaPanel_streams hpanel)
    have halike := m1.panelDone_alike core c (mmaParams x) tag
    obtain ⟨c1, hq1, hc1⟩ := hstreams.queue c rest h.queue
    have hid1 : c1.id = c.id ∧ c1.ready = c.ready := by obtain ⟨_, _, _, _, _, rfl⟩ := hc1; exact ⟨rfl, rfl⟩
    obtain ⟨c', hq', hid', hnext⟩ := Mach.panelDone_head (c := c) hq1 (hid1.2.trans hr) (mmaParams x) tag
    rw [hstart]
    refine ⟨sameRegisters_of_blocks ((m1.panelDone_blocks ..).trans hstreams.blocks), halike.memory.1, c', hq', hid'.trans hid1.1, ?_⟩
    split_ifs at hnext ⊢
    · exact hnext
    · obtain ⟨hready, htile⟩ := hnext
      obtain hcovers := tileTag_covers (mmaParams x) tag c1.tags
      exact ⟨hready, fun y hy => ⟨_, htile y hy, rfl, rfl, rfl, hcovers y⟩⟩
  case readable =>
    intro s core c rest b x tag y h hop hr hgood hbar hy hread
    have hbegun := s.mach.headBegun_alike core
    have hskip : ((mmaParams x).bar = 0 ∨ c.panel ≠ 0 ∨ c.row ≠ 0) ∨
        ∃ l, (s.mach.headBegun core).engBar s.mgmt (b.engineActor true) (mmaParams x).bar = (.ok l, s.mach.headBegun core) := by
      rcases hbar with hb | hb | hb | ⟨l, pa, hone, hw⟩
      · exact .inl (.inl hb)
      · exact .inl (.inr (.inl hb))
      · exact .inl (.inr (.inr hb))
      · exact .inr ⟨_, Mach.engBar_onePage (hbegun.onePage hone) hw s.mgmt⟩
    obtain ⟨u, m1, hpanel, hm1⟩ := Mach.mmaPanel_serves (mg := s.mgmt) (core := core) (byp := (s.mach.core core).bypass) (tile := c.tile)
      rfl (hbegun.panelReadable hread)
    have hstart := h.mmaStart hop hr hgood hskip hpanel
    have hstreams := (s.mach.headBegun_streams core c.tile).trans (Mach.mmaPanel_streams hpanel)
    have halike := (hbegun.trans hm1).trans (m1.panelDone_alike core c (mmaParams x) tag)
    obtain ⟨c1, hq1, hc1⟩ := hstreams.queue c rest h.queue
    have hid1 : c1.id = c.id ∧ c1.ready = c.ready := by obtain ⟨_, _, _, _, _, rfl⟩ := hc1; exact ⟨rfl, rfl⟩
    obtain ⟨y1, hy1⟩ := hstreams.tile y hy
    obtain ⟨c', hq', hid', hnext⟩ := Mach.panelDone_head (c := c) hq1 (hid1.2.trans hr) (mmaParams x) tag
    refine does_onEvent h.on (f := fun mg m => m.mmaStart mg core) rfl ?_
    rw [hstart]
    refine ⟨sameRegisters_of_blocks ((m1.panelDone_blocks ..).trans hstreams.blocks), halike.memory, c', hq', hid'.trans hid1.1, ?_⟩
    split_ifs at hnext ⊢
    · exact hnext
    · obtain ⟨hready, htile⟩ := hnext
      exact ⟨hready, _, htile y1 hy1, rfl, rfl⟩

end

section
/-! SUPPORT. Engine writes to plain memory (R108, R114, R125): bytes, stamps, and what they leave plain. -/

namespace Sys2Proof.Machine

/-! ## One part -/

theorem Mach.Caches.stamps {m m' : Mach} (h : m.Caches m') : m'.stamps = m.stamps := by
  obtain ⟨_, _, _, _, _, rfl⟩ := h
  rfl

theorem Mach.recallFor_stamps (m : Mach) (cluster : Option Nat) (line : Nat) :
    (m.recallFor cluster line).stamps = m.stamps ∧ (m.recallFor cluster line).swept = m.swept := by
  have hunhold : (m.unhold line).stamps = m.stamps ∧ (m.unhold line).swept = m.swept := by
    unfold Mach.unhold
    split <;> exact ⟨rfl, rfl⟩
  unfold Mach.recallFor
  dsimp only
  split
  · exact hunhold
  · split_ifs <;> exact hunhold

theorem Mach.Served.swept {m m' : Mach} (h : m.Served m') : m'.swept = m.swept := by
  obtain ⟨_, _, _, _, _, _, _, _, _, _, _, _, rfl⟩ := h
  rfl

/-- The stamps of a line that is written. -/
def Stamps.bump (x : Stamps) (pts : Nat) : Stamps := ⟨max pts (x.rts + 1), max pts (x.rts + 1)⟩

section
variable {m : Mach} {a : Actor} {l : Leaf} {pa n : Nat}

/-- A part that is written through an unsealed page: memory has its bytes, and the line a new stamp. -/
theorem Mach.storeDev_unsealed (hs : l.sealed = false) (hp : plainRange m pa n) (hn : 0 < n) (mg : Mgmt) (tc : Traffic) (bs : List Byte)
    (pts : Nat) : ({ m with mem := memWrite m.mem pa bs } : Mach).Served (m.storeDev mg a l tc pa bs pts).2 ∧
      ∀ line, (m.storeDev mg a l tc pa bs pts).2.lineStamps line =
        if line = lineOf pa then (m.lineStamps line).bump pts else m.lineStamps line := by
  obtain ⟨hstamps, hswept⟩ := m.recallFor_stamps (some (clusterOf a.core)) (lineOf pa)
  have hstamp := (m.recallFor_served (some (clusterOf a.core)) (lineOf pa)).trans (Mach.stampLine_served _ (lineOf pa) pts)
  have hbump : ((m.recallFor (some (clusterOf a.core)) (lineOf pa)).stampLine (lineOf pa) pts).2.stamps =
      tabSet m.stamps (lineOf pa) ((m.lineStamps (lineOf pa)).bump pts) := by
    simp only [Mach.stampLine, Mach.noteStamp, Mach.lineStamps, hstamps, hswept]
    rfl
  have hp' := hstamp.plain hp
  have hput := Mach.putBytes_plain _ pa bs (hp'.clear pa le_rfl (by omega)) (hp'.unsealed pa le_rfl (by omega))
  rw [hstamp.mem] at hput
  unfold Mach.storeDev
  simp only [Mach.viewOf, hs, Bool.false_eq_true, if_false, hput]
  generalize ((m.recallFor (some (clusterOf a.core)) (lineOf pa)).stampLine (lineOf pa) pts).2 = m1 at hstamp hbump ⊢
  have halloc := Mach.allocLine_caches { m1 with mem := memWrite m.mem pa bs } mg (deviceOf a.ctx) tc true false (lineOf pa)
  have hserved := (hstamp.withMem (memWrite m.mem pa bs)).trans halloc.served
  have hnew (m2 : Mach) (h : ({ m with mem := memWrite m.mem pa bs } : Mach).Served m2) (hc : m2.stamps = m1.stamps) (line : Nat) :
      m2.lineStamps line = if line = lineOf pa then (m.lineStamps line).bump pts else m.lineStamps line := by
    rw [Mach.lineStamps, hc, hbump, h.swept, tabGet_set]
    by_cases e : line = lineOf pa
    · rw [if_pos e, if_pos e, e]
    · rw [if_neg e, if_neg e]
      rfl
  have hstored := halloc.stamps
  generalize ({ m1 with mem := memWrite m.mem pa bs } : Mach).allocLine mg (deviceOf a.ctx) tc true false (lineOf pa) = m2 at hserved hstored ⊢
  split_ifs
  · have hfill := fun c => m2.setL1_caches a.core (lineOf pa) c
    exact ⟨hserved.trans (hfill _).served, hnew _ (hserved.trans (hfill _).served) ((hfill _).stamps.trans hstored)⟩
  · exact ⟨hserved, hnew _ hserved hstored⟩

/-! ## What writes leave plain -/

/-- Memory stays canonical, and what was plain stays plain. -/
structure Mach.KeepsPlain (m m' : Mach) : Prop where
  wf    : Memory.wf m.mem = true → Memory.wf m'.mem = true
  plain : ∀ pa n, plainRange m pa n → plainRange m' pa n

theorem Mach.KeepsPlain.refl (m : Mach) : m.KeepsPlain m := ⟨id, fun _ _ => id⟩

theorem Mach.KeepsPlain.trans {a b c : Mach} (h : a.KeepsPlain b) (g : b.KeepsPlain c) : a.KeepsPlain c :=
  ⟨fun x => g.wf (h.wf x), fun pa n x => g.plain pa n (h.plain pa n x)⟩

theorem Mach.Alike.keepsPlain {m m' : Mach} (h : m.Alike m') : m.KeepsPlain m' :=
  ⟨fun hw => by rw [h.memory.1]; exact hw, fun _ _ => h.plain⟩

theorem Mach.storeDev_keepsPlain (hs : l.sealed = false) (hp : plainRange m pa n) (hn : 0 < n) (mg : Mgmt) (tc : Traffic) (bs : List Byte)
    (pts : Nat) : m.KeepsPlain (m.storeDev mg a l tc pa bs pts).2 := by
  obtain ⟨hserved, -⟩ := Mach.storeDev_unsealed (a := a) hs hp hn mg tc bs pts
  refine ⟨fun hw => ?_, fun x k hx => ?_⟩
  · rw [hserved.mem]
    exact memWrite_wf _ _ _ hw
  · obtain ⟨h1, h2, h3⟩ := hx
    exact hserved.plain ⟨h1, h2, h3⟩

theorem Mach.healDev_keepsPlain (m : Mach) (writes : List (Nat × Nat)) : m.KeepsPlain (m.healDev writes) := by
  unfold Mach.healDev
  split_ifs
  · exact .refl m
  · refine ⟨id, fun pa n hp => ?_⟩
    obtain ⟨hg, hc, hu⟩ := hp
    refine ⟨?_, hc, hu⟩
    simp only [Mach.badRange, Bool.or_false, List.any_eq_false] at hg ⊢
    exact fun u hu => hg u (List.mem_of_mem_filter hu)

end

/-! ## The parts of a location -/

/-- One part of an engine's write, with the greatest stamp of the parts before it. -/
def storeOn (mg : Mgmt) (a : Actor) (l : Leaf) (tc : Traffic) (bs : List Byte) (pa : Nat) (acc : Nat × Mach) (x : Nat × Nat) : Nat × Mach :=
  (max acc.1 (acc.2.storeDev mg a l tc x.1 ((bs.drop (x.1 - pa)).take x.2) 0).1,
    (acc.2.storeDev mg a l tc x.1 ((bs.drop (x.1 - pa)).take x.2) 0).2)

section
variable {m : Mach} {a : Actor} {l : Leaf} (hs : l.sealed = false) {ps : List (Nat × Nat)} (hp : ∀ x ∈ ps, 0 < x.2 ∧ plainRange m x.1 x.2)
include hs hp

theorem storeOn_served (mg : Mgmt) (tc : Traffic) (bs : List Byte) (pa st : Nat) :
    ({ m with mem := ps.foldl (fun m x => memWrite m x.1 ((bs.drop (x.1 - pa)).take x.2)) m.mem } : Mach).Served
      (ps.foldl (storeOn mg a l tc bs pa) (st, m)).2 := by
  induction ps generalizing m st with
  | nil => exact .refl m
  | cons x r ih =>
    obtain ⟨hn, hx⟩ := hp x (by simp)
    obtain ⟨hstore, -⟩ := Mach.storeDev_unsealed (a := a) hs hx hn mg tc ((bs.drop (x.1 - pa)).take x.2) 0
    have hkeep := Mach.storeDev_keepsPlain (a := a) hs hx hn mg tc ((bs.drop (x.1 - pa)).take x.2) 0
    have hstep : storeOn mg a l tc bs pa (st, m) x = (max st (m.storeDev mg a l tc x.1 ((bs.drop (x.1 - pa)).take x.2) 0).1,
      (m.storeDev mg a l tc x.1 ((bs.drop (x.1 - pa)).take x.2) 0).2) := rfl
    rw [List.foldl_cons, List.foldl_cons, hstep]
    generalize m.storeDev mg a l tc x.1 ((bs.drop (x.1 - pa)).take x.2) 0 = stored at hstore hkeep ⊢
    have hrest := ih (m := stored.2) (fun y hy => by
      obtain ⟨hk, hy⟩ := hp y (by simp [hy])
      exact ⟨hk, hkeep.plain _ _ hy⟩) (max st stored.1)
    rw [hstore.mem] at hrest
    exact (hstore.withMem _).trans hrest

theorem storeOn_keepsPlain (mg : Mgmt) (tc : Traffic) (bs : List Byte) (pa st : Nat) :
    m.KeepsPlain (ps.foldl (storeOn mg a l tc bs pa) (st, m)).2 := by
  refine List.foldlRecOn (motive := fun acc : Nat × Mach => m.KeepsPlain acc.2) ps _ (.refl m) fun acc h x hx => h.trans ?_
  obtain ⟨hn, hx⟩ := hp x hx
  exact Mach.storeDev_keepsPlain (a := a) hs (h.plain _ _ hx) hn mg tc ((bs.drop (x.1 - pa)).take x.2) 0

/-- The stamps of lines rise, and those of every line written rise strictly. -/
theorem storeOn_stamps (mg : Mgmt) (tc : Traffic) (bs : List Byte) (pa st line : Nat) :
    (m.lineStamps line).rts ≤ ((ps.foldl (storeOn mg a l tc bs pa) (st, m)).2.lineStamps line).rts ∧
      ((∃ x ∈ ps, lineOf x.1 = line) →
        (m.lineStamps line).rts < ((ps.foldl (storeOn mg a l tc bs pa) (st, m)).2.lineStamps line).rts) := by
  induction ps generalizing m st with
  | nil => exact ⟨le_rfl, fun ⟨x, hx, _⟩ => absurd hx (by simp)⟩
  | cons x r ih =>
    obtain ⟨hn, hx⟩ := hp x (by simp)
    obtain ⟨-, hstamps⟩ := Mach.storeDev_unsealed (a := a) hs hx hn mg tc ((bs.drop (x.1 - pa)).take x.2) 0
    have hkeep := Mach.storeDev_keepsPlain (a := a) hs hx hn mg tc ((bs.drop (x.1 - pa)).take x.2) 0
    obtain ⟨hle, hlt⟩ := ih (m := (m.storeDev mg a l tc x.1 ((bs.drop (x.1 - pa)).take x.2) 0).2) (fun y hy => by
      obtain ⟨hk, hy⟩ := hp y (by simp [hy])
      exact ⟨hk, hkeep.plain _ _ hy⟩) (max st (m.storeDev mg a l tc x.1 ((bs.drop (x.1 - pa)).take x.2) 0).1)
    have hone : ((m.storeDev mg a l tc x.1 ((bs.drop (x.1 - pa)).take x.2) 0).2.lineStamps line).rts =
        if line = lineOf x.1 then (m.lineStamps line).rts + 1 else (m.lineStamps line).rts := by
      rw [hstamps]
      split_ifs
      · exact Nat.zero_max _
      · rfl
    rw [hone] at hle hlt
    rw [List.foldl_cons]
    refine ⟨le_trans ?_ hle, fun ⟨y, hy, hl⟩ => ?_⟩
    · split_ifs <;> omega
    · rcases List.mem_cons.1 hy with rfl | hy
      · rw [if_pos hl.symm] at hle
        exact hle
      · refine lt_of_le_of_lt ?_ (hlt ⟨y, hy, hl⟩)
        split_ifs <;> omega

end

/-- Every address of a range lies in one of its pieces. -/
theorem Tiles.covers {a n : Nat} {l : List (Nat × Nat)} (h : Tiles a n l) {x : Nat} (hlo : a ≤ x) (hhi : x < a + n) :
    ∃ y ∈ l, y.1 ≤ x ∧ x < y.1 + y.2 := by
  induction l generalizing a n with
  | nil => cases h; omega
  | cons y r ih =>
    obtain ⟨h1, -, h3, hr⟩ := h
    by_cases hx : x < a + y.2
    · exact ⟨y, by simp, by omega, by omega⟩
    · obtain ⟨z, hz, h⟩ := ih hr (by omega) (by omega)
      exact ⟨z, by simp [hz], h⟩

/-- No piece crosses into another unit. -/
theorem unitPieces_inside {u fuel a n : Nat} (hu : 0 < u) : ∀ x ∈ unitPieces u fuel a n, x.1 % u + x.2 ≤ u := by
  induction fuel generalizing a n with
  | zero => intro x hx; cases hx
  | succ fuel ih =>
    intro x hx
    rw [unitPieces] at hx
    split_ifs at hx with h0
    · cases hx
    · rcases List.mem_cons.1 hx with rfl | hx
      · have := Nat.mod_lt a hu
        dsimp only
        omega
      · exact ih x hx

/-- An address of a range lies on the line of one of its parts. -/
theorem exists_part_line {pa n x : Nat} (hlo : pa ≤ x) (hhi : x < pa + n) :
    ∃ y ∈ unitPieces 32 (n / 32 + 2) pa n, lineOf y.1 = lineOf x := by
  obtain ⟨y, hy, h1, h2⟩ := tiles_units.covers hlo hhi
  have h3 := unitPieces_inside (by decide) y hy
  exact ⟨y, hy, by unfold lineOf; omega⟩

/-! ## Locations (R125, R226) -/

/-- A location in this module's memory, in a page neither sealed nor damp, whose bytes are plain. -/
structure PlainLoc (m : Mach) (y : Loc) (pa : Nat) : Prop where
  place : y.place = .dev pa
  page  : y.leaf.sealed = false ∧ y.leaf.damp = false
  bytes : plainRange m pa y.n

section
variable {m : Mach} {y : Loc} {pa : Nat} (h : PlainLoc m y pa) (mg : Mgmt) (a : Actor) (tc : Traffic) (bs : List Byte)
include h

theorem PlainLoc.parts : ∀ x ∈ unitPieces 32 (y.n / 32 + 2) pa y.n, 0 < x.2 ∧ plainRange m x.1 x.2 := fun x hx => by
  obtain ⟨h1, h2, h3⟩ := tiles_units.inside x hx
  exact ⟨h2, h.bytes.part h1 h3⟩

theorem PlainLoc.stores (st : Nat) : (partsOf y).foldl (fun (ac : Nat × Mach) x =>
      let part := (bs.drop (x.2.1 - y.va)).take x.2.2
      match x.1 with
      | .dev pa =>
        let (st, m) := ac.2.storeDev mg a y.leaf tc pa part 0
        (max ac.1 st, m)
      | .host _ => (ac.1, ac.2.engFar a.ctx x.1 x.2.1 part)
      | .peer _ _ => (ac.1, ac.2.engFar a.ctx x.1 x.2.1 part)
      | .spad _ _ => ac) (st, m) = (unitPieces 32 (y.n / 32 + 2) pa y.n).foldl (storeOn mg a y.leaf tc bs pa) (st, m) := by
  simp only [partsOf, h.place, List.foldl_map, Nat.add_sub_cancel_left]
  rfl

theorem Mach.engStore_one : (m.engStore mg a tc [y] bs).2 =
    ((unitPieces 32 (y.n / 32 + 2) pa y.n).foldl (storeOn mg a y.leaf tc bs pa) (0, m)).2.healDev (devRanges [y]) := by
  have hstores := h.stores mg a tc bs 0
  unfold Mach.engStore
  simp only [List.foldl_cons, List.foldl_nil, Mach.wringLoc_ordinary h.page.2]
  exact congrArg (fun x => Mach.healDev x.2 (devRanges [y])) hstores

theorem Mach.engStore_mem (hlen : bs.length = y.n) : (m.engStore mg a tc [y] bs).2.mem = memWrite m.mem pa bs := by
  have hserved := storeOn_served (a := a) h.page.1 h.parts mg tc bs pa 0
  obtain ⟨bad, he⟩ := Mach.healDev_bad ((unitPieces 32 (y.n / 32 + 2) pa y.n).foldl (storeOn mg a y.leaf tc bs pa) (0, m)).2 (devRanges [y])
  rw [Mach.engStore_one h, he]
  exact hserved.mem.trans (Tiles.write_all (hlen ▸ tiles_units) m.mem)

theorem Mach.engStore_stamps {x : Nat} (hlo : pa ≤ x) (hhi : x < pa + y.n) :
    (m.engStore mg a tc [y] bs).2.lineStamps (lineOf x) ≠ m.lineStamps (lineOf x) := by
  obtain ⟨-, hrise⟩ := storeOn_stamps (a := a) h.page.1 h.parts mg tc bs pa 0 (lineOf x)
  obtain ⟨bad, he⟩ := Mach.healDev_bad ((unitPieces 32 (y.n / 32 + 2) pa y.n).foldl (storeOn mg a y.leaf tc bs pa) (0, m)).2 (devRanges [y])
  rw [Mach.engStore_one h, he]
  exact fun e => (hrise (exists_part_line hlo hhi)).ne' (congrArg Stamps.rts e)

end

/-- A write to plain locations leaves memory canonical, and what was plain. -/
theorem Mach.engStore_keepsPlain {m : Mach} {ls : List Loc} (h : ∀ y ∈ ls, ∃ pa, PlainLoc m y pa) (mg : Mgmt) (a : Actor) (tc : Traffic)
    (bs : List Byte) : m.KeepsPlain (m.engStore mg a tc ls bs).2 := by
  unfold Mach.engStore
  refine .trans ?_ (Mach.healDev_keepsPlain ..)
  refine List.foldlRecOn (motive := fun x : Nat × List Byte × Mach => m.KeepsPlain x.2.2) ls _ (.refl _) fun acc hk y hy => hk.trans ?_
  obtain ⟨pa, hplace, hpage, hp⟩ := h y hy
  have hy : PlainLoc acc.2.2 y pa := ⟨hplace, hpage, hk.plain _ _ hp⟩
  have hstores := hy.stores mg a tc acc.2.1 acc.1
  dsimp only
  rw [Mach.wringLoc_ordinary hpage.2]
  exact (congrArg (fun x => acc.2.2.KeepsPlain x.2) hstores).mpr (storeOn_keepsPlain hpage.1 hy.parts mg tc acc.2.1 pa acc.1)

end Sys2Proof.Machine
end

section
/-! SUPPORT. How a matrix command ends (R212, R218), and drains (R225 to R227). -/

namespace Sys2Proof.Machine

/-! ## The write slot falls, and the command leaves (R212, R218) -/

/-- The flight's slot takes the stamp of the completion. -/
def Warp.slotStamp (slot : Option Nat) (stamp : Nat) (w : Warp) : Warp :=
  match slot with
  | none => w
  | some j => { w with slotAcq := tabSet w.slotAcq j (max stamp (tabGet w.slotAcq j 0)) }

theorem getReg_slotStamp (slot : Option Nat) (stamp : Nat) (w : Warp) (r : RegName) : (w.slotStamp slot stamp).getReg r = w.getReg r := by
  cases slot <;> rfl

theorem getReg_endId (id : Nat) (w : Warp) (r : RegName) : (w.endId id).getReg r = w.getReg r :=
  getReg_congr (w.endId_lanes id).1 (w.endId_lanes id).2 r

theorem Warp.endId_flights (w : Warp) (id : Nat) : ∀ f ∈ (w.endId id).flights, f.id ≠ id := by
  intro f hf
  unfold Warp.endId at hf
  split at hf
  · rename_i hnone
    simpa using List.find?_eq_none.1 hnone f hf
  · rename_i g hg
    have hid : g.id = id := by simpa using List.find?_some hg
    have := (List.mem_filter.1 hf).2
    rw [hid] at this
    simpa using this

theorem Mach.endCommand_registers (m : Mach) (c : Command) : sameRegisters m (m.endCommand c) := by
  unfold Mach.endCommand
  cases c.flight with
  | none => exact sameRegisters_of_blocks rfl
  | some id => exact sameRegisters_modWarp _ _ _ (getReg_endId id)

theorem Mach.endCommand_flights {m : Mach} {c : Command} {id : Nat} (h : c.flight = some id) {w : Warp}
    (hw : (m.endCommand c).warp? c.bid c.warp = some w) : ∀ f ∈ w.flights, f.id ≠ id := by
  rw [Mach.endCommand, h] at hw
  dsimp only at hw
  rw [Mach.warp?_modWarp, if_pos ⟨rfl, rfl⟩] at hw
  obtain ⟨w0, -, rfl⟩ := Option.map_eq_some_iff.1 hw
  exact w0.endId_flights id

/-- The machine in which the slot has its stamp. -/
def Mach.slotStamped (m : Mach) (c : Command) (stamp : Nat) : Mach :=
  m.modWarp c.bid c.warp (Warp.slotStamp
    (c.flight.bind fun id => (m.warp? c.bid c.warp).bind fun w => (w.flights.find? (·.id == id)).bind (·.slot)) stamp)

theorem Mach.mxFall_eq (m : Mach) (core : Nat) (c : Command) (stamp : Nat) :
    m.mxFall core c stamp = ((m.slotStamped c stamp).endCommand c).modHead core fun x => { x with flight := none } := rfl

theorem Mach.slotStamped_registers (m : Mach) (c : Command) (stamp : Nat) : sameRegisters m (m.slotStamped c stamp) :=
  sameRegisters_modWarp _ _ _ (getReg_slotStamp _ stamp)

theorem Mach.endCommand_cores (m : Mach) (c : Command) : (m.endCommand c).cores = m.cores := by
  obtain ⟨_, he, -⟩ := m.endCommand_rewarps c
  rw [he]

theorem Mach.Rewarps.alike {m m' : Mach} (h : m.Rewarps m') : m.Alike m' := by
  obtain ⟨_, rfl, -⟩ := h
  exact ⟨⟨rfl, rfl, rfl⟩, ⟨rfl, rfl⟩, ⟨rfl, rfl, rfl⟩⟩

theorem Mach.mxFall_alike (m : Mach) (core : Nat) (c : Command) (stamp : Nat) : m.Alike (m.mxFall core c stamp) :=
  (((m.modWarp_rewarps ..).alike).trans (Mach.endCommand_rewarps _ c).alike).trans (Mach.modHead_alike ..)

theorem Mach.mxFall_core {m : Mach} {core : Nat} {c0 : Command} {rest : List Command} (h : (m.core core).mq = c0 :: rest) (c : Command)
    (stamp : Nat) : (m.mxFall core c stamp).core core = { m.core core with mq := { c0 with flight := none } :: rest } := by
  have hcore : ((m.slotStamped c stamp).endCommand c).core core = m.core core := by
    rw [Mach.core, Mach.endCommand_cores]
    rfl
  rw [Mach.mxFall_eq, Mach.modHead_cons (by rw [hcore]; exact h), hcore]

/-- A command whose slot has fallen leaves the queue, whatever served its arrival. -/
theorem Mach.mxFall_leaves {m0 m m2 : Mach} {core : Nat} {c c0 c1 : Command} {rest : List Command} {stamp : Nat} (hb : m.blocks = m0.blocks)
    (hq : (m.core core).mq = c0 :: rest) (hc : c1.bid = c.bid ∧ c1.warp = c.warp ∧ c1.flight = c.flight)
    (hk : (m.mxFall core c1 stamp).KeepsUnits m2) : LeftQueue m0 (m2.mxLeave core) core c rest := by
  obtain ⟨hbid, hwarp, hflight⟩ := hc
  have hblocks : (m2.mxLeave core).blocks = ((m.slotStamped c1 stamp).endCommand c1).blocks := hk.blocks
  refine ⟨?_, fun id w hid hw => ?_, ?_⟩
  · rw [Mach.mxLeave, Mach.core_modCore_same, hk.mq, Mach.mxFall_core hq]
    rfl
  · have hw' : ((m.slotStamped c1 stamp).endCommand c1).warp? c1.bid c1.warp = some w := by
      rwa [Mach.warp?, Mach.block?, hblocks, ← hbid, ← hwarp] at hw
    exact Mach.endCommand_flights (hflight.trans hid) hw'
  · refine .trans (.trans (sameRegisters_of_blocks hb) (m.slotStamped_registers c1 stamp)) (.trans (Mach.endCommand_registers _ c1) ?_)
    exact sameRegisters_of_blocks hblocks

theorem Mach.mxLeave_alike (m : Mach) (core : Nat) : m.Alike (m.mxLeave core) := m.modCore_alike ..

/-- The completion stamp is noted, and nothing else. -/
theorem Mach.completionStamp_eq (m : Mach) (c : Command) (acq : Bool) : ∃ n, (m.completionStamp c acq).2 = { m with maxStamp := n } := by
  unfold Mach.completionStamp
  split_ifs
  · exact ⟨_, rfl⟩
  · exact ⟨_, rfl⟩

/-- The machine in which the command's stamp is noted and its slot has fallen. -/
def Mach.fallen (m : Mach) (core : Nat) (c : Command) (acq : Bool) : Mach :=
  (m.completionStamp c acq).2.mxFall core c (m.completionStamp c acq).1

theorem Mach.fallen_alike (m : Mach) (core : Nat) (c : Command) (acq : Bool) : m.Alike (m.fallen core c acq) := by
  obtain ⟨n, he⟩ := m.completionStamp_eq c acq
  have hnote : m.Alike (m.completionStamp c acq).2 := by
    rw [he]
    exact ⟨⟨rfl, rfl, rfl⟩, ⟨rfl, rfl⟩, ⟨rfl, rfl, rfl⟩⟩
  exact hnote.trans (Mach.mxFall_alike ..)

theorem Mach.fallen_core {m : Mach} {core : Nat} {c0 : Command} {rest : List Command} (h : (m.core core).mq = c0 :: rest) (c : Command)
    (acq : Bool) : (m.fallen core c acq).core core = { m.core core with mq := { c0 with flight := none } :: rest } := by
  obtain ⟨n, he⟩ := m.completionStamp_eq c acq
  have hcore : (m.completionStamp c acq).2.core core = m.core core := by
    rw [he]
    rfl
  rw [Mach.fallen, Mach.mxFall_core (hcore ▸ h), hcore]

theorem Mach.fallen_leaves {m0 m m2 : Mach} {core : Nat} {c c1 : Command} {rest : List Command} {acq : Bool} (hb : m.blocks = m0.blocks)
    (hq : (m.core core).mq = c1 :: rest) (hc : c.Progress c1) (hk : (m.fallen core c1 acq).KeepsUnits m2) :
    LeftQueue m0 (m2.mxLeave core) core c rest := by
  obtain ⟨n, he⟩ := m.completionStamp_eq c1 acq
  refine Mach.mxFall_leaves (by rw [he]; exact hb) (by rw [he]; exact hq) ?_ hk
  obtain ⟨_, _, _, _, _, rfl⟩ := hc
  exact ⟨rfl, rfl, rfl⟩

/-! ## Completion (R218) -/

section
variable {s : State} {core : Nat} {c : Command} {rest : List Command} {b : Block} {x : BitVec 512} {tag : Mask}
  (h : AtHead s core c rest b) (hop : c.op = .mma x tag) (hr : c.ready = true)
include h hop hr

theorem AtHead.mmaComplete_alone (hbar : (mmaParams x).bar = 0) :
    s.mach.mmaComplete s.mgmt core = (s.mach.fallen core c (mmaParams x).acq).mxLeave core := by
  have hblock : s.mach.block? c.bid = some b := h.block
  unfold Mach.mmaComplete
  simp only [h.queue, hop, hblock, hr, h.goes, hbar, Option.isSome_none, Bool.not_true, Bool.or_false, Bool.false_eq_true, if_false, if_true]
  rfl

/-- A command with a barrier object that is found and updated. -/
theorem AtHead.mmaComplete_arrives {l : Loc} {m1 m2 : Mach} (hbar : (mmaParams x).bar ≠ 0)
    (hfound : (s.mach.fallen core c (mmaParams x).acq).engBar s.mgmt (b.engineActor true) (mmaParams x).bar = (.ok l, m1))
    (hupdate : m1.engBarUpdate s.mgmt (b.engineActor true) l BarObj.arrive
      (if (mmaParams x).acq then (s.mach.completionStamp c (mmaParams x).acq).1 else 0) = (.ok (), m2)) :
    s.mach.mmaComplete s.mgmt core = m2.mxLeave core := by
  have hblock : s.mach.block? c.bid = some b := h.block
  unfold Mach.fallen at hfound
  unfold Mach.mmaComplete
  simp only [h.queue, hop, hblock, hr, h.goes, hbar, Option.isSome_none, Bool.not_true, Bool.or_false, Bool.false_eq_true, if_false,
    hfound, hupdate]

end

/-- The bytes of the object at an address once it has taken an arrival. -/
def arrived (m : Mach) (pa : Nat) : List Byte := barBytes (BarObj.arrive (barOf (BitVec.ofNat 64 (natOfBytes (memRead m.mem pa 8)))))

/-- An object in plain memory of which no line is on its way takes the arrival; the units are as they were. -/
theorem Mach.engBarUpdate_plain {m : Mach} {l : Loc} {pa : Nat} (hplace : l.place = .dev pa) (hs : l.leaf.sealed = false)
    (hp : plainRange m pa 8) (hquiet : ∀ ctx, m.wringLoc ctx l = m) (hwf : m.memoriesOk = true) (mg : Mgmt) (a : Actor) (pts : Nat) :
    ∃ m', m.engBarUpdate mg a l BarObj.arrive pts = (.ok (), m') ∧ m.KeepsUnits m' ∧ wroteBytes m m' pa (arrived m pa) := by
  obtain ⟨-, hserved⟩ := Mach.rmwDev_plain (m := m) (a := a) hs hp (by decide)
    (f := fun bs => some (barBytes (BarObj.arrive (barOf (wordOf bs))))) rfl mg pts
  refine ⟨_, ?_, m.rmwDev_keepsUnits mg a l.leaf pa 8 (fun bs => some (barBytes (BarObj.arrive (barOf (wordOf bs))))) pts,
    wroteBytes_of_mem ((Mach.memoriesOk_iff m).1 hwf).1 hserved.mem⟩
  unfold Mach.engBarUpdate
  simp only [hplace, Mach.viewOf, hs, Bool.false_eq_true, if_false, hp.good, hquiet]

theorem Mach.wringLoc_dry {m : Mach} {l : Loc} {pa : Nat} (hplace : l.place = .dev pa) (ha : pa % 8 = 0) (hn : l.n = 8)
    (hd : dryLine m (lineOf pa)) (ctx : Nat) : m.wringLoc ctx l = m := by
  have hlines : linesOf pa 8 = [lineOf pa] := by
    have hend : lineOf (pa + 8 - 1) = lineOf pa := by unfold lineOf; omega
    rw [linesOf, hend, Nat.add_sub_cancel_left]
    rfl
  unfold Mach.wringLoc
  rw [hplace, hn]
  dsimp only
  rw [hlines]
  split_ifs
  · exact Mach.wringNow_dry hd
  · rfl

theorem wroteBytes.congr {m m' n n' : Mach} (h : m.mem = n.mem) (h' : m'.mem = n'.mem) {pa : Nat} {bs : List Byte}
    (hw : wroteBytes m m' pa bs) : wroteBytes n n' pa bs := by
  unfold wroteBytes restReads at hw ⊢
  rwa [← h, ← h']

/-! ## What follows the stores of a drain (R226, R227) -/

theorem tabGet_foldSet {α : Type} (g : Nat → α) (ls : List Nat) (t : Tab α) (i : Nat) (d : α) :
    tabGet (ls.foldl (fun w i => tabSet w i (g i)) t) i d = if i ∈ ls then g i else tabGet t i d := by
  induction ls generalizing t with
  | nil => simp
  | cons j r ih =>
    rw [List.foldl_cons, ih, tabGet_set]
    by_cases h : i = j
    · simp [h]
    · simp [h]

/-- The bypass that a drain fills. -/
def drainBypass (c : Command) (mo : DrainMods) (t : Tile) : Bypass :=
  ⟨mo.fmt, (List.range 4096).foldl (fun w i => tabSet w i (BitVec.ofNat 32 (drainElem mo.fmt mo.mode mo.sat (tabGet t.words i 0)))) ⟨[]⟩,
    t.tag, c.bid⟩

theorem drainBypass_words (c : Command) (mo : DrainMods) (t : Tile) {i : Nat} (h : i < 4096) :
    tabGet (drainBypass c mo t).words i 0 = BitVec.ofNat 32 (drainElem mo.fmt mo.mode mo.sat (tabGet t.words i 0)) := by
  unfold drainBypass
  dsimp only
  rw [tabGet_foldSet, if_pos (List.mem_range.2 h)]

/-- The machine in which the bypass is filled if BYP asks for it, and the tile cleared if Z does. -/
def Mach.drainKept (m : Mach) (core : Nat) (c : Command) (mo : DrainMods) (t : Tile) : Mach :=
  let m := if mo.byp then m.modCore core fun x => { x with bypass := some (drainBypass c mo t) } else m
  if mo.z then m.modTile core c.tile fun t => { t with words := ⟨[]⟩, type := .either, tag := 0 } else m

theorem Mach.drainKept_alike (m : Mach) (core : Nat) (c : Command) (mo : DrainMods) (t : Tile) : m.Alike (m.drainKept core c mo t) := by
  unfold Mach.drainKept
  dsimp only
  split_ifs
  · exact (m.modCore_alike ..).trans (Mach.modTile_alike ..)
  · exact m.modTile_alike ..
  · exact m.modCore_alike ..
  · exact .refl m

theorem Mach.drainKept_blocks (m : Mach) (core : Nat) (c : Command) (mo : DrainMods) (t : Tile) :
    (m.drainKept core c mo t).blocks = m.blocks := by
  unfold Mach.drainKept
  dsimp only
  split_ifs <;> rfl

/-- What a drain makes of a tile that Z clears. -/
def Tile.cleared (t : Tile) : Tile := { t with words := ⟨[]⟩, type := .either, tag := 0 }

theorem Mach.drainKept_core (m : Mach) (core : Nat) (c : Command) (mo : DrainMods) (t : Tile) :
    (m.drainKept core c mo t).core core = { m.core core with
      bypass := if mo.byp then some (drainBypass c mo t) else (m.core core).bypass
      tiles := if mo.z then tabMod (m.core core).tiles c.tile Tile.cleared else (m.core core).tiles } := by
  unfold Mach.drainKept Mach.modTile
  dsimp only
  split_ifs <;> simp only [Mach.core_modCore_same] <;> rfl

theorem Mach.drainEnd_eq {m : Mach} {core : Nat} {c1 : Command} {rest : List Command} (hq : (m.core core).mq = c1 :: rest) (c : Command)
    (mo : DrainMods) (t : Tile) :
    m.drainEnd core c mo t = ((m.drainKept core c mo t).fallen core c1 mo.acq).mxLeave core := by
  have hhead : (((m.drainKept core c mo t).core core).mq.head?).getD c = c1 := by rw [Mach.drainKept_core, hq]; rfl
  rw [show m.drainEnd core c mo t = ((m.drainKept core c mo t).fallen core
    ((((m.drainKept core c mo t).core core).mq.head?).getD c) mo.acq).mxLeave core from rfl, hhead]

section
variable {m : Mach} {core : Nat} {c1 : Command} {rest : List Command} (hq : (m.core core).mq = c1 :: rest)
include hq

theorem Mach.drainEnd_leaves {m0 : Mach} (hb : m.blocks = m0.blocks) {c : Command} (hc : c.Progress c1) (mo : DrainMods) (t : Tile) :
    LeftQueue m0 (m.drainEnd core c mo t) core c rest := by
  rw [Mach.drainEnd_eq hq]
  exact Mach.fallen_leaves ((m.drainKept_blocks ..).trans hb) (by rw [Mach.drainKept_core]; exact hq) hc (.refl _)

theorem Mach.drainEnd_alike (c : Command) (mo : DrainMods) (t : Tile) : m.Alike (m.drainEnd core c mo t) := by
  rw [Mach.drainEnd_eq hq]
  exact ((m.drainKept_alike ..).trans (Mach.fallen_alike ..)).trans (Mach.mxLeave_alike ..)

theorem Mach.drainEnd_core (c : Command) (mo : DrainMods) (t : Tile) : (m.drainEnd core c mo t).core core = { m.core core with
    mq := rest
    bypass := if mo.byp then some (drainBypass c mo t) else (m.core core).bypass
    tiles := if mo.z then tabMod (m.core core).tiles c.tile Tile.cleared else (m.core core).tiles } := by
  rw [Mach.drainEnd_eq hq, Mach.mxLeave, Mach.core_modCore_same, Mach.fallen_core (by rw [Mach.drainKept_core]; exact hq),
    Mach.drainKept_core]
  rfl

end

/-! ## The rows of a drain (R226) -/

/-- The machine in which a row is written, and counted. -/
def Mach.rowStored (mg : Mgmt) (a : Actor) (core : Nat) (mo : DrainMods) (t : Tile) (m : Mach) (r : Nat × List Loc) : Mach :=
  let s := m.engStore mg a .matrix r.2 (drainRow mo.fmt mo.mode mo.sat t r.1)
  s.2.modHead core fun c => { c with row := r.1 + 1, stamp := max c.stamp s.1 }

theorem Mach.rowStored_streams (mg : Mgmt) (a : Actor) (core tile : Nat) (mo : DrainMods) (t : Tile) (m : Mach) (r : Nat × List Loc) :
    m.Streams (m.rowStored mg a core mo t r) core tile :=
  (m.engStore_keepsUnits mg a .matrix r.2 _).streams.trans (Mach.modHead_streams _ core tile fun _ => ⟨_, _, _, _, _, rfl⟩)

theorem Mach.Streams.refl (m : Mach) (core tile : Nat) : m.Streams m core tile := (Mach.KeepsUnits.refl m).streams

theorem Mach.rowsStored_streams (mg : Mgmt) (a : Actor) (core tile : Nat) (mo : DrainMods) (t : Tile) (rows : List (Nat × List Loc))
    (m : Mach) : m.Streams (rows.foldl (Mach.rowStored mg a core mo t) m) core tile :=
  List.foldlRecOn (motive := fun x => m.Streams x core tile) rows _ (.refl m core tile) fun x h r _ =>
    h.trans (x.rowStored_streams mg a core tile mo t r)

theorem Mach.drainDests_keepsUnits (m : Mach) (mg : Mgmt) (a : Actor) (data : Mask) (dest stride len : Nat) (is : List Nat) :
    m.KeepsUnits (m.drainDests mg a data dest stride len is).2 := by
  induction is generalizing m with
  | nil => exact .refl m
  | cons i r ih =>
    have hdest := m.engDest_keepsUnits mg a .tiers data (dest + i * stride) len
    unfold Mach.drainDests
    generalize m.engDest mg a .tiers data (dest + i * stride) len = e at hdest ⊢
    obtain ⟨_ | ls, m1⟩ := e
    · exact hdest
    · have hrest := hdest.trans (ih m1)
      dsimp only
      generalize m1.drainDests mg a data dest stride len r = e at hrest ⊢
      obtain ⟨_ | rows, m2⟩ := e <;> exact hrest

/-- Destinations in cached ordinary pages that take the data are all found. -/
theorem Mach.drainDests_reaches {m : Mach} {a : Actor} {data : Mask} {dest stride len : Nat} {is : List Nat}
    (h : ∀ i ∈ is, Reaches m a (dest + i * stride) len fun l => l.w = true ∧ m.storeOk a.ctx l.tag data = true) (mg : Mgmt) :
    m.drainDests mg a data dest stride len is =
      (.ok (is.map fun i => (i, m.pageLocs a (pageCuts (dest + i * stride) len))), m) := by
  induction is with
  | nil => rfl
  | cons i r ih =>
    have hi := h i (by simp)
    have hchecks : m.engChecks a data (m.pageLocs a (pageCuts (dest + i * stride) len)) = none := by
      refine List.findSome?_eq_none_iff.2 fun y hy => ?_
      obtain ⟨-, ⟨hw, hok⟩, pa, hplace, -⟩ := hi.mem_pageLocs hy
      simp [hw, Mach.writeOk, hplace, hok]
    have hdest : m.engDest mg a .tiers data (dest + i * stride) len = (.ok (m.pageLocs a (pageCuts (dest + i * stride) len)), m) := by
      simp only [Mach.engDest, Mach.engLocate_reaches hi, hchecks]
    simp only [Mach.drainDests, hdest, ih fun j hj => h j (by simp [hj]), List.map_cons]

section
variable {s : State} {core : Nat} {c : Command} {rest : List Command} {b : Block} {mo : DrainMods} {dest stride : Nat} {t : Tile}
  (h : AtHead s core c rest b) (hop : c.op = .drain mo dest stride) (ht : tabFind (s.mach.core core).tiles c.tile = some t)
  (hv : t.valid = true) (hok : drainOk t.type mo.fmt mo.byp = true)
include h hop ht hv hok

theorem AtHead.tdrain_nomem (hm : mo.nomem = true) : s.mach.tdrainRun s.mgmt core = (s.mach.headBegun core).drainEnd core c mo t := by
  have hblock : s.mach.block? c.bid = some b := h.block
  have hbegun : s.mach.modHead core (fun y => { y with begun := true }) = s.mach.headBegun core := rfl
  have htile : tabFind ((s.mach.headBegun core).core core).tiles c.tile = some t := by rw [Mach.headBegun, Mach.modHead_tiles]; exact ht
  unfold Mach.tdrainRun
  simp only [h.queue, hop, hblock, h.goes, h.begin, hbegun, htile, hv, hok, hm, Option.isSome_none, Bool.not_true, Bool.or_false,
    Bool.false_eq_true, if_false, if_true]

theorem AtHead.tdrain_rows {rows : List (Nat × List Loc)} {m1 : Mach} (hm : mo.nomem = false) (hd : dest % 16 = 0) (hs : stride % 16 = 0)
    (hrows : (s.mach.headBegun core).drainDests s.mgmt (b.engineActor true) (t.tag ||| c.tags) dest stride (8 * fmtWidth mo.fmt)
      ((List.range (64 - c.row)).map (c.row + ·)) = (.ok rows, m1)) :
    s.mach.tdrainRun s.mgmt core =
      (rows.foldl (Mach.rowStored s.mgmt (b.engineActor true) core mo t) m1).drainEnd core c mo t := by
  have hblock : s.mach.block? c.bid = some b := h.block
  have hbegun : s.mach.modHead core (fun y => { y with begun := true }) = s.mach.headBegun core := rfl
  have htile : tabFind ((s.mach.headBegun core).core core).tiles c.tile = some t := by rw [Mach.headBegun, Mach.modHead_tiles]; exact ht
  unfold Mach.tdrainRun
  simp only [h.queue, hop, hblock, h.goes, h.begin, hbegun, htile, hv, hok, hm, hd, hs, hrows, Option.isSome_none, Bool.not_true,
    Bool.or_false, Bool.false_eq_true, if_false, ne_eq, not_true_eq_false, or_self]
  rfl

omit hop ht hv hok in
/-- Whatever its rows do on their way, the drain leaves its queue. -/
theorem AtHead.tdrain_leaves {rows : List (Nat × List Loc)} {m1 : Mach}
    (hrows : (s.mach.headBegun core).drainDests s.mgmt (b.engineActor true) (t.tag ||| c.tags) dest stride (8 * fmtWidth mo.fmt)
      ((List.range (64 - c.row)).map (c.row + ·)) = (.ok rows, m1)) : ∃ c1,
    ((rows.foldl (Mach.rowStored s.mgmt (b.engineActor true) core mo t) m1).core core).mq = c1 :: rest ∧
    LeftQueue s.mach ((rows.foldl (Mach.rowStored s.mgmt (b.engineActor true) core mo t) m1).drainEnd core c mo t) core c rest := by
  have hdests := (s.mach.headBegun core).drainDests_keepsUnits s.mgmt (b.engineActor true) (t.tag ||| c.tags) dest stride
    (8 * fmtWidth mo.fmt) ((List.range (64 - c.row)).map (c.row + ·))
  rw [hrows] at hdests
  have hstreams := ((s.mach.headBegun_streams core c.tile).trans hdests.streams).trans
    (m1.rowsStored_streams s.mgmt (b.engineActor true) core c.tile mo t rows)
  obtain ⟨c1, hq, hc⟩ := hstreams.queue c rest h.queue
  exact ⟨c1, hq, Mach.drainEnd_leaves hq hstreams.blocks hc mo t⟩

end

/-- The last row of a drain is in memory once every row is written. -/
theorem Mach.rowsStored_last {m : Mach} {mg : Mgmt} {a : Actor} {core : Nat} {mo : DrainMods} {t : Tile} {rows : List (Nat × List Loc)}
    (hrows : ∀ r ∈ rows, ∀ y ∈ r.2, ∃ pa, PlainLoc m y pa) (hwf : Memory.wf m.mem = true) {i : Nat} {y : Loc} {pa : Nat}
    (hy : PlainLoc m y pa) (hn : y.n = 8 * fmtWidth mo.fmt) :
    memRead ((rows ++ [(i, [y])]).foldl (Mach.rowStored mg a core mo t) m).mem pa y.n = drainRow mo.fmt mo.mode mo.sat t i := by
  have hkeeps : m.KeepsPlain (rows.foldl (Mach.rowStored mg a core mo t) m) := by
    refine List.foldlRecOn (motive := fun x => m.KeepsPlain x) rows _ (.refl m) fun x hx r hr => hx.trans ?_
    refine (Mach.engStore_keepsPlain (fun y hy => ?_) mg a .matrix _).trans (Mach.modHead_alike ..).keepsPlain
    obtain ⟨pa, hplace, hpage, hp⟩ := hrows r hr y hy
    exact ⟨pa, hplace, hpage, hx.plain _ _ hp⟩
  have hlen : (drainRow mo.fmt mo.mode mo.sat t i).length = y.n := by rw [drainRow, bytesOfNat_length, hn]
  have hy1 : PlainLoc (rows.foldl (Mach.rowStored mg a core mo t) m) y pa := ⟨hy.place, hy.page, hkeeps.plain _ _ hy.bytes⟩
  have hmem : ((rows ++ [(i, [y])]).foldl (Mach.rowStored mg a core mo t) m).mem =
      memWrite (rows.foldl (Mach.rowStored mg a core mo t) m).mem pa (drainRow mo.fmt mo.mode mo.sat t i) := by
    rw [List.foldl_append]
    exact Mach.engStore_mem hy1 mg a .matrix _ hlen
  rw [hmem, ← hlen]
  exact memRead_write _ _ _ (hkeeps.wf hwf)

end Sys2Proof.Machine

open Sys2Proof Sys2Proof.Machine

/-- Settles O32: a command leaves its queue once its slot has fallen (`Mach.mxFall_leaves`), the object in plain memory takes the
arrival (`Mach.engBarUpdate_plain`), a drain without memory keeps its elements in the core (`Mach.drainEnd_core`), and one with memory
writes its rows where they go (`Mach.rowsStored_last`, `Mach.engStore_mem`). -/
theorem matrixCompletions : Obligations.MatrixCompletions := by
  unfold Obligations.MatrixCompletions
  refine ⟨⟨?named, ?reached⟩, ?completes, ?kept, ?drains, ?stores⟩
  case named =>
    intro s core c rest b x tag l pa h hop hr hbar hone hw ha
    have hfallen := s.mach.fallen_alike core c (mmaParams x).acq
    have hone' := hfallen.onePage hone
    have hplain : plainRange (s.mach.fallen core c (mmaParams x).acq) pa 8 := hone'.bytes
    obtain ⟨m2, hupdate, hkeeps, hwrote⟩ := Mach.engBarUpdate_plain (l := l.loc ((mmaParams x).bar, 8)) (congrArg Place.dev hone.place.symm)
      hone.page.1 hplain (fun ctx => Mach.wringLoc_ordinary hone.page.2.1 _ ctx) hone'.wf s.mgmt (b.engineActor true)
      (if (mmaParams x).acq then (s.mach.completionStamp c (mmaParams x).acq).1 else 0)
    refine does_onEvent h.on (f := fun mg m => m.mmaComplete mg core) rfl ?_
    rw [h.mmaComplete_arrives hop hr hbar (Mach.engBar_onePage hone' hw s.mgmt) hupdate]
    have hold : arrived (s.mach.fallen core c (mmaParams x).acq) pa = arrived s.mach pa := by rw [arrived, hfallen.memory.1, arrived]
    exact ⟨Mach.fallen_leaves rfl h.queue (.refl c) hkeeps, (hold ▸ hwrote).congr hfallen.memory.1 rfl⟩
  case reached =>
    intro s core c rest b mo dest stride y h hop hy hv hok hm hd hs hwf hreach
    have hbegun := s.mach.headBegun_alike core
    have hreach' (i : Nat) (hi : i ∈ (List.range (64 - c.row)).map (c.row + ·)) : Reaches (s.mach.headBegun core) (b.engineActor true)
        (dest + i * stride) (8 * fmtWidth mo.fmt) fun l => l.w = true ∧ (s.mach.headBegun core).storeOk b.ctx l.tag (y.tag ||| c.tags) = true := by
      obtain ⟨k, hk, rfl⟩ := List.mem_map.1 hi
      have := List.mem_range.1 hk
      exact hbegun.reaches (hreach _ (by omega) (by omega))
    have hrows := Mach.drainDests_reaches hreach' s.mgmt
    obtain ⟨c1, hq, hleft⟩ := h.tdrain_leaves (t := y) hrows
    refine does_onEvent h.on (f := fun mg m => m.tdrainRun mg core) rfl ?_
    rw [h.tdrain_rows hop hy hv hok hm hd hs hrows]
    refine ⟨hleft, fun hrow l pa hone => ?_⟩
    have hone' := hbegun.onePage hone
    have hlast : (s.mach.headBegun core).pageLocs (b.engineActor true) (pageCuts (dest + 63 * stride) (8 * fmtWidth mo.fmt)) =
        [l.loc (dest + 63 * stride, 8 * fmtWidth mo.fmt)] := by
      rw [pageCuts_one hone.inside]
      simp [Mach.pageLocs, hone'.leaf]
    have hsplit : (List.range (64 - c.row)).map (c.row + ·) = (List.range (63 - c.row)).map (c.row + ·) ++ [63] := by
      rw [show 64 - c.row = 63 - c.row + 1 by omega, List.range_succ, List.map_append, List.map_singleton,
        show c.row + (63 - c.row) = 63 by omega]
    rw [(Mach.drainEnd_alike hq c mo y).memory.1, hsplit, List.map_append, List.map_singleton, hlast]
    refine Mach.rowsStored_last (fun r hr z hz => ?_) (((Mach.memoriesOk_iff _).1 hone'.wf).1)
      (y := l.loc (dest + 63 * stride, 8 * fmtWidth mo.fmt)) ⟨congrArg Place.dev hone.place.symm, ⟨hone.page.1, hone.page.2.1⟩, hone'.bytes⟩ rfl
    obtain ⟨i, hi, rfl⟩ := List.mem_map.1 hr
    obtain ⟨⟨hsealed, hdamp, -⟩, -, pa', hplace, hp⟩ :=
      (hreach' i (by rw [hsplit]; exact List.mem_append_left _ hi)).mem_pageLocs hz
    exact ⟨pa', hplace, ⟨hsealed, hdamp⟩, hp⟩
  case completes =>
    intro s core c rest b x tag h hop hr
    refine ⟨fun hbar => ?_, fun l m1 pa hbar hfound hblocks hcores hplace hsealed ha hn hwf hp hdry => ?_⟩
    · refine does_onEvent h.on (f := fun mg m => m.mmaComplete mg core) rfl ?_
      rw [h.mmaComplete_alone hop hr hbar]
      exact ⟨Mach.fallen_leaves rfl h.queue (.refl c) (.refl _), ((s.mach.fallen_alike ..).trans (Mach.mxLeave_alike ..)).memory⟩
    · obtain ⟨m2, hupdate, hkeeps, hread, hrest⟩ := Mach.engBarUpdate_plain hplace hsealed hp (Mach.wringLoc_dry hplace ha hn hdry) hwf s.mgmt
        (b.engineActor true) (if (mmaParams x).acq then (s.mach.completionStamp c (mmaParams x).acq).1 else 0)
      refine does_onEvent h.on (f := fun mg m => m.mmaComplete mg core) rfl ?_
      rw [h.mmaComplete_arrives hop hr hbar hfound hupdate]
      exact ⟨Mach.fallen_leaves rfl h.queue (.refl c) (.trans (.of_eq hblocks hcores) hkeeps), hrest, hread⟩
  case kept =>
    intro s core c rest b mo dest stride t h hop ht hv hok hm
    have hq : ((s.mach.headBegun core).core core).mq = { c with begun := true } :: rest := by
      rw [Mach.headBegun, Mach.modHead_cons h.queue]
    have hcore := Mach.drainEnd_core hq c mo t
    rw [Mach.headBegun, Mach.modHead_cons h.queue] at hcore
    have hmemory := ((s.mach.headBegun_alike core).trans (Mach.drainEnd_alike hq c mo t)).memory
    refine does_onEvent h.on (f := fun mg m => m.tdrainRun mg core) rfl ?_
    rw [h.tdrain_nomem hop ht hv hok hm]
    refine ⟨Mach.drainEnd_leaves (m0 := s.mach) hq rfl ⟨_, _, _, _, _, rfl⟩ mo t, hmemory, ?_, ?_⟩
    · dsimp only
      rw [Mach.headBegun, hcore]
      cases hbyp : mo.byp with
      | true => exact ⟨drainBypass c mo t, rfl, rfl, rfl, rfl, fun i hi => drainBypass_words c mo t hi⟩
      | false => rfl
    · dsimp only
      rw [Mach.headBegun, hcore]
      cases hz : mo.z with
      | true => exact ⟨t.cleared, by simp only [if_true, tabFind_mod, ht, Option.map_some], rfl, rfl, rfl, hv⟩
      | false => exact ⟨t, ht, rfl⟩
  case drains =>
    intro s core c rest b mo dest stride t rows m1 h hop ht hv hok hm hd hs hrows
    obtain ⟨c1, hq, hleft⟩ := h.tdrain_leaves hrows
    refine does_onEvent h.on (f := fun mg m => m.tdrainRun mg core) rfl ?_
    rw [h.tdrain_rows hop ht hv hok hm hd hs hrows]
    exact hleft
  case stores =>
    intro m mg a l bs pa hplace hsealed hdamp hlen hn hmax hwf hp
    have hy : PlainLoc m l pa := ⟨hplace, ⟨hsealed, hdamp⟩, hp⟩
    obtain ⟨hread, hrest⟩ := wroteBytes_of_mem ((Mach.memoriesOk_iff m).1 hwf).1 (Mach.engStore_mem hy mg a .matrix bs hlen)
    rw [hlen] at hread hrest
    exact ⟨hread, hrest, fun x hlo hhi => Mach.engStore_stamps hy mg a .matrix bs hlo hhi⟩

end

section
/-! SUPPORT. Mailbox commands that are expected and may be given (R331, R332): what their reply leaves of the function, and what the
commands of a level do where their arguments name what they should. -/

namespace Sys2Proof.Machine

/-! ## Functions after an update -/

@[simp] theorem Mgmt.fn_setFn (mg : Mgmt) (f k : Nat) (x : Fn) : (mg.setFn f x).fn k = if k = f then x else mg.fn k := tabGet_set ..

@[simp] theorem Mgmt.setFn_setFn (mg : Mgmt) (f : Nat) (x y : Fn) : (mg.setFn f x).setFn f y = mg.setFn f y := by
  simp only [Mgmt.setFn, tabSet_set]

/-- The function once a message is taken (R331). -/
def Fn.took (x : Fn) (h : MboxHead) : Fn := { x with inSeq := seqAfter h.seq, lastIn := h.seq, sent := afterAck h.ack x.sent }

theorem Mgmt.fn_taken (mg : Mgmt) (h : MboxHead) (k : Nat) :
    (mg.taken h).fn k = if k = h.fn then (mg.fn h.fn).took h else mg.fn k := mg.fn_setFn ..

@[simp] theorem Mgmt.expert_taken (mg : Mgmt) (h : MboxHead) (k : Nat) : ((mg.taken h).fn k).expert = (mg.fn k).expert := by
  rw [Mgmt.fn_taken]
  split_ifs with e
  · rw [e]; rfl
  · rfl

@[simp] theorem Mgmt.session_taken (mg : Mgmt) (h : MboxHead) (k : Nat) : ((mg.taken h).fn k).session = (mg.fn k).session := by
  rw [Mgmt.fn_taken]
  split_ifs with e
  · rw [e]; rfl
  · rfl

@[simp] theorem Mgmt.isLocked_taken (mg : Mgmt) (h : MboxHead) (k : Nat) : (mg.taken h).isLocked k = mg.isLocked k := by
  unfold Mgmt.isLocked
  rw [Mgmt.fn_taken]
  split_ifs with e
  · rw [e]; rfl
  · rfl

/-! ## Replies (R330, R331) -/

/-- The function once it is answered. -/
def Fn.replied (x : Fn) (cmd : Nat) (seq : BitVec 16) (a : Answer) : Fn :=
  let msg := mbMessage x.outSeq x.lastIn cmd a
  { x with
    rings := memWrite x.rings (ringOut + 64 * x.outSlot.toNat) (bytesOfNat msg.toNat 64), outSlot := x.outSlot + 1
    outSeq := seqAfter x.outSeq, sent := x.sent ++ [msg], kept := (x.kept ++ [(seq, msg)]).drop (x.kept.length + 1 - 16) }

theorem reply_setFn (mg : Mgmt) (m : Mach) (f cmd : Nat) (seq : BitVec 16) (a : Answer) :
    reply mg m f cmd seq a = (mg.setFn f ((mg.fn f).replied cmd seq a), { m with signals := m.signals ++ [.msix f 0] }) := by
  simp only [reply, sendNew, writeMessage, Mgmt.modFn, Mgmt.fn_setFn, Mgmt.setFn_setFn, if_true]
  rfl

/-- The newest of the kept replies is never the one that goes. -/
theorem Fn.replied_kept (x : Fn) (cmd : Nat) (seq : BitVec 16) (a : Answer) :
    (seq, mbMessage x.outSeq x.lastIn cmd a) ∈ (x.replied cmd seq a).kept := by
  simp only [Fn.replied]
  rw [List.drop_append_of_le_length (by omega)]
  exact List.mem_append_right _ (List.mem_singleton.2 rfl)

theorem Fn.replied_answers {x : Fn} {h : MboxHead} (hin : x.inSeq = seqAfter h.seq) (hlast : x.lastIn = h.seq) (cmd : Nat) (a : Answer)
    (m : Mach) : Answered x (x.replied cmd h.seq a) m { m with signals := m.signals ++ [.msix h.fn 0] } h cmd a where
  ring := by rw [← hlast]; rfl
  slot := rfl
  seq := rfl
  kept := by have hk := x.replied_kept cmd h.seq a; rwa [hlast] at hk
  vector := rfl
  next := hin
  sent := by rw [← hlast]; rfl

/-- A command that is expected and answers at once is replied to, where it leaves its function's numbers as they were taken. -/
theorem Expected.replies {s : State} {h : MboxHead} (he : Expected s h) {i : Instr} {cmd : Nat} {run : Command_} {a : Answer} {mg : Mgmt}
    {m : Mach} (hi : exec i s = onModule (receive h cmd run) s) (hr : run (s.mgmt.taken h) s.mach = (some a, mg, m))
    (hseq : (mg.fn h.fn).inSeq = seqAfter h.seq ∧ (mg.fn h.fn).lastIn = h.seq) : Replies i s h cmd a mg m := by
  refine does_onModule he.on hi ?_
  rw [receive_expected he, hr]
  dsimp only
  rw [reply_setFn]
  refine ⟨rfl, rfl, fun k hk => by rw [Mgmt.fn_setFn, if_neg hk], ?_⟩
  rw [Mgmt.fn_setFn, if_pos rfl]
  exact Fn.replied_answers hseq.1 hseq.2 cmd a m

theorem Mgmt.taken_seq (mg : Mgmt) (h : MboxHead) :
    ((mg.taken h).fn h.fn).inSeq = seqAfter h.seq ∧ ((mg.taken h).fn h.fn).lastIn = h.seq := by
  rw [Mgmt.fn_taken, if_pos rfl]
  exact ⟨rfl, rfl⟩

/-! ## Levels (R332) -/

/-- The function may give a command of this level. -/
theorem Mgmt.may_taken {mg : Mgmt} {h : MboxHead} {pf expert : Bool} (hp : pf = true → h.fn = 0)
    (hx : expert = true → h.fn = 0 ∨ (mg.fn h.fn).expert = true) : (mg.taken h).may h.fn pf expert = true := by
  cases pf <;> cases expert <;> simp_all [Mgmt.may]

/-- A command that its function may give, and whose arguments name what they should, runs. -/
theorem command_runs {h : MboxHead} {pf expert : Bool} {named : Mgmt → Mach → Bool} {run : Command_} {mg : Mgmt} {m : Mach}
    (hm : mg.may h.fn pf expert = true) (hn : named mg m = true) : command h pf expert named run mg m = run mg m := by
  simp [command, hm, hn]

/-- The same of a command of the basic level. -/
theorem command_basic {h : MboxHead} {named : Mgmt → Mach → Bool} {run : Command_} {mg : Mgmt} {m : Mach} (hn : named mg m = true) :
    command h false false named run mg m = run mg m := command_runs rfl hn

theorem unlessLocked_free {mg : Mgmt} {fn : Nat} (h : mg.isLocked fn = false) (run : Command_) (m : Mach) :
    unlessLocked fn run mg m = run mg m := by simp [unlessLocked, h]

theorem unlessLocked_locked {mg : Mgmt} {fn : Nat} (h : mg.isLocked fn = true) (run : Command_) (m : Mach) :
    unlessLocked fn run mg m = refuse .denied mg m := by simp [unlessLocked, h]

end Sys2Proof.Machine
end

section
/-! SUPPORT. What each mailbox command changes (R242, R265, R314, R332). -/

namespace Sys2Proof.Machine

variable {α : Type}

/-! ## POOLADD (R240, R332) -/

theorem Mach.owns_has {m : Mach} {f ctx : Nat} (h : m.owns f ctx = true) : tabHas m.ctxs ctx = true := by
  simp only [Mach.owns, Bool.and_eq_true] at h
  exact h.1

theorem Mach.modCtx_has {m : Mach} {ctx : Nat} (h : tabHas m.ctxs ctx = true) (f : Ctx → Ctx) :
    m.modCtx ctx f = m.setCtx ctx (f (m.ctx ctx)) := by
  obtain ⟨c, hc⟩ := Option.isSome_iff_exists.1 h
  simp [Mach.modCtx, Mach.setCtx, Mach.ctx, tabGet, tabMod_some _ hc, hc]

theorem pooladdRun_owned {m : Mach} {ctx : Nat} (h : tabHas m.ctxs ctx = true) (capacity : Bool) (frames : List PoolFrame) (mg : Mgmt) :
    pooladdRun ctx capacity frames mg m = done_ mg (m.setCtx ctx { m.ctx ctx with
      poolFast := (m.ctx ctx).poolFast ++ if capacity then [] else frames
      poolCap := (m.ctx ctx).poolCap ++ if capacity then frames else [] }) := by
  rw [pooladdRun, Mach.modCtx_has h]
  cases capacity <;> simp

/-! ## KEYPROV (R314) -/

/-- A list shorter than `n` leaves a number below `n` free. -/
theorem lowestFree_some {n : Nat} {used : List Nat} (h : used.length < n) : ∃ k, lowestFree n used = some k ∧ k < n ∧ k ∉ used := by
  cases hf : lowestFree n used with
  | none =>
    have hall : List.range n ⊆ used := fun i hi => by simpa using List.find?_eq_none.1 hf i hi
    have hle : (List.range n).length ≤ used.length := (List.nodup_range.subperm hall).length_le
    rw [List.length_range] at hle
    omega
  | some k =>
    have hfree := List.find?_some hf
    exact ⟨k, rfl, List.mem_range.1 (List.mem_of_find?_eq_some hf), by simpa using hfree⟩

/-- A vault with room has a handle for a key: not zero, and of no other key. -/
theorem pickHandle_fresh {mg : Mgmt} (h : mg.vault.length < 1024) : pickHandle mg ≠ 0 ∧ ∀ k ∈ mg.vault, k.handle ≠ pickHandle mg := by
  unfold pickHandle
  dsimp only
  split_ifs with hused
  · obtain ⟨i, hi, hlt, hfree⟩ := lowestFree_some (n := 1025) (used := mg.vault.map fun k => k.handle.toNat - 1) (by simpa using by omega)
    have hval : (BitVec.ofNat 32 (1 + i)).toNat = 1 + i := by rw [BitVec.toNat_ofNat]; omega
    rw [hi, Option.getD_some]
    refine ⟨fun e => ?_, fun k hk e => hfree (List.mem_map.2 ⟨k, hk, ?_⟩)⟩
    · rw [e, show (0 : Word).toNat = 0 from rfl] at hval
      omega
    · rw [e, hval]
      omega
  · simpa only [Bool.or_eq_true, beq_iff_eq, List.any_eq_true, not_or, not_exists, not_and] using hused

theorem keyprovRun_room {mg : Mgmt} {fn : Nat} (hs : (mg.fn fn).session = true) (hr : mg.vault.length < 1024) (ctx : Nat) (key : BitVec 256)
    (m : Mach) : keyprovRun fn ctx key mg m = (some { status := .ok, words := [pickHandle mg] },
      { mg with vault := mg.vault ++ [⟨pickHandle mg, ctx, key⟩], vaultNo := mg.vaultNo + 1 }, m) := by
  simp [keyprovRun, hs, hr]

/-! ## CHECKPOINT (R242) -/

theorem receive_checkpoint {s : State} {h : MboxHead} (he : Expected s h) (hf : h.fn = 0) (hj : s.mgmt.jobs = []) :
    receive h 6 (quiesceCmd h .checkpoint) s.mgmt s.mach =
      ({ s.mgmt.taken h with jobs := [⟨.checkpoint, 0, h.seq⟩] }, s.mach.drainEvery (s.mgmt.taken h)) := by
  have ht : (s.mgmt.taken h).jobs = [] := hj
  have hrun : quiesceCmd h .checkpoint (s.mgmt.taken h) s.mach =
      (none, { s.mgmt.taken h with jobs := [⟨.checkpoint, 0, h.seq⟩] }, s.mach.drainEvery (s.mgmt.taken h)) := by
    rw [quiesceCmd, command_runs (Mgmt.may_taken (fun _ => hf) (by simp)) rfl]
    simp [quiesceRun, startJob, Mgmt.quiescing, ht, hf]
  rw [receive_expected he, hrun]

theorem finishJob_checkpoint {mg : Mgmt} {m : Mach} {j : Job} {rest : List Job} (hj : mg.jobs = j :: rest) (hk : j.kind = .checkpoint)
    (hq : m.quiet = true) : ∃ fns, finishJob mg m = ({ mg with jobs := rest, check := some m.image, fns := fns }, m.imagedFor j.fn) := by
  let taken := takeCheckpoint { mg with jobs := rest } m
  obtain ⟨fns, hr⟩ := reply_eq taken.1 taken.2 j.fn 6 j.seq { status := .ok }
  refine ⟨fns, ?_⟩
  simp only [finishJob, hj, hk, hq, Bool.not_true, Bool.false_eq_true, if_false]
  rw [hr]
  rfl

theorem Mach.imagedFor_clean {m : Mach} {fn l : Nat} {r : Resident} (h : tabFind (m.imagedFor fn).lines l = some r) : r.dirty = false := by
  rw [show (m.imagedFor fn).lines = tabMap (fun r => { r with dirty := false }) m.lines from rfl, tabFind_map] at h
  obtain ⟨_, -, rfl⟩ := Option.map_eq_some_iff.1 h
  rfl

/-! ## ASSIGN (R332) -/

/-- In a rising table a filter admits an entry by its key and its value. -/
theorem cellsFind_filterCell (p : Nat × α → Bool) (k : Nat) {l : List (Nat × α)} (h : cellsRising l = true) :
    cellsFind k (l.filter p) = (cellsFind k l).filter fun x => p (k, x) := by
  induction l with
  | nil => rfl
  | cons c r ih =>
    obtain ⟨ha, hr⟩ := (cellsRising_cons _ _).1 h
    obtain ⟨j, y⟩ := c
    have hnone : j = k → cellsFind k r = none := fun e => e ▸ cellsFind_none_of_above ha
    by_cases e : j = k
    · subst e
      cases hp : p (j, y) <;> simp [hp, cellsFind, ih hr, hnone rfl, Option.filter]
    · cases hp : p (j, y) <;> simp [hp, cellsFind, ih hr, e]

/-- The queue once it is a function's: a queue that changes its function is bound to no context. -/
def Queue.givenTo (q : Queue) (f : Nat) : Queue := if q.fn = f then q else { q with fn := f, ctx := none }

theorem Queue.givenTo_fn (q : Queue) (f : Nat) : (q.givenTo f).fn = f := by
  unfold Queue.givenTo
  split_ifs with h
  · exact h
  · rfl

theorem Queue.givenTo_givenTo (q : Queue) (f : Nat) : (q.givenTo f).givenTo f = q.givenTo f := by
  rw [Queue.givenTo, if_pos (q.givenTo_fn f)]

/-- What `givenTo` leaves, by the function that it leaves. -/
theorem Queue.givenTo_eq (q : Queue) (f : Nat) :
    q.givenTo f = if (q.givenTo f).fn = q.fn then q else { q with fn := (q.givenTo f).fn, ctx := none } := by
  rw [Queue.givenTo_fn, Queue.givenTo]
  by_cases h : q.fn = f
  · rw [if_pos h, if_pos h.symm]
  · rw [if_neg h, if_neg (Ne.symm h)]

/-- Queues of a list become another's, one after another. -/
theorem Mach.queue_giveAll (qs : List Nat) (f : Nat) (m : Mach) (k : Nat) :
    (qs.foldl (fun m q => m.modQueue q fun x => x.givenTo f) m).queue k = if k ∈ qs then (m.queue k).givenTo f else m.queue k := by
  induction qs generalizing m with
  | nil => simp
  | cons q r ih =>
    rw [List.foldl_cons, ih, Mach.queue_modQueue]
    by_cases e : k = q
    · subst e
      simp [Queue.givenTo_givenTo]
    · simp [e]

theorem Mach.giveAll_queues (qs : List Nat) (f : Nat) (m : Mach) :
    ∃ queues, qs.foldl (fun m q => m.modQueue q fun x => x.givenTo f) m = { m with queues := queues } :=
  List.foldlRecOn (motive := fun x : Mach => ∃ queues, x = { m with queues := queues }) qs _ ⟨_, rfl⟩
    fun x hx _ _ => by obtain ⟨_, rfl⟩ := hx; exact ⟨_, rfl⟩

/-- Entries of the table of queues are written back, changed. -/
theorem Mach.setQueues_eq (g : Queue → Queue) (l : List (Nat × Queue)) (m : Mach) :
    l.foldl (fun m q => m.setQueue q.1 (g q.2)) m =
      { m with queues := (l.map fun c => (c.1, g c.2)).foldl (fun t x => tabSet t x.1 x.2) m.queues } := by
  induction l generalizing m with
  | nil => rfl
  | cons c r ih => rw [List.foldl_cons, ih]; rfl

/-- The entries that a function no longer has, as they are written back: the physical one's. -/
theorem Mach.takeBack_find {m : Mach} (h : cellsRising m.queues.cells = true) (fn : Nat) (qs : List Nat) (k : Nat) :
    tabFind ((m.queues.cells.filter fun q => q.2.fn == fn && !qs.contains q.1).foldl
        (fun m q => m.setQueue q.1 (q.2.givenTo 0)) m).queues k =
      (((tabFind m.queues k).filter fun x => x.fn == fn && !qs.contains k).map fun q => q.givenTo 0).or (tabFind m.queues k) := by
  have hkept : cellsRising (m.queues.cells.filter fun q => q.2.fn == fn && !qs.contains q.1) = true := filter_rising _ h
  have hfind : cellsFind k (m.queues.cells.filter fun q => q.2.fn == fn && !qs.contains q.1) =
      (tabFind m.queues k).filter fun x => x.fn == fn && !qs.contains k := cellsFind_filterCell _ k h
  have hmap : cellsFind k ((m.queues.cells.filter fun q => q.2.fn == fn && !qs.contains q.1).map fun c => (c.1, c.2.givenTo 0)) = _ :=
    tabFind_map (fun q : Queue => q.givenTo 0) ⟨_⟩ k
  have hrise : cellsRising ((m.queues.cells.filter fun q => q.2.fn == fn && !qs.contains q.1).map fun c => (c.1, c.2.givenTo 0)) = true :=
    tabMap_rising (fun q : Queue => q.givenTo 0) (t := ⟨_⟩) hkept
  rw [Mach.setQueues_eq fun q => q.givenTo 0]
  dsimp only
  rw [tabFind_load hrise, hmap, tabFind, hfind]

theorem Mach.queue_takeBack {m : Mach} (h : cellsRising m.queues.cells = true) (fn : Nat) (qs : List Nat) (k : Nat) :
    ((m.queues.cells.filter fun q => q.2.fn == fn && !qs.contains q.1).foldl (fun m q => m.setQueue q.1 (q.2.givenTo 0)) m).queue k =
      if (m.queue k).fn = fn ∧ k ∉ qs then (m.queue k).givenTo 0 else m.queue k := by
  have hget (n : Mach) : n.queue k = (tabFind n.queues k).getD Queue.reset := rfl
  rw [hget m, hget, Mach.takeBack_find h]
  cases tabFind m.queues k with
  | none =>
    -- an unlisted queue is as at reset, the physical function's
    simp only [Option.filter_none, Option.map_none, Option.none_or, Option.getD_none]
    split_ifs <;> rfl
  | some x =>
    by_cases hp : x.fn = fn ∧ k ∉ qs
    · simp [Option.filter, hp]
    · have hkeep : (x.fn == fn && !qs.contains k) = false := by simpa using hp
      simp only [Option.filter, hkeep, Option.getD_some, if_neg hp]
      rfl

/-- The clusters that a function keeps while others are given away. -/
def Mach.assigned (m : Mach) (fn : Nat) (cs : List Nat) : Tab (List Nat) :=
  tabSet (tabMap (fun l => l.filter fun k => !cs.contains k) (tabFilter (fun k _ => k != fn) m.clusters)) fn (dedup cs)

theorem Mach.mem_assigned (m : Mach) (fn : Nat) (cs : List Nat) (f k : Nat) :
    k ∈ tabGet (m.assigned fn cs) f [] ↔ if f = fn then k ∈ cs else k ∈ tabGet m.clusters f [] ∧ k ∉ cs := by
  rw [Mach.assigned, tabGet_set]
  by_cases e : f = fn
  · rw [if_pos e, if_pos e, mem_dedup]
  · rw [if_neg e, if_neg e, tabGet, tabFind_map, tabFind_filterKey fun k => k != fn, if_pos (by simpa using e), tabGet]
    cases tabFind m.clusters f <;> simp

/-- The machine once a function has these clusters and queues. -/
def Mach.assign (m : Mach) (fn : Nat) (cs qs : List Nat) : Mach :=
  let m := { m with clusters := m.assigned fn cs }
  let m := (m.queues.cells.filter fun q => q.2.fn == fn && !qs.contains q.1).foldl (fun m q => m.setQueue q.1 (q.2.givenTo 0)) m
  qs.foldl (fun m q => m.modQueue q fun x => x.givenTo fn) m

theorem assignRun_eq (fn : Nat) (cs qs : List Nat) (mg : Mgmt) (m : Mach) : assignRun fn cs qs mg m = done_ mg (m.assign fn cs qs) := rfl

theorem Mach.assign_eq (m : Mach) (fn : Nat) (cs qs : List Nat) :
    ∃ queues, m.assign fn cs qs = { m with clusters := m.assigned fn cs, queues := queues } := by
  unfold Mach.assign
  dsimp only
  rw [Mach.setQueues_eq fun q => q.givenTo 0]
  obtain ⟨queues, e⟩ := Mach.giveAll_queues qs fn { m with clusters := m.assigned fn cs, queues := _ }
  exact ⟨queues, e⟩

theorem Mach.queue_assign {m : Mach} (h : cellsRising m.queues.cells = true) (fn : Nat) (cs qs : List Nat) (k : Nat) :
    (m.assign fn cs qs).queue k =
      if k ∈ qs then (m.queue k).givenTo fn else if (m.queue k).fn = fn then (m.queue k).givenTo 0 else m.queue k := by
  have hback := Mach.queue_takeBack (m := { m with clusters := m.assigned fn cs }) h fn qs k
  have hsame : ({ m with clusters := m.assigned fn cs } : Mach).queue k = m.queue k := rfl
  rw [hsame] at hback
  rw [Mach.assign, Mach.queue_giveAll]
  dsimp only at hback ⊢
  rw [hback]
  by_cases hk : k ∈ qs <;> simp [hk]

/-- The assignment of a queue, and what else the move leaves of it. -/
theorem Mach.queue_assign_fn {m : Mach} (h : cellsRising m.queues.cells = true) (fn : Nat) (cs qs : List Nat) (k : Nat) :
    ((m.assign fn cs qs).queue k).fn = (if k ∈ qs then fn else if (m.queue k).fn = fn then 0 else (m.queue k).fn) ∧
      (m.assign fn cs qs).queue k = if ((m.assign fn cs qs).queue k).fn = (m.queue k).fn then m.queue k
        else { m.queue k with fn := ((m.assign fn cs qs).queue k).fn, ctx := none } := by
  have hassign := Mach.queue_assign h fn cs qs k
  by_cases hk : k ∈ qs
  · rw [if_pos hk] at hassign ⊢
    rw [hassign]
    exact ⟨Queue.givenTo_fn .., Queue.givenTo_eq ..⟩
  rw [if_neg hk] at hassign ⊢
  by_cases hf : (m.queue k).fn = fn
  · rw [if_pos hf] at hassign ⊢
    rw [hassign]
    exact ⟨Queue.givenTo_fn .., Queue.givenTo_eq ..⟩
  · rw [if_neg hf] at hassign ⊢
    rw [hassign, if_pos rfl]
    exact ⟨rfl, rfl⟩

/-! ## DEBUG (R332) -/

theorem debugNamed_regOk {f : Nat} {a : DebugAccess} {mg : Mgmt} {m : Mach} (h : debugNamed f a mg m = true) : ∃ has, debugRegOk has a = true := by
  unfold debugNamed at h
  split at h
  · simp only [Bool.and_eq_true] at h
    exact ⟨_, h.2⟩
  · cases h

theorem debugReg_inWarp {has : Nat → Bool} {a : DebugAccess} (h : debugRegOk has a = true) {w : Warp} (hw : w.lanes.length = 32) :
    (debugReg a).inWarp w := by
  cases a <;> simp_all [debugRegOk, debugReg, RegName.inWarp]

/-- A predicate register holds what a write of one brings. -/
theorem debugValue_trim {a : DebugAccess} {x : Word} (h : debugValue a = some x) (tag : Mask) : (debugReg a).trim ⟨x, tag⟩ = ⟨x, tag⟩ := by
  cases a <;> simp_all [debugValue, debugReg, RegName.trim]
  · subst h
    simp

theorem debugRun_read {a : DebugAccess} (h : debugValue a = none) {m : Mach} {b : Block} {w : Warp}
    (hw : Stands m (debugPlace a).1 (debugPlace a).2 b w) (mg : Mgmt) :
    debugRun a mg m = (some { status := .ok, words := [debugRead w (debugReg a)] }, mg, m) := by
  have hwarp : m.warp? (debugPlace a).1 (debugPlace a).2 = some w := by
    rw [Mach.warp?, Mach.block?, hw.block]; exact hw.warp
  simp only [debugRun, hwarp, h]

/-- The write of a register that keeps its mask. -/
def debugWrite (a : DebugAccess) (x : Word) (w : Warp) : Warp := w.setReg (debugReg a) ⟨x, (w.getReg (debugReg a)).tag⟩

theorem debugRun_write {a : DebugAccess} {x : Word} (h : debugValue a = some x) {m : Mach} {b : Block} {w : Warp}
    (hw : Stands m (debugPlace a).1 (debugPlace a).2 b w) (mg : Mgmt) :
    debugRun a mg m = done_ mg (m.modWarp (debugPlace a).1 (debugPlace a).2 (debugWrite a x)) := by
  have hwarp : m.warp? (debugPlace a).1 (debugPlace a).2 = some w := by
    rw [Mach.warp?, Mach.block?, hw.block]; exact hw.warp
  simp only [debugRun, hwarp, h]
  rfl

theorem debugRead_eq (w : Warp) (r : RegName) : ((∀ k, r = .p k 7 → debugRead w r = 15) ∧
    ((∀ k, r ≠ .p k 7) → debugRead w r = (w.getReg r).val)) := by
  cases r with
  | p k n =>
    unfold debugRead
    by_cases e : n = 7
    · subst e; simp
    · simp [e]
  | v k n => simp [debugRead]
  | s n => simp [debugRead]

end Sys2Proof.Machine
end

section
/-! SUPPORT. The mailbox commands, each with its answer (R242, R265, R314, R332, R333). -/

namespace Sys2Proof.Machine

theorem assignLocked_taken (mg : Mgmt) (h : MboxHead) (m : Mach) (fn : Nat) (qs : List Nat) :
    assignLocked (mg.taken h) m fn qs = assignLocked mg m fn qs := by simp [assignLocked]

section
variable {s : State} {h : MboxHead} (he : Expected s h)
include he

/-! ## The basic level -/

theorem Expected.pooladd {ctx : Nat} {frames : List PoolFrame} (ho : s.mach.owns h.fn ctx = true) (hf : frames.all frameOk = true)
    (capacity : Bool) {a : Answer} {m : Mach}
    (hr : unlessLocked h.fn (pooladdRun ctx capacity frames) (s.mgmt.taken h) s.mach = (some a, s.mgmt.taken h, m)) :
    Replies (.pooladd h ctx capacity frames) s h 4 a (s.mgmt.taken h) m :=
  he.replies rfl ((command_basic (by rw [ho, hf]; rfl)).trans hr) (s.mgmt.taken_seq h)

theorem Expected.setaper {ctx : Nat} (ho : s.mach.owns h.fn ctx = true) (base : BitVec 48) {a : Answer} {mg : Mgmt}
    (hr : unlessLocked h.fn (setaperRun h.fn ctx base) (s.mgmt.taken h) s.mach = (some a, mg, s.mach))
    (hseq : (mg.fn h.fn).inSeq = seqAfter h.seq ∧ (mg.fn h.fn).lastIn = h.seq) :
    Replies (.setaper h ctx base) s h 5 a mg s.mach :=
  he.replies rfl ((command_basic ho).trans hr) hseq

theorem Expected.keyprov {ctx : Nat} (ho : s.mach.owns h.fn ctx = true) (key : BitVec 256) {a : Answer} {mg : Mgmt}
    (hr : keyprovRun h.fn ctx key (s.mgmt.taken h) s.mach = (some a, mg, s.mach)) (hfns : mg.fns = (s.mgmt.taken h).fns) :
    Replies (.keyprov h ctx key) s h 8 a mg s.mach :=
  he.replies rfl ((command_basic ho).trans hr) (by unfold Mgmt.fn; rw [hfns]; exact s.mgmt.taken_seq h)

/-! ## Commands of the physical function and of the expert level -/

theorem Expected.dumprd (hf : h.fn = 0) {a : Answer} (hr : dumprdRun (s.mgmt.taken h) s.mach = (some a, s.mgmt.taken h, s.mach)) :
    Replies (.dumprd h) s h 20 a (s.mgmt.taken h) s.mach :=
  he.replies rfl ((command_runs (Mgmt.may_taken (fun _ => hf) fun _ => .inl hf) rfl).trans hr) (s.mgmt.taken_seq h)

theorem Expected.assign (hf : h.fn = 0) {fn : Nat} {cs qs : List Nat} (hn : assignNamed fn cs qs s.mgmt s.mach = true) {a : Answer} {m : Mach}
    (hr : (if assignLocked s.mgmt s.mach fn qs then refuse .denied (s.mgmt.taken h) s.mach
      else assignRun fn cs qs (s.mgmt.taken h) s.mach) = (some a, s.mgmt.taken h, m)) :
    Replies (.assign h fn cs qs) s h 16 a (s.mgmt.taken h) m := by
  refine he.replies (run := assignCmd h fn cs qs) rfl ?_ (s.mgmt.taken_seq h)
  rw [assignCmd, command_runs (Mgmt.may_taken (fun _ => hf) fun _ => .inl hf) hn, assignLocked_taken, hr]

theorem Expected.grant (hf : h.fn = 0) {fn : Nat} (h1 : 1 ≤ fn) (h2 : fn < 64) (allow : Bool) :
    Replies (.grant h fn allow) s h 17 { status := .ok } ((s.mgmt.taken h).setFn fn { s.mgmt.fn fn with expert := allow }) s.mach := by
  have hother : (s.mgmt.taken h).fn fn = s.mgmt.fn fn := by rw [Mgmt.fn_taken, if_neg (by omega)]
  refine he.replies (run := grantCmd h fn allow) rfl ?_ (by rw [Mgmt.fn_setFn, if_neg (by omega)]; exact s.mgmt.taken_seq h)
  rw [grantCmd, command_runs (Mgmt.may_taken (fun _ => hf) fun _ => .inl hf) (by simp [h1, h2]), grantRun, Mgmt.modFn, hother]
  rfl

section
variable (hx : h.fn = 0 ∨ (s.mgmt.fn h.fn).expert = true)
include hx

theorem Expected.powercap {n : Nat} (hn : 100 * n ≤ 15000) :
    Replies (.powercap h n) s h 18 { status := .ok } { s.mgmt.taken h with limitW := 15000 - 100 * n } s.mach :=
  he.replies rfl (command_runs (Mgmt.may_taken (by simp) fun _ => hx) (decide_eq_true hn)) (s.mgmt.taken_seq h)

theorem Expected.debug {a : DebugAccess} (hn : debugNamed h.fn a s.mgmt s.mach = true) {x : Answer} {m : Mach}
    (hr : debugRun a (s.mgmt.taken h) s.mach = (some x, s.mgmt.taken h, m)) : Replies (.debug h a) s h 19 x (s.mgmt.taken h) m :=
  he.replies rfl ((command_runs (Mgmt.may_taken (by simp) fun _ => hx) hn).trans hr) (s.mgmt.taken_seq h)

end
end

/-- A register write of DEBUG: that register of that warp and nothing else. -/
theorem debugWrite_getReg {has : Nat → Bool} {a : DebugAccess} {x : Word} (hok : debugRegOk has a = true) (hv : debugValue a = some x)
    {w : Warp} (hw : w.lanes.length = 32) (r : RegName) :
    (debugWrite a x w).getReg r = if r = debugReg a then ⟨x, (w.getReg (debugReg a)).tag⟩ else w.getReg r := by
  rw [debugWrite, getReg_setReg _ _ _ _ (debugReg_inWarp hok hw), debugValue_trim hv]

end Sys2Proof.Machine

open Sys2Proof Sys2Proof.Machine

/-- Settles O52: every command that its function may give runs once its message is taken (`Expected.replies`), and CHECKPOINT's answer is
`finishJob` of a quiet module. -/
theorem mailboxCommands : Obligations.MailboxCommands := by
  unfold Obligations.MailboxCommands
  refine ⟨⟨fun s h he => ?status, fun s h ctx capacity frames he ho hf hl => ?pooladd, fun s h ctx base he ho hl => ?setaper,
      fun s h ctx base capacity frames he ho hf hl => ?locked, fun s h ctx key he ho => ?keyprov, fun s h he hf => ?dumprd,
      fun s h he hf hj => ?checkpoint, fun mg m j rest hj hk hq => ?answered⟩,
    fun s h fn cs qs he hf hfn hn hrise => ?assign, fun s h fn allow he hf h1 h2 => he.grant hf h1 h2 allow,
    fun s h n he hx hn => he.powercap hx hn, fun s h a b w he hx hn hw h32 => ?debug⟩
  case status =>
    exact ⟨[BitVec.ofNat 32 s.mach.mhz, if s.mgmt.throttled then 1 else 0, Config.telemetry s.mach.free, Config.telemetry (s.mach.free + 1),
        BitVec.ofNat 32 s.mach.corrected, BitVec.ofNat 32 s.mgmt.uncorrected], rfl, rfl, rfl, rfl, rfl,
      he.replies rfl (command_basic rfl) (s.mgmt.taken_seq h)⟩
  case pooladd =>
    refine he.pooladd ho hf capacity ?_
    rw [unlessLocked_free (by rwa [Mgmt.isLocked_taken]), pooladdRun_owned (Mach.owns_has ho)]
    rfl
  case setaper =>
    refine he.setaper ho base ?_ ?_
    · rw [unlessLocked_free (by rwa [Mgmt.isLocked_taken])]
      rfl
    · rw [Mgmt.fn_setFn, if_pos rfl]
      exact s.mgmt.taken_seq h
  case locked =>
    have hdenied (run : Command_) : unlessLocked h.fn run (s.mgmt.taken h) s.mach = refuse .denied (s.mgmt.taken h) s.mach :=
      unlessLocked_locked (by rwa [Mgmt.isLocked_taken]) run s.mach
    exact ⟨he.pooladd ho hf capacity (hdenied _), he.setaper ho base (hdenied _) (s.mgmt.taken_seq h)⟩
  case keyprov =>
    refine ⟨fun hs => he.keyprov ho key (by simp [keyprovRun, hs, refuse]) rfl, fun hs hroom => ?_⟩
    obtain ⟨hne, hfresh⟩ := pickHandle_fresh (mg := s.mgmt.taken h) hroom
    exact ⟨_, hne, hfresh, he.keyprov ho key (keyprovRun_room ((s.mgmt.session_taken h _).trans hs) hroom ctx key s.mach) rfl⟩
  case dumprd =>
    have hdump : (s.mgmt.taken h).dump = s.mgmt.dump := rfl
    refine ⟨fun hnone => he.dumprd hf (by simp only [dumprdRun, hdump, hnone]; rfl), fun d hd =>
      ⟨(List.range 8).map fun i => d.extractLsb' (32 * i) 32, by simp, fun i hi => by simp [hi],
        he.dumprd hf (by simp only [dumprdRun, hdump, hd])⟩⟩
  case checkpoint =>
    refine does_onModule he.on (f := receive h 6 (quiesceCmd h .checkpoint)) rfl ?_
    rw [receive_checkpoint he hf hj]
    obtain ⟨_, hd⟩ := s.mach.drainEvery_ctxs (s.mgmt.taken h)
    exact ⟨rfl, by rw [hd]; exact ⟨rfl, rfl, rfl⟩, by rw [hd], fun ctx hc => s.mach.drainEvery_run _ hc⟩
  case answered =>
    obtain ⟨fns, e⟩ := finishJob_checkpoint hj hk hq
    rw [e]
    exact ⟨rfl, ⟨rfl, rfl, rfl⟩, rfl, fun l r hr => Mach.imagedFor_clean hr, rfl, m.image, rfl, rfl, rfl, fun a ha => m.image_fast ha⟩
  case assign =>
    refine ⟨fun hl => he.assign hf hn (by rw [if_pos hl]; rfl), fun hl => ⟨s.mach.assign fn cs qs,
      he.assign hf hn (by rw [if_neg (by simp [hl]), assignRun_eq]; rfl), ?_, fun k => ?_, fun f k hne => ?_,
      fun q => (Mach.queue_assign_fn hrise fn cs qs q).1, fun q => (Mach.queue_assign_fn hrise fn cs qs q).2⟩⟩
    all_goals obtain ⟨queues, e⟩ := s.mach.assign_eq fn cs qs
    · rw [e]
    · rw [e, s.mach.mem_assigned, if_pos rfl]
    · rw [e, s.mach.mem_assigned, if_neg hne]
  case debug =>
    obtain ⟨has, hok⟩ := debugNamed_regOk hn
    refine ⟨fun hv => ⟨_, he.debug hx hn (debugRun_read hv hw _), debugRead_eq w (debugReg a)⟩, fun x hv => ?_⟩
    refine ⟨_, _, _, he.debug hx hn (debugRun_write hv hw _), ⟨rfl, rfl, rfl⟩, hw.modWarp _, ?_, fun r hr => ?_, fun bid k hne => ?_⟩
    · rw [debugWrite_getReg hok hv h32, if_pos rfl]
    · rw [debugWrite_getReg hok hv h32, if_neg hr]
    · rw [Mach.warp?_modWarp, if_neg fun e => hne (Prod.ext e.1 e.2)]
end

section
/-! SUPPORT. The command at the head of a copy channel (R233, R236), and scratchpad as copies read and write it (R125, R304). -/

namespace Sys2Proof.Machine

/-! ## The commands of a channel -/

theorem Mach.chanCmds_congr {m m' : Mach} (h : m'.cores = m.cores) (core key : Nat) : m'.chanCmds core key = m.chanCmds core key := by
  rw [Mach.chanCmds, Mach.core, h]
  rfl

theorem Mach.KeepsUnits.chanCmds {m m' : Mach} (h : m.KeepsUnits m') (core key : Nat) : m'.chanCmds core key = m.chanCmds core key := by
  obtain ⟨_, e⟩ := h.cores core
  rw [Mach.chanCmds, e]
  rfl

theorem Mach.chanHead_cons {m : Mach} {core key : Nat} {c : Command} {rest : List Command} (h : m.chanCmds core key = c :: rest) :
    m.chanHead core key = some c := by rw [Mach.chanHead, h]; rfl

section
variable {m : Mach} {core key : Nat} {c : Command} {rest : List Command} (h : m.chanCmds core key = c :: rest)
include h

/-- A channel with commands is listed, so that its commands can change. -/
theorem Mach.chanCmds_modChan (f : List Command → List Command) : (m.modChan core key f).chanCmds core key = f (c :: rest) := by
  have hhas : tabHas (m.core core).chans key = true := by
    by_contra hn
    rw [Mach.chanCmds, tabGet_of_not_has _ (by simpa using hn)] at h
    cases h
  rw [Mach.chanCmds, Mach.modChan, Mach.core_modCore_same, tabGet_mod, if_pos ⟨rfl, hhas⟩]
  exact congrArg f h

theorem Mach.chanCmds_modChanHead (f : Command → Command) : (m.modChanHead core key f).chanCmds core key = f c :: rest :=
  Mach.chanCmds_modChan h _

end

theorem Mach.modChanHead_wptr (m : Mach) (core key : Nat) (f : Command → Command) :
    ((m.modChanHead core key f).core core).wptr = (m.core core).wptr := by
  rw [Mach.modChanHead, Mach.modChan, Mach.core_modCore_same]

/-- A command that is done leaves its channel (R236). -/
theorem Mach.copyComplete_ready {m : Mach} {core key : Nat} {c : Command} {rest : List Command} (h : m.chanCmds core key = c :: rest)
    (hr : c.ready = true) : m.copyComplete core key = (m.endCommand c).modChan core key (·.drop 1) := by
  unfold Mach.copyComplete
  simp only [Mach.chanHead_cons h, hr, if_true]

theorem Mach.copyComplete_waits {m : Mach} {core key : Nat} {c : Command} {rest : List Command} (h : m.chanCmds core key = c :: rest)
    (hr : c.ready = false) : m.copyComplete core key = m := by
  unfold Mach.copyComplete
  simp only [Mach.chanHead_cons h, hr, Bool.false_eq_true, if_false]

/-! ## Scratchpad (R108, R125, R304) -/

/-- The block with other scratchpad, stamps and masks. -/
def Block.scratch (b : Block) (spad : Mem) (stamps : Tab Stamps) (tags : Tab Mask) : Block :=
  { b with spad := spad, spadStamp := stamps, spadTags := tags }

/-- Only the scratchpad of one block differs, with its stamps and masks: it holds `spad` where the block was `b`. -/
structure Mach.Scratches (m m' : Mach) (bid : Nat) (b : Block) (spad : Mem) : Prop where
  rest  : ∃ blocks n, m' = { m with blocks := blocks, maxStamp := n }
  block : ∃ stamps tags, tabFind m'.blocks bid = some (b.scratch spad stamps tags)
  regs  : sameRegisters m m'

theorem Mach.Scratches.refl {m : Mach} {bid : Nat} {b : Block} (h : tabFind m.blocks bid = some b) : m.Scratches m bid b b.spad :=
  ⟨⟨_, _, rfl⟩, ⟨b.spadStamp, b.spadTags, h⟩, sameRegisters_of_blocks rfl⟩

/-- What follows may rest on the scratchpad and on what no store changes. -/
theorem Mach.Scratches.next {m m1 m2 : Mach} {bid : Nat} {b : Block} {x y : Mem} (h : m.Scratches m1 bid b x)
    (g : ∀ stamps tags, tabFind m1.blocks bid = some (b.scratch x stamps tags) → m1.Scratches m2 bid (b.scratch x stamps tags) y) : m.Scratches m2 bid b y := by
  obtain ⟨⟨_, _, rfl⟩, ⟨stamps, tags, hb⟩, hregs⟩ := h
  obtain ⟨⟨_, _, rfl⟩, hb', hregs'⟩ := g stamps tags hb
  exact ⟨⟨_, _, rfl⟩, hb', hregs.trans hregs'⟩

theorem sameRegisters_modBlock {m : Mach} {bid : Nat} {b : Block} {f : Block → Block} (h : tabFind m.blocks bid = some b)
    (hf : (f b).warps = b.warps) : sameRegisters m (m.modBlock bid f) := by
  intro bid' k r
  simp only [Mach.warp?, Mach.block?, Mach.modBlock, tabFind_mod]
  split_ifs with e
  · simp [e, h, hf]
  · rfl

theorem Mach.modBlock_scratches {m : Mach} {bid : Nat} {b : Block} {f : Block → Block} {x : Mem} (h : tabFind m.blocks bid = some b)
    (hf : ∃ stamps tags, f b = b.scratch x stamps tags) : m.Scratches (m.modBlock bid f) bid b x := by
  obtain ⟨stamps, tags, hf⟩ := hf
  refine ⟨⟨_, _, rfl⟩, ⟨stamps, tags, ?_⟩, sameRegisters_modBlock h (by rw [hf]; rfl)⟩
  rw [Mach.modBlock_blocks, tabFind_mod, if_pos rfl, h, Option.map_some, hf]

theorem Mach.Scratches.noteStamp {m m' : Mach} {bid : Nat} {b : Block} {x : Mem} (h : m.Scratches m' bid b x) (n : Nat) :
    m.Scratches (m'.noteStamp n) bid b x := by
  obtain ⟨⟨_, _, rfl⟩, hb, hregs⟩ := h
  exact ⟨⟨_, _, rfl⟩, hb, hregs.trans (sameRegisters_of_blocks rfl)⟩

section
variable {m : Mach} {bid : Nat} {b : Block} (h : tabFind m.blocks bid = some b)
include h

theorem Mach.setBlock_found (x : Block) : m.setBlock bid x = m.modBlock bid fun _ => x := by
  rw [Mach.modBlock, tabMod_some _ h]
  rfl

theorem Mach.loadSpad_reads (a n pts : Nat) :
    (m.loadSpad bid a n pts).1 = memRead b.spad a n ∧ m.Scratches (m.loadSpad bid a n pts).2.2 bid b b.spad := by
  have hblock : m.block? bid = some b := h
  simp only [Mach.loadSpad, Mach.leaseSpad, hblock, Mach.setBlock_found h]
  refine ⟨?_, (Mach.modBlock_scratches h ⟨_, b.spadTags, rfl⟩).noteStamp _⟩
  simp [Mach.spadBytes, Mach.block?, Mach.noteStamp, Mach.modBlock, tabFind_mod, h]

theorem Mach.storeSpad_writes (a : Nat) (bs : List Byte) (tags : Mask) (pts : Nat) :
    m.Scratches (m.storeSpad bid a bs tags pts).2 bid b (memWrite b.spad a bs) := by
  rw [Mach.storeSpad_stored h rfl, Mach.setBlock_found h]
  exact (Mach.modBlock_scratches h ⟨_, _, rfl⟩).noteStamp _

/-- An engine's read of scratchpad without uncorrectable data (R125). -/
theorem Mach.engSpad_reads (hbad : b.spadBad = []) (a n : Nat) :
    ∃ m' runs, m.engSpad bid a n = (.ok (memRead b.spad a n, runs), m') ∧ m.Scratches m' bid b b.spad := by
  have hblock : m.block? bid = some b := h
  have hgood : (unitPieces 64 (n / 64 + 2) a n).find? (fun x => spadBadRange b x.1 x.2) = none := by
    simp [spadBadRange, hbad]
  have hload (l : List (Nat × Nat)) (acc : List Byte × Mach) (hacc : m.Scratches acc.2 bid b b.spad) :
      let r := l.foldl (fun (acc : List Byte × Mach) x =>
        (acc.1 ++ (acc.2.loadSpad bid x.1 x.2 0).1, (acc.2.loadSpad bid x.1 x.2 0).2.2)) acc
      r.1 = acc.1 ++ l.flatMap (fun x => memRead b.spad x.1 x.2) ∧ m.Scratches r.2 bid b b.spad := by
    induction l generalizing acc with
    | nil => simpa using hacc
    | cons x r ih =>
      obtain ⟨stamps, tags, hb⟩ := hacc.block
      have hbytes : (acc.2.loadSpad bid x.1 x.2 0).1 = memRead b.spad x.1 x.2 := (Mach.loadSpad_reads hb ..).1
      obtain ⟨hall, hlast⟩ := ih (acc.1 ++ (acc.2.loadSpad bid x.1 x.2 0).1, (acc.2.loadSpad bid x.1 x.2 0).2.2)
        (hacc.next fun _ _ hb => (Mach.loadSpad_reads hb x.1 x.2 0).2)
      refine ⟨?_, hlast⟩
      rw [List.foldl_cons, hall, hbytes, List.flatMap_cons, List.append_assoc]
  have htiles : Tiles a n (unitPieces 64 (n / 64 + 2) a n) := tiles_unitPieces (by decide) (.inr (by omega))
  obtain ⟨hbytes, hlast⟩ := hload (unitPieces 64 (n / 64 + 2) a n) ([], m) (.refl h)
  rw [htiles.read, List.nil_append] at hbytes
  unfold Mach.engSpad
  simp only [hblock, hgood]
  exact ⟨_, _, Prod.ext (congrArg Except.ok (Prod.ext hbytes rfl)) rfl, hlast⟩

/-- An engine's write of scratchpad without uncorrectable data (R125, R237). -/
theorem Mach.engStoreSpad_writes (hbad : b.spadBad = []) (a : Nat) (bs : List Byte) (runs : List (Nat × Mask)) (tags : Mask) :
    m.Scratches (m.engStoreSpad bid a bs runs tags).2 bid b (memWrite b.spad a bs) := by
  have hstore (l : List (Nat × Nat)) (acc : Nat × Mach) (x : Mem) (hacc : m.Scratches acc.2 bid b x) :
      m.Scratches (l.foldl (fun (acc : Nat × Mach) y =>
        (max acc.1 (acc.2.storeSpad bid y.1 ((bs.drop (y.1 - a)).take y.2) (runMask runs (y.1 - a) y.2 ||| tags) 0).1,
          (acc.2.storeSpad bid y.1 ((bs.drop (y.1 - a)).take y.2) (runMask runs (y.1 - a) y.2 ||| tags) 0).2)) acc).2 bid b
        (l.foldl (fun m y => memWrite m y.1 ((bs.drop (y.1 - a)).take y.2)) x) := by
    induction l generalizing acc x with
    | nil => exact hacc
    | cons y r ih => exact ih _ _ (hacc.next fun _ _ hb => Mach.storeSpad_writes hb ..)
  have htiles : Tiles a bs.length (unitPieces 64 (bs.length / 64 + 2) a bs.length) := tiles_unitPieces (by decide) (.inr (by omega))
  have hall := hstore (unitPieces 64 (bs.length / 64 + 2) a bs.length) (0, m) b.spad (.refl h)
  rw [htiles.write_all] at hall
  refine hall.next fun stamps tags' hb => ?_
  exact Mach.modBlock_scratches hb ⟨stamps, tags', by simp [healSpad, Block.scratch, hbad]⟩

end

end Sys2Proof.Machine
end

section
/-! SUPPORT. One step of a COPY or FILL between scratchpad addresses (R229, R233, R234). -/

namespace Sys2Proof.Machine

/-! ## What a step changes beside the scratchpad -/

/-- The barrier object is not named, so that nothing is counted down (R236). -/
theorem Mach.countOwed_none (m : Mach) (mg : Mgmt) (a : Actor) (core key : Nat) {p : CopyParams} (hbar : p.bar = 0) (b : Block) (tag : Mask) :
    m.countOwed mg a core key p b tag = (.ok (), m) := by
  unfold Mach.countOwed
  split
  · rfl
  · simp [hbar]

section
variable {m : Mach} {core key : Nat} {p : CopyParams} {c : Command} {rest : List Command}

/-- CH.WPTR counts the bytes that were delivered since it last did (R234). -/
theorem Mach.countStep_counts (ht : p.isTier = false) (ho : c.row < c.offset) :
    ∃ wacq n, m.countStep core key p c = { m.modCore core fun x => { x with
      wptr := tabSet x.wptr key (tabGet x.wptr key 0 + BitVec.ofNat 64 (c.offset - c.row)), wacq := wacq } with maxStamp := n } := by
  unfold Mach.countStep
  rw [if_neg (by simp [ht, ho])]
  dsimp only
  split_ifs
  · exact ⟨_, _, rfl⟩
  · exact ⟨_, _, rfl⟩

theorem Mach.countWptr_counts (h : m.chanCmds core key = c :: rest) (ht : p.isTier = false) (ho : c.row < c.offset) :
    (∃ cores n, m.countWptr core key p = { m with cores := cores, maxStamp := n }) ∧
      (m.countWptr core key p).chanCmds core key = { c with row := c.offset } :: rest ∧
      tabGet ((m.countWptr core key p).core core).wptr key 0 = tabGet (m.core core).wptr key 0 + BitVec.ofNat 64 (c.offset - c.row) := by
  obtain ⟨wacq, n, hstep⟩ := Mach.countStep_counts (m := m) (core := core) (key := key) ht ho
  have hcount : m.countWptr core key p = (m.countStep core key p c).modChanHead core key fun c => { c with row := c.offset } := by
    unfold Mach.countWptr
    rw [Mach.chanHead_cons h]
  have hcore : (m.countStep core key p c).core core = { m.core core with
      wptr := tabSet (m.core core).wptr key (tabGet (m.core core).wptr key 0 + BitVec.ofNat 64 (c.offset - c.row)), wacq := wacq } := by
    rw [hstep]
    exact (tabGet_set ..).trans (if_pos rfl)
  have hcmds : (m.countStep core key p c).chanCmds core key = c :: rest := by
    rw [Mach.chanCmds, hcore]
    exact h
  rw [hcount]
  refine ⟨?_, Mach.chanCmds_modChanHead hcmds _, ?_⟩
  · rw [hstep]
    exact ⟨_, _, rfl⟩
  · rw [Mach.modChanHead_wptr, hcore]
    exact (tabGet_set ..).trans (if_pos rfl)

end

/-! ## Delivery within the block's own scratchpad (R233) -/

section
variable {m : Mach} {b : Block} {c : Command} {p : CopyParams} (h : tabFind m.blocks c.bid = some b)
include h

theorem Mach.copySource_reads (hs : SpadCopy s p c b) (mg : Mgmt) (a : Actor) :
    ∃ m' runs, m.copySource mg a p c.bid c.offset (nextPart p c) = (.ok (partBytes p c b, runs), m') ∧ m.Scratches m' c.bid b b.spad := by
  obtain ⟨hop, -, -, -, hssp⟩ := hs.plain
  by_cases h1 : p.op = 1
  · refine ⟨m, [], ?_, .refl h⟩
    simp only [Mach.copySource, partBytes, h1, if_true]
  · obtain ⟨m', runs, hread, hkeep⟩ := Mach.engSpad_reads h hs.good.1 (streamAddr p p.src p.sstr c.offset) (nextPart p c)
    refine ⟨m', runs, ?_, hkeep⟩
    simp only [Mach.copySource, partBytes, h1, if_false, hssp (by omega), if_true]
    exact hread

end

/-- The command once its part is delivered, with the greatest stamp of its writes. -/
def Command.delivered (o st : Nat) (c : Command) : Command := { c with offset := o, stamp := max c.stamp st }

/-- A stream that ends in the row where it stands takes one piece. -/
theorem Mach.copyPieces_one {m m1 m2 : Mach} {mg : Mgmt} {a : Actor} {core key : Nat} {p : CopyParams} {c : Command} {b : Block}
    {bs : List Byte} {runs : List (Nat × Mask)} {st o till : Nat} (tag : Mask) (hd : p.dsp = true) (ho : o < till)
    (hrow : o % p.len + (till - o) ≤ p.len) (hsource : m.copySource mg a p c.bid o (till - o) = (.ok (bs, runs), m1))
    (hdeliver : m1.copyDeliver mg a (streamAddr p p.dst p.dstr o) bs runs (tag ||| c.tags) (p.dests c.bid b) = (.ok st, m2)) (fuel : Nat) :
    m.copyPieces mg a core key p c b tag till (fuel + 2) o =
      (.ok (), m2.modChanHead core key (Command.delivered (o + (till - o)) st)) := by
  have hcheck : (if o % p.len = 0 then m.rowCheck mg a p b (tag ||| c.tags) (o / p.len) else (.ok (), m)) = (.ok (), m) := by
    split_ifs
    · simp [Mach.rowCheck, hd]
    · rfl
  have hmin : min (p.len - o % p.len) (till - o) = till - o := Nat.min_eq_right (by omega)
  unfold streamAddr at hdeliver
  rw [Mach.copyPieces, if_neg (by omega)]
  simp only [hcheck, hmin, hsource, hdeliver]
  rw [Mach.copyPieces, if_pos (by omega)]
  rfl

/-! ## The step (R229, R233, R234) -/

/-- A part was delivered: the command at the head of the channel has gone on by it, CH.WPTR counts it, and of the machine nothing else
differs but scratchpad and cores. -/
structure Mach.Delivers (m m' : Mach) (core key : Nat) (p : CopyParams) (c : Command) (rest : List Command) (b : Block) : Prop where
  rest_ : ∃ blocks cores n, m' = { m with blocks := blocks, cores := cores, maxStamp := n }
  regs  : sameRegisters m m'
  block : ∃ stamps tags, tabFind m'.blocks c.bid =
    some (b.scratch (memWrite b.spad (streamAddr p p.dst p.dstr c.offset) (partBytes p c b)) stamps tags)
  head  : ∃ c', m'.chanCmds core key = c' :: rest ∧ c'.id = c.id ∧ c'.offset = c.offset + nextPart p c ∧
    c'.ready = decide (c.offset + nextPart p c = p.total)
  count : tabGet (m'.core core).wptr key 0 = tabGet (m.core core).wptr key 0 + BitVec.ofNat 64 (nextPart p c)

/-- The command once it has begun. -/
def Command.begin_ (c : Command) : Command := { c with begun := true }

theorem SpadCopy.dests {s : State} {p : CopyParams} {c : Command} {b : Block} (h : SpadCopy s p c b) : p.dests c.bid b = [some c.bid] := by
  obtain ⟨-, hm, hd, -, -⟩ := h.plain
  simp [CopyParams.dests, hm, hd]

theorem SpadCopy.notTier {s : State} {p : CopyParams} {c : Command} {b : Block} (h : SpadCopy s p c b) : p.isTier = false := by
  have hop := h.plain.1
  simp only [CopyParams.isTier, Bool.or_eq_false_iff, beq_eq_false_iff_ne]
  omega

theorem SpadCopy.nextPart_pos {s : State} {p : CopyParams} {c : Command} {b : Block} (h : SpadCopy s p c b) : 0 < nextPart p c := by
  have ho := h.open_.1
  unfold nextPart
  omega

/-- The next part is read and then written, in one piece, for it ends in its row. -/
theorem Mach.copyPieces_spad {s : State} {m : Mach} {p : CopyParams} {c : Command} {b : Block} (hs : SpadCopy s p c b)
    (hb : tabFind m.blocks c.bid = some b) (mg : Mgmt) (a : Actor) (core key : Nat) (tag : Mask) :
    ∃ m2 st, m.copyPieces mg a core key p c b tag (c.offset + nextPart p c) 128 c.offset =
        (.ok (), m2.modChanHead core key (Command.delivered (c.offset + nextPart p c) st)) ∧
      m.Scratches m2 c.bid b (memWrite b.spad (streamAddr p p.dst p.dstr c.offset) (partBytes p c b)) := by
  obtain ⟨m1, runs, hsource, hread⟩ := Mach.copySource_reads hb hs mg a
  have hlen : c.offset + nextPart p c - c.offset = nextPart p c := Nat.add_sub_cancel_left ..
  have hpieces := Mach.copyPieces_one (m := m) (mg := mg) (a := a) (core := core) (key := key) (o := c.offset)
    (till := c.offset + nextPart p c) tag hs.plain.2.2.1 (by have := hs.nextPart_pos; omega) (by rw [hlen]; exact hs.oneRow)
    (by rw [hlen]; exact hsource) (by rw [hs.dests]; rfl) 126
  rw [hlen] at hpieces
  exact ⟨_, _, hpieces, hread.next fun _ _ hb1 => Mach.engStoreSpad_writes hb1 hs.good.1 ..⟩

/-- What a step delivers of a command that has begun. -/
theorem Mach.copyAdvance_delivers {s : State} {m : Mach} {core key : Nat} {p : CopyParams} {c : Command} {rest : List Command} {b : Block}
    (hs : SpadCopy s p c b) (hb : tabFind m.blocks c.bid = some b) (hq : m.chanCmds core key = c.begin_ :: rest) (mg : Mgmt) (a : Actor)
    (tag : Mask) : m.Delivers (m.copyAdvance mg a core key p c b tag) core key p c rest b := by
  obtain ⟨-, hrow, -⟩ := hs.open_
  obtain ⟨-, -, -, hbar, -⟩ := hs.plain
  have hpos := hs.nextPart_pos
  have htill : min p.total (128 * (c.offset / 128 + 1)) = c.offset + nextPart p c := by unfold nextPart at hpos ⊢; omega
  obtain ⟨m2, st, hpieces, ⟨_, _, hrest⟩, hblock, hregs⟩ := Mach.copyPieces_spad hs hb mg a core key tag
  have hcores : m2.cores = m.cores := by rw [hrest]
  have hq2 : m2.chanCmds core key = c.begin_ :: rest := (Mach.chanCmds_congr hcores core key).trans hq
  have hwptr : ((m2.modChanHead core key (Command.delivered (c.offset + nextPart p c) st)).core core).wptr = (m.core core).wptr := by
    rw [Mach.modChanHead_wptr, Mach.core, hcores]
    rfl
  obtain ⟨⟨_, _, hsame⟩, hnext, hcount⟩ := Mach.countWptr_counts (Mach.chanCmds_modChanHead hq2 (Command.delivered (c.offset + nextPart p c) st))
    hs.notTier (by show c.row < c.offset + nextPart p c; omega)
  have hblocks : ((m2.modChanHead core key (Command.delivered (c.offset + nextPart p c) st)).countWptr core key p).blocks = m2.blocks := by
    rw [hsame]
    rfl
  unfold Mach.copyAdvance
  simp only [Mach.countOwed_none _ _ _ _ _ hbar, htill, hpieces]
  refine ⟨?_, hregs.trans (sameRegisters_of_blocks hblocks), ?_, ⟨_, Mach.chanCmds_modChanHead hnext _, rfl, rfl, ?_⟩, ?_⟩
  · rw [hsame, hrest]
    exact ⟨_, _, _, rfl⟩
  · rwa [← hblocks] at hblock
  · simp [hbar, Command.delivered, Command.begin_]
    rfl
  · rw [Mach.modChanHead_wptr, hcount, hwptr]
    have hdone : (Command.delivered (c.offset + nextPart p c) st c.begin_).offset - (Command.delivered (c.offset + nextPart p c) st c.begin_).row =
        nextPart p c := by show c.offset + nextPart p c - c.row = _; omega
    rw [hdone]

/-- A command that may start and is checked, or has begun, goes on by a part. -/
theorem Mach.copyStart_delivers {s : State} {core ctx chan : Nat} {c : Command} {rest : List Command} {b : Block} {x : BitVec 512} {tag : Mask}
    (h : AtChannel s core ctx chan c rest b) (hop : c.op = .copy x tag false) (hs : SpadCopy s (copyParams x) c b) :
    s.mach.Delivers (s.mach.copyStart s.mgmt core (8 * ctx + chan)) core (8 * ctx + chan) (copyParams x) c rest b := by
  obtain ⟨hready, hwait, hmay⟩ := hs.goes
  have hblock : s.mach.block? c.bid = some b := h.block
  have hchecks : (if c.begun then (.ok (), s.mach) else
      s.mach.copyChecks s.mgmt (b.engineActor false) (copyParams x) false c.bid b) = (.ok (), s.mach) := by
    rcases hs.checked with hbegun | ⟨h1, h2⟩
    · rw [if_pos hbegun]
    · split_ifs
      · rfl
      · simp [Mach.copyChecks, h1, h2, Mach.copyBar, hs.plain.2.2.2.1]
  have hbegin := Mach.chanCmds_modChanHead h.queue Command.begin_
  have hgo := Mach.copyAdvance_delivers hs (m := s.mach.modChanHead core (8 * ctx + chan) Command.begin_) h.block hbegin s.mgmt
    (b.engineActor false) tag
  have hstart : s.mach.copyStart s.mgmt core (8 * ctx + chan) = (s.mach.modChanHead core (8 * ctx + chan) Command.begin_).copyAdvance s.mgmt
      (b.engineActor false) core (8 * ctx + chan) (copyParams x) c b tag := by
    unfold Mach.copyStart
    simp only [Mach.chanHead_cons h.queue, hop, hblock, hready, hwait, hmay, hchecks, Option.isSome_none, Bool.not_true, Bool.or_false,
      Bool.false_eq_true, if_false]
    rfl
  obtain ⟨⟨_, _, _, hrest⟩, hregs, hb, hhead, hcount⟩ := hgo
  rw [hstart]
  refine ⟨⟨_, _, _, by rw [hrest]; rfl⟩, hregs, hb, hhead, ?_⟩
  rw [hcount, Mach.modChanHead_wptr]

end Sys2Proof.Machine
end

section
/-! SUPPORT. The parts of a tier move (R128, R240, R288): the bytes and side bands of a frame in another one, the page's entry, and
what else the move of a page changes. -/

namespace Sys2Proof.Machine

variable {α : Type}

/-! ## Cells that move from one range of keys to another -/

theorem inRange_iff {base n x : Nat} : inRange base n x = true ↔ base ≤ x ∧ x < base + n := by simp [inRange]

section
variable {old n : Nat} {l : List (Nat × α)} (h : ∀ c ∈ l, inRange old n c.1 = true)
include h

theorem cellsFind_moved (new a : Nat) : cellsFind a (l.map fun c => (new + (c.1 - old), c.2)) =
    if new ≤ a then cellsFind (old + (a - new)) l else none := by
  induction l with
  | nil => simp [cellsFind]
  | cons c r ih =>
    obtain ⟨j, y⟩ := c
    obtain ⟨hlo, -⟩ := inRange_iff.1 (h (j, y) (List.mem_cons_self ..))
    have hkey : new + (j - old) = a ↔ new ≤ a ∧ j = old + (a - new) := by omega
    simp only [List.map_cons, cellsFind, ih fun c hc => h c (List.mem_cons_of_mem _ hc), hkey]
    split_ifs <;> simp_all

theorem moved_rising (new : Nat) (hr : cellsRising l = true) : cellsRising (l.map fun c => (new + (c.1 - old), c.2)) = true := by
  induction l with
  | nil => rfl
  | cons c r ih =>
    obtain ⟨ha, hr⟩ := (cellsRising_cons _ _).1 hr
    refine (cellsRising_cons _ _).2 ⟨fun x hx => ?_, ih (fun c hc => h c (List.mem_cons_of_mem _ hc)) hr⟩
    obtain ⟨d, hd, rfl⟩ := List.mem_map.1 hx
    have habove : c.1 < d.1 := ha d hd
    obtain ⟨hlo, -⟩ := inRange_iff.1 (h c (List.mem_cons_self ..))
    show new + (c.1 - old) < new + (d.1 - old)
    omega

end

/-! ## The bytes and the side bands of a frame in another frame -/

theorem moveBytes_eq (old new n : Nat) (t : Mem) : moveBytes old new n t =
    ((t.cells.filter fun c => inRange old n c.1).map fun c => (new + (c.1 - old), c.2)).foldl (fun t c => memSet t c.1 c.2)
      ⟨t.cells.filter fun c => !inRange new n c.1⟩ := by
  rw [List.foldl_map]
  rfl

theorem moveBytes_wf {t : Mem} (h : Memory.wf t = true) (old new n : Nat) : Memory.wf (moveBytes old new n t) = true :=
  foldSet_wf (fun c => new + (c.1 - old)) _ _ (memFilter_wf t _ h)

/-- The new frame holds what the old one held, and every other byte is as before. -/
theorem memGet_moveBytes {t : Mem} (h : Memory.wf t = true) (old new n a : Nat) :
    memGet (moveBytes old new n t) a = if new ≤ a ∧ a < new + n then memGet t (old + (a - new)) else memGet t a := by
  have hin : ∀ c ∈ t.cells.filter fun c => inRange old n c.1, inRange old n c.1 = true := fun c hc => by simpa using (List.mem_filter.1 hc).2
  have hrise := moved_rising hin new (filter_rising _ ((Memory.wf_iff t).1 h).1)
  rw [moveBytes_eq, memGet_load hrise (memFilter_wf t _ h), cellsFind_moved hin, cellsFind_filter (inRange old n),
    memGet_filter t fun k => !inRange new n k]
  by_cases ha : new ≤ a ∧ a < new + n
  · have hold : inRange old n (old + (a - new)) = true := inRange_iff.2 (by omega)
    have hnew : inRange new n a = true := inRange_iff.2 ha
    simp only [ha, hold, hnew, and_self, if_true, Bool.not_true, Bool.false_eq_true, if_false]
    rfl
  · have hnew : inRange new n a = false := by rw [← Bool.not_eq_true, inRange_iff]; exact ha
    simp only [ha, hnew, if_false, Bool.not_false, if_true]
    split_ifs with hlo hold
    · have := inRange_iff.1 hold
      omega
    · rfl
    · rfl

/-- A line outside the new frame keeps its side band. -/
theorem tabFind_moveSide (old new n : Nat) (t : Tab Side) {k : Nat} (h : inRange (new / 128) (n / 128) k = false) :
    tabFind (moveSide old new n t) k = tabFind t k := by
  have hset (l : List (Nat × Side)) (t : Tab Side) (hl : ∀ c ∈ l, inRange (old / 128) (n / 128) c.1 = true) :
      tabFind (l.foldl (fun t c => tabSet t (new / 128 + (c.1 - old / 128)) c.2) t) k = tabFind t k := by
    induction l generalizing t with
    | nil => rfl
    | cons c r ih =>
      have hc := inRange_iff.1 (hl c (List.mem_cons_self ..))
      have hk : k ≠ new / 128 + (c.1 - old / 128) := fun e => by
        rw [inRange_iff.2 (by omega)] at h
        cases h
      rw [List.foldl_cons, ih _ fun c hc => hl c (List.mem_cons_of_mem _ hc), tabFind_set, if_neg hk]
  refine (hset _ _ fun c hc => by simpa using (List.mem_filter.1 hc).2).trans ?_
  exact (cellsFind_filter (fun k => !inRange (new / 128) (n / 128) k) k t.cells).trans (if_pos (by simp [h]))

/-- Where no granule is to be cleared, a frame's bytes, poison and side bands are copied, and the code that launches fetch there. -/
theorem Mach.copyFrame_clear {m : Mach} (h : m.scrub = []) (old new n : Nat) : ∃ bad launches, m.copyFrame old new n =
    { m with mem := moveBytes old new n m.mem, side := moveSide old new n m.side, bad := bad, launches := launches } := by
  have hclear (q : Nat → Bool) : (m.scrub.filter q).foldl Mach.clearGranule m = m := by rw [h]; rfl
  unfold Mach.copyFrame
  rw [hclear]
  exact ⟨_, _, rfl⟩

theorem Mach.tierTraffic_ordered (m : Mach) (mg : Mgmt) (dev : Nat) (sealed_ : Bool) (old new n : Nat) :
    m.Ordered (m.tierTraffic mg dev sealed_ old new n) := by
  induction n generalizing m old new with
  | zero => exact .refl m
  | succ n ih => exact ((m.allocLine_ordered ..).trans (Mach.allocLine_ordered ..)).trans (ih ..)

/-- A frame's bytes and side bands stand in another frame; of what else a move reads nothing differs. -/
structure Mach.FrameMoved (m m' : Mach) (old new n : Nat) : Prop where
  mem  : m'.mem = moveBytes old new n m.mem
  side : m'.side = moveSide old new n m.side
  same : m'.scrub = m.scrub ∧ m'.blocks = m.blocks ∧ m'.cores = m.cores ∧ m'.tlb = m.tlb ∧ m'.ctxs = m.ctxs

/-- Whatever claims, lines of L2 and notes of writes from outside became of the frames. -/
theorem Mach.copyFrame_moves {m : Mach} (h : m.scrub = []) (claims : Tab Nat) (lines : Tab Resident) (outside : Tab Nat) (old new n : Nat)
    (mg : Mgmt) (dev : Nat) (sealed_ : Bool) (x y k : Nat) :
    m.FrameMoved ((({ m with claims := claims, lines := lines, outside := outside } : Mach).copyFrame old new n).tierTraffic mg dev sealed_ x y k)
      old new n := by
  obtain ⟨bad, launches, e⟩ := Mach.copyFrame_clear (m := { m with claims := claims, lines := lines, outside := outside }) h old new n
  have htraffic := Mach.tierTraffic_ordered (({ m with claims := claims, lines := lines, outside := outside } : Mach).copyFrame old new n) mg dev
    sealed_ x y k
  obtain ⟨-, ⟨htlb, hctxs⟩, -, hscrub, hside⟩ := htraffic.alike
  rw [e] at htraffic htlb hctxs hscrub hside ⊢
  exact ⟨htraffic.served.mem, hside, hscrub, htraffic.served.blocks, htraffic.cores, htlb, hctxs⟩

/-! ## The page's entry (R240, R288) -/

/-- An entry of a page table with another tier and frame. -/
def remapped (x tier frame : Nat) : Nat := x - field x 9 8 * 2 ^ 8 - field x 47 16 * 2 ^ 16 + tier * 2 ^ 8 + frame

theorem remapped_fields {x tier frame : Nat} (hx : x < 2 ^ 64) (ht : tier < 4) (hf : frame < 2 ^ 48) (ha : frame % 65536 = 0) :
    remapped x tier frame < 2 ^ 64 ∧ field (remapped x tier frame) 47 16 * 65536 = frame ∧ field (remapped x tier frame) 9 8 = tier := by
  simp only [remapped, field, Nat.shiftRight_eq_div_pow]
  omega

/-- The one entry of a page that is not a group of 32 is written where it lies. -/
theorem Mach.remapEntries_one {m : Mach} {l : Leaf} (hl : l.log ≠ 21) (hs : m.scrub = []) (hside : tabFind m.side (lineOf l.entry) = none)
    (tier frame : Nat) : m.remapEntries l tier frame =
      { m with mem := memWrite m.mem l.entry (bytesOfNat (remapped (natOfBytes (m.viewBytes none l.entry 8)) tier frame) 8) } := by
  have hput := m.putBytes_plain l.entry (bytesOfNat (remapped (natOfBytes (m.viewBytes none l.entry 8)) tier frame) 8) (by simp [hs]) hside
  rw [← hput]
  simp [Mach.remapEntries, hl, remapped]

/-! ## Waits follow the page -/

theorem moveWait_regs (old new n : Nat) (l : Lane) : (moveWait old new n l).v = l.v ∧ (moveWait old new n l).p = l.p := by
  unfold moveWait
  split <;> exact ⟨rfl, rfl⟩

/-- A block whose lanes' waits follow a page. -/
def Block.waitsMoved (old new n : Nat) (b : Block) : Block :=
  { b with warps := tabMap (fun w => { w with lanes := w.lanes.map (moveWait old new n) }) b.warps }

theorem getReg_waitsMoved (old new n : Nat) (w : Warp) (r : RegName) :
    ({ w with lanes := w.lanes.map (moveWait old new n) } : Warp).getReg r = w.getReg r := by
  have hlane (k : Nat) : laneAt { w with lanes := w.lanes.map (moveWait old new n) } k = (laneAt w k).map (moveWait old new n) := by
    simp [laneAt]
  cases r with
  | v k i => cases hk : laneAt w k <;> simp [Warp.getReg, hlane, hk, moveWait_regs]
  | p k i => cases hk : laneAt w k <;> simp [Warp.getReg, hlane, hk, moveWait_regs]
  | s i => rfl

theorem sameRegisters_waitsMoved {m m' : Mach} {old new n : Nat} (h : m'.blocks = tabMap (Block.waitsMoved old new n) m.blocks) :
    sameRegisters m m' := by
  intro bid k r
  simp only [Mach.warp?, Mach.block?, h, tabFind_map]
  cases tabFind m.blocks bid with
  | none => rfl
  | some b =>
    simp only [Option.map_some, Option.bind_some, Block.waitsMoved, tabFind_map, Option.map_map]
    cases tabFind b.warps k with
    | none => rfl
    | some w => exact congrArg some (getReg_waitsMoved ..)

/-! ## The move of a page (R240) -/

theorem Mach.drained_none {m : Mach} (ht : m.trackers = []) (hd : m.drains = []) (p : Tracker → Bool) (q : Drain → Bool) :
    (m.drainAll p).applyDrains q = m := by
  have hall : m.drainAll p = m := by simp [Mach.drainAll, ht]
  simp [hall, Mach.applyDrains, hd]

/-- The pools once a frame of the tier's is taken, `pool` being left, and `back` is given to the other tier's. -/
def Ctx.framesSwapped (tier : Nat) (back : PoolFrame) (pool : List PoolFrame) (c : Ctx) : Ctx :=
  if tier = 0 then { c with poolFast := pool, poolCap := c.poolCap ++ [back] }
  else { c with poolCap := pool, poolFast := c.poolFast ++ [back] }

/-- What the move of a page leaves, of what a later step reads. -/
structure Mach.PageMoved (m m' : Mach) (ctx : Nat) (l : Leaf) (tier : Nat) (f : PoolFrame) (pool : List PoolFrame) : Prop where
  mem    : ∃ x < 2 ^ 64, m'.mem = memWrite (moveBytes l.frame f.pa (2 ^ l.log) m.mem) l.entry (bytesOfNat (remapped x tier f.pa) 8)
  tlb    : m'.tlb = m.tlb.filter fun e => !(e.leaf.tier ≤ 1 && e.leaf.frame == l.frame && e.leaf.log == l.log)
  blocks : m'.blocks = tabMap (Block.waitsMoved l.frame f.pa (2 ^ l.log)) m.blocks
  cores  : ∃ keep, m'.cores = tabMap (fun c => { c with l1 := tabFilter keep c.l1 }) m.cores
  ctxs   : m'.ctxs = tabMod m.ctxs ctx (Ctx.framesSwapped tier ⟨l.frame, l.log⟩ pool)

/-- The line of the entry is none of the new frame's. -/
theorem TierMove.entry_apart {p : CopyParams} {c : Command} {b : Block} {l : Leaf} {m : Mach} {f : PoolFrame} {pool : List PoolFrame} {tier : Nat}
    (h : TierMove p c b l m f pool tier) : inRange (f.pa / 128) (2 ^ l.log / 128) (lineOf l.entry) = false := by
  obtain ⟨hlog, -⟩ := h.size
  obtain ⟨-, hpa, -⟩ := h.aligned
  obtain ⟨he, -, hout⟩ := h.entry
  have hpow : 2 ^ l.log = 65536 * 2 ^ (l.log - 16) := by rw [← Nat.pow_add 2 16, Nat.add_sub_cancel' hlog]
  rw [← Bool.not_eq_true, inRange_iff, lineOf]
  omega

/-- Once the frame is copied the page's entry is written, and what held the old frame lets it go. -/
theorem Mach.FrameMoved.page {m m' : Mach} {ctx : Nat} {l : Leaf} {tier : Nat} {f : PoolFrame} {pool : List PoolFrame}
    (h : m.FrameMoved m' l.frame f.pa (2 ^ l.log)) (hl : l.log ≠ 21) (hs : m.scrub = []) (htable : tabFind m.side (lineOf l.entry) = none)
    (hentry : inRange (f.pa / 128) (2 ^ l.log / 128) (lineOf l.entry) = false) (stamps : Tab Stamps) (keep : Nat → L1Copy → Bool) (st : Nat) :
    m.PageMoved (({ m'.remapEntries l tier f.pa with
      stamps := stamps
      tlb := (m'.remapEntries l tier f.pa).tlb.filter fun e => !(e.leaf.tier ≤ 1 && e.leaf.frame == l.frame && e.leaf.log == l.log)
      cores := tabMap (fun c => { c with l1 := tabFilter keep c.l1 }) (m'.remapEntries l tier f.pa).cores
      blocks := tabMap (Block.waitsMoved l.frame f.pa (2 ^ l.log)) (m'.remapEntries l tier f.pa).blocks } : Mach).noteStamp st |>.modCtx ctx
        (Ctx.framesSwapped tier ⟨l.frame, l.log⟩ pool)) ctx l tier f pool := by
  obtain ⟨hscrub, hblocks, hcores, htlb, hctxs⟩ := h.same
  rw [Mach.remapEntries_one hl (hscrub.trans hs) (by rw [h.side, tabFind_moveSide _ _ _ _ hentry, htable])]
  refine ⟨⟨natOfBytes (m'.viewBytes none l.entry 8), ?_, ?_⟩, ?_, ?_, ⟨keep, ?_⟩, ?_⟩
  · simpa using natOfBytes_lt (m'.viewBytes none l.entry 8)
  · exact congrArg (fun x => memWrite x l.entry _) h.mem
  · exact congrArg (List.filter _) htlb
  · exact congrArg (tabMap (Block.waitsMoved l.frame f.pa (2 ^ l.log))) hblocks
  · exact congrArg (tabMap fun c => { c with l1 := tabFilter keep c.l1 }) hcores
  · exact congrArg (fun x => tabMod x ctx (Ctx.framesSwapped tier ⟨l.frame, l.log⟩ pool)) hctxs

theorem TierMove.pageMoved {p : CopyParams} {c : Command} {b : Block} {l : Leaf} {m : Mach} {f : PoolFrame} {pool : List PoolFrame} {tier : Nat}
    (h : TierMove p c b l m f pool tier) (mg : Mgmt) : m.PageMoved (m.movePage mg b.ctx l tier f pool).2 b.ctx l tier f pool := by
  obtain ⟨hscrub, htrackers, hdrains⟩ := h.clear
  unfold Mach.movePage
  simp only [Mach.drained_none htrackers hdrains]
  exact (Mach.copyFrame_moves hscrub ..).page h.size.2 hscrub h.table h.entry_apart _ _ _

end Sys2Proof.Machine
end

section
/-! SUPPORT. The steps of a tier move (R229, R240, R241): its page is moved, or passed over. -/

namespace Sys2Proof.Machine

/-! ## The page of a tier move -/

/-- A page that a TLB on the actor's way holds is the page of the move. -/
theorem Mach.tierLeaf_cached {m : Mach} {a : Actor} {va : Nat} {l : Leaf} (h : m.cachedLeaf a va = some l) :
    m.tierLeaf a va = (.ok l, m) := by
  unfold Mach.cachedLeaf at h
  split_ifs at h with hen
  obtain ⟨e, he, rfl⟩ := Option.map_eq_some_iff.1 h
  simp only [Mach.tierLeaf, Mach.translate, hen.1, he, Bool.not_true, Bool.false_or, decide_eq_true_eq, if_neg (Nat.not_le.2 hen.2)]

theorem Mach.tierLeaf_keepsUnits {m m1 : Mach} {a : Actor} {va : Nat} {l : Leaf} (h : m.tierLeaf a va = (.ok l, m1)) : m.KeepsUnits m1 := by
  have htrans := m.translate_keepsUnits a va
  unfold Mach.tierLeaf at h
  generalize m.translate a va = e at h htrans
  obtain ⟨_ | l', m'⟩ := e
  · cases h
  · cases h
    exact htrans

/-- The command goes on to the next page, or is done (R240). -/
def Mach.tierNext (m : Mach) (core key : Nat) (p : CopyParams) (c : Command) (l : Leaf) (st : Nat) : Mach :=
  (if p.acq then m.noteStamp (max c.stamp st + 1) else m).modChanHead core key fun c' =>
    { c' with offset := c'.offset + 2 ^ l.log, stamp := max c.stamp st, ready := decide (c'.offset + 2 ^ l.log ≥ p.len) }

theorem Mach.tierNext_eq (m : Mach) (core key : Nat) (p : CopyParams) (c : Command) (l : Leaf) (st : Nat) :
    ∃ cores n, m.tierNext core key p c l st = { m with cores := cores, maxStamp := n } := by
  unfold Mach.tierNext
  split_ifs <;> exact ⟨_, _, rfl⟩

theorem Mach.tierNext_head {m : Mach} {core key : Nat} {c : Command} {rest : List Command} (h : m.chanCmds core key = c :: rest)
    (p : CopyParams) (l : Leaf) (st : Nat) : ∃ c', (m.tierNext core key p c l st).chanCmds core key = c' :: rest ∧
      c'.offset = c.offset + 2 ^ l.log ∧ c'.ready = decide (p.len ≤ c.offset + 2 ^ l.log) := by
  unfold Mach.tierNext
  split_ifs
  · exact ⟨_, Mach.chanCmds_modChanHead (m := m.noteStamp _) h _, rfl, rfl⟩
  · exact ⟨_, Mach.chanCmds_modChanHead h _, rfl, rfl⟩

section
variable {s : State} {core ctx chan : Nat} {c : Command} {rest : List Command} {b : Block} {x : BitVec 512} {tag : Mask} {l : Leaf} {m1 : Mach}
  (h : AtChannel s core ctx chan c rest b) (hop : c.op = .copy x tag true)
  (hgo : c.ready = false ∧ c.begun = true ∧ c.fwait = none) (hbar : (copyParams x).bar = 0)
  (hleaf : s.mach.tierLeaf (b.engineActor false) ((copyParams x).src + c.offset) = (.ok l, m1))
include h hop hgo hbar hleaf

/-- A page in the other tier that nothing holds is moved to the first frame of its size. -/
theorem AtChannel.tierPage_moves {f : PoolFrame} {pool : List PoolFrame} {tier : Nat} (ht : TierMove (copyParams x) c b l m1 f pool tier) :
    s.mach.tierPage s.mgmt core (8 * ctx + chan) = (m1.movePage s.mgmt b.ctx l tier f pool).2.tierNext core (8 * ctx + chan) (copyParams x) c l
      (m1.movePage s.mgmt b.ctx l tier f pool).1 := by
  have hblock : s.mach.block? c.bid = some b := h.block
  obtain ⟨hready, hbegun, hwait⟩ := hgo
  obtain ⟨-, htier⟩ := ht.params
  obtain ⟨hlow, hother⟩ := ht.other
  have hdevice : ¬ l.tier ≥ 2 := by omega
  unfold Mach.tierPage
  simp only [Mach.chanHead_cons h.queue, hop, hblock, hready, hbegun, hwait, Mach.copyBar, hbar, ← htier, Option.isSome_none, Bool.not_true,
    Bool.or_false, Bool.false_eq_true, if_false, decide_true, Bool.true_or, if_true, hleaf, hdevice, ht.idle, Bool.and_false, hother, ht.frame]
  rfl

/-- A page that is in the tier already is passed over. -/
theorem AtChannel.tierPage_skips (ht : l.tier = if (copyParams x).op = 2 then 0 else 1) :
    s.mach.tierPage s.mgmt core (8 * ctx + chan) = m1.tierNext core (8 * ctx + chan) (copyParams x) c l 0 := by
  have hblock : s.mach.block? c.bid = some b := h.block
  obtain ⟨hready, hbegun, hwait⟩ := hgo
  have hdevice : ¬ l.tier ≥ 2 := by rw [ht]; split_ifs <;> omega
  unfold Mach.tierPage
  simp only [Mach.chanHead_cons h.queue, hop, hblock, hready, hbegun, hwait, Mach.copyBar, hbar, ← ht, Option.isSome_none, Bool.not_true,
    Bool.or_false, Bool.false_eq_true, if_false, decide_true, Bool.true_or, if_true, hleaf, hdevice, ne_eq, not_true_eq_false, decide_false,
    Bool.false_and]
  rfl

end
end Sys2Proof.Machine
end

section
/-! SUPPORT. O33: copies and tier moves. What a moved page leaves to be read, and the steps of the three instructions. -/

namespace Sys2Proof.Machine

/-! ## A moved page (R240) -/

section
variable {m m' : Mach} {ctx tier : Nat} {l : Leaf} {f : PoolFrame} {pool : List PoolFrame}

theorem Mach.PageMoved.chanCmds (h : m.PageMoved m' ctx l tier f pool) (core key : Nat) : m'.chanCmds core key = m.chanCmds core key := by
  obtain ⟨keep, hcores⟩ := h.cores
  have hcore : m'.core core = { m.core core with l1 := tabFilter keep (m.core core).l1 } := by
    rw [Mach.core, Mach.core, hcores, tabGet, tabGet, tabFind_map]
    cases tabFind m.cores core <;> rfl
  rw [Mach.chanCmds, hcore]
  rfl

/-- The new frame has left the pool of its tier, and the old one is in the other's. -/
theorem Mach.PageMoved.pools (h : m.PageMoved m' ctx l tier f pool) (hctx : tabHas m.ctxs ctx = true) :
    (if tier = 0 then (m'.ctx ctx).poolFast else (m'.ctx ctx).poolCap) = pool ∧
      ⟨l.frame, l.log⟩ ∈ (if tier = 0 then (m'.ctx ctx).poolCap else (m'.ctx ctx).poolFast) := by
  have hswap : m'.ctx ctx = Ctx.framesSwapped tier ⟨l.frame, l.log⟩ pool (m.ctx ctx) := by
    rw [Mach.ctx, h.ctxs, tabGet_mod, if_pos ⟨rfl, hctx⟩]
    rfl
  rw [hswap]
  unfold Ctx.framesSwapped
  split_ifs <;> simp

/-- No TLB copy names the old frame. -/
theorem Mach.PageMoved.copies (h : m.PageMoved m' ctx l tier f pool) :
    ∀ e ∈ m'.tlb, e.leaf.tier ≤ 1 → e.leaf.log = l.log → e.leaf.frame ≠ l.frame := by
  intro e he htier hlog hframe
  rw [h.tlb, List.mem_filter] at he
  simp [htier, hlog, hframe] at he

/-- The entry is written at its eight bytes, over the moved frame. -/
theorem Mach.PageMoved.bytes (h : m.PageMoved m' ctx l tier f pool) (hwf : Memory.wf m.mem = true) {a : Nat}
    (ha : a < l.entry ∨ l.entry + 8 ≤ a) :
    memGet m'.mem a = if f.pa ≤ a ∧ a < f.pa + 2 ^ l.log then memGet m.mem (l.frame + (a - f.pa)) else memGet m.mem a := by
  obtain ⟨x, -, hmem⟩ := h.mem
  rw [hmem, memGet_write _ _ _ _ (moveBytes_wf hwf ..), bytesOfNat_length, if_neg (by omega), memGet_moveBytes hwf]

/-- The entry names the new frame and tier. -/
theorem Mach.PageMoved.entry (h : m.PageMoved m' ctx l tier f pool) (hwf : Memory.wf m.mem = true) (htier : tier < 4)
    (hf : f.pa < 2 ^ 48) (ha : f.pa % 65536 = 0) :
    field (natOfBytes (memRead m'.mem l.entry 8)) 47 16 * 65536 = f.pa ∧ field (natOfBytes (memRead m'.mem l.entry 8)) 9 8 = tier := by
  obtain ⟨x, hx, hmem⟩ := h.mem
  obtain ⟨hword, hframe, hname⟩ := remapped_fields hx htier hf ha
  have hread : memRead m'.mem l.entry 8 = bytesOfNat (remapped x tier f.pa) 8 := by
    have hwrite := memRead_write (moveBytes l.frame f.pa (2 ^ l.log) m.mem) l.entry (bytesOfNat (remapped x tier f.pa) 8) (moveBytes_wf hwf ..)
    rwa [bytesOfNat_length, ← hmem] at hwrite
  rw [hread, natOfBytes_ofNat, Nat.mod_eq_of_lt hword]
  exact ⟨hframe, hname⟩

end

/-- The page is moved and the command goes on. -/
theorem TierMove.moved {p : CopyParams} {c : Command} {rest : List Command} {b : Block} {l : Leaf} {m : Mach} {f : PoolFrame}
    {pool : List PoolFrame} {tier core key : Nat} (h : TierMove p c b l m f pool tier) (hq : m.chanCmds core key = c :: rest) (s : State)
    (mg : Mgmt) (st : Nat) : Moved m { s with mach := (m.movePage mg b.ctx l tier f pool).2.tierNext core key p c l st } core key b.ctx p c rest l f pool tier := by
  have hmove := h.pageMoved mg
  generalize (m.movePage mg b.ctx l tier f pool).2 = m' at hmove
  obtain ⟨cores, n, hnext⟩ := m'.tierNext_eq core key p c l st
  obtain ⟨hwf, -, -⟩ := (Mach.memoriesOk_iff m).1 h.wf
  obtain ⟨-, hpa, hlow⟩ := h.aligned
  obtain ⟨-, -, happart⟩ := h.entry
  obtain ⟨-, htier⟩ := h.params
  have hgoes := Mach.tierNext_head ((hmove.chanCmds core key).trans hq) p l st
  rw [hnext] at hgoes ⊢
  exact {
    regs := (sameRegisters_waitsMoved hmove.blocks).trans (sameRegisters_of_blocks rfl)
    bytes := fun i hi => by
      rw [hmove.bytes hwf (by omega), if_pos (by omega), Nat.add_sub_cancel_left]
    others := fun a hframe hentry => by rw [hmove.bytes hwf hentry, if_neg (by omega)]
    entry := hmove.entry hwf (by rw [htier]; split_ifs <;> omega) hlow hpa
    copies := hmove.copies
    pools := hmove.pools
    goesOn := hgoes }

/-! ## The steps of the channel (R233, R236, R240) -/

section
variable {s : State} {core ctx chan : Nat} {c : Command} {rest : List Command} {b : Block} (h : AtChannel s core ctx chan c rest b)
include h

theorem AtChannel.does_copyStart {p : State → Prop} (hstall : (s.mach.copyStart s.mgmt core (8 * ctx + chan)).stalled = false)
    (hp : p { s with mach := s.mach.copyStart s.mgmt core (8 * ctx + chan) }) : Does (.copyCommandStart core ctx chan) s p :=
  does_onEvent h.on (f := fun mg m => if chan < 8 then (m.copyStart mg core (8 * ctx + chan)).unlessHeld m else m) rfl
    (by rwa [if_pos h.legal, Mach.unlessHeld, hstall, if_neg (by decide)])

theorem AtChannel.exec_copyComplete :
    exec (.copyComplete core ctx chan) s = .next { s with mach := s.mach.copyComplete core (8 * ctx + chan) } := by
  have hstep := onEvent_on h.on fun _ m => if chan < 8 then m.copyComplete core (8 * ctx + chan) else m
  rwa [if_pos h.legal] at hstep

theorem AtChannel.does_tierPage {p : State → Prop} (hp : p { s with mach := s.mach.tierPage s.mgmt core (8 * ctx + chan) }) :
    Does (.tierPageMove core ctx chan) s p :=
  does_onEvent h.on (f := fun mg m => if chan < 8 then m.tierPage mg core (8 * ctx + chan) else m) rfl (by rwa [if_pos h.legal])

/-- The step delivers a part (R233, R234). -/
theorem AtChannel.copies {x : BitVec 512} {tag : Mask} (hop : c.op = .copy x tag false) (hs : SpadCopy s (copyParams x) c b) :
    let p := copyParams x
    let n := nextPart p c
    let d := streamAddr p p.dst p.dstr c.offset
    Does (.copyCommandStart core ctx chan) s fun t => sameRegisters s.mach t.mach ∧ sameMemory s.mach t.mach ∧
      ∃ (c' : Command) (b' : Block), t.mach.chanCmds core (8 * ctx + chan) = c' :: rest ∧ c'.id = c.id ∧
        c'.offset = c.offset + n ∧ c'.ready = decide (c.offset + n = p.total) ∧
        tabFind t.mach.blocks c.bid = some b' ∧ memRead b'.spad d n = partBytes p c b ∧
        (∀ a, a < d ∨ d + n ≤ a → memGet b'.spad a = memGet b.spad a) ∧
        tabGet (t.mach.core core).wptr (8 * ctx + chan) 0 =
          tabGet (s.mach.core core).wptr (8 * ctx + chan) 0 + BitVec.ofNat 64 n := by
  intro p n d
  obtain ⟨⟨blocks, cores, k, hrest⟩, hregs, ⟨stamps, tags, hblock⟩, ⟨c', hcmds, hid, hoffset, hready⟩, hcount⟩ :=
    Mach.copyStart_delivers h hop hs
  obtain ⟨-, hwf⟩ := hs.good
  have hlen : (partBytes p c b).length = n := by
    unfold partBytes
    split_ifs <;> simp [n]
  refine h.does_copyStart (by rw [hrest]; exact hs.quiet) ⟨hregs, by rw [hrest]; exact ⟨rfl, rfl, rfl⟩, c', _, hcmds, hid, hoffset, hready,
    hblock, ?_, ?_, hcount⟩
  · have hwrite := memRead_write b.spad d (partBytes p c b) hwf
    rwa [hlen] at hwrite
  · show ∀ a, a < d ∨ d + n ≤ a → memGet (memWrite b.spad d (partBytes p c b)) a = memGet b.spad a
    intro a ha
    rw [memGet_write _ _ _ _ hwf, if_neg (by omega)]

/-- A command that is done leaves its channel, and its slot falls (R236). -/
theorem AtChannel.completes (hready : c.ready = true) : Does (.copyComplete core ctx chan) s fun t =>
    t.mach.chanCmds core (8 * ctx + chan) = rest ∧ sameRegisters s.mach t.mach ∧ sameMemory s.mach t.mach ∧
      ∀ id w, c.flight = some id → t.mach.warp? c.bid c.warp = some w → ∀ f ∈ w.flights, f.id ≠ id := by
  refine ⟨_, h.exec_copyComplete, ?_⟩
  have hq : (s.mach.endCommand c).chanCmds core (8 * ctx + chan) = c :: rest :=
    (Mach.chanCmds_congr (s.mach.endCommand_cores c) ..).trans h.queue
  rw [Mach.copyComplete_ready h.queue hready]
  exact ⟨Mach.chanCmds_modChan hq _, (s.mach.endCommand_registers c).trans (sameRegisters_of_blocks rfl),
    (s.mach.endCommand_rewarps c).alike.memory, fun _ _ hflight hwarp => Mach.endCommand_flights hflight hwarp⟩

section
variable {x : BitVec 512} {tag : Mask} {l : Leaf} {m1 : Mach} (hop : c.op = .copy x tag true)
  (hleaf : s.mach.tierLeaf (b.engineActor false) ((copyParams x).src + c.offset) = (.ok l, m1))
include hop hleaf

/-- A page of the other tier is moved (R240). -/
theorem AtChannel.moves {f : PoolFrame} {pool : List PoolFrame} {tier : Nat} (ht : TierMove (copyParams x) c b l m1 f pool tier) :
    Does (.tierPageMove core ctx chan) s fun t => Moved m1 t core (8 * ctx + chan) b.ctx (copyParams x) c rest l f pool tier := by
  have hq := ((Mach.tierLeaf_keepsUnits hleaf).chanCmds core (8 * ctx + chan)).trans h.queue
  refine h.does_tierPage ?_
  rw [h.tierPage_moves hop ht.goes ht.params.1 hleaf ht]
  exact ht.moved hq ..

/-- A page of the tier itself is passed over (R240). -/
theorem AtChannel.skips (hgo : c.ready = false ∧ c.begun = true ∧ c.fwait = none) (hbar : (copyParams x).bar = 0)
    (ht : l.tier = if (copyParams x).op = 2 then 0 else 1) :
    Does (.tierPageMove core ctx chan) s fun t => sameRegisters s.mach t.mach ∧ sameMemory m1 t.mach ∧ t.mach.ctxs = m1.ctxs ∧
      ∃ c', t.mach.chanCmds core (8 * ctx + chan) = c' :: rest ∧ c'.offset = c.offset + 2 ^ l.log := by
  have hkeep := Mach.tierLeaf_keepsUnits hleaf
  obtain ⟨c', hcmds, hoffset, -⟩ := Mach.tierNext_head ((hkeep.chanCmds core (8 * ctx + chan)).trans h.queue) (copyParams x) l 0
  obtain ⟨cores, n, hnext⟩ := m1.tierNext_eq core (8 * ctx + chan) (copyParams x) c l 0
  refine h.does_tierPage ?_
  rw [h.tierPage_skips hop hgo hbar hleaf ht]
  rw [hnext] at hcmds ⊢
  exact ⟨sameRegisters_of_blocks hkeep.blocks, ⟨rfl, rfl, rfl⟩, rfl, c', hcmds, hoffset⟩

end
end

end Sys2Proof.Machine

open Sys2Proof Sys2Proof.Machine

/-- Settles O33: a part of a stream that ends in its row is one piece, read before it is written (R233, R234); the move of a page is
taken apart into what became of its bytes, its entry, its TLB copies and the pools (R240), and a page that a TLB holds is one case of a
page that translates. -/
theorem copiesAndTierMoves : Obligations.CopiesAndTierMoves := by
  unfold Obligations.CopiesAndTierMoves
  refine ⟨⟨fun s core ctx chan c rest b x tag h hop hs => ?_, fun s core ctx chan c rest b h => ⟨fun hready => ?_, h.completes⟩⟩, ?_, ?_, ?_⟩
  · intro p n d _ _
    exact h.copies hop hs
  · rw [h.exec_copyComplete, Mach.copyComplete_waits h.queue hready]
  · intro s core ctx chan c rest b x tag l pa f pool tier h hop hone ht
    exact h.moves hop (Mach.tierLeaf_cached hone.leaf) ht
  · intro s core ctx chan c rest b x tag l m1 f pool tier h hop hleaf ht
    exact h.moves hop hleaf ht
  · intro s core ctx chan c rest b x tag l m1 h hop hready hbegun hwait hbar hleaf ht
    exact h.skips hop hleaf ⟨hready, hbegun, hwait⟩ hbar ht
end

section
/-! SUPPORT. Writes to the registers of a function that nothing locks (R323), and the writes of LQ.RING and LQ.WAKE (R245 to R247, R273,
R274). -/

namespace Sys2Proof.Machine

/-! ## Functions that nothing locks -/

theorem unlocked.serves {s : State} {fn : Nat} (h : unlocked s fn) : s.mgmt.isLocked fn = false ∧ (s.mgmt.fn fn).tdi ≠ .error := by
  unfold Mgmt.isLocked
  rw [show (s.mgmt.fn fn).tdi = .unlocked from h]
  exact ⟨rfl, nofun⟩

theorem lockedOr_unlocked {s : State} {fn : Nat} (h : unlocked s fn) (write : Mgmt → Mach → Mgmt × Mach) (m : Mach) :
    lockedOr fn write s.mgmt m = write s.mgmt m := by
  obtain ⟨hlock, herror⟩ := h.serves
  simp [lockedOr, hlock, herror]

theorem ringWriteLocked_unlocked {s : State} {k : Nat} (hk : k < 512) (h : unlocked s (s.mach.queue k).fn) (x : BitVec 64) :
    ringWriteLocked k x s.mgmt s.mach = (s.mgmt, s.mach.ringWrite k x) := by
  unfold ringWriteLocked
  simp only [if_neg (Nat.not_le.2 hk), h.serves.1, lockedOr_unlocked h, Bool.and_false, Bool.false_eq_true, if_false]

/-! ## LQ.RING and LQ.WAKE -/

theorem Mach.queue_setQueue (m : Mach) (k j : Nat) (q : Queue) : (m.setQueue k q).queue j = if j = k then q else m.queue j :=
  m.queue_modQueue k j fun _ => q

section
variable {m : Mach} {k : Nat} {x : BitVec 64}

/-- What a queue that EN enables takes from the value. -/
theorem Queue.fields_enabled {q : Queue} (hx : x.getLsbD 53 = true) :
    q.fields x = { q with base := field x.toNat 47 0, log2n := field x.toNat 51 48, host := x.getLsbD 52, en := true } := by
  rw [Queue.fields, hx]

section
variable (hen : (m.queue k).en = false) (hx : x.getLsbD 53 = true) (hn : field x.toNat 51 48 ≠ 0)
include hen hx hn

/-- A disabled queue whose launches are over starts from zero (R245). -/
theorem Mach.ringWrite_disabled (hstate : (m.queue k).state = .disabled) (hover : (m.queue k).done = (m.queue k).rd) :
    m.ringWrite k x = m.setQueue k { (m.queue k).fields x with
      state := .enabled, head := 0, tail := 0, done := 0, rd := 0, fcause := 0, beyond := [], woken := false } := by
  simp [Mach.ringWrite, Queue.fields, hen, hx, hn, hstate, hover]

/-- A faulted queue goes on where it stands (R274). -/
theorem Mach.ringWrite_faulted (hstate : (m.queue k).state = .faulted) :
    m.ringWrite k x = m.setQueue k { (m.queue k).fields x with state := .enabled, fcause := 0, woken := false } := by
  simp [Mach.ringWrite, Queue.fields, hen, hx, hn, hstate]

end

/-- A queue that reads no record is disabled at once (R273). -/
theorem Mach.ringWrite_disables (hen : (m.queue k).en = true) (hx : x.getLsbD 53 = false) (hstate : (m.queue k).state = .enabled)
    (hidle : (m.queue k).head = (m.queue k).tail) :
    m.ringWrite k x =
      ({ m with free := m.free + 1 } : Mach).setQueue k { (m.queue k).fields x with state := .disabled, woken := false } := by
  have hoff : ((m.queue k).fields x).en = false := hx
  have hquiet : m.queueActive (m.queue k) = false := by simp [Mach.queueActive, hidle]
  simp [Mach.ringWrite, hen, hoff, hquiet, hstate]

theorem Mach.wake_awake (hstate : (m.queue k).state ≠ .disabled) (hn : (m.queue k).log2n ≠ 0) (x : Word) :
    m.wake k x = m.setQueue k { m.queue k with
      tail := x.extractLsb' 0 16, woken := (m.queue k).woken || (m.queue k).state == .enabled } := by
  simp [Mach.wake, Mach.modQueue, hstate, hn]

end
end Sys2Proof.Machine
end

section
/-! SUPPORT. Launch records (R247, R249): how the distributor reads one from a slot, and what it makes of the machine. -/

namespace Sys2Proof.Machine

/-! ## Records -/

/-- The queue is woken and has a record that the distributor may read (R247, R249). -/
structure Mach.HasRecord (m : Mach) (k ctx : Nat) : Prop where
  bound  : (m.queue k).ctx = some ctx
  active : m.queueActive (m.queue k) = true
  room   : m.openLaunches k < 16
  inRing : ((m.queue k).tail - (m.queue k).head).toNat ≤ 2 ^ (m.queue k).log2n
  shared : ((m.queue k).host && m.hostHeld ctx) = false

/-- The launch of a record that queue `k` has just read. -/
def Queue.launchOf (q : Queue) (k ctx : Nat) (bs : List Byte) : Launch :=
  { rec_ := parseRec (natOfBytes bs), queue := k, seq := (q.rd + 1).toNat, ctx := ctx, order := none, start := 0, code := none, next := 0
    retired := 0, trust := [], world := none, waitFrom := none, blocking := false }

/-- The machine once the bytes of a record are read: the queue has passed them, and their launch is pending. -/
def Mach.recordTaken (m : Mach) (k ctx : Nat) (bs : List Byte) : Mach :=
  (({ m with ids := m.ids + 1 } : Mach).setQueue k { m.queue k with
    head := (m.queue k).head + 1, rd := (m.queue k).rd + 1, woken := (m.queue k).head + 1 != (m.queue k).tail }).setLaunch m.ids
      ((m.queue k).launchOf k ctx bs)

theorem Mach.readRecord_taken {m m1 : Mach} {mg : Mgmt} {k ctx : Nat} {bs : List Byte} (h : m.HasRecord k ctx)
    (hread : m.readSlot mg ctx (m.queue k) = (.ok bs, m1))
    (hrow : recRow (natOfBytes bs) (fun j => (m1.queue j).ctx == some ctx) (Mach.vaultHas mg ctx) = none) :
    m.readRecord mg k = m1.recordTaken k ctx bs := by
  obtain ⟨hbound, hactive, hroom, hring, hshared⟩ := h
  unfold Mach.readRecord
  simp only [hbound, hactive, hshared, if_neg (Nat.not_lt.2 hring), decide_eq_false (Nat.not_le.2 hroom), hread, hrow, Bool.not_true,
    Bool.or_false, Bool.false_eq_true, if_false]
  rfl

theorem Mach.recordTaken_read (m : Mach) (s : State) (k ctx : Nat) (bs : List Byte) :
    RecordRead m { s with mach := m.recordTaken k ctx bs } k ctx (m.queue k) bs where
  memory := ⟨rfl, rfl, rfl⟩
  blocks := rfl
  queues j hj := (Mach.queue_setQueue ..).trans (if_neg hj)
  queue := by
    have hq : (m.recordTaken k ctx bs).queue k = _ := (Mach.queue_setQueue ..).trans (if_pos rfl)
    rw [hq]
    exact ⟨rfl, rfl, rfl⟩
  launch := ⟨_, tabFind_set_same .., rfl, rfl, rfl, rfl, rfl⟩
  others j hj := (tabFind_set ..).trans (if_neg hj)

/-! ## The slot of a ring in device memory -/

/-- Plain bytes in an ordinary page have no data error. -/
theorem badLoc_plain {m : Mach} {a : Actor} {y : Loc} {pa : Nat} (hs : y.leaf.sealed = false) (hy : y.place = .dev pa)
    (hp : plainRange m pa y.n) (mg : Mgmt) : badLoc m mg a [y] = none := by
  have hnone : m.dataCauses mg a [y] = [] := by
    refine List.flatMap_eq_nil_iff.2 fun z hz => List.filterMap_eq_nil_iff.2 fun x hx => ?_
    obtain rfl := List.mem_singleton.1 hz
    simp only [partsOf, hy, List.mem_map] at hx
    obtain ⟨u, hu, rfl⟩ := hx
    obtain ⟨h1, -, h3⟩ := tiles_units.inside u hu
    simp [Mach.badPart, Mach.viewOf, hs, (hp.part h1 h3).good]
  rw [badLoc, hnone]
  rfl

/-- A slot in a cached ordinary page, of a ring that begins in one, is read as memory has it. -/
theorem Mach.readSlot_cached {m : Mach} {ctx pa : Nat} {q : Queue} {lb l : Leaf} (hhost : q.host = false)
    (hbase : m.cachedLeaf { engineOf ctx 0 0 with launch := m.ids } q.base = some lb) (hb : lb.ordinary)
    (hslot : OnePage m { engineOf ctx 0 0 with launch := m.ids } (q.base + 256 * (q.head.toNat % 2 ^ q.log2n)) 256 l pa) (mg : Mgmt) :
    ∃ m1, m.readSlot mg ctx q = (.ok (memRead m.mem pa 256), m1) ∧ m.Ordered m1 := by
  obtain ⟨hleaf, hpage, rfl, -, hplain, -⟩ := hslot
  have htier (x : Leaf) (hx : x.ordinary) : (x.tier == 2) = false := by
    obtain ⟨-, -, ht⟩ := hx
    exact beq_false_of_ne (by omega)
  have hgood := badLoc_plain (a := { engineOf ctx 0 0 with launch := m.ids }) (y := l.loc (_, 256)) hpage.1 rfl hplain mg
  obtain ⟨hbs, hord⟩ := Mach.engLoad_plain (a := { engineOf ctx 0 0 with launch := m.ids }) rfl (y := l.loc (_, 256)) hpage rfl hplain mg .thread
  refine ⟨_, ?_, hord⟩
  unfold Mach.readSlot
  have hplace (x : Leaf) (y : Nat × Nat) : (x.loc y).place = .dev (x.at y.1) ∧ (x.loc y).leaf = x := ⟨rfl, rfl⟩
  simp only [Mach.locate1_cached hbase hb, Mach.locate1_cached hleaf hpage, hplace, htier lb hb, htier l hpage, hhost, hgood, bne_self_eq_false,
    Bool.or_false, Bool.false_eq_true, if_false, Option.isSome_none]
  exact congrArg (fun bs => (Except.ok bs, _)) hbs

/-- What was read of a machine that serving an access left was read of the machine before. -/
theorem RecordRead.of_served {m m1 : Mach} (h : m.Served m1) {t : State} {k ctx : Nat} {q : Queue} {bs : List Byte}
    (hr : RecordRead m1 t k ctx q bs) : RecordRead m t k ctx q bs := by
  obtain ⟨_, _, _, _, _, _, _, _, _, _, _, _, rfl⟩ := h
  exact ⟨hr.memory, hr.blocks, hr.queues, hr.queue, hr.launch, hr.others⟩

theorem Mach.HasRecord.does {s : State} {m1 : Mach} {k ctx : Nat} {bs : List Byte} (h : s.mach.HasRecord k ctx) (hon : isOn s)
    (hread : s.mach.readSlot s.mgmt ctx (s.mach.queue k) = (.ok bs, m1)) (hqueue : m1.queue k = s.mach.queue k)
    (hrow : recRow (natOfBytes bs) (fun j => (m1.queue j).ctx == some ctx) (Mach.vaultHas s.mgmt ctx) = none) :
    Does (.launchRecordRead k) s fun t => RecordRead m1 t k ctx (s.mach.queue k) bs := by
  refine does_onEvent hon (f := fun mg m => m.readRecord mg k) rfl ?_
  rw [Mach.readRecord_taken h hread hrow, ← hqueue]
  exact m1.recordTaken_read s k ctx bs

end Sys2Proof.Machine

open Sys2Proof Sys2Proof.Machine

/-- Settles O34: each write of a register by the branch of `Mach.ringWrite` or `Mach.wake` that the queue's state takes; a record by what
its slot reads as (`Mach.readRecord_taken`), a ring in cached device pages being one that is read as memory has it
(`Mach.readSlot_cached`). -/
theorem launchQueues : Obligations.LaunchQueues := by
  unfold Obligations.LaunchQueues
  refine ⟨fun s k x hon hk hfree => ?ring, fun s k x hon hk hserves hstate hn => ?wake, ?cached, ?slot⟩
  case ring =>
    have hwrite : exec (.lqRingWrite k x) s = .next { s with mach := s.mach.ringWrite k x } := by
      refine (onModule_on hon (ringWriteLocked k x)).trans ?_
      rw [ringWriteLocked_unlocked hk hfree]
    refine ⟨fun hen hx hn hstate hover => ?_, fun hen hx hn hstate => ?_, fun hen hx hstate hidle => ?_⟩
    · rw [Makes, hwrite, Mach.ringWrite_disabled hen hx hn hstate hover, Queue.fields_enabled hx]
    · rw [Makes, hwrite, Mach.ringWrite_faulted hen hx hn hstate, Queue.fields_enabled hx]
    · refine ⟨_, hwrite, ?_⟩
      rw [Mach.ringWrite_disables hen hx hstate hidle]
      have hqueue (j : Nat) := Mach.queue_setQueue { s.mach with free := s.mach.free + 1 } k j
        { (s.mach.queue k).fields x with state := .disabled, woken := false }
      have hown := (hqueue k).trans (if_pos rfl)
      exact ⟨congrArg (·.state) hown, (congrArg (·.en) hown).trans hx, congrArg (·.done) hown,
        fun j hj => (hqueue j).trans (if_neg hj), ⟨rfl, rfl, rfl⟩, rfl⟩
  case wake =>
    have hwake := onModule_on hon fun mg m => if k ≥ 512 ∨ (mg.fn (m.queue k).fn).tdi = .error then (mg, m) else (mg, m.wake k x)
    rw [if_neg (not_or.2 ⟨Nat.not_le.2 hk, hserves⟩), Mach.wake_awake hstate hn] at hwake
    exact hwake
  case cached =>
    intro s k ctx lb l pa hon hbound hactive hroom hring hhost hbase hb hslot hrow
    obtain ⟨m1, hread, hord⟩ := Mach.readSlot_cached hhost hbase hb hslot s.mgmt
    have hqueue (j : Nat) : m1.queue j = s.mach.queue j := by
      obtain ⟨_, _, _, _, _, _, _, _, _, _, _, _, rfl⟩ := hord.served
      rfl
    have hrecord : s.mach.HasRecord k ctx := ⟨hbound, hactive, hroom, hring, by rw [hhost, Bool.false_and]⟩
    obtain ⟨t, hstep, ht⟩ := hrecord.does hon hread (hqueue k) (by simpa only [hqueue] using hrow)
    exact ⟨t, hstep, ht.of_served hord.served⟩
  case slot =>
    intro s k ctx bs m1 hon hbound hactive hroom hheld hring hread hqueue hrow
    exact Mach.HasRecord.does ⟨hbound, hactive, hroom, hring, by rw [hheld, Bool.and_false]⟩ hon hread hqueue hrow
end

section
/-! SUPPORT. Warps that are suspended, holds that begin (R278, R279), and what the watchdogs make of a context (R270). -/

namespace Sys2Proof.Machine

/-! ## Warps that are suspended -/

/-- A suspended warp, whose selected group is given up. -/
def Warp.halted (w : Warp) : Warp := { w with suspended := true, group := 0 }

theorem Mach.warp?_suspendWarps (warps : List Nat) (m : Mach) (bid j k : Nat) :
    (m.suspendWarps bid warps).warp? j k = if j = bid ∧ k ∈ warps then (m.warp? j k).map Warp.halted else m.warp? j k := by
  induction warps generalizing m with
  | nil => simp [Mach.suspendWarps]
  | cons i r ih =>
    have hstep : m.suspendWarps bid (i :: r) = (m.modWarp bid i Warp.halted).suspendWarps bid r := rfl
    rw [hstep, ih, Mach.warp?_modWarp]
    by_cases hj : j = bid
    · subst hj
      by_cases hi : k = i
      · subst hi
        cases m.warp? j k <;> simp [Warp.halted]
      · simp [hi]
    · simp [hj]

/-! ## What a hold adds to its context -/

/-- The context once a hold begins: the hold and its entry are the last ones. -/
def Ctx.withHold (c : Ctx) (h : Hold) (e : FqEntry) : Ctx :=
  { c with holds := c.holds ++ [h], holdNo := c.holdNo + 1, fq := c.fq ++ [e] }

/-- An entry of kinds 1 to 4 always waits (R283). -/
theorem Mach.fqPush_waits {kind : Nat} (hk : kind ≤ 4) (m : Mach) (ctx : Nat) (info : BitVec 64 × BitVec 64 × BitVec 64)
    (recs : List (BitVec 256)) (hold : Option (BitVec 16)) (region : Option Nat) : m.fqPush ctx kind info recs hold region =
      m.modCtx ctx fun c => { c with fq := c.fq ++ [⟨kind, info.1, info.2.1, info.2.2, recs, 0, hold, region, none⟩] } := by
  simp only [Mach.fqPush, gt_iff_lt, decide_eq_false (Nat.not_lt.2 hk), Bool.and_false, Bool.false_eq_true, if_false]

/-- A hold that begins changes its block's context alone (R279, R281). -/
theorem Mach.beginHold_some {m : Mach} {bid : Nat} {b : Block} (hb : tabFind m.blocks bid = some b) (unit : Scope) (warps : List Nat)
    (recs : List FaultRec) : ∃ h e, m.beginHold bid unit warps recs = m.modCtx b.ctx (·.withHold h e) ∧ h.unit = unit ∧ h.bid = bid ∧
      h.warps = warps ∧ h.written = false := by
  refine ⟨⟨pickHold (m.ctx b.ctx), unit, bid, warps, false, false⟩,
    ⟨1, BitVec.ofNat 64 ((pickHold (m.ctx b.ctx)).toNat + (scopeNum unit) <<< 16), launchInfo m b, 0, recs.map FaultRec.pack, 0,
      some (pickHold (m.ctx b.ctx)), none, none⟩, ?_, rfl, rfl, rfl, rfl⟩
  simp only [Mach.beginHold, Mach.block?, hb, Mach.fqPush_waits (show 1 ≤ 4 by omega)]
  exact congrArg (fun ctxs => { m with ctxs := ctxs }) (tabMod_mod ..)

/-! ## Steps that only suspend warps and add holds and entries -/

/-- From `m` to `m'` warps are suspended, and contexts gain holds and entries; nothing else of memory, registers and launches changes. -/
structure Mach.Suspends (m m' : Mach) : Prop where
  memory   : sameMemory m m'
  regs     : sameRegisters m m'
  launches : m'.launches = m.launches
  has      : ∀ c, tabHas m'.ctxs c = tabHas m.ctxs c
  blocks   : ∀ j b, tabFind m.blocks j = some b → ∃ warps, tabFind m'.blocks j = some { b with warps := warps }
  warps    : ∀ j k w', m'.warp? j k = some w' → ∃ w, m.warp? j k = some w ∧ (w.suspended = true → w'.suspended = true)
  entries  : ∀ c, ∀ e ∈ (m.ctx c).fq, e ∈ (m'.ctx c).fq
  holds    : ∀ c, ∀ h ∈ (m.ctx c).holds, h ∈ (m'.ctx c).holds

theorem Mach.Suspends.refl (m : Mach) : m.Suspends m :=
  ⟨⟨rfl, rfl, rfl⟩, fun _ _ _ => rfl, rfl, fun _ => rfl, fun _ b h => ⟨b.warps, h⟩, fun _ _ w h => ⟨w, h, id⟩, fun _ _ => id, fun _ _ => id⟩

theorem Mach.Suspends.trans {a b c : Mach} (h : a.Suspends b) (g : b.Suspends c) : a.Suspends c where
  memory := by
    obtain ⟨h1, h2, h3⟩ := h.memory
    obtain ⟨g1, g2, g3⟩ := g.memory
    exact ⟨g1.trans h1, g2.trans h2, g3.trans h3⟩
  regs := h.regs.trans g.regs
  launches := g.launches.trans h.launches
  has k := (g.has k).trans (h.has k)
  blocks j x hx := by
    obtain ⟨_, hx⟩ := h.blocks j x hx
    obtain ⟨warps, hx⟩ := g.blocks j _ hx
    exact ⟨warps, hx⟩
  warps j k w'' hw := by
    obtain ⟨w', hw', g1⟩ := g.warps j k w'' hw
    obtain ⟨w, hw, h1⟩ := h.warps j k w' hw'
    exact ⟨w, hw, g1 ∘ h1⟩
  entries k e he := g.entries k e (h.entries k e he)
  holds k x hx := g.holds k x (h.holds k x hx)

theorem Mach.Suspends.foldl {β : Type} {f : Mach → β → Mach} (h : ∀ (m : Mach) b, m.Suspends (f m b)) (l : List β) (m : Mach) :
    m.Suspends (l.foldl f m) :=
  List.foldlRecOn (motive := fun x => m.Suspends x) l f (.refl m) fun x hx b _ => hx.trans (h x b)

/-- A context that gains holds and entries. -/
theorem Mach.Suspends.modCtx {m : Mach} {c : Nat} {f : Ctx → Ctx} (hfq : ∀ x : Ctx, ∀ e ∈ x.fq, e ∈ (f x).fq)
    (hholds : ∀ x : Ctx, ∀ h ∈ x.holds, h ∈ (f x).holds) : m.Suspends (m.modCtx c f) :=
  { Mach.Suspends.refl m with
    has := fun _ => tabHas_mod ..
    entries := fun j e he => by
      rw [Mach.ctx_modCtx]
      split_ifs with hj
      · exact hfq _ _ (hj.1 ▸ he)
      · exact he
    holds := fun j h hh => by
      rw [Mach.ctx_modCtx]
      split_ifs with hj
      · exact hholds _ _ (hj.1 ▸ hh)
      · exact hh }

theorem Mach.fqPush_suspends (m : Mach) (ctx kind : Nat) (info : BitVec 64 × BitVec 64 × BitVec 64) (recs : List (BitVec 256))
    (hold : Option (BitVec 16)) (region : Option Nat) : m.Suspends (m.fqPush ctx kind info recs hold region) := by
  refine .modCtx (fun x e he => ?_) fun x h hh => ?_
  · split_ifs
    · exact he
    · exact List.mem_append_left _ he
  · split_ifs <;> exact hh

theorem Mach.suspendWarps_suspends (m : Mach) (bid : Nat) (warps : List Nat) : m.Suspends (m.suspendWarps bid warps) := by
  have hwarp := Mach.warp?_suspendWarps warps m bid
  obtain ⟨blocks, he, hkeep⟩ := Mach.suspendWarps_rewarps warps m bid
  refine { Mach.Suspends.refl m with regs := fun j k r => ?regs, warps := fun j k w' hw => ?warps, memory := ?_, launches := ?_, has := ?_
                                     blocks := ?_, entries := ?_, holds := ?_ }
  case regs =>
    rw [hwarp]
    split_ifs
    · rw [Option.map_map]
      exact congrArg (fun f => (m.warp? j k).map f) (funext fun w => getReg_congr rfl rfl r)
    · rfl
  case warps =>
    rw [hwarp] at hw
    split_ifs at hw
    · obtain ⟨w, hm, rfl⟩ := Option.map_eq_some_iff.1 hw
      exact ⟨w, hm, fun _ => rfl⟩
    · exact ⟨w', hw, id⟩
  all_goals rw [he]
  · exact ⟨rfl, rfl, rfl⟩
  · exact fun _ => rfl
  · exact hkeep
  · exact fun _ _ => id
  · exact fun _ _ => id

theorem Mach.beginHold_suspends (m : Mach) (bid : Nat) (unit : Scope) (warps : List Nat) (recs : List FaultRec) :
    m.Suspends (m.beginHold bid unit warps recs) := by
  cases hb : tabFind m.blocks bid with
  | none => rw [Mach.beginHold, Mach.block?, hb]; exact .refl m
  | some b =>
    obtain ⟨h, e, he, -⟩ := Mach.beginHold_some hb unit warps recs
    rw [he]
    exact .modCtx (fun _ _ => List.mem_append_left _) fun _ _ => List.mem_append_left _

/-! ## Blocks that are held -/

/-- A hold of block scope stands in the context, and every warp of the block is suspended. -/
def Mach.BlockHeld (m : Mach) (ctx bid : Nat) : Prop :=
  (∃ h ∈ (m.ctx ctx).holds, h.bid = bid ∧ h.unit = .block) ∧ ∀ k w, m.warp? bid k = some w → w.suspended = true

theorem Mach.Suspends.blockHeld {m m' : Mach} (h : m.Suspends m') {ctx bid : Nat} (hb : m.BlockHeld ctx bid) : m'.BlockHeld ctx bid := by
  obtain ⟨⟨x, hx, hunit⟩, hwarps⟩ := hb
  refine ⟨⟨x, h.holds ctx x hx, hunit⟩, fun k w hw => ?_⟩
  obtain ⟨w0, hw0, hkeep⟩ := h.warps bid k w hw
  exact hkeep (hwarps k w0 hw0)

/-- The watchdog's hold of one block (R270). -/
def Mach.holdBlock (m : Mach) (x : Nat × Block) : Mach :=
  (m.suspendWarps x.1 (tabKeys x.2.warps)).beginHold x.1 .block (tabKeys x.2.warps) []

theorem Mach.holdBlock_suspends (m : Mach) (x : Nat × Block) : m.Suspends (m.holdBlock x) :=
  (m.suspendWarps_suspends ..).trans (Mach.beginHold_suspends ..)

/-- A block that is there, with no other warps than those listed, is held. -/
theorem Mach.holdBlock_held {m : Mach} {bid : Nat} {b b' : Block} (hb : tabFind m.blocks bid = some b') (hctx : b'.ctx = b.ctx)
    (hc : tabHas m.ctxs b.ctx = true) (hkeys : ∀ k w, m.warp? bid k = some w → k ∈ tabKeys b.warps) :
    (m.holdBlock (bid, b)).BlockHeld b.ctx bid := by
  have hsus := m.suspendWarps_suspends bid (tabKeys b.warps)
  obtain ⟨warps, hb1⟩ := hsus.blocks bid b' hb
  obtain ⟨h, e, he, hunit, hbid, -⟩ := Mach.beginHold_some hb1 .block (tabKeys b.warps) []
  have hstep : m.holdBlock (bid, b) = (m.suspendWarps bid (tabKeys b.warps)).modCtx b.ctx (·.withHold h e) := hctx ▸ he
  rw [hstep]
  refine ⟨⟨h, ?_, hbid, hunit⟩, fun k w hw => ?_⟩
  · rw [Mach.ctx_modCtx, if_pos ⟨rfl, (hsus.has _).trans hc⟩]
    exact List.mem_append_right _ (List.mem_singleton_self h)
  · have hw1 : (m.suspendWarps bid (tabKeys b.warps)).warp? bid k = some w := hw
    obtain ⟨w0, hw0, -⟩ := hsus.warps bid k w hw1
    rw [Mach.warp?_suspendWarps, if_pos ⟨rfl, hkeys k w0 hw0⟩] at hw1
    obtain ⟨_, -, rfl⟩ := Option.map_eq_some_iff.1 hw1
    rfl

/-- Blocks of `m0` that are held one after another. -/
theorem Mach.holdBlocks_held {m0 m : Mach} (h0 : m0.Suspends m) {ctx : Nat} (hc : tabHas m0.ctxs ctx = true) {l : List (Nat × Block)}
    (hl : ∀ x ∈ l, tabFind m0.blocks x.1 = some x.2 ∧ x.2.ctx = ctx) : ∀ x ∈ l, (l.foldl Mach.holdBlock m).BlockHeld ctx x.1 := by
  induction l generalizing m with
  | nil => exact fun x hx => (List.not_mem_nil hx).elim
  | cons y r ih =>
    intro x hx
    have hrest := ih (h0.trans (m.holdBlock_suspends y)) fun z hz => hl z (List.mem_cons_of_mem _ hz)
    rcases List.mem_cons.1 hx with rfl | hx
    · obtain ⟨hb0, rfl⟩ := hl x List.mem_cons_self
      obtain ⟨warps, hb⟩ := h0.blocks _ _ hb0
      refine (Mach.Suspends.foldl Mach.holdBlock_suspends r _).blockHeld
        (Mach.holdBlock_held hb rfl ((h0.has _).trans hc) fun k w hw => (tabHas_iff_mem_keys _ k).1 ?_)
      obtain ⟨w0, hw0, -⟩ := h0.warps _ _ _ hw
      rw [Mach.warp?, Mach.block?, hb0, Option.bind_some] at hw0
      rw [tabHas, hw0]
      rfl
    · exact hrest x hx

end Sys2Proof.Machine
end

section
/-! SUPPORT. The watchdogs of a context (R270 to R272) and the suspension of a parked warp by time (R278). -/

namespace Sys2Proof.Machine

/-! ## The watchdog fires -/

/-- The resident blocks of a context that are not over. -/
def Mach.watchedBlocks (m : Mach) (ctx : Nat) : List (Nat × Block) :=
  m.blocks.cells.filter fun b => b.2.ctx == ctx && b.2.resident && !b.2.retired

section
variable {m : Mach} {ctx : Nat}

/-- Without fault modes the firing is an entry of kind 8 and the holds. -/
theorem Mach.watchFire_eq (hmode : ∀ k l, m.launch? k = some l → l.rec_.fmode = 0) (mg : Mgmt) (ext : Nat) :
    m.watchFire mg ctx ext = (m.watchedBlocks ctx).foldl Mach.holdBlock (m.fqPush ctx 8 (BitVec.ofNat 64 ext, 0, 0) [] none none) := by
  have hkeep := (m.fqPush_suspends ctx 8 (BitVec.ofNat 64 ext, 0, 0) [] none none).trans
    (Mach.Suspends.foldl Mach.holdBlock_suspends (m.watchedBlocks ctx) _)
  refine List.foldl_fixed' (fun k => Mach.faultMode_none (fun l hl => hmode k l ?_) mg) _
  exact (congrArg (tabFind · k) hkeep.launches).symm.trans hl

theorem mem_watchedBlocks (hrise : cellsRising m.blocks.cells = true) {x : Nat × Block} : x ∈ m.watchedBlocks ctx ↔
    tabFind m.blocks x.1 = some x.2 ∧ x.2.ctx = ctx ∧ x.2.resident = true ∧ x.2.retired = false := by
  have hcell : x ∈ m.blocks.cells ↔ tabFind m.blocks x.1 = some x.2 := ⟨cellsFind_of_mem hrise, cellsFind_mem⟩
  simp [Mach.watchedBlocks, hcell, and_assoc]

/-- What the firing of a watchdog leaves of a context whose launches have no fault mode (R270, R279). -/
def Mach.WatchFired (m m' : Mach) (ctx ext : Nat) : Prop :=
  sameMemory m m' ∧ sameRegisters m m' ∧
    ((m.ctx ctx).fq.length < 32 → ∃ e ∈ (m'.ctx ctx).fq, e.kind = 8 ∧ e.info0 = BitVec.ofNat 64 ext) ∧
    ∀ bid b, tabFind m.blocks bid = some b → b.ctx = ctx → b.resident = true → b.retired = false → m'.BlockHeld ctx bid

section
variable (hc : tabHas m.ctxs ctx = true) (hrise : tablesRise m) (hmode : ∀ k l, m.launch? k = some l → l.rec_.fmode = 0)
include hc hrise hmode

theorem Mach.watchFire_fired (mg : Mgmt) (ext : Nat) : m.WatchFired (m.watchFire mg ctx ext) ctx ext := by
  have hpush := m.fqPush_suspends ctx 8 (BitVec.ofNat 64 ext, 0, 0) [] none none
  have hhold := Mach.Suspends.foldl Mach.holdBlock_suspends (m.watchedBlocks ctx)
    (m.fqPush ctx 8 (BitVec.ofNat 64 ext, 0, 0) [] none none)
  have hfire := hpush.trans hhold
  obtain ⟨hblocks, -, -⟩ := hrise
  rw [Mach.watchFire_eq hmode]
  refine ⟨hfire.memory, hfire.regs, fun hroom => ?_, fun bid b hb hctx hres hret => ?_⟩
  · refine ⟨⟨8, BitVec.ofNat 64 ext, 0, 0, [], 0, none, none, none⟩, hhold.entries ctx _ ?_, rfl, rfl⟩
    rw [Mach.fqPush_room hc hroom]
    exact List.mem_append_right _ (List.mem_singleton_self _)
  · refine Mach.holdBlocks_held hpush hc (fun x hx => ?_) (bid, b) ((mem_watchedBlocks hblocks).2 ⟨hb, hctx, hres, hret⟩)
    obtain ⟨hfind, hctx, -⟩ := (mem_watchedBlocks hblocks).1 hx
    exact ⟨hfind, hctx⟩

/-- A step that fires a watchdog at its limit and does nothing before it (R271). -/
theorem watchdog_steps {s : State} (hs : s.mach = m) {i : Instr} {ext : Nat} {reached : Bool}
    (hexec : exec i s = .next { s with mach := if reached = true then s.mach.watchFire s.mgmt ctx ext else s.mach }) :
    (reached = true → Does i s fun t => s.mach.WatchFired t.mach ctx ext) ∧ (reached = false → exec i s = .next s) := by
  subst hs
  refine ⟨fun h => ?_, fun h => ?_⟩
  · rw [if_pos h] at hexec
    exact ⟨_, hexec, Mach.watchFire_fired hc hrise hmode s.mgmt ext⟩
  · rwa [if_neg (by simp [h])] at hexec

end
end

/-! ## The limits -/

theorem limitReached_iff (since : Option Nat) (limit : Word) (now : Nat) :
    limitReached since limit now = true ↔ ∃ t, since = some t ∧ limit ≠ 0 ∧ t + limit.toNat ≤ now := by
  cases since <;> simp [limitReached]

theorem Mach.watchInternal_stuck {m : Mach} {ctx : Nat} (h : m.stuck ctx = true) (mg : Mgmt) : m.watchInternal mg ctx =
    if limitReached (m.ctx ctx).stuckInt (m.ctx ctx).wdogInt m.now = true then m.watchFire mg ctx 0 else m := by
  simp only [Mach.watchInternal, h, Bool.true_and]

theorem Mach.watchExternal_idle {m : Mach} {ctx : Nat} (h : m.allIdle ctx = some true) (mg : Mgmt) : m.watchExternal mg ctx =
    if limitReached (m.ctx ctx).stuckExt (m.ctx ctx).wdogExt m.now = true then m.watchFire mg ctx 1 else m := by
  simp only [Mach.watchExternal, h, beq_self_eq_true, Bool.true_and]

/-- A lane of an idle context that waits on an external object (R271). -/
theorem Mach.allIdle_external {m : Mach} {ctx : Nat} (h : m.allIdle ctx = some true) :
    ∃ w ∈ m.residentWarps ctx, ∃ l ∈ w.lanes, l.external = true := by
  unfold Mach.allIdle at h
  dsimp only at h
  split_ifs at h
  simpa only [Option.some.injEq, List.any_eq_true] using h

/-- R98: what a write of CORE.SPLIT leaves. -/
theorem Ctx.writeSplit_clamped (c : Ctx) (spmax : BitVec 4) (x : Word) :
    (c.writeSplit spmax x).spadSet.toNat = min (x.toNat % 16) (min 11 spmax.toNat) ∧
      (c.writeSplit spmax x).clamp = decide (min 11 spmax.toNat < x.toNat % 16) := by
  have hfield : field x.toNat 3 0 = x.toNat % 16 := rfl
  simp only [Ctx.writeSplit, hfield, BitVec.toNat_ofNat]
  exact ⟨Nat.mod_eq_of_lt (by omega), decide_eq_decide.2 (by omega)⟩

/-! ## A parked warp (R278) -/

section
variable {m : Mach} {bid k : Nat} {b : Block} {w : Warp} {t : Nat} (h : Stands m bid k b w) (hpark : w.parkedAt = some t)
include h hpark

theorem Mach.suspendTimeout_early (hlt : m.cycle < t + 65536) (mg : Mgmt) : m.suspendTimeout mg bid k = m := by
  obtain ⟨hb, hw⟩ := h.finds
  simp [Mach.suspendTimeout, hb, hw, hpark, hlt]

variable (hres : b.resident = true) (hrun : w.suspended = false) (hlane : w.lanes.any Lane.isParked = true) (hdue : t + 65536 ≤ m.cycle)
include hres hrun hlane hdue

theorem Mach.suspendTimeout_due (hmode : ∀ l, m.launch? b.launch = some l → l.rec_.fmode = 0) (mg : Mgmt) :
    m.suspendTimeout mg bid k = (m.suspendWarps bid [k]).beginHold bid .warp [k] (warpRecs b [k]) := by
  obtain ⟨hb, hw⟩ := h.finds
  have hkeep := (m.suspendWarps_suspends bid [k]).trans (Mach.beginHold_suspends _ bid .warp [k] (warpRecs b [k]))
  simp only [Mach.suspendTimeout, hb, hw, hpark, hrun, hres, hlane, decide_eq_false (Nat.not_lt.2 hdue), Bool.not_true, Bool.or_false,
    Bool.false_eq_true, if_false]
  exact Mach.faultMode_none (fun l hl => hmode l (by rwa [Mach.launch?, hkeep.launches] at hl)) mg

end

end Sys2Proof.Machine

open Sys2Proof Sys2Proof.Machine

/-- Settles O39: a watchdog that fires is an entry and a fold of holds over the resident blocks, each of which keeps what the one before it
held (`Mach.holdBlocks_held`); the register writes are their equations; a parked warp's timeout is one suspension and one hold. -/
theorem watchdogsAndLimits : Obligations.WatchdogsAndLimits := by
  unfold Obligations.WatchdogsAndLimits
  refine ⟨⟨?internal, ?external, limitReached_iff, fun m ctx => Mach.allIdle_external⟩, ?wdog, ?split, ?timeout⟩
  case internal =>
    intro s ctx ⟨hon, hc, hrise, hmode⟩ hstuck
    have hexec := onEvent_on hon fun mg m => m.watchInternal mg ctx
    rw [Mach.watchInternal_stuck hstuck] at hexec
    exact watchdog_steps hc hrise hmode rfl hexec
  case external =>
    intro s ctx ⟨hon, hc, hrise, hmode⟩ hidle
    have hexec := onEvent_on hon fun mg m => m.watchExternal mg ctx
    rw [Mach.watchExternal_idle hidle] at hexec
    exact watchdog_steps hc hrise hmode rfl hexec
  case wdog =>
    intro s ctx ext x hon hfree hc
    have hexec := onModule_on hon (lockedOr (deviceOf ctx) fun mg m => (mg, m.modCtx ctx fun c => c.writeWdog ext x))
    rw [lockedOr_unlocked hfree] at hexec
    exact ⟨_, hexec, rfl, sameCtxs_modCtx _ _ _, ⟨rfl, rfl, rfl⟩, rfl, (Mach.ctx_modCtx ..).trans (if_pos ⟨rfl, hc⟩)⟩
  case split =>
    intro s ctx x hon hfree hc
    have hexec := onModule_on hon
      (lockedOr (deviceOf ctx) fun mg m => (mg, m.modCtx ctx fun c => c.writeSplit (tabGet mg.spmax (deviceOf ctx) 11) x))
    rw [lockedOr_unlocked hfree] at hexec
    refine ⟨_, hexec, rfl, sameCtxs_modCtx _ _ _, ⟨rfl, rfl, rfl⟩, rfl, ?_⟩
    rw [Mach.ctx_modCtx, if_pos ⟨rfl, hc⟩]
    exact Ctx.writeSplit_clamped ..
  case timeout =>
    intro s bid k b w t hon h hres hpark hrun hlane hc hmode
    have hexec := onEvent_on hon fun mg m => m.suspendTimeout mg bid k
    refine ⟨fun hlt => ?_, fun hdue => ?_⟩
    · rwa [Mach.suspendTimeout_early h hpark hlt] at hexec
    · have h1 : Stands (s.mach.suspendWarps bid [k]) bid k _ w.halted := h.modWarp Warp.halted
      obtain ⟨hold, e, he, hunit, hbid, hwarps, hwritten⟩ := Mach.beginHold_some h1.block .warp [k] (warpRecs b [k])
      rw [Mach.suspendTimeout_due h hpark hres hrun hlane hdue hmode, he] at hexec
      refine ⟨_, hexec, (s.mach.suspendWarps_suspends bid [k]).memory, ⟨_, _, ⟨h1.block, h1.warp⟩, rfl, rfl, rfl⟩, fun j hj => ?_, hold,
        ?_, hunit, hbid, hwarps, hwritten⟩
      · exact (Mach.warp?_suspendWarps [k] s.mach bid bid j).trans (if_neg (by simp [hj]))
      · rw [Mach.ctx_modCtx, if_pos ⟨rfl, hc⟩]
        rfl
end
